-- ==== Sys2Proof/Word.lean ====
section
/-! DEFINITION. The word types of the ZC-7200 model, the unit numbers of R9 and the status codes. -/

namespace Sys2Proof

abbrev Byte := BitVec 8
abbrev W16 := BitVec 16
abbrev W32 := BitVec 32
/-- A register: every register is 64 bits wide (00_scope, Conventions). -/
abbrev W64 := BitVec 64
/-- A SHA3-512 digest, and the 64-byte values the security block keeps. -/
abbrev Dig512 := BitVec 512
/-- A SHA3-256 digest, a 256-bit key or a 32-byte nonce. -/
abbrev Dig256 := BitVec 256
/-- A step number: 48 bits, R25. -/
abbrev StepNo := BitVec 48

/-! Unit numbers, R9. -/

abbrev EngineId := Fin 128
abbrev VaultId := Fin 32
abbrev FarId := Fin 48
abbrev PortId := Fin 48
abbrev CacheId := Fin 8
abbrev RingId := Fin 64
abbrev TillId := Fin 64
abbrev ChanId := Fin 8
abbrev IslandIdx := Fin 260

/-- Array A or B of an engine (R9). -/
inductive ArrId
  | a | b
deriving DecidableEq, Repr, Inhabited

/-- Status codes of completions, records and frames, named through all chapters with their codes. -/
inductive Status
  | ok | stateConflict | denied | badCharter | hallmarkFail | uncorrectable | mixedCut | peerLost
  | staleDropped | normSkipped | checkFail | overdraft | notResident | widthMismatch | envelope | sealed
deriving DecidableEq, Repr, Inhabited

/-- The code of a status. -/
def Status.code : Status → Byte
  | .ok => 0x00 | .stateConflict => 0x01 | .denied => 0x02 | .badCharter => 0x03
  | .hallmarkFail => 0x04 | .uncorrectable => 0x05 | .mixedCut => 0x06 | .peerLost => 0x07
  | .staleDropped => 0x08 | .normSkipped => 0x09 | .checkFail => 0x0A | .overdraft => 0x0B
  | .notResident => 0x0C | .widthMismatch => 0x0D | .envelope => 0x0E | .sealed => 0x0F

/-- A page location of R189, as its 32-bit word. -/
abbrev PageLoc := BitVec 32

/-- The 32-byte sideband of a 4 KiB block, four 64-bit words (R269). -/
structure Sideband where
  w0 : W64
  w1 : W64
  w2 : W64
  w3 : W64
deriving DecidableEq, Repr, Inhabited

/-- A 32-byte record of four 64-bit words (R97, R183, R279, R405). -/
structure Rec4 where
  w0 : W64
  w1 : W64
  w2 : W64
  w3 : W64
deriving DecidableEq, Repr, Inhabited

end Sys2Proof
end

