-- ==== Sys2Proof/Syntax.lean ====
section
/-! DEFINITION. The commands of the block: one constructor of Instr per row of spec/opcode_table.json, with the
operands the spec gives it. An operand that the module reads from outside itself (host memory, a peer, a sensor, a
physical fault) is part of the command; what the module works out itself is not. -/

namespace Sys2Proof

/-- Where a command entry comes from: a host ring, a management port or SMBus (R349, R455). -/
inductive CmdSrc
  | ring (r : RingId) | mgmt (port : Bool) | smbus
deriving DecidableEq, Repr, Inhabited

/-- The path of a direct register write (R449, R456 SOURCE). -/
inductive DirectSrc
  | bar0 | mgmt | smbus
deriving DecidableEq, Repr, Inhabited

/-- A command entry with its token and what the bursar reads for it (R349, R352, R453). -/
structure Cmd where
  /-- the path it came by -/
  src : CmdSrc
  /-- TAG of word 0, echoed in the completion -/
  tag : W16
  /-- TOKEN_LEN of word 0 -/
  tokenLen : W32
  /-- the token bytes at TOKEN_ADDR, or following the entry on the path of R455 -/
  token : List Byte
  arg0 : W64
  arg1 : W64
  arg2 : W64
  arg3 : W64
  arg4 : W64
  arg5 : W64
  /-- the payload bytes as the first read finds them -/
  payload : List Byte
  /-- the payload bytes as the second read finds them (R352) -/
  payload2 : List Byte
deriving DecidableEq, Repr, Inhabited

/-- A failure that cuts a transfer short: its status and the bytes written before it (R300). -/
structure Cut where
  status : Status
  bytes : Nat
deriving DecidableEq, Repr, Inhabited

/-- A slip: eight 64-bit words, word 0 at the lowest address (R288). -/
structure Slip where
  w0 : W64
  w1 : W64
  w2 : W64
  w3 : W64
  w4 : W64
  w5 : W64
  w6 : W64
  w7 : W64
deriving DecidableEq, Repr, Inhabited

/-- What a checkpoint slot holds where the module reads it (R417): commit record, counterfoil, and the blocks with
their 64-byte records in block order. -/
structure CkptImage where
  commit : List Byte
  counterfoil : List Byte
  blocks : List (List Byte × List Byte)
deriving DecidableEq, Repr, Inhabited

/-- A memory controller: a vault's or a far channel's (R259). -/
inductive CtlId
  | vault (v : VaultId) | far (f : FarId)
deriving DecidableEq, Repr, Inhabited

/-- Who asks a controller for data (R280). -/
inductive Requester
  | host
  | bursarLoad
  | bursarFetch
  | dma (e : EngineId) (c : ChanId)
  | tile (e : EngineId)
  | vector (e : EngineId)
  | accumulate (e : EngineId)
  | tillReload (e : EngineId)
  | tillSend (e : EngineId)
  | peerFetch (e : EngineId)
  | charterStore
  | cache
  | readModifyWrite
deriving DecidableEq, Repr, Inhabited

/-- What the code of R266 finds in one codeword of an access: a correction in a die's symbols, or a detected pattern. -/
inductive CwFault
  | corrected (die : Fin 8)
  | uncorrectable (die : Option (Fin 8))
deriving DecidableEq, Repr, Inhabited

/-- What a read meets on its way: faults the code finds, by the controller's codeword index; words of base-cache lines that
were corrected (R264), and the lines, counted within the access, that held an uncorrectable one (R265). -/
structure ReadMet where
  faults : List (Nat × CwFault)
  cacheCe : Nat
  cacheUe : List Nat
deriving DecidableEq, Repr, Inhabited

/-- A read request at a controller. -/
structure MemRead where
  addr : Nat
  len : Nat
  who : Requester
  /-- the access asks not to allocate in the base cache (R263) -/
  noAlloc : Bool
  mb : W16
  met : ReadMet
deriving DecidableEq, Repr, Inhabited

/-- A write request of whole codewords at a controller (R270, R272). -/
structure MemWrite where
  addr : Nat
  data : List Byte
  side : Option Sideband
  who : Requester
  /-- what the read of a merge entry retired for want of room meets (R272, R274) -/
  evict : Option CwFault
deriving DecidableEq, Repr, Inhabited

/-- The far end of a till block or control: another engine's till, an Envis peer on a virtual channel, a host ring. -/
inductive TillPath
  | onModule (e : EngineId) (t : TillId)
  | envis (peer : Nat) (vc : Fin 8)
  | host (r : RingId)
deriving DecidableEq, Repr, Inhabited

/-- A till block with its tag (R193, R310, R311). -/
structure TillBlk where
  path : TillPath
  plane : Bool
  data : List Byte
  side : Sideband
  /-- GCM_TAG and KEY_EPOCH of the trailer in a sealed job (R311, R325) -/
  gcmTag : BitVec 128
  epoch : Bool
  /-- how the write into the till store fails, if it does (R198) -/
  storeFail : Option Status
deriving DecidableEq, Repr, Inhabited

/-- What an OBJ_DATA block answers or is (R310, R327). -/
inductive ObjKind
  /-- a page of a version fetch or restore fetch, answering request REQ; the flag marks a page of the page map -/
  | fetch (req : Byte) (shard : BitVec 24) (isMap : Bool) (page : Nat)
  /-- a mirror page of a shard's state, from an engine of its owner (R256) -/
  | mirror (e : EngineId) (shard : BitVec 24) (version : StepNo) (page : Nat)
  /-- unsolicited data for this module's window (R327) -/
  | window (e : EngineId) (ch : ChanId) (offset : Nat)
  /-- the answer to a REQUEST READ of a DMA channel -/
  | dmaRead (e : EngineId) (c : ChanId) (offset : Nat)
deriving DecidableEq, Repr, Inhabited

/-- An OBJ_DATA block. -/
structure ObjBlk where
  peer : Nat
  kind : ObjKind
  data : List Byte
  side : Sideband
  /-- STATUS of the trailer (R311) -/
  status : Status
  vc : Fin 8
  gcmTag : BitVec 128
  epoch : Bool
deriving DecidableEq, Repr, Inhabited

/-- A clearing band (R310, R329). -/
structure ClearBlk where
  peer : Nat
  /-- DOWN: the all-gather direction -/
  down : Bool
  step : StepNo
  group : W16
  shard : BitVec 24
  engine : EngineId
  band : Nat
  zero : Bool
  data : List Byte
  side : Sideband
  gcmTag : BitVec 128
  epoch : Bool
deriving DecidableEq, Repr, Inhabited

/-- Where a control message of a till comes from: its far end, and PLANE of the frame (R313, R315). -/
structure CtrlFrom where
  path : TillPath
  plane : Bool
deriving DecidableEq, Repr, Inhabited

/-- What a MSG_CTRL frame speaks of, as its message sequence number names it: a till message, the block of a window at an
offset in blocks, a clearing band or a mirror page of a shard (R198, R256, R327, R333). -/
inductive CtrlOf
  | till (e : EngineId) (t : TillId) (seqNo : W32) (by_ : CtrlFrom)
  | slip (peer : Nat) (block : W32)
  | band (peer : Nat) (shard : BitVec 24)
  | mirror (peer : Nat) (shard : BitVec 24)
deriving DecidableEq, Repr, Inhabited

/-- Who asks a channel to stop (R298): its issuer, or the REG_WRITE of DMA_CTRL.STOP. -/
inductive StopOf
  | issuer (e : EngineId) (ch : ChanId)
  | write (c : Cmd)
deriving DecidableEq, Repr, Inhabited

/-- A request frame's fields (R313). -/
structure ReqFrame where
  peer : Nat
  req : Byte
  engine : EngineId
  chan : ChanId
  /-- SHARD or window OFFSET -/
  object : W64
  version : StepNo
  first : W32
  count : W32
  status : Status
deriving DecidableEq, Repr, Inhabited

/-- A corruption of one tile attempt by a physical fault: the accumulator word of a row and column is xored. -/
structure TileFault where
  attempt : Nat
  row : Nat
  col : Nat
  flip : W32
deriving DecidableEq, Repr, Inhabited

/-- What the SRAM code of R264 finds in the reads of one step: corrected words of the stage store, of the accumulator bank
and checksum store, and of the other SRAMs, and the uncorrectable words in the order in which they are read: STORE code of
R279 and byte offset. -/
structure SramRead where
  store : Nat
  acc : Nat
  other : Nat
  ue : List (Fin 4 × Nat)
deriving DecidableEq, Repr, Inhabited

/-- The units that take strikes (R405 strike record UNIT). -/
inductive Unit5
  | arrayA | arrayB | vector | reduction | row
deriving DecidableEq, Repr, Inhabited

/-- A duplex comparison's outcome for one instruction (R184): how many attempts mismatch, 0 to 3. -/
abbrev Mismatch := Fin 4

/-- What a program run or row pass meets: SRAM errors of its reads, the first uncorrectable one at the instruction issued
as number ueAt of the run; duplex comparisons that mismatch, by the number of their instruction (0 for a row pass); and the
cycles its instructions wait on their sources (R167, R184, R185). -/
structure RunEnv where
  sram : SramRead
  ueAt : Nat
  mism : List (Nat × Mismatch)
  depWait : Nat
deriving DecidableEq, Repr, Inhabited

/-- What the runs and row passes of a command meet, by their number within the step on the engine. -/
abbrev RunEnvs := List (Nat × RunEnv)

/-- A register-format vector instruction (R162): TYPE, DST, SRC_A, SRC_B, SRC_C and IMM of an immediate form. -/
structure VecR where
  engine : EngineId
  ty : Fin 4
  dst : Fin 64
  a : Fin 64
  b : Fin 64
  c : Fin 64
  imm : Option W32
  mismatch : Mismatch
  /-- cycles waited on the sources (R167) -/
  depWait : Nat
deriving DecidableEq, Repr, Inhabited

/-- A memory-format vector instruction (R162): REG, IDX, TD slot and SITE. -/
structure VecM where
  engine : EngineId
  reg : Fin 64
  idx : Fin 64
  td : Fin 16
  site : Byte
  sram : SramRead
  mismatch : Mismatch
  depWait : Nat
deriving DecidableEq, Repr, Inhabited

/-- The event classes of R394. -/
inductive EvClass
  | invalid | ovfSat | nanProd | rowFail | peerLost | unitLost | unrepairable | exhausted | audit
deriving DecidableEq, Repr, Inhabited

/-- An event that reaches the stage sequencer (R394). -/
structure FaultEv where
  cls : EvClass
  /-- the island that raised it: an engine's, or that of the unit that left service -/
  island : IslandIdx
  status : Status
  /-- the record of the EVENT frame -/
  record : Rec4
  mb : W16
  /-- the peer index of a PEER_LOST event -/
  peer : Nat
deriving DecidableEq, Repr, Inhabited

/-- A frame of an Envis port: the header as one 128-bit word and 256 payload bytes (R309). -/
structure Frame where
  hdr : BitVec 128
  payload : List Byte
deriving DecidableEq, Repr, Inhabited

/-- A clearing or norm verdict as a NORM VERDICT frame carries it (R313). -/
structure Verdict where
  step : StepNo
  skip : Bool
  eNext : Byte
  q : W64
  gamma : W32
deriving DecidableEq, Repr, Inhabited

/-- Sensor readings of a budget tick or a boundary (R472, R475, R483). -/
structure Readings where
  /-- mean input power of the tick [W] -/
  power : Nat
  /-- the greatest input power within the tick [W] (R474) -/
  peak : Nat
  /-- input voltage [10 mV] -/
  volts : W16
  /-- hottest sensor by island [deg C]; an island not listed reads below every limit -/
  temps : List (IslandIdx × Int)
deriving DecidableEq, Repr, Inhabited

/-- What the start-up sequence of R494 meets outside the module. -/
structure StartEnv where
  /-- fuse banks disagree with good parity in both (step 2) -/
  fuseSplit : Bool
  /-- the tag found on the security store, where it is not the one that the module has written (step 2, R447) -/
  storeTag : Option (BitVec 128)
  /-- vaults and far channels whose training fails (step 7) -/
  vaultBad : BitVec 32
  farBad : BitVec 48
  /-- ports whose three training attempts fail, and the far-end module of the others (step 9) -/
  portBad : BitVec 48
  /-- the readings with which the presets of their training are chosen (R483) -/
  rx : Readings
  farModule : List (BitVec 12)
  /-- width codes that the two sides of each lane module train to, and check patterns that fail: lane module l in round k, of
  the three that may be needed, at 16 k + l (step 6, R362) -/
  widthWest : List (BitVec 3)
  widthEast : List (BitVec 3)
  checkBad : BitVec 48
  /-- lane modules whose step 4 passes at code 2 after three failures (R363) -/
  lockOk : BitVec 16
  /-- the PCIe link partner is ready: rate code, width and FLIT mode (step 8) -/
  pcie : Option (BitVec 4 × BitVec 5 × Bool)
  /-- watchdog resets met in step 4 -/
  watchdogs : Nat
deriving DecidableEq, Repr, Inhabited

/-- A sampled-audit run: audited engine and the run's order in the step (R381). -/
structure AuditRun where
  engine : EngineId
  run : Nat
deriving DecidableEq, Repr, Inhabited

/-- What an engine's assay of one of its units comes to: the CRC that it obtains and the microseconds that it takes as a whole
(R399, R401). -/
structure AssayResult where
  engine : EngineId
  unit : Unit5
  crc : W32
  micros : Nat
deriving DecidableEq, Repr, Inhabited

/-- Why a shard's window closes (R331). -/
inductive WindowClose
  | allArrived | windowExpired | restLost
deriving DecidableEq, Repr, Inhabited

/-- A parity error at a crossing: the receiving island, and the sending island (R369, R405). -/
structure Crossing where
  recv : IslandIdx
  send : IslandIdx
deriving DecidableEq, Repr, Inhabited

/-- A DOE object: vendor identifier, object type and contents (R358). -/
structure DoeObj where
  vendor : W16
  ty : Byte
  body : List Byte
deriving DecidableEq, Repr, Inhabited

/-- A management message of a kind that R506 and R507 name. -/
inductive MctpBody
  /-- a command entry with token and payload (R455) -/
  | command (opc : Byte) (c : Cmd) (first : Slip) (img : CkptImage)
  | doe (o : DoeObj)
  | pldmBase (body : List Byte)
  /-- load: the fill of the bursar's work queue, in per cent (R491) -/
  | pldmPlatform (sensor : Fin 4) (load : Fin 101)
deriving DecidableEq, Repr, Inhabited

/-- An MCTP message: its path, message tag and source endpoint (R506), its message type and, of the vendor-defined type, the vendor
identifier (R455). -/
structure MctpMsg where
  smbus : Bool
  port : Bool
  msgTag : BitVec 3
  endpoint : Byte
  etherType : W16
  msgType : Byte
  vendor : W16
  body : MctpBody
deriving DecidableEq, Repr, Inhabited

/-- Whose transfer a crossing gives up (R370), with what its path of R280 needs. -/
inductive GivenUp
  /-- a host read of a register, or of the aperture at an offset of BAR2 -/
  | hostRegister
  | hostAperture (off : BitVec 36)
  | bursarLoad
  | bursarFetch
  | dma (e : EngineId) (c : ChanId)
  | tile (e : EngineId)
  /-- a run of a program, or a row pass, of an engine -/
  | vector (e : EngineId)
  | rowPass (e : EngineId)
  /-- the oldest add on its way from an engine to a controller -/
  | accumulate (e : EngineId) (ctl : CtlId)
  | tillReload (e : EngineId)
  | tillSend (e : EngineId)
  /-- a page that an engine serves in answer to a request -/
  | peerFetch (e : EngineId) (q : ReqFrame) (page : Nat)
  | charterStore
  /-- a line of a far channel in its base-cache slice -/
  | cache (f : FarId) (line : Nat)
  /-- the codeword of a merge entry -/
  | readModifyWrite (ctl : CtlId) (cw : Nat)
deriving DecidableEq, Repr, Inhabited

/-- What the arbiter takes: the entry at the head of a command ring, as it lies in host memory with what it names, or the next
command of the path of R455 (R353). -/
inductive ArbEntry
  | ring (r : RingId) (opc : Byte) (c : Cmd) (first : Slip) (img : CkptImage)
  | path
deriving DecidableEq, Repr, Inhabited

/-- A key or secret that arrives in fragments: bytes of a report or ciphertext. -/
abbrev Bytes := List Byte

/-- The commands: one constructor per row of spec/opcode_table.json, in the table's order. -/
inductive Instr
  -- job commands, R59
  | charterBegin (c : Cmd)
  | charterChunk (c : Cmd) (cut : Option Cut)
  | charterEnd (c : Cmd)
  | verificationDone
  | charterDiscard (c : Cmd)
  | activate (c : Cmd)
  | activationDone
  | run (c : Cmd)
  | pause (c : Cmd)
  | planeSwitch (c : Cmd)
  | checkpointTake (c : Cmd)
  | restore (c : Cmd) (img : CkptImage)
  | restoreDone
  | resume (c : Cmd)
  | release (c : Cmd)
  | releaseDone
  | abort (c : Cmd)
  | jobStatus (c : Cmd)
  -- privileged commands, R349 and R448
  | dmaChain (c : Cmd) (first : Slip)
  | assayLoad (c : Cmd)
  | regWrite (c : Cmd)
  | keyEnrol (c : Cmd)
  | fuseMapLoad (c : Cmd)
  | fwWrite (c : Cmd)
  | decommission (c : Cmd)
  | svnCommit (c : Cmd)
  | certInstall (c : Cmd)
  | report (c : Cmd)
  | regRead (c : Cmd)
  -- register access
  | regDirectWrite (src : DirectSrc) (off : BitVec 26) (val : W64)
  | secIdentityWrite (c : Cmd)
  | mgmtCfgWrite (c : Cmd)
  | smbusStop
  -- DMA channels
  | dmaStart (c : Cmd)
  | dmaStop (w : StopOf)
  | dmaResume (c : Cmd)
  | burstStart (e : EngineId) (ch : ChanId) (data : Bytes) (met : ReadMet) (sram : SramRead)
      (limitWait pinWait : Nat)
  | slipComplete (e : EngineId) (ch : ChanId) (next : Slip) (pinWait : Nat)
  | channelHalt (e : EngineId) (ch : ChanId) (st : Status) (offset : Nat)
  -- schedule rows
  | nop (e : EngineId)
  | set (e : EngineId)
  | add (e : EngineId)
  | prefetch (e : EngineId)
  | recv (e : EngineId) (waited : Nat)
  | send (e : EngineId) (waited : Nat) (sram : SramRead) (fails : List (Nat × Nat))
  | fwd (e : EngineId) (waited : Nat) (env : RunEnvs)
  | bwd (e : EngineId) (waited : Nat) (env : RunEnvs)
  | recomp (e : EngineId) (waited : Nat) (env : RunEnvs)
  | clear (e : EngineId)
  | update (e : EngineId)
  | publish (e : EngineId)
  | stepEnd (e : EngineId)
  -- residency, arrays, units and tiles
  | versionPromoteStrict (e : EngineId) (shard : BitVec 24) (env : RunEnvs)
  | shadowSwap (e : EngineId) (arr : ArrId) (shadowWait : Nat)
  | arrayIdle (e : EngineId) (arr : ArrId)
  | tileClose (e : EngineId) (faults : List TileFault) (sram : SramRead) (retry : List SramRead) (slotWait bufWait : Nat)
  | quarantine (e : EngineId) (u : Unit5)
  | strikeDecay (e : EngineId) (u : Unit5)
  | vaultAccumulate (e : EngineId) (param : W16) (band : Nat) (damage : Option Bytes) (faults : List (Nat × CwFault))
  | tileTake (e : EngineId) (tileWait : Nat) (env : RunEnvs)
  -- vector instructions
  | vecNop (i : VecR)
  | vecAdd (i : VecR)
  | sub (i : VecR)
  | mul (i : VecR)
  | fma (i : VecR)
  | min (i : VecR)
  | max (i : VecR)
  | abs (i : VecR)
  | neg (i : VecR)
  | cmplt (i : VecR)
  | cmple (i : VecR)
  | cmpeq (i : VecR)
  | sel (i : VecR)
  | exp2 (i : VecR)
  | log2 (i : VecR)
  | rcp (i : VecR)
  | rsqrt (i : VecR)
  | sqrt (i : VecR)
  | tanh (i : VecR)
  | erf (i : VecR)
  | ld (i : VecM)
  | st (i : VecM)
  | gath (i : VecM)
  | hadd (i : VecM)
  | rsum (i : VecM)
  | rmax (i : VecM)
  | rssq (i : VecM)
  -- boundary and assay
  | stepBoundary (r : Readings)
  | assayWindowEnd (tests : List AssayResult)
  | idleAssay (e : EngineId) (tests : List AssayResult)
  -- update and norm
  | updatePhase1 (e : EngineId) (shard : BitVec 24)
  | updatePhase2 (e : EngineId) (shard : BitVec 24) (stateUe : Bool) (waited escrowWaited : Nat)
  | normPartial (peer : Nat) (shard : BitVec 24) (step : StepNo) (attempt : Byte) (p : W64)
  | normVerdict (peer : Nat) (v : Verdict)
  | loss (peer : Nat) (replica : W16) (step : StepNo)
  | live (peer : Nat) (count : W16) (step : StepNo) (map : BitVec 1024)
  -- Envis links and tills
  | linkUnit (p : PortId) (pfx : W64) (f : Frame) (crcOk : Bool) (fecBad fecCorrected : Nat)
  | retryTimeout (p : PortId)
  | portDown (p : PortId)
  | portTrainingDone (p : PortId) (good : Bool) (farModule : BitVec 12) (rx : Readings)
  | tillData (e : EngineId) (t : TillId) (b : TillBlk)
  | tillMessageComplete (e : EngineId) (t : TillId) (seqNo : W32)
  | objData (b : ObjBlk)
  | credit (e : EngineId) (t : TillId) (by_ : CtrlFrom) (count : W16) (msgBytes : W32)
  | msgCtrlAck (w : CtrlOf)
  | msgCtrlResend (w : CtrlOf) (block : W16)
  | overdraftTimeout (e : EngineId)
  | requestFetch (q : ReqFrame)
  | requestRead (q : ReqFrame)
  | requestRefuse (q : ReqFrame)
  | fetchRetry (e : EngineId) (shard : BitVec 24) (waited : Nat)
  | requestCommit (q : ReqFrame)
  | commitAck (q : ReqFrame)
  -- clearing
  | clearData (b : ClearBlk)
  | clearWindowClose (u : Fin 2) (why : WindowClose)
  | clearingComplete (u : Fin 2) (shard : BitVec 24)
  -- admission
  | reportReq (peer : Nat) (nonce : Dig256)
  | admitReport (peer : Nat) (report : Bytes) (cert : Bytes)
  | peerAdmit
  | kemCt (peer : Nat) (ct : Bytes)
  | keyConfirm (peer : Nat) (confirm : Bytes)
  | rekey (peer : Nat)
  | keepalive (peer : Nat)
  | leave (peer : Nat)
  | peerLostTimeout (peer : Nat)
  -- faults, replay, audit
  | faultEvent (ev : FaultEv)
  | replayMark (island : W16) (st : Status) (step : StepNo)
  | replayRestart (pageBad : List (EngineId × BitVec 24 × Nat))
  | replayExhausted
  | auditCompare (r : AuditRun) (auditorBad ownBad : Option W32)
  | auditVote (r : AuditRun) (thirdBad : Option W32)
  -- checkpoint
  | checkpointCommit
  | commitRecordRead (slots : List CkptImage)
  -- memory controllers
  | memReadRequest (ctl : CtlId) (q : MemRead)
  | memWriteRequest (ctl : CtlId) (q : MemWrite)
  | narrowWrite (ctl : CtlId) (q : MemWrite) (fault : Option CwFault)
  | mergeRetire (ctl : CtlId) (fault : Option CwFault)
  | scrubRead (ctl : CtlId) (fault : Option CwFault) (hottest : Int)
  | dieMark (ctl : CtlId) (die : Fin 8)
  | vaultOutOfService (ctl : CtlId) (die : Fin 8)
  | parityError (x : Crossing) (got : List (W32 × Bool)) (buf : List (List W32))
  | parityGiveUp (x : Crossing) (who : GivenUp)
  | errorFrameSend
  | mailboxOverflowFrame
  -- host rings and aperture
  | submissionDoorbell (off : BitVec 18) (tail : W32)
  | completionDoorbell (off : BitVec 18) (head : W32)
  | ringEnable (c : Cmd)
  | ringDisable (c : Cmd)
  | commandArbitrate (w : ArbEntry)
  | hostTillInEntry (r : RingId) (w0 : W64) (addr : W64) (origin : StepNo) (mb : W16) (data : Bytes)
      (tags : List (BitVec 128))
  | hostTillOutEntry (r : RingId) (w0 : W64) (addr : W64)
  | apertureMapWrite (c : Cmd)
  | apertureRead (off : BitVec 36) (len : Nat) (met : ReadMet)
  | apertureWrite (off : BitVec 36) (data : Bytes)
  | hostLinkReset
  -- DOE and management messages
  | getReport (o : DoeObj)
  | getCerts (o : DoeObj)
  | ideKem (o : DoeObj)
  | mctpMessage (m : MctpMsg)
  | pldmBase (body : Bytes)
  | pldmPlatform (sensor : Fin 4) (load : Fin 101)
  -- span
  | flitDiscard (lm : Fin 16) (east : Bool) (code : BitVec 4)
  | widthAgreement (lm : Fin 16) (west east : BitVec 3) (checkOk : Bool)
  | laneLock (lm : Fin 16) (checkOk : Bool)
  -- power, clocks, resets
  | powerApplied (env : StartEnv)
  | inputLow
  | inputHigh
  | inputLoss
  | overVoltage
  | fastCapTrip
  | budgetTick (r : Readings)
  | excursion
  | thermalTrip
  | refClockLost (is156 : Bool)
  | refClockPresent (is156 : Bool) (env : StartEnv)
  | curveCommit (c : Cmd)
  | resetNAssert (micros : Nat)
  | perstNAssert
  | perstNDeassert (env : StartEnv)
  | moduleReset (env : StartEnv)
  | halfReset (east : Bool) (env : StartEnv)
  | engineReset (c : Cmd)
  | bursarReset (c : Cmd)
  | watchdogExpiry
  | recoveryAnnounce
  | chunk (off len crc : W32) (data : Bytes)
  | done (len : W32) (env : StartEnv)
  | resetNDeassert (env : StartEnv)
  | inputNormal
  | pcieLinkUp (rate : BitVec 4) (width : BitVec 5) (flit : Bool)
  | mgmtLinkChange (port : Bool) (up fec : Bool)
  | bursarUp (codeOk : Bool) (env : StartEnv)
  | thermalCooldown (env : StartEnv)
deriving DecidableEq, Repr

end Sys2Proof
end

