-- ==== Sys2Proof/Config.lean ====
section
/-! DEFINITION. What one part fixes and what the spec leaves open: uninterpreted constants without a body.
Nothing in Lean can evaluate them; a statement about them holds for every choice. -/

namespace Sys2Proof.Config

/-! Standard algorithms the manual names without defining them (log entry 8). -/

/-- SHA3-512 (R32, R445, R456 and others). -/
opaque sha3_512 : List Byte → Dig512
/-- SHA3-256 (R31, R352, R445). -/
opaque sha3_256 : List Byte → Dig256
/-- ML-DSA-87 verification under the key with the given SHA3-512 hash: message digest, signature (R32, R453). -/
opaque mlDsaVerify : (keyHash : Dig512) → (msg : Dig512) → (sig : List Byte) → Bool
/-- A signature, 4,627 bytes, that the holder of the key with that hash makes over a message digest. -/
opaque mlDsaSign : (keyHash : Dig512) → (msg : Dig512) → BitVec 37016
/-- The ML-DSA-87 signature, 4,627 bytes, over a digest by the key generated from ξ (R445). -/
opaque mlDsaSeedSign : (xi : Dig256) → (msg : Dig512) → BitVec 37016
/-- The subject's public key of an X.509 certificate, DER (R446). -/
opaque x509Key : (cert : List Byte) → List Byte
/-- The signature of a certificate verifies under a public key. -/
opaque x509Verify : (issuerKey : List Byte) → (cert : List Byte) → Bool
/-- The certificates above a device certificate, from the Zhosan intermediate to the maker root (R446). -/
opaque issuerCerts : (cert : List Byte) → List (List Byte)
/-- A storage peer's signed answer verifies under the key with this SHA3-256 (R322). -/
opaque storageVerify : (keyHash : Dig256) → (nonce : Dig256) → (answer : List Byte) → Bool
/-- ML-KEM-1024 decapsulation, with the key generated from d and z (R445). -/
opaque mlKemDecap : (d z : Dig256) → List Byte → Dig256
/-- ML-KEM-1024 encapsulation to a public key with the n-th random draw: ciphertext and secret (R322 step 4). -/
opaque kemEncap : (pub : List Byte) → (n : Nat) → List Byte × Dig256
/-- The public part, 1,568 bytes, of the ML-KEM-1024 key generated from d and z (R445). -/
opaque mlKemPublic : (d z : Dig256) → BitVec 12544
/-- The tag under the store key of the security store's contents (R447, which names no algorithm). -/
opaque storeMac : (key : Dig256) → List Byte → BitVec 128
/-- AES-256-GCM: key, 96-bit nonce, additional data, plaintext; ciphertext and tag (R325, R419, R466, R467). -/
opaque gcmSeal : Dig256 → BitVec 96 → List Byte → List Byte → List Byte × BitVec 128
/-- AES-256-GCM opening: none when the tag fails. -/
opaque gcmOpen : Dig256 → BitVec 96 → List Byte → List Byte → BitVec 128 → Option (List Byte)
/-- The n-th 256-bit draw of the security block's random bit generator (R445, R452). -/
opaque rng : Nat → Dig256

/-! What the fuses and the factory hold. -/

/-- The device seed: the West fuse bank, mirrored in the redundant bank on East (R445). -/
opaque deviceSeed : Dig256
/-- MAKER_KEY_HASH and ROOT_HASH of the fuses (R446). -/
opaque makerKeyHash : Dig512
opaque rootHash : Dig512
/-- A certificate chain that the maker has issued, framed as R464 frames it, and its leaf (R446). -/
opaque makerChain : List Byte
opaque makerLeaf : List Byte
/-- The even MAC address of management port 0 (R505). -/
opaque mac0 : BitVec 48
/-- The serial number, 16 bytes (R462). -/
opaque serial : BitVec 128
/-- Fused VMAX and least voltage in mV of an island kind: 0 engine, 1 exchange, 2 memory controller, 3 port, 4 span (R481). -/
opaque vmax : Nat → Nat
opaque vmin : Nat → Nat
/-- The built-in voltage-frequency curve of an island kind: points (MHz, mV) in rising frequency (R481). -/
opaque builtinCurve : Nat → List (Nat × Nat)
/-- The number of points of the built-in engine curve, 100 MHz apart below 2,500 MHz (R475, R481). -/
opaque engineCurvePoints : Nat
/-- The island's spare rows and columns that its fuse map needs exceed what the unit has (R278). -/
opaque spareShort : (mapVersion unit : Nat) → Bool

/-! Formats the manual does not give (log entry 9). -/

/-- The version, per-array bypassed columns and per-controller spare counts that a signed fuse map holds (R89, R278). -/
opaque fuseMapVersion : List Byte → BitVec 16
opaque fuseMapBypass : List Byte → (array : Nat) → W64
opaque fuseMapSpares : List Byte → (ctl : Nat) → BitVec 32
/-- The signature of a fuse map verifies under the maker key (R448). -/
opaque fuseMapSigned : List Byte → Bool
/-- Of a firmware image: the signing key in its header, the digest signed, the signature; its security version and version
(R460). -/
opaque fwKey : List Byte → List Byte
opaque fwDigest : List Byte → Dig512
opaque fwSig : List Byte → List Byte
/-- An image of n bytes that the maker signs. -/
opaque fwMade : (n : Nat) → BitVec (8 * n)
opaque fwSecVersion : List Byte → BitVec 16
opaque fwVersion : List Byte → W64
/-- The expected result that an assay image holds for a unit: 0 array A, 1 array B, 2 vector, 3 reduction, 4 row (R397). -/
opaque assayExpected : List Byte → (unit : Nat) → BitVec 32

/-- The confirmation that ends an admission, from the agreed key or, in a job that is not sealed, the nonces (R322). -/
opaque peerConfirm : List Byte → List Byte

/-! Values the manual leaves open: free values (log entries 10 to 14). -/

/-- The n-th free bit vector of width w: an undefined value written where the manual says undefined. -/
opaque free : (w n : Nat) → BitVec w
/-- EXP2, LOG2, RSQRT, TANH and ERF of a finite operand in vector type 0, 1 or 2, and FP64 RSQRT as type 3 (R164). -/
opaque exp2 : (ty : Nat) → W64 → W64
opaque log2 : (ty : Nat) → W64 → W64
opaque rsqrt : (ty : Nat) → W64 → W64
opaque tanh : (ty : Nat) → W64 → W64
opaque erf : (ty : Nat) → W64 → W64
/-- EXP of the row engine (R177). -/
opaque rowExp : W32 → W32
/-- The way a base-cache slice gives up for a new line (R263 names no replacement rule). -/
opaque victimWay : Nat → Fin 16
/-- Whether a RESET_N pulse of 1 to 10 us resets the module (R500). -/
opaque shortPulseResets : Nat → Bool

end Sys2Proof.Config
end

