-- ==== Sys2Proof/Machine/CharterTypes.lean ====
section
/-! DEFINITION. The charter as the module holds it after its sections are read (02_charters and the chapters that
R33 names). -/

namespace Sys2Proof.Machine

/-- A row of a schedule table (R41). -/
structure SchedRow where
  op : Byte
  cond : BitVec 4
  creg : BitVec 4
  next : BitVec 12
  clim : W16
  argA : W16
  argB : W16
  argC : W16
  argD : W32
deriving DecidableEq, Repr, Inhabited

/-- A schedule table (R40). -/
structure SchedTable where
  engine : Nat
  stashed : Bool
  floatLimit : Nat
  versionDepth : Nat
  entry : Nat
  rows : List SchedRow
deriving DecidableEq, Repr, Inhabited

/-- An entry of the denomination table (R45). -/
structure Denom where
  kind : Nat
  expBits : Nat
  manBits : Nat
  bias : Nat
  /-- elements of a scaling block: 0 none, 16 or 32 -/
  block : Nat
  specials : Nat
  /-- OVERFLOW IEEE -/
  ieee : Bool
  /-- ROUND stochastic -/
  stoch : Bool
deriving DecidableEq, Repr, Inhabited

/-- A point of a curve table (R48). -/
structure CurvePt where
  x : Nat
  y : W32
deriving DecidableEq, Repr, Inhabited

/-- A curve table (R48). -/
structure Curve where
  kind : Nat
  interp : Nat
  id : Nat
  loadMin : Nat
  loadMax : Nat
  tempMin : Int
  tempMax : Int
  droop : BitVec 8
  pts : List CurvePt
deriving DecidableEq, Repr, Inhabited

/-- An ENGINE_MAP entry (R188). -/
structure EngMap where
  role : Nat
  stage : Nat
  layerFirst : Nat
  layerLast : Nat
  pool : PageLoc
  poolPages : Nat
deriving DecidableEq, Repr, Inhabited

/-- PATH of a till end (R191). -/
inductive TillKind
  | onModule | envis | host
deriving DecidableEq, Repr, Inhabited

/-- A TILLS entry (R191). -/
structure TillEnd where
  engine : Nat
  till : Nat
  isOut : Bool
  path : TillKind
  exit : Bool
  free : Bool
  opens : Bool
  vc : Nat
  link : Nat
  depth : Nat
  credits : Nat
  storeMsgs : Nat
  msgBytes : Nat
  addr : Nat
  store : PageLoc
  odLimit : Nat
deriving DecidableEq, Repr, Inhabited

/-- A layer descriptor, array part (R69) and vector part (R159). -/
structure LayerDesc where
  arrKind : Nat
  arraySel : Nat
  denW : Nat
  denS : Nat
  k : Nat
  n : Nat
  m : Nat
  mTile : Nat
  nw : Nat
  mOuter : Bool
  accKeep : Bool
  transpose : Bool
  accSlots : Nat
  wAddr : Nat
  xAddr : Nat
  accBase : Nat
  paramId : Nat
  fwdProg : Nat
  fwdLen : Nat
  preProg : Nat
  preLen : Nat
  postProg : Nat
  postLen : Nat
  rowOp : Nat
  spillPrio : Nat
  spillMb : Bool
  causal : Bool
  denGrad : Nat
  tdBase : Nat
  scaleValid : Bool
  scaleAddr : Nat
  spillAddr : Nat
  rowEps : W32
  rowScale : W32
deriving DecidableEq, Repr, Inhabited

/-- A tensor descriptor (R161). -/
structure TensorDesc where
  kind : Nat
  den : Nat
  paramId : Nat
  addr : Nat
  rows : Nat
  cols : Nat
  tileRel : Bool
  bcastRow : Bool
  col0 : Bool
  onlyDx : Bool
  onlyAct : Bool
  nw : Nat
  rowStride : Nat
  carryAddr : Nat
deriving DecidableEq, Repr, Inhabited

/-- A LAYERS section (R158). -/
structure Layers where
  descs : List LayerDesc
  tds : List TensorDesc
  instrs : List W64
deriving DecidableEq, Repr, Inhabited

/-- A recipe (R243). -/
structure Recipe where
  algo : Nat
  lrCurve : Nat
  nesterov : Bool
  biasCorr : Bool
  beta1 : W32
  beta2 : W32
  eps : W32
  wd : W32
  lrMult : W32
deriving DecidableEq, Repr, Inhabited

/-- A RECIPES section (R243). -/
structure Recipes where
  constAddr : Nat
  list : List Recipe
deriving DecidableEq, Repr, Inhabited

/-- The per-plane sections of one plane (R33). -/
structure PlaneCfg where
  engMap : List EngMap
  tills : List TillEnd
  sched : List SchedTable
  recipes : Option Recipes
  curves : List Curve
  layers : Layers
deriving DecidableEq, Repr, Inhabited

/-- A peer entry (R318). -/
structure PeerEnt where
  module : BitVec 12
  storage : Bool
  verdictChild : Bool
  rootChild : Bool
  ports : BitVec 48
  nextHop : Nat
  windowBase : W64
  windowLen : Nat
  keyHash : Dig256
deriving DecidableEq, Repr, Inhabited

/-- A PEERS section (R317). -/
structure Peers where
  fanin : Nat
  minArrivals : Nat
  dropStragglers : Bool
  clearAll : Bool
  windowLc : Nat
  buf0 : PageLoc
  buf0Pages : Nat
  buf1 : PageLoc
  buf1Pages : Nat
  entries : List PeerEnt
  replicas : List Nat
deriving DecidableEq, Repr, Inhabited

/-- A shard entry (R229). -/
structure ShardEnt where
  shard : BitVec 24
  group : Nat
  engine : Nat
  comp : Bool
  frozen : Bool
  tier : Nat
  owner : BitVec 12
  mirror : BitVec 12
  paramFirst : Nat
  params : Nat
  state : PageLoc
  hostAddr : W64
deriving DecidableEq, Repr, Inhabited

/-- A parameter record (R230). -/
structure ParamRec where
  paramId : Nat
  denW : Nat
  nw : Nat
  k : Nat
  n : Nat
  page : Nat
  wscale : W32
deriving DecidableEq, Repr, Inhabited

/-- A home record (R144). -/
structure HomeRec where
  paramId : Nat
  engine : Nat
  nw : Nat
  k : Nat
  n : Nat
  accRow : Nat
  accBands : Nat
  /-- local vault of the stage die, and first block of the vault part -/
  vault : Nat
  block : Nat
deriving DecidableEq, Repr, Inhabited

/-- A SHARDS section (R228). -/
structure Shards where
  globalMb : Nat
  normPartials : Nat
  normRoot : BitVec 12
  normAlt : BitVec 12
  auditEvery : Nat
  normLimit : W32
  clip : W32
  lsInit : Int
  lsMin : Int
  lsMax : Int
  lsGrow : Nat
  lsFall : Nat
  lenient : Bool
  entries : List ShardEnt
  params : List ParamRec
  homes : List HomeRec
deriving DecidableEq, Repr, Inhabited

/-- An elastic entry (R410). -/
structure Elastic where
  engine : Nat
  plane : Nat
  row : Nat
  live : Nat
  clim : W16
  floatLimit : Nat
deriving DecidableEq, Repr, Inhabited

/-- A CHECKPOINT section (R409). -/
structure CkptSec where
  every : Nat
  offset : Nat
  toPeer : Bool
  share : Nat
  peer : Nat
  base : W64
  slotBytes : Nat
  shrinkMin : Nat
  escrow : List (PageLoc × Nat)
  elastic : List Elastic
deriving DecidableEq, Repr, Inhabited

/-- The actions of R394. -/
inductive Action
  | report | replay | hold | shrink
deriving DecidableEq, Repr, Inhabited

/-- An engine entry of the FAULTS section (R393): DUPLEX, NO_AUDIT and the assay area. -/
structure FaultEng where
  duplex : BitVec 2
  noAudit : Bool
  assayValid : Bool
  assayAddr : Nat
deriving DecidableEq, Repr, Inhabited

/-- A FAULTS section (R393). -/
structure Faults where
  excMask : BitVec 3
  probClock : Bool
  auditN : Nat
  replayLimit : Nat
  strikeDecay : Nat
  actions : List Action
  engines : List FaultEng
deriving DecidableEq, Repr, Inhabited

/-- A tag-area entry (R465). -/
structure TagArea where
  area : PageLoc
  first : Nat
  count : Nat
deriving DecidableEq, Repr, Inhabited

/-- A SEALING section (R465). -/
structure Sealing where
  kemCt : List Byte
  wrapped : List Byte
  wrapTag : BitVec 128
  areas : List TagArea
deriving DecidableEq, Repr, Inhabited

/-- A charter whose checks have passed (R30, R33). -/
structure Charter where
  jobId : W64
  moduleId : BitVec 12
  planes : Nat
  sealed : Bool
  twin : Bool
  pipelineId : W64
  stageCount : Nat
  replicaCount : Nat
  replicaIndex : Nat
  firstStage : Nat
  startStep : StepNo
  opKeyHash : Dig512
  jobSetDigest : Dig512
  digest : Dig512
  plane : List PlaneCfg
  peers : Peers
  denom : List Denom
  shards : Shards
  ckpt : CkptSec
  faults : Faults
  sealing : Option Sealing
deriving DecidableEq, Repr, Inhabited

end Sys2Proof.Machine
end

