-- ==== Sys2Proof/Machine/EngineTypes.lean ====
section
/-! DEFINITION. The state of one stage engine: arrays, vector and row engines, sequencer, float, tills, ledger,
update, DMA channels and integrity state (03 to 10, 13, 14). Plain data. -/

namespace Sys2Proof.Machine

/-- A RAM as a canonical list of cells: addresses strictly rising, no cell equal to the byte an unlisted address
reads as (Memory.wf of Machine/Ops). -/
abbrev Mem := List Host.Cell

/-- One set of stationary registers (R64): which block it holds, the element values row by row in FP64 or, for an integer
tile, in two's complement, their scale bytes, and the checksum column's registers c_k and a_k of each row (R83). -/
structure StatBlock where
  layer : Nat
  kb : Nat
  nb : Nat
  elems : List W64
  scales : List Byte
  chk : List (W64 × W64)
deriving DecidableEq, Repr, Inhabited

/-- KIND of a tile (R97). -/
inductive TileKind
  | fwd | dx | dw | recomp | elem
deriving DecidableEq, Repr, Inhabited

/-- A tile of a pass: layer, kind, M and N indices, chunk of a weight-gradient tile (R71, R135). -/
structure TileKey where
  layer : Nat
  kind : TileKind
  i : Nat
  j : Nat
  chunk : Nat
  arr : ArrId
deriving DecidableEq, Repr, Inhabited

/-- A matrix array (R64, R94, R99). -/
structure ArraySt where
  width : Nat
  bypass : W64
  active : StatBlock
  shadow : StatBlock
  shadowValid : Bool
  ramping : Bool
  /-- the tile in progress (BUSY), and the blocks that its rows have met in the active set, in order -/
  tile : Option TileKey
  met : List StatBlock
  quar : Bool
  idle : Bool
  inv : W64
  ovf : W64
  nan : W64
  chkFlags : BitVec 3
  ramps : W32
  tiles : W32
deriving DecidableEq, Repr, Inhabited

/-- A closed tile with its completion record (R81, R97). -/
structure ClosedTile where
  key : TileKey
  mb : W16
  record : Rec4
deriving DecidableEq, Repr, Inhabited

/-- FWD, BWD or RECOMP. -/
inductive PassKind
  | fwd | bwd | recomp
deriving DecidableEq, Repr, Inhabited

/-- A FWD, BWD or RECOMP row in progress (R170): layers still to run, the first of which has begun; tiles still to close
and to take in the order of R71 or R135; tills and ring slots reloaded for the row (R205). -/
structure Pass where
  kind : PassKind
  mb : W16
  origin : StepNo
  layers : List Nat
  begun : Bool
  due : List TileKey
  take : List TileKey
  reloads : List (Nat × Nat)
  /-- the greatest layer of the row -/
  top : Nat
deriving DecidableEq, Repr, Inhabited

/-- A float entry (R206). -/
structure FloatEntry where
  mb : W16
  origin : StepNo
  /-- claimed messages: till and message sequence number -/
  claims : List (Nat × W32)
  /-- version record: shard and ledger index -/
  vers : List (BitVec 24 × Nat)
  exiting : Bool
deriving DecidableEq, Repr, Inhabited

/-- A message at an IN end (R195, R197, R198, R204). -/
structure MsgIn where
  seqNo : W32
  origin : StepNo
  mb : W16
  /-- the ring slot it holds, and its place in the till store -/
  slot : Option Nat
  place : Option Nat
  /-- blocks written, and failed hallmark counts by block -/
  blocks : List Nat
  fails : List (Nat × Nat)
  /-- blocks whose store write failed in another way (R198) -/
  storeBad : List Nat
  complete : Bool
  claimed : Bool
  /-- the step in which it arrived -/
  step : StepNo
  /-- its micro-batch has left the float -/
  exited : Bool
  /-- its slot was taken by a reload (R205) -/
  reloaded : Bool
  /-- it counts in R, and did so when the step began (R204, R212) -/
  inR : Bool
  savedR : Bool
  /-- it has left the store and counts in S no more; the record stays for a replay until the boundary -/
  gone : Bool
deriving DecidableEq, Repr, Inhabited

/-- A message of an OUT end (R201, R212). -/
structure MsgOut where
  seqNo : W32
  origin : StepNo
  mb : W16
  step : StepNo
  hallmarks : List W32
  acked : Bool
  /-- sent in an earlier run of its step, and its SEND has not run in this one (R212) -/
  again : Bool
  /-- its SEND ended before its last block was taken: no acknowledgement can come before it is sent again (R280, R373) -/
  cut : Bool
deriving DecidableEq, Repr, Inhabited

/-- A till end (R195 to R205, R226). State 0 DISABLED, 1 OPEN, 2 FAULT. -/
structure TillSt where
  state : Nat
  mismatch : Bool
  peerLost : Bool
  o : Nat
  r : Nat
  s : Nat
  credits : Nat
  announced : Bool
  msgs : List MsgIn
  nextClaim : W32
  nextIn : W32
  dropping : Option W32
  outs : List MsgOut
  nextOut : W32
  cMsgs : W32
  cResends : W16
  cOver : W16
  headOrigin : StepNo
  headMb : W16
  reloads : W32
  odWait : W32
deriving DecidableEq, Repr, Inhabited

/-- STATE of a ledger entry (R216). -/
inductive LState
  | free | building | ready | current | retired
deriving DecidableEq, Repr, Inhabited

/-- A ledger entry (R216) and the step that created it (R217). -/
structure LedgerEntry where
  state : LState
  published : Bool
  escrow : Bool
  owned : Bool
  version : StepNo
  shard : BitVec 24
  refcount : Nat
  serve : Nat
  parent : Nat
  map : PageLoc
  pages : Nat
  ownPages : Nat
  mapHallmark : W32
  /-- CRC-32C of the owner's map as a fetch received it, which a restore compares (R429; log entry 36) -/
  ownerMap : W32
  created : StepNo
  /-- the pool pages of its page map -/
  mapPages : List Nat
deriving DecidableEq, Repr, Inhabited

/-- A run or row pass that has ended: a row pass, and in an audit step the CRC-32C over its results (R381). -/
structure RunDone where
  row : Bool
  crc : W32
deriving DecidableEq, Repr, Inhabited

/-- The sequencer (R42, R209, R225). WAIT as R225 codes it. -/
structure SeqSt where
  row : Nat
  op : Byte
  wait : Nat
  lastStatus : Byte
  running : Bool
  ctr : Vector W16 8
  pass : Option Pass
  /-- the engine has retired the step (R210) -/
  retired : Bool
  /-- the row in progress has completed with a status other than OK: no further row runs until the step starts afresh
  (log entry 25) -/
  failed : Bool
  /-- program runs and row passes of the step, newest first (R381), and layers with a kept slot begun (R143) -/
  runs : List RunDone
  kept : List (Nat × Nat)
  /-- kept slots whose rows another layer's tile has written in the step (R143) -/
  spoiled : List (Nat × Nat)
deriving DecidableEq, Repr, Inhabited

/-- What an engine saves at a step start (R212): the float, per till O, R, S and next unclaimed number, and reference counts. -/
structure SaveSt where
  float : List FloatEntry
  tills : List (Nat × Nat × Nat × W32)
  refs : List (Nat × Nat)
deriving DecidableEq, Repr, Inhabited

/-- Exception counts of a run or tile: INVALID, OVF_SAT, NAN_PROD, and conversion counts FLUSH, OVF, INVALID, NAN_BLOCK. -/
structure ExcCnt where
  inv : Nat
  ovf : Nat
  nan : Nat
  cFlush : Nat
  cOvf : Nat
  cInv : Nat
  cNanBlk : Nat
deriving DecidableEq, Repr, Inhabited

/-- A queued UPDATE (R238): recipe, group, plane, shards before phase 1 and before phase 2. -/
structure UpdItem where
  recipe : Nat
  group : Nat
  plane : Nat
  phase1 : List (BitVec 24)
  phase2 : List (BitVec 24)
  /-- shard written, waiting for its mirror's commit (R256), with the exceptions of its update (R244) -/
  mirroring : List (BitVec 24 × ExcCnt)
deriving DecidableEq, Repr, Inhabited

/-- A version fetch (R252) or restore fetch (R429) under way. -/
structure Fetch where
  shard : BitVec 24
  version : StepNo
  req : Byte
  entry : Option Nat
  restore : Bool
  waiting : Bool
  /-- it waits for a ledger entry (R217) -/
  held : Bool
  gotPages : List Nat
  failed : List Nat
  /-- pages of the owner's page map received -/
  maps : List (Nat × List Byte)
deriving DecidableEq, Repr, Inhabited

/-- A statistics block of the row engine (R179). -/
structure StatsBlk where
  layer : Nat
  mb : W16
  rows : List (W32 × W32)
  spilled : Bool
deriving DecidableEq, Repr, Inhabited

/-- STATE of a DMA channel (R302). -/
inductive ChanState
  | idle | running | stopping | stopped | halted
deriving DecidableEq, Repr, Inhabited

/-- A DMA channel (R286 to R302). -/
structure ChanSt where
  state : ChanState
  lastStatus : Byte
  progress : W32
  head : W64
  cur : W64
  cfg : W64
  slips : W32
  halts : W16
  stops : W16
  haltStatus : Byte
  haltOffset : BitVec 28
  pinWait : W32
  limitWait : W32
  /-- the slip in progress; it is the first of its chain; share and burst in effect (R294) -/
  slip : Option Slip
  first : Bool
  share : Nat
  burst : Nat
  /-- bytes of the slip asked for of an Envis peer, and blocks of a burst that have come from it (R290, R327) -/
  asked : Nat
  got : List (List Byte × Sideband)
  /-- bytes read of a block that is not whole yet (R290, R291) -/
  part : List Byte
  /-- bytes of the slip written; those not answered yet are the ones sent to a peer (R288, R327) -/
  sent : Nat
  /-- running checksum and its byte count (R297) -/
  crc : W32
  crcBytes : W32
  /-- the slip buffer of channels 0 to 5 (R286) -/
  buf : List Slip
  /-- the DMA_CHAIN command to complete at the end of the chain (R354): its path, tag and ring enable -/
  chain : Option (CmdSrc × W16 × Nat)
  /-- bytes of the slip written and not answered yet: PROGRESS and the checksum wait for them (R288, R300) -/
  tail : List Byte
  /-- blocks of the slip sent to a peer and not answered -/
  openBlks : Nat
  /-- a halt that waits for the answers of the writes issued: its status and the first failing byte (R300) -/
  halting : Option (Status × Nat)
  /-- the checksum word of the slip has been sent (R295) -/
  csumSent : Bool
  /-- the chain was started from a host command ring (R287) -/
  hostRing : Bool
deriving DecidableEq, Repr, Inhabited

/-- Strikes of one unit (R376, R377): count, step of the last strike or decay, probation kinds applied (true: clock). -/
structure UnitSt where
  strikes : Nat
  since : StepNo
  probs : List Bool
  quarantined : Bool
deriving DecidableEq, Repr, Inhabited

/-- The run the vector engine is in or ran last (R165, R183). -/
structure VecRun where
  layer : Nat
  mb : W16
  prog : Nat
  tile : Option ClosedTile
  pos : Nat
  active : Bool
deriving DecidableEq, Repr, Inhabited

/-- A band sent to the vault and not answered (R148, R150): its words as sent, the scratch slot that it comes from (R137),
and the micro-batch and record of the tile or run that sent it. -/
structure HomeBand where
  param : Nat
  band : Nat
  data : List W32
  slot : Option Nat
  mb : W16
  record : Rec4
deriving DecidableEq, Repr, Inhabited

/-- A square of the gradient tile buffer (R134): token block, band, and the elements of dY it holds, row by row in FP64
with their scale bytes. -/
structure Square where
  ti : Nat
  nb : Nat
  elems : List W64
  scales : List Byte
deriving DecidableEq, Repr, Inhabited

/-- The array part of an engine (03, 05). -/
structure EngArr where
  a : ArraySt
  b : ArraySt
  rampSrc : Nat
  excInv : BitVec 21
  excOvf : BitVec 21
  excNan : BitVec 21
  excMask : BitVec 3
  slotWait : W32
  shadowWait : W32
  queue : List ClosedTile
  waiting : List ClosedTile
  bwdLayer : W16
  bwdMb : W16
  bwdTransposed : Bool
  bwdFrozen : Bool
  bwdSequential : Bool
  bwdActive : Bool
  homeWait : W32
  tilebufWait : W32
  homeAdded : W32
  homeFirst : W32
  homeInv : BitVec 21
  homeOvf : BitVec 21
  homeNan : BitVec 21
  /-- touched map: bands of homes touched in the step, by parameter and band (R146) -/
  touched : List (Nat × Nat)
  /-- bands sent to the vault and not answered, in the order sent (R148, R150) -/
  homeFlight : List HomeBand
  /-- the gradient tile buffer: the two squares streamed last (R134) -/
  tilebuf : List Square
deriving DecidableEq, Repr, Inhabited

/-- The vector engine, reduction unit and row engine (06). -/
structure EngVec where
  /-- VR0-VR63, register r lane l at byte r × 1,024 + 4 × l -/
  vr : Mem
  run : VecRun
  convFlush : W16
  convOvf : W16
  convInv : W16
  convNanBlk : W16
  excInv : BitVec 21
  excOvf : BitVec 21
  excNan : BitVec 21
  tileWait : W32
  depWait : W32
  duplex : BitVec 2
  /-- reduction sums in progress: the reducing instruction's number in its program, row, value (R173) -/
  red : List (Nat × Nat × W64)
  rowLayer : W16
  rowMb : W16
  rowBwd : Bool
  rowActive : Bool
  rowSpilling : Bool
  readback : W32
  spilled : W32
  stats : List StatsBlk
  /-- exception counts of the run in progress (R183) -/
  cnt : ExcCnt
  /-- the CRC-32C over the results of the run in progress, in an audit step (R381) -/
  results : W32
deriving DecidableEq, Repr, Inhabited

/-- The version ledger slice and the update part of an engine (07, 08). -/
structure EngLed where
  /-- non-FREE entries and freed ones by index; an index not listed is FREE and zero -/
  entries : List (Nat × LedgerEntry)
  created : W32
  freed : W32
  auditFails : W16
  /-- share counts of pool pages not zero (R215) -/
  shares : List (Nat × Nat)
  freePages : Nat
  residency : List (Nat × Nat)
  pfMiss : W32
  pfImplicit : W32
  upd : List UpdItem
  updShard : BitVec 24
  updPhase : Nat
  updLast : Byte
  updated : W32
  fetched : W32
  notResident : W32
  staleUses : W16
  refusals : W16
  auditPasses : W32
  auditPageFails : W16
  fetches : List Fetch
  /-- groups that PUBLISH has named in the step (R217; log entry 24) -/
  pubGroups : List Nat
  /-- loads that PREFETCH has issued and that wait on a pin: layer and ledger index (R43, R82) -/
  loads : List (Nat × Nat)
  /-- state pages as they were before the step's first write: shard, page, step that wrote them, bytes (R389) -/
  undo : List ((BitVec 24 × Nat) × StepNo × List Byte)
deriving DecidableEq, Repr, Inhabited

/-- Escrow of an engine (14 R414, R415, R444). -/
structure EngEsc where
  marked : List (BitVec 24 × Nat)
  copies : List ((BitVec 24 × Nat) × PageLoc)
  freePages : List PageLoc
  drained : W32
  wait : W32
deriving DecidableEq, Repr, Inhabited

/-- What an engine did in a step that a fault of it can have affected (R385): 1 a message of an OUT till end sent to a module,
2 a shard cleared into a home of it, 3 an owned shard updated, 4 a shard's version re-derived or served. -/
structure Deed where
  kind : Nat
  object : Nat
  peer : Nat
  step : StepNo
deriving DecidableEq, Repr, Inhabited

/-- Integrity state of an engine (13 R374 to R407, 09 R285). -/
structure EngInt where
  storeCe : W16
  accCe : W16
  otherCe : W16
  sramUe : W16
  transients : W32
  neighbourFail : W16
  units : Vector UnitSt 5
  parResends : W32
  parBroken : W16
  sampleStep : StepNo
  auditor : BitVec 7
  sampleBad : Byte
  /-- what it did in each step since the last audit that it passed, newest first -/
  deeds : List Deed
  /-- an assay on the engine: the units that it has finished, and the µs that it has spent on the next (R399) -/
  assayPos : Nat
  assaySpent : Nat
  flog : Vector Rec4 64
  flogHead : Nat
  flogCount : W32
deriving DecidableEq, Repr, Inhabited

/-- A stage engine. -/
structure Engine where
  store : Mem
  /-- accumulator bank: row r, column c at byte (r × 64 + c) × 4 -/
  acc : Mem
  /-- checksum store: row r at byte r × 8 (R79) -/
  chk : Mem
  /-- words of its SRAMs found uncorrectable and not written since: STORE code of R279, word index (R264) -/
  badWords : List (Fin 4 × Nat)
  arr : EngArr
  vec : EngVec
  seq : SeqSt
  save : SaveSt
  /-- schedule tables of planes 0 and 1 with their elastic values -/
  table0 : Option SchedTable
  table1 : Option SchedTable
  float : List FloatEntry
  recvWait : W32
  sendWait : W32
  floatWait : W32
  versionWait : W32
  tills : Vector TillSt 64
  led : EngLed
  esc : EngEsc
  int : EngInt
  dma : Vector ChanSt 8
deriving DecidableEq, Repr, Inhabited

end Sys2Proof.Machine
end

