-- ==== Sys2Proof/Machine/ModuleTypes.lean ====
section
/-! DEFINITION. The module-wide state: start-up and pins, job, integrity, security block, treasurer, host interface
and span (01, 02, 12, 13, 15, 16, 17). Plain data. -/

namespace Sys2Proof.Machine

/-- What a start-up that has not reached READY waits for (R478, R494, R495, R500, R504). -/
inductive StartHold
  | off | refClock | cool | resetN | fuseSplit | perst | recovery | done
deriving DecidableEq, Repr, Inhabited

/-- Start-up state, pins, availability and management interface (R27, R28, R497 to R512). -/
structure GlbSt where
  startStep : BitVec 4
  lastReset : BitVec 4
  shedMirror : Bool
  shedTelemetry : Bool
  recovery : Bool
  bursarUp : Bool
  ready : Bool
  hold : StartHold
  engAvail : BitVec 128
  vaultAvail : BitVec 32
  farAvail : BitVec 48
  portAvail : BitVec 48
  /-- straps as last sampled (R501) -/
  droop : BitVec 2
  strapRecovery : Bool
  pairPos : Bool
  /-- levels at the pins: straps, PERST_N and RESET_N asserted, PG_OUT and ALERT_N asserted -/
  pinDroop : BitVec 2
  pinRecovery : Bool
  pinPair : Bool
  perst : Bool
  resetN : Bool
  pgOut : Bool
  alertN : Bool
  ref100 : Bool
  ref156 : Bool
  /-- a reset that PWR_RESET asked for: 1 module, 2 West, 3 East (R487) -/
  resetDue : Nat
  mgmtCfg : W64
  smbAddr : BitVec 7
  mgmtLink : BitVec 10
  /-- event sequence counters by island index (R24) -/
  seqs : Vector W64 260
  /-- the last step retired on the module, zero before the first (R25) -/
  lastRetired : StepNo
deriving DecidableEq, Repr, Inhabited

/-- Job states, R57. -/
inductive JState
  | empty | staging | verifying | verified | activating | active | running | held | restoring | releasing
deriving DecidableEq, Repr, Inhabited

/-- A command whose completion is still to come (R59, R354). -/
structure PendCmd where
  src : CmdSrc
  tag : W16
  opc : Byte
  /-- the enable of its ring under which it was taken (R347) -/
  gen : Nat
  /-- ROLE of its token, and CMD_DIGEST, for an entry that comes when its evaluation ends (R456, R457) -/
  role : Byte
  digest : Dig512
deriving DecidableEq, Repr, Inhabited

/-- GLB_CHARTER_ERR (R63, R519). -/
structure CharterErr where
  sub : W16
  list : BitVec 4
  check : Byte
  section_ : W16
  entry : W16
deriving DecidableEq, Repr, Inhabited

/-- The job (02). -/
structure JobSt where
  state : JState
  lastStatus : Byte
  plane : Fin 2
  /-- the plane of the step closed last, as the counterfoil records it (R61, R420) -/
  planeClosed : Fin 2
  step : StepNo
  err : CharterErr
  len : W64
  digest : Dig512
  switches : W64
  jobId : W64
  /-- TOTAL_LENGTH of CHARTER_BEGIN -/
  declared : Nat
  charter : Option Charter
  /-- the charter has been activated and not released (R39, R63) -/
  locked : Bool
  /-- steps left of RUN; none for "until paused" -/
  runLeft : Option Nat
  pendPause : Option PendCmd
  pendSwitch : Option PendCmd
  pendCkpt : Option (PendCmd × StepNo)
  /-- CHARTER_END, ACTIVATE, RESTORE or RELEASE under way -/
  busy : Option PendCmd
  /-- a step is in progress -/
  stepOn : Bool
  /-- a restore has completed and no step has run since (R429) -/
  fresh : Bool
deriving DecidableEq, Repr, Inhabited

/-- A mailbox entry with its frame fields (R402, R404). -/
structure MboxEntry where
  seqNo : W64
  boot : W32
  step : StepNo
  mb : W16
  island : W16
  cls : Byte
  status : Byte
  iseq : W64
  jobId : W64
  record : Rec4
deriving DecidableEq, Repr, Inhabited

/-- A replay in progress (R387 to R391). -/
structure ReplaySt where
  step : StepNo
  cause : Byte
  island : W16
  marks : Nat
  /-- engines have stopped and not restarted (steps 2 to 5 of R388) -/
  stopped : Bool
  /-- the command that raised the newest mark is still at work: another mark of it is the same replay (R392) -/
  fresh : Bool
deriving DecidableEq, Repr, Inhabited

/-- An assay image as loaded (R397). -/
structure Assay where
  image : List Byte
  id : W64
  units : Byte
  budget : W32
deriving DecidableEq, Repr, Inhabited

/-- Integrity state of the module (13). -/
structure IntSt where
  errSummary : BitVec 13
  errCfg : W64
  errDst : W64
  mbox : List MboxEntry
  mboxSeq : W64
  sent : W32
  overflow : W16
  ovfByClass : Vector W16 16
  replayStep : StepNo
  replayAttempt : BitVec 4
  holds : W32
  replays : W32
  replay : Option ReplaySt
  /-- a HOLD has stopped the engines and waits for what they had issued (R396, step 4 of R388) -/
  holding : Bool
  /-- events raised that have not reached the sequencer yet (R394) -/
  raised : List FaultEv
  auditStep : StepNo
  auditMismatch : Byte
  auditSkipped : Byte
  /-- comparisons of the audit step that have completed (R381, R382), and runs that mismatched and wait for the vote, with the CRCs of
  the auditor and of the engine itself (R383) -/
  auditDone : List (Nat × Nat)
  auditVotes : List (AuditRun × W32 × W32)
  assayCfg : W64
  assayRuns : W32
  assayFails : W16
  assaySkipped : Byte
  assay : Option Assay
  assayWindow : Bool
  parMem : W16
  parPort : W16
  parSpan : W16
  parOther : W16
  xch : Vector (W32 × W16) 16
  fwSpass : StepNo
  fwTouches : W16
  fwRecs : List Rec4
deriving DecidableEq, Repr, Inhabited

/-- A measurement-log entry (R461). -/
structure MlogEntry where
  kind : Byte
  mr : Byte
  boot : W32
  version : W64
  digest : Dig512
deriving DecidableEq, Repr, Inhabited

/-- A day-book entry (R456). -/
structure DbEntry where
  seqNo : W64
  boot : W32
  kind : Byte
  role : Byte
  source : Byte
  status : Byte
  code : Byte
  step : StepNo
  target : W64
  digest : Dig512
deriving DecidableEq, Repr, Inhabited

/-- The security store on the carrier flash (R447, R458, R490). -/
structure SecStore where
  cert : List Byte
  keyI : Option Dig512
  keyO : Option Dig512
  moduleId : BitVec 12
  boot : W32
  fuseMap : List Byte
  dbHead : Dig512
  dbSeq : W64
  jobFlag : Bool
deriving DecidableEq, Repr, Inhabited

/-- The security block (15). -/
structure SecSt where
  store : SecStore
  flash : Option (List Byte)
  /-- the fuse floor (R448 SVN_COMMIT, R460) -/
  floor : W16
  extends_ : W32
  mlog : List MlogEntry
  mlogFull : Bool
  storeFail : Bool
  /-- enrolled keys in force -/
  keyI : Option Dig512
  keyO : Option Dig512
  ideKeys : Option Dig512
  jobKey : Option Dig256
  memKey : Option Dig256
  boot : W32
  fwSecVer : W16
  fwVer : W64
  nonce : Dig256
  nonceHead : Dig512
  nonceEpoch : W64
  seqM : W64
  seqI : W64
  seqO : W64
  dbSeq : W64
  dbHead : Dig512
  /-- an entry has been appended since this boot began (R458) -/
  dbOpen : Bool
  db : List DbEntry
  dbMirror : W64
  dbMirrorCfg : W64
  mrBoot : Dig512
  mrCfg : Dig512
  mrJob : Dig512
  deniedToken : W32
  deniedDirect : W32
  wdogResets : W32
  wdogTimeout : W32
  /-- version of the fuse map that was applied at the module reset (R278, R448) -/
  mapVer : W16
  /-- digest of the firmware image measured at boot (R492) -/
  fwDigest : Dig512
  /-- draws made of the random bit generator -/
  draws : Nat
  /-- chunks of a recovery image (R496) -/
  recovery : List (Nat × List Byte)
  /-- the DOE request that waits for the bursar (R358, R492) -/
  doeWait : Option DoeObj
  doeError : Bool
  /-- MCTP messages taken: tag and source endpoint of the last (R506) -/
  mctpLast : Option (BitVec 3 × Byte × Bool)
deriving DecidableEq, Repr, Inhabited

/-- An island's PWR_ISL (R497). -/
structure IslSt where
  freq : W16
  volt : W16
  probV : Nat
  probF : Nat
  builtin : Bool
  inReset : Bool
  /-- curve points below, by heat, and the island still goes lower (R478) -/
  heat : Nat
  cooling : Bool
deriving DecidableEq, Repr, Inhabited

/-- An installer curve table held by the treasurer (R482). -/
structure HeldCurve where
  kind : Byte
  target : Byte
  curve : Curve
  /-- waits for a step boundary -/
  waiting : Bool
  /-- inside its envelope, and consecutive ticks inside since it fell out (R483) -/
  inside : Bool
  ticks : Nat
deriving DecidableEq, Repr, Inhabited

/-- The treasurer (16). -/
structure PwrSt where
  level : Nat
  refLost100 : Bool
  refLost156 : Bool
  thermalCap : Bool
  throttle : Bool
  /-- the throttle was in force when the tick began (R474) -/
  throttleWhole : Bool
  inputHigh : Bool
  inputLow : Bool
  volts : W16
  power : W16
  budget : W64
  cap : W64
  thermal : W64
  capTrips : W16
  excursions : W16
  thermalSteps : W16
  envelope : W16
  tempIsland : W16
  temp : W16
  curveCtrl : W64
  /-- PWR_CURVE_DATA, 512 words by index; a word not listed is zero -/
  curveData : List (Nat × W64)
  isl : Vector IslSt 260
  overTicks : Nat
  curves : List HeldCurve
  /-- ramp source in use: 0 default, 1 charter, 2 conservative (R51, R99) -/
  rampInside : Bool
  load : Nat
deriving DecidableEq, Repr, Inhabited

/-- A host ring (R347, R348, R353, R366). -/
structure RingSt where
  cfg : W64
  sq : W64
  cq : W64
  head : Nat
  tail : Nat
  taken : Nat
  cHead : Nat
  cPos : Nat
  phase : Bool
  badCfg : Bool
  badDb : Bool
  /-- generation of the enable: completions of commands taken before a disable are discarded -/
  gen : Nat
  /-- host till: blocks and entries on the way (R355): posted buffers, or messages sent: tag, address, sequence number -/
  posted : List (W64 × W64)
  waiting : List W32
deriving DecidableEq, Repr, Inhabited

/-- The host interface (12). -/
structure HostSt where
  /-- identity presented over PCIe: vendor, device and class code (R4) -/
  vendor : W16
  device : W16
  pciClass : BitVec 24
  rate : BitVec 4
  width : BitVec 5
  flit : Bool
  degraded : Bool
  ideActive : Bool
  /-- Uncorrectable Error Status of AER (R340; log entry 186) -/
  aer : W32
  ltssm : BitVec 4
  cfg : W64
  aptStatus : Byte
  aptOff : BitVec 36
  aptMap : Vector W64 16
  rings : Vector RingSt 64
  /-- the ring of the command taken last, 64 for the path of R455 (R353) -/
  arb : Nat
  /-- messages of the path of R455 that have not been taken: its ring, and what waits for the bursar (R455, R492) -/
  path : List MctpMsg
  /-- pages of TIER 2 state in host memory by bus address, as the module has last read or written them (R232, R389) -/
  pages : List (Nat × List Byte)
deriving DecidableEq, Repr, Inhabited

/-- A span lane module (R362, R367). STATE 0 OUT, 1 TRAINING, 2 AGREEING, 3 UP. -/
structure LaneSt where
  state : Nat
  locked : Bool
  attempts : Nat
  agreed : BitVec 3
  east : BitVec 3
  west : BitVec 3
deriving DecidableEq, Repr, Inhabited

/-- The span (12). -/
structure SpanSt where
  replayed : W32
  agreements : W16
  discards : W16
  lanes : Vector LaneSt 16
  /-- the lane module that carries row r's cross traffic to columns of parity c, at 2r + c (R364) -/
  routes : Vector (Option (Fin 16)) 16
deriving DecidableEq, Repr, Inhabited

end Sys2Proof.Machine
end

