-- ==== Sys2Proof/Machine/UnitTypes.lean ====
section
/-! DEFINITION. The state of the memory controllers, base cache, Envis ports, peers, clearing units, update, checkpoint
and pairing (08, 09, 11, 14). Plain data. -/

namespace Sys2Proof.Machine

/-- A merge-buffer entry: codeword, pending bytes with their mask, each at its offset (R272). -/
structure MergeEnt where
  cw : Nat
  bytes : List (Nat × Byte)
  /-- who sent the writes merged into it, each answered when the codeword has been written (R273) -/
  writes : List Requester
  /-- of a sideband codeword: the stored sidebands that its pending halves replace (R274) -/
  old : List (Nat × Sideband)
deriving DecidableEq, Repr, Inhabited

/-- The tag entry of a covered page of a sealed job (R466). -/
structure TagEnt where
  page : Nat
  tag : BitVec 128
  ctr : W64
deriving DecidableEq, Repr, Inhabited

/-- A vault or far-channel controller with its memory (R260 to R283). -/
structure CtlSt where
  inService : Bool
  trained : Bool
  ueSeen : Bool
  marked : Option Nat
  scrubOn : Bool
  scrubEnv : Bool
  cfg : W64
  scrub : W64
  /-- rate in force (R276) -/
  rate : Nat
  passes : W32
  pos : Nat
  demandCe : W32
  scrubCe : W32
  demandUe : W32
  scrubUe : W32
  corrections : W32
  rmw : W32
  merged : W32
  lastUe : BitVec 30
  mapVersion : W16
  spareRows : W16
  spareCols : W16
  data : Mem
  /-- sidebands by block; a block not listed in a zeroised range (first block, count) has the sideband of R521, any
  other the zero sideband -/
  sides : List (Nat × Sideband)
  zeroed : List (Nat × Nat)
  merge : List MergeEnt
  /-- corrections by die in the pass (R267), and errors of a second die in the pass (R268) -/
  dieCe : Vector Nat 8
  dieUe : Vector Nat 8
  /-- codeword of the newest correction by die -/
  dieCw : Vector Nat 8
  /-- codewords whose stored contents are uncorrectable, and the die to which one's errors were attributed (R268, R279) -/
  bad : List Nat
  badDie : List (Nat × Fin 8)
  tags : List TagEnt
deriving DecidableEq, Repr, Inhabited

/-- A resident line of a base cache slice: channel and line number; its set is the line number modulo the sets (R263). -/
structure CacheLine where
  far : Nat
  line : Nat
  way : Fin 16
deriving DecidableEq, Repr, Inhabited

/-- A base cache slice (R262 to R265, R284). -/
structure CacheSt where
  pairs : BitVec 24
  hits : W64
  misses : W64
  corrected : W32
  refetch : W32
  lines : List CacheLine
deriving DecidableEq, Repr, Inhabited

/-- A unit in a retry buffer: its LSEQ, its frame, and how often it has been replayed (R307, R308). -/
structure RetryUnit where
  seqNo : W16
  frame : Frame
  replays : Nat
deriving DecidableEq, Repr, Inhabited

/-- A port (R306 to R314, R338). STATE 0 DOWN, 1 TRAINING, 2 UP, 3 OUT_OF_SERVICE. -/
structure PortSt where
  state : Nat
  farModule : BitVec 12
  retrains : W16
  cfg : W64
  fecCorrected : W32
  fecUncorrectable : W32
  replayed : W32
  naks : W32
  tx : W32
  rx : W32
  badType : W16
  noRoute : W16
  unadmitted : W16
  window : W16
  /-- link credits held, by virtual channel -/
  credits : Vector Nat 8
  /-- link credits to return, by virtual channel -/
  owed : Vector Nat 8
  /-- next LSEQ to send, units held in the retry buffer, and frames of a port of the same peer that went down, which leave
  before any other (R320) -/
  lseq : W16
  retry : List RetryUnit
  moved : List Frame
  /-- next LSEQ expected, and a NAK has been sent since the last accepted unit -/
  expect : W16
  nakSent : Bool
  /-- frames that wait for a link credit or for space in the retry buffer; the channel of 0 to 5 that sent last, and its block
  has not ended (R314) -/
  queue : List Frame
  turn : Nat
  inBlock : Bool
  /-- frames of blocks on their way through, held until their trailer (R311) -/
  part : List Frame
  /-- ACKSEQ of the unit sent last -/
  ackSent : W16
  failed : Nat
deriving DecidableEq, Repr, Inhabited

/-- The admission of a module peer (R322, R324, R325). -/
structure PeerSt where
  /-- 0 unused, 1 admitting, 2 admitted, 3 refused, 4 lost -/
  state : Nat
  module : BitVec 12
  epoch : Bool
  /-- own nonce sent, the peer's nonce, steps passed -/
  ownNonce : Option Dig256
  peerNonce : Option Dig256
  reportOk : Bool
  /-- shared secret agreed, and keys of the two directions -/
  secret : Option Dig256
  /-- the sealing public key of the peer's report (R324) -/
  sealPub : List Byte
  keyTx : Option Dig256
  keyRx : Option Dig256
  oldRx : Option Dig256
  /-- virtual channels on which a block of the new epoch has arrived -/
  newOn : Vector Bool 8
  rekeying : Bool
  ctrTx : Vector Nat 8
  /-- blocks received by virtual channel, in the epoch in use and in the one before it -/
  ctrRx : Vector Nat 8
  ctrOld : Vector Nat 8
  confirmed : Bool
  /-- the admission has failed: the entry reads REFUSED (R322, R339) -/
  refused : Bool
  /-- the port that its frames leave on (R320) -/
  port : Option PortId
deriving DecidableEq, Repr, Inhabited

/-- A contribution in a clearing buffer (R329, R330): the peer and rank of the child, and its bands with their buffer pages;
a ZERO band has none. -/
structure Contribution where
  peer : Nat
  rank : Nat
  step : StepNo
  shard : BitVec 24
  bands : List ((EngineId × Nat × Nat) × Option Nat)
  complete : Bool
deriving DecidableEq, Repr, Inhabited

/-- The clearing of one shard in one step (R328 to R335). -/
structure ClrShard where
  step : StepNo
  group : Nat
  shard : BitVec 24
  /-- the CLEAR row of this run of the step has handed the shard over, which opened its window -/
  handed : Bool
  opened : Bool
  closed : Bool
  /-- arrival record: child ranks in arrival order, and those accepted -/
  arrivals : List Nat
  accepted : List Nat
  /-- peer indices of the children excluded -/
  lostKids : List Nat
  carriesAdded : List Contribution
  added : Bool
  /-- 0 not begun or complete, 1 collecting, 2 adding, 3 sending, 4 all-gather (R339) -/
  phase : Nat
  sentHash : List W32
  /-- bands of it that the parent has acknowledged (R333) -/
  acked : Nat
  /-- bands of the all-gather of CLEAR_MODE 1, its having been written, and its having been sent to the children -/
  gather : List ((EngineId × Nat × Nat) × Option (List Byte))
  down : Bool
  forwarded : Bool
  complete : Bool
deriving DecidableEq, Repr, Inhabited

/-- A clearing unit (R328 to R339). -/
structure ClrSt where
  lastStatus : Byte
  accepted : W32
  sent : W32
  carried : W32
  dropped : W16
  lost : W16
  /-- pages of the buffer -/
  pages : Nat
  shards : List ClrShard
  contribs : List Contribution
  carries : List Contribution
  /-- contributions that were dropped: peer, step and shard; what still comes of one is not counted again (R332, R439) -/
  gone : List (Nat × StepNo × BitVec 24)
  /-- failed blocks: peer, shard, band and count (R373) -/
  fails : List ((Nat × BitVec 24 × Nat) × Nat)
deriving DecidableEq, Repr, Inhabited

/-- A request whose last page waits in a port: its trailer frame, the ledger entry read, the peer (R223). -/
structure Serving where
  frame : Frame
  engine : EngineId
  entry : Nat
  peer : Nat
deriving DecidableEq, Repr, Inhabited

/-- The Envis global state (R339): LOST_TIME register, peers by index, live replicas of the tree of the step (R328). -/
structure EnvSt where
  cfg : W64
  peers : List PeerSt
  live : List Nat
  /-- live replicas of the step before -/
  livePrev : List Nat
  clr : Vector ClrSt 2
  /-- peers declared lost in the step: their effects at the boundary -/
  lostNow : List Nat
  /-- requests of peers whose last page waits in a port -/
  serving : List Serving
  /-- frames of other modules that stand in a receive buffer, with the port where they came in (R314) -/
  transit : List (PortId × Frame)
deriving DecidableEq, Repr, Inhabited

/-- A partial norm at the root (R240). -/
structure Partial where
  shard : BitVec 24
  step : StepNo
  attempt : Byte
  p : W64
deriving DecidableEq, Repr, Inhabited

/-- Loss scale, verdict and counts (R234, R240 to R242, R257). -/
structure UpdSt where
  cleanRun : BitVec 24
  skipRun : W16
  exp : Int
  /-- exponents of the last steps -/
  hist : List (StepNo × Int)
  /-- V(s) of the current step and of the step before it (R254) -/
  due : StepNo
  duePrev : StepNo
  /-- an UPDATE row has run in the step (R238) -/
  ran : Bool
  updates : BitVec 48
  skips : BitVec 48
  vStep : StepNo
  vStatus : Byte
  vClipped : Bool
  vValid : Bool
  q : W64
  gamma : W32
  /-- exponent that the verdict gives the next step -/
  eNext : Int
  partials : List Partial
  /-- own partials sent in the step -/
  sent : List Partial
  /-- verdicts received of the step in progress and later ones, newest first -/
  verdicts : List Verdict
  liveForwarded : Option StepNo
deriving DecidableEq, Repr, Inhabited

/-- A committed checkpoint as GLB_CKPT_NEW shows it (R443). -/
structure Committed where
  slot : Fin 4
  cut : StepNo
deriving DecidableEq, Repr, Inhabited

/-- One block that a drain carries (R417, R418): its place, its engine and shard, and its source. -/
structure DrainBlk where
  index : Nat
  engine : Nat
  shard : BitVec 24
  loc : PageLoc
  kind : BitVec 4
  objIndex : Nat
deriving DecidableEq, Repr, Inhabited

/-- A checkpoint that drains (R412 to R425): the counterfoil's values as taken at the boundary. -/
structure Drain where
  cut : StepNo
  slot : Fin 4
  planeClosed : Fin 2
  planeNext : Fin 2
  exp : Int
  clean : BitVec 24
  skip : W16
  updates : BitVec 48
  skips : BitVec 48
  live : BitVec 1024
  liveCount : Nat
  left : List DrainBlk
  total : Nat
  records : List (List Byte)
  /-- block records written, and blocks carried out of order that wait for their place in the checksum (R415) -/
  recs : List (Nat × List Byte)
  early : List (Nat × List Byte)
  /-- chain checksum and byte count by shard -/
  sums : List (BitVec 24 × W32 × Nat)
  mbs : List (StepNo × W16)
deriving DecidableEq, Repr, Inhabited

/-- A restore under way (R428). -/
structure RestoreSt where
  cut : StepNo
  slot : Fin 4
  planeClosed : Fin 2
  planeNext : Fin 2
  exp : Int
  clean : BitVec 24
  skip : W16
  updates : BitVec 48
  skips : BitVec 48
  live : BitVec 1024
  /-- recorded VERSION and MAP_HALLMARK by shard -/
  recorded : List (BitVec 24 × StepNo × W32)
  /-- owned shards sent to their mirror and not acknowledged (R428 step 3) -/
  mirroring : List (BitVec 24)
deriving DecidableEq, Repr, Inhabited

/-- Checkpoint, restore, pairing and live replicas (14). -/
structure CkptSt where
  slot : Fin 4
  lastStatus : Byte
  cut : StepNo
  newest : Option Committed
  older : Option Committed
  committed : W32
  failed : W16
  skipped : W16
  rStatus : Byte
  rShard : BitVec 24
  offer : Option (Fin 4)
  pairValid : Bool
  twin : BitVec 12
  taken : W16
  lostUpdates : W16
  unmirrored : W16
  twinLost : Bool
  liveStep : StepNo
  live : Nat
  liveMap : BitVec 1024
  /-- LIVE received and not yet applied, oldest first: step, count and map -/
  liveNext : List (StepNo × Nat × BitVec 1024)
  /-- the root's map where it has changed since the last verdict (R437) -/
  rootMap : Option (BitVec 1024)
  recordsRead : Bool
  drain : Option Drain
  restore : Option RestoreSt
  /-- shards taken over with the mirror slot that is their state region; shards to take over, and shards whose owner is
  now their mirror (R434, R435) -/
  takenOver : List (BitVec 24 × Nat)
  toTake : List (BitVec 24)
  reowned : List (BitVec 24)
  /-- valid mirror slots as commit pages hold them: shard, slot, version -/
  mirrorSlots : List (BitVec 24 × Fin 2 × StepNo)
  mirrorPages : List (BitVec 24 × StepNo × Nat)
  /-- commits received before their last page: peer, shard, version -/
  mirrorDue : List (Nat × BitVec 24 × StepNo)
  mirrorFails : List (BitVec 24 × Nat × Nat)
  /-- owned shards without a valid mirror slot -/
  unmirroredShards : List (BitVec 24)
deriving DecidableEq, Repr, Inhabited

end Sys2Proof.Machine
end

