-- ==== Sys2Proof/Machine/State.lean ====
section
/-! DEFINITION. The machine's state as plain data, the reasons a step can stop, and the state after reset. -/

namespace Sys2Proof.Machine

/-- Why a step can stop. -/
inductive Fault
  /-- Raised by the meanings of the memory-controller commands for an address that R260 does not give the vault or
  far channel. Safe: the run stops where the hardware has no such location. -/
  | noSuchAddress
deriving DecidableEq, Repr

/-- Why a command has no meaning. -/
inductive Refusal
  /-- Raised by an arm of exec whose command has no meaning in the model. Safe. -/
  | notModelled (mnemonic : String)
deriving DecidableEq, Repr

/-- PCIe status of an answered access (R345, R513). -/
inductive PciStatus
  | success | unsupported | abort
deriving DecidableEq, Repr, Inhabited

/-- Identity, capabilities and BARs that the PCIe function presents; it advertises no capability beyond these (R4, R340,
R341, R343). -/
structure PciConfig where
  vendor : W16
  device : W16
  cls : BitVec 24
  /-- rates [0.1 GT/s] and widths, and FLIT mode at every rate -/
  rates : List Nat
  widths : List Nat
  flit : Bool
  /-- the greatest payload and read request [bytes], the bits of a tag, the non-posted requests outstanding -/
  maxPayload : Nat
  maxRead : Nat
  tagBits : Nat
  requests : Nat
  msixVectors : Nat
  /-- error reporting: AER, and its log of errors in FLIT mode -/
  aer : Bool
  flitLog : Bool
  flr : Bool
  doeMailboxes : Nat
  ideLinkStreams : Nat
  /-- 64-bit non-prefetchable BARs: number and bytes -/
  bars : List (Nat × Nat)
deriving DecidableEq, Repr

/-- What leaves the module (log entry 3). -/
inductive Emission
  /-- a completion entry at its address in the completion ring, or an MCTP answer on the path of R455 -/
  | completion (src : CmdSrc) (addr : W64) (w0 w1 : W64)
  | msix (vector : Nat)
  | hostWrite (addr : W64) (data : List Byte)
  /-- an Ethernet frame on management port 0 or 1: EtherType, destination, payload -/
  | ether (port : Bool) (etherType : W16) (dst : W64) (payload : List Byte)
  | mctp (smbus port : Bool) (msgTag : BitVec 3) (endpoint : Byte) (body : List Byte)
  | doe (o : DoeObj)
  | pci (status : PciStatus) (data : List Byte)
  /-- what the link partner finds when the link comes up (R4, R340, R343) -/
  | pciConfig (c : PciConfig)
  /-- a link unit: prefix, frame and CRC (R306) -/
  | linkUnit (p : PortId) (pfx : W64) (f : Frame) (crc : W32)
  /-- a controller's answer: status, data, and the sidebands of the blocks read -/
  | memAnswer (ctl : CtlId) (st : Status) (data : List Byte) (sides : List Sideband)
  /-- a till block or its control message between two engines of the module -/
  | tillBlock (port : Fin 4) (e : EngineId) (t : TillId) (b : TillBlk)
  | tillCredit (e : EngineId) (t : TillId) (count msgBytes : Nat)
  | tillAck (e : EngineId) (t : TillId) (seqNo : W32)
  | tillResend (e : EngineId) (t : TillId) (seqNo : W32) (block : Nat)
  /-- the negative completion of a router for a unit held in reset or in quarantine (R16) -/
  | notServed (unit : IslandIdx) (st : Status)
  /-- a parity resend request to the sending island of a crossing, and the transfers that it sends again, in order (R369) -/
  | paritySend (recv send : Nat) (again : List (List W32))
  /-- the lane module that carries a row's cross traffic of one column parity from now on, if any does (R364) -/
  | spanRoute (row : Nat) (odd : Bool) (lm : Option Nat)
  /-- a class-3 mark broadcast (R387) -/
  | mark (step : StepNo) (status : Byte) (island : W16)
  /-- a slip with NOTIFY has completed (R295) -/
  | notify (e : EngineId) (c : ChanId)
  /-- an instruction or load access fault of a bursar core (R280) -/
  | coreFault (fetch : Bool)
deriving DecidableEq, Repr

/-- The machine. -/
structure State where
  /-- commands that wait, first in first out -/
  pending : List Instr
  /-- the model's own counter of free values drawn (log entry 2) -/
  free : Nat
  /-- what has left the module, newest first (log entry 3) -/
  out : List Emission
  glb : GlbSt
  job : JobSt
  int : IntSt
  sec : SecSt
  pwr : PwrSt
  host : HostSt
  span : SpanSt
  vaults : Vector CtlSt 32
  fars : Vector CtlSt 48
  caches : Vector CacheSt 8
  ports : Vector PortSt 48
  env : EnvSt
  upd : UpdSt
  ckpt : CkptSt
  eng : Vector Engine 128
deriving DecidableEq, Repr

/-! The parts at reset: every register at the Reset column of 18_register_index; where that column gives no value
(fuse map, security store, straps) the value of log entries 4 to 7. -/

def GlbSt.init : GlbSt where
  startStep := 0
  lastReset := 0
  lastRetired := 0
  shedMirror := false
  shedTelemetry := false
  recovery := false
  bursarUp := false
  ready := false
  hold := .off
  engAvail := 0
  vaultAvail := 0
  farAvail := 0
  portAvail := 0
  droop := 0
  strapRecovery := false
  pairPos := true
  pinDroop := 0
  pinRecovery := false
  pinPair := true
  perst := false
  resetN := false
  pgOut := false
  alertN := false
  ref100 := true
  ref156 := true
  resetDue := 0
  mgmtCfg := 0x6A_88B6
  smbAddr := 0x6A
  mgmtLink := 0
  seqs := Vector.replicate 260 0

def CharterErr.none : CharterErr := { sub := 0, list := 0, check := 0, section_ := 0, entry := 0 }

def JobSt.init : JobSt where
  state := .empty
  lastStatus := 0
  plane := 0
  planeClosed := 0
  step := 0
  err := CharterErr.none
  len := 0
  digest := 0
  switches := 0
  jobId := 0
  declared := 0
  charter := none
  locked := false
  runLeft := none
  pendPause := none
  pendSwitch := none
  pendCkpt := none
  busy := none
  stepOn := false
  fresh := false

def IntSt.init : IntSt where
  errSummary := 0
  errCfg := 0x3_88B5
  errDst := 0xFFFF_FFFF_FFFF
  mbox := []
  mboxSeq := 0
  sent := 0
  overflow := 0
  ovfByClass := Vector.replicate 16 0
  replayStep := 0
  replayAttempt := 0
  holds := 0
  replays := 0
  replay := none
  holding := false
  raised := []
  auditStep := 0
  auditMismatch := 0
  auditSkipped := 0
  auditDone := []
  auditVotes := []
  assayCfg := 0
  assayRuns := 0
  assayFails := 0
  assaySkipped := 0
  assay := none
  assayWindow := false
  parMem := 0
  parPort := 0
  parSpan := 0
  parOther := 0
  xch := Vector.replicate 16 (0, 0)
  fwSpass := 0
  fwTouches := 0
  fwRecs := []

def SecStore.empty : SecStore where
  cert := []
  keyI := none
  keyO := none
  moduleId := 0
  boot := 0
  fuseMap := []
  dbHead := 0
  dbSeq := 0
  jobFlag := false

def SecSt.init : SecSt where
  store := SecStore.empty
  flash := none
  floor := 0
  extends_ := 0
  mlog := []
  mlogFull := false
  storeFail := false
  keyI := none
  keyO := none
  ideKeys := none
  jobKey := none
  memKey := none
  boot := 0
  fwSecVer := 0
  fwVer := 0
  nonce := 0
  nonceHead := 0
  nonceEpoch := 0
  seqM := 0
  seqI := 0
  seqO := 0
  dbSeq := 0
  dbHead := 0
  dbOpen := false
  db := []
  dbMirror := 0
  dbMirrorCfg := 0
  mrBoot := 0
  mrCfg := 0
  mrJob := 0
  deniedToken := 0
  deniedDirect := 0
  wdogResets := 0
  wdogTimeout := 0x3E8
  mapVer := 0
  fwDigest := 0
  draws := 0
  recovery := []
  doeWait := none
  doeError := false
  mctpLast := none

def IslSt.init : IslSt :=
  { freq := 0, volt := 0, probV := 0, probF := 0, builtin := false, inReset := false, heat := 0, cooling := false }

def PwrSt.init : PwrSt where
  level := 0
  refLost100 := false
  refLost156 := false
  thermalCap := false
  throttle := false
  throttleWhole := false
  inputHigh := false
  inputLow := false
  volts := 0
  power := 0
  budget := 0x64_0ED8
  cap := 0x4_1130
  thermal := 0x64
  capTrips := 0
  excursions := 0
  thermalSteps := 0
  envelope := 0
  tempIsland := 0
  temp := 0
  curveCtrl := 0
  curveData := []
  isl := Vector.replicate 260 IslSt.init
  overTicks := 0
  curves := []
  rampInside := true
  load := 0

def RingSt.init : RingSt where
  cfg := 0
  sq := 0
  cq := 0
  head := 0
  tail := 0
  taken := 0
  cHead := 0
  cPos := 0
  phase := false
  badCfg := false
  badDb := false
  gen := 0
  posted := []
  waiting := []

def HostSt.init : HostSt where
  vendor := 0x1F3A
  device := 0x7200
  pciClass := 0x12_0000
  rate := 0
  width := 0
  flit := false
  degraded := false
  ideActive := false
  aer := 0
  ltssm := 0
  cfg := 0
  aptStatus := 0
  aptOff := 0
  aptMap := Vector.replicate 16 0xF000_0000_0000_0000
  rings := Vector.replicate 64 RingSt.init
  arb := 64
  path := []
  pages := []

def LaneSt.init : LaneSt := { state := 0, locked := false, attempts := 0, agreed := 0, east := 0, west := 0 }

def SpanSt.init : SpanSt :=
  { replayed := 0, agreements := 0, discards := 0, lanes := Vector.replicate 16 LaneSt.init, routes := Vector.replicate 16 none }

def CtlSt.init : CtlSt where
  inService := false
  trained := false
  ueSeen := false
  marked := none
  scrubOn := false
  scrubEnv := false
  cfg := 0x40_0080
  scrub := 0x1_0002
  rate := 2
  passes := 0
  pos := 0
  demandCe := 0
  scrubCe := 0
  demandUe := 0
  scrubUe := 0
  corrections := 0
  rmw := 0
  merged := 0
  lastUe := 0
  mapVersion := 0
  spareRows := 0
  spareCols := 0
  data := []
  sides := []
  zeroed := []
  merge := []
  dieCe := Vector.replicate 8 0
  dieUe := Vector.replicate 8 0
  dieCw := Vector.replicate 8 0
  bad := []
  badDie := []
  tags := []

def CacheSt.init : CacheSt := { pairs := 0, hits := 0, misses := 0, corrected := 0, refetch := 0, lines := [] }

def PortSt.init : PortSt where
  state := 0
  farModule := 0
  retrains := 0
  cfg := 0x4000_0008
  fecCorrected := 0
  fecUncorrectable := 0
  replayed := 0
  naks := 0
  tx := 0
  rx := 0
  badType := 0
  noRoute := 0
  unadmitted := 0
  window := 0
  credits := Vector.replicate 8 0
  owed := Vector.replicate 8 0
  lseq := 0
  retry := []
  moved := []
  expect := 0
  nakSent := false
  queue := []
  turn := 0
  inBlock := false
  part := []
  ackSent := 0
  failed := 0

def PeerSt.init : PeerSt where
  state := 0
  module := 0
  epoch := false
  ownNonce := none
  peerNonce := none
  reportOk := false
  secret := none
  sealPub := []
  keyTx := none
  keyRx := none
  oldRx := none
  newOn := Vector.replicate 8 false
  rekeying := false
  ctrTx := Vector.replicate 8 0
  ctrRx := Vector.replicate 8 0
  ctrOld := Vector.replicate 8 0
  confirmed := false
  refused := false
  port := none

def ClrSt.init : ClrSt where
  lastStatus := 0
  accepted := 0
  sent := 0
  carried := 0
  dropped := 0
  lost := 0
  pages := 0
  shards := []
  contribs := []
  carries := []
  gone := []
  fails := []

def EnvSt.init : EnvSt :=
  { cfg := 0x1_86A0, peers := [], live := [], livePrev := [], clr := Vector.replicate 2 ClrSt.init, lostNow := [], serving := [], transit := [] }

def UpdSt.init : UpdSt where
  cleanRun := 0
  skipRun := 0
  exp := 0
  hist := []
  due := 0
  duePrev := 0
  ran := false
  updates := 0
  skips := 0
  vStep := 0
  vStatus := 0
  vClipped := false
  vValid := false
  q := 0
  gamma := 0
  eNext := 0
  partials := []
  sent := []
  verdicts := []
  liveForwarded := none

def CkptSt.init : CkptSt where
  slot := 0
  lastStatus := 0
  cut := 0
  newest := none
  older := none
  committed := 0
  failed := 0
  skipped := 0
  rStatus := 0
  rShard := 0
  offer := none
  pairValid := false
  twin := 0
  taken := 0
  lostUpdates := 0
  unmirrored := 0
  twinLost := false
  liveStep := 0
  live := 0
  liveMap := 0
  liveNext := []
  rootMap := none
  recordsRead := false
  drain := none
  restore := none
  takenOver := []
  toTake := []
  reowned := []
  mirrorSlots := []
  mirrorPages := []
  mirrorDue := []
  mirrorFails := []
  unmirroredShards := []

/-- The stationary registers after power-on: no block of a layer, each cell reading 0. The spec gives them no contents (R64; log
entry 7). -/
def StatBlock.empty : StatBlock := { layer := 0, kb := 0, nb := 0, elems := [], scales := [], chk := [] }

def ArraySt.init : ArraySt where
  width := 64
  bypass := 0
  active := StatBlock.empty
  shadow := StatBlock.empty
  shadowValid := false
  ramping := false
  tile := none
  met := []
  quar := false
  idle := true
  inv := 0
  ovf := 0
  nan := 0
  chkFlags := 0
  ramps := 0
  tiles := 0

def EngArr.init : EngArr where
  a := ArraySt.init
  b := ArraySt.init
  rampSrc := 0
  excInv := 0
  excOvf := 0
  excNan := 0
  excMask := 6
  slotWait := 0
  shadowWait := 0
  queue := []
  waiting := []
  bwdLayer := 0
  bwdMb := 0
  bwdTransposed := false
  bwdFrozen := false
  bwdSequential := false
  bwdActive := false
  homeWait := 0
  tilebufWait := 0
  homeAdded := 0
  homeFirst := 0
  homeInv := 0
  homeOvf := 0
  homeNan := 0
  touched := []
  homeFlight := []
  tilebuf := []

def VecRun.init : VecRun := { layer := 0, mb := 0, prog := 0, tile := none, pos := 0, active := false }

def ExcCnt.init : ExcCnt := { inv := 0, ovf := 0, nan := 0, cFlush := 0, cOvf := 0, cInv := 0, cNanBlk := 0 }

def EngVec.init : EngVec where
  vr := []
  run := VecRun.init
  convFlush := 0
  convOvf := 0
  convInv := 0
  convNanBlk := 0
  excInv := 0
  excOvf := 0
  excNan := 0
  tileWait := 0
  depWait := 0
  duplex := 0
  red := []
  rowLayer := 0
  rowMb := 0
  rowBwd := false
  rowActive := false
  rowSpilling := false
  readback := 0
  spilled := 0
  stats := []
  cnt := ExcCnt.init
  results := 0

def SeqSt.init : SeqSt where
  row := 0
  op := 0
  wait := 0
  lastStatus := 0
  running := false
  ctr := Vector.replicate 8 0
  pass := none
  retired := false
  failed := false
  runs := []
  kept := []
  spoiled := []

def SaveSt.init : SaveSt := { float := [], tills := [], refs := [] }

def TillSt.init : TillSt where
  state := 0
  mismatch := false
  peerLost := false
  o := 0
  r := 0
  s := 0
  credits := 0
  announced := false
  msgs := []
  nextClaim := 0
  nextIn := 0
  dropping := none
  outs := []
  nextOut := 0
  cMsgs := 0
  cResends := 0
  cOver := 0
  headOrigin := 0
  headMb := 0
  reloads := 0
  odWait := 0

def EngLed.init : EngLed where
  entries := []
  created := 0
  freed := 0
  auditFails := 0
  shares := []
  freePages := 0
  residency := []
  pfMiss := 0
  pfImplicit := 0
  upd := []
  updShard := 0
  updPhase := 0
  updLast := 0
  updated := 0
  fetched := 0
  notResident := 0
  staleUses := 0
  refusals := 0
  auditPasses := 0
  auditPageFails := 0
  fetches := []
  pubGroups := []
  loads := []
  undo := []

def EngEsc.init : EngEsc := { marked := [], copies := [], freePages := [], drained := 0, wait := 0 }

def UnitSt.init : UnitSt := { strikes := 0, since := 0, probs := [], quarantined := false }

def EngInt.init : EngInt where
  storeCe := 0
  accCe := 0
  otherCe := 0
  sramUe := 0
  transients := 0
  neighbourFail := 0
  units := Vector.replicate 5 UnitSt.init
  parResends := 0
  parBroken := 0
  sampleStep := 0
  auditor := 0
  sampleBad := 0
  deeds := []
  assayPos := 0
  assaySpent := 0
  flog := Vector.replicate 64 { w0 := 0, w1 := 0, w2 := 0, w3 := 0 }
  flogHead := 0
  flogCount := 0

def ChanSt.init : ChanSt where
  state := .idle
  lastStatus := 0
  progress := 0
  head := 0
  cur := 0
  cfg := 3
  slips := 0
  halts := 0
  stops := 0
  haltStatus := 0
  haltOffset := 0
  pinWait := 0
  limitWait := 0
  slip := none
  first := false
  share := 0
  burst := 0
  asked := 0
  got := []
  part := []
  sent := 0
  crc := 0
  crcBytes := 0
  buf := []
  chain := none
  tail := []
  openBlks := 0
  halting := none
  csumSent := false
  hostRing := false

def Engine.init : Engine where
  store := []
  acc := []
  chk := []
  badWords := []
  arr := EngArr.init
  vec := EngVec.init
  seq := SeqSt.init
  save := SaveSt.init
  table0 := none
  table1 := none
  float := []
  recvWait := 0
  sendWait := 0
  floatWait := 0
  versionWait := 0
  tills := Vector.replicate 64 TillSt.init
  led := EngLed.init
  esc := EngEsc.init
  int := EngInt.init
  dma := Vector.replicate 8 ChanSt.init

/-- The module with power about to be applied: every register at its reset value, nothing started (R57, R494). -/
def State.reset : State where
  pending := []
  free := 0
  out := []
  glb := GlbSt.init
  job := JobSt.init
  int := IntSt.init
  sec := SecSt.init
  pwr := PwrSt.init
  host := HostSt.init
  span := SpanSt.init
  vaults := Vector.replicate 32 CtlSt.init
  fars := Vector.replicate 48 CtlSt.init
  caches := Vector.replicate 8 CacheSt.init
  ports := Vector.replicate 48 PortSt.init
  env := EnvSt.init
  upd := UpdSt.init
  ckpt := CkptSt.init
  eng := Vector.replicate 128 Engine.init

end Sys2Proof.Machine
end

