-- ==== Sys2Proof/Machine/Ops.lean ====
section
/-! DEFINITION. The operations that the meanings share: bytes and fields, memory, CRC-32C, access to the units of the
state, records, the day book and completions. -/

namespace Sys2Proof.Machine

/-- What a meaning answers. -/
abbrev Res := Host.Outcome State Fault Refusal

/-! ### Bytes and fields -/

/-- The k lowest bytes of a word, lowest first (little-endian). -/
def toBytes {n : Nat} (w : BitVec n) (k : Nat) : List Byte :=
  (List.range k).map fun i => BitVec.ofNat 8 (w.toNat >>> (8 * i))

/-- The number that bytes spell, lowest first. -/
def ofBytes (bs : List Byte) : Nat :=
  bs.foldr (fun b acc => b.toNat + 256 * acc) 0

/-- n bytes from offset a; bytes beyond the end are not there. -/
def slice (bs : List Byte) (a n : Nat) : List Byte :=
  (bs.drop a).take n

/-- The number at offset a, k bytes. -/
def rdNat (bs : List Byte) (a k : Nat) : Nat :=
  ofBytes (slice bs a k)

def rdW (n : Nat) (bs : List Byte) (a : Nat) : BitVec n :=
  BitVec.ofNat n (rdNat bs a ((n + 7) / 8))

/-- Bits hi to lo of a word, as a number. -/
def fld {n : Nat} (w : BitVec n) (hi lo : Nat) : Nat :=
  (w.toNat >>> lo) % 2 ^ (hi + 1 - lo)

def bitAt {n : Nat} (w : BitVec n) (i : Nat) : Bool :=
  w.getLsbD i

/-- A field value placed at its lowest bit. -/
def put (v lo : Nat) : W64 :=
  BitVec.ofNat 64 (v <<< lo)

def putB (b : Bool) (lo : Nat) : W64 :=
  if b then put 1 lo else 0

/-- A counter that stays at its greatest value. -/
def satAdd {n : Nat} (x : BitVec n) (k : Nat) : BitVec n :=
  if x.toNat + k < 2 ^ n then BitVec.ofNat n (x.toNat + k) else BitVec.allOnes n

/-- A counter that wraps. -/
def wrapAdd {n : Nat} (x : BitVec n) (k : Nat) : BitVec n :=
  BitVec.ofNat n (x.toNat + k)

/-- A two's-complement number of w bits. -/
def toInt (w v : Nat) : Int :=
  if v % 2 ^ w < 2 ^ (w - 1) then (v % 2 ^ w : Nat) else (v % 2 ^ w : Nat) - (2 ^ w : Nat)

/-- The w low bits of an integer. -/
def ofInt (w : Nat) (i : Int) : BitVec w :=
  BitVec.ofInt w i

def setBit {n : Nat} (w : BitVec n) (i : Nat) (b : Bool) : BitVec n :=
  if b then w ||| BitVec.ofNat n (2 ^ i) else w &&& ~~~ BitVec.ofNat n (2 ^ i)

def allZero (bs : List Byte) : Bool :=
  bs.all (· == 0)

/-- Lookup in an association list. -/
def lookupD {α β : Type} [DecidableEq α] (l : List (α × β)) (a : α) (d : β) : β :=
  match l.find? (fun p => p.1 == a) with
  | some p => p.2
  | none => d

def assocSet {α β : Type} [DecidableEq α] (l : List (α × β)) (a : α) (b : β) : List (α × β) :=
  (a, b) :: l.filter (fun p => p.1 != a)

def assocDel {α β : Type} [DecidableEq α] (l : List (α × β)) (a : α) : List (α × β) :=
  l.filter (fun p => p.1 != a)

/-! ### Signatures (log entry 8) -/

/-- A signature verifies: one that the key's holder makes does; whether any other does is open. -/
def mlDsaOk (keyHash msg : Dig512) (sig : List Byte) : Bool :=
  sig == toBytes (Config.mlDsaSign keyHash msg) 4627 || Config.mlDsaVerify keyHash msg sig

/-! ### DOE objects -/

/-- The requests of the mailbox (R358, R464). -/
inductive DoeReq
  | discovery (index : Byte)
  | report (nonce : Dig256)
  | certs
  | ideKem (ct : List Byte) (nonce : Dig256)
deriving DecidableEq, Repr, Inhabited

/-- The request that an object holds: of the discovery type, or of the Zhosan one by the code in byte 0. -/
def doeParse (o : DoeObj) : Option DoeReq :=
  if o.vendor = 0x0001 ∧ o.ty = 0x00 then o.body.head?.map .discovery
  else if o.vendor = 0x1F3A ∧ o.ty = 0x01 then
    match o.body with
    | 0x01 :: r => if 32 ≤ r.length then some (.report (rdW 256 r 0)) else none
    | 0x02 :: _ => some .certs
    | 0x03 :: r => if 1600 ≤ r.length then some (.ideKem (r.take 1568) (rdW 256 r 1568)) else none
    | _ => none
  else none

/-! ### Keys of the device (R445) -/

/-- The SHA3-512 of the seed and a label. -/
def seedHash (label : List Byte) : Dig512 := Config.sha3_512 (toBytes Config.deviceSeed 32 ++ label)

/-- The device identity key's signature over a digest: its ξ is bytes 0 to 31 of the hash with "ZC-DIK". -/
def deviceSign (msg : Dig512) : List Byte :=
  toBytes (Config.mlDsaSeedSign ((seedHash [0x5A, 0x43, 0x2D, 0x44, 0x49, 0x4B]).setWidth 256) msg) 4627

/-- d and z of the sealing key: bytes 0 to 31 and 32 to 63 of the hash with "ZC-SEAL". -/
def sealSeed : Dig256 × Dig256 :=
  let h := seedHash [0x5A, 0x43, 0x2D, 0x53, 0x45, 0x41, 0x4C]
  (h.setWidth 256, (h >>> 256).setWidth 256)

def sealPublic : List Byte := toBytes (Config.mlKemPublic sealSeed.1 sealSeed.2) 1568

def kemDecap (ct : List Byte) : Dig256 := Config.mlKemDecap sealSeed.1 sealSeed.2 ct

/-- The store key: SHA3-256 of the seed and "ZC-STORE". -/
def storeKey : Dig256 :=
  Config.sha3_256 (toBytes Config.deviceSeed 32 ++ [0x5A, 0x43, 0x2D, 0x53, 0x54, 0x4F, 0x52, 0x45])

/-! ### Certificates (R446, R464) -/

/-- Each certificate after its length, 4 bytes (R464). -/
def certFrame (l : List (List Byte)) : List Byte := l.flatMap fun c => toBytes (BitVec.ofNat 32 c.length) 4 ++ c

/-- The certificates of a framed chain, at most so many; none where a length does not fit. -/
def certParse : Nat → List Byte → Option (List (List Byte))
  | _, [] => some []
  | 0, _ :: _ => none
  | n + 1, b :: bs =>
    let len := rdNat (b :: bs) 0 4
    if (b :: bs).length < 4 + len then none else (certParse n ((b :: bs).drop (4 + len))).map (slice (b :: bs) 4 len :: ·)

/-- Every certificate verifies under the key of the one above it, the root under its own, and the root key hashes to
ROOT_HASH. -/
def chainValid : List (List Byte) → Bool
  | [] => false
  | [r] => Config.sha3_512 (Config.x509Key r) == Config.rootHash && Config.x509Verify (Config.x509Key r) r
  | c :: d :: l => Config.x509Verify (Config.x509Key d) c && chainValid (d :: l)

/-- The leaf of a framed chain that is valid: one that the maker has issued is; another is as its certificates say. -/
def chainLeaf (chain : List Byte) : Option (List Byte) :=
  if chain = Config.makerChain then some Config.makerLeaf
  else match certParse 16 chain with
    | some (c :: l) => if chainValid (c :: l) then some c else none
    | _ => none

/-- A signature under the key of the leaf of a valid chain (R322, R446). -/
def certOk (chain : List Byte) (msg : Dig512) (sig : List Byte) : Bool :=
  match chainLeaf chain with
  | some c => mlDsaOk (Config.sha3_512 (Config.x509Key c)) msg sig
  | none => false

/-- A firmware image holds a signing key of 2,592 bytes and a signature of 4,627: the key hashes to MAKER_KEY_HASH and the
signature verifies under it (R460). One that the maker has made passes. -/
def fwSignedOk (img : List Byte) : Bool :=
  decide (7219 ≤ img.length) && (img == toBytes (Config.fwMade img.length) img.length ||
    (Config.sha3_512 (Config.fwKey img) == Config.makerKeyHash && mlDsaOk Config.makerKeyHash (Config.fwDigest img) (Config.fwSig img)))

/-! ### Memory -/

/-- What a byte that nothing has written reads as (log entry 7). -/
def memUnlisted : Byte := 0

def memGet : Mem → Nat → Byte
  | [], _ => memUnlisted
  | (k, v) :: r, a => if k = a then v else memGet r a

def memSet : Mem → Nat → Byte → Mem
  | [], a, b => if b = memUnlisted then [] else [(a, b)]
  | (k, v) :: r, a, b =>
    if a < k then (if b = memUnlisted then (k, v) :: r else (a, b) :: (k, v) :: r)
    else if a = k then (if b = memUnlisted then r else (a, b) :: r)
    else (k, v) :: memSet r a b

/-- n bytes from address a upwards. -/
def memRead (m : Mem) (a : Nat) : Nat → List Byte
  | 0 => []
  | n + 1 => memGet m a :: memRead m (a + 1) n

/-- Bytes written from address a upwards. -/
def memWrite (m : Mem) (a : Nat) : List Byte → Mem
  | [] => m
  | b :: bs => memWrite (memSet m a b) (a + 1) bs

/-- The canonical form: addresses strictly rising, every listed byte differs from an unlisted one. -/
def memSorted : Mem → Bool
  | [] => true
  | [(_, v)] => v != memUnlisted
  | (k, v) :: (k', v') :: r => v != memUnlisted && decide (k < k') && memSorted ((k', v') :: r)

abbrev Mem.wf (m : Mem) : Prop := memSorted m = true

def memW (m : Mem) (n a : Nat) : BitVec n :=
  BitVec.ofNat n (ofBytes (memRead m a ((n + 7) / 8)))

/-- The cells of an address range removed: it then reads as nothing has written it. -/
def memClear (m : Mem) (a n : Nat) : Mem :=
  m.filter fun c => !(a ≤ c.1 && c.1 < a + n)

/-! ### CRC-32C (R269, R297, R306; log entry 8) -/

def crcBit (c : W32) : W32 :=
  if c.getLsbD 0 then (c >>> 1) ^^^ 0x82F6_3B78 else c >>> 1

def crcByte (c : W32) (b : Byte) : W32 :=
  crcBit (crcBit (crcBit (crcBit (crcBit (crcBit (crcBit (crcBit (c ^^^ b.setWidth 32))))))))

/-- The CRC continued over bytes from a final value (R297 CSUM_CHAIN). -/
def crcMore (c : W32) (bs : List Byte) : W32 :=
  ~~~ (bs.foldl crcByte (~~~ c))

def crc32c (bs : List Byte) : W32 :=
  crcMore 0 bs

def blockBytes : Nat := 4096

/-! ### Sidebands (R269) -/

end Sys2Proof.Machine

namespace Sys2Proof

open Sys2Proof.Machine

def Sideband.hallmark (x : Sideband) : W32 := BitVec.ofNat 32 (fld x.w0 63 32)
def Sideband.valid (x : Sideband) : Bool := bitAt x.w0 31
def Sideband.kind (x : Sideband) : Nat := fld x.w0 30 27
def Sideband.plane (x : Sideband) : Bool := bitAt x.w0 26
def Sideband.step (x : Sideband) : StepNo := BitVec.ofNat 48 (fld x.w1 63 16)
def Sideband.mb (x : Sideband) : W16 := BitVec.ofNat 16 (fld x.w1 15 0)
def Sideband.object (x : Sideband) : Nat := fld x.w2 63 40
def Sideband.index (x : Sideband) : Nat := fld x.w2 39 8
def Sideband.block (x : Sideband) : Nat := fld x.w3 63 53

/-- A sideband with VALID set. -/
def mkSide (hallmark : W32) (kind : Nat) (plane : Bool) (step : StepNo) (mb : W16) (object index block : Nat) :
    Sideband where
  w0 := put hallmark.toNat 32 ||| put 1 31 ||| put (kind % 16) 27 ||| putB plane 26
  w1 := put step.toNat 16 ||| put mb.toNat 0
  w2 := put (object % 2 ^ 24) 40 ||| put (index % 2 ^ 32) 8
  w3 := put (block % 2 ^ 11) 53

def Sideband.zero : Sideband := { w0 := 0, w1 := 0, w2 := 0, w3 := 0 }

def Sideband.bytes (x : Sideband) : List Byte :=
  toBytes x.w0 8 ++ toBytes x.w1 8 ++ toBytes x.w2 8 ++ toBytes x.w3 8

def sideOfBytes (bs : List Byte) : Sideband :=
  { w0 := rdW 64 bs 0, w1 := rdW 64 bs 8, w2 := rdW 64 bs 16, w3 := rdW 64 bs 24 }

def Sideband.clearValid (x : Sideband) : Sideband :=
  { x with w0 := setBit x.w0 31 false }

def Rec4.bytes (x : Rec4) : List Byte :=
  toBytes x.w0 8 ++ toBytes x.w1 8 ++ toBytes x.w2 8 ++ toBytes x.w3 8

def Rec4.zero : Rec4 := { w0 := 0, w1 := 0, w2 := 0, w3 := 0 }

end Sys2Proof

namespace Sys2Proof.Machine

/-- A hallmark describes the block and matches its bytes (R372). -/
def hallmarkOk (x : Sideband) (data : List Byte) : Bool :=
  x.valid && x.hallmark == crc32c data

/-! ### Units of the state -/

def State.emit (s : State) (x : Emission) : State := { s with out := x :: s.out }

def State.modEng (s : State) (e : EngineId) (f : Engine → Engine) : State :=
  { s with eng := s.eng.set e.val (f s.eng[e.val]) }

def State.modArr (s : State) (e : EngineId) (f : EngArr → EngArr) : State :=
  s.modEng e fun x => { x with arr := f x.arr }

def State.modVec (s : State) (e : EngineId) (f : EngVec → EngVec) : State :=
  s.modEng e fun x => { x with vec := f x.vec }

def State.modSeq (s : State) (e : EngineId) (f : SeqSt → SeqSt) : State :=
  s.modEng e fun x => { x with seq := f x.seq }

def State.modLed (s : State) (e : EngineId) (f : EngLed → EngLed) : State :=
  s.modEng e fun x => { x with led := f x.led }

def State.modEngInt (s : State) (e : EngineId) (f : EngInt → EngInt) : State :=
  s.modEng e fun x => { x with int := f x.int }

def State.modTill (s : State) (e : EngineId) (t : TillId) (f : TillSt → TillSt) : State :=
  s.modEng e fun x => { x with tills := x.tills.set t.val (f x.tills[t.val]) }

def State.modChan (s : State) (e : EngineId) (c : ChanId) (f : ChanSt → ChanSt) : State :=
  s.modEng e fun x => { x with dma := x.dma.set c.val (f x.dma[c.val]) }

def State.modAllEng (s : State) (f : Engine → Engine) : State :=
  { s with eng := s.eng.map f }

def State.ctl (s : State) : CtlId → CtlSt
  | .vault v => s.vaults[v.val]
  | .far f => s.fars[f.val]

def State.modCtl (s : State) (c : CtlId) (f : CtlSt → CtlSt) : State :=
  match c with
  | .vault v => { s with vaults := s.vaults.set v.val (f s.vaults[v.val]) }
  | .far n => { s with fars := s.fars.set n.val (f s.fars[n.val]) }

def State.modCache (s : State) (c : CacheId) (f : CacheSt → CacheSt) : State :=
  { s with caches := s.caches.set c.val (f s.caches[c.val]) }

def State.modPort (s : State) (p : PortId) (f : PortSt → PortSt) : State :=
  { s with ports := s.ports.set p.val (f s.ports[p.val]) }

def State.peer (s : State) (i : Nat) : PeerSt := s.env.peers.getD i PeerSt.init

def State.modPeer (s : State) (i : Nat) (f : PeerSt → PeerSt) : State :=
  { s with env := { s.env with peers := s.env.peers.modify i f } }

def State.modClr (s : State) (u : Fin 2) (f : ClrSt → ClrSt) : State :=
  { s with env := { s.env with clr := s.env.clr.set u.val (f s.env.clr[u.val]) } }

def State.modRing (s : State) (r : RingId) (f : RingSt → RingSt) : State :=
  { s with host := { s.host with rings := s.host.rings.set r.val (f s.host.rings[r.val]) } }

def State.modIsl (s : State) (i : IslandIdx) (f : IslSt → IslSt) : State :=
  { s with pwr := { s.pwr with isl := s.pwr.isl.set i.val (f s.pwr.isl[i.val]) } }

def State.modLane (s : State) (l : Fin 16) (f : LaneSt → LaneSt) : State :=
  { s with span := { s.span with lanes := s.span.lanes.set l.val (f s.span.lanes[l.val]) } }

def State.modGlb (s : State) (f : GlbSt → GlbSt) : State := { s with glb := f s.glb }
def State.modJob (s : State) (f : JobSt → JobSt) : State := { s with job := f s.job }
def State.modInt (s : State) (f : IntSt → IntSt) : State := { s with int := f s.int }
def State.modSec (s : State) (f : SecSt → SecSt) : State := { s with sec := f s.sec }
def State.modPwr (s : State) (f : PwrSt → PwrSt) : State := { s with pwr := f s.pwr }
def State.modHost (s : State) (f : HostSt → HostSt) : State := { s with host := f s.host }
def State.modUpd (s : State) (f : UpdSt → UpdSt) : State := { s with upd := f s.upd }
def State.modCkpt (s : State) (f : CkptSt → CkptSt) : State := { s with ckpt := f s.ckpt }

/-- A fold over numbers below n that changes the state. -/
def State.forRange (s : State) (n : Nat) (f : State → Nat → State) : State :=
  (List.range n).foldl f s

/-- A step over every engine. -/
def State.forEng (s : State) (f : State → EngineId → State) : State :=
  (List.finRange 128).foldl f s

/-- A draw of a free value's number. -/
def State.draw (s : State) : Nat × State := (s.free, { s with free := s.free + 1 })

/-! ### Availability (R28) and islands (R23, R497) -/

def State.engOk (s : State) (e : Nat) : Bool := bitAt s.glb.engAvail e
def State.ctlOk (s : State) : CtlId → Bool
  | .vault v => bitAt s.glb.vaultAvail v.val
  | .far f => bitAt s.glb.farAvail f.val
def State.portOk (s : State) (p : Nat) : Bool := bitAt s.glb.portAvail p

def islEngine (e : EngineId) : IslandIdx := ⟨e.val, by omega⟩
def islExchange (r : Fin 16) : IslandIdx := ⟨128 + r.val, by omega⟩
def islVault (v : VaultId) : IslandIdx := ⟨144 + v.val, by omega⟩
def islFar (f : FarId) : IslandIdx := ⟨176 + f.val / 2, by omega⟩
def islCache (c : CacheId) : IslandIdx := ⟨200 + c.val, by omega⟩
def islPort (p : PortId) : IslandIdx := ⟨208 + p.val, by omega⟩
def islSpan (east : Bool) : IslandIdx := if east then 257 else 256
def islBursar : IslandIdx := 258
def islSecurity : IslandIdx := 259
def islCtl : CtlId → IslandIdx
  | .vault v => islVault v
  | .far f => islFar f
/-- Clearing unit u belongs to the exchange island of row 3 of its half (11). -/
def islClr (u : Fin 2) : IslandIdx := if u.val = 0 then 131 else 139

/-- The island identifier of R23. -/
def islandId (i : IslandIdx) : W16 :=
  let n := i.val
  BitVec.ofNat 16 <|
    if n < 128 then 0x1000 + n
    else if n < 144 then 0x2000 + (n - 128)
    else if n < 208 then 0x3000 + (n - 144)
    else if n < 256 then 0x4000 + (n - 208)
    else if n < 258 then 0x5000 + (n - 256)
    else if n = 258 then 0x6000
    else 0x7000

/-- The engines of a half. -/
def inHalf (east : Bool) (e : Nat) : Bool := (64 ≤ e) == east

/-! ### Records (R24, R25, R402 to R406) -/

/-- The step in progress, else the step of the job's last retirement. -/
def State.curStep (s : State) : StepNo :=
  if s.job.stepOn then wrapAdd s.job.step 1 else s.job.step

/-- The step that a record carries (R25): the step in progress, else the last retired on the module. -/
def State.recStep (s : State) : StepNo :=
  if s.job.stepOn then wrapAdd s.job.step 1 else s.glb.lastRetired

/-- An engine's deed of the step in progress, once (R385). -/
def State.deed (s : State) (e : EngineId) (kind object peer : Nat) : State :=
  let d : Deed := { kind := kind, object := object, peer := peer, step := s.curStep }
  s.modEngInt e fun x => if x.deeds.contains d then x else { x with deeds := d :: x.deeds }

def noMb : W16 := 0xFFFF

def State.activeJobId (s : State) : W64 := if s.job.locked then s.job.jobId else 0

/-- The island records an event: the number the record carries, and the counter one higher (R24). -/
def State.event (s : State) (i : IslandIdx) : W64 × State :=
  (s.glb.seqs[i.val], s.modGlb fun g => { g with seqs := g.seqs.set i.val (wrapAdd g.seqs[i.val] 1) })

/-- Bits of GLB_ERR_SUMMARY (R406). -/
def errUe : Nat := 0
def errCheck : Nat := 1
def errHallmark : Nat := 2
def errParity : Nat := 3
def errStrike : Nat := 4
def errQuarantine : Nat := 5
def errReplay : Nat := 6
def errHeld : Nat := 7
def errAudit : Nat := 8
def errAssay : Nat := 9
def errPeerLost : Nat := 10
def errEnvelope : Nat := 11
def errMbox : Nat := 12

/-- A bit of GLB_ERR_SUMMARY set; a change signals MSI-X vector 64 (R356). -/
def State.setErr (s : State) (i : Nat) : State :=
  if bitAt s.int.errSummary i then s
  else (s.modInt fun x => { x with errSummary := setBit x.errSummary i true }).emit (.msix 64)

/-- Frame classes (R405). -/
def clsMemory : Byte := 0x01
def clsTile : Byte := 0x02
def clsRun : Byte := 0x03
def clsHallmark : Byte := 0x04
def clsParity : Byte := 0x05
def clsStrike : Byte := 0x06
def clsReplay : Byte := 0x07
def clsWindow : Byte := 0x08
def clsTouch : Byte := 0x09
def clsEvent : Byte := 0x0A
def clsPeer : Byte := 0x0B
def clsEnvelope : Byte := 0x0C
def clsAssay : Byte := 0x0D
def clsOverflow : Byte := 0x0E
def clsLedger : Byte := 0x0F

def mboxSize : Nat := 4096

/-- An entry into the error mailbox (R402): a full mailbox counts it by class and nothing waits. -/
def State.postAt (s : State) (i : IslandIdx) (cls : Byte) (st : Status) (step : StepNo) (mb : W16) (r : Rec4) :
    State :=
  let (n, s) := s.event i
  if s.int.mbox.length < mboxSize then
    s.modInt fun x => { x with
      mboxSeq := wrapAdd x.mboxSeq 1
      mbox := x.mbox ++ [
        { seqNo := wrapAdd x.mboxSeq 1, boot := s.sec.boot, step := step, mb := mb, island := islandId i, cls := cls,
          status := st.code, iseq := n, jobId := s.activeJobId, record := r }] }
  else
    (s.modInt fun x => { x with
      overflow := satAdd x.overflow 1
      ovfByClass := x.ovfByClass.set (cls.toNat % 16) (satAdd (x.ovfByClass[cls.toNat % 16]'(by omega)) 1) (by omega) }).setErr errMbox

def State.post (s : State) (i : IslandIdx) (cls : Byte) (st : Status) (mb : W16) (r : Rec4) : State :=
  s.postAt i cls st s.recStep mb r

/-- An event with a record in word 0 alone. -/
def rec0 (w : W64) : Rec4 := { w0 := w, w1 := 0, w2 := 0, w3 := 0 }

/-! ### The day book (R456 to R459) -/

/-- KIND, ROLE and SOURCE codes of R456. -/
def dbCommand : Byte := 0x01
def dbRefused : Byte := 0x02
def dbEvent : Byte := 0x03
def dbBoot : Byte := 0x04
def dbAdmission : Byte := 0x05
def roleNone : Byte := 0xFF
def srcModule : Byte := 0x43

def DbEntry.bytes (x : DbEntry) : List Byte :=
  toBytes x.seqNo 8 ++ toBytes x.boot 4 ++ [x.kind, x.role, x.source, x.status, x.code, 0] ++ toBytes x.step 6 ++
  toBytes x.target 8 ++ toBytes x.digest 64 ++ List.replicate 32 0

/-- Entries whose head the security store receives (R458). -/
def DbEntry.stored (x : DbEntry) : Bool :=
  x.kind == dbBoot || (x.kind == dbCommand && [0x23, 0x26, 0x25, 0x24, 0x28, 0x05, 0x0C].contains x.code) ||
  x.seqNo.toNat % 256 == 0

/-- An entry appended: the head is chained, the oldest of 4,096 is overwritten, the store and the mirror follow. -/
def State.dbAppendEntry (s : State) (x : DbEntry) : State :=
  let head := Config.sha3_512 (toBytes s.sec.dbHead 64 ++ x.bytes)
  let s := s.modSec fun c => { c with
    dbSeq := x.seqNo
    dbHead := head
    dbOpen := true
    db := (x :: c.db).take 4096
    store := if x.stored then { c.store with dbHead := head, dbSeq := x.seqNo } else c.store }
  if bitAt s.sec.dbMirrorCfg 63 && !s.glb.shedMirror then
    s.emit (.hostWrite (wrapAdd s.sec.dbMirror ((x.seqNo.toNat % 2 ^ fld s.sec.dbMirrorCfg 3 0) * 128)) x.bytes)
  else s

/-- SEQ of a boot's first entry: the smallest multiple of 256 above the stored SEQ, or 1 when the store holds none (R458). -/
def bootSeq (stored : W64) : W64 := if stored = 0 then 1 else BitVec.ofNat 64 ((stored.toNat / 256 + 1) * 256)

/-- SEQ of the next entry. One that comes before the boot entry, as the recovery loader's does (R496), takes the number of a boot's
first entry, so that no SEQ of the boot before is used again (log entry 192). -/
def SecSt.nextSeq (x : SecSt) : W64 := if x.dbOpen then wrapAdd x.dbSeq 1 else bootSeq x.store.dbSeq

def State.dbAppend (s : State) (kind role source : Byte) (st : Status) (code : Byte) (target : W64)
    (digest : Dig512) : State :=
  s.dbAppendEntry
    { seqNo := s.sec.nextSeq, boot := s.sec.boot, kind := kind, role := role, source := source,
      status := st.code, code := code, step := s.recStep, target := target, digest := digest }

/-- An entry that the module originates (KIND 0x03). -/
def State.dbModule (s : State) (st : Status) (cls : Byte) (target : W64) (digest : Dig512) : State :=
  s.dbAppend dbEvent roleNone srcModule st cls target digest

def srcCode : CmdSrc → Byte
  | .ring r => BitVec.ofNat 8 r.val
  | .mgmt _ => 0x40
  | .smbus => 0x41

/-! ### Completions (R353, R354) -/

def RingSt.enabled (r : RingSt) : Bool := bitAt r.cfg 63
def RingSt.irq (r : RingSt) : Bool := bitAt r.cfg 62
def RingSt.kind (r : RingSt) : Nat := fld r.cfg 9 8
def RingSt.size (r : RingSt) : Nat := 2 ^ fld r.cfg 3 0

/-- Word 0 of a completion entry (R354). -/
def complWord (st : Status) (phase : Bool) (tag : W16) (opc : Byte) : W64 :=
  put st.code.toNat 56 ||| putB phase 55 ||| put tag.toNat 32 ||| put opc.toNat 24

/-- The completion position moved on by one, PHASE inverted at each wrap. -/
def RingSt.advance (r : RingSt) : RingSt :=
  let p := (r.cPos + 1) % r.size
  { r with cPos := p, phase := if p = 0 then !r.phase else r.phase }

/-- A completion posted to ring r, with its interrupt (R354, R356); completions of a ring disabled since are
discarded (R347, R357). -/
def State.ringComplete (s : State) (r : RingId) (gen : Nat) (st : Status) (tag : W16) (opc : Byte) (res : W64) :
    State :=
  let x := s.host.rings[r.val]
  let s := if x.gen = gen then s.modRing r fun y => { y with taken := y.taken - 1 } else s
  if x.enabled && x.gen == gen then
    let s := s.emit (.completion (.ring r) (wrapAdd x.cq (x.cPos * 16)) (complWord st x.phase tag opc) res)
    let s := s.modRing r RingSt.advance
    if x.irq then s.emit (.msix r.val) else s
  else s

/-- A command completes. -/
def State.complete (s : State) (p : PendCmd) (st : Status) (res : W64) : State :=
  let s := if 0x01 ≤ p.opc.toNat && p.opc.toNat ≤ 0x0E
    then s.modJob fun j => { j with lastStatus := st.code } else s
  match p.src with
  | .ring r => s.ringComplete r p.gen st p.tag p.opc res
  | src => s.emit (.completion src 0 (complWord st false p.tag p.opc) res)

/-- A pending command, if there is one, completes. -/
def State.completeOpt (s : State) (p : Option PendCmd) (st : Status) : State :=
  match p with
  | some p => s.complete p st 0
  | none => s

end Sys2Proof.Machine
end

