-- ==== Sys2Proof/Machine/Num.lean ====
section
/-! DEFINITION. Numbers: element encodings, rounding, conversion, exact dyadic arithmetic and its exceptions
(04 R100 to R122). -/

namespace Sys2Proof.Machine

/-- A number as the encodings of R101 give it: a finite one is (−1)^neg × m × 2^e. -/
inductive Num
  | nan
  | inf (neg : Bool)
  | fin (neg : Bool) (m : Nat) (e : Int)
deriving DecidableEq, Repr, Inhabited

/-- Exceptions of one operation (R94, R116, R119). -/
structure Exc where
  inv : Bool
  ovf : Bool
  nan : Bool
deriving DecidableEq, Repr, Inhabited

def Exc.none : Exc := { inv := false, ovf := false, nan := false }
def Exc.or (a b : Exc) : Exc := { inv := a.inv || b.inv, ovf := a.ovf || b.ovf, nan := a.nan || b.nan }

/-- What a conversion is counted as (R127). -/
inductive ConvEv
  | plain | flush | ovf | inv | nanBlk
deriving DecidableEq, Repr, Inhabited

/-! ### Denominations -/

/-- A wide denomination with the OVERFLOW mode of its entry. -/
def wide (expBits manBits bias : Nat) (ieee : Bool) : Denom :=
  { kind := 3, expBits := expBits, manBits := manBits, bias := bias, block := 0, specials := 2, ieee := ieee,
    stoch := false }

def dBf16 (ieee : Bool) : Denom := wide 8 7 127 ieee
def dFp16 (ieee : Bool) : Denom := wide 5 10 15 ieee
def dFp32 (ieee : Bool) : Denom := wide 8 23 127 ieee
def dFp64 (ieee : Bool) : Denom := wide 11 52 1023 ieee
def dI8 : Denom :=
  { kind := 4, expBits := 0, manBits := 7, bias := 0, block := 0, specials := 0, ieee := false, stoch := false }

def Denom.bits (d : Denom) : Nat := 1 + d.expBits + d.manBits
def Denom.isWide (d : Denom) : Bool := d.kind == 3
def Denom.isInt (d : Denom) : Bool := d.kind == 4
def Denom.isBlock (d : Denom) : Bool := d.kind == 1
/-- Per-tensor scaled: KIND 0x2 or I8 (R109). -/
def Denom.perTensor (d : Denom) : Bool := d.kind == 2 || d.kind == 4
/-- Bits of an element as stored (R104). -/
def Denom.storeBits (d : Denom) : Nat :=
  if d.kind = 3 then d.bits
  else if d.kind = 1 then (if d.bits ≤ 4 then 4 else if d.bits ≤ 6 then 6 else 8)
  else 8

/-- The largest finite magnitude as m × 2^e (R101). -/
def Denom.maxFin (d : Denom) : Nat × Int :=
  if d.isInt then (127, 0)
  else
    let top : Int := (2 ^ d.expBits - 1 : Nat)
    let e (f : Int) : Int := f - (d.bias : Int) - (d.manBits : Int)
    if d.specials = 0 then (2 ^ (d.manBits + 1) - 1, e top)
    else if d.specials = 1 then
      (if d.manBits = 0 then (1, e (top - 1)) else (2 ^ (d.manBits + 1) - 2, e top))
    else (2 ^ (d.manBits + 1) - 1, e (top - 1))

/-- The exponent of the smallest normal. -/
def Denom.minExp (d : Denom) : Int := 1 - (d.bias : Int)

def Denom.canonNan (d : Denom) : Nat :=
  if d.specials = 1 then 2 ^ (d.expBits + d.manBits) - 1
  else (2 ^ d.expBits - 1) * 2 ^ d.manBits + 2 ^ (d.manBits - 1)

def Denom.infCode (d : Denom) : Nat := (2 ^ d.expBits - 1) * 2 ^ d.manBits

/-! ### Decoding (R101 to R103) -/

def Denom.decodeAll (d : Denom) (code : Nat) : Num :=
  let e := code >>> d.manBits % 2 ^ d.expBits
  let m := code % 2 ^ d.manBits
  let neg := code >>> (d.expBits + d.manBits) % 2 == 1
  let top := 2 ^ d.expBits - 1
  if d.isInt then
    let v := toInt 8 code
    .fin (decide (v < 0)) v.natAbs 0
  else if d.specials = 1 ∧ e = top ∧ m = 2 ^ d.manBits - 1 then .nan
  else if d.specials = 2 ∧ e = top then (if m = 0 then .inf neg else .nan)
  else if e = 0 then .fin neg m (d.minExp - d.manBits)
  else .fin neg (2 ^ d.manBits + m) (e - (d.bias : Int) - d.manBits)

/-- An element as the module reads it: a narrow subnormal is signed zero (R102). -/
def Denom.decode (d : Denom) (code : Nat) : Num :=
  match d.decodeAll code with
  | .fin neg m e =>
    if d.kind ≠ 3 ∧ d.isInt = false ∧ m < 2 ^ d.manBits then .fin neg 0 e else .fin neg m e
  | x => x

/-- The value of a block scale code, as an exponent; none for 0xFF (R105). -/
def scaleExp (s : Byte) : Option Int := if s = 0xFF then none else some ((s.toNat : Int) - 127)

/-! ### Magnitudes -/

/-- The exponent of a non-zero magnitude. -/
def magExp (m : Nat) (e : Int) : Int := (Nat.log2 m : Int) + e

/-- m × 2^e compared: a ≤ b. -/
def magLe (m : Nat) (e : Int) (m' : Nat) (e' : Int) : Bool :=
  if e ≤ e' then decide (m ≤ m' <<< (e' - e).toNat) else decide (m <<< (e - e').toNat ≤ m')

/-- m × 2^e rounded to a multiple of 2^u: nearest with ties to even, or stochastic with the 16-bit value r (R110, R112). -/
def roundUnit (r : Option W16) (m : Nat) (e u : Int) : Nat :=
  if u ≤ e then m <<< (e - u).toNat
  else
    let sh := (u - e).toNat
    let t := m >>> sh
    let f := m % 2 ^ sh
    match r with
    | none => if f * 2 > 2 ^ sh ∨ (f * 2 = 2 ^ sh ∧ t % 2 = 1) then t + 1 else t
    | some r => if 2 ^ 16 ≤ (f <<< 16) >>> sh + r.toNat then t + 1 else t

/-- The unit to which a magnitude is rounded in a denomination (R110 step 2). -/
def Denom.unit (d : Denom) (m : Nat) (e : Int) : Int :=
  if d.isInt then 0
  else
    let u := magExp m e - d.manBits
    if d.isWide then max u (d.minExp - d.manBits) else u

/-- The code of a finite value that the denomination holds. -/
def Denom.encodeFin (d : Denom) (neg : Bool) (m : Nat) (e : Int) : Nat :=
  if d.isInt then
    (ofInt 8 (if neg then -((m <<< e.toNat : Nat) : Int) else (m <<< e.toNat : Nat))).toNat
  else
    let sign := if neg then 2 ^ (d.expBits + d.manBits) else 0
    if m = 0 then sign
    else
      let k := magExp m e
      if k < d.minExp then
        let u := d.minExp - d.manBits
        sign + (if u ≤ e then m <<< (e - u).toNat else m >>> (u - e).toNat)
      else
        let l := Nat.log2 m
        let f := if d.manBits ≤ l then m >>> (l - d.manBits) else m <<< (d.manBits - l)
        sign + (k + d.bias).toNat * 2 ^ d.manBits + (f - 2 ^ d.manBits)

def Denom.encodeMax (d : Denom) (neg : Bool) : Nat := d.encodeFin neg d.maxFin.1 d.maxFin.2

/-- The code of a value that is exactly a value of the denomination. -/
def Denom.encode (d : Denom) (x : Num) : Nat :=
  match x with
  | .nan => d.canonNan
  | .inf neg => (if neg then 2 ^ (d.expBits + d.manBits) else 0) + d.infCode
  | .fin neg m e => d.encodeFin neg m e

/-! ### Conversion (R110, R114, R115) -/

/-- A conversion into a denomination: the code and what it is counted as. A NaN into a block-scaled entry without NaN
is decided at its block (R107). -/
def Denom.convert (d : Denom) (r : Option W16) (x : Num) : Nat × ConvEv :=
  match x with
  | .nan => if d.specials ≠ 0 then (d.canonNan, .plain) else (0, if d.isBlock then .nanBlk else .inv)
  | .inf neg => if d.ieee ∧ d.specials = 2 then (d.encode (.inf neg), .plain) else (d.encodeMax neg, .ovf)
  | .fin neg m e =>
    if m = 0 then (d.encodeFin neg 0 0, .plain)
    else
      let u := d.unit m e
      let t := roundUnit r m e u
      if magLe t u d.maxFin.1 d.maxFin.2 = false then
        (if d.ieee ∧ d.specials = 2 then d.encode (.inf neg) else d.encodeMax neg, .ovf)
      else if t = 0 then (d.encodeFin neg 0 0, if d.isWide || d.isInt then .plain else .flush)
      else if d.isWide = false ∧ d.isInt = false ∧ magExp t u < d.minExp then (d.encodeFin neg 0 0, .flush)
      else (d.encodeFin neg t u, .plain)

/-! ### Arithmetic results (R116 to R119, R122) -/

structure Out where
  val : Num
  exc : Exc
deriving DecidableEq, Repr, Inhabited

def outNan (inv : Bool) : Out := { val := .nan, exc := { inv := inv, ovf := false, nan := true } }

/-- An overflow: signed infinity under IEEE, signed largest finite value under SAT; OVF_SAT in both (R119). -/
def Denom.overflow (d : Denom) (neg : Bool) : Out :=
  { val := if d.ieee then .inf neg else .fin neg d.maxFin.1 d.maxFin.2, exc := { inv := false, ovf := true, nan := false } }

/-- An exact result rounded once to nearest into a wide denomination; with `flush`, it is rounded at its own
exponent and a result below the smallest normal becomes signed zero (R118). -/
def Denom.result (d : Denom) (flush : Bool) (x : Num) : Out :=
  match x with
  | .nan => outNan false
  | .inf neg => { val := .inf neg, exc := Exc.none }
  | .fin neg m e =>
    if m = 0 then { val := .fin neg 0 0, exc := Exc.none }
    else
      let u := if flush then magExp m e - d.manBits else d.unit m e
      let t := roundUnit none m e u
      if magLe t u d.maxFin.1 d.maxFin.2 = false then d.overflow neg
      else if t = 0 ∨ (flush = true ∧ magExp t u < d.minExp) then { val := .fin neg 0 0, exc := Exc.none }
      else { val := .fin neg t u, exc := Exc.none }

/-- An exact result and whether the operation was invalid. -/
abbrev Exact := Num × Bool

def signed (neg : Bool) (m : Nat) : Int := if neg then -(m : Int) else m

/-- The exact sum (R117: zeros of opposite sign and exact cancellation give +0). -/
def numAdd (a b : Num) : Exact :=
  match a, b with
  | .nan, _ => (.nan, false)
  | _, .nan => (.nan, false)
  | .inf x, .inf y => if x = y then (.inf x, false) else (.nan, true)
  | .inf x, _ => (.inf x, false)
  | _, .inf y => (.inf y, false)
  | .fin x m e, .fin y n f =>
    if m = 0 ∧ n = 0 then (.fin (x && y) 0 0, false)
    else
      let u := min e f
      let v := signed x (m <<< (e - u).toNat) + signed y (n <<< (f - u).toNat)
      (.fin (decide (v < 0)) v.natAbs u, false)

def numNeg (a : Num) : Num :=
  match a with
  | .nan => .nan
  | .inf x => .inf (!x)
  | .fin x m e => .fin (!x) m e

def numAbs (a : Num) : Num :=
  match a with
  | .nan => .nan
  | .inf _ => .inf false
  | .fin _ m e => .fin false m e

def numMul (a b : Num) : Exact :=
  match a, b with
  | .nan, _ => (.nan, false)
  | _, .nan => (.nan, false)
  | .inf x, .inf y => (.inf (x != y), false)
  | .inf x, .fin y n _ => if n = 0 then (.nan, true) else (.inf (x != y), false)
  | .fin x m _, .inf y => if m = 0 then (.nan, true) else (.inf (x != y), false)
  | .fin x m e, .fin y n f => (.fin (x != y) (m * n) (e + f), false)

/-- A value times 2^k. -/
def numScale (a : Num) (k : Int) : Num :=
  match a with
  | .fin x m e => .fin x m (e + k)
  | x => x

/-- An exact result rounded. -/
def Denom.done (d : Denom) (flush : Bool) (x : Exact) : Out :=
  if x.2 then outNan true else d.result flush x.1

/-- A subnormal operand read as signed zero (R118). -/
def Denom.flushOp (d : Denom) (x : Num) : Num :=
  match x with
  | .fin neg m e => if m = 0 ∨ magExp m e < d.minExp then .fin neg 0 0 else x
  | x => x

/-- a < b, a ≤ b on non-NaN values: the sign of a − b. -/
def numLt (a b : Num) : Bool :=
  match a, b with
  | .nan, _ => false
  | _, .nan => false
  | .inf x, .inf y => x && !y
  | .inf x, _ => x
  | _, .inf y => !y
  | .fin x m e, .fin y n f =>
    let u := min e f
    decide (signed x (m <<< (e - u).toNat) < signed y (n <<< (f - u).toNat))

def numEq (a b : Num) : Bool :=
  match a, b with
  | .nan, _ => false
  | _, .nan => false
  | _, _ => !numLt a b && !numLt b a

def numNegative (a : Num) : Bool :=
  match a with
  | .nan => false
  | .inf x => x
  | .fin x _ _ => x

/-- maximum and minimum (R117). -/
def numMax (a b : Num) : Num :=
  match a, b with
  | .nan, _ => .nan
  | _, .nan => .nan
  | _, _ => if numEq a b then (if numNegative a then b else a) else if numLt a b then b else a

def numMin (a b : Num) : Num :=
  match a, b with
  | .nan, _ => .nan
  | _, .nan => .nan
  | _, _ => if numEq a b then (if numNegative a then a else b) else if numLt a b then a else b

def Num.isZero : Num → Bool
  | .fin _ m _ => m == 0
  | _ => false

def Num.isNan : Num → Bool
  | .nan => true
  | _ => false

/-- The greatest s with s × s ≤ n, bit by bit from bit k − 1. -/
def isqrtBits (n : Nat) : Nat → Nat → Nat
  | 0, s => s
  | k + 1, s => if (s + 2 ^ k) * (s + 2 ^ k) ≤ n then isqrtBits n k (s + 2 ^ k) else isqrtBits n k s

def isqrt (n : Nat) : Nat := isqrtBits n (Nat.log2 n / 2 + 1) 0

/-- The quotient of two magnitudes with more bits than any result keeps, and a sticky bit below them. -/
def magDiv (m n : Nat) (e f : Int) : Nat × Int :=
  let k := Nat.log2 n + 130
  let q := (m <<< k) / n
  (2 * q + (if (m <<< k) % n = 0 then 0 else 1), e - f - (k : Int) - 1)

/-- The exact quotient up to its sticky bit. -/
def numDiv (a b : Num) : Exact :=
  match a, b with
  | .nan, _ => (.nan, false)
  | _, .nan => (.nan, false)
  | .inf _, .inf _ => (.nan, true)
  | .inf x, .fin y _ _ => (.inf (x != y), false)
  | .fin x _ _, .inf y => (.fin (x != y) 0 0, false)
  | .fin x m e, .fin y n f =>
    if n = 0 then (if m = 0 then (.nan, true) else (.inf (x != y), false))
    else
      let q := magDiv m n e f
      (.fin (x != y) q.1 q.2, false)

/-- The square root up to its sticky bit. -/
def numSqrt (a : Num) : Exact :=
  match a with
  | .nan => (.nan, false)
  | .inf x => if x then (.nan, true) else (.inf false, false)
  | .fin x m e =>
    if m = 0 then (.fin x 0 0, false)
    else if x then (.nan, true)
    else
      let odd := e % 2 ≠ 0
      let m := if odd then 2 * m else m
      let e := if odd then e - 1 else e
      let n := m <<< 200
      let s := isqrt n
      (.fin false (2 * s + (if s * s = n then 0 else 1)) ((e - 200) / 2 - 1), false)

def numOfInt (i : Int) : Num := .fin (decide (i < 0)) i.natAbs 0
def numOne : Num := .fin false 1 0

/-! ### FP32 and FP64 words -/

def f32 (w : W32) : Num := (dFp32 true).decode w.toNat
def f64 (w : W64) : Num := (dFp64 true).decode w.toNat
def toF32 (x : Num) : W32 := BitVec.ofNat 32 ((dFp32 true).encode x)
def toF64 (x : Num) : W64 := BitVec.ofNat 64 ((dFp64 true).encode x)

/-! ### The random values of R113 -/

def mix (z : W64) : W64 :=
  let z := (z ^^^ (z >>> 30)) * 0xBF58_476D_1CE4_E5B9
  let z := (z ^^^ (z >>> 27)) * 0x94D0_49BB_1331_11EB
  z ^^^ (z >>> 31)

/-- The stream of a conversion: job, step, micro-batch, layer and site. -/
def rndStream (jobId : W64) (step : StepNo) (mb : W16) (layer : W64) (site : Byte) : W64 :=
  let key := mix (jobId ^^^ mix (put step.toNat 16 ||| put mb.toNat 0))
  mix (key ^^^ ((layer <<< 8) ||| put site.toNat 0))

def rndAt (stream : W64) (i : Nat) : W16 :=
  BitVec.ofNat 16 ((mix (wrapAdd stream i)).toNat >>> 48)

/-! ### Blocks (R105 to R108) -/

/-- The scale exponent of a block of finite maxima: the smallest that holds amax (R106). -/
def Denom.blockExp (d : Denom) (amax : Nat × Int) : Int :=
  if amax.1 = 0 then -127
  else
    let ea := magExp amax.1 amax.2
    let ee := magExp d.maxFin.1 d.maxFin.2
    let x := ea - ee
    let x := if magLe amax.1 (amax.2 - x) d.maxFin.1 d.maxFin.2 then x else x + 1
    max (-127) (min 127 x)

/-- The greatest finite magnitude of a block. -/
def blockMax : List Num → Nat × Int
  | [] => (0, 0)
  | .fin _ m e :: r =>
    let b := blockMax r
    if m = 0 then b else if b.1 = 0 then (m, e) else if magLe m e b.1 b.2 then b else (m, e)
  | _ :: r => blockMax r

/-- A block converted: its scale code, the element codes and what was counted (R106, R107). -/
def Denom.convertBlock (d : Denom) (rs : List (Option W16)) (xs : List Num) : Byte × List Nat × List ConvEv :=
  if d.specials = 0 ∧ (xs.any Num.isNan) = true then (0xFF, xs.map fun _ => 0, [.nanBlk])
  else
    let x := d.blockExp (blockMax xs)
    let cs := xs.zipWith (fun v r => d.convert r (numScale v (-x))) rs
    (BitVec.ofNat 8 (x + 127).toNat, cs.map (·.1), cs.map (·.2))

end Sys2Proof.Machine
end

