-- ==== Sys2Proof/Machine/Functions.lean ====
section
/-! DEFINITION. The functions that R164 bounds but does not fix to the bit: their values to far more bits than any result
holds, and the free value that lies within the bound (log entry 10). -/

namespace Sys2Proof.Machine

/-! ### Fixed point with 400 fraction bits -/

def fixBits : Nat := 400
def fixOne : Nat := 2 ^ fixBits

/-- ln 2 and 2/√π. -/
def fixLn2 : Nat :=
  0xb17217f7d1cf79abc9e3b39803f2f6af40f343267298b62d8a0d175b8baafa2be7b876206debac98559552fb4afa1b10ed2e
def fixErf : Nat :=
  0x120dd750429b6d11ae3a914fed7fd8688281341d7587cea2e7342b06199cc416180eb39f0b24e1e2281806c12d98f35d77a3e

/-- A finite number, cut off below the fraction and at a magnitude of 2^12, where every function here has its limit. -/
def toFix (x : Num) : Int :=
  match x with
  | .fin neg m e =>
    signed neg (if 12 ≤ magExp m e then 2 ^ 12 * fixOne
      else if 0 ≤ e + fixBits then m <<< (e + fixBits).toNat else m >>> (-(e + fixBits)).toNat)
  | _ => 0

/-- The exponential series of r below 1: n terms from t, the i-th after the first. -/
def expSeries (r : Nat) : Nat → Nat → Nat → Nat
  | 0, _, _ => 0
  | n + 1, t, i => t + expSeries r n (t * r / fixOne / i) (i + 1)

/-- 2^v of a fixed-point v, as a number. -/
def exp2Fix (v : Int) : Num :=
  let k := v / (fixOne : Int)
  let r := (v - k * fixOne).toNat * fixLn2 / fixOne
  .fin false (expSeries r 100 fixOne 1) (k - fixBits)

/-- e^v of a fixed-point v. -/
def expFix (v : Int) : Num := exp2Fix (v * fixOne / (fixLn2 : Int))

/-- e^v as a fixed-point number. -/
def expInt (v : Int) : Nat := (toFix (expFix v)).toNat

/-- Binary digits of log2 of y, 1 ≤ y < 2. -/
def logDigits : Nat → Nat → Nat → Nat
  | 0, _, a => a
  | n + 1, y, a =>
    let s := y * y / fixOne
    if 2 * fixOne ≤ s then logDigits n (s / 2) (2 * a + 1) else logDigits n s (2 * a)

def log2Num (m : Nat) (e : Int) : Num :=
  let k := magExp m e
  let v := k * 2 ^ 200 + logDigits 200 ((m <<< fixBits) >>> Nat.log2 m) 0
  .fin (decide (v < 0)) v.natAbs (-200)

def tanhNum (x : Num) : Num :=
  let v := (toFix x).natAbs
  if 64 * fixOne ≤ v then .fin (numNegative x) 1 0
  else
    let e := match expFix (2 * v) with
      | .fin _ m k => if 0 ≤ k + fixBits then m <<< (k + fixBits).toNat else m >>> (-(k + fixBits)).toNat
      | _ => 0
    .fin (numNegative x) ((e - fixOne) * fixOne / (e + fixOne)) (-fixBits)

/-- The series of erf: n terms from t, each 2x²/(2i + 3) times the one before. -/
def erfSeries (x2 : Nat) : Nat → Nat → Nat → Nat
  | 0, _, _ => 0
  | n + 1, t, i => t + erfSeries x2 n (2 * t * x2 / fixOne / (2 * i + 3)) (i + 1)

def erfNum (x : Num) : Num :=
  let v := (toFix x).natAbs
  if 7 * fixOne ≤ v then .fin (numNegative x) 1 0
  else
    let x2 := v * v / fixOne
    .fin (numNegative x) (fixErf * expInt (-(x2 : Int)) / fixOne * erfSeries x2 500 v 0 / fixOne) (-fixBits)

def rsqrtNum (x : Num) : Num := (numDiv numOne (numSqrt x).1).1

/-! ### A value within its bound (R164) -/

/-- v lies within k units in the last place of y, y taken to 40 bits below the last place. -/
def nearUlp (d : Denom) (k : Nat) (v y : Num) : Bool :=
  match v, y with
  | .fin _ _ _, .fin _ m e =>
    let u := (if m = 0 then d.minExp else max (magExp m e) d.minExp) - d.manBits
    !(numLt (.fin false (k * 2 ^ 40 + 1) (u - 40)) (numAbs (numAdd v (numNeg y)).1))
  | _, _ => false

/-- The free value where it lies within k ulp of y; else y rounded. -/
def openVal (d : Denom) (k : Nat) (free : Nat) (y : Num) : Out :=
  let v := d.decode (free % 2 ^ d.bits)
  if nearUlp d k v y then { val := v, exc := Exc.none } else d.result false y

end Sys2Proof.Machine
end

