-- ==== Sys2Proof/Machine/Power.lean ====
section
/-! DEFINITION. The treasurer: input levels, budget loop, fast cap, thermal steps, curve tables and their envelopes,
reference clocks (16 R470 to R486). -/

namespace Sys2Proof.Machine

/-! ### Numbers -/

/-- floor (x × k) of a non-negative finite FP32 x; 0 for any other. -/
def fp32Floor (w : W32) (k : Nat) : Nat :=
  let e := fld w 30 23
  let m := if e = 0 then fld w 22 0 else fld w 22 0 + 2 ^ 23
  let e := if e = 0 then 1 else e
  if bitAt w 31 || e = 255 then 0
  else if 150 ≤ e then m * k * 2 ^ (e - 150) else m * k / 2 ^ (150 - e)

/-! ### Curves (R50, R481) -/

/-- Kinds of island in the order of R481: engine, exchange, memory controller, port, span; 5 for the two without a curve. -/
def islKind (i : IslandIdx) : Nat :=
  if i.val < 128 then 0 else if i.val < 144 then 1 else if i.val < 208 then 2 else if i.val < 256 then 3
  else if i.val < 258 then 4 else 5

/-- The nominal clock of R20, R259, R305 and R485 in MHz. -/
def nominalMHz (i : IslandIdx) : Nat :=
  if i.val < 128 then 2500 else if i.val < 144 then 2000 else if i.val < 200 then 1600 else if i.val < 208 then 2000
  else if i.val < 256 then 1750 else if i.val < 258 then 2000 else if i.val = 258 then 1500 else 1000

/-- The greatest index below the top that a curve of the island's kind has (R475, R480). -/
def lastPoint (i : IslandIdx) : Nat :=
  match islKind i with
  | 0 => Config.engineCurvePoints - 1
  | 5 => 0
  | k => ((Config.builtinCurve k).filter fun p => p.1 ≤ nominalMHz i).length - 1

/-- The clock k points below the top: engine points lie 100 MHz apart (R481), others on the built-in curve. -/
def pointMHz (i : IslandIdx) (k : Nat) : Nat :=
  let k := min k (lastPoint i)
  match islKind i with
  | 0 => 2500 - 100 * k
  | 5 => nominalMHz i
  | j =>
    match ((Config.builtinCurve j).filter fun p => p.1 ≤ nominalMHz i).reverse[k]? with
    | some p => p.1
    | none => nominalMHz i

/-- The installer's table of a kind and target, when it is in force. -/
def PwrSt.heldCurve (p : PwrSt) (kind target : Byte) : Option HeldCurve :=
  p.curves.find? fun c => c.kind == kind && c.target == target && !c.waiting

/-- The value of a curve of INTERP 0 at x, as its FP32 word (R50). -/
def curveStep : List CurvePt → Nat → W32
  | [], _ => 0
  | [p], _ => p.y
  | p :: q :: r, x => if x < q.x then p.y else curveStep (q :: r) x

/-- Voltage in mV of an island kind at a clock: the installer's table inside its envelope, else the built-in curve. -/
def PwrSt.curveVolt (p : PwrSt) (kind mhz : Nat) : Nat :=
  let built := lookupD (Config.builtinCurve kind) mhz (Config.vmin kind)
  match p.heldCurve 0x08 (BitVec.ofNat 8 kind) with
  | some c => if c.inside then fp32Floor (curveStep c.curve.pts mhz) 1000 else built
  | none => built

/-- The curve point an island runs at: L and clock probation for engines (R475), heat for any (R478). -/
def PwrSt.islPoint (p : PwrSt) (i : IslandIdx) : Nat :=
  let x := p.isl[i.val]
  min ((if islKind i = 0 then p.level + x.probF else 0) + x.heat) (lastPoint i)

/-- An island's clock, voltage and BUILTIN as its point, its probation and the tables give them (R475, R477, R480). -/
def PwrSt.setIsl (p : PwrSt) (i : IslandIdx) (x : IslSt) : IslSt :=
  let mhz := pointMHz i (p.islPoint i)
  let k := islKind i
  { x with
    freq := BitVec.ofNat 16 mhz
    volt := if k = 5 then x.volt else BitVec.ofNat 16 (p.curveVolt k mhz + 10 * x.probV)
    builtin := match p.heldCurve 0x08 (BitVec.ofNat 8 k) with
      | some c => !c.inside && decide (k < 5)
      | none => false }

def PwrSt.setPoints (p : PwrSt) : PwrSt :=
  { p with isl := Vector.ofFn fun i => p.setIsl i p.isl[i.val] }

/-- Every island at the lowest point of its curve (R485). -/
def PwrSt.lowest (p : PwrSt) : PwrSt :=
  { p with isl := Vector.ofFn fun i =>
      let mhz := pointMHz i (lastPoint i)
      { p.isl[i.val] with
        freq := BitVec.ofNat 16 mhz
        volt := if islKind i = 5 then 0 else BitVec.ofNat 16 (p.curveVolt (islKind i) mhz) } }

/-! ### ALERT_N (R472, R494, R504) -/

/-- ALERT_N follows its causes. -/
def State.alert (s : State) : State :=
  let p := s.pwr
  let b := p.inputLow || p.inputHigh || p.throttle || p.thermalCap || p.refLost100 || p.refLost156 ||
    s.glb.hold == .fuseSplit || s.glb.hold == .refClock
  s.modGlb fun g => { g with alertN := b && g.hold != .off }

def thermalCapOf (p : PwrSt) : PwrSt :=
  { p with thermalCap := p.isl.toList.any fun x => decide (0 < x.heat) }

/-! ### Budget and fast cap (R473 to R476) -/

/-- The budget in effect: 1,000 to 3,800 W, and at most 2,800 W while INPUT_LOW is set (R473). -/
def PwrSt.budgetW (p : PwrSt) : Nat :=
  let w := max 1000 (min 3800 (fld p.budget 15 0))
  if p.inputLow then min w 2800 else w

def PwrSt.hyst (p : PwrSt) : Nat := fld p.budget 31 16

/-- The level and the over-budget count at the end of a tick of mean power w (R475). -/
def PwrSt.budgetLoop (p : PwrSt) (w : Nat) : PwrSt :=
  let last := Config.engineCurvePoints - 1
  if p.budgetW < w then
    { p with overTicks := p.overTicks + 1, level := if p.level < last then p.level + 1 else p.level }
  else
    { p with overTicks := 0, level := if w + p.hyst < p.budgetW && decide (0 < p.level) then p.level - 1 else p.level }

/-- The throttle ends with the first whole tick whose mean power does not exceed the budget (R474). -/
def PwrSt.throttleEnd (p : PwrSt) (w : Nat) : PwrSt :=
  if p.throttle then
    if p.throttleWhole && decide (w ≤ p.budgetW) then { p with throttle := false, throttleWhole := false }
    else { p with throttleWhole := true }
  else p

/-- The sections of the active plane. -/
def State.planeCfg (s : State) : Option PlaneCfg :=
  match s.job.charter with
  | some c => c.plane[s.job.plane.val]?
  | none => none

def EngArr.modA (x : EngArr) (i : ArrId) (f : ArraySt → ArraySt) : EngArr :=
  match i with
  | .a => { x with a := f x.a }
  | .b => { x with b := f x.b }

def EngArr.arr (x : EngArr) : ArrId → ArraySt
  | .a => x.a
  | .b => x.b

/-- The ramp in use: 0 the charter's table, 1 the built-in default, 2 the conservative ramp (R51, R87, R99). -/
def State.rampNow (s : State) : Nat :=
  let table := match s.planeCfg with
    | some p => p.curves.any fun c => c.kind == 3
    | none => false
  if table then (if s.pwr.rampInside then 0 else 2) else 1

/-- A ramp starts on an array, on the ramp in use (R86 to R88). -/
def EngArr.ramp (x : EngArr) (arr : ArrId) (src : Nat) : EngArr :=
  ({ x with rampSrc := src } : EngArr).modA arr fun y => { y with idle := false, ramping := true, ramps := wrapAdd y.ramps 1 }

/-- The throttle released: an array that runs a tile starts a ramp, any other starts one at its next row (R474; log entry
148). -/
def EngArr.rampAgain (x : EngArr) (arr : ArrId) (src : Nat) : EngArr :=
  if (x.arr arr).tile.isSome then x.ramp arr src else x.modA arr fun y => { y with idle := true }

/-- Every array returns to full admission through its ramp, as if from idleness, once the throttle is released (R87, R88,
R474). -/
def State.rampsAgain (s : State) (was : Bool) : State :=
  let src := s.rampNow
  if was && !s.pwr.throttle then s.modAllEng fun e => { e with arr := (e.arr.rampAgain .a src).rampAgain .b src } else s

/-! ### Heat (R478) -/

/-- One tick of an island's thermal steps: the island and whether a step was made. -/
def IslSt.heatStep (x : IslSt) (t cap : Int) (last : Nat) : IslSt × Bool :=
  if cap ≤ t || (x.cooling && decide (cap - 5 ≤ t)) then
    if x.heat < last then ({ x with heat := x.heat + 1, cooling := true }, true) else ({ x with cooling := true }, false)
  else if t < cap - 5 then
    if 0 < x.heat then ({ x with heat := x.heat - 1, cooling := false }, true) else ({ x with cooling := false }, false)
  else (x, false)

def tempOf (r : Readings) (i : IslandIdx) : Option Int :=
  (r.temps.find? fun p => p.1 == i).map (·.2)

def PwrSt.tjCap (p : PwrSt) : Int := (fld p.thermal 7 0 : Nat)

/-- Thermal steps of every island at a tick; an island not listed reads below every limit. -/
def PwrSt.heatTick (p : PwrSt) (r : Readings) : PwrSt :=
  let f (i : IslandIdx) := (p.isl[i.val]).heatStep ((tempOf r i).getD (-128)) p.tjCap (lastPoint i)
  let n := ((List.finRange 260).filter fun i => (f i).2).length
  thermalCapOf { p with isl := Vector.ofFn fun i => (f i).1, thermalSteps := satAdd p.thermalSteps n }

/-- The hottest listed sensor and its island (PWR_TEMP). -/
def hottest (r : Readings) : Option (IslandIdx × Int) :=
  r.temps.foldl (fun m x => match m with
    | none => some x
    | some y => if y.2 < x.2 then some x else some y) none

/-- The hottest listed sensor of the islands that satisfy p. -/
def hottestOf (r : Readings) (p : IslandIdx → Bool) : Option Int :=
  (hottest { r with temps := r.temps.filter fun x => p x.1 }).map (·.2)

/-! ### Envelopes (R48, R51, R483) -/

/-- Load in W, temperature and droop class lie inside a table's envelope. -/
def Curve.holds (c : Curve) (load : Nat) (t : Option Int) (droop : BitVec 2) : Bool :=
  decide (c.loadMin * 3800 ≤ load * 100) && decide (load * 100 ≤ c.loadMax * 3800) &&
  (match t with
    | some t => decide (c.tempMin ≤ t) && decide (t ≤ c.tempMax)
    | none => true) &&
  bitAt c.droop droop.toNat

/-- A fallback: ENVELOPE raised in a frame and counted (R483). -/
def State.envelopeEvent (s : State) (kind id : Nat) : State :=
  let s := s.modPwr fun p => { p with envelope := satAdd p.envelope 1 }
  (s.post islSecurity clsEnvelope .envelope noMb (rec0 (put kind 56 ||| put id 48))).setErr errEnvelope

/-- One held table of kind 0x08 at a tick: it leaves its table at once and returns after 10 ticks inside. -/
def HeldCurve.tick (c : HeldCurve) (load : Nat) (t : Option Int) (droop : BitVec 2) : HeldCurve × Bool :=
  if c.kind != 0x08 || c.waiting then (c, false)
  else if c.curve.holds load t droop then
    if c.inside then (c, false)
    else if c.ticks + 1 < 10 then ({ c with ticks := c.ticks + 1 }, false)
    else ({ c with inside := true, ticks := 0 }, false)
  else ({ c with inside := false, ticks := 0 }, c.inside)

def State.envelopeTick (s : State) (r : Readings) : State :=
  let f (c : HeldCurve) := c.tick r.power (hottestOf r fun i => islKind i = c.target.toNat) s.glb.droop
  let out := s.pwr.curves.filter fun c => (f c).2
  let s := s.modPwr fun p => { p with curves := p.curves.map fun c => (f c).1 }
  out.foldl (fun s c => s.envelopeEvent c.kind.toNat c.curve.id) s

/-! ### The meanings -/

/-- The input has fallen to 38 to 40 V. -/
def execInputLow (s : State) : Res :=
  .next (State.alert (s.modPwr fun p => { p with inputLow := true, inputHigh := false }))

def execInputHigh (s : State) : Res :=
  .next (s.modPwr fun p => { p with inputHigh := true, inputLow := false }).alert

def execInputNormal (s : State) : Res :=
  .next (s.modPwr fun p => { p with inputHigh := false, inputLow := false }).alert

/-- The throttle comes into force: every array is admitted at THROTTLE / 8 of its ramp (R474). -/
def State.throttleOn (s : State) : State :=
  (s.modPwr fun p => { p with throttle := true, throttleWhole := false }).alert

def execFastCapTrip (s : State) : Res :=
  .next (s.modPwr fun p => { p with capTrips := satAdd p.capTrips 1 }).throttleOn

/-- The throttle of the hundredth tick over budget. -/
def execExcursion (s : State) : Res :=
  .next <| if 100 ≤ s.pwr.overTicks then
      (s.modPwr fun p => { p with excursions := satAdd p.excursions 1 }).throttleOn
    else s

/-- PWR_TEMP of a reading. -/
def PwrSt.sense (p : PwrSt) (r : Readings) : PwrSt :=
  let p := { p with volts := r.volts, power := BitVec.ofNat 16 (min r.power 0xFFFF), load := r.power }
  match hottest r with
  | some (i, t) => { p with tempIsland := islandId i, temp := ofInt 16 (t * 16) }
  | none => p

/-- The budget tick: input and temperatures read, level, throttle, thermal steps, envelopes, points. -/
def execBudgetTick (r : Readings) (s : State) : Res :=
  let s := (s.modPwr fun p => ((p.sense r).throttleEnd r.power).budgetLoop r.power).rampsAgain s.pwr.throttle
  let s := s.modPwr fun p => p.heatTick r
  let s := s.envelopeTick r
  .next (s.modPwr PwrSt.setPoints).alert

/-- Envelope of the active current-ramp table at a step boundary (R51): its curve, and the source that ENG_ARRAY_STATUS
shows. -/
def State.rampCheck (s : State) (c : Option Curve) (r : Readings) : State :=
  let s := s.modPwr fun p => p.sense r
  match c with
  | none => s.modPwr fun p => { p with rampInside := true }
  | some c =>
    if c.holds r.power (hottestOf r fun i => islKind i = 0) s.glb.droop then
      s.modPwr fun p => { p with rampInside := true }
    else (s.modPwr fun p => { p with rampInside := false }).envelopeEvent c.kind c.id

/-- Of tables of one kind and target the newest, which stands first. -/
def newestCurves : List HeldCurve → List HeldCurve
  | [] => []
  | c :: r => c :: (newestCurves r).filter fun x => !(x.kind == c.kind && x.target == c.target)

/-- Tables that waited for the boundary come into force (R482). -/
def State.curvesDue (s : State) : State :=
  s.modPwr fun p =>
    PwrSt.setPoints { p with curves := newestCurves (p.curves.map fun (c : HeldCurve) => { c with waiting := false }) }

end Sys2Proof.Machine
end

