-- ==== Sys2Proof/Machine/Curves.lean ====
section
/-! DEFINITION. Curve tables: their values, their layout and the checks of their form (02 R48 to R50; 09 R276; 16 R481, R482). -/

namespace Sys2Proof.Machine

/-! ### Values (R50) -/

def fp64r (x : Exact) : Num := ((dFp64 true).done false x).val

/-- A curve of INTERP 1 between two points. -/
def curveLine (a b : CurvePt) (x : Nat) : Num :=
  let dy := fp64r (numAdd (f32 b.y) (numNeg (f32 a.y)))
  let t := fp64r (numDiv (numOfInt ((x : Int) - a.x)) (numOfInt ((b.x : Int) - a.x)))
  fp64r (numAdd (f32 a.y) (fp64r (numMul dy t)))

/-- INTERP 1: below the first point the first Y, beyond the last the last Y, between two points the line of R50, both ends
of a segment included. Where two segments meet the upper one's formula is taken (log entry 146). -/
def curveInterp : List CurvePt → Nat → Num
  | [], _ => .fin false 0 0
  | [p], _ => f32 p.y
  | p :: q :: r, x =>
    if x < p.x then f32 p.y
    else if x < q.x ∨ (r.isEmpty = true ∧ x = q.x) then curveLine p q x
    else curveInterp (q :: r) x

/-- Y at X, in FP64. -/
def Curve.y (c : Curve) (x : Nat) : Num := if c.interp = 1 then curveInterp c.pts x else f32 (curveStep c.pts x)

/-- The integer part of a non-negative Y. -/
def Curve.yFloor (c : Curve) (x : Nat) : Nat :=
  match c.y x with
  | .fin false m e => if 0 ≤ e then m * 2 ^ e.toNat else m / 2 ^ (-e).toNat
  | _ => 0

/-! ### Layout (R48) -/

def signed8 (b : Nat) : Int := toInt 8 b

/-- A table at an offset of a section or window. -/
def parseCurve (bs : List Byte) (o : Nat) : Curve where
  kind := rdNat bs o 1
  interp := rdNat bs (o + 1) 1
  id := rdNat bs (o + 4) 2
  loadMin := rdNat bs (o + 6) 1
  loadMax := rdNat bs (o + 7) 1
  tempMin := signed8 (rdNat bs (o + 8) 1)
  tempMax := signed8 (rdNat bs (o + 9) 1)
  droop := rdW 8 bs (o + 10)
  pts := (List.range (rdNat bs (o + 2) 2)).map fun i =>
    { x := rdNat bs (o + 16 + 16 * i) 6, y := rdW 32 bs (o + 16 + 16 * i + 8) }

/-- Bytes of a table with its points. -/
def curveBytes (bs : List Byte) (o : Nat) : Nat := 16 + 16 * rdNat bs (o + 2) 2

/-- Reserved fields of a table's header and of a point are zero. -/
def curveHdrZero (bs : List Byte) (o : Nat) : Bool :=
  rdNat bs (o + 10) 1 < 16 && allZero (slice bs (o + 11) 5)

def curvePtZero (bs : List Byte) (o i : Nat) : Bool :=
  rdNat bs (o + 16 + 16 * i + 6) 2 == 0 && rdNat bs (o + 16 + 16 * i + 12) 4 == 0

/-! ### Form (R48, R49) -/

/-- The envelope bytes: in range for a kind that has one, zero for kinds 0x01 and 0x02. -/
def Curve.envelopeOk (c : Curve) : Bool :=
  if c.kind = 1 ∨ c.kind = 2 then
    c.loadMin == 0 && c.loadMax == 0 && c.tempMin == 0 && c.tempMax == 0 && c.droop == 0
  else
    decide (c.loadMin ≤ 116) && decide (c.loadMin ≤ c.loadMax) && decide (c.loadMax ≤ 116) && decide (c.tempMin ≤ c.tempMax) &&
    c.droop != 0 && decide (c.droop.toNat < 16)

/-- The header of a table: INTERP, POINTS, CURVE_ID and envelope. -/
def Curve.headOk (c : Curve) : Bool :=
  decide (c.interp ≤ 1) && decide (2 ≤ c.pts.length) && decide (c.pts.length ≤ 256) && decide (c.id ≤ 31) && c.envelopeOk

def yLe (a b : W32) : Bool := numLt (f32 a) (f32 b) || numEq (f32 a) (f32 b)

/-- X of point i increases strictly. -/
def Curve.xOk (c : Curve) (i : Nat) : Bool :=
  match i, c.pts[i]? with
  | 0, some _ => true
  | k + 1, some p => match c.pts[k]? with
    | some q => decide (q.x < p.x)
    | none => false
  | _, none => false

/-- Y of point i does not lie below that of the point before it. -/
def Curve.yUp (c : Curve) (i : Nat) : Bool :=
  match i, c.pts[i]? with
  | 0, some _ => true
  | k + 1, some p => match c.pts[k]? with
    | some q => yLe q.y p.y
    | none => false
  | _, none => false

/-- A point of a current-ramp table. A first point with X = 0, whose step 0 lasts no lc, is accepted (DESIGN CHOICE, log
entry 158). -/
def Curve.rampPtOk (c : Curve) (i : Nat) : Bool :=
  match c.pts[i]? with
  | some p => numLt (.fin false 0 0) (f32 p.y) && c.yUp i &&
      (i != 7 || (p.y == 0x3F80_0000 && decide (16 ≤ p.x) && decide (p.x ≤ 96)))
  | none => false

def Curve.rampHeadOk (c : Curve) : Bool := c.interp == 0 && c.pts.length == 8

/-! ### Installer tables (R481, R482) -/

/-- FP32 Y as a fraction of 1,000 does not exceed n, or is not below n. -/
def milliLe (y : W32) (n : Nat) : Bool := !numLt (numOfInt n) (numMul (f32 y) (numOfInt 1000)).1 && numNegative (f32 y) == false
def milliGe (y : W32) (n : Nat) : Bool := !numLt (numMul (f32 y) (numOfInt 1000)).1 (numOfInt n) && !(f32 y).isNan

def isInteger (x : Num) : Bool :=
  match x with
  | .fin _ m e => decide (0 ≤ e) || m % 2 ^ (-e).toNat == 0
  | _ => false

/-- A voltage-frequency point: a clock of the built-in curve, a voltage between the fused limits, none falling. -/
def Curve.vfPtOk (c : Curve) (target i : Nat) : Bool :=
  match c.pts[i]? with
  | some p => (Config.builtinCurve target).any (fun b => b.1 == p.x) && c.yUp i && milliLe p.y (Config.vmax target) &&
      milliGe p.y (Config.vmin target)
  | none => false

/-- A link-equalisation point: a preset code. -/
def Curve.eqPtOk (c : Curve) (i : Nat) : Bool :=
  match c.pts[i]? with
  | some p => isInteger (f32 p.y) && !numLt (f32 p.y) (.fin false 0 0) && !numLt (numOfInt 31) (f32 p.y)
  | none => false

/-- A table in the staging window that passes R48, R49 and R481 for a kind and target. -/
def installerOk (bs : List Byte) (kind target : Nat) : Bool :=
  let c := parseCurve bs 0
  let n := c.pts.length
  let pts (f : Nat → Bool) : Bool := (List.range n).all f
  c.kind == kind && c.headOk && decide (curveBytes bs 0 ≤ bs.length) && curveHdrZero bs 0 && pts (curvePtZero bs 0) && pts c.xOk &&
  (if kind = 0x08 then decide (target < 5) && c.interp == 0 && decide (n ≤ 16) && pts (c.vfPtOk target)
   else if kind = 0x09 then
     (decide (target < 48) || target == 0xFF) && c.interp == 0 && decide (n ≤ 64) && pts c.eqPtOk
   else if kind = 0x0A then decide (target < 80) || target == 0xFF
   else false)

end Sys2Proof.Machine
end

