-- ==== Sys2Proof/Machine/Faults.lean ====
section
/-! DEFINITION. Marks, strikes, probation, quarantine and the raising of events (13 R373 to R394). -/

namespace Sys2Proof.Machine

/-- The FAULTS section in force. -/
def State.faults (s : State) : Option Faults := s.job.charter.map (·.faults)

def State.replayLimit (s : State) : Nat :=
  match s.faults with
  | some f => f.replayLimit
  | none => 1

/-- The step is an audit step. -/
def State.auditStep (s : State) (step : StepNo) : Bool :=
  match s.faults with
  | some f => f.auditN != 0 && step.toNat % f.auditN == 0
  | none => false

/-- An event raised; it reaches the stage sequencer with FAULT_EVENT. -/
def State.raise (s : State) (ev : FaultEv) : State :=
  s.modInt fun x => { x with raised := x.raised ++ [ev] }

/-- An event of no peer, raised by an island; by an engine. -/
def islEvent (cls : EvClass) (i : IslandIdx) (st : Status) (r : Rec4) (mb : W16) : FaultEv :=
  { cls := cls, island := i, status := st, record := r, mb := mb, peer := 0 }

def mkEvent (cls : EvClass) (e : EngineId) (st : Status) (r : Rec4) (mb : W16) : FaultEv := islEvent cls (islEngine e) st r mb

/-! ### Marks (R387, R388 steps 1 to 3) -/

/-- A channel asked to stop at its slip boundary (R298), its buffer emptied (R299). -/
def ChanSt.markStop (c : ChanSt) : ChanSt :=
  match c.state with
  | .running =>
    match c.slip with
    | some _ => { c with state := .stopping, buf := [] }
    | none => { c with state := .stopped, stops := satAdd c.stops 1, buf := [] }
  | _ => { c with buf := [] }

/-- The tile in progress is abandoned with what its shadow set holds. -/
def ArraySt.abandon (a : ArraySt) : ArraySt := { a with tile := none, met := [], shadowValid := false }

/-- The engine stops issuing rows, abandons its tiles and stops channels 0 to 5. -/
def Engine.stop (e : Engine) : Engine :=
  { e with
    seq := { e.seq with running := false, pass := none, wait := 0 }
    arr := { e.arr with
      queue := [], waiting := [], bwdActive := false
      a := e.arr.a.abandon
      b := e.arr.b.abandon }
    vec := { e.vec with
      run := { e.vec.run with active := false, tile := none }
      red := [], rowActive := false, rowSpilling := false }
    led := { e.led with loads := [] }
    dma := e.dma.mapFinIdx fun i c _ => if i < 6 then c.markStop else c }

/-- A replay record (R405). -/
def replayRec (st event : Byte) (attempt : Nat) (island : W16) (step : StepNo) : Rec4 :=
  { w0 := put st.toNat 56 ||| put (event.toNat % 16) 52 ||| put (attempt % 16) 48 ||| put island.toNat 32
    w1 := put step.toNat 16, w2 := 0, w3 := 0 }

/-- A command of its own comes after step 2 of R388: a mark that it raises restarts the replay (R391, R392). -/
def State.settle (s : State) : State :=
  s.modInt fun x => { x with replay := x.replay.map fun (r : ReplaySt) => { r with fresh := false } }

/-- The step in flight is marked for replay: the mark is broadcast, the engines stop (R388). A mark of the same
command is the same replay (R392), a later one restarts it (R391); a mark of a step already marked REPLAY_LIMIT times is the
last. HOLD comes before a mark (R392). -/
def State.mark (s : State) (isl : IslandIdx) (st : Status) : State :=
  if s.job.state = .running ∧ s.job.stepOn = true then
    let step := s.curStep
    let go (marks : Nat) : State :=
      let s := s.modInt fun x => { x with
        replay := some { step := step, cause := st.code, island := islandId isl, marks := marks, stopped := true, fresh := true }
        replayStep := step
        replayAttempt := BitVec.ofNat 4 (min marks 15) }
      let ev : Byte := if s.replayLimit < marks then 3 else 0
      let s := s.post isl clsReplay st noMb (replayRec st.code ev marks (islandId isl) step)
      (s.emit (.mark step st.code (islandId isl))).modAllEng Engine.stop
    if s.int.holding then s
    else match s.int.replay with
    | none => go 1
    | some r => if r.stopped && r.fresh then s else go (r.marks + 1)
  else s

/-! ### Leaving service (R28, R378) -/

/-- An engine leaves service. -/
def State.engLost (s : State) (e : EngineId) (st : Status) : State :=
  let s := s.modGlb fun g => { g with engAvail := setBit g.engAvail e.val false }
  if s.job.state = .running then s.raise (mkEvent .unitLost e st Rec4.zero noMb) else s

/-- A vault or far channel leaves service (R268). -/
def State.ctlLost (s : State) (c : CtlId) (st : Status) : State :=
  let s := s.modGlb fun g => match c with
    | .vault v => { g with vaultAvail := setBit g.vaultAvail v.val false }
    | .far f => { g with farAvail := setBit g.farAvail f.val false }
  let s := s.modCtl c fun x => { x with inService := false }
  if s.job.state = .running then s.raise (islEvent .unitLost (islCtl c) st Rec4.zero noMb) else s

def State.portLost (s : State) (p : PortId) : State :=
  let s := s.modGlb fun g => { g with portAvail := setBit g.portAvail p.val false }
  if s.job.state = .running then s.raise (islEvent .unitLost (islPort p) .stateConflict Rec4.zero noMb) else s

/-! ### Strikes (R375 to R379, R405) -/

def unitIdx : Unit5 → Fin 5
  | .arrayA => 0 | .arrayB => 1 | .vector => 2 | .reduction => 3 | .row => 4

def Engine.unit (e : Engine) (u : Unit5) : UnitSt := e.int.units[(unitIdx u).val]

def State.modUnit (s : State) (e : EngineId) (u : Unit5) (f : UnitSt → UnitSt) : State :=
  s.modEngInt e fun x => { x with units := x.units.set (unitIdx u).val (f x.units[(unitIdx u).val]) }

/-- A strike record: EVENT 0 strike, 1 probation applied, 2 probation undone, 3 quarantine. -/
def strikeRec (e : EngineId) (u : Unit5) (event strikes : Nat) (step : StepNo) (layer : Nat) : Rec4 :=
  { w0 := put Status.checkFail.code.toNat 56 ||| put (unitIdx u).val 52 ||| put event 48 ||| put (min strikes 3) 46 |||
      put e.val 39
    w1 := put step.toNat 16 ||| put (layer % 2 ^ 16) 0, w2 := 0, w3 := 0 }

/-- A strike, probation step or quarantine goes to the day book and out as a STRIKE frame (R379). -/
def State.strikeOut (s : State) (e : EngineId) (u : Unit5) (event layer : Nat) : State :=
  let r := strikeRec e u event (s.eng[e.val].unit u).strikes s.recStep layer
  (s.post (islEngine e) clsStrike .checkFail noMb r).dbModule .checkFail clsStrike
    (put (e.val * 8 + (unitIdx u).val) 0) 0

/-- QUAR of an array; a vector, reduction or row engine takes its engine out of service (R378). -/
def State.quarantine (s : State) (e : EngineId) (u : Unit5) (layer : Nat) : State :=
  if (s.eng[e.val].unit u).quarantined then s
  else
    let s := s.modUnit e u fun x => { x with quarantined := true }
    let s := (s.strikeOut e u 3 layer).setErr errQuarantine
    match u with
    | .arrayA =>
      let s := s.modArr e fun x => { x with a := { x.a with quar := true } }
      if s.eng[e.val].arr.b.quar then s.engLost e .checkFail else s
    | .arrayB =>
      let s := s.modArr e fun x => { x with b := { x.b with quar := true } }
      if s.eng[e.val].arr.a.quar then s.engLost e .checkFail else s
    | _ => s.engLost e .checkFail

/-- The probation step that a strike applies cannot be applied: two are in force on the island (R376), the clock is at
its lowest point or the voltage at its limit (R480). -/
def State.noProbation (s : State) (e : EngineId) (clock : Bool) : Bool :=
  let i := islEngine e
  let x := s.pwr.isl[i.val]
  decide (2 ≤ x.probV + x.probF) ||
  (if clock then decide (lastPoint i < s.pwr.level + x.probF + 1)
    else decide (Config.vmax 0 < s.pwr.curveVolt 0 (pointMHz i (s.pwr.islPoint i)) + 10 * (x.probV + 1)))

/-- A probation step applied to or taken from an engine island (R376, R377, R480). -/
def State.probation (s : State) (e : EngineId) (clock up : Bool) : State :=
  let f (n : Nat) : Nat := if up then n + 1 else n - 1
  let s := s.modIsl (islEngine e) fun x => if clock then { x with probF := f x.probF } else { x with probV := f x.probV }
  s.modIsl (islEngine e) (s.pwr.setIsl (islEngine e))

/-- A strike on a unit: a step of probation, or quarantine at the third or where no step can be applied. -/
def State.strike (s : State) (e : EngineId) (u : Unit5) (layer : Nat) : State :=
  let clock := match s.faults with
    | some f => f.probClock
    | none => false
  let s := s.modUnit e u fun x => { x with strikes := min (x.strikes + 1) 3, since := s.curStep }
  let s := (s.strikeOut e u 0 layer).setErr errStrike
  if 3 ≤ (s.eng[e.val].unit u).strikes || s.noProbation e clock then s.quarantine e u layer
  else
    let s := s.modUnit e u fun x => { x with probs := clock :: x.probs }
    (s.probation e clock true).strikeOut e u 1 layer

/-- A failing attempt's record enters the fault log of the engine (R375, R407). -/
def State.faultLog (s : State) (e : EngineId) (r : Rec4) : State :=
  s.modEngInt e fun x => { x with
    flog := x.flog.set (x.flogHead % 64) r (by omega)
    flogHead := (x.flogHead + 1) % 64
    flogCount := wrapAdd x.flogCount 1 }

/-- QUARANTINE: a unit at its third strike, or that could not take its probation step, is quarantined. -/
def execQuarantine (e : EngineId) (u : Unit5) (s : State) : Res :=
  .next (s.quarantine e u 0)

/-- STRIKE_DECAY (R377): STRIKE_DECAY × 1,024 steps without a strike take the newest strike and its step back. -/
def execStrikeDecay (e : EngineId) (u : Unit5) (s : State) : Res :=
  let d := match s.faults with
    | some f => f.strikeDecay * 1024
    | none => 0
  let x := s.eng[e.val].unit u
  .next <|
    if d ≠ 0 ∧ 0 < x.strikes ∧ x.quarantined = false ∧ d ≤ s.curStep.toNat - x.since.toNat then
      let s := s.modUnit e u fun x => { x with strikes := x.strikes - 1, since := s.curStep, probs := x.probs.drop 1 }
      match x.probs with
      | c :: _ => (s.probation e c false).strikeOut e u 2 0
      | [] => s
    else s

/-! ### HELD -/

/-- Pending PAUSE, PLANE_SWITCH and CHECKPOINT_TAKE complete with STATE_CONFLICT (R62). -/
def State.cancelPending (s : State) : State :=
  let s := s.completeOpt s.job.pendPause .stateConflict
  let s := s.completeOpt s.job.pendSwitch .stateConflict
  let s := s.completeOpt (s.job.pendCkpt.map (·.1)) .stateConflict
  s.modJob fun j => { j with pendPause := none, pendSwitch := none, pendCkpt := none }

/-- Leaving HELD releases the fault-window records (R385). -/
def State.leaveHeld (s : State) : State :=
  s.modInt fun x => { x with fwSpass := 0, fwTouches := 0, fwRecs := [] }

end Sys2Proof.Machine
end

