-- ==== Sys2Proof/Machine/Memory.lean ====
section
/-! DEFINITION. Vault and far-channel controllers, base cache, merge buffers, scrubbers (09; 15 R466). -/

namespace Sys2Proof.Machine

/-! ### Addresses -/

/-- Bytes of a vault or far channel (R260). -/
def ctlBytes : CtlId → Nat
  | .vault _ => 2 ^ 33
  | .far _ => 2 ^ 35

def ctlBlocks (c : CtlId) : Nat := ctlBytes c / 4096

/-- Data and sideband codewords of a controller (R277). -/
def ctlCodewords (c : CtlId) : Nat := ctlBytes c / 64 + ctlBytes c / 8192

/-- The page that a location names for an engine (R189). -/
def pageOf (e : EngineId) (l : PageLoc) : CtlId × Nat :=
  if bitAt l 31 then (.far (Fin.ofNat 48 (fld l 28 23)), fld l 22 0)
  else (.vault (Fin.ofNat 32 (e.val / 16 * 4 + fld l 30 29)), fld l 20 0)

/-- The location word of a page of a controller. -/
def locOf : CtlId → Nat → PageLoc
  | .vault v, p => BitVec.ofNat 32 ((v.val % 4) <<< 29 ||| p % 2 ^ 21)
  | .far f, p => BitVec.ofNat 32 (2 ^ 31 ||| f.val <<< 23 ||| p % 2 ^ 23)

/-- DRAM and stage-store addresses as slips give them (R287). -/
def dramWord : CtlId → Nat → W64
  | .vault v, a => put 2 60 ||| put v.val 36 ||| put a 0
  | .far f, a => put 3 60 ||| put f.val 36 ||| put a 0

/-- The base cache slice that serves a far channel (R262). -/
def sliceOf (f : FarId) : CacheId :=
  if f.val < 24 then ⟨f.val / 2 % 4, by omega⟩ else ⟨4 + (f.val - 24) / 2 % 4, by omega⟩

/-! ### Stored data -/

/-- A byte as stored with pending narrow bytes merged in (R273). -/
def CtlSt.byte (c : CtlSt) (a : Nat) : Byte :=
  match c.merge.find? (fun m => m.cw == a / 64) with
  | some m => lookupD m.bytes (a % 64) (memGet c.data a)
  | none => memGet c.data a

def CtlSt.bytes (c : CtlSt) (a : Nat) : Nat → List Byte
  | 0 => []
  | n + 1 => c.byte a :: c.bytes (a + 1) n

/-- A fresh sideband for a whole block that arrives without one (R270). -/
def freshSide (data : List Byte) : Sideband := mkSide (crc32c data) 0 false 0 0 0 0 0

def CtlSt.side (c : CtlSt) (b : Nat) : Sideband :=
  lookupD c.sides b <|
    if c.zeroed.any fun z => decide (z.1 ≤ b) && decide (b < z.1 + z.2) then freshSide (List.replicate 4096 0)
    else Sideband.zero

def CtlSt.setSide (c : CtlSt) (b : Nat) (x : Sideband) : CtlSt := { c with sides := assocSet c.sides b x }

/-- Pending bytes that a write replaces leave their merge entries. -/
def MergeEnt.without (m : MergeEnt) (a n : Nat) : MergeEnt :=
  { m with bytes := m.bytes.filter fun b => !(a ≤ m.cw * 64 + b.1 && m.cw * 64 + b.1 < a + n) }

/-- Whole codewords of a range become sound when they are overwritten, and their merge entries are freed (R273, R274). -/
def CtlSt.overwrite (c : CtlSt) (a : Nat) (bs : List Byte) : CtlSt :=
  let first := (a + 63) / 64
  let last := (a + bs.length) / 64
  { c with
    data := memWrite c.data a bs
    bad := c.bad.filter fun w => !(first ≤ w && w < last)
    merge := (c.merge.map fun m => m.without a bs.length).filter fun m => !m.bytes.isEmpty }

/-- The writes whose pending bytes a write of the range replaces whole. -/
def CtlSt.freedWrites (c : CtlSt) (a n : Nat) : List Requester :=
  (c.merge.filter fun m => (m.without a n).bytes.isEmpty).flatMap (·.writes)

/-- Bytes of the slip in progress answered up to an offset: PROGRESS and the running checksum follow, never past the first
failing byte (R288, R297, R300). -/
def ChanSt.answered (c : ChanSt) (upTo : Nat) : ChanSt :=
  let upTo := match c.halting with
    | some h => min upTo h.2
    | none => upTo
  let n := upTo - c.progress.toNat
  let sums := match c.slip with
    | some x => bitAt x.w0 52
    | none => false
  { c with
    progress := if n = 0 then c.progress else BitVec.ofNat 32 upTo
    tail := c.tail.drop n
    crc := if sums then crcMore c.crc (c.tail.take n) else c.crc
    crcBytes := if sums then wrapAdd c.crcBytes n else c.crcBytes }

/-- An access of the slip in progress has failed at an offset: the channel halts once its writes are answered, for the
failure with the least offset (R300). -/
def ChanSt.fails (c : ChanSt) (st : Status) (offset : Nat) : ChanSt :=
  { c with halting := match c.halting with
      | some h => if h.2 ≤ offset then some h else some (st, offset)
      | none => some (st, offset) }

/-- The offset in a channel's slip of a byte that it has written to a controller: in its destination, or of the checksum word
behind all of it. -/
def ChanSt.offsetOf (c : ChanSt) (a : Nat) : Nat :=
  match c.slip with
  | some x => if c.csumSent then fld x.w0 31 0 else a - fld x.w2 34 0
  | none => 0

/-- A narrow write of the byte at a is answered. A DMA channel keeps a failed answer for its slip (R274, R280); once none of
its writes is open at the controller, all that it has sent there is answered (R288). -/
def State.answer (s : State) (c : CtlId) (st : Status) (a : Nat) (who : Requester) : State :=
  match who with
  | .dma e ch =>
    if st ≠ .ok then s.modChan e ch fun x => if x.slip.isSome then x.fails st (x.offsetOf a) else x
    else if (s.ctl c).merge.any fun m => m.writes.contains who then s
    else s.modChan e ch fun x => if x.slip.isSome then x.answered x.sent else x
  | _ => s.emit (.memAnswer c st [] [])

def State.answerAll (s : State) (c : CtlId) (st : Status) (a : Nat) (l : List Requester) : State :=
  l.foldl (fun s w => s.answer c st a w) s

/-- A range of stored bytes overwritten; the narrow writes that it replaces are answered (R273). -/
def State.overwrite (s : State) (c : CtlId) (a : Nat) (bs : List Byte) : State :=
  let l := (s.ctl c).freedWrites a bs.length
  (s.modCtl c fun m => m.overwrite a bs).answerAll c .ok a l

/-! ### Sealed pages (R466) -/

/-- The tag area of a controller in a sealed job, while the memory key is held. -/
def State.tagArea (s : State) (c : CtlId) : Option (Dig256 × TagArea) :=
  match s.sec.memKey, s.job.charter with
  | some k, some ch =>
    match ch.sealing with
    | some se =>
      match se.areas[match c with
        | .vault v => v.val
        | .far f => 32 + f.val]? with
      | some a => some (k, a)
      | none => none
    | none => none
  | _, _ => none

/-- The memory key when a page is covered. -/
def State.coverKey (s : State) (c : CtlId) (page : Nat) : Option Dig256 :=
  match s.tagArea c with
  | some (k, a) => if a.first ≤ page ∧ page < a.first + a.count then some k else none
  | none => none

/-- Some covered page lies in the range. -/
def State.covered (s : State) (c : CtlId) (a len : Nat) : Bool :=
  match s.tagArea c with
  | some (_, x) => decide (0 < x.count) && decide (a / 4096 < x.first + x.count) && decide (x.first < (a + len + 4095) / 4096)
  | none => false

def sealNonce (c : CtlId) (page : Nat) (ctr : W64) : BitVec 96 :=
  (locOf c page) ++ ctr

/-- Plaintext of a page with its sideband; VALID clear where a tag fails. -/
def State.readPage (s : State) (c : CtlId) (p : Nat) : List Byte × Sideband :=
  let m := s.ctl c
  let raw := m.bytes (p * 4096) 4096
  match s.coverKey c p with
  | none => (raw, m.side p)
  | some k =>
    match m.tags.find? (fun t => t.page == p) with
    | none => (raw, (m.side p).clearValid)
    | some t =>
      match Config.gcmOpen k (sealNonce c p t.ctr) [] raw t.tag with
      | none => (raw, (m.side p).clearValid)
      | some pt =>
        (pt, { m.side p with w0 := put (crc32c pt).toNat 32 ||| put (fld (m.side p).w0 31 0) 0 })

/-- A page stored with its sideband, encrypted where it is covered: the write counter rises, HALLMARK is that of the
ciphertext. -/
def State.putPage (s : State) (c : CtlId) (p : Nat) (data : List Byte) (x : Sideband) : State :=
  match s.coverKey c p with
  | none => (s.overwrite c (p * 4096) data).modCtl c fun m => m.setSide p x
  | some k =>
    let m := s.ctl c
    let ctr := match m.tags.find? (fun t => t.page == p) with
      | some t => wrapAdd t.ctr 1
      | none => 1
    let (ct, tag) := Config.gcmSeal k (sealNonce c p ctr) [] data
    (s.overwrite c (p * 4096) ct).modCtl c fun m =>
      { m.setSide p { x with w0 := put (crc32c ct).toNat 32 ||| put (fld x.w0 31 0) 0 } with
        tags := { page := p, tag := tag, ctr := ctr } :: m.tags.filter fun t => t.page != p }

/-- Bytes of a range as a requester receives them. -/
def State.readBytes (s : State) (c : CtlId) (a len : Nat) : List Byte :=
  if s.covered c a len then
    let first := a / 4096
    let pages := (a + len + 4095) / 4096 - first
    slice ((List.range pages).flatMap fun i => (s.readPage c (first + i)).1) (a - first * 4096) len
  else (s.ctl c).bytes a len

/-- The sidebands of the blocks that a range touches (R271). -/
def State.readSides (s : State) (c : CtlId) (a len : Nat) : List Sideband :=
  let first := a / 4096
  (List.range ((a + len + 4095) / 4096 - first)).map fun i => (s.readPage c (first + i)).2

/-- Part of a block stored: the block's VALID is cleared (R270); a covered page is read, merged and written (R466). -/
def State.putPart (s : State) (c : CtlId) (a : Nat) (data : List Byte) : State :=
  let p := a / 4096
  match s.coverKey c p with
  | none => (s.overwrite c a data).modCtl c fun m => m.setSide p (m.side p).clearValid
  | some _ =>
    let (old, x) := s.readPage c p
    s.putPage c p (old.take (a % 4096) ++ data ++ old.drop (a % 4096 + data.length)) x.clearValid

/-- Bytes of a range stored at once, block by block, without the merge buffer. -/
def State.putParts (s : State) (c : CtlId) (a : Nat) (data : List Byte) : Nat → State
  | 0 => s
  | n + 1 =>
    let k := min data.length (4096 - a % 4096)
    if k = 0 then s else (s.putPart c a (data.take k)).putParts c (a + k) (data.drop k) n

/-! ### Corrections and uncorrectable errors (R266 to R268, R279, R280) -/

/-- A memory error record (R279). -/
def memRec (st : Status) (source store : Nat) (isl : IslandIdx) (die : Nat) (addr : Nat) (step : StepNo) (mb : W16)
    (requester : W16) (channel : Nat) : Rec4 where
  w0 := put st.code.toNat 56 ||| put source 52 ||| put store 48 ||| put (islandId isl).toNat 32 ||| put die 0
  w1 := put addr 0
  w2 := put step.toNat 16 ||| put mb.toNat 0
  w3 := put requester.toNat 48 ||| put channel 40

def storeCode : CtlId → Nat
  | .vault _ => 5
  | .far _ => 6

def CtlSt.threshold (c : CtlSt) : Nat := fld c.cfg 31 16

/-- What the code makes of a pattern with the mark in force (R266): errors of a die other than the marked one are
uncorrectable. -/
def CtlSt.resolve (c : CtlSt) : CwFault → CwFault
  | .corrected d =>
    match c.marked with
    | some m => if m = d.val then .corrected d else .uncorrectable (some d)
    | none => .corrected d
  | .uncorrectable d => .uncorrectable d

/-- The terms on which an access is reported: SOURCE, step, micro-batch, requester and channel of R279. -/
structure ReadBy where
  source : Nat
  step : StepNo
  mb : W16
  unit : W16
  chan : Nat

/-- A correction attributed to a die (R267): counted, with a record for the first of the pass. -/
def State.correct (s : State) (c : CtlId) (d : Fin 8) (cw : Nat) (b : ReadBy) : State :=
  let first := (s.ctl c).dieCe[d.val] = 0
  let s := s.modCtl c fun m => { m with
    dieCe := m.dieCe.set d.val (m.dieCe[d.val] + 1)
    dieCw := m.dieCw.set d.val cw
    corrections := if m.marked = some d.val then satAdd m.corrections 1 else m.corrections
    demandCe := if b.source = 2 then m.demandCe else satAdd m.demandCe 1
    scrubCe := if b.source = 2 then satAdd m.scrubCe 1 else m.scrubCe }
  if first then
    s.postAt (islCtl c) clsMemory .ok b.step b.mb
      (memRec .ok b.source (storeCode c) (islCtl c) d.val cw b.step b.mb b.unit b.chan)
  else s

/-- An uncorrectable codeword counted, errors of a second die beside a mark attributed (R268); until it is written again
it reads so (R280). -/
def State.countUe (s : State) (c : CtlId) (cw : Nat) (d : Option (Fin 8)) (scrub : Bool) : State :=
  s.modCtl c fun m => { m with
    ueSeen := true
    bad := if m.bad.contains cw then m.bad else cw :: m.bad
    badDie := match d with
      | some d => assocSet m.badDie cw d
      | none => if m.bad.contains cw then m.badDie else assocDel m.badDie cw
    demandUe := if scrub then m.demandUe else satAdd m.demandUe 1
    scrubUe := if scrub then satAdd m.scrubUe 1 else m.scrubUe
    dieUe := match m.marked, d with
      | some k, some d => if k = d.val then m.dieUe else m.dieUe.set d.val (m.dieUe[d.val] + 1)
      | _, _ => m.dieUe }

/-- The one record of an access that met uncorrectable errors, naming the first failing codeword. -/
def State.recordUe (s : State) (c : CtlId) (d : Option (Fin 8)) (cw : Nat) (b : ReadBy) : State :=
  let s := s.modCtl c fun m => { m with lastUe := BitVec.ofNat 30 cw }
  let die := match d with
    | some d => d.val
    | none => 0xFF
  (s.postAt (islCtl c) clsMemory .uncorrectable b.step b.mb
    (memRec .uncorrectable b.source (storeCode c) (islCtl c) die cw b.step b.mb b.unit b.chan)).setErr errUe

def whoIsland : Requester → W16
  | .host => 0x6000
  | .bursarLoad => 0x6000
  | .bursarFetch => 0x6000
  | .dma e _ => islandId (islEngine e)
  | .tile e => islandId (islEngine e)
  | .vector e => islandId (islEngine e)
  | .accumulate e => islandId (islEngine e)
  | .tillReload e => islandId (islEngine e)
  | .tillSend e => islandId (islEngine e)
  | .peerFetch e => islandId (islEngine e)
  | .charterStore => 0x6000
  | .cache => 0x6000
  | .readModifyWrite => 0x6000

def whoChannel : Requester → Nat
  | .dma _ c => c.val
  | _ => 0xFF

def whoSource : Requester → Nat
  | .bursarFetch => 4
  | .peerFetch _ => 5
  | .accumulate _ => 3
  | .readModifyWrite => 1
  | _ => 0

/-- The sideband codeword of blocks 2b and 2b + 1 (R269, R277). -/
def sideCw (c : CtlId) (page : Nat) : Nat := ctlBytes c / 64 + page / 2

/-- A read of a range reads the codeword: one of its data, or one of its blocks' sidebands (R271). -/
def inRead (c : CtlId) (a len w : Nat) : Bool :=
  len != 0 &&
  ((decide (a / 64 ≤ w) && decide (w < (a + len + 63) / 64)) ||
    (decide (sideCw c (a / 4096) ≤ w) && decide (w ≤ sideCw c ((a + len - 1) / 4096))))

/-- An uncorrectable codeword with its die, where one is attributed. -/
abbrev BadCw := Nat × Option (Fin 8)

/-- The die to which the errors of a codeword whose stored contents are uncorrectable were attributed. -/
def CtlSt.dieOf (m : CtlSt) (cw : Nat) : Option (Fin 8) :=
  (m.badDie.find? fun x => x.1 == cw).map (·.2)

/-- Codewords of a read that are uncorrectable: those whose stored contents are, and those that the access finds. -/
def CtlSt.badIn (m : CtlSt) (c : CtlId) (a len : Nat) (fs : List (Nat × CwFault)) : List BadCw :=
  let stored := (m.bad.filter fun w => inRead c a len w).map fun w => (w, m.dieOf w)
  let met := fs.filterMap fun (f : Nat × CwFault) => match m.resolve f.2 with
    | .uncorrectable d => if inRead c a len f.1 then some (f.1, d) else none
    | .corrected _ => none
  (stored ++ met.filter fun (f : BadCw) => !(m.bad.contains f.1)).mergeSort fun x y => decide (x.1 ≤ y.1)

/-- A read from the controller: its corrections are counted; the codewords that are uncorrectable. -/
def State.sift (s : State) (c : CtlId) (a len : Nat) (fs : List (Nat × CwFault)) (b : ReadBy) : List BadCw × State :=
  let m := s.ctl c
  (m.badIn c a len fs, fs.foldl (fun s f => match m.resolve f.2 with
    | .corrected d => if inRead c a len f.1 then s.correct c d f.1 b else s
    | .uncorrectable _ => s) s)

/-- An access that met uncorrectable codewords: each is counted, one record names the first (R279). True where it met none. -/
def State.reportBad (s : State) (c : CtlId) (l : List BadCw) (b : ReadBy) : Bool × State :=
  match l with
  | [] => (true, s)
  | (cw, d) :: r =>
    (false, (((cw, d) :: r).foldl (fun s f => s.countUe c f.1 f.2 (b.source == 2)) s).recordUe c d cw b)

/-! ### Base cache (R262, R263, R265) -/

def cacheSets : Nat := 16384

def State.resident (s : State) (f : FarId) (line : Nat) : Bool :=
  s.caches[(sliceOf f).val].lines.any fun l => l.far == f.val && l.line == line

/-- A line allocated in its set, in a free way or in that of a victim. -/
def State.cacheFill (s : State) (f : FarId) (line : Nat) : State :=
  let c := sliceOf f
  let x := s.caches[c.val]
  let used := (x.lines.filter fun l => l.line % cacheSets == line % cacheSets).map (·.way)
  let (way, s) := match (List.finRange 16).find? fun w => !(used.contains w) with
    | some w => (w, s)
    | none => (Config.victimWay s.free, { s with free := s.free + 1 })
  s.modCache c fun x => { x with
    lines := { far := f.val, line := line, way := way } ::
      x.lines.filter fun l => !(l.line % cacheSets == line % cacheSets && l.way == way) }

/-- A resident line invalidated, to be read again from the channel (R265). -/
def State.cacheDrop (s : State) (f : FarId) (line : Nat) : State :=
  s.modCache (sliceOf f) fun x => { x with
    refetch := satAdd x.refetch 1, lines := x.lines.filter fun l => !(l.far == f.val && l.line == line) }

/-- A resident line that reads uncorrectable is invalidated and read again from the channel (R265). The access is served, so
the record of the error has STATUS OK; its ADDRESS is the line's place in the slice (R279; log entry 160). -/
def State.cacheRefetch (s : State) (f : FarId) (line : Nat) (b : ReadBy) : State :=
  let c := sliceOf f
  let way := ((s.caches[c.val].lines.find? fun l => l.far == f.val && l.line == line).map fun l => l.way.val).getD 0
  let s := s.cacheDrop f line
  s.postAt (islCache c) clsMemory .ok b.step b.mb
    (memRec .ok b.source 4 (islCache c) 0xFF ((line % cacheSets * 16 + way) * 256) b.step b.mb b.unit b.chan)

/-- The far-channel pairs that a slice serves (R262, R284). -/
def slicePairs (c : CacheId) : BitVec 24 :=
  (List.finRange 48).foldl (fun b f => if sliceOf f = c then setBit b (f.val / 2) true else b) 0

/-- The part of a read that lies in one line: served from the line where it is resident and sound, else read from the
channel, the whole line unless the access asks not to allocate. A line with an uncorrectable codeword is not allocated, and the
access fails wherever in the line that codeword lies (DESIGN CHOICE, log entry 161). -/
def State.cacheLine (s : State) (f : FarId) (a len line : Nat) (noAlloc badLine : Bool) (fs : List (Nat × CwFault))
    (b : ReadBy) : List BadCw × State :=
  let c := sliceOf f
  if s.resident f line && !badLine then ([], s.modCache c fun x => { x with hits := wrapAdd x.hits 1 })
  else
    let s := if s.resident f line then s.cacheRefetch f line b else s
    let s := s.modCache c fun x => { x with misses := wrapAdd x.misses 1 }
    let lo := max a (line * 256)
    let hi := min (a + len) (line * 256 + 256)
    let r := if noAlloc then s.sift (.far f) lo (hi - lo) fs b else s.sift (.far f) (line * 256) 256 fs b
    if noAlloc || !r.1.isEmpty then r else ([], r.2.cacheFill f line)

/-- A read of a range of a far channel through its slice (R262, R263, R265). What a page's sideband codeword meets is met by
the first of its lines that the channel serves, and by no other. -/
def State.cacheRead (s : State) (f : FarId) (a len : Nat) (noAlloc : Bool) (m : ReadMet) (b : ReadBy) :
    List BadCw × State :=
  let first := a / 256
  let s := s.modCache (sliceOf f) fun x => { x with corrected := satAdd x.corrected m.cacheCe }
  let r := (List.range ((a % 256 + len + 255) / 256)).foldl (fun (r : List BadCw × List (Nat × CwFault) × State) i =>
    let hit := r.2.2.resident f (first + i) && !(m.cacheUe.contains i)
    let q := r.2.2.cacheLine f a len (first + i) noAlloc (m.cacheUe.contains i) r.2.1 b
    ((r.1 ++ q.1).eraseDups,
      if hit then r.2.1
      else r.2.1.filter fun x => x.1 != sideCw (.far f) ((first + i) * 256 / 4096), q.2)) ([], m.faults, s)
  (r.1, r.2.2)

def ReadMet.none : ReadMet := { faults := [], cacheCe := 0, cacheUe := [] }

/-- A read of a range at a controller, a far channel's through its slice. True where every codeword is sound; where one is
not, the read's record has been made. -/
def State.readVia (s : State) (c : CtlId) (a len : Nat) (noAlloc : Bool) (m : ReadMet) (b : ReadBy) : Bool × State :=
  match c with
  | .vault _ =>
    let r := s.sift c a len m.faults b
    r.2.reportBad c r.1 b
  | .far f =>
    let r := s.cacheRead f a len noAlloc m b
    r.2.reportBad c r.1 b

/-- The page's codewords are sound, its sideband's among them. -/
def State.pageGood (s : State) (c : CtlId) (p : Nat) : Bool := ((s.ctl c).badIn c (p * 4096) 4096 []).isEmpty

/-- A page read at a controller. -/
def State.readPageVia (s : State) (c : CtlId) (p : Nat) (b : ReadBy) : Bool × State :=
  s.readVia c (p * 4096) 4096 false ReadMet.none b

/-- A demand read of an engine's channel (0xFF: of none), or of another of its units. -/
def State.byEng (s : State) (e : EngineId) (ch : Nat) (mb : W16) : ReadBy :=
  { source := 0, step := s.recStep, mb := mb, unit := islandId (islEngine e), chan := ch }

/-- A page as a unit of the module reads it: through its controller and slice (R262), its record made where it is
uncorrectable; a controller out of service answers under R16. -/
def State.pageIn (s : State) (c : CtlId) (p : Nat) (b : ReadBy) : Except Status (List Byte × Sideband) × State :=
  if s.ctlOk c = false then (.error .stateConflict, s)
  else
    let r := s.readPageVia c p b
    (if r.1 then .ok (r.2.readPage c p) else .error .uncorrectable, r.2)

/-- Pages read one after another, each failure with its record: true where all of them read (R279, R280). -/
def State.pagesIn (s : State) (ps : List (CtlId × Nat)) (b : ReadBy) : Bool × State :=
  ps.foldl (fun (a : Bool × State) p =>
    if a.1 then
      match a.2.pageIn p.1 p.2 b with
      | (.ok _, s) => (true, s)
      | (.error _, s) => (false, s)
    else a) (true, s)

/-! ### Narrow writes (R272 to R274) -/

/-- Pending bytes of a merge entry with later ones over them (R272); its codeword has 64. -/
def mergeBytes (old : List (Nat × Byte)) (off : Nat) : List Byte → List (Nat × Byte)
  | [] => old
  | b :: bs => mergeBytes (assocSet old off b) (off + 1) bs

def isSideCw (c : CtlId) (cw : Nat) : Bool := decide (ctlBytes c / 64 ≤ cw)

/-- The first byte that a codeword holds; of a sideband codeword that of its first block. -/
def cwByte (c : CtlId) (cw : Nat) : Nat :=
  if isSideCw c cw then (cw - ctlBytes c / 64) * 8192 else cw * 64

/-- The codeword of a merge entry written; a sideband codeword's contents stand in the sidebands already. -/
def State.putCw (s : State) (ctl : CtlId) (cw : Nat) (bs : List Byte) : State :=
  if isSideCw ctl cw then s.modCtl ctl fun c => { c with bad := c.bad.filter fun w => w != cw }
  else s.putPart ctl (cw * 64) bs

/-- The read of a read-modify-write: from the resident line of a far channel, else from the channel or vault. -/
def State.readCw (s : State) (ctl : CtlId) (cw : Nat) (fault : Option CwFault) (b : ReadBy) : List BadCw × State :=
  match ctl with
  | .vault _ => s.sift ctl (cw * 64) 64 (fault.toList.map fun f => (cw, f)) b
  | .far f =>
    if s.resident f (cw / 4) then ([], s.modCache (sliceOf f) fun x => { x with hits := wrapAdd x.hits 1 })
    else s.sift ctl (cw * 64) 64 (fault.toList.map fun f => (cw, f)) b

/-- A merge entry whose read-modify-write fails: nothing is written, the sidebands pending in it are those stored again, and every
write merged into it is answered with UNCORRECTABLE (R273, R274). -/
def State.retireFails (s : State) (ctl : CtlId) (m : MergeEnt) : State :=
  (s.modCtl ctl fun c => m.old.foldl (fun c y => c.setSide y.1 y.2)
    { c with merge := c.merge.filter fun x => x.cw != m.cw }).answerAll ctl .uncorrectable (cwByte ctl m.cw) m.writes

/-- A merge entry retired by read-modify-write: every write merged into it is answered; where the read is uncorrectable
nothing is written, and sidebands pending in the entry are those stored again (R273, R274). -/
def State.retire (s : State) (ctl : CtlId) (m : MergeEnt) (fault : Option CwFault) : State :=
  let s := s.modCtl ctl fun c => { c with merge := c.merge.filter fun x => x.cw != m.cw }
  let b : ReadBy :=
    { source := 1, step := s.recStep, mb := noMb
      unit := (m.writes.head?.map whoIsland).getD (islandId (islCtl ctl))
      chan := (m.writes.head?.map whoChannel).getD 0xFF }
  let r := s.readCw ctl m.cw fault b
  let bad := r.1.filter fun x => x.1 == m.cw
  if bad.isEmpty then
    let s := r.2.modCtl ctl fun c => { c with rmw := wrapAdd c.rmw 1 }
    let old := s.readBytes ctl (m.cw * 64) 64
    (s.putCw ctl m.cw ((List.range 64).zipWith (fun i b => lookupD m.bytes i b) old)).answerAll ctl .ok (cwByte ctl m.cw) m.writes
  else
    (r.2.reportBad ctl bad b).2.retireFails ctl m

/-- A new entry of the merge buffer, which holds 64 (R272). -/
def CtlSt.addMerge (c : CtlSt) (m : MergeEnt) : CtlSt :=
  { c with merge := (c.merge ++ [m]).drop (c.merge.length + 1 - 64) }

/-- Bytes enter or join the merge entry of a codeword; a filled entry is retired by a full write, and with all 64 in use
the oldest is retired first. A write of no bytes is answered. -/
def State.mergeIn (s : State) (ctl : CtlId) (cw off : Nat) (data : List Byte) (who : List Requester)
    (fault : Option CwFault) (old : List (Nat × Sideband)) : State :=
  let data := data.take (64 - off)
  if data.isEmpty then s.answerAll ctl .ok (cwByte ctl cw) who
  else match (s.ctl ctl).merge.find? fun x => x.cw == cw with
  | some x =>
    let bytes := mergeBytes x.bytes off data
    if 64 ≤ bytes.length then
      let s := s.modCtl ctl fun c => { c with
        merge := c.merge.filter (fun x => x.cw != cw), merged := wrapAdd c.merged 1 }
      (s.putCw ctl cw ((List.range 64).map fun i => lookupD bytes i 0)).answerAll ctl .ok (cwByte ctl cw) (x.writes ++ who)
    else
      s.modCtl ctl fun c => { c with
        merge := c.merge.map fun x => if x.cw == cw then { x with
          bytes := bytes, writes := x.writes ++ who
          old := x.old ++ old.filter fun y => !(x.old.any fun z => z.1 == y.1) } else x }
  | none =>
    let s := if 64 ≤ (s.ctl ctl).merge.length then
        match (s.ctl ctl).merge with
        | o :: _ => s.retire ctl o fault
        | [] => s
      else s
    s.modCtl ctl fun c => c.addMerge { cw := cw, bytes := mergeBytes [] off data, writes := who, old := old }

/-- A write inside one codeword: through the merge buffer, its block's VALID cleared; into a covered page at once (R466). -/
def State.narrow (s : State) (ctl : CtlId) (a : Nat) (data : List Byte) (who : List Requester) (fault : Option CwFault) :
    State :=
  match s.coverKey ctl (a / 4096) with
  | some _ => (s.putPart ctl a data).answerAll ctl .ok a who
  | none =>
    (s.mergeIn ctl (a / 64) (a % 64) data who fault []).modCtl ctl fun m =>
      m.setSide (a / 4096) (m.side (a / 4096)).clearValid

/-- A whole block stored with its sideband: the half of the sideband codeword that it writes merges with its neighbour's, and
the write is answered when that codeword is written (R273, R274). A controller out of service answers under R16. -/
def State.writePage (s : State) (c : CtlId) (p : Nat) (data : List Byte) (x : Sideband) (who : List Requester := [])
    (evict : Option CwFault := none) : State :=
  if s.ctlOk c = false then s.answerAll c .stateConflict (p * 4096) who
  else
    let old := (s.ctl c).side p
    let s := s.putPage c p data x
    s.mergeIn c (sideCw c p) (p % 2 * 32) ((s.ctl c).side p).bytes who evict [(p, old)]

/-- Bytes written without sidebands (R270, R272): whole aligned blocks get a fresh sideband, other whole codewords are
stored, what covers part of a codeword goes through the merge buffer. -/
def State.writeRange (s : State) (c : CtlId) (a : Nat) (data : List Byte) (who : List Requester) (evict : Option CwFault) :
    Nat → State
  | 0 => s
  | n + 1 =>
    if data.length = 0 then s
    else
      let blk := min data.length (4096 - a % 4096)
      let k := if blk = 4096 then 4096
        else if a % 64 = 0 ∧ 64 ≤ blk then blk / 64 * 64
        else min blk (64 - a % 64)
      let s := if k = 4096 then s.writePage c (a / 4096) (data.take k) (freshSide (data.take k)) who evict
        else if 64 ≤ k then s.putPart c a (data.take k)
        else s.narrow c a (data.take k) who evict
      s.writeRange c (a + k) (data.drop k) who evict n

/-- A write of bytes; a controller out of service answers under R16. -/
def State.writeBytes (s : State) (c : CtlId) (a : Nat) (data : List Byte) (who : List Requester)
    (evict : Option CwFault := none) : State :=
  if s.ctlOk c = false then s.answerAll c .stateConflict a who
  else s.writeRange c a data who evict (3 * (data.length / 4096 + 2))

/-- A part of the write is answered only when a codeword that it covers in part has been written: one at either end, or the
sideband codeword of a whole block. -/
def isLate (a n : Nat) : Bool :=
  n != 0 && (a % 64 != 0 || (a + n) % 64 != 0 || decide ((a + 4095) / 4096 * 4096 + 4096 ≤ a + n))

/-- A whole block written with its sideband; a failed hallmark writes nothing (R270). -/
def State.writeBlock (s : State) (c : CtlId) (page : Nat) (data : List Byte) (x : Sideband) (who : List Requester := [])
    (evict : Option CwFault := none) : Status × State :=
  if hallmarkOk x data then (.ok, s.writePage c page data x who evict)
  else (.hallmarkFail, s)

/-! ### The meanings -/

/-- A refused access is recorded in HST_APT_ERR. -/
def State.aptErr (s : State) (st : Status) (off : BitVec 36) : State :=
  s.modHost fun h => { h with aptStatus := st.code, aptOff := off }

/-- The aperture offset at which the host sees a byte of a controller (R344). -/
def State.aptOffset (s : State) (c : CtlId) (a : Nat) : Option (BitVec 36) :=
  (s.host.aptMap.toList.findIdx? fun w => w == dramWord c (a - a % 2 ^ 32)).map fun k =>
    BitVec.ofNat 36 (k * 2 ^ 32 + a % 2 ^ 32)

/-- A host access answered with Unsupported Request or Completer Abort is logged by AER as such (R340; log entry 186). -/
def State.aerLog (s : State) (p : PciStatus) : State :=
  match p with
  | .success => s
  | .unsupported => s.modHost fun h => { h with aer := setBit h.aer 20 true }
  | .abort => s.modHost fun h => { h with aer := setBit h.aer 15 true }

/-- A host read refused: no data. -/
def State.pciRefuse (s : State) (p : PciStatus) : State := (s.aerLog p).emit (.pci p [])

/-- A host read that fails with UNCORRECTABLE: Completer Abort, with the access in HST_APT_ERR where the aperture shows the
place (R280, R345). -/
def State.hostUe (s : State) (c : CtlId) (a : Nat) : State :=
  let s := match s.aptOffset c a with
    | some off => s.aptErr .uncorrectable off
    | none => s
  s.pciRefuse .abort

/-- The path of an uncorrectable read at its requester (R280). Where the path is a step of its own (a channel's halt,
a repair, a refusal to a fetch), the answer below is what that step starts from. -/
def State.uePath (s : State) (ctl : CtlId) (a : Nat) (who : Requester) : State :=
  match who with
  | .host => s.hostUe ctl a
  | .bursarLoad => s.emit (.coreFault false)
  | .bursarFetch => s.emit (.coreFault true)
  | .tile e => (s.emit (.memAnswer ctl .uncorrectable [] [])).settle.mark (islEngine e) .uncorrectable
  | .vector e => (s.emit (.memAnswer ctl .uncorrectable [] [])).settle.mark (islEngine e) .uncorrectable
  | .accumulate e => (s.emit (.memAnswer ctl .uncorrectable [] [])).settle.mark (islEngine e) .uncorrectable
  | .tillReload e => (s.emit (.memAnswer ctl .uncorrectable [] [])).settle.mark (islEngine e) .uncorrectable
  | .tillSend e => (s.emit (.memAnswer ctl .uncorrectable [] [])).settle.mark (islEngine e) .uncorrectable
  | _ => s.emit (.memAnswer ctl .uncorrectable [] [])

/-- A request of the host interface or the bursar that touches a covered page of a sealed job (R467). -/
def State.sealedFor (s : State) (who : Requester) (ctl : CtlId) (a n : Nat) : Bool :=
  (match who with
  | .host | .bursarLoad | .bursarFetch => true
  | .dma _ _ | .tile _ | .vector _ | .accumulate _ | .tillReload _ | .tillSend _ | .peerFetch _ | .charterStore | .cache
  | .readModifyWrite => false) && s.covered ctl a n

/-- MEM_READ_REQUEST: a read is answered with its data and sidebands, corrections counted; with an uncorrectable word it
leaves one record and takes its requester's path. -/
def execMemReadRequest (ctl : CtlId) (q : MemRead) (s : State) : Res :=
  if ctlBytes ctl < q.addr + q.len then .fault .noSuchAddress
  else if s.ctlOk ctl = false then .next (s.emit (.memAnswer ctl .stateConflict [] []))
  else if s.sealedFor q.who ctl q.addr q.len then .next (s.emit (.memAnswer ctl .sealed [] []))
  else
    let r := s.readVia ctl q.addr q.len q.noAlloc q.met
      { source := whoSource q.who, step := s.recStep, mb := q.mb, unit := whoIsland q.who, chan := whoChannel q.who }
    .next <|
      if r.1 then r.2.emit (.memAnswer ctl .ok (r.2.readBytes ctl q.addr q.len) (r.2.readSides ctl q.addr q.len))
      else r.2.uePath ctl q.addr q.who

/-- MEM_WRITE_REQUEST: whole aligned blocks with their sidebands are checked first; other whole codewords are stored,
VALID cleared, and answered; narrow parts, and blocks for their sidebands, are answered as their codewords are written
(R270, R272 to R274). -/
def execMemWriteRequest (ctl : CtlId) (q : MemWrite) (s : State) : Res :=
  if ctlBytes ctl < q.addr + q.data.length then .fault .noSuchAddress
  else if s.ctlOk ctl = false then .next (s.emit (.memAnswer ctl .stateConflict [] []))
  else if s.sealedFor q.who ctl q.addr q.data.length then .next (s.emit (.memAnswer ctl .sealed [] []))
  else
    let plain : State :=
      let t := s.writeBytes ctl q.addr q.data [q.who] q.evict
      if isLate q.addr q.data.length then t else t.emit (.memAnswer ctl .ok [] [])
    match q.side with
    | some x =>
      if q.addr % 4096 = 0 ∧ q.data.length = 4096 then
        let (st, t) := s.writeBlock ctl (q.addr / 4096) q.data x [q.who] q.evict
        .next <| if st = .ok then t else
          ((t.post (islCtl ctl) clsHallmark .hallmarkFail noMb
            { w0 := x.w0, w1 := x.w1, w2 := x.w2, w3 := x.w3 }).setErr errHallmark).emit (.memAnswer ctl st [] [])
      else .next plain
    | none => .next plain

/-- NARROW_WRITE: a write inside one codeword. -/
def execNarrowWrite (ctl : CtlId) (q : MemWrite) (fault : Option CwFault) (s : State) : Res :=
  if ctlBytes ctl < q.addr + q.data.length then .fault .noSuchAddress
  else if s.ctlOk ctl = false then .next (s.emit (.memAnswer ctl .stateConflict [] []))
  else if s.sealedFor q.who ctl q.addr q.data.length then .next (s.emit (.memAnswer ctl .sealed [] []))
  else .next (s.narrow ctl q.addr (q.data.take (64 - q.addr % 64)) [q.who] fault)

/-- MERGE_RETIRE: the oldest entry has waited MERGE_WAIT. -/
def execMergeRetire (ctl : CtlId) (fault : Option CwFault) (s : State) : Res :=
  .next <| match (s.ctl ctl).merge with
    | [] => s
    | m :: _ => s.retire ctl m fault

/-- The scrub rate at a pass or step boundary: the installer's curve inside its envelope, else MEM_SCRUB.RATE (R276).
Target 0 to 31 names a vault, 32 to 79 a far channel, 0xFF all (log entry 16). -/
def State.scrubRate (s : State) (ctl : CtlId) (hot : Int) : State :=
  let t : Byte := match ctl with
    | .vault v => BitVec.ofNat 8 v.val
    | .far f => BitVec.ofNat 8 (32 + f.val)
  let base := fld (s.ctl ctl).scrub 15 0
  let c := match s.pwr.heldCurve 0x0A t with
    | some c => some c
    | none => s.pwr.heldCurve 0x0A 0xFF
  match c with
  | none => s.modCtl ctl fun m => { m with rate := base, scrubEnv := false }
  | some c =>
    if c.curve.holds s.pwr.load (some hot) s.glb.droop then
      s.modCtl ctl fun m => { m with
        rate := c.curve.yFloor (hot + 128).toNat, scrubEnv := false }
    else
      (s.modCtl ctl fun m => { m with rate := base, scrubEnv := true }).envelopeEvent 0x0A c.curve.id

/-- SCRUB_READ: the next codeword is read: skipped with a merge entry, written back corrected, or recorded and left. At
the end of a pass a new one starts and the rate is read again. -/
def execScrubRead (ctl : CtlId) (fault : Option CwFault) (hot : Int) (s : State) : Res :=
  let m := s.ctl ctl
  .next <|
    if m.scrubOn = false then s
    else
      let cw := m.pos
      let s :=
        if m.merge.any fun x => x.cw == cw then s
        else
          let met := if m.bad.contains cw then some (.uncorrectable (m.dieOf cw)) else fault.map m.resolve
          let b : ReadBy := { source := 2, step := s.glb.lastRetired, mb := noMb, unit := 0, chan := 0xFF }
          match met with
          | none => s
          | some (.corrected d) => s.correct ctl d cw b
          | some (.uncorrectable d) => (s.reportBad ctl [(cw, d)] b).2
      if cw + 1 < ctlCodewords ctl then s.modCtl ctl fun m => { m with pos := cw + 1 }
      else
        (s.modCtl ctl fun m => { m with
          pos := 0, passes := wrapAdd m.passes 1
          dieCe := Vector.replicate 8 0, dieUe := Vector.replicate 8 0 }).scrubRate ctl hot

/-- DIE_MARK (R267): at most one die of a controller is marked, when its corrections of the pass reach MARK_THRESH. -/
def execDieMark (ctl : CtlId) (die : Fin 8) (s : State) : Res :=
  let m := s.ctl ctl
  .next <|
    if m.marked.isNone ∧ m.threshold ≤ m.dieCe[die.val] then
      let s := s.modCtl ctl fun m => { m with
        marked := some die.val, corrections := BitVec.ofNat 32 (min m.dieCe[die.val] (2 ^ 32 - 1)) }
      s.post (islCtl ctl) clsMemory .ok noMb
        (memRec .ok 0 (storeCode ctl) (islCtl ctl) die.val m.dieCw[die.val] s.recStep noMb 0 0xFF)
    else s

/-- VAULT_OUT_OF_SERVICE (R268). -/
def execVaultOutOfService (ctl : CtlId) (die : Fin 8) (s : State) : Res :=
  let m := s.ctl ctl
  .next <|
    if m.marked.isSome ∧ m.marked ≠ some die.val ∧ m.threshold ≤ m.dieUe[die.val] then s.ctlLost ctl .uncorrectable
    else s

/-- Zeroisation of blocks first to first + n - 1: zero bytes, KIND 0, VALID set, the hallmark of 4,096 zero bytes
(R521). -/
def CtlSt.zeroise (c : CtlSt) (k : CtlId) (first n : Nat) : CtlSt :=
  let out (b : Nat) : Bool := !(decide (first ≤ b) && decide (b < first + n))
  let keepSide (w : Nat) : Bool := out ((w - sideCw k 0) * 2) || out ((w - sideCw k 0) * 2 + 1)
  { c with
    data := c.data.filter fun x => out (x.1 / 4096)
    sides := c.sides.filter fun x => out x.1
    zeroed := (first, n) :: c.zeroed
    merge := c.merge.filter fun m => if isSideCw k m.cw then keepSide m.cw else out (m.cw / 64)
    bad := c.bad.filter fun w => if isSideCw k w then keepSide w else out (w / 64)
    tags := c.tags.filter fun t => out t.page }

/-- The writes whose merge entries a zeroisation of blocks replaces (R273). -/
def CtlSt.zeroWrites (c : CtlSt) (k : CtlId) (first n : Nat) : List Requester :=
  (c.merge.filter fun m => !((c.zeroise k first n).merge.contains m)).flatMap (·.writes)

/-- Blocks of a controller zeroised; the narrow writes that this replaces are answered. -/
def State.zeroise (s : State) (c : CtlId) (first n : Nat) : State :=
  let l := (s.ctl c).zeroWrites c first n
  (s.modCtl c fun m => m.zeroise c first n).answerAll c .ok (first * 4096) l

/-- A whole vault or far channel zeroised. -/
def State.zeroCtl (s : State) (c : CtlId) : State :=
  (s.zeroise c 0 (ctlBlocks c)).modCtl c fun m => { m with zeroed := [(0, ctlBlocks c)] }

def State.zeroAllDram (s : State) : State :=
  let s := (List.finRange 32).foldl (fun s v => s.zeroCtl (.vault v)) s
  (List.finRange 48).foldl (fun s f => s.zeroCtl (.far f)) s

end Sys2Proof.Machine
end

