-- ==== Sys2Proof/Machine/Security.lean ====
section
/-! DEFINITION. The security block and the evaluation of commands: tokens, payloads, measurement, nonces, enrolment,
reports, DOE (15; 12 R349, R352, R358; 02 R58, R63). -/

namespace Sys2Proof.Machine

/-! ### Job state as a word (R57, R63) -/

def jobCode : JState → Nat
  | .empty => 0 | .staging => 1 | .verifying => 2 | .verified => 3 | .activating => 4
  | .active => 5 | .running => 6 | .held => 7 | .restoring => 8 | .releasing => 9

/-- GLB_JOB_STATE. -/
def State.jobWord (s : State) : W64 :=
  let j := s.job
  let f : Bool × Bool := match j.charter with
    | some c => (c.twin && j.locked, c.sealed && j.locked)
    | none => (false, false)
  put (jobCode j.state) 60 ||| put j.lastStatus.toNat 16 ||| putB f.1 9 ||| putB f.2 8 |||
  putB s.ckpt.drain.isSome 7 ||| putB j.pendCkpt.isSome 6 ||| putB j.pendPause.isSome 5 |||
  putB j.pendSwitch.isSome 4 ||| put j.plane.val 3

/-- The job has a sealed charter, staged or active. -/
def State.sealedJob (s : State) : Bool :=
  match s.job.charter with
  | some c => c.sealed
  | none => false

/-- GLB_PAIR (R443). -/
def State.pairWord (s : State) : W64 :=
  putB s.ckpt.pairValid 63 ||| putB s.glb.pairPos 16 ||| put s.ckpt.twin.toNat 0

/-! ### Random draws and the nonce (R452) -/

/-- The next 256 bits of the random bit generator. -/
def State.random (s : State) : Dig256 × State :=
  (Config.rng s.sec.draws, s.modSec fun x => { x with draws := x.draws + 1 })

/-- A nonce draw: the head of the moment, role numbers to zero, the epoch higher by one. -/
def State.drawNonce (s : State) : State :=
  let (n, s) := s.random
  s.modSec fun x => { x with
    nonce := n, nonceHead := x.dbHead, nonceEpoch := wrapAdd x.nonceEpoch 1, seqM := 0, seqI := 0, seqO := 0 }

/-! ### Measurement (R461) -/

/-- MR 0 MR_BOOT, 1 MR_CFG, 2 MR_JOB: extended, with a log entry where the log keeps a place. -/
def State.measure (s : State) (mr : Byte) (kind : Byte) (version : W64) (digest : Dig512) : State :=
  s.modSec fun x =>
    let ext (m : Dig512) : Dig512 := Config.sha3_512 (toBytes m 64 ++ toBytes digest 64)
    let full := mr == 1 && decide (253 ≤ (x.mlog.filter fun e => e.mr == 1).length)
    { x with
      extends_ := wrapAdd x.extends_ 1
      mrBoot := if mr == 0 then ext x.mrBoot else x.mrBoot
      mrCfg := if mr == 1 then ext x.mrCfg else x.mrCfg
      mrJob := if mr == 2 then ext x.mrJob else x.mrJob
      mlogFull := x.mlogFull || full
      mlog := if full then x.mlog
        else x.mlog ++ [{ kind := kind, mr := mr, boot := x.boot, version := version, digest := digest }] }

/-- MR_JOB and its entries cleared when the job reaches EMPTY. -/
def State.clearMrJob (s : State) : State :=
  s.modSec fun x => { x with mrJob := 0, mlog := x.mlog.filter fun e => e.mr != 2 }

/-! ### Command entries and tokens (R349, R453, R454) -/

/-- CMD_DIGEST: the entry with TOKEN_LEN and TOKEN_ADDR zero. -/
def cmdDigest (c : Cmd) (opc : Byte) : Dig512 :=
  Config.sha3_512 <|
    toBytes (put opc.toNat 56 ||| put c.tag.toNat 32) 8 ++ List.replicate 8 0 ++ toBytes c.arg0 8 ++ toBytes c.arg1 8 ++
    toBytes c.arg2 8 ++ toBytes c.arg3 8 ++ toBytes c.arg4 8 ++ toBytes c.arg5 8

/-- The key hash that a role's tokens verify under. -/
def SecSt.keyOf (x : SecSt) (role : Byte) : Option Dig512 :=
  if role = 0 then some Config.makerKeyHash
  else if role = 1 then x.keyI
  else if role = 2 then x.keyO
  else none

def SecSt.seqOf (x : SecSt) (role : Byte) : W64 :=
  if role = 0 then x.seqM else if role = 1 then x.seqI else x.seqO

/-- A payload's bytes, of the length that the entry gives (R352). -/
def payloadOf (c : Cmd) : List Byte := c.payload.take (fld c.arg0 31 0)

/-- The first installer key signs its own enrolment, over the management network or SMBus only (R450). -/
def SecSt.firstKey (x : SecSt) (opc : Byte) (c : Cmd) : Option Dig512 :=
  match c.src with
  | .ring _ => none
  | _ => if opc = 0x23 ∧ x.keyI = none ∧ fld c.arg0 39 32 = 1 then some (Config.sha3_512 (payloadOf c)) else none

/-- The role of a token that passes the checks of R454 in their order. After a store that failed authentication only first enrolment
is accepted (R447). -/
def SecSt.tokenCheck (x : SecSt) (opc : Byte) (c : Cmd) (roles : List Byte) : Option Byte :=
  let t := c.token
  let role := rdW 8 t 6
  let key := match x.firstKey opc c with
    | some k => if role = 1 then some k else x.keyOf role
    | none => x.keyOf role
  if x.storeFail = true ∧ (x.firstKey opc c).isNone = true then none
  else if c.tokenLen = 5120 ∧ rdNat t 0 4 = 0x5A43544B ∧ rdNat t 4 2 = 1 ∧ roles.contains role = true then
    match key with
    | none => none
    | some k =>
      if rdW 256 t 0x10 = x.nonce ∧ rdW 512 t 0x30 = x.nonceHead ∧ (x.seqOf role).toNat < rdNat t 8 8 ∧
          rdW 8 t 7 = opc ∧ rdW 512 t 0x70 = cmdDigest c opc ∧
          mlDsaOk k (Config.sha3_512 (slice t 0 0x100)) (slice t 0x100 4627) = true then some role
      else none
  else none

/-- A token that passes sets its role's last accepted number. -/
def State.takeToken (s : State) (role : Byte) (c : Cmd) : State :=
  let n : W64 := rdW 64 c.token 8
  s.modSec fun x =>
    if role = 0 then { x with seqM := n } else if role = 1 then { x with seqI := n } else { x with seqO := n }

/-- What the evaluation of a command gives: a status with RESULT and the entry's TARGET, or none where the completion
comes later; the state; and what follows the day-book entry. -/
structure CmdOut where
  st : Option Status
  /-- the evaluation has ended, though the completion may come later -/
  ended : Bool
  res : W64
  target : W64
  s : State
  after : State → State

def cmdDone (st : Status) (s : State) : CmdOut := { st := some st, ended := true, res := 0, target := 0, s := s, after := id }

/-- Accepted: what the command asks for comes at a boundary, or at the end of a chain. -/
def cmdLater (s : State) : CmdOut := { st := none, ended := true, res := 0, target := 0, s := s, after := id }

/-- Under way: the evaluation ends with the job's next state (R457, R492). -/
def cmdBusy (s : State) : CmdOut := { st := none, ended := false, res := 0, target := 0, s := s, after := id }

/-- ROLE of the token that a command carries, as its entry records it (R456). -/
def tokenRole (c : Cmd) : Byte :=
  if c.token.length < 7 ∨ 2 < rdNat c.token 6 1 then roleNone else rdW 8 c.token 6

def State.pendOf (s : State) (opc : Byte) (c : Cmd) : PendCmd :=
  { src := c.src, tag := c.tag, opc := opc
    gen := match c.src with
      | .ring r => s.host.rings[r.val].gen
      | _ => 0
    role := tokenRole c, digest := cmdDigest c opc }

/-- The bursar takes no command: it is in reset (R492), the module is not READY (step 11, R494), or a reset that PWR_RESET asked for is
due (R487). -/
def State.noBursar (s : State) : Bool := !s.glb.bursarUp || !s.glb.ready || s.glb.resetDue != 0

/-- The command under way completes: its evaluation ends, so its entry is made (R457). -/
def State.busyDone (s : State) (st : Status) : State :=
  match s.job.busy with
  | none => s
  | some p =>
    ((s.modJob fun j => { j with busy := none }).dbAppend dbCommand p.role (srcCode p.src) st p.opc 0 p.digest).complete p st 0

/-- A ring command that has been taken reserves a completion slot until it completes (R353). -/
def State.reserve (s : State) (src : CmdSrc) : State :=
  match src with
  | .ring r => s.modRing r fun x => { x with taken := x.taken + 1 }
  | _ => s

/-- A command that needs a token: checked (R454), evaluated, entered in the day book once its evaluation has ended (R457), completed
(R354). While
the bursar is in reset it waits (R492). -/
def State.command (s : State) (opc : Byte) (roles : List Byte) (c : Cmd) (body : PendCmd → Byte → State → CmdOut) :
    State :=
  if s.noBursar then s
  else
    let p := s.pendOf opc c
    let s := s.reserve c.src
    match s.sec.tokenCheck opc c roles with
    | none =>
      let s := s.modSec fun x => { x with deniedToken := satAdd x.deniedToken 1 }
      let s := s.dbAppend dbCommand (tokenRole c) (srcCode c.src) .denied opc 0 (cmdDigest c opc)
      s.complete p .denied 0
    | some role =>
      let o := body p role (s.takeToken role c)
      let t := if o.ended
        then o.s.dbAppend dbCommand role (srcCode c.src) (o.st.getD .ok) opc o.target (cmdDigest c opc) else o.s
      let t := o.after t
      match o.st with
      | some st => t.complete p st o.res
      | none => t

/-- A command that needs no token (R349); one that carries a token is still entered in the day book (R457). -/
def State.freeCommand (s : State) (opc : Byte) (c : Cmd) (body : State → Status × W64 × State) : State :=
  if s.noBursar then s
  else
    let p := s.pendOf opc c
    let (st, res, t) := body (s.reserve c.src)
    let t := if c.tokenLen = 0 then t
      else t.dbAppend dbCommand (tokenRole c) (srcCode c.src) st opc 0 (cmdDigest c opc)
    t.complete p st res

/-! ### Payloads (R352) -/

def argDigest (c : Cmd) : Dig256 := c.arg5 ++ c.arg4 ++ c.arg3 ++ c.arg2

/-- The address of a payload: host memory, or after the token on the path of R455. -/
def payloadSpace (a : W64) (src : CmdSrc) : Bool :=
  match src with
  | .ring _ => fld a 63 60 == 4
  | _ => fld a 63 60 == 4 || fld a 63 60 == 0xF

/-- A payload command: length, first digest, the command's own check, second digest, then its effect; `short` is the
effect of a second read that fails. -/
def payloadRun (c : Cmd) (limit : Nat) (s : State) (check : Option Status) (short : State → State)
    (effect : State → CmdOut) : CmdOut :=
  let len := fld c.arg0 31 0
  if len = 0 ∨ limit < len ∨ payloadSpace c.arg1 c.src = false then cmdDone .stateConflict s
  else if Config.sha3_256 (c.payload.take len) ≠ argDigest c ∨ c.payload.length < len then cmdDone .denied s
  else
    match check with
    | some st => cmdDone st s
    | none =>
      if Config.sha3_256 (c.payload2.take len) ≠ argDigest c ∨ c.payload2.length < len then
        cmdDone .hallmarkFail (short s)
      else effect s

/-- The signature of the block of R32 at the end of an image. -/
def imageSigned (key : Dig512) (img : List Byte) : Bool :=
  let n := img.length - 8192
  let blk := img.drop n
  decide (8192 ≤ img.length) && rdNat blk 0 4 == 0x87 && allZero (blk.drop 0x1217) &&
  mlDsaOk key (Config.sha3_512 (img.take n)) (slice blk 4 4627)

/-- The checks of an assay image (R397, R398). -/
def State.assayOk (s : State) (img : List Byte) : Bool :=
  let key := match rdNat img 6 1 with
    | 0 => some Config.makerKeyHash
    | 1 => s.sec.keyI
    | _ => none
  rdNat img 0 4 == 0x5A434153 && rdNat img 4 2 == 1 && rdNat img 0x10 4 == img.length &&
  (match key with
    | some k => imageSigned k img
    | none => false)

/-- ASSAY_LOAD: an image that passes replaces the stored one and is measured. -/
def assayLoad (c : Cmd) (s : State) : State :=
  s.command 0x21 [0, 1] c fun _ _ s =>
    let img := payloadOf c
    payloadRun c 1048576 s (if s.assayOk img then none else some .denied) id fun s =>
      let s := s.modInt fun x => { x with
        assay := some { image := img, id := rdW 64 img 8, units := rdW 8 img 7, budget := rdW 32 img 0x14 } }
      let s := s.modAllEng fun x => { x with int := { x.int with assayPos := 0, assaySpent := 0 } }
      cmdDone .ok (s.measure 1 4 (rdW 64 img 8) (Config.sha3_512 (img.take (img.length - 8192))))

def execAssayLoad (c : Cmd) (s : State) : Res := .next (assayLoad c s)

/-- KEY_ENROL (R450). -/
def keyEnrol (c : Cmd) (s : State) : State :=
  s.command 0x23 [1] c fun _ _ s =>
    let role := fld c.arg0 39 32
    let check := if role = 1 then none
      else if role = 2 then (if s.job.state = .empty then none else some .stateConflict)
      else some .stateConflict
    payloadRun c 2592 s check id fun s =>
      let k := Config.sha3_512 (payloadOf c)
      let s := s.modSec fun x =>
        if role = 1 then { x with keyI := some k, store := { x.store with keyI := some k } }
        else { x with keyO := some k, store := { x.store with keyO := some k } }
      { cmdDone .ok s with after := State.drawNonce }

def execKeyEnrol (c : Cmd) (s : State) : Res := .next (keyEnrol c s)

/-- FUSE_MAP_LOAD: a maker-signed map not older than the installed one, for the next module reset. -/
def fuseMapLoad (c : Cmd) (s : State) : State :=
  s.command 0x24 [1] c fun _ _ s =>
    let m := payloadOf c
    let old := if s.sec.store.fuseMap = [] then 0 else Config.fuseMapVersion s.sec.store.fuseMap
    payloadRun c 1048576 s
      (if Config.fuseMapSigned m = true ∧ old.toNat ≤ (Config.fuseMapVersion m).toNat then none else some .denied) id
      fun s => cmdDone .ok (s.modSec fun x => { x with store := { x.store with fuseMap := m } })

def execFuseMapLoad (c : Cmd) (s : State) : Res := .next (fuseMapLoad c s)

/-- An image is accepted when it passes R460. -/
def State.fwOk (s : State) (img : List Byte) : Bool :=
  fwSignedOk img && decide (s.sec.floor.toNat ≤ (Config.fwSecVersion img).toNat)

/-- FW_WRITE: a second read that fails leaves the flash without a valid image. -/
def fwWrite (c : Cmd) (s : State) : State :=
  s.command 0x25 [1] c fun _ _ s =>
    payloadRun c 16777216 s (if s.fwOk (payloadOf c) then none else some .denied)
      (fun s => s.modSec fun x => { x with flash := none })
      fun s => cmdDone .ok (s.modSec fun x => { x with flash := some (payloadOf c) })

def execFwWrite (c : Cmd) (s : State) : Res := .next (fwWrite c s)

/-- Every engine's SRAM zeroised (R451, R489). -/
def Engine.zeroSram (e : Engine) : Engine :=
  { e with store := [], acc := [], chk := [], badWords := [], vec := { e.vec with stats := [], vr := [] } }

/-- DECOMMISSION (R451). -/
def decommission (c : Cmd) (s : State) : State :=
  s.command 0x26 [0, 1] c fun _ _ s =>
    if s.job.state ≠ .empty then cmdDone .stateConflict s
    else
      let s := s.zeroAllDram.modAllEng Engine.zeroSram
      let s := s.modSec fun x => { x with
        keyI := none, keyO := none
        store := { x.store with keyI := none, keyO := none, moduleId := 0 } }
      { cmdDone .ok s with after := State.drawNonce }

def execDecommission (c : Cmd) (s : State) : Res := .next (decommission c s)

/-- SVN_COMMIT: the floor rises to the running image's security version. -/
def svnCommit (c : Cmd) (s : State) : State :=
  s.command 0x27 [1] c fun _ _ s =>
    cmdDone .ok (s.modSec fun x => { x with floor := if x.floor.toNat < x.fwSecVer.toNat then x.fwSecVer else x.floor })

def execSvnCommit (c : Cmd) (s : State) : Res := .next (svnCommit c s)

/-- CERT_INSTALL: a maker token installs the device certificate. -/
def certInstall (c : Cmd) (s : State) : State :=
  s.command 0x28 [0] c fun _ _ s =>
    payloadRun c 8192 s none id fun s =>
      cmdDone .ok (s.modSec fun x => { x with store := { x.store with cert := payloadOf c } })

def execCertInstall (c : Cmd) (s : State) : Res := .next (certInstall c s)

/-! ### Reports (R462, R463) -/

def pad (bs : List Byte) (n : Nat) : List Byte := (bs ++ List.replicate (n - bs.length) 0).take n

def optDigest (d : Option Dig512) : Dig512 := d.getD 0

/-- Bytes 0x0000 to 0x09FF of a report. -/
def State.reportBody (s : State) (nonce : Dig256) : List Byte :=
  let x := s.sec
  let ch := s.job.charter
  let flags : Byte := match ch with
    | some c => (if c.sealed then 1 else 0) ||| (if c.twin then 2 else 0)
    | none => 0
  let jset : Dig512 := match ch with
    | some c => c.jobSetDigest
    | none => 0
  pad (toBytes (0x5A43_4154 : W32) 4 ++ toBytes (1 : W16) 2 ++ toBytes x.store.moduleId 2 ++
    toBytes Config.serial 16 ++ toBytes x.boot 4 ++ [BitVec.ofNat 8 (jobCode s.job.state), flags] ++
    toBytes x.fwSecVer 2 ++ toBytes x.fwVer 8 ++ toBytes x.mapVer 2 ++
    toBytes (BitVec.ofNat 16 ((fld s.pairWord 15 0) ||| (if s.ckpt.pairValid then 0x8000 else 0))) 2 ++
    List.replicate 4 0 ++ toBytes nonce 32 ++ toBytes x.mrBoot 64 ++ toBytes x.mrCfg 64 ++ toBytes x.mrJob 64 ++
    toBytes s.job.digest 64 ++ toBytes jset 64 ++ toBytes s.job.jobId 8 ++ toBytes x.dbSeq 8 ++ toBytes x.dbHead 64 ++
    toBytes (optDigest x.keyI) 64 ++ toBytes (optDigest x.keyO) 64 ++ List.replicate 32 0 ++
    sealPublic) 0xA00

/-- A report with its signature block, 10,752 bytes. -/
def State.report (s : State) (nonce : Dig256) : List Byte :=
  let b := s.reportBody nonce
  b ++ pad (toBytes (0x87 : W32) 4 ++ deviceSign (Config.sha3_512 b)) 8192

/-- REPORT: the report goes to the host buffer of ARG4. -/
def reportCmd (c : Cmd) (s : State) : State :=
  s.freeCommand 0x29 c fun s =>
    (.ok, 0, s.emit (.hostWrite c.arg4 (s.report (c.arg3 ++ c.arg2 ++ c.arg1 ++ c.arg0))))

def execReport (c : Cmd) (s : State) : Res := .next (reportCmd c s)

/-! ### DOE (R358, R464) -/

/-- IDE keys derived from a ciphertext and the host's nonce, with KEY_CONFIRM. -/
def State.ideKem (s : State) (ct : List Byte) (nonce : Dig256) : List Byte × State :=
  let k := Config.sha3_512 (toBytes (kemDecap ct) 32 ++ toBytes nonce 32 ++ [0x5A, 0x43, 0x2D, 0x49, 0x44, 0x45])
  let confirm := Config.sha3_256 (toBytes k 64 ++ [0x63, 0x6F, 0x6E, 0x66, 0x69, 0x72, 0x6D])
  (toBytes confirm 32,
    (s.modSec fun x => { x with ideKeys := some k }).modHost fun h => { h with ideActive := true })

/-- The device's certificate chain, leaf first. -/
def State.certChain (s : State) : List Byte := certFrame (s.sec.store.cert :: Config.issuerCerts s.sec.store.cert)

/-- The object types that the mailbox supports, in the order of their index: the discovery type of the PCIe specification and the
Zhosan one (R358). -/
def doeTypes : List (W16 × Byte) := [(0x0001, 0x00), (0x1F3A, 0x01)]

/-- The answer to a discovery request: vendor identifier and type at the index, and the next index, 0 after the last; all ones for
vendor where there is none (log entry 190). -/
def doeDiscovery (index : Byte) : List Byte :=
  let t := doeTypes.getD index.toNat (0xFFFF, 0)
  let next : Byte := if index.toNat + 1 < doeTypes.length then index + 1 else 0
  toBytes t.1 2 ++ [t.2, next]

/-- The answer to a DOE request. -/
def State.doeAnswer (s : State) (q : DoeReq) : List Byte × State :=
  match q with
  | .discovery i => (doeDiscovery i, s)
  | .report n => (s.report n, s)
  | .certs => (s.certChain, s)
  | .ideKem ct n => s.ideKem ct n

/-- An object at the DOE mailbox: answered, or held while the bursar is in reset; one more then sets the Error bit. An object of
another type or code gets no answer. -/
def State.doeRequest (s : State) (o : DoeObj) : State :=
  match doeParse o with
  | none => s
  | some q =>
    if s.glb.bursarUp then
      let (b, s) := s.doeAnswer q
      s.emit (.doe { o with body := b })
    else
      match s.sec.doeWait with
      | none => s.modSec fun x => { x with doeWait := some o }
      | some _ => s.modSec fun x => { x with doeError := true }

def execGetReport (o : DoeObj) (s : State) : Res := .next (s.doeRequest o)
def execGetCerts (o : DoeObj) (s : State) : Res := .next (s.doeRequest o)
def execIdeKem (o : DoeObj) (s : State) : Res := .next (s.doeRequest o)

end Sys2Proof.Machine
end

