-- ==== Sys2Proof/Machine/Operands.lean ====
section
/-! DEFINITION. Operands: the charter in force at an engine, element packing, streaming rows and panels, accumulator
words, relocation of till slots (03 R74, R79, R121; 05 R131, R145; 06 R161; 07 R203). -/

namespace Sys2Proof.Machine

/-! ### The charter in force -/

def Denom.undefined : Denom :=
  { kind := 0, expBits := 0, manBits := 0, bias := 0, block := 0, specials := 0, ieee := false, stoch := false }

def State.denom (s : State) (code : Nat) : Denom :=
  match s.job.charter with
  | some c => c.denom.getD code Denom.undefined
  | none => Denom.undefined

/-- OVERFLOW IEEE of entries 6 and 7 (R119). -/
def State.fp32 (s : State) : Denom := dFp32 (s.denom 6).ieee
def State.fp64 (s : State) : Denom := dFp64 (s.denom 7).ieee

def State.layers (s : State) : Layers :=
  match s.planeCfg with
  | some p => p.layers
  | none => { descs := [], tds := [], instrs := [] }

def State.layer (s : State) (l : Nat) : Option LayerDesc := s.layers.descs[l]?

def State.tillCfg (s : State) (e t : Nat) : Option TillEnd :=
  match s.planeCfg with
  | some p => p.tills.find? fun x => x.engine == e && x.till == t
  | none => none

def State.engMap (s : State) (e : Nat) : Option EngMap :=
  match s.planeCfg with
  | some p => p.engMap[e]?
  | none => none

/-- The schedule table of an engine in the active plane. -/
def State.table (s : State) (e : EngineId) : Option SchedTable :=
  if s.job.plane = 0 then s.eng[e.val].table0 else s.eng[e.val].table1

/-- The engines of ROLE 1. -/
def State.stages (s : State) : List EngineId :=
  (List.finRange 128).filter fun e => match s.engMap e.val with
    | some m => m.role == 1
    | none => false

/-- The SHARDS section. -/
def State.shardsSec (s : State) : Option Shards := s.job.charter.map (·.shards)

def State.homeRec (s : State) (e param : Nat) : Option HomeRec :=
  match s.shardsSec with
  | some x => x.homes.find? fun h => h.engine == e && h.paramId == param
  | none => none

/-! ### The loss scale (R234, R237) -/

/-- e of a step: the current one, or one of the last steps. -/
def State.expAt (s : State) (step : StepNo) : Int := lookupD s.upd.hist step s.upd.exp

/-- The exponent that aligns a gradient of an origin step with the current step. -/
def State.alignExp (s : State) (origin : StepNo) : Int := s.expAt s.curStep - s.expAt origin

/-! ### Packed elements (R74, R104) -/

def ceilDiv (a b : Nat) : Nat := (a + b - 1) / b
def up64 (a : Nat) : Nat := ceilDiv a 64 * 64

/-- n bits at a bit offset above a byte address. -/
def bitsAt (m : Mem) (base off n : Nat) : Nat :=
  ofBytes (memRead m (base + off / 8) ((off % 8 + n + 7) / 8)) >>> (off % 8) % 2 ^ n

/-- n bits written at a bit offset above a byte address. -/
def putBits (m : Mem) (base off n v : Nat) : Mem :=
  let k := (off % 8 + n + 7) / 8
  let a := base + off / 8
  let old := ofBytes (memRead m a k)
  let sh := off % 8
  let new := old - (old >>> sh % 2 ^ n) <<< sh + (v % 2 ^ n) <<< sh
  memWrite m a (toBytes (BitVec.ofNat (8 * k) new) k)

/-- An element's code, its unused high bits ignored. -/
def elemCode (d : Denom) (m : Mem) (base i : Nat) : Nat :=
  bitsAt m base (i * d.storeBits) d.storeBits % 2 ^ d.bits

/-- An element with the exponent of its block scale; every element of a block of scale 0xFF is NaN (R105). -/
abbrev Elem := Num × Int

def scaled (x : Num) (scale : Byte) : Elem :=
  match scaleExp scale with
  | some e => (x, e)
  | none => (.nan, 0)

/-- Bytes of a streaming row: elements, block scales, to a 64-byte boundary. -/
def rowBytes (d : Denom) (cols : Nat) : Nat :=
  up64 (ceilDiv (cols * d.storeBits) 8 + (if d.block = 0 then 0 else ceilDiv cols d.block))

/-- Element k of a row at an address, cols elements long. -/
def rowElem (d : Denom) (m : Mem) (row cols k : Nat) : Elem :=
  let x := d.decode (elemCode d m row k)
  if d.block = 0 then (x, 0)
  else scaled x (memGet m (row + ceilDiv (cols * d.storeBits) 8 + k / d.block))

/-- Element k of row r of a streaming operand. -/
def streamElem (d : Denom) (m : Mem) (base cols r k : Nat) : Elem :=
  rowElem d m (base + r * rowBytes d cols) cols k

/-- Bytes of a panel of n rows: 64 elements a row, then 64 scale bytes a scaling block. -/
def panelBytes (d : Denom) (n : Nat) : Nat :=
  up64 (n * 8 * d.storeBits + (if d.block = 0 then 0 else ceilDiv n d.block * 64))

/-- The address of the panel of K block b and N block j of a K × N matrix. -/
def panelAddr (d : Denom) (base kTot b j : Nat) : Nat :=
  let kb := ceilDiv kTot 256
  let full := panelBytes d 256
  let col := (kb - 1) * full + panelBytes d (kTot - (kb - 1) * 256)
  base + j * col + b * full

/-- Bytes of the panels of a K × N matrix in column blocks of nw. -/
def panelsBytes (d : Denom) (kTot nTot nw : Nat) : Nat := panelAddr d 0 kTot 0 (ceilDiv nTot nw)

/-- Element (k, n) of a matrix in panels. -/
def panelElem (d : Denom) (m : Mem) (base kTot nw k n : Nat) : Elem :=
  let b := k / 256
  let a := panelAddr d base kTot b (n / nw)
  let rows := min 256 (kTot - b * 256)
  let x := d.decode (bitsAt m a ((k % 256 * 64 + n % nw) * d.storeBits) d.storeBits % 2 ^ d.bits)
  if d.block = 0 then (x, 0)
  else scaled x (memGet m (a + rows * 8 * d.storeBits + k % 256 / d.block * 64 + n % nw))

/-! ### Accumulator and checksum store (R79, R121) -/

def accAddr (row col : Nat) : Nat := (row * 64 + col) * 4
def accGet (m : Mem) (row col : Nat) : W32 := memW m 32 (accAddr row col)
def accSet (m : Mem) (row col : Nat) (w : W32) : Mem := memWrite m (accAddr row col) (toBytes w 4)
/-- An FP64 value: columns 0 to 31 in the first row of the pair, 32 to 63 in the second. -/
def acc64Addr (row col : Nat) : Nat := row * 256 + col * 8
def acc64Get (m : Mem) (row col : Nat) : W64 := memW m 64 (acc64Addr row col)
def acc64Set (m : Mem) (row col : Nat) (w : W64) : Mem := memWrite m (acc64Addr row col) (toBytes w 8)

/-! ### Float entries and relocation (R203, R206) -/

/-- The oldest float entry of a micro-batch. -/
def Engine.entry (e : Engine) (mb : W16) : Option FloatEntry := e.float.find? fun x => x.mb == mb

/-- A message held at an IN end. -/
def TillSt.msg (t : TillSt) (n : W32) : Option MsgIn := t.msgs.find? fun m => m.seqNo == n

/-- An operand or tensor address relocated into the ring slot that holds the claimed message. -/
def State.reloc (s : State) (e : EngineId) (f : Option FloatEntry) (addr : Nat) : Nat :=
  match f with
  | none => addr
  | some f =>
    let shift := f.claims.findSome? fun (c : Nat × W32) =>
      match s.tillCfg e.val c.1 with
      | none => none
      | some t =>
        if t.addr ≤ addr ∧ addr < t.addr + t.msgBytes then
          match (s.eng[e.val].tills.toList.getD c.1 TillSt.init).msg c.2 with
          | some m => m.slot.map fun k => k * t.msgBytes
          | none => none
        else none
    addr + shift.getD 0

/-! ### Tensor descriptors of a layer (R159, R161, R162) -/

def Layers.td (ls : Layers) (d : LayerDesc) (slot : Nat) : Option TensorDesc := ls.tds[d.tdBase + slot]?
def State.td (s : State) (d : LayerDesc) (slot : Nat) : Option TensorDesc := s.layers.td d slot

def opcOf (w : W64) : Nat := fld w 63 56
def slotOf (w : W64) : Nat := fld w 43 40

/-- The instructions of a program. -/
def Layers.program (ls : Layers) (first len : Nat) : List W64 := (ls.instrs.drop first).take len
def State.program (s : State) (first len : Nat) : List W64 := s.layers.program first len

/-- The descriptor of a program's last store that a filter keeps. -/
def Layers.lastStore (ls : Layers) (d : LayerDesc) (first len : Nat) (keep : TensorDesc → Bool) : Option TensorDesc :=
  ((ls.program first len).reverse.filterMap fun w => if opcOf w = 0x39 then ls.td d (slotOf w) else none).find? keep

/-- What a layer makes of its incoming gradient before its arrays read it: its prologue's store, else the row engine's
output (R170). -/
def Layers.ownGrad (ls : Layers) (d : LayerDesc) : Option TensorDesc :=
  match ls.lastStore d d.preProg d.preLen (fun t => t.kind == 1) with
  | some t => some t
  | none => if d.rowOp ≠ 0 then ls.td d 12 else none

/-- The place of the gradient that an array layer has stored for the layer below: its epilogue's last ONLY_DX store, else its
last store of dX tiles. -/
def Layers.gradOut (ls : Layers) (u : LayerDesc) : Nat :=
  match ls.lastStore u u.postProg u.postLen (fun t => t.onlyDx) with
  | some t => t.addr
  | none =>
    match ls.lastStore u u.postProg u.postLen (fun t => t.kind == 1 && !t.onlyAct) with
    | some t => t.addr
    | none => u.xAddr

/-- Where the gradient lies that comes to layer l from the n layers above it, through layers that store none; none where it
lies in the till (R154). -/
def Layers.gradIn (ls : Layers) : Nat → Nat → Option Nat
  | 0, _ => none
  | n + 1, l =>
    match ls.descs[l + 1]? with
    | none => none
    | some u =>
      if u.arrKind ≠ 0 then some (ls.gradOut u)
      else match ls.ownGrad u with
        | some t => some t.addr
        | none => ls.gradIn n (l + 1)

/-- The denomination code of dY of layer l in a BWD row whose greatest layer is top: that of its prologue's or row engine's
own output (R170), else DEN_GRAD of the layer above (R154); none where it is the till's. -/
def Layers.gradCode (ls : Layers) (top l : Nat) (d : LayerDesc) : Option Nat :=
  match ls.ownGrad d with
  | some t => some t.den
  | none => if l < top then (ls.descs[l + 1]?).map (·.denGrad) else none

/-- The address of that dY; none where it lies in the till. -/
def Layers.gradAddr (ls : Layers) (top l : Nat) (d : LayerDesc) : Option Nat :=
  match ls.ownGrad d with
  | some t => some t.addr
  | none => ls.gradIn (top - l) l

/-- Where a layer's dY lies before any message's slot shifts it, and in which denomination code (R129, R154, R170). The
till's gradient has no field that names either: the model takes DEN_GRAD of the layer and the place of the message claimed
last, or X_ADDR (log entry 21). -/
def State.gradBase (s : State) (e : EngineId) (f : Option FloatEntry) (l : Nat) (d : LayerDesc) (top : Nat) : Nat × Nat :=
  ((s.layers.gradCode top l d).getD d.denGrad,
    match s.layers.gradAddr top l d with
    | some a => a
    | none =>
      match (f.bind fun f => f.claims.head?).bind fun c => s.tillCfg e.val c.1 with
      | some t => t.addr
      | none => d.xAddr)

/-- Denomination code and stage-store place of a layer's dY for a float entry. -/
def State.gradSrc (s : State) (e : EngineId) (f : Option FloatEntry) (l : Nat) (d : LayerDesc) (top : Nat) : Nat × Nat :=
  let g := s.gradBase e f l d top
  (g.1, s.reloc e f g.2)

/-! ### SRAM words (R264) -/

def regionsMeet (a b : Nat × Nat) : Bool := decide (a.1 < b.1 + b.2) && decide (b.1 < a.1 + a.2)

/-- Bad words of an SRAM that byte ranges touch, in the order of the ranges: STORE code and byte offset. -/
def Engine.badAt (e : Engine) (store : Fin 4) (rs : List (Nat × Nat)) : List (Fin 4 × Nat) :=
  if e.badWords.isEmpty then []
  else rs.flatMap fun r => ((e.badWords.filter fun w => w.1 == store && regionsMeet (w.2 * 8, 8) r).map fun w =>
    (w.1, w.2 * 8)).mergeSort fun x y => decide (x.2 ≤ y.2)

/-- Uncorrectable words that a read meets, in the order in which it reads them (R279): range by range, each of one SRAM, by
address within one; those found now stand among those that the SRAM holds. -/
def Engine.readBad (e : Engine) (rs : List (Fin 4 × Nat × Nat)) (met : List (Fin 4 × Nat)) : List (Fin 4 × Nat) :=
  if e.badWords.isEmpty then met
  else
    ((rs.flatMap fun r =>
      (e.badAt r.1 [r.2] ++ met.filter fun w => w.1 == r.1 && regionsMeet (w.2 / 8 * 8, 8) r.2).mergeSort
        fun x y => decide (x.2 ≤ y.2)) ++ met).eraseDups

/-- Ranges of the stage store. -/
def inStore (rs : List (Nat × Nat)) : List (Fin 4 × Nat × Nat) := rs.map fun r => (0, r)

/-- The words that a write covers whole are sound again. -/
def Engine.heal (e : Engine) (store : Fin 4) (a n : Nat) : Engine :=
  { e with badWords := e.badWords.filter fun w => !(w.1 == store && decide (a ≤ w.2 * 8) && decide (w.2 * 8 + 8 ≤ a + n)) }

/-- Bad words that a write covers in part. -/
def Engine.partBad (e : Engine) (store : Fin 4) (a n : Nat) : List (Fin 4 × Nat) :=
  (e.badAt store [(a, n)]).filter fun w => decide (w.2 < a) || decide (a + n < w.2 + 8)

/-- Bytes written to the stage store: a bad word covered in part keeps what it holds. -/
def Engine.putStore (e : Engine) (a : Nat) (bs : List Byte) : Engine :=
  let keep := e.partBad 0 a bs.length
  let e' := { e with store := keep.foldl (fun (m : Mem) (w : Fin 4 × Nat) => memWrite m w.2 (memRead e.store w.2 8)) (memWrite e.store a bs) }
  e'.heal 0 a bs.length

def State.putStore (s : State) (e : EngineId) (a : Nat) (bs : List Byte) : State := s.modEng e fun x => x.putStore a bs

end Sys2Proof.Machine
end

