-- ==== Sys2Proof/Machine/Arrays.lean ====
section
/-! DEFINITION. Matrix arrays: products, sums and their checksum column, tile order, tile close and re-execution (03; 05
R129 to R146; 13 R374, R375). -/

namespace Sys2Proof.Machine

/-! ### Sums of products (R67, R68, R72, R118 to R120) -/

/-- The accumulation format: integers with their limit, or a wide denomination. -/
structure AccFmt where
  int : Bool
  limit : Nat
  d : Denom

def AccFmt.clamp (f : AccFmt) (v : Int) : Out :=
  if v.natAbs ≤ f.limit then { val := numOfInt v, exc := Exc.none }
  else
    { val := numOfInt (if v < 0 then -(f.limit : Int) else f.limit), exc := { inv := false, ovf := true, nan := false } }

def numInt (x : Num) : Int :=
  match x with
  | .fin neg m e => signed neg (m <<< e.toNat)
  | _ => 0

def AccFmt.add (f : AccFmt) (a b : Num) : Out :=
  if f.int then f.clamp (numInt a + numInt b) else f.d.done true (numAdd a b)

/-- A product with an exponent applied to it. -/
def AccFmt.mul (f : AccFmt) (a b : Num) (k : Int) : Out :=
  if f.int then { val := numOfInt (numInt a * numInt b), exc := Exc.none }
  else
    let p := numMul a b
    f.d.done true (numScale p.1 k, p.2)

/-- One level of a pairwise tree; a masked operand passes the other on. -/
def treeLevel (f : AccFmt) : List (Option Num) → List (Option Num) × Exc
  | some a :: some b :: r =>
    let o := f.add a b
    let t := treeLevel f r
    (some o.val :: t.1, o.exc.or t.2)
  | some a :: none :: r =>
    let t := treeLevel f r
    (some a :: t.1, t.2)
  | none :: b :: r =>
    let t := treeLevel f r
    (b :: t.1, t.2)
  | l => (l, Exc.none)

/-- The sum of a group of up to 16 terms: four levels. -/
def treeSum (f : AccFmt) (l : List (Option Num)) : Option Num × Exc :=
  let a := treeLevel f l
  let b := treeLevel f a.1
  let c := treeLevel f b.1
  let d := treeLevel f c.1
  (d.1.headD none, a.2.or (b.2.or (c.2.or d.2)))

/-- A tile's operands: rows and columns of the output, reduction length, and which block scales act on group sums. -/
structure Plan where
  fmt : AccFmt
  dbl : Bool
  rows : Nat
  cols : Nat
  kTot : Nat
  x : Nat → Nat → Elem
  w : Nat → Nat → Elem
  xGroup : Bool
  wGroup : Bool
  denS : Nat
  denW : Nat
  /-- DEN_W is FP64 (R83) -/
  wide64 : Bool
  accRow : Nat
  /-- the slot's contents are added to, and the contributions it holds -/
  keep : Bool
  earlier : Nat
  /-- the stage-store bytes of its operands -/
  regs : List (Nat × Nat)

/-- One group of 16 rows of the reduction added to a running value: products, tree, scale, chain. -/
def groupStep (f : AccFmt) (kTot k0 : Nat) (xr wc : Nat → Elem) (xGroup wGroup : Bool) (acc : Num × Exc) : Num × Exc :=
  if kTot ≤ k0 then acc
  else
    let ps := (List.range 16).map fun i =>
      if k0 + i < kTot then
        let x := xr (k0 + i)
        let w := wc (k0 + i)
        some (f.mul x.1 w.1 ((if xGroup then 0 else x.2) + (if wGroup then 0 else w.2)))
      else none
    let e0 := ps.foldl (fun e p => match p with
      | some o => e.or o.exc
      | none => e) acc.2
    let g := treeSum f (ps.map fun p => p.map (·.val))
    match g.1 with
    | none => acc
    | some v =>
      let sc := (if xGroup then (xr k0).2 else 0) + (if wGroup then (wc k0).2 else 0)
      let o := if f.int then { val := v, exc := Exc.none } else f.d.done true (numScale v sc, false)
      let t := f.add acc.1 o.val
      (t.val, e0.or (g.2.or (o.exc.or t.exc)))

/-- One K block of 256 rows added to a running value. -/
def blockStep (f : AccFmt) (kTot b : Nat) (xr wc : Nat → Elem) (xGroup wGroup : Bool) (acc : Num) : Num × Exc :=
  (List.range 16).foldl (fun a g => groupStep f kTot (b * 256 + g * 16) xr wc xGroup wGroup a) (acc, Exc.none)

/-- All K blocks: the value and the exceptions by K block. -/
def colSum (f : AccFmt) (kTot : Nat) (xr wc : Nat → Elem) (xGroup wGroup : Bool) (acc : Num) : Num × List Exc :=
  (List.range (ceilDiv kTot 256)).foldl (fun a b =>
    let r := blockStep f kTot b xr wc xGroup wGroup a.1
    (r.1, a.2 ++ [r.2])) (acc, [])

def excOf (l : List Exc) : Exc := l.foldl Exc.or Exc.none

/-! ### The checksum column (R83) -/

def Plan.chkFmt (p : Plan) : AccFmt := if p.fmt.int then { p.fmt with limit := 2 ^ 63 - 1 } else p.fmt

/-- The format of c_k and a_k. -/
def Plan.sumFmt (p : Plan) (d32 d64 : Denom) : AccFmt :=
  if p.fmt.int then { int := true, limit := 2 ^ 63 - 1, d := d32 }
  else { int := false, limit := 0, d := if p.wide64 then d64 else d32 }

/-- Stationary values of row k of the reduction after their scales. -/
def Plan.wVals (p : Plan) (f : AccFmt) (k : Nat) : List Num :=
  (List.range p.cols).map fun c =>
    let w := p.w k c
    if f.int then w.1 else (f.d.done true (numScale w.1 w.2, false)).val

/-- A number as a stationary or checksum register holds it: an integer in two's complement, any other in FP64. -/
def AccFmt.code (f : AccFmt) (x : Num) : W64 := if f.int then ofInt 64 (numInt x) else toF64 x

def AccFmt.num (f : AccFmt) (w : W64) : Num := if f.int then numOfInt (toInt 64 w.toNat) else f64 w

/-- A sum in order, from its first term. -/
def sumOrder (f : AccFmt) : List Num → Out
  | [] => { val := .fin false 0 0, exc := Exc.none }
  | a :: r => r.foldl (fun s x =>
      let o := f.add s.val x
      { val := o.val, exc := s.exc.or o.exc }) { val := a, exc := Exc.none }

/-! ### Results of a tile attempt -/

structure TileRes where
  vals : List (List Num)
  excs : List (List (List Exc))
  chk : List (Num × Num × Exc)

/-- The values that a tile's rows have before it, the accumulator's or zero. -/
def Plan.start (p : Plan) (acc : Mem) (r c : Nat) : Num :=
  if p.keep = false then .fin false 0 0
  else if p.fmt.int then numOfInt (toInt 32 (accGet acc (p.accRow + r) c).toNat)
  else if p.dbl then f64 (acc64Get acc (p.accRow + 2 * r) c)
  else f32 (accGet acc (p.accRow + r) c)

/-- Checksum value and magnitude of a row as the checksum store holds them (R79, R83, R121). -/
def Plan.chkStart (p : Plan) (chk : Mem) (r : Nat) : Num × Num :=
  if p.keep = false then (.fin false 0 0, .fin false 0 0)
  else if p.fmt.int then (numOfInt (toInt 64 (memW chk 64 ((p.accRow + r) * 8)).toNat), .fin false 0 0)
  else if p.dbl then
    (f64 (memW chk 64 ((p.accRow + 2 * r) * 8)), f64 (memW chk 64 ((p.accRow + 2 * r + 1) * 8)))
  else (f32 (memW chk 32 ((p.accRow + r) * 8)), f32 (memW chk 32 ((p.accRow + r) * 8 + 4)))

def absElem (x : Elem) : Elem := (numAbs x.1, x.2)

/-- The block of stationary registers that K block b loads: its element values and scales, and the values of the checksum
column that the loader forms row by row (R75, R83). An exception of those additions sets no flag (log entry 138). -/
def Plan.block (p : Plan) (d32 d64 : Denom) (k : TileKey) (b : Nat) : StatBlock :=
  let cf := p.sumFmt d32 d64
  let rows := (List.range (min 256 (p.kTot - b * 256))).map fun r => b * 256 + r
  { layer := k.layer, kb := b, nb := k.j
    elems := rows.flatMap fun r => (List.range p.cols).map fun c => p.fmt.code (p.w r c).1
    scales := rows.flatMap fun r => (List.range p.cols).map fun c => BitVec.ofNat 8 ((p.w r c).2 + 127).toNat
    chk := rows.map fun r =>
      let v := p.wVals cf r
      (cf.code (sumOrder cf v).val, cf.code (sumOrder cf (v.map numAbs)).val) }

/-- The stationary element of K row k and column c, as the active set held it when the row's K block streamed (R76). -/
def Plan.stat (p : Plan) (met : List StatBlock) (k c : Nat) : Elem :=
  match met[k / 256]? with
  | some b =>
    (p.fmt.num (b.elems.getD (k % 256 * p.cols + c) 0), ((b.scales.getD (k % 256 * p.cols + c) 127).toNat : Int) - 127)
  | none => (.fin false 0 0, 0)

/-- c_k and a_k as the checksum column held them. -/
def Plan.statChk (p : Plan) (cf : AccFmt) (met : List StatBlock) (k : Nat) : Num × Num :=
  match (met[k / 256]?).bind fun b => b.chk[k % 256]? with
  | some v => (cf.num v.1, cf.num v.2)
  | none => (.fin false 0 0, .fin false 0 0)

/-- A matrix tile computed from the blocks that its rows met. -/
def Plan.compute (p : Plan) (d32 d64 : Denom) (met : List StatBlock) (acc chk : Mem) : TileRes :=
  let at_ := p.statChk (p.sumFmt d32 d64) met
  let rows := (List.range p.rows).map fun r =>
    (List.range p.cols).map fun c =>
      colSum p.fmt p.kTot (p.x r) (fun k => p.stat met k c) p.xGroup p.wGroup (p.start acc r c)
  let ck := (List.range p.rows).map fun r =>
    let z := colSum p.chkFmt p.kTot (p.x r) (fun k => ((at_ k).1, 0)) p.xGroup true (p.chkStart chk r).1
    let g := if p.fmt.int then (Num.fin false 0 0, [])
      else colSum p.chkFmt p.kTot (fun k => absElem (p.x r k)) (fun k => ((at_ k).2, 0)) p.xGroup true (p.chkStart chk r).2
    (z.1, g.1, (excOf z.2).or (excOf g.2))
  { vals := rows.map fun l => l.map (·.1), excs := rows.map fun l => l.map (·.2), chk := ck }

/-- An element-wise tile computed: one product an element, which overwrites its place, ACC_KEEP or not (R93; log entry
139). -/
def Plan.computeElem (p : Plan) : TileRes :=
  let rows := (List.range p.rows).map fun r => (List.range p.cols).map fun c =>
    let x := p.x r c
    let w := p.w r c
    p.fmt.mul x.1 w.1 (x.2 + w.2)
  { vals := rows.map fun l => l.map (·.val), excs := rows.map fun l => l.map fun o => [o.exc], chk := [] }

/-- The tile's values in the accumulator. -/
def Plan.store (p : Plan) (t : TileRes) (acc : Mem) : Mem :=
  (t.vals.zipIdx).foldl (fun m (row : List Num × Nat) =>
    (row.1.zipIdx).foldl (fun m (v : Num × Nat) =>
      if p.fmt.int then accSet m (p.accRow + row.2) v.2 (ofInt 32 (numInt v.1))
      else if p.dbl then acc64Set m (p.accRow + 2 * row.2) v.2 (toF64 v.1)
      else accSet m (p.accRow + row.2) v.2 (toF32 v.1)) m) acc

def Plan.storeChk (p : Plan) (t : TileRes) (chk : Mem) : Mem :=
  (t.chk.zipIdx).foldl (fun m (v : (Num × Num × Exc) × Nat) =>
    if p.fmt.int then memWrite m ((p.accRow + v.2) * 8) (toBytes (ofInt 64 (numInt v.1.1)) 8)
    else if p.dbl then
      memWrite (memWrite m ((p.accRow + 2 * v.2) * 8) (toBytes (toF64 v.1.1) 8)) ((p.accRow + 2 * v.2 + 1) * 8)
        (toBytes (toF64 v.1.2.1) 8)
    else memWrite (memWrite m ((p.accRow + v.2) * 8) (toBytes (toF32 v.1.1) 4)) ((p.accRow + v.2) * 8 + 4)
        (toBytes (toF32 v.1.2.1) 4)) chk

/-- Physical faults of an attempt upon accumulator words of the tile. -/
def flipAcc (acc : Mem) (accRow : Nat) (fs : List TileFault) : Mem :=
  fs.foldl (fun m f => accSet m (accRow + f.row) f.col (accGet m (accRow + f.row) f.col ^^^ f.flip)) acc

/-! ### The check (R84) -/

def Plan.value (p : Plan) (acc : Mem) (r c : Nat) : Num :=
  ({ p with keep := true } : Plan).start acc r c

/-- The value is a NaN, an infinity or the largest magnitude of the format. -/
def Plan.limitVal (p : Plan) (v : Num) : Bool :=
  match v with
  | .fin _ m e =>
    if p.fmt.int then (numInt v).natAbs == 2 ^ 31 - 1
    else magLe p.fmt.d.maxFin.1 p.fmt.d.maxFin.2 m e
  | _ => true

/-- A row of a matrix tile: it fails, or it is not compared. -/
def Plan.checkRow (p : Plan) (acc chk : Mem) (ovf : Bool) (r : Nat) : Bool × Bool :=
  let vs := (List.range p.cols).map fun c => p.value acc r c
  let f := p.chkFmt
  let s := (sumOrder f vs).val
  let z := (({ p with keep := true } : Plan).chkStart chk r)
  if ovf || p.limitVal s || p.limitVal z.1 || vs.any p.limitVal then (false, true)
  else
    let diff := numAbs (numAdd s (numNeg z.1)).1
    let l := 4 + ceilDiv p.kTot 16 + p.earlier
    let t := if p.fmt.int then Num.fin false 0 0
      else (numMul (.fin false (8 * (l + 64)) (if p.dbl then -53 else -24)) z.2).1
    (numLt t diff, false)

/-- The check of a tile: it fails, and at least one row was not compared. -/
def Plan.check (p : Plan) (t : TileRes) (acc chk : Mem) : Bool × Bool :=
  (t.excs.zipIdx).foldl (fun a (row : List (List Exc) × Nat) =>
    let ovf := row.1.any fun l => (excOf l).ovf
    let c := p.checkRow acc chk ovf row.2
    (a.1 || c.1, a.2 || c.2)) (false, false)

/-! ### Completion records (R95, R97, R138) -/

/-- Counts of a tile's exceptions: elements with each class, and the first invalid (K block, row, column). -/
structure TileExc where
  exc : Exc
  inv : Nat
  ovf : Nat
  nan : Nat
  first : Option (Nat × Nat × Nat)

def lexLt (a b : Nat × Nat × Nat) : Bool :=
  decide (a.1 < b.1) || (a.1 == b.1 && (decide (a.2.1 < b.2.1) || (a.2.1 == b.2.1 && decide (a.2.2 < b.2.2))))

def TileRes.excSum (t : TileRes) : TileExc :=
  (t.excs.zipIdx).foldl (fun a (row : List (List Exc) × Nat) =>
    (row.1.zipIdx).foldl (fun (a : TileExc) (el : List Exc × Nat) =>
      let x := excOf el.1
      let first := match (el.1.zipIdx).find? fun (b : Exc × Nat) => b.1.inv with
        | some (_, b) =>
          match a.first with
          | some f => if lexLt (b, row.2, el.2) f then some (b, row.2, el.2) else some f
          | none => some (b, row.2, el.2)
        | none => a.first
      { exc := a.exc.or x, inv := a.inv + (if x.inv then 1 else 0), ovf := a.ovf + (if x.ovf then 1 else 0)
        nan := a.nan + (if x.nan then 1 else 0), first := first }) a)
    { exc := Exc.none, inv := 0, ovf := 0, nan := 0, first := none }

def tileKindCode : TileKind → Nat
  | .fwd => 0 | .dx => 1 | .dw => 2 | .recomp => 3 | .elem => 4

def arrBit : ArrId → Nat
  | .a => 0 | .b => 1

/-- A completion record of a tile attempt. An element-wise tile, which accumulates no K block, carries KBLOCKS 1 and the
element's column in its block as FIRST_COL (log entry 139). -/
def tileRecord (st : Status) (e : EngineId) (k : TileKey) (p : Plan) (mb : W16) (step : StepNo) (attempt : Nat)
    (x : TileExc) (fail skipped : Bool) : Rec4 where
  w0 := put st.code.toNat 56 ||| put (k.layer % 2 ^ 16) 40 ||| put e.val 33 ||| put (arrBit k.arr) 32 |||
    put mb.toNat 16 ||| put (p.denS % 16) 12 ||| put (p.denW % 16) 8 ||| put (tileKindCode k.kind) 4 |||
    put (attempt % 4) 2
  w1 := put step.toNat 16 ||| put (k.i % 2 ^ 16) 0
  w2 := put (k.j % 2 ^ 14) 50 ||| put (ceilDiv p.kTot 256 % 32) 45 ||| put (p.accRow % 2 ^ 15) 30 |||
    put (p.rows % 2 ^ 13) 17 ||| put (p.cols % 2 ^ 7) 10
  w3 :=
    let f := x.first.getD (0, 0, 0)
    putB x.exc.inv 63 ||| putB x.exc.ovf 62 ||| putB x.exc.nan 61 ||| putB fail 60 ||| putB skipped 59 |||
    put (f.2.1 % 2 ^ 12) 44 ||| put (f.2.2 % 64) 38 ||| put (f.1 % 16) 34 ||| put (min x.ovf 0xFFFF) 16 |||
    put (min x.inv 0xFFFF) 0

/-! ### Tile order (R71, R135, R141) -/

def LayerDesc.fp64 (d : LayerDesc) (s : State) : Bool :=
  (s.denom d.denW).expBits == 11 || (s.denom d.denS).expBits == 11

/-- Columns of an element-wise layer's blocks (log entry 22). -/
def elemCols : Nat := 64

/-- The array of column block j under ARRAY_SEL (R71, R91). -/
def arrSel (sel j : Nat) : ArrId := if sel = 1 ∨ (sel = 2 ∧ j % 2 = 1) then .b else .a

/-- The tiles of a forward or recompute pass over a layer. -/
def fwdTiles (l : Nat) (d : LayerDesc) (kind : TileKind) : List TileKey :=
  let nb := if d.arrKind = 2 then ceilDiv d.k elemCols else ceilDiv d.n d.nw
  let mb := ceilDiv d.m d.mTile
  let kind := if d.arrKind = 2 then TileKind.elem else kind
  let t (i j : Nat) : TileKey := { layer := l, kind := kind, i := i, j := j, chunk := 0, arr := arrSel d.arraySel j }
  if d.mOuter then (List.range mb).flatMap fun i => (List.range nb).map fun j => t i j
  else (List.range nb).flatMap fun j => (List.range mb).map fun i => t i j

/-- A layer forms a weight gradient: PARAM_ID non-zero with ACC_KEEP, or PARAM_ID 0 (R143). -/
def LayerDesc.frozen (d : LayerDesc) : Bool := d.paramId != 0 && !d.accKeep

/-- Column blocks, bands, token blocks and chunk of the backward pass (R135, R141 for TRANSPOSE weight gradients). -/
def bwdChunk (d : LayerDesc) : Nat := if d.paramId = 0 then ceilDiv d.m 256 else min 16 d.accSlots

def chunkStarts (d : LayerDesc) : List Nat :=
  let ch := max 1 (bwdChunk d)
  (List.range (ceilDiv (ceilDiv d.m 256) ch)).map fun c => c * ch

/-- The tiles of a backward pass over a layer, in the order in which they close. An element-wise layer runs dY·W, then dY·X, each
with its token blocks outside its blocks of columns, whatever LOOP says (R141 gives no order; log entry 22). -/
def bwdTiles (l : Nat) (d : LayerDesc) (sequential : Bool) : List TileKey :=
  let mt := ceilDiv d.m 256
  let ch := max 1 (bwdChunk d)
  if d.arrKind = 2 then
    let one (c : Nat) : List TileKey := (List.range mt).flatMap fun i =>
      (List.range (ceilDiv d.k elemCols)).map fun j =>
        ({ layer := l, kind := .elem, i := i, j := j, chunk := c, arr := .a } : TileKey)
    one 0 ++ (if d.frozen then [] else one 1)
  else
    let kt := ceilDiv d.k d.nw
    let dxOf (j c0 : Nat) : List TileKey := ((List.range mt).filter fun t => c0 ≤ t && decide (t < c0 + ch)).map fun t =>
      { layer := l, kind := .dx, i := t, j := j, chunk := c0, arr := if sequential then arrSel 2 j else .a }
    let dwOf (kt nt : Nat) (seqn : Bool) : List (List TileKey) := (List.range kt).flatMap fun j =>
      (chunkStarts d).map fun c0 => (List.range nt).map fun n =>
        ({ layer := l, kind := .dw, i := n, j := j, chunk := c0, arr := if seqn then arrSel 2 j else .b } : TileKey)
    if sequential then
      let dx := (List.range kt).flatMap fun j => (chunkStarts d).flatMap fun c0 => dxOf j c0
      let dw := if d.frozen then []
        else if d.transpose then (dwOf (ceilDiv d.n d.nw) (ceilDiv d.k 256) true).flatten
        else (dwOf kt (ceilDiv d.n 256) true).flatten
      dx ++ dw
    else
      (List.range kt).flatMap fun j => (chunkStarts d).flatMap fun c0 =>
        ((List.range (ceilDiv d.n 256)).map fun n =>
          ({ layer := l, kind := .dw, i := n, j := j, chunk := c0, arr := .b } : TileKey)) ++ dxOf j c0

/-- Sequential mode (R141). -/
def State.seqMode (s : State) (e : EngineId) (d : LayerDesc) : Bool :=
  s.eng[e.val].arr.a.quar || s.eng[e.val].arr.b.quar || d.transpose || d.arrKind == 2 || d.frozen

/-- Tiles of a layer that enter the tile queue: all but weight gradients that go to a home. -/
def queued (d : LayerDesc) (k : TileKey) : Bool := !(k.kind == .dw && d.paramId != 0)

/-! ### Plans -/

/-- An operand as an array reads it: a subnormal is signed zero (R118). -/
def arrElem (d : Denom) (x : Elem) : Elem := (if d.isInt then x.1 else d.flushOp x.1, x.2)

def State.accFmt (s : State) (denS denW : Nat) : AccFmt × Bool :=
  let a := s.denom denS
  let b := s.denom denW
  if a.isInt && b.isInt then ({ int := true, limit := 2 ^ 31 - 1, d := s.fp32 }, false)
  else if a.expBits = 11 ∨ b.expBits = 11 then ({ int := false, limit := 0, d := s.fp64 }, true)
  else ({ int := false, limit := 0, d := s.fp32 }, false)

/-- The first accumulator row of a tile. -/
def LayerDesc.slotRow (d : LayerDesc) (f64 : Bool) (k : TileKey) (bwd : Bool) : Nat :=
  if bwd then
    match k.kind with
    | .dw => d.accBase + d.accSlots * 256 + k.i % 2 * 256
    | _ => d.accBase + k.i % d.accSlots * 256
  else
    let nb := if d.arrKind = 2 then ceilDiv d.k elemCols else ceilDiv d.n d.nw
    d.accBase + (k.i * nb + k.j) % d.accSlots * (if f64 then 2 * d.mTile else d.mTile)

/-- A weight-gradient product of another origin step's micro-batch is multiplied by 2^Δ as by a scale (R237). -/
def aligned (shift : Int) (x : Elem) : Elem := (x.1, x.2 + shift)

/-- Bytes of the panels of a K × N matrix that columns c0 to c0 + n - 1 or, read through the transposer, rows r0 to
r0 + n - 1 lie in. -/
def panelCols (d : Denom) (base kTot j : Nat) : List (Nat × Nat) :=
  [(panelAddr d base kTot 0 j, panelAddr d base kTot 0 (j + 1) - panelAddr d base kTot 0 j)]

def panelRows (d : Denom) (base kTot nTot nw r0 n : Nat) : List (Nat × Nat) :=
  (List.range (ceilDiv nTot nw)).flatMap fun j => (List.range ((r0 + n + 255) / 256 - r0 / 256)).map fun b =>
    (panelAddr d base kTot (r0 / 256 + b) j, panelBytes d (min 256 (kTot - (r0 / 256 + b) * 256)))

/-- Bytes of rows r0 to r0 + n - 1 of a streaming operand. -/
def rowsAt (d : Denom) (base cols r0 n : Nat) : Nat × Nat := (base + r0 * rowBytes d cols, n * rowBytes d cols)

/-- The plan of a tile. -/
def State.plan (s : State) (e : EngineId) (ps : Pass) (d : LayerDesc) (k : TileKey) : Plan :=
  let en := s.eng[e.val]
  let f := en.entry ps.mb
  let m := en.store
  let xa := s.reloc e f d.xAddr
  let wa := s.reloc e f d.wAddr
  let dS := s.denom d.denS
  let dW := s.denom d.denW
  let g := s.gradSrc e f k.layer d ps.top
  let gcode := g.1
  let dG := s.denom gcode
  let ga := g.2
  let gcols := if d.arrKind = 2 then d.k else d.n
  let bwd := ps.kind == .bwd
  let fm := if bwd then ({ int := false, limit := 0, d := s.fp32 }, false) else s.accFmt d.denS d.denW
  let accRow := d.slotRow fm.2 k bwd
  let cnt := (en.seq.kept.filter fun x => x.1 == k.layer && x.2 == accRow).length
  let keeps := !bwd && d.paramId == 0 && d.accKeep
  let base : Plan :=
    { fmt := fm.1, dbl := fm.2, rows := 0, cols := 0, kTot := 0, x := fun _ _ => (.nan, 0), w := fun _ _ => (.nan, 0),
      xGroup := true, wGroup := true, denS := d.denS, denW := d.denW, wide64 := dW.expBits == 11, accRow := accRow,
      keep := keeps && d.arrKind != 2 && decide (0 < cnt), earlier := if keeps then cnt else 0, regs := [] }
  let xAt (r c : Nat) : Elem := arrElem dS (streamElem dS m xa d.k r c)
  let shift : Int := if d.paramId = 0 then 0 else s.alignExp ps.origin
  let gAt (r c : Nat) : Elem := arrElem dG (streamElem dG m ga gcols r c)
  let wAt (kk n : Nat) : Elem := arrElem dW <|
    if d.transpose then panelElem dW m wa d.n d.nw n kk else panelElem dW m wa d.k d.nw kk n
  let xRows (r n : Nat) : Nat × Nat := rowsAt dS xa d.k r n
  let gRows (r n : Nat) : Nat × Nat := rowsAt dG ga gcols r n
  if d.arrKind = 2 then
    let rt := if bwd then 256 else d.mTile
    let r0 := k.i * rt
    let n := min rt (d.m - r0)
    let c0 := k.j * elemCols
    let w2 (r c : Nat) : Elem := arrElem dW (streamElem dW m wa d.k r c)
    { base with
      rows := n, cols := min elemCols (d.k - c0), kTot := 1
      x := fun r c => if bwd then gAt (r0 + r) (c0 + c) else xAt (r0 + r) (c0 + c)
      w := fun r c => if bwd && k.chunk == 1 then xAt (r0 + r) (c0 + c) else w2 (r0 + r) (c0 + c)
      denS := if bwd then gcode else d.denS
      denW := if bwd && k.chunk == 1 then d.denS else d.denW
      regs := [if bwd then gRows r0 n else xRows r0 n, if bwd && k.chunk == 1 then xRows r0 n else rowsAt dW wa d.k r0 n] }
  else
    match k.kind with
    | .dx =>
      let r0 := k.i * 256
      let n := min 256 (d.m - r0)
      let c0 := k.j * d.nw
      let cs := min d.nw (d.k - c0)
      { base with
        rows := n, cols := cs, kTot := d.n
        x := fun r n => gAt (r0 + r) n, w := fun n c => wAt (c0 + c) n
        wGroup := d.transpose, denS := gcode
        regs := (if d.transpose then panelCols dW wa d.n k.j else panelRows dW wa d.k d.n d.nw c0 cs) ++ [gRows r0 n] }
    | .dw =>
      let t0 := k.chunk * 256
      let len := min (bwdChunk d * 256) (d.m - t0)
      let r0 := k.i * 256
      let c0 := k.j * d.nw
      let regs := [xRows t0 len, gRows t0 len]
      if d.transpose then
        { base with
          rows := min 256 (d.k - r0), cols := min d.nw (d.n - c0), kTot := len
          x := fun r t => aligned shift (xAt (t0 + t) (r0 + r)), w := fun t c => gAt (t0 + t) (c0 + c)
          xGroup := false, wGroup := false, denS := d.denS, denW := gcode, wide64 := false, regs := regs }
      else
        { base with
          rows := min 256 (d.n - r0), cols := min d.nw (d.k - c0), kTot := len
          x := fun r t => aligned shift (gAt (t0 + t) (r0 + r)), w := fun t c => xAt (t0 + t) (c0 + c)
          xGroup := false, wGroup := false, denS := gcode, denW := d.denS, wide64 := false, regs := regs }
    | _ =>
      let r0 := k.i * d.mTile
      let n := min d.mTile (d.m - r0)
      let c0 := k.j * d.nw
      let cs := min d.nw (d.n - c0)
      { base with
        rows := n, cols := cs, kTot := d.k
        x := fun r kk => xAt (r0 + r) kk, w := fun kk c => wAt kk (c0 + c)
        wGroup := !d.transpose
        regs := (if d.transpose then panelRows dW wa d.n d.k d.nw c0 cs else panelCols dW wa d.k k.j) ++ [xRows r0 n] }

/-- The K blocks that a tile's rows meet; an element-wise tile meets none. -/
def Plan.blocks (p : Plan) (k : TileKey) : Nat := if k.kind == .elem then 0 else ceilDiv p.kTot 256

/-! ### Flags and counters (R94, R96) -/

/-- The physical column of a presented column (R89). -/
def physCol (bypass : W64) (p : Nat) : Nat :=
  ((List.range 64).filter fun c => !(bitAt bypass c)).getD p 0

/-- The sticky flags of an attempt. An element-wise product in column c of its block is formed in presented column
c mod WIDTH (log entry 139). -/
def ArraySt.flag (a : ArraySt) (t : TileRes) : ArraySt :=
  let a := (t.excs.flatMap fun (row : List (List Exc)) => row.zipIdx).foldl (fun (a : ArraySt) (el : List Exc × Nat) =>
    let x := excOf el.1
    let c := physCol a.bypass (el.2 % max 1 a.width)
    { a with
      inv := if x.inv then setBit a.inv c true else a.inv
      ovf := if x.ovf then setBit a.ovf c true else a.ovf
      nan := if x.nan then setBit a.nan c true else a.nan }) a
  let z := excOf (t.chk.map fun c => c.2.2)
  { a with chkFlags := a.chkFlags ||| BitVec.ofNat 3 ((if z.inv then 4 else 0) + (if z.ovf then 2 else 0) + (if z.nan then 1 else 0)) }

def otherArr : ArrId → ArrId
  | .a => .b
  | .b => .a

/-- Events of unmasked classes (R96). -/
def State.excEvents (s : State) (e : EngineId) (x : Exc) (r : Rec4) (mb : W16) : State :=
  let m := s.eng[e.val].arr.excMask
  let go (s : State) (on : Bool) (bit : Nat) (c : EvClass) : State :=
    if on && !(bitAt m bit) then s.raise (mkEvent c e .ok r mb) else s
  go (go (go s x.inv 0 .invalid) x.ovf 2 .ovfSat) x.nan 1 .nanProd

/-- Corrected words of an engine's SRAM are counted (R264, R285). -/
def State.sramCe (s : State) (e : EngineId) (x : SramRead) : State :=
  s.modEngInt e fun y => { y with
    storeCe := satAdd y.storeCe x.store, accCe := satAdd y.accCe x.acc, otherCe := satAdd y.otherCe x.other }

/-! ### Gradient homes (R143 to R148) -/

def HomeRec.colRows (h : HomeRec) : Nat := ceilDiv h.n 16 * 16
def HomeRec.bands (h : HomeRec) : Nat := ceilDiv h.k h.nw * (h.colRows / 16)

/-- The vault block of a band beyond the accumulator part. -/
def HomeRec.place (h : HomeRec) (e : EngineId) (band : Nat) : CtlId × Nat :=
  (.vault (Fin.ofNat 32 (e.val / 16 * 4 + h.vault % 4)), h.block + (band - h.accBands))

/-- A band's words after a contribution: added, or written on its first touch; elements by exception. -/
def bandAdd (d : Denom) (first : Bool) (old new : List W32) : List W32 × Nat × Nat × Nat :=
  if first then (new, 0, 0, 0)
  else
    (old.zip new).foldr (fun (p : W32 × W32) a =>
      let o := d.done true (numAdd (f32 p.1) (f32 p.2))
      (toF32 o.val :: a.1, a.2.1 + (if o.exc.inv then 1 else 0), a.2.2.1 + (if o.exc.ovf then 1 else 0),
        a.2.2.2 + (if o.exc.nan then 1 else 0))) ([], 0, 0, 0)

def words (bs : List Byte) (n : Nat) : List W32 := (List.range n).map fun i => rdW 32 bs (4 * i)
def wordBytes (ws : List W32) : List Byte := ws.flatMap fun w => toBytes w 4

/-- The counters of home adds, and their events (R147). -/
def State.homeCount (s : State) (e : EngineId) (first : Bool) (inv ovf nan : Nat) (mb : W16) (r : Rec4) : State :=
  let s := s.modArr e fun x => { x with
    homeFirst := if first then wrapAdd x.homeFirst 1 else x.homeFirst
    homeAdded := if first then x.homeAdded else wrapAdd x.homeAdded 1
    homeInv := satAdd x.homeInv inv, homeOvf := satAdd x.homeOvf ovf, homeNan := satAdd x.homeNan nan }
  s.excEvents e { inv := decide (0 < inv), ovf := decide (0 < ovf), nan := decide (0 < nan) } r mb

def State.isTouched (s : State) (e : EngineId) (param band : Nat) : Bool :=
  s.eng[e.val].arr.touched.contains (param, band)

/-- An access to an engine's SRAMs that met uncorrectable words: every word is counted and stays so until it is written
whole; one record names the first (R264, R279, R285). -/
def State.sramUe (s : State) (e : EngineId) (ws : List (Fin 4 × Nat)) (mb : W16) (ch : Nat) : State :=
  match ws with
  | [] => s
  | w :: _ =>
    let s := s.modEngInt e fun x => { x with sramUe := satAdd x.sramUe ws.length }
    let s := s.modEng e fun x => { x with
      badWords := (ws.filterMap fun y => if y.1.val < 2 && !(x.badWords.contains (y.1, y.2 / 8)) then some (y.1, y.2 / 8)
        else none).eraseDups ++ x.badWords }
    (s.post (islEngine e) clsMemory .uncorrectable mb
      (memRec .uncorrectable 0 w.1.val (islEngine e) 0xFF w.2 s.recStep mb (islandId (islEngine e)) ch)).setErr errUe

/-- A contribution to a band of the accumulator part, or a band sent to the vault with what it holds (R147, R148). A band whose
sum so far does not read stays as it is, and the step is marked (R98, R264). -/
def State.homeBand (s : State) (e : EngineId) (h : HomeRec) (band : Nat) (new : List W32) (slot : Option Nat) (mb : W16)
    (r : Rec4) : State :=
  if band < h.accBands then
    let first := !(s.isTouched e h.paramId band)
    let a := accAddr (h.accRow + band * 16) 0
    let ws := if first then [] else (s.eng[e.val]).badAt 1 [(a, 4096)]
    if !ws.isEmpty then (s.sramUe e ws mb 0xFF).mark (islEngine e) .uncorrectable
    else
      let old := words (memRead s.eng[e.val].acc a 4096) 1024
      let (ws, i, o, n) := bandAdd s.fp32 first old new
      let s := s.modEng e fun x => { x.heal 1 a 4096 with acc := memWrite x.acc a (wordBytes ws) }
      let s := s.modArr e fun x => { x with touched := if first then (h.paramId, band) :: x.touched else x.touched }
      s.homeCount e first i o n mb r
  else s.modArr e fun x => { x with
    homeFlight := x.homeFlight ++ [{ param := h.paramId, band := band, data := new, slot := slot, mb := mb, record := r }] }

/-- The words of the 16 home rows of a band that a weight-gradient tile gives: zero outside the tile. -/
def bandOf (acc : Mem) (p : Plan) (row0 : Nat) : List W32 :=
  (List.range 16).flatMap fun r => (List.range 64).map fun c =>
    if row0 + r < p.rows ∧ c < p.cols then accGet acc (p.accRow + row0 + r) c else 0

/-- A checked weight-gradient tile added to its home, band by band. -/
def State.homeAdd (s : State) (e : EngineId) (h : HomeRec) (k : TileKey) (p : Plan) (mb : W16) (r : Rec4) : State :=
  let band0 := (k.j * h.colRows + k.i * 256) / 16
  let acc := s.eng[e.val].acc
  (List.range (ceilDiv p.rows 16)).foldl (fun s b => s.homeBand e h (band0 + b) (bandOf acc p (b * 16)) (some p.accRow) mb r) s

/-! ### Idleness and slots (R80, R86 to R88, R137) -/

/-- 64 cycles without a row: the array is idle, and its ramp, if one ran, is over. -/
def execArrayIdle (e : EngineId) (arr : ArrId) (s : State) : Res :=
  .next (s.modArr e fun x => x.modA arr fun y => { y with idle := true, ramping := false })

/-- A row enters an array: the first one after idleness starts a ramp (R86). -/
def State.rowEnters (s : State) (e : EngineId) (arr : ArrId) : State :=
  s.modArr e fun x => if (x.arr arr).idle then x.ramp arr s.rampNow else x

/-- The first row of a tile. Without time, a ramp ends when the array starts its next tile or is idle, whatever the last X of
its table (log entry 137). -/
def State.startRow (s : State) (e : EngineId) (arr : ArrId) : State :=
  (s.modArr e fun x => if (x.arr arr).idle then x else x.modA arr fun y => { y with ramping := false }).rowEnters e arr

/-- A closed tile's accumulator rows overlap those of another. -/
def recRows (r : Rec4) : Nat × Nat := (fld r.w2 44 30, fld r.w2 29 17)

/-- The slot of a tile is free: no other tile in progress, that waits, is queued or is being run, and no band on its way to a
vault, still uses rows of it (R80, R137). -/
def State.slotFree (s : State) (e : EngineId) (t : TileKey) (p : Plan) : Bool :=
  let x := s.eng[e.val]
  let n := if p.dbl then 2 * p.rows else p.rows
  let clash (c : ClosedTile) : Bool :=
    let (a, k) := recRows c.record
    let k := if p.dbl then 2 * k else k
    decide (a < p.accRow + n) && decide (p.accRow < a + k)
  let runs (o : TileKey) : Bool := o != t && match x.seq.pass, s.layer o.layer with
    | some ps, some d =>
      let q := s.plan e ps d o
      regionsMeet (p.accRow, n) (q.accRow, if q.dbl then 2 * q.rows else q.rows)
    | _, _ => false
  !(x.arr.queue.any clash) && !(x.arr.waiting.any clash) && !((x.arr.a.tile.toList ++ x.arr.b.tile.toList).any runs) &&
    !(x.arr.homeFlight.any fun b => match b.slot with
      | some a => decide (a < p.accRow + n) && decide (p.accRow < a + 256)
      | none => false)

/-! ### Tiles in progress, shadow loads and swaps (R71, R75 to R77, R91) -/

def State.modPass (s : State) (e : EngineId) (f : Pass → Pass) : State :=
  s.modSeq e fun q => { q with pass := q.pass.map f }

/-- The array that a tile runs on: its own, or the other while its own is quarantined (R91). -/
def EngArr.arrOf (x : EngArr) (k : TileKey) : ArrId := if (x.arr k.arr).quar then otherArr k.arr else k.arr

/-- The array that holds a tile in progress. -/
def EngArr.holder (x : EngArr) (k : TileKey) : Option ArrId :=
  if x.a.tile = some k then some .a else if x.b.tile = some k then some .b else none

/-- The shadow set takes the next block of the array's tile, once what it held has been swapped in. -/
def ArraySt.fill (a : ArraySt) (p : Plan) (d32 d64 : Denom) (k : TileKey) : ArraySt :=
  if !a.shadowValid && decide (a.met.length < p.blocks k) then
    { a with shadow := p.block d32 d64 k a.met.length, shadowValid := true }
  else a

/-- A swap: the sets are exchanged, and rows meet the block from now on. -/
def ArraySt.swap (a : ArraySt) : ArraySt :=
  if a.shadowValid then
    { a with active := a.shadow, shadow := a.active, shadowValid := false, met := a.met ++ [a.shadow] }
  else a

/-- The plan of the tile in progress on an array. -/
def State.planOn (s : State) (e : EngineId) (arr : ArrId) : Option (TileKey × Plan) :=
  match (s.eng[e.val].arr.arr arr).tile, s.eng[e.val].seq.pass with
  | some k, some ps => (s.layer k.layer).map fun d => (k, s.plan e ps d k)
  | _, _ => none

/-- A swap on an array with the load of the next block; its rows enter after it. -/
def State.swapOn (s : State) (e : EngineId) (arr : ArrId) : State :=
  match s.planOn e arr with
  | some (k, p) =>
    if (s.eng[e.val].arr.arr arr).met.length < p.blocks k then
      (s.modArr e fun x => x.modA arr fun y => y.swap.fill p s.fp32 s.fp64 k).rowEnters e arr
    else s
  | none => s

/-- The remaining loads and swaps of the tile in progress, and its last rows. -/
def State.finishBlocks (s : State) (e : EngineId) (arr : ArrId) : State :=
  match s.planOn e arr with
  | some (k, p) => (s.modArr e fun x => x.modA arr fun y =>
      (List.range (p.blocks k)).foldl (fun y _ => (y.fill p s.fp32 s.fp64 k).swap) y).rowEnters e arr
  | none => s

/-- SHADOW_SWAP: the wait of R77 is counted; the loaded block becomes active and the next load starts. -/
def execShadowSwap (e : EngineId) (arr : ArrId) (shadowWait : Nat) (s : State) : Res :=
  .next ((s.modArr e fun x => { x with shadowWait := satAdd x.shadowWait shadowWait }).swapOn e arr)

/-- Twin mode: the two arrays of the engine run dX and weight-gradient tiles of one pass in lock step (R135, R136). -/
def State.twin (s : State) (e : EngineId) (ps : Pass) (d : LayerDesc) : Bool := ps.kind == .bwd && !(s.seqMode e d)

/-- Tiles of one turn of the loop of R135: column block and chunk. -/
def sameTurn (k o : TileKey) : Bool := k.layer == o.layer && k.j == o.j && k.chunk == o.chunk

/-- What a tile of an array waits for in twin mode: the other array runs the same turn, or can start it; the turn starts once
every dX slot of it is free (R135, R136). -/
def State.turnReady (s : State) (e : EngineId) (ps : Pass) (d : LayerDesc) (k : TileKey) (arr : ArrId) : Bool :=
  let x := s.eng[e.val].arr
  match (x.arr (otherArr arr)).tile with
  | some o => sameTurn k o
  | none => ((ps.due.find? fun o => x.arrOf o == otherArr arr).all (sameTurn k)) &&
      (ps.due.filter fun o => o.kind == .dx && sameTurn k o).all fun o => s.slotFree e o (s.plan e ps d o)

/-- The tile that an array without one starts, with its plan: the next due on it, when its slot is free. -/
def State.startable (s : State) (e : EngineId) (arr : ArrId) : Option (TileKey × Plan) :=
  let x := s.eng[e.val].arr
  match (x.arr arr).tile, s.eng[e.val].seq.pass with
  | none, some ps =>
    match ps.due.find? fun k => x.arrOf k == arr && (x.holder k).isNone with
    | none => none
    | some k =>
      match s.layer k.layer with
      | none => none
      | some d =>
        let p := s.plan e ps d k
        if s.slotFree e k p && (!(s.twin e ps d) || s.turnReady e ps d k arr) then some (k, p) else none
  | _, _ => none

/-- The next tile due on an array starts: its first block is loaded. -/
def State.startTile (s : State) (e : EngineId) (arr : ArrId) : State :=
  match s.startable e arr with
  | some (k, p) => s.modArr e fun x => x.modA arr fun y =>
      ({ y with tile := some k, met := [] } : ArraySt).fill p s.fp32 s.fp64 k
  | none => s

/-- The pass runs a layer in twin mode. -/
def State.inTwin (s : State) (e : EngineId) : Bool :=
  match s.eng[e.val].seq.pass with
  | some ps => match ps.layers with
    | l :: _ => match s.layer l with
      | some d => s.twin e ps d
      | none => false
    | [] => false
  | none => false

/-- Both arrays start what is due on them, each with the first row of its tile; in twin mode a ramp of one is a ramp of both
(R92, R136). -/
def State.startTiles (s : State) (e : EngineId) : State :=
  let a := (s.startable e .a).isSome
  let s := s.startTile e .a
  let b := (s.startable e .b).isSome
  let s := s.startTile e .b
  let x := s.eng[e.val].arr
  let s := if (a || b) && s.inTwin e && (x.a.idle || x.b.idle) then
      s.modArr e fun x => { x with a := { x.a with idle := true }, b := { x.b with idle := true } }
    else s
  let s := if a || (b && s.inTwin e) then s.startRow e .a else s
  if b || (a && s.inTwin e) then s.startRow e .b else s

/-- Tiles of a chunk that share the stationary blocks of array A (R135). -/
def sharesBlocks (k l : TileKey) : Bool :=
  k.kind == .dx && l.kind == .dx && k.layer == l.layer && k.j == l.j && k.chunk == l.chunk

/-- The tile in progress on an array is over; the next dX tile of its chunk has met the same blocks. -/
def State.endTile (s : State) (e : EngineId) (arr : ArrId) (k : TileKey) (rest : List TileKey) : State :=
  let next := match rest with
    | l :: _ => if sharesBlocks k l && (s.eng[e.val].arr.holder l).isNone then some l else none
    | [] => none
  (s.modPass e fun q => { q with due := rest }).modArr e fun x => x.modA arr fun y =>
    match next with
    | some l => { y with tile := some l }
    | none => { y with tile := none, met := [] }

/-! ### Pins (R82, R139) -/

/-- Operands of tiles in progress, and of closed tiles that wait for the queue; in BWD all operands of the layer until its
last tile has passed. -/
def State.tilePins (s : State) (e : EngineId) : List (Nat × Nat) :=
  let x := s.eng[e.val]
  match x.seq.pass with
  | none => []
  | some ps =>
    let keys := x.arr.a.tile.toList ++ x.arr.b.tile.toList ++ x.arr.waiting.map (·.key)
    let regs (k : TileKey) : List (Nat × Nat) := match s.layer k.layer with
      | some d => (s.plan e ps d k).regs
      | none => []
    match ps.kind, ps.layers with
    | .bwd, l :: _ =>
      match s.layer l with
      | some d =>
        if ps.begun && !ps.due.isEmpty then
          let f := x.entry ps.mb
          let g := s.gradSrc e f l d ps.top
          let dW := s.denom d.denW
          let w := s.reloc e f d.wAddr
          [(w, if d.arrKind = 2 then d.m * rowBytes dW d.k
              else if d.transpose then panelsBytes dW d.n d.k d.nw else panelsBytes dW d.k d.n d.nw),
            rowsAt (s.denom d.denS) (s.reloc e f d.xAddr) d.k 0 d.m,
            rowsAt (s.denom g.1) g.2 (if d.arrKind = 2 then d.k else d.n) 0 d.m]
        else []
      | none => []
    | _, _ => keys.flatMap regs

/-! ### The gradient tile buffer (R134) -/

/-- The squares that a backward tile streams: token block and band. In twin mode a dX tile streams those of the
weight-gradient tiles of its chunk. -/
def squaresOf (d : LayerDesc) (k : TileKey) (sequential : Bool) : List (Nat × Nat) :=
  let chunk := (List.range (min (bwdChunk d) (ceilDiv d.m 256 - k.chunk))).map fun t => k.chunk + t
  match k.kind with
  | .dw => chunk.map fun t => (t, k.i)
  | .dx => if sequential then (List.range (ceilDiv d.n 256)).map fun n => (k.i, n) else []
  | _ => []

/-- A square's elements and scales: of dY, or of X in the weight-gradient pass of a TRANSPOSE layer (R141). -/
def State.square (s : State) (e : EngineId) (ps : Pass) (d : LayerDesc) (k : TileKey) (q : Nat × Nat) : Square :=
  let m := s.eng[e.val].store
  let f := s.eng[e.val].entry ps.mb
  let g := s.gradSrc e f k.layer d ps.top
  let ofX := d.transpose && k.kind == .dw
  let den := if ofX then s.denom d.denS else s.denom g.1
  let base := if ofX then s.reloc e f d.xAddr else g.2
  let cols := if ofX then d.k else d.n
  let els := (List.range (min 256 (d.m - q.1 * 256))).flatMap fun r => (List.range (min 256 (cols - q.2 * 256))).map fun c =>
    streamElem den m base cols (q.1 * 256 + r) (q.2 * 256 + c)
  { ti := q.1, nb := q.2, elems := els.map fun x => toF64 x.1, scales := els.map fun x => BitVec.ofNat 8 (x.2 + 127).toNat }

/-- The buffer holds the two squares streamed last. -/
def State.fillSquares (s : State) (e : EngineId) (ps : Pass) (d : LayerDesc) (k : TileKey) : State :=
  if ps.kind = .bwd then
    let l := (squaresOf d k (s.seqMode e d)).map (s.square e ps d k)
    s.modArr e fun x => { x with tilebuf := (x.tilebuf ++ l).drop (x.tilebuf.length + l.length - 2) }
  else s

/-! ### Tile close (R80, R81, R85, R98, R140) -/

/-- One attempt: accumulator and checksum store after it, the results, and whether its check fails and rows were skipped. -/
structure Attempt where
  acc : Mem
  chk : Mem
  res : TileRes
  fail : Bool
  skipped : Bool

/-- The tile's rows set to zero when it starts, unless it adds to their contents (R69). -/
def Plan.cleared (p : Plan) (acc : Mem) : Mem :=
  if p.keep then acc else memClear acc (accAddr p.accRow 0) (256 * (if p.dbl then 2 * p.rows else p.rows))

def State.attempt (s : State) (e : EngineId) (k : TileKey) (p : Plan) (met : List StatBlock) (fs : List TileFault) :
    Attempt :=
  let en := s.eng[e.val]
  let acc0 := p.cleared en.acc
  if k.kind == .elem then
    let t := p.computeElem
    let acc := flipAcc (p.store t acc0) p.accRow fs
    { acc := acc, chk := en.chk, res := t, fail := fs.any (fun f => f.flip != 0), skipped := false }
  else
    let t := p.compute s.fp32 s.fp64 met en.acc en.chk
    let acc := flipAcc (p.store t acc0) p.accRow fs
    let chk := p.storeChk t en.chk
    let c := p.check t acc chk
    { acc := acc, chk := chk, res := t, fail := c.1, skipped := c.2 }

/-- The blocks of a tile, read anew. -/
def Plan.reload (p : Plan) (d32 d64 : Denom) (k : TileKey) : List StatBlock :=
  (List.range (p.blocks k)).map (p.block d32 d64 k)

/-- A tile enters the queue: counted, its events raised (R96, R99). -/
def State.intoQueue (s : State) (e : EngineId) (c : ClosedTile) : State :=
  let s := s.modArr e fun y => { y with queue := y.queue ++ [c] }
  let s := s.modArr e fun y => y.modA c.key.arr fun a => { a with tiles := wrapAdd a.tiles 1 }
  s.excEvents e { inv := bitAt c.record.w3 63, ovf := bitAt c.record.w3 62, nan := bitAt c.record.w3 61 } c.record c.mb

def State.countExc (s : State) (e : EngineId) (x : TileExc) : State :=
  s.modArr e fun y => { y with
    excInv := satAdd y.excInv x.inv, excOvf := satAdd y.excOvf x.ovf, excNan := satAdd y.excNan x.nan }

/-- A closed tile enters the queue, or waits in its slot while the 32 places are taken (R81). -/
def State.enqueue (s : State) (e : EngineId) (c : ClosedTile) (x : TileExc) : State :=
  let s := s.countExc e x
  if 32 ≤ (s.eng[e.val].arr.queue).length then s.modArr e fun y => { y with waiting := y.waiting ++ [c] }
  else s.intoQueue e c

/-- A failing attempt: its record goes to the fault log and out as a TILE frame. -/
def State.tileFail (s : State) (e : EngineId) (r : Rec4) (mb : W16) : State :=
  ((s.faultLog e r).post (islEngine e) clsTile .checkFail mb r).setErr errCheck

def arrUnit : ArrId → Unit5
  | .a => .arrayA
  | .b => .arrayB

/-- Physical faults of an attempt. -/
def faultsOf (fs : List TileFault) (n : Nat) : List TileFault := fs.filter fun f => f.attempt == n

/-- What an attempt leaves, whether it passes or not: values, checksums, the sticky flags of its array (R94). -/
def State.keepAttempt (s : State) (e : EngineId) (k : TileKey) (p : Plan) (a : Attempt) : State :=
  let s := s.modEng e fun x => { x with acc := a.acc, chk := a.chk }
  let s := s.modEng e fun x => x.heal 1 (accAddr p.accRow 0) (256 * (if p.dbl then 2 * p.rows else p.rows))
  s.modArr e fun x => x.modA k.arr fun y => y.flag a.res

/-- A tile that has passed: queued, or added to its home. A weight-gradient tile bound for a home, which enters no queue,
raises the events of its exceptions as it passes (log entry 140). -/
def State.tilePass (s : State) (e : EngineId) (ps : Pass) (d : LayerDesc) (k : TileKey) (p : Plan) (a : Attempt)
    (n : Nat) : State :=
  let x := a.res.excSum
  let r := tileRecord .ok e k p ps.mb s.curStep n x false a.skipped
  let s := s.keepAttempt e k p a
  let s := s.modSeq e fun q => { q with kept := (k.layer, p.accRow) :: q.kept }
  if queued d k then s.enqueue e { key := k, mb := ps.mb, record := r } x
  else
    let s := (s.countExc e x).excEvents e x.exc r ps.mb
    match s.homeRec e.val d.paramId with
    | some h => s.homeAdd e h k p ps.mb r
    | none => s

/-- Corrected words of an attempt's reads counted; the uncorrectable words that it meets, in its operands and, where it adds
to its slot, there. -/
def State.tileReads (s : State) (e : EngineId) (p : Plan) (x : SramRead) : List (Fin 4 × Nat) × State :=
  let en := s.eng[e.val]
  let rows := 256 * (if p.dbl then 2 * p.rows else p.rows)
  (en.readBad (inStore p.regs ++ if p.keep then [(1, accAddr p.accRow 0, rows)] else []) x.ue, s.sramCe e x)

/-- A slot whose contents a failed check or another layer's tile leaves undefined (R85, R143): free values. -/
def State.freeSlot (s : State) (e : EngineId) (p : Plan) : State :=
  let n := if p.dbl then 2 * p.rows else p.rows
  let (i, s) := s.draw
  let (j, s) := s.draw
  s.modEng e fun x => { x with
    acc := memWrite x.acc (accAddr p.accRow 0) (toBytes (Config.free (2048 * n) i) (256 * n))
    chk := memWrite x.chk (p.accRow * 8) (toBytes (Config.free (64 * n) j) (8 * n)) }

/-- A tile whose read meets an uncorrectable word stops at once, and its step is marked (R98). -/
def State.tileUe (s : State) (e : EngineId) (ps : Pass) (k : TileKey) (p : Plan) (n : Nat) (ws : List (Fin 4 × Nat)) :
    State :=
  let r := tileRecord .uncorrectable e k p ps.mb s.curStep n (TileRes.excSum { vals := [], excs := [], chk := [] }) false false
  let s := (s.faultLog e r).sramUe e ws ps.mb 0xFF
  (if p.keep then s.freeSlot e p else s).mark (islEngine e) .uncorrectable

/-- Attempts 1 and 2 after a failed first attempt, and what decides (R375). Each reads its operands again. -/
def State.retile (s : State) (e : EngineId) (ps : Pass) (d : LayerDesc) (k : TileKey) (p : Plan) (fs : List TileFault)
    (retry : List SramRead) : State :=
  let recOf (k : TileKey) (a : Attempt) (n : Nat) : Rec4 :=
    tileRecord .checkFail e k p ps.mb s.curStep n a.res.excSum true a.skipped
  let met := p.reload s.fp32 s.fp64 k
  let none_ : SramRead := { store := 0, acc := 0, other := 0, ue := [] }
  let (ws, s) := s.tileReads e p (retry.getD 0 none_)
  if !ws.isEmpty then s.tileUe e ps k p 1 ws
  else
    let a1 := s.attempt e k p met (faultsOf fs 1)
    if a1.fail = false then
      (s.modEngInt e fun x => { x with transients := wrapAdd x.transients 1 }).tilePass e ps d k p a1 1
    else
      let s := (s.keepAttempt e k p a1).tileFail e (recOf k a1 1) ps.mb
      let o := otherArr k.arr
      if (s.eng[e.val].arr.arr o).quar then
        (s.strike e (arrUnit k.arr) k.layer).mark (islEngine e) .checkFail
      else
        let k2 := { k with arr := o }
        let (ws, s) := s.tileReads e p (retry.getD 1 none_)
        if !ws.isEmpty then s.tileUe e ps k2 p 2 ws
        else
          let a2 := s.attempt e k2 p met (faultsOf fs 2)
          if a2.fail = false then (s.strike e (arrUnit k.arr) k.layer).tilePass e ps d k2 p a2 2
          else
            let s := (s.keepAttempt e k2 p a2).tileFail e (recOf k2 a2 2) ps.mb
            let s := s.modEngInt e fun x => { x with neighbourFail := satAdd x.neighbourFail 1 }
            s.mark (islEngine e) .checkFail

/-- Kept slots of other layers whose rows the tile writes: their contents are undefined from now on (R143). -/
def State.spoil (s : State) (e : EngineId) (k : TileKey) (p : Plan) : State :=
  let n := if p.dbl then 2 * p.rows else p.rows
  let keeps (l : Nat) : Nat := match s.layer l with
    | some d => if d.paramId = 0 && d.accKeep then (if d.fp64 s then 2 * d.mTile else d.mTile) else 0
    | none => 0
  s.modSeq e fun q => { q with spoiled :=
    ((q.kept.filter fun y => y.1 != k.layer && keeps y.1 != 0 && regionsMeet (p.accRow, n) (y.2, keeps y.1)) ++ q.spoiled).eraseDups }

/-- The contents of a kept slot that another layer's tile has written: free values, once. -/
def State.unspoil (s : State) (e : EngineId) (k : TileKey) (p : Plan) : State :=
  if p.keep && s.eng[e.val].seq.spoiled.contains (k.layer, p.accRow) then
    (s.freeSlot e p).modSeq e fun q => { q with spoiled := q.spoiled.filter fun y => y != (k.layer, p.accRow) }
  else s

/-- A tile of the pass, held by an array, has its last row in the accumulator. -/
def State.closeTile (s : State) (e : EngineId) (ps : Pass) (d : LayerDesc) (k : TileKey) (arr : ArrId)
    (rest : List TileKey) (faults : List TileFault) (sram : SramRead) (retry : List SramRead) : State :=
  let p := s.plan e ps d k
  let s := s.finishBlocks e arr
  let met := (s.eng[e.val].arr.arr arr).met
  let s := (s.fillSquares e ps d k).endTile e arr k rest
  let k := { k with arr := arr }
  let (ws, s) := s.tileReads e p sram
  if !ws.isEmpty then s.tileUe e ps k p 0 ws
  else
    let s := (s.spoil e k p).unspoil e k p
    let a := s.attempt e k p met (faultsOf faults 0)
    if a.fail = false then s.tilePass e ps d k p a 0
    else
      let s := (s.keepAttempt e k p a).tileFail e (tileRecord .checkFail e k p ps.mb s.curStep 0 a.res.excSum true a.skipped) ps.mb
      if p.keep then (s.freeSlot e p).mark (islEngine e) .checkFail
      else s.retile e ps d k p faults retry

/-- The tile that closes next: the first due, or, where it was to run on an array that is out of use by now, the tile that its
array still has in progress (R91). -/
def State.nextClose (s : State) (e : EngineId) (ps : Pass) : Option (TileKey × ArrId) :=
  let x := s.eng[e.val].arr
  match ps.due with
  | [] => none
  | k :: _ =>
    match x.holder k with
    | some arr => some (k, arr)
    | none =>
      if x.arrOf k = k.arr then none
      else (x.arr (x.arrOf k)).tile.map fun o => (o, x.arrOf k)

/-- TILE_CLOSE: the next tile of the pass has its last row in the accumulator; checked, it is queued, added to its home
or handled as failed, and what is due next starts. While its slot is not free the tile does not start: its waits are counted,
those for a square of the tile buffer too (R80, R134, R137). -/
def tileClose (e : EngineId) (faults : List TileFault) (sram : SramRead) (retry : List SramRead) (slotWait bufWait : Nat)
    (s : State) : State :=
  match s.eng[e.val].seq.pass with
  | none => s
  | some ps =>
    match ps.due with
    | [] => s
    | k :: _ =>
      let s := s.modArr e fun x =>
        if k.kind == .dw then { x with homeWait := satAdd x.homeWait slotWait }
        else { x with slotWait := satAdd x.slotWait slotWait }
      let s := s.modArr e fun x =>
        if ps.kind = .bwd then { x with tilebufWait := satAdd x.tilebufWait bufWait } else x
      let s := s.startTiles e
      match s.nextClose e ps with
      | none => s
      | some (k, arr) =>
        match s.layer k.layer with
        | none => s
        | some d =>
          if s.slotFree e k (s.plan e ps d k) = false then s
          else (s.closeTile e ps d k arr (ps.due.erase k) faults sram retry).startTiles e

def execTileClose (e : EngineId) (faults : List TileFault) (sram : SramRead) (retry : List SramRead)
    (slotWait bufWait : Nat) (s : State) : Res :=
  .next (tileClose e faults sram retry slotWait bufWait s)

/-! ### Vault accumulate mode (R148, R149) -/

/-- A band that is not written: the answer goes to the engine, the step is marked. -/
def State.accumFail (s : State) (e : EngineId) (ctl : CtlId) (st : Status) : State :=
  (s.emit (.memAnswer ctl st [] [])).settle.mark (islEngine e) st

/-- The band that the engine sent first of those on their way to a controller: its controllers handle its bands in the order
sent (R148). -/
def State.firstBand (s : State) (e : EngineId) (ctl : CtlId) : Option HomeBand :=
  s.eng[e.val].arr.homeFlight.find? fun b => match s.homeRec e.val b.param with
    | some h => (h.place e b.band).1 == ctl
    | none => false

/-- A band at its controller: the hallmark verified, the band written on its first touch, else read, added and written. -/
def State.accumulate (s : State) (e : EngineId) (h : HomeRec) (b : HomeBand) (data : List Byte)
    (faults : List (Nat × CwFault)) : State :=
  let (ctl, page) := h.place e b.band
  let hallmark := crc32c (wordBytes b.data)
  if s.ctlOk ctl = false then s.accumFail e ctl .stateConflict
  else if crc32c data ≠ hallmark then
    ((s.post (islCtl ctl) clsHallmark .hallmarkFail b.mb
      { Rec4.zero with w0 := put hallmark.toNat 32 ||| put 3 27, w2 := put b.param 40 ||| put b.band 8 }).setErr
        errHallmark).accumFail e ctl .hallmarkFail
  else
    let first := !(s.isTouched e b.param b.band)
    let side (bs : List Byte) : Sideband := mkSide (crc32c bs) 3 false s.curStep noMb b.param b.band 0
    if first then
      let s := s.modArr e fun x => { x with touched := (b.param, b.band) :: x.touched }
      ((s.writePage ctl page data (side data)).homeCount e true 0 0 0 b.mb b.record).emit (.memAnswer ctl .ok [] [])
    else
      let (good, s) := s.readVia ctl (page * 4096) 4096 false { ReadMet.none with faults := faults }
        { source := 3, step := s.recStep, mb := b.mb, unit := islandId (islEngine e), chan := 0xFF }
      let (old, x) := s.readPage ctl page
      if good = false then s.accumFail e ctl .uncorrectable
      else if hallmarkOk x old = false then
        ((s.post (islCtl ctl) clsHallmark .hallmarkFail b.mb { w0 := x.w0, w1 := x.w1, w2 := x.w2, w3 := x.w3 }).setErr
          errHallmark).accumFail e ctl .hallmarkFail
      else
        let (ws, i, o, n) := bandAdd s.fp32 false (words old 1024) (words data 1024)
        let bs := wordBytes ws
        ((s.writePage ctl page bs (side bs)).homeCount e false i o n b.mb b.record).emit (.memAnswer ctl .ok [] [])

/-- VAULT_ACCUMULATE: the band that is next at its vault is added there, from the words sent or from what a physical fault
has made of them. -/
def execVaultAccumulate (e : EngineId) (param : W16) (band : Nat) (damage : Option Bytes) (faults : List (Nat × CwFault))
    (s : State) : Res :=
  .next <|
    match s.homeRec e.val param.toNat with
    | none => s
    | some h =>
      match s.firstBand e (h.place e band).1 with
      | none => s
      | some b =>
        if b.param = param.toNat ∧ b.band = band then
          let s := s.modArr e fun x => { x with homeFlight := x.homeFlight.erase b }
          (s.accumulate e h b (damage.getD (wordBytes b.data)) faults).startTiles e
        else s

end Sys2Proof.Machine
end

