-- ==== Sys2Proof/Machine/Link.lean ====
section
/-! DEFINITION. Envis ports: link units, retry, credits, frames, forwarding, sealing of blocks (11 R303 to R327). -/

namespace Sys2Proof.Machine

/-! ### Frames (R309 to R313) -/

def frTyp (f : Frame) : Nat := fld f.hdr 127 124
def frVc (f : Frame) : Fin 8 := Fin.ofNat 8 (fld f.hdr 123 121)
def frSrc (f : Frame) : BitVec 12 := BitVec.ofNat 12 (fld f.hdr 120 109)
def frDst (f : Frame) : BitVec 12 := BitVec.ofNat 12 (fld f.hdr 108 97)

/-- A header: type, virtual channel, source, destination and bits 96:0. -/
def mkHdr (typ vc : Nat) (src dst : BitVec 12) (low : Nat) : BitVec 128 :=
  BitVec.ofNat 128 (typ <<< 124 ||| vc <<< 121 ||| src.toNat <<< 109 ||| dst.toNat <<< 97 ||| low % 2 ^ 97)

def idleFrame : Frame := { hdr := 0, payload := List.replicate 256 0 }

/-- The CRC of a link unit: prefix, header least significant byte first, payload (R306). -/
def unitCrc (pfx : W64) (f : Frame) : W32 :=
  crc32c (toBytes pfx 8 ++ toBytes f.hdr 16 ++ f.payload)

def State.ownModule (s : State) : BitVec 12 := s.sec.store.moduleId

def State.peersSec (s : State) : Option Peers := s.job.charter.map (·.peers)

def State.peerEnt (s : State) (i : Nat) : Option PeerEnt :=
  match s.peersSec with
  | some p => p.entries[i]?
  | none => none

/-- The peer index of a module. -/
def State.peerOf (s : State) (m : BitVec 12) : Option Nat :=
  match s.peersSec with
  | some p => p.entries.findIdx? fun e => e.module == m
  | none => none

/-! ### Sending (R307, R314, R320) -/

def PortSt.up (p : PortSt) : Bool := p.state == 2

/-- The prefix of a unit: its LSEQ, the next expected, a NAK, and the credits of one channel returned. -/
def PortSt.prefixWord (p : PortSt) (seqNo : W16) (nak : Bool) (vc : Fin 8) : W64 :=
  put seqNo.toNat 48 ||| put p.expect.toNat 32 ||| putB nak 31 ||| put vc.val 28 ||| put (min p.owed[vc.val] 4095) 16

/-- The channel whose credits the next unit returns: the first with credits owed. -/
def PortSt.owedVc (p : PortSt) : Fin 8 :=
  match (List.finRange 8).find? fun v => decide (0 < p.owed[v.val]) with
  | some v => v
  | none => 0

def PortSt.paid (p : PortSt) : PortSt :=
  { p with owed := p.owed.set p.owedVc.val (p.owed[p.owedVc.val] - min p.owed[p.owedVc.val] 4095) }

/-- A unit leaves port p, a replayed one too: it counts in TX unless it is IDLE (R338; log entry 142). -/
def State.emitUnit (s : State) (p : PortId) (seqNo : W16) (nak : Bool) (f : Frame) : State :=
  let x := s.ports[p.val]
  let w := x.prefixWord seqNo nak x.owedVc
  (s.modPort p fun y => { y.paid with
    ackSent := y.expect, tx := if frTyp f = 0 then y.tx else wrapAdd y.tx 1 }).emit (.linkUnit p w f (unitCrc w f))

/-- An IDLE unit, which repeats the last LSEQ sent. -/
def State.sendIdle (s : State) (p : PortId) (nak : Bool) : State :=
  s.emitUnit p (wrapAdd (s.ports[p.val]).lseq 0xFFFF) nak idleFrame

/-- The slots that have no frame carry IDLE units (R306): the model sends the one that carries news, an ACKSEQ not sent yet
or link credits owed, and leaves its repetitions out (log entry 142). -/
def State.idleSlot (s : State) (p : PortId) : State :=
  let x := s.ports[p.val]
  if x.up && (x.expect != x.ackSent || x.owed.toList.any fun n => decide (0 < n)) then s.sendIdle p false else s

/-- The frame of a block type ends its block. -/
def frEnds (f : Frame) : Bool := fld f.hdr 7 3 == 16

/-- Arbitration of a link unit: the frames of a port that went down first, in order (R320), then VC 7, then VC 6, then VCs 0 to 5
round robin by block, each only with a credit (R314). -/
def PortSt.next (p : PortSt) : Option Frame :=
  let paidFor (f : Frame) : Option Frame := if 0 < p.credits[(frVc f).val] then some f else none
  match p.moved with
  | f :: _ => paidFor f
  | [] =>
    let first (v : Nat) : Option Frame := (p.queue.find? fun f => (frVc f).val == v).bind paidFor
    let turns := (List.range 6).map fun k => (p.turn + (if p.inBlock then k else k + 1)) % 6
    (7 :: 6 :: turns).findSome? first

/-- A frame that leaves goes out of the list where it waited. -/
def PortSt.unqueue (p : PortSt) (f : Frame) : PortSt :=
  if p.moved.isEmpty then { p with queue := p.queue.erase f } else { p with moved := p.moved.drop 1 }

/-- A page of a fetch has left its port: with the last one the entry's SERVE falls (R223). -/
def State.pageSent (s : State) (f : Frame) : State :=
  match s.env.serving.find? fun x => x.frame == f with
  | none => s
  | some x =>
    let env := s.env
    let s := { s with env := { env with serving := env.serving.erase x } }
    s.modLed x.engine fun l => { l with
      entries := l.entries.map fun y => if y.1 == x.entry then (y.1, { y.2 with serve := y.2.serve - 1 }) else y }

/-- A frame on its way to another module has left the receive buffer of the port where it came in: its link credit is owed
there (R314). -/
def State.leaves (s : State) (f : Frame) : State :=
  match s.env.transit.find? fun x => x.2 == f with
  | none => s
  | some x =>
    let env := s.env
    let s := { s with env := { env with transit := env.transit.erase x } }
    (s.modPort x.1 fun y => { y with owed := y.owed.set (frVc f).val (y.owed[(frVc f).val] + 1) }).idleSlot x.1

/-- Frames leave while the port is up, holds credits and has room in its retry buffer of 4,096 units; while that is full,
IDLE units do. -/
def State.drain (s : State) (p : PortId) : Nat → State
  | 0 => s
  | n + 1 =>
    let x := s.ports[p.val]
    if x.up then
      match x.next with
      | none => s
      | some f =>
        if 4096 ≤ x.retry.length then s.idleSlot p
        else
          let s := s.emitUnit p x.lseq false f
          let v := (frVc f).val
          (((s.modPort p fun y => { y.unqueue f with
            lseq := wrapAdd y.lseq 1, retry := y.retry ++ [{ seqNo := x.lseq, frame := f, replays := 0 }]
            turn := if v < 6 then v else y.turn
            inBlock := if v < 6 then !(frEnds f) else y.inBlock
            credits := y.credits.set (frVc f).val (y.credits[(frVc f).val] - 1) }).pageSent f).leaves f).drain p n
    else s

/-- Frames that wait at a port leave as far as they can. -/
def State.drainPort (s : State) (p : PortId) : State :=
  s.drain p ((s.ports[p.val]).moved.length + (s.ports[p.val]).queue.length)

def State.pushPort (s : State) (p : PortId) (fs : List Frame) : State :=
  (s.modPort p fun x => { x with queue := x.queue ++ fs }).drainPort p

/-- The ports of an entry that are up, lowest first. -/
def State.upPort (s : State) (ports : BitVec 48) : Option PortId :=
  (List.finRange 48).find? fun p => bitAt ports p.val && (s.ports[p.val]).up

/-- The peer on whose ports frames for a peer leave, through NEXT_HOP entries (R320). -/
def State.hop (s : State) (i : Nat) : Nat → Option (Nat × BitVec 48)
  | 0 => none
  | n + 1 =>
    match s.peerEnt i with
    | none => none
    | some e => if e.ports = 0 then s.hop e.nextHop n else some (i, e.ports)

/-- The port in use for the frames of a peer with PORTS: the one used last while it is UP, else the lowest that is UP (R320). -/
def State.portUp (s : State) (j : Nat) (ports : BitVec 48) : Option PortId :=
  match (s.peer j).port with
  | some q => if (s.ports[q.val]).up then some q else s.upPort ports
  | none => s.upPort ports

/-- The port on which frames for a peer leave; a peer all of whose ports are down keeps its frames at the lowest of them. -/
def State.route (s : State) (i : Nat) (n : Nat) : Option PortId :=
  (s.hop i n).bind fun h => (s.portUp h.1 h.2).orElse fun _ => (List.finRange 48).find? fun p => bitAt h.2 p.val

/-- Frames on the route of peer i; the port that carries them is the one in use from now on. -/
def State.sendOn (s : State) (i : Nat) (fs : List Frame) : State :=
  match s.hop i 4096 with
  | none => s
  | some h =>
    match s.route i 4096 with
    | some p => (s.modPeer h.1 fun x => { x with port := some p }).pushPort p fs
    | none => s

/-- Frames for peer i leave on its route; frames for a lost peer are dropped. -/
def State.sendFrames (s : State) (i : Nat) (fs : List Frame) : State :=
  if (s.peer i).state = 4 then s else s.sendOn i fs

/-- A control frame of up to any length, in fragments of 256 bytes (R310). -/
def ctrlFrames (typ vc : Nat) (src dst : BitVec 12) (payload : List Byte) : List Frame :=
  (List.range (max 1 ((payload.length + 255) / 256))).map fun k =>
    { hdr := mkHdr typ vc src dst (k % 32 * 8), payload := pad (slice payload (k * 256) 256) 256 }

def State.sendCtrl (s : State) (i : Nat) (typ vc : Nat) (payload : List Byte) : State :=
  match s.peerEnt i with
  | none => s
  | some e => s.sendFrames i (ctrlFrames typ vc s.ownModule e.module payload)

/-! Payloads of R313. -/

def State.sendCredit (s : State) (i : Nat) (plane : Bool) (count msgBytes : Nat) : State :=
  s.sendCtrl i 0x3 7 ([0x01, if plane then 1 else 0] ++ toBytes (BitVec.ofNat 16 count) 2 ++
    toBytes (BitVec.ofNat 32 msgBytes) 4)

/-- An ACK carries no BLOCK; a resend request its low 16 bits (log entry 143). -/
def State.sendMsgCtrl (s : State) (i : Nat) (resend plane : Bool) (seqNo : W32) (block : Nat) : State :=
  s.sendCtrl i 0x4 7 ([if resend then 0x02 else 0x01, if plane then 1 else 0, 0, 0] ++ toBytes seqNo 4 ++
    toBytes (BitVec.ofNat 16 (if resend then block else 0)) 2)

/-- REQUEST of KIND 1 FETCH, 2 READ, 3 REFUSE, 4 COMMIT, 5 COMMIT_ACK. -/
def State.sendRequest (s : State) (i : Nat) (kind : Byte) (q : ReqFrame) : State :=
  s.sendCtrl i 0x5 7 ([kind, q.req, BitVec.ofNat 8 q.engine.val, BitVec.ofNat 8 q.chan.val] ++ toBytes q.object 8 ++
    toBytes q.version 6 ++ toBytes q.first 4 ++ toBytes q.count 4 ++ [q.status.code])

def State.sendNorm (s : State) (i : Nat) (payload : List Byte) : State := s.sendCtrl i 0x7 6 payload

/-! ### Admission of the sender (R29, R322) -/

/-- A frame or request of a peer that is not admitted is dropped at the port in use. -/
def State.dropUnadmitted (s : State) (peer : Nat) : State :=
  match s.route peer 4096 with
  | some p => s.modPort p fun z => { z with unadmitted := satAdd z.unadmitted 1 }
  | none => s

def State.admitted (s : State) (peer : Nat) : Bool := (s.peer peer).state == 2

/-! ### Sealed blocks (R325) -/

/-- The 96-bit nonce of a sealed block. -/
def linkNonce (epoch : Bool) (vc : Fin 8) (ctr : BitVec 48) : BitVec 96 :=
  BitVec.ofNat 96 ((if epoch then 2 ^ 95 else 0) ||| vc.val <<< 92 ||| ctr.toNat)

/-- The 17 frames of a block with their headers (R311); bits 96:8 of the headers are given. -/
def blockFrames (typ : Nat) (vc : Fin 8) (src dst : BitVec 12) (low : Nat) (zero : Bool) (data trailer : List Byte) :
    List Frame :=
  (if zero then [] else (List.range 16).map fun k =>
    ({ hdr := mkHdr typ vc.val src dst (low ||| k * 8), payload := slice data (k * 256) 256 } : Frame)) ++
  [{ hdr := mkHdr typ vc.val src dst (low ||| 16 * 8), payload := pad trailer 256 }]

/-- The additional data of a sealed block: the frame headers and trailer bytes 0x00 to 0x1F (R325). -/
def blockAad (typ : Nat) (vc : Fin 8) (src dst : BitVec 12) (low : Nat) (zero : Bool) (x : Sideband) : List Byte :=
  ((blockFrames typ vc src dst low zero [] []).flatMap fun f => toBytes f.hdr 16) ++ x.bytes

/-- The frames of a block for peer i, encrypted between the modules of a sealed job, and the state with its counter on. Without a
key of that peer, which is then not admitted, a sealed job's block does not leave (R322, R325). -/
def State.blockFor (s : State) (i : Nat) (typ : Nat) (vc : Fin 8) (low : Nat) (zero : Bool) (data : List Byte)
    (x : Sideband) (st : Status) : List Frame × State :=
  match s.peerEnt i with
  | none => ([], s)
  | some e =>
    let p := s.peer i
    let src := s.ownModule
    if (s.sealedJob && !e.storage) = false then
      (blockFrames typ vc src e.module low zero data
        (x.bytes ++ List.replicate 16 0 ++ [if zero then 1 else 0, st.code]), s)
    else
      match p.keyTx with
      | none => ([], s)
      | some k =>
        let (ct, tag) := Config.gcmSeal k (linkNonce p.epoch vc (BitVec.ofNat 48 p.ctrTx[vc.val]))
          (blockAad typ vc src e.module low zero x) (if zero then [] else data)
        (blockFrames typ vc src e.module low zero ct
          (x.bytes ++ toBytes tag 16 ++ [(if zero then 1 else 0) ||| (if p.epoch then 2 else 0), st.code]),
          s.modPeer i fun p => { p with ctrTx := p.ctrTx.set vc.val (p.ctrTx[vc.val] + 1) })

/-- A block sent to peer i. -/
def State.sendBlock (s : State) (i : Nat) (typ : Nat) (vc : Fin 8) (low : Nat) (zero : Bool) (data : List Byte)
    (x : Sideband) (st : Status) : State :=
  let r := s.blockFor i typ vc low zero data x st
  r.2.sendFrames i r.1

/-- The counter of the blocks received on a channel in an epoch, one higher. -/
def PeerSt.counted (p : PeerSt) (epoch : Bool) (vc : Fin 8) : PeerSt :=
  if epoch = p.epoch then { p with ctrRx := p.ctrRx.set vc.val (p.ctrRx[vc.val] + 1) }
  else { p with ctrOld := p.ctrOld.set vc.val (p.ctrOld[vc.val] + 1) }

/-- The first block of the epoch in use on every channel retires the old key. -/
def PeerSt.seen (p : PeerSt) (epoch : Bool) (vc : Fin 8) : PeerSt :=
  if epoch = p.epoch then
    let n := p.newOn.set vc.val true
    { p with newOn := n, oldRx := if n.toList.all id then none else p.oldRx }
  else p

/-- A received block opened: its plaintext, or none where the tag fails or there is no key, which counts at the port in use. The
counter of its channel and epoch goes on with every block (R325). -/
def State.openBlock (s : State) (i typ : Nat) (vc : Fin 8) (low : Nat) (zero epoch : Bool) (data : List Byte) (x : Sideband)
    (tag : BitVec 128) : Option (List Byte) × State :=
  match s.peerEnt i with
  | none => (none, s)
  | some e =>
    if s.sealedJob = false ∨ e.storage = true then (some data, s)
    else
      let p := s.peer i
      let own := epoch == p.epoch
      let ctr := if own then p.ctrRx[vc.val] else p.ctrOld[vc.val]
      let pt := (if own then p.keyRx else p.oldRx).bind fun k =>
        Config.gcmOpen k (linkNonce epoch vc (BitVec.ofNat 48 ctr)) (blockAad typ vc e.module s.ownModule low zero x)
          (if zero then [] else data) tag
      let s := s.modPeer i fun p => p.counted epoch vc
      match pt with
      | some d => (some d, s.modPeer i fun p => p.seen epoch vc)
      | none => (none, s.dropUnadmitted i)

/-! ### Receiving (R307, R321) -/

/-- Units that an ACKSEQ passes leave the retry buffer. -/
def ackRetry (ack : W16) (l : List RetryUnit) (next : W16) : List RetryUnit :=
  if ack = next then [] else if l.any fun u => u.seqNo == ack then l.dropWhile fun u => u.seqNo != ack else l

/-- The peer that port p leads to, with a direct fibre. -/
def State.portPeer (s : State) (p : PortId) : Option Nat := s.peersSec.bind fun q => q.entries.findIdx? fun e => bitAt e.ports p.val

/-- The ports with a direct fibre to the peer that port p leads to. -/
def State.sisterPorts (s : State) (p : PortId) : BitVec 48 :=
  match (s.portPeer p).bind s.peerEnt with
  | some e => e.ports
  | none => 0

/-- Frames of a port that went down and of its queue taken over by another port of the peer, which is the one in use from now
on (R320). -/
def State.takeOverFrames (s : State) (p q : PortId) (ms fs : List Frame) : State :=
  let s := match s.portPeer p with
    | some j => s.modPeer j fun x => { x with port := some q }
    | none => s
  (s.modPort q fun x => { x with moved := x.moved ++ ms, queue := x.queue ++ fs }).drainPort q

/-- A port goes down: the accepted frames of a block on its way through stay, its receive buffers otherwise start afresh.
Unacknowledged units, in LSEQ order, then waiting frames, move to the next port that is up of the same peer; with none they
wait (R308, R311, R320). -/
def State.portDown (s : State) (p : PortId) : State :=
  let x := s.ports[p.val]
  let ms := x.retry.map (·.frame) ++ x.moved
  let env := s.env
  let s := { s with env := { env with transit := env.transit.filter fun y => y.1 != p } }
  let s := s.modPort p fun x => { x with state := 0, retry := [], moved := [], queue := [], inBlock := false }
  match s.upPort (s.sisterPorts p) with
  | some q => s.takeOverFrames p q ms x.queue
  | none => s.modPort p fun y => { y with moved := ms, queue := x.queue }

/-- Every held unit is sent again, in order; a unit that has been replayed REPLAY_LIMIT times takes its port down (R308). -/
def State.replayUnits (s : State) (p : PortId) : State :=
  let x := s.ports[p.val]
  let us := x.retry
  if us.any fun u => decide (fld x.cfg 7 0 ≤ u.replays) then s.portDown p
  else
    let s := us.foldl (fun s u => s.emitUnit p u.seqNo false u.frame) s
    s.modPort p fun x => { x with
      replayed := wrapAdd x.replayed us.length, retry := x.retry.map fun u => { u with replays := u.replays + 1 } }

/-- Frames for another module leave on the route of its entry, whatever the entry's state; those that have none are dropped and
counted, and their buffers are free (R321). -/
def State.passFrames (s : State) (p : PortId) (i : Nat) (fs : List Frame) : State :=
  if (s.route i 4096).isNone then
    fs.foldl State.leaves (s.modPort p fun x => { x with noRoute := satAdd x.noRoute fs.length })
  else s.sendOn i fs

/-- A frame is for another module that has a peer entry. -/
def State.forwards (s : State) (f : Frame) : Bool :=
  decide (frTyp f < 0xA) && frDst f != s.ownModule && (s.peerOf (frDst f)).isSome

/-- The receive buffer of an accepted frame: a frame on its way keeps it, any other gives its link credit back at once
(R314). -/
def State.buffer (s : State) (p : PortId) (f : Frame) : State :=
  if s.forwards f then
    let env := s.env
    { s with env := { env with transit := env.transit ++ [(p, f)] } }
  else s.modPort p fun x => { x with owed := x.owed.set (frVc f).val (x.owed[(frVc f).val] + 1) }

/-- A frame on its way through (R311, R321): control frames at once, those of a block together with its trailer, so that no
other block's frames come between them. The frames of a block may have come in on another port of the same neighbour, which
has gone down since. -/
def State.forwardFrame (s : State) (p : PortId) (i : Nat) (f : Frame) : State :=
  if frTyp f = 1 ∨ frTyp f = 2 ∨ frTyp f = 6 then
    let mine (g : Frame) : Bool := frVc g == frVc f && frSrc g == frSrc f && frDst g == frDst f
    if frEnds f then
      let qs := p :: (List.finRange 48).filter fun q => bitAt (s.sisterPorts p) q.val && q != p
      let fs := qs.reverse.flatMap fun q => (s.ports[q.val]).part.filter mine
      (qs.foldl (fun s q => s.modPort q fun x => { x with part := x.part.filter fun g => !(mine g) }) s).passFrames p i (fs ++ [f])
    else s.modPort p fun x => { x with part := x.part ++ [f] }
  else s.passFrames p i [f]

/-- A frame that the link has accepted: dropped by its counter, forwarded, or taken. -/
def State.takeFrame (s : State) (p : PortId) (f : Frame) : State :=
  if 0xA ≤ frTyp f then s.modPort p fun x => { x with badType := satAdd x.badType 1 }
  else if frDst f ≠ s.ownModule then
    match s.peerOf (frDst f) with
    | none => s.modPort p fun x => { x with noRoute := satAdd x.noRoute 1 }
    | some i => s.forwardFrame p i f
  else if frTyp f = 8 ∨ frTyp f = 9 then s
  else
    let ok := match s.peerOf (frSrc f) with
      | some i => decide ((s.peer i).state = 2)
      | none => false
    if ok then s else s.modPort p fun x => { x with unadmitted := satAdd x.unadmitted 1 }

/-- ACKSEQ, credits and NAK of an accepted or IDLE unit. -/
def State.takePrefix (s : State) (p : PortId) (pfx : W64) : State :=
  let ack : W16 := BitVec.ofNat 16 (fld pfx 47 32)
  let vc : Fin 8 := Fin.ofNat 8 (fld pfx 30 28)
  let x := s.ports[p.val]
  let left := ackRetry ack x.retry x.lseq
  let s := s.modPort p fun x => { x with
    retry := left
    credits := x.credits.set vc.val (min 512 (x.credits[vc.val] + fld pfx 27 16)) }
  let s := if bitAt pfx 31 then s.replayUnits p else s
  s.drainPort p

/-- A link unit at port p: in sequence it is taken; otherwise it is discarded, and the first such discard after the last
accepted unit sends a NAK. -/
def linkUnit (p : PortId) (pfx : W64) (f : Frame) (crcOk : Bool) (fecBad fecCorrected : Nat) (s : State) : State :=
  if (s.ports[p.val]).up = false then s
  else
    let s := s.modPort p fun x => { x with
      fecCorrected := satAdd x.fecCorrected fecCorrected
      fecUncorrectable := satAdd x.fecUncorrectable fecBad }
    let x := s.ports[p.val]
    let seqNo : W16 := BitVec.ofNat 16 (fld pfx 63 48)
    let idle := frTyp f == 0
    let inSeq := if idle then wrapAdd seqNo 1 == x.expect else seqNo == x.expect
    if crcOk && fecBad == 0 && inSeq then
      let s := s.takePrefix p pfx
      if idle then s.idleSlot p
      else
        let s := s.modPort p fun x => { x with
          expect := wrapAdd x.expect 1, nakSent := false, rx := wrapAdd x.rx 1 }
        ((s.buffer p f).takeFrame p f).idleSlot p
    else if x.nakSent then s
    else (s.modPort p fun x => { x with naks := satAdd x.naks 1, nakSent := true }).sendIdle p true

def execLinkUnit (p : PortId) (pfx : W64) (f : Frame) (crcOk : Bool) (fecBad fecCorrected : Nat) (s : State) : Res :=
  .next (linkUnit p pfx f crcOk fecBad fecCorrected s)

/-- RETRY_TIMEOUT: no progress while units are outstanding. -/
def execRetryTimeout (p : PortId) (s : State) : Res :=
  .next (if (s.ports[p.val]).up && !(s.ports[p.val]).retry.isEmpty then s.replayUnits p else s)

/-! ### Ports down and up (R308, R320) -/

/-- A port as training leaves it: sequence numbers afresh and the 512 frame buffers of each channel free (log entry 17). -/
def PortSt.trained (x : PortSt) (far : BitVec 12) : PortSt :=
  { x with
    state := 2, farModule := far, failed := 0, lseq := 0, retry := [], expect := 0, nakSent := false
    credits := Vector.replicate 8 512, owed := Vector.replicate 8 0, turn := 0, inBlock := false, ackSent := 0 }

/-- Frames that waited at the other ports of a peer, none of them up, move to the port that has come up. -/
def State.gatherFrames (s : State) (p : PortId) : State :=
  let others := (List.finRange 48).filter fun q => bitAt (s.sisterPorts p) q.val && q != p && !(s.ports[q.val]).up
  let ms := others.flatMap fun q => (s.ports[q.val]).moved
  let fs := others.flatMap fun q => (s.ports[q.val]).queue
  let s := others.foldl (fun s q => s.modPort q fun x => { x with moved := [], queue := [] }) s
  (s.modPort p fun x => { x with moved := x.moved ++ ms, queue := x.queue ++ fs }).drainPort p

def execPortDown (p : PortId) (s : State) : Res :=
  .next (if (s.ports[p.val]).state = 3 then s else s.portDown p)

/-- The preset of a training: the installer's link-equalisation table is compared with its envelope (R483). -/
def State.presetCheck (s : State) (p : PortId) (r : Readings) : State :=
  let c := match s.pwr.heldCurve 0x09 (BitVec.ofNat 8 p.val) with
    | some c => some c
    | none => s.pwr.heldCurve 0x09 0xFF
  match c with
  | none => s
  | some c =>
    if c.curve.holds r.power (hottestOf r fun i => i == islPort p) s.glb.droop then s
    else s.envelopeEvent 0x09 c.curve.id

/-- The end of a retrain: UP; or another attempt follows; or the third failure in a row takes the port out of service. -/
def portTraining (p : PortId) (good : Bool) (far : BitVec 12) (rx : Readings) (s : State) : State :=
  let x := s.ports[p.val]
  if x.state = 3 ∨ x.state = 2 ∨ s.glb.ref156 = false then s
  else
    let s := (s.modPort p fun x => { x with retrains := satAdd x.retrains 1 }).presetCheck p rx
    if good then
      let s := s.modPort p fun x => x.trained far
      let s := s.modGlb fun g => { g with portAvail := setBit g.portAvail p.val true }
      s.gatherFrames p
    else if x.failed + 1 < 3 then s.modPort p fun x => { x with failed := x.failed + 1, state := 1 }
    else (s.modPort p fun x => { x with failed := 3, state := 3 }).portLost p

def execPortTrainingDone (p : PortId) (good : Bool) (farModule : BitVec 12) (rx : Readings) (s : State) : Res :=
  .next (portTraining p good farModule rx s)

end Sys2Proof.Machine
end

