-- ==== Sys2Proof/Machine/Vector.lean ====
section
/-! DEFINITION. The vector engine and the reduction unit: lanes, register operations, loads, stores, carry blocks,
gathers, home adds, reductions, duplex mode (06 R158 to R175, R183 to R185). -/

namespace Sys2Proof.Machine

/-! ### Register operations on one lane (R163, R164, R116, R117, R122) -/

inductive VecOp
  | nop | add | sub | mul | fma | min | max | abs | neg | cmplt | cmple | cmpeq | sel
  | exp2 | log2 | rcp | rsqrt | sqrt | tanh | erf
deriving DecidableEq, Repr

/-- The denomination of a TYPE, with the OVERFLOW mode of its entry. -/
def State.vecDenom (s : State) (ty : Fin 4) : Denom :=
  match ty.val with
  | 0 => s.fp32
  | 1 => dBf16 (s.denom 4).ieee
  | 2 => dFp16 (s.denom 5).ieee
  | _ => s.fp64

def laneBytes (ty : Fin 4) : Nat :=
  match ty.val with
  | 0 => 4 | 1 => 2 | 2 => 2 | _ => 8

def laneCount (ty : Fin 4) : Nat := 1024 / laneBytes ty

def codeOf (d : Denom) (o : Out) : Nat × Exc :=
  (d.encode o.val, { o.exc with nan := o.exc.nan || o.val.isNan })

/-- A value within k ulp of the function's that the manual does not fix to the bit (R164): a free value, bounded; of an
operand at which the manual states no result (an infinite one, log2 of 0), a free value alone (log entry 10). -/
def openFn (d : Denom) (ty : Fin 4) (f : Nat → W64 → W64) (k : Nat) (y : Option Num) (a : Nat) : Nat × Exc :=
  let c := (f ty.val (BitVec.ofNat 64 a)).toNat % 2 ^ d.bits
  match y with
  | some y => codeOf d (openVal d k c y)
  | none => (c, Exc.none)

def nanOut (d : Denom) (inv : Bool) : Nat × Exc := codeOf d (outNan inv)

/-- One lane of a register operation. -/
def VecOp.lane (op : VecOp) (d : Denom) (ty : Fin 4) (a b c : Nat) : Nat × Exc :=
  let x := d.decode a
  let y := d.decode b
  let z := d.decode c
  let ones : Nat := 2 ^ d.bits - 1
  let cmp (t : Bool) : Nat × Exc := (if t then ones else 0, Exc.none)
  match op with
  | .nop => (a, Exc.none)
  | .add => codeOf d (d.done false (numAdd x y))
  | .sub => codeOf d (d.done false (numAdd x (numNeg y)))
  | .mul => codeOf d (d.done false (numMul x y))
  | .fma =>
    let p := numMul x y
    codeOf d (if z.isNan then outNan false
      else if p.2 then outNan true
      else d.done false (numAdd p.1 z))
  | .min => codeOf d { val := numMin x y, exc := Exc.none }
  | .max => codeOf d { val := numMax x y, exc := Exc.none }
  | .abs => if x.isNan then nanOut d false else (a % 2 ^ (d.bits - 1), Exc.none)
  | .neg =>
    if x.isNan then nanOut d false
    else (if a < 2 ^ (d.bits - 1) then a + 2 ^ (d.bits - 1) else a - 2 ^ (d.bits - 1), Exc.none)
  | .cmplt => cmp (numLt x y)
  | .cmple => cmp (numLt x y || numEq x y)
  | .cmpeq => cmp (numEq x y)
  | .sel => if (if z.isZero then y else x).isNan then nanOut d false else (if z.isZero then b else a, Exc.none)
  | .exp2 =>
    if x.isNan then nanOut d false
    else match x with
      | .fin _ _ _ =>
        if numLt x (.fin false (2 ^ d.expBits - 1 - d.bias) 0) then
          openFn d ty Config.exp2 1 (some (exp2Fix (toFix x))) a
        else codeOf d (d.overflow false)
      | _ => openFn d ty Config.exp2 1 none a
  | .log2 =>
    if x.isNan then nanOut d false
    else if numNegative x && !x.isZero then nanOut d true
    else openFn d ty Config.log2 1 (match x with
      | .fin _ m e => if m = 0 then none else some (log2Num m e)
      | _ => none) a
  | .rcp => if x.isZero then codeOf d (d.overflow (numNegative x)) else codeOf d (d.done false (numDiv numOne x))
  | .rsqrt =>
    if x.isNan then nanOut d false
    else if x.isZero then codeOf d (d.overflow (numNegative x))
    else if numNegative x then nanOut d true
    else openFn d ty Config.rsqrt 1 (match x with
      | .fin _ _ _ => some (rsqrtNum x)
      | _ => none) a
  | .sqrt => codeOf d (d.done false (numSqrt x))
  | .tanh =>
    if x.isNan then nanOut d false
    else openFn d ty Config.tanh 2 (match x with
      | .fin _ _ _ => some (tanhNum x)
      | _ => none) a
  | .erf =>
    if x.isNan then nanOut d false
    else openFn d ty Config.erf 2 (match x with
      | .fin _ _ _ => some (erfNum x)
      | _ => none) a

/-- The immediate, rounded once to TYPE. -/
def immCode (d : Denom) (w : W32) : Nat := d.encode (d.result false (f32 w)).val

/-! ### Vector registers -/

def vrAddr (r : Nat) (ty : Fin 4) (lane : Nat) : Nat := r * 1024 + lane * laneBytes ty

def EngVec.lane (v : EngVec) (r : Nat) (ty : Fin 4) (lane : Nat) : Nat :=
  ofBytes (memRead v.vr (vrAddr r ty lane) (laneBytes ty))

def EngVec.setLane (v : EngVec) (r : Nat) (ty : Fin 4) (lane code : Nat) : EngVec :=
  { v with vr := memWrite v.vr (vrAddr r ty lane) (toBytes (BitVec.ofNat 64 code) (laneBytes ty)) }

/-! ### Runs, positions and lanes (R165, R166) -/

/-- The run an instruction belongs to: its layer, program TYPE, driving descriptor, tile and lanes. -/
structure RunCtx where
  e : EngineId
  layer : Nat
  d : Option LayerDesc
  mb : W16
  entry : Option FloatEntry
  ty : Fin 4
  drv : Option TensorDesc
  tile : Option ClosedTile
  pos : Nat
  step : StepNo
  bwd : Bool
  /-- the instruction's number in its program; an instruction sent alone: 256 and its operation and slot -/
  num : Nat

def runProg (d : LayerDesc) (prog : Nat) : Nat × Nat :=
  match prog with
  | 0 => (d.fwdProg, d.fwdLen)
  | 1 => (d.preProg, d.preLen)
  | _ => (d.postProg, d.postLen)

/-- TYPE of a program: that of its arithmetic instructions. -/
def progType (is : List W64) : Fin 4 :=
  match is.find? fun w => opcOf w % 64 < 0x38 && opcOf w % 64 != 0 with
  | some w => Fin.ofNat 4 (opcOf w / 64)
  | none => 0

def State.runCtx (s : State) (e : EngineId) : RunCtx :=
  let en := s.eng[e.val]
  let r := en.vec.run
  let d := s.layer r.layer
  let is := match d with
    | some d => s.program (runProg d r.prog).1 (runProg d r.prog).2
    | none => []
  { e := e, layer := r.layer, d := d, mb := r.mb, entry := en.entry r.mb, ty := progType is
    drv := match d, is with
      | some d, w :: _ => s.td d (slotOf w)
      | _, _ => none
    tile := r.tile, pos := r.pos, step := s.curStep, num := 256
    bwd := match r.tile with
      | some t => t.key.kind == .dx || t.key.kind == .dw || (t.key.kind == .elem && r.prog != 0)
      | none => false }

def tileRows (t : ClosedTile) : Nat := fld t.record.w2 29 17
def tileCols (t : ClosedTile) : Nat := fld t.record.w2 16 10
def tileNIdx (t : ClosedTile) : Nat := fld t.record.w2 63 50
def tileMIdx (t : ClosedTile) : Nat := fld t.record.w1 15 0
def tileAcc (t : ClosedTile) : Nat := fld t.record.w2 44 30

/-- Columns of a tile's blocks: NW, or those of an element-wise layer. -/
def tileWidth (d : LayerDesc) : Nat := if d.arrKind = 2 then elemCols else max 1 d.nw

/-- Row and column origin of the run's tile. -/
def RunCtx.origin (c : RunCtx) : Nat × Nat :=
  match c.tile, c.d with
  | some t, some d => (tileMIdx t * (if c.bwd then 256 else d.mTile), tileNIdx t * tileWidth d)
  | _, _ => (0, 0)

/-- The tile holds FP64 values. -/
def RunCtx.dbl (c : RunCtx) (s : State) : Bool :=
  match c.d with
  | some d => !c.bwd && d.fp64 s
  | none => false

def RunCtx.byTile (c : RunCtx) : Bool :=
  match c.drv with
  | some t => t.kind == 2
  | none => false

/-- Positions of the run. -/
def RunCtx.positions (c : RunCtx) (s : State) : Nat :=
  match c.drv with
  | none => 0
  | some t =>
    if t.kind = 2 then
      match c.tile with
      | some x => ceilDiv (tileRows x) (if c.dbl s then 2 else 4)
      | none => 0
    else t.rows * ceilDiv t.cols (laneCount c.ty)

/-- Lanes with their coordinates in the driving descriptor; an inactive lane has none. Without a run every lane is active. -/
def RunCtx.lanes (c : RunCtx) (s : State) (ty : Fin 4) : List (Nat × Option (Nat × Nat)) :=
  (List.range (laneCount ty)).map fun l =>
    (l, match c.drv with
      | none => some (0, l)
      | some t =>
        if t.kind = 2 then
          match c.tile with
          | none => none
          | some x =>
            let rows := if c.dbl s then 2 else 4
            let r := rows * c.pos + l / 64
            if l < rows * 64 ∧ r < tileRows x ∧ l % 64 < tileCols x then some (r, l % 64) else none
        else
          let n := laneCount c.ty
          let k := ceilDiv t.cols n
          let col := n * (c.pos % k) + l
          if c.pos / k < t.rows ∧ col < t.cols then some (c.pos / k, col) else none)

/-- A lane's coordinates in a descriptor. -/
def RunCtx.coord (c : RunCtx) (t : TensorDesc) (rc : Nat × Nat) : Nat × Nat :=
  let o := if t.tileRel then c.origin else (0, 0)
  (if t.bcastRow then 0 else rc.1 + o.1, if t.col0 then 0 else rc.2 + o.2)

/-- Extent of a descriptor. -/
def RunCtx.extent (c : RunCtx) (t : TensorDesc) : Nat × Nat :=
  if t.kind = 2 then
    match c.tile with
    | some x => (tileRows x, tileCols x)
    | none => (0, 0)
  else (t.rows, t.cols)

/-! ### Scales (R109, R160, R168) -/

def RunCtx.scaleWord (c : RunCtx) (s : State) (i : Nat) : Num :=
  match c.d with
  | some d => f32 (memW s.eng[c.e.val].store 32 (s.reloc c.e c.entry d.scaleAddr + 4 * i))
  | none => numOne

/-- The scale that a load of a tile applies: the product of the two sides' scales, rounded to FP32. -/
def RunCtx.tileScale (c : RunCtx) (s : State) : Option Out :=
  match c.tile, c.d with
  | some t, some d =>
    let a := (s.denom (fld t.record.w0 15 12)).perTensor
    let b := (s.denom (fld t.record.w0 11 8)).perTensor
    if d.scaleValid && (a || b) then
      some (s.fp32.done false (numMul (if a then c.scaleWord s 0 else numOne) (if b then c.scaleWord s 1 else numOne)))
    else none
  | _, _ => none

/-! ### Loads (R161, R168) -/

/-- The element of a home, zero where its band has not been touched (R145, R146). -/
def State.homeElem (s : State) (e : EngineId) (h : HomeRec) (n k : Nat) : W32 :=
  let row := k / max 1 h.nw * h.colRows + n
  let band := row / 16
  if s.isTouched e h.paramId band = false then 0
  else if band < h.accBands then accGet s.eng[e.val].acc (h.accRow + row) (k % max 1 h.nw)
  else
    let (ctl, page) := h.place e band
    rdW 32 (s.readPage ctl page).1 ((row % 16 * 64 + k % max 1 h.nw) * 4)

/-- The value at a coordinate of a descriptor, as a number; or the integer of an index tensor. -/
inductive Loaded
  | num (x : Num) (scaled : Bool)
  | word (w : W32)

def RunCtx.load (c : RunCtx) (s : State) (t : TensorDesc) (rc : Nat × Nat) : Loaded :=
  let en := s.eng[c.e.val]
  let a := s.reloc c.e c.entry t.addr
  let den := s.denom t.den
  match t.kind with
  | 2 =>
    match c.tile with
    | none => .num .nan false
    | some x =>
      let i8 := (s.denom (fld x.record.w0 15 12)).isInt && (s.denom (fld x.record.w0 11 8)).isInt && !c.bwd
      if i8 then .num ((s.fp32.result false (numOfInt (toInt 32 (accGet en.acc (tileAcc x + rc.1) rc.2).toNat))).val) true
      else if c.dbl s then .num (f64 (acc64Get en.acc (tileAcc x + 2 * rc.1) rc.2)) true
      else .num (f32 (accGet en.acc (tileAcc x + rc.1) rc.2)) true
  | 3 =>
    match s.homeRec c.e.val t.paramId with
    | some h => .num (f32 (s.homeElem c.e h rc.1 rc.2)) false
    | none => .num (.fin false 0 0) false
  | 4 =>
    let x := panelElem den en.store a t.cols (max 1 t.nw) rc.2 rc.1
    .num (numScale x.1 x.2) false
  | 5 => .word (memW en.store 32 (a + rc.1 * t.rowStride + rc.2 * 4))
  | _ =>
    let x := rowElem den en.store (a + rc.1 * t.rowStride) t.cols rc.2
    .num (numScale x.1 x.2) false

/-- A loaded value as a lane of the program's TYPE, the tile's scale applied. -/
def RunCtx.laneOf (c : RunCtx) (s : State) (sc : Option Out) (x : Loaded) : Nat × Exc :=
  let d := s.vecDenom c.ty
  match x with
  | .word w => (w.toNat % 2 ^ d.bits, Exc.none)
  | .num v byTile =>
    codeOf d (match (if byTile then sc else none) with
      | some k => d.done false (numMul v k.val)
      | none => d.result false v)

/-! ### Exceptions and conversions counted (R127, R128, R183, R187) -/

def excCount (c : ExcCnt) (x : Exc) : ExcCnt :=
  { c with
    inv := c.inv + (if x.inv then 1 else 0), ovf := c.ovf + (if x.ovf then 1 else 0), nan := c.nan + (if x.nan then 1 else 0) }

def convCount (c : ExcCnt) (x : ConvEv) : ExcCnt :=
  match x with
  | .plain => c
  | .flush => { c with cFlush := c.cFlush + 1 }
  | .ovf => { c with cOvf := c.cOvf + 1 }
  | .inv => { c with cInv := c.cInv + 1 }
  | .nanBlk => { c with cNanBlk := c.cNanBlk + 1 }

def ExcCnt.plus (a b : ExcCnt) : ExcCnt where
  inv := a.inv + b.inv
  ovf := a.ovf + b.ovf
  nan := a.nan + b.nan
  cFlush := a.cFlush + b.cFlush
  cOvf := a.cOvf + b.cOvf
  cInv := a.cInv + b.cInv
  cNanBlk := a.cNanBlk + b.cNanBlk

def EngVec.count (v : EngVec) (c : ExcCnt) : EngVec :=
  { v with
    cnt := v.cnt.plus c
    excInv := satAdd v.excInv c.inv, excOvf := satAdd v.excOvf c.ovf, excNan := satAdd v.excNan c.nan
    convFlush := satAdd v.convFlush c.cFlush, convOvf := satAdd v.convOvf c.cOvf
    convInv := satAdd v.convInv c.cInv, convNanBlk := satAdd v.convNanBlk c.cNanBlk }

/-- Counts of work that belongs to no run. -/
def EngVec.tally (v : EngVec) (c : ExcCnt) : EngVec := { v.count c with cnt := v.cnt }

/-! ### Stores (R109, R169, R172) -/

/-- The code of the denomination that a TYPE has. -/
def typeDen (ty : Fin 4) : Nat :=
  match ty.val with
  | 0 => 6 | 1 => 4 | 2 => 5 | _ => 7

/-- The element i of a row written at its packed place. -/
def putElem (d : Denom) (m : Mem) (row i code : Nat) : Mem := putBits m row (i * d.storeBits) d.storeBits code

/-- The stream of a conversion, when the entry rounds stochastically. -/
def State.stream (s : State) (d : Denom) (step : StepNo) (mb : W16) (layer : Nat) (site : Byte) (i : Nat) : Option W16 :=
  if d.stoch then some (rndAt (rndStream (match s.job.charter with
    | some c => c.jobId
    | none => 0) step mb (BitVec.ofNat 64 layer) site) i) else none

/-- Elements of the block of a column, and the block's length. -/
def blockLen (d : Denom) (cols q : Nat) : Nat := min d.block (cols - q * d.block)

/-- A block q of a row straddles a tile boundary. -/
def straddles (d : Denom) (cols width q : Nat) : Bool :=
  q * d.block / width != (q * d.block + blockLen d cols q - 1) / width

/-- Straddling blocks before block q, in a row. -/
def straddleIdx (d : Denom) (cols width q : Nat) : Nat :=
  ((List.range q).filter fun i => straddles d cols width i).length

/-- A converted block written: element codes, then the scale byte after the row's elements. The codes missing from a short
last block are zero as far as the row's last byte holds them (R108). -/
def putBlock (d : Denom) (m : Mem) (row cols q : Nat) (b : Byte × List Nat) : Mem :=
  let m := (b.2.zipIdx).foldl (fun m (c : Nat × Nat) => putElem d m row (q * d.block + c.2) c.1) m
  let used := cols * d.storeBits
  let m := if q + 1 = ceilDiv cols d.block ∧ used % 8 ≠ 0 then putBits m row used (8 - used % 8) 0 else m
  memSet m (row + ceilDiv (cols * d.storeBits) 8 + q) b.1

/-- The carry slot of block q of a row (R172). -/
def RunCtx.carrySlot (c : RunCtx) (s : State) (t : TensorDesc) (row q : Nat) : Nat :=
  let d := s.denom t.den
  let width := match c.d with
    | some d => if c.tile.isSome then tileWidth d else t.cols
    | none => t.cols
  let cb := straddleIdx d t.cols width (ceilDiv t.cols d.block)
  s.reloc c.e c.entry t.carryAddr + (row * cb + straddleIdx d t.cols width q) * (4 * d.block + 64)

/-- One row segment of a store into a block-scaled descriptor: blocks that lie whole in the segment are converted, the
elements of others go to the carry area, and a block whose count reaches its length is converted from there. R106 speaks of
FP32 source values: an FP64 program's lanes of a whole block are converted straight from FP64, carried ones are rounded to
FP32 first (log entry 141). -/
def RunCtx.storeBlocks (c : RunCtx) (s : State) (t : TensorDesc) (site : Byte) (row : Nat) (seg : List (Nat × Num))
    (m : Mem) : Mem × ExcCnt :=
  let d := s.denom t.den
  let base := s.reloc c.e c.entry t.addr + row * t.rowStride
  let nq := ceilDiv t.cols d.block
  let zero : ExcCnt := ExcCnt.init
  let conv (m : Mem) (q : Nat) (xs : List Num) : Mem × ExcCnt :=
    let rs := (List.range xs.length).map fun i =>
      s.stream d c.step c.mb c.layer site (row * t.cols + q * d.block + i)
    let (sc, codes, evs) := d.convertBlock rs xs
    (putBlock d m base t.cols q (sc, codes), evs.foldl convCount zero)
  (List.range nq).foldl (fun (a : Mem × ExcCnt) q =>
    let mine := seg.filter fun x => x.1 / d.block == q
    if mine.isEmpty then a
    else if mine.length = blockLen d t.cols q then
      let r := conv a.1 q (mine.map (·.2))
      (r.1, a.2.plus r.2)
    else
      let slot := c.carrySlot s t row q
      let m := mine.foldl (fun m (x : Nat × Num) =>
        memWrite m (slot + x.1 % d.block * 4) (toBytes (toF32 (s.fp32.result false x.2).val) 4)) a.1
      let n := (memW m 32 (slot + 4 * d.block)).toNat + mine.length
      let m := memWrite m (slot + 4 * d.block) (toBytes (BitVec.ofNat 32 n) 4)
      if n = blockLen d t.cols q then
        let r := conv m q ((List.range n).map fun i => f32 (memW m 32 (slot + 4 * i)))
        (r.1, a.2.plus r.2)
      else (m, a.2)) (m, zero)

/-- A store through a descriptor is carried out on the run's tile (ONLY_DX, ONLY_ACT). -/
def RunCtx.storeOn (c : RunCtx) (t : TensorDesc) : Bool :=
  let k := c.tile.map fun x => x.key.kind
  (!t.onlyDx || k == some .dx) && (!t.onlyAct || k == some .dw)

/-- A value times a scale before it is converted: INVALID of an infinity times zero counts (R109, R116). -/
def scaleBy (v k : Num) : Num × ExcCnt :=
  let p := numMul v k
  (p.1, excCount ExcCnt.init { Exc.none with inv := p.2 })

/-- A value as it is converted into a denomination: times the layer's third scale word where that is per tensor (R109). -/
def RunCtx.scaledOut (c : RunCtx) (s : State) (d : Denom) (v : Num) : Num × ExcCnt :=
  if d.perTensor then scaleBy v (c.scaleWord s 2) else (v, ExcCnt.init)

/-- One element stored without block scales. -/
def RunCtx.storeElem (c : RunCtx) (s : State) (t : TensorDesc) (site : Byte) (rc : Nat × Nat) (code : Nat) (m : Mem) :
    Mem × ExcCnt :=
  let src := s.vecDenom c.ty
  let d := s.denom t.den
  let row := s.reloc c.e c.entry t.addr + rc.1 * t.rowStride
  if t.kind = 5 then (memWrite m (row + rc.2 * 4) (toBytes (BitVec.ofNat 32 code) 4), ExcCnt.init)
  else if t.den = typeDen c.ty then (putElem d m row rc.2 code, ExcCnt.init)
  else
    let v := c.scaledOut s d (src.decode code)
    let r := d.convert (s.stream d c.step c.mb c.layer site (rc.1 * t.cols + rc.2)) v.1
    (putElem d m row rc.2 r.1, convCount v.2 r.2)

/-- The bits of the stage store that an element of a descriptor holds: first bit and length. -/
def RunCtx.elemBits (c : RunCtx) (s : State) (t : TensorDesc) (rc : Nat × Nat) : Nat × Nat :=
  let d := s.denom t.den
  let a := s.reloc c.e c.entry t.addr
  if t.kind = 5 then ((a + rc.1 * t.rowStride + rc.2 * 4) * 8, 32)
  else if t.kind = 4 then
    let nw := max 1 t.nw
    (panelAddr d a t.cols (rc.2 / 256) (rc.1 / nw) * 8 + (rc.2 % 256 * 64 + rc.1 % nw) * d.storeBits, d.storeBits)
  else ((a + rc.1 * t.rowStride) * 8 + rc.2 * d.storeBits, d.storeBits)

/-- The elements of a load or store: coordinates of the active lanes within the descriptor's extent, with the lane. -/
def RunCtx.elems (c : RunCtx) (s : State) (t : TensorDesc) (idx : Option Nat) : List ((Nat × Nat) × Nat) :=
  let v := s.eng[c.e.val].vec
  let ext := c.extent t
  (c.lanes s c.ty).filterMap fun (l : Nat × Option (Nat × Nat)) =>
    match l.2 with
    | some rc =>
      let p := c.coord t rc
      let p := match idx with
        | some i => (v.lane i c.ty l.1, p.2)
        | none => p
      if p.1 < ext.1 ∧ p.2 < ext.2 then some (p, l.1) else none
    | none => none

/-- The byte that holds the block scale of an element (R74, R105). -/
def RunCtx.scaleAt (c : RunCtx) (s : State) (t : TensorDesc) (rc : Nat × Nat) : Option Nat :=
  let d := s.denom t.den
  let a := s.reloc c.e c.entry t.addr
  if d.block = 0 ∨ t.kind = 5 then none
  else if t.kind = 4 then
    let nw := max 1 t.nw
    let b := rc.2 / 256
    some (panelAddr d a t.cols b (rc.1 / nw) + min 256 (t.cols - b * 256) * 8 * d.storeBits + rc.2 % 256 / d.block * 64 + rc.1 % nw)
  else some (a + rc.1 * t.rowStride + ceilDiv (t.cols * d.storeBits) 8 + rc.2 / d.block)

/-- n words of the layer's scale record from the k-th on. -/
def RunCtx.scaleRange (c : RunCtx) (s : State) (k n : Nat) : List (Fin 4 × Nat × Nat) :=
  match c.d with
  | some d => [(0, s.reloc c.e c.entry d.scaleAddr + 4 * k, 4 * n)]
  | none => []

/-- The accumulator word of a home's element; none where its band lies in a vault. -/
def homeWord (h : HomeRec) (n k : Nat) : Option Nat :=
  let row := k / max 1 h.nw * h.colRows + n
  if row / 16 < h.accBands then some (accAddr (h.accRow + row) (k % max 1 h.nw)) else none

/-- The accumulator word of a tile's element, and its length. -/
def RunCtx.tileWord (c : RunCtx) (s : State) (x : ClosedTile) (rc : Nat × Nat) : Nat × Nat :=
  if c.dbl s then (acc64Addr (tileAcc x + 2 * rc.1) rc.2, 8) else (accAddr (tileAcc x + rc.1) rc.2, 4)

/-- What a load through a descriptor reads of the engine's SRAMs (R168, R185): its elements, the scales of their blocks, and of
a tile the scale record. -/
def RunCtx.loadRanges (c : RunCtx) (s : State) (t : TensorDesc) (idx : Option Nat) : List (Fin 4 × Nat × Nat) :=
  let els := (c.elems s t idx).map (·.1)
  match t.kind, c.tile with
  | 3, _ =>
    match s.homeRec c.e.val t.paramId with
    | some h => els.filterMap fun p => (homeWord h p.1 p.2).map fun a => (1, a, 4)
    | none => []
  | 2, some x =>
    (if (c.tileScale s).isSome then c.scaleRange s 0 2 else []) ++ els.map fun p => (1, c.tileWord s x p)
  | 2, none => []
  | _, _ => els.flatMap fun p =>
    let b := c.elemBits s t p
    (0, b.1 / 8, (b.1 % 8 + b.2 + 7) / 8) :: (c.scaleAt s t p).toList.map fun a => (0, a, 1)

/-- What a write of elements through a descriptor reads, and the bits that it writes: the elements, or, of a block that it
does not fill, the carry slot with its count (R109, R172). -/
def RunCtx.writeRanges (c : RunCtx) (s : State) (t : TensorDesc) (els : List (Nat × Nat)) :
    List (Fin 4 × Nat × Nat) × List (Fin 4 × Nat × Nat) :=
  let d := s.denom t.den
  match t.kind, c.tile with
  | 2, some x => ([], els.map fun p => (1, (c.tileWord s x p).1 * 8, (c.tileWord s x p).2 * 8))
  | 2, none => ([], [])
  | 1, _ =>
    if d.isBlock then
      let blocks := (els.map fun p => (p.1, p.2 / d.block)).eraseDups
      blocks.foldl (fun (a : List (Fin 4 × Nat × Nat) × List (Fin 4 × Nat × Nat)) (b : Nat × Nat) =>
        let mine := els.filter fun p => p.1 == b.1 && p.2 / d.block == b.2
        let whole := mine.map (fun p => ((0 : Fin 4), c.elemBits s t p)) ++
          (c.scaleAt s t (b.1, b.2 * d.block)).toList.map fun x => (0, x * 8, 8)
        if mine.length = blockLen d t.cols b.2 then (a.1, a.2 ++ whole)
        else
          let slot := c.carrySlot s t b.1 b.2
          let n := (memW s.eng[c.e.val].store 32 (slot + 4 * d.block)).toNat + mine.length
          let ends := decide (n = blockLen d t.cols b.2)
          (a.1 ++ [((0 : Fin 4), slot + 4 * d.block, 4)] ++ (if ends then [((0 : Fin 4), slot, 4 * n)] else []),
            a.2 ++ mine.map (fun p => ((0 : Fin 4), (slot + p.2 % d.block * 4) * 8, 32)) ++
              [((0 : Fin 4), (slot + 4 * d.block) * 8, 32)] ++ (if ends then whole else []))) ([], [])
    else
      (if d.perTensor && t.den != typeDen c.ty then c.scaleRange s 2 1 else [], els.map fun p => (0, c.elemBits s t p))
  | 5, _ => ([], els.map fun p => (0, c.elemBits s t p))
  | _, _ => ([], [])

/-- Bad words that a write of bits covers in part, and those that it covers whole (R264). -/
def Engine.covers (en : Engine) (bits : List (Fin 4 × Nat × Nat)) : List (Fin 4 × Nat) × List (Fin 4 × Nat) :=
  if en.badWords.isEmpty then ([], [])
  else
    let cover (w : Fin 4 × Nat) : Nat := bits.foldl (fun n b =>
      if b.1 = w.1 then n + (min (w.2 * 64 + 64) (b.2.1 + b.2.2) - max (w.2 * 64) b.2.1) else n) 0
    let ws := en.badWords.filter fun w => cover w != 0
    ((ws.filter fun w => cover w < 64).map fun w => (w.1, w.2 * 8), ws.filter fun w => 64 ≤ cover w)

/-- The words that a write of bits covers whole are sound again. -/
def Engine.healBits (en : Engine) (bits : List (Fin 4 × Nat × Nat)) : Engine :=
  let whole := (en.covers bits).2
  { en with badWords := en.badWords.filter fun w => !(whole.contains w) }

/-- The bytes of the engine's SRAMs that hold ranges of bits. -/
def Engine.bytesAt (en : Engine) (bits : List (Fin 4 × Nat × Nat)) : List Byte :=
  bits.flatMap fun (k, a, n) => memRead (if k = 0 then en.store else en.acc) (a / 8) ((a + n + 7) / 8 - a / 8)

/-- Results of the run in progress join its CRC-32C in an audit step (R381). -/
def State.resultsOf (s : State) (e : EngineId) (f : Engine → List Byte) : State :=
  if s.auditStep s.curStep then s.modVec e fun v => { v with results := crcMore v.results (f s.eng[e.val]) } else s

/-- ST: the register's active lanes through the descriptor. Through a KIND 0x2 descriptor the register's code of TYPE goes as it
is into the accumulator word of its element; the manual names no conversion there (log entry 170). -/
def RunCtx.st (c : RunCtx) (s : State) (reg : Nat) (t : TensorDesc) (site : Byte) : State :=
  if c.storeOn t = false then s
  else
    let v := s.eng[c.e.val].vec
    let els := (c.elems s t none).map fun p => (p.1, v.lane reg c.ty p.2)
    let bits := (c.writeRanges s t (els.map (·.1))).2
    let m := s.eng[c.e.val].store
    match t.kind with
    | 2 =>
      match c.tile with
      | some x => s.modEng c.e fun en => { en.healBits bits with
          acc := els.foldl (fun m (p : (Nat × Nat) × Nat) =>
            if c.dbl s then acc64Set m (tileAcc x + 2 * p.1.1) p.1.2 (BitVec.ofNat 64 p.2)
            else accSet m (tileAcc x + p.1.1) p.1.2 (BitVec.ofNat 32 p.2)) en.acc }
      | none => s
    | 3 => s
    | 4 => s
    | _ =>
      let d := s.denom t.den
      let r : Mem × ExcCnt :=
        if d.isBlock && t.kind == 1 then
          let rows := (els.map fun p => p.1.1).eraseDups
          rows.foldl (fun (a : Mem × ExcCnt) row =>
            let seg := (els.filter fun p => p.1.1 == row).map fun p => (p.1.2, (s.vecDenom c.ty).decode p.2)
            let q := c.storeBlocks s t site row seg a.1
            (q.1, a.2.plus q.2)) (m, ExcCnt.init)
        else
          els.foldl (fun (a : Mem × ExcCnt) (p : (Nat × Nat) × Nat) =>
            let q := c.storeElem s t site p.1 p.2 a.1
            (q.1, a.2.plus q.2)) (m, ExcCnt.init)
      (s.modEng c.e fun en => { en.healBits bits with store := r.1 }).modVec c.e fun v => v.count r.2

/-! ### LD and GATH (R168, R174) -/

/-- LD, or GATH with the rows of lane IDX: active lanes within the descriptor's extent take their elements. -/
def RunCtx.ld (c : RunCtx) (s : State) (reg : Nat) (t : TensorDesc) (idx : Option Nat) : State :=
  let v := s.eng[c.e.val].vec
  let ext := c.extent t
  let sc := c.tileScale s
  let r := (c.lanes s c.ty).foldl (fun (a : EngVec × ExcCnt) (l : Nat × Option (Nat × Nat)) =>
    match l.2 with
    | none => a
    | some rc =>
      let p := c.coord t rc
      let (p, out) : (Nat × Nat) × Bool := match idx with
        | some i => ((v.lane i c.ty l.1, p.2), decide (ext.1 ≤ v.lane i c.ty l.1))
        | none => (p, false)
      if out then
        let x := nanOut (s.vecDenom c.ty) true
        (a.1.setLane reg c.ty l.1 x.1, excCount a.2 x.2)
      else if p.1 < ext.1 ∧ p.2 < ext.2 then
        let x := c.laneOf s sc (c.load s t p)
        (a.1.setLane reg c.ty l.1 x.1, excCount a.2 x.2)
      else a) (v, match (if t.kind = 2 then sc else none) with
        | some k => excCount ExcCnt.init k.exc
        | none => ExcCnt.init)
  s.modVec c.e fun _ => r.1.count r.2

/-! ### HADD (R174) -/

/-- The lanes of one band: word index within the band and value, in lane order. -/
def bandLanes (h : HomeRec) (els : List (Nat × Nat × W32)) (band : Nat) : List (Nat × W32) :=
  els.filterMap fun (n, k, w) =>
    let row := k / max 1 h.nw * h.colRows + n
    if row / 16 = band then some (row % 16 * 64 + k % max 1 h.nw, w) else none

/-- A band's words with lanes added one by one; on a first touch the first lane of an element is written. -/
def bandHadd (d : Denom) (first : Bool) (old : List W32) (ls : List (Nat × W32)) : List W32 × ExcCnt :=
  let start := if first then old.map fun _ => (0 : W32) else old
  (ls.foldl (fun (a : List W32 × ExcCnt × List Nat) (l : Nat × W32) =>
    if first && !(a.2.2.contains l.1) then (a.1.set l.1 l.2, a.2.1, l.1 :: a.2.2)
    else
      let o := d.done true (numAdd (f32 (a.1.getD l.1 0)) (f32 l.2))
      (a.1.set l.1 (toF32 o.val), excCount a.2.1 { o.exc with nan := o.exc.nan || o.val.isNan }, a.2.2))
    (start, ExcCnt.init, [])) |> fun a => (a.1, a.2.1)

/-- The band that an instruction sends to a vault: its lanes in lane order in a band of zeros; its counts (R174). -/
def bandSent (d : Denom) (ls : List (Nat × W32)) : List W32 × ExcCnt := bandHadd d true (List.replicate 1024 0) ls

/-- A lane of HADD: its element of the home and its value, rounded to FP32 and aligned with the step, with the exceptions of
both. A lane whose row lies at or beyond the home's N adds nothing and raises nothing; the manual gives it no result (log entry
171). -/
def RunCtx.haddLane (c : RunCtx) (s : State) (h : HomeRec) (shift : Int) (reg idx : Nat) (t : TensorDesc)
    (l : Nat × Option (Nat × Nat)) : Option ((Nat × Nat × W32) × Exc) :=
  let v := s.eng[c.e.val].vec
  l.2.bind fun rc =>
    let p := c.coord t rc
    let n := v.lane idx c.ty l.1
    if n < h.n ∧ p.2 < h.k then
      let x := s.fp32.result false ((s.vecDenom c.ty).decode (v.lane reg c.ty l.1))
      let y : Out := if shift = 0 then x else
        let y := s.fp32.result true (numScale x.val shift)
        { y with exc := x.exc.or y.exc }
      some ((n, p.2, toF32 y.val), y.exc)
    else none

def RunCtx.haddLanes (c : RunCtx) (s : State) (h : HomeRec) (reg idx : Nat) (t : TensorDesc) :
    List ((Nat × Nat × W32) × Exc) :=
  let shift := match c.entry with
    | some f => s.alignExp f.origin
    | none => 0
  (c.lanes s c.ty).filterMap (c.haddLane s h shift reg idx t)

/-- HADD. -/
def RunCtx.hadd (c : RunCtx) (s : State) (reg idx : Nat) (t : TensorDesc) : State :=
  match s.homeRec c.e.val t.paramId with
  | none => s
  | some h =>
    let ls := c.haddLanes s h reg idx t
    let els := ls.map (·.1)
    let s := s.modVec c.e fun v => v.count (ls.foldl (fun n l => excCount n l.2) ExcCnt.init)
    let bands := (els.map fun (x : Nat × Nat × W32) => (x.2.1 / max 1 h.nw * h.colRows + x.1) / 16).eraseDups
    bands.foldl (fun s band =>
      if band < h.accBands then
        let first := !(s.isTouched c.e h.paramId band)
        let a := accAddr (h.accRow + band * 16) 0
        let old := words (memRead s.eng[c.e.val].acc a 4096) 1024
        let (ws, n) := bandHadd s.fp32 first old (bandLanes h els band)
        let s := s.modEng c.e fun x => { (if first then x.heal 1 a 4096 else x) with acc := memWrite x.acc a (wordBytes ws) }
        let s := s.modArr c.e fun x => { x with
          touched := if first then (h.paramId, band) :: x.touched else x.touched }
        s.homeCount c.e first n.inv n.ovf n.nan c.mb Rec4.zero
      else
        let (ws, n) := bandSent s.fp32 (bandLanes h els band)
        let s := s.modArr c.e fun x => { x with
          homeInv := satAdd x.homeInv n.inv, homeOvf := satAdd x.homeOvf n.ovf, homeNan := satAdd x.homeNan n.nan }
        s.modArr c.e fun x => { x with homeFlight := x.homeFlight ++
          [{ param := h.paramId, band := band, data := ws, slot := none, mb := c.mb, record := Rec4.zero }] }) s

/-- The accumulator words of touched bands that HADD adds to. -/
def RunCtx.haddRanges (c : RunCtx) (s : State) (reg idx : Nat) (t : TensorDesc) : List (Fin 4 × Nat × Nat) :=
  match s.homeRec c.e.val t.paramId with
  | none => []
  | some h => (c.haddLanes s h reg idx t).filterMap fun l =>
      if s.isTouched c.e h.paramId ((l.1.2.1 / max 1 h.nw * h.colRows + l.1.1) / 16) then
        (homeWord h l.1.1 l.1.2.1).map fun a => (1, a, 4)
      else none

/-! ### The reduction unit (R173) -/

inductive RedOp
  | sum | max | ssq
deriving DecidableEq, Repr

def redCode : RedOp → Nat
  | .sum => 0 | .max => 1 | .ssq => 2

/-- The format of a running reduction: FP64 for RSSQ and for the maximum of FP64 values, which nothing rounds before the
result (R117, R173). -/
def State.redFmt (s : State) (op : RedOp) (ty : Fin 4) : Denom :=
  if op = .ssq ∨ (op = .max ∧ ty = 3) then s.fp64 else s.fp32

/-- One level of the lane tree; masked lanes take no part. -/
def redLevel (f : Num → Num → Out) : List (Option Num) → List (Option Num) × Exc
  | some a :: some b :: r =>
    let o := f a b
    let t := redLevel f r
    (some o.val :: t.1, o.exc.or t.2)
  | some a :: none :: r =>
    let t := redLevel f r
    (some a :: t.1, t.2)
  | none :: b :: r =>
    let t := redLevel f r
    (b :: t.1, t.2)
  | l => (l, Exc.none)

def redTree (f : Num → Num → Out) : Nat → List (Option Num) → Option Num × Exc
  | 0, l => (l.headD none, Exc.none)
  | n + 1, l =>
    let a := redLevel f l
    let b := redTree f n a.1
    (b.1, a.2.or b.2)

def RedOp.join (op : RedOp) (d : Denom) (a b : Num) : Out :=
  if op = .max then
    let v := numMax a b
    { val := v, exc := { Exc.none with nan := v.isNan } }
  else d.done false (numAdd a b)

/-- The value that a lane brings, with the exceptions of its squaring. -/
def RedOp.bring (op : RedOp) (d : Denom) (x : Num) : Out :=
  if op = .ssq then d.done false (numMul x x) else { val := x, exc := Exc.none }

/-- A finished row result written to its element. Into a block-scaled descriptor it goes as an element of a store does, through
the carry area, whose counts only stores clear; the manual does not say how a reduction meets one (log entry 172). -/
def RunCtx.redWrite (c : RunCtx) (s : State) (t : TensorDesc) (site : Byte) (rc : Nat × Nat) (v : Num) : State :=
  let d := s.denom t.den
  let row := s.reloc c.e c.entry t.addr + rc.1 * t.rowStride
  let v := c.scaledOut s d v
  let r := d.convert (s.stream d c.step c.mb c.layer site (rc.1 * t.cols + rc.2)) v.1
  let bits := (c.writeRanges s t [rc]).2
  if t.rows ≤ rc.1 ∨ t.cols ≤ rc.2 then s
  else if d.isBlock then
    let q := c.storeBlocks s t site rc.1 [(rc.2, v.1)] s.eng[c.e.val].store
    (s.modEng c.e fun en => { en.healBits bits with store := q.1 }).modVec c.e fun x => x.count q.2
  else
    (s.modEng c.e fun en => { en.healBits bits with store := putElem d en.store row rc.2 r.1 }).modVec c.e fun x =>
      x.count (convCount v.2 r.2)

/-- NAN_PROD of a reduction whose result is a NaN (R116). -/
def redExc (x : Exc) (v : Num) : Exc := { x with nan := x.nan || v.isNan }

/-- Positions of a row of the driver. -/
def RunCtx.rowPositions (c : RunCtx) : Nat :=
  match c.drv with
  | some q => ceilDiv q.cols (laneCount c.ty)
  | none => 1

/-- The elements that a reduction writes at the context's position: one a segment of a tile, else one at a row's last
position. -/
def RunCtx.redTargets (c : RunCtx) (s : State) (t : TensorDesc) : List (Nat × Nat) :=
  let ls := c.lanes s c.ty
  if c.byTile then
    let col := match c.tile with
      | some x => tileNIdx x
      | none => 0
    (List.range (laneCount c.ty / 64)).filterMap fun k =>
      (((ls.drop (64 * k)).take 64).findSome? (·.2)).map fun rc => ((c.coord t rc).1, col)
  else if c.pos % c.rowPositions + 1 = c.rowPositions then
    (ls.findSome? (·.2)).toList.map fun rc => ((c.coord t rc).1, 0)
  else []

/-- RSUM, RMAX and RSSQ. -/
def RunCtx.reduce (c : RunCtx) (s : State) (op : RedOp) (reg : Nat) (t : TensorDesc) (site : Byte) : State :=
  let d := s.redFmt op c.ty
  let src := s.vecDenom c.ty
  let v := s.eng[c.e.val].vec
  let ls := c.lanes s c.ty
  let outs := ls.map fun (l : Nat × Option (Nat × Nat)) => l.2.map fun _ => op.bring d (src.decode (v.lane reg c.ty l.1))
  let vals := outs.map fun o => o.map (·.val)
  let s := s.modVec c.e fun x => x.count ((outs.filterMap id).foldl (fun n o => excCount n o.exc) ExcCnt.init)
  let rowOf (rc : Nat × Nat) : Nat := (c.coord t rc).1
  if c.byTile then
    let segs := laneCount c.ty / 64
    (List.range segs).foldl (fun s k =>
      match ((ls.drop (64 * k)).take 64).findSome? (·.2) with
      | none => s
      | some rc =>
        let r := redTree (op.join d) 6 ((vals.drop (64 * k)).take 64)
        let col := match c.tile with
          | some x => tileNIdx x
          | none => 0
        match r.1 with
        | some y =>
          c.redWrite (s.modVec c.e fun x => x.count (excCount ExcCnt.init (redExc r.2 y))) t site (rowOf rc, col) y
        | none => s) s
  else
    match ls.findSome? (·.2) with
    | none => s
    | some rc =>
      let r := redTree (op.join d) 9 vals
      match r.1 with
      | none => s
      | some y =>
        let key := (c.num, rc.1)
        let old := v.red.find? fun x => (x.1, x.2.1) == key
        let o : Out := match old with
          | some x => op.join d (d.decode x.2.2.toNat) y
          | none => { val := y, exc := Exc.none }
        let s := s.modVec c.e fun x => x.count (excCount ExcCnt.init (redExc (r.2.or o.exc) o.val))
        let rest := v.red.filter fun x => !((x.1, x.2.1) == key)
        if c.pos % c.rowPositions + 1 = c.rowPositions then
          c.redWrite (s.modVec c.e fun x => { x with red := rest }) t site (rowOf rc, 0) o.val
        else
          s.modVec c.e fun x => { x with
            red := (c.num, rc.1, BitVec.ofNat 64 (d.encode o.val)) :: rest }

/-! ### Register instructions -/

/-- A register operation over the active lanes. -/
def RunCtx.regOp (c : RunCtx) (s : State) (op : VecOp) (ty : Fin 4) (dst a b src3 : Nat) (imm : Option W32) : State :=
  if op = .nop then s
  else
    let d := s.vecDenom ty
    let v := s.eng[c.e.val].vec
    let r := (c.lanes s ty).foldl (fun (x : EngVec × ExcCnt) (l : Nat × Option (Nat × Nat)) =>
      match l.2 with
      | none => x
      | some _ =>
        let bv := match imm with
          | some w => immCode d w
          | none => v.lane b ty l.1
        let o := op.lane d ty (v.lane a ty l.1) bv (v.lane src3 ty l.1)
        (x.1.setLane dst ty l.1 o.1, excCount x.2 o.2)) (v, ExcCnt.init)
    s.modVec c.e fun _ => r.1.count r.2

/-! ### Run records (R183) -/

def runRecord (st : Status) (layer : Nat) (e : EngineId) (row : Bool) (mb : W16) (prog attempt : Nat) (step : StepNo)
    (tile : Option ClosedTile) (positions : Nat) (x : ExcCnt) (fail : Bool) : Rec4 where
  w0 := put st.code.toNat 56 ||| put (layer % 2 ^ 16) 40 ||| put e.val 33 ||| putB row 32 ||| put mb.toNat 16 |||
    put (prog % 16) 12 ||| put (attempt % 4) 2
  w1 := put step.toNat 16 ||| put (match tile with
    | some t => tileMIdx t
    | none => 0) 0
  w2 := put (match tile with
    | some t => tileNIdx t
    | none => 0) 50 ||| put (min positions (2 ^ 20 - 1)) 30
  w3 := putB (decide (0 < x.inv)) 63 ||| putB (decide (0 < x.ovf + x.cOvf)) 62 ||| putB (decide (0 < x.nan)) 61 |||
    putB fail 60 ||| put (min x.cFlush 0xFFFF) 32 ||| put (min (x.ovf + x.cOvf) 0xFFFF) 16 |||
    put (min x.cInv 0xFF) 8 ||| put (min x.cNanBlk 0xFF) 0

/-- The classes that a run's counts raise (R96, R127). -/
def ExcCnt.exc (x : ExcCnt) : Exc :=
  { inv := decide (0 < x.inv + x.cInv), ovf := decide (0 < x.ovf + x.cOvf), nan := decide (0 < x.nan) }

/-! ### Duplex mode and uncorrectable reads (R184, R185, R374, R375) -/

/-- A failing record of a unit: to the fault log, and out as a RUN frame. -/
def State.runFail (s : State) (e : EngineId) (r : Rec4) (mb : W16) : State :=
  ((s.faultLog e r).post (islEngine e) clsRun .checkFail mb r).setErr errCheck

/-- An instruction or row pass whose comparisons mismatch m times, with its record of attempt n: the failing attempts have
no effect but their records and strikes. True where the attempt that passed goes on. -/
def State.duplex (s : State) (e : EngineId) (u : Unit5) (layer : Nat) (mb : W16) (m : Mismatch) (rec_ : Nat → Rec4) :
    Bool × State :=
  match m.val with
  | 0 => (true, s)
  | 1 => (true, (s.runFail e (rec_ 0) mb).modEngInt e fun x => { x with transients := wrapAdd x.transients 1 })
  | 2 => (true, ((s.runFail e (rec_ 0) mb).runFail e (rec_ 1) mb).strike e u layer)
  | _ =>
    let s := ((s.runFail e (rec_ 0) mb).runFail e (rec_ 1) mb).runFail e (rec_ 2) mb
    (false, (s.modEngInt e fun x => { x with neighbourFail := satAdd x.neighbourFail 1 }).mark (islEngine e) .checkFail)

/-- Mismatches count in duplex mode alone (R184): bit 0 of ENG_DUPLEX for the vector engine and reduction unit, bit 1 for
the row engine. -/
def State.mismatch (s : State) (e : EngineId) (bit : Nat) (m : Mismatch) : Mismatch :=
  if bitAt s.eng[e.val].vec.duplex bit then m else 0

def State.countDep (s : State) (e : EngineId) (n : Nat) : State :=
  s.modVec e fun v => { v with depWait := satAdd v.depWait n }

/-- An instruction issued by itself: the wait on its sources, its duplex attempts, then its effect and its events. -/
def State.issue (s : State) (e : EngineId) (u : Unit5) (mismatch : Mismatch) (wait : Nat) (f : RunCtx → State → State) :
    State :=
  let s := s.countDep e wait
  let c := s.runCtx e
  let prog := s.eng[e.val].vec.run.prog
  let m := s.mismatch e 0 mismatch
  let fail (n : Nat) : Rec4 := runRecord .checkFail c.layer e false c.mb prog n c.step c.tile c.pos s.eng[e.val].vec.cnt true
  let (go, s) := s.duplex e u c.layer c.mb m fail
  if go then
    let s := s.modVec e fun v => { v with cnt := ExcCnt.init }
    let s := f c s
    let x := s.eng[e.val].vec.cnt
    s.excEvents e x.exc (runRecord .ok c.layer e false c.mb prog (min m.val 2) c.step c.tile c.pos x false) c.mb
  else s

/-- A register-format instruction by itself. -/
def State.regInstr (s : State) (op : VecOp) (i : VecR) : State :=
  s.issue i.engine .vector i.mismatch i.depWait fun c s => c.regOp s op i.ty i.dst.val i.a.val i.b.val i.c.val i.imm

/-- An uncorrectable read stops the run: its record, and the step is marked (R185). -/
def State.runUe (s : State) (c : RunCtx) (prog : Nat) (ws : List (Fin 4 × Nat)) : State :=
  let r := runRecord .uncorrectable c.layer c.e false c.mb prog 0 c.step c.tile c.pos s.eng[c.e.val].vec.cnt false
  (((s.modVec c.e fun v => { v with run := { v.run with active := false } }).faultLog c.e r).sramUe c.e ws c.mb 0xFF).mark
    (islEngine c.e) .uncorrectable

/-- What a memory-format instruction reads of the engine's SRAMs, and the bits that it writes there. -/
def RunCtx.touches (c : RunCtx) (s : State) (op reg idx : Nat) (t : TensorDesc) :
    List (Fin 4 × Nat × Nat) × List (Fin 4 × Nat × Nat) :=
  if op = 0x38 then (c.loadRanges s t none, [])
  else if op = 0x3A then (c.loadRanges s t (some idx), [])
  else if op = 0x39 then (if c.storeOn t then c.writeRanges s t ((c.elems s t none).map (·.1)) else ([], []))
  else if op = 0x3B then (c.haddRanges s reg idx t, [])
  else c.writeRanges s t ((c.redTargets s t).filter fun p => decide (p.1 < t.rows) && decide (p.2 < t.cols))

/-- Uncorrectable words that a memory-format instruction meets, in the order in which it reads them, with those that it would
write in part (R185, R264, R279). -/
def RunCtx.badWords (c : RunCtx) (s : State) (op reg idx : Nat) (t : Option TensorDesc) (met : List (Fin 4 × Nat)) :
    List (Fin 4 × Nat) :=
  let en := s.eng[c.e.val]
  match t with
  | none => met
  | some t =>
    if en.badWords.isEmpty then met
    else
      let x := c.touches s op reg idx t
      en.readBad x.1 met ++ (en.covers x.2).1

/-- The vault pages of a home that a load reads (R145). -/
def RunCtx.homePages (c : RunCtx) (s : State) (op idx : Nat) (t : Option TensorDesc) : List (CtlId × Nat) :=
  match t with
  | none => []
  | some t =>
    if t.kind ≠ 3 ∨ (op ≠ 0x38 ∧ op ≠ 0x3A) then []
    else match s.homeRec c.e.val t.paramId with
      | none => []
      | some h => ((c.elems s t (if op = 0x3A then some idx else none)).filterMap fun p =>
          let band := (p.1.2 / max 1 h.nw * h.colRows + p.1.1) / 16
          if band < h.accBands ∨ s.isTouched c.e h.paramId band = false then none else some (h.place c.e band)).eraseDups

/-- Those pages read through their controllers, each failure with its record: true where all of them read (R185, R280). -/
def RunCtx.homeReads (c : RunCtx) (s : State) (ps : List (CtlId × Nat)) : Bool × State :=
  s.pagesIn ps (s.byEng c.e 0xFF c.mb)

/-- A memory-format instruction by itself, through its descriptor; op is its code. -/
def State.memInstr (s : State) (u : Unit5) (op : Nat) (i : VecM) (f : RunCtx → State → TensorDesc → State) : State :=
  let s := s.sramCe i.engine i.sram
  let c := { s.runCtx i.engine with num := 256 + (op * 16 + i.td.val) }
  let t := c.d.bind fun d => s.td d i.td.val
  let prog := s.eng[i.engine.val].vec.run.prog
  let ws := c.badWords s op i.reg.val i.idx.val t i.sram.ue
  if !ws.isEmpty then s.runUe c prog ws
  else
    match c.homeReads s (c.homePages s op i.idx.val t) with
    | (false, s) => s.runUe c prog []
    | (true, s) => s.issue i.engine u i.mismatch i.depWait fun c s =>
      match t with
      | some t => f { c with num := 256 + (op * 16 + i.td.val) } s t
      | none => s

/-! ### Whole programs (R166, R167) -/

/-- One instruction of a program at the context's position. -/
def State.instr (s : State) (c : RunCtx) (w : W64) : State :=
  let opc := opcOf w
  let op := opc % 64
  let ty : Fin 4 := Fin.ofNat 4 (opc / 64)
  let td := c.d.bind fun d => s.td d (slotOf w)
  let site : Byte := BitVec.ofNat 8 (fld w 31 24)
  let reg := fld w 55 50
  let idx := fld w 49 44
  let mem (f : TensorDesc → State) : State := match td with
    | some t => f t
    | none => s
  let code := if 0x20 ≤ op ∧ op < 0x38 then op - 0x20 else op
  let imm : Option W32 := if 0x20 ≤ op ∧ op < 0x38 then some (BitVec.ofNat 32 (fld w 31 0)) else none
  let r (o : VecOp) : State := c.regOp s o ty reg idx (fld w 43 38) (fld w 37 32) imm
  match op with
  | 0x38 => mem fun t => c.ld s reg t none
  | 0x39 => mem fun t => c.st s reg t site
  | 0x3A => mem fun t => c.ld s reg t (some idx)
  | 0x3B => mem fun t => c.hadd s reg idx t
  | 0x3C => mem fun t => c.reduce s .sum reg t site
  | 0x3D => mem fun t => c.reduce s .max reg t site
  | 0x3E => mem fun t => c.reduce s .ssq reg t site
  | _ =>
    match code with
    | 0x01 => r .add
    | 0x02 => r .sub
    | 0x03 => r .mul
    | 0x04 => r .fma
    | 0x05 => r .min
    | 0x06 => r .max
    | 0x07 => r .abs
    | 0x08 => r .neg
    | 0x09 => r .cmplt
    | 0x0A => r .cmple
    | 0x0B => r .cmpeq
    | 0x0C => r .sel
    | 0x10 => r .exp2
    | 0x11 => r .log2
    | 0x12 => r .rcp
    | 0x13 => r .rsqrt
    | 0x14 => r .sqrt
    | 0x15 => r .tanh
    | 0x16 => r .erf
    | _ => s

/-- The run in progress is set up on the engine. -/
def State.beginRun (s : State) (e : EngineId) (layer prog : Nat) (mb : W16) (tile : Option ClosedTile) : State :=
  s.modVec e fun v => { v with
    run := { layer := layer, mb := mb, prog := prog, tile := tile, pos := 0, active := true }
    cnt := ExcCnt.init, red := [], results := 0 }

def SramRead.none : SramRead := { store := 0, acc := 0, other := 0, ue := [] }
def RunEnv.none : RunEnv := { sram := SramRead.none, ueAt := 0, mism := [], depWait := 0 }

/-- What the run or row pass that starts now meets. -/
def State.envOf (s : State) (e : EngineId) (env : RunEnvs) : RunEnv := lookupD env s.eng[e.val].seq.runs.length RunEnv.none

/-- The unit that a memory-format code belongs to. -/
def unitOf (op : Nat) : Unit5 := if 0x3C ≤ op then .reduction else .vector

/-- The results of a memory-format instruction in its audit: the HADD lanes, else the bytes that it has written (R381). -/
def RunCtx.resultBytes (c : RunCtx) (s : State) (op reg idx : Nat) (t : Option TensorDesc) (en : Engine) : List Byte :=
  match t with
  | none => []
  | some t =>
    if op = 0x3B then match s.homeRec c.e.val t.paramId with
      | some h => (c.haddLanes s h reg idx t).flatMap fun l => toBytes l.1.2.2 4
      | none => []
    else en.bytesAt (c.touches s op reg idx t).2

/-- One instruction of a run as it is issued, the n-th: an uncorrectable word that it meets stops the run, then its duplex
attempts, then its effect. True while the run goes on. -/
def State.issueIn (s : State) (c : RunCtx) (prog : Nat) (env : RunEnv) (n : Nat) (w : W64) : Bool × State :=
  let op := opcOf w % 64
  let t := c.d.bind fun d => s.td d (slotOf w)
  let met := if n = env.ueAt then env.sram.ue else []
  let ws := if 0x38 ≤ op then c.badWords s op (fld w 55 50) (fld w 49 44) t met else met
  if !ws.isEmpty then (false, s.runUe c prog ws)
  else
    match c.homeReads s (c.homePages s op (fld w 49 44) t) with
    | (false, s) => (false, s.runUe c prog [])
    | (true, s) =>
      let fail (k : Nat) : Rec4 := runRecord .checkFail c.layer c.e false c.mb prog k c.step c.tile c.pos s.eng[c.e.val].vec.cnt true
      let (go, s) := s.duplex c.e (unitOf op) c.layer c.mb (s.mismatch c.e 0 (lookupD env.mism n 0)) fail
      if go then (true, (s.instr c w).resultsOf c.e fun en => if op < 0x38 then [] else
        c.resultBytes s op (fld w 55 50) (fld w 49 44) t en)
      else (false, s)

/-- A program over all its positions; then its record's events, and the run is over. True where it ran to its end. -/
def State.runProgram (s : State) (e : EngineId) (layer prog : Nat) (mb : W16) (tile : Option ClosedTile) (envs : RunEnvs) :
    Bool × State :=
  let env := s.envOf e envs
  let s := ((s.sramCe e env.sram).countDep e env.depWait).beginRun e layer prog mb tile
  let c := s.runCtx e
  let is := match c.d with
    | some d => s.program (runProg d prog).1 (runProg d prog).2
    | none => []
  let n := c.positions s
  let r := (List.range n).foldl (fun (a : Bool × State) p =>
    let a := if a.1 then (true, a.2.modVec e fun v => { v with run := { v.run with pos := p } }) else a
    (is.zipIdx).foldl (fun (a : Bool × State) (w : W64 × Nat) =>
      if a.1 then a.2.issueIn { c with pos := p, num := w.2 } prog env (p * is.length + w.2) w.1 else a) a) (true, s)
  if r.1 then
    let s := r.2
    let x := s.eng[e.val].vec.cnt
    let s := s.modVec e fun v => { v with run := { v.run with active := false } }
    let s := s.modSeq e fun q => { q with runs := { row := false, crc := s.eng[e.val].vec.results } :: q.runs }
    (true, s.excEvents e x.exc (runRecord .ok layer e false mb prog 0 c.step tile n x false) mb)
  else (false, r.2.modVec e fun v => { v with run := { v.run with active := false } })

/-! ### The meanings -/

def execVecNop (i : VecR) (s : State) : Res := .next (s.regInstr .nop i)
def execVecAdd (i : VecR) (s : State) : Res := .next (s.regInstr .add i)
def execSub (i : VecR) (s : State) : Res := .next (s.regInstr .sub i)
def execMul (i : VecR) (s : State) : Res := .next (s.regInstr .mul i)
def execFma (i : VecR) (s : State) : Res := .next (s.regInstr .fma i)
def execMin (i : VecR) (s : State) : Res := .next (s.regInstr .min i)
def execMax (i : VecR) (s : State) : Res := .next (s.regInstr .max i)
def execAbs (i : VecR) (s : State) : Res := .next (s.regInstr .abs i)
def execNeg (i : VecR) (s : State) : Res := .next (s.regInstr .neg i)
def execCmplt (i : VecR) (s : State) : Res := .next (s.regInstr .cmplt i)
def execCmple (i : VecR) (s : State) : Res := .next (s.regInstr .cmple i)
def execCmpeq (i : VecR) (s : State) : Res := .next (s.regInstr .cmpeq i)
def execSel (i : VecR) (s : State) : Res := .next (s.regInstr .sel i)
def execExp2 (i : VecR) (s : State) : Res := .next (s.regInstr .exp2 i)
def execLog2 (i : VecR) (s : State) : Res := .next (s.regInstr .log2 i)
def execRcp (i : VecR) (s : State) : Res := .next (s.regInstr .rcp i)
def execRsqrt (i : VecR) (s : State) : Res := .next (s.regInstr .rsqrt i)
def execSqrt (i : VecR) (s : State) : Res := .next (s.regInstr .sqrt i)
def execTanh (i : VecR) (s : State) : Res := .next (s.regInstr .tanh i)
def execErf (i : VecR) (s : State) : Res := .next (s.regInstr .erf i)

def execLd (i : VecM) (s : State) : Res :=
  .next (s.memInstr .vector 0x38 i fun c s t => c.ld s i.reg.val t none)
def execSt (i : VecM) (s : State) : Res :=
  .next (s.memInstr .vector 0x39 i fun c s t => c.st s i.reg.val t i.site)
def execGath (i : VecM) (s : State) : Res :=
  .next (s.memInstr .vector 0x3A i fun c s t => c.ld s i.reg.val t (some i.idx.val))
def execHadd (i : VecM) (s : State) : Res :=
  .next (s.memInstr .vector 0x3B i fun c s t => c.hadd s i.reg.val i.idx.val t)
def execRsum (i : VecM) (s : State) : Res :=
  .next (s.memInstr .reduction 0x3C i fun c s t => c.reduce s .sum i.reg.val t i.site)
def execRmax (i : VecM) (s : State) : Res :=
  .next (s.memInstr .reduction 0x3D i fun c s t => c.reduce s .max i.reg.val t i.site)
def execRssq (i : VecM) (s : State) : Res :=
  .next (s.memInstr .reduction 0x3E i fun c s t => c.reduce s .ssq i.reg.val t i.site)

end Sys2Proof.Machine
end

