-- ==== Sys2Proof/Machine/RowEngine.lean ====
section
/-! DEFINITION. The row engine: norms and soft-maximum, statistics, spill (06 R176 to R183). -/

namespace Sys2Proof.Machine

/-! ### Arithmetic (R177) -/

/-- A running result with the exceptions met. -/
abbrev Acc := Num × Exc

def accOp (d : Denom) (x : Exact) (e : Exc) : Acc :=
  let o := d.done false x
  (o.val, e.or o.exc)

/-- A sum in a format: pairwise in groups of 64 consecutive elements, then sequentially in increasing order; an excluded
element takes no part. -/
def rowSum (d : Denom) (l : List (Option Num)) : Acc :=
  let groups := (List.range (ceilDiv l.length 64)).map fun k =>
    redTree (fun a b => d.done false (numAdd a b)) 6 ((l.drop (64 * k)).take 64)
  let r := groups.foldl (fun (a : Option Num × Exc) (g : Option Num × Exc) =>
    match a.1, g.1 with
    | some x, some y =>
      let o := d.done false (numAdd x y)
      (some o.val, (a.2.or g.2).or o.exc)
    | some x, none => (some x, a.2.or g.2)
    | none, y => (y, a.2.or g.2)) (none, Exc.none)
  (r.1.getD (.fin false 0 0), r.2)

/-- RSQRT within the accuracy of R164 on an FP64 value, rounded to FP32. -/
def rowRsqrt (d32 d64 : Denom) (x : Num) : Out :=
  if x.isNan then outNan false
  else if x.isZero then d32.overflow (numNegative x)
  else if numNegative x then outNan true
  else
    let free := (Config.rsqrt 3 (BitVec.ofNat 64 (d64.encode x))).toNat
    d32.result false (match x with
      | .fin _ _ _ => (openVal d64 1 free (rsqrtNum x)).val
      | _ => d64.decode free)

/-- EXP within the accuracy of R164 on an FP32 value: 1 ulp, as of EXP2; beyond the format it overflows (log entry 10). -/
def rowExpOf (d : Denom) (x : Num) : Out :=
  let free := (Config.rowExp (toF32 x)).toNat
  match x with
  | .nan => outNan false
  | .fin _ _ _ =>
    let y := expFix (toFix x)
    let r := d.result false y
    if r.exc.ovf then r else openVal d 1 free y
  | _ => { val := d.decode free, exc := Exc.none }

/-- The row's elements, those that CAUSAL excludes left out. -/
def rowKeep (causal : Bool) (r : Nat) (xs : List Num) : List (Option Num) :=
  (xs.zipIdx).map fun (x : Num × Nat) => if causal && decide (r % max 1 xs.length < x.2) then none else some x.1

/-- Soft-maximum statistics over groups of 64: maximum and sum of exponentials, with the exceptions met. A group's
exponentials are added pairwise in FP32; the manual fixes the order of FP64 sums only (R177; log entry 173). -/
def softGroups (d : Denom) : Nat → List (Option Num) → Num × Num × Exc → Num × Num × Exc
  | 0, _, a => a
  | n + 1, l, (m, sg, x) =>
    let g := (l.take 64).filterMap id
    match g with
    | [] => softGroups d n (l.drop 64) (m, sg, x)
    | _ =>
      let m' := g.foldl numMax m
      let ex (z : Num) : Out :=
        let o := d.done false (numAdd z (numNeg m'))
        let r := rowExpOf d o.val
        { r with exc := o.exc.or r.exc }
      let es := (l.take 64).map fun z => z.map ex
      let t := rowSum d (es.map fun z => z.map (·.val))
      let k := ex m
      let a := accOp d (numMul sg k.val) (x.or (k.exc.or t.2))
      let x := es.foldl (fun (x : Exc) z => match z with
        | some o => x.or o.exc
        | none => x) a.2
      let b := accOp d (numAdd a.1 t.1) x
      softGroups d n (l.drop 64) (m', b.1, b.2)

structure RowParams where
  op : Nat
  cols : Nat
  causal : Bool
  eps : Num
  scale : Num
  d32 : Denom
  d64 : Denom

/-- Statistics of a row (A, B) with the exceptions met. -/
def RowParams.stats (p : RowParams) (r : Nat) (xs : List Num) : W32 × W32 × Exc :=
  let ks := rowKeep p.causal r xs
  let n := numOfInt p.cols
  let d := p.d64
  if p.op = 3 then
    let os := ks.map fun x => x.map fun x => p.d32.done false (numMul p.scale x)
    let zs := os.map fun x => x.map (·.val)
    let xz := (os.filterMap id).foldl (fun (x : Exc) o => x.or o.exc) Exc.none
    let low : Num := .fin true p.d32.maxFin.1 p.d32.maxFin.2
    let (m, sg, x) := softGroups p.d32 (ceilDiv xs.length 64) zs (low, .fin false 0 0, xz)
    (toF32 m, toF32 sg, { x with nan := x.nan || sg.isNan })
  else
    let s2 := rowSum d (ks.map fun x => x.map fun x => (numMul x x).1)
    let q := accOp d (numDiv s2.1 n) s2.2
    if p.op = 2 then
      let v := accOp d (numAdd q.1 p.eps) q.2
      let o := rowRsqrt p.d32 d v.1
      (0, toF32 o.val, v.2.or o.exc)
    else
      let s1 := rowSum d ks
      let mu := accOp d (numDiv s1.1 n) s1.2
      let mm := accOp d (numMul mu.1 mu.1) mu.2
      let v := accOp d (numAdd q.1 (numNeg mm.1)) (q.2.or mm.2)
      let v0 := numMax v.1 (.fin false 0 0)
      let w := accOp d (numAdd v0 p.eps) v.2
      let o := rowRsqrt p.d32 d w.1
      let m := p.d32.result false mu.1
      (toF32 m.val, toF32 o.val, (w.2.or o.exc).or m.exc)

/-- One output of forward pass 2: x̂ of a norm, or y of a soft-maximum. -/
def RowParams.out (p : RowParams) (a b : W32) (x : Num) : Acc :=
  let d := p.d32
  if p.op = 3 then
    let z := accOp d (numMul p.scale x) Exc.none
    let t := accOp d (numAdd z.1 (numNeg (f32 a))) z.2
    let r := if (f32 b).isZero then d.overflow (numNegative (f32 b)) else d.done false (numDiv numOne (f32 b))
    let k := rowExpOf d t.1
    accOp d (numMul k.val r.val) ((t.2.or r.exc).or k.exc)
  else
    let t := if p.op = 1 then accOp d (numAdd x (numNeg (f32 a))) Exc.none else (x, Exc.none)
    accOp d (numMul t.1 (f32 b)) t.2

/-- A forward row: outputs, +0 where excluded. -/
def RowParams.fwdRow (p : RowParams) (r : Nat) (a b : W32) (xs : List Num) : List Acc :=
  (rowKeep p.causal r xs).map fun x => match x with
    | some x => p.out a b x
    | none => (.fin false 0 0, Exc.none)

/-- A backward row from the kept statistics: the sums in FP64, and each output's steps in FP64 (log entry 23). -/
def RowParams.bwdRow (p : RowParams) (r : Nat) (a b : W32) (xs dys : List Num) : List Acc :=
  let ks := rowKeep p.causal r xs
  let d := p.d64
  let n := numOfInt p.cols
  let hats := ks.map fun x => x.map fun x => p.out a b x
  let prods := (hats.zip dys).map fun (h : Option Acc × Num) => h.1.map fun y => numMul h.2 y.1
  let sb0 := rowSum d (prods.map fun y => y.map (·.1))
  let sb : Acc := (sb0.1, { sb0.2 with inv := sb0.2.inv || prods.any fun y => y.any (·.2) })
  if p.op = 3 then
    (hats.zip dys).map fun (h : Option Acc × Num) => match h.1 with
      | none => (.fin false 0 0, Exc.none)
      | some y =>
        let sy := accOp d (numMul p.scale y.1) (y.2.or sb.2)
        let t := accOp d (numAdd h.2 (numNeg sb.1)) sy.2
        accOp d (numMul sy.1 t.1) t.2
  else
    let bb := accOp d (numDiv sb.1 n) sb.2
    let sa := rowSum d ((hats.zip dys).map fun (h : Option Acc × Num) => h.1.map fun _ => h.2)
    let aa : Acc := if p.op = 1 then accOp d (numDiv sa.1 n) sa.2 else (.fin false 0 0, Exc.none)
    (hats.zip dys).map fun (h : Option Acc × Num) => match h.1 with
      | none => (.fin false 0 0, Exc.none)
      | some y =>
        let xb := accOp d (numMul y.1 bb.1) (y.2.or bb.2)
        let t := if p.op = 1 then accOp d (numAdd h.2 (numNeg aa.1)) (xb.2.or aa.2) else (h.2, xb.2)
        let u := accOp d (numAdd t.1 (numNeg xb.1)) t.2
        accOp d (numMul (f32 b) u.1) u.2

/-! ### Statistics side memory (R179, R180) -/

def sideRows : Nat := 65536
def sideBlocks : Nat := 256

def StatsBlk.isBlk (b : StatsBlk) (layer : Nat) (mb : W16) : Bool := b.layer == layer && b.mb == mb

def residentRows (l : List StatsBlk) : Nat := (l.filter fun b => !b.spilled).foldl (fun n b => n + b.rows.length) 0
def residentBlocks (l : List StatsBlk) : Nat := (l.filter fun b => !b.spilled).length

/-- Block a is spilled before block b (R179). -/
def spillBefore (ls : Layers) (a b : StatsBlk) : Bool :=
  let pr (x : StatsBlk) : Nat := match ls.descs[x.layer]? with
    | some d => d.spillPrio
    | none => 0
  let mbKey (x : StatsBlk) : Int := match ls.descs[x.layer]? with
    | some d => if d.spillMb then -(x.mb.toNat : Int) else x.mb.toNat
    | none => x.mb.toNat
  decide (pr b < pr a) || (pr a == pr b && (decide (mbKey a < mbKey b) || (mbKey a == mbKey b && decide (a.layer < b.layer))))

def spillPick (ls : Layers) (l : List StatsBlk) : Option StatsBlk :=
  (l.filter fun b => !b.spilled).foldl (fun m b => match m with
    | none => some b
    | some x => if spillBefore ls b x then some b else some x) none

/-- The place of a block's statistics in its layer's spill area. -/
def State.spillAt (s : State) (e : EngineId) (d : LayerDesc) (mb : W16) (rows : Nat) : Nat :=
  let limit := match s.table e with
    | some t => t.floatLimit
    | none => 1
  d.spillAddr + mb.toNat % max 1 limit * (rows * 8)

def statBytes (rows : List (W32 × W32)) : List Byte := rows.flatMap fun r => toBytes r.1 4 ++ toBytes r.2 4

/-- A resident block spilled to its area. -/
def State.spill (s : State) (e : EngineId) (b : StatsBlk) : State :=
  match s.layer b.layer with
  | none => s
  | some d =>
    (s.putStore e (s.spillAt e d b.mb b.rows.length) (statBytes b.rows)).modVec e fun v => { v with
      spilled := wrapAdd v.spilled 1
      stats := v.stats.map fun x => if x.isBlk b.layer b.mb && !x.spilled then { x with spilled := true, rows := [] } else x }

/-- Blocks spilled one at a time until n more rows fit. -/
def State.makeRoom (s : State) (e : EngineId) (n : Nat) : Nat → State
  | 0 => s
  | k + 1 =>
    let l := s.eng[e.val].vec.stats
    if residentRows l + n ≤ sideRows ∧ residentBlocks l < sideBlocks then s
    else match spillPick s.layers l with
      | none => s
      | some b => (s.spill e b).makeRoom e n k

/-- A block of n rows allocated before the pass's first row (R179): resident blocks are spilled one at a time until it
fits. -/
def State.allocStats (s : State) (e : EngineId) (layer : Nat) (mb : W16) (n : Nat) : State :=
  let s := s.modVec e fun v => { v with stats := v.stats.filter fun x => !(x.isBlk layer mb) }
  let s := if sideRows < n then s else s.makeRoom e n 257
  s.modVec e fun v => { v with stats := v.stats ++ [{ layer := layer, mb := mb, rows := [], spilled := false }] }

/-- A row of statistics joins its block. -/
def State.keepRow (s : State) (e : EngineId) (layer : Nat) (mb : W16) (st : W32 × W32) : State :=
  s.modVec e fun v => { v with stats := v.stats.map fun x => if x.isBlk layer mb then { x with rows := x.rows ++ [st] } else x }

/-- A finished block of n rows: resident, or straight in its spill area when it has more rows than the side memory, which
SPILLED does not count: nothing resident has been spilled (R179 is silent; log entry 174). -/
def State.keepStats (s : State) (e : EngineId) (d : LayerDesc) (layer : Nat) (mb : W16) (n : Nat) : State :=
  match s.eng[e.val].vec.stats.find? fun x => x.isBlk layer mb with
  | none => s
  | some b =>
    if sideRows < n then
      (s.putStore e (s.spillAt e d mb n) (statBytes b.rows)).modVec e fun v => { v with
        stats := v.stats.map fun x => if x.isBlk layer mb then { x with spilled := true, rows := [] } else x }
    else s

/-! ### Passes (R176, R178, R181) -/

/-- Rows of a slot decoded to FP32. -/
def State.rowOf (s : State) (e : EngineId) (f : Option FloatEntry) (t : TensorDesc) (r : Nat) : List Num :=
  let a := s.reloc e f t.addr + r * t.rowStride
  (List.range t.cols).map fun i =>
    let x := rowElem (s.denom t.den) s.eng[e.val].store a t.cols i
    (s.fp32.result false (numScale x.1 x.2)).val

/-- A row written to a slot under R110 with site 0xFF. -/
def State.putRow (s : State) (c : RunCtx) (t : TensorDesc) (r : Nat) (ys : List Num) : State :=
  let d := s.denom t.den
  if d.isBlock then
    let q := c.storeBlocks s t 0xFF r (ys.zipIdx.map fun (y : Num × Nat) => (y.2, y.1)) s.eng[c.e.val].store
    (s.modEng c.e fun en => { en with store := q.1 }).modVec c.e fun v => v.count q.2
  else
    let row := s.reloc c.e c.entry t.addr + r * t.rowStride
    let q := (ys.zipIdx).foldl (fun (a : Mem × ExcCnt) (y : Num × Nat) =>
      let v := c.scaledOut s d y.1
      let x := d.convert (s.stream d c.step c.mb c.layer 0xFF (r * t.cols + y.2)) v.1
      (putElem d a.1 row y.2 x.1, convCount (a.2.plus v.2) x.2)) (s.eng[c.e.val].store, ExcCnt.init)
    (s.modEng c.e fun en => { en with store := q.1 }).modVec c.e fun v => v.count q.2

def State.rowParams (s : State) (d : LayerDesc) (cols : Nat) : RowParams where
  op := d.rowOp
  cols := cols
  causal := d.causal
  eps := f32 d.rowEps
  scale := f32 d.rowScale
  d32 := s.fp32
  d64 := s.fp64

/-- The context in which the row engine writes its outputs. -/
def State.rowCtx (s : State) (e : EngineId) (d : LayerDesc) (layer : Nat) (mb : W16) : RunCtx where
  e := e
  layer := layer
  d := some d
  mb := mb
  entry := s.eng[e.val].entry mb
  ty := 0
  drv := none
  tile := none
  pos := 0
  step := s.curStep
  bwd := false
  num := 0

def countAccs (l : List Acc) : ExcCnt := l.foldl (fun c a => excCount c a.2) ExcCnt.init

/-- The pass's record and its events. -/
def State.rowDone (s : State) (e : EngineId) (layer : Nat) (mb : W16) (prog attempt rows : Nat) : State :=
  let x := s.eng[e.val].vec.cnt
  let s := s.modVec e fun v => { v with rowActive := false, rowSpilling := false }
  let s := s.modSeq e fun q => { q with runs := { row := true, crc := s.eng[e.val].vec.results } :: q.runs }
  s.excEvents e x.exc (runRecord .ok layer e true mb prog attempt s.curStep none rows x false) mb

/-- A pass stopped by uncorrectable reads after some of its rows (R185). -/
def State.rowUe (s : State) (e : EngineId) (layer : Nat) (mb : W16) (prog rows : Nat) (ws : List (Fin 4 × Nat)) : State :=
  let r := runRecord .uncorrectable layer e true mb prog 0 s.curStep none rows s.eng[e.val].vec.cnt false
  (((s.modVec e fun v => { v with rowActive := false, rowSpilling := false }).faultLog e r).sramUe e ws mb 0xFF).mark
    (islEngine e) .uncorrectable

/-- The bytes of row r of a slot: elements, then block scales. -/
def State.rowBytesAt (s : State) (e : EngineId) (f : Option FloatEntry) (t : TensorDesc) (r : Nat) : Nat × Nat :=
  let d := s.denom t.den
  (s.reloc e f t.addr + r * t.rowStride, ceilDiv (t.cols * d.storeBits) 8 + (if d.block = 0 then 0 else ceilDiv t.cols d.block))

/-- One row of a pass: bad words that its reads meet, or that its write covers in part, stop it; else its effect. -/
def State.rowOne (s : State) (e : EngineId) (c : RunCtx) (prog : Nat) (env : RunEnv) (ins : List TensorDesc)
    (out : TensorDesc) (r : Nat) (f : State → State) : Bool × State :=
  let en := s.eng[e.val]
  let scale := if (s.denom out.den).perTensor then c.scaleRange s 2 1 else []
  let ws := en.readBad (inStore (ins.map fun t => s.rowBytesAt e c.entry t r) ++ scale) (if r = env.ueAt then env.sram.ue else [])
  let o := s.rowBytesAt e c.entry out r
  let ps := if en.badWords.isEmpty then [] else en.partBad 0 o.1 o.2
  if !(ws ++ ps).isEmpty then (false, s.rowUe e c.layer c.mb prog r (ws ++ ps))
  else (true, ((f s).modEng e fun x => x.heal 0 o.1 o.2).resultsOf e fun en => memRead en.store o.1 o.2)

/-- The rows of a pass in increasing order, while none stops it. -/
def State.rowsOf (s : State) (n : Nat) (f : Nat → State → Bool × State) : Bool × State :=
  (List.range n).foldl (fun (a : Bool × State) r => if a.1 then f r a.2 else a) (true, s)

def State.rowBegin (s : State) (e : EngineId) (layer : Nat) (mb : W16) (bwd : Bool) : State :=
  s.modVec e fun v => { v with
    rowLayer := BitVec.ofNat 16 layer, rowMb := mb, rowBwd := bwd, rowActive := true, cnt := ExcCnt.init, results := 0 }

/-- The forward pass of a row layer, as a duplex comparison lets it; true where it ran to its end. -/
def State.rowForward (s : State) (e : EngineId) (layer : Nat) (d : LayerDesc) (mb : W16) (envs : RunEnvs) : Bool × State :=
  match s.td d 14, s.td d 15 with
  | some tx, some ty =>
    let env := s.envOf e envs
    let s := (s.sramCe e env.sram).rowBegin e layer mb false
    let c := s.rowCtx e d layer mb
    let p := s.rowParams d tx.cols
    let m := s.mismatch e 1 (lookupD env.mism 0 0)
    let (go, s) := s.duplex e .row layer mb m fun k => runRecord .checkFail layer e true mb 3 k s.curStep none 0 ExcCnt.init true
    if go = false then (false, s.modVec e fun v => { v with rowActive := false })
    else
      let s := s.allocStats e layer mb tx.rows
      let q := s.rowsOf tx.rows fun r s => s.rowOne e c 3 env [tx] ty r fun s =>
        let xs := s.rowOf e c.entry tx r
        let st := p.stats r xs
        let ys := p.fwdRow r st.1 st.2.1 xs
        ((s.keepRow e layer mb (st.1, st.2.1)).modVec e fun v => v.count (excCount (countAccs ys) st.2.2)).putRow c ty r
          (ys.map (·.1))
      if q.1 then (true, (q.2.keepStats e d layer mb tx.rows).rowDone e layer mb 3 (min m.val 2) tx.rows) else (false, q.2)
  | _, _ => (true, s)

/-- The statistics of a block, read back from its spill area where it is spilled. -/
def State.statsOf (s : State) (e : EngineId) (d : LayerDesc) (layer : Nat) (mb : W16) (rows : Nat) :
    Option (List (W32 × W32)) :=
  match s.eng[e.val].vec.stats.find? fun b => b.isBlk layer mb with
  | none => none
  | some b =>
    if b.spilled then
      let a := s.spillAt e d mb rows
      some ((List.range rows).map fun r =>
        (memW s.eng[e.val].store 32 (a + r * 8), memW s.eng[e.val].store 32 (a + r * 8 + 4)))
    else some b.rows

/-- The backward pass of a row layer; STATE_CONFLICT where its statistics are missing; none where it was stopped and the
step is marked. -/
def State.rowBackward (s : State) (e : EngineId) (layer : Nat) (d : LayerDesc) (mb : W16) (envs : RunEnvs) :
    Option Status × State :=
  match s.td d 14, s.td d 13, s.td d 12 with
  | some tx, some tdy, some tdx =>
    let env := s.envOf e envs
    let s := (s.sramCe e env.sram).rowBegin e layer mb true
    match s.statsOf e d layer mb tx.rows with
    | none =>
      let r := runRecord .stateConflict layer e true mb 4 0 s.curStep none 0 ExcCnt.init false
      (some .stateConflict, (s.faultLog e r).modVec e fun v => { v with rowActive := false })
    | some st =>
      let spilled := s.eng[e.val].vec.stats.any fun b => b.isBlk layer mb && b.spilled
      let s := if spilled then s.modVec e fun v => { v with readback := wrapAdd v.readback 1 } else s
      let ws := if spilled then s.eng[e.val].badAt 0 [(s.spillAt e d mb tx.rows, tx.rows * 8)] else []
      if !ws.isEmpty then (none, s.rowUe e layer mb 4 0 ws)
      else
        let c := s.rowCtx e d layer mb
        let p := s.rowParams d tx.cols
        let m := s.mismatch e 1 (lookupD env.mism 0 0)
        let (go, s) := s.duplex e .row layer mb m fun k =>
          runRecord .checkFail layer e true mb 4 k s.curStep none 0 ExcCnt.init true
        if go = false then (none, s.modVec e fun v => { v with rowActive := false })
        else
          let q := s.rowsOf tx.rows fun r s => s.rowOne e c 4 env [tx, tdy] tdx r fun s =>
            let ab := st.getD r (0, 0)
            let ys := p.bwdRow r ab.1 ab.2 (s.rowOf e c.entry tx r) (s.rowOf e c.entry tdy r)
            (s.modVec e fun v => v.count (countAccs ys)).putRow c tdx r (ys.map (·.1))
          if q.1 then
            let s := q.2.modVec e fun v => { v with stats := v.stats.filter fun b => !(b.isBlk layer mb) }
            (some .ok, s.rowDone e layer mb 4 (min m.val 2) tx.rows)
          else (none, q.2)
  | _, _, _ => (some .ok, s)

end Sys2Proof.Machine
end

