-- ==== Sys2Proof/Machine/Ledger.lean ====
section
/-! DEFINITION. The version ledger: pool pages, page maps, entries and their transitions, working copies (07 R215 to R224;
08 R230, R248, R249). -/

namespace Sys2Proof.Machine

/-! ### Shards of an engine -/

def State.shardEnts (s : State) : List ShardEnt :=
  match s.shardsSec with
  | some x => x.entries
  | none => []

def State.shardsOf (s : State) (e : EngineId) : List ShardEnt := s.shardEnts.filter fun x => x.engine == e.val

def State.shardEnt (s : State) (h : BitVec 24) : Option ShardEnt := s.shardEnts.find? fun x => x.shard == h

/-- The owner of a shard: this module after a takeover, the mirror once the owner is declared lost (R434, R435). -/
def State.ownerOf (s : State) (x : ShardEnt) : BitVec 12 :=
  if s.ckpt.takenOver.any fun y => y.1 == x.shard then s.ownModule
  else if s.ckpt.reowned.contains x.shard then x.mirror
  else x.owner

def State.owns (s : State) (x : ShardEnt) : Bool := s.ownerOf x == s.ownModule

/-- The parameter records of a shard, in record order. -/
def State.paramsOf (s : State) (x : ShardEnt) : List ParamRec :=
  match s.shardsSec with
  | some sec => (sec.params.drop x.paramFirst).take x.params
  | none => []

/-- Pages of a parameter's working copy (R230). -/
def State.paramPages (s : State) (p : ParamRec) : Nat := ceilDiv (panelsBytes (s.denom p.denW) p.k p.n p.nw) 4096

/-- P(h): pages of one version of a shard. -/
def State.shardPages (s : State) (x : ShardEnt) : Nat :=
  (s.paramsOf x).foldl (fun n p => max n (p.page + s.paramPages p)) 0

/-- The greater VERSION_DEPTH of the engine's tables in the two planes (R215). -/
def State.depthOf (s : State) (e : EngineId) : Nat :=
  let d (t : Option SchedTable) : Nat := match t with
    | some t => t.versionDepth
    | none => 0
  max (d s.eng[e.val].table0) (d s.eng[e.val].table1)

/-- The ledger indices reserved for a shard: D + 3 in a row, in the order of the section (log entry 24). -/
def State.slotsOf (s : State) (e : EngineId) (h : BitVec 24) : List Nat :=
  let n := s.depthOf e + 3
  match (s.shardsOf e).findIdx? fun x => x.shard == h with
  | some k => (List.range n).map fun i => k * n + i
  | none => []

/-! ### Entries -/

def LedgerEntry.empty : LedgerEntry where
  state := .free
  published := false
  escrow := false
  owned := false
  version := 0
  shard := 0
  refcount := 0
  serve := 0
  parent := 0
  map := 0
  pages := 0
  ownPages := 0
  mapHallmark := 0
  ownerMap := 0
  created := 0
  mapPages := []

def Engine.ledger (e : Engine) (i : Nat) : LedgerEntry := lookupD e.led.entries i LedgerEntry.empty

def State.modEntry (s : State) (e : EngineId) (i : Nat) (f : LedgerEntry → LedgerEntry) : State :=
  s.modLed e fun l => { l with entries := assocSet l.entries i (f (lookupD l.entries i LedgerEntry.empty)) }

/-- The entries of a shard that are not FREE, with their indices. -/
def Engine.versions (e : Engine) (h : BitVec 24) : List (Nat × LedgerEntry) :=
  e.led.entries.filter fun x => x.2.shard == h && x.2.state != .free

def Engine.current (e : Engine) (h : BitVec 24) : Option (Nat × LedgerEntry) :=
  (e.versions h).find? fun x => x.2.state == .current

/-- The newest BUILDING or READY entry, else the CURRENT one (R221). -/
def Engine.parentOf (e : Engine) (h : BitVec 24) : Option (Nat × LedgerEntry) :=
  let young := (e.versions h).filter fun x => x.2.state == .building || x.2.state == .ready
  match young.foldl (fun m x => match m with
      | none => some x
      | some (y : Nat × LedgerEntry) => if y.2.version.toNat < x.2.version.toNat then some x else some y) none with
  | some x => some x
  | none => e.current h

/-! ### Channels of the engine's own issuers (R286, R300, R301) -/

def storeWord (a : Nat) : W64 := put a 0

/-- The address that names nothing. -/
def noWord : W64 := put 15 60

/-- A slip that the engine builds for one page of a channel of its own (R286, R288): n bytes, whole blocks with their
sidebands. -/
def ownSlip (n : Nat) (src dst : W64) : Slip where
  w0 := put 1 55 ||| putB (n % 4096 == 0) 50 ||| put n 0
  w1 := src
  w2 := dst
  w3 := noWord
  w4 := noWord
  w5 := 0
  w6 := 0
  w7 := 0

/-- The slip buffer holds 16 slips; the engine refills it as they run. -/
def ChanSt.fill (c : ChanSt) (l : List Slip) : ChanSt :=
  if l.isEmpty then c else { c with state := .running, buf := (c.buf ++ l).take 16 }

/-- The slip in progress has completed (R295); the channel is idle when its buffer is empty. -/
def ChanSt.ran (c : ChanSt) : ChanSt :=
  let n : W32 := match c.slip with
    | some x => BitVec.ofNat 32 (fld x.w0 31 0)
    | none => c.progress
  { c with
    state := if c.buf.isEmpty then .idle else .running
    slip := none, progress := n, sent := n.toNat, slips := wrapAdd c.slips 1, lastStatus := 0 }

/-- A transfer of one of the engine's own channels fails: the channel halts (R300, R301). -/
def ChanSt.failed (c : ChanSt) (st : Status) : ChanSt :=
  { c with
    state := .halted, slip := none, lastStatus := st.code, haltStatus := st.code, haltOffset := 0, halts := satAdd c.halts 1 }


/-- A slip leaves the buffer and is in progress; the buffer has no address of R287, so DMA_CUR shows the free value cur (log
entry 164). -/
def ChanSt.takes (c : ChanSt) (x : Slip) (cur : W64) : ChanSt :=
  { c with state := .running, slip := some x, buf := c.buf.erase x, progress := 0, sent := 0, cur := cur }

/-- A channel of the engine's own takes up a slip. -/
def State.chanTake (s : State) (e : EngineId) (ch : ChanId) (x : Slip) : State :=
  let (k, s) := s.draw
  s.modChan e ch fun c => c.takes x (Config.free 64 k)

/-- A transfer of one of the engine's own channels fails: the channel halts and the step is marked (R300, R301). -/
def State.chanFails (s : State) (e : EngineId) (ch : ChanId) (st : Status) : State :=
  (s.modChan e ch fun x => x.failed st).mark (islEngine e) st

/-- A page read by one of the engine's own channels for a micro-batch: bytes and sideband, or the status with its records
made, the channel halted and the step marked. A controller out of service answers under R16; the hallmark is checked under
R291. -/
def State.chanRead (s : State) (e : EngineId) (ch : ChanId) (c : CtlId) (page : Nat) (m : ReadMet) (mb : W16) :
    Except Status (List Byte × Sideband) × State :=
  if s.ctlOk c = false then (.error .stateConflict, s.chanFails e ch .stateConflict)
  else
    let (good, s) := s.readVia c (page * 4096) 4096 false m (s.byEng e ch.val mb)
    if good = false then (.error .uncorrectable, s.chanFails e ch .uncorrectable)
    else
      let (data, x) := s.readPage c page
      if hallmarkOk x data then (.ok (data, x), s)
      else
        let r : Rec4 := { w0 := x.w0, w1 := x.w1, w2 := x.w2, w3 := x.w3 }
        let s := (s.post (islEngine e) clsHallmark .hallmarkFail mb r).setErr errHallmark
        (.error .hallmarkFail, s.chanFails e ch .hallmarkFail)

/-- A page brought by one of the engine's own channels with a slip of n bytes to a place. -/
def State.fetchPage (s : State) (e : EngineId) (ch : ChanId) (c : CtlId) (page : Nat) (dst : W64) (n : Nat)
    (m : ReadMet) (mb : W16) : Except Status (List Byte × Sideband) × State :=
  match (s.chanTake e ch (ownSlip n (dramWord c (page * 4096)) dst)).chanRead e ch c page m mb with
  | (.ok data, s) => (.ok data, s.modChan e ch ChanSt.ran)
  | r => r

/-- A page written by one of the engine's own channels with a slip of its own. A controller out of service answers under
R16: the channel halts and the step is marked. -/
def State.chanWrite (s : State) (e : EngineId) (ch : ChanId) (c : CtlId) (page : Nat) (data : List Byte) (x : Sideband) :
    State :=
  let s := s.chanTake e ch (ownSlip 4096 noWord (dramWord c (page * 4096)))
  if s.ctlOk c then (s.writePage c page data x).modChan e ch ChanSt.ran
  else s.chanFails e ch .stateConflict

/-! ### Pool pages (R189, R215, R220, R221) -/

def headerPages (n : Nat) : Nat := ceilDiv n 4096

/-- A pool page as a page of its vault or channel. -/
def State.poolLoc (s : State) (e : EngineId) (q : Nat) : CtlId × Nat :=
  match s.engMap e.val with
  | some m => ((pageOf e m.pool).1, (pageOf e m.pool).2 + q)
  | none => (.vault 0, q)

def State.poolPages (s : State) (e : EngineId) : Nat :=
  match s.engMap e.val with
  | some m => m.poolPages
  | none => 0

def Engine.share (e : Engine) (q : Nat) : Nat := lookupD e.led.shares q 0

/-- A share count, in the engine and in its byte of the header pages; a controller out of service answers under R16, and the
step is marked. -/
def State.setShare (s : State) (e : EngineId) (q n : Nat) : State :=
  let old := s.eng[e.val].share q
  let s := s.modLed e fun l => { l with
    shares := if n = 0 then assocDel l.shares q else assocSet l.shares q n
    freePages := if old = 0 ∧ n ≠ 0 then l.freePages - 1 else if old ≠ 0 ∧ n = 0 then l.freePages + 1 else l.freePages }
  let (ctl, page) := s.poolLoc e (q / 4096)
  if s.ctlOk ctl then s.writeBytes ctl (page * 4096 + q % 4096) [BitVec.ofNat 8 n] []
  else s.mark (islEngine e) .stateConflict

/-- The lowest free pool page, taken with one share. -/
def State.takePage (s : State) (e : EngineId) : Nat × State :=
  let n := s.poolPages e
  match (List.range (n - headerPages n)).find? fun i => s.eng[e.val].share (headerPages n + i) = 0 with
  | some i => (headerPages n + i, s.setShare e (headerPages n + i) 1)
  | none => (headerPages n, s)

def State.takePages (s : State) (e : EngineId) : Nat → List Nat × State
  | 0 => ([], s)
  | n + 1 =>
    let (q, s) := s.takePage e
    let (r, s) := s.takePages e n
    (q :: r, s)

def State.dropShare (s : State) (e : EngineId) (q : Nat) : State := s.setShare e q (s.eng[e.val].share q - 1)
def State.addShare (s : State) (e : EngineId) (q : Nat) : State := s.setShare e q (s.eng[e.val].share q + 1)

/-! ### Page maps (R216, R221) -/

/-- The pool page that holds page p of an entry. -/
def State.mapWord (s : State) (e : EngineId) (x : LedgerEntry) (p : Nat) : Nat :=
  match x.mapPages[p / 1024]? with
  | some q =>
    let (ctl, page) := s.poolLoc e q
    rdNat (s.readPage ctl page).1 (4 * (p % 1024)) 4 % 2 ^ 29
  | none => 0

def State.mapWords (s : State) (e : EngineId) (x : LedgerEntry) : List Nat :=
  (List.range x.pages).map fun p => s.mapWord e x p

/-- The pages of an entry's map read by its engine: through their controllers, with the records of what they meet (R16, R262,
R279). A map that cannot be read marks the step (R281). -/
def State.readMap (s : State) (e : EngineId) (x : LedgerEntry) (ch : Nat) : Bool × State :=
  let r := x.mapPages.foldl (fun (a : Bool × State) q =>
    let p := a.2.poolLoc e q
    match a.2.pageIn p.1 p.2 (a.2.byEng e ch noMb) with
    | (.ok _, s) => (a.1, s)
    | (.error _, s) => (false, s)) (true, s)
  if r.1 then r else (false, r.2.mark (islEngine e) .uncorrectable)

/-- The channel that works for an entry: the update's at the owner, the version service's elsewhere (R286). -/
def LedgerEntry.chan (x : LedgerEntry) : ChanId := if x.owned then 3 else 4

/-- The page map written, each page a block of KIND 5. -/
def State.writeMap (s : State) (e : EngineId) (x : LedgerEntry) (ws : List Nat) : State :=
  (x.mapPages.zipIdx).foldl (fun s (q : Nat × Nat) =>
    let bytes := pad ((((ws.drop (q.2 * 1024)).take 1024).flatMap fun w => toBytes (BitVec.ofNat 32 w) 4)) 4096
    let (ctl, page) := s.poolLoc e q.1
    s.chanWrite e x.chan ctl page bytes (mkSide (crc32c bytes) 5 false x.version noMb x.shard.toNat q.2 0)) s

def mapCrc (ws : List Nat) : W32 := crc32c (ws.flatMap fun w => toBytes (BitVec.ofNat 32 w) 4)

/-- The location word of a pool page. -/
def State.poolWord (s : State) (e : EngineId) (q : Nat) : PageLoc := locOf (s.poolLoc e q).1 (s.poolLoc e q).2

/-! ### Transitions (R217, R220, R221) -/

/-- BUILDING or READY entries of a shard. -/
def Engine.young (e : Engine) (h : BitVec 24) : Nat :=
  ((e.versions h).filter fun x => x.2.state == .building || x.2.state == .ready).length

/-- A new BUILDING entry: its parent's map copied, every page shared, new pages for its own map. None while two entries
of the shard are BUILDING or READY already, or no index is free, or the parent's map cannot be read. -/
def State.allocEntry (s : State) (e : EngineId) (x : ShardEnt) (version : StepNo) (owned orphan published : Bool) :
    Option Nat × State :=
  let en := s.eng[e.val]
  match (s.slotsOf e x.shard).find? fun i => (en.ledger i).state == .free with
  | none => (none, s)
  | some i =>
    if 2 ≤ en.young x.shard then (none, s)
    else
      let n := s.shardPages x
      let parent := if orphan then none else en.parentOf x.shard
      let (good, s) : Bool × State := match parent with
        | some p => s.readMap e p.2 0xFF
        | none => (true, s)
      if good = false then (none, s) else
      let (ws, s) : List Nat × State := match parent with
        | some p =>
          let ws := s.mapWords e p.2
          (ws, ws.foldl (fun s q => s.addShare e q) s)
        | none => ([], s)
      let (maps, s) := s.takePages e (ceilDiv n 1024)
      let (ws, s) : List Nat × State := match parent with
        | some _ => (ws, s)
        | none => s.takePages e n
      let entry : LedgerEntry :=
        { state := .building, published := published, escrow := false, owned := owned, version := version, shard := x.shard
          refcount := 0, serve := 0
          parent := match parent with
            | some p => p.1
            | none => i
          map := s.poolWord e (maps.headD 0), pages := n
          ownPages := match parent with
            | some _ => 0
            | none => n
          mapHallmark := 0, ownerMap := 0, created := s.curStep, mapPages := maps }
      let s := s.modLed e fun l => { l with entries := assocSet l.entries i entry, created := wrapAdd l.created 1 }
      (some i, s.writeMap e entry ws)

/-- A page of a BUILDING entry written by the channel that works for it: to a new pool page where it is shared, else in place;
data that covers only part of the page goes over a copy of the old one (R221). -/
def State.writeVersionPage (s : State) (e : EngineId) (i p : Nat) (data : List Byte) : State :=
  let x := s.eng[e.val].ledger i
  let ws := s.mapWords e x
  let q := ws.getD p 0
  let old : Except Status (List Byte) × State :=
    if data.length < 4096 then
      match s.chanRead e x.chan (s.poolLoc e q).1 (s.poolLoc e q).2 ReadMet.none noMb with
      | (.ok d, s) => (.ok d.1, s)
      | (.error st, s) => (.error st, s)
    else (.ok [], s)
  match old with
  | (.error _, s) => s
  | (.ok rest, s) =>
    let data := data ++ rest.drop data.length
    let side := mkSide (crc32c data) 2 false x.version noMb x.shard.toNat p 0
    if s.eng[e.val].share q ≤ 1 then
      let (ctl, page) := s.poolLoc e q
      s.chanWrite e x.chan ctl page data side
    else
      let s := s.dropShare e q
      let (q', s) := s.takePage e
      let (ctl, page) := s.poolLoc e q'
      let s := s.chanWrite e x.chan ctl page data side
      let s := s.modEntry e i fun x => { x with ownPages := x.ownPages + 1 }
      s.writeMap e x (ws.set p q')

/-- Every page and the map are written: READY with MAP_HALLMARK. -/
def State.makeReady (s : State) (e : EngineId) (i : Nat) : State :=
  let x := s.eng[e.val].ledger i
  let h := mapCrc (s.mapWords e x)
  s.modEntry e i fun x => { x with state := .ready, mapHallmark := h }

/-- An entry freed: every share of its pages and of its map's pages drops. -/
def State.freeEntry (s : State) (e : EngineId) (i : Nat) : State :=
  let x := s.eng[e.val].ledger i
  if x.state = .free then s
  else
    let s := (s.readMap e x 0xFF).2
    let s := (s.mapWords e x ++ x.mapPages).foldl (fun s q => s.dropShare e q) s
    s.modLed e fun l => { l with
      entries := assocSet l.entries i LedgerEntry.empty, freed := wrapAdd l.freed 1
      residency := l.residency.filter fun r => r.2 != i }

/-- READY becomes CURRENT; the entry that was CURRENT is RETIRED. -/
def State.promoteEntry (s : State) (e : EngineId) (i : Nat) : State :=
  let x := s.eng[e.val].ledger i
  let s := match s.eng[e.val].current x.shard with
    | some c => s.modEntry e c.1 fun y => { y with state := .retired }
    | none => s
  s.modEntry e i fun y => { y with state := .current }

/-- The entry that a boundary promotes: READY and PUBLISHED with the lowest VERSION. -/
def Engine.promotable (e : Engine) (h : BitVec 24) : Option (Nat × LedgerEntry) :=
  ((e.versions h).filter fun x => x.2.state == .ready && x.2.published).foldl (fun m x => match m with
    | none => some x
    | some (y : Nat × LedgerEntry) => if x.2.version.toNat < y.2.version.toNat then some x else some y) none

/-- Live versions of a shard after its promotion (R219). -/
def Engine.liveAfter (e : Engine) (h : BitVec 24) : Nat :=
  let live := (e.versions h).filter fun x =>
    x.2.state == .current || (x.2.state == .retired && decide (0 < x.2.refcount))
  match e.promotable h, e.current h with
  | some _, some c => live.length + (if c.2.refcount = 0 then 0 else 1)
  | some _, none => live.length + 1
  | none, _ => live.length

/-- A boundary would leave too many live versions at some engine. -/
def State.depthBreach (s : State) : Bool :=
  s.stages.any fun e => match s.table e with
    | some t => (s.shardsOf e).any fun x => decide (t.versionDepth < s.eng[e.val].liveAfter x.shard)
    | none => false

/-- Promotions, then frees, of an engine at the boundary of a step (R217). -/
def State.ledgerBoundary (s : State) (e : EngineId) (step : StepNo) : State :=
  let s := (s.shardsOf e).foldl (fun s x => match s.eng[e.val].promotable x.shard with
    | some p => s.promoteEntry e p.1
    | none => s) s
  let gone := s.eng[e.val].led.entries.filter fun x =>
    ((x.2.state == .building || x.2.state == .ready) && !x.2.published && x.2.created == step) ||
    (x.2.state == .retired && x.2.refcount == 0 && !x.2.escrow && x.2.serve == 0)
  gone.foldl (fun s x => s.freeEntry e x.1) s

/-- The pool audit of R224, with its LEDGER frame on a mismatch. -/
def State.poolAudit (s : State) (e : EngineId) (step : StepNo) : State :=
  let en := s.eng[e.val]
  let sum := en.led.shares.foldl (fun n x => n + x.2) 0
  let want := (en.led.entries.filter fun x => x.2.state != .free).foldl (fun n x => n + x.2.pages + ceilDiv x.2.pages 1024) 0
  if sum = want then s
  else
    let s := s.modLed e fun l => { l with auditFails := satAdd l.auditFails 1 }
    (s.post (islEngine e) clsLedger .checkFail noMb
      { w0 := put Status.checkFail.code.toNat 56 ||| put 0 52 ||| put e.val 45, w1 := put (sum % 2 ^ 32) 0,
        w2 := put step.toNat 16, w3 := put (want % 2 ^ 32) 0 }).setErr errCheck

/-- Every entry of an engine freed (ABORT, RELEASE, restore). -/
def State.freeAll (s : State) (e : EngineId) : State :=
  (s.eng[e.val].led.entries.filter fun x => x.2.state != .free).foldl (fun s x => s.freeEntry e x.1) s

/-! ### Working copies (R106 to R115, R248, R249) -/



def packRow (sb : Nat) (codes : List Nat) : List Byte :=
  toBytes (BitVec.ofNat (64 * sb) ((codes.zipIdx).foldl (fun n (c : Nat × Nat) => n + (c.1 <<< (c.2 * sb))) 0)) (8 * sb)

/-- The reciprocal of a per-tensor scale, rounded to FP32 (R109). -/
def recipScale (d : Denom) (wscale : W32) : Num :=
  if d.perTensor then ((dFp32 true).done false (numDiv numOne (f32 wscale))).val else numOne

/-- One panel derived from the master: codes by row, scale bytes, and the conversions counted. -/
def derivePanel (d : Denom) (kTot n0 cols kk0 : Nat) (w : Nat → Nat → Num) (r : Nat → Nat → Option W16) :
    List Byte × ExcCnt :=
  let rows := min 256 (kTot - kk0)
  if d.block = 0 then
    let cells := (List.range rows).map fun k => (List.range cols).map fun c => d.convert (r (kk0 + k) (n0 + c)) (w (kk0 + k) (n0 + c))
    (pad (cells.flatMap fun l => packRow d.storeBits (l.map (·.1))) (up64 (rows * 8 * d.storeBits)),
      cells.foldl (fun a l => l.foldl (fun a x => convCount a x.2) a) ExcCnt.init)
  else
    let nb := ceilDiv rows d.block
    let blks := (List.range nb).map fun b => (List.range cols).map fun c =>
      let ks := (List.range (min d.block (rows - b * d.block))).map fun i => kk0 + b * d.block + i
      d.convertBlock (ks.map fun k => r k (n0 + c)) (ks.map fun k => w k (n0 + c))
    let code (k c : Nat) : Nat := (((blks.getD (k / d.block) []).getD c (0, [], [])).2.1).getD (k % d.block) 0
    let els := (List.range rows).flatMap fun k => packRow d.storeBits ((List.range cols).map fun c => code k c)
    let scs := blks.flatMap fun l => pad (l.map (·.1)) 64
    (pad (els ++ scs) (panelBytes d rows),
      blks.foldl (fun a l => l.foldl (fun a x => x.2.2.foldl convCount a) a) ExcCnt.init)

/-- The pages of a parameter's working copy from its master, element (k, n) of which is w k n; the last one as far as the
panels reach. -/
def State.deriveParam (s : State) (p : ParamRec) (version : StepNo) (w : Nat → Nat → Num) : List (List Byte) × ExcCnt :=
  let d := s.denom p.denW
  let inv := recipScale d p.wscale
  let val (k n : Nat) : Num := if d.perTensor then (numMul (w k n) inv).1 else w k n
  let r (k n : Nat) : Option W16 := s.stream d version 0xFFFF p.paramId 0xFE (k * p.n + n)
  let panels := (List.range (ceilDiv p.n p.nw)).flatMap fun j => (List.range (ceilDiv p.k 256)).map fun b =>
    derivePanel d p.k (j * p.nw) (min p.nw (p.n - j * p.nw)) (b * 256) val r
  let bytes := panels.flatMap (·.1)
  ((List.range (s.paramPages p)).map fun i => slice bytes (i * 4096) 4096,
    panels.foldl (fun a x => a.plus x.2) ExcCnt.init)

/-! ### State regions (R232, R233) -/

/-- Elements of a parameter. -/
def ParamRec.elems (p : ParamRec) : Nat := p.k * p.n

def algoMoments (algo : Nat) : Nat := if algo = 3 then 2 else if algo = 2 then 1 else 0

/-- Moment arrays of a shard's region: those of the recipe with the most moments that names its group, in either plane. -/
def State.momentsOf (s : State) (x : ShardEnt) : Nat :=
  match s.job.charter with
  | none => 0
  | some c => c.plane.foldl (fun n p =>
      match p.recipes with
      | none => n
      | some rs => p.sched.foldl (fun n t => t.rows.foldl (fun n r =>
          if r.op = 0x31 ∧ r.argB.toNat = x.group then
            max n (match rs.list[r.argA.toNat]? with
              | some q => algoMoments q.algo
              | none => 0)
          else n) n) n) 0

/-- Pages of one parameter's arrays: master, compensation, moments. -/
def statePagesOf (p : ParamRec) (comp : Bool) (moments : Nat) : List Nat :=
  [ceilDiv (p.elems * 4) 4096] ++ (if comp then [ceilDiv (p.elems * 2) 4096] else []) ++
  List.replicate moments (ceilDiv (p.elems * 4) 4096)

/-- The first page of a parameter within the state region of its shard. -/
def State.stateFirst (s : State) (x : ShardEnt) (idx : Nat) : Nat :=
  ((s.paramsOf x).take idx).foldl (fun n p => n + (statePagesOf p x.comp (s.momentsOf x)).foldl (· + ·) 0) 0

/-- All pages of a shard's state region. -/
def State.stateLen (s : State) (x : ShardEnt) : Nat := s.stateFirst x x.params

/-- The first page of a shard's state within its region: after a takeover that of the mirror slot (R431, R434). -/
def State.stateBase (s : State) (x : ShardEnt) : Nat :=
  match s.ckpt.takenOver.find? fun y => y.1 == x.shard with
  | some y => 1 + y.2 * s.stateLen x
  | none => 0

/-- A page of host memory that holds state: as last read or written; its first reading gives a free value (R389). -/
def State.hostPage (s : State) (a : W64) : List Byte × State :=
  match s.host.pages.find? fun y => y.1 == a.toNat with
  | some y => (y.2, s)
  | none =>
    let (n, s) := s.draw
    let d := toBytes (Config.free 32768 n) 4096
    (d, s.modHost fun h => { h with pages := assocSet h.pages a.toNat d })

def State.putHostPage (s : State) (a : W64) (data : List Byte) : State :=
  (s.modHost fun h => { h with pages := assocSet h.pages a.toNat data }).emit (.hostWrite a data)

/-- A page of the region read by channel 3, with its sideband; host memory (TIER 2) has none. -/
def State.readState (s : State) (e : EngineId) (x : ShardEnt) (page : Nat) (m : ReadMet) :
    Except Status (List Byte × Sideband) × State :=
  if x.tier = 2 then
    let (d, s) := s.hostPage (wrapAdd x.hostAddr (page * 4096))
    (.ok (d, mkSide (crc32c d) 4 false 0 noMb x.shard.toNat page 0), s)
  else
    let (ctl, q) := pageOf e x.state
    s.fetchPage e 3 ctl (q + s.stateBase x + page) noWord 4096 m noMb

/-- A page of the region written with its tag, by channel 3. -/
def State.writeState (s : State) (e : EngineId) (x : ShardEnt) (page : Nat) (version : StepNo) (data : List Byte) : State :=
  if x.tier = 2 then s.putHostPage (wrapAdd x.hostAddr (page * 4096)) data
  else
    let (ctl, q) := pageOf e x.state
    s.chanWrite e 3 ctl (q + s.stateBase x + page) data (mkSide (crc32c data) 4 false version noMb x.shard.toNat page 0)

/-- n pages of a region read in order; the first that does not read ends it. The first page meets m. -/
def State.readStates (s : State) (e : EngineId) (x : ShardEnt) (first n : Nat) (m : ReadMet) :
    Except Status (List (List Byte × Sideband)) × State :=
  (List.range n).foldl (fun (a : Except Status (List (List Byte × Sideband)) × State) i =>
    match a with
    | (.error st, s) => (.error st, s)
    | (.ok l, s) =>
      match s.readState e x (first + i) (if i = 0 then m else ReadMet.none) with
      | (.ok d, s) => (.ok (l ++ [d]), s)
      | (.error st, s) => (.error st, s)) (.ok [], s)

def pagesBytes (l : List (List Byte × Sideband)) : List Byte := l.flatMap (·.1)

/-- The masters of a shard's parameters, in record order (R248). -/
def State.readMasters (s : State) (e : EngineId) (x : ShardEnt) : Except Status (List (List Byte)) × State :=
  ((s.paramsOf x).zipIdx).foldl (fun (a : Except Status (List (List Byte)) × State) (p : ParamRec × Nat) =>
    match a with
    | (.error st, s) => (.error st, s)
    | (.ok l, s) =>
      match s.readStates e x (s.stateFirst x p.2) (ceilDiv (p.1.elems * 4) 4096) ReadMet.none with
      | (.ok d, s) => (.ok (l ++ [pagesBytes d]), s)
      | (.error st, s) => (.error st, s)) (.ok [], s)

/-- The update record of R405. -/
def updRec (st : Status) (shard : BitVec 24) (e : EngineId) (classes : Nat) (step : StepNo) : Rec4 :=
  { w0 := put st.code.toNat 56 ||| put shard.toNat 32 ||| put e.val 25 ||| put classes 22, w1 := put step.toNat 16
    w2 := 0, w3 := 0 }

/-- At most one event per unmasked class of an update or re-derivation (R127, R244). -/
def State.updEvents (s : State) (e : EngineId) (shard : BitVec 24) (c : ExcCnt) : State :=
  let m := s.eng[e.val].arr.excMask
  let inv := decide (0 < c.inv + c.cInv) && !(bitAt m 0)
  let ovf := decide (0 < c.ovf + c.cOvf) && !(bitAt m 2)
  let nan := decide (0 < c.nan) && !(bitAt m 1)
  let cls := (if inv then 4 else 0) + (if ovf then 2 else 0) + (if nan then 1 else 0)
  s.excEvents e { inv := inv, ovf := ovf, nan := nan } (updRec .ok shard e cls s.curStep) noMb

/-- A working copy derived from masters at hand into a BUILDING entry (R248). -/
def State.deriveFrom (s : State) (e : EngineId) (x : ShardEnt) (i : Nat) (masters : List (List Byte)) : State × ExcCnt :=
  let version := (s.eng[e.val].ledger i).version
  let s := s.deed e 4 x.shard.toNat 0
  ((s.paramsOf x).zip masters).foldl (fun (a : State × ExcCnt) (p : ParamRec × List Byte) =>
    let (pages, cnt) := a.1.deriveParam p.1 version fun k n => f32 (rdW 32 p.2 ((k * p.1.n + n) * 4))
    ((pages.zipIdx).foldl (fun s (d : List Byte × Nat) => s.writeVersionPage e i (p.1.page + d.2) d.1) a.1,
      a.2.plus cnt)) (s, ExcCnt.init)

/-- A shard's working copy derived from its region's masters and written to a BUILDING entry, then READY; with a status
where a master cannot be read. -/
def State.deriveShard (s : State) (e : EngineId) (x : ShardEnt) (i : Nat) : Option Status × State :=
  match s.readMasters e x with
  | (.error st, s) => (some st, s)
  | (.ok masters, s) =>
    let (s, cnt) := s.deriveFrom e x i masters
    (none, ((s.modVec e fun v => v.tally cnt).updEvents e x.shard cnt).makeReady e i)

end Sys2Proof.Machine
end

