-- ==== Sys2Proof/Machine/Tills.lean ====
section
/-! DEFINITION. Till ends: credits, messages in rings and stores, sending, resending, acknowledgement, and the float
(07 R193 to R208; 11 R315, R316; 12 R355; 15 R467). -/

namespace Sys2Proof.Machine

/-! ### Ends -/

def State.till (s : State) (e : EngineId) (t : Nat) : TillSt := s.eng[e.val].tills.toList.getD t TillSt.init

def State.modT (s : State) (e : EngineId) (t : Nat) (f : TillSt → TillSt) : State := s.modTill e (Fin.ofNat 64 t) f

/-- The two ends of a local till, the peer index of an Envis till, the ring of a host till (R191 LINK). -/
def TillEnd.farEngine (c : TillEnd) : EngineId := Fin.ofNat 128 (c.link % 128)
def TillEnd.farTill (c : TillEnd) : TillId := Fin.ofNat 64 (c.link / 256)
def TillEnd.ring (c : TillEnd) : RingId := Fin.ofNat 64 c.link
def TillEnd.blocks (c : TillEnd) : Nat := c.msgBytes / 4096

/-- How many numbers a comes after b, modulo 2^32. -/
def seqAfter (a b : W32) : Nat := (a - b).toNat

/-- The peer of an Envis till has been declared lost. -/
def State.tillPeerLost (s : State) (c : TillEnd) : Bool :=
  match c.path with
  | .envis => (s.peer c.link).state == 4
  | _ => false

/-- The peer of an Envis till is admitted; a transfer that needs an unadmitted peer waits (R322). -/
def State.tillPeerReady (s : State) (c : TillEnd) : Bool :=
  match c.path with
  | .envis => (s.peer c.link).state == 2
  | .host => (s.host.rings[c.ring.val]).enabled && (s.host.rings[c.ring.val]).kind == (if c.isOut then 2 else 1)
  | .onModule => true

/-! ### Credits of an IN end (R195) -/

/-- Credits that the rule lets the end grant. -/
def TillSt.grants (t : TillSt) (c : TillEnd) : Nat :=
  let a := c.credits - (t.o + t.r)
  if c.storeMsgs = 0 then a else min a (c.storeMsgs - (t.o + t.s))

/-- Every credit that the rule allows is granted; the first grant of an Envis end announces MSG_BYTES (R200). -/
def State.grant (s : State) (e : EngineId) (t : Nat) : State :=
  match s.tillCfg e.val t with
  | none => s
  | some c =>
    let x := s.till e t
    let n := x.grants c
    if x.state ≠ 1 ∨ c.isOut = true ∨ n = 0 ∨ (c.path = .envis ∧ s.tillPeerReady c = false) then s
    else
      let bytes := if x.announced then 0 else c.msgBytes
      let s := s.modT e t fun x => { x with o := x.o + n, announced := true }
      match c.path with
      | .onModule => s.emit (.tillCredit c.farEngine c.farTill n 0)
      | .envis => s.sendCredit c.link (s.job.plane == 1) n bytes
      | .host => s

/-- The end of a plane that becomes active: counts from zero, then every credit the rule allows; a host OUT end holds one
credit for each buffer posted. -/
def State.openTill (s : State) (e : EngineId) (c : TillEnd) : State :=
  let k := if c.isOut && c.path == .host && s.tillPeerReady c then (s.host.rings[c.ring.val]).posted.length else 0
  let s := s.modT e c.till fun x => { TillSt.init with
    state := 1, cMsgs := x.cMsgs, cResends := x.cResends, cOver := x.cOver, reloads := x.reloads, odWait := x.odWait, credits := k
    announced := x.announced }
  s.grant e c.till

/-- Tills of the active plane open, all others disabled. After an activation or a plane switch the first grant of an end
announces MSG_BYTES again (R313). -/
def State.openTills (s : State) (again : Bool) : State :=
  let s := s.modAllEng fun e => { e with tills := e.tills.map fun x => { TillSt.init with
    cMsgs := x.cMsgs, cResends := x.cResends, cOver := x.cOver, reloads := x.reloads, odWait := x.odWait
    announced := x.announced && !again } }
  match s.planeCfg with
  | none => s
  | some p => p.tills.foldl (fun s c => s.openTill (Fin.ofNat 128 c.engine) c) s

/-! ### Ring slots, store places, heads -/

def TillSt.freeSlot (t : TillSt) (c : TillEnd) : Option Nat :=
  (List.range c.depth).find? fun k => !(t.msgs.any fun m => m.slot == some k)

def TillSt.slotsUsed (t : TillSt) : Nat := (t.msgs.filter fun m => m.slot.isSome).length

def TillSt.freePlace (t : TillSt) (c : TillEnd) : Option Nat :=
  (List.range c.storeMsgs).find? fun k => !(t.msgs.any fun m => m.place == some k && !m.gone)

/-- The oldest complete message that no micro-batch has claimed (R202). -/
def TillSt.head (t : TillSt) : Option MsgIn :=
  (t.msgs.filter fun m => m.complete && !m.claimed).foldl (fun a m => match a with
    | none => some m
    | some (b : MsgIn) => if seqAfter m.seqNo t.nextClaim < seqAfter b.seqNo t.nextClaim then some m else some b) none

/-- TIL_HEAD of an IN end follows its head message. -/
def TillSt.showHead (t : TillSt) : TillSt :=
  match t.head with
  | some m => { t with headOrigin := m.origin, headMb := m.mb }
  | none => t

def TillSt.modMsg (t : TillSt) (n : W32) (f : MsgIn → MsgIn) : TillSt :=
  { t with msgs := t.msgs.map fun m => if m.seqNo == n then f m else m }

/-- The page of block b of the message at place j of a till store (R191). -/
def storePage (e : EngineId) (c : TillEnd) (j b : Nat) : CtlId × Nat :=
  ((pageOf e c.store).1, (pageOf e c.store).2 + j * c.blocks + b)

/-- A ring slot released (R204): R falls once for a message; a slot that a reload took is released without it (R205). -/
def State.dropSlot (s : State) (e : EngineId) (t : Nat) (n : W32) (reload : Bool) : State :=
  match (s.till e t).msg n with
  | none => s
  | some m =>
    if m.slot.isNone && !(m.inR && !reload) then s
    else
      (s.modT e t fun x => { x.modMsg n (fun m => { m with slot := none, reloaded := false, inR := m.inR && reload }) with
        r := if m.inR && !reload then x.r - 1 else x.r }).grant e t

/-- A message leaves the till store: its micro-batch has left the float and the step in which it arrived has retired
(R204). Its record stays for a replay of the step in progress. -/
def State.dropStore (s : State) (e : EngineId) (t : Nat) (n : W32) (inStep : StepNo) : State :=
  match (s.till e t).msg n with
  | none => s
  | some m =>
    if m.exited && !m.gone && m.step != inStep then
      (s.modT e t fun x => { x.modMsg n (fun m => { m with gone := true }) with
        s := if m.place.isSome then x.s - 1 else x.s }).grant e t
    else s

/-! ### The float (R206, R208) -/

/-- A micro-batch leaves the float: its references drop, its ring slots are released, its entry is freed. -/
def State.exitFloat (s : State) (e : EngineId) (f : FloatEntry) : State :=
  let s := s.modEng e fun x => { x with float := x.float.erase f }
  let s := f.vers.foldl (fun s v => s.modEntry e v.2 fun x => { x with refcount := x.refcount - 1 }) s
  f.claims.foldl (fun s c =>
    let s := s.dropSlot e c.1 c.2 false
    (s.modT e c.1 fun x => x.modMsg c.2 fun m => { m with exited := true }).dropStore e c.1 c.2 s.curStep) s

/-- The engine has an EXIT till in the active plane. -/
def State.exitTill (s : State) (e : EngineId) : Option TillEnd :=
  match s.planeCfg with
  | some p => p.tills.find? fun c => c.engine == e.val && c.isOut && c.exit
  | none => none

/-! ### Blocks that arrive (R197, R198) -/

/-- A resend asked of the OUT end. -/
def State.askResend (s : State) (e : EngineId) (t : TillId) (c : TillEnd) (n : W32) (block : Nat) : State :=
  let s := s.modT e t.val fun x => { x with cResends := satAdd x.cResends 1 }
  match c.path with
  | .onModule => s.emit (.tillResend c.farEngine c.farTill n block)
  | .envis => s.sendMsgCtrl c.link true (s.job.plane == 1) n block
  | .host => s.emit (.tillResend e t n block)

/-- A block that fails its hallmark: two resends, then the step is marked. -/
def State.blockFails (s : State) (e : EngineId) (t : TillId) (c : TillEnd) (m : MsgIn) (block : Nat) : State :=
  let k := lookupD m.fails block 0 + 1
  if k ≤ 2 then
    (s.modT e t.val fun x => x.modMsg m.seqNo fun m => { m with fails := assocSet m.fails block k }).askResend e t c m.seqNo block
  else
    (s.modT e t.val fun x => x.modMsg m.seqNo fun m => { m with fails := assocDel m.fails block }).mark (islEngine e)
      .hallmarkFail

/-- A block written into its ring slot and into the till store. -/
def State.storeBlock (s : State) (e : EngineId) (t : TillId) (c : TillEnd) (m : MsgIn) (block : Nat) (data : List Byte)
    (x : Sideband) (bad : Option Status) : State :=
  let s := match m.slot with
    | some k => s.putStore e (c.addr + k * c.msgBytes + block * 4096) data
    | none => s
  let ok (s : State) : State := s.modT e t.val fun y => y.modMsg m.seqNo fun m =>
    { m with blocks := if m.blocks.contains block then m.blocks else block :: m.blocks, storeBad := m.storeBad.erase block }
  match m.place with
  | none => ok s
  | some j =>
    let (ctl, page) := storePage e c j block
    let bad := if s.ctlOk ctl then bad else some .stateConflict
    match bad with
    | some .hallmarkFail => s.blockFails e t c m block
    | some st =>
      (s.modT e t.val fun y => y.modMsg m.seqNo fun m => { m with
        storeBad := if m.storeBad.contains block then m.storeBad else block :: m.storeBad }).mark (islEngine e) st
    | none => ok (s.writePage ctl page data x)

/-- A first block with no credit: the message is discarded and the event reported (R197). -/
def State.overdraftIn (s : State) (e : EngineId) (t : TillId) (x : Sideband) : State :=
  let s := s.modT e t.val fun y => { y with
    dropping := some (BitVec.ofNat 32 x.index), cOver := satAdd y.cOver 1 }
  s.post (islEngine e) clsEvent .overdraft x.mb
    { w0 := put Status.overdraft.code.toNat 56 ||| put e.val 49 ||| put t.val 43
      w1 := put x.step.toNat 16 ||| put x.mb.toNat 0, w2 := 0, w3 := 0 }

/-- A till message comes from the far end that the till joins, and for the active plane (R315). -/
def State.joins (s : State) (c : TillEnd) (path : TillPath) (plane : Bool) : Bool :=
  plane == (s.job.plane == 1) && match c.path, path with
    | .onModule, .onModule e t => e == c.farEngine && t == c.farTill
    | .envis, .envis i vc => i == c.link && vc.val == c.vc
    | .host, .host r => r == c.ring
    | _, _ => false

/-- A till message of a peer that is not admitted is dropped and counted (R29, R322); one that no end of the plane joins goes
nowhere (log entry 181). -/
def State.heard (s : State) (c : TillEnd) (path : TillPath) (plane : Bool) (f : State → State) : State :=
  match path with
  | .envis i _ => if s.admitted i = false then s.dropUnadmitted i else if s.joins c path plane then f s else s
  | _ => if s.joins c path plane then f s else s

/-- The low header bits of a till block's frames (R310). -/
def tillLow (plane : Bool) (x : Sideband) : Nat :=
  (if plane then 2 ^ 96 else 0) ||| x.step.toNat <<< 48 ||| x.mb.toNat <<< 32 ||| (x.object / 64) % 128 <<< 25 |||
    x.object % 64 <<< 19 ||| x.block <<< 8

/-- The plaintext of a block: Envis blocks of a sealed job are decrypted. -/
def State.openTillBlock (s : State) (c : TillEnd) (b : TillBlk) : Option (List Byte) × State :=
  match c.path with
  | .envis => s.openBlock c.link 1 (Fin.ofNat 8 c.vc) (tillLow b.plane b.side) false b.epoch b.data b.side b.gcmTag
  | _ => (some b.data, s)

/-- The block of a message that holds its slot: verified, then written. -/
def State.takeBlock (s : State) (e : EngineId) (t : TillId) (c : TillEnd) (m : MsgIn) (b : TillBlk) (pt : Option (List Byte)) :
    State :=
  match pt with
  | none => s.blockFails e t c m b.side.block
  | some data =>
    if hallmarkOk b.side data then s.storeBlock e t c m b.side.block data b.side b.storeFail
    else
      let r : Rec4 := { w0 := b.side.w0, w1 := b.side.w1, w2 := b.side.w2, w3 := b.side.w3 }
      ((s.post (islEngine e) clsHallmark .hallmarkFail m.mb r).setErr errHallmark).blockFails e t c m b.side.block

/-- A block that its IN end hears: of a message that holds its slot, or the first of one that takes a credit (R197). -/
def State.blockIn (s : State) (e : EngineId) (t : TillId) (c : TillEnd) (b : TillBlk) : State :=
  let (pt, s) := s.openTillBlock c b
  let y := s.till e t.val
  let x := b.side
  let n : W32 := BitVec.ofNat 32 x.index
  let dropped := decide (y.dropping = some n) && decide (x.block ≠ 0)
  let stale := decide (2 ^ 31 ≤ seqAfter n y.nextIn)
  match y.msg n with
  | none =>
    if dropped || stale then s
    else if y.o = 0 then s.overdraftIn e t x
    else
      let place := y.freePlace c
      let m : MsgIn :=
        { seqNo := n, origin := x.step, mb := x.mb, slot := y.freeSlot c, place := place, blocks := [], fails := []
          storeBad := [], complete := false, claimed := false, step := s.curStep, exited := false
          reloaded := false, inR := true, savedR := true, gone := false }
      let s := s.modT e t.val fun z => { z with
        o := z.o - 1, r := z.r + 1, s := if place.isSome then z.s + 1 else z.s
        msgs := (z.msgs.map fun q => if q.gone && q.place == place then { q with place := none } else q) ++ [m]
        nextIn := wrapAdd n 1, dropping := none }
      s.takeBlock e t c m b pt
  | some m => s.takeBlock e t c m b pt

/-- TILL_DATA: a block at an IN end of the active plane; an engine out of service is answered for (R16). -/
def tillData (e : EngineId) (t : TillId) (b : TillBlk) (s : State) : State :=
  if s.engOk e.val = false then s.emit (.notServed (islEngine e) .stateConflict)
  else match s.tillCfg e.val t.val with
    | none => s
    | some c =>
      if c.isOut = true ∨ (s.till e t.val).state ≠ 1 then s
      else s.heard c b.path b.plane fun s => s.blockIn e t c b

def execTillData (e : EngineId) (t : TillId) (b : TillBlk) (s : State) : Res := .next (tillData e t b s.settle)

/-- The acknowledgement of a message (R198), or the completion of a host entry (R355). -/
def State.ackMsg (s : State) (c : TillEnd) (n : W32) : State :=
  match c.path with
  | .onModule => s.emit (.tillAck c.farEngine c.farTill n)
  | .envis => s.sendMsgCtrl c.link false (s.job.plane == 1) n 0
  | .host =>
    let g := s.host.rings[c.ring.val]
    match g.waiting.zip g.posted |>.find? fun w => w.1 == n with
    | none => s
    | some w =>
      let s := s.modRing c.ring fun g => { g with
        waiting := g.waiting.erase n, posted := g.posted.erase w.2 }
      s.ringComplete c.ring g.gen .ok (BitVec.ofNat 16 (fld w.2.1 47 32)) (BitVec.ofNat 8 (fld w.2.1 63 56)) 0

/-- Every message of the till with an earlier sequence number is complete: the messages of a till complete in order (R194). -/
def TillSt.oldest (t : TillSt) (n : W32) : Bool :=
  t.msgs.all fun m => m.complete || m.seqNo == n || decide (seqAfter m.seqNo n < 2 ^ 31)

/-- TILL_MESSAGE_COMPLETE: every block of a message is written, so the IN end acknowledges it; a message whose turn it is not
yet waits. -/
def execTillMessageComplete (e : EngineId) (t : TillId) (seqNo : W32) (s : State) : Res :=
  .next <|
    match s.tillCfg e.val t.val, (s.till e t.val).msg seqNo with
    | some c, some m =>
      if c.isOut = false ∧ c.blocks ≤ m.blocks.length ∧ (s.till e t.val).oldest seqNo = true then
        let s := s.modT e t.val fun y => TillSt.showHead
          { y.modMsg seqNo (fun m => { m with complete := true }) with
            cMsgs := if m.complete then y.cMsgs else wrapAdd y.cMsgs 1 }
        s.ackMsg c seqNo
      else s
    | _, _ => s

/-! ### Sending (R193, R201, R212) -/

/-- The host-till key of a ring (R445). -/
def State.hostKey (s : State) (r : RingId) : Option Dig256 :=
  s.sec.jobKey.map fun k => Config.sha3_256 (toBytes k 32 ++ [0x5A, 0x43, 0x2D, 0x48, 0x4F, 0x53, 0x54] ++
    toBytes s.sec.store.moduleId 2 ++ [BitVec.ofNat 8 r.val])

/-- The nonce of a host-till block (R467). -/
def State.hostNonce (s : State) (origin : StepNo) (mb : W16) (block : Nat) : BitVec 96 :=
  let a := match s.int.replay with
    | some _ => s.int.replayAttempt.toNat
    | none => 0
  BitVec.ofNat 96 (origin.toNat <<< 48 ||| mb.toNat <<< 32 ||| a <<< 28 ||| block)

/-- The bytes that a message occupies in a host buffer: in a sealed job ciphertext, then one tag per block. -/
def State.hostBuffer (s : State) (r : RingId) (origin : StepNo) (mb : W16) (blocks : List (List Byte)) : List Byte :=
  match (if s.sealedJob then s.hostKey r else none) with
  | none => blocks.flatten
  | some k =>
    let cs := blocks.zipIdx.map fun (b : List Byte × Nat) => Config.gcmSeal k (s.hostNonce origin mb b.2) [] b.1
    cs.flatMap (·.1) ++ cs.flatMap fun c => toBytes c.2 16

/-- The tag of a block as its OUT end writes it. -/
def tillSide (e : EngineId) (t : Nat) (plane : Bool) (o : MsgOut) (data : List Byte) (block : Nat) : Sideband :=
  mkSide (crc32c data) 1 plane o.origin o.mb (e.val * 64 + t) o.seqNo.toNat block

/-- The IN end's till and engine in a local tag, else the OUT end's own. -/
def TillEnd.tagOf (c : TillEnd) : EngineId × Nat :=
  match c.path with
  | .onModule => (c.farEngine, c.farTill.val)
  | _ => (Fin.ofNat 128 c.engine, c.till)

def State.sourceBlock (s : State) (e : EngineId) (c : TillEnd) (b : Nat) : List Byte :=
  memRead s.eng[e.val].store (c.addr + b * 4096) 4096

/-- One block sent from the source; that of a local till through raw-stream port TILL mod 4 (R194). -/
def State.sendTillBlock (s : State) (e : EngineId) (c : TillEnd) (o : MsgOut) (b : Nat) : State :=
  let data := s.sourceBlock e c b
  let plane := s.job.plane == 1
  let x := tillSide c.tagOf.1 c.tagOf.2 plane o data b
  match c.path with
  | .onModule =>
    s.emit (.tillBlock (Fin.ofNat 4 c.till) c.farEngine c.farTill
      { path := .onModule e (Fin.ofNat 64 c.till), plane := plane, data := data, side := x, gcmTag := 0, epoch := false,
        storeFail := none })
  | .envis =>
    s.sendBlock c.link 1 (Fin.ofNat 8 c.vc) (tillLow plane x) false data x .ok
  | .host => s

def State.modOut (s : State) (e : EngineId) (t : Nat) (n : W32) (f : MsgOut → MsgOut) : State :=
  s.modT e t fun x => { x with outs := x.outs.map fun o => if o.seqNo == n then f o else o }

/-- A message acknowledged: its pin is released, and on an EXIT till its micro-batch leaves the float. -/
def State.outAcked (s : State) (e : EngineId) (t : Nat) (n : W32) : State :=
  match s.tillCfg e.val t, (s.till e t).outs.find? fun o => o.seqNo == n && !o.acked with
  | some c, some o =>
    let s := s.modOut e t n fun o => { o with acked := true }
    if c.exit then
      match s.eng[e.val].float.find? fun f => f.exiting && f.mb == o.mb && f.origin == o.origin with
      | some f => s.exitFloat e f
      | none => s
    else s
  | _, _ => s

/-- A KIND 2 ring has taken a message: the buffer is filled and completed, and the message acknowledged (R355). -/
def State.hostFilled (s : State) (e : EngineId) (c : TillEnd) (o : MsgOut) (w : W64 × W64) : State :=
  let g := s.host.rings[c.ring.val]
  let s := s.modRing c.ring fun g => { g with posted := g.posted.drop 1 }
  let s := s.emit (.hostWrite w.2 (s.hostBuffer c.ring o.origin o.mb
    ((List.range c.blocks).map fun b => s.sourceBlock e c b)))
  let s := s.ringComplete c.ring g.gen .ok (BitVec.ofNat 16 (fld w.1 47 32)) (BitVec.ofNat 8 (fld w.1 63 56))
    (put o.origin.toNat 16 ||| put o.mb.toNat 0)
  s.outAcked e c.till o.seqNo

/-- Hallmarks of a message that failed at the host interface: each is reported, and two of a block ask for it again
(R355, R373). -/
def State.hostFailures (s : State) (e : EngineId) (c : TillEnd) (o : MsgOut) (fails : List (Nat × Nat)) : State :=
  (List.range c.blocks).foldl (fun (s : State) b =>
    let k := min 3 (lookupD fails b 0)
    let x := tillSide c.tagOf.1 c.tagOf.2 (s.job.plane == 1) o (s.sourceBlock e c b) b
    let s := (List.range k).foldl (fun (s : State) _ =>
      (s.post islBursar clsHallmark .hallmarkFail o.mb { w0 := x.w0, w1 := x.w1, w2 := x.w2, w3 := x.w3 }).setErr
        errHallmark) s
    s.modT e c.till fun y => { y with cResends := satAdd y.cResends (min 2 k) }) s

/-- A message sent to the host interface of a KIND 2 ring, which verifies each block before it writes it: fails counts, by
block, the sendings whose hallmark failed there. A block that failed three times marks the step; its message keeps its buffer,
its credit and its number (R355, R372, R373). -/
def State.sendHost (s : State) (e : EngineId) (c : TillEnd) (o : MsgOut) (fails : List (Nat × Nat)) : State :=
  match (s.host.rings[c.ring.val]).posted with
  | [] => s
  | w :: _ =>
    if s.tillPeerReady c = false then s
    else
      let bad := (List.range c.blocks).filter fun b => 3 ≤ lookupD fails b 0
      let s := s.hostFailures e c o fails
      if bad.isEmpty then s.hostFilled e c o w
      else (s.modOut e c.till o.seqNo fun o => { o with cut := true }).mark (islEngine e) .hallmarkFail

/-- The first n blocks of a message read from the source and sent. A host buffer takes whole messages. -/
def State.sendMsg (s : State) (e : EngineId) (c : TillEnd) (o : MsgOut) (n : Nat) (fails : List (Nat × Nat)) : State :=
  match c.path with
  | .host => if n < c.blocks then s else s.sendHost e c o fails
  | _ => s.forRange n fun s b => s.sendTillBlock e c o b

/-- The blocks of the source before its first word that does not read (R280). -/
def State.goodSource (s : State) (e : EngineId) (c : TillEnd) (ws : List (Fin 4 × Nat)) : Nat :=
  match ws with
  | [] => c.blocks
  | w :: _ => min c.blocks ((w.2 - c.addr) / 4096)

/-- The hallmarks of the source as it stands. -/
def State.sourceMarks (s : State) (e : EngineId) (c : TillEnd) : List W32 :=
  (List.range c.blocks).map fun b => crc32c (s.sourceBlock e c b)

/-- The message that an earlier run of the step began to send for a micro-batch (R212). -/
def TillSt.outOf (t : TillSt) (step origin : StepNo) (mb : W16) : Option MsgOut :=
  t.outs.find? fun o => o.again && o.step == step && o.origin == origin && o.mb == mb

/-- The OUT end's peer module, as a touch record names it. -/
def State.endModule (s : State) (c : TillEnd) : Nat :=
  match c.path with
  | .onModule => s.ownModule.toNat
  | .envis => match s.peerEnt c.link with
    | some p => p.module.toNat
    | none => 0
  | .host => 0

/-- A message not yet sent: one credit, the next sequence number, its first n blocks. -/
def State.sendNew (s : State) (e : EngineId) (c : TillEnd) (f : FloatEntry) (n : Nat) (fails : List (Nat × Nat)) :
    State :=
  let x := s.till e c.till
  let o : MsgOut :=
    { seqNo := x.nextOut, origin := f.origin, mb := f.mb, step := s.curStep, hallmarks := s.sourceMarks e c, acked := false,
      again := false, cut := decide (n < c.blocks) }
  let s := s.modT e c.till fun x => { x with
    credits := x.credits - 1, nextOut := wrapAdd x.nextOut 1, outs := x.outs ++ [o], cMsgs := wrapAdd x.cMsgs 1
    headOrigin := f.origin, headMb := f.mb }
  (s.deed e 1 (e.val * 64 + c.till) (s.endModule c)).sendMsg e c o n fails

/-- Every message of the step has been acknowledged, or its peer has been declared lost (R210). -/
def State.allAcked (s : State) (e : EngineId) : Bool :=
  match s.planeCfg with
  | none => true
  | some p => (p.tills.filter fun c => c.engine == e.val && c.isOut).all fun c =>
      s.tillPeerLost c || (s.till e c.till).outs.all fun o => o.acked

/-- A local message whose IN end could not write its store: it asks for the blocks in the replay (R198). -/
def State.storeHeld (s : State) (c : TillEnd) (o : MsgOut) : Bool :=
  c.path == .onModule && match (s.till c.farEngine c.farTill.val).msg o.seqNo with
    | some m => !m.storeBad.isEmpty
    | none => false

/-- Every SEND issued is acknowledged, its peer declared lost, or its message waits for the replay itself (R388 step 4; log
entry 167). -/
def State.allAnswered (s : State) (e : EngineId) : Bool :=
  match s.planeCfg with
  | none => true
  | some p => (p.tills.filter fun c => c.engine == e.val && c.isOut).all fun c =>
      s.tillPeerLost c || (s.till e c.till).outs.all fun o => o.acked || o.cut || s.storeHeld c o

/-- Source regions that a SEND keeps pinned (R201): a message not acknowledged, or a SEND that waits for its credit. -/
def State.sourcePins (s : State) (e : EngineId) : List (Nat × Nat) :=
  match s.planeCfg with
  | none => []
  | some p =>
    let q := s.eng[e.val].seq
    let now := match s.table e with
      | some t => match t.rows[q.row]? with
        | some r => if q.running && r.op == 0x12 && q.wait == 2 then some r.argA.toNat else none
        | none => none
      | none => none
    (p.tills.filter fun c => c.engine == e.val && c.isOut &&
      (((s.till e c.till).outs.any fun o => !o.acked) || now == some c.till)).map fun c => (c.addr, c.msgBytes)

/-! ### Control messages at an OUT end (R198, R200, R316) -/

/-- CREDIT: a grant; an announced MSG_BYTES that differs puts the end into FAULT. -/
def execCredit (e : EngineId) (t : TillId) (by_ : CtrlFrom) (count : W16) (msgBytes : W32) (s : State) : Res :=
  .next <|
    match s.tillCfg e.val t.val with
    | none => s
    | some c =>
      if c.isOut = false ∨ (s.till e t.val).state ≠ 1 then s
      else s.heard c by_.path by_.plane fun s =>
        if msgBytes ≠ 0 ∧ msgBytes.toNat ≠ c.msgBytes then s.modT e t.val fun x => { x with state := 2 }
        else s.modT e t.val fun x => { x with credits := x.credits + count.toNat }

/-- MSG_CTRL ACK of a till message. -/
def State.tillAcked (s : State) (e : EngineId) (t : Nat) (seqNo : W32) (by_ : CtrlFrom) : State :=
  match s.tillCfg e.val t with
  | none => s
  | some c => s.heard c by_.path by_.plane fun s => s.outAcked e t seqNo

/-- MSG_CTRL RESEND of a till block: the whole block again, from the pinned source. -/
def State.tillResend (s : State) (e : EngineId) (t : Nat) (seqNo : W32) (block : Nat) (by_ : CtrlFrom) : State :=
  match s.tillCfg e.val t with
  | none => s
  | some c => s.heard c by_.path by_.plane fun s =>
      match (s.till e t).outs.find? fun o => o.seqNo == seqNo && !o.acked with
      | some o =>
        if c.isOut = true ∧ block < c.blocks then
          let s := s.modT e t fun x => { x with cResends := satAdd x.cResends 1 }
          if c.path = .host then s.sendHost e c o [] else s.sendTillBlock e c o block
        else s
      | none => s

/-! ### Boundary (R204) -/

/-- At the boundary of a step the messages whose micro-batch has left the float leave the store, those that arrived in the
step among them; what was sent in the step is forgotten, and R is kept for the next step's save. -/
def State.tillBoundary (s : State) (e : EngineId) (t : Nat) : State :=
  let x := s.till e t
  let gone := x.msgs.filter (·.exited)
  (s.modT e t fun x => { x with
    msgs := (x.msgs.filter fun m => !m.exited).map fun m => { m with savedR := m.inR }
    s := x.s - (gone.filter fun m => m.place.isSome && !m.gone).length
    outs := x.outs.filter fun o => !o.acked }).grant e t

end Sys2Proof.Machine
end

