-- ==== Sys2Proof/Machine/Clearing.lean ====
section
/-! DEFINITION. Gradient clearing: the tree, contributions and windows of a shard, stragglers, the way up and the
all-gather (11 R328 to R336; 13 R373, R385, R390; 14 R433, R439). -/

namespace Sys2Proof.Machine

/-! ### The tree (R328) -/

/-- The clearing unit of an engine's half. -/
def clrUnit (e : EngineId) : Fin 2 := if e.val < 64 then 0 else 1

structure ClrTree where
  n : Nat
  rank : Nat
  /-- the peer index of the parent, and rank and peer index of each child -/
  parent : Option Nat
  kids : List (Nat × Nat)

/-- The live list that is set at the start of a step: replicas of the live map in effect whose peer has not been declared lost
(R328, R438). -/
def State.liveReplicas (s : State) : List Nat :=
  match s.job.charter with
  | none => []
  | some c => (List.range c.replicaCount).filter fun i =>
      i == c.replicaIndex || (bitAt s.ckpt.liveMap i && (s.peer (c.peers.replicas.getD i 0xFFFF)).state != 4)

/-- The module of a replica's peer; the module itself for its own. -/
def State.replicaModule (s : State) (c : Charter) (i : Nat) : BitVec 12 :=
  if i = c.replicaIndex then s.ownModule
  else match s.peerEnt (c.peers.replicas.getD i 0xFFFF) with
    | some p => p.module
    | none => 0

/-- The tree of a shard over a live list. -/
def State.treeOver (s : State) (x : ShardEnt) (live : List Nat) : ClrTree :=
  match s.job.charter with
  | none => { n := 1, rank := 0, parent := none, kids := [] }
  | some c =>
    let n := live.length
    let own := s.ownerOf x
    let o := (live.findIdx? fun i => s.replicaModule c i == own).getD 0
    let me := (live.findIdx? fun i => i == c.replicaIndex).getD 0
    let rank := (me + n - o) % max 1 n
    let peerAt (q : Nat) : Nat := c.peers.replicas.getD (live.getD ((q + o) % max 1 n) 0) 0xFFFF
    let f := max 1 c.peers.fanin
    { n := n, rank := rank
      parent := if rank = 0 then none else some (peerAt ((rank - 1) / f))
      kids := ((List.range f).filterMap fun k =>
        let q := f * rank + 1 + k
        if q < n then some (q, peerAt q) else none) }

/-- The tree of the step in progress. -/
def State.clrTree (s : State) (x : ShardEnt) : ClrTree := s.treeOver x s.env.live

/-- The live list of a step: that of the step in progress and of the one before as they were set; that of a later one as it
would be set now (R328, R438). -/
def State.liveFor (s : State) (step : StepNo) : List Nat :=
  if step = s.curStep then s.env.live
  else if step.toNat < s.curStep.toNat then s.env.livePrev
  else
    match (s.ckpt.liveNext.filter fun l => decide (l.1.toNat < step.toNat)).getLast? with
    | some l => s.liveReplicas.filter fun i => bitAt l.2.2 i
    | none => s.liveReplicas

/-- The tree of a step (R439). -/
def State.treeFor (s : State) (x : ShardEnt) (step : StepNo) : ClrTree := s.treeOver x (s.liveFor step)

/-! ### Bands of a shard (R146, R329) -/

def State.homeRecs (s : State) : List HomeRec :=
  match s.shardsSec with
  | some x => x.homes
  | none => []

/-- The homes of a parameter: the one on the shard's engine, and those on engines none of whose shards holds the
parameter (R151; log entry 26). -/
def State.paramHomes (s : State) (x : ShardEnt) (p : ParamRec) : List HomeRec :=
  s.homeRecs.filter fun h => h.paramId == p.paramId && (h.engine == x.engine ||
    !(s.shardEnts.any fun y => y.engine == h.engine && (s.paramsOf y).any fun q => q.paramId == p.paramId))

def State.shardHomes (s : State) (x : ShardEnt) : List HomeRec := (s.paramsOf x).flatMap (s.paramHomes x)

/-! ### Fault windows (R385, R390, R405) -/

/-- The newest committed checkpoint at or before a step; all ones for none. -/
def State.ckptBefore (s : State) (p : StepNo) : StepNo :=
  let ok (c : Option Committed) : List StepNo := match c with
    | some c => if c.cut.toNat ≤ p.toNat then [c.cut] else []
    | none => []
  (ok s.ckpt.newest ++ ok s.ckpt.older).headD (BitVec.allOnes 48)

/-- A touch record (R405). -/
def touchRec (kind object peer : Nat) (first last : StepNo) : Rec4 :=
  { w0 := put kind 60 ||| put (object % 2 ^ 24) 36 ||| put (peer % 4096) 24, w1 := put first.toNat 16, w2 := put last.toNat 16
    w3 := 0 }

/-- Objects that a faulty engine can have affected in a range of steps, each with the first and last step in which it did
(R385; log entry 75). -/
def State.touches (s : State) (e : EngineId) (first last : StepNo) : List Rec4 :=
  let ds := ((s.eng[e.val]).int.deeds.filter fun d => decide (first.toNat ≤ d.step.toNat) && decide (d.step.toNat ≤ last.toNat)).reverse
  let keys := (ds.map fun d => (d.kind, d.object, d.peer)).eraseDups
  (keys.mergeSort fun a b => decide (a.1 ≤ b.1)).map fun k =>
    let mine := (ds.filter fun d => (d.kind, d.object, d.peer) == k).map (·.step)
    touchRec k.1 k.2.1 k.2.2 (mine.headD first) (mine.getLastD last)

/-- A fault-window record and its touch records leave as frames and are held, with those already held, until the job leaves
HELD (R385). -/
def State.faultWindow (s : State) (i : IslandIdx) (unit engine auditor : Nat) (sPass sDet : StepNo)
    (touches : List Rec4) : State :=
  let r : Rec4 :=
    { w0 := put Status.checkFail.code.toNat 56 ||| put unit 52 ||| put engine 45 ||| put auditor 38 |||
        put (touches.length % 2 ^ 14) 24
      w1 := put sDet.toNat 16, w2 := put sPass.toNat 16, w3 := put (s.ckptBefore sPass).toNat 16 }
  let s := s.post i clsWindow .checkFail noMb r
  let s := touches.foldl (fun s t => s.post i clsTouch .checkFail noMb t) s
  s.modInt fun x => { x with
    fwSpass := sPass, fwTouches := satAdd x.fwTouches touches.length, fwRecs := x.fwRecs ++ touches }

/-- A replayed SEND or contribution differs from the first run's: class AUDIT, with a fault window over the step alone
(R385, R390). -/
def State.replayDiffers (s : State) (i : IslandIdx) (e : EngineId) : State :=
  let step := s.curStep
  let s := s.raise (mkEvent .audit e .checkFail (rec0 (put Status.checkFail.code.toNat 56 ||| put e.val 33)) noMb)
  s.faultWindow i 0 e.val 0 (step - 1) step (s.touches e step step)

/-- Every band of a shard, in parameter record order and band order. -/
def State.shardBands (s : State) (x : ShardEnt) : List (HomeRec × Nat) :=
  (s.shardHomes x).flatMap fun h => (List.range h.bands).map fun b => (h, b)

/-- The index of a band in the touched map of its engine: homes in section order. -/
def State.bandIndex (s : State) (h : HomeRec) (b : Nat) : Nat :=
  ((s.homeRecs.filter fun y => y.engine == h.engine).takeWhile fun y => y.paramId != h.paramId).foldl
    (fun n y => n + y.bands) b

def bandFind : List HomeRec → Nat → Option (HomeRec × Nat)
  | [], _ => none
  | h :: r, b => if b < h.bands then some (h, b) else bandFind r (b - h.bands)

/-- The band at an index of an engine's touched map. -/
def State.bandAt (s : State) (e : EngineId) (b : Nat) : Option (HomeRec × Nat) :=
  bandFind (s.homeRecs.filter fun y => y.engine == e.val) b

def HomeRec.eng (h : HomeRec) : EngineId := Fin.ofNat 128 h.engine

/-- A band's key in a contribution. -/
def bandKey (h : HomeRec) (b : Nat) : EngineId × Nat × Nat := (h.eng, h.paramId, b)

/-- The 4,096 bytes of a band as it stands; zeros where its touched bit is clear. -/
def State.bandBytes (s : State) (h : HomeRec) (b : Nat) : List Byte :=
  if s.isTouched h.eng h.paramId b = false then List.replicate 4096 0
  else if b < h.accBands then memRead s.eng[h.eng.val].acc (accAddr (h.accRow + b * 16) 0) 4096
  else
    let (ctl, page) := h.place h.eng b
    (s.readPage ctl page).1

/-- A band written over its home (R334): its bit is set. -/
def State.putBand (s : State) (h : HomeRec) (b : Nat) (data : List Byte) : State :=
  let s := if b < h.accBands
    then s.modEng h.eng fun x => { x with acc := memWrite x.acc (accAddr (h.accRow + b * 16) 0) data }
    else
      let (ctl, page) := h.place h.eng b
      s.writePage ctl page data (mkSide (crc32c data) 3 false s.curStep noMb h.paramId b 0)
  s.modArr h.eng fun x => { x with
    touched := if x.touched.contains (h.paramId, b) then x.touched else (h.paramId, b) :: x.touched }

/-! ### Records and buffers (R330, R335) -/

def ClrSt.record (c : ClrSt) (step : StepNo) (h : BitVec 24) : Option ClrShard :=
  c.shards.find? fun r => r.step == step && r.shard == h

def ClrShard.fresh (step : StepNo) (x : ShardEnt) : ClrShard where
  step := step
  group := x.group
  shard := x.shard
  handed := false
  opened := false
  closed := false
  arrivals := []
  accepted := []
  lostKids := []
  carriesAdded := []
  added := false
  phase := 0
  sentHash := []
  acked := 0
  gather := []
  down := false
  forwarded := false
  complete := false

/-- The record of a shard in a step changed; it comes into being with the first thing that concerns it. -/
def State.modRec (s : State) (u : Fin 2) (step : StepNo) (x : ShardEnt) (f : ClrShard → ClrShard) : State :=
  s.modClr u fun c =>
    match c.record step x.shard with
    | some _ => { c with shards := c.shards.map fun r => if r.step == step && r.shard == x.shard then f r else r }
    | none => { c with shards := c.shards ++ [f (ClrShard.fresh step x)] }

/-- The record of a shard in a step, or one with nothing in it. -/
def State.clrRec (s : State) (u : Fin 2) (step : StepNo) (x : ShardEnt) : ClrShard :=
  ((s.env.clr[u.val]).record step x.shard).getD (ClrShard.fresh step x)

/-- Buffer pages that a contribution holds: those of its bands that are not ZERO. -/
def Contribution.pages (c : Contribution) : List Nat := c.bands.filterMap (·.2)

def Contribution.isOf (c : Contribution) (peer : Nat) (step : StepNo) (h : BitVec 24) : Bool :=
  c.peer == peer && c.step == step && c.shard == h

/-- Pages of the buffer in use: contributions, carries, and carries that a record of the step holds (R335). -/
def ClrSt.used (c : ClrSt) : List Nat :=
  (c.contribs ++ c.carries ++ c.shards.flatMap (·.carriesAdded)).flatMap Contribution.pages

/-- The lowest free page of the buffer. -/
def ClrSt.freePage (c : ClrSt) : Option Nat := (List.range (c.used.length + 1)).find? fun k => decide (k < c.pages) && !(c.used.contains k)

/-- The place of a page of a unit's buffer (R317, R330). -/
def State.bufPage (s : State) (u : Fin 2) (k : Nat) : CtlId × Nat :=
  match s.peersSec with
  | some p =>
    let (c, q) := pageOf 0 (if u.val = 0 then p.buf0 else p.buf1)
    (c, q + k)
  | none => (.far 0, k)

/-- A contribution leaves the buffer. -/
def ClrSt.dropContrib (c : ClrSt) (x : Contribution) : ClrSt :=
  { c with contribs := c.contribs.filter fun y => !(y.isOf x.peer x.step x.shard) }

/-- STALE_DROPPED raised: counted, with a record of the shard's form (R332, R439; log entry 27). -/
def State.staleDropped (s : State) (u : Fin 2) (h : BitVec 24) (e : EngineId) (step : StepNo) : State :=
  let s := s.modClr u fun c => { c with dropped := satAdd c.dropped 1 }
  s.post (islClr u) clsEvent .staleDropped noMb
    { w0 := put Status.staleDropped.code.toNat 56 ||| put h.toNat 32 ||| put e.val 25, w1 := put step.toNat 16, w2 := 0, w3 := 0 }

/-! ### Adding (R330, R332) -/

/-- A band's words times a power of two (R237). -/
def scaleWords (d : Denom) (k : Int) (ws : List W32) : List W32 :=
  if k = 0 then ws else ws.map fun w => toF32 (d.done true (numScale (f32 w) k, false)).val

/-- How a clearing unit reads memory. -/
def State.byClr (s : State) (u : Fin 2) : ReadBy :=
  { source := 0, step := s.curStep, mb := noMb, unit := islandId (islClr u), chan := 0xFF }

/-- One contribution read from the buffer and added band by band to the homes; a ZERO band is not added. False where a page of
it does not read: the bands before it have been added. -/
def State.addBands (s : State) (u : Fin 2) (x : ShardEnt) (k : Int) (c : Contribution) : Bool × State :=
  (s.shardBands x).foldl (fun (a : Bool × State) (hb : HomeRec × Nat) =>
    if a.1 then
      match c.bands.find? fun b => b.1 == bandKey hb.1 hb.2 with
      | some (_, some p) =>
        match a.2.pageIn (a.2.bufPage u p).1 (a.2.bufPage u p).2 (a.2.byClr u) with
        | (.ok d, s) =>
          (true, s.homeBand hb.1.eng hb.1 hb.2 (scaleWords s.fp32 k (words d.1 1024)) none noMb (rec0 (put hb.1.engine 33)))
        | (.error _, s) => (false, s)
      | _ => a
    else a) (true, s)

/-- The kept contribution of a child rank. -/
def ClrSt.contribOf (c : ClrSt) (step : StepNo) (h : BitVec 24) (rank : Nat) : Option Contribution :=
  c.contribs.find? fun y => y.step == step && y.shard == h && y.rank == rank && y.complete

/-- The window of a step and shard still takes arrivals. -/
def ClrSt.openFor (c : ClrSt) (step : StepNo) (h : BitVec 24) : Bool :=
  match c.record step h with
  | some r => !r.closed
  | none => true

/-- A contribution dropped and counted (R332); what still comes of it is not counted again. -/
def State.dropStale (s : State) (u : Fin 2) (peer : Nat) (step : StepNo) (x : ShardEnt) : State :=
  if (s.env.clr[u.val]).gone.contains (peer, step, x.shard) then s
  else
    let s := s.modClr u fun y => { y with
      contribs := y.contribs.filter fun z => !(z.isOf peer step x.shard)
      carries := y.carries.filter fun z => !(z.isOf peer step x.shard)
      gone := (peer, step, x.shard) :: y.gone }
    s.staleDropped u x.shard (Fin.ofNat 128 x.engine) step

/-- STRAGGLER 1. -/
def State.dropsLate (s : State) : Bool :=
  match s.peersSec with
  | some p => p.dropStragglers
  | none => true

/-- A straggler of a step may still become a carry: it is of this step, or of the step before, that step was not skipped, and
the shard's window of this step is open. -/
def State.mayCarry (s : State) (u : Fin 2) (step : StepNo) (x : ShardEnt) : Bool :=
  !s.dropsLate && (step == s.curStep ||
    (wrapAdd step 1 == s.curStep && (s.env.clr[u.val]).openFor s.curStep x.shard && s.upd.due == step))

/-- A straggler (R332): dropped, or kept as a carry. -/
def State.straggler (s : State) (u : Fin 2) (x : ShardEnt) (c : Contribution) : State :=
  if s.mayCarry u c.step x then
    s.modClr u fun y => { y with
      contribs := y.contribs.filter fun z => !(z.isOf c.peer c.step c.shard)
      carries := y.carries ++ [c], carried := satAdd y.carried 1 }
  else s.dropStale u c.peer c.step x

/-- A child excluded from a shard's window (R331, R373): counted in LOST. -/
def State.excludeKid (s : State) (u : Fin 2) (x : ShardEnt) (step : StepNo) (rank peer : Nat) : State :=
  let s := s.modClr u fun y => { y with contribs := y.contribs.filter fun z => !(z.isOf peer step x.shard) }
  let s := s.modRec u step x fun r => { r with accepted := r.accepted.erase rank, lostKids := peer :: r.lostKids }
  s.modClr u fun y => { y with lost := satAdd y.lost 1 }

/-- An accepted contribution added. One that the buffer does not give whole is excluded, and the step is marked, so that its
replay adds the others alone (R280, R373; log entry 176). -/
def State.addContribution (s : State) (u : Fin 2) (x : ShardEnt) (c : Contribution) : State :=
  match s.addBands u x 0 c with
  | (true, s) => s
  | (false, s) => (s.excludeKid u x c.step c.rank c.peer).mark (islClr u) .uncorrectable

/-- A child's contribution has arrived: recorded; accepted, and added once the node has handed over; or a straggler. -/
def State.arrival (s : State) (u : Fin 2) (x : ShardEnt) (c : Contribution) : State :=
  if c.step.toNat < s.curStep.toNat then s.straggler u x c
  else
    let closed := !((s.env.clr[u.val]).openFor c.step x.shard)
    let s := s.modRec u c.step x fun r => { r with
      arrivals := r.arrivals ++ [c.rank], accepted := if closed then r.accepted else r.accepted ++ [c.rank] }
    if closed then s.straggler u x c
    else
      let s := s.modClr u fun y => { y with accepted := wrapAdd y.accepted 1 }
      if (s.clrRec u c.step x).handed && c.step == s.curStep then s.addContribution u x c else s

/-! ### CLEAR_DATA -/

/-- The unit asks for a band again, or acknowledges it (R333, R373; log entry 28). -/
def State.clrAck (s : State) (peer : Nat) (resend : Bool) (x : ShardEnt) (band : Nat) : State :=
  s.sendMsgCtrl peer resend false (BitVec.ofNat 32 x.shard.toNat) band

/-- A child's band that failed: resent twice, then the child is excluded, and its band is acknowledged as one that is not needed
any more (log entry 177). -/
def State.clrFail (s : State) (u : Fin 2) (x : ShardEnt) (rank : Nat) (b : ClearBlk) : State :=
  let key := (b.peer, x.shard, b.band)
  let n := lookupD (s.env.clr[u.val]).fails key 0 + 1
  if n ≤ 2 then
    (s.modClr u fun y => { y with fails := assocSet y.fails key n }).clrAck b.peer true x b.band
  else
    let s := s.modClr u fun y => { y with fails := assocDel y.fails key }
    (s.excludeKid u x b.step rank b.peer).clrAck b.peer false x b.band

/-- A band recorded at its page. -/
def ClrSt.storeBand (c : ClrSt) (b : ClearBlk) (rank : Nat) (key : EngineId × Nat × Nat) (page : Option Nat) : ClrSt :=
  let x := (c.contribs.find? fun y => y.isOf b.peer b.step b.shard).getD
    { peer := b.peer, rank := rank, step := b.step, shard := b.shard, bands := [], complete := false }
  { c with
    contribs := (c.contribs.filter fun y => !(y.isOf b.peer b.step b.shard)) ++ [{ x with bands := x.bands ++ [(key, page)] }] }

/-- The buffer holds a band already. -/
def ClrSt.holds (c : ClrSt) (b : ClearBlk) (key : EngineId × Nat × Nat) : Bool :=
  match c.contribs.find? fun y => y.isOf b.peer b.step b.shard with
  | some x => x.bands.any fun y => y.1 == key
  | none => false

/-- A band into the buffer, in the lowest free page; false where the buffer cannot take it (R16, R330). -/
def State.bandIn (s : State) (u : Fin 2) (b : ClearBlk) (rank : Nat) (key : EngineId × Nat × Nat) (data : Option (List Byte)) :
    Bool × State :=
  if (s.env.clr[u.val]).holds b key then (true, s)
  else
    match data, (s.env.clr[u.val]).freePage with
    | none, _ => (true, s.modClr u fun c => c.storeBand b rank key none)
    | some _, none => (false, s)
    | some d, some p =>
      if s.ctlOk (s.bufPage u p).1 = false then (false, s)
      else (true, (s.writePage (s.bufPage u p).1 (s.bufPage u p).2 d b.side).modClr u fun c => c.storeBand b rank key (some p))

/-- All-gather blocks of a shard as they came, written over the homes (R334). -/
def State.writeDown (s : State) (u : Fin 2) (x : ShardEnt) : State :=
  (s.shardBands x).foldl (fun s (hb : HomeRec × Nat) =>
    match (s.clrRec u s.curStep x).gather.find? fun b => b.1 == bandKey hb.1 hb.2 with
    | some (_, d) => s.putBand hb.1 hb.2 (d.getD (List.replicate 4096 0))
    | none => s) s

/-- One band sent to a peer. -/
def State.sendBand (s : State) (peer : Nat) (down : Bool) (x : ShardEnt) (step : StepNo) (h : HomeRec) (b : Nat)
    (zero : Bool) (data : List Byte) : State :=
  let idx := s.bandIndex h b
  let side := mkSide (crc32c data) 3 (s.job.plane == 1) step noMb x.shard.toNat idx 0
  s.sendBlock peer 6 6 ((if down then 2 ^ 96 else 0) ||| step.toNat <<< 48 ||| x.group <<< 32 ||| h.engine <<< 25 |||
    idx % 2 ^ 17 <<< 8) zero data side .ok

/-- The bands of a shard read where they stand in a vault; one that does not read marks the step (R280, R371). -/
def State.bandsOut (s : State) (u : Fin 2) (x : ShardEnt) : Bool × State :=
  let ps := (s.shardBands x).filterMap fun (hb : HomeRec × Nat) =>
    if hb.2 < hb.1.accBands ∨ s.isTouched hb.1.eng hb.1.paramId hb.2 = false then none else some (hb.1.place hb.1.eng hb.2)
  let r := s.pagesIn ps (s.byClr u)
  if r.1 then r else (false, r.2.mark (islClr u) .uncorrectable)

/-- Every band of a shard sent to a peer as the homes stand: a band not touched goes as a ZERO block. -/
def State.sendBands (s : State) (peer : Nat) (down : Bool) (x : ShardEnt) : State :=
  (s.shardBands x).foldl (fun s (hb : HomeRec × Nat) =>
    s.sendBand peer down x s.curStep hb.1 hb.2 (!(s.isTouched hb.1.eng hb.1.paramId hb.2)) (s.bandBytes hb.1 hb.2)) s

/-- The sum goes down to the children that are not lost, once all of those are admitted (R322, R334), and once in a step
(R335). -/
def State.gatherDown (s : State) (u : Fin 2) (x : ShardEnt) : State :=
  let kids := (s.clrTree x).kids.filter fun q => (s.peer q.2).state != 4
  if (s.clrRec u s.curStep x).forwarded || !(kids.all fun q => s.admitted q.2) then s
  else
    match s.bandsOut u x with
    | (false, s) => s
    | (true, s) =>
      (kids.foldl (fun s q => s.sendBands q.2 true x) s).modRec u s.curStep x fun r => { r with forwarded := true }

/-- The child of a shard was declared lost, or excluded, before its contribution arrived. -/
def State.kidLost (s : State) (u : Fin 2) (step : StepNo) (h : BitVec 24) (peer : Nat) : Bool :=
  match (s.env.clr[u.val]).record step h with
  | some r => r.lostKids.contains peer
  | none => false

/-- A band of a child: into the buffer and acknowledged; with the last one its contribution has arrived. -/
def State.bandUp (s : State) (u : Fin 2) (x : ShardEnt) (b : ClearBlk) (rank : Nat) (key : EngineId × Nat × Nat)
    (data : Option (List Byte)) : State :=
  match s.bandIn u b rank key data with
  | (false, s) => s.clrFail u x rank b
  | (true, s) =>
    let s := s.clrAck b.peer false x b.band
    match (s.env.clr[u.val]).contribs.find? fun y => y.isOf b.peer b.step b.shard with
    | none => s
    | some c =>
      if c.complete || decide (c.bands.length < (s.shardBands x).length) then s
      else
        let c := { c with complete := true }
        let s := s.modClr u fun y => { y with
          contribs := y.contribs.map fun z => if z.isOf b.peer b.step b.shard then c else z }
        s.arrival u x c

/-- A band of the all-gather, from the parent in the step in progress: with the last one all are written over the homes, which
hold the subtree's sum by then, and go on to the children (R334; log entry 178). -/
def State.bandDown (s : State) (u : Fin 2) (x : ShardEnt) (b : ClearBlk) (key : EngineId × Nat × Nat)
    (data : Option (List Byte)) : State :=
  let s := s.clrAck b.peer false x b.band
  if b.step ≠ s.curStep ∨ (s.clrRec u b.step x).gather.any (fun y => y.1 == key) = true then s
  else
    let s := s.modRec u b.step x fun r => { r with gather := r.gather ++ [(key, data)] }
    if (s.clrRec u b.step x).gather.length < (s.shardBands x).length then s
    else ((s.writeDown u x).modRec u b.step x fun r => { r with down := true }).gatherDown u x

/-- The low header bits of a clearing block's frames (R310). -/
def clearLow (b : ClearBlk) : Nat :=
  (if b.down then 2 ^ 96 else 0) ||| b.step.toNat <<< 48 ||| b.group.toNat <<< 32 ||| b.engine.val <<< 25 ||| b.band % 2 ^ 17 <<< 8

/-- A band held against its hallmark (R372): nothing where it, or its tag, fails; a ZERO band has no bytes. -/
def bandData (b : ClearBlk) (pt : Option (List Byte)) : Option (Option (List Byte)) :=
  match pt with
  | some data => if b.zero then some none else if hallmarkOk b.side data then some (some data) else none
  | none => none

/-- A contribution that is dropped as its bands come: of a child already excluded or dropped, or of an earlier step that no carry
takes any more (R332). The child, which waits for its acknowledgements, gets them (log entry 177). -/
def State.bandStale (s : State) (u : Fin 2) (x : ShardEnt) (b : ClearBlk) : Bool :=
  s.kidLost u b.step x.shard b.peer || (s.env.clr[u.val]).gone.contains (b.peer, b.step, b.shard) ||
  (decide (b.step.toNat < s.curStep.toNat) && !s.mayCarry u b.step x &&
    !((s.env.clr[u.val]).contribs.any fun y => y.isOf b.peer b.step b.shard))

/-- CLEAR_DATA: a band from a child on its way up, or from the parent in the all-gather, as the tree of its step has them
(R439; log entry 108). -/
def clearData (b : ClearBlk) (s : State) : State :=
  match s.shardEnt b.shard, s.bandAt b.engine b.band with
  | some x, some (h, k) =>
    let u := clrUnit (Fin.ofNat 128 x.engine)
    if s.admitted b.peer = false then s.dropUnadmitted b.peer
    else
      let t := s.treeFor x b.step
      let (pt, s) := s.openBlock b.peer 6 6 (clearLow b) b.zero b.epoch b.data b.side b.gcmTag
      let rank := if b.down then (if t.parent = some b.peer then some 0 else none)
        else (t.kids.find? fun q => q.2 == b.peer).map (·.1)
      match rank with
      | none => s.dropStale u b.peer b.step x
      | some rank =>
        if !b.down && s.bandStale u x b then
          let s := if s.kidLost u b.step x.shard b.peer then s else s.dropStale u b.peer b.step x
          s.clrAck b.peer false x b.band
        else
          match bandData b pt with
          | none =>
            let r : Rec4 := { w0 := b.side.w0, w1 := b.side.w1, w2 := b.side.w2, w3 := b.side.w3 }
            let s := (s.post (islClr u) clsHallmark .hallmarkFail noMb r).setErr errHallmark
            if b.down then s.clrAck b.peer true x b.band else s.clrFail u x rank b
          | some data =>
            if b.down then s.bandDown u x b (bandKey h k) data else s.bandUp u x b rank (bandKey h k) data
  | _, _ => s

def execClearData (b : ClearBlk) (s : State) : Res := .next (clearData b s.settle)

/-! ### Handoff, close and completion (R331 to R335) -/

/-- What a non-owner has to send once its homes hold its subtree's gradients: sent, or on a replay compared with what was
sent. -/
def State.sendUp (s : State) (u : Fin 2) (x : ShardEnt) (parent : Nat) : State :=
  let hash := (s.shardBands x).map fun hb => crc32c (s.bandBytes hb.1 hb.2)
  let r := s.clrRec u s.curStep x
  if r.sentHash = [] then
    let s := (s.sendBands parent false x).modRec u s.curStep x fun r => { r with sentHash := hash }
    s.modClr u fun y => { y with sent := wrapAdd y.sent 1 }
  else if r.sentHash = hash then s
  else s.replayDiffers (islClr u) (Fin.ofNat 128 x.engine)

/-- Homes of the same parameter on other engines of the module are added to the home on the shard's engine at the owner
(R151; log entry 26). -/
def State.foldHomes (s : State) (u : Fin 2) (x : ShardEnt) : State :=
  match s.bandsOut u x with
  | (false, s) => s
  | (true, s) =>
    (s.paramsOf x).foldl (fun s p =>
      match s.homeRec x.engine p.paramId with
      | none => s
      | some h => ((s.paramHomes x p).filter fun y => y.engine != x.engine && y.bands == h.bands).foldl (fun s y =>
          (List.range y.bands).foldl (fun s b =>
            if s.isTouched y.eng y.paramId b then
              s.homeBand h.eng h b (words (s.bandBytes y b) 1024) none noMb (rec0 (put h.engine 33))
            else s) s) s) s

/-- Every addition to the shard's homes has been answered. -/
def State.addsDone (s : State) (x : ShardEnt) : Bool :=
  (s.shardHomes x).all fun h => s.eng[h.eng.val].arr.homeFlight.isEmpty

/-- What follows the close of a window, once every accepted addition has been made: the node's subtree is summed, and a
non-owner sends it up to its parent, for whose admission it waits (R322). Additions on their way to a vault are waited for.
A replay finds the all-gather of its step at hand (R335). -/
def State.afterClose (s : State) (u : Fin 2) (x : ShardEnt) : State :=
  let s := s.modRec u s.curStep x fun r => { r with phase := 2 }
  if s.addsDone x = false then s
  else
    match (s.clrTree x).parent with
    | some p =>
      if s.admitted p = false ∧ (s.peer p).state ≠ 4 then s
      else
        match s.bandsOut u x with
        | (false, s) => s
        | (true, s) =>
          let s := (s.modRec u s.curStep x fun r => { r with added := true, phase := 3 }).sendUp u x p
          if (s.clrRec u s.curStep x).down then s.writeDown u x else s
    | none => (s.modRec u s.curStep x fun r => { r with added := true }).foldHomes u x

/-- The exponent that brings a carry of the step before to the current step's loss scale. -/
def State.carryExp (s : State) : Int := s.alignExp (s.curStep - 1)

/-- A carry may still be added: its step was not skipped and its sender is not lost. -/
def State.carryGood (s : State) (c : Contribution) : Bool :=
  wrapAdd c.step 1 == s.curStep && s.upd.due == c.step && (s.peer c.peer).state != 4

/-- A carry added at a close; one that the buffer does not give whole is dropped, and the step is marked (log entry 176). -/
def State.addCarry (s : State) (u : Fin 2) (x : ShardEnt) (c : Contribution) : State :=
  match s.addBands u x s.carryExp c with
  | (true, s) => s.modRec u s.curStep x fun r => { r with carriesAdded := r.carriesAdded ++ [c] }
  | (false, s) => (s.dropStale u c.peer c.step x).mark (islClr u) .uncorrectable

/-- The close of a window: carries of the step before are added after the accepted contributions; others go, and so do
stragglers that have not arrived. -/
def State.closeWindow (s : State) (u : Fin 2) (x : ShardEnt) : State :=
  let c := s.env.clr[u.val]
  let mine := c.carries.filter fun c => c.shard == x.shard && c.step != s.curStep
  let good := mine.filter s.carryGood
  let bad := mine.filter (fun c => !(s.carryGood c)) ++
    c.contribs.filter fun c => c.shard == x.shard && decide (c.step.toNat < s.curStep.toNat)
  let s := s.modClr u fun y => { y with carries := y.carries.filter fun c => !(good.contains c) }
  let s := good.foldl (fun s c => s.addCarry u x c) s
  let s := bad.foldl (fun s c => s.dropStale u c.peer c.step x) s
  (s.modRec u s.curStep x fun r => { r with closed := true }).afterClose u x

/-- A carry that the record of the step holds, added again (R335). -/
def State.addCarryAgain (s : State) (u : Fin 2) (x : ShardEnt) (c : Contribution) : State :=
  match s.addBands u x s.carryExp c with
  | (true, s) => s
  | (false, s) =>
    (s.modRec u s.curStep x fun r => { r with carriesAdded := r.carriesAdded.erase c }).mark (islClr u) .uncorrectable

/-- The handoff of one shard: its window opens, and what has arrived is added; on a replay what the record accepted, its
carries, and where the window had closed nothing else. -/
def State.handShard (s : State) (x : ShardEnt) : State :=
  let u := clrUnit (Fin.ofNat 128 x.engine)
  let s := (s.shardHomes x).foldl (fun s h => s.deed h.eng 2 x.shard.toNat 0) s
  let s := s.modRec u s.curStep x fun r => { r with handed := true, opened := true, phase := 1 }
  let r := s.clrRec u s.curStep x
  let s := r.accepted.foldl (fun s q => match (s.env.clr[u.val]).contribOf s.curStep x.shard q with
    | some c => s.addContribution u x c
    | none => s) s
  if r.closed then (r.carriesAdded.foldl (fun s c => s.addCarryAgain u x c) s).afterClose u x else s

/-- The parent acknowledges a band of a shard (R333). -/
def State.bandAcked (s : State) (peer : Nat) (h : BitVec 24) : State :=
  match s.shardEnt h with
  | none => s
  | some x =>
    if s.admitted peer = false then s.dropUnadmitted peer
    else if (s.clrTree x).parent = some peer then
      s.modRec (clrUnit (Fin.ofNat 128 x.engine)) s.curStep x fun r => { r with acked := r.acked + 1 }
    else s

/-- A band is sent again to the peer that asks for it (R373). -/
def State.bandResend (s : State) (peer : Nat) (h : BitVec 24) (band : Nat) : State :=
  match s.shardEnt h with
  | none => s
  | some x =>
    if s.admitted peer = false then s.dropUnadmitted peer
    else match (s.shardBands x).find? fun hb => s.bandIndex hb.1 hb.2 % 2 ^ 16 == band with
      | some hb =>
        match s.bandsOut (clrUnit (Fin.ofNat 128 x.engine)) x with
        | (false, s) => s
        | (true, s) =>
          s.sendBand peer ((s.clrTree x).parent != some peer) x s.curStep hb.1 hb.2
            (!(s.isTouched hb.1.eng hb.1.paramId hb.2)) (s.bandBytes hb.1 hb.2)
      | none => s

/-- The shards of a group that an engine clears, in increasing identifier. -/
def State.clearShards (s : State) (e : EngineId) (group : Nat) : List ShardEnt :=
  ((s.shardsOf e).filter fun x => x.group == group && !x.frozen).mergeSort fun a b => decide (a.shard.toNat ≤ b.shard.toNat)

/-- The CLEAR handoff of a group. -/
def State.clearHandoff (s : State) (e : EngineId) (group : Nat) : State :=
  (s.clearShards e group).foldl State.handShard s

/-- The condition under which a window closes. -/
def State.closes (s : State) (r : ClrShard) (why : WindowClose) : Bool :=
  match s.shardEnt r.shard, s.peersSec with
  | some x, some p =>
    let missing := ((s.clrTree x).kids).filter fun q => !(r.arrivals.contains q.1)
    if !r.opened || !r.handed || r.closed || r.step != s.curStep then false
    else
      match why with
      | .allArrived => missing.isEmpty
      | .windowExpired => p.windowLc != 0 && decide (p.minArrivals ≤ r.arrivals.length)
      | .restLost => !missing.isEmpty && missing.all fun q => r.lostKids.contains q.2
  | _, _ => false

/-- CLEAR_WINDOW_CLOSE: the first open window of the unit that meets the condition closes. -/
def clearWindowClose (u : Fin 2) (why : WindowClose) (s : State) : State :=
  match (s.env.clr[u.val]).shards.find? fun r => s.closes r why with
  | none => s
  | some r => match s.shardEnt r.shard with
    | some x => s.closeWindow u x
    | none => s

def execClearWindowClose (u : Fin 2) (why : WindowClose) (s : State) : Res := .next (clearWindowClose u why s.settle)

/-- A node's clearing of a shard completes: its status stands in the unit's register. -/
def State.clrDone (s : State) (u : Fin 2) (x : ShardEnt) (st : Status) : State :=
  (s.modRec u s.curStep x fun r => { r with complete := true, phase := 0 }).modClr u fun y => { y with lastStatus := st.code }

/-- CLEAR_MODE 1. -/
def State.gathers (s : State) : Bool :=
  match s.peersSec with
  | some p => p.clearAll
  | none => false

/-- CLEARING_COMPLETE: a window closed whose additions have been answered is summed and sent up; acknowledged block by block by
the parent, or at the owner with every addition answered, the clearing completes. Under CLEAR_MODE 1 the owner
sends the sum down, and a non-owner completes once the all-gather is written and sent on. -/
def clearingComplete (u : Fin 2) (shard : BitVec 24) (s : State) : State :=
  match s.shardEnt shard, (s.env.clr[u.val]).record s.curStep shard with
  | some x, some r =>
    if !r.handed || !r.closed || r.complete || clrUnit (Fin.ofNat 128 x.engine) != u then s
    else if !r.added then s.afterClose u x
    else
      match (s.clrTree x).parent with
      | some p =>
        if (s.peer p).state = 4 then s.clrDone u x .peerLost
        else if r.acked < (s.shardBands x).length then s
        else if s.gathers then
          if !r.down then s.modRec u s.curStep x fun r => { r with phase := 4 }
          else
            let s := s.gatherDown u x
            if (s.clrRec u s.curStep x).forwarded then s.clrDone u x .ok else s
        else s.clrDone u x .ok
      | none =>
        if s.addsDone x = false then s
        else if s.gathers then
          let s := (s.modRec u s.curStep x fun r => { r with phase := 4 }).gatherDown u x
          if (s.clrRec u s.curStep x).forwarded then s.clrDone u x .ok else s
        else s.clrDone u x .ok
  | _, _ => s

def execClearingComplete (u : Fin 2) (shard : BitVec 24) (s : State) : Res := .next (clearingComplete u shard s)

/-- The clearing of a shard has delivered its gradient in this run of the step. -/
def State.cleared (s : State) (x : ShardEnt) : Bool :=
  match (s.env.clr[(clrUnit (Fin.ofNat 128 x.engine)).val]).record s.curStep x.shard with
  | some r => r.handed && r.complete
  | none => false

/-! ### Restart, loss and boundary -/

/-- A replay keeps the step's buffer and records; the handoff comes again, and an owner waits for its additions again. -/
def ClrShard.again (r : ClrShard) : ClrShard :=
  { r with handed := false, added := false, phase := 0, complete := r.complete && !(r.sentHash == []) }

def ClrSt.again (c : ClrSt) (step : StepNo) : ClrSt :=
  { c with shards := c.shards.map fun r => if r.step == step then r.again else r }

/-- A peer is declared lost: children that have not arrived are excluded from the windows of the step. -/
def State.clrPeerLost (s : State) (peer : Nat) : State :=
  (s.shardEnts.filter fun x => !x.frozen).foldl (fun s x =>
    match (s.clrTree x).kids.find? fun q => q.2 == peer with
    | none => s
    | some q =>
      let u := clrUnit (Fin.ofNat 128 x.engine)
      let r := ((s.env.clr[u.val]).record s.curStep x.shard).getD (ClrShard.fresh s.curStep x)
      if r.arrivals.contains q.1 || r.lostKids.contains q.2 then s else s.excludeKid u x s.curStep q.1 peer) s

/-- What of a unit's buffer is dropped at a boundary, with its count: contributions and carries of earlier steps, carries of a
skipped step, and what has not arrived of the step, unless it may yet become a carry (R332). -/
def ClrSt.stale (c : ClrSt) (step : StepNo) (skipped keep : Bool) : List Contribution :=
  (c.contribs.filter fun x => decide (x.step.toNat < step.toNat) || (x.step == step && !x.complete && (skipped || !keep))) ++
    c.carries.filter fun x => decide (x.step.toNat < step.toNat) || (skipped && x.step == step)

/-- The records and the buffer of a step are released at its boundary, except for carries; under carry a contribution
still on its way may yet become one. -/
def State.clrBoundary (s : State) (step : StepNo) (skipped : Bool) : State :=
  let one (s : State) (u : Fin 2) : State :=
    let s := ((s.env.clr[u.val]).stale step skipped (!s.dropsLate)).foldl (fun s c => match s.shardEnt c.shard with
      | some x => s.dropStale u c.peer c.step x
      | none => s) s
    s.modClr u fun y => { y with
      shards := y.shards.filter fun r => decide (step.toNat < r.step.toNat)
      contribs := y.contribs.filter fun x => decide (step.toNat < x.step.toNat) || !x.complete
      gone := y.gone.filter fun g => decide (step.toNat ≤ g.2.1.toNat), fails := [] }
  one (one s 0) 1

/-- The tree of the step that starts: a contribution that came early stands under its sender's rank in it, and one of a node
that is no child in it is dropped (R439). -/
def State.clrStart (s : State) : State :=
  let kid (s : State) (c : Contribution) : Option (Nat × Nat) :=
    (s.shardEnt c.shard).bind fun x => (s.clrTree x).kids.find? fun q => q.2 == c.peer
  let one (s : State) (u : Fin 2) : State :=
    let s := ((s.env.clr[u.val]).contribs.filter fun c => c.step == s.curStep && (kid s c).isNone).foldl (fun s c =>
      match s.shardEnt c.shard with
      | some x => s.dropStale u c.peer c.step x
      | none => s) s
    let rank (c : Contribution) : Contribution := match kid s c with
      | some q => if c.step = s.curStep then { c with rank := q.1 } else c
      | none => c
    s.modClr u fun y =>
      let cs := y.contribs.map rank
      let come (h : BitVec 24) : List Nat := (cs.filter fun c => c.step == s.curStep && c.shard == h && c.complete).map (·.rank)
      { y with
        contribs := cs
        shards := y.shards.map fun r => if r.step = s.curStep then { r with arrivals := come r.shard, accepted := come r.shard } else r }
  one (one s 0) 1

end Sys2Proof.Machine
end

