-- ==== Sys2Proof/Machine/Sched.lean ====
section
/-! DEFINITION. The sequencer and its rows: counters, waits, tills, passes over layers, tiles taken, clearing, update and
step end (02 R40 to R43; 06 R170 to R172; 07 R201 to R214, R218; 08 R235, R254, R255). -/

namespace Sys2Proof.Machine

/-! ### Rows (R41 to R43, R209) -/

def State.rowNow (s : State) (e : EngineId) : Option SchedRow :=
  match s.table e with
  | some t => t.rows[s.eng[e.val].seq.row]?
  | none => none

/-- The row in progress, when it is of the operation: a step runs, the engine has not retired it and no row has failed. -/
def State.rowAt (s : State) (e : EngineId) (op : Byte) : Option SchedRow :=
  let q := s.eng[e.val].seq
  if s.job.state = .running ∧ s.job.stepOn = true ∧ q.running = true ∧ q.failed = false ∧ q.retired = false ∧
      s.engOk e.val = true then
    match s.rowNow e with
    | some r => if r.op = op then some r else none
    | none => none
  else none

def SeqSt.counter (q : SeqSt) (i : Nat) : W16 := q.ctr.toList.getD (i % 8) 0

def SeqSt.setCounter (q : SeqSt) (i : Nat) (v : W16) : SeqSt :=
  { q with ctr := q.ctr.set (i % 8) v (by omega) }

/-- COND of R42. -/
def SchedRow.holds (r : SchedRow) (q : SeqSt) : Bool :=
  let c := (q.counter r.creg.toNat).toNat
  match r.cond.toNat with
  | 0 => true
  | 1 => decide (c < r.clim.toNat)
  | 2 => decide (r.clim.toNat ≤ c)
  | 3 => c == r.clim.toNat
  | 4 => c != r.clim.toNat
  | _ => false

def rowOp (t : Option SchedTable) (i : Nat) : Byte :=
  match t with
  | some t => match t.rows[i]? with
    | some r => r.op
    | none => 0
  | none => 0

/-- The row has completed OK: the sequencer goes on. -/
def State.rowOk (s : State) (e : EngineId) (r : SchedRow) : State :=
  let t := s.table e
  s.modSeq e fun q =>
    let n := if r.holds q then r.next.toNat else q.row + 1
    { q with row := n, op := rowOp t n, wait := 0, pass := none }

/-- The row has completed with another status: no further row runs until the step starts afresh (log entry 25). -/
def State.rowStop (s : State) (e : EngineId) (st : Status) : State :=
  s.modSeq e fun q => { q with lastStatus := st.code, failed := true, wait := 0, pass := none }

def rowRec (e : EngineId) (st : Status) : Rec4 := rec0 (put st.code.toNat 56 ||| put e.val 33)

/-- The class of the event that a row's status raises (R394). -/
def rowClass (st : Status) : EvClass :=
  match st with
  | .peerLost => .peerLost
  | .checkFail => .audit
  | _ => .rowFail

def State.rowFail (s : State) (e : EngineId) (st : Status) (mb : W16) (peer : Nat) : State :=
  (s.rowStop e st).raise
    { cls := rowClass st, island := islEngine e, status := st, record := rowRec e st, mb := mb, peer := peer }

/-- The row has completed with a status that marks the step. -/
def State.rowMark (s : State) (e : EngineId) (st : Status) : State := (s.rowStop e st).mark (islEngine e) st

def State.rowMb (s : State) (e : EngineId) (r : SchedRow) : W16 := s.eng[e.val].seq.counter (r.argB.toNat % 8)

def State.setWait (s : State) (e : EngineId) (n : Nat) : State := s.modSeq e fun q => { q with wait := n }

/-! ### NOP, SET, ADD -/

def nopRow (e : EngineId) (s : State) : State :=
  match s.rowAt e 0x00 with
  | some r => s.rowOk e r
  | none => s

def execNop (e : EngineId) (s : State) : Res := .next (nopRow e s)

def setRow (e : EngineId) (s : State) : State :=
  match s.rowAt e 0x01 with
  | some r => (s.modSeq e fun q => q.setCounter r.argA.toNat r.argB).rowOk e r
  | none => s

def execSet (e : EngineId) (s : State) : Res := .next (setRow e s)

def addRow (e : EngineId) (s : State) : State :=
  match s.rowAt e 0x02 with
  | some r => (s.modSeq e fun q => q.setCounter r.argA.toNat (q.counter r.argA.toNat + r.argB)).rowOk e r
  | none => s

def execAdd (e : EngineId) (s : State) : Res := .next (addRow e s)

/-! ### Residency (R213, R214) -/

/-- The shard and the record of a parameter on an engine. -/
def State.paramShard (s : State) (e : EngineId) (param : Nat) : Option (ShardEnt × ParamRec) :=
  (s.shardsOf e).findSome? fun x => ((s.paramsOf x).find? fun p => p.paramId == param).map fun p => (x, p)

/-- A layer's stationary region. -/
def State.statRegion (s : State) (d : LayerDesc) (p : ParamRec) : Nat × Nat :=
  (d.wAddr, panelsBytes (s.denom p.denW) p.k p.n p.nw)

def overlaps (a b : Nat × Nat) : Bool := decide (a.1 < b.1 + b.2) && decide (b.1 < a.1 + a.2)

/-- A region is pinned: by a SEND (R201), or by the tiles in progress or the BWD layer in progress (R82, R139). -/
def State.pinned (s : State) (e : EngineId) (r : Nat × Nat) : Bool := (s.sourcePins e ++ s.tilePins e).any (overlaps r)

/-- The slips that bring a layer's parameter into its stationary region from a ledger entry: pool page and slip. -/
def State.layerSlips (s : State) (e : EngineId) (d : LayerDesc) (p : ParamRec) (i : Nat) : List (CtlId × Nat × Nat × Nat) :=
  let x := s.eng[e.val].ledger i
  let len := panelsBytes (s.denom p.denW) p.k p.n p.nw
  (List.range (s.paramPages p)).map fun k =>
    let q := s.poolLoc e (s.mapWord e x (p.page + k))
    (q.1, q.2, d.wAddr + k * 4096, min 4096 (len - k * 4096))

/-- A layer's slips as its channel's buffer holds them (R286). -/
def State.loadSlips (s : State) (e : EngineId) (d : LayerDesc) (p : ParamRec) (i : Nat) : List Slip :=
  (s.layerSlips e d p i).map fun (k : CtlId × Nat × Nat × Nat) =>
    ownSlip k.2.2.2 (dramWord k.1 (k.2.1 * 4096)) (storeWord k.2.2.1)

/-- Residency tags of layers whose stationary regions meet a region are void (R214). -/
def State.untag (s : State) (e : EngineId) (r : Nat × Nat) : State :=
  let meets (l : Nat) : Bool := match s.layer l with
    | some d => match s.paramShard e d.paramId with
      | some (_, p) => overlaps r (s.statRegion d p)
      | none => false
    | none => false
  s.modLed e fun y => { y with residency := y.residency.filter fun x => !(meets x.1) }

/-- The pages of a layer's parameter loaded from a ledger entry by a channel, for a micro-batch; the residency tag follows. A
failure has halted the channel and marked the step (R301). -/
def State.loadLayer (s : State) (e : EngineId) (ch : ChanId) (mb : W16) (l : Nat) (d : LayerDesc) (p : ParamRec) (i : Nat) :
    Option Status × State :=
  match s.readMap e (s.eng[e.val].ledger i) ch.val with
  | (false, s) => (some .uncorrectable, s)
  | (true, s) =>
    let pages := s.layerSlips e d p i
    let r := pages.foldl (fun (a : Option Status × State) (k : CtlId × Nat × Nat × Nat) =>
      match a.1 with
      | some _ => a
      | none =>
        match a.2.fetchPage e ch k.1 k.2.1 (storeWord k.2.2.1) k.2.2.2 ReadMet.none mb with
        | (.error st, s) => (some st, s)
        | (.ok data, s) => (none, s.putStore e k.2.2.1 (data.1.take k.2.2.2))) (none, s.untag e (s.statRegion d p))
    match r.1 with
    | some st => (some st, r.2)
    | none => (none, r.2.modLed e fun y => { y with residency := assocSet y.residency l i })

def Engine.resident (e : Engine) (l i : Nat) : Bool := e.led.residency.any fun r => r.1 == l && r.2 == i

/-- Loads that PREFETCH rows have issued and that wait on a pin: in order, each as soon as its region is free. -/
def State.runLoads (s : State) (e : EngineId) : List (Nat × Nat) → State
  | [] => s
  | (l, i) :: r =>
    match s.layer l with
    | none => (s.modLed e fun y => { y with loads := r }).runLoads e r
    | some d =>
      match s.paramShard e d.paramId with
      | none => (s.modLed e fun y => { y with loads := r }).runLoads e r
      | some (_, p) =>
        if s.pinned e (s.statRegion d p) then s
        else
          match (s.modLed e fun y => { y with loads := r }).loadLayer e 0 noMb l d p i with
          | (none, s) => s.runLoads e r
          | (some _, s) => s

/-- The slips of the loads that wait, in order. -/
def State.waitingSlips (s : State) (e : EngineId) : List Slip :=
  s.eng[e.val].led.loads.flatMap fun (x : Nat × Nat) =>
    match s.layer x.1 with
    | none => []
    | some d => match s.paramShard e d.paramId with
      | some (_, p) => s.loadSlips e d p x.2
      | none => []

/-- The waiting loads of an engine go on where they can; the slips of those that still wait fill the buffer of channel 0
(R82, R201, R286). -/
def State.loadsDue (s : State) (e : EngineId) : State :=
  let s := s.runLoads e s.eng[e.val].led.loads
  let slips := s.waitingSlips e
  s.modChan e 0 fun c => { c with buf := [] }.fill slips

/-- PREFETCH: the layer's CURRENT parameters into its stationary region. The row completes when the transfer is issued
(R43); the transfer waits while the region is pinned, its slips in the buffer of channel 0 (R82, R201). -/
def prefetchRow (e : EngineId) (s : State) : State :=
  match s.rowAt e 0x10 with
  | none => s
  | some r =>
    let l := r.argA.toNat
    match s.layer l with
    | none => s.rowOk e r
    | some d =>
      match s.paramShard e d.paramId with
      | none => s.rowOk e r
      | some (x, p) =>
        match s.eng[e.val].current x.shard with
        | none => s.rowFail e .notResident noMb 0
        | some c =>
          ((s.modLed e fun y => { y with loads := y.loads ++ [(l, c.1)] }).rowOk e r).loadsDue e

def execPrefetch (e : EngineId) (s : State) : Res := .next (prefetchRow e s)

/-- The rows that a look-ahead follows, with the counters as they would be: the first pass row within n rows. -/
def lookRow (t : SchedTable) : Nat → SeqSt → Option (SchedRow × SeqSt)
  | 0, _ => none
  | n + 1, q =>
    match t.rows[q.row]? with
    | none => none
    | some r =>
      if r.op = 0x20 ∨ r.op = 0x21 ∨ r.op = 0x22 then some (r, q)
      else if r.op = 0x00 ∨ r.op = 0x01 ∨ r.op = 0x02 ∨ r.op = 0x10 then
        let q := if r.op = 0x01 then q.setCounter r.argA.toNat r.argB
          else if r.op = 0x02 then q.setCounter r.argA.toNat (q.counter r.argA.toNat + r.argB)
          else q
        lookRow t n { q with row := if r.holds q then r.next.toNat else q.row + 1 }
      else none

def State.lenient (s : State) : Bool :=
  match s.shardsSec with
  | some x => x.lenient
  | none => false

/-- The version that a first use of the step asks for at least. -/
def State.wantVersion (s : State) : StepNo := if s.lenient then s.upd.duePrev else s.upd.due

/-- Version a is older than b. -/
def older (a b : StepNo) : Bool := decide (a ≠ b) && decide ((b - a).toNat < 2 ^ 47)

/-- The entry that a first use of a shard takes: CURRENT where its version will do, else the READY one that is due and
must be promoted first (true); none where the use has to wait (R254). -/
def State.dueEntry (s : State) (e : EngineId) (x : ShardEnt) : Option (Nat × LedgerEntry × Bool) :=
  match s.eng[e.val].current x.shard with
  | none => none
  | some c =>
    if x.frozen || !(older c.2.version s.wantVersion) then some (c.1, c.2, false)
    else ((s.eng[e.val].versions x.shard).find? fun y => y.2.state == .ready && y.2.version == s.wantVersion).map
      fun y => (y.1, y.2, true)

/-- The look-ahead of a wait in RECV or SEND (R213). -/
def State.lookAhead (s : State) (e : EngineId) (r : SchedRow) : State :=
  match s.table e with
  | none => s
  | some t =>
    let q := s.eng[e.val].seq
    match lookRow t 8 { q with row := if r.holds q then r.next.toNat else q.row + 1 } with
    | none => s
    | some (n, q) =>
      let l := if n.op = 0x21 then n.argC.toNat else n.argA.toNat
      match s.layer l with
      | none => s
      | some d =>
        match s.paramShard e d.paramId with
        | none => s
        | some (x, p) =>
          let noted := (s.eng[e.val].entry (q.counter (n.argB.toNat % 8))).bind fun f => f.vers.find? fun v => v.1 == x.shard
          let idx := match noted with
            | some v => some v.2
            | none => (s.dueEntry e x).map fun (c : Nat × LedgerEntry × Bool) => c.1
          match idx with
          | none => s
          | some i =>
            let st : LState := (s.eng[e.val].ledger i).state
            if s.eng[e.val].resident l i || (st != .ready && st != .current) || s.pinned e (s.statRegion d p) then s
            else
              ((s.modLed e fun y => { y with pfImplicit := wrapAdd y.pfImplicit 1 }).loadLayer e 1 noMb l d p i).2

/-- A wait in RECV or SEND; the look-ahead runs when the wait begins. -/
def State.waitIn (s : State) (e : EngineId) (r : SchedRow) (code : Nat) : State :=
  let began := s.eng[e.val].seq.wait = 0
  let s := s.setWait e code
  if began then s.lookAhead e r else s

/-! ### RECV (R202, R206, R207) -/

/-- The cycles a RECV waited, by what it waited for. -/
def State.countRecv (s : State) (e : EngineId) (n : Nat) : State :=
  s.modEng e fun x =>
    if x.seq.wait = 3 then { x with floatWait := satAdd x.floatWait n } else { x with recvWait := satAdd x.recvWait n }

def modFirst {α : Type} (p : α → Bool) (f : α → α) : List α → List α
  | [] => []
  | a :: r => if p a then f a :: r else a :: modFirst p f r

/-- The oldest float entry of a micro-batch changed. -/
def State.modFloat (s : State) (e : EngineId) (mb : W16) (f : FloatEntry → FloatEntry) : State :=
  s.modEng e fun x => { x with float := modFirst (fun y => y.mb == mb) f x.float }

/-- A message claimed for the micro-batch, its entry opened on an OPEN till. -/
def State.claim (s : State) (e : EngineId) (c : TillEnd) (m : MsgIn) (mb : W16) : State :=
  let s := s.modT e c.till fun x => TillSt.showHead
    { x.modMsg m.seqNo (fun m => { m with claimed := true }) with nextClaim := wrapAdd m.seqNo 1 }
  if c.opens then
    s.modEng e fun x => { x with
      float := x.float ++ [{ mb := mb, origin := s.curStep, claims := [(c.till, m.seqNo)], vers := [], exiting := false }] }
  else s.modFloat e mb fun f => { f with claims := (c.till, m.seqNo) :: f.claims.filter fun y => y.1 != c.till }

def State.floatFull (s : State) (e : EngineId) : Bool :=
  match s.table e with
  | some t => decide (t.floatLimit ≤ (s.eng[e.val].float).length)
  | none => true

def recvRow (e : EngineId) (waited : Nat) (s : State) : State :=
  match s.rowAt e 0x11 with
  | none => s
  | some r =>
    match s.tillCfg e.val r.argA.toNat with
    | none => s.rowFail e .stateConflict noMb 0
    | some c =>
      let s := (s.countRecv e waited).loadsDue e
      let mb := s.rowMb e r
      let want := if c.opens then some s.curStep else (s.eng[e.val].entry mb).map (·.origin)
      match want with
      | none => s.rowFail e .stateConflict mb 0
      | some origin =>
        if c.opens && s.floatFull e then
          if s.eng[e.val].float.any fun f => f.exiting then s.waitIn e r 3
          else s.rowFail e .stateConflict mb 0
        else
          match (s.till e c.till).head with
          | none =>
            if s.tillPeerLost c then (s.modT e c.till fun x => { x with peerLost := true }).rowFail e .peerLost mb c.link
            else s.waitIn e r 1
          | some m =>
            if m.origin = origin ∧ m.mb = mb then (s.claim e c m mb).rowOk e r
            else (s.modT e c.till fun x => { x with mismatch := true }).rowFail e .stateConflict mb 0

def execRecv (e : EngineId) (waited : Nat) (s : State) : Res := .next (recvRow e waited s)

/-! ### SEND (R196, R199, R201, R212) -/

def State.countSend (s : State) (e : EngineId) (t n : Nat) : State :=
  (s.modEng e fun x => { x with sendWait := satAdd x.sendWait n }).modT e t fun x =>
    { x with odWait := satAdd x.odWait n }

/-- Bad words of the stage store that a SEND reads from its source region. -/
def State.sourceBad (s : State) (e : EngineId) (c : TillEnd) (sram : SramRead) : List (Fin 4 × Nat) :=
  s.eng[e.val].readBad [(0, c.addr, c.msgBytes)] sram.ue

/-- The reads of a SEND's source met uncorrectable words: their record, and the row completes with UNCORRECTABLE (R280). -/
def State.sourceUe (s : State) (e : EngineId) (ws : List (Fin 4 × Nat)) (mb : W16) : State :=
  (s.sramUe e ws mb 0xFF).rowMark e .uncorrectable

/-- A SEND whose message an earlier run of the step had sent (R212). An acknowledged one is not sent again: the hallmarks
are compared and the micro-batch leaves, a difference marking the step (R387, R390); another keeps its credit and number and is
sent in whole. -/
def State.sendAgain (s : State) (e : EngineId) (c : TillEnd) (o : MsgOut) (f : FloatEntry) (r : SchedRow)
    (ws : List (Fin 4 × Nat)) (fails : List (Nat × Nat)) : State :=
  let n := s.goodSource e c ws
  let cut := !o.acked && decide (n < c.blocks)
  let s := s.modOut e c.till o.seqNo fun o => { o with again := false, cut := cut }
  if o.acked = false then
    let s := s.sendMsg e c { o with again := false, cut := cut } n fails
    if ws.isEmpty then s.rowOk e r else s.sourceUe e ws f.mb
  else if !ws.isEmpty then s.sourceUe e ws f.mb
  else if s.sourceMarks e c = o.hallmarks then
    let s := if c.exit then s.exitFloat e f else s
    s.rowOk e r
  else (s.replayDiffers (islEngine e) e).rowMark e .checkFail

/-- SEND. A replayed message that is acknowledged needs neither a peer nor a credit; any other fails when its peer is lost,
and a new one waits for a credit. -/
def sendRow (e : EngineId) (waited : Nat) (sram : SramRead) (fails : List (Nat × Nat)) (s : State) : State :=
  match s.rowAt e 0x12 with
  | none => s
  | some r =>
    let mb := s.rowMb e r
    match s.tillCfg e.val r.argA.toNat, s.eng[e.val].entry mb with
    | some c, some f0 =>
      if (s.till e c.till).state ≠ 1 then s.rowFail e .stateConflict mb 0
      else
        let s := ((s.countSend e c.till waited).loadsDue e).sramCe e sram
        let old := (s.till e c.till).outOf s.curStep f0.origin f0.mb
        if !(old.any (·.acked)) && s.tillPeerLost c then
          (s.modT e c.till fun x => { x with peerLost := true }).rowFail e .peerLost mb c.link
        else
          let s := if c.exit then s.modFloat e mb fun f => { f with exiting := true } else s
          let f := if c.exit then { f0 with exiting := true } else f0
          let ws := s.sourceBad e c sram
          match old with
          | some o => s.sendAgain e c o f r ws fails
          | none =>
            if (s.till e c.till).credits = 0 ∨ s.tillPeerReady c = false then s.waitIn e r 2
            else
              let s := s.sendNew e c f (s.goodSource e c ws) fails
              if ws.isEmpty then s.rowOk e r else s.sourceUe e ws mb
    | _, _ => s.rowFail e .stateConflict mb 0

def execSend (e : EngineId) (waited : Nat) (sram : SramRead) (fails : List (Nat × Nat)) (s : State) : Res :=
  .next (sendRow e waited sram fails s)

/-- OVERDRAFT_TIMEOUT: a SEND has waited OD_LIMIT × 65,536 lc for its credit. -/
def overdraftTimeout (e : EngineId) (s : State) : State :=
  match s.rowAt e 0x12 with
  | none => s
  | some r =>
    match s.tillCfg e.val r.argA.toNat with
    | none => s
    | some c =>
      if c.odLimit = 0 ∨ s.eng[e.val].seq.wait ≠ 2 then s
      else
        let mb := s.rowMb e r
        let s := s.modT e c.till fun x => { x with cOver := satAdd x.cOver 1 }
        (s.modFloat e mb fun f => { f with exiting := false }).rowFail e .overdraft mb 0

def execOverdraftTimeout (e : EngineId) (s : State) : Res := .next (overdraftTimeout e s)

/-! ### Constants record (R235) -/

/-- FP32 2^k. -/
def pow2F32 (s : State) (k : Int) : W32 := toF32 (s.fp32.result false (numScale numOne k)).val

def State.constBytes (s : State) (origin : StepNo) (mb : W16) : List Byte :=
  let o := s.expAt origin
  let gmb := match s.shardsSec with
    | some x => x.globalMb
    | none => 1
  toBytes (pow2F32 s o) 4 ++ toBytes (pow2F32 s (-o)) 4 ++ toBytes (pow2F32 s s.upd.exp) 4 ++
  toBytes (toF32 (s.fp32.done false (numDiv numOne (numOfInt gmb))).val) 4 ++ toBytes s.curStep 6 ++ toBytes mb 2 ++
  List.replicate 40 0

/-- Steps by which an origin lies before the current step. -/
def State.stepsBack (s : State) (origin : StepNo) : Nat := (s.curStep - origin).toNat

/-- The record written before a pass row; none where the origin lies too far back. -/
def State.writeConst (s : State) (e : EngineId) (f : FloatEntry) : Option State :=
  match s.planeCfg.bind (·.recipes) with
  | none => some s
  | some rs =>
    if 31 < s.stepsBack f.origin then none
    else some (s.putStore e rs.constAddr (s.constBytes f.origin f.mb))

/-! ### Reloads (R205) -/

/-- Descriptor slots that a layer's units use in a pass: those of its programs, and the row engine's. -/
def State.passSlots (s : State) (d : LayerDesc) (kind : PassKind) : List Nat :=
  let of (first len : Nat) : List Nat := (s.program first len).filterMap fun w =>
    if 0x38 ≤ opcOf w % 64 then some (slotOf w) else none
  let row := if d.rowOp = 0 then [] else [12, 13, 14, 15]
  match kind with
  | .bwd => of d.preProg d.preLen ++ of d.postProg d.postLen ++ row
  | _ => of d.fwdProg d.fwdLen ++ row

/-- A layer addresses the till's messages in a pass: by X and by W where its arrays read them in the pass, by a descriptor
of its units that names the stage store, or by the gradient that its arrays read. -/
def State.layerNeeds (s : State) (e : EngineId) (f : FloatEntry) (kind : PassKind) (l : Nat) (top : Nat) (c : TillEnd) :
    Bool :=
  match s.layer l with
  | none => false
  | some d =>
    let within (a : Nat) : Bool := decide (c.addr ≤ a) && decide (a < c.addr + c.msgBytes)
    let tds := ((s.passSlots d kind).filterMap fun k => s.td d k).filter fun t => t.kind == 1 || t.kind == 4 || t.kind == 5
    let arrays := d.arrKind != 0
    (arrays && !(kind == .bwd && d.frozen) && within d.xAddr) || (arrays && within d.wAddr) ||
    (tds.any fun t => within t.addr) || (kind == .bwd && arrays && within (s.gradBase e (some f) l d top).2)

/-- Messages that a row needs and whose slots have been released. -/
def State.reloadsFor (s : State) (e : EngineId) (f : FloatEntry) (kind : PassKind) (first last : Nat) :
    List (TillEnd × MsgIn) :=
  f.claims.filterMap fun (y : Nat × W32) =>
    match s.tillCfg e.val y.1, (s.till e y.1).msg y.2 with
    | some c, some m =>
      if m.slot.isSome then none
      else if (List.range (last + 1 - first)).any fun k => s.layerNeeds e f kind (first + k) last c
        then some (c, m)
      else none
    | _, _ => none

/-- How a reload ends: done, the row ends with a status, or a block is asked for again and the row waits. -/
inductive ReloadRes
  | done
  | fail (st : Status)
  | wait
deriving DecidableEq, Repr

/-- The OUT end still holds the source of a message pinned: seen of a local till only (R373; log entry 168). -/
def State.sourceHeld (s : State) (c : TillEnd) (n : W32) : Bool :=
  c.path == .onModule && (s.till c.farEngine c.farTill.val).outs.any fun o => o.seqNo == n && !o.acked

/-- The first block of a stored message whose hallmark does not describe it. -/
def State.storeFails (s : State) (e : EngineId) (c : TillEnd) (j : Nat) : Option Nat :=
  (List.range c.blocks).find? fun b =>
    let (ctl, page) := storePage e c j b
    s.ctlOk ctl && s.pageGood ctl page && !(hallmarkOk (s.readPage ctl page).2 (s.readPage ctl page).1)

/-- One message copied from the till store into the lowest free slot by channel 2, once no SEND pins it. A block whose
hallmark fails is asked for again while its source is pinned (R201, R205, R292, R373). -/
def State.reloadMsg (s : State) (e : EngineId) (c : TillEnd) (m : MsgIn) : ReloadRes × State :=
  let x := s.till e c.till
  match m.place, x.freeSlot c with
  | none, _ => (.fail .notResident, s)
  | some _, none => (.fail .overdraft, s)
  | some j, some k =>
    if c.depth - x.slotsUsed ≤ x.o then (.fail .overdraft, s)
    else if s.pinned e (c.addr + k * c.msgBytes, c.msgBytes) then (.wait, s.setWait e 7)
    else
      match (if s.sourceHeld c m.seqNo then s.storeFails e c j else none) with
      | some b => (.wait, (s.askResend e (Fin.ofNat 64 c.till) c m.seqNo b).setWait e 5)
      | none =>
        let r := (List.range c.blocks).foldl (fun (a : Option Status × State) b =>
          match a.1 with
          | some _ => a
          | none =>
            let (ctl, page) := storePage e c j b
            let at_ := c.addr + k * c.msgBytes + b * 4096
            match a.2.fetchPage e 2 ctl page (storeWord at_) 4096 ReadMet.none m.mb with
            | (.error st, s) => (some st, s)
            | (.ok data, s) => (none, s.putStore e at_ data.1)) (none, s)
        match r.1 with
        | some st => (.fail st, r.2)
        | none => (.done, r.2.modT e c.till fun y =>
            { y.modMsg m.seqNo (fun m => { m with slot := some k, reloaded := true }) with reloads := wrapAdd y.reloads 1 })

/-- Every reload of a row: true when it may start. A failure ends the row, a wait leaves it to the row's next command. -/
def State.reloadAll (s : State) (e : EngineId) (mb : W16) : List (TillEnd × MsgIn) → Bool × State
  | [] => (true, s)
  | (c, m) :: r =>
    match s.reloadMsg e c m with
    | (.done, s) => s.reloadAll e mb r
    | (.wait, s) => (false, s)
    | (.fail st, s) =>
      (false, match st with
        | .hallmarkFail =>
          (s.rowMark e st).raise
            { cls := .unrepairable, island := islEngine e, status := st, record := rowRec e st, mb := mb, peer := 0 }
        | .overdraft => s.rowFail e st mb 0
        | .notResident => s.rowFail e st mb 0
        | _ => s.rowMark e st)

/-- The messages of a micro-batch that stand in slots of a reload (R205). -/
def State.reloadedOf (s : State) (e : EngineId) (f : FloatEntry) : List (Nat × Nat) :=
  f.claims.filterMap fun (y : Nat × W32) => match (s.till e y.1).msg y.2 with
    | some m => if m.reloaded then some (y.1, y.2.toNat) else none
    | none => none

/-! ### Versions (R218, R254, R255) -/

inductive UseRes
  | use (i : Option Nat)
  | wait
  | fail (st : Status)

/-- The entry recorded for a first use. -/
def State.recordUse (s : State) (e : EngineId) (mb : W16) (h : BitVec 24) (i : Nat) (stale : Bool) : UseRes × State :=
  let s := s.modFloat e mb fun f => { f with vers := f.vers ++ [(h, i)] }
  let s := s.modEntry e i fun x => { x with refcount := x.refcount + 1 }
  (.use (some i), if stale then s.modLed e fun l => { l with staleUses := satAdd l.staleUses 1 } else s)

/-- The ledger entry on which a pass runs a layer. -/
def State.useVersion (s : State) (e : EngineId) (p : Pass) (d : LayerDesc) : UseRes × State :=
  match (if d.paramId = 0 then none else s.paramShard e d.paramId), s.eng[e.val].entry p.mb with
  | some (x, _), some f =>
    match f.vers.find? fun v => v.1 == x.shard with
    | some v => (.use (some v.2), s)
    | none =>
      if p.kind = .bwd then (.fail .stateConflict, s)
      else if (s.eng[e.val].current x.shard).isNone then (.fail .notResident, s)
      else
        match s.dueEntry e x with
        | some (i, c, promote) =>
          (if promote then s.promoteEntry e i else s).recordUse e p.mb x.shard i
            (!x.frozen && s.lenient && older c.version s.upd.due)
        | none => (.wait, s)
  | _, _ => (.use none, s)

/-- A first use that waits (R255). -/
def State.versionWaits (s : State) (e : EngineId) : State :=
  let s := if s.eng[e.val].seq.wait = 4 then s else s.modLed e fun l => { l with notResident := satAdd l.notResident 1 }
  s.setWait e 4

/-! ### Passes (R170, R208) -/

/-- A pass has finished its layers: FREE 1 slots and reload slots go, and the micro-batch may leave the float. -/
def State.finishPass (s : State) (e : EngineId) (r : SchedRow) (p : Pass) : State :=
  let s := p.reloads.foldl (fun (s : State) (y : Nat × Nat) => s.dropSlot e y.1 (BitVec.ofNat 32 y.2) true) s
  let s := match s.eng[e.val].entry p.mb with
    | none => s
    | some f => f.claims.foldl (fun (s : State) (y : Nat × W32) => match s.tillCfg e.val y.1 with
        | some c => if c.free then s.dropSlot e y.1 y.2 false else s
        | none => s) s
  let bwdRows := match s.table e with
    | some t => t.rows.any fun x => x.op == 0x21
    | none => false
  let inRange (l : Nat) : Bool := decide (r.argA.toNat ≤ l) && decide (l ≤ r.argC.toNat)
  let leaves := (s.exitTill e).isNone && (match s.engMap e.val with
    | some m => if bwdRows then p.kind == PassKind.bwd && inRange m.layerFirst else p.kind == PassKind.fwd && inRange m.layerLast
    | none => false)
  let s := match (if leaves then s.eng[e.val].entry p.mb else none) with
    | some f => s.exitFloat e f
    | none => s
  s.rowOk e r

/-- Stage-store ranges that a layer's units write in a pass: the stores and reductions of its programs with their carry
areas, the row engine's output, and the spill areas of statistics blocks (R110, R161, R179). -/
def State.passWrites (s : State) (e : EngineId) (p : Pass) (l : Nat) (d : LayerDesc) : List (Nat × Nat) :=
  let f := s.eng[e.val].entry p.mb
  let of (first len : Nat) : List TensorDesc := (s.program first len).filterMap fun w =>
    let op := opcOf w % 64
    if op = 0x39 ∨ 0x3C ≤ op then s.td d (slotOf w) else none
  let progs := match p.kind with
    | .bwd => of d.preProg d.preLen ++ of d.postProg d.postLen
    | _ => of d.fwdProg d.fwdLen
  let row := if d.rowOp = 0 then [] else (s.td d (if p.kind == .bwd then 12 else 15)).toList
  let out := (progs ++ row).flatMap fun t =>
    if t.kind = 1 ∨ t.kind = 5 then
      let dn := s.denom t.den
      let cb := if dn.block = 0 then 0 else straddleIdx dn t.cols (tileWidth d) (ceilDiv t.cols dn.block)
      (s.reloc e f t.addr, t.rows * t.rowStride) ::
        (if cb = 0 then [] else [(s.reloc e f t.carryAddr, t.rows * cb * (4 * dn.block + 64))])
    else []
  let spills := if d.rowOp = 0 ∨ p.kind == .bwd then []
    else
      let own := match s.td d 14 with
        | some tx => [(s.spillAt e d p.mb tx.rows, tx.rows * 8)]
        | none => []
      own ++ s.eng[e.val].vec.stats.filterMap fun b =>
        if b.spilled then none
        else (s.layer b.layer).map fun u => (s.spillAt e u b.mb b.rows.length, b.rows.length * 8)
  out ++ spills

/-- A write of a layer's units would meet a source region that a SEND pins (R201). -/
def State.storesPinned (s : State) (e : EngineId) (p : Pass) (l : Nat) (d : LayerDesc) : Bool :=
  (s.passWrites e p l d).any fun r => (s.sourcePins e).any (overlaps r)

/-- The layer's parameters in its stationary region. -/
def State.makeResident (s : State) (e : EngineId) (mb : W16) (l : Nat) (d : LayerDesc) (i : Option Nat) :
    Option Status × State :=
  match i, s.paramShard e d.paramId with
  | some i, some (_, p) =>
    if s.eng[e.val].resident l i then (none, s)
    else (s.modLed e fun y => { y with pfMiss := wrapAdd y.pfMiss 1 }).loadLayer e 1 mb l d p i
  | _, _ => (none, s)

/-- The units of a layer that run before its tiles, and the tiles. OK where they ran; another status ends the row; none
where a unit stopped and marked the step. -/
def State.beginUnits (s : State) (e : EngineId) (p : Pass) (l : Nat) (d : LayerDesc) (env : RunEnvs) :
    Option Status × State :=
  match p.kind with
  | .bwd =>
    match (if d.rowOp = 0 then (some Status.ok, s) else s.rowBackward e l d p.mb env) with
    | (some .ok, s) =>
      match (if d.preLen = 0 then (true, s) else s.runProgram e l 1 p.mb none env) with
      | (false, s) => (none, s)
      | (true, s) =>
        let sq := s.seqMode e d
        let due := if d.arrKind = 0 then [] else bwdTiles l d sq
        let s := s.modArr e fun x => { x with
          bwdLayer := BitVec.ofNat 16 l, bwdMb := p.mb, bwdTransposed := d.transpose, bwdFrozen := d.frozen
          bwdSequential := sq, bwdActive := true, tilebuf := [] }
        (some .ok, (s.modPass e fun q => { q with begun := true, due := due, take := due.filter (queued d) }).startTiles e)
    | r => r
  | _ =>
    let kind := if p.kind = .recomp then TileKind.recomp else TileKind.fwd
    if d.arrKind = 0 then
      match s.runProgram e l 0 p.mb none env with
      | (true, s) => (some .ok, s.modPass e fun q => { q with begun := true, due := [], take := [] })
      | (false, s) => (none, s)
    else
      let due := fwdTiles l d kind
      (some .ok, (s.modPass e fun q => { q with begun := true, due := due, take := due }).startTiles e)

/-- A layer of the pass begins: version, pins, parameters, units. True where the pass can go on. -/
def State.beginLayer (s : State) (e : EngineId) (p : Pass) (l : Nat) (d : LayerDesc) (env : RunEnvs) : Bool × State :=
  match s.useVersion e p d with
  | (.wait, s) => (false, s.versionWaits e)
  | (.fail st, s) => (false, s.rowFail e st p.mb 0)
  | (.use i, s) =>
    let needs := match i, s.paramShard e d.paramId with
      | some i, some (_, r) => !(s.eng[e.val].resident l i) && s.pinned e (s.statRegion d r)
      | _, _ => false
    if needs || s.storesPinned e p l d then (false, s.setWait e 7)
    else
      let s := s.setWait e 0
      match s.makeResident e p.mb l d i with
      | (some st, s) => (false, s.rowMark e st)
      | (none, s) =>
        match s.beginUnits e p l d env with
        | (some .ok, s) => (true, s)
        | (some st, s) => (false, s.rowFail e st p.mb 0)
        | (none, s) => (false, s)

/-- A layer of the pass has no tile left: the row engine's forward pass, then the next layer. False where the row engine
stopped and marked the step. -/
def State.endLayer (s : State) (e : EngineId) (p : Pass) (l : Nat) (d : LayerDesc) (env : RunEnvs) : Bool × State :=
  match (if p.kind != .bwd && d.rowOp != 0 then s.rowForward e l d p.mb env else (true, s)) with
  | (false, s) => (false, s)
  | (true, s) =>
    let s := s.modArr e fun x => { x with bwdActive := false }
    (true, s.modPass e fun q => { q with layers := q.layers.drop 1, begun := false })

/-- The pass goes on as far as it can without a tile closing or being taken. -/
def State.advance (s : State) (e : EngineId) (r : SchedRow) (env : RunEnvs) : Nat → State
  | 0 => s
  | n + 1 =>
    match s.eng[e.val].seq.pass with
    | none => s
    | some p =>
      match p.layers with
      | [] => s.finishPass e r p
      | l :: _ =>
        match s.layer l with
        | none => (s.modPass e fun q => { q with layers := q.layers.drop 1, begun := false }).advance e r env n
        | some d =>
          if p.begun then
            if p.due.isEmpty && p.take.isEmpty then
              match s.endLayer e p l d env with
              | (true, s) => s.advance e r env n
              | (false, s) => s
            else s
          else
            match s.beginLayer e p l d env with
            | (true, s) => s.advance e r env n
            | (false, s) => s

/-- Calls enough for every layer of a row to begin and to end. -/
def passFuel : Nat := 65536 * 2 + 2

def passOp : PassKind → Byte
  | .fwd => 0x20 | .bwd => 0x21 | .recomp => 0x22

/-- The layers of a row in the order in which the pass runs them. -/
def passLayers (kind : PassKind) (r : SchedRow) : List Nat :=
  let l := (List.range (r.argC.toNat + 1 - r.argA.toNat)).map fun k => r.argA.toNat + k
  match kind with
  | .bwd => l.reverse
  | _ => l

/-- A FWD, BWD or RECOMP row starts. -/
def State.startPass (s : State) (e : EngineId) (kind : PassKind) (r : SchedRow) (env : RunEnvs) : State :=
  let mb := s.rowMb e r
  match s.eng[e.val].entry mb with
  | none => s.rowFail e .stateConflict mb 0
  | some f =>
    match s.writeConst e f with
    | none => s.rowFail e .stateConflict mb 0
    | some s =>
      match s.reloadAll e mb (s.reloadsFor e f kind r.argA.toNat r.argC.toNat) with
      | (false, s) => s
      | (true, s) =>
        let p : Pass :=
          { kind := kind, mb := mb, origin := f.origin, layers := passLayers kind r, begun := false, due := [], take := [],
            reloads := s.reloadedOf e f, top := r.argC.toNat }
        (s.modSeq e fun q => { q with pass := some p }).advance e r env passFuel

def passRow (e : EngineId) (kind : PassKind) (waited : Nat) (env : RunEnvs) (s : State) : State :=
  match s.rowAt e (passOp kind) with
  | none => s
  | some r =>
    let s := if s.eng[e.val].seq.wait = 4 then s.modEng e fun x => { x with versionWait := satAdd x.versionWait waited } else s
    let s := s.loadsDue e
    match s.eng[e.val].seq.pass with
    | some _ => s.advance e r env passFuel
    | none => s.startPass e kind r env

def execFwd (e : EngineId) (waited : Nat) (env : RunEnvs) (s : State) : Res := .next (passRow e .fwd waited env s)

def execBwd (e : EngineId) (waited : Nat) (env : RunEnvs) (s : State) : Res := .next (passRow e .bwd waited env s)

def execRecomp (e : EngineId) (waited : Nat) (env : RunEnvs) (s : State) : Res := .next (passRow e .recomp waited env s)

/-- VERSION_PROMOTE_STRICT: the version that a waiting first use is due finds itself READY and becomes CURRENT; the row
goes on. -/
def versionPromote (e : EngineId) (shard : BitVec 24) (env : RunEnvs) (s : State) : State :=
  match s.rowNow e, s.eng[e.val].seq.pass with
  | some r, some p =>
    let due := (s.eng[e.val].versions shard).any fun y => y.2.state == .ready && y.2.version == s.wantVersion
    let mine := match p.layers with
      | l :: _ => match s.layer l with
        | some d => match s.paramShard e d.paramId with
          | some (x, _) => x.shard == shard
          | none => false
        | none => false
      | [] => false
    if (s.rowAt e (passOp p.kind)).isSome && s.eng[e.val].seq.wait == 4 && due && mine then s.advance e r env passFuel else s
  | _, _ => s

def execVersionPromoteStrict (e : EngineId) (shard : BitVec 24) (env : RunEnvs) (s : State) : Res :=
  .next (versionPromote e shard env s)

/-! ### TILE_TAKE (R171, R172, R185) -/

/-- Counts of the carry areas of a program's block-scaled stores cleared. -/
def State.clearCarry (s : State) (e : EngineId) (d : LayerDesc) (prog : Nat) (mb : W16) : State :=
  let f := s.eng[e.val].entry mb
  let slots := (s.program (runProg d prog).1 (runProg d prog).2).filterMap fun w =>
    if opcOf w % 64 = 0x39 then some (slotOf w) else none
  (slots.filterMap fun k => s.td d k).foldl (fun s t =>
    let dn := s.denom t.den
    if dn.block = 0 then s
    else
      let w := 4 * dn.block + 64
      let cb := straddleIdx dn t.cols (tileWidth d) (ceilDiv t.cols dn.block)
      let base := s.reloc e f t.carryAddr
      s.modEng e fun x => (List.range (t.rows * cb)).foldl (fun (x : Engine) i =>
        x.putStore (base + i * w + 4 * dn.block) (List.replicate 64 0)) x) s

/-- Tiles that a layer's pass puts into the queue. -/
def State.takeCount (s : State) (e : EngineId) (p : Pass) (l : Nat) (d : LayerDesc) : Nat :=
  match p.kind with
  | .bwd => ((bwdTiles l d (s.seqMode e d)).filter (queued d)).length
  | _ => (fwdTiles l d .fwd).length

/-- A tile leaves the queue with its slot: the longest-waiting closed tile takes its place, and a tile that waited for the
slot starts. -/
def State.dequeue (s : State) (e : EngineId) (t : ClosedTile) : State :=
  let s := s.modArr e fun x => { x with queue := x.queue.erase t }
  let s := match s.eng[e.val].arr.waiting with
    | [] => s
    | w :: rest =>
      if 32 ≤ (s.eng[e.val].arr.queue).length then s
      else (s.modArr e fun x => { x with waiting := rest }).intoQueue e w
  s.startTiles e

def sameTile (k : TileKey) (t : ClosedTile) (mb : W16) : Bool :=
  t.key.layer == k.layer && t.key.kind == k.kind && t.key.i == k.i && t.key.j == k.j && t.key.chunk == k.chunk && t.mb == mb

def tileTake (e : EngineId) (tileWait : Nat) (env : RunEnvs) (s : State) : State :=
  let q := s.eng[e.val].seq
  match s.rowNow e, q.pass with
  | some r, some p =>
    match p.take with
    | [] => s
    | k :: rest =>
      if (s.rowAt e (passOp p.kind)).isNone then s
      else
        let s := s.modVec e fun v => { v with tileWait := satAdd v.tileWait tileWait }
        match s.eng[e.val].arr.queue.find? fun t => sameTile k t p.mb, s.layer k.layer with
        | some t, some d =>
          let prog := if p.kind = .bwd then 2 else 0
          let s := if p.take.length = s.takeCount e p k.layer d then s.clearCarry e d prog p.mb else s
          match s.runProgram e k.layer prog p.mb (some t) env with
          | (false, s) => s
          | (true, s) => (((s.modPass e fun q => { q with take := rest }).dequeue e t).loadsDue e).advance e r env passFuel
        | _, _ => s
  | _, _ => s

def execTileTake (e : EngineId) (tileWait : Nat) (env : RunEnvs) (s : State) : Res := .next (tileTake e tileWait env s)

/-! ### CLEAR, UPDATE, PUBLISH, STEP_END (R150, R210, R211, R217, R238) -/

def clearRow (e : EngineId) (s : State) : State :=
  match s.rowAt e 0x30 with
  | none => s
  | some r =>
    if s.eng[e.val].arr.homeFlight.isEmpty then (s.clearHandoff e r.argA.toNat).rowOk e r else s

def execClear (e : EngineId) (s : State) : Res := .next (clearRow e s)

/-- The owned shards of a group on an engine, in increasing identifier. -/
def State.ownedShards (s : State) (e : EngineId) (group : Nat) : List (BitVec 24) :=
  ((s.clearShards e group).filter s.owns).map (·.shard)

def updateRow (e : EngineId) (s : State) : State :=
  match s.rowAt e 0x31 with
  | none => s
  | some r =>
    let l := s.ownedShards e r.argB.toNat
    let item : UpdItem :=
      { recipe := r.argA.toNat, group := r.argB.toNat, plane := s.job.plane.val, phase1 := l, phase2 := l, mirroring := [] }
    let s := if l.isEmpty then s else s.modLed e fun y => { y with upd := y.upd ++ [item] }
    (s.modUpd fun u => { u with ran := true }).rowOk e r

def execUpdate (e : EngineId) (s : State) : Res := .next (updateRow e s)

def publishRow (e : EngineId) (s : State) : State :=
  match s.rowAt e 0x32 with
  | none => s
  | some r =>
    let g := r.argA.toNat
    let ids := ((s.shardsOf e).filter fun x => x.group == g).map (·.shard)
    let step := s.curStep
    let mine (x : LedgerEntry) : Bool :=
      ids.contains x.shard && (x.state == .building || x.state == .ready) && x.created == step
    (s.modLed e fun y => { y with
      pubGroups := g :: y.pubGroups
      entries := y.entries.map fun x => if mine x.2 then (x.1, { x.2 with published := true }) else x }).rowOk e r

def execPublish (e : EngineId) (s : State) : Res := .next (publishRow e s)

/-- Everything the engine's step issued has completed (R210). -/
def State.stepDone (s : State) (e : EngineId) : Bool :=
  let en := s.eng[e.val]
  s.allAcked e && en.arr.homeFlight.isEmpty && en.led.upd.isEmpty && en.led.loads.isEmpty &&
  ((List.range 5).all fun i => match en.dma.toList[i]? with
    | some c => c.state != .running && c.state != .stopping
    | none => true) &&
  ((s.shardsOf e).all fun x =>
    match (s.env.clr[(clrUnit e).val]).record s.curStep x.shard with
    | some r => !r.handed || r.complete
    | none => true)

def stepEndRow (e : EngineId) (s : State) : State :=
  match s.rowAt e 0x3F with
  | none => s
  | some _ =>
    let s := s.loadsDue e
    let stashed := match s.table e with
      | some t => t.stashed
      | none => true
    if !stashed && !(s.eng[e.val].float.isEmpty) then s.rowFail e .stateConflict noMb 0
    else if s.stepDone e then
      (s.modSeq e fun q => { q with wait := 6, retired := true }).modVec e fun v => { v with stats := [] }
    else s.setWait e 6

def execStepEnd (e : EngineId) (s : State) : Res := .next (stepEndRow e s)

end Sys2Proof.Machine
end

