-- ==== Sys2Proof/Machine/Hold.lean ====
section
/-! DEFINITION. Stopping a step: saving at its start, restoring what was saved (07 R212; 13 R388 step 5) and the move to
HELD (13 R396). -/

namespace Sys2Proof.Machine

/-! ### Saving (R212) -/

/-- What an engine saves at the start of a step. -/
def Engine.saved (e : Engine) : SaveSt where
  float := e.float
  tills := (e.tills.toList.filter fun t => t.state != 0).map fun t => (t.o, t.r, t.s, t.nextClaim)
  refs := (e.led.entries.filter fun x => x.2.state != .free).map fun x => (x.1, x.2.refcount)

/-- The tills in the order in which the save lists them. -/
def Engine.savedClaims (e : Engine) : List (Nat × W32) :=
  (((List.range 64).filter fun t => (e.tills.toList.getD t TillSt.init).state != 0).zip e.save.tills).map fun x =>
    (x.1, x.2.2.2.2)

/-! ### Restoring (R388 step 5) -/

/-- A till end as the step found it, adjusted by what has arrived since (R388 step 5): claims made since are undone, a
message counts in R and S as it did or as it arrived, whatever the stopped run released, reload slots go, and a message
sent keeps its number for the SEND to come. O follows the credits granted and used since. -/
def TillSt.restored (t : TillSt) (nextClaim : W32) (step : StepNo) : TillSt :=
  let ms := t.msgs.map fun m => { m with
    claimed := m.claimed && decide (2 ^ 31 ≤ seqAfter m.seqNo nextClaim)
    exited := false
    slot := if m.reloaded then none else m.slot
    reloaded := false
    inR := m.step == step || m.savedR
    gone := m.gone && m.place.isNone }
  TillSt.showHead { t with
    nextClaim := nextClaim
    msgs := ms
    r := (ms.filter (·.inR)).length
    s := (ms.filter fun m => m.place.isSome && !m.gone).length
    outs := t.outs.map fun o => if o.step == step then { o with again := true } else o }

/-- An IN end asks the OUT end for the blocks whose store writes failed (R198). -/
def State.askBad (s : State) (e : EngineId) (t : Nat) : State :=
  match s.tillCfg e.val t with
  | none => s
  | some c =>
    if c.isOut then s
    else ((s.till e t).msgs.flatMap fun m => m.storeBad.map fun b => (m.seqNo, b)).foldl
      (fun (s : State) (x : W32 × Nat) => s.askResend e (Fin.ofNat 64 c.till) c x.1 x.2) s

/-- A channel of the engine's own issuers at the start of a replay (R301). -/
def ChanSt.freed (c : ChanSt) : ChanSt :=
  { c with state := if c.state == .halted || c.state == .stopped || c.state == .stopping then .idle else c.state
           slip := none, buf := [] }

/-! ### The drain's channel (R286, R418) -/

def State.ckptSec (s : State) : Option CkptSec := s.job.charter.map (·.ckpt)

/-- The number of blocks a slot holds, and where its data begin (R417). -/
def CkptSec.nb (c : CkptSec) : Nat := (c.slotBytes - 16777216 - 4096) / 4160
def CkptSec.dataOff (c : CkptSec) : Nat := 0x0100_0000 + ceilDiv (64 * c.nb) 4096 * 4096

/-- The engines stand still: steps 2 to 5 of R388, of a replay or of HOLD. -/
def State.standing (s : State) : Bool :=
  s.int.holding || match s.int.replay with
    | some r => r.stopped
    | none => false

/-- The drain slip that channel 5 takes up where it has none in progress: the blocks left of the engine's first shard, with
BLOCKS and CSUM, to the slot (R418). -/
def State.drainNext (s : State) (e : EngineId) : State :=
  match s.ckptSec, s.ckpt.drain with
  | some c, some d =>
    match d.left.find? fun b => b.engine == e.val with
    | none => s
    | some b =>
      let n := (d.left.filter fun y => y.engine == e.val && y.shard == b.shard).length
      let q := pageOf e b.loc
      let dest := c.base.toNat + d.slot.val * c.slotBytes + c.dataOff + b.index * 4096
      let x := ownSlip (4096 * n) (dramWord q.1 (q.2 * 4096))
        (if c.toPeer then put 5 60 ||| put c.peer 48 ||| put dest 0 else put 4 60 ||| put dest 0)
      let busy := s.eng[e.val].dma[5].state == .running || s.eng[e.val].dma[5].state == .stopping
      if !busy && !s.standing then s.chanTake e 5 { x with w0 := x.w0 ||| put 1 52 ||| put c.share 40 } else s
  | _, _ => s

/-- The drain goes on at every engine whose channel 5 is idle (R392, R396). -/
def State.drainOn (s : State) : State := s.stages.foldl (fun s e => s.drainNext e) s

/-- The sequencer at the start of a step: at ENTRY, counters zero. -/
def SeqSt.fresh (q : SeqSt) (t : Option SchedTable) : SeqSt :=
  let n := match t with
    | some t => t.entry
    | none => 0
  let z : Vector W16 8 := Vector.replicate 8 0
  { q with row := n, op := rowOp t n, wait := 0, ctr := z, pass := none, retired := false, failed := false, runs := [], kept := [], spoiled := [] }

/-- Entries of the step that are BUILDING or READY are freed; a fetch among them is asked for again (R217, R252). -/
def State.freeYoung (s : State) (e : EngineId) : State :=
  let step := s.curStep
  let gone := s.eng[e.val].led.entries.filter fun x =>
    (x.2.state == .building || x.2.state == .ready) && x.2.created == step
  gone.foldl (fun s (x : Nat × LedgerEntry) =>
    let s := s.freeEntry e x.1
    if x.2.owned then s
    else s.modLed e fun l =>
      let f : Fetch :=
        { shard := x.2.shard, version := x.2.version, req := BitVec.ofNat 8 (x.1 % 255 + 1), entry := none, restore := false
          waiting := true, held := false, gotPages := [], failed := [], maps := [] }
      { l with fetches := f :: l.fetches.filter fun y => y.shard != x.2.shard }) s

/-- State pages that the step has written, as they were. -/
def State.undoState (s : State) (e : EngineId) : State :=
  let s := s.eng[e.val].led.undo.foldl (fun (s : State) u => match s.shardEnt u.1.1 with
    | some x => s.writeState e x u.1.2 u.2.1 u.2.2
    | none => s) s
  s.modLed e fun l => { l with undo := [] }

/-- R388 step 5 at one engine. -/
def State.restoreEng (s : State) (e : EngineId) : State :=
  let step := s.curStep
  let en := s.eng[e.val]
  let s := en.savedClaims.foldl (fun s (c : Nat × W32) => ((s.modT e c.1 fun t => t.restored c.2 step).askBad e c.1).grant e c.1) s
  let s := (s.freeYoung e).undoState e
  let s := s.modEng e fun x => { x with
    float := x.save.float
    seq := (x.seq.fresh (s.table e))
    arr := { x.arr with touched := [], homeFlight := [] }
    vec := { x.vec with stats := [] }
    dma := x.dma.mapFinIdx fun i c _ => if i < 6 then c.freed else c }
  s.modLed e fun l => { l with
    upd := [], updPhase := 0, pubGroups := []
    entries := l.entries.map fun x => (x.1, { x.2 with refcount := lookupD en.save.refs x.1 0 }) }

/-- R388 step 5 at every stage engine and both clearing units. -/
def State.restoreStep (s : State) : State :=
  let step := s.curStep
  let s := s.stages.foldl (fun s e => s.restoreEng e) s
  let s := (s.modClr 0 fun c => c.again step).modClr 1 fun c => c.again step
  s.modUpd fun u => { u with ran := false }

/-- Everything that the engines had issued is answered (R388 step 4). -/
def State.quiet (s : State) : Bool :=
  s.stages.all fun e =>
    s.allAnswered e && (s.eng[e.val]).arr.homeFlight.isEmpty &&
    (List.range 6).all fun i => match (s.eng[e.val]).dma.toList[i]? with
      | some c => c.state != .running && c.state != .stopping
      | none => true

/-- The job stands in HELD at the boundary before the step; a drain goes on (R396). -/
def State.held (s : State) : State :=
  let s := s.cancelPending
  let s := s.modJob fun j => { j with state := .held, stepOn := false, runLeft := none }
  let s := s.modInt fun x => { x with
    replay := none, holding := false, holds := satAdd x.holds 1, auditDone := [], auditVotes := [] }
  s.drainOn.setErr errHeld

/-- HOLD goes on: step 5 of R388 once everything issued is answered, then HELD. -/
def State.holdOn (s : State) : State :=
  if s.int.holding ∧ s.quiet = true then s.restoreStep.held else s

/-- HOLD (R396): steps 2 to 5 of R388 for the step in flight, then HELD at the boundary before it. While something issued is
not answered the engines stand; the move comes with REPLAY_RESTART (log entry 169). -/
def State.hold (s : State) : State :=
  if s.job.state = .running ∧ s.job.stepOn = true then
    (((s.modAllEng Engine.stop).modInt fun x => { x with replay := none, holding := true })).holdOn
  else if s.job.state = .running ∨ s.job.state = .active then (s.modAllEng Engine.stop).held
  else s

end Sys2Proof.Machine
end

