-- ==== Sys2Proof/Machine/Drain.lean ====
section
/-! DEFINITION. Checkpoints: the escrow mark, writes under escrow, the drain, the counterfoil and the commit (14 R412 to R425,
R441). -/

namespace Sys2Proof.Machine

/-! ### The destination (R416, R417) -/

/-- 4 KiB blocks sent to the storage peer's window as unsolicited OBJ_DATA with REQ 0 (R327; log entry 29). -/
def State.peerBlocks (s : State) (peer off : Nat) (data : List Byte) : State :=
  (List.range (ceilDiv data.length 4096)).foldl (fun s k =>
    let b := pad (slice data (k * 4096) 4096) 4096
    s.sendBlock peer 2 0 ((off + k * 4096) <<< 48) false b (freshSide b) .ok) s

/-- Bytes written at an offset of a slot. -/
def State.slotWrite (s : State) (c : CkptSec) (slot : Fin 4) (off : Nat) (data : List Byte) : State :=
  if c.toPeer then s.peerBlocks c.peer (c.base.toNat + slot.val * c.slotBytes + off) data
  else s.emit (.hostWrite (wrapAdd c.base (slot.val * c.slotBytes + off)) data)

/-- The slot that holds neither of the two newest committed checkpoints. -/
def State.freeCkptSlot (s : State) : Fin 4 :=
  let used (k : Nat) : Bool :=
    (match s.ckpt.newest with
      | some c => c.slot.val == k
      | none => false) ||
    (match s.ckpt.older with
      | some c => c.slot.val == k
      | none => false)
  if used 0 then (if used 1 then 2 else 1) else 0

/-! ### The escrow mark (R412 to R414) -/

def sortShards (l : List ShardEnt) : List ShardEnt := l.mergeSort fun a b => decide (a.shard.toNat ≤ b.shard.toNat)

def State.ownedOf (s : State) (e : EngineId) : List ShardEnt := sortShards ((s.shardsOf e).filter s.owns)

/-- The blocks of one owned shard in drain order: map pages, version pages, state pages. -/
def State.shardBlocks (s : State) (e : EngineId) (x : ShardEnt) : List DrainBlk :=
  let of (kind : BitVec 4) (loc : PageLoc) (i : Nat) : DrainBlk :=
    { index := 0, engine := e.val, shard := x.shard, loc := loc, kind := kind, objIndex := i }
  let ver := match s.eng[e.val].current x.shard with
    | some (_, y) =>
      (y.mapPages.zipIdx).map (fun (q : Nat × Nat) => of 5 (s.poolWord e q.1) q.2) ++
      ((s.mapWords e y).zipIdx).map (fun (q : Nat × Nat) => of 2 (s.poolWord e q.1) q.2)
    | none => []
  ver ++ (List.range (s.stateLen x)).map fun i => of 4 0 i

/-- Every block of the drain with its index: engines in increasing order, each its shards in increasing identifier. -/
def State.drainBlocks (s : State) : List DrainBlk :=
  let all := s.stages.flatMap fun e => (s.ownedOf e).flatMap fun x => s.shardBlocks e x
  (all.zipIdx).map fun (b : DrainBlk × Nat) => { b.1 with index := b.2 }

def State.isTaken (s : State) (x : ShardEnt) : Bool := s.ckpt.takenOver.any fun y => y.1 == x.shard

/-- A shard record, its CSUM still zero (R421). -/
def State.shardRecord (s : State) (blocks : List DrainBlk) (cut : StepNo) (x : ShardEnt) : List Byte :=
  let e : EngineId := Fin.ofNat 128 x.engine
  let own := s.owns x
  let cur := ((s.eng[e.val].current x.shard).map (·.2)).getD LedgerEntry.empty
  let mine := blocks.filter fun b => b.shard == x.shard && b.engine == e.val
  let flags : Nat := (if own then 1 else 0) + (if x.comp then 2 else 0) + (if x.frozen then 4 else 0) +
    (if s.isTaken x then 8 else 0)
  toBytes x.shard 4 ++ toBytes (s.ownerOf x) 2 ++ [BitVec.ofNat 8 flags, 0] ++ toBytes cur.version 6 ++ [0, 0] ++
  toBytes (if own then cur.mapHallmark else cur.ownerMap) 4 ++ toBytes (BitVec.ofNat 32 (if own then s.stateLen x else 0)) 4 ++
  toBytes (BitVec.ofNat 32 (if own then (mine.head?.map (·.index)).getD 0 else 0)) 4 ++
  toBytes (BitVec.ofNat 32 mine.length) 4 ++ List.replicate 8 0 ++ toBytes cut 6 ++ [0, 0]

def mbLt (a b : StepNo × W16) : Bool :=
  decide (a.1.toNat < b.1.toNat) || (a.1 == b.1 && decide (a.2.toNat ≤ b.2.toNat))

/-- Micro-batches in any float, sorted and without duplicates. -/
def State.floatMbs (s : State) : List (StepNo × W16) :=
  ((s.eng.toList.flatMap fun e => e.float.map fun f => (f.origin, f.mb)).mergeSort mbLt).eraseDups

/-- The mark at one engine: ESCROW on every CURRENT entry, every owned state page marked, the escrow area free. -/
def State.markEng (s : State) (c : CkptSec) (e : EngineId) : State :=
  let marks := (s.ownedOf e).flatMap fun x => (List.range (s.stateLen x)).map fun i => (x.shard, i)
  let area := c.escrow.getD e.val (0, 0)
  let (ctl, page) := pageOf e area.1
  let s := s.modLed e fun l => { l with
    entries := l.entries.map fun y => if y.2.state == .current then (y.1, { y.2 with escrow := true }) else y }
  s.modEng e fun x => { x with
    esc := { x.esc with
      marked := marks, copies := [], freePages := (List.range area.2).map fun k => locOf ctl (page + k) } }

/-- The escrow mark at a cut: the counterfoil's values taken, the slot's commit record zeroed, the drain under way. -/
def State.escrowMark (s : State) (cut : StepNo) (planeNext : Fin 2) : State :=
  match s.ckptSec with
  | none => s
  | some c =>
    let slot := s.freeCkptSlot
    let blocks := s.drainBlocks
    let d : Drain :=
      { cut := cut, slot := slot, planeClosed := s.job.planeClosed, planeNext := planeNext, exp := s.upd.exp,
        clean := s.upd.cleanRun, skip := s.upd.skipRun, updates := s.upd.updates, skips := s.upd.skips
        live := s.ckpt.liveMap, liveCount := s.ckpt.live, left := blocks, total := blocks.length
        records := s.shardEnts.map (s.shardRecord blocks cut), recs := [], early := [], sums := [], mbs := s.floatMbs }
    let s := s.stages.foldl (fun s e => s.markEng c e) s
    let s := s.modCkpt fun k => { k with slot := slot, cut := cut, drain := some d }
    (s.slotWrite c slot 0 (List.replicate 20480 0)).drainOn

/-! ### Holds released (R222, R425) -/

/-- ESCROW and the marks leave; the copies' pages return to the escrow area (R415). -/
def Engine.releaseEscrow (e : Engine) : Engine :=
  { e with
    led := { e.led with entries := e.led.entries.map fun y => (y.1, { y.2 with escrow := false }) }
    esc := { e.esc with marked := [], copies := [], freePages := e.esc.copies.map (·.2) ++ e.esc.freePages } }

/-- A channel without further slips: it stops at the boundary of the slip in progress (R298), and is idle with none. -/
def ChanSt.rests (c : ChanSt) : ChanSt :=
  match c.state, c.slip with
  | .running, some _ => { c with state := .stopping, buf := [] }
  | .running, none => { c with state := .idle, buf := [] }
  | _, _ => { c with buf := [] }

/-- The slip in progress has completed; a stopping channel has stopped (R298). -/
def ChanSt.slipOver (c : ChanSt) : ChanSt :=
  if c.state == .stopping then { c.ran with state := .stopped, stops := satAdd c.stops 1 } else c.ran

def Engine.modChan (e : Engine) (c : ChanId) (f : ChanSt → ChanSt) : Engine :=
  { e with dma := e.dma.set c.val (f e.dma[c.val]) }

/-- The drain ends without a commit: the holds are released and channel 5 of every engine has no slip left. -/
def State.drainFail (s : State) (st : Status) (counts : Bool) : State :=
  match s.ckpt.drain with
  | none => s
  | some _ =>
    let s := s.modAllEng fun e => e.releaseEscrow.modChan 5 ChanSt.rests
    s.modCkpt fun k => { k with
      drain := none, lastStatus := st.code, failed := if counts then satAdd k.failed 1 else k.failed }

/-- A read of channel 5 has failed: the channel has halted, the step in flight is marked, the drain fails (R301, R425). -/
def State.drainHalt (s : State) (st : Status) : State := s.drainFail st true

/-! ### Carrying blocks (R415, R418, R419) -/

/-- The checkpoint key (R445). -/
def State.ckptKey (s : State) : Option Dig256 :=
  match s.sec.jobKey, s.job.charter with
  | some k, some c => some (Config.sha3_256 (toBytes k 32 ++ [0x5A, 0x43, 0x2D, 0x43, 0x4B, 0x50, 0x54] ++ toBytes c.jobId 8))
  | _, _ => none

def ckptNonce (cut : StepNo) (m : BitVec 12) (i : Nat) : BitVec 96 :=
  BitVec.ofNat 96 (cut.toNat <<< 48 ||| m.toNat <<< 32 ||| i % 2 ^ 32)

/-- A block's bytes and sideband where they stand: its escrow copy, its state page or its pool page. -/
def State.drainSource (s : State) (b : DrainBlk) : Except Status (List Byte × Sideband) × State :=
  let e : EngineId := Fin.ofNat 128 b.engine
  let page (s : State) (c : CtlId) (q : Nat) : Except Status (List Byte × Sideband) × State :=
    s.chanRead e 5 c q ReadMet.none noMb
  if b.kind = 4 then
    match s.eng[e.val].esc.copies.find? fun y => y.1 == (b.shard, b.objIndex) with
    | some y =>
      let (c, q) := pageOf e y.2
      page s c q
    | none =>
      match s.shardEnt b.shard with
      | none => (.error .stateConflict, s)
      | some x =>
        if x.tier = 2 then
          s.readState e x b.objIndex ReadMet.none
        else
          let (c, q) := pageOf e x.state
          page s c (q + s.stateBase x + b.objIndex)
  else
    let (c, q) := pageOf e b.loc
    page s c q

def State.modDrain (s : State) (f : Drain → Drain) : State := s.modCkpt fun k => { k with drain := k.drain.map f }

/-- A block written to its place with its record; its checksum follows in block order. -/
def State.putBlock (s : State) (c : CkptSec) (d : Drain) (b : DrainBlk) (data : List Byte) (x : Sideband) : State :=
  let (bytes, side, tag) : List Byte × Sideband × BitVec 128 := match (if s.sealedJob then s.ckptKey else none) with
    | none => (data, x, 0)
    | some k =>
      let enc (aad : List Byte) := Config.gcmSeal k (ckptNonce d.cut s.ownModule b.index) aad data
      let y : Sideband := { x with w0 := put (crc32c (enc []).1).toNat 32 ||| put (fld x.w0 31 0) 0 }
      ((enc y.bytes).1, y, (enc y.bytes).2)
  let r := side.bytes ++ toBytes tag 16 ++ List.replicate 16 0
  let s := s.slotWrite c d.slot (c.dataOff + b.index * 4096) bytes
  let s := if c.toPeer then s else s.slotWrite c d.slot (0x0100_0000 + 64 * b.index) r
  let s := s.modDrain fun d => { d with recs := (b.index, r) :: d.recs, early := (b.index, bytes) :: d.early }
  s.modEng (Fin.ofNat 128 b.engine) fun e => { e with esc := { e.esc with drained := wrapAdd e.esc.drained 1 } }

/-- What carrying a block frees: a marked page's mark, an escrow page. -/
def State.blockCarried (s : State) (b : DrainBlk) : State :=
  if b.kind = 4 then
    s.modEng (Fin.ofNat 128 b.engine) fun e => { e with
      esc := { e.esc with
        marked := e.esc.marked.erase (b.shard, b.objIndex)
        freePages := match e.esc.copies.find? fun y => y.1 == (b.shard, b.objIndex) with
          | some y => y.2 :: e.esc.freePages
          | none => e.esc.freePages
        copies := e.esc.copies.filter fun y => y.1 != (b.shard, b.objIndex) } }
  else s

/-- One block carried out of order, for an update that waits (R415). -/
def State.carryEarly (s : State) (b : DrainBlk) : State :=
  match s.ckptSec, s.ckpt.drain with
  | some c, some d =>
    match s.drainSource b with
    | (.error st, s) => s.drainHalt st
    | (.ok (data, x), s) => (s.putBlock c d b data x).blockCarried b
  | _, _ => s

/-- The next block of a chain: carried unless it has been, its bytes into the shard's checksum. -/
def State.carryNext (s : State) (b : DrainBlk) : State :=
  let s := match s.ckpt.drain with
    | some d => if d.early.any fun y => y.1 == b.index then s else s.carryEarly b
    | none => s
  s.modDrain fun d =>
    let bytes := lookupD d.early b.index []
    let old := lookupD d.sums b.shard (0, 0)
    { d with
      left := d.left.filter fun y => y.index != b.index
      early := assocDel d.early b.index
      sums := assocSet d.sums b.shard (crcMore old.1 bytes, old.2 + bytes.length) }

/-- ESCROW leaves the entries of a shard whose pages and map the drain has carried (R222). -/
def State.escrowEntry (s : State) (e : EngineId) (h : BitVec 24) : State :=
  s.modLed e fun l => { l with
    entries := l.entries.map fun y => if y.2.shard == h then (y.1, { y.2 with escrow := false }) else y }

/-- A drain slip of an engine completes: the blocks left of its first shard are carried; a stopping channel stops, another
takes up the next slip. The slip of a drain that has ended runs out (R298). -/
def State.drainSlip (s : State) (e : EngineId) : State :=
  let runsOut (s : State) : State := (s.modChan e 5 ChanSt.slipOver).drainNext e
  match s.ckpt.drain.bind fun d => (d.left.find? fun b => b.engine == e.val).map fun f => (d, f) with
  | none => runsOut s
  | some (d, f) =>
    let mine := d.left.filter fun b => b.engine == e.val && b.shard == f.shard
    let s := (mine.foldl (fun s b => s.carryNext b) s).escrowEntry e f.shard
    if s.ckpt.drain.isNone then s else runsOut s

/-- A state page written through escrow: the page of the cut is first copied with its sideband to the lowest free escrow
page, or carried at once where no escrow page is free (R415). -/
def State.putState (s : State) (e : EngineId) (x : ShardEnt) (page : Nat) (version : StepNo) (data : List Byte)
    (old : List Byte × Sideband) : State :=
  let key := (x.shard, page)
  let esc := s.eng[e.val].esc
  let s :=
    if !(esc.marked.contains key) || esc.copies.any (fun y => y.1 == key) then s
    else
      match (esc.freePages.mergeSort fun a b => decide (a.toNat ≤ b.toNat)) with
      | loc :: _ =>
        let (c, q) := pageOf e loc
        let s := s.chanWrite e 3 c q old.1 old.2
        s.modEng e fun y => { y with
          esc := { y.esc with copies := (key, loc) :: y.esc.copies, freePages := y.esc.freePages.erase loc } }
      | [] =>
        match s.ckpt.drain.bind fun d => d.left.find? fun b => b.kind == 4 && b.shard == x.shard && b.objIndex == page with
        | some b => s.carryEarly b
        | none => s
  s.writeState e x page version data

/-! ### Counterfoil and commit (R420 to R423, R441) -/

/-- SHAPE_DIGEST of a live map. -/
def Charter.shape (c : Charter) (live : BitVec 1024) (count : Nat) : Dig512 :=
  if count = c.replicaCount then c.jobSetDigest else Config.sha3_512 (toBytes c.jobSetDigest 64 ++ toBytes live 128)

/-- A shard record with its checksum word. -/
def withCsum (sums : List (BitVec 24 × W32 × Nat)) (r : List Byte) : List Byte :=
  let x : W32 × Nat := match sums.find? fun y => y.1 == rdW 24 r 0 with
    | some y => y.2
    | none => (0, 0)
  r.take 0x20 ++ toBytes (put x.1.toNat 32 ||| put (x.2 % 2 ^ 32) 0) 8 ++ r.drop 0x28

def State.counterfoil (s : State) (c : Charter) (d : Drain) : List Byte :=
  pad (toBytes (0x5A43_4346 : W32) 4 ++ toBytes (1 : W16) 2 ++ [if c.sealed then 1 else 0, 0] ++ toBytes c.jobId 8 ++
    toBytes d.cut 6 ++ toBytes s.ownModule 2 ++ toBytes c.jobSetDigest 64 ++ toBytes (c.shape d.live d.liveCount) 64 ++
    [BitVec.ofNat 8 d.planeClosed.val, BitVec.ofNat 8 d.planeNext.val, ofInt 8 d.exp, 0] ++ toBytes d.clean 4 ++
    toBytes d.skip 2 ++ toBytes (BitVec.ofNat 16 d.liveCount) 2 ++ toBytes d.updates 6 ++ toBytes d.skips 6 ++
    toBytes (BitVec.ofNat 32 d.records.length) 4 ++ toBytes (BitVec.ofNat 32 d.mbs.length) 4 ++
    toBytes (BitVec.ofNat 32 d.total) 4 ++ List.replicate 4 0 ++ toBytes d.live 128) 512 ++
  (d.records.map (withCsum d.sums)).flatten ++
  d.mbs.flatMap fun m => toBytes m.1 6 ++ toBytes m.2 2

/-- The signature block of R32 over the bytes before it. -/
def signBlock (bs : List Byte) : List Byte :=
  pad (toBytes (0x87 : W32) 4 ++ deviceSign (Config.sha3_512 bs)) 8192

def State.commitRecord (s : State) (c : Charter) (d : Drain) (cf : List Byte) : List Byte :=
  let head := pad (toBytes (0x5A43_434D : W32) 4 ++ toBytes (1 : W16) 2 ++ [BitVec.ofNat 8 d.slot.val, 0] ++
    toBytes c.jobId 8 ++ toBytes d.cut 6 ++ toBytes s.ownModule 2 ++ toBytes (BitVec.ofNat 64 cf.length) 8 ++
    toBytes (Config.sha3_512 cf) 64) 0x1000 ++ pad s.sec.store.cert 8192
  head ++ signBlock head

/-- Whole pages of block records, for a storage peer. -/
def recordPages (d : Drain) : List Byte := (List.range d.total).flatMap fun i => lookupD d.recs i (List.replicate 64 0)

/-- CHECKPOINT_COMMIT: every drain slip has completed; counterfoil, then commit record, then the day book. While the
bursar is in reset it waits (R492). -/
def checkpointCommit (s : State) : State :=
  match s.ckptSec, s.job.charter, s.ckpt.drain with
  | some c, some ch, some d =>
    if d.left.isEmpty ∧ s.glb.bursarUp = true then
      let cf := s.counterfoil ch d
      let s := if c.toPeer then s.slotWrite c d.slot 0x0100_0000 (recordPages d) else s
      let s := s.slotWrite c d.slot 0x8000 cf
      let s := s.slotWrite c d.slot 0 (s.commitRecord ch d cf)
      let s := s.modAllEng Engine.releaseEscrow
      let s := s.modCkpt fun k => { k with
        drain := none, lastStatus := 0, committed := wrapAdd k.committed 1
        older := k.newest, newest := some { slot := d.slot, cut := d.cut } }
      s.dbModule .ok clsEvent 0 (Config.sha3_512 cf)
    else s
  | _, _, _ => s

def execCheckpointCommit (s : State) : Res := .next (checkpointCommit s)

end Sys2Proof.Machine
end

