-- ==== Sys2Proof/Machine/Update.lean ====
section
/-! DEFINITION. The update of a step: partial norms, the verdict and the loss scale, recipes, writing and mirroring of
state, live maps (08 R232 to R249, R256; 11 R337; 14 R432, R437). -/

namespace Sys2Proof.Machine

/-! ### Curves of a plane (R50) -/

/-- The curve with a CURVE_ID in a plane. -/
def State.curveOf (s : State) (plane id : Nat) : Option Curve :=
  match s.job.charter with
  | some c => match c.plane[plane]? with
    | some p => p.curves.find? fun q => q.id == id
    | none => none
  | none => none

/-- y(id, x) of R242, an integer; 0 for the identifier 0xFF. -/
def State.runCurve (s : State) (id x : Nat) : Int :=
  if id = 0xFF then 0
  else match s.curveOf s.job.plane.val id with
    | some c => numInt (c.y x)
    | none => 0

/-! ### The norm root (R240, R337) -/

def State.moduleLost (s : State) (m : BitVec 12) : Bool :=
  match s.peerOf m with
  | some i => (s.peer i).state == 4
  | none => false

/-- The module that forms the verdict: NORM_ROOT, or NORM_ALT once NORM_ROOT is declared lost. -/
def State.rootModule (s : State) : BitVec 12 :=
  match s.shardsSec with
  | some x => if s.moduleLost x.normRoot then x.normAlt else x.normRoot
  | none => 0

def State.isRoot (s : State) : Bool := s.rootModule == s.ownModule

def State.verdictOf (s : State) (step : StepNo) : Option Verdict := s.upd.verdicts.find? fun v => v.step == step

/-- e of a step that has not been reached yet is the one that the verdict before it gives. -/
def State.expFor (s : State) (step : StepNo) : Int :=
  match s.verdictOf (step - 1) with
  | some v => toInt 8 v.eNext.toNat
  | none => s.expAt step

/-- Peers below this module on the way of verdicts. -/
def State.verdictPeers (s : State) (flag : PeerEnt → Bool) : List Nat :=
  match s.peersSec with
  | some p => (p.entries.zipIdx).filterMap fun (x : PeerEnt × Nat) => if flag x.1 then some x.2 else none
  | none => []

/-- Those that the root sends to: its verdict children; NORM_ALT sends to the root's, and to its own. -/
def State.rootPeers (s : State) : List Nat :=
  let own := s.verdictPeers (·.verdictChild)
  match s.shardsSec with
  | some x => if x.normRoot = s.ownModule then own
    else own ++ (s.verdictPeers (·.rootChild)).filter fun i => !(own.contains i)
  | none => own

def verdictBytes (v : Verdict) : List Byte :=
  pad ([0x02, if v.skip then 1 else 0, v.eNext, 0, 0, 0, 0, 0] ++ toBytes v.step 6 ++ [0, 0] ++ toBytes v.q 8 ++
    toBytes v.gamma 4) 256

def liveBytes (count : Nat) (step : StepNo) (map : BitVec 1024) : List Byte :=
  pad ([0x04, 0] ++ toBytes (BitVec.ofNat 16 count) 2 ++ [0, 0, 0, 0] ++ toBytes step 6 ++ [0, 0] ++ toBytes map 128) 256

def partialBytes (p : Partial) : List Byte :=
  pad ([0x01, 0, p.attempt, 0] ++ toBytes p.shard 4 ++ toBytes p.step 6 ++ [0, 0] ++ toBytes p.p 8) 256

def lossBytes (replica : Nat) (step : StepNo) : List Byte :=
  pad ([0x03, 0] ++ toBytes (BitVec.ofNat 16 replica) 2 ++ [0, 0, 0, 0] ++ toBytes step 6) 256

def State.sendNorms (s : State) (l : List Nat) (bytes : List Byte) : State :=
  l.foldl (fun s i => s.sendNorm i bytes) s

/-! ### Fetches (R252) -/

/-- A REQ number that no fetch of the engine uses. -/
def EngLed.newReq (l : EngLed) : Byte :=
  match (List.range 255).find? fun k => !(l.fetches.any fun f => f.req == BitVec.ofNat 8 (k + 1)) with
  | some k => BitVec.ofNat 8 (k + 1)
  | none => 1

/-- The request frame of a fetch to the shard's owner; a fetch that needs a peer not yet admitted waits (R322). -/
def State.askFetch (s : State) (e : EngineId) (x : ShardEnt) (f : Fetch) (first count : Nat) : State :=
  match s.peerOf (s.ownerOf x) with
  | none => s
  | some i =>
    if s.admitted i = false ∧ (s.peer i).state ≠ 4 then
      s.modLed e fun l => { l with
        fetches := l.fetches.map fun y => if y.shard == f.shard && y.req == f.req then { y with waiting := true } else y }
    else
      s.sendRequest i 0x01
        { peer := i, req := f.req, engine := e, chan := 4, object := BitVec.ofNat 64 x.shard.toNat, version := f.version
          first := BitVec.ofNat 32 first, count := BitVec.ofNat 32 count, status := .ok }

/-- A fetch of a version begins. -/
def State.startFetch (s : State) (e : EngineId) (x : ShardEnt) (version : StepNo) (restore : Bool) : State :=
  if s.eng[e.val].led.fetches.any fun f => f.shard == x.shard && f.version == version then s
  else
    let f : Fetch :=
      { shard := x.shard, version := version, req := s.eng[e.val].led.newReq, entry := none, restore := restore
        waiting := false, held := false, gotPages := [], failed := [], maps := [] }
    (s.modLed e fun l => { l with fetches := l.fetches ++ [f] }).askFetch e x f 0 (s.shardPages x)

/-- Every shard held and not owned is due the version of a step whose verdict is not a skip. -/
def State.fetchDue (s : State) (step : StepNo) : State :=
  s.stages.foldl (fun s e => (s.shardsOf e).foldl (fun s x =>
    if x.frozen || s.owns x then s else s.startFetch e x step false) s) s

/-! ### The verdict (R240 to R242) -/

/-- A verdict that comes after the boundary of its step, as one may at a module that ran no UPDATE in it: the newest version due
moves with it, and the exponent where it is that of the step in progress (R234, R254; log entry 187). -/
def State.lateVerdict (s : State) (v : Verdict) : State :=
  if s.job.step.toNat < v.step.toNat then s
  else s.modUpd fun u => { u with
    exp := if v.step = s.job.step then toInt 8 v.eNext.toNat else u.exp
    due := if v.skip = false ∧ u.due.toNat < v.step.toNat then v.step else u.due
    updates := if v.skip then u.updates else wrapAdd u.updates 1 }

/-- A verdict received: registers, counts, forwarding, fetches. It is final. -/
def State.takeVerdict (s : State) (v : Verdict) (clipped : Bool) (peers : List Nat) : State :=
  let s := s.modUpd fun u => { u with
    vStep := v.step, vStatus := if v.skip then Status.normSkipped.code else 0, vClipped := clipped, vValid := true
    q := v.q, gamma := v.gamma, eNext := toInt 8 v.eNext.toNat, verdicts := v :: u.verdicts
    skips := if v.skip then wrapAdd u.skips 1 else u.skips }
  let s := s.lateVerdict v
  let s := s.sendNorms peers (verdictBytes v)
  if v.skip then s else s.fetchDue v.step

/-- κ is below 1.0, as γ shows it at a module that has not formed the verdict: γ × S × GLOBAL_MB < 1 (log entry 30). -/
def State.clippedBy (s : State) (v : Verdict) : Bool :=
  match s.shardsSec with
  | some x =>
    let d : Num := .fin false x.globalMb (s.expFor v.step)
    !v.skip && v.gamma != toF32 ((dFp32 true).result false (fp64r (numDiv numOne d))).val
  | none => false

/-- The verdict of a step from its partials. -/
def formVerdict (x : Shards) (e : Int) (eNext : Int) (ps : List Partial) (step : StepNo) : Verdict × Bool :=
  let sorted := ps.mergeSort fun a b => decide (a.shard.toNat ≤ b.shard.toNat)
  let q := sorted.foldl (fun (a : Num) p => fp64r (numAdd a (f64 p.p))) (.fin false 0 0)
  let d : Num := .fin false x.globalMb e
  let norm := fp64r (numDiv (fp64r (numSqrt q)) d)
  let finite := match q with
    | .fin _ _ _ => true
    | _ => false
  let skip := !finite || (!(f32 x.normLimit).isZero && numLt (f32 x.normLimit) norm)
  let clips := !skip && !(f32 x.clip).isZero && numLt (f32 x.clip) norm
  let kappa := if clips then fp64r (numDiv (f32 x.clip) norm) else numOne
  let gamma := toF32 ((dFp32 true).result false (fp64r (numDiv kappa d))).val
  ({ step := step, skip := skip, eNext := ofInt 8 eNext, q := toF64 q, gamma := gamma }, numLt kappa numOne)

/-- c, k and e of R242 after a verdict. -/
def State.nextRuns (s : State) (x : Shards) (e : Int) (skip : Bool) : BitVec 24 × W16 × Int :=
  let clamp (i : Int) : Int := max x.lsMin (min x.lsMax i)
  if skip then
    let k := satAdd s.upd.skipRun 1
    (0, k, clamp (e + s.runCurve x.lsFall k.toNat))
  else
    let c := satAdd s.upd.cleanRun 1
    let y := s.runCurve x.lsGrow c.toNat
    if y = 0 then (c, 0, clamp e) else (0, 0, clamp (e + y))

/-- The root holds NORM_PARTIALS partials of a step: it forms the verdict and sends it, a changed live map before it. -/
def State.tryVerdict (s : State) (step : StepNo) : State :=
  match s.shardsSec with
  | none => s
  | some x =>
    let ps := s.upd.partials.filter fun p => p.step == step
    if s.isRoot = false ∨ (s.verdictOf step).isSome = true ∨ ps.length < x.normPartials then s
    else
      let e := s.expFor step
      let skip := (formVerdict x e 0 ps step).1.skip
      let (c, k, n) := s.nextRuns x e skip
      let (v, clips) := formVerdict x e n ps step
      let s := s.modUpd fun u => { u with
        cleanRun := c, skipRun := k, partials := u.partials.filter fun p => p.step != step }
      let s := match s.ckpt.rootMap with
        | some m =>
          let count := ((List.range 1024).filter fun i => bitAt m i).length
          (s.modCkpt fun y => { y with rootMap := none, liveNext := y.liveNext ++ [(step, count, m)] }).sendNorms s.rootPeers
            (liveBytes count step m)
        | none => s
      let s := s.takeVerdict v clips s.rootPeers
      if skip then s.post (islClr 0) clsEvent .normSkipped noMb (rec0 0) else s

/-- A partial at the root: a higher attempt replaces an earlier one, and none counts after the verdict. -/
def State.takePartial (s : State) (p : Partial) : State :=
  if s.isRoot = false ∨ (s.verdictOf p.step).isSome = true then s
  else
    let old := s.upd.partials.find? fun y => y.step == p.step && y.shard == p.shard
    let stands := match old with
      | some y => decide (p.attempt.toNat ≤ y.attempt.toNat)
      | none => false
    if stands then s
    else
      let s := s.modUpd fun u => { u with
        partials := p :: u.partials.filter fun y => !(y.step == p.step && y.shard == p.shard) }
      s.tryVerdict p.step

/-- Norm traffic of a peer that is not admitted is dropped and counted (R29, R322). -/
def State.fromPeer (s : State) (peer : Nat) (f : State → State) : State :=
  if s.admitted peer then f s else s.dropUnadmitted peer

def execNormPartial (peer : Nat) (shard : BitVec 24) (step : StepNo) (attempt : Byte) (p : W64) (s : State) : Res :=
  .next (s.fromPeer peer fun s => s.takePartial { shard := shard, step := step, attempt := attempt, p := p })

/-- NORM_VERDICT: recorded once, and forwarded once to the module's own verdict children. -/
def execNormVerdict (peer : Nat) (v : Verdict) (s : State) : Res :=
  .next (s.fromPeer peer fun s => if (s.verdictOf v.step).isSome then s else s.takeVerdict v (s.clippedBy v) (s.verdictPeers (·.verdictChild)))

/-- LOSS: the root and its alternate clear the replica's bit. -/
def loss (replica : W16) (s : State) : State :=
  match s.shardsSec with
  | none => s
  | some x =>
    let m := s.ckpt.rootMap.getD ((s.ckpt.liveNext.getLast?.map (·.2.2)).getD s.ckpt.liveMap)
    if (x.normRoot == s.ownModule || x.normAlt == s.ownModule) && bitAt m replica.toNat then
      s.modCkpt fun k => { k with rootMap := some (setBit m replica.toNat false) }
    else s

def execLoss (peer : Nat) (replica : W16) (_step : StepNo) (s : State) : Res := .next (s.fromPeer peer (loss replica))

/-- LIVE: the map waits for the start of the next step, and is forwarded once before the verdict. -/
def live (count : W16) (step : StepNo) (map : BitVec 1024) (s : State) : State :=
  if s.upd.liveForwarded = some step then s
  else
    let s := s.modCkpt fun k => { k with
      liveNext := k.liveNext ++ [(step, count.toNat, map)]
      rootMap := match k.rootMap with
        | some r => if map &&& r = map then none else some (map &&& r)
        | none => none }
    (s.modUpd fun u => { u with liveForwarded := some step }).sendNorms (s.verdictPeers (·.verdictChild))
      (liveBytes count.toNat step map)

def execLive (peer : Nat) (count : W16) (step : StepNo) (map : BitVec 1024) (s : State) : Res :=
  .next (s.fromPeer peer (live count step map))

/-! ### Phase 1 (R238, R239) -/

/-- The vault pages of a shard's homes on its engine, as far as they are touched: what the engine's vector unit reads there
(R145, R239). -/
def State.homePages (s : State) (x : ShardEnt) : List (CtlId × Nat) :=
  ((s.paramsOf x).filterMap fun p => s.homeRec x.engine p.paramId).flatMap fun h =>
    (List.range h.bands).filterMap fun b =>
      if b < h.accBands ∨ s.isTouched h.eng h.paramId b = false then none else some (h.place h.eng b)

/-- The homes of a shard read by its update: an uncorrectable codeword stops the unit and marks the step, as it does a vector
program (R185, R280; log entry 175). -/
def State.homesIn (s : State) (e : EngineId) (x : ShardEnt) : Bool × State :=
  let r := s.pagesIn (s.homePages x) (s.byEng e 0xFF noMb)
  if r.1 then r else (false, r.2.mark (islEngine e) .uncorrectable)

/-- The home of a parameter on the shard's engine. -/
def State.homeVal (s : State) (x : ShardEnt) (p : ParamRec) (i : Nat) : Num :=
  match s.homeRec x.engine p.paramId with
  | some h => f32 (s.homeElem (Fin.ofNat 128 x.engine) h (i % max 1 p.n) (i / max 1 p.n))
  | none => .fin false 0 0

/-- A register of 256 lanes squared and summed by the lane tree, then added to the positions before it. -/
def normPos (d : Denom) (acc : Option Num × ExcCnt) (lanes : List Num) : Option Num × ExcCnt :=
  let sq := lanes.map fun x => RedOp.ssq.bring d x
  let cnt := sq.foldl (fun c x => excCount c x.exc) acc.2
  let r := redTree (RedOp.join .ssq d) 9 (sq.map fun x => some x.val)
  match r.1, acc.1 with
  | none, _ => acc
  | some y, none => (some y, excCount cnt r.2)
  | some y, some a =>
    let o := RedOp.join .ssq d a y
    (some o.val, excCount cnt (r.2.or o.exc))

/-- p_h: parameters in record order, each from a position of its own (log entry 31). -/
def State.partialNorm (s : State) (x : ShardEnt) : Num × ExcCnt :=
  let r := (s.paramsOf x).foldl (fun (a : Option Num × ExcCnt) p =>
    (List.range (ceilDiv p.elems 256)).foldl (fun (a : Option Num × ExcCnt) k =>
      normPos s.fp64 a ((List.range (min 256 (p.elems - k * 256))).map fun i => s.homeVal x p (k * 256 + i))) a)
    (none, ExcCnt.init)
  (r.1.getD (.fin false 0 0), r.2)

/-- A partial goes to the root; a later sending of the same step has a higher attempt number, the first has 1 (log entry
32). -/
def State.sendPartial (s : State) (shard : BitVec 24) (p : W64) : State :=
  let step := s.curStep
  let old := (s.upd.sent.filter fun y => y.step == step && y.shard == shard).foldl (fun n y => max n y.attempt.toNat) 0
  let x : Partial := { shard := shard, step := step, attempt := BitVec.ofNat 8 (old + 1), p := p }
  let s := s.modUpd fun u => { u with sent := x :: u.sent.filter fun y => !(y.step == step && y.shard == shard) }
  if s.isRoot then s.takePartial x
  else match s.peerOf s.rootModule with
    | some i => s.sendNorm i (partialBytes x)
    | none => s

def modFirstItem (p : UpdItem → Bool) (f : UpdItem → UpdItem) (l : EngLed) : EngLed := { l with upd := modFirst p f l.upd }

def UpdItem.done (i : UpdItem) : Bool := i.phase1.isEmpty && i.phase2.isEmpty && i.mirroring.isEmpty

/-- UPDATE_PHASE1: the next shard of the engine's queued work, once clearing has delivered its gradient. -/
def updatePhase1 (e : EngineId) (shard : BitVec 24) (s : State) : State :=
  match s.eng[e.val].led.upd.find? fun i => !i.phase1.isEmpty, s.shardEnt shard with
  | some i, some x =>
    if i.phase1.head? ≠ some shard then s
    else
      let s := s.modLed e fun l => { l with updShard := shard, updPhase := 1 }
      if s.cleared x = false then s
      else
        match s.homesIn e x with
        | (false, s) => s
        | (true, s) =>
          let (p, cnt) := s.partialNorm x
          let s := s.modVec e fun v => v.tally cnt
          let s := s.modLed e fun l => modFirstItem (fun i => !i.phase1.isEmpty)
            (fun i => { i with phase1 := i.phase1.drop 1 }) { l with updPhase := 2 }
          if (s.verdictOf s.curStep).isSome then s else s.sendPartial shard (toF64 p)
  | _, _ => s

def execUpdatePhase1 (e : EngineId) (shard : BitVec 24) (s : State) : Res := .next (updatePhase1 e shard s)

/-! ### Recipes (R243 to R245) -/

/-- The values of one update of a shard. -/
structure UpdCtx where
  d : Denom
  d64 : Denom
  algo : Nat
  nesterov : Bool
  b1 : Num
  b2 : Num
  ob1 : Num
  ob2 : Num
  eps : Num
  wd : Num
  lr : Num
  rc1 : Num
  rc2 : Num
  gamma : Num

/-- β^t along the bits of t, most significant first. -/
def powBits (b : Num) : List Bool → Num → Num
  | [], r => r
  | x :: l, r =>
    let r := fp64r (numMul r r)
    powBits b l (if x then fp64r (numMul r b) else r)

def bitsDown (t : Nat) : List Bool := ((List.range (Nat.log2 t + 1)).map fun i => t.testBit i).reverse

/-- 1 / (1 − β^t), rounded to FP32. -/
def biasRecip (d : Denom) (b : Num) (t : Nat) : Num :=
  (d.result false (fp64r (numDiv numOne (fp64r (numAdd numOne (numNeg (powBits b (bitsDown t) numOne))))))).val

def updCtx (s : State) (q : Recipe) (plane : Nat) (gamma : W32) : UpdCtx :=
  let d := s.fp32
  let y := match s.curveOf plane q.lrCurve with
    | some c => c.y s.curStep.toNat
    | none => .fin false 0 0
  let t := s.upd.updates.toNat + 1
  let one (b : W32) : Num := (d.done false (numAdd numOne (numNeg (f32 b)))).val
  { d := d, d64 := s.fp64, algo := q.algo, nesterov := q.nesterov, b1 := f32 q.beta1, b2 := f32 q.beta2
    ob1 := one q.beta1, ob2 := one q.beta2, eps := f32 q.eps, wd := f32 q.wd
    lr := (d.result false (fp64r (numMul (f32 q.lrMult) y))).val
    rc1 := if q.biasCorr then biasRecip d (f32 q.beta1) t else numOne
    rc2 := if q.biasCorr then biasRecip d (f32 q.beta2) t else numOne
    gamma := f32 gamma }

def fmaOut (d : Denom) (x y z : Num) : Out :=
  let p := numMul x y
  if z.isNan then outNan false else if p.2 then outNan true else d.done false (numAdd p.1 z)

def rcpOut (d : Denom) (x : Num) : Out :=
  if x.isZero then d.overflow (numNegative x) else d.done false (numDiv numOne x)

/-- One element: master, compensation, moments. -/
structure UpdElem where
  w : Num
  c : Int
  m : Num
  v : Num

/-- The new moments and δ of an element (R244). -/
def UpdCtx.step (u : UpdCtx) (h : Num) (x : UpdElem) : Num × Num × Num × Exc :=
  let mul (a b : Num) : Out := u.d.done false (numMul a b)
  let add (a b : Num) : Out := u.d.done false (numAdd a b)
  let g := mul h u.gamma
  if u.algo = 1 then
    let q := fmaOut u.d u.wd x.w g.val
    let r := mul u.lr q.val
    (x.m, x.v, numNeg r.val, (g.exc.or q.exc).or r.exc)
  else if u.algo = 2 then
    let m := fmaOut u.d u.b1 x.m g.val
    let n := fmaOut u.d u.b1 m.val g.val
    let q := fmaOut u.d u.wd x.w (if u.nesterov then n.val else m.val)
    let r := mul u.lr q.val
    let ex := (g.exc.or m.exc).or (q.exc.or r.exc)
    (m.val, x.v, numNeg r.val, if u.nesterov then ex.or n.exc else ex)
  else
    let bg := mul u.ob1 g.val
    let m := fmaOut u.d u.b1 x.m bg.val
    let gg := mul g.val g.val
    let bgg := mul u.ob2 gg.val
    let v := fmaOut u.d u.b2 x.v bgg.val
    let mr := mul m.val u.rc1
    let vr := mul v.val u.rc2
    let sq := u.d.done false (numSqrt vr.val)
    let de := add sq.val u.eps
    let rc := rcpOut u.d de.val
    let z := mul mr.val rc.val
    let q := fmaOut u.d u.wd x.w z.val
    let r := mul u.lr q.val
    (m.val, v.val, numNeg r.val,
      [g, bg, m, gg, bgg, v, mr, vr, sq, de, rc, z, q, r].foldl (fun a (o : Out) => a.or o.exc) Exc.none)

/-- The exponent of R245, at least −126. -/
def masterExp (x : Num) : Int :=
  match x with
  | .fin _ m e => if m = 0 then -126 else max (magExp m e) (-126)
  | _ => -126

def Num.finite : Num → Bool
  | .fin _ _ _ => true
  | _ => false

/-- The new master and compensation (R245). -/
def UpdCtx.master (u : UpdCtx) (comp : Bool) (w : Num) (c : Int) (delta : Num) : Num × Int × Exc :=
  if comp = false ∨ w.finite = false ∨ delta.finite = false then
    let o := u.d.done false (numAdd w delta)
    (o.val, 0, o.exc)
  else
    let y0 := (numAdd w (numScale (numOfInt c) (masterExp w - 39))).1
    let y := (u.d64.done false (numAdd y0 delta)).val
    let o := u.d.result false y
    if o.val.finite = false ∨ o.exc.ovf = true then (o.val, 0, o.exc)
    else
      match (numAdd y (numNeg o.val)).1 with
      | .fin neg m e =>
        let k := roundUnit none m e (masterExp o.val - 39)
        (o.val, max (-32767) (min 32767 (signed neg k)), o.exc)
      | _ => (o.val, 0, o.exc)

/-- One element through the recipe. -/
def UpdCtx.elem (u : UpdCtx) (comp : Bool) (h : Num) (x : UpdElem) : UpdElem × Exc :=
  let (m, v, delta, ex) := u.step h x
  let (w, c, ex2) := u.master comp x.w x.c delta
  ({ w := w, c := c, m := m, v := v }, ex.or ex2)

/-- Bytes written over the head of an array's pages. -/
def overHead (new old : List Byte) : List Byte := new ++ old.drop new.length

/-- A parameter's state: its arrays' pages in order, with the recipe applied to every element; and the elements counted by
exception. Arrays that the recipe does not use stay as they are. -/
def UpdCtx.param (u : UpdCtx) (n : Nat) (comp : Bool) (moments : Nat) (h : Nat → Num) (old : List Byte) :
    List Byte × ExcCnt :=
  let wLen := ceilDiv (n * 4) 4096 * 4096
  let cLen := if comp then ceilDiv (n * 2) 4096 * 4096 else 0
  let mOff := wLen + cLen
  let vOff := mOff + wLen
  let els := (List.range n).map fun i =>
    u.elem comp (h i)
      { w := f32 (rdW 32 old (4 * i)), c := if comp then toInt 16 (rdNat old (wLen + 2 * i) 2) else 0
        m := f32 (rdW 32 old (mOff + 4 * i)), v := f32 (rdW 32 old (vOff + 4 * i)) }
  let arr (f : UpdElem → List Byte) : List Byte := els.flatMap fun x => f x.1
  let w := overHead (arr fun x => toBytes (toF32 x.w) 4) (slice old 0 wLen)
  let c := if comp then overHead (arr fun x => toBytes (ofInt 16 x.c) 2) (slice old wLen cLen) else []
  let m := if moments = 0 then []
    else if algoMoments' < 1 then slice old mOff wLen
    else overHead (arr fun x => toBytes (toF32 x.m) 4) (slice old mOff wLen)
  let v := if moments < 2 then []
    else if algoMoments' < 2 then slice old vOff wLen
    else overHead (arr fun x => toBytes (toF32 x.v) 4) (slice old vOff wLen)
  (w ++ c ++ m ++ v, els.foldl (fun a x => excCount a x.2) ExcCnt.init)
where
  algoMoments' : Nat := algoMoments u.algo

/-! ### Phase 2 (R238, R241, R247 to R249, R256, R282) -/

/-- The peer that mirrors an owned shard: none where there is no mirror, or it has been declared lost. -/
def State.mirrorPeer (s : State) (x : ShardEnt) : Option Nat :=
  if x.mirror = 0xFFF ∨ s.isTaken x = true ∨ x.mirror = s.ownModule then none
  else match s.peerOf x.mirror with
    | some i => if (s.peer i).state = 4 then none else some i
    | none => none

/-- A state page of a version sent to the mirror by channel 4 (R256, R286). -/
def State.mirrorPage (s : State) (e : EngineId) (x : ShardEnt) (peer : Nat) (version : StepNo) (p : Nat × List Byte) : State :=
  let (ctl, q) := pageOf e x.state
  let s := s.chanTake e 4 (ownSlip 4096 (dramWord ctl ((q + s.stateBase x + p.1) * 4096)) (put 5 60 ||| put peer 48))
  (s.sendBlock peer 2 0 ((p.1 * 4096) <<< 48 ||| e.val <<< 41 ||| 4 <<< 38) false p.2
    (mkSide (crc32c p.2) 4 false version noMb x.shard.toNat p.1 0) .ok).modChan e 4 ChanSt.ran

/-- The state pages of a version sent to the mirror, then the commit (log entry 33). -/
def State.sendMirror (s : State) (e : EngineId) (x : ShardEnt) (peer : Nat) (version : StepNo)
    (pages : List (Nat × List Byte)) : State :=
  let s := pages.foldl (fun s (p : Nat × List Byte) => s.mirrorPage e x peer version p) s
  s.sendRequest peer 0x04
    { peer := peer, req := 0, engine := e, chan := 4, object := BitVec.ofNat 64 x.shard.toNat, version := version
      first := 0, count := BitVec.ofNat 32 pages.length, status := .ok }

/-- MSG_CTRL RESEND of a mirror page, from the mirror of an owned shard: the page of the version that is being mirrored,
again. -/
def State.mirrorResend (s : State) (peer : Nat) (h : BitVec 24) (page : Nat) : State :=
  match s.shardEnt h with
  | none => s
  | some x =>
    let e : EngineId := Fin.ofNat 128 x.engine
    let y := (s.eng[e.val].led.entries.find? fun y => y.2.shard == h && y.2.state == .building && y.2.owned).orElse
      fun _ => s.eng[e.val].current h
    match y with
    | some y =>
      if s.owns x && s.mirrorPeer x == some peer && decide (page < s.stateLen x) then
        match s.readState e x page ReadMet.none with
        | (.ok d, s) => s.mirrorPage e x peer y.2.version (page, d.1)
        | (.error _, s) => s
      else s
    | none => s

/-- Queued work that is finished leaves the engine's list. -/
def EngLed.prune (l : EngLed) : EngLed := { l with upd := l.upd.filter fun i => !i.done }

def State.endUpdate (s : State) (e : EngineId) (shard : BitVec 24) (st : Status) : State :=
  s.modLed e fun l => EngLed.prune { l with
    upd := l.upd.map fun i => { i with phase2 := i.phase2.erase shard, mirroring := i.mirroring.filter fun y => y.1 != shard }
    updPhase := 0, updLast := st.code }

/-- The entry of an update is READY and the update of the shard completes, with the events of its exceptions (R244). -/
def State.finishUpdate (s : State) (e : EngineId) (shard : BitVec 24) (st : Status) (cnt : ExcCnt) : State :=
  let s := match s.eng[e.val].led.entries.find? fun y => y.2.shard == shard && y.2.state == .building && y.2.owned with
    | some y => s.makeReady e y.1
    | none => s
  ((s.endUpdate e shard st).modLed e fun l => { l with updated := wrapAdd l.updated 1 }).updEvents e shard cnt

/-- The update of a shard that waits for its mirror completes: the mirror has answered, or has been declared lost (R256). -/
def State.mirrorDone (s : State) (e : EngineId) (shard : BitVec 24) (st : Status) : State :=
  match (s.eng[e.val].led.upd.flatMap (·.mirroring)).find? fun y => y.1 == shard with
  | some y => s.finishUpdate e shard st y.2
  | none => s

/-- A state page is uncorrectable: the step that wrote it is not undone, the job follows its FAULTS policy (R282). -/
def State.updateUe (s : State) (e : EngineId) (x : ShardEnt) : State :=
  let ev : FaultEv :=
    { cls := .unrepairable, island := islEngine e, status := .uncorrectable, record := updRec .uncorrectable x.shard e 0 s.curStep
      mb := noMb, peer := 0 }
  (s.endUpdate e x.shard .uncorrectable).raise ev

/-- The region brought by channel 3 (R247, R286); `ue` is an uncorrectable codeword met in the first page. -/
def State.readRegion (s : State) (e : EngineId) (x : ShardEnt) (ue : Bool) :
    Except Status (List (List Byte × Sideband)) × State :=
  let first := (pageOf e x.state).2 + s.stateBase x
  s.readStates e x 0 (s.stateLen x)
    (if ue then { ReadMet.none with faults := [(first * 64, .uncorrectable none)] } else ReadMet.none)

/-- The new state of a shard from its region: region pages, masters by parameter, elements by exception. -/
def State.newState (s : State) (x : ShardEnt) (u : UpdCtx) (region : List (List Byte × Sideband)) :
    List Byte × List (List Byte) × ExcCnt :=
  ((s.paramsOf x).zipIdx).foldl (fun (a : List Byte × List (List Byte) × ExcCnt) (p : ParamRec × Nat) =>
    let old := pagesBytes ((region.drop (s.stateFirst x p.2)).take
      ((statePagesOf p.1 x.comp (s.momentsOf x)).foldl (· + ·) 0))
    let r := u.param p.1.elems x.comp (s.momentsOf x) (s.homeVal x p.1) old
    (a.1 ++ r.1, a.2.1 ++ [r.1.take (p.1.elems * 4)], a.2.2.plus r.2)) ([], [], ExcCnt.init)

/-- A state page written by the step: what it held is kept for a replay (R389). -/
def State.stepPage (s : State) (e : EngineId) (x : ShardEnt) (page : Nat) (version : StepNo) (data : List Byte)
    (old : List Byte × Sideband) : State :=
  let key := (x.shard, page)
  let s :=
    if s.eng[e.val].led.undo.any fun y => y.1 == key then s
    else s.modLed e fun l => { l with undo := (key, old.2.step, old.1) :: l.undo }
  s.putState e x page version data old

def State.recipeOf (s : State) (i : UpdItem) : Option Recipe :=
  match s.job.charter with
  | some c => match c.plane[i.plane]? with
    | some p => match p.recipes with
      | some r => r.list[i.recipe]?
      | none => none
    | none => none
  | none => none

/-- The update of one shard, its old state at hand and its entry allocated. -/
def State.runUpdate (s : State) (e : EngineId) (x : ShardEnt) (i : Nat) (q : Recipe) (plane : Nat) (gamma : W32)
    (old : List (List Byte × Sideband)) : State :=
  let step := s.curStep
  let s := s.deed e 3 x.shard.toNat 0
  let (region, masters, cnt) := s.newState x (updCtx s q plane gamma) old
  let pages := (List.range (s.stateLen x)).map fun k => (k, pad (slice region (k * 4096) 4096) 4096)
  let s := pages.foldl (fun s (p : Nat × List Byte) => s.stepPage e x p.1 step p.2 (old.getD p.1 ([], Sideband.zero))) s
  let (s, cv) := s.deriveFrom e x i masters
  let s := s.modVec e fun v => v.tally (cnt.plus cv)
  match s.mirrorPeer x with
  | none => s.finishUpdate e x.shard .ok (cnt.plus cv)
  | some p =>
    let s := s.modLed e fun l => modFirstItem (fun i => i.phase2.contains x.shard)
      (fun i => { i with phase2 := i.phase2.erase x.shard, mirroring := i.mirroring ++ [(x.shard, cnt.plus cv)] })
      { l with updPhase := 5 }
    s.sendMirror e x p step pages

/-- Cycles that a shard's writes waited for an escrow page, where its marked pages outnumber the free ones (R415). -/
def State.escrowWait (s : State) (e : EngineId) (h : BitVec 24) (waited : Nat) : State :=
  s.modEng e fun y =>
    let n := (y.esc.marked.filter fun k => k.1 == h && !(y.esc.copies.any fun c => c.1 == k)).length
    if y.esc.freePages.length < n then { y with esc := { y.esc with wait := satAdd y.esc.wait waited } } else y

/-- UPDATE_PHASE2: the next shard of the engine's queued work, once every partial of the engine has gone, the verdict is
there, and the shard before it is mirrored. PHASE shows 3 while the shard waits for a ledger entry (DESIGN CHOICE, log entry
165). Cycles waited for a ledger entry count in VERSION_WAIT (R217), those for an
escrow page in ESCROW_WAIT (R415). -/
def updatePhase2 (e : EngineId) (shard : BitVec 24) (stateUe : Bool) (waited escrowWaited : Nat) (s : State) : State :=
  let led := s.eng[e.val].led
  match led.upd.find? fun i => !i.phase2.isEmpty, s.shardEnt shard, s.verdictOf s.curStep with
  | some i, some x, some v =>
    if i.phase2.head? ≠ some shard ∨ (led.upd.all fun i => i.phase1.isEmpty && i.mirroring.isEmpty) = false then s
    else
      let s := if led.updPhase = 3 ∧ led.updShard = shard then
          s.modEng e fun y => { y with versionWait := satAdd y.versionWait waited }
        else s
      let s := s.modLed e fun l => { l with updShard := shard, updPhase := 4 }
      if v.skip then s.endUpdate e shard .normSkipped
      else
        match s.recipeOf i with
        | none => s
        | some r =>
          let entry (s : State) : Option Nat × State :=
            s.allocEntry e x s.curStep true false (s.eng[e.val].led.pubGroups.contains x.group)
          if (entry s).1.isNone then s.modLed e fun l => { l with updPhase := 3 }
          else
            match s.readRegion e x stateUe with
            | (.error .uncorrectable, s) => s.updateUe e x
            | (.error _, s) => s
            | (.ok old, s) =>
              if s.ctlOk (s.poolLoc e 0).1 = false then s.chanFails e 3 .stateConflict
              else
                match s.homesIn e x with
                | (false, s) => s
                | (true, s) =>
                  match entry s with
                  | (some k, s) => (s.escrowWait e shard escrowWaited).runUpdate e x k r i.plane v.gamma old
                  | (none, s) => s
  | some i, some _, none =>
    if i.phase2.head? = some shard then s.modLed e fun l => { l with updShard := shard, updPhase := 2 } else s
  | _, _, _ => s

def execUpdatePhase2 (e : EngineId) (shard : BitVec 24) (stateUe : Bool) (waited escrowWaited : Nat) (s : State) : Res :=
  .next (updatePhase2 e shard stateUe waited escrowWaited s)

end Sys2Proof.Machine
end

