-- ==== Sys2Proof/Machine/Fetch.lean ====
section
/-! DEFINITION. Version fetches and their serving, mirrors and their commits (08 R252, R253, R256; 14 R429 to R432). -/

namespace Sys2Proof.Machine

/-! ### Serving (R223, R252, R280, R429) -/

/-- A job that loads a restore, or has loaded one and run no step since, answers restore fetches (log entry 34). -/
def State.restoreTime (s : State) : Bool := s.job.state == .restoring || s.job.fresh

/-- The entry that a request names, or the status of its refusal. -/
def State.served (s : State) (e : EngineId) (h : BitVec 24) (version : StepNo) : Except Status (Nat × LedgerEntry) :=
  match (s.eng[e.val].versions h).find? fun y => y.2.version == version with
  | some y => if y.2.state = .building then .error .stateConflict else .ok y
  | none => if s.restoreTime && (s.eng[e.val].current h).isSome then .error .mixedCut else .error .notResident

/-- A page of a fetch's answer with its status. It carries the request's ENGINE, CHANNEL and REQ (R310). -/
def State.pageBlock (s : State) (q : ReqFrame) (page : Nat) (data : List Byte) (x : Sideband) (st : Status) :
    List Frame × State :=
  let low := (page * 4096) <<< 48 ||| q.engine.val <<< 41 ||| q.chan.val <<< 38 ||| (q.req.toNat % 64) <<< 32 |||
    (q.req.toNat / 64) <<< 30
  s.blockFor q.peer 2 0 low false data x st

/-- One page of a served entry, read by channel 4 through its controller; one that does not read goes out with that status. With
the request's last page goes the mark that lowers SERVE once the port has sent it. -/
def State.servePage (s : State) (e : EngineId) (q : ReqFrame) (page : Nat) (c : CtlId) (a : Nat) (last : Option Nat) : State :=
  let s := s.chanTake e 4 (ownSlip 4096 (dramWord c (a * 4096)) (put 5 60 ||| put q.peer 48))
  let (r, s) := s.pageIn c a { s.byEng e 4 noMb with source := 5 }
  let (data, x) := match r with
    | .ok d => d
    | .error _ => s.readPage c a
  let st := match r with
    | .ok _ => Status.ok
    | .error st => st
  let (fs, s) := (s.modChan e 4 ChanSt.ran).pageBlock q page data x st
  let s : State := match last, fs.getLast? with
    | some i, some f =>
      let env := s.env
      { s with env := { env with serving := env.serving ++ [{ frame := f, engine := e, entry := i, peer := q.peer }] } }
    | _, _ => s
  s.sendFrames q.peer fs

/-- The pages that a request reads: the map's where it begins at page 0, then those of the version, in map order. -/
def State.servedPages (s : State) (e : EngineId) (q : ReqFrame) (y : LedgerEntry) : List (Nat × Nat) :=
  (if q.first = 0 then (y.mapPages.zipIdx).map fun (m : Nat × Nat) => (m.2, m.1) else []) ++
  (((s.mapWords e y).zipIdx).filter fun (w : Nat × Nat) =>
    decide (q.first.toNat ≤ w.2) && decide (w.2 < q.first.toNat + q.count.toNat)).map fun (w : Nat × Nat) => (w.2, w.1)

/-- A fetch served: SERVE rises with the acceptance and falls when the last page has been sent (R223). -/
def State.serve (s : State) (e : EngineId) (q : ReqFrame) (i : Nat) (y : LedgerEntry) : State :=
  let pages := s.servedPages e q y
  if pages.isEmpty then s
  else
    (pages.zipIdx).foldl (fun (s : State) (p : (Nat × Nat) × Nat) =>
      let (c, a) := s.poolLoc e p.1.2
      s.servePage e q p.1.1 c a (if p.2 + 1 = pages.length then some i else none))
      (((s.readMap e y 4).2.deed e 4 y.shard.toNat 0).modEntry e i fun z => { z with serve := z.serve + 1 })

def requestFetch (q : ReqFrame) (s : State) : State :=
  if s.admitted q.peer = false then s.dropUnadmitted q.peer
  else
    match s.shardEnt (BitVec.ofNat 24 q.object.toNat) with
    | none => s.sendRequest q.peer 0x03 { q with status := .notResident }
    | some x =>
      let e : EngineId := Fin.ofNat 128 x.engine
      match s.served e x.shard q.version with
      | .ok y => s.serve e q y.1 y.2
      | .error st =>
        (s.modLed e fun l => { l with refusals := satAdd l.refusals 1 }).sendRequest q.peer 0x03 { q with status := st }

def execRequestFetch (q : ReqFrame) (s : State) : Res := .next (requestFetch q s)

/-! ### Fetching (R252, R253, R429) -/

def State.modFetch (s : State) (e : EngineId) (h : BitVec 24) (req : Byte) (f : Fetch → Fetch) : State :=
  s.modLed e fun l => { l with fetches := l.fetches.map fun y => if y.shard == h && y.req == req then f y else y }

def State.dropFetch (s : State) (e : EngineId) (h : BitVec 24) (req : Byte) : State :=
  s.modLed e fun l => { l with fetches := l.fetches.filter fun y => !(y.shard == h && y.req == req) }

/-- A restore that has begun to load fails: HELD, with the status and the shard (R428). -/
def State.restoreFail (s : State) (st : Status) (h : BitVec 24) : State :=
  let s := s.modAllEng fun e => { e with led := { e.led with fetches := e.led.fetches.filter fun f => !f.restore } }
  let s := s.modCkpt fun k => { k with rStatus := st.code, rShard := h, restore := none }
  (s.busyDone st).modJob fun j => { j with state := .held }

/-- The fetched entry is freed and the fetch starts again; HALLMARK_FAIL is raised. -/
def State.restartFetch (s : State) (e : EngineId) (x : ShardEnt) (f : Fetch) (r : Rec4) : State :=
  let s := (s.post (islEngine e) clsHallmark .hallmarkFail noMb r).setErr errHallmark
  let s := match f.entry with
    | some i => s.freeEntry e i
    | none => s
  let s := s.modFetch e x.shard f.req fun f => { f with entry := none, gotPages := [], failed := [], maps := [] }
  s.askFetch e x f 0 (s.shardPages x)

/-- The newest version due (R252). -/
def State.newestDue (s : State) : StepNo :=
  match s.upd.verdicts.find? fun v => !v.skip with
  | some v => v.step
  | none => s.upd.due

/-- A fetch that repairs a page of an entry that is not BUILDING (R281). -/
def State.isRepair (s : State) (e : EngineId) (f : Fetch) : Bool :=
  match f.entry with
  | some i => (s.eng[e.val].ledger i).state != .building
  | none => false

/-- A page cannot be repaired: the step is not replayed, and the job follows its FAULTS policy (R281). -/
def State.repairFail (s : State) (e : EngineId) (h : BitVec 24) : State :=
  s.raise (mkEvent .unrepairable e .uncorrectable
    (rec0 (put Status.uncorrectable.code.toNat 56 ||| put h.toNat 32 ||| put e.val 25)) noMb)

/-- A page's bytes written back to its pool page, if they hash to what the page held. -/
def State.repairWith (s : State) (e : EngineId) (h : BitVec 24) (i page : Nat) (data : List Byte) : State :=
  let y := s.eng[e.val].ledger i
  let (c, q) := s.poolLoc e (s.mapWord e y page)
  let old := s.readPage c q
  let data := data ++ old.1.drop data.length
  if hallmarkOk old.2 data then s.chanWrite e y.chan c q data old.2 else s.repairFail e h

/-- A page of an entry's page map written back, if the map then hashes to MAP_HALLMARK (R281). -/
def State.repairMap (s : State) (e : EngineId) (h : BitVec 24) (i k : Nat) (data : List Byte) : State :=
  let y := s.eng[e.val].ledger i
  let ws := s.mapWords e y
  let new := (ws.take (1024 * k) ++ (List.range (min 1024 (ws.length - 1024 * k))).map fun j => rdNat data (4 * j) 4) ++
    ws.drop (1024 * (k + 1))
  match y.mapPages[k]? with
  | some q =>
    let (c, p) := s.poolLoc e q
    let old := s.readPage c p
    if mapCrc new = y.mapHallmark then s.chanWrite e y.chan c p (data ++ old.1.drop data.length) old.2
    else s.repairFail e h
  | none => s

/-- A refusal of a fetch: asked again later, or the newest version due is asked for, for an entry of its own (R253); a restore
fetch of another cut ends the restore. -/
def State.fetchRefused (s : State) (e : EngineId) (x : ShardEnt) (f : Fetch) (st : Status) : State :=
  if s.isRepair e f then (s.dropFetch e x.shard f.req).repairFail e x.shard
  else if f.restore then
    if st = .mixedCut then s.restoreFail .mixedCut x.shard
    else s.modFetch e x.shard f.req fun f => { f with waiting := true }
  else if st = .notResident then
    let v := s.newestDue
    let s := match f.entry with
      | some i => s.freeEntry e i
      | none => s
    let s := s.modFetch e x.shard f.req fun f => { f with
      version := v, entry := none, held := false, gotPages := [], failed := [], maps := [] }
    s.askFetch e x { f with version := v } 0 (s.shardPages x)
  else s.modFetch e x.shard f.req fun f => { f with waiting := true }

/-- A fetch asked again after its wait; cycles waited for a ledger entry count in VERSION_WAIT (R217). -/
def fetchRetry (e : EngineId) (shard : BitVec 24) (waited : Nat) (s : State) : State :=
  match s.shardEnt shard, s.eng[e.val].led.fetches.find? fun f => f.shard == shard && f.waiting with
  | some x, some f =>
    let s := if f.held then s.modEng e fun y => { y with versionWait := satAdd y.versionWait waited } else s
    (s.modFetch e shard f.req fun f => { f with waiting := false, held := false }).askFetch e x f 0 (s.shardPages x)
  | _, _ => s

def execFetchRetry (e : EngineId) (shard : BitVec 24) (waited : Nat) (s : State) : Res := .next (fetchRetry e shard waited s)

/-- The bytes of the owner's map that a fetch has received. -/
def Fetch.mapBytes (f : Fetch) (pages : Nat) : List Byte :=
  ((List.range (ceilDiv pages 1024)).flatMap fun i => lookupD f.maps i []).take (4 * pages)

/-- The MAP_HALLMARK that a restore expects of a shard. -/
def State.recordedMap (s : State) (h : BitVec 24) : Option W32 :=
  match s.ckpt.restore with
  | some r => (r.recorded.find? fun y => y.1 == h).map fun y => y.2.2
  | none => none

/-- Every page of a fetch is written: the entry is READY with the hallmark of its own map, in a restore CURRENT at once
where the owner's map is the one recorded (R216, R429; log entry 36). -/
def State.fetchDone (s : State) (e : EngineId) (x : ShardEnt) (f : Fetch) (i : Nat) (r : Rec4) : State :=
  let h := crc32c (f.mapBytes (s.shardPages x))
  if f.restore = true ∧ s.recordedMap x.shard ≠ some h then s.restartFetch e x f r
  else
    let s := (s.makeReady e i).modEntry e i fun y => { y with ownerMap := h }
    let s := s.dropFetch e x.shard f.req
    let s := s.modLed e fun l => { l with fetched := wrapAdd l.fetched 1 }
    if f.restore then s.promoteEntry e i else s

def fetchKey (isMap : Bool) (page : Nat) : Nat := 2 * page + (if isMap then 1 else 0)

/-- A page that arrives for a fetch. -/
def State.fetchPageIn (s : State) (b : ObjBlk) (pt : Option (List Byte)) (req : Byte) (h : BitVec 24) (isMap : Bool) (page : Nat) : State :=
  match s.shardEnt h with
  | none => s
  | some x =>
    let e : EngineId := Fin.ofNat 128 x.engine
    match s.eng[e.val].led.fetches.find? fun f => f.shard == h && f.req == req with
    | none => s
    | some f =>
      let r : Rec4 := { w0 := b.side.w0, w1 := b.side.w1, w2 := b.side.w2, w3 := b.side.w3 }
      let good := match pt with
        | some d => if b.status = .ok ∧ hallmarkOk b.side d = true then some d else none
        | none => none
      if s.isRepair e f then
        if (if isMap then !(f.maps.any fun m => m.1 == page) else !(f.gotPages.contains page)) then s
        else
          let s := s.dropFetch e h req
          match good with
          | some d => if isMap then s.repairMap e h (f.entry.getD 0) page d else s.repairWith e h (f.entry.getD 0) page d
          | none => s.repairFail e h
      else
      match good with
      | none =>
        if f.failed.contains (fetchKey isMap page) then s.restartFetch e x f r
        else
          let s := s.modFetch e h req fun f => { f with failed := fetchKey isMap page :: f.failed }
          if isMap then s.askFetch e x f 0 (s.shardPages x) else s.askFetch e x f page 1
      | some data =>
        let (i, s) := match f.entry with
          | some i => (some i, s)
          | none => s.allocEntry e x f.version false false true
        match i with
        | none => s.modFetch e h req fun f => { f with waiting := true, held := true }
        | some i =>
          let f1 : Fetch := if isMap then
              { f with entry := some i, maps := if f.maps.any (fun m => m.1 == page) then f.maps else (page, data) :: f.maps }
            else { f with entry := some i, gotPages := if f.gotPages.contains page then f.gotPages else page :: f.gotPages }
          let s := if isMap || f.gotPages.contains page then s else s.writeVersionPage e i page data
          let s := s.modFetch e h req fun _ => f1
          let n := s.shardPages x
          if f1.gotPages.length = n ∧ f1.maps.length = ceilDiv n 1024 then s.fetchDone e x f1 i r else s

/-! ### Mirrors (R256, R431, R432) -/

/-- Page k of a mirror's region of a shard: the commit page, slot 0, slot 1; written by channel 4. -/
def State.mirrorWrite (s : State) (x : ShardEnt) (k : Nat) (version : StepNo) (data : List Byte) : State :=
  let e : EngineId := Fin.ofNat 128 x.engine
  if x.tier = 2 then s.putHostPage (wrapAdd x.hostAddr (k * 4096)) data
  else
    let (c, q) := pageOf e x.state
    s.chanWrite e 4 c (q + k) data (mkSide (crc32c data) 4 false version noMb x.shard.toNat k 0)

/-- Page k of a mirror's region read by channel 4; in host memory as last written. -/
def State.mirrorRead (s : State) (x : ShardEnt) (k : Nat) : Except Status (List Byte × Sideband) × State :=
  let e : EngineId := Fin.ofNat 128 x.engine
  if x.tier = 2 then
    let (d, s) := s.hostPage (wrapAdd x.hostAddr (k * 4096))
    (.ok (d, freshSide d), s)
  else
    let (c, q) := pageOf e x.state
    s.fetchPage e 4 c (q + k) noWord 4096 ReadMet.none noMb

/-- The bytes of a mirror slot. -/
def State.slotBytes (s : State) (x : ShardEnt) (slot : Nat) : Except Status (List Byte) × State :=
  let n := s.stateLen x
  (List.range n).foldl (fun (a : Except Status (List Byte) × State) i =>
    match a with
    | (.error st, s) => (.error st, s)
    | (.ok l, s) =>
      match s.mirrorRead x (1 + slot * n + i) with
      | (.ok d, s) => (.ok (l ++ d.1), s)
      | (.error st, s) => (.error st, s)) (.ok [], s)

/-- The commit page as the valid slots stand; the checksum word is of the slot last committed. -/
def State.writeCommit (s : State) (x : ShardEnt) (version : StepNo) (csum : W64) : State :=
  let word (k : Fin 2) : W64 :=
    match s.ckpt.mirrorSlots.find? fun y => y.1 == x.shard && y.2.1 == k with
    | some y => put 1 63 ||| put y.2.2.toNat 0
    | none => 0
  s.mirrorWrite x 0 version (pad (toBytes (word 0) 8 ++ toBytes (word 1) 8 ++ toBytes csum 8) 4096)

def slotOfVersion (v : StepNo) : Fin 2 := Fin.ofNat 2 v.toNat

/-- The checksum word that stands in the commit page; zero where the page does not read. -/
def State.commitCsum (s : State) (x : ShardEnt) : W64 × State :=
  if x.tier = 2 then (0, s)
  else match s.mirrorRead x 0 with
    | (.ok d, s) => (rdW 64 d.1 16, s)
    | (.error _, s) => (0, s)

def State.clearSlots (s : State) (x : ShardEnt) (version : StepNo) (p : Fin 2 → Bool) : State :=
  let s := s.modCkpt fun k => { k with mirrorSlots := k.mirrorSlots.filter fun y => !(y.1 == x.shard && p y.2.1) }
  let (w, s) := s.commitCsum x
  s.writeCommit x version w

def State.mirrorAck (s : State) (x : ShardEnt) (peer : Nat) (version : StepNo) (st : Status) : State :=
  s.sendRequest peer 0x05
    { peer := peer, req := 0, engine := Fin.ofNat 128 x.engine, chan := 4, object := BitVec.ofNat 64 x.shard.toNat
      version := version, first := 0, count := 0, status := st }

def State.mirrorGot (s : State) (h : BitVec 24) (v : StepNo) : List Nat :=
  (s.ckpt.mirrorPages.filter fun y => y.1 == h && y.2.1 == v).map (·.2.2)

/-- A commit whose pages are all written: the slot is VALID. Where the slot does not read the commit is not written. -/
def State.mirrorCommit (s : State) (x : ShardEnt) (peer : Nat) (v : StepNo) : State :=
  let k := slotOfVersion v
  match s.slotBytes x k.val with
  | (.error _, s) => s
  | (.ok bytes, s) =>
  let s := s.modCkpt fun c => { c with
    mirrorSlots := (x.shard, k, v) :: c.mirrorSlots.filter fun y => !(y.1 == x.shard && y.2.1 == k)
    mirrorPages := c.mirrorPages.filter fun y => !(y.1 == x.shard && y.2.1 == v)
    mirrorDue := c.mirrorDue.filter fun y => !(y.2.1 == x.shard && y.2.2 == v)
    mirrorFails := c.mirrorFails.filter fun y => y.1 != x.shard }
  (s.writeCommit x v (put (crc32c bytes).toNat 32 ||| put (bytes.length % 2 ^ 32) 0)).mirrorAck x peer v .ok

def State.tryCommit (s : State) (x : ShardEnt) (v : StepNo) : State :=
  match s.ckpt.mirrorDue.find? fun y => y.2.1 == x.shard && y.2.2 == v with
  | some y => if (s.mirrorGot x.shard v).length = s.stateLen x then s.mirrorCommit x y.1 v else s
  | none => s

/-- A page of a mirrored version that fails: asked for again twice, then the version is refused. -/
def State.mirrorPageFails (s : State) (b : ObjBlk) (h : BitVec 24) (v : StepNo) (page : Nat) (x : ShardEnt) : State :=
  let n := match s.ckpt.mirrorFails.find? fun y => y.1 == h && y.2.1 == page with
    | some y => y.2.2 + 1
    | none => 1
  let s := s.modCkpt fun k => { k with
    mirrorFails := (h, page, n) :: k.mirrorFails.filter fun y => !(y.1 == h && y.2.1 == page) }
  if n ≤ 2 then s.sendMsgCtrl b.peer true false (BitVec.ofNat 32 h.toNat) page
  else
    let s := s.modCkpt fun k => { k with
      mirrorFails := k.mirrorFails.filter fun y => y.1 != h
      mirrorPages := k.mirrorPages.filter fun y => y.1 != h
      mirrorDue := k.mirrorDue.filter fun y => y.2.1 != h }
    (s.clearSlots x v fun _ => true).mirrorAck x b.peer v .hallmarkFail

/-- A mirror page that arrives: the first of its version invalidates the slot; three failures give the mirror up. -/
def State.mirrorPageIn (s : State) (b : ObjBlk) (pt : Option (List Byte)) (h : BitVec 24) (v : StepNo) (page : Nat) : State :=
  match s.shardEnt h with
  | none => s
  | some x =>
    if x.mirror ≠ s.ownModule ∨ s.stateLen x ≤ page then s
    else
      let s := if (s.mirrorGot h v).isEmpty then
          (s.modCkpt fun k => { k with mirrorPages := k.mirrorPages.filter fun y => y.1 != h }).clearSlots x v
            fun k => k == slotOfVersion v
        else s
      match pt with
      | some data =>
        if hallmarkOk b.side data then
          let s := s.mirrorWrite x (1 + (slotOfVersion v).val * s.stateLen x + page) v data
          let s := s.modCkpt fun k => { k with
            mirrorPages := if (k.mirrorPages.contains (h, v, page)) then k.mirrorPages else (h, v, page) :: k.mirrorPages }
          s.tryCommit x v
        else s.mirrorPageFails b h v page x
      | none => s.mirrorPageFails b h v page x

/-- REQUEST_COMMIT: answered once every page of the version has been verified and written. -/
def requestCommit (q : ReqFrame) (s : State) : State :=
  if s.admitted q.peer = false then s.dropUnadmitted q.peer
  else
    match s.shardEnt (BitVec.ofNat 24 q.object.toNat) with
    | none => s
    | some x =>
      if x.mirror ≠ s.ownModule then s
      else (s.modCkpt fun k => { k with mirrorDue := (q.peer, x.shard, q.version) :: k.mirrorDue }).tryCommit x q.version

def execRequestCommit (q : ReqFrame) (s : State) : Res := .next (requestCommit q s)

/-- Owned shards without a valid mirror slot (R443 UNMIRRORED). -/
def State.setUnmirrored (s : State) (h : BitVec 24) (on : Bool) : State :=
  s.modCkpt fun k =>
    let l := k.unmirroredShards.filter fun y => y != h
    let l := if on then h :: l else l
    { k with unmirroredShards := l, unmirrored := BitVec.ofNat 16 (min l.length 0xFFFF) }

/-- COMMIT_ACK: the update of the shard completes; with HALLMARK_FAIL it completes unmirrored and the status is raised. -/
def commitAck (q : ReqFrame) (s : State) : State :=
  match s.shardEnt (BitVec.ofNat 24 q.object.toNat) with
  | none => s
  | some x =>
    let e : EngineId := Fin.ofNat 128 x.engine
    let ok := q.status = .ok
    if s.admitted q.peer = false then s.dropUnadmitted q.peer
    else
      let s := s.modCkpt fun k => { k with
        restore := k.restore.map fun (r : RestoreSt) => { r with mirroring := r.mirroring.erase x.shard } }
      let s := s.setUnmirrored x.shard (!ok)
      let s := if ok then s
        else s.post (islEngine e) clsEvent .hallmarkFail noMb (updRec .hallmarkFail x.shard e 0 s.recStep)
      s.mirrorDone e x.shard q.status

def execCommitAck (q : ReqFrame) (s : State) : Res := .next (commitAck q s)

end Sys2Proof.Machine
end

