-- ==== Sys2Proof/Machine/Peers.lean ====
section
/-! DEFINITION. Peers: admission, link keys, keepalive and loss (11 R322 to R325; 14 R433, R435, R436, R440). -/

namespace Sys2Proof.Machine

/-! ### A peer declared lost (R323) -/

/-- The peers reached through peer i as NEXT_HOP, and the peer itself. -/
def State.behind (s : State) (i : Nat) : List Nat :=
  match s.peersSec with
  | none => [i]
  | some p => i :: (List.range p.entries.length).filter fun j => j != i && via p.entries 4096 j
where
  via (l : List PeerEnt) : Nat → Nat → Bool
    | 0, _ => false
    | n + 1, j =>
      match l[j]? with
      | none => false
      | some e => e.ports == 0 && (e.nextHop == i || via l n e.nextHop)

/-- A peer record (R405). -/
def State.peerRec (s : State) (i : Nat) : Rec4 :=
  let m : BitVec 12 := match s.peerEnt i with
    | some e => e.module
    | none => 0
  rec0 (put m.toNat 52 ||| put (i % 4096) 40)

/-- PEER_LOST on the management network and as an event of class PEER_LOST. -/
def State.peerLostEvent (s : State) (i : Nat) : State :=
  let s := (s.post islBursar clsPeer .peerLost noMb (s.peerRec i)).setErr errPeerLost
  s.raise { cls := .peerLost, island := islBursar, status := .peerLost, record := s.peerRec i, mb := noMb, peer := i }

/-- R433: the mirror of a lost owner sends a partial of 0.0 with ATTEMPT 0 while the step's verdict is out, and will take
the shard over. -/
def State.ownerLost (s : State) (m : BitVec 12) (x : ShardEnt) : State :=
  if s.ownerOf x ≠ m then s
  else if x.mirror = s.ownModule then
    let p : Partial := { shard := x.shard, step := s.curStep, attempt := 0, p := 0 }
    let s := s.modCkpt fun k => { k with toTake := k.toTake ++ [x.shard] }
    if s.job.stepOn = false ∨ (s.verdictOf s.curStep).isSome then s
    else if s.isRoot then s.takePartial p
    else match s.peerOf s.rootModule with
      | some i => s.sendNorm i (partialBytes p)
      | none => s
  else if x.mirror ≠ m ∧ (s.peerOf x.mirror).isSome then s
  else s.raise (mkEvent .unrepairable (Fin.ofNat 128 x.engine) .peerLost
    (rec0 (put Status.peerLost.code.toNat 56 ||| put x.shard.toNat 32 ||| put x.engine 25)) noMb)

/-- The mirror of an owned shard is lost: an update that waits for it completes without it, and the shard runs
unmirrored (R256). -/
def State.mirrorLost (s : State) (m : BitVec 12) (x : ShardEnt) : State :=
  if x.mirror ≠ m ∨ s.owns x = false ∨ s.isTaken x = true then s
  else
    let e : EngineId := Fin.ofNat 128 x.engine
    let s := s.setUnmirrored x.shard true
    let s := s.modCkpt fun k => { k with
      restore := k.restore.map fun (r : RestoreSt) => { r with mirroring := r.mirroring.erase x.shard } }
    s.mirrorDone e x.shard .peerLost

/-- The norm root is lost: every own partial of the step goes to NORM_ALT with ATTEMPT raised by one (R337). -/
def State.rootLost (s : State) : State :=
  if (s.verdictOf s.curStep).isSome then s
  else
    let mine := s.upd.sent.filter fun p => p.step == s.curStep
    mine.foldl (fun s p => s.sendPartial p.shard p.p) s

/-- The peer's entry is LOST, with the event. -/
def State.markLost (s : State) (i : Nat) (e : PeerEnt) : State :=
  let s := s.modPeer i fun p => { p with state := 4 }
  let env := s.env
  let s : State := { s with env := { env with lostNow := env.lostNow ++ [i] } }
  let s := s.peerLostEvent i
  if s.ckpt.pairValid && !e.storage && e.module == s.ckpt.twin then s.modCkpt fun k => { k with twinLost := true } else s

/-- A storage peer is lost: a drain to it fails (R425). -/
def State.storageLost (s : State) (i : Nat) : State :=
  match s.ckptSec with
  | some c => if c.toPeer && c.peer == i then s.drainFail .peerLost true else s
  | none => s

/-- A restore that fetches from a lost peer ends in HELD (R440). -/
def State.restoreLost (s : State) (m : BitVec 12) : State :=
  if s.job.state = .restoring then
    match s.shardEnts.find? fun x => s.ownerOf x == m &&
        (s.eng[x.engine % 128].led.fetches.any fun f => f.restore && f.shard == x.shard) with
    | some x => s.restoreFail .peerLost x.shard
    | none => s
  else s

/-- The pages that a lost peer reads are read no more: SERVE falls (R223). -/
def State.serveLost (s : State) (i : Nat) : State :=
  (s.env.serving.filter fun x => x.peer == i).foldl (fun (s : State) x => s.pageSent x.frame) s

/-- A module peer is lost. -/
def State.modulePeerLost (s : State) (i : Nat) (e : PeerEnt) : State :=
  let root := match s.shardsSec with
    | some x => x.normRoot == e.module
    | none => false
  let s := (s.serveLost i).clrPeerLost i
  let s := if root then s.rootLost else s
  let s := s.shardEnts.foldl (fun s x => (s.mirrorLost e.module x).ownerLost e.module x) s
  s.restoreLost e.module

/-- One peer declared lost. -/
def State.declareOne (s : State) (i : Nat) : State :=
  match s.peerEnt i with
  | none => s
  | some e =>
    if (s.peer i).state = 4 ∨ s.env.peers.length ≤ i then s
    else if e.storage then (s.markLost i e).storageLost i
    else (s.markLost i e).modulePeerLost i e

/-- A peer declared lost, with every peer reached through it. -/
def State.declareLost (s : State) (i : Nat) : State :=
  (s.behind i).foldl (fun s j => s.declareOne j) s

def execPeerLostTimeout (peer : Nat) (s : State) : Res := .next (s.declareLost peer)

/-- LEAVE is taken from any peer of the table (R322 accepts PEER_CTRL before admission). -/
def execLeave (peer : Nat) (s : State) : Res := .next (s.declareLost peer)

/-- KEEPALIVE: the interval of a quiet link ends. -/
def execKeepalive (peer : Nat) (s : State) : Res :=
  .next (if s.admitted peer then s.sendCtrl peer 0x9 7 [0x01] else s)

/-! ### Admission (R322, R324) -/

/-- A failed step of an admission: the day book, DENIED on the management network, and the peer is lost. -/
def State.refusePeer (s : State) (i : Nat) : State :=
  let m : BitVec 12 := match s.peerEnt i with
    | some e => e.module
    | none => 0
  let s := s.modPeer i fun p => { p with state := 3, refused := true }
  let s := s.dbAppend dbAdmission roleNone srcModule .denied 0 (put m.toNat 0) 0
  (s.post islSecurity clsEvent .denied noMb (s.peerRec i)).declareLost i

def sendAdmit (i : Nat) (kind : Byte) (body : List Byte) (s : State) : State := s.sendCtrl i 0x8 7 (kind :: body)

/-- Identifiers and nonces in the order lower module, higher module. -/
def State.orderedNonces (s : State) (i : Nat) : List Byte :=
  let p := s.peer i
  let own := toBytes (p.ownNonce.getD 0) 32
  let far := toBytes (p.peerNonce.getD 0) 32
  if s.ownModule.toNat < p.module.toNat then
    toBytes s.ownModule 2 ++ toBytes p.module 2 ++ own ++ far
  else toBytes p.module 2 ++ toBytes s.ownModule 2 ++ far ++ own

/-- a of R324. -/
def State.linkSecret (s : State) (i : Nat) (ss : Dig256) : Dig512 :=
  Config.sha3_512 (toBytes ss 32 ++ toBytes s.job.jobId 8 ++ s.orderedNonces i)

/-- The keys of a: to send and to receive. -/
def State.linkKeys (s : State) (i : Nat) (a : Dig512) : Dig256 × Dig256 :=
  let low : Dig256 := BitVec.ofNat 256 (fld a 255 0)
  let high : Dig256 := BitVec.ofNat 256 (fld a 511 256)
  if s.ownModule.toNat < (s.peer i).module.toNat then (low, high) else (high, low)

/-- What KEY_CONFIRM carries. -/
def State.confirmOf (s : State) (i : Nat) : List Byte :=
  match (s.peer i).secret with
  | some ss => Config.peerConfirm (toBytes (s.linkSecret i ss) 64)
  | none => Config.peerConfirm (s.orderedNonces i)

/-- Both nonces are known and, in a sealed job, a secret is agreed. -/
def State.agreed (s : State) (i : Nat) : Bool :=
  let p := s.peer i
  p.reportOk && p.ownNonce.isSome && p.peerNonce.isSome && (!s.sealedJob || p.secret.isSome)

/-- Every step has passed on both sides: ADMITTED, in the day book; an Envis IN end of the peer grants its credits. -/
def State.tryAdmit (s : State) (i : Nat) : State :=
  let p := s.peer i
  if p.state ≠ 1 ∨ p.confirmed = false ∨ s.agreed i = false then s
  else
    let (tx, rx) : Option Dig256 × Option Dig256 := match p.secret with
      | some ss => (some (s.linkKeys i (s.linkSecret i ss)).1, some (s.linkKeys i (s.linkSecret i ss)).2)
      | none => (none, none)
    let s := s.modPeer i fun p => { p with
      state := 2, keyTx := tx, keyRx := rx, ctrTx := Vector.replicate 8 0, ctrRx := Vector.replicate 8 0 }
    let s := s.dbAppend dbAdmission roleNone srcModule .ok 0 (put p.module.toNat 0) 0
    match s.planeCfg with
    | none => s
    | some c => c.tills.foldl (fun s t =>
        if t.path == .envis && !t.isOut && t.link == i then s.grant (Fin.ofNat 128 t.engine) t.till else s) s

/-- KEY_CONFIRM goes out once this side has passed its steps. -/
def State.sendConfirm (s : State) (i : Nat) : State :=
  if s.agreed i then (sendAdmit i 0x04 (s.confirmOf i) s).tryAdmit i else s

/-- PEER_ADMIT: from ACTIVE onwards every peer not yet admitted gets its REPORT_REQ, in increasing index. -/
def peerAdmit (s : State) : State :=
  if s.job.locked = false ∨ s.job.state = .activating ∨ s.job.state = .releasing then s
  else
    (List.range s.env.peers.length).foldl (fun s i =>
      if (s.peer i).state ≠ 0 then s
      else
        let (n, s) := s.random
        let s := s.modPeer i fun p => { p with state := 1, ownNonce := some n }
        sendAdmit i 0x01 (toBytes n 32) s) s

def execPeerAdmit (s : State) : Res := .next (peerAdmit s)

/-- REPORT_REQ: the peer's nonce is kept and answered with this module's report and certificate chain. -/
def reportReq (i : Nat) (nonce : Dig256) (s : State) : State :=
  if s.job.locked = false ∨ s.env.peers.length ≤ i ∨ (s.peer i).state = 4 then s
  else
    let had := (s.peer i).peerNonce.isSome
    let s := s.modPeer i fun p => { p with peerNonce := if p.state = 2 then p.peerNonce else some nonce }
    let s := sendAdmit i 0x02 (s.report nonce ++ s.certChain) s
    if had || (s.peer i).state != 1 then s else s.sendConfirm i

def execReportReq (peer : Nat) (nonce : Dig256) (s : State) : Res := .next (reportReq peer nonce s)

/-- A module peer's report passes: signature and chain, the nonce of this module, the peer's identifier, the job set and
the sealing flag. -/
def State.reportGood (s : State) (c : Charter) (i : Nat) (e : PeerEnt) (r cert : List Byte) : Bool :=
  let nonce := (s.peer i).ownNonce
  rdNat r 0 4 == 0x5A43_4154 && rdNat r 4 2 == 1 && r.length == 10752 &&
  certOk cert (Config.sha3_512 (r.take 0xA00)) (slice r 0xA04 4627) &&
  nonce == some (rdW 256 r 0x30) && rdW 12 r 6 == e.module && rdW 512 r 0x150 == c.jobSetDigest &&
  (rdNat r 0x1D 1).testBit 0 == c.sealed

/-- ADMIT_REPORT: the peer's report, or a storage peer's signed answer. -/
def admitReport (i : Nat) (report cert : Bytes) (s : State) : State :=
  match s.peerEnt i, s.job.charter with
  | some e, some c =>
    if (s.peer i).state ≠ 1 ∨ (s.peer i).reportOk = true then s
    else if e.storage then
      if Config.storageVerify e.keyHash ((s.peer i).ownNonce.getD 0) report then
        let s := s.modPeer i fun p => { p with state := 2, reportOk := true }
        s.dbAppend dbAdmission roleNone srcModule .ok 0 (put e.module.toNat 0) 0
      else s.refusePeer i
    else if s.reportGood c i e report cert then
      let s := s.modPeer i fun p => { p with reportOk := true, sealPub := slice report 0x280 1568 }
      let s :=
        if c.sealed && decide (s.ownModule.toNat < e.module.toNat) then
          let (ct, ss) := Config.kemEncap (slice report 0x280 1568) s.sec.draws
          let s := s.modSec fun x => { x with draws := x.draws + 1 }
          let s := s.modPeer i fun p => { p with secret := some ss }
          sendAdmit i 0x03 ct s
        else s
      s.sendConfirm i
    else s.refusePeer i
  | _, _ => s

def execAdmitReport (peer : Nat) (report cert : Bytes) (s : State) : Res := .next (admitReport peer report cert s)

/-- KEM_CT from the lower module: at admission, or for new keys. -/
def kemCt (i : Nat) (ct : Bytes) (s : State) : State :=
  let p := s.peer i
  if s.sealedJob = false ∨ s.ownModule.toNat < p.module.toNat ∨ (p.state ≠ 1 ∧ p.state ≠ 2) then s
  else
    let s := s.modPeer i fun p => { p with secret := some (kemDecap ct), rekeying := p.state == 2 }
    if p.state = 2 then sendAdmit i 0x04 (s.confirmOf i) s else s.sendConfirm i

def execKemCt (peer : Nat) (ct : Bytes) (s : State) : Res := .next (kemCt peer ct s)

/-- New keys take effect: the other KEY_EPOCH, counters from zero; the old receive key stays until every channel has shown
the new epoch. -/
def State.newKeys (s : State) (i : Nat) (ss : Dig256) : State :=
  let (tx, rx) := s.linkKeys i (s.linkSecret i ss)
  s.modPeer i fun p => { p with
    keyTx := some tx, oldRx := p.keyRx, keyRx := some rx, epoch := !p.epoch, newOn := Vector.replicate 8 false
    ctrTx := Vector.replicate 8 0, ctrRx := Vector.replicate 8 0, ctrOld := p.ctrRx, rekeying := false }

/-- KEY_CONFIRM: completes an admission or a change of keys. -/
def keyConfirm (i : Nat) (confirm : Bytes) (s : State) : State :=
  let p := s.peer i
  if p.state = 2 then
    match p.secret with
    | some ss => if p.rekeying && confirm == s.confirmOf i then s.newKeys i ss else s
    | none => s
  else if p.state ≠ 1 then s
  else
    let known := p.ownNonce.isSome && p.peerNonce.isSome && (!s.sealedJob || p.secret.isSome)
    if known && confirm == s.confirmOf i then (s.modPeer i fun p => { p with confirmed := true }).tryAdmit i
    else s.refusePeer i

def execKeyConfirm (peer : Nat) (confirm : Bytes) (s : State) : Res := .next (keyConfirm peer confirm s)

/-- A block counter of the peer has reached 2^40 (R325). -/
def PeerSt.worn (p : PeerSt) : Bool := (p.ctrTx.toList ++ p.ctrRx.toList).any fun n => decide (2 ^ 40 ≤ n)

/-- REKEY: with a counter at 2^40 the lower module starts a new exchange; traffic goes on under the old keys. -/
def rekey (i : Nat) (s : State) : State :=
  let p := s.peer i
  if s.sealedJob = false ∨ p.state ≠ 2 ∨ p.rekeying = true ∨ p.worn = false ∨ p.module.toNat ≤ s.ownModule.toNat then s
  else
    let (ct, ss) := Config.kemEncap p.sealPub s.sec.draws
    let s := s.modSec fun x => { x with draws := x.draws + 1 }
    let s := s.modPeer i fun p => { p with secret := some ss, rekeying := true }
    let s := sendAdmit i 0x03 ct s
    sendAdmit i 0x04 (s.confirmOf i) s

def execRekey (peer : Nat) (s : State) : Res := .next (rekey peer s)

end Sys2Proof.Machine
end

