-- ==== Sys2Proof/Machine/Boundary.lean ====
section
/-! DEFINITION. The step boundary: retirement, ledger and till work, audits, takeovers, the actions of R61, assay windows and
the start of the next step (02 R51 to R55, R61; 07 R210 to R219; 08 R251; 13 R380 to R401; 14 R412, R434 to R438). -/

namespace Sys2Proof.Machine

/-! ### Sampled audit (R380 to R385) -/

def State.faultEng (s : State) (e : Nat) : Option FaultEng := s.faults.bind fun f => f.engines[e]?

/-- The auditor of an engine. -/
def State.auditorOf (s : State) (e : EngineId) : Option EngineId :=
  let a : EngineId := Fin.ofNat 128 (e.val ^^^ 1)
  let b : EngineId := Fin.ofNat 128 (e.val ^^^ 2)
  if s.engOk a.val then some a else if s.engOk b.val then some b else none

/-- Engines that the step audits, were an auditor in service. -/
def State.auditable (s : State) : List EngineId :=
  s.stages.filter fun e => match s.faultEng e.val with
    | some f => !f.noAudit
    | none => true

def State.audited (s : State) : List EngineId := s.auditable.filter fun e => (s.auditorOf e).isSome

/-- A run of an audited engine whose comparison has not completed. -/
def State.auditDue (s : State) (r : AuditRun) : Bool :=
  s.auditStep s.curStep && s.audited.contains r.engine && decide (r.run < (s.eng[r.engine.val]).seq.runs.length) &&
  !(s.int.auditDone.contains (r.engine.val, r.run))

/-- Every comparison of the step has completed (R382). -/
def State.auditComplete (s : State) : Bool :=
  !(s.auditStep s.curStep) || s.audited.all fun e =>
    (List.range (s.eng[e.val]).seq.runs.length).all fun k => s.int.auditDone.contains (e.val, k)

/-- A run or row pass of an engine's step by its order. -/
def State.runDone (s : State) (r : AuditRun) : RunDone :=
  ((s.eng[r.engine.val]).seq.runs.reverse[r.run]?).getD { row := false, crc := 0 }

/-- AUDIT_COMPARE: the auditor has run the same instructions on the same inputs, so its CRC over the results is the run's own
unless a fault makes it another, as one may of the engine's (log entry 188). A mismatch waits for a third engine's run. -/
def auditCompare (r : AuditRun) (auditorBad ownBad : Option W32) (s : State) : State :=
  let a := auditorBad.getD (s.runDone r).crc
  let o := ownBad.getD (s.runDone r).crc
  if s.auditDue r = false ∨ s.int.auditVotes.any (fun v => v.1 == r) = true then s
  else if a = o then s.modInt fun x => { x with auditDone := (r.engine.val, r.run) :: x.auditDone }
  else
    let s := s.modInt fun x => { x with
      auditMismatch := satAdd x.auditMismatch 1, auditVotes := (r, a, o) :: x.auditVotes }
    s.modEngInt r.engine fun x => { x with sampleBad := satAdd x.sampleBad 1 }

def execAuditCompare (r : AuditRun) (auditorBad ownBad : Option W32) (s : State) : Res :=
  .next (auditCompare r auditorBad ownBad s)

/-- The third engine of a vote: the lowest in service on the stage die other than the two. -/
def State.thirdEngine (s : State) (e a : EngineId) : Option EngineId :=
  (List.finRange 128).find? fun t => t.val / 16 == e.val / 16 && t != e && t != a && s.engOk t.val

/-- The fault window of an engine that an audit names, with the steps since its last passing audit (R385). -/
def State.auditWindow (s : State) (named auditor : EngineId) (u : Unit5) : State :=
  let step := s.curStep
  let pass := (s.eng[named.val]).int.sampleStep
  s.faultWindow (islEngine named) (unitIdx u).val named.val auditor.val pass step (s.touches named (wrapAdd pass 1) step)

/-- The event of class AUDIT about an engine. -/
def State.auditEvent (s : State) (e : EngineId) : State :=
  (s.setErr errAudit).raise (mkEvent .audit e .checkFail (rec0 (put Status.checkFail.code.toNat 56 ||| put e.val 33)) noMb)

/-- An audit that blames one unit: the event, its fault window, its quarantine without a strike (R383). -/
def State.auditFault (s : State) (named auditor : EngineId) (u : Unit5) : State :=
  ((s.auditEvent named).auditWindow named auditor u).quarantine named u 0

/-- An audit without a majority: both engines are named, the audited one last, and neither is quarantined (R383). -/
def State.auditSplit (s : State) (e auditor : EngineId) (u : Unit5) : State :=
  ((s.auditEvent e).auditWindow auditor auditor u).auditWindow e auditor u

/-- AUDIT_VOTE: the third engine has run the same instructions on the same inputs; the unit whose CRC differs from the other two is
quarantined and the job held under class AUDIT. -/
def auditVote (r : AuditRun) (thirdBad : Option W32) (s : State) : State :=
  match s.auditorOf r.engine, s.int.auditVotes.find? fun v => v.1 == r with
  | some b, some (_, a, o) =>
    let t := thirdBad.getD (s.runDone r).crc
    let u : Unit5 := if (s.runDone r).row then .row else .vector
    let s := s.modInt fun x => { x with
      auditVotes := x.auditVotes.filter fun v => v.1 != r
      auditDone := (r.engine.val, r.run) :: x.auditDone }
    if (s.thirdEngine r.engine b).isSome = true ∧ t = a ∧ a ≠ o then s.auditFault r.engine b u
    else if (s.thirdEngine r.engine b).isSome = true ∧ t = o ∧ a ≠ o then s.auditFault b b u
    else s.auditSplit r.engine b u
  | _, _ => s

def execAuditVote (r : AuditRun) (thirdBad : Option W32) (s : State) : Res := .next (auditVote r thirdBad s)

/-- Deeds that no fault window reaches any more: those up to the last audit that the engine passed (R385). -/
def EngInt.forget (x : EngInt) : EngInt :=
  { x with deeds := x.deeds.filter fun d => decide (x.sampleStep.toNat < d.step.toNat) }

/-- The result of an audit step at its boundary: engines without a mismatch have passed (R382). -/
def State.auditBoundary (s : State) (step : StepNo) : State :=
  if s.auditStep step then
    let skipped := s.auditable.length - s.audited.length
    let s := s.audited.foldl (fun s e => match s.auditorOf e with
      | some a => s.modEngInt e fun x => ({ x with sampleStep := step, auditor := BitVec.ofNat 7 a.val }).forget
      | none => s) s
    s.modInt fun x => { x with
      auditStep := step, auditSkipped := BitVec.ofNat 8 (min skipped 255), auditDone := [], auditVotes := [] }
  else s.modInt fun x => { x with auditDone := [], auditVotes := [] }

/-! ### Drift audit (R251) -/

/-- The pages of a shard's version derived from masters at hand, by parameter, each as far as the panels reach; what the
conversion meets is counted and reported (R127). -/
def State.derivedPages (s : State) (e : EngineId) (x : ShardEnt) (y : LedgerEntry) (masters : List (List Byte)) :
    List (Nat × List Byte) × State :=
  let r := ((s.paramsOf x).zip masters).foldl (fun (a : List (Nat × List Byte) × ExcCnt) (p : ParamRec × List Byte) =>
    let (pages, cnt) := s.deriveParam p.1 y.version fun k n => f32 (rdW 32 p.2 ((k * p.1.n + n) * 4))
    (a.1 ++ (pages.zipIdx).map fun (d : List Byte × Nat) => (p.1.page + d.2, d.1), a.2.plus cnt)) ([], ExcCnt.init)
  (r.1, (s.modVec e fun v => v.tally r.2).updEvents e x.shard r.2)

/-- The pages of an audit whose derived checksum is not that of the stored page: read by channel 3 one by one, the last page of
a parameter with the old page's rest (R221); a page that cannot be read ends it. -/
def State.driftPages (s : State) (e : EngineId) (y : LedgerEntry) (ps : List (Nat × List Byte)) :
    Except Status (List Nat) × State :=
  ps.foldl (fun (a : Except Status (List Nat) × State) d =>
    match a with
    | (.error st, s) => (.error st, s)
    | (.ok l, s) =>
      let (c, q) := s.poolLoc e (s.mapWord e y d.1)
      match s.fetchPage e 3 c q noWord 4096 ReadMet.none noMb with
      | (.ok p, s) => (.ok (if p.2.hallmark = crc32c (d.2 ++ p.1.drop d.2.length) then l else l ++ [d.1]), s)
      | (.error st, s) => (.error st, s)) (.ok [], s)

/-- The drift audit of one owned shard: every page derived from the masters against the stored page's hallmark. A master or a
page that does not read ends the audit of its shard, with the records, the halt of channel 3 and its mark (R301; log entry
127). PHASE shows 6 until the engine's next update begins (log entry 166). -/
def State.driftShard (s : State) (e : EngineId) (step : StepNo) (x : ShardEnt) : State :=
  match s.eng[e.val].current x.shard with
  | none => s
  | some (_, y) =>
    let s := s.modLed e fun l => { l with updShard := x.shard, updPhase := 6 }
    match s.readMasters e x with
    | (.error _, s) => s
    | (.ok masters, s) =>
      let (ps, s) := s.derivedPages e x y masters
      match s.driftPages e y ps with
      | (.error _, s) => s
      | (.ok bad, s) =>
        if bad.isEmpty then s.modLed e fun l => { l with auditPasses := wrapAdd l.auditPasses 1 }
        else
          let s := s.modLed e fun l => { l with auditPageFails := satAdd l.auditPageFails bad.length }
          (bad.foldl (fun (s : State) (p : Nat) => s.post (islEngine e) clsLedger .checkFail noMb
            { w0 := put Status.checkFail.code.toNat 56 ||| put 1 52 ||| put e.val 45 ||| put p 0, w1 := put x.shard.toNat 40
              w2 := put step.toNat 16, w3 := 0 }) s).setErr errCheck

def State.driftAudit (s : State) (step : StepNo) : State :=
  match s.shardsSec with
  | none => s
  | some x =>
    if x.auditEvery = 0 ∨ step.toNat % x.auditEvery ≠ 0 then s
    else s.stages.foldl (fun s e => ((s.shardsOf e).filter s.owns).foldl (fun s y => s.driftShard e step y) s) s

/-! ### Holding at a boundary -/

/-- The job stands at a boundary and moves to HELD. -/
def State.holdNow (s : State) : State :=
  let s := s.cancelPending
  let s := s.modJob fun j => { j with state := .held, stepOn := false, runLeft := none }
  (s.modInt fun x => { x with holds := satAdd x.holds 1 }).setErr errHeld

/-! ### Takeover (R434, R435) -/

/-- Fetches of a shard under way end, with the entries they fill. -/
def State.dropFetches (s : State) (e : EngineId) (h : BitVec 24) : State :=
  let s := ((s.eng[e.val].led.fetches.filter fun f => f.shard == h).filterMap (·.entry)).foldl (fun s i =>
    if (s.eng[e.val].ledger i).state = .building then s.freeEntry e i else s) s
  s.modLed e fun l => { l with fetches := l.fetches.filter fun f => f.shard != h }

/-- A version re-derived from the region and promoted; where the region cannot be read the job follows its FAULTS policy
(R282). -/
def State.rederive (s : State) (e : EngineId) (x : ShardEnt) (version : StepNo) : State :=
  match s.allocEntry e x version true false true with
  | (none, s) => s
  | (some i, s) =>
    match s.deriveShard e x i with
    | (none, s) => s.promoteEntry e i
    | (some st, s) => (s.freeEntry e i).raise (mkEvent .unrepairable e st (updRec st x.shard e 0 s.curStep) noMb)

/-- A version with the pages of the one before it, published (the lost update's). -/
def State.publishSame (s : State) (e : EngineId) (x : ShardEnt) (version : StepNo) : State :=
  match s.allocEntry e x version true false true with
  | (none, s) => s
  | (some i, s) => s.makeReady e i

/-- Neither slot of a mirror is valid: UNREPAIRABLE with HOLD. -/
def State.noSlot (s : State) (x : ShardEnt) : State :=
  (s.post (islEngine (Fin.ofNat 128 x.engine)) clsEvent .peerLost noMb
    (rec0 (put Status.peerLost.code.toNat 56 ||| put x.shard.toNat 32 ||| put x.engine 25))).holdNow

/-- The engine's CURRENT version of a shard is older than v, or there is none. -/
def State.behindOf (s : State) (e : EngineId) (h : BitVec 24) (v : StepNo) : Bool :=
  match s.eng[e.val].current h with
  | some (_, y) => decide (y.version.toNat < v.toNat)
  | none => true

/-- One shard taken over from its valid slot with the higher VERSION. -/
def State.takeOver (s : State) (step : StepNo) (skipped : Bool) (x : ShardEnt) : State :=
  let e : EngineId := Fin.ofNat 128 x.engine
  let slots := s.ckpt.mirrorSlots.filter fun y => y.1 == x.shard
  let best := slots.foldl (fun (m : Option (BitVec 24 × Fin 2 × StepNo)) y => match m with
    | none => some y
    | some z => if z.2.2.toNat < y.2.2.toNat then some y else some z) none
  match best with
  | none => s.noSlot x
  | some (_, k, v) =>
    let s := s.dropFetches e x.shard
    let s := s.modCkpt fun c => { c with takenOver := (x.shard, k.val) :: c.takenOver, taken := satAdd c.taken 1 }
    let s := s.setUnmirrored x.shard true
    let s := s.modLed e fun l => { l with
      entries := l.entries.map fun y => if y.2.shard == x.shard then (y.1, { y.2 with owned := true }) else y }
    let s := if s.behindOf e x.shard v then s.rederive e x v else s
    if v.toNat < step.toNat ∧ skipped = false then
      (s.publishSame e x step).modCkpt fun c => { c with lostUpdates := satAdd c.lostUpdates 1 }
    else s

/-- Shards whose owner was declared lost in the step: taken over here, or asked for at their mirror from now on. -/
def State.takeovers (s : State) (step : StepNo) (skipped : Bool) : State :=
  let s := (s.shardEnts.filter fun x => s.ckpt.toTake.contains x.shard).foldl (fun s x => s.takeOver step skipped x) s
  let lost := s.env.lostNow.filterMap fun i => (s.peerEnt i).map (·.module)
  let moved := s.shardEnts.filter fun x =>
    lost.contains (s.ownerOf x) && x.mirror != s.ownModule && x.mirror != s.ownerOf x && (s.peerOf x.mirror).isSome
  let s := s.modCkpt fun c => { c with toTake := [], reowned := c.reowned ++ moved.map (·.shard) }
  let s := moved.foldl (fun s x =>
    let e : EngineId := Fin.ofNat 128 x.engine
    (s.eng[e.val].led.fetches.filter fun f => f.shard == x.shard).foldl (fun s f => s.askFetch e x f 0 (s.shardPages x)) s) s
  let env := s.env
  { s with env := { env with lostNow := [] } }

/-! ### Live replicas (R438) -/

/-- The elastic values of one table at a live count. -/
def elasticTable (l : List Elastic) (e plane live : Nat) (t : SchedTable) : SchedTable :=
  let of (row : Nat) : Option Elastic :=
    (l.filter fun x => x.engine == e && x.plane == plane && x.row == row && decide (live ≤ x.live)).foldl (fun m x => match m with
      | none => some x
      | some (y : Elastic) => if x.live < y.live then some x else some y) none
  let lim := (l.filter fun x => x.engine == e && x.plane == plane).foldl (fun n x => match of x.row with
    | some y => if y.floatLimit = 0 then n else y.floatLimit
    | none => n) t.floatLimit
  { t with
    floatLimit := lim
    rows := (t.rows.zipIdx).map fun r => match of r.2 with
      | some x => { r.1 with clim := x.clim }
      | none => r.1 }

/-- Elastic entries of the active plane written into the tables. -/
def State.elastic (s : State) : State :=
  match s.ckptSec with
  | none => s
  | some c =>
    if c.elastic.isEmpty then s
    else
      let live := s.ckpt.live
      s.stages.foldl (fun (s : State) (e : EngineId) => s.modEng e fun x =>
        if s.job.plane = 0 then { x with table0 := x.table0.map (elasticTable c.elastic e.val 0 live) }
        else { x with table1 := x.table1.map (elasticTable c.elastic e.val 1 live) }) s

/-- The live map in effect is that of a shrunk job. -/
def State.narrowed (s : State) : Bool :=
  match s.job.charter with
  | some c => s.ckpt.live != 0 && decide (s.ckpt.live < c.replicaCount)
  | none => false

/-- LIVE maps of the step just closed and before take effect in turn; one with too few replicas holds the job instead (R438; log
entry 179). -/
def State.applyLive (s : State) : State :=
  match s.job.charter with
  | none => s
  | some c =>
    let due := s.ckpt.liveNext.filter fun l => decide (l.1.toNat ≤ s.curStep.toNat)
    let s := s.modCkpt fun k => { k with liveNext := k.liveNext.filter fun l => !decide (l.1.toNat ≤ s.curStep.toNat) }
    due.foldl (fun s l =>
      if l.2.1 < c.ckpt.shrinkMin then
        (s.post islBursar clsEvent .peerLost noMb (rec0 (put Status.peerLost.code.toNat 56))).holdNow
      else
        let gone := (List.range c.replicaCount).filter fun i => i != c.replicaIndex && !(bitAt l.2.2 i)
        let s := gone.foldl (fun s i => s.declareLost (c.peers.replicas.getD i 0xFFFF)) s
        s.modCkpt fun k => { k with liveMap := l.2.2, live := l.2.1, liveStep := wrapAdd s.curStep 1 }) s

/-! ### The next step (R210, R212) -/

/-- An engine at the start of a step. -/
def Engine.startStep (x : Engine) (t : Option SchedTable) : Engine :=
  { x with
    save := x.saved
    seq := { x.seq.fresh t with running := true }
    arr := { x.arr with touched := [], homeFlight := [] }
    vec := { x.vec with stats := [] }
    led := { x.led with pubGroups := [], loads := [], undo := [] } }

/-- The next step starts: the live map, the clearing trees, then every engine at ENTRY. -/
def State.startStep (s : State) : State :=
  if s.job.state ≠ .running ∨ s.job.stepOn = true ∨ s.int.assayWindow = true then s
  else
    let s := s.applyLive
    if s.job.state ≠ .running then s
    else
      let s := if s.narrowed then s.elastic else s
      let env := s.env
      let s : State := { s with env := { env with live := s.liveReplicas, livePrev := env.live } }
      let s := s.stages.foldl (fun (s : State) (e : EngineId) =>
        let t := s.table e
        s.modEng e fun x => x.startStep t) s
      (s.modJob fun j => { j with stepOn := true, fresh := false }).clrStart

/-! ### Assay windows and idle runs (R399 to R401) -/

/-- The assay area of an engine. -/
def State.assayArea (s : State) (e : EngineId) : Option Nat :=
  match s.faultEng e.val with
  | some f => if f.assayValid then some f.assayAddr else none
  | none => none

/-- At the boundary of a step that opens a window: engines without an area are counted. -/
def State.openWindow (s : State) (step : StepNo) : State :=
  let every := fld s.int.assayCfg 47 32
  if every = 0 ∨ fld s.int.assayCfg 31 16 = 0 ∨ s.int.assay.isNone = true ∨ step.toNat % every ≠ 0 then s
  else
    let n := ((List.finRange 128).filter fun e => s.engOk e.val && (s.assayArea e).isNone).length
    s.modInt fun x => { x with assayWindow := true, assaySkipped := BitVec.ofNat 8 (min n 255) }

/-- What an assay leaves in an engine: nothing in a sealed job's area and rows, else values of its own. -/
def State.assayLeaves (s : State) (e : EngineId) : State :=
  let (n, s) := s.draw
  let (m, s) := s.draw
  let (k, s) := s.draw
  let sealed := s.sealedJob
  let s := s.modEng e fun x => { x with
    store := match s.assayArea e with
      | some a => if sealed then memClear x.store a 1048576 else memWrite x.store a (toBytes (Config.free 8388608 n) 1048576)
      | none => x.store
    acc := if sealed then [] else memWrite [] 0 (toBytes (Config.free 4194304 m) 524288) }
  s.modVec e fun v => { v with vr := memWrite [] 0 (toBytes (Config.free 524288 k) 65536) }

/-- One result: its frame; a CRC other than the expected one is a strike on the unit. -/
def State.assayResult (s : State) (a : Assay) (r : AssayResult) : State :=
  let want : W32 := Config.assayExpected a.image (unitIdx r.unit).val
  let ok := r.crc = want
  let st : Status := if ok then .ok else .checkFail
  let s := s.post (islEngine r.engine) clsAssay st noMb
    { w0 := put st.code.toNat 56 ||| put (unitIdx r.unit).val 52 ||| put r.engine.val 45, w1 := a.id
      w2 := put r.crc.toNat 32 ||| put want.toNat 0, w3 := 0 }
  if ok then s
  else
    ((s.modInt fun x => { x with assayFails := satAdd x.assayFails 1 }).setErr errAssay).strike r.engine r.unit 0

/-- The units that an image tests, in the order of its UNITS field (R397). -/
def Assay.tested (a : Assay) : List Unit5 :=
  (if bitAt a.units 0 then [.arrayA, .arrayB] else []) ++ (if bitAt a.units 1 then [.vector] else []) ++
  (if bitAt a.units 2 then [.reduction] else []) ++ (if bitAt a.units 3 then [.row] else [])

/-- The units still to be tested on an engine, within the µs left: each that ends gives its result, the one that does not is taken
up again where it stopped; with the last one the run is complete (R399, R406). -/
def State.assayUnits (s : State) (a : Assay) (e : EngineId) (tests : List AssayResult) : List Unit5 → Nat → State
  | [], _ =>
    (s.modInt fun x => { x with assayRuns := wrapAdd x.assayRuns 1 }).modEngInt e fun x => { x with assayPos := 0, assaySpent := 0 }
  | u :: us, left =>
    match tests.find? fun r => r.engine == e && r.unit == u with
    | none => s
    | some r =>
      let need := r.micros - (s.eng[e.val]).int.assaySpent
      if need ≤ left then
        ((s.modEngInt e fun x => { x with assayPos := x.assayPos + 1, assaySpent := 0 }).assayResult a r).assayUnits a e tests us
          (left - need)
      else s.modEngInt e fun x => { x with assaySpent := x.assaySpent + left }

/-- An engine's assay, begun or taken up again, for at most so many µs and at most the image's BUDGET (R399). -/
def State.assayOn (s : State) (a : Assay) (limit : Nat) (tests : List AssayResult) (e : EngineId) : State :=
  (s.assayLeaves e).assayUnits a e tests (a.tested.drop (s.eng[e.val]).int.assayPos) (min limit a.budget.toNat)

/-- ASSAY_WINDOW_END: the engines with an area have run the assay for at most GLB_ASSAY_CFG.BUDGET; the next step starts. -/
def assayWindowEnd (tests : List AssayResult) (s : State) : State :=
  match s.int.assay with
  | none => (s.modInt fun x => { x with assayWindow := false }).startStep
  | some a =>
    if s.int.assayWindow = false then s
    else
      let ran := (List.finRange 128).filter fun e =>
        s.engOk e.val && (s.assayArea e).isSome && tests.any fun r => r.engine == e
      let s := ran.foldl (fun s e => s.assayOn a (fld s.int.assayCfg 31 16) tests e) s
      (s.modInt fun x => { x with assayWindow := false }).startStep

def execAssayWindowEnd (tests : List AssayResult) (s : State) : Res := .next (assayWindowEnd tests s)

/-- IDLE_ASSAY: a run on an engine with ROLE 0, or while the job is not RUNNING, bounded by the image's BUDGET alone (R399). -/
def idleAssay (e : EngineId) (tests : List AssayResult) (s : State) : State :=
  match s.int.assay with
  | none => s
  | some a =>
    if fld s.int.assayCfg 15 0 = 0 ∨ s.engOk e.val = false ∨ (s.job.state = .running ∧ s.stages.contains e = true) then s
    else s.assayOn a a.budget.toNat tests e

def execIdleAssay (e : EngineId) (tests : List AssayResult) (s : State) : Res := .next (idleAssay e tests s)

/-! ### Actions of R61 -/

/-- Every till of the active plane is empty (R53). -/
def State.tillsEmpty (s : State) : Bool :=
  match s.planeCfg with
  | some p => p.tills.all fun c =>
      let x := s.till (Fin.ofNat 128 c.engine) c.till
      x.msgs.isEmpty && x.outs.all (·.acked)
  | none => true

/-- The ramp table of the active plane. -/
def State.rampCurve (s : State) : Option Curve := s.planeCfg.bind fun p => p.curves.find? fun c => c.kind == 3

/-- The switch to the other plane (R54), with its day-book entry. -/
def State.switchPlane (s : State) : State :=
  let s := s.modJob fun j => { j with plane := 1 - j.plane, switches := wrapAdd j.switches 1 }
  let s := s.modAllEng fun e => { e with led := { e.led with residency := [] } }
  (s.openTills true).dbModule .ok clsEvent (put s.job.plane.val 0) 0

/-- A pending PLANE_SWITCH at a boundary. -/
def State.switchDue (s : State) : State :=
  match s.job.pendSwitch with
  | none => s
  | some p =>
    let s := s.modJob fun j => { j with pendSwitch := none }
    if s.tillsEmpty then s.switchPlane.complete p .ok 0 else s.complete p .stateConflict 0

/-- A checkpoint policy falls due at a step. -/
def State.policyDue (s : State) (step : StepNo) : Bool :=
  match s.ckptSec with
  | some c => c.every != 0 && step.toNat % c.every == c.offset
  | none => false

/-- A mark can be taken: no checkpoint drains, and the commit records have been read (R424). -/
def State.markFree (s : State) : Bool := s.ckpt.drain.isNone && s.ckpt.recordsRead

def State.skipMark (s : State) : State := s.modCkpt fun k => { k with skipped := satAdd k.skipped 1 }

/-- The mark of the policy, where one is due. -/
def State.markPolicy (s : State) (step : StepNo) (next : Fin 2) : State :=
  if s.policyDue step then (if s.markFree then s.escrowMark step next else s.skipMark) else s

/-- The escrow mark of a boundary: CHECKPOINT_TAKE or the policy (R412). -/
def State.markDue (s : State) (step : StepNo) : State :=
  let next : Fin 2 := if s.job.pendSwitch.isSome && s.tillsEmpty then 1 - s.job.plane else s.job.plane
  match s.job.pendCkpt with
  | some (p, named) =>
    if named.toNat ≤ step.toNat then
      let s := s.modJob fun j => { j with pendCkpt := none }
      if s.markFree then (s.escrowMark step next).complete p .ok 0
      else (if s.policyDue step then s.skipMark else s).complete p .stateConflict 0
    else s.markPolicy step next
  | none => s.markPolicy step next

/-- The end of the RUN count, or PAUSE. -/
def State.runDue (s : State) : State :=
  let s := s.modJob fun j => { j with runLeft := j.runLeft.map fun n => n - 1 }
  match s.job.pendPause with
  | some p => (s.modJob fun j => { j with pendPause := none, state := .active, runLeft := none }).complete p .ok 0
  | none => if s.job.runLeft = some 0 then s.modJob fun j => { j with state := .active, runLeft := none } else s

/-- The actions of a boundary in their order; during a reset of the bursar they wait, and a policy mark is skipped
(R492). -/
def State.actions (s : State) (step : StepNo) (skipped : Bool) : State :=
  if s.glb.bursarUp then
    let s := s.markDue step
    let s := s.takeovers step skipped
    if s.job.state = .running then s.switchDue.runDue else s
  else
    let s := if s.policyDue step then s.skipMark else s
    let s := s.takeovers step skipped
    s.modJob fun j => { j with runLeft := j.runLeft.map fun n => max 1 (n - 1) }

/-! ### STEP_BOUNDARY (R210) -/

/-- The loss scale and V of the next step (R234, R254), the count of updates, and what the step no longer needs. A verdict that is
not there yet takes its effect as it comes (log entry 187). -/
def State.updBoundary (s : State) (step : StepNo) (v : Option Verdict) : State :=
  s.modUpd fun u =>
    let good := match v with
      | some v => !v.skip
      | none => false
    { u with
      hist := ((step, u.exp) :: u.hist).take 32
      exp := match v with
        | some v => toInt 8 v.eNext.toNat
        | none => u.exp
      due := if good then step else u.due
      duePrev := u.due
      updates := if good then wrapAdd u.updates 1 else u.updates
      ran := false, sent := [] }

/-- Tills at the boundary. -/
def State.tillsBoundary (s : State) : State :=
  match s.planeCfg with
  | some p => p.tills.foldl (fun s c => s.tillBoundary (Fin.ofNat 128 c.engine) c.till) s
  | none => s

/-- The replay of a step has retired: its record, which stands after the errors of the boundary (R24). -/
def State.replayRetired (s : State) (r : Option ReplaySt) : State :=
  match r with
  | none => s
  | some r => s.postAt islBursar clsReplay .ok r.step noMb (replayRec r.cause 2 r.marks r.island r.step)

/-- The scrub rate of every controller read again at a step boundary (R276); a controller whose sensors are not among the
readings is at the bottom of the scale. -/
def State.scrubRates (s : State) (r : Readings) : State :=
  let hot (c : CtlId) : Int := (hottestOf r fun i => i == islCtl c).getD (-128)
  let s := s.forRange 32 fun s v => s.scrubRate (.vault (Fin.ofNat 32 v)) (hot (.vault (Fin.ofNat 32 v)))
  s.forRange 48 fun s f => s.scrubRate (.far (Fin.ofNat 48 f)) (hot (.far (Fin.ofNat 48 f)))

/-- A boundary that passes. -/
def State.closeStep (s : State) (r : Readings) : State :=
  let step := s.curStep
  let v := s.verdictOf step
  let skipped := match v with
    | some v => v.skip
    | none => false
  let replay := s.int.replay
  let s := s.modInt fun x => { x with replay := none }
  let s := s.stages.foldl (fun s e => (s.ledgerBoundary e step).poolAudit e step) s
  let s := s.tillsBoundary.clrBoundary step skipped
  let s := s.updBoundary step v
  let s := s.auditBoundary step
  let s := (s.modJob fun j => { j with step := step, stepOn := false, planeClosed := j.plane }).modGlb fun g => { g with lastRetired := step }
  let s := s.actions step skipped
  let s := ((s.rampCheck s.rampCurve r).curvesDue).scrubRates r
  ((s.openWindow step).startStep.replayRetired replay).driftAudit step

/-- The boundary can pass: every engine has retired the step, the verdict of a step that ran an UPDATE is there, every
audit comparison has completed, no event of class AUDIT waits to hold the job (R383, R390), and no replay has stopped the
engines. -/
def State.boundaryReady (s : State) : Bool :=
  s.job.state == .running && s.job.stepOn &&
  (match s.int.replay with
    | some r => !r.stopped
    | none => true) &&
  (s.stages.all fun e => (s.eng[e.val]).seq.retired) &&
  (!s.upd.ran || (s.verdictOf s.curStep).isSome) && s.auditComplete && !(s.int.raised.any fun ev => ev.cls == .audit)

/-- STEP_BOUNDARY; a promotion that would leave too many live versions stops it at every engine (R219). -/
def stepBoundary (r : Readings) (s : State) : State :=
  if s.boundaryReady = false then s
  else if s.depthBreach then
    s.stages.foldl (fun s e => (s.modSeq e fun q => { q with retired := false }).rowFail e .stateConflict noMb 0) s
  else s.closeStep r

def execStepBoundary (r : Readings) (s : State) : Res := .next (stepBoundary r s)

end Sys2Proof.Machine
end

