-- ==== Sys2Proof/Machine/Replay.lean ====
section
/-! DEFINITION. Marks, the restart of a step, events and their actions, and the outcomes of SHRINK (09 R281; 13 R387 to R396;
14 R436, R437). -/

namespace Sys2Proof.Machine

/-- The island of an identifier. -/
def islandOf (w : W16) : IslandIdx := ((List.finRange 260).find? fun i => islandId i == w).getD islBursar

/-- REPLAY_MARK: a mark of the step in flight; one while the engines stand still restarts the replay (R391). -/
def execReplayMark (island : W16) (st : Status) (step : StepNo) (s : State) : Res :=
  .next (if step = s.curStep then s.settle.mark (islandOf island) st else s)

/-! ### Repair (R281) -/

/-- Version pages that cannot be read: those named, and those that hold an uncorrectable codeword. -/
def State.badPages (s : State) (named : List (EngineId × BitVec 24 × Nat)) : List (EngineId × BitVec 24 × Nat × Nat) :=
  s.stages.flatMap fun e => (s.eng[e.val].led.entries.filter fun y => y.2.state == .current || y.2.state == .retired || y.2.state == .ready).flatMap fun y =>
    (List.range y.2.pages).filterMap fun p =>
      let (c, q) := s.poolLoc e (s.mapWord e y.2 p)
      if (y.2.state == .current && named.contains (e, y.2.shard, p)) || !(s.pageGood c q) then
        some (e, y.2.shard, y.1, p)
      else none

/-- A fetch that repairs pages or map pages of an entry from its owner (R281). -/
def State.askRepair (s : State) (e : EngineId) (x : ShardEnt) (i : Nat) (pages : List Nat) (maps : List (Nat × List Byte)) :
    State :=
  if s.eng[e.val].led.fetches.any fun f => f.entry == some i && f.gotPages == pages && f.maps == maps then s
  else
    let f : Fetch :=
      { shard := x.shard, version := (s.eng[e.val].ledger i).version, req := s.eng[e.val].led.newReq, entry := some i
        restore := false, waiting := false, held := false, gotPages := pages, failed := [], maps := maps }
    match s.peerOf (s.ownerOf x) with
    | some _ => (s.modLed e fun l => { l with fetches := l.fetches ++ [f] }).askFetch e x f (pages.headD 0) pages.length
    | none => s.repairFail e x.shard

/-- A page of an owned shard re-derived; one of another is asked for at its owner. -/
def State.repairPage (s : State) (b : EngineId × BitVec 24 × Nat × Nat) : State :=
  let (e, h, i, p) := b
  match s.shardEnt h with
  | none => s
  | some x =>
    if s.owns x then
      match s.readMasters e x with
      | (.error _, s) => s.repairFail e h
      | (.ok masters, s) =>
        let (ps, s) := s.derivedPages e x (s.eng[e.val].ledger i) masters
        match ps.find? fun d => d.1 == p with
        | some d => s.repairWith e h i p d.2
        | none => s
    else s.askRepair e x i [p] []

/-- The pool page in use that holds page p of an owned shard, by its tag and by the hallmark of the derived page (log entry
145). -/
def State.foundPage (s : State) (e : EngineId) (h : BitVec 24) (p : Nat) (d : List Byte) : Option Nat :=
  ((s.eng[e.val].led.shares.map (·.1)).mergeSort fun a b => decide (a ≤ b)).find? fun q =>
    let (c, a) := s.poolLoc e q
    let (data, x) := s.readPage c a
    x.kind == 2 && fld x.w2 63 40 == h.toNat && fld x.w2 39 8 == p && x.hallmark == crc32c (d ++ data.drop d.length)

/-- A page-map page that cannot be read: at the owner made again from the pages re-derived from the masters, elsewhere asked
for at the owner; either way written only if the map then hashes to MAP_HALLMARK (R281; log entry 145). -/
def State.repairMapPage (s : State) (e : EngineId) (i k : Nat) (y : LedgerEntry) : State :=
  match s.shardEnt y.shard with
  | none => s
  | some x =>
    if s.owns x then
      match s.readMasters e x with
      | (.error _, s) => s.repairFail e y.shard
      | (.ok masters, s) =>
        let (ps, s) := s.derivedPages e x y masters
        let ws := (List.range (min 1024 (y.pages - 1024 * k))).map fun j =>
          ((ps.find? fun d => d.1 == 1024 * k + j).bind fun d => s.foundPage e y.shard d.1 d.2).getD 0
        s.repairMap e y.shard i k (ws.flatMap fun w => toBytes (BitVec.ofNat 32 w) 4)
    else s.askRepair e x i [] [(k, [])]

/-- Every page-map page with an uncorrectable codeword. -/
def State.repairMaps (s : State) : State :=
  s.stages.foldl (fun (s : State) (e : EngineId) =>
    (s.eng[e.val].led.entries.filter fun y => y.2.state != .free && y.2.state != .building).foldl
      (fun (s : State) (y : Nat × LedgerEntry) =>
        (y.2.mapPages.zipIdx).foldl (fun (s : State) (q : Nat × Nat) =>
          let (c, p) := s.poolLoc e q.1
          if s.pageGood c p then s else s.repairMapPage e y.1 q.2 y.2) s) s) s

/-! ### Restart (R388) -/

/-- REPLAY_RESTART: steps 4 to 6 of R388, after the repair of pages that could not be read; where the engines stop for HOLD,
its end (R396). -/
def replayRestart (pageBad : List (EngineId × BitVec 24 × Nat)) (s : State) : State :=
  match s.int.replay with
  | none => s.holdOn
  | some r =>
    if s.job.state ≠ .running ∨ s.job.stepOn = false ∨ r.stopped = false ∨ s.replayLimit < r.marks ∨ s.quiet = false then s
    else
      let s := s.restoreStep
      let bad := s.badPages pageBad
      let n := s.int.raised.length
      let s := bad.foldl (fun s b => s.repairPage b) s.repairMaps
      let waits := s.stages.any fun e => s.eng[e.val].led.fetches.any fun f => s.isRepair e f
      if n < s.int.raised.length ∨ waits = true then s
      else
        let s := s.stages.foldl (fun (s : State) (e : EngineId) => s.modSeq e fun q => { q with running := true }) s
        let s := (s.modInt fun x => { x with
          replay := some { r with stopped := false }, replays := wrapAdd x.replays 1, auditDone := [], auditVotes := [] }).drainOn
        (s.post islBursar clsReplay .ok noMb (replayRec r.cause 1 r.marks r.island r.step)).setErr errReplay

def execReplayRestart (pageBad : List (EngineId × BitVec 24 × Nat)) (s : State) : Res := .next (replayRestart pageBad s)

/-- REPLAY_EXHAUSTED: the step has been marked more than REPLAY_LIMIT times. -/
def replayExhausted (s : State) : State :=
  match s.int.replay with
  | none => s
  | some r =>
    if r.stopped = false ∨ r.marks ≤ s.replayLimit ∨ s.int.raised.any (fun ev => ev.cls == .exhausted) = true then s
    else s.raise (islEvent .exhausted (islandOf r.island) .stateConflict (replayRec r.cause 3 r.marks r.island r.step) noMb)

def execReplayExhausted (s : State) : Res := .next (replayExhausted s)

/-! ### SHRINK (R436) -/

/-- LEAVE on every Envis link (R323). -/
def State.sendLeave (s : State) : State :=
  match s.peersSec with
  | none => s
  | some p => (p.entries.zipIdx).foldl (fun s x => if x.1.ports = 0 then s else s.sendCtrl x.2 0x9 7 [0x02]) s

/-- LOSS of a replica to NORM_ROOT and NORM_ALT. -/
def State.sendLoss (s : State) (replica : Nat) : State :=
  match s.shardsSec with
  | none => s
  | some x =>
    let one (s : State) (m : BitVec 12) : State :=
      if m = s.ownModule then loss (BitVec.ofNat 16 replica) s
      else match s.peerOf m with
        | some i => s.sendNorm i (lossBytes replica s.curStep)
        | none => s
    if x.normAlt = x.normRoot then one s x.normRoot else one (one s x.normRoot) x.normAlt

/-- A shard owned here has no live mirror, or too few replicas would be left. -/
def State.cannotLeave (s : State) (c : Charter) : Bool :=
  (s.shardEnts.any fun x => s.owns x && (s.mirrorPeer x).isNone) || decide (s.ckpt.live - 1 < c.ckpt.shrinkMin)

/-- The module leaves the job. -/
def State.leaveJob (s : State) : State :=
  match s.job.charter with
  | none => s.hold
  | some c =>
    if s.cannotLeave c then s.hold
    else ((s.sendLoss c.replicaIndex).sendLeave).hold

/-- The replica whose word names a peer. -/
def Charter.replicaOf (c : Charter) (peer : Nat) : Option Nat :=
  (List.range c.replicaCount).find? fun i => i != c.replicaIndex && c.peers.replicas.getD i 0xFFFF == peer

/-- The outcome of SHRINK. -/
def State.shrink (s : State) (ev : FaultEv) : State :=
  match s.job.charter with
  | none => s
  | some c =>
    match ev.cls with
    | .peerLost =>
      if c.plane.any fun p => p.tills.any fun t => t.path == .envis && t.link == ev.peer then s.leaveJob
      else match c.replicaOf ev.peer with
        | some i => s.sendLoss i
        | none => s
    | _ => s.leaveJob

/-! ### FAULT_EVENT (R394) -/

/-- The action of a class. -/
def Faults.action (f : Faults) : EvClass → Action
  | .invalid => f.actions.getD 0 .report
  | .ovfSat => f.actions.getD 1 .report
  | .nanProd => f.actions.getD 2 .report
  | .rowFail => f.actions.getD 3 .hold
  | .peerLost => f.actions.getD 4 .hold
  | .unitLost => f.actions.getD 5 .hold
  | .unrepairable => f.actions.getD 6 .hold
  | .exhausted => .hold
  | .audit => .hold

/-- FAULT_EVENT: the event leaves as a frame and its class's action is taken. -/
def faultEvent (ev : FaultEv) (s : State) : State :=
  let s := s.modInt fun x => { x with raised := x.raised.erase ev }
  match s.faults with
  | none => s
  | some f =>
    if s.job.locked = false then s
    else
      let s := s.post ev.island clsEvent ev.status ev.mb ev.record
      let s := if ev.cls = .audit then s.setErr errAudit else s
      match f.action ev.cls with
      | .report => s
      | .replay => s.settle.mark ev.island ev.status
      | .hold => s.hold
      | .shrink => s.shrink ev

def execFaultEvent (ev : FaultEv) (s : State) : Res := .next (faultEvent ev s)

end Sys2Proof.Machine
end

