-- ==== Sys2Proof/Machine/Dma.lean ====
section
/-! DEFINITION. DMA channels: slips, bursts, completion, stops and halts, object blocks and requests of a peer
(10 R286 to R302; 11 R326, R327; 12 R349). -/

namespace Sys2Proof.Machine

/-! ### Addresses (R287) -/

/-- What an address names. -/
inductive Place
  | store (e : EngineId) (a : Nat)
  | dram (c : CtlId) (a : Nat)
  | host (a : Nat)
  | peer (i off : Nat)
  | none
  | reserved
deriving DecidableEq, Repr, Inhabited

/-- The place of an address as engine e's channels read it; reserved bits must be zero. -/
def placeOf (e : EngineId) (w : W64) : Place :=
  match fld w 63 60 with
  | 0 => if fld w 59 24 = 0 then .store e (fld w 23 0) else .reserved
  | 1 => if fld w 59 31 = 0 then .store (Fin.ofNat 128 (fld w 30 24)) (fld w 23 0) else .reserved
  | 2 => if fld w 59 41 = 0 ∧ fld w 35 33 = 0 then .dram (.vault (Fin.ofNat 32 (fld w 40 36))) (fld w 32 0) else .reserved
  | 3 =>
    if fld w 59 42 = 0 ∧ bitAt w 35 = false ∧ fld w 41 36 < 48 then .dram (.far (Fin.ofNat 48 (fld w 41 36))) (fld w 34 0)
    else .reserved
  | 4 => .host (fld w 59 0)
  | 5 => .peer (fld w 59 48) (fld w 47 0)
  | 15 => if fld w 59 0 = 0 then .none else .reserved
  | _ => .reserved

def storeBytes : Nat := 2 ^ 24

/-- A range lies inside its store. -/
def Place.fits : Place → Nat → Bool
  | .store _ a, n => decide (a + n ≤ storeBytes)
  | .dram c a, n => decide (a + n ≤ ctlBytes c)
  | .host a, n => decide (a + n ≤ 2 ^ 60)
  | .peer _ a, n => decide (a + n ≤ 2 ^ 48)
  | .none, _ => true
  | .reserved, _ => false

def Place.offset : Place → Nat
  | .store _ a => a
  | .dram _ a => a
  | .host a => a
  | .peer _ a => a
  | .none => 0
  | .reserved => 0

/-- The place n bytes on. -/
def Place.plus : Place → Nat → Place
  | .store e a, n => .store e (a + n)
  | .dram c a, n => .dram c (a + n)
  | .host a, n => .host (a + n)
  | .peer i a, n => .peer i (a + n)
  | p, _ => p

def Place.isPeer : Place → Bool
  | .peer _ _ => true
  | _ => false

def Place.isHost : Place → Bool
  | .host _ => true
  | _ => false

/-- SRC and DST name the same store. -/
def Place.same : Place → Place → Bool
  | .store e _, .store f _ => e == f
  | .dram c _, .dram d _ => c == d
  | .host _, .host _ => true
  | .peer i _, .peer j _ => i == j
  | _, _ => false

/-- The charter store: the top 256 MiB of F0 and F24 (R35). -/
def charterBase : Nat := 2 ^ 35 - 2 ^ 28

def inCharterStore (c : CtlId) (a n : Nat) : Bool :=
  match c with
  | .far f => (f.val == 0 || f.val == 24) && decide (charterBase < a + n)
  | .vault _ => false

def Place.inCharter : Place → Nat → Bool
  | .dram c a, n => inCharterStore c a n
  | _, _ => false

/-- Data of a sealed job: a covered page (R467); for a slip from a host command ring also the stage store of a stage engine
of the job (R287). -/
def State.placeSealed (s : State) (ring : Bool) (p : Place) (n : Nat) : Bool :=
  match p with
  | .dram c a => s.covered c a n
  | .store e _ => ring && s.sealedJob && s.job.locked && s.stages.contains e
  | _ => false

/-- An access to the place is answered under R16. -/
def State.placeGone (s : State) (p : Place) : Bool :=
  match p with
  | .store e _ => !s.engOk e.val
  | .dram c _ => !s.ctlOk c
  | .host _ => s.host.ltssm != 1
  | .peer i _ => (s.peer i).state != 2
  | _ => false

/-- Bytes written without sidebands. A checksum or a status word has no form in which it reaches a peer. -/
def State.putPlace (s : State) (p : Place) (data : List Byte) (who : List Requester) : State :=
  match p with
  | .store e a => s.putStore e a data
  | .dram c a => s.writeBytes c a data who
  | .host a => s.emit (.hostWrite (put 4 60 ||| put a 0) data)
  | _ => s

/-- A stage-store range that is pinned: a write to it waits (R292). -/
def State.placePinned (s : State) (p : Place) (n : Nat) : Bool :=
  match p with
  | .store e a => s.pinned e (a, n)
  | _ => false

/-- A controller still holds a write of the channel (R273). -/
def State.owes (s : State) (e : EngineId) (ch : ChanId) (p : Place) : Bool :=
  match p with
  | .dram c _ => (s.ctl c).merge.any fun m => m.writes.contains (.dma e ch)
  | _ => false

/-- Bytes written to a place whose contents are undefined afterwards (R298). -/
def State.spoilPlace (s : State) (p : Place) (n : Nat) : State :=
  let (k, s) := s.draw
  let data := toBytes (Config.free (8 * n) k) n
  match p with
  | .dram c a => s.putParts c a data (n / 4096 + 2)
  | p => s.putPlace p data []

/-- Words of a stage store that a write covers in part and that are uncorrectable (R264). -/
def State.placeBad (s : State) (p : Place) (n : Nat) : List (Fin 4 × Nat) :=
  match p with
  | .store e a => (s.eng[e.val]).partBad 0 a n
  | _ => []

/-! ### Slips (R288, R289) -/

end Sys2Proof.Machine

namespace Sys2Proof

open Sys2Proof.Machine

def Slip.own (x : Slip) : Bool := bitAt x.w0 55
def Slip.notify (x : Slip) : Bool := bitAt x.w0 53
def Slip.csum (x : Slip) : Bool := bitAt x.w0 52
def Slip.csumChain (x : Slip) : Bool := bitAt x.w0 51
def Slip.blocks (x : Slip) : Bool := bitAt x.w0 50
def Slip.noAlloc (x : Slip) : Bool := bitAt x.w0 49
def Slip.share (x : Slip) : Nat := fld x.w0 45 40
def Slip.len (x : Slip) : Nat := fld x.w0 31 0

/-- The sideband of block k of a slip whose source has none (R291). -/
def Slip.side (x : Slip) (data : List Byte) (k : Nat) : Sideband :=
  mkSide (crc32c data) (fld x.w6 7 4) (bitAt x.w6 3) (BitVec.ofNat 48 (fld x.w5 63 16)) (BitVec.ofNat 16 (fld x.w5 15 0))
    (fld x.w6 63 40) (fld x.w6 39 8 + k) 0

end Sys2Proof

namespace Sys2Proof.Machine

def slipOfBytes (bs : List Byte) : Slip where
  w0 := rdW 64 bs 0
  w1 := rdW 64 bs 8
  w2 := rdW 64 bs 16
  w3 := rdW 64 bs 24
  w4 := rdW 64 bs 32
  w5 := rdW 64 bs 40
  w6 := rdW 64 bs 48
  w7 := rdW 64 bs 56

/-- A source or destination: neither absent nor reserved, inside its store, and with BLOCKS where it names a peer. -/
def moveOk (p : Place) (n : Nat) (blocks : Bool) : Bool :=
  p != .none && p.fits n && (blocks || !p.isPeer) && (!blocks || p.offset % 4096 == 0)

def nextOk (p : Place) : Bool :=
  match p with
  | .store _ _ => p.fits 64
  | .host _ => p.fits 64
  | .none => true
  | _ => false

/-- A slip that is malformed moves nothing (R289, R327). -/
def slipBad (e : EngineId) (x : Slip) (first : Bool) : Bool :=
  x.len == 0 || decide (2 ^ 28 < x.len) || fld x.w0 48 46 != 0 || fld x.w0 39 32 != 0 || fld x.w6 2 0 != 0 ||
  !(moveOk (placeOf e x.w1) x.len x.blocks) || !(moveOk (placeOf e x.w2) x.len x.blocks) || fld x.w3 63 60 == 1 ||
  !(nextOk (placeOf e x.w3)) || !((placeOf e x.w4).fits 8) || (x.blocks && x.len % 4096 != 0) || (x.csumChain && first)

/-- A slip of a sealed job that would send a storage peer a block that is not sealed: one read in the module (R326; log entry
163). -/
def State.slipUnsealed (s : State) (e : EngineId) (x : Slip) : Bool :=
  s.sealedJob && s.job.locked &&
  (match placeOf e x.w2 with
    | .peer i _ => (s.peerEnt i).any fun p => p.storage
    | _ => false) &&
  match placeOf e x.w1 with
  | .store _ _ | .dram _ _ => true
  | _ => false

/-- Why a channel does not run a well-formed slip: an address in the charter store, or data of a sealed job (R287, R326,
R467). -/
def State.slipRefused (s : State) (e : EngineId) (ring : Bool) (x : Slip) : Option Status :=
  let l : List (Place × Nat) := [(placeOf e x.w1, x.len), (placeOf e x.w2, x.len), (placeOf e x.w3, 64), (placeOf e x.w4, 8)]
  if l.any fun p => p.1.inCharter p.2 then some .denied
  else if (l.any fun p => s.placeSealed ring p.1 p.2) || s.slipUnsealed e x then some .sealed
  else none

/-! ### Channel registers (R302) -/

def chanCode : ChanState → Nat
  | .idle => 0 | .running => 1 | .stopping => 2 | .stopped => 3 | .halted => 4

/-- DMA_STATUS. -/
def ChanSt.statusWord (c : ChanSt) : W64 :=
  put (chanCode c.state) 61 ||| put c.lastStatus.toNat 48 ||| put c.progress.toNat 0

/-- A channel that a chain may occupy: running or stopping. -/
def ChanSt.busy (c : ChanSt) : Bool := c.state == .running || c.state == .stopping

def State.chan (s : State) (e : EngineId) (ch : ChanId) : ChanSt := s.eng[e.val].dma[ch.val]

/-- A refused DMA_CTRL write. -/
def State.chanRefuse (s : State) (e : EngineId) (ch : ChanId) : State :=
  s.modChan e ch fun c => { c with lastStatus := Status.stateConflict.code }

/-- The DMA_CHAIN command of a channel that has come to rest completes (R354). -/
def State.chainDone (s : State) (e : EngineId) (ch : ChanId) (st : Status) : State :=
  match (s.chan e ch).chain with
  | none => s
  | some (src, tag, gen) =>
    let w := (s.chan e ch).statusWord
    (s.modChan e ch fun c => { c with chain := none }).complete { src := src, tag := tag, opc := 0x20, gen := gen, role := roleNone, digest := 0 } st w

/-- Words 0 and 7 of the slip in progress written back (R288). -/
def State.writeBack (s : State) (e : EngineId) (ch : ChanId) (st : Status) (progress : Nat) : State :=
  let c := s.chan e ch
  match c.slip with
  | none => s
  | some x =>
    let w0 : W64 := put st.code.toNat 56 ||| put (fld x.w0 54 0) 0
    let w7 : W64 := put c.crc.toNat 32 ||| put progress 0
    (s.putPlace (placeOf e c.cur) (toBytes w0 8) []).putPlace ((placeOf e c.cur).plus 56) (toBytes w7 8) []

/-- The chain ends with the channel IDLE. -/
def State.chainEnd (s : State) (e : EngineId) (ch : ChanId) (st : Status) : State :=
  (s.modChan e ch fun c => { c with state := .idle, slip := none }).chainDone e ch st

/-- A slip that the channel does not run completes with its status, written back, and the chain ends. -/
def State.slipEnds (s : State) (e : EngineId) (ch : ChanId) (st : Status) : State :=
  ((s.modChan e ch fun c => { c with lastStatus := st.code, slips := wrapAdd c.slips 1 }).writeBack e ch st 0).chainEnd e ch st

/-- The slip at an address: in the engine's own stage store, or as host memory holds it. -/
def State.readSlip (s : State) (e : EngineId) (addr : W64) (host : Slip) : Option Slip :=
  match placeOf e addr with
  | .store f a => if f = e ∧ a + 64 ≤ storeBytes ∧ fld addr 63 60 = 0 then some (slipOfBytes (memRead s.eng[e.val].store a 64)) else none
  | .host _ => some host
  | _ => none

/-- A halting channel of a chain halts once the writes that it has issued are answered and the slip's words can be written
back: written back with the bytes answered, HALTED, and its DMA_CHAIN completes (R292, R300). -/
def State.haltDue (s : State) (e : EngineId) (ch : ChanId) : State :=
  let c := s.chan e ch
  match c.halting with
  | none => s
  | some (st, offset) =>
    let owed := match c.slip with
      | some x => s.owes e ch (placeOf e x.w2) || s.owes e ch (placeOf e x.w4)
      | none => false
    if c.openBlks ≠ 0 ∨ owed = true ∨ s.placePinned (placeOf e c.cur) 64 = true then s
    else
      let s := s.writeBack e ch st c.progress.toNat
      let s := s.modChan e ch fun c => { c with
        state := .halted, lastStatus := st.code, haltStatus := st.code, haltOffset := BitVec.ofNat 28 offset
        halts := satAdd c.halts 1, halting := none }
      s.chainDone e ch st

/-- An access of a channel of a chain fails at an offset of its slip (R300). -/
def State.chainHalt (s : State) (e : EngineId) (ch : ChanId) (st : Status) (offset : Nat) : State :=
  (s.modChan e ch fun c => c.fails st offset).haltDue e ch

/-- Uncorrectable words of the stage store where a slip lies. -/
def State.slipWords (s : State) (e : EngineId) (addr : W64) : List (Fin 4 × Nat) :=
  match placeOf e addr with
  | .store f a => if f = e then (s.eng[e.val]).badAt 0 [(a, 64)] else []
  | _ => []

/-- A channel takes up the slip at an address (R289, R294, R297); one that cannot be read halts it (R280). -/
def State.startSlip (s : State) (e : EngineId) (ch : ChanId) (addr : W64) (first : Bool) (host : Slip) : State :=
  let s := s.modChan e ch fun c => { c with state := .running, cur := addr, slip := none, first := first, halting := none }
  if fld addr 63 60 = 15 then s.chainEnd e ch .ok
  else if s.slipWords e addr ≠ [] then
    (s.sramUe e (s.slipWords e addr) noMb ch.val).chainHalt e ch .uncorrectable 0
  else
    match s.readSlip e addr host with
    | none => (s.modChan e ch fun c => { c with lastStatus := Status.stateConflict.code }).chainEnd e ch .stateConflict
    | some x =>
      if x.own = false then s.chainEnd e ch .ok
      else
        let s := s.modChan e ch fun c => { c with
          slip := some x, progress := 0, asked := 0, sent := 0, got := [], part := [], tail := [], openBlks := 0, csumSent := false
          share := if x.share ≠ 0 then x.share else if fld c.cfg 13 8 ≠ 0 then fld c.cfg 13 8 else 63
          burst := 512 * 2 ^ fld c.cfg 2 0
          crc := if x.csumChain then c.crc else 0
          crcBytes := if x.csumChain then c.crcBytes else 0 }
        if slipBad e x first then s.slipEnds e ch .stateConflict
        else
          match s.slipRefused e (s.chan e ch).hostRing x with
          | some st => s.slipEnds e ch st
          | none => s

/-- START of an idle channel 6 or 7. -/
def State.chanStart (s : State) (e : EngineId) (ch : ChanId) (first : Slip) : State :=
  s.startSlip e ch (s.chan e ch).head true first

/-- Writes to DMA_CTRL of channels 0 to 5 have no effect, and an engine out of service answers under R16. -/
def State.ctrlTaken (s : State) (e : EngineId) (ch : ChanId) : Bool := decide (6 ≤ ch.val) && s.engOk e.val

def dmaStart (e : EngineId) (ch : ChanId) (first : Slip) (s : State) : State :=
  if s.ctrlTaken e ch = false then s
  else if (s.chan e ch).state ≠ .idle then s.chanRefuse e ch
  else (s.modChan e ch fun c => { c with chain := none, hostRing := false }).chanStart e ch first

/-- DMA_CHAIN (R349): DMA_HEAD is written and the channel started; it completes when the channel comes to rest. -/
def dmaChain (c : Cmd) (first : Slip) (s : State) : State :=
  s.command 0x20 [2] c fun p _ s =>
    let e : EngineId := Fin.ofNat 128 (fld c.arg0 6 0)
    let ch : ChanId := if bitAt c.arg0 8 then 7 else 6
    if s.engOk e.val = false then cmdDone .stateConflict s
    else
      let s := s.modChan e ch fun x => { x with head := c.arg1 }
      if (s.chan e ch).state ≠ .idle then
        let s := s.chanRefuse e ch
        { cmdDone .stateConflict s with res := (s.chan e ch).statusWord }
      else
        let ring := match c.src with
          | .ring _ => true
          | _ => false
        let s := s.modChan e ch fun x => { x with chain := some (p.src, p.tag, p.gen), hostRing := ring }
        { cmdLater s with after := fun s => s.chanStart e ch first }

def execDmaChain (c : Cmd) (first : Slip) (s : State) : Res := .next (dmaChain c first s)

/-- A stop request (R298): of a running channel, at its slip boundary; with no slip in progress at once. -/
def dmaStop (e : EngineId) (ch : ChanId) (byIssuer : Bool) (s : State) : State :=
  if s.engOk e.val = false ∨ (ch.val < 6 ∧ byIssuer = false) then s
  else
    match (s.chan e ch).state with
    | .running => s.modChan e ch fun c =>
        match c.slip with
        | some _ => { c with state := .stopping }
        | none => { c with state := .stopped, stops := satAdd c.stops 1 }
    | _ => if ch.val < 6 then s else s.chanRefuse e ch

/-- RESUME (R298, R301): a stopped channel at DMA_CUR, a halted one at the halted slip's NEXT. -/
def dmaResume (e : EngineId) (ch : ChanId) (next : Slip) (s : State) : State :=
  if s.ctrlTaken e ch = false then s
  else
    let c := s.chan e ch
    match c.state with
    | .stopped => s.startSlip e ch c.cur false next
    | .halted =>
      match c.slip with
      | some x => s.startSlip e ch x.w3 false next
      | none => s.chainEnd e ch .ok
    | _ => s.chanRefuse e ch

/-! ### Halts (R300, R301) -/

/-- An access of a channel fails: a channel of the engine's own issuers marks the step, and a drain that it carried
fails (R301, R425). -/
def channelHalt (e : EngineId) (ch : ChanId) (st : Status) (offset : Nat) (s : State) : State :=
  if s.engOk e.val = false then s
  else if ch.val < 6 then
    let drains := decide (ch = 5) && s.ckpt.drain.isSome
    let s := s.settle.modChan e ch fun c => { c.failed st with haltOffset := BitVec.ofNat 28 offset }
    let s := s.mark (islEngine e) st
    if drains then s.drainFail st true else s
  else if (s.chan e ch).busy = true ∧ (s.chan e ch).slip.isSome = true then
    s.chainHalt e ch st (max offset (s.chan e ch).progress.toNat)
  else s

def execChannelHalt (e : EngineId) (ch : ChanId) (st : Status) (offset : Nat) (s : State) : Res :=
  .next (channelHalt e ch st offset s)

/-! ### Bursts (R290 to R294) -/

/-- What a burst read: the bytes, or the failing offset in the burst. -/
structure Burst where
  data : List Byte
  fail : Option (Status × Nat)
deriving DecidableEq, Repr, Inhabited

/-- The sidebands of blocks whose source has none. -/
def burstSides (x : Slip) (done : Nat) (data : List Byte) : List Sideband :=
  (List.range (data.length / 4096)).map fun i => x.side (slice data (i * 4096) 4096) (done / 4096 + i)

/-- The sidebands of whole blocks read from a place: stored ones from DRAM, computed ones elsewhere (R291). -/
def State.blockSides (s : State) (x : Slip) (p : Place) (done : Nat) (data : List Byte) : List Sideband :=
  match p with
  | .dram c a => s.readSides c a data.length
  | _ => burstSides x done data

/-- The first failing byte of a DRAM read, from its first uncorrectable codeword. -/
def State.firstBad (s : State) (c : CtlId) (a n : Nat) (fs : List (Nat × CwFault)) : Nat :=
  match (s.ctl c).badIn c a n fs with
  | w :: _ => w.1 * 64 - a
  | [] => 0

/-- n bytes of a burst read at a place, through the controller and its slice or from a stage store; host bytes are the
command's. Uncorrectable words leave their record (R279, R280, R285). -/
def State.burstRead (s : State) (e : EngineId) (ch : ChanId) (x : Slip) (p : Place) (n : Nat) (data : List Byte)
    (met : ReadMet) (sram : SramRead) : Burst × State :=
  if s.placeGone p then ({ data := [], fail := some (.stateConflict, 0) }, s)
  else
    match p with
    | .store f a =>
      let s := s.sramCe f sram
      match s.eng[f.val].readBad [(0, a, n)] sram.ue with
      | [] => ({ data := memRead s.eng[f.val].store a n, fail := none }, s)
      | w :: ws => ({ data := [], fail := some (.uncorrectable, min (n - 1) (w.2 - a)) }, s.sramUe f (w :: ws) noMb ch.val)
    | .dram c a =>
      let at_ := s.firstBad c a n met.faults
      match s.readVia c a n x.noAlloc met (s.byEng e ch.val noMb) with
      | (true, s) => ({ data := s.readBytes c a n, fail := none }, s)
      | (false, s) => ({ data := [], fail := some (.uncorrectable, at_) }, s)
    | _ => ({ data := pad data n, fail := none }, s)

/-- The blocks of a burst whose hallmarks describe them, up to the first that fails (R291). -/
def goodBlocks (data : List Byte) (sides : List Sideband) : Nat :=
  ((List.range (data.length / 4096)).takeWhile fun i =>
    hallmarkOk (sides.getD i Sideband.zero) (slice data (i * 4096) 4096)).length

/-- Blocks written with their sidebands. -/
def State.putBlocks (s : State) (e : EngineId) (ch : ChanId) (p : Place) (data : List Byte) (sides : List Sideband) : State :=
  (List.range (data.length / 4096)).foldl (fun s i =>
    let d := slice data (i * 4096) 4096
    let x := sides.getD i Sideband.zero
    match p with
    | .dram c a => s.writePage c (a / 4096 + i) d x [.dma e ch]
    | .peer q off => s.sendBlock q 2 0 ((off + i * 4096) <<< 48 ||| e.val <<< 41 ||| ch.val <<< 38) false d x .ok
    | _ => s.putPlace (p.plus (i * 4096)) d []) s

/-- SRC and DST of a slip overlap (R290). -/
def slipOverlaps (e : EngineId) (x : Slip) : Bool :=
  let a := placeOf e x.w1
  let b := placeOf e x.w2
  a.same b && decide (a.offset < b.offset + x.len) && decide (b.offset < a.offset + x.len)

/-- Bytes of the slip written, counted and summed. PROGRESS counts what has been answered: not blocks that a peer has still
to acknowledge, nor writes that a controller holds (R273, R288, R327). -/
def State.burstWrite (s : State) (e : EngineId) (ch : ChanId) (x : Slip) (data : List Byte) (sides : List Sideband) : State :=
  let dst := (placeOf e x.w2).plus (s.chan e ch).sent
  let s := if x.blocks then s.putBlocks e ch dst data sides else s.putPlace dst data [.dma e ch]
  let open_ := dst.isPeer || s.owes e ch dst
  s.modChan e ch fun c =>
    let c := { c with
      sent := c.sent + data.length, tail := c.tail ++ data
      openBlks := if dst.isPeer then c.openBlks + data.length / 4096 else c.openBlks }
    if open_ then c else c.answered c.sent

/-- A hallmark failure at an engine's island, with the block's sideband (R372, R405). -/
def State.hallmarkPost (s : State) (i : IslandIdx) (x : Sideband) : State :=
  (s.post i clsHallmark .hallmarkFail noMb { w0 := x.w0, w1 := x.w1, w2 := x.w2, w3 := x.w3 }).setErr errHallmark

/-- Bytes that a burst has brought, written behind those before them: a failed block and those after it are not written
(R291), nor is what would fill part of an uncorrectable word (R264), and bytes whose source the destination overlaps are
undefined (R290). -/
def State.burstPut (s : State) (e : EngineId) (ch : ChanId) (x : Slip) (data : List Byte) (sides : List Sideband) : State :=
  let done := (s.chan e ch).sent
  let clash := slipOverlaps e x
  let (d, s) : List Byte × State :=
    if clash then (toBytes (Config.free (8 * data.length) s.free) data.length, { s with free := s.free + 1 })
    else (data, s)
  let xs := if clash then burstSides x done d else sides
  let good := if x.blocks then 4096 * goodBlocks d xs else d.length
  if s.placeGone (placeOf e x.w2) then s.chainHalt e ch .stateConflict done
  else match s.placeBad ((placeOf e x.w2).plus done) (min good d.length) with
  | w :: ws =>
    let n := w.2 - (((placeOf e x.w2).plus done).offset)
    ((s.burstWrite e ch x (d.take n) xs).sramUe (match placeOf e x.w2 with
        | .store f _ => f
        | _ => e) (w :: ws) noMb ch.val).chainHalt e ch .uncorrectable (done + n)
  | [] =>
    let s := s.burstWrite e ch x (d.take good) xs
    if good = d.length then s
    else (s.hallmarkPost (islEngine e) (xs.getD (good / 4096) Sideband.zero)).chainHalt e ch .hallmarkFail (done + good)

/-- A burst read, then written once it is whole; with BLOCKS what is short of a block waits for the bursts that complete
it. A failed read writes nothing of the burst; one whose destination is pinned waits (R290, R292). -/
def State.burstMove (s : State) (e : EngineId) (ch : ChanId) (x : Slip) (n : Nat) (data : List Byte) (met : ReadMet)
    (sram : SramRead) : State :=
  let c := s.chan e ch
  let whole := if x.blocks then (c.part.length + n) / 4096 * 4096 else c.part.length + n
  if whole ≠ 0 ∧ s.placePinned ((placeOf e x.w2).plus c.sent) whole = true then s
  else
    let (b, s) := s.burstRead e ch x ((placeOf e x.w1).plus c.asked) n data met sram
    match b.fail with
    | some f => s.chainHalt e ch f.1 (c.asked + f.2)
    | none =>
      let bytes := c.part ++ b.data
      let s := s.modChan e ch fun c => { c with asked := c.asked + n, part := bytes.drop whole }
      if whole = 0 then s
      else
        let d := bytes.take whole
        s.burstPut e ch x d (if x.blocks then s.blockSides x ((placeOf e x.w1).plus c.sent) c.sent d else [])

/-- The blocks of a burst that have all come from a peer, written in order. -/
def State.burstLand (s : State) (e : EngineId) (ch : ChanId) (x : Slip) : State :=
  let c := s.chan e ch
  let n := 4096 * c.got.length
  if n = 0 ∨ c.sent + n < c.asked ∨ s.placePinned ((placeOf e x.w2).plus c.sent) n = true then s
  else (s.modChan e ch fun c => { c with got := [] }).burstPut e ch x (c.got.flatMap (·.1)) (c.got.map (·.2))

/-- A burst of a peer source asks for its blocks, at least one (R327). -/
def State.burstAsk (s : State) (e : EngineId) (ch : ChanId) (x : Slip) (i off : Nat) : State :=
  let c := s.chan e ch
  let n := min (max 1 (c.burst / 4096) * 4096) (x.len - c.sent)
  if (s.peer i).state ≠ 2 then s.chainHalt e ch .stateConflict c.sent
  else if c.asked ≠ c.sent then s.burstLand e ch x
  else
    let s := s.modChan e ch fun c => { c with asked := c.sent + n, got := [] }
    s.sendRequest i 0x02
      { peer := i, req := BitVec.ofNat 8 ch.val, engine := e, chan := ch, object := BitVec.ofNat 64 (off + c.sent)
        version := 0, first := 0, count := BitVec.ofNat 32 (n / 4096), status := .ok }

/-- BURST_START: the next burst of the slip in progress. -/
def burstStart (e : EngineId) (ch : ChanId) (data : List Byte) (met : ReadMet) (sram : SramRead)
    (limitWait pinWait : Nat) (s : State) : State :=
  let c := s.chan e ch
  match c.slip with
  | none => s
  | some x =>
    if ch.val < 6 ∨ c.busy = false ∨ x.len ≤ c.sent ∨ s.engOk e.val = false then s
    else
      let s := s.modChan e ch fun c => { c with
        limitWait := satAdd c.limitWait limitWait, pinWait := satAdd c.pinWait pinWait }
      if c.halting.isSome then s.haltDue e ch
      else
        match placeOf e x.w1 with
        | .peer i off => s.burstAsk e ch x i off
        | _ => s.burstMove e ch x (min c.burst (x.len - c.asked)) data met sram

def execBurstStart (e : EngineId) (ch : ChanId) (data : Bytes) (met : ReadMet) (sram : SramRead)
    (limitWait pinWait : Nat) (s : State) : Res :=
  .next (burstStart e ch data met sram limitWait pinWait s.settle)

/-! ### Completion (R295 to R297) -/

/-- The checksum word, where the slip asks for one; a place that is gone halts the channel (R295, R300). -/
def State.writeCsum (s : State) (e : EngineId) (ch : ChanId) (x : Slip) : State :=
  let c := s.chan e ch
  let p := placeOf e x.w4
  let s := s.modChan e ch fun c => { c with csumSent := true }
  if x.csum = false then s
  else if s.placeGone p then s.chainHalt e ch .stateConflict x.len
  else match s.placeBad p 8 with
    | w :: ws => (s.sramUe (match p with
        | .store f _ => f
        | _ => e) (w :: ws) noMb ch.val).chainHalt e ch .uncorrectable x.len
    | [] => s.putPlace p (toBytes (put c.crc.toNat 32 ||| put c.crcBytes.toNat 0) 8) [.dma e ch]

/-- A slip of channel 6 or 7 completes; then the channel stops, or takes up the next slip. -/
def State.slipDone (s : State) (e : EngineId) (ch : ChanId) (x : Slip) (next : Slip) : State :=
  let s := s.writeBack e ch .ok x.len
  let s := if x.notify then s.emit (.notify e ch) else s
  let stop := (s.chan e ch).state == .stopping
  let s := s.modChan e ch fun c => { c with slips := wrapAdd c.slips 1, lastStatus := 0, slip := none }
  if stop then
    (s.modChan e ch fun c => { c with state := .stopped, stops := satAdd c.stops 1, cur := x.w3 }).chainDone e ch .ok
  else s.startSlip e ch x.w3 false next

/-- The steps of R295 that are due: every write answered, the checksum word written and answered, then the slip is done. Each
waits while the words that it writes are pinned (R292). A failed write halts the channel (R274, R300). -/
def State.slipSteps (s : State) (e : EngineId) (ch : ChanId) (x : Slip) (next : Slip) : State :=
  let c := s.chan e ch
  if c.busy = false then s
  else if c.halting.isSome then s.haltDue e ch
  else if c.progress.toNat ≠ x.len ∨ (x.csum && !c.csumSent && s.placePinned (placeOf e x.w4) 8) = true then s
  else
    let s := if c.csumSent then s else s.writeCsum e ch x
    let c := s.chan e ch
    if c.busy = false ∨ (x.csum && s.owes e ch (placeOf e x.w4)) = true ∨ s.placePinned (placeOf e c.cur) 64 = true then s
    else if c.halting.isSome then s.haltDue e ch
    else s.slipDone e ch x next

/-- SLIP_COMPLETE: a drain slip of channel 5 carries the rest of its shard (R418); a slip of channels 6 and 7 completes
once its last byte is answered. Cycles that a write waited for a pin count in PIN_WAIT (R292). -/
def slipComplete (e : EngineId) (ch : ChanId) (next : Slip) (pinWait : Nat) (s : State) : State :=
  if s.engOk e.val = false then s
  else if ch.val < 6 then
    if ch = 5 ∧ (s.chan e ch).busy = true then s.drainSlip e else s
  else
    match (s.chan e ch).slip with
    | none => s.haltDue e ch
    | some x => (s.modChan e ch fun c => { c with pinWait := satAdd c.pinWait pinWait }).slipSteps e ch x next

def execSlipComplete (e : EngineId) (ch : ChanId) (next : Slip) (pinWait : Nat) (s : State) : Res :=
  .next (slipComplete e ch next pinWait s.settle)

/-- A slip cut short by ABORT or a reset: no write-back, its destination bytes undefined (R298). -/
def State.cutSlip (s : State) (e : EngineId) (ch : ChanId) : State :=
  let c := s.chan e ch
  let s := match (if c.busy then c.slip else none) with
    | some x => s.spoilPlace (placeOf e x.w2) x.len
    | none => s
  (s.modChan e ch fun c => { c with state := .idle, slip := none, halting := none, buf := [] }).chainDone e ch .stateConflict

/-! ### Windows (R318, R327) -/

/-- The window in which a peer's unsolicited blocks land, at an offset of one block. -/
def State.windowAt (s : State) (peer off n : Nat) : Option (CtlId × Nat) :=
  match s.peerEnt peer with
  | none => none
  | some x =>
    if off + n ≤ x.windowLen then
      match placeOf 0 x.windowBase with
      | .dram c a => if a + off + n ≤ ctlBytes c then some (c, a + off) else none
      | _ => none
    else none

/-- A request answered by a refusal. -/
def State.refuse (s : State) (q : ReqFrame) (st : Status) : State := s.sendRequest q.peer 0x03 { q with status := st }

/-- Unsolicited data: written inside the window and acknowledged; outside it dropped, counted and refused to the channel that
its header names. -/
def State.windowIn (s : State) (b : ObjBlk) (pt : Option (List Byte)) (e : EngineId) (ch : ChanId) (off : Nat) : State :=
  let q : ReqFrame :=
    { peer := b.peer, req := 0, engine := e, chan := ch, object := BitVec.ofNat 64 off, version := 0, first := 0, count := 1
      status := .denied }
  match s.windowAt b.peer off 4096 with
  | none =>
    let s := match s.route b.peer 4096 with
      | some p => s.modPort p fun y => { y with window := satAdd y.window 1 }
      | none => s
    s.refuse q .denied
  | some (c, a) =>
    if s.ctlOk c = false then s.refuse q .stateConflict
    else
      match pt with
      | none => s.refuse q .hallmarkFail
      | some d =>
        match s.writeBlock c (a / 4096) d b.side with
        | (.ok, s) => s.sendMsgCtrl b.peer false false (BitVec.ofNat 32 (off / 4096)) 0
        | (_, s) =>
          (s.hallmarkPost islBursar b.side).refuse q .hallmarkFail

/-- A block that answers a channel's read request joins its burst, which is written once it is whole. -/
def State.dmaReadIn (s : State) (b : ObjBlk) (pt : Option (List Byte)) (e : EngineId) (ch : ChanId) (off : Nat) : State :=
  let c := s.chan e ch
  match c.slip with
  | none => s
  | some x =>
    match placeOf e x.w1 with
    | .peer i base =>
      let done := c.sent + 4096 * c.got.length
      if c.busy = false ∨ i ≠ b.peer ∨ off ≠ base + done ∨ c.asked < done + 4096 then s
      else
        match pt with
        | none => s.chainHalt e ch .hallmarkFail done
        | some d =>
          if b.status ≠ .ok then s.chainHalt e ch b.status done
          else if hallmarkOk b.side d = false then
            (s.hallmarkPost (islEngine e) b.side).chainHalt e ch .hallmarkFail done
          else (s.modChan e ch fun c => { c with got := c.got ++ [(d, b.side)] }).burstLand e ch x
    | _ => s

/-- The low header bits of an object block's frames: OFFSET, ENGINE, CHANNEL and REQ (R310). -/
def State.objLow (s : State) (b : ObjBlk) : Nat :=
  let word (off e ch req : Nat) : Nat := off <<< 48 ||| e <<< 41 ||| ch <<< 38 ||| (req % 64) <<< 32 ||| (req / 64) <<< 30
  match b.kind with
  | .fetch req h _ page => word (page * 4096) (match s.shardEnt h with
      | some x => x.engine
      | none => 0) 4 req.toNat
  | .mirror e _ _ page => word (page * 4096) e.val 4 0
  | .window e ch off => word off e.val ch.val 0
  | .dmaRead e ch off => word off e.val ch.val ch.val

/-- OBJ_DATA: a block of a fetch, a mirror page, unsolicited data or the answer to a read. -/
def objData (b : ObjBlk) (s : State) : State :=
  if s.admitted b.peer = false then s.dropUnadmitted b.peer
  else
    let (pt, s) := s.openBlock b.peer 2 b.vc (s.objLow b) false b.epoch b.data b.side b.gcmTag
    match b.kind with
    | .fetch req h isMap page => s.fetchPageIn b pt req h isMap page
    | .mirror _ h v page => s.mirrorPageIn b pt h v page
    | .window e ch off => s.windowIn b pt e ch off
    | .dmaRead e ch off => s.dmaReadIn b pt e ch off

def execObjData (b : ObjBlk) (s : State) : Res := .next (objData b s.settle)

/-- One block of a window served to its peer, read through its controller; an uncorrectable one goes out with that
status. -/
def State.serveBlock (s : State) (q : ReqFrame) (off : Nat) (c : CtlId) (page : Nat) : State :=
  let low := off <<< 48 ||| q.engine.val <<< 41 ||| q.chan.val <<< 38 ||| (q.req.toNat % 64) <<< 32 |||
    (q.req.toNat / 64) <<< 30
  let (d, x) := s.readPage c page
  let (good, s) := s.readPageVia c page { source := 5, step := s.recStep, mb := noMb, unit := 0x6000, chan := 0xFF }
  s.sendBlock q.peer 2 0 low false d x (if good then .ok else .uncorrectable)

/-- REQUEST_READ: served only inside the requester's window; in a sealed job a storage peer gets no block of the module, none
of which is sealed (R326; log entry 163). -/
def requestRead (q : ReqFrame) (s : State) : State :=
  if s.admitted q.peer = false then s.dropUnadmitted q.peer
  else
    let off := q.object.toNat
    let n := q.count.toNat * 4096
    let storage := match s.peerEnt q.peer with
      | some x => x.storage
      | none => false
    match s.windowAt q.peer off n with
    | none => s.refuse q .denied
    | some (c, a) =>
      if s.ctlOk c = false then s.refuse q .stateConflict
      else if storage && s.sealedJob then s.refuse q .sealed
      else (List.range q.count.toNat).foldl (fun s k => s.serveBlock q (off + k * 4096) c (a / 4096 + k)) s

def execRequestRead (q : ReqFrame) (s : State) : Res := .next (requestRead q s)

def Place.atPeer (p : Place) (peer : Nat) : Bool :=
  match p with
  | .peer i _ => i == peer
  | _ => false

/-- A refusal of what a channel's slip waits for: a read request, or a block that it has sent (R327). The chain halts with the
status. -/
def State.peerRefused (s : State) (e : EngineId) (ch : ChanId) (peer : Nat) (off : Nat) (st : Status) : State :=
  match (s.chan e ch).slip with
  | none => s
  | some x =>
    if (s.chan e ch).busy = false then s
    else match placeOf e x.w2 with
      | .peer i base =>
        if i = peer then
          (s.modChan e ch fun c => { c with openBlks := c.openBlks - 1 }).chainHalt e ch st (off - base)
        else if (placeOf e x.w1).atPeer peer then s.chainHalt e ch st (s.chan e ch).sent
        else s
      | _ => if (placeOf e x.w1).atPeer peer then s.chainHalt e ch st (s.chan e ch).sent else s

/-- REQUEST_REFUSE: a fetch waits, is re-targeted or ends its restore (R252, R429); a slip halts with the status (R327). -/
def requestRefuse (q : ReqFrame) (s : State) : State :=
  if s.admitted q.peer = false then s.dropUnadmitted q.peer
  else if q.chan.val = 4 then
    let h : BitVec 24 := BitVec.ofNat 24 q.object.toNat
    match s.shardEnt h, s.eng[q.engine.val].led.fetches.find? fun f => f.shard == h && f.req == q.req with
    | some x, some f => s.fetchRefused q.engine x f q.status
    | _, _ => s
  else s.peerRefused q.engine q.chan q.peer q.object.toNat q.status

def execRequestRefuse (q : ReqFrame) (s : State) : Res := .next (requestRefuse q s)

/-! ### MSG_CTRL (R198, R256, R313, R327, R333, R373) -/

/-- The channel whose slip waits for a peer's acknowledgement of the block at an offset of its window. -/
def State.slipOf (s : State) (peer off : Nat) : Option (EngineId × ChanId × Nat) :=
  (List.finRange 128).findSome? fun e => ([6, 7] : List ChanId).findSome? fun ch =>
    let c := s.chan e ch
    match c.slip with
    | some x => match placeOf e x.w2 with
      | .peer i base =>
        if c.busy && i == peer && c.openBlks != 0 && decide (base + c.progress.toNat ≤ off) && decide (off < base + c.sent) then
          some (e, ch, off - base)
        else none
      | _ => none
    | none => none

/-- A peer acknowledges a block of a slip: it counts in PROGRESS (R327). -/
def State.slipAcked (s : State) (peer : Nat) (block : W32) : State :=
  match s.slipOf peer (block.toNat * 4096) with
  | some (e, ch, off) =>
    (s.modChan e ch fun c =>
      let c := { c with openBlks := c.openBlks - 1 }
      if off = c.progress.toNat then c.answered (off + 4096) else c).haltDue e ch
  | none => s

/-- MSG_CTRL ACK. A mirror's pages are answered by its commit alone (R256). -/
def execMsgCtrlAck (w : CtrlOf) (s : State) : Res :=
  .next <|
    match w with
    | .till e t n by_ => s.tillAcked e t.val n by_
    | .slip peer block => if s.admitted peer then s.slipAcked peer block else s.dropUnadmitted peer
    | .band peer shard => s.bandAcked peer shard
    | .mirror peer _ => if s.admitted peer then s else s.dropUnadmitted peer

/-- MSG_CTRL RESEND of a till block, a band or a mirror page. A slip's receiver asks for nothing again: it refuses (R327). -/
def execMsgCtrlResend (w : CtrlOf) (block : W16) (s : State) : Res :=
  .next <|
    match w with
    | .till e t n by_ => s.tillResend e t.val n block.toNat by_
    | .slip peer _ => if s.admitted peer then s else s.dropUnadmitted peer
    | .band peer shard => s.bandResend peer shard block.toNat
    | .mirror peer shard => if s.admitted peer then s.mirrorResend peer shard block.toNat else s.dropUnadmitted peer

end Sys2Proof.Machine
end

