-- ==== Sys2Proof/Machine/Regions.lean ====
section
/-! DEFINITION. The regions that a charter places in vaults and far channels (02 R520; 12 R345; 15 R467). -/

namespace Sys2Proof.Machine

/-- A region with the section, list and entry that names it (R519). -/
structure Region where
  ctl : CtlId
  base : Nat
  len : Nat
  sec : Nat
  list : Nat
  entry : Nat
deriving DecidableEq, Repr, Inhabited

def Region.meets (x y : Region) : Bool :=
  x.ctl == y.ctl && decide (x.base < y.base + y.len) && decide (y.base < x.base + x.len)

/-- The region lies inside its vault or channel. -/
def Region.inside (x : Region) : Bool := decide (x.base + x.len ≤ ctlBytes x.ctl)

def pageRegion (e : Nat) (l : PageLoc) (pages sec list entry : Nat) : Region :=
  let (c, q) := pageOf (Fin.ofNat 128 e) l
  { ctl := c, base := q * 4096, len := pages * 4096, sec := sec, list := list, entry := entry }

/-- Pools are common to both planes (R190). -/
def Charter.pools (c : Charter) : List Region :=
  match c.plane with
  | [] => []
  | p :: _ => (p.engMap.zipIdx.filter fun m => 0 < m.1.poolPages).map fun m =>
      pageRegion m.2 m.1.pool m.1.poolPages 1 0 m.2

def TillEnd.region (t : TillEnd) (entry : Nat) : Region :=
  pageRegion t.engine t.store (t.storeMsgs * (t.msgBytes / 4096)) 2 0 entry

/-- The till stores of a plane with their ends. -/
def PlaneCfg.stores (p : PlaneCfg) : List (TillEnd × Region) :=
  (p.tills.zipIdx.filter fun t => !t.1.isOut && 0 < t.1.storeMsgs).map fun t => (t.1, t.1.region t.2)

/-- Till stores of the first plane and of the second: each till belongs to one plane (R52), so the stores of both are distinct
regions (R520). -/
def Charter.storesBy (c : Charter) : List Region × List Region :=
  match c.plane with
  | [] => ([], [])
  | [p] => (p.stores.map (·.2), [])
  | p :: q :: _ => (p.stores.map (·.2), q.stores.map (·.2))

def Charter.stores (c : Charter) : List Region := c.storesBy.1 ++ c.storesBy.2

/-- Vault parts of the homes. -/
def Charter.homeParts (c : Charter) : List Region :=
  (c.shards.homes.zipIdx.filter fun h => decide (h.1.accBands < h.1.bands)).map fun h =>
    { ctl := (h.1.place (Fin.ofNat 128 h.1.engine) h.1.accBands).1, base := h.1.block * 4096
      len := (h.1.bands - h.1.accBands) * 4096, sec := 8, list := 3, entry := h.2 }

/-- The pages of a shard's state region at a module: the owner's, or the mirror's commit page and two slots (R431). -/
def State.regionPages (s : State) (c : Charter) (x : ShardEnt) : Nat :=
  if x.owner = c.moduleId then s.stateLen x
  else if x.mirror = c.moduleId then 1 + 2 * s.stateLen x
  else 0

/-- State regions that lie in a vault or the far tier. -/
def State.stateRegions (s : State) (c : Charter) : List Region :=
  (c.shards.entries.zipIdx.filter fun x => decide (x.1.tier < 2) && decide (0 < s.regionPages c x.1)).map fun x =>
    pageRegion x.1.engine x.1.state (s.regionPages c x.1) 8 0 x.2

def Charter.buffers (c : Charter) : List Region :=
  ([pageRegion 0 c.peers.buf0 c.peers.buf0Pages 3 1 0xFFFF, pageRegion 0 c.peers.buf1 c.peers.buf1Pages 3 1 0xFFFF]).filter
    fun r => decide (0 < r.len)

def Charter.windows (c : Charter) : List Region :=
  c.peers.entries.zipIdx.filterMap fun p => match placeOf 0 p.1.windowBase with
    | .dram ctl a => if 0 < p.1.windowLen then
        some { ctl := ctl, base := a, len := p.1.windowLen, sec := 3, list := 0, entry := p.2 }
      else none
    | _ => none

def Charter.escrows (c : Charter) : List Region :=
  (c.ckpt.escrow.zipIdx.filter fun x => decide (0 < x.1.2)).map fun x => pageRegion x.2 x.1.1 x.1.2 9 0 x.2

def charterStores : List Region :=
  [{ ctl := .far 0, base := charterBase, len := 2 ^ 28, sec := 0, list := 0, entry := 0xFFFF },
   { ctl := .far 24, base := charterBase, len := 2 ^ 28, sec := 0, list := 0, entry := 0xFFFF }]

/-- Pools, homes, till stores, state regions, clearing buffers and peer windows (R345). -/
def State.namedRegions (s : State) (c : Charter) : List Region :=
  c.pools ++ c.homeParts ++ c.stores ++ s.stateRegions c ++ c.buffers ++ c.windows

/-- The charter in force names the range. -/
def State.isNamed (s : State) (c : CtlId) (a n : Nat) : Bool :=
  match s.job.charter with
  | none => false
  | some ch => (s.namedRegions ch).any fun r =>
      r.meets { ctl := c, base := a, len := n, sec := 0, list := 0, entry := 0 }

end Sys2Proof.Machine
end

