-- ==== Sys2Proof/Machine/Span.lean ====
section
/-! DEFINITION. The span's lane modules (12 R360 to R365), word parity at crossings (13 R369, R370), the error mailbox
and the management ports (13 R402 to R405, 17 R505). -/

namespace Sys2Proof.Machine

/-! ### Lane modules -/

/-- Lane modules that carry traffic, and their bandwidth (R360, R365). -/
def laneGBs (code : BitVec 3) : Nat :=
  match code.toNat with
  | 4 => 256 | 3 => 192 | 2 => 128 | 1 => 64 | _ => 0

def SpanSt.inService (x : SpanSt) : Nat := (x.lanes.toList.filter fun l => l.state == 3).length

def SpanSt.bandwidth (x : SpanSt) : Nat :=
  (x.lanes.toList.filter fun l => l.state == 3).foldl (fun n l => n + laneGBs l.agreed) 0

/-- The lane module of a row, of the two that are its own, for a column parity: while one is out of service or agreeing, the
other (R364). -/
def SpanSt.rowLane (x : SpanSt) (r : Fin 8) (odd : Bool) : Option (Fin 16) :=
  let own : Fin 16 := ⟨2 * r.val + odd.toNat, by cases odd <;> simp <;> omega⟩
  let other : Fin 16 := ⟨2 * r.val + (!odd).toNat, by cases odd <;> simp <;> omega⟩
  ([own, other]).find? fun l => (x.lanes[l.val]).state == 3

/-- The rows by their distance from a row, the lower first on a tie. -/
def rowsNear (r : Fin 8) : List (Fin 8) :=
  (List.range 8).flatMap fun d => (List.finRange 8).filter fun q =>
    q.val + d == r.val || (decide (0 < d) && q.val == r.val + d)

/-- The lane module of a row's cross traffic of one column parity: its own two, else those of the nearest row with one in
service (R364). -/
def SpanSt.route (x : SpanSt) (r : Fin 8) (odd : Bool) : Option (Fin 16) := (rowsNear r).findSome? fun q => x.rowLane q odd

/-- The routes as the lane modules stand. A transfer of the model crosses the span within its command, so no lane module holds
a flit when its routes change: the old one has drained (R364). -/
def State.reroute (s : State) : State :=
  (List.finRange 16).foldl (fun (s : State) (k : Fin 16) =>
    let odd := k.val % 2 == 1
    let l := s.span.route ⟨k.val / 2, by omega⟩ odd
    if l = s.span.routes[k.val] then s
    else ({ s with span := { s.span with routes := s.span.routes.set k.val l } }).emit
      (.spanRoute (k.val / 2) odd (l.map Fin.val))) s

/-- Agreement starts: traffic on the lane module stops and moves to other routes (R362 step 1, R364). -/
def State.laneAgree (s : State) (l : Fin 16) : State :=
  let s := s.modLane l fun x => { x with state := 2 }
  ({ s with span := { s.span with agreements := satAdd s.span.agreements 1 } }).reroute

/-- The 4-bit field of a flit's header: even parity over the sender's width code, and the code agreed for the lane module
(R361). -/
def LaneSt.flitOk (x : LaneSt) (code : BitVec 4) : Bool :=
  (List.range 4).foldl (fun b i => b ^^ code.getLsbD i) false == false && code.setWidth 3 == x.agreed

/-- A flit that reaches a side of a lane module that carries traffic: one of bad parity or of another width code than the
agreed one is discarded and replayed, and agreement starts (R361); any other is taken. -/
def execFlitDiscard (lm : Fin 16) (_east : Bool) (code : BitVec 4) (s : State) : Res :=
  .next <|
    let x := s.span.lanes[lm.val]
    if x.state = 3 ∧ x.flitOk code = false then
      ({ s with span := { s.span with
        discards := satAdd s.span.discards 1, replayed := wrapAdd s.span.replayed 1 } }).laneAgree lm
    else s

def widthMin (a b : BitVec 3) : BitVec 3 := if a.toNat ≤ b.toNat then a else b

/-- The width that a side publishes of what it trained to: a locked module offers at most code 2 (R363; log entry 183). -/
def LaneSt.offer (x : LaneSt) (w : BitVec 3) : BitVec 3 := if x.locked then widthMin 2 w else w

/-- One round of R362 steps 2 to 5: the widths that both sides trained to and published, and the check pattern at their
lesser. -/
def laneRound (x : LaneSt) (west east : BitVec 3) (checkOk : Bool) : LaneSt :=
  let w := widthMin (x.offer west) (x.offer east)
  if checkOk ∧ 1 ≤ w.toNat ∧ west.toNat ≤ 4 ∧ east.toNat ≤ 4 then
    { x with state := 3, attempts := 0, agreed := w, west := w, east := w }
  else { x with state := 2, attempts := min 3 (x.attempts + 1), west := x.offer west, east := x.offer east }

/-- WIDTH_AGREEMENT: a module that agrees carries traffic; after three failures it waits for its lock. -/
def execWidthAgreement (lm : Fin 16) (west east : BitVec 3) (checkOk : Bool) (s : State) : Res :=
  let x := s.span.lanes[lm.val]
  .next (if (x.state = 1 ∨ x.state = 2) ∧ x.attempts < 3 then
    (s.modLane lm fun x => laneRound x west east checkOk).reroute else s)

/-- Every lane module has left service: the halves exchange nothing until a module reset (R364). -/
def State.spanOut (s : State) : Bool := s.span.lanes.toList.all fun x => x.state == 0

/-- The event of status WIDTH_MISMATCH (R363, R364). -/
def State.widthEvent (s : State) (lm : Fin 16) : State :=
  s.post (islSpan false) clsEvent .widthMismatch noMb (rec0 (put Status.widthMismatch.code.toNat 56 ||| put lm.val 0))

/-- Step 4 run once more at code 2 (R363); as in step 4, a pass clears ATTEMPTS. With every lane module out of service the job
is held (R364); one that is still agreeing may carry traffic again. -/
def laneLock (lm : Fin 16) (checkOk : Bool) (s : State) : State :=
  if checkOk then
    (s.modLane lm fun x =>
      { x with state := 3, locked := true, attempts := 0, agreed := 2, west := 2, east := 2 }).reroute.widthEvent lm
  else
    let s := (s.modLane lm fun x => { x with state := 0, agreed := 0, west := 0, east := 0 }).reroute.widthEvent lm
    if s.spanOut then (s.widthEvent lm).hold else s

def execLaneLock (lm : Fin 16) (checkOk : Bool) (s : State) : Res :=
  let x := s.span.lanes[lm.val]
  .next (if x.state = 2 ∧ x.attempts = 3 then laneLock lm checkOk s else s)

/-! ### Word parity -/

def State.modXch (s : State) (k : Fin 16) (f : W32 × W16 → W32 × W16) : State :=
  s.modInt fun x => { x with xch := x.xch.set k.val (f x.xch[k.val]) }

/-- A resend counted by the receiving island (R369): in ENG_PARITY, XCH_PARITY or GLB_PARITY. -/
def State.parityCount (s : State) (i : IslandIdx) : State :=
  if h : i.val < 128 then s.modEngInt ⟨i.val, h⟩ fun x => { x with parResends := wrapAdd x.parResends 1 }
  else if h : i.val < 144 then
    s.modXch ⟨i.val - 128, by omega⟩ fun x => (wrapAdd x.1 1, x.2)
  else if i.val < 208 then s.modInt fun x => { x with parMem := satAdd x.parMem 1 }
  else if i.val < 256 then s.modInt fun x => { x with parPort := satAdd x.parPort 1 }
  else if i.val < 258 then s.modInt fun x => { x with parSpan := satAdd x.parSpan 1 }
  else s.modInt fun x => { x with parOther := satAdd x.parOther 1 }

/-- BROKEN counted where the receiving island has the count (R370, R407, R408). -/
def State.parityBroken (s : State) (i : IslandIdx) : State :=
  if h : i.val < 128 then s.modEngInt ⟨i.val, h⟩ fun x => { x with parBroken := satAdd x.parBroken 1 }
  else if h : i.val < 144 then
    s.modXch ⟨i.val - 128, by omega⟩ fun x => (x.1, satAdd x.2 1)
  else s

/-- A word and its bit of even parity (R369). -/
def parityOk (w : W32 × Bool) : Bool := (List.range 32).foldl (fun b i => b ^^ w.1.getLsbD i) w.2 == false

/-- PARITY_ERROR: a transfer with a word of odd parity is discarded and a resend is asked for; the sender sends again, in order,
the transfers of its retry buffer from that one on (R369; log entry 185). -/
def execParityError (x : Crossing) (got : List (W32 × Bool)) (buf : List (List W32)) (s : State) : Res :=
  .next (if got.all parityOk then s else (s.parityCount x.recv).emit (.paritySend x.recv.val x.send.val buf))

/-! ### The mailbox -/

/-- The payload of an error frame (R404). -/
def State.framePayload (s : State) (m : MboxEntry) : List Byte :=
  toBytes (1 : W16) 2 ++ toBytes s.sec.store.moduleId 2 ++ toBytes m.boot 4 ++ toBytes m.seqNo 8 ++ toBytes m.step 6 ++
  toBytes m.mb 2 ++ toBytes m.island 2 ++ [m.cls, m.status] ++ List.replicate 4 0 ++ toBytes m.iseq 8 ++
  toBytes m.jobId 8 ++ m.record.bytes

/-- Management ports that are enabled for error frames and have link (R403, R512). -/
def State.errPorts (s : State) : List Bool :=
  (if bitAt s.int.errCfg 16 && bitAt s.glb.mgmtLink 0 then [false] else []) ++
  (if bitAt s.int.errCfg 17 && bitAt s.glb.mgmtLink 8 then [true] else [])

/-- ERROR_FRAME_SEND: the oldest entry leaves on each enabled port with link; entries wait while none has. -/
def execErrorFrameSend (s : State) : Res :=
  .next <| match s.int.mbox, s.errPorts with
    | m :: r, p :: ps =>
      let s := (p :: ps).foldl (fun s p => s.emit (.ether p (BitVec.ofNat 16 (fld s.int.errCfg 15 0)) s.int.errDst
        (s.framePayload m))) s
      s.modInt fun x => { x with mbox := r, sent := BitVec.ofNat 32 m.seqNo.toNat }
    | _, _ => s

/-- MAILBOX_OVERFLOW_FRAME: once there is space, an OVERFLOW entry carries the counts by class, which start afresh. -/
def execMailboxOverflowFrame (s : State) : Res :=
  .next <|
    if s.int.mbox.length < mboxSize ∧ s.int.ovfByClass.toList.any (fun c => c != 0) = true then
      let w (k : Nat) : W64 := (List.range 4).foldl (fun a i => a ||| put (s.int.ovfByClass.toList.getD (4 * k + i) 0).toNat (16 * i)) 0
      let s := s.post islBursar clsOverflow .ok noMb { w0 := w 0, w1 := w 1, w2 := w 2, w3 := w 3 }
      s.modInt fun x => { x with ovfByClass := Vector.replicate 16 0 }
    else s

/-- MGMT_LINK_CHANGE: link and FEC of a management port (R505, R512). -/
def execMgmtLinkChange (port up fec : Bool) (s : State) : Res :=
  let k := if port then 8 else 0
  .next (s.modGlb fun g => { g with mgmtLink := setBit (setBit g.mgmtLink k up) (k + 1) (up && fec) })

end Sys2Proof.Machine
end

