-- ==== Sys2Proof/Machine/Rings.lean ====
section
/-! DEFINITION. Host rings, doorbells and the PCIe link (12 R340 to R348, R366). -/

namespace Sys2Proof.Machine

/-- The fields of HST_RING_CFG; the others are reserved (R5). -/
def ringCfgMask : W64 := 0xC000_0000_0000_030F

/-- The three conditions under which a disabled ring is enabled (R347). -/
def RingSt.cfgOk (r : RingSt) (val : W64) : Bool :=
  decide (4 ≤ fld val 3 0) && decide (fld val 3 0 ≤ 12) && decide (fld val 9 8 ≤ 2) &&
  fld r.sq 11 0 == 0 && fld r.cq 11 0 == 0

/-- A write of HST_RING_CFG. -/
def RingSt.write (r : RingSt) (val : W64) : RingSt :=
  let val := val &&& ringCfgMask
  if r.enabled then
    if bitAt val 63 then r else { r with cfg := setBit r.cfg 63 false }
  else if bitAt val 63 then
    if r.cfgOk val then
      { r with
        cfg := val, head := 0, tail := 0, taken := 0, cHead := 0, cPos := 0, phase := true, badCfg := false
        badDb := false, gen := r.gen + 1, posted := [], waiting := [] }
    else { r with cfg := setBit val 63 false, badCfg := true }
  else { r with cfg := val }

/-- Host IN ends whose ring has been enabled grant their credits to the host interface again (R355, R357). -/
def State.regrant (s : State) (r : RingId) : State :=
  match s.planeCfg with
  | none => s
  | some p => (p.tills.filter fun c => c.path == .host && !c.isOut && c.ring == r).foldl (fun s c =>
      s.grant (Fin.ofNat 128 c.engine) c.till) s

/-- A write of HST_RING_CFG (R347). -/
def State.writeRing (s : State) (r : RingId) (val : W64) : State :=
  let was := (s.host.rings[r.val]).enabled
  let s := s.modRing r fun x => x.write val
  if !was && (s.host.rings[r.val]).enabled then s.regrant r else s

/-- Doorbells are refused while IDE is required and not active (R359). -/
def State.ideRefused (s : State) : Bool := bitAt s.host.cfg 0 && !s.host.ideActive

/-- (a − b) mod n. -/
def ringDist (n a b : Nat) : Nat := (a + n - b % n) % n

/-- A submission tail is below the size and exposes at least the entries already exposed (R348). -/
def RingSt.submit (r : RingSt) (t : Nat) : RingSt :=
  let n := r.size
  if r.enabled = false then r
  else if t < n ∧ ringDist n r.tail r.head ≤ ringDist n t r.head then { r with tail := t }
  else { r with badDb := true }

/-- Completions posted and not yet returned. -/
def RingSt.unreturned (r : RingSt) : Nat := ringDist r.size r.cPos r.cHead

/-- A completion head returns at most the slots posted (R348). -/
def RingSt.giveBack (r : RingSt) (c : Nat) : RingSt :=
  let n := r.size
  if r.enabled = false then r
  else if c < n ∧ ringDist n c r.cHead ≤ r.unreturned then { r with cHead := c }
  else { r with badDb := true }

/-- The doorbell page at an offset of BAR4 (R343). -/
def doorbellRing (off : BitVec 18) : RingId := ⟨off.toNat / 4096, by omega⟩

/-- A 32-bit write in BAR4: the doorbell at its page offset takes the value; the other offsets of a page hold nothing (R343,
R359). -/
def State.doorbell (s : State) (off : BitVec 18) (val : W32) : State :=
  if s.ideRefused then s
  else s.modRing (doorbellRing off) fun x => match off.toNat % 4096 with
    | 0x000 => x.submit val.toNat
    | 0x800 => x.giveBack val.toNat
    | _ => x

def execSubmissionDoorbell (off : BitVec 18) (tail : W32) (s : State) : Res := .next (s.doorbell off tail)

def execCompletionDoorbell (off : BitVec 18) (head : W32) (s : State) : Res := .next (s.doorbell off head)

/-- An enabled ring of a kind holds an entry that has not been taken. -/
def RingSt.ready (r : RingSt) (kind : Nat) : Bool :=
  r.enabled && r.kind == kind && r.head != r.tail

/-- A free completion slot (R353). -/
def RingSt.slotFree (r : RingSt) : Bool := decide (r.unreturned + r.taken < r.size - 1)

/-- The entry at the head taken. -/
def RingSt.take (r : RingSt) : RingSt := { r with head := (r.head + 1) % r.size, taken := r.taken + 1 }

/-- The head moved past an entry that the arbiter has read. -/
def RingSt.pop (r : RingSt) : RingSt := { r with head := (r.head + 1) % r.size }

/-- HST_RING_STATUS (R366). -/
def RingSt.status (r : RingSt) : W64 :=
  put (r.head % 4096) 52 ||| put (r.tail % 4096) 40 ||| put (r.taken % 4096) 28 ||| put (r.cHead % 4096) 16 |||
  put (r.cPos % 4096) 4 ||| putB r.badCfg 1 ||| putB r.badDb 0

/-- The one physical function of the module (R340, R343). The class of a processing accelerator is base class 0x12 (log
entry 144). -/
def pciFunction : PciConfig :=
  { vendor := 0x1F3A, device := 0x7200, cls := 0x12_0000, rates := [25, 50, 80, 160, 320, 640], widths := [16, 8, 4, 2, 1]
    flit := true, maxPayload := 512, maxRead := 4096, tagBits := 14, requests := 1024, msixVectors := 65, aer := true, flitLog := true
    flr := true, doeMailboxes := 1, ideLinkStreams := 1, bars := [(0, 2 ^ 26), (2, 2 ^ 36), (4, 2 ^ 18)] }

/-- The link trained: the module answers configuration requests with its identity and capabilities (R4, R494). Without FLIT mode
the rate is at most 32.0 GT/s (R342). -/
def State.pcieUp (s : State) (rate : BitVec 4) (width : BitVec 5) (flit : Bool) : State :=
  let rate : BitVec 4 := if flit = false ∧ 5 < rate.toNat then 5 else rate
  (s.modHost fun h => { h with
    rate := rate, width := width, flit := flit, ltssm := 1
    degraded := decide (rate.toNat < 6) || decide (width.toNat < 16) || !flit }).emit (.pciConfig pciFunction)

/-- PCIE_LINK_UP: training ends once step 8 has been reached and PERST# is released. -/
def execPcieLinkUp (rate : BitVec 4) (width : BitVec 5) (flit : Bool) (s : State) : Res :=
  .next (if s.glb.perst ∨ s.glb.hold = .off ∨ s.pwr.refLost100 = true then s else s.pcieUp rate width flit)

end Sys2Proof.Machine
end

