-- ==== Sys2Proof/Machine/Host.lean ====
section
/-! DEFINITION. The memory aperture, host till entries and resets of the link (12 R344 to R346, R355, R357, R359; 15 R467). -/

namespace Sys2Proof.Machine

/-! ### The aperture (R344 to R346) -/

/-- A value that HST_APT_MAP takes: a vault or far channel at a multiple of 4 GiB, or unmapped. -/
def aptValueOk (v : W64) : Bool :=
  match placeOf 0 v with
  | .dram c a => a % 2 ^ 32 == 0 && decide (a + 2 ^ 32 ≤ ctlBytes c)
  | .none => true
  | _ => false

/-- A value as HST_APT_MAP takes it: the bits that R287 leaves reserved in its SPACE read as zero and a value written there is
ignored (R5). -/
def aptMasked (v : W64) : W64 :=
  match fld v 63 60 with
  | 2 => v &&& 0xF000_01F1_FFFF_FFFF
  | 3 => v &&& 0xF000_03F7_FFFF_FFFF
  | 15 => v &&& 0xF000_0000_0000_0000
  | _ => v

/-- A write of HST_APT_MAP: any value that places no segment changes only the status (R344). -/
def State.writeApt (s : State) (k : Fin 16) (v : W64) : State :=
  if aptValueOk (aptMasked v) then s.modHost fun h => { h with aptMap := h.aptMap.set k.val (aptMasked v) }
  else s.modHost fun h => { h with aptStatus := Status.stateConflict.code }

def State.aptTarget (s : State) (off : BitVec 36) (n : Nat) : Option (CtlId × Nat) :=
  match placeOf 0 (s.host.aptMap[off.toNat / 2 ^ 32 % 16]'(by omega)) with
  | .dram c a => if a + off.toNat % 2 ^ 32 + n ≤ ctlBytes c then some (c, a + off.toNat % 2 ^ 32) else none
  | _ => none

/-- The job holds a sealed charter from VERIFIED on. -/
def State.sealedFrom (s : State) : Bool :=
  s.sealedJob && decide (3 ≤ jobCode s.job.state)

/-- ACTIVATING to RELEASING. -/
def State.inJob (s : State) : Bool := decide (4 ≤ jobCode s.job.state)

/-- Why an access is refused, in the order of R345, IDE first (R359); a write refused for its region alone has no PCIe status. -/
def State.aptRefusal (s : State) (off : BitVec 36) (n : Nat) (write : Bool) : Option (PciStatus × Status) :=
  if s.ideRefused then some (.abort, .denied)
  else
    match s.aptTarget off n with
    | none => some (.unsupported, .stateConflict)
    | some (c, a) =>
      if s.ctlOk c = false then some (.abort, .stateConflict)
      else if inCharterStore c a n then some (.abort, .denied)
      else if write && s.inJob && s.isNamed c a n then some (.success, .denied)
      else if s.sealedFrom then some (.abort, .sealed)
      else none

/-- APERTURE_READ: a far channel is read through its slice; an uncorrectable read leaves its record and is refused. -/
def apertureRead (off : BitVec 36) (len : Nat) (met : ReadMet) (s : State) : State :=
  match s.aptRefusal off len false, s.aptTarget off len with
  | none, some (c, a) =>
    let r := s.readVia c a len false met { source := 0, step := s.recStep, mb := noMb, unit := 0x6000, chan := 0xFF }
    if r.1 then r.2.emit (.pci .success (r.2.readBytes c a len))
    else (r.2.aptErr .uncorrectable off).pciRefuse .abort
  | some (p, st), _ => (s.aptErr st off).pciRefuse p
  | none, none => s

def execApertureRead (off : BitVec 36) (len : Nat) (met : ReadMet) (s : State) : Res := .next (apertureRead off len met s)

/-- TLPs of at most 512 bytes, none across a block: no block arrives whole, so each block they touch is stored with VALID
clear (R270, R346); a TLP's part of a codeword goes through the merge buffer (R272). -/
def State.writeTlps (s : State) (c : CtlId) (a : Nat) (data : List Byte) : Nat → State
  | 0 => s
  | n + 1 =>
    let k := min 512 (min data.length (4096 - a % 4096))
    if k = 0 then s else (s.writeBytes c a (data.take k) []).writeTlps c (a + k) (data.drop k) n

/-- APERTURE_WRITE. -/
def apertureWrite (off : BitVec 36) (data : Bytes) (s : State) : State :=
  match s.aptRefusal off data.length true, s.aptTarget off data.length with
  | none, some (c, a) => s.writeTlps c a data data.length
  | some (p, st), _ => (s.aptErr st off).aerLog p
  | none, none => s

def execApertureWrite (off : BitVec 36) (data : Bytes) (s : State) : Res := .next (apertureWrite off data s)

/-! ### Host tills (R355, R467) -/

/-- The end of the active plane whose LINK names a ring. -/
def State.ringTill (s : State) (r : RingId) (isOut : Bool) : Option TillEnd :=
  match s.planeCfg with
  | some p => p.tills.find? fun c => c.path == .host && c.ring == r && c.isOut == isOut
  | none => none

/-- The entry at the head of a ring can be taken. -/
def State.entryDue (s : State) (r : RingId) (kind : Nat) : Bool :=
  (s.host.rings[r.val]).ready kind && (s.host.rings[r.val]).slotFree

/-- A block of a host buffer: its plaintext with its hallmark; in a sealed job decrypted, VALID clear where the tag fails. -/
def State.hostBlock (s : State) (r : RingId) (e : EngineId) (t : Nat) (origin : StepNo) (mb : W16) (n : W32) (b : Nat)
    (raw : List Byte) (tag : BitVec 128) : List Byte × Sideband :=
  let side (d : List Byte) : Sideband := mkSide (crc32c d) 1 (s.job.plane == 1) origin mb (e.val * 64 + t) n.toNat b
  match (if s.sealedJob then s.hostKey r else none) with
  | none => (raw, side raw)
  | some k =>
    match Config.gcmOpen k (s.hostNonce origin mb b) [] raw tag with
    | some d => (d, side d)
    | none => (raw, (side raw).clearValid)

/-- HOST_TILL_IN_ENTRY: the host interface, holding a credit, sends the entry's message. -/
def hostTillInEntry (r : RingId) (w0 addr : W64) (origin : StepNo) (mb : W16) (data : Bytes) (tags : List (BitVec 128))
    (s : State) : State :=
  match s.ringTill r false with
  | none => s
  | some c =>
    let e : EngineId := Fin.ofNat 128 c.engine
    let y := s.till e c.till
    if s.entryDue r 1 = false ∨ y.state ≠ 1 ∨ y.o = 0 then s
    else
      let n := y.nextIn
      let s := s.modRing r fun g => { g.take with posted := g.posted ++ [(w0, addr)], waiting := g.waiting ++ [n] }
      (List.range c.blocks).foldl (fun s b =>
        let (d, x) := s.hostBlock r e c.till origin mb n b (pad (slice data (b * 4096) 4096) 4096) (tags.getD b 0)
        tillData e (Fin.ofNat 64 c.till)
          { path := .host r, plane := s.job.plane == 1, data := d, side := x, gcmTag := 0, epoch := false
            storeFail := none } s) s

def execHostTillInEntry (r : RingId) (w0 : W64) (addr : W64) (origin : StepNo) (mb : W16) (data : Bytes)
    (tags : List (BitVec 128)) (s : State) : Res :=
  .next (hostTillInEntry r w0 addr origin mb data tags s)

/-- HOST_TILL_OUT_ENTRY: a buffer is posted: one credit, or the place of a message that a link reset left unacknowledged. -/
def hostTillOutEntry (r : RingId) (w0 addr : W64) (s : State) : State :=
  match s.ringTill r true with
  | none => s
  | some c =>
    let e : EngineId := Fin.ofNat 128 c.engine
    let y := s.till e c.till
    if s.entryDue r 2 = false ∨ y.state ≠ 1 then s
    else
      let s := s.modRing r fun g => { g.take with posted := g.posted ++ [(w0, addr)] }
      match y.outs.find? fun o => !o.acked with
      | some o => s.sendHost e c o []
      | none => s.modT e c.till fun x => { x with credits := x.credits + 1 }

def execHostTillOutEntry (r : RingId) (w0 : W64) (addr : W64) (s : State) : Res := .next (hostTillOutEntry r w0 addr s)

/-! ### Resets of the link (R357) -/

/-- A slip of channel 6 or 7 with an outstanding host access. -/
def ChanSt.onHost (c : ChanSt) (e : EngineId) : Bool :=
  c.busy && match c.slip with
    | some x => (placeOf e x.w1).isHost || (placeOf e x.w2).isHost
    | none => false

/-- Host till ends lose their credits. -/
def State.hostTillsReset (s : State) : State :=
  match s.planeCfg with
  | none => s
  | some p => (p.tills.filter fun c => c.path == .host).foldl (fun s c =>
      s.modT (Fin.ofNat 128 c.engine) c.till fun x => if c.isOut then { x with credits := 0 } else { x with o := 0 }) s

def State.hostChannelsHalt (s : State) : State :=
  s.forEng fun (s : State) (e : EngineId) =>
    ([6, 7] : List ChanId).foldl (fun (s : State) (ch : ChanId) =>
      if (s.chan e ch).onHost e then s.chainHalt e ch .stateConflict (s.chan e ch).progress.toNat else s) s

/-- A drain ends without a commit at a reset of the host link (R425). -/
def State.hostDrainFails (s : State) : State := s.drainFail .stateConflict true

def hostLinkReset (s : State) : State :=
  let s := s.modHost fun h => { h with
    ideActive := false
    aptMap := Vector.replicate 16 0xF000_0000_0000_0000
    rings := h.rings.map fun g => { g with cfg := setBit g.cfg 63 false } }
  s.hostTillsReset.hostChannelsHalt.hostDrainFails

def execHostLinkReset (s : State) : Res := .next (hostLinkReset s)

end Sys2Proof.Machine
end

