-- ==== Sys2Proof/Machine/Start.lean ====
section
/-! DEFINITION. Start-up, the four kinds of reset, reference clocks, the recovery loader, curve commits, the watchdog
(01 R28; 16 R470, R478, R482, R486 to R496; 17 R500 to R507). -/

namespace Sys2Proof.Machine

/-! ### Counters of an engine (R96, R128, R157, R187, R225, R226, R258, R302, R444) -/

def EngArr.takeCounts (x y : EngArr) : EngArr :=
  { x with
    excInv := y.excInv, excOvf := y.excOvf, excNan := y.excNan, homeWait := y.homeWait, tilebufWait := y.tilebufWait
    homeAdded := y.homeAdded, homeFirst := y.homeFirst, homeInv := y.homeInv, homeOvf := y.homeOvf, homeNan := y.homeNan }

def EngVec.takeCounts (x y : EngVec) : EngVec :=
  { x with
    convFlush := y.convFlush, convOvf := y.convOvf, convInv := y.convInv, convNanBlk := y.convNanBlk, excInv := y.excInv
    excOvf := y.excOvf, excNan := y.excNan, tileWait := y.tileWait, depWait := y.depWait, readback := y.readback
    spilled := y.spilled }

def EngLed.takeCounts (x y : EngLed) : EngLed :=
  { x with
    created := y.created, freed := y.freed, auditFails := y.auditFails, pfMiss := y.pfMiss, pfImplicit := y.pfImplicit
    updated := y.updated, fetched := y.fetched, notResident := y.notResident, staleUses := y.staleUses
    refusals := y.refusals, auditPasses := y.auditPasses, auditPageFails := y.auditPageFails }

def TillSt.takeCounts (x y : TillSt) : TillSt :=
  { x with cMsgs := y.cMsgs, cResends := y.cResends, cOver := y.cOver, reloads := y.reloads, odWait := y.odWait }

def ChanSt.takeCounts (x y : ChanSt) : ChanSt :=
  { x with slips := y.slips, halts := y.halts, stops := y.stops, pinWait := y.pinWait, limitWait := y.limitWait }

/-- Engine x with the counters of engine y. -/
def Engine.takeCounts (x y : Engine) : Engine :=
  { x with
    arr := x.arr.takeCounts y.arr, vec := x.vec.takeCounts y.vec, led := x.led.takeCounts y.led
    recvWait := y.recvWait, sendWait := y.sendWait, floatWait := y.floatWait, versionWait := y.versionWait
    tills := Vector.ofFn fun i => (x.tills[i.val]).takeCounts y.tills[i.val]
    dma := Vector.ofFn fun i => (x.dma[i.val]).takeCounts y.dma[i.val]
    esc := { x.esc with drained := y.esc.drained, wait := y.esc.wait } }

/-- Step 10 of R37 sets the counters to zero. -/
def Engine.zeroCounts (x : Engine) : Engine := x.takeCounts Engine.init

def ArraySt.fused (x y : ArraySt) : ArraySt := { x with width := y.width, bypass := y.bypass, quar := y.quar }

/-- An engine after a half or engine reset: its strikes, error counts and fault log, its fuse map, its quarantine and the
counters tied to a module reset are kept (R487). -/
def Engine.wiped (e : Engine) : Engine :=
  let x := { Engine.init with int := e.int }.takeCounts e
  { x with arr := { x.arr with a := x.arr.a.fused e.arr.a, b := x.arr.b.fused e.arr.b } }

/-! ### The steps of R494 -/

/-- Straps sampled (R484, R501). -/
def State.sampleStraps (s : State) : State :=
  s.modGlb fun g => { g with droop := g.pinDroop, strapRecovery := g.pinRecovery, pairPos := g.pinPair }

def State.atStep (s : State) (n : Nat) : State := s.modGlb fun g => { g with startStep := BitVec.ofNat 4 n }

def State.holdStart (s : State) (h : StartHold) : State := (s.modGlb fun g => { g with hold := h }).alert

/-- The recovery loader runs in place of step 3 or 4 (R495). -/
def State.enterRecovery (s : State) : State := (s.modGlb fun g => { g with recovery := true }).holdStart .recovery

/-- What the security store holds, in bytes. -/
def SecStore.bytes (x : SecStore) : List Byte :=
  x.cert ++ toBytes (optDigest x.keyI) 64 ++ toBytes (optDigest x.keyO) 64 ++ toBytes x.moduleId 2 ++ toBytes x.boot 4 ++
  x.fuseMap ++ toBytes x.dbHead 64 ++ toBytes x.dbSeq 8 ++ [if x.jobFlag then 1 else 0]

/-- Authentication fails: the tag found is not that of the contents under the store key (R445, R447; log entry 191). -/
def SecStore.bad (x : SecStore) (tag : Option (BitVec 128)) : Bool :=
  match tag with
  | none => false
  | some t => t != Config.storeMac storeKey x.bytes

/-- Step 2: boot count, security store. A store that fails authentication leaves no key enrolled (R447). -/
def State.loadStore (s : State) (tag : Option (BitVec 128)) : State :=
  s.modSec fun x =>
    let bad := x.store.bad tag
    let st := { x.store with boot := wrapAdd x.store.boot 1 }
    let st := if bad then { st with keyI := none, keyO := none } else st
    { x with
      store := st, storeFail := bad, dbOpen := false, boot := st.boot, keyI := st.keyI, keyO := st.keyO, dbHead := st.dbHead, dbSeq := st.dbSeq }

/-- Step 3: the firmware image verified and measured (R460). -/
def State.loadFirmware (s : State) : Option State :=
  match s.sec.flash with
  | none => none
  | some img =>
    if s.fwOk img then
      let d := Config.sha3_512 img
      let s := s.modSec fun x => { x with fwSecVer := Config.fwSecVersion img, fwVer := Config.fwVersion img, fwDigest := d }
      some (s.measure 0 1 (Config.fwVersion img) d)
    else none

/-- Columns that a fuse map bypasses on an array, and the width that it presents (R89). -/
def ArraySt.applyMap (x : ArraySt) (map : List Byte) (i : Nat) : ArraySt :=
  let b := if map = [] then 0 else Config.fuseMapBypass map i
  { x with bypass := b, width := ((List.range 64).filter fun k => !(bitAt b k)).length }

/-- The map applied to an engine; an array B below 60 columns is quarantined (R90). -/
def Engine.applyMap (e : Engine) (map : List Byte) (i : Nat) : Engine :=
  let b := e.arr.b.applyMap map (2 * i + 1)
  { e with arr := { e.arr with a := e.arr.a.applyMap map (2 * i), b := { b with quar := b.quar || decide (b.width < 60) } } }

def CtlSt.applyMap (c : CtlSt) (map : List Byte) (i : Nat) : CtlSt :=
  let w : W32 := if map = [] then 0 else Config.fuseMapSpares map i
  { c with mapVersion := if map = [] then 0 else Config.fuseMapVersion map
           spareRows := BitVec.ofNat 16 (fld w 31 16), spareCols := BitVec.ofNat 16 (fld w 15 0) }

/-- Bits of units that the map leaves enough spares, and whose numbers a predicate admits. -/
def availBits (n : Nat) (ok : Nat → Bool) : BitVec n :=
  (List.range n).foldl (fun b i => setBit b i (ok i)) 0

/-- Step 5: the installed fuse map, which takes effect at a module reset only (R90, R278, R448). A unit whose map needs more
spares than it has leaves service (R28); a far channel does when the base cache slice through which every access to it
passes has too few (log entry 147). -/
def State.applyMaps (s : State) : State :=
  let map := s.sec.store.fuseMap
  let v : W16 := if map = [] then 0 else Config.fuseMapVersion map
  let fits (u : Nat) : Bool := map == [] || !Config.spareShort v.toNat u
  let s := { s with
    eng := Vector.ofFn fun i => (s.eng[i.val]).applyMap map i.val
    vaults := Vector.ofFn fun i => (s.vaults[i.val]).applyMap map i.val
    fars := Vector.ofFn fun i => (s.fars[i.val]).applyMap map (32 + i.val) }
  (s.modSec fun x => { x with mapVer := v }).modGlb fun g => { g with
    engAvail := availBits 128 fun i => fits i && decide (60 ≤ (s.eng[i % 128]'(by omega)).arr.a.width)
    vaultAvail := availBits 32 fun i => fits (128 + i)
    farAvail := availBits 48 fun i => fits (160 + i) && fits (208 + (sliceOf (Fin.ofNat 48 i)).val) }

/-- The fuse map measured into MR_BOOT (R461). -/
def State.measureMap (s : State) : State :=
  let map := s.sec.store.fuseMap
  if map = [] then s
  else s.measure 0 2 ((Config.fuseMapVersion map).setWidth 64) (Config.sha3_512 map)

/-- Islands first to last held in reset or out of it (R497). -/
def State.setReset (s : State) (first last : Nat) (on : Bool) : State :=
  s.modPwr fun p => { p with
    isl := Vector.ofFn fun i =>
      if first ≤ i.val ∧ i.val ≤ last then { p.isl[i.val] with inReset := on } else p.isl[i.val] }

/-- The pairs that the slices of the admitted halves serve (R284). -/
def State.setPairs (s : State) (mine : Bool → Bool) : State :=
  { s with
    caches := Vector.ofFn fun i =>
      if mine (decide (4 ≤ i.val)) then { s.caches[i.val] with pairs := slicePairs i } else s.caches[i.val] }

/-- The rounds of R362 at start-up, at most three, each with the widths and the check pattern of its lane module. -/
def laneRounds (env : StartEnv) (l : Nat) (x : LaneSt) : LaneSt :=
  (List.range 3).foldl (fun x k =>
    if x.state = 3 then x
    else
      let i := 16 * k + l
      laneRound x (env.widthWest.getD i 0) (env.widthEast.getD i 0) (!(bitAt env.checkBad i))) x

/-- Step 6: the lane modules that a predicate admits all train and then agree their widths; one that fails three times is
locked at code 2 or leaves service (R362, R363). -/
def State.spanStart (s : State) (env : StartEnv) (mine : LaneSt → Bool) : State :=
  let ls := (List.finRange 16).filter fun l => mine s.span.lanes[l.val]
  let s := ls.foldl (fun (s : State) (l : Fin 16) => (s.modLane l fun _ => LaneSt.init).laneAgree l) s
  ls.foldl (fun (s : State) (l : Fin 16) =>
    let s := (s.modLane l fun x => laneRounds env l.val x).reroute
    if (s.span.lanes[l.val]).state = 3 then s else laneLock l (bitAt env.lockOk l.val) s) s

/-- Step 7: training of the vaults and far channels that a predicate admits; scrubbers start. -/
def State.trainMemory (s : State) (env : StartEnv) (mine : Bool → Bool) : State :=
  let up (c : CtlSt) (bad : Bool) (avail : Bool) : CtlSt :=
    { c with trained := !bad, inService := !bad && avail, scrubOn := bitAt c.scrub 16 && !bad && avail, rate := fld c.scrub 15 0 }
  let s := { s with
    vaults := Vector.ofFn fun i =>
      if mine (decide (16 ≤ i.val)) then up s.vaults[i.val] (bitAt env.vaultBad i.val) (bitAt s.glb.vaultAvail i.val) else s.vaults[i.val]
    fars := Vector.ofFn fun i =>
      if mine (decide (24 ≤ i.val)) then up s.fars[i.val] (bitAt env.farBad i.val) (bitAt s.glb.farAvail i.val) else s.fars[i.val] }
  s.modGlb fun g => { g with
    vaultAvail := availBits 32 fun i => bitAt g.vaultAvail i && !(mine (decide (16 ≤ i)) && bitAt env.vaultBad i)
    farAvail := availBits 48 fun i => bitAt g.farAvail i && !(mine (decide (24 ≤ i)) && bitAt env.farBad i) }

/-- Step 9 for the ports that a predicate admits, with presets under R483; without the 156.25 MHz reference they stay DOWN (R504). -/
def State.trainPorts (s : State) (env : StartEnv) (mine : Bool → Bool) : State :=
  if s.glb.ref156 = false then s
  else
    (List.finRange 48).foldl (fun (s : State) (p : PortId) =>
      if mine (decide (24 ≤ p.val)) = false ∨ (s.ports[p.val]).state = 3 ∨ (s.ports[p.val]).up = true then s
      else if bitAt env.portBad p.val then
        (s.modPort p fun x => { x with failed := 3, state := 3 }).modGlb fun g =>
          { g with portAvail := setBit g.portAvail p.val false }
      else
        let s := (s.presetCheck p env.rx).modPort p fun x => x.trained (env.farModule.getD p.val 0)
        let s := s.modGlb fun g => { g with portAvail := setBit g.portAvail p.val true }
        s.gatherFrames p) s

/-- The boot entry (R458). -/
def State.bootEntry (s : State) : State :=
  let q := s.sec.store.dbSeq
  s.dbAppendEntry
    { seqNo := bootSeq q, boot := s.sec.boot, kind := dbBoot
      role := roleNone, source := srcModule, status := 0, code := 0, step := s.recStep, target := q, digest := 0 }

/-- Step 10: islands at their points; the memory of a job that never reached EMPTY zeroised (R490). -/
def State.raise10 (s : State) : State :=
  let s := (s.setReset 0 143 false).modPwr PwrSt.setPoints
  if s.sec.store.jobFlag then
    s.zeroAllDram.modSec fun x => { x with store := { x.store with jobFlag := false } }
  else s

/-- Step 11. -/
def State.ready11 (s : State) : State :=
  ((s.atStep 11).bootEntry.drawNonce.modGlb fun g => { g with ready := true, hold := .done }).alert

/-- Steps 8 to 11. Step 8 waits for PERST# to be released. -/
def State.startFrom8 (s : State) (env : StartEnv) : State :=
  let s := s.atStep 8
  if s.glb.perst then s.holdStart .perst
  else
    let s := match env.pcie with
      | some (r, w, f) => s.pcieUp r w f
      | none => s
    let s := ((s.atStep 9).setReset 208 255 false).trainPorts env fun _ => true
    ((s.atStep 10).raise10).ready11

/-- Steps 4 to 11. -/
def State.startFrom4 (s : State) (env : StartEnv) : State :=
  let s := (s.atStep 4).modSec fun x => { x with wdogResets := satAdd x.wdogResets env.watchdogs }
  if 3 ≤ env.watchdogs then s.enterRecovery
  else
    let s := (s.modGlb fun g => { g with bursarUp := true }).setReset 258 258 false
    let s := (((s.atStep 5).setPairs fun _ => true).applyMaps).measureMap
    let s := ((s.atStep 6).setReset 256 257 false).spanStart env fun _ => true
    let s := ((s.atStep 7).setReset 144 207 false).trainMemory env fun _ => true
    s.startFrom8 env

/-- Steps 2 to 11; a reset that begins at step 2 samples the straps there. -/
def State.startFrom2 (s : State) (env : StartEnv) (sample : Bool) : State :=
  let s := s.atStep 2
  let s := if sample then s.sampleStraps else s
  if env.fuseSplit then s.holdStart .fuseSplit
  else
    let s := (s.loadStore env.storeTag).atStep 3
    if s.glb.strapRecovery then s.enterRecovery
    else match s.loadFirmware with
      | none => s.enterRecovery
      | some s => s.startFrom4 env

/-- What step 2 waits for: RESET_N, then the 100 MHz reference (R500, R504). A start by power has sampled its straps. -/
def State.gate2 (s : State) (env : StartEnv) : State :=
  let s := (s.modGlb fun g => { g with startStep := 2 }).setReset 0 258 true
  if s.glb.resetN then s.holdStart .resetN
  else if s.glb.ref100 = false then s.holdStart .refClock
  else s.startFrom2 env (s.glb.lastReset != 1 && s.glb.lastReset != 3)

/-! ### Module reset (R487) -/

/-- The slips in progress of the engines that a reset takes are cut (R298). -/
def State.cutAll (s : State) (mine : EngineId → Bool) : State :=
  (List.finRange 128).foldl (fun (s : State) (e : EngineId) =>
    if mine e then
      (List.finRange 8).foldl (fun (s : State) (c : ChanId) => if (s.chan e c).busy then s.cutSlip e c else s) s
    else s) s

/-- Contents of the memories, which a reset without loss of power leaves. -/
def keepMem (c : CtlSt) : CtlSt := { CtlSt.init with data := c.data, sides := c.sides, zeroed := c.zeroed, bad := c.bad, badDie := c.badDie }

/-- Everything at its reset value but the security store, the flash, the fuse floor, the pins and, with power kept, the
contents of the memories. -/
def State.blank (s : State) (cause : BitVec 4) (power : Bool) : State :=
  let g := s.glb
  { State.reset with
    pending := s.pending, free := s.free, out := s.out
    sec := { SecSt.init with store := s.sec.store, flash := s.sec.flash, floor := s.sec.floor, draws := s.sec.draws }
    glb := { GlbSt.init with
      lastReset := cause, droop := g.droop, strapRecovery := g.strapRecovery, pairPos := g.pairPos, pinDroop := g.pinDroop
      pinRecovery := g.pinRecovery, pinPair := g.pinPair, perst := g.perst, resetN := g.resetN, ref100 := g.ref100
      ref156 := g.ref156 }
    pwr := { PwrSt.init with refLost100 := !g.ref100, refLost156 := !g.ref156 }
    vaults := if power then Vector.replicate 32 CtlSt.init else s.vaults.map keepMem
    fars := if power then Vector.replicate 48 CtlSt.init else s.fars.map keepMem }

/-- A module reset with power kept: LEAVE is sent (R323), every island resets, start-up waits at step 2. -/
def State.moduleReset (s : State) (cause : BitVec 4) (h : StartHold) : State :=
  let s := (s.sendLeave).cutAll (fun _ => true)
  let s := s.blank cause false
  let s := ((s.modGlb fun g => { g with pgOut := true, startStep := 2 }).setReset 0 258 true).holdStart h
  s.modPwr PwrSt.lowest

/-- A module reset that no pin or sensor holds: start-up from step 2. -/
def State.resetAndStart (s : State) (cause : BitVec 4) (env : StartEnv) : State := (s.moduleReset cause .resetN).gate2 env

def State.off (s : State) : Bool := s.glb.hold == .off

/-- MODULE_RESET: the reset that PWR_RESET KIND 1 has asked for (R487). -/
def execModuleReset (env : StartEnv) (s : State) : Res :=
  .next (if s.off = true ∨ s.glb.resetDue ≠ 1 then s else s.resetAndStart 5 env)

/-! ### Power (R470, R472) -/

/-- POWER_APPLIED: step 1, then step 2 unless something holds it. -/
def powerApplied (env : StartEnv) (s : State) : State :=
  if s.off = false then s
  else
    let s := s.blank (if s.glb.lastReset = 3 then 3 else 1) true
    let s := (s.atStep 1).sampleStraps.modGlb fun g => { g with pgOut := true, hold := .resetN }
    (s.modPwr PwrSt.lowest).gate2 env

def execPowerApplied (env : StartEnv) (s : State) : Res := .next (powerApplied env s)

/-- Every island loses power. -/
def State.powerOff (s : State) (cause : BitVec 4) : State := if s.off then s else s.blank cause true

def execInputLoss (s : State) : Res := .next (s.powerOff 3)
def execOverVoltage (s : State) : Res := .next (s.powerOff 0)

/-! ### Heat, references, pins (R478, R486, R500, R504) -/

def execThermalTrip (s : State) : Res := .next (if s.off then s else s.moduleReset 4 .cool)

def execThermalCooldown (env : StartEnv) (s : State) : Res := .next (if s.glb.hold = .cool then s.gate2 env else s)

/-- The PCIe link goes down (R357, R486). -/
def State.pcieDown (s : State) : State := (hostLinkReset s).modHost fun h => { h with ltssm := 0 }

def refClockLost (is156 : Bool) (s : State) : State :=
  if is156 then
    let s := (s.modGlb fun g => { g with ref156 := false })
    if s.off then s
    else
      let s := (s.modPwr fun p => { p with refLost156 := true }).alert
      (List.finRange 48).foldl (fun (s : State) (p : PortId) => if (s.ports[p.val]).state = 3 then s else s.portDown p) s
  else
    let s := (s.modGlb fun g => { g with ref100 := false })
    if s.off then s else (s.modPwr fun p => { p with refLost100 := true }).pcieDown.alert

def execRefClockLost (is156 : Bool) (s : State) : Res := .next (refClockLost is156 s)

/-- A reference present for 1 ms: step 2 proceeds, or ports train as at step 9. -/
def refClockPresent (is156 : Bool) (env : StartEnv) (s : State) : State :=
  if is156 then
    let s := (s.modGlb fun g => { g with ref156 := true })
    if s.off then s
    else
      let s := (s.modPwr fun p => { p with refLost156 := false }).alert
      if s.glb.hold = .done then s.trainPorts env fun _ => true else s
  else
    let s := (s.modGlb fun g => { g with ref100 := true })
    if s.off then s
    else
      let s := (s.modPwr fun p => { p with refLost100 := false }).alert
      if s.glb.hold = .refClock then s.gate2 env else s

def execRefClockPresent (is156 : Bool) (env : StartEnv) (s : State) : Res := .next (refClockPresent is156 env s)

/-- RESET_N held low: 10 us and more reset the module, less than 1 us is ignored, between them either may happen. -/
def resetNAssert (micros : Nat) (s : State) : State :=
  let (hit, s) : Bool × State :=
    if 10 ≤ micros then (true, s)
    else if micros < 1 then (false, s)
    else (Config.shortPulseResets s.free, { s with free := s.free + 1 })
  if hit = false then s
  else
    let s := s.modGlb fun g => { g with resetN := true }
    if s.off then s else s.moduleReset 2 (if s.glb.hold = .cool then .cool else .resetN)

def execResetNAssert (micros : Nat) (s : State) : Res := .next (resetNAssert micros s)

def execResetNDeassert (env : StartEnv) (s : State) : Res :=
  let s := s.modGlb fun g => { g with resetN := false }
  .next (if s.glb.hold = .resetN then s.gate2 env else s)

def execPerstNAssert (s : State) : Res := .next (s.modGlb fun g => { g with perst := true }).pcieDown

/-- PERST# released: step 8 proceeds, or the link of a module that runs trains again. -/
def perstNDeassert (env : StartEnv) (s : State) : State :=
  let s := s.modGlb fun g => { g with perst := false }
  if s.glb.hold = .perst then s.startFrom8 env
  else if s.glb.hold = .done then
    match env.pcie with
    | some (r, w, f) => s.pcieUp r w f
    | none => s
  else s

def execPerstNDeassert (env : StartEnv) (s : State) : Res := .next (perstNDeassert env s)

/-! ### Half and engine resets (R487 to R489) -/

/-- A controller after a half reset: its memory is lost, its error counters are kept. -/
def CtlSt.wiped (c : CtlSt) : CtlSt :=
  { CtlSt.init with
    ueSeen := c.ueSeen, marked := c.marked, passes := c.passes, demandCe := c.demandCe, scrubCe := c.scrubCe
    demandUe := c.demandUe, scrubUe := c.scrubUe, corrections := c.corrections, rmw := c.rmw, merged := c.merged
    lastUe := c.lastUe, mapVersion := c.mapVersion, spareRows := c.spareRows, spareCols := c.spareCols }

def CacheSt.wiped (c : CacheSt) : CacheSt := { c with lines := [] }

def PortSt.wiped (p : PortSt) : PortSt :=
  { PortSt.init with
    retrains := p.retrains, fecCorrected := p.fecCorrected, fecUncorrectable := p.fecUncorrectable, replayed := p.replayed
    naks := p.naks, tx := p.tx, rx := p.rx, badType := p.badType, noRoute := p.noRoute, unadmitted := p.unadmitted
    window := p.window }

def ClrSt.wiped (c : ClrSt) : ClrSt :=
  { ClrSt.init with
    accepted := c.accepted, sent := c.sent, carried := c.carried, dropped := c.dropped, lost := c.lost }

/-- A reset during a job that is not EMPTY: HELD, with an EVENT frame of class UNIT_LOST's status. -/
def State.holdLost (s : State) : State :=
  if s.job.state = .empty then s
  else
    let s := s.post islBursar clsEvent .stateConflict noMb (rec0 (put Status.stateConflict.code.toNat 56))
    let s := s.hold
    if s.job.state = .held then s
    else
      ((s.busyDone .stateConflict).modJob fun j => { j with state := .held }).setErr errHeld

/-- The units of a half as its reset leaves them. -/
def State.wipeHalf (s : State) (east : Bool) : State :=
  let mine (b : Bool) : Bool := b == east
  let s := s.cutAll fun e => mine (decide (64 ≤ e.val))
  { s with
    eng := Vector.ofFn fun i => if mine (decide (64 ≤ i.val)) then (s.eng[i.val]).wiped else s.eng[i.val]
    vaults := Vector.ofFn fun i => if mine (decide (16 ≤ i.val)) then (s.vaults[i.val]).wiped else s.vaults[i.val]
    fars := Vector.ofFn fun i => if mine (decide (24 ≤ i.val)) then (s.fars[i.val]).wiped else s.fars[i.val]
    caches := Vector.ofFn fun i => if mine (decide (4 ≤ i.val)) then (s.caches[i.val]).wiped else s.caches[i.val]
    ports := Vector.ofFn fun i =>
      if mine (decide (24 ≤ i.val)) && (s.ports[i.val]).state != 3 then (s.ports[i.val]).wiped else s.ports[i.val]
    env := { s.env with
      transit := s.env.transit.filter fun x => !(mine (decide (24 ≤ x.1.val)))
      clr := Vector.ofFn fun i => if mine (decide (1 ≤ i.val)) then (s.env.clr[i.val]).wiped else s.env.clr[i.val] } }

/-- HALF_RESET: steps 5, 6, 7, 9 and 10 for one half. The fuse map applied at the module reset stays in force: the widths,
spares and availability bits that it gave are kept (R28, R90, R448), and a lane module that has left service stays out
(R363). -/
def halfReset (east : Bool) (env : StartEnv) (s : State) : State :=
  if s.glb.hold ≠ .done ∨ s.glb.resetDue ≠ (if east then 3 else 2) then s
  else
    let mine (b : Bool) : Bool := b == east
    let s := (s.holdLost).wipeHalf east
    let s := ((s.setPairs mine).spanStart env fun l => l.state != 0).trainMemory env mine
    ((s.trainPorts env mine).modGlb fun g => { g with resetDue := 0 }).modPwr PwrSt.setPoints

def execHalfReset (east : Bool) (env : StartEnv) (s : State) : Res := .next (halfReset east env s)

/-- An engine that the job's charter has audited, in either plane: ROLE 1 and not NO_AUDIT, where AUDIT_N is not 0 (R380). -/
def State.auditedBy (s : State) (c : Charter) (a : EngineId) : Bool :=
  (match s.faults with
  | some f => f.auditN != 0
  | none => false) &&
  (c.plane.any fun p => match p.engMap[a.val]? with
    | some m => m.role == 1
    | none => false) &&
  (match s.faultEng a.val with
  | some f => !f.noAudit
  | none => true)

/-- R489: the job is EMPTY, or the engine has no role in any plane, audits no engine and runs no assay. -/
def State.engResetOk (s : State) (e : EngineId) : Bool :=
  match s.job.state, s.job.charter with
  | .empty, _ => true
  | _, none => true
  | _, some c =>
    c.plane.all (fun p => match p.engMap[e.val]? with
      | some m => m.role == 0
      | none => true) &&
    !((List.finRange 128).any fun a => s.auditedBy c a && s.auditorOf a == some e) &&
    !(s.int.assayWindow && (s.assayArea e).isSome)

/-- ENGINE_RESET: the engine's SRAM is zeroised. -/
def engineReset (e : EngineId) (s : State) : State :=
  if s.engResetOk e = false ∨ s.glb.hold ≠ .done then s
  else
    ((s.cutAll fun x => x == e).modEng e Engine.wiped).modPwr PwrSt.setPoints

/-! ### The bursar (R492, R493) -/

/-! ### EMPTY (R35, R57, R461, R466) -/

/-- The far channels of the copies in service. -/
def State.charterCopies (s : State) : List FarId := ([0, 24] : List FarId).filter fun f => s.ctlOk (.far f)

/-- The staging image cleared, in both copies. -/
def State.clearStaging (s : State) : State :=
  s.charterCopies.foldl (fun s f => s.zeroise (.far f) (charterBase / 4096) 65536) s

/-- The job reaches EMPTY: the staged or active charter, the keys and MR_JOB are gone, RW-L registers unlock. -/
def State.toEmpty (s : State) : State :=
  let s := s.clearStaging.clearMrJob
  let s := s.modSec fun x => { x with jobKey := none, memKey := none, store := { x.store with jobFlag := false } }
  s.modJob fun j => { j with
    state := .empty, plane := 0, planeClosed := 0, len := 0, digest := 0, jobId := 0, declared := 0, charter := none, locked := false
    runLeft := none, busy := none, stepOn := false, fresh := false }

/-- BURSAR_RESET: commands wait; jobs in VERIFYING, ACTIVATING and RESTORING fall back. -/
def State.bursarReset (s : State) : State :=
  if s.glb.bursarUp = false then s
  else
    let s := s.modGlb fun g => { g with bursarUp := false }
    let back (st : JState) (s : State) : State := (s.busyDone .stateConflict).modJob fun j => { j with state := st }
    match s.job.state with
    | .verifying => (s.busyDone .stateConflict).toEmpty
    | .activating => back .verified s
    | .restoring => (back .held s).modCkpt fun k => { k with restore := none }
    | _ => s

/-- WATCHDOG_EXPIRY: a bursar-only reset, counted, entered and reported. -/
def watchdogExpiry (s : State) : State :=
  if s.glb.bursarUp = false then s
  else
    let s := s.bursarReset.modSec fun x => { x with wdogResets := satAdd x.wdogResets 1 }
    let s := s.dbModule .stateConflict clsEvent 0 0
    s.post islBursar clsEvent .stateConflict noMb (rec0 (put Status.stateConflict.code.toNat 56))

def execWatchdogExpiry (s : State) : Res := .next (watchdogExpiry s)

/-- BURSAR_UP: the code region's digest decides; a DOE request that waited is answered. -/
def bursarUp (codeOk : Bool) (env : StartEnv) (s : State) : State :=
  if s.glb.bursarUp = true ∨ s.glb.ready = false then s
  else if codeOk = false then s.resetAndStart 5 env
  else
    let s := s.modGlb fun g => { g with bursarUp := true }
    match s.sec.doeWait with
    | some q => (s.modSec fun x => { x with doeWait := none, doeError := false }).doeRequest q
    | none => s

def execBursarUp (codeOk : Bool) (env : StartEnv) (s : State) : Res := .next (bursarUp codeOk env s)

/-! ### The recovery loader (R495, R496) -/

/-- A recovery frame's payload. -/
def recoveryFrame (kind : Byte) (st : Status) (off len : W32) (data : List Byte) : List Byte :=
  toBytes (1 : W16) 2 ++ [kind, st.code] ++ toBytes off 4 ++ toBytes len 4 ++ toBytes (crc32c data) 4 ++ data

def broadcast : W64 := 0xFFFF_FFFF_FFFF

/-- A frame of the loader on both management ports. -/
def State.sendRecovery (s : State) (p : List Byte) : State :=
  let t : W16 := BitVec.ofNat 16 (fld s.int.errCfg 15 0)
  (s.emit (.ether false t broadcast p)).emit (.ether true t broadcast p)

def State.inRecovery (s : State) : Bool := s.glb.hold == .recovery

def execRecoveryAnnounce (s : State) : Res :=
  .next (if s.inRecovery then
    s.sendRecovery (recoveryFrame 1 .ok 0 0 (toBytes s.sec.store.moduleId 2 ++ toBytes Config.serial 16 ++ toBytes s.sec.boot 4))
  else s)

/-- CHUNK: stored where its CRC passes. -/
def chunk (off len crc : W32) (data : Bytes) (s : State) : State :=
  if s.inRecovery = false then s
  else if len = 0 ∨ 1024 < len.toNat ∨ data.length ≠ len.toNat ∨ 16777216 < off.toNat + len.toNat then
    s.sendRecovery (recoveryFrame 3 .stateConflict off 0 [])
  else if crc32c data ≠ crc then s.sendRecovery (recoveryFrame 3 .hallmarkFail off 0 [])
  else (s.modSec fun x => { x with recovery := (off.toNat, data) :: x.recovery }).sendRecovery (recoveryFrame 3 .ok off 0 [])

def execChunk (off len crc : W32) (data : Bytes) (s : State) : Res := .next (chunk off len crc data s)

/-- The byte at an offset of the chunks received, the newest chunk first. -/
def chunkByte (l : List (Nat × List Byte)) (i : Nat) : Option Byte :=
  match l.find? fun c => decide (c.1 ≤ i) && decide (i < c.1 + c.2.length) with
  | some c => c.2[i - c.1]?
  | none => none

/-- The image of a length, when every byte has arrived. -/
def recoveredImage (l : List (Nat × List Byte)) (n : Nat) : Option (List Byte) :=
  (List.range n).mapM fun i => chunkByte l i

/-- DONE: the image is written and the module reset, or refused. -/
def done (len : W32) (env : StartEnv) (s : State) : State :=
  if s.inRecovery = false then s
  else
    match (if 16777216 < len.toNat then none else recoveredImage s.sec.recovery len.toNat) with
    | none => s.sendRecovery (recoveryFrame 5 .denied 0 len [])
    | some img =>
      if s.fwOk img then
        let s := s.modSec fun x => { x with flash := some img }
        let s := s.dbAppend dbCommand roleNone 0x40 .ok 0x25 0 (Config.sha3_512 img)
        (s.sendRecovery (recoveryFrame 5 .ok 0 len [])).resetAndStart 6 env
      else s.sendRecovery (recoveryFrame 5 .denied 0 len [])

def execDone (len : W32) (env : StartEnv) (s : State) : Res := .next (done len env s)

/-! ### Curve commits (R482) -/

/-- The staging window as bytes. -/
def PwrSt.window (p : PwrSt) : List Byte := (List.range 512).flatMap fun i => toBytes (lookupD p.curveData i 0) 8

/-- A COMMIT of the staging window: its status. -/
def State.commitCurve (s : State) (kind target : Byte) : Status × State :=
  let w := s.pwr.window
  if installerOk w kind.toNat target.toNat = false then (.badCharter, s)
  else
    let same (c : HeldCurve) : Bool := c.kind == kind && c.target == target
    let others := (newestCurves s.pwr.curves).filter fun c => !same c
    if 32 ≤ others.length then (.stateConflict, s)
    else
      let now := s.job.state != .running
      let h : HeldCurve :=
        { kind := kind, target := target, curve := parseCurve w 0, waiting := !now, inside := true, ticks := 0 }
      let s := s.modPwr fun p => { p with curves := h :: p.curves.filter fun c => !(same c && (now || c.waiting)) }
      let s := if now then s.modPwr PwrSt.setPoints else s
      (.ok, s.measure 1 3 0 (Config.sha3_512 (w.take (curveBytes w 0))))

/-- COMMIT of the staging window: a table that fails sets PWR_CURVE_CTRL.STATUS; a commit beyond 32 tables stores nothing
(log entry 43). -/
def curveCommit (kind target : Byte) (word : W64) (s : State) : Status × State :=
  match s.commitCurve kind target with
  | (.badCharter, s) =>
    (.ok, s.modPwr fun p => { p with curveCtrl := put Status.badCharter.code.toNat 56 ||| put (fld word 55 0) 0 })
  | (.ok, s) => (.ok, s.modPwr fun p => { p with curveCtrl := word })
  | (st, s) => (st, s)

/-! ### Management (R507, R512) -/

/-- SMBUS_STOP: the target address of GLB_MGMT_CFG takes effect. -/
def execSmbusStop (s : State) : Res := .next (s.modGlb fun g => { g with smbAddr := BitVec.ofNat 7 (fld g.mgmtCfg 22 16) })

/-- The answer to a PLDM Type 0 request, whose bytes this spec does not give (log entry 12). -/
def State.pldmBaseAnswer (s : State) : List Byte × State :=
  (toBytes (Config.free 64 s.free) 8, { s with free := s.free + 1 })

/-- What the bursar sheds at a fill of its work queue in per cent: above 75 first telemetry, then the mirroring of the day
book; below 50 nothing (R491; log entry 47). -/
def State.shedLoad (s : State) (load : Fin 101) : State :=
  let busy := decide (75 < load.val)
  let calm := decide (load.val < 50)
  s.modGlb fun g => { g with
    shedTelemetry := busy || (g.shedTelemetry && !calm)
    shedMirror := (busy && g.shedTelemetry) || (g.shedMirror && !calm) }

/-- The answer to a PLDM Type 2 sensor read, refused while telemetry is shed: input voltage, input power, hottest sensor, plate temperature. -/
def State.pldmSensor (s : State) (k : Fin 4) : List Byte :=
  if s.glb.shedTelemetry then [0x04]
  else 0x00 :: match k with
    | 0 => toBytes s.pwr.volts 2
    | 1 => toBytes s.pwr.power 2
    | _ => toBytes s.pwr.temp 2

def execPldmBase (_body : Bytes) (s : State) : Res :=
  .next (if s.glb.bursarUp = false then s
    else
      let (b, s) := s.pldmBaseAnswer
      s.emit (.mctp true false 0 0 b))

def execPldmPlatform (sensor : Fin 4) (load : Fin 101) (s : State) : Res :=
  .next (if s.glb.bursarUp = false then s
    else
      let s := s.shedLoad load
      s.emit (.mctp true false 0 0 (s.pldmSensor sensor)))

end Sys2Proof.Machine
end

