-- ==== Sys2Proof/Machine/Charter.lean ====
section
/-! DEFINITION. The charter as bytes: header, directory, the records of each section, their reserved fields, and the
sections read into the structures of Machine/CharterTypes (02 R30 to R33, R40, R41, R45, R48; 03 R69; 05 R144; 06 R158 to R161;
07 R188, R191; 08 R228 to R230, R243; 11 R317, R318; 13 R393; 14 R409, R410; 15 R465). -/

namespace Sys2Proof.Machine

/-- A directory entry with its section's bytes (R31). -/
structure Sec where
  idx : Nat
  ty : Nat
  plane : Nat
  count : Nat
  off : Nat
  len : Nat
  bs : List Byte
deriving DecidableEq, Repr, Inhabited

def sectionCount (img : List Byte) : Nat := rdNat img 6 2

def parseSec (img : List Byte) (i : Nat) : Sec :=
  let o := 0x100 + 64 * i
  { idx := i, ty := rdNat img o 2, plane := rdNat img (o + 2) 1, count := rdNat img (o + 4) 4
    off := rdNat img (o + 8) 8, len := rdNat img (o + 16) 8
    bs := slice img (rdNat img (o + 8) 8) (rdNat img (o + 16) 8) }

def parseSecs (img : List Byte) : List Sec := (List.range (sectionCount img)).map (parseSec img)

/-! ### Places of failures (R519) -/

/-- LIST, ENTRY, SUB. -/
abbrev ErrPlace := Nat × Nat × Nat

def hdrPlace : ErrPlace := (1, 0xFFFF, 0xFFFF)
def recPlace (list i : Nat) : ErrPlace := (list, i, 0xFFFF)

/-- The place of the first condition of a list that does not hold. -/
def firstBad (l : List (Bool × ErrPlace)) : Option ErrPlace := (l.find? fun x => !x.1).map (·.2)

/-- A condition on every record of a list. -/
def eachRec {α : Type} (list : Nat) (l : List α) (ok : Nat → α → Bool) : List (Bool × ErrPlace) :=
  l.zipIdx.map fun x => (ok x.2 x.1, recPlace list x.2)

/-! ### Records of a section -/

/-- count records of one list, each of size bytes, from an offset. -/
structure RecRun where
  list : Nat
  count : Nat
  off : Nat
  size : Nat
deriving DecidableEq, Repr, Inhabited

def RecRun.next (r : RecRun) : Nat := r.off + r.count * r.size

/-- The runs of the sections whose records have a fixed size; header first. -/
def recRuns (ty : Nat) (replicas : Nat) (bs : List Byte) (n : Nat) : List RecRun :=
  let run (list count off size : Nat) : RecRun := { list := list, count := count, off := off, size := size }
  match ty with
  | 0x1 => [run 0 n 0 16]
  | 0x2 => [run 0 n 0 32]
  | 0x3 => [run 1 1 0 64, run 0 n 64 64, run 2 replicas (64 + 64 * n) 2]
  | 0x5 => [run 0 n 0 8]
  | 0x6 => [run 1 1 0 16, run 0 n 16 32]
  | 0x8 =>
    let p := rdNat bs 4 4
    [run 1 1 0 64, run 0 n 64 32, run 2 p (64 + 32 * n) 16, run 3 (rdNat bs 8 4) (64 + 32 * n + 16 * p) 16]
  | 0x9 => [run 1 1 0 64, run 0 n 64 16, run 2 (rdNat bs 0xC 4) (64 + 16 * n) 16]
  | 0xA => [run 1 1 0 64, run 0 n 64 8]
  | 0xB =>
    let a := 64 * n
    let t := rdNat bs a 4
    [run 0 n 0 64, run 1 1 a 16, run 2 t (a + 16) 32, run 3 (rdNat bs (a + 4) 4) (a + 16 + 32 * t) 8]
  | 0xC => [run 1 1 0 0x660, run 0 80 0x660 16]
  | _ => []

/-- Offsets of n tables that follow one another. -/
def tableOffs (size : Nat → Nat) : Nat → Nat → List Nat
  | 0, _ => []
  | n + 1, o => o :: tableOffs size n (o + size o)

def schedSize (bs : List Byte) (o : Nat) : Nat := 32 + 16 * rdNat bs (o + 6) 2
def schedOffs (bs : List Byte) (n : Nat) : List Nat := tableOffs (schedSize bs) n 0
def curveOffs (bs : List Byte) (n : Nat) : List Nat := tableOffs (curveBytes bs) n 0

/-- Records that begin inside a section of len bytes. -/
def RecRun.held (r : RecRun) (len : Nat) : Nat := if r.size = 0 then 0 else min r.count ((len - r.off) / r.size + 1)

/-- Every record of a run lies within the section. -/
def RecRun.fits (len : Nat) (r : RecRun) : List (Bool × ErrPlace) :=
  (List.range (r.held len)).map fun i =>
    (decide (r.off + (i + 1) * r.size ≤ len), if r.list = 1 then hdrPlace else recPlace r.list i)

/-- Tables with their rows or points, as far as one begins inside the section. A table whose own header does not fit is
reported with LIST 0 and its index, not with LIST 1 (DESIGN CHOICE, log entry 99). -/
def tablesFit (head each : Nat) (n : Nat → Nat) (len : Nat) (offs : List Nat) : List (Bool × ErrPlace) :=
  (offs.zipIdx).flatMap fun o =>
    if len < o.1 then [(false, recPlace 0 o.2)]
    else
      (decide (o.1 + head ≤ len), recPlace 0 o.2) ::
      (List.range (if o.1 + head ≤ len then n o.1 else 0)).map fun k =>
        (decide (o.1 + head + (k + 1) * each ≤ len), (0, o.2, k))

def capCount (n len each : Nat) : Nat := min n (len / each + 1)

/-- Where a section is too short for what its counts declare (R519). -/
def Sec.short (x : Sec) (replicas : Nat) : Option ErrPlace :=
  let len := x.bs.length
  match x.ty with
  | 0x4 => firstBad (tablesFit 32 16 (fun o => rdNat x.bs (o + 6) 2) len (schedOffs x.bs (capCount x.count len 32)))
  | 0x7 => firstBad (tablesFit 16 16 (fun o => rdNat x.bs (o + 2) 2) len (curveOffs x.bs (capCount x.count len 16)))
  | _ => firstBad ((recRuns x.ty replicas x.bs x.count).flatMap (RecRun.fits len))

/-! ### Reserved fields (check 10) -/

/-- Bits of a field that must be zero. -/
def maskZero (r : List Byte) (o n mask : Nat) : Bool := (rdNat r o n &&& mask) == 0
def bytesZero (r : List Byte) (o n : Nat) : Bool := allZero (slice r o n)

/-- The reserved bits of a page location (R189). -/
def locZero (r : List Byte) (o : Nat) : Bool :=
  let w := rdNat r o 4
  if w / 2 ^ 31 = 1 then w / 2 ^ 29 % 4 == 0 else w / 2 ^ 21 % 2 ^ 8 == 0

/-- OPC bits 5:0 of the memory format (R162, R163). -/
def isMemOp (op : Nat) : Bool := decide (0x38 ≤ op) && decide (op ≤ 0x3E)

def resvLayers (list : Nat) (r : List Byte) : Bool :=
  match list with
  | 0 =>
    maskZero r 0xE 1 0xFC && maskZero r 0x10 4 0xFF000000 && maskZero r 0x14 4 0xFF000000 && bytesZero r 0x1C 4 &&
    maskZero r 0x2A 1 0xC0 && bytesZero r 0x2E 2 && maskZero r 0x30 4 0x7F000000 && maskZero r 0x34 4 0xFF000000
  | 1 => bytesZero r 8 8
  | 2 => maskZero r 4 4 0xFF000000 && maskZero r 0xE 1 0xE0 && maskZero r 0x14 4 0xFF000000 && bytesZero r 0x18 8
  | _ => !isMemOp (rdNat r 7 1 % 64) || (maskZero r 4 2 0x00FF && bytesZero r 0 3)

/-- The reserved fields of a record of fixed size are zero. -/
def resvRec (ty list : Nat) (r : List Byte) : Bool :=
  match ty, list with
  | 0x1, _ => locZero r 8
  | 0x2, _ =>
    maskZero r 2 1 0xC0 && (rdNat r 2 1 / 2 % 4 != 0 || maskZero r 4 2 0xC080) && maskZero r 0x10 4 0xFF000000 &&
    locZero r 0x14 && bytesZero r 0x1A 6
  | 0x3, 1 => locZero r 0xC && locZero r 0x14 && bytesZero r 0x1C 36
  | 0x3, 0 => maskZero r 0 2 0xF000 && maskZero r 3 1 0xFC && bytesZero r 0xA 2 && bytesZero r 0xE 2
  | 0x5, _ => maskZero r 0 8 0x1FFFFFFFF
  | 0x6, 1 => maskZero r 0 4 0xFF000000 && bytesZero r 4 12
  | 0x6, _ => maskZero r 2 1 0xFC && bytesZero r 3 1 && bytesZero r 0x18 8
  | 0x8, 1 => maskZero r 0x14 2 0xF000 && maskZero r 0x26 2 0xF000 && bytesZero r 0x28 24
  | 0x8, 0 =>
    maskZero r 0 4 0xFF000000 && maskZero r 7 1 0xF0 && maskZero r 8 2 0xF000 && maskZero r 0xA 2 0xF000 &&
    bytesZero r 0x12 2 && locZero r 0x14
  | 0x8, 3 => maskZero r 0xC 4 0x3FE00000
  | 0x9, 1 => bytesZero r 0x22 30
  | 0x9, 0 => locZero r 0 && bytesZero r 8 8
  | 0x9, 2 => bytesZero r 0xA 6
  | 0xA, 1 => maskZero r 0 1 0xF8 && bytesZero r 5 1 && bytesZero r 0x18 40
  | 0xA, _ => maskZero r 0 1 0xFC && maskZero r 1 1 0xFE && bytesZero r 2 2 && maskZero r 4 4 0x7F000000
  | 0xB, l => resvLayers l r
  | 0xC, 1 => bytesZero r 0x650 16
  | 0xC, _ => locZero r 0 && bytesZero r 0xC 4
  | _, _ => true

def resvRun (ty : Nat) (bs : List Byte) (r : RecRun) : List (Bool × ErrPlace) :=
  (List.range (r.held bs.length)).map fun i =>
    (resvRec ty r.list (slice bs (r.off + i * r.size) r.size), if r.list = 1 then hdrPlace else recPlace r.list i)

/-- Schedule tables and their rows. -/
def resvSched (bs : List Byte) (offs : List Nat) : List (Bool × ErrPlace) :=
  (offs.zipIdx).flatMap fun o =>
    (bytesZero bs (o.1 + 5) 1 && bytesZero bs (o.1 + 10) 22, recPlace 0 o.2) ::
    (List.range (rdNat bs (o.1 + 6) 2)).map fun k => (maskZero bs (o.1 + 32 + 16 * k + 12) 1 0x0F, (0, o.2, k))

def resvCurves (bs : List Byte) (offs : List Nat) : List (Bool × ErrPlace) :=
  (offs.zipIdx).flatMap fun o =>
    (curveHdrZero bs o.1, recPlace 0 o.2) ::
    (List.range (rdNat bs (o.1 + 2) 2)).map fun k => (curvePtZero bs o.1 k, (0, o.2, k))

/-- The end of a section's tables, after which its bytes are reserved (R40, R48, R158). -/
def Sec.contentEnd (x : Sec) (replicas : Nat) : Nat :=
  match x.ty with
  | 0x4 => match (schedOffs x.bs (capCount x.count x.bs.length 32)).getLast? with
    | some o => o + schedSize x.bs o
    | none => 0
  | 0x7 => match (curveOffs x.bs (capCount x.count x.bs.length 16)).getLast? with
    | some o => o + curveBytes x.bs o
    | none => 0
  | 0xB => match (recRuns 0xB replicas x.bs x.count).getLast? with
    | some r => r.next
    | none => 0
  | _ => x.bs.length

/-- A reserved field of a section that is not zero. -/
def Sec.reserved (x : Sec) (replicas : Nat) : Option ErrPlace :=
  let runs := recRuns x.ty replicas x.bs x.count
  firstBad <|
    (bytesZero x.bs (x.contentEnd replicas) x.bs.length, hdrPlace) ::
    (match x.ty with
      | 0x4 => resvSched x.bs (schedOffs x.bs (capCount x.count x.bs.length 32))
      | 0x7 => resvCurves x.bs (curveOffs x.bs (capCount x.count x.bs.length 16))
      | _ => (runs.filter fun r => r.list == 1).flatMap (resvRun x.ty x.bs) ++
          (runs.filter fun r => r.list != 1).flatMap (resvRun x.ty x.bs))

/-! ### Sections into structures -/

def flag (bs : List Byte) (o k : Nat) : Bool := (rdNat bs o 1).testBit k

/-- n records of a run, each read from its offset. -/
def readRun {α : Type} (off size n : Nat) (f : Nat → α) : List α := (List.range n).map fun i => f (off + i * size)

def parseEngMap (bs : List Byte) (n : Nat) : List EngMap :=
  readRun 0 16 n fun o =>
    { role := rdNat bs (o + 1) 1, stage := rdNat bs (o + 2) 2, layerFirst := rdNat bs (o + 4) 2
      layerLast := rdNat bs (o + 6) 2, pool := rdW 32 bs (o + 8), poolPages := rdNat bs (o + 12) 4 }

def parseTills (bs : List Byte) (n : Nat) : List TillEnd :=
  readRun 0 32 n fun o =>
    { engine := rdNat bs o 1, till := rdNat bs (o + 1) 1, isOut := flag bs (o + 2) 0
      path := match rdNat bs (o + 2) 1 / 2 % 4 with
        | 0 => .onModule
        | 1 => .envis
        | _ => .host
      exit := flag bs (o + 2) 3, free := flag bs (o + 2) 4, opens := flag bs (o + 2) 5, vc := rdNat bs (o + 3) 1
      link := rdNat bs (o + 4) 2, depth := rdNat bs (o + 6) 2, credits := rdNat bs (o + 8) 2
      storeMsgs := rdNat bs (o + 10) 2, msgBytes := rdNat bs (o + 12) 4, addr := rdNat bs (o + 16) 3
      store := rdW 32 bs (o + 20), odLimit := rdNat bs (o + 24) 2 }

def parseRow (bs : List Byte) (o : Nat) : SchedRow where
  op := rdW 8 bs (o + 15)
  cond := BitVec.ofNat 4 (rdNat bs (o + 14) 1 / 16)
  creg := BitVec.ofNat 4 (rdNat bs (o + 14) 1)
  next := BitVec.ofNat 12 (rdNat bs (o + 12) 2 / 16)
  clim := rdW 16 bs (o + 10)
  argA := rdW 16 bs (o + 8)
  argB := rdW 16 bs (o + 6)
  argC := rdW 16 bs (o + 4)
  argD := rdW 32 bs o

def parseSched (bs : List Byte) (n : Nat) : List SchedTable :=
  (schedOffs bs n).map fun o =>
    { engine := rdNat bs o 1, stashed := rdNat bs (o + 1) 1 == 1, floatLimit := rdNat bs (o + 2) 2
      versionDepth := rdNat bs (o + 4) 1, entry := rdNat bs (o + 8) 2
      rows := readRun (o + 32) 16 (rdNat bs (o + 6) 2) (parseRow bs) }

def parseDenom (bs : List Byte) : List Denom :=
  readRun 0 8 16 fun o =>
    let w := rdW 64 bs o
    { kind := fld w 63 60, expBits := fld w 59 56, manBits := fld w 55 50, bias := fld w 49 39
      block := match fld w 38 37 with
        | 1 => 16
        | 2 => 32
        | _ => 0
      specials := fld w 36 35, ieee := bitAt w 34, stoch := bitAt w 33 }

def parseRecipes (bs : List Byte) (n : Nat) : Recipes where
  constAddr := rdNat bs 0 3
  list := readRun 16 32 n fun o =>
    { algo := rdNat bs o 1, lrCurve := rdNat bs (o + 1) 1, nesterov := flag bs (o + 2) 0, biasCorr := flag bs (o + 2) 1
      beta1 := rdW 32 bs (o + 4), beta2 := rdW 32 bs (o + 8), eps := rdW 32 bs (o + 12), wd := rdW 32 bs (o + 16)
      lrMult := rdW 32 bs (o + 20) }

def parseLayer (bs : List Byte) (o : Nat) : LayerDesc where
  arrKind := rdNat bs o 1
  arraySel := rdNat bs (o + 1) 1
  denW := rdNat bs (o + 2) 1
  denS := rdNat bs (o + 3) 1
  k := rdNat bs (o + 4) 2
  n := rdNat bs (o + 6) 2
  m := rdNat bs (o + 8) 2
  mTile := rdNat bs (o + 10) 2
  nw := rdNat bs (o + 12) 1
  mOuter := rdNat bs (o + 13) 1 == 1
  accKeep := flag bs (o + 14) 0
  transpose := flag bs (o + 14) 1
  accSlots := rdNat bs (o + 15) 1
  wAddr := rdNat bs (o + 16) 3
  xAddr := rdNat bs (o + 20) 3
  accBase := rdNat bs (o + 24) 2
  paramId := rdNat bs (o + 26) 2
  fwdProg := rdNat bs (o + 0x20) 2
  fwdLen := rdNat bs (o + 0x22) 1
  preProg := rdNat bs (o + 0x24) 2
  preLen := rdNat bs (o + 0x23) 1
  postProg := rdNat bs (o + 0x26) 2
  postLen := rdNat bs (o + 0x28) 1
  rowOp := rdNat bs (o + 0x29) 1
  spillPrio := rdNat bs (o + 0x2A) 1 % 16
  spillMb := flag bs (o + 0x2A) 4
  causal := flag bs (o + 0x2A) 5
  denGrad := rdNat bs (o + 0x2B) 1
  tdBase := rdNat bs (o + 0x2C) 2
  scaleValid := flag bs (o + 0x33) 7
  scaleAddr := rdNat bs (o + 0x30) 3
  spillAddr := rdNat bs (o + 0x34) 3
  rowEps := rdW 32 bs (o + 0x38)
  rowScale := rdW 32 bs (o + 0x3C)

def parseTd (bs : List Byte) (o : Nat) : TensorDesc where
  kind := rdNat bs o 1
  den := rdNat bs (o + 1) 1
  paramId := rdNat bs (o + 2) 2
  addr := rdNat bs (o + 4) 3
  rows := rdNat bs (o + 8) 4
  cols := rdNat bs (o + 12) 2
  tileRel := flag bs (o + 14) 0
  bcastRow := flag bs (o + 14) 1
  col0 := flag bs (o + 14) 2
  onlyDx := flag bs (o + 14) 3
  onlyAct := flag bs (o + 14) 4
  nw := rdNat bs (o + 15) 1
  rowStride := rdNat bs (o + 16) 4
  carryAddr := rdNat bs (o + 20) 3

def parseLayers (bs : List Byte) (n : Nat) : Layers :=
  let a := 64 * n
  let t := rdNat bs a 4
  { descs := readRun 0 64 n (parseLayer bs)
    tds := readRun (a + 16) 32 t (parseTd bs)
    instrs := readRun (a + 16 + 32 * t) 8 (rdNat bs (a + 4) 4) (rdW 64 bs) }

def parsePeers (bs : List Byte) (n replicas : Nat) : Peers where
  fanin := rdNat bs 4 1
  minArrivals := rdNat bs 5 1
  dropStragglers := rdNat bs 6 1 == 1
  clearAll := rdNat bs 7 1 == 1
  windowLc := rdNat bs 8 4
  buf0 := rdW 32 bs 0xC
  buf0Pages := rdNat bs 0x10 4
  buf1 := rdW 32 bs 0x14
  buf1Pages := rdNat bs 0x18 4
  entries := readRun 64 64 n fun o =>
    { module := rdW 12 bs o, storage := rdNat bs (o + 2) 1 == 2, verdictChild := flag bs (o + 3) 0
      rootChild := flag bs (o + 3) 1, ports := rdW 48 bs (o + 4), nextHop := rdNat bs (o + 12) 2
      windowBase := rdW 64 bs (o + 16), windowLen := rdNat bs (o + 24) 8, keyHash := rdW 256 bs (o + 32) }
  replicas := readRun (64 + 64 * n) 2 replicas fun o => rdNat bs o 2

def parseShards (bs : List Byte) (n : Nat) : Shards :=
  let p := rdNat bs 4 4
  { globalMb := rdNat bs 0xC 4, normPartials := rdNat bs 0x10 4, normRoot := rdW 12 bs 0x14, normAlt := rdW 12 bs 0x26
    auditEvery := rdNat bs 0x16 2, normLimit := rdW 32 bs 0x18, clip := rdW 32 bs 0x1C, lsInit := signed8 (rdNat bs 0x20 1)
    lsMin := signed8 (rdNat bs 0x21 1), lsMax := signed8 (rdNat bs 0x22 1), lsGrow := rdNat bs 0x23 1
    lsFall := rdNat bs 0x24 1, lenient := rdNat bs 0x25 1 == 1
    entries := readRun 64 32 n fun o =>
      { shard := rdW 24 bs o, group := rdNat bs (o + 4) 2, engine := rdNat bs (o + 6) 1, comp := flag bs (o + 7) 0
        frozen := flag bs (o + 7) 1, tier := rdNat bs (o + 7) 1 / 4 % 4, owner := rdW 12 bs (o + 8)
        mirror := rdW 12 bs (o + 10), paramFirst := rdNat bs (o + 12) 4, params := rdNat bs (o + 16) 2
        state := rdW 32 bs (o + 20), hostAddr := rdW 64 bs (o + 24) }
    params := readRun (64 + 32 * n) 16 p fun o =>
      { paramId := rdNat bs o 2, denW := rdNat bs (o + 2) 1, nw := rdNat bs (o + 3) 1, k := rdNat bs (o + 4) 2
        n := rdNat bs (o + 6) 2, page := rdNat bs (o + 8) 4, wscale := rdW 32 bs (o + 12) }
    homes := readRun (64 + 32 * n + 16 * p) 16 (rdNat bs 8 4) fun o =>
      { paramId := rdNat bs o 2, engine := rdNat bs (o + 2) 1, nw := rdNat bs (o + 3) 1, k := rdNat bs (o + 4) 2
        n := rdNat bs (o + 6) 2, accRow := rdNat bs (o + 8) 2, accBands := rdNat bs (o + 10) 2
        vault := rdNat bs (o + 12) 4 / 2 ^ 30, block := rdNat bs (o + 12) 4 % 2 ^ 21 } }

def parseCkpt (bs : List Byte) : CkptSec where
  every := rdNat bs 0 4
  offset := rdNat bs 4 4
  toPeer := rdNat bs 8 1 == 2
  share := rdNat bs 9 1
  peer := rdNat bs 10 2
  base := rdW 64 bs 0x10
  slotBytes := rdNat bs 0x18 8
  shrinkMin := rdNat bs 0x20 2
  escrow := readRun 64 16 128 fun o => (rdW 32 bs o, rdNat bs (o + 4) 4)
  elastic := readRun (64 + 16 * 128) 16 (rdNat bs 0xC 4) fun o =>
    { engine := rdNat bs o 1, plane := rdNat bs (o + 1) 1, row := rdNat bs (o + 2) 2, live := rdNat bs (o + 4) 2
      clim := rdW 16 bs (o + 6), floatLimit := rdNat bs (o + 8) 2 }

def actionOf (n : Nat) : Action :=
  match n with
  | 0 => .report
  | 1 => .replay
  | 2 => .hold
  | _ => .shrink

def parseFaults (bs : List Byte) : Faults where
  excMask := rdW 3 bs 0
  probClock := rdNat bs 1 1 == 1
  auditN := rdNat bs 2 2
  replayLimit := rdNat bs 4 1
  strikeDecay := rdNat bs 6 2
  actions := (List.range 16).map fun i => actionOf (rdNat bs (8 + i) 1)
  engines := readRun 64 8 128 fun o =>
    { duplex := rdW 2 bs o, noAudit := flag bs (o + 1) 0, assayValid := flag bs (o + 7) 7, assayAddr := rdNat bs (o + 4) 3 }

def parseSealing (bs : List Byte) : Sealing where
  kemCt := slice bs 0 1568
  wrapped := slice bs 0x620 32
  wrapTag := rdW 128 bs 0x640
  areas := readRun 0x660 16 80 fun o =>
    { area := rdW 32 bs o, first := rdNat bs (o + 4) 4, count := rdNat bs (o + 8) 4 }

/-! ### The whole -/

def findSec (l : List Sec) (ty plane : Nat) : Option Sec := l.find? fun x => x.ty == ty && x.plane == plane

/-- Bytes and count of a section; none where it is absent. -/
def secOf (l : List Sec) (ty plane : Nat) : List Byte × Nat :=
  match findSec l ty plane with
  | some x => (x.bs, x.count)
  | none => ([], 0)

def parsePlane (l : List Sec) (p : Nat) : PlaneCfg :=
  let u (ty : Nat) := secOf l ty p
  { engMap := parseEngMap (u 1).1 (u 1).2, tills := parseTills (u 2).1 (u 2).2, sched := parseSched (u 4).1 (u 4).2
    recipes := (findSec l 6 p).map fun x => parseRecipes x.bs x.count
    curves := (curveOffs (u 7).1 (u 7).2).map (parseCurve (u 7).1), layers := parseLayers (u 0xB).1 (u 0xB).2 }

/-- The bytes that the charter digest covers (R32). -/
def signedPart (img : List Byte) : List Byte := img.take (img.length - 8192)

def parseCharter (img : List Byte) : Charter :=
  let l := parseSecs img
  let rc := rdNat img 0x2A 2
  let c (ty : Nat) := secOf l ty 0
  { jobId := rdW 64 img 0x10, moduleId := rdW 12 img 0x18, planes := rdNat img 0x1A 2, sealed := flag img 0x1C 0
    twin := flag img 0x1C 1, pipelineId := rdW 64 img 0x20, stageCount := rdNat img 0x28 2, replicaCount := rc
    replicaIndex := rdNat img 0x2C 2, firstStage := rdNat img 0x2E 2, startStep := rdW 48 img 0x30
    opKeyHash := rdW 512 img 0x38, jobSetDigest := rdW 512 img 0x78, digest := Config.sha3_512 (signedPart img)
    plane := (List.range (min 2 (rdNat img 0x1A 2))).map fun p => parsePlane l (p + 1)
    peers := parsePeers (c 3).1 (c 3).2 rc, denom := parseDenom (c 5).1, shards := parseShards (c 8).1 (c 8).2
    ckpt := parseCkpt (c 9).1, faults := parseFaults (c 0xA).1
    sealing := if flag img 0x1C 0 then (findSec l 0xC 0).map fun x => parseSealing x.bs else none }

end Sys2Proof.Machine
end

