-- ==== Sys2Proof/Machine/Verify.lean ====
section
/-! DEFINITION. Checks 11 and 12 of a charter's verification: field values and references, section by section (02 R36, R40 to
R47, R519; 03 R70, R120; 05 R151, R153, R154; 06 R186; 07 R190, R192, R203; 08 R231, R243; 11 R315, R319; 13 R394, R395;
14 R411, R430). -/

namespace Sys2Proof.Machine

/-- The order in which a section's places are examined: header, entries (a table before its rows), second and third list. -/
def placeKey (p : ErrPlace) : Nat :=
  let r := match p.1 with
    | 1 => 0
    | 0 => 1
    | n => n
  (r * 2 ^ 34 + p.2.1) * 2 ^ 18 + (if p.2.2 = 0xFFFF then 0 else p.2.2 + 1)

/-- The failing condition that is examined first. -/
def worst (l : List (Bool × ErrPlace)) : Option ErrPlace :=
  (l.filter fun x => !x.1).foldl (fun (m : Option ErrPlace) x => match m with
    | none => some x.2
    | some y => if placeKey x.2 < placeKey y then some x.2 else some y) none

def within (x lo hi : Nat) : Bool := decide (lo ≤ x) && decide (x ≤ hi)

/-- A section under examination: its bytes, its plane from 0, and the sections before it in the directory. -/
structure VCtx where
  s : State
  c : Charter
  x : Sec
  prev : List Sec

def VCtx.cfg (v : VCtx) : Option PlaneCfg := v.c.plane[v.x.plane - 1]?

/-- The section of the same type in another plane that has been examined. -/
def VCtx.other (v : VCtx) : Option Sec := v.prev.find? fun y => y.ty == v.x.ty && y.plane != v.x.plane

def byteOf (v : VCtx) (base size i o : Nat) : Nat := rdNat v.x.bs (base + size * i + o) 1

/-- The engine of a plane whose layer range holds a layer (R190). -/
def PlaneCfg.engOf (p : PlaneCfg) (l : Nat) : Option Nat :=
  p.engMap.findIdx? fun m => m.role == 1 && decide (m.layerFirst ≤ l) && decide (l ≤ m.layerLast)

def PlaneCfg.table (p : PlaneCfg) (e : Nat) : Option SchedTable := p.sched.find? fun t => t.engine == e

/-- Layers that a BWD row of the plane names. -/
def PlaneCfg.bwdNames (p : PlaneCfg) (l : Nat) : Bool :=
  p.sched.any fun t => t.rows.any fun r => r.op == 0x21 && decide (r.argA.toNat ≤ l) && decide (l ≤ r.argC.toNat)

def Charter.home (c : Charter) (e param : Nat) : Option HomeRec := c.shards.homes.find? fun h => h.engine == e && h.paramId == param

def Charter.den (c : Charter) (code : Nat) : Denom := c.denom.getD code Denom.undefined
def Charter.denDefined (c : Charter) (code : Nat) : Bool := (c.den code).kind != 0

/-! ### Check 11 -/

def EngMap.meets (a b : EngMap) : Bool := decide (a.layerFirst ≤ b.layerLast) && decide (b.layerFirst ≤ a.layerLast)

/-- R188, R190. -/
def engMap11 (v : VCtx) : List (Bool × ErrPlace) :=
  let l := parseEngMap v.x.bs v.x.count
  let old := match v.other with
    | some y => parseEngMap y.bs y.count
    | none => []
  (v.x.count == 128, hdrPlace) :: eachRec 0 l fun i m =>
    byteOf v 0 16 i 0 == i && decide (m.role ≤ 1) && decide (m.layerFirst ≤ m.layerLast) &&
    (m.poolPages == 0 || v.c.shards.entries.any fun x => x.engine == i) &&
    (if m.role = 1 then
      decide (v.c.firstStage ≤ m.stage) && decide (m.stage < v.c.stageCount) &&
      (l.take i).all fun y => y.role != 1 || (y.stage != m.stage && !y.meets m)
    else m.stage == 0) &&
    (match v.cfg with
      | some p => (p.table i).isSome == (m.role == 1)
      | none => true) &&
    (match old[i]? with
      | some y => y.pool == m.pool && y.poolPages == m.poolPages
      | none => true)

def TillEnd.linkEngine (t : TillEnd) : Nat := t.link % 128
def TillEnd.linkTill (t : TillEnd) : Nat := t.link / 256 % 64

/-- The other end of a local till. -/
def TillEnd.isPeer (t y : TillEnd) : Bool := y.engine == t.linkEngine && y.till == t.linkTill

/-- The fields of one end (R191, R315). -/
def TillEnd.fieldsOk (t : TillEnd) (path : Nat) : Bool :=
  decide (t.engine < 128) && decide (t.till < 64) && decide (path < 3) &&
  (if path = 1 then decide (t.vc < 6) && decide (t.link < 4096) else t.vc == 0) && (path != 2 || decide (t.link < 64)) &&
  t.msgBytes % 4096 == 0 && within t.msgBytes 4096 (2 ^ 23) && t.addr % 4096 == 0 &&
  (if t.isOut then t.depth == 0 && t.credits == 0 && t.storeMsgs == 0 && t.store == 0 && !t.free && !t.opens
   else within t.depth 1 256 && within t.credits 1 t.depth && t.odLimit == 0 && !t.exit)

/-- R191, R192, R315. -/
def tills11 (v : VCtx) : List (Bool × ErrPlace) :=
  let l := parseTills v.x.bs v.x.count
  eachRec 0 l fun i t =>
    let old := l.take i
    t.fieldsOk (byteOf v 0 32 i 2 / 2 % 4) &&
    (old.all fun y => !(y.engine == t.engine && y.till == t.till)) &&
    (t.path != .onModule || old.all fun y => !(y.path == .onModule && (t.isPeer y || y.isPeer t)) || y.msgBytes == t.msgBytes) &&
    (!t.exit || old.all fun y => !(y.exit && y.engine == t.engine)) &&
    (t.path != .envis || old.all fun y => !(y.path == .envis && y.isOut == t.isOut && y.link == t.link && y.vc == t.vc))

/-- The greatest index on a route from entry i when the route does not end at an entry with PORTS (R319). -/
def hopLoop (l : List PeerEnt) (i top : Nat) : Nat → Option Nat
  | 0 => some top
  | n + 1 =>
    match l[i]? with
    | none => none
    | some e => if e.ports ≠ 0 then none else if e.nextHop = 0xFFFF then some (max top i) else hopLoop l e.nextHop (max top i) n

/-- SPACE 0x2, 0x3 or 0xF, its other bits zero. -/
def windowOk (w : W64) : Bool :=
  match placeOf 0 w with
  | .dram _ _ => true
  | .none => true
  | _ => false

/-- R317 to R319. -/
def peers11 (v : VCtx) : List (Bool × ErrPlace) :=
  let bs := v.x.bs
  let p := parsePeers bs v.x.count v.c.replicaCount
  let n := v.x.count
  (rdNat bs 0 4 == n && decide (1 ≤ n) && within p.fanin 2 16 && decide (p.minArrivals ≤ p.fanin) && decide (rdNat bs 6 1 ≤ 1) &&
    decide (rdNat bs 7 1 ≤ 1), hdrPlace) ::
  (eachRec 0 p.entries fun i e =>
    within (byteOf v 64 64 i 2) 1 2 && ((e.ports != 0) != (e.nextHop != 0xFFFF)) && windowOk e.windowBase && e.windowLen % 4096 == 0 &&
    (e.storage || e.keyHash == 0)) ++
  (p.entries.zipIdx.filterMap fun e => (hopLoop p.entries e.2 0 (p.entries.length + 1)).map fun k => (false, recPlace 0 k)) ++
  eachRec 2 p.replicas fun i w => i != v.c.replicaIndex || w == 0xFFFF

/-- Operations with a layer range. -/
def isPassOp (op : Byte) : Bool := op == 0x20 || op == 0x21 || op == 0x22

def schedOps : List Byte := [0x00, 0x01, 0x02, 0x10, 0x11, 0x12, 0x20, 0x21, 0x22, 0x30, 0x31, 0x32, 0x3F]

/-- A row's fields (R41 to R43). -/
def SchedRow.fieldsOk (w : SchedRow) (rows entry r : Nat) : Bool :=
  schedOps.contains w.op && decide (w.cond.toNat ≤ 4) && decide (w.creg.toNat ≤ 7) && decide (w.next.toNat < rows) &&
  (w.cond == 0 || r + 1 != rows) && (!(w.op == 0x01 || w.op == 0x02) || decide (w.argA.toNat ≤ 7)) &&
  (!(w.op == 0x11 || w.op == 0x12 || isPassOp w.op) || decide (w.argB.toNat ≤ 7)) &&
  (!isPassOp w.op || decide (w.argA.toNat ≤ w.argC.toNat)) &&
  (w.op != 0x3F || (w.cond == 0 && w.next.toNat == entry))

/-- A row's layers lie in its engine's range (R190). -/
def SchedRow.layersOk (w : SchedRow) (m : Option EngMap) : Bool :=
  match m with
  | some m =>
    let inM (n : Nat) : Bool := within n m.layerFirst m.layerLast
    if isPassOp w.op then inM w.argA.toNat && inM w.argC.toNat else if w.op = 0x10 then inM w.argA.toNat else true
  | none => true

/-- Rows of a table list with their table and row index. -/
def allRows (l : List SchedTable) : List (Nat × Nat × SchedRow) :=
  l.zipIdx.flatMap fun t => t.1.rows.zipIdx.map fun r => (t.2, r.2, r.1)

/-- R40 to R43, R190, R231. -/
def sched11 (v : VCtx) : List (Bool × ErrPlace) :=
  let bs := v.x.bs
  let l := parseSched bs v.x.count
  let offs := schedOffs bs v.x.count
  let ups := (allRows l).filter fun r => r.2.2.op == 0x31
  let first (i r : Nat) (w : SchedRow) : Bool := match ups.find? fun u => u.2.2.argB == w.argB with
    | some u => u.1 == i && u.2.1 == r
    | none => true
  (eachRec 0 l fun i t =>
    let o := offs.getD i 0
    decide (t.engine < 128) && decide (rdNat bs (o + 1) 1 ≤ 1) && within t.floatLimit 1 256 &&
    (if t.stashed then within t.versionDepth 1 16 else t.versionDepth == 1) && within t.rows.length 1 4096 &&
    decide (t.entry < t.rows.length) && (l.take i).all fun y => decide (y.engine < t.engine)) ++
  (allRows l).map fun r =>
    let t := l.getD r.1 default
    let m := v.cfg.bind fun p => p.engMap[t.engine]?
    (r.2.2.fieldsOk t.rows.length t.entry r.2.1 && r.2.2.layersOk m && (r.2.2.op != 0x31 || first r.1 r.2.1 r.2.2),
      (0, r.1, r.2.1))

/-- The form E5M2 of an entry. -/
def Denom.e5m2 (d : Denom) : Bool := d.expBits == 5 && d.manBits == 2

/-- A fixed entry against its default and permitted changes (R46). -/
def Denom.fixedOk (d : Denom) (i : Nat) : Bool :=
  let emb (e m b : Nat) : Bool := d.expBits == e && d.manBits == m && d.bias == b
  let blk : Bool := d.block == 16 || d.block == 32
  let narrow : Bool := (emb 4 3 7 && d.specials == 1 && !d.ieee) || (emb 5 2 15 && d.specials == 2)
  match i with
  | 0 => d.kind == 1 && emb 2 1 1 && blk && d.specials == 0 && !d.ieee
  | 1 => d.kind == 1 && (emb 2 3 1 || emb 3 2 3) && blk && d.specials == 0 && !d.ieee
  | 2 => d.kind == 1 && narrow && blk
  | 3 => d.kind == 2 && narrow && d.block == 0
  | 4 => d.kind == 3 && emb 8 7 127 && d.block == 0 && d.specials == 2
  | 5 => d.kind == 3 && emb 5 10 15 && d.block == 0 && d.specials == 2
  | 6 => d.kind == 3 && emb 8 23 127 && d.block == 0 && d.specials == 2
  | 7 => d.kind == 3 && emb 11 52 1023 && d.block == 0 && d.specials == 2
  | _ => d.kind == 4 && emb 0 7 0 && d.block == 0 && d.specials == 0 && !d.ieee

/-- A definable entry (R47). -/
def Denom.ownOk (d : Denom) : Bool :=
  (d.kind == 1 || d.kind == 2) && within d.expBits 2 5 && within d.manBits 1 3 && decide (1 + d.expBits + d.manBits ≤ 8) &&
  decide (d.bias ≤ 2 ^ d.expBits - 1) && (if d.kind = 1 then d.block == 16 || d.block == 32 else d.block == 0) &&
  decide (d.specials ≤ 2) && (d.specials != 2 || decide (4 ≤ d.expBits)) && (!d.ieee || d.specials == 2)

/-- R45 to R47. -/
def denom11 (v : VCtx) : List (Bool × ErrPlace) :=
  (v.x.count == 16, hdrPlace) :: eachRec 0 (parseDenom v.x.bs) fun i d =>
    let w := rdW 64 v.x.bs (8 * i)
    fld w 38 37 != 3 && (if i < 9 then d.fixedOk i else (if d.kind = 0 then w == 0 else d.ownOk))

/-- 0 ≤ β < 1. -/
def betaOk (w : W32) : Bool := !numLt (f32 w) (.fin false 0 0) && numLt (f32 w) numOne

/-- R243. -/
def recipes11 (v : VCtx) : List (Bool × ErrPlace) :=
  let p := parseRecipes v.x.bs v.x.count
  (within v.x.count 1 256 && p.constAddr % 64 == 0, hdrPlace) :: eachRec 0 p.list fun _ q =>
    within q.algo 1 3 && (!q.nesterov || q.algo == 2) && (!q.biasCorr || q.algo == 3) && betaOk q.beta1 &&
    (if q.algo = 3 then betaOk q.beta2 && numLt (.fin false 0 0) (f32 q.eps) else (f32 q.beta2).isZero && (f32 q.eps).isZero) &&
    !(f32 q.wd).isNan && !numLt (f32 q.wd) (.fin false 0 0)

/-- A positive normal FP32 value. -/
def posNormal (w : W32) : Bool := !bitAt w 31 && within (fld w 30 23) 1 254

def Charter.paramOf (c : Charter) (x : ShardEnt) : List ParamRec := (c.shards.params.drop x.paramFirst).take x.params

def ParamRec.pages (p : ParamRec) (d : Denom) : Nat := ceilDiv (panelsBytes d p.k p.n p.nw) 4096

/-- Another record of one of the shard's before this one overlaps it in pages. -/
def Charter.pagesClear (c : Charter) (k : Nat) (p : ParamRec) : Bool :=
  c.shards.entries.all fun x =>
    !(decide (x.paramFirst ≤ k) && decide (k < x.paramFirst + x.params)) ||
    ((c.shards.params.zipIdx).filter fun q => decide (x.paramFirst ≤ q.2) && decide (q.2 < k)).all fun q =>
      decide (q.1.page + q.1.pages (c.den q.1.denW) ≤ p.page) || decide (p.page + p.pages (c.den p.denW) ≤ q.1.page)

/-- OWNER, MIRROR, TIER and the state's place (R229, R231, R430). -/
def ShardEnt.placesOk (x : ShardEnt) (c : Charter) (twin : BitVec 12) : Bool :=
  let own : Bool := x.owner == c.moduleId
  let mir : Bool := x.mirror == c.moduleId
  x.mirror != x.owner &&
  (if c.twin then (!own || x.mirror == 0xFFF || x.mirror == twin) && (!mir || x.owner == twin) else x.mirror == 0xFFF) &&
  (if own || mir then
    decide (x.tier ≤ 2) && (x.tier != 2 || (!c.sealed && !mir)) &&
    (if x.tier = 2 then x.state == 0 && x.hostAddr.toNat % 4096 == 0 else x.hostAddr == 0)
   else x.state == 0 && x.hostAddr == 0)

/-- R228 to R231, R144, R430. -/
def shards11 (v : VCtx) : List (Bool × ErrPlace) :=
  let bs := v.x.bs
  let p := v.c.shards
  let lim (e : Int) : Bool := decide (-64 ≤ e) && decide (e ≤ 64)
  (rdNat bs 0 4 == v.x.count && within v.x.count 1 8192 && p.globalMb != 0 && p.normRoot != p.normAlt && lim p.lsInit &&
    lim p.lsMin && lim p.lsMax && decide (p.lsMin ≤ p.lsInit) && decide (p.lsInit ≤ p.lsMax) && decide (rdNat bs 0x25 1 ≤ 1),
    hdrPlace) ::
  (eachRec 0 p.entries fun _ x =>
    decide (x.engine < 128) && within x.params 1 64 && x.placesOk v.c v.s.ckpt.twin) ++
  (eachRec 2 p.params fun k q =>
    q.paramId != 0 && decide (q.denW ≤ 15) && within q.nw 1 64 && within q.k 1 4096 && within q.n 1 16384 &&
    (if (v.c.den q.denW).perTensor then posNormal q.wscale else q.wscale == 0x3F80_0000) && v.c.pagesClear k q) ++
  eachRec 3 p.homes fun _ h =>
    h.paramId != 0 && decide (h.engine < 128) && within h.nw 1 64 && within h.k 1 4096 && within h.n 1 4096 &&
    decide (h.accBands ≤ 2048)

def Charter.planeTable (c : Charter) (plane e : Nat) : Option SchedTable := c.plane[plane]?.bind fun p => p.table e

/-- R409 to R411. -/
def ckpt11 (v : VCtx) : List (Bool × ErrPlace) :=
  let bs := v.x.bs
  let p := v.c.ckpt
  (v.x.count == 128 && within (rdNat bs 8 1) 1 2 && (p.every == 0 || decide (p.offset < p.every)) && within p.share 1 63 &&
    within p.shrinkMin 1 1024 && decide (p.shrinkMin ≤ v.c.replicaCount) && decide (rdNat bs 0xC 4 ≤ 4096) &&
    (p.toPeer || p.peer == 0) && p.base.toNat % 4096 == 0 && p.slotBytes % 4096 == 0 && decide (2 ^ 25 ≤ p.slotBytes), hdrPlace) ::
  (eachRec 0 p.escrow fun i x =>
    x.2 != 0 || !(v.c.shards.entries.any fun h => h.engine == i && h.owner == v.c.moduleId)) ++
  eachRec 2 p.elastic fun _ x =>
    decide (x.engine < 128) && decide (x.plane ≤ 1) && within x.live 1 1024 && decide (x.floatLimit ≤ 256) &&
    (match v.c.planeTable x.plane x.engine with
      | some t => decide (x.row < t.rows.length) && (x.floatLimit == 0 || decide (t.versionDepth ≤ x.floatLimit))
      | none => false)

/-- The actions that R394 allows. -/
def actionAllowed (cls code : Nat) : Bool :=
  match cls with
  | 0 | 1 | 2 => code == 0 || code == 2
  | 3 => code == 1 || code == 2
  | 4 | 5 | 6 => code == 2 || code == 3
  | 7 | 8 => code == 2
  | _ => code == 0

/-- R393 to R395. A reserved field that is not zero has failed check 10 before (R36; log entry 159). -/
def faults11 (v : VCtx) : List (Bool × ErrPlace) :=
  let bs := v.x.bs
  (v.x.count == 128 && decide (rdNat bs 1 1 ≤ 1) && within (rdNat bs 4 1) 1 15 &&
    (List.range 16).all fun k => actionAllowed k (rdNat bs (8 + k) 1), hdrPlace) ::
  (eachRec 0 v.c.faults.engines fun _ x => !x.assayValid || x.assayAddr % 65536 == 0) ++
  ((recRuns 0xA v.c.replicaCount bs v.x.count).flatMap (resvRun 0xA bs))

/-! #### LAYERS -/

/-- A gradient denomination (R154). -/
def Charter.gradDen (c : Charter) (code : Nat) : Bool :=
  let d := c.den code
  code == 4 || code == 5 || ((code == 2 || code == 3) && d.e5m2) || (decide (9 ≤ code) && (d.kind == 1 || d.kind == 2) && d.e5m2)

/-- Ranges of a descriptor (R69, R70, R120, R159). -/
def LayerDesc.rangesOk (d : LayerDesc) (loop : Nat) : Bool :=
  decide (d.arrKind ≤ 2) && decide (d.arraySel ≤ 2) && decide (d.denW ≤ 15) && decide (d.denS ≤ 15) && within d.k 1 4096 &&
  (match d.arrKind with
    | 2 => d.n == 0 && d.nw == 0 && d.denW != 7 && d.denS != 7
    | _ => within d.n 1 16384 && within d.nw 1 64) &&
  decide (1 ≤ d.m) && within d.mTile 1 4096 && decide (loop ≤ 1) && within d.accSlots 1 32 && d.wAddr % 64 == 0 &&
  d.xAddr % 64 == 0 && decide (d.accBase ≤ 32767) && ((d.denW == 8) == (d.denS == 8)) && decide (d.rowOp ≤ 3) &&
  decide (d.denGrad ≤ 15) && d.spillAddr % 64 == 0 && (!d.scaleValid || d.scaleAddr % 16 == 0)

/-- A use agrees with its home (R151). -/
def LayerDesc.homeOk (d : LayerDesc) (h : HomeRec) : Bool :=
  (if d.transpose then d.k == h.n && d.n == h.k else d.k == h.k && d.n == h.n) && d.nw == h.nw

/-- A layer that a BWD row names (R153, R186). -/
def LayerDesc.bwdOk (d : LayerDesc) (c : Charter) : Bool :=
  !(d.arrKind == 1 && decide (4096 < d.n)) &&
  d.denW != 7 && d.denW != 8 && d.denS != 7 && d.denS != 8 &&
  !(d.paramId == 0 && d.accKeep) && !(d.paramId == 0 && decide (min 16 d.accSlots < ceilDiv d.m 256)) &&
  (!d.transpose || d.arrKind == 1) && c.gradDen d.denGrad

/-- The uses of one home have one W_ADDR and DEN_W; a layer against those before it on its engine (R151). -/
def PlaneCfg.usesAgree (p : PlaneCfg) (c : Charter) (i : Nat) (d : LayerDesc) : Bool :=
  match p.engOf i with
  | none => true
  | some e =>
    !(d.paramId != 0 && d.accKeep && p.bwdNames i) ||
    ((match c.home e d.paramId with
      | some h => d.homeOk h
      | none => true) &&
     ((p.layers.descs.take i).zipIdx.all fun y =>
       !(y.1.paramId == d.paramId && y.1.accKeep && p.bwdNames y.2 && p.engOf y.2 == some e) ||
       (y.1.wAddr == d.wAddr && y.1.denW == d.denW)))

/-- Bytes of the stationary operand (R74, R93, R133). -/
def LayerDesc.wBytes (d : LayerDesc) (w : Denom) : Nat :=
  if d.arrKind = 2 then d.m * rowBytes w d.k
  else if d.transpose then panelsBytes w d.n d.k d.nw
  else panelsBytes w d.k d.n d.nw


/-- The end of a tensor in the stage store. -/
def TensorDesc.storeEnd (t : TensorDesc) (d : Denom) : Nat :=
  match t.kind with
  | 1 => t.addr + (t.rows - 1) * t.rowStride + rowBytes d t.cols
  | 4 => t.addr + panelsBytes d t.cols t.rows t.nw
  | 5 => t.addr + (t.rows - 1) * t.rowStride + 4 * t.cols
  | _ => 0


/-- Blocks of a row that a tile boundary cuts (R172). -/
def cutBlocks (d : Denom) (cols width : Nat) : Nat :=
  ((List.range (ceilDiv cols d.block)).filter fun q => straddles d cols width q).length


/-- The carry areas that a layer's tile programs use: descriptor index, first byte, end. -/
def PlaneCfg.carries (p : PlaneCfg) (c : Charter) (d : LayerDesc) : List (Nat × Nat × Nat) :=
  let tileProg (first len : Nat) : List W64 :=
    let l := (p.layers.instrs.drop first).take len
    match l.head?.bind fun w => p.layers.tds[d.tdBase + slotOf w]? with
    | some t => if t.kind = 2 then l else []
    | none => []
  (tileProg d.fwdProg d.fwdLen ++ tileProg d.postProg d.postLen).filterMap fun w =>
    if opcOf w % 64 = 0x39 then
      match p.layers.tds[d.tdBase + slotOf w]? with
      | some t =>
        let den := c.den t.den
        let n := if den.block = 0 then 0 else cutBlocks den t.cols (if d.arrKind = 2 then elemCols else d.nw)
        if t.kind = 1 ∧ 0 < n then some (d.tdBase + slotOf w, t.carryAddr, t.carryAddr + t.rows * n * (4 * den.block + 64)) else none
      | none => none
    else none


/-- The spill area of a row layer (R180). -/
def PlaneCfg.spillArea (p : PlaneCfg) (i : Nat) (d : LayerDesc) : Option (Nat × Nat) :=
  if d.rowOp = 0 then none
  else
    match p.layers.tds[d.tdBase + 14]?, (p.engOf i).bind p.table with
    | some t, some tb => some (d.spillAddr, d.spillAddr + tb.floatLimit * t.rows * 8)
    | _, _ => none

/-- A range of the stage store meets no slot other than slot 0 of a ring of the engine (R203). -/
def PlaneCfg.slot0 (p : PlaneCfg) (e : Option Nat) (a stop : Nat) : Bool :=
  p.tills.all fun t => !(some t.engine == e && !t.isOut) || decide (stop ≤ t.addr + t.msgBytes) ||
    decide (t.addr + t.depth * t.msgBytes ≤ a) || decide (stop ≤ a)

/-- The operands, scale record and spill area of a layer address no other slot of a ring than slot 0 (R203). -/
def PlaneCfg.layerSlot0 (p : PlaneCfg) (c : Charter) (i : Nat) (d : LayerDesc) : Bool :=
  let ok (a stop : Nat) : Bool := p.slot0 (p.engOf i) a stop
  (d.arrKind == 0 || (ok d.wAddr (d.wAddr + d.wBytes (c.den d.denW)) && ok d.xAddr (d.xAddr + d.m * rowBytes (c.den d.denS) d.k))) &&
  (!d.scaleValid || ok d.scaleAddr (d.scaleAddr + 12)) && (p.spillArea i d).all fun a => ok a.1 a.2

/-- The BWD rows of the plane that run a layer. -/
def PlaneCfg.bwdRows (p : PlaneCfg) (l : Nat) : List SchedRow :=
  p.sched.flatMap fun t => t.rows.filter fun r => r.op == 0x21 && decide (r.argA.toNat ≤ l) && decide (l ≤ r.argC.toNat)

/-- Denomination codes of the gradient that arrives at a layer: dy of a row layer (R176), the dY that its arrays read
(R170), and DEN_GRAD of the layer above in a BWD row that runs both (R154). A gradient that comes from the till has none in
the charter (log entry 21). -/
def PlaneCfg.gradCodes (p : PlaneCfg) (i : Nat) (d : LayerDesc) : List Nat :=
  (if d.rowOp ≠ 0 then ((p.layers.td d 13).map (·.den)).toList else []) ++
  (if d.arrKind ≠ 0 then ((p.layers.ownGrad d).map (·.den)).toList else []) ++
  (if (p.bwdRows i).any fun r => decide (i < r.argC.toNat) then ((p.layers.descs[i + 1]?).map (·.denGrad)).toList else [])

/-- The row engine needs the layer's scale record (R168, R176): its output slot 15, or slot 12 where a BWD row names the
layer, is of a per-tensor denomination. -/
def PlaneCfg.rowScale (p : PlaneCfg) (c : Charter) (i : Nat) (d : LayerDesc) : Bool :=
  let per (slot : Nat) : Bool := (p.layers.td d slot).any fun t => (c.den t.den).perTensor
  d.rowOp ≠ 0 && (per 15 || (p.bwdNames i && per 12))

def layerEnts11 (v : VCtx) (p : PlaneCfg) : List (Bool × ErrPlace) :=
  eachRec 0 p.layers.descs fun i d =>
    d.rangesOk (byteOf v 0 64 i 13) &&
    (!p.bwdNames i || (d.bwdOk v.c && (p.gradCodes i d).all fun g => v.c.gradDen g)) && p.usesAgree v.c i d &&
    (d.scaleValid || !p.rowScale v.c i d) &&
    decide (d.fwdLen = 0 ∨ d.fwdProg + d.fwdLen ≤ p.layers.instrs.length) &&
    decide (d.preLen = 0 ∨ d.preProg + d.preLen ≤ p.layers.instrs.length) &&
    decide (d.postLen = 0 ∨ d.postProg + d.postLen ≤ p.layers.instrs.length) && p.layerSlot0 v.c i d

/-- A tensor descriptor by itself (R161). -/
def TensorDesc.rangesOk (t : TensorDesc) : Bool :=
  within t.kind 1 5 && (!(t.kind == 1 || t.kind == 4) || decide (t.den ≤ 15)) && (t.kind == 3 || t.kind == 4 || t.paramId == 0) &&
  t.addr % 64 == 0 && t.carryAddr % 64 == 0 && decide (1 ≤ t.rows) && decide (1 ≤ t.cols) &&
  (if t.kind = 4 then within t.nw 1 64 else t.nw == 0) && (!(t.kind == 1 || t.kind == 5) || t.rowStride % 64 == 0)

/-- Row slots of a layer are stage-store tensors with the extent of slot 12, of at most 16,384 columns (R176). -/
def rowSlots11 (p : PlaneCfg) : List (Bool × ErrPlace) :=
  p.layers.descs.flatMap fun d =>
    if d.rowOp = 0 then []
    else match p.layers.tds[d.tdBase + 12]? with
      | none => []
      | some a => ([12, 13, 14, 15] : List Nat).filterMap fun k => (p.layers.tds[d.tdBase + k]?).map fun t =>
          (t.kind == 1 && t.rows == a.rows && t.cols == a.cols && decide (t.cols ≤ 16384), recPlace 2 (d.tdBase + k))

/-- Tensors and carry areas of a layer against the rings of its engine (R203). -/
def tdSlots11 (p : PlaneCfg) (c : Charter) : List (Bool × ErrPlace) :=
  p.layers.descs.zipIdx.flatMap fun d =>
    ((List.range 16).filterMap fun k => (p.layers.tds[d.1.tdBase + k]?).map fun t =>
      (t.kind == 2 || t.kind == 3 || p.slot0 (p.engOf d.2) t.addr (t.storeEnd (c.den t.den)), recPlace 2 (d.1.tdBase + k))) ++
    (p.carries c d.1).map fun a => (p.slot0 (p.engOf d.2) a.2.1 a.2.2, recPlace 2 a.1)

/-- Operation codes (R163) and the TYPE of each. -/
def instrOk (w : W64) : Bool :=
  let op := opcOf w % 64
  let ty := opcOf w / 64
  (decide (op ≤ 0x0C) || within op 0x10 0x16 || within op 0x21 0x2C || isMemOp op) && (!isMemOp op || ty == 0) &&
  !(within op 0x10 0x16 && ty == 3)

def isArith (w : W64) : Bool := within (opcOf w % 64) 0x01 0x37

/-- The TYPE of a program: that of its arithmetic instructions. -/
def programTy (l : List W64) : Nat :=
  match l.find? isArith with
  | some w => opcOf w / 64
  | none => 0

/-- The denomination of a program TYPE (R169). -/
def typeCode (ty : Nat) : Nat :=
  match ty with
  | 0 => 6
  | 1 => 4
  | 2 => 5
  | _ => 7

/-- The programs of a layer: first instruction, instructions, and whether it is the epilogue. -/
def PlaneCfg.progs (p : PlaneCfg) (d : LayerDesc) : List (Nat × List W64 × Bool) :=
  let of (a n : Nat) (e : Bool) : Nat × List W64 × Bool := (a, (p.layers.instrs.drop a).take n, e)
  [of d.fwdProg d.fwdLen false, of d.preProg d.preLen false, of d.postProg d.postLen true]

/-- Instructions of a layer's programs: index, position in the program, program TYPE, epilogue, word. -/
def PlaneCfg.layerInstrs (p : PlaneCfg) (d : LayerDesc) : List (Nat × Nat × Nat × Bool × W64) :=
  (p.progs d).flatMap fun g => g.2.1.zipIdx.map fun w => (g.1 + w.2, w.2, programTy g.2.1, g.2.2, w.1)

/-- A converting store's SITE (R169). -/
def PlaneCfg.convSite (p : PlaneCfg) (d : LayerDesc) (ty : Nat) (w : W64) : Option Nat :=
  if opcOf w % 64 = 0x39 then
    match p.layers.tds[d.tdBase + slotOf w]? with
    | some t => if t.kind = 1 ∧ t.den ≠ typeCode ty then some (fld w 31 24) else none
    | none => none
  else none

/-- The step needs the layer's scale record (R168): a load of its tiles, in the epilogue of a layer that a BWD row names also
of dX tiles, whose streaming operand is dY in the row's denomination (R138); a store, or a reduction's, of a per-tensor
denomination. -/
def PlaneCfg.needsScale (p : PlaneCfg) (c : Charter) (i : Nat) (d : LayerDesc) (epi : Bool) (w : W64) : Bool :=
  let per (code : Nat) : Bool := (c.den code).perTensor
  let op := opcOf w % 64
  match (if isMemOp op then p.layers.tds[d.tdBase + slotOf w]? else none) with
  | none => false
  | some t =>
    (op == 0x38 && t.kind == 2 && d.arrKind != 0 &&
      (per d.denW || per d.denS ||
        (epi && (p.bwdRows i).any fun r => per ((p.layers.gradCode r.argC.toNat i d).getD d.denGrad)))) ||
    ((op == 0x39 || within op 0x3C 0x3E) && t.kind == 1 && per t.den)

/-- An epilogue store with ONLY_DX writes DEN_GRAD (R186). -/
def PlaneCfg.dxOk (p : PlaneCfg) (d : LayerDesc) (w : W64) : Bool :=
  match (if opcOf w % 64 = 0x39 then p.layers.tds[d.tdBase + slotOf w]? else none) with
  | some t => !t.onlyDx || t.kind != 1 || t.den == d.denGrad
  | none => true

/-- The programs of one layer (R162 to R169, R186). -/
def prog11 (p : PlaneCfg) (c : Charter) (i : Nat) (d : LayerDesc) : List (Bool × ErrPlace) :=
  let l := p.layerInstrs d
  l.zipIdx.map fun q =>
    let (k, pos, ty, epi, w) := q.1
    let site := p.convSite d ty w
    ((pos != 0 || opcOf w == 0x38) && (!isArith w || opcOf w / 64 == ty) && site != some 0xFF &&
      (site.isNone || (l.take q.2).all fun y => p.convSite d y.2.2.1 y.2.2.2.2 != site) &&
      (!epi || !p.bwdNames i || p.dxOk d w) && (d.scaleValid || !p.needsScale c i d epi w), recPlace 3 k)

/-- R69, R70, R120, R153, R158 to R169, R186, R203. -/
def layers11 (v : VCtx) : List (Bool × ErrPlace) :=
  match v.cfg with
  | none => []
  | some p =>
    (within v.x.count 1 65535 && decide (p.layers.tds.length ≤ 65535) && decide (p.layers.instrs.length ≤ 65535), hdrPlace) ::
    layerEnts11 v p ++ (eachRec 2 p.layers.tds fun _ t => t.rangesOk) ++ rowSlots11 p ++ tdSlots11 p v.c ++
    (eachRec 3 p.layers.instrs fun _ w => instrOk w) ++ (p.layers.descs.zipIdx.flatMap fun d => prog11 p v.c d.2 d.1)

/-- Check 11 of one section: its counts, then its values. -/
def check11 (v : VCtx) : Option ErrPlace :=
  match v.x.short v.c.replicaCount with
  | some p => some p
  | none => worst (match v.x.ty with
    | 0x1 => engMap11 v
    | 0x2 => tills11 v
    | 0x3 => peers11 v
    | 0x4 => sched11 v
    | 0x5 => denom11 v
    | 0x6 => recipes11 v
    | 0x8 => shards11 v
    | 0x9 => ckpt11 v
    | 0xA => faults11 v
    | 0xB => layers11 v
    | _ => [])

/-! ### Check 12 -/

def tills12 (v : VCtx) : List (Bool × ErrPlace) :=
  let l := parseTills v.x.bs v.x.count
  eachRec 0 l fun _ t => match t.path with
    | .onModule => l.any fun y => t.isPeer y && y.path == .onModule && y.isOut != t.isOut && y.isPeer t
    | .envis => decide (t.link < v.c.peers.entries.length)
    | .host => true

/-- A module that a peer entry names, or this one. -/
def Charter.knows (c : Charter) (m : BitVec 12) : Bool :=
  m == c.moduleId || c.peers.entries.any fun e => !e.storage && e.module == m

/-- The twin's peer entry is named by a replica word (R430). -/
def Charter.twinNamed (c : Charter) (twin : BitVec 12) : Bool :=
  c.peers.replicas.any fun w => match c.peers.entries[w]? with
    | some e => !e.storage && e.module == twin
    | none => false

def peers12 (v : VCtx) : List (Bool × ErrPlace) :=
  let p := v.c.peers
  (!v.c.twin || v.c.twinNamed v.s.ckpt.twin, hdrPlace) ::
  (eachRec 0 p.entries fun _ e => e.nextHop == 0xFFFF || decide (e.nextHop < p.entries.length)) ++
  eachRec 2 p.replicas fun i w => i == v.c.replicaIndex || decide (w < p.entries.length)

/-- A row's references (R43). -/
def SchedRow.refsOk (w : SchedRow) (c : Charter) (p : PlaneCfg) (e : Nat) : Bool :=
  let till (out : Bool) : Bool := p.tills.any fun t => t.engine == e && t.till == w.argA.toNat && t.isOut == out
  let layer (n : Nat) : Bool := decide (n < p.layers.descs.length)
  let group (g : W16) : Bool := c.shards.entries.any fun x => x.group == g.toNat
  if w.op = 0x11 then till false
  else if w.op = 0x12 then till true
  else if isPassOp w.op then layer w.argA.toNat && layer w.argC.toNat
  else if w.op = 0x10 then layer w.argA.toNat
  else if w.op = 0x31 then
    group w.argB && (match p.recipes with
      | some r => decide (w.argA.toNat < r.list.length)
      | none => false)
  else if w.op = 0x30 ∨ w.op = 0x32 then group w.argA
  else true

def sched12 (v : VCtx) (p : PlaneCfg) : List (Bool × ErrPlace) :=
  (allRows p.sched).map fun r => (r.2.2.refsOk v.c p (p.sched.getD r.1 default).engine, (0, r.1, r.2.1))

def PlaneCfg.curveKind (p : PlaneCfg) (id kind : Nat) : Bool := p.curves.any fun c => c.id == id && c.kind == kind

def recipes12 (p : PlaneCfg) : List (Bool × ErrPlace) :=
  match p.recipes with
  | some r => eachRec 0 r.list fun _ q => p.curveKind q.lrCurve 2
  | none => []

/-- The loss-scale curves exist in every plane with a RECIPES section (R231). -/
def Charter.lsCurves (c : Charter) : Bool :=
  c.plane.all fun p => p.recipes.isNone ||
    ((c.shards.lsGrow == 0xFF || p.curveKind c.shards.lsGrow 1) && (c.shards.lsFall == 0xFF || p.curveKind c.shards.lsFall 1))

def shards12 (v : VCtx) : List (Bool × ErrPlace) :=
  let p := v.c.shards
  (v.c.knows p.normRoot && (p.normAlt == 0xFFF || v.c.knows p.normAlt) && v.c.lsCurves, hdrPlace) ::
  (eachRec 0 p.entries fun _ x =>
    (v.c.plane.all fun q => match q.engMap[x.engine]? with
      | some m => m.role == 1
      | none => false) &&
    decide (x.paramFirst + x.params ≤ p.params.length) && v.c.knows x.owner && (x.mirror == 0xFFF || v.c.knows x.mirror)) ++
  eachRec 2 p.params fun k q =>
    v.c.denDefined q.denW && p.entries.all fun x =>
      x.frozen || !(decide (x.paramFirst ≤ k) && decide (k < x.paramFirst + x.params)) || (v.c.home x.engine q.paramId).isSome

def ckpt12 (v : VCtx) : List (Bool × ErrPlace) :=
  [(!v.c.ckpt.toPeer || (match v.c.peers.entries[v.c.ckpt.peer]? with
    | some e => e.storage
    | none => false), hdrPlace)]

/-- Slots that a layer's programs and row engine use exist; a KIND 0x3 slot has a home on the engine. -/
def slots12 (p : PlaneCfg) (c : Charter) : List (Bool × ErrPlace) :=
  p.layers.descs.zipIdx.flatMap fun d =>
    let homed (t : TensorDesc) : Bool := t.kind != 3 || (match p.engOf d.2 with
      | some e => (c.home e t.paramId).isSome
      | none => true)
    ((p.layerInstrs d.1).filter fun q => isMemOp (opcOf q.2.2.2.2 % 64)).map fun q =>
      match p.layers.tds[d.1.tdBase + slotOf q.2.2.2.2]? with
      | some t => (homed t, recPlace 3 q.1)
      | none => (false, recPlace 3 q.1)

def layers12 (v : VCtx) (p : PlaneCfg) : List (Bool × ErrPlace) :=
  (eachRec 0 p.layers.descs fun i d =>
    v.c.denDefined d.denW && v.c.denDefined d.denS &&
    (d.rowOp == 0 || decide (d.tdBase + 15 < p.layers.tds.length)) &&
    (!(p.bwdNames i && d.accKeep && d.paramId != 0) || (match p.engOf i with
      | some e => (v.c.home e d.paramId).isSome
      | none => true))) ++
  (eachRec 2 p.layers.tds fun _ t => !(t.kind == 1 || t.kind == 4) || v.c.denDefined t.den) ++ slots12 p v.c

/-- Check 12 of one section. -/
def check12 (v : VCtx) : Option ErrPlace :=
  worst (match v.x.ty, v.cfg with
    | 0x1, some p => eachRec 0 p.engMap fun _ m => m.role != 1 || decide (m.layerLast < p.layers.descs.length)
    | 0x2, _ => tills12 v
    | 0x3, _ => peers12 v
    | 0x4, some p => sched12 v p
    | 0x6, some p => recipes12 p
    | 0x8, _ => shards12 v
    | 0x9, _ => ckpt12 v
    | 0xB, some p => layers12 v p
    | _, _ => [])

end Sys2Proof.Machine
end

