-- ==== Sys2Proof/Machine/VerifyCap.lean ====
section
/-! DEFINITION. Checks 13 to 17 of a charter's verification: units in service, capacities and disjoint regions, schedule
progress, curve tables, sealing material; the verification in its order (02 R34, R36, R44, R48, R49, R519, R520; 03 R70, R87;
05 R153; 06 R186; 07 R190, R192, R215; 08 R231; 11 R319, R329; 13 R395; 14 R411; 15 R465). -/

namespace Sys2Proof.Machine

/-! ### Check 13 -/

/-- The vault or far channel of a page location is in service. -/
def State.locUp (s : State) (e : Nat) (l : PageLoc) : Bool :=
  (!bitAt l 31 || decide (fld l 28 23 < 48)) && s.ctlOk (pageOf (Fin.ofNat 128 e) l).1

def State.windowUp (s : State) (e : PeerEnt) : Bool :=
  match placeOf 0 e.windowBase with
  | .dram c _ => e.windowLen == 0 || s.ctlOk c
  | _ => true

/-- NW does not exceed the presented width of an array in service (R70). -/
def State.widthOk (s : State) (p : PlaneCfg) (i : Nat) (d : LayerDesc) : Bool :=
  match p.engOf i with
  | none => true
  | some e =>
    let x := (s.eng[e % 128]'(by omega)).arr
    (x.a.quar || decide (d.nw ≤ x.a.width)) && (x.b.quar || decide (d.nw ≤ x.b.width))

/-- The controller of a tag-area entry. -/
def areaCtl (i : Nat) : CtlId := if i < 32 then .vault (Fin.ofNat 32 i) else .far (Fin.ofNat 48 (i - 32))

/-- Check 13 of one section. -/
def check13 (v : VCtx) : Option ErrPlace :=
  let s := v.s
  let c := v.c
  worst (match v.x.ty with
    | 0x1 => eachRec 0 (parseEngMap v.x.bs v.x.count) fun i m =>
        m.role != 1 || (s.engOk i && (m.poolPages == 0 || s.locUp i m.pool))
    | 0x2 => eachRec 0 (parseTills v.x.bs v.x.count) fun _ t =>
        s.engOk t.engine && (t.path != .onModule || s.engOk t.linkEngine) &&
        (t.isOut || t.storeMsgs == 0 || s.locUp t.engine t.store)
    | 0x3 =>
      ((c.peers.buf0Pages == 0 || s.locUp 0 c.peers.buf0) && (c.peers.buf1Pages == 0 || s.locUp 0 c.peers.buf1), hdrPlace) ::
      eachRec 0 c.peers.entries fun _ e => (e.ports &&& ~~~ s.glb.portAvail) == 0 && s.windowUp e
    | 0x4 => eachRec 0 (parseSched v.x.bs v.x.count) fun _ t => s.engOk t.engine
    | 0x8 =>
      (eachRec 0 c.shards.entries fun _ x =>
        s.engOk x.engine && (x.tier == 2 || !(x.owner == c.moduleId || x.mirror == c.moduleId) || s.locUp x.engine x.state)) ++
      eachRec 3 c.shards.homes fun _ h =>
        s.engOk h.engine && (decide (h.bands ≤ h.accBands) || s.ctlOk (h.place (Fin.ofNat 128 h.engine) h.accBands).1)
    | 0x9 =>
      (eachRec 0 c.ckpt.escrow fun i x => x.2 == 0 || s.locUp i x.1) ++ eachRec 2 c.ckpt.elastic fun _ x => s.engOk x.engine
    | 0xA => eachRec 0 c.faults.engines fun i x => !x.assayValid || s.engOk i
    | 0xB => match v.cfg with
      | some p => eachRec 0 p.layers.descs fun i d => s.widthOk p i d
      | none => []
    | 0xC => match c.sealing with
      | some se => eachRec 0 se.areas fun i a => a.count == 0 || s.ctlOk (areaCtl i)
      | none => []
    | _ => [])

/-! ### Check 14 -/

/-- P(h) of a shard (R230). -/
def Charter.pagesOf (c : Charter) (x : ShardEnt) : Nat :=
  (c.paramOf x).foldl (fun n q => max n (q.page + q.pages (c.den q.denW))) 0

/-- The greater VERSION_DEPTH of an engine's tables (R215). -/
def Charter.depth (c : Charter) (e : Nat) : Nat :=
  c.plane.foldl (fun n p => match p.table e with
    | some t => max n t.versionDepth
    | none => n) 0

/-- The ledger and pool of an engine hold what its shards reserve (R215). -/
def Charter.poolOk (c : Charter) (e : Nat) (m : EngMap) : Bool :=
  let hs := c.shards.entries.filter fun x => x.engine == e
  let d := c.depth e + 3
  let g := hs.foldl (fun n x => n + (c.pagesOf x + ceilDiv (c.pagesOf x) 1024) * d) 0
  decide (hs.length ≤ 64) && decide (hs.length * d ≤ 1024) && decide (g + ceilDiv m.poolPages 4096 ≤ m.poolPages)

def storeTop : Nat := 2 ^ 24

/-- Till ends of an engine up to entry i of a section, both planes together (R34). -/
def tillCount (v : VCtx) (l : List TillEnd) (i : Nat) (e : Nat) : Nat :=
  ((l.take (i + 1)).filter fun t => t.engine == e).length +
  (match v.other with
    | some y => ((parseTills y.bs y.count).filter fun t => t.engine == e).length
    | none => 0)

def TillEnd.storeEnd (t : TillEnd) : Nat := t.addr + (if t.isOut then 1 else t.depth) * t.msgBytes

def tills14 (v : VCtx) : List (Bool × ErrPlace) :=
  let l := parseTills v.x.bs v.x.count
  eachRec 0 l fun i t => decide (tillCount v l i t.engine ≤ 64) && decide (t.storeEnd ≤ storeTop)

/-- The homes of a parameter that a contribution of a shard holds: the one on the shard's engine, and those on engines none of
whose shards holds the parameter (R151; log entry 26). -/
def Charter.paramHomes (c : Charter) (x : ShardEnt) (p : ParamRec) : List HomeRec :=
  c.shards.homes.filter fun h => h.paramId == p.paramId && (h.engine == x.engine ||
    !(c.shards.entries.any fun y => y.engine == h.engine && (c.paramOf y).any fun q => q.paramId == p.paramId))

/-- Home bands of a half in a shard group: those of every home that its shards' contributions hold (R329). -/
def Charter.groupBands (c : Charter) (east : Bool) (g : Nat) : Nat :=
  (c.shards.entries.filter fun x => x.group == g).foldl (fun n x => (c.paramOf x).foldl (fun n p =>
    (c.paramHomes x p).foldl (fun n h => n + if inHalf east h.engine then h.bands else 0) n) n) 0

/-- The pages a clearing buffer needs. -/
def Charter.bufNeed (c : Charter) (east : Bool) : Nat :=
  (2 * c.peers.fanin - c.peers.minArrivals) *
    (c.shards.entries.foldl (fun n x => max n (c.groupBands east x.group)) 0)

def peers14 (v : VCtx) : List (Bool × ErrPlace) :=
  let p := v.c.peers
  [(decide (v.x.count ≤ 4096) && bitAt p.buf0 31 && bitAt p.buf1 31 && decide (v.c.bufNeed false ≤ p.buf0Pages) &&
    decide (v.c.bufNeed true ≤ p.buf1Pages), hdrPlace)]

/-- Accumulator rows of a layer's slots, M_TILE doubled in FP64 (R70, R121), and of its backward slots (R153). -/
def LayerDesc.accTop (d : LayerDesc) : Nat :=
  d.accBase + d.accSlots * d.mTile * (if d.denW = 7 ∨ d.denS = 7 then 2 else 1)
def LayerDesc.bwdTop (d : LayerDesc) : Nat := d.accBase + d.accSlots * 256 + 512

def layers14 (v : VCtx) (p : PlaneCfg) : List (Bool × ErrPlace) :=
  let c := v.c
  (eachRec 0 p.layers.descs fun i d =>
    decide (d.accTop ≤ 32768) && (!p.bwdNames i || decide (d.bwdTop ≤ 32768)) &&
    decide (d.wAddr + d.wBytes (c.den d.denW) ≤ storeTop) && decide (d.xAddr + d.m * rowBytes (c.den d.denS) d.k ≤ storeTop) &&
    (match p.spillArea i d with
      | some a => decide (a.2 ≤ storeTop)
      | none => true)) ++
  (eachRec 2 p.layers.tds fun _ t => decide (t.storeEnd (c.den t.den) ≤ storeTop)) ++
  (p.layers.descs.flatMap fun d => (p.carries c d).map fun a => (decide (a.2.2 ≤ storeTop), recPlace 2 a.1))

/-- Accumulator rows that the layers of an engine use, in both planes. -/
def Charter.accRows (c : Charter) (e : Nat) : List (Nat × Nat) :=
  c.plane.flatMap fun p => p.layers.descs.zipIdx.filterMap fun d =>
    if d.1.arrKind ≠ 0 ∧ p.engOf d.2 = some e then
      some (d.1.accBase, if p.bwdNames d.2 then max d.1.accTop d.1.bwdTop else d.1.accTop)
    else none

def overlap (a b : Nat × Nat) : Bool := decide (a.1 < b.2) && decide (b.1 < a.2)

def HomeRec.accPart (h : HomeRec) : Nat × Nat := (h.accRow, h.accRow + 16 * h.accBands)

def shards14 (v : VCtx) : List (Bool × ErrPlace) :=
  let c := v.c
  eachRec 3 c.shards.homes fun i h =>
    let old := (c.shards.homes.take i).filter fun y => y.engine == h.engine
    decide (h.accPart.2 ≤ 32768) &&
    (h.accBands == 0 || ((c.accRows h.engine).all fun a => !overlap a h.accPart) && old.all fun y => y.accBands == 0 || !overlap y.accPart h.accPart) &&
    decide (old.foldl (fun n y => n + y.bands) h.bands ≤ 131072)

/-- The blocks that a drain of this module carries (R418). -/
def VCtx.drainLen (v : VCtx) : Nat :=
  v.c.shards.entries.foldl (fun n x => if x.owner = v.c.moduleId then
      n + v.c.pagesOf x + ceilDiv (v.c.pagesOf x) 1024 + v.s.stateLen x
    else n) 0

/-- The till-store rule at an elastic entry's values (R411). -/
def Charter.elasticOk (c : Charter) (x : Elastic) : Bool :=
  match c.plane[x.plane]?, c.planeTable x.plane x.engine with
  | some p, some t =>
    let fl := if x.floatLimit = 0 then t.floatLimit else x.floatLimit
    p.tills.all fun y => !(y.engine == x.engine && !y.isOut) ||
      decide ((if y.opens then fl else 0) + x.clim.toNat + y.credits ≤ y.storeMsgs)
  | _, _ => true

def ckpt14 (v : VCtx) : List (Bool × ErrPlace) :=
  (decide (v.drainLen ≤ v.c.ckpt.nb), hdrPlace) :: eachRec 2 v.c.ckpt.elastic fun _ x => v.c.elasticOk x

/-- Stage-store ranges of an engine that an assay area must leave alone (R395). -/
def Charter.busyStore (c : Charter) (e : Nat) : List (Nat × Nat) :=
  c.plane.flatMap fun p =>
    (p.tills.filter fun t => t.engine == e).map (fun t => (t.addr, t.storeEnd)) ++
    (p.layers.descs.zipIdx.filter fun d => p.engOf d.2 == some e).flatMap fun d =>
      (p.carries c d.1).map (fun a => a.2) ++ (p.spillArea d.2 d.1).toList

def faults14 (v : VCtx) : List (Bool × ErrPlace) :=
  eachRec 0 v.c.faults.engines fun i x =>
    !x.assayValid || (decide (x.assayAddr + 2 ^ 20 ≤ storeTop) &&
      (v.c.busyStore i).all fun a => !overlap a (x.assayAddr, x.assayAddr + 2 ^ 20))

/-- Regions with the directory index of the section that names them, the charter store before all. -/
def Charter.placed (c : Charter) (s : State) (l : List Sec) : List (Nat × Region) :=
  let at' (ty plane : Nat) (r : Region) : Nat × Region :=
    (match findSec l ty plane with
      | some x => x.idx + 1
      | none => 0, r)
  charterStores.map (fun r => (0, r)) ++ c.pools.map (at' 1 1) ++ c.storesBy.1.map (at' 2 1) ++ c.storesBy.2.map (at' 2 2) ++
  c.buffers.map (at' 3 0) ++ c.windows.map (at' 3 0) ++ (s.stateRegions c).map (at' 8 0) ++ c.homeParts.map (at' 8 0) ++
  c.escrows.map (at' 9 0)

def Region.key (r : Nat × Region) : Nat := r.1 * 2 ^ 60 + placeKey (r.2.list, r.2.entry, 0xFFFF)

def Region.window (r : Region) : Bool := r.sec == 3 && r.list == 0

/-- Two distinct regions of a charter may not meet, unless both are windows of peers (R520). -/
def regionClash (x y : Region) : Bool := x.meets y && !(x.window && y.window)

/-- Regions of a section that leave their vault or channel, or meet one examined before them. -/
def regions14 (v : VCtx) (l : List Sec) : List (Bool × ErrPlace) :=
  let all := (v.c.placed v.s l).mergeSort fun a b => decide (Region.key a ≤ Region.key b)
  (all.zipIdx.filter fun r => r.1.1 == v.x.idx + 1).map fun r =>
    (r.1.2.inside && (all.take r.2).all (fun y => !regionClash r.1.2 y.2), if r.1.2.list = 1 then hdrPlace else recPlace r.1.2.list r.1.2.entry)

/-- Check 14 of one section. -/
def check14 (l : List Sec) (v : VCtx) : Option ErrPlace :=
  worst ((match v.x.ty, v.cfg with
    | 0x1, some p => if v.other.isSome then [] else eachRec 0 p.engMap fun i m => v.c.poolOk i m
    | 0x2, _ => tills14 v
    | 0x3, _ => peers14 v
    | 0x7, _ => [(decide (v.x.count ≤ 32), hdrPlace)]
    | 0x8, _ => shards14 v
    | 0x9, _ => ckpt14 v
    | 0xA, _ => faults14 v
    | 0xB, some p => layers14 v p
    | _, _ => []) ++ regions14 v l)

/-! ### Check 15 (R44) -/

/-- Both exits of a row. -/
def SchedRow.exits (w : SchedRow) (r : Nat) : List Nat := if w.cond = 0 then [w.next.toNat] else [w.next.toNat, r + 1]

/-- Rows marked, with the exits of marked rows marked in turn, n times. -/
def reachRows (rows : List SchedRow) : Nat → List Bool → List Bool
  | 0, m => m
  | n + 1, m =>
    let hit := (rows.zipIdx.zip m).flatMap fun x => if x.2 then x.1.1.exits x.1.2 else []
    reachRows rows n (m.zipIdx.map fun x => x.1 || hit.contains x.2)

/-- Rows without a wait from which such rows can be left for ever, after n prunings. -/
def loopRows (rows : List SchedRow) : Nat → List Bool → List Bool
  | 0, m => m
  | n + 1, m => loopRows rows n ((rows.zipIdx.zip m).map fun x => x.2 && (x.1.1.exits x.1.2).any fun k => m.getD k false)

def isWaitOp (op : Byte) : Bool := op == 0x11 || op == 0x12 || op == 0x3F

/-- STEP_END is reachable from ENTRY, and every cycle holds a RECV, SEND or STEP_END. -/
def SchedTable.progress (t : SchedTable) : Bool :=
  let n := t.rows.length
  let reach := reachRows t.rows n ((List.range n).map fun i => i == t.entry)
  ((t.rows.zip reach).any fun x => x.1.op == 0x3F && x.2) &&
  !((loopRows t.rows n (t.rows.map fun w => !isWaitOp w.op)).any id)

def check15 (v : VCtx) : Option ErrPlace :=
  if v.x.ty = 0x4 then worst (eachRec 0 (parseSched v.x.bs v.x.count) fun _ t => t.progress) else none

/-! ### Check 16 (R48, R49, R87, R231) -/

/-- A point of a loss-scale curve: an integer in its range. -/
def lsPointOk (lo hi : Int) (w : W32) : Bool :=
  isInteger (f32 w) && !numLt (f32 w) (numOfInt lo) && !numLt (numOfInt hi) (f32 w)

def curve16 (c : Charter) (l : List Curve) (i : Nat) (t : Curve) : List (Bool × ErrPlace) :=
  let old := l.take i
  let grow : Bool := t.kind == 1 && t.id == c.shards.lsGrow
  let fall : Bool := t.kind == 1 && t.id == c.shards.lsFall
  (within t.kind 1 3 && t.headOk && (old.all fun y => decide (y.id < t.id)) &&
    (t.kind != 3 || (t.rampHeadOk && old.all fun y => y.kind != 3)) && (t.kind != 1 || t.interp == 0), recPlace 0 i) ::
  t.pts.zipIdx.map fun p =>
    (t.xOk p.2 && (t.kind != 3 || t.rampPtOk p.2) && (t.kind != 1 || isInteger (f32 p.1.y)) && (!grow || lsPointOk 0 16 p.1.y) && (!fall || lsPointOk (-16) 0 p.1.y),
      (0, i, p.2))

def check16 (v : VCtx) : Option ErrPlace :=
  if v.x.ty = 0x7 then
    let l := (curveOffs v.x.bs v.x.count).map (parseCurve v.x.bs)
    worst ((decide (1 ≤ v.x.count), hdrPlace) :: l.zipIdx.flatMap fun t => curve16 v.c l t.2 t.1)
  else none

/-! ### Check 17 (R465) -/

/-- The job key of a SEALING section: none when the unwrap fails. -/
def Charter.jobKey (c : Charter) : Option Dig256 :=
  c.sealing.bind fun x =>
    let w := Config.sha3_256 (toBytes (kemDecap x.kemCt) 32 ++ toBytes c.jobId 8 ++ toBytes c.moduleId 2)
    (Config.gcmOpen w 0 [] x.wrapped x.wrapTag).map fun k => rdW 256 k 0

/-- The tag area as a region; none where it does not lie in its own vault or channel. -/
def TagArea.region (x : TagArea) (i : Nat) : Option Region :=
  let page := if bitAt x.area 31 then fld x.area 22 0 else fld x.area 20 0
  let own : Bool := if i < 32 then !bitAt x.area 31 && fld x.area 30 29 == i % 4 else bitAt x.area 31 && fld x.area 28 23 == i - 32
  let r : Region := { ctl := areaCtl i, base := page * 4096, len := ceilDiv x.count 128 * 4096, sec := 0xC, list := 0, entry := i }
  if own && r.inside then some r else none

/-- A tag area and the regions of its vault or channel. -/
def TagArea.ok (x : TagArea) (i : Nat) (regions : List Region) : Bool :=
  let mine := regions.filter fun r => r.ctl == areaCtl i
  (mine.all fun r => decide (x.first * 4096 ≤ r.base) && decide (r.base + r.len ≤ (x.first + x.count) * 4096)) &&
  (x.count == 0 || match x.region i with
    | some a => mine.all fun r => !a.meets r
    | none => false)

def check17 (v : VCtx) : Option ErrPlace :=
  if v.c.sealed && v.x.ty == 0xC then
    match v.c.sealing with
    | some se =>
      let regions := v.s.namedRegions v.c ++ v.c.escrows
      worst ((v.c.jobKey.isSome, hdrPlace) :: eachRec 0 se.areas fun i x => x.ok i regions)
    | none => none
  else none

/-! ### The verification (R36) -/

def errAt (check ty : Nat) (p : ErrPlace) : CharterErr where
  sub := BitVec.ofNat 16 p.2.2
  list := BitVec.ofNat 4 p.1
  check := BitVec.ofNat 8 check
  section_ := BitVec.ofNat 16 ty
  entry := BitVec.ofNat 16 p.2.1

def headErr (check : Nat) : CharterErr := errAt check 0 hdrPlace
def dirErr (check i : Nat) : CharterErr := errAt check 0 (recPlace 0 i)

def failIf (b : Bool) (e : CharterErr) : Option CharterErr := if b then some e else none

/-- Checks 1 to 5. -/
def State.head5 (s : State) (img : List Byte) (declared : Nat) : Option CharterErr :=
  let key : Dig512 := rdW 512 img 0x38
  failIf (rdNat img 0 4 != 0x5A434348 || rdNat img 4 2 != 1) (headErr 0x02) <|>
  failIf (rdNat img 8 8 != declared) (headErr 0x01) <|>
  failIf (s.sec.keyO != some key) (headErr 0x04) <|>
  failIf (!imageSigned key img) (headErr 0x03) <|>
  failIf (rdW 12 img 0x18 != s.sec.store.moduleId) (headErr 0x05)

/-- Alignment, bounds and disjointness of a directory entry (check 6). -/
def Sec.dirOk (x : Sec) (img : List Byte) (old : List Sec) : Bool :=
  x.off % 4096 == 0 && decide (0x100 + 64 * sectionCount img ≤ x.off) && decide (x.off + x.len ≤ rdNat img 8 8 - 8192) &&
  old.all fun y => decide (x.off + x.len ≤ y.off) || decide (y.off + y.len ≤ x.off)

/-- The first directory entry of a list that a condition refuses. -/
def badSec (l : List Sec) (ok : List Sec → Sec → Bool) : Option Sec :=
  (l.zipIdx.find? fun x => !ok (l.take x.2) x.1).map (·.1)

def perPlane : List Nat := [0x1, 0x2, 0x4, 0x6, 0x7, 0xB]
def commonSecs : List Nat := [0x3, 0x5, 0x8, 0x9, 0xA, 0xC]

/-- The plane's SCHEDULE issues UPDATE, read as far as its tables lie within LENGTH (R33). -/
def issuesUpdate (bs : List Byte) : Nat → Nat → Bool
  | 0, _ => false
  | n + 1, o =>
    if bs.length < o + 32 ∨ bs.length < o + schedSize bs o then false
    else ((List.range (rdNat bs (o + 6) 2)).any fun r => (parseRow bs (o + 32 + 16 * r)).op == 0x31) ||
      issuesUpdate bs n (o + schedSize bs o)

/-- Sections that must be present: type and plane (R33). -/
def required (img : List Byte) (l : List Sec) : List (Nat × Nat) :=
  let planes := (List.range (min 2 (rdNat img 0x1A 2))).map (· + 1)
  let upd (p : Nat) : Bool := match findSec l 4 p with
    | some x => issuesUpdate x.bs (capCount x.count x.bs.length 32) 0
    | none => false
  ([0x1, 0x2, 0x3, 0x4, 0x5, 0x6, 0x7, 0x8, 0x9, 0xA, 0xB, 0xC] : List Nat).flatMap fun ty =>
    if ty = 0x6 then (planes.filter upd).map fun p => (ty, p)
    else if perPlane.contains ty then planes.map fun p => (ty, p)
    else if ty = 0xC ∧ flag img 0x1C 0 = false then []
    else [(ty, 0)]

/-- Check 8: present, of a known type, not duplicated. -/
def check8 (img : List Byte) (l : List Sec) : Option CharterErr :=
  ((badSec l fun old x => within x.ty 1 0xC && (findSec old x.ty x.plane).isNone).map fun x => errAt 0x08 x.ty (recPlace 0 x.idx)) <|>
  (((required img l).find? fun r => (findSec l r.1 r.2).isNone).map fun r =>
    errAt 0x08 r.1 (1, 0xFFFF, if r.2 = 0 then 0xFFFF else r.2))

/-- Check 9. -/
def check9 (img : List Byte) (l : List Sec) : Option CharterErr :=
  let n := rdNat img 0x1A 2
  failIf (!within n 1 2) (headErr 0x10) <|>
  ((badSec l fun _ x => if perPlane.contains x.ty then within x.plane 1 n else x.plane == 0).map fun x =>
    errAt 0x10 x.ty (recPlace 0 x.idx))

/-- Check 10: header, directory, sections. -/
def check10 (img : List Byte) (l : List Sec) : Option CharterErr :=
  failIf (!(maskZero img 0x18 2 0xF000 && maskZero img 0x1C 2 0xFFFC && bytesZero img 0x36 2 && bytesZero img 0xB8 72)) (headErr 0x0F) <|>
  ((badSec l fun _ x => bytesZero img (0x100 + 64 * x.idx + 3) 1 && bytesZero img (0x100 + 64 * x.idx + 0x18) 8).map fun x => dirErr 0x0F x.idx) <|>
  l.findSome? fun x => (x.reserved (rdNat img 0x2A 2)).map fun p => errAt 0x0F x.ty p

/-- Header values (R30, R34). -/
def header11 (img : List Byte) : Bool :=
  within (sectionCount img) 1 64 && within (rdNat img 0x28 2) 1 4096 && within (rdNat img 0x2A 2) 1 1024 &&
  decide (rdNat img 0x2C 2 < rdNat img 0x2A 2)

/-- A check made section by section in directory order. -/
def overSecs (s : State) (c : Charter) (l : List Sec) (code : Nat) (f : VCtx → Option ErrPlace) : Option CharterErr :=
  l.zipIdx.findSome? fun x => (f { s := s, c := c, x := x.1, prev := l.take x.2 }).map fun p => errAt code x.1.ty p

/-- Check 13 over a parsed charter: repeated at ACTIVATE (R37 step 9). -/
def State.unitsUp (s : State) (c : Charter) (l : List Sec) : Option CharterErr :=
  failIf (c.twin && !s.ckpt.pairValid) (headErr 0x0B) <|> overSecs s c l 0x0B check13

/-- Checks 11 to 17, with the charter in place for the operations that read it. -/
def State.body17 (s : State) (img : List Byte) (l : List Sec) : Option CharterErr :=
  let c := parseCharter img
  let t := s.modJob fun j => { j with charter := some c }
  failIf (!header11 img) (headErr 0x09) <|> overSecs t c l 0x09 check11 <|> overSecs t c l 0x0A check12 <|> t.unitsUp c l <|>
  overSecs t c l 0x0C (check14 l) <|> overSecs t c l 0x0D check15 <|> overSecs t c l 0x0E check16 <|> overSecs t c l 0x11 check17

/-- The verification of an image declared with a length: the first failing check, if any. -/
def State.verify (s : State) (img : List Byte) (declared : Nat) : Option CharterErr :=
  let l := parseSecs img
  s.head5 img declared <|>
  ((badSec l fun old x => x.dirOk img old).map fun x => dirErr 0x07 x.idx) <|>
  ((badSec l fun _ x => rdW 256 img (0x100 + 64 * x.idx + 0x20) == Config.sha3_256 x.bs).map fun x => dirErr 0x06 x.idx) <|>
  check8 img l <|> check9 img l <|> check10 img l <|> s.body17 img l

end Sys2Proof.Machine
end

