-- ==== Sys2Proof/Machine/Jobs.lean ====
section
/-! DEFINITION. Job commands: loading, verification, activation, running, release and abort (02 R35 to R39, R57 to R63;
12 R349 to R351; 14 R412, R424). -/

namespace Sys2Proof.Machine

/-! ### Operands and states (R59, R350) -/

/-- No operand bit is set that the three masks of ARG0 to ARG2 leave out. -/
def argsOk (c : Cmd) (m0 m1 m2 : W64) : Bool :=
  c.arg0 &&& ~~~m0 == 0 && c.arg1 &&& ~~~m1 == 0 && c.arg2 &&& ~~~m2 == 0 && c.arg3 == 0 && c.arg4 == 0 && c.arg5 == 0

/-- A job command in a state where the table has an effect, with no reserved operand bit. -/
def State.jobCommand (s : State) (opc : Byte) (roles : List Byte) (c : Cmd) (m0 m1 m2 : W64) (ok : JState → Bool)
    (body : PendCmd → Byte → State → CmdOut) : State :=
  s.command opc roles c fun p role s =>
    if ok s.job.state && argsOk c m0 m1 m2 then body p role s else cmdDone .stateConflict s

def State.setErrRec (s : State) (e : CharterErr) : State := s.modJob fun j => { j with err := e }

/-! ### The charter store (R35, R280, R351) -/

def State.writeStaging (s : State) (off : Nat) (data : List Byte) : State :=
  s.charterCopies.foldl (fun s f => s.writeBytes (.far f) (charterBase + off) data []) s

/-- The terms of a read of the charter store. -/
def State.charterRead (s : State) : ReadBy :=
  { source := 0, step := s.recStep, mb := noMb, unit := whoIsland .charterStore, chan := 0xFF }

/-- The place that a codeword of a far channel protects: its own, or the first block of a sideband codeword's two. -/
def cwPlace (f : FarId) (w : Nat) : Nat :=
  if isSideCw (.far f) w then (w - sideCw (.far f) 0) * 8192 else w * 64

/-- Codewords of a copy read again from the other, through its slice: true where each is sound there. -/
def State.otherCopy (s : State) (f : FarId) (bad : List BadCw) : Bool × State :=
  let r := bad.foldl (fun (r : List BadCw × State) b =>
    let q := r.2.cacheRead f (cwPlace f b.1) 64 false ReadMet.none s.charterRead
    ((r.1 ++ q.1).eraseDups, q.2)) ([], s)
  r.2.reportBad (.far f) r.1 s.charterRead

/-- A copy of the image read through its slice, with one record for what the read met (R262, R279). -/
def State.readCopy (s : State) (f : FarId) (len : Nat) : List BadCw × State :=
  match s.cacheRead f charterBase len false ReadMet.none s.charterRead with
  | (bad, t) =>
    match t.reportBad (.far f) bad s.charterRead with
    | (_, t) => (bad, t)

/-- The bytes of a copy of the image. -/
def State.copyBytes (s : State) (f : FarId) (len : Nat) : List Byte := (s.ctl (.far f)).bytes charterBase len

/-- The bytes of two copies, each byte from the second where the first reads uncorrectable. -/
def mendCopy (bad : List BadCw) (a b : List Byte) : List Byte :=
  (List.range a.length).zipWith (fun (i : Nat) (x : Byte × Byte) =>
    if bad.any fun w => w.1 == (charterBase + i) / 64 then x.2 else x.1) (a.zip b)

/-- The image as the module reads it: an uncorrectable codeword of one copy is read from the other (R280). -/
def State.charterImage (s : State) (len : Nat) : Except Status (List Byte) × State :=
  match s.charterCopies with
  | [] => (.error .stateConflict, s)
  | f :: r =>
    match s.readCopy f len, r with
    | ([], t), _ => (.ok (s.copyBytes f len), t)
    | (_, t), [] => (.error .uncorrectable, t)
    | (bad, t), g :: _ =>
      match t.otherCopy g bad with
      | (false, t) => (.error .uncorrectable, t)
      | (true, t) => (.ok (mendCopy bad (s.copyBytes f len) (s.copyBytes g len)), t)

/-! ### Staging (R37 steps 1 and 2, R351) -/

/-- CHARTER_BEGIN. -/
def charterBegin (c : Cmd) (s : State) : State :=
  s.jobCommand 0x01 [2] c 0xFFFF_FFFF 0 0 (· == .empty) fun _ _ s =>
    let n := fld c.arg0 31 0
    if n < 8512 ∨ 268435456 < n then cmdDone .badCharter (s.setErrRec (headErr 0x01))
    else if s.charterCopies.isEmpty then cmdDone .stateConflict s
    else cmdDone .ok (s.clearStaging.modJob fun j => { j with
      state := .staging, declared := n, len := BitVec.ofNat 64 n, digest := 0, jobId := 0, charter := none })

def execCharterBegin (c : Cmd) (s : State) : Res := .next (charterBegin c s)

/-- The engine whose channel 7 carries chunks. -/
def State.chunkEngine (s : State) : Option EngineId := (List.finRange 128).find? fun e => s.engOk e.val

/-- Channel 7 of that engine runs a chain of DMA_CHAIN: a chunk waits for it. -/
def State.chunkWaits (s : State) : Bool :=
  match s.chunkEngine with
  | some e => (s.chan e 7).busy && (s.chan e 7).chain.isSome
  | none => false

/-- OFFSET, LENGTH and the source of a chunk. -/
def chunkOk (c : Cmd) (total : Nat) : Bool :=
  let off := fld c.arg0 31 0
  let len := fld c.arg1 31 0
  let mgmt : Bool := match c.src with
    | .ring _ => false
    | _ => true
  off % 64 == 0 && decide (1 ≤ len) && decide (len ≤ 67108864) && (len % 64 == 0 || off + len == total) &&
  decide (off + len ≤ total) && payloadSpace c.arg2 c.src && (fld c.arg2 63 60 == 4 || fld c.arg2 59 0 == 0) &&
  (!mgmt || decide (len ≤ 65536))

/-- Why the slip of a chunk halts: no engine or copy answers, the host does not, or the transfer itself is cut short. -/
def State.chunkHalt (s : State) (c : Cmd) (cut : Option Cut) : Option Cut :=
  if s.chunkEngine.isNone || s.charterCopies.isEmpty || (fld c.arg2 63 60 == 4 && s.host.ltssm != 1) then
    some { status := .stateConflict, bytes := 0 }
  else cut

/-- The slip that copies a chunk of n bytes, BLOCKS clear. -/
def chunkSlip (n : Nat) (src dst : W64) : Slip := { ownSlip n src dst with w0 := put 1 55 ||| put n 0 }

/-- The slips of a chunk on their channel, one to each copy: they run to their end, or the first halts it (R300, R351; log
entry 113). -/
def State.chunkSlips (s : State) (c : Cmd) (halt : Option Cut) : State :=
  match s.chunkEngine with
  | none => s
  | some e =>
    let slip (f : FarId) : Slip := chunkSlip (fld c.arg1 31 0) c.arg2 (dramWord (.far f) (charterBase + fld c.arg0 31 0))
    match halt, s.charterCopies with
    | none, fs => fs.foldl (fun (s : State) f => (s.chanTake e 7 (slip f)).modChan e 7 ChanSt.ran) s
    | some h, f :: _ => (s.chanTake e 7 (slip f)).modChan e 7 fun x => { x.failed h.status with
        progress := BitVec.ofNat 32 h.bytes, haltOffset := BitVec.ofNat 28 h.bytes }
    | some _, [] => s

/-- CHARTER_CHUNK. -/
def charterChunk (c : Cmd) (cut : Option Cut) (s : State) : State :=
  if s.chunkWaits then s
  else
    s.jobCommand 0x02 [2] c 0xFFFF_FFFF 0xFFFF_FFFF (BitVec.allOnes 64) (· == .staging) fun _ _ s =>
      if chunkOk c s.job.declared = false then cmdDone .stateConflict s
      else
        let len := fld c.arg1 31 0
        let data := pad c.payload len
        let halt := s.chunkHalt c cut
        let s := s.chunkSlips c halt
        match halt with
        | none => cmdDone .ok (s.writeStaging (fld c.arg0 31 0) data)
        | some h => cmdDone h.status (s.writeStaging (fld c.arg0 31 0) (data.take h.bytes))

def execCharterChunk (c : Cmd) (cut : Option Cut) (s : State) : Res := .next (charterChunk c cut s)

/-- CHARTER_DISCARD. -/
def charterDiscard (c : Cmd) (s : State) : State :=
  s.jobCommand 0x04 [2] c 0 0 0 (fun j => j == .staging || j == .verified) fun _ _ s => cmdDone .ok s.toEmpty

def execCharterDiscard (c : Cmd) (s : State) : Res := .next (charterDiscard c s)

/-! ### Verification (R36, R37 steps 3 to 8) -/

/-- CHARTER_END. -/
def charterEnd (c : Cmd) (s : State) : State :=
  s.jobCommand 0x03 [2] c 0 0 0 (· == .staging) fun p _ s =>
    cmdBusy (s.modJob fun j => { j with state := .verifying, busy := some p })

def execCharterEnd (c : Cmd) (s : State) : Res := .next (charterEnd c s)

/-- A verified charter: measured, in the day book, VERIFIED with its digest and JOB_ID. -/
def State.verified (s : State) (c : Charter) : State :=
  let s := (s.setErrRec CharterErr.none).measure 2 5 c.jobId c.digest
  let s := s.dbModule .ok clsEvent 0 c.digest
  (s.modJob fun j => { j with state := .verified, digest := c.digest, jobId := c.jobId, charter := some c }).busyDone .ok

/-- VERIFICATION_DONE: the checks end, or the image cannot be read. -/
def verificationDone (s : State) : State :=
  if s.job.state ≠ .verifying then s
  else
    match s.charterImage s.job.declared with
    | (.error st, s) => (s.busyDone st).toEmpty
    | (.ok img, s) =>
      match s.verify img s.job.declared with
      | some e => ((s.setErrRec e).busyDone .badCharter).toEmpty
      | none => s.verified (parseCharter img)

def execVerificationDone (s : State) : Res := .next (verificationDone s)

/-! ### Activation (R37 steps 9 to 13, R38) -/

/-- Check 13 repeated over the image: the status with which ACTIVATE ends, and what failed. An image that no copy holds sound
ends it with the status of that read (R38, R280). -/
def State.unitsLost (s : State) : Option (Status × CharterErr) × State :=
  match s.job.charter, s.charterImage s.job.declared with
  | none, (_, s) => (none, s)
  | some _, (.error st, s) => (some (st, s.job.err), s)
  | some c, (.ok img, s) => ((s.unitsUp c (parseSecs img)).map fun e => (.badCharter, e), s)

/-- ACTIVATE: the security store shows from now on that a job was activated (R490). -/
def activate (c : Cmd) (s : State) : State :=
  s.jobCommand 0x05 [2] c 0 0 0 (· == .verified) fun p _ s =>
    match s.unitsLost with
    | (some (st, e), s) => cmdDone st (s.setErrRec e)
    | (none, s) =>
      let s := s.modSec fun x => { x with store := { x.store with jobFlag := true } }
      cmdBusy (s.modJob fun j => { j with state := .activating, busy := some p })

def execActivate (c : Cmd) (s : State) : Res := .next (activate c s)

/-- The schedule table of an engine in a plane of the charter. -/
def Charter.tableOf (c : Charter) (plane e : Nat) : Option SchedTable :=
  match c.plane[plane]? with
  | some p => p.sched.find? fun t => t.engine == e
  | none => none

/-- An engine at step 10: counters from zero, tables, an empty ledger, and what FAULTS sets (R96, R215, R393). -/
def Engine.activated (x : Engine) (c : Charter) (e free : Nat) : Engine :=
  let y := x.zeroCounts
  { y with
    table0 := c.tableOf 0 e, table1 := c.tableOf 1 e, float := [], save := SaveSt.init, seq := SeqSt.init
    led := { EngLed.init with freePages := free }, esc := EngEsc.init
    arr := { y.arr with
      excMask := c.faults.excMask, queue := [], waiting := [], touched := [], homeFlight := [], bwdActive := false }
    vec := { y.vec with
      duplex := match c.faults.engines[e]? with
        | some f => f.duplex
        | none => 0
      run := VecRun.init, red := [], stats := [], rowActive := false, rowSpilling := false } }

/-- Share counts of a pool at zero (R215). -/
def State.clearHeader (s : State) (e : EngineId) : State :=
  (List.range (headerPages (s.poolPages e))).foldl (fun s q =>
    let (c, p) := s.poolLoc e q
    s.writeBytes c (p * 4096) (List.replicate 4096 0) []) s

/-- The scale record of one layer (R160, R250). -/
def State.scaleRecord (s : State) (e : EngineId) (d : LayerDesc) : State :=
  if d.scaleValid = false then s
  else
    let one : W32 := 0x3F80_0000
    let w := match s.shardsSec with
      | some x => match x.params.find? fun p => d.paramId != 0 && p.paramId == d.paramId with
        | some p => p.wscale
        | none => one
      | none => one
    s.modEng e fun x => { x with store := memWrite x.store d.scaleAddr (toBytes one 4 ++ toBytes w 4 ++ toBytes one 4) }

/-- Every layer of every stage engine of a plane. -/
def State.planeScales (s : State) (p : PlaneCfg) : State :=
  (List.finRange 128).foldl (fun s e => match p.engMap[e.val]? with
    | none => s
    | some m =>
      if m.role ≠ 1 then s
      else ((p.layers.descs.drop m.layerFirst).take (m.layerLast + 1 - m.layerFirst)).foldl (fun s d => s.scaleRecord e d) s) s

/-- Scale records of every layer, those of the active plane last. -/
def State.scaleRecords (s : State) : State :=
  match s.job.charter with
  | none => s
  | some c =>
    let s := match c.plane[1 - s.job.plane.val]? with
      | some p => s.planeScales p
      | none => s
    match c.plane[s.job.plane.val]? with
    | some p => s.planeScales p
    | none => s

/-- Step 10: keys of a sealed job, engines, ledger slices, tills. -/
def State.step10 (s : State) (c : Charter) : State :=
  let s := if c.sealed then
      let (k, s) := s.random
      s.modSec fun x => { x with jobKey := c.jobKey, memKey := some k }
    else s
  let s := s.modJob fun j => { j with plane := 0, planeClosed := 0, charter := some c }
  let free (e : EngineId) : Nat := s.poolPages e - headerPages (s.poolPages e)
  let s : State := { s with eng := Vector.ofFn fun i => (s.eng[i.val]).activated c i.val (free i) }
  let s := s.stages.foldl (fun s e => s.clearHeader e) s
  s.scaleRecords

/-- Step 11: peer table, clearing buffers and the counters of R339. -/
def State.step11 (s : State) (c : Charter) : State :=
  let clr (n : Nat) : ClrSt := { ClrSt.init with pages := n }
  let env := s.env
  { s with env := { env with
      peers := c.peers.entries.map fun (e : PeerEnt) => { PeerSt.init with module := e.module }
      live := [], livePrev := [], lostNow := [], clr := #v[clr c.peers.buf0Pages, clr c.peers.buf1Pages] } }

/-- The bit map of every replica. -/
def fullMap (n : Nat) : BitVec 1024 := BitVec.ofNat 1024 (2 ^ n - 1)

/-- What activation sets of the update and of checkpoints. -/
def State.jobStart (s : State) (c : Charter) : State :=
  let before : StepNo := c.startStep - 1
  let s := s.modUpd fun _ => { UpdSt.init with exp := c.shards.lsInit, due := before, duePrev := before }
  let bare := c.shards.entries.filter fun x => x.owner == s.ownModule && x.mirror != 0xFFF
  s.modCkpt fun k => { CkptSt.init with
    slot := k.slot, lastStatus := k.lastStatus, cut := k.cut, committed := k.committed, failed := k.failed, skipped := k.skipped
    rStatus := k.rStatus, rShard := k.rShard, offer := k.offer, pairValid := k.pairValid, twin := k.twin, taken := k.taken
    lostUpdates := k.lostUpdates, unmirroredShards := bare.map (·.shard)
    unmirrored := BitVec.ofNat 16 (min bare.length 0xFFFF)
    liveStep := c.startStep, live := c.replicaCount, liveMap := fullMap c.replicaCount }

/-- Step 13: locked, in the day book, ACTIVE. -/
def State.step13 (s : State) (c : Charter) : State :=
  let s := s.modInt fun x => { x with replay := none, holding := false, raised := [], auditDone := [], auditVotes := [], assayWindow := false }
  let s := s.modPwr fun p => { p with rampInside := true }
  let s := s.modJob fun j => { j with
    state := .active, locked := true, step := c.startStep - 1, switches := 0, runLeft := none, stepOn := false, fresh := false }
  ((s.openTills true).dbModule .ok clsEvent 0 c.digest).busyDone .ok

/-- ACTIVATION_DONE. -/
def activationDone (s : State) : State :=
  if s.job.state ≠ .activating then s
  else
    match s.unitsLost with
    | (some (st, e), s) => ((s.setErrRec e).modJob fun j => { j with state := .verified }).busyDone st
    | (none, s) =>
      match s.job.charter with
      | none => s
      | some c => ((((s.step10 c).step11 c).jobStart c).step13 c)

def execActivationDone (s : State) : Res := .next (activationDone s)

/-! ### Running (R59 to R62) -/

/-- RUN. -/
def run (c : Cmd) (s : State) : State :=
  s.jobCommand 0x06 [2] c 0xFFFF_FFFF 0 0 (· == .active) fun _ _ s =>
    let n := fld c.arg0 31 0
    { cmdDone .ok (s.modJob fun j => { j with state := .running, runLeft := if n = 0 then none else some n }) with
      after := State.startStep }

def execRun (c : Cmd) (s : State) : Res := .next (run c s)

/-- PAUSE: completes at the boundary. -/
def pause (c : Cmd) (s : State) : State :=
  s.jobCommand 0x07 [2] c 0 0 0 (· == .running) fun p _ s =>
    if s.job.pendPause.isSome then cmdDone .stateConflict s
    else cmdLater (s.modJob fun j => { j with pendPause := some p })

def execPause (c : Cmd) (s : State) : Res := .next (pause c s)

/-- The active charter has one plane. -/
def State.onePlane (s : State) : Bool :=
  match s.job.charter with
  | some c => c.planes == 1
  | none => true

/-- PLANE_SWITCH: in ACTIVE at once, in RUNNING at the boundary. -/
def planeSwitch (c : Cmd) (s : State) : State :=
  s.jobCommand 0x08 [2] c 0 0 0 (fun j => j == .active || j == .running) fun p _ s =>
    if s.onePlane || s.job.pendSwitch.isSome then cmdDone .stateConflict s
    else if s.job.state = .running then cmdLater (s.modJob fun j => { j with pendSwitch := some p })
    else if s.tillsEmpty then cmdDone .ok s.switchPlane
    else cmdDone .stateConflict s

def execPlaneSwitch (c : Cmd) (s : State) : Res := .next (planeSwitch c s)

/-- CHECKPOINT_TAKE: at once in ACTIVE with ARG0 = 0, else at the next boundary or the boundary of the named step. -/
def checkpointTake (c : Cmd) (s : State) : State :=
  s.jobCommand 0x09 [2] c 0xFFFF_FFFF_FFFF 0 0 (fun j => j == .active || j == .running) fun p _ s =>
    let n := fld c.arg0 47 0
    if (n ≠ 0 ∧ n ≤ s.job.step.toNat) ∨ s.markFree = false ∨ s.job.pendCkpt.isSome = true then cmdDone .stateConflict s
    else if s.job.state = .active ∧ n = 0 then cmdDone .ok (s.escrowMark s.job.step s.job.plane)
    else cmdLater (s.modJob fun j => { j with pendCkpt := some (p, BitVec.ofNat 48 n) })

def execCheckpointTake (c : Cmd) (s : State) : Res := .next (checkpointTake c s)

/-- RESUME. Without a lane module in service the job stays HELD until a module reset (R364; log entry 184). -/
def resume (c : Cmd) (s : State) : State :=
  s.jobCommand 0x0B [2] c 0 0 0 (· == .held) fun _ _ s =>
    if s.spanOut then cmdDone .stateConflict s
    else cmdDone .ok (s.leaveHeld.modJob fun j => { j with state := .active })

def execResume (c : Cmd) (s : State) : Res := .next (resume c s)

/-! ### Release and abort (R60, R62, R298) -/

/-- Channels of an engine when the job ends: those of its own issuers at rest, and under ABORT every slip cut short. -/
def State.endChannels (s : State) (cut : Bool) (e : EngineId) : State :=
  let s := if cut then (List.finRange 8).foldl (fun s ch => if (s.chan e ch).busy then s.cutSlip e ch else s) s else s
  s.modEng e fun x => { x with dma := x.dma.mapFinIdx fun i c _ => if i < 6 then c.freed else c }

/-- The job stops at once: pending commands and a draining checkpoint are cancelled, the latter a failure except under ABORT
(R425), LEAVE goes out on every Envis link (R323), and the engines stand still. -/
def State.endJob (s : State) (p : PendCmd) (cut : Bool) : State :=
  let s := s.cancelPending.busyDone .stateConflict
  let s := s.sendLeave.modAllEng Engine.stop
  let s := s.forEng fun s e => s.endChannels cut e
  let s := s.drainFail .stateConflict (!cut)
  let s := s.leaveHeld.modInt fun x => { x with replay := none, holding := false, raised := [], auditDone := [], auditVotes := [], assayWindow := false }
  let s := s.modCkpt fun k => { k with restore := none }
  s.modJob fun j => { j with state := .releasing, busy := some p, stepOn := false, runLeft := none }

/-- RELEASE. -/
def release (c : Cmd) (s : State) : State :=
  s.jobCommand 0x0C [2] c 0 0 0 (fun j => j == .verified || j == .active || j == .held) fun p _ s =>
    { cmdBusy s with after := fun s => s.endJob p false }

def execRelease (c : Cmd) (s : State) : Res := .next (release c s)

/-- ABORT. -/
def abort (c : Cmd) (s : State) : State :=
  s.jobCommand 0x0D [1, 2] c 0 0 0 (fun j => j != .empty && j != .releasing) fun p _ s =>
    { cmdBusy s with after := fun s => s.endJob p true }

def execAbort (c : Cmd) (s : State) : Res := .next (abort c s)

/-- An engine without its job: its memories zero, its tables, floats, tills, ledger and escrow gone. -/
def Engine.freedJob (x : Engine) : Engine :=
  let y := x.zeroSram
  { y with
    table0 := none, table1 := none, float := [], save := SaveSt.init, seq := SeqSt.init
    tills := y.tills.map fun t => TillSt.init.takeCounts t
    led :=
      let l := EngLed.init.takeCounts y.led
      { l with freed := wrapAdd l.freed (y.led.entries.filter fun x => x.2.state != .free).length }
    esc := { EngEsc.init with drained := y.esc.drained, wait := y.esc.wait }
    arr := { y.arr with queue := [], waiting := [], touched := [], homeFlight := [], bwdActive := false }
    vec := { y.vec with run := VecRun.init, red := [] } }

/-- Peers, clearing, update and checkpoint state of a job that ends; counts stay. -/
def State.freedJob (s : State) : State :=
  let env := s.env
  let clr := env.clr.map fun (c : ClrSt) => c.wiped
  let s : State := { s with env := { env with peers := [], live := [], livePrev := [], lostNow := [], serving := [], clr := clr } }
  let s := s.modUpd fun u => { u with ran := false, partials := [], sent := [], verdicts := [], hist := [], liveForwarded := none }
  s.modCkpt fun k => { CkptSt.init with
    slot := k.slot, lastStatus := k.lastStatus, cut := k.cut, committed := k.committed, failed := k.failed, skipped := k.skipped
    rStatus := k.rStatus, rShard := k.rShard, pairValid := k.pairValid, twin := k.twin, taken := k.taken
    lostUpdates := k.lostUpdates }

/-- RELEASE_DONE: the memory of a job that was activated is zeroised (R521), and the job is EMPTY. -/
def releaseDone (s : State) : State :=
  if s.job.state ≠ .releasing then s
  else
    let s := if s.sec.store.jobFlag then s.zeroAllDram.modAllEng Engine.freedJob else s
    (s.freedJob.busyDone .ok).toEmpty

def execReleaseDone (s : State) : Res := .next (releaseDone s)

/-- JOB_STATUS: RESULT is GLB_JOB_STATE (R354). -/
def jobStatus (c : Cmd) (s : State) : State :=
  s.freeCommand 0x0E c fun s => if argsOk c 0 0 0 then (.ok, s.jobWord, s) else (.stateConflict, 0, s)

def execJobStatus (c : Cmd) (s : State) : Res := .next (jobStatus c s)

/-! ### Transfers given up (R280, R370) -/

/-- The row in progress at an engine completes with UNCORRECTABLE, and the step is marked. -/
def State.rowGaveUp (s : State) (e : EngineId) : State :=
  if s.eng[e.val].seq.running then s.rowMark e .uncorrectable else s

/-- The tile that closes next stops at once with its record, not queued and not run again (R98). -/
def State.tileGaveUp (s : State) (e : EngineId) : State :=
  match s.eng[e.val].seq.pass with
  | none => s
  | some ps =>
    match s.nextClose e ps with
    | none => s
    | some (k, arr) =>
      match s.layer k.layer with
      | none => s
      | some d =>
        let k' := { k with arr := arr }
        (s.endTile e arr k (ps.due.erase k)).tileUe e ps k' (s.plan e ps d k') 0 []

/-- The add that a controller does next for an engine completes with UNCORRECTABLE (R149). -/
def State.addGaveUp (s : State) (e : EngineId) (ctl : CtlId) : State :=
  match s.firstBand e ctl with
  | none => s
  | some b => (s.modArr e fun x => { x with homeFlight := x.homeFlight.erase b }).accumFail e ctl .uncorrectable

/-- A page of an answer goes out with UNCORRECTABLE; its bytes are of no account and free. -/
def State.pageGaveUp (s : State) (e : EngineId) (q : ReqFrame) (page : Nat) : State :=
  if s.engOk e.val = false ∨ s.admitted q.peer = false then s
  else
    let (i, s) := s.draw
    let data := toBytes (Config.free 32768 i) 4096
    let (fs, s) := s.pageBlock q page data (mkSide (crc32c data) 4 false q.version noMb 0 page 0).clearValid .uncorrectable
    s.sendFrames q.peer fs

/-- A read of the charter store is served from the other copy; with one copy in service the running command completes with
UNCORRECTABLE. -/
def State.charterGaveUp (s : State) : State :=
  if 2 ≤ s.charterCopies.length then s
  else match s.job.state with
    | .verifying => (s.busyDone .uncorrectable).toEmpty
    | .activating => (s.modJob fun j => { j with state := .verified }).busyDone .uncorrectable
    | _ => s

/-- A transfer answered with UNCORRECTABLE takes the path of its requester (R280). -/
def State.gaveUp (s : State) (who : GivenUp) : State :=
  match who with
  | .hostRegister => s.pciRefuse .abort
  | .hostAperture off => (s.aptErr .uncorrectable off).pciRefuse .abort
  | .bursarLoad => s.emit (.coreFault false)
  | .bursarFetch => s.emit (.coreFault true)
  | .dma e c => channelHalt e c .uncorrectable (s.chan e c).progress.toNat s
  | .tile e => s.tileGaveUp e
  | .vector e => s.runUe (s.runCtx e) s.eng[e.val].vec.run.prog []
  | .rowPass e =>
    let v := s.eng[e.val].vec
    s.rowUe e v.rowLayer.toNat v.rowMb (if v.rowBwd then 4 else 3) 0 []
  | .accumulate e ctl => s.addGaveUp e ctl
  | .tillReload e => s.rowGaveUp e
  | .tillSend e => s.rowGaveUp e
  | .peerFetch e q page => s.pageGaveUp e q page
  | .charterStore => s.charterGaveUp
  | .cache f line => s.cacheDrop f line
  | .readModifyWrite ctl cw =>
    match (s.ctl ctl).merge.find? fun m => m.cw == cw with
    | some m => s.retireFails ctl m
    | none => s

/-- PARITY_GIVE_UP: the sixteenth failure in a row: the transfer is given up, its requester takes the path of R280. -/
def execParityGiveUp (x : Crossing) (who : GivenUp) (s : State) : Res :=
  let s := s.settle.parityBroken x.recv
  let s := (s.post x.recv clsParity .uncorrectable noMb
    (rec0 (put (islandId x.recv).toNat 48 ||| put (islandId x.send).toNat 32))).setErr errParity
  .next (s.gaveUp who)

end Sys2Proof.Machine
end

