-- ==== Sys2Proof/Machine/Restore.lean ====
section
/-! DEFINITION. Restore: commit records, the checks of R427, loading and the end of a restore (14 R420 to R429). -/

namespace Sys2Proof.Machine

/-! ### Commit records (R422, R424, R427 checks 1 to 3) -/

def orFail (b : Bool) (st : Status) : Option Status := if b then some st else none

/-- CERT of a commit record, a device certificate without the zeros after it, with the certificates above it: its DER length is in
the four bytes of its outer header (R421, R446). -/
def ckptChain (cert : List Byte) : List Byte :=
  let n := 4 + 256 * rdNat cert 2 1 + rdNat cert 3 1
  if cert.take Config.makerChain.length = Config.makerChain then Config.makerChain
  else certFrame (cert.take n :: Config.issuerCerts (cert.take n))

/-- The signature of a commit record: under its certificate, or under the operator key of the charter. -/
def commitSigned (c : Charter) (m : List Byte) : Bool :=
  let blk := slice m 0x3000 8192
  let msg := Config.sha3_512 (m.take 0x3000)
  let sig := slice blk 4 4627
  rdNat blk 0 4 == 0x87 && allZero (blk.drop 0x1217) &&
  match rdNat m 7 1 with
  | 0 => certOk (ckptChain (slice m 0x1000 8192)) msg sig
  | 1 => mlDsaOk c.opKeyHash msg sig
  | _ => false

/-- Checks 1 to 3. -/
def commitCheck (c : Charter) (rec : List Byte) : Option Status :=
  let m := pad rec 20480
  orFail (allZero m || rdNat m 0 4 != 0x5A43434D || rdNat m 4 2 != 1) .stateConflict <|>
  orFail (!commitSigned c m) .denied <|>
  orFail (rdW 64 m 8 != c.jobId || rdW 12 m 0x16 != c.moduleId) .badCharter

/-- The two accepted slots with the highest CUT; of equal cuts the lower slot stands first. -/
def committedOf (l : List Committed) : Option Committed × Option Committed :=
  match l.mergeSort fun a b => decide (b.cut.toNat < a.cut.toNat) || (a.cut == b.cut && decide (a.slot.val ≤ b.slot.val)) with
  | [] => (none, none)
  | [a] => (some a, none)
  | a :: b :: _ => (some a, some b)

/-- COMMIT_RECORD_READ: the three slots of the destination are read, once after ACTIVE is posted and after each restore. -/
def commitRecordRead (slots : List CkptImage) (s : State) : State :=
  match s.job.charter with
  | none => s
  | some c =>
    if s.job.locked = false ∨ jobCode s.job.state < 5 ∨ s.job.state = .releasing ∨ s.job.state = .restoring ∨
        s.ckpt.recordsRead = true ∨ s.glb.bursarUp = false then s
    else
      let found : List Committed := ((slots.take 3).zipIdx.filter fun x => (commitCheck c x.1.commit).isNone).map fun x =>
        { slot := Fin.ofNat 4 x.2, cut := rdW 48 x.1.commit 0x10 }
      s.modCkpt fun k => { k with
        newest := (committedOf found).1, older := (committedOf found).2, recordsRead := true }

def execCommitRecordRead (slots : List CkptImage) (s : State) : Res := .next (commitRecordRead slots s)

/-! ### Checks (R427) -/

/-- A shard record (R421). -/
structure ShardRec where
  shard : BitVec 24
  owner : BitVec 12
  version : StepNo
  mapHallmark : W32
  statePages : Nat
  first : Nat
  blocks : Nat
  csum : W64
  cut : StepNo
deriving DecidableEq, Repr, Inhabited

def shardRecs (cf : List Byte) : List ShardRec :=
  (List.range (min (rdNat cf 0xB0 4) ((cf.length - 512) / 48))).map fun i =>
    let o := 512 + 48 * i
    { shard := rdW 24 cf o, owner := rdW 12 cf (o + 4), version := rdW 48 cf (o + 8), mapHallmark := rdW 32 cf (o + 0x10)
      statePages := rdNat cf (o + 0x14) 4, first := rdNat cf (o + 0x18) 4, blocks := rdNat cf (o + 0x1C) 4
      csum := rdW 64 cf (o + 0x20), cut := rdW 48 cf (o + 0x28) }

/-- Check 5: the first odd shard. -/
def cutCheck (want : W64) (m cf : List Byte) : Option (Status × BitVec 24) :=
  let cut := rdNat cf 0x10 6
  if (fld want 47 0 ≠ 2 ^ 48 - 1 ∧ fld want 47 0 ≠ cut) ∨ rdNat m 0x10 6 ≠ cut then some (.mixedCut, 0)
  else ((shardRecs cf).find? fun r => r.cut.toNat != cut).map fun r => (.mixedCut, r.shard)

/-- Check 6: the shards that records and charter do not share with one owner; the least identifier is the odd one. -/
def shapeCheck (c : Charter) (cf : List Byte) : Option (Status × BitVec 24) :=
  let recs := shardRecs cf
  let ents := c.shards.entries
  let odd : List (BitVec 24) :=
    (ents.filter fun x => (recs.filter fun r => r.shard == x.shard && r.owner == x.owner).length != 1).map (·.shard) ++
    (recs.filter fun r => !(ents.any fun x => x.shard == r.shard && x.owner == r.owner)).map (·.shard)
  if rdW 512 cf 0x58 ≠ c.jobSetDigest then some (.badCharter, 0)
  else match odd.mergeSort fun a b => decide (a.toNat ≤ b.toNat) with
    | [] => none
    | h :: _ => some (.badCharter, h)

/-- The checks of R427 in their order: the status and the first odd shard. -/
def restoreCheck (c : Charter) (want : W64) (img : CkptImage) : Option (Status × BitVec 24) :=
  let m := pad img.commit 20480
  let cf := img.counterfoil.take (rdNat m 0x18 8)
  ((commitCheck c img.commit).map fun st => (st, (0 : BitVec 24))) <|>
  ((orFail (Config.sha3_512 cf != rdW 512 m 0x20 || cf.length != rdNat m 0x18 8) .hallmarkFail).map fun st => (st, 0)) <|>
  cutCheck want m cf <|> shapeCheck c cf <|>
  ((orFail (rdNat cf 6 1 != (if c.sealed then 1 else 0)) .sealed).map fun st => (st, 0))

/-- The slot can be read: the host answers, or the storage peer is admitted. -/
def State.slotReadable (s : State) (elsewhere : Bool) : Bool :=
  match s.ckptSec with
  | some k => if k.toPeer && !elsewhere then (s.peer k.peer).state == 2 else s.host.ltssm == 1
  | none => false

/-- GLB_RESTORE of a refusal: the committed checkpoint other than the one refused is offered. -/
def State.restoreRefused (s : State) (st : Status) (h : BitVec 24) (slot : Option (Fin 4)) : State :=
  s.modCkpt fun k =>
    let all := k.newest.toList ++ k.older.toList
    { k with
      rStatus := st.code, rShard := h
      offer := (all.find? fun (c : Committed) => slot != some c.slot).map fun (c : Committed) => c.slot }

/-! ### Loading (R428 steps 1 to 4) -/

/-- A declaration of loss ends at a restore: the peer is admitted anew (R323). -/
def PeerSt.again (p : PeerSt) : PeerSt := if p.state = 4 then { PeerSt.init with module := p.module } else p

/-- Step 1: ledgers, homes, tills, floats, escrow and touched maps empty; a sealed job draws its memory key. -/
def State.restoreClear (s : State) : State :=
  let s := s.stages.foldl (fun s e => s.freeAll e) s
  let s := if s.sealedJob then
      let (k, s) := s.random
      s.modSec fun x => { x with memKey := some k }
    else s
  let s := (s.homeRecs.flatMap fun h => (List.range h.bands).map fun b => (h, b)).foldl (fun s hb =>
    s.putBand hb.1 hb.2 (List.replicate 4096 0)) s
  let s := s.modAllEng fun x => { x with
    float := [], save := SaveSt.init, seq := SeqSt.init, esc := { x.esc with marked := [], copies := [], freePages := x.esc.copies.map (·.2) ++ x.esc.freePages }
    arr := { x.arr with touched := [], homeFlight := [] }
    led := { x.led with upd := [], updPhase := 0, fetches := [], pubGroups := [], loads := [], undo := [], residency := [] } }
  let env := s.env
  let clr := env.clr.map fun (c : ClrSt) => { c with shards := [], contribs := [], carries := [], gone := [], fails := [] }
  let s : State := { s with env := { env with clr := clr, peers := env.peers.map PeerSt.again } }
  (s.modCkpt fun k => { k with takenOver := [], toTake := [], reowned := [] }).openTills false

/-- A block of a slot as it is written: none where its hallmark or its tag fails. -/
def State.restoreBlock (s : State) (img : CkptImage) (cut : StepNo) (b : Nat) : Option (List Byte × Sideband) :=
  match img.blocks[b]? with
  | none => none
  | some (raw, rec) =>
    let data := pad raw 4096
    let x := sideOfBytes (pad rec 64)
    if s.sealedJob then
      match s.ckptKey with
      | none => none
      | some k => (Config.gcmOpen k (ckptNonce cut s.ownModule b) x.bytes data (rdW 128 (pad rec 64) 0x20)).map fun d =>
          (d, { x with w0 := put (crc32c d).toNat 32 ||| put (fld x.w0 31 0) 0 })
    else if hallmarkOk x data then some (data, x)
    else none

/-- The words of the map that a shard's first blocks hold. -/
def mapOfBlocks (maps : List (List Byte)) (n : Nat) : List Nat :=
  (List.range n).map fun p => rdNat (maps.getD (p / 1024) []) (4 * (p % 1024)) 4 % 2 ^ 29

/-- Pool pages that the maps of an engine's owned shards name. -/
def State.namedPages (s : State) (img : CkptImage) (cut : StepNo) (recs : List ShardRec) (e : EngineId) : List Nat :=
  (s.ownedOf e).flatMap fun x =>
    match recs.find? fun r => r.shard == x.shard with
    | none => []
    | some r =>
      let n := s.shardPages x
      let maps := (List.range (ceilDiv n 1024)).map fun i => ((s.restoreBlock img cut (r.first + i)).map Prod.fst).getD []
      mapOfBlocks maps n

/-- The pages of the pool past its header that hold nothing and that no map names, lowest first. -/
def State.spareMapPages (s : State) (e : EngineId) (named : List Nat) (n : Nat) : List Nat :=
  let pool := s.poolPages e
  ((List.range (pool - headerPages pool)).map (headerPages pool + ·)).filter (fun q =>
    s.eng[e.val].share q == 0 && !(named.contains q)) |>.take n

/-- A map that can be placed: every word a free pool page past the header, none twice. -/
def State.mapPlaces (s : State) (e : EngineId) (ws : List Nat) : Bool :=
  let pool := s.poolPages e
  ws.all (fun q => decide (headerPages pool ≤ q) && decide (q < pool) && s.eng[e.val].share q == 0) && ws.eraseDups.length == ws.length

/-- Pages written where the map places them. -/
def State.putPages (s : State) (e : EngineId) (ws : List Nat) (blks : List (List Byte × Sideband)) : State :=
  (ws.zip blks).foldl (fun s (p : Nat × List Byte × Sideband) =>
    let s := s.setShare e p.1 1
    let (c, q) := s.poolLoc e p.1
    s.writePage c q p.2.1 p.2.2) s

/-- The CURRENT entry of a restored shard. -/
def State.restoreEntry (s : State) (e : EngineId) (x : ShardEnt) (v : StepNo) (ws maps : List Nat) : State :=
  match (s.slotsOf e x.shard).find? fun i => (s.eng[e.val].ledger i).state == .free with
  | none => s
  | some i =>
    let entry : LedgerEntry :=
      { state := .current, published := true, escrow := false, owned := true, version := v, shard := x.shard
        refcount := 0, serve := 0, parent := i, map := s.poolWord e (maps.headD 0), pages := ws.length
        ownPages := ws.length, mapHallmark := mapCrc ws, ownerMap := mapCrc ws, created := s.job.step, mapPages := maps }
    s.modLed e fun l => { l with entries := assocSet l.entries i entry, created := wrapAdd l.created 1 }

/-- State pages of a restored shard. -/
def State.putStates (s : State) (e : EngineId) (x : ShardEnt) (blks : List (List Byte × Sideband)) : State :=
  blks.zipIdx.foldl (fun s b => s.writeState e x b.2 b.1.2.step b.1.1) s

/-- The checksum word over the blocks of a shard as the slot holds them. -/
def slotCsum (img : CkptImage) (first n : Nat) : W64 :=
  let l := (List.range n).map fun i => pad ((img.blocks[first + i]?.map Prod.fst).getD []) 4096
  put (l.foldl crcMore 0).toNat 32 ||| put (n * 4096 % 2 ^ 32) 0

/-- Step 2 for one owned shard: its status, and the state. -/
def State.restoreShard (s : State) (img : CkptImage) (cut : StepNo) (named : List Nat) (x : ShardEnt) (r : ShardRec) :
    Status × State :=
  let e : EngineId := Fin.ofNat 128 x.engine
  let n := s.shardPages x
  let m := ceilDiv n 1024
  if r.statePages ≠ s.stateLen x ∨ r.blocks ≠ m + n + r.statePages ∨ img.blocks.length < r.first + r.blocks then
    (.hallmarkFail, s)
  else
    let good := ((List.range r.blocks).map fun i => s.restoreBlock img cut (r.first + i)).takeWhile Option.isSome
    let blks := good.filterMap id
    let ws := mapOfBlocks ((blks.take m).map (·.1)) n
    let maps := s.spareMapPages e named m
    if blks.length < m ∨ s.mapPlaces e ws = false ∨ maps.length < m then (.hallmarkFail, s)
    else
      let s := s.putPages e maps (blks.take m)
      let s := s.putPages e ws ((blks.drop m).take n)
      let s := s.putStates e x (blks.drop (m + n))
      if blks.length < r.blocks then (.hallmarkFail, s)
      else
        let s := s.restoreEntry e x r.version ws maps
        if slotCsum img r.first r.blocks = r.csum then (.ok, s) else (.hallmarkFail, s)

/-- Steps 2 and 3 for the owned shards in turn; the first failure moves the job to HELD. -/
def State.restoreOwned (s : State) (img : CkptImage) (cut : StepNo) (recs : List ShardRec) :
    List (ShardEnt × List Nat) → State
  | [] => s
  | (x, named) :: l =>
    match recs.find? fun r => r.shard == x.shard with
    | none => s.restoreFail .badCharter x.shard
    | some r =>
      match s.restoreShard img cut named x r with
      | (.ok, s) =>
        let s := match s.mirrorPeer x with
          | none => s
          | some i =>
            let m := ceilDiv (s.shardPages x) 1024 + s.shardPages x
            let pages := (List.range (s.stateLen x)).map fun k =>
              (k, ((s.restoreBlock img cut (r.first + m + k)).map Prod.fst).getD [])
            (s.modCkpt fun k => { k with
              restore := k.restore.map fun (q : RestoreSt) => { q with mirroring := x.shard :: q.mirroring } }).sendMirror
                (Fin.ofNat 128 x.engine) x i r.version pages
        s.restoreOwned img cut recs l
      | (st, s) => (s.setErr errHallmark).restoreFail st x.shard

/-- Step 4: the other shards are fetched with their recorded VERSION; an owner that is lost already ends the restore. -/
def State.restoreFetches (s : State) (recs : List ShardRec) : State :=
  if s.job.state ≠ .restoring then s
  else
    let far := s.shardEnts.filter fun x => !(s.owns x)
    match far.find? fun x => match s.peerOf (s.ownerOf x) with
        | some i => (s.peer i).state == 4
        | none => true with
    | some x => s.restoreFail .peerLost x.shard
    | none => far.foldl (fun s x => match recs.find? fun r => r.shard == x.shard with
      | some r => s.startFetch (Fin.ofNat 128 x.engine) x r.version true
      | none => s) s

/-- What the counterfoil of a slot gives the job again. -/
def restoreOf (slot : Fin 4) (img : CkptImage) : RestoreSt :=
  let cf := img.counterfoil
  { cut := rdW 48 cf 0x10, slot := slot, planeClosed := Fin.ofNat 2 (rdNat cf 0x98 1), planeNext := Fin.ofNat 2 (rdNat cf 0x99 1), exp := toInt 8 (rdNat cf 0x9A 1)
    clean := rdW 24 cf 0x9C, skip := rdW 16 cf 0xA0, updates := rdW 48 cf 0xA4, skips := rdW 48 cf 0xAA
    live := rdW 1024 cf 0xC0, recorded := (shardRecs cf).map fun x => (x.shard, x.version, x.mapHallmark), mirroring := [] }

/-- The owned shards to load, each with the pool pages that the maps of its engine name. -/
def State.restoreList (s : State) (img : CkptImage) : List (ShardEnt × List Nat) :=
  s.stages.flatMap fun e =>
    let named := s.namedPages img (rdW 48 img.counterfoil 0x10) (shardRecs img.counterfoil) e
    (s.ownedOf e).map fun x => (x, named)

/-- Step 1, with the restore under way. -/
def State.restoreBegin (s : State) (slot : Fin 4) (img : CkptImage) : State :=
  (s.restoreClear).modCkpt fun k => { k with restore := some (restoreOf slot img) }

/-- Steps 1 to 4 of an accepted restore. -/
def State.restoreLoad (s : State) (slot : Fin 4) (img : CkptImage) : State :=
  let recs := shardRecs img.counterfoil
  let s := s.restoreBegin slot img
  (s.restoreOwned img (rdW 48 img.counterfoil 0x10) recs (s.restoreList img)).restoreFetches recs

/-- The image of a slot: nothing where the slot cannot be read. -/
def State.slotImage (s : State) (elsewhere : Bool) (img : CkptImage) : CkptImage :=
  if s.slotReadable elsewhere then img else { commit := [], counterfoil := [], blocks := [] }

/-- The image with the counterfoil of the length that its commit record gives. -/
def ckptSized (img : CkptImage) : CkptImage :=
  { img with counterfoil := img.counterfoil.take (rdNat (pad img.commit 20480) 0x18 8) }

/-- RESTORE. -/
def restore (c : Cmd) (img : CkptImage) (s : State) : State :=
  s.jobCommand 0x0A [2] c 3 0xFFFF_FFFF_FFFF (BitVec.allOnes 64) (fun j => j == .active || j == .held) fun p _ s =>
    let slot : Fin 4 := Fin.ofNat 4 (fld c.arg0 1 0)
    let given : Option (Fin 4) := if c.arg2 = 0 then some slot else none
    match s.job.charter with
    | none => cmdDone .stateConflict s
    | some ch =>
      if slot = 3 ∨ s.markFree = false then cmdDone .stateConflict s
      else
        let img := s.slotImage given.isNone img
        match restoreCheck ch c.arg1 img with
        | some (st, h) => cmdDone st (s.restoreRefused st h given)
        | none =>
          let s := s.leaveHeld
          { cmdBusy (s.modJob fun j => { j with state := .restoring, busy := some p, runLeft := none }) with
            after := fun s => s.restoreLoad slot (ckptSized img) }

def execRestore (c : Cmd) (img : CkptImage) (s : State) : Res := .next (restore c img s)

/-! ### The end (R428 steps 5 and 6) -/

/-- Every shard is loaded, fetched and mirrored. -/
def State.restoreReady (s : State) (r : RestoreSt) : Bool :=
  r.mirroring.isEmpty && s.eng.toList.all fun e => !(e.led.fetches.any fun f => f.restore)

/-- The newest recorded version of a shard that is not frozen, which is V of the first step. -/
def State.restoredDue (s : State) (r : RestoreSt) : StepNo :=
  let l := r.recorded.filter fun y => match s.shardEnt y.1 with
    | some x => !x.frozen
    | none => false
  match l with
  | [] => r.cut
  | y :: t => t.foldl (fun m z => if m.toNat < z.2.1.toNat then z.2.1 else m) y.2.1

/-- Step 5. -/
def State.restoreSet (s : State) (r : RestoreSt) : State :=
  let v := s.restoredDue r
  let s := s.modJob fun j => { j with step := r.cut }
  let s := s.modUpd fun u => { u with
    cleanRun := r.clean, skipRun := r.skip, exp := r.exp, hist := [], due := v, duePrev := v, ran := false
    updates := r.updates, skips := r.skips, partials := [], sent := [], verdicts := [], eNext := r.exp, liveForwarded := none }
  let s := s.modJob fun j => { j with planeClosed := r.planeClosed }
  let s := if r.planeNext = s.job.plane then s
    else (s.modJob fun j => { j with plane := r.planeNext }).openTills true
  let s := s.scaleRecords
  let n := ((List.range 1024).filter fun i => bitAt r.live i).length
  s.modCkpt fun k => { k with
    liveMap := r.live, live := n, liveStep := wrapAdd r.cut 1, liveNext := [], rootMap := none
    restore := none, rStatus := 0, rShard := 0, offer := none, recordsRead := false }

/-- RESTORE_DONE. -/
def restoreDone (s : State) : State :=
  match s.ckpt.restore with
  | none => s
  | some r =>
    if s.job.state ≠ .restoring ∨ s.restoreReady r = false then s
    else
      let s := (s.restoreSet r).dbModule .ok clsEvent 0 0
      (s.modJob fun j => { j with state := .active, fresh := true }).busyDone .ok

def execRestoreDone (s : State) : Res := .next (restoreDone s)

end Sys2Proof.Machine
end

