-- ==== Sys2Proof/Machine/Regs.lean ====
section
/-! DEFINITION. The register map: the value every BAR0 offset reads as, the registers that a role may write, and what a
write does (18; 01 R27; 02 R63; 03 R99; 04 R128; 05 R157; 06 R187; 07 R216, R225, R226; 08 R257, R258; 09 R283 to R285;
10 R302; 11 R338, R339; 12 R366, R367; 13 R406 to R408; 14 R443, R444; 15 R468, R469; 16 R497; 17 R512). An offset that
the index does not list reads as zero (R515). -/

namespace Sys2Proof.Machine

/-- Word k of a long value, word 0 its bytes 0 to 7. -/
def wordOf {n : Nat} (x : BitVec n) (k : Nat) : W64 := BitVec.ofNat 64 (x.toNat >>> (64 * k))

/-- Two 32-bit fields. -/
def two (hi lo : W32) : W64 := put hi.toNat 32 ||| put lo.toNat 0

/-- Four 16-bit fields. -/
def four (a b c d : W16) : W64 := put a.toNat 48 ||| put b.toNat 32 ||| put c.toNat 16 ||| put d.toNat 0

/-- A STEP in bits 63:16 and the low 16 bits. -/
def stepWord (st : StepNo) (low : Nat) : W64 := put st.toNat 16 ||| put low 0

/-! ### Global block -/

def State.statusWord (s : State) : W64 :=
  let g := s.glb
  put g.startStep.toNat 12 ||| put g.lastReset.toNat 8 ||| putB g.shedMirror 5 ||| putB g.shedTelemetry 4 |||
  putB g.recovery 2 ||| putB g.bursarUp 1 ||| putB g.ready 0

def CharterErr.word (e : CharterErr) : W64 :=
  put e.sub.toNat 48 ||| put e.list.toNat 40 ||| put e.check.toNat 32 ||| put e.section_.toNat 16 ||| put e.entry.toNat 0

/-- GLB_CKPT_STATUS.STATE: 2 draining, 1 mark pending, 4 reading commit records, else 0. A commit is one command, so 3 is
never seen between commands. -/
def State.ckptCode (s : State) : Nat :=
  if s.ckpt.drain.isSome then 2
  else if s.job.pendCkpt.isSome then 1
  else if s.job.locked && s.job.charter.isSome && !s.ckpt.recordsRead then 4
  else 0

def ckptWord (c : Option Committed) : W64 :=
  match c with
  | some c => putB true 63 ||| put (c.slot.val % 4) 48 ||| put c.cut.toNat 0
  | none => 0

/-- The registers of the global block, by offset. -/
def State.glbReg (s : State) (off : Nat) : W64 :=
  let k := s.ckpt
  let u := s.upd
  match off with
  | 0x000 => s.statusWord
  | 0x100 => 0x0000_3030_2008_8002
  | 0x108 => wordOf s.glb.engAvail 0
  | 0x110 => wordOf s.glb.engAvail 1
  | 0x118 => wordOf s.glb.vaultAvail 0
  | 0x120 => wordOf s.glb.farAvail 0
  | 0x128 => wordOf s.glb.portAvail 0
  | 0x200 => s.jobWord
  | 0x208 => put s.job.step.toNat 0
  | 0x210 => s.job.err.word
  | 0x218 => s.job.len
  | 0x260 => s.job.switches
  | 0x268 => s.job.jobId
  | 0x300 => put u.cleanRun.toNat 32 ||| put u.skipRun.toNat 16 ||| put (ofInt 8 u.exp).toNat 0
  | 0x308 => put u.updates.toNat 0
  | 0x310 => put u.skips.toNat 0
  | 0x318 => stepWord u.vStep (u.vStatus.toNat * 256) ||| putB u.vClipped 1 ||| putB u.vValid 0
  | 0x320 => if s.sealedJob then 0 else u.q
  | 0x328 => if s.sealedJob then 0 else put u.gamma.toNat 0
  | 0x500 => put s.ckptCode 61 ||| put (k.slot.val % 4) 56 ||| put k.lastStatus.toNat 48 ||| put k.cut.toNat 0
  | 0x508 => ckptWord k.newest
  | 0x510 => ckptWord k.older
  | 0x518 => put k.committed.toNat 32 ||| put k.failed.toNat 16 ||| put k.skipped.toNat 0
  | 0x520 => put k.rStatus.toNat 56 ||| put k.rShard.toNat 32 ||| (match k.offer with
      | some o => putB true 31 ||| put o.val 29
      | none => 0)
  | 0x528 => s.pairWord
  | 0x530 => four k.taken k.lostUpdates k.unmirrored 0 ||| putB k.twinLost 0
  | 0x538 => stepWord k.liveStep k.live
  | 0x600 => put s.glb.droop.toNat 2 ||| putB s.glb.strapRecovery 1 ||| putB s.glb.pairPos 0
  | 0x608 => s.glb.mgmtCfg
  | 0x610 => put s.glb.mgmtLink.toNat 0
  | 0x618 => put Config.mac0.toNat 0
  | 0x620 => put ((Config.mac0.toNat + 1) % 2 ^ 48) 0
  | _ =>
    if 0x220 ≤ off ∧ off ≤ 0x258 then wordOf s.job.digest ((off - 0x220) / 8)
    else if 0x540 ≤ off ∧ off ≤ 0x5B8 then wordOf k.liveMap ((off - 0x540) / 8)
    else 0

/-- GLB_ERR_SUMMARY to GLB_FAULT_WINDOW (R406). -/
def IntSt.reg (x : IntSt) (off : Nat) : W64 :=
  match off with
  | 0x400 => put x.errSummary.toNat 0
  | 0x408 => x.errCfg
  | 0x410 => x.errDst
  | 0x418 => put x.sent.toNat 32 ||| put x.overflow.toNat 16 ||| put x.mbox.length 0
  | 0x420 => stepWord x.replayStep (x.replayAttempt.toNat * 4096)
  | 0x428 => two x.holds x.replays
  | 0x430 => stepWord x.auditStep (x.auditMismatch.toNat * 256 + x.auditSkipped.toNat)
  | 0x438 => x.assayCfg
  | 0x440 => put x.assayRuns.toNat 32 ||| put x.assayFails.toNat 16 ||| put x.assaySkipped.toNat 8 ||| putB x.assay.isSome 0
  | 0x448 => four x.parMem x.parPort x.parSpan x.parOther
  | 0x450 => stepWord x.fwSpass x.fwTouches.toNat
  | _ => 0

/-! ### Security block -/

def MlogEntry.bytes (x : MlogEntry) (i : Nat) : List Byte :=
  toBytes (BitVec.ofNat 16 i) 2 ++ [x.kind, x.mr] ++ toBytes x.boot 4 ++ toBytes x.version 8 ++ toBytes x.digest 64 ++
  List.replicate 48 0

def SecSt.statusWord (x : SecSt) : W64 :=
  put x.extends_.toNat 32 ||| put x.mlog.length 16 ||| putB x.mlogFull 5 ||| putB x.storeFail 4 |||
  putB x.ideKeys.isSome 3 ||| putB x.jobKey.isSome 2 ||| putB x.keyO.isSome 1 ||| putB x.keyI.isSome 0

/-- The word at an offset of the SEC_DB window: the newest entry of the slot (R469). -/
def SecSt.dbWord (x : SecSt) (off : Nat) : W64 :=
  match x.db.find? fun e => e.seqNo.toNat % 4096 == off / 128 with
  | some e => rdW 64 e.bytes (off % 128)
  | none => 0

def SecSt.mlogWord (x : SecSt) (off : Nat) : W64 :=
  match x.mlog[off / 128]? with
  | some e => rdW 64 (e.bytes (off / 128)) (off % 128)
  | none => 0

/-- The registers of the security block, by offset in it. -/
def SecSt.reg (x : SecSt) (off : Nat) : W64 :=
  let ix (base : Nat) : Nat := (off - base) / 8
  match off with
  | 0x000 => x.statusWord
  | 0x008 => put x.boot.toNat 0
  | 0x010 => put x.fwSecVer.toNat 48 ||| put x.floor.toNat 32 ||| put (fld x.fwVer 31 0) 0
  | 0x018 => put x.store.moduleId.toNat 0
  | 0x080 => x.seqM
  | 0x088 => x.seqI
  | 0x090 => x.seqO
  | 0x098 => x.dbSeq
  | 0x0E0 => x.dbMirror
  | 0x0E8 => x.dbMirrorCfg
  | 0x240 => two x.deniedToken x.deniedDirect
  | 0x248 => two x.wdogResets x.wdogTimeout
  | 0x250 => x.nonceEpoch
  | _ =>
    if off < 0x020 then 0
    else if off < 0x040 then wordOf x.nonce (ix 0x020)
    else if off < 0x080 then wordOf x.nonceHead (ix 0x040)
    else if off < 0x0A0 then 0
    else if off < 0x0E0 then wordOf x.dbHead (ix 0x0A0)
    else if off < 0x100 then 0
    else if off < 0x140 then wordOf x.mrBoot (ix 0x100)
    else if off < 0x180 then wordOf x.mrCfg (ix 0x140)
    else if off < 0x1C0 then wordOf x.mrJob (ix 0x180)
    else if off < 0x200 then wordOf (optDigest x.keyI) (ix 0x1C0)
    else if off < 0x240 then wordOf (optDigest x.keyO) (ix 0x200)
    else if 0x4000 ≤ off ∧ off < 0xC000 then x.mlogWord (off - 0x4000)
    else if 0x1_0000 ≤ off ∧ off < 0x9_0000 then x.dbWord (off - 0x1_0000)
    else 0

/-! ### Power block -/

def IslSt.word (x : IslSt) : W64 :=
  put x.freq.toNat 48 ||| put x.volt.toNat 32 ||| put (x.probV % 4) 30 ||| put (x.probF % 4) 28 ||| putB x.builtin 27 |||
  putB x.inReset 26

def State.pwrWord (s : State) : W64 :=
  let p := s.pwr
  put (p.level % 256) 40 ||| put s.glb.droop.toNat 38 ||| putB p.refLost100 37 ||| putB p.refLost156 36 |||
  putB p.thermalCap 35 ||| putB p.throttle 34 ||| putB p.inputHigh 33 ||| putB p.inputLow 32

/-- The registers of the power block, by offset in it. -/
def State.pwrReg (s : State) (off : Nat) : W64 :=
  let p := s.pwr
  match off with
  | 0x00 => s.pwrWord
  | 0x08 => four 0 0 p.volts p.power
  | 0x10 => p.budget
  | 0x18 => p.cap
  | 0x20 => p.thermal
  | 0x28 => four p.capTrips p.excursions p.thermalSteps p.envelope
  | 0x30 => four 0 0 p.tempIsland p.temp
  | 0x40 => p.curveCtrl
  | _ =>
    if 0x1000 ≤ off ∧ off < 0x2000 then lookupD p.curveData ((off - 0x1000) / 8) 0
    else if 0x1_0000 ≤ off then
      match p.isl[(off - 0x1_0000) / 8]? with
      | some x => x.word
      | none => 0
    else 0

/-! ### Exchange and span -/

def State.xchReg (s : State) (off : Nat) : W64 :=
  match s.int.xch[off / 0x100]? with
  | some x => if off % 0x100 = 0 then put x.1.toNat 32 ||| put x.2.toNat 16 else 0
  | none => 0

def LaneSt.word (x : LaneSt) : W64 :=
  put (x.state % 8) 13 ||| putB x.locked 12 ||| put (x.attempts % 4) 10 ||| put x.agreed.toNat 7 ||| put x.east.toNat 4 |||
  put x.west.toNat 1

def SpanSt.reg (x : SpanSt) (off : Nat) : W64 :=
  match off with
  | 0x0 => put x.inService 16 ||| put (x.bandwidth % 65536) 0
  | 0x8 => put x.replayed.toNat 32 ||| put x.agreements.toNat 16 ||| put x.discards.toNat 0
  | _ =>
    if 0x100 ≤ off then
      match x.lanes[(off - 0x100) / 8]? with
      | some l => l.word
      | none => 0
    else 0

/-! ### Memory controllers and cache slices -/

def CtlSt.reg (x : CtlSt) (off : Nat) : W64 :=
  match off with
  | 0x00 => putB x.scrubEnv 7 ||| putB x.scrubOn 6 ||| putB x.marked.isSome 5 ||| putB x.ueSeen 4 ||| putB x.trained 1 |||
      putB x.inService 0
  | 0x08 => x.cfg
  | 0x10 => x.scrub
  | 0x18 => put x.passes.toNat 32 ||| put (x.pos % 2 ^ 32) 0
  | 0x20 => two x.scrubCe x.demandCe
  | 0x28 => two x.scrubUe x.demandUe
  | 0x30 => put x.corrections.toNat 32 ||| (match x.marked with
      | some d => put (2 ^ (d % 8)) 0
      | none => 0)
  | 0x38 => two x.rmw x.merged
  | 0x40 => put x.lastUe.toNat 0
  | 0x48 => four x.mapVersion 0 x.spareRows x.spareCols
  | _ => 0

def CacheSt.reg (x : CacheSt) (off : Nat) : W64 :=
  match off with
  | 0x00 => put x.pairs.toNat 0
  | 0x08 => x.hits
  | 0x10 => x.misses
  | 0x18 => two x.corrected x.refetch
  | _ => 0

/-! ### Envis -/

def PortSt.reg (x : PortSt) (off : Nat) : W64 :=
  let cr (i : Nat) : W16 := BitVec.ofNat 16 (x.credits.toList.getD i 0)
  match off with
  | 0x00 => put (x.state % 8) 61 ||| put x.farModule.toNat 36 ||| put x.retrains.toNat 16
  | 0x08 => x.cfg
  | 0x10 => two x.fecCorrected x.fecUncorrectable
  | 0x18 => two x.replayed x.naks
  | 0x20 => two x.rx x.tx
  | 0x28 => four x.badType x.noRoute x.unadmitted x.window
  | 0x30 => four (cr 3) (cr 2) (cr 1) (cr 0)
  | 0x38 => four (cr 7) (cr 6) (cr 5) (cr 4)
  | _ => 0

/-- The shard in progress: the lowest whose clearing has begun and has not completed. -/
def ClrSt.busy (c : ClrSt) : Option ClrShard :=
  (c.shards.filter fun r => r.phase != 0).foldl (fun (m : Option ClrShard) r => match m with
    | some y => if r.shard.toNat < y.shard.toNat then some r else m
    | none => some r) none

def ClrSt.reg (x : ClrSt) (off : Nat) : W64 :=
  match off with
  | 0x00 =>
    let r := x.busy
    put ((r.map fun r => r.shard.toNat).getD 0) 40 ||| put ((r.map fun r => r.phase % 16).getD 0) 36 |||
      put x.lastStatus.toNat 28 ||| put ((r.map fun r => if r.closed then 0 else r.arrivals.length % 256).getD 0) 20
  | 0x08 => two x.accepted x.sent
  | 0x10 => put x.carried.toNat 32 ||| put x.dropped.toNat 16 ||| put x.lost.toNat 0
  | 0x18 => put (x.pages - x.used.length) 0
  | _ => 0

/-- STATE of a peer entry: a refused peer, which is lost for every effect, reads REFUSED (R322, R339; log entry 72). -/
def PeerSt.shown (p : PeerSt) : Nat := if p.refused then 3 else p.state % 8

/-- ENV_PEERi: PORT is the port of the entry that carries its frames now, 63 when routed or none. -/
def State.peerReg (s : State) (i : Nat) : W64 :=
  match s.env.peers[i]? with
  | none => 0
  | some p =>
    if p.state = 0 then 0
    else
      let port := match s.peerEnt i with
        | some e => if e.ports = 0 then 63 else ((s.portUp i e.ports).map fun q => q.val).getD 63
        | none => 63
      put p.shown 61 ||| put port 55 ||| put p.module.toNat 43 ||| putB p.epoch 42

/-- The registers of the Envis global block, by offset from 0x05C_0000. -/
def State.envReg (s : State) (off : Nat) : W64 :=
  let n (st : Nat) : Nat := (s.env.peers.filter fun p => p.shown == st).length % 65536
  if off = 0 then s.env.cfg
  else if off = 8 then put (n 4) 32 ||| put (n 3) 16 ||| put (n 2) 0
  else if 0x1_0000 ≤ off ∧ off < 0x1_8000 then s.peerReg ((off - 0x1_0000) / 8)
  else if 0x2_0000 ≤ off then
    match s.env.clr[(off - 0x2_0000) / 0x1000]? with
    | some c => c.reg (off % 0x1000)
    | none => 0
  else 0

/-! ### Host interface -/

def HostSt.linkWord (h : HostSt) : W64 :=
  put h.rate.toNat 12 ||| put h.width.toNat 7 ||| putB h.flit 6 ||| putB h.degraded 5 ||| putB h.ideActive 4 |||
  put h.ltssm.toNat 0

def RingSt.reg (x : RingSt) (off : Nat) : W64 :=
  match off with
  | 0x00 => x.cfg
  | 0x08 => x.sq
  | 0x10 => x.cq
  | 0x18 => x.status
  | _ => 0

def HostSt.reg (h : HostSt) (off : Nat) : W64 :=
  match off with
  | 0x00 => h.linkWord
  | 0x08 => h.cfg
  | 0x10 => put h.aptStatus.toNat 56 ||| put h.aptOff.toNat 0
  | _ =>
    if 0x100 ≤ off ∧ off < 0x180 then h.aptMap.toList.getD ((off - 0x100) / 8) 0
    else if 0x1_0000 ≤ off then
      match h.rings[(off - 0x1_0000) / 0x40]? with
      | some r => r.reg (off % 0x40)
      | none => 0
    else 0

/-! ### Engine blocks -/

/-- Exception counters: INVALID, OVF_SAT and NAN_PROD of 21 bits each. -/
def excWord (inv ovf nan : BitVec 21) : W64 := put inv.toNat 42 ||| put ovf.toNat 21 ||| put nan.toNat 0

def EngArr.status (x : EngArr) : W64 :=
  put (x.rampSrc % 4) 16 ||| putB x.b.quar 14 ||| putB x.a.quar 13 ||| putB x.b.shadowValid 12 ||| putB x.a.shadowValid 11 |||
  putB x.b.ramping 10 ||| putB x.a.ramping 9 ||| putB x.b.tile.isSome 8 ||| putB x.a.tile.isSome 7

/-- ENG_ARRAY_WIDTH to ENG_TILE_COUNT and ENG_BWD_STATUS to ENG_HOME_EXC (R99, R157). -/
def EngArr.reg (x : EngArr) (off : Nat) : W64 :=
  match off with
  | 0x00 => put (x.b.width % 256) 8 ||| put (x.a.width % 256) 0
  | 0x08 => x.a.bypass
  | 0x10 => x.b.bypass
  | 0x18 => x.status
  | 0x20 => excWord x.excInv x.excOvf x.excNan
  | 0x28 => put x.excMask.toNat 0
  | 0x30 => x.a.inv
  | 0x38 => x.a.ovf
  | 0x40 => x.a.nan
  | 0x48 => x.b.inv
  | 0x50 => x.b.ovf
  | 0x58 => x.b.nan
  | 0x60 => put x.b.chkFlags.toNat 3 ||| put x.a.chkFlags.toNat 0
  | 0x68 => two x.slotWait x.shadowWait
  | 0x70 => two x.b.ramps x.a.ramps
  | 0x78 => two x.b.tiles x.a.tiles
  | 0x88 => put x.bwdLayer.toNat 24 ||| put x.bwdMb.toNat 8 ||| putB x.bwdTransposed 3 ||| putB x.bwdFrozen 2 |||
      putB x.bwdSequential 1 ||| putB x.bwdActive 0
  | 0x90 => two x.homeWait x.tilebufWait
  | 0x98 => two x.homeAdded x.homeFirst
  | 0xA0 => excWord x.homeInv x.homeOvf x.homeNan
  | _ => 0

/-- ENG_TQ_STATUS: the next tile due is the first still to be taken of the pass (R171). -/
def Engine.queueWord (x : Engine) : W64 :=
  let next : Nat × Nat := match x.seq.pass with
    | some p => (match p.take with
      | t :: _ => (t.layer % 65536, p.mb.toNat)
      | [] => (0, 0))
    | none => (0, 0)
  put next.1 24 ||| put next.2 8 ||| put (x.arr.queue.length % 64) 0

/-- ENG_CONV_COUNT and ENG_VEC_STATUS to ENG_DUPLEX (R128, R187). -/
def EngVec.reg (x : EngVec) (off : Nat) : W64 :=
  match off with
  | 0x80 => four x.convFlush x.convOvf x.convInv x.convNanBlk
  | 0xB0 => put (x.run.layer % 65536) 40 ||| put x.run.mb.toNat 24 ||| put (x.run.prog % 16) 20 ||| putB (bitAt x.duplex 0) 1 |||
      putB x.run.active 0
  | 0xB8 => excWord x.excInv x.excOvf x.excNan
  | 0xC0 => two x.tileWait x.depWait
  | 0xC8 => put x.rowLayer.toNat 32 ||| put x.rowMb.toNat 16 ||| put ((x.stats.filter fun b => !b.spilled).length % 512) 7 |||
      putB x.rowSpilling 3 ||| putB x.rowBwd 2 ||| putB (bitAt x.duplex 1) 1 ||| putB x.rowActive 0
  | 0xD0 => two x.readback x.spilled
  | 0xD8 => put x.duplex.toNat 0
  | _ => 0

/-- The oldest entry is the first of the float. -/
def Engine.floatWord (x : Engine) : W64 :=
  match x.float with
  | [] => 0
  | f :: _ => put f.mb.toNat 48 ||| put (x.float.length % 512) 31 ||| put (fld f.origin 30 0) 0

/-- ENG_SEQ_STATUS to ENG_SEQ_STALLS2 (R225); MODE is that of the engine's table in the active plane. -/
def Engine.seqReg (x : Engine) (mode : Bool) (off : Nat) : W64 :=
  let q := x.seq
  let c (i : Nat) : W16 := q.ctr.toList.getD i 0
  match off with
  | 0xE0 => put (q.row % 4096) 36 ||| put q.op.toNat 28 ||| put (q.wait % 16) 24 ||| put q.lastStatus.toNat 16 |||
      putB mode 1 ||| putB q.running 0
  | 0xE8 => four (c 3) (c 2) (c 1) (c 0)
  | 0xF0 => four (c 7) (c 6) (c 5) (c 4)
  | 0xF8 => x.floatWord
  | 0x100 => two x.sendWait x.recvWait
  | 0x108 => two x.versionWait x.floatWait
  | _ => 0

def lstateCode : LState → Nat
  | .free => 0 | .building => 1 | .ready => 2 | .current => 3 | .retired => 4

/-- Word w of a ledger entry (R216). -/
def LedgerEntry.word (x : LedgerEntry) (w : Nat) : W64 :=
  match w with
  | 0 => put (lstateCode x.state) 61 ||| putB x.published 60 ||| putB x.escrow 59 ||| putB x.owned 58 ||| put x.version.toNat 0
  | 1 => put x.shard.toNat 40 ||| put (x.refcount % 512) 31 ||| put (x.serve % 2048) 20 ||| put (x.parent % 1024) 10
  | 2 => put x.map.toNat 32 ||| put (x.pages % 2 ^ 20) 12
  | 3 => put (x.ownPages % 2 ^ 20) 32 ||| put x.mapHallmark.toNat 0
  | _ => 0

/-- ENG_VL_STATUS to ENG_AUDIT (R225, R258). -/
def EngLed.reg (x : EngLed) (off : Nat) : W64 :=
  let n (st : LState) : Nat := (x.entries.filter fun e => e.2.state == st).length % 2048
  match off with
  | 0x110 => put (n .retired) 33 ||| put (n .current) 22 ||| put (n .ready) 11 ||| put (n .building) 0
  | 0x118 => two x.freed x.created
  | 0x120 => two x.pfMiss x.pfImplicit
  | 0x128 => put x.auditFails.toNat 48 ||| put (x.freePages % 2 ^ 29) 0
  | 0x130 => put x.updShard.toNat 40 ||| put (x.updPhase % 16) 36 ||| put x.updLast.toNat 28
  | 0x138 => two x.updated x.fetched
  | 0x140 => put x.notResident.toNat 32 ||| put x.staleUses.toNat 16 ||| put x.refusals.toNat 0
  | 0x148 => put x.auditPasses.toNat 32 ||| put x.auditPageFails.toNat 16
  | _ => 0

/-- ENG_SRAM_ERR to ENG_FLOG255 (R285, R407); the probation steps are those of the engine's island. -/
def EngInt.reg (x : EngInt) (isl : IslSt) (off : Nat) : W64 :=
  let u (i : Fin 5) : Nat := x.units[i.val].strikes % 4
  match off with
  | 0x150 => four x.storeCe x.accCe x.otherCe x.sramUe
  | 0x158 => put x.transients.toNat 32 ||| put x.neighbourFail.toNat 16
  | 0x160 => put (u 4) 14 ||| put (u 3) 12 ||| put (u 2) 10 ||| put (u 1) 8 ||| put (u 0) 6 ||| put (isl.probF % 4) 2 |||
      put (isl.probV % 4) 0
  | 0x168 => put x.parResends.toNat 32 ||| put x.parBroken.toNat 16
  | 0x170 => stepWord x.sampleStep (x.auditor.toNat * 512 + x.sampleBad.toNat)
  | 0x178 => put x.flogCount.toNat 32 ||| put (x.flogHead % 64) 0
  | _ =>
    if 0x200 ≤ off ∧ off < 0xA00 then
      match x.flog[(off - 0x200) / 32]? with
      | some r => rdW 64 r.bytes (off % 32)
      | none => 0
    else 0

/-- ENG_CKPT and ENG_ESCROW (R444). -/
def EngEsc.reg (x : EngEsc) (off : Nat) : W64 :=
  match off with
  | 0x180 => two x.drained x.wait
  | 0x188 => put x.freePages.length 32 ||| put x.marked.length 0
  | _ => 0

/-- The four registers of a till (R226). -/
def TillSt.reg (x : TillSt) (isOut : Bool) (off : Nat) : W64 :=
  match off with
  | 0x00 => put (x.state % 8) 61 ||| putB x.mismatch 60 ||| putB x.peerLost 59 |||
      (if isOut then put (x.credits % 512) 39
       else put (x.o % 512) 39 ||| put (x.r % 512) 30 ||| put (x.s % 65536) 14)
  | 0x08 => put x.cMsgs.toNat 32 ||| put x.cResends.toNat 16 ||| put x.cOver.toNat 0
  | 0x10 => stepWord x.headOrigin x.headMb.toNat
  | 0x18 => two x.reloads x.odWait
  | _ => 0

/-- The registers of a channel (R302); DMA_CTRL reads as zero. -/
def ChanSt.reg (x : ChanSt) (off : Nat) : W64 :=
  match off with
  | 0x00 => x.statusWord
  | 0x10 => x.head
  | 0x18 => x.cur
  | 0x20 => x.cfg
  | 0x28 => put x.slips.toNat 32 ||| put x.halts.toNat 16 ||| put x.stops.toNat 0
  | 0x30 => put x.haltStatus.toNat 56 ||| put x.haltOffset.toNat 0
  | 0x38 => two x.pinWait x.limitWait
  | _ => 0

/-- The registers of an engine block, by offset in it. -/
def State.engReg (s : State) (e : EngineId) (off : Nat) : W64 :=
  let x := s.eng[e.val]
  if off < 0x080 ∨ (0x088 ≤ off ∧ off < 0x0A8) then x.arr.reg off
  else if off = 0x0A8 then x.queueWord
  else if off < 0x0E0 then x.vec.reg off
  else if off < 0x110 then x.seqReg (match s.table e with
    | some t => t.stashed
    | none => false) off
  else if off < 0x150 then x.led.reg off
  else if off < 0x180 ∨ (0x200 ≤ off ∧ off < 0xA00) then x.int.reg s.pwr.isl[(islEngine e).val] off
  else if off < 0x200 then x.esc.reg off
  else if 0x1000 ≤ off ∧ off < 0x1800 then
    let t : TillId := Fin.ofNat 64 ((off - 0x1000) / 0x20)
    (x.tills[t.val]).reg (match s.tillCfg e.val t.val with
      | some d => d.isOut
      | none => false) (off % 0x20)
  else if 0x2000 ≤ off ∧ off < 0x2200 then
    let c : ChanId := Fin.ofNat 8 ((off - 0x2000) / 0x40)
    (x.dma[c.val]).reg (off % 0x40)
  else if 0x8000 ≤ off ∧ off < 0x1_0000 then
    (x.ledger ((off - 0x8000) / 0x20)).word (off % 0x20 / 8)
  else 0

/-! ### Blocks -/

/-- The island is held in reset. -/
def State.islHeld (s : State) (i : IslandIdx) : Bool := s.pwr.isl[i.val].inReset

/-- A memory block answers under R516 when its island is in reset, or its unit has trained and left service. -/
def State.ctlGone (s : State) (c : CtlId) : Bool := s.islHeld (islCtl c) || (!s.ctlOk c && (s.ctl c).trained)

/-- The register block of a unit that is held in reset or quarantined (R516). -/
def State.regGone (s : State) (off : Nat) : Bool :=
  if 0x30_0000 ≤ off ∧ off < 0x30_1000 then s.islHeld (Fin.ofNat 260 (128 + (off - 0x30_0000) / 0x100))
  else if 0x38_0000 ≤ off ∧ off < 0x38_1000 then s.islHeld (islSpan false) || s.islHeld (islSpan true)
  else if 0x44_0000 ≤ off ∧ off < 0x44_8000 then s.islHeld (Fin.ofNat 260 (200 + (off - 0x44_0000) / 0x1000))
  else if 0x40_0000 ≤ off ∧ off < 0x42_0000 then s.ctlGone (.vault (Fin.ofNat 32 ((off - 0x40_0000) / 0x1000)))
  else if 0x48_0000 ≤ off ∧ off < 0x4B_0000 then s.ctlGone (.far (Fin.ofNat 48 ((off - 0x48_0000) / 0x1000)))
  else if 0x50_0000 ≤ off ∧ off < 0x5C_0000 then s.islHeld (islPort (Fin.ofNat 48 ((off - 0x50_0000) / 0x4000)))
  else if 0x100_0000 ≤ off ∧ off < 0x180_0000 then
    let e : EngineId := Fin.ofNat 128 ((off - 0x100_0000) / 0x1_0000)
    s.islHeld (islEngine e) || !s.engOk e.val
  else false

/-- The value of the 64-bit register at a BAR0 offset that is a multiple of 8 (R513 to R517). -/
def State.regRead (s : State) (off : Nat) : W64 :=
  if off < 0x10_0000 then (if 0x400 ≤ off ∧ off < 0x500 then s.int.reg off else s.glbReg off)
  else if off < 0x20_0000 then s.sec.reg (off - 0x10_0000)
  else if off < 0x30_0000 then s.pwrReg (off - 0x20_0000)
  else if off < 0x38_0000 then s.xchReg (off - 0x30_0000)
  else if off < 0x40_0000 then s.span.reg (off - 0x38_0000)
  else if off < 0x42_0000 then (s.ctl (.vault (Fin.ofNat 32 ((off - 0x40_0000) / 0x1000)))).reg (off % 0x1000)
  else if off < 0x44_0000 then 0
  else if off < 0x44_8000 then (s.caches[(Fin.ofNat 8 ((off - 0x44_0000) / 0x1000)).val]).reg (off % 0x1000)
  else if off < 0x48_0000 then 0
  else if off < 0x4B_0000 then (s.ctl (.far (Fin.ofNat 48 ((off - 0x48_0000) / 0x1000)))).reg (off % 0x1000)
  else if off < 0x50_0000 then 0
  else if off < 0x5C_0000 then (s.ports[(Fin.ofNat 48 ((off - 0x50_0000) / 0x4000)).val]).reg (off % 0x4000)
  else if off < 0x60_0000 then s.envReg (off - 0x5C_0000)
  else if off < 0x70_0000 then s.host.reg (off - 0x60_0000)
  else if off < 0x100_0000 then 0
  else if off < 0x180_0000 then s.engReg (Fin.ofNat 128 ((off - 0x100_0000) / 0x1_0000)) (off % 0x1_0000)
  else 0

/-! ### Writable registers -/

/-- The registers whose "Writable by" column names a role, with their instances. -/
inductive WReg
  | errSummary | errCfg | errDst | assayCfg | pair | mgmtCfg | identity | dbMirror | dbMirrorCfg
  | budget | cap | thermal | reset | curveCtrl
  | curveData (i : Nat)
  | memCfg (c : CtlId) | memScrub (c : CtlId)
  | envCfg (p : PortId) | envGlb | hstCfg
  | aptMap (k : Fin 16)
  | ringCfg (r : RingId) | ringSq (r : RingId) | ringCq (r : RingId)
  | excMask (e : EngineId) | duplex (e : EngineId) | chkFlags (e : EngineId)
  | colFlags (e : EngineId) (arr : ArrId) (kind : Fin 3)
  | dmaCtrl (e : EngineId) (c : ChanId) | dmaHead (e : EngineId) (c : ChanId) | dmaCfg (e : EngineId) (c : ChanId)
deriving DecidableEq, Repr

/-- The role that may write a register: 1 installer, 2 operator. -/
def wregRole : WReg → Byte
  | .aptMap _ | .excMask _ | .duplex _ | .chkFlags _ | .colFlags _ _ _ | .dmaCtrl _ _ | .dmaHead _ _ | .dmaCfg _ _ => 2
  | _ => 1

/-- Access RW-L (R6). -/
def wregLocks : WReg → Bool
  | .pair | .identity | .excMask _ | .duplex _ => true
  | _ => false

/-- The writable register of a controller block. -/
def ctlWreg (c : CtlId) (off : Nat) : Option WReg :=
  match off with
  | 0x08 => some (.memCfg c)
  | 0x10 => some (.memScrub c)
  | _ => none

def engWreg (e : EngineId) (off : Nat) : Option WReg :=
  match off with
  | 0x28 => some (.excMask e)
  | 0x30 => some (.colFlags e .a 0)
  | 0x38 => some (.colFlags e .a 1)
  | 0x40 => some (.colFlags e .a 2)
  | 0x48 => some (.colFlags e .b 0)
  | 0x50 => some (.colFlags e .b 1)
  | 0x58 => some (.colFlags e .b 2)
  | 0x60 => some (.chkFlags e)
  | 0xD8 => some (.duplex e)
  | _ =>
    if 0x2000 ≤ off ∧ off < 0x2200 then
      let c : ChanId := Fin.ofNat 8 ((off - 0x2000) / 0x40)
      match off % 0x40 with
      | 0x08 => some (.dmaCtrl e c)
      | 0x10 => some (.dmaHead e c)
      | 0x20 => some (.dmaCfg e c)
      | _ => none
    else none

/-- The writable register of the host interface. -/
def hostWreg (off : Nat) : Option WReg :=
  if off = 0x08 then some .hstCfg
  else if 0x100 ≤ off ∧ off < 0x180 then some (.aptMap (Fin.ofNat 16 ((off - 0x100) / 8)))
  else if 0x1_0000 ≤ off ∧ off < 0x1_1000 then
    let r : RingId := Fin.ofNat 64 ((off - 0x1_0000) / 0x40)
    match off % 0x40 with
    | 0x00 => some (.ringCfg r)
    | 0x08 => some (.ringSq r)
    | 0x10 => some (.ringCq r)
    | _ => none
  else none

/-- The register at an offset, when a role may write it. -/
def wregAt (off : Nat) : Option WReg :=
  match off with
  | 0x400 => some .errSummary
  | 0x408 => some .errCfg
  | 0x410 => some .errDst
  | 0x438 => some .assayCfg
  | 0x528 => some .pair
  | 0x608 => some .mgmtCfg
  | 0x10_0018 => some .identity
  | 0x10_00E0 => some .dbMirror
  | 0x10_00E8 => some .dbMirrorCfg
  | 0x20_0010 => some .budget
  | 0x20_0018 => some .cap
  | 0x20_0020 => some .thermal
  | 0x20_0038 => some .reset
  | 0x20_0040 => some .curveCtrl
  | 0x5C_0000 => some .envGlb
  | _ =>
    if off % 8 ≠ 0 then none
    else if 0x20_1000 ≤ off ∧ off < 0x20_2000 then some (.curveData ((off - 0x20_1000) / 8))
    else if 0x40_0000 ≤ off ∧ off < 0x42_0000 then ctlWreg (.vault (Fin.ofNat 32 ((off - 0x40_0000) / 0x1000))) (off % 0x1000)
    else if 0x48_0000 ≤ off ∧ off < 0x4B_0000 then ctlWreg (.far (Fin.ofNat 48 ((off - 0x48_0000) / 0x1000))) (off % 0x1000)
    else if 0x50_0000 ≤ off ∧ off < 0x5C_0000 then
      (if off % 0x4000 = 8 then some (.envCfg (Fin.ofNat 48 ((off - 0x50_0000) / 0x4000))) else none)
    else if 0x60_0000 ≤ off ∧ off < 0x70_0000 then hostWreg (off - 0x60_0000)
    else if 0x100_0000 ≤ off ∧ off < 0x180_0000 then
      engWreg (Fin.ofNat 128 ((off - 0x100_0000) / 0x1_0000)) (off % 0x1_0000)
    else none

/-! ### Writes -/

/-- GLB_ERR_SUMMARY: each 1 clears its bit; a change signals MSI-X vector 64 (R6, R356). -/
def State.clearErr (s : State) (v : W64) : State :=
  let new := s.int.errSummary &&& ~~~(v.setWidth 13)
  if new = s.int.errSummary then s else (s.modInt fun x => { x with errSummary := new }).emit (.msix 64)

/-- MEM_SCRUB: enable and rate; while the rate comes from a curve the new rate waits for the next boundary (R276). -/
def State.writeScrub (s : State) (c : CtlId) (v : W64) : State :=
  let curve := s.pwr.curves.any fun h => h.kind == 0x0A
  s.modCtl c fun m => { m with
    scrub := v &&& 0x1_FFFF
    scrubOn := bitAt v 16 && m.inService
    rate := if curve && !m.scrubEnv then m.rate else fld v 15 0 }

/-- PWR_RESET (R487): KIND 1 and 2 ask for a module or half reset, KIND 3 resets an engine (R489), KIND 4 the bursar. -/
def State.writeReset (s : State) (v : W64) : CmdOut :=
  let t := fld v 15 8
  match fld v 2 0 with
  | 1 => cmdDone .ok (s.modGlb fun g => { g with resetDue := 1 })
  | 2 => cmdDone .ok (if t < 2 then s.modGlb fun g => { g with resetDue := 2 + t } else s)
  | 3 =>
    if t < 128 then
      let e : EngineId := Fin.ofNat 128 t
      if s.engResetOk e then cmdDone .ok (engineReset e s) else cmdDone .stateConflict s
    else cmdDone .ok s
  | 4 => { cmdDone .ok s with after := State.bursarReset }
  | _ => cmdDone .ok s

/-- PWR_CURVE_CTRL is RW: a write stores its fields (R6); with COMMIT set it commits the staging window (R482). -/
def State.writeCurveCtrl (s : State) (v : W64) : CmdOut :=
  let word : W64 := v &&& 0xFF00_0000_0001_FFFF
  if bitAt v 16 then
    let r := curveCommit (BitVec.ofNat 8 (fld v 7 0)) (BitVec.ofNat 8 (fld v 15 8)) word s
    cmdDone r.1 r.2
  else cmdDone .ok (s.modPwr fun p => { p with curveCtrl := word })

/-- DMA_CTRL (R302): exactly one of START, STOP and RESUME, on channels 6 and 7. A slip in host memory is given with the
command. -/
def State.writeDmaCtrl (s : State) (e : EngineId) (c : ChanId) (v : W64) (host : Slip) : State :=
  if c.val < 6 then s
  else
    match fld v 2 0 with
    | 0 => s
    | 1 => dmaStart e c host s
    | 2 => dmaStop e c false s
    | 4 => dmaResume e c host s
    | _ => s.chanRefuse e c

def clearFlags (x : ArraySt) (kind : Fin 3) (v : W64) : ArraySt :=
  match kind with
  | 0 => { x with inv := x.inv &&& ~~~v }
  | 1 => { x with ovf := x.ovf &&& ~~~v }
  | 2 => { x with nan := x.nan &&& ~~~v }

/-- Writes to the registers of an engine. -/
def State.writeEng (s : State) (r : WReg) (v : W64) (host : Slip) : State :=
  match r with
  | .excMask e => s.modArr e fun x => { x with excMask := v.setWidth 3 }
  | .duplex e => s.modVec e fun x => { x with duplex := v.setWidth 2 }
  | .chkFlags e => s.modArr e fun x => { x with
      a := { x.a with chkFlags := x.a.chkFlags &&& ~~~(v.setWidth 3) }
      b := { x.b with chkFlags := x.b.chkFlags &&& ~~~((v >>> 3).setWidth 3) } }
  | .colFlags e .a k => s.modArr e fun x => { x with a := clearFlags x.a k v }
  | .colFlags e .b k => s.modArr e fun x => { x with b := clearFlags x.b k v }
  | .dmaCtrl e c => s.writeDmaCtrl e c v host
  | .dmaHead e c => if c.val < 6 then s else s.modChan e c fun x => { x with head := v }
  | .dmaCfg e c => s.modChan e c fun x => { x with cfg := v &&& 0x3F07 }
  | _ => s

/-- GLB_MGMT_CFG: an MCTP EtherType equal to that of error frames is refused (R512). -/
def State.writeMgmt (s : State) (v : W64) : CmdOut :=
  if fld v 15 0 = fld s.int.errCfg 15 0 then cmdDone .stateConflict s
  else cmdDone .ok (s.modGlb fun g => { g with mgmtCfg := v &&& 0x7F_FFFF })

/-- SEC_IDENTITY: MODULE_ID goes to the security store (R447, R468). -/
def State.writeIdentity (s : State) (v : W64) : State :=
  s.modSec fun x => { x with store := { x.store with moduleId := v.setWidth 12 } }

/-- A write by the role that the register names (R5, R6): reserved fields are ignored. -/
def State.regStore (s : State) (r : WReg) (v : W64) (host : Slip) : CmdOut :=
  match r with
  | .errSummary => cmdDone .ok (s.clearErr v)
  | .errCfg => cmdDone .ok (s.modInt fun x => { x with errCfg := v &&& 0x3_FFFF })
  | .errDst => cmdDone .ok (s.modInt fun x => { x with errDst := v &&& 0xFFFF_FFFF_FFFF })
  | .assayCfg => cmdDone .ok (s.modInt fun x => { x with assayCfg := v &&& 0xFFFF_FFFF_FFFF })
  | .pair => cmdDone .ok (s.modCkpt fun k => { k with pairValid := bitAt v 63, twin := v.setWidth 12 })
  | .mgmtCfg => s.writeMgmt v
  | .identity => cmdDone .ok (s.writeIdentity v)
  | .dbMirror => cmdDone .ok (s.modSec fun x => { x with dbMirror := v })
  | .dbMirrorCfg => cmdDone .ok (s.modSec fun x => { x with dbMirrorCfg := v &&& 0x8000_0000_0000_000F })
  | .budget => cmdDone .ok (s.modPwr fun p => { p with budget := v &&& 0xFFFF_FFFF })
  | .cap => cmdDone .ok (s.modPwr fun p => { p with cap := v &&& 0x7_FFFF })
  | .thermal => cmdDone .ok (s.modPwr fun p => { p with thermal := v &&& 0xFF })
  | .reset => s.writeReset v
  | .curveCtrl => s.writeCurveCtrl v
  | .curveData i => cmdDone .ok (s.modPwr fun p => { p with
      curveData := if v = 0 then assocDel p.curveData i else assocSet p.curveData i v })
  | .memCfg c => cmdDone .ok (s.modCtl c fun m => { m with cfg := v &&& 0xFFFF_FFFF })
  | .memScrub c => cmdDone .ok (s.writeScrub c v)
  | .envCfg p => cmdDone .ok (s.modPort p fun x => { x with cfg := v &&& 0xFFFF_00FF })
  | .envGlb =>
    let env := s.env
    cmdDone .ok { s with env := { env with cfg := v &&& 0xFFFF_FFFF } }
  | .hstCfg => cmdDone .ok (s.modHost fun h => { h with cfg := v &&& 1 })
  | .aptMap k => cmdDone .ok (s.writeApt k v)
  | .ringCfg r => cmdDone .ok (s.writeRing r v)
  | .ringSq r => cmdDone .ok (s.modRing r fun x => { x with sq := v })
  | .ringCq r => cmdDone .ok (s.modRing r fun x => { x with cq := v })
  | r => cmdDone .ok (s.writeEng r v host)

/-- The register access of a REG_WRITE, after its token (R449, R515, R516). -/
def State.regAccess (s : State) (off : Nat) (role : Byte) (v : W64) (host : Slip) : CmdOut :=
  let o : CmdOut :=
    if off % 8 ≠ 0 ∨ s.regGone off = true then cmdDone .stateConflict s
    else
      match wregAt off with
      | none => cmdDone .denied s
      | some r =>
        if wregRole r ≠ role then cmdDone .denied s
        else if wregLocks r && s.job.locked then cmdDone .stateConflict s
        else s.regStore r v host
  { o with target := put off 0 }

/-- REG_WRITE (0x22). -/
def regWriteAt (c : Cmd) (off : Nat) (s : State) : State :=
  s.command 0x22 [0, 1, 2] c fun _ role s => s.regAccess off role c.arg1 (slipOfBytes c.payload)

def regOff (c : Cmd) : Nat := fld c.arg0 25 0

def regWrite (c : Cmd) (s : State) : State := regWriteAt c (regOff c) s

def execRegWrite (c : Cmd) (s : State) : Res := .next (regWrite c s)

/-- A command that is the REG_WRITE of certain registers and values: by its token, its role and the locks of R6 and R7. An
entry that writes anything else is not this command. -/
def regWriteIf (here : Bool) (c : Cmd) (s : State) : Res := .next (if here then regWriteAt c (regOff c) s else s)

/-- The writable register that an entry names. -/
def cmdReg (c : Cmd) : Option WReg := wregAt (regOff c)

/-- SEC_IDENTITY_WRITE: the REG_WRITE that names SEC_IDENTITY. -/
def execSecIdentityWrite (c : Cmd) (s : State) : Res := regWriteIf (cmdReg c == some .identity) c s

/-- MGMT_CFG_WRITE: the REG_WRITE that names GLB_MGMT_CFG. -/
def execMgmtCfgWrite (c : Cmd) (s : State) : Res := regWriteIf (cmdReg c == some .mgmtCfg) c s

/-- APERTURE_MAP_WRITE: the REG_WRITE that names HST_APT_MAP0 to HST_APT_MAP15. -/
def execApertureMapWrite (c : Cmd) (s : State) : Res :=
  regWriteIf (match cmdReg c with
    | some (.aptMap _) => true
    | _ => false) c s

/-- A write of HST_RING_CFG with the given ENABLE. -/
def cmdRing (c : Cmd) (enable : Bool) : Bool :=
  match cmdReg c with
  | some (.ringCfg _) => bitAt c.arg1 63 == enable
  | _ => false

/-- RING_ENABLE: the REG_WRITE of HST_RING_CFG that sets ENABLE (R347). -/
def execRingEnable (c : Cmd) (s : State) : Res := regWriteIf (cmdRing c true) c s

/-- RING_DISABLE: the REG_WRITE of HST_RING_CFG that clears ENABLE. -/
def execRingDisable (c : Cmd) (s : State) : Res := regWriteIf (cmdRing c false) c s

/-- A write of DMA_CTRL with a bit set (R302). -/
def cmdDma (c : Cmd) (bit : Nat) : Bool :=
  match cmdReg c with
  | some (.dmaCtrl _ _) => bitAt c.arg1 bit
  | _ => false

/-- DMA_START: the REG_WRITE of DMA_CTRL that sets START. -/
def execDmaStart (c : Cmd) (s : State) : Res := regWriteIf (cmdDma c 0) c s

/-- DMA_STOP: the request of a channel's issuer, or the REG_WRITE of DMA_CTRL that sets STOP (R298). -/
def execDmaStop (w : StopOf) (s : State) : Res :=
  match w with
  | .issuer e ch => .next (dmaStop e ch true s)
  | .write c => regWriteIf (cmdDma c 1) c s

/-- DMA_RESUME: the REG_WRITE of DMA_CTRL that sets RESUME (R301). -/
def execDmaResume (c : Cmd) (s : State) : Res := regWriteIf (cmdDma c 2) c s

/-- CURVE_COMMIT: the REG_WRITE of PWR_CURVE_CTRL with COMMIT set (R482). -/
def execCurveCommit (c : Cmd) (s : State) : Res := regWriteIf (cmdReg c == some .curveCtrl && bitAt c.arg1 16) c s

/-- ENGINE_RESET: the REG_WRITE of PWR_RESET with KIND 3 (R489). -/
def execEngineReset (c : Cmd) (s : State) : Res := regWriteIf (cmdReg c == some .reset && fld c.arg1 2 0 == 3) c s

/-- BURSAR_RESET: the REG_WRITE of PWR_RESET with KIND 4 (R487, R492). -/
def execBursarReset (c : Cmd) (s : State) : Res := regWriteIf (cmdReg c == some .reset && fld c.arg1 2 0 == 4) c s

/-- REG_READ (0x2A, R517). -/
def regReadCmd (c : Cmd) (s : State) : State :=
  s.freeCommand 0x2A c fun s =>
    let off := regOff c
    if off % 8 ≠ 0 ∨ s.regGone off = true then (.stateConflict, 0, s) else (.ok, s.regRead off, s)

def execRegRead (c : Cmd) (s : State) : Res := .next (regReadCmd c s)

def directCode : DirectSrc → Byte
  | .bar0 => 0x42
  | .mgmt => 0x40
  | .smbus => 0x41

/-- REG_DIRECT_WRITE (R7, R449, R515): no effect; recorded as refused where some role may write the register. -/
def regDirectWrite (src : DirectSrc) (off : BitVec 26) (val : W64) (s : State) : State :=
  if s.off then s
  else
    match wregAt (off.toNat / 8 * 8) with
    | none => s
    | some _ =>
      (s.modSec fun x => { x with deniedDirect := satAdd x.deniedDirect 1 }).dbAppend dbRefused roleNone (directCode src)
        .denied 0 (put off.toNat 0) (Config.sha3_512 (toBytes (put off.toNat 0) 8 ++ toBytes val 8))

def execRegDirectWrite (src : DirectSrc) (off : BitVec 26) (val : W64) (s : State) : Res :=
  .next (regDirectWrite src off val s)

end Sys2Proof.Machine
end

