-- ==== Sys2Proof/Machine/Commands.lean ====
section
/-! DEFINITION. The command arbiter and management messages (12 R349, R353; 15 R455; 17 R506, R507). -/

namespace Sys2Proof.Machine

/-- A command entry evaluated by its OPC (R59, R349); a reserved OPC completes with STATE_CONFLICT. -/
def commandByOpc (opc : Byte) (c : Cmd) (first : Slip) (img : CkptImage) (s : State) : State :=
  match opc.toNat with
  | 0x01 => charterBegin c s
  | 0x02 => charterChunk c none s
  | 0x03 => charterEnd c s
  | 0x04 => charterDiscard c s
  | 0x05 => activate c s
  | 0x06 => run c s
  | 0x07 => pause c s
  | 0x08 => planeSwitch c s
  | 0x09 => checkpointTake c s
  | 0x0A => restore c img s
  | 0x0B => resume c s
  | 0x0C => release c s
  | 0x0D => abort c s
  | 0x0E => jobStatus c s
  | 0x20 => dmaChain c first s
  | 0x21 => assayLoad c s
  | 0x22 => regWrite c s
  | 0x23 => keyEnrol c s
  | 0x24 => fuseMapLoad c s
  | 0x25 => fwWrite c s
  | 0x26 => decommission c s
  | 0x27 => svnCommit c s
  | 0x28 => certInstall c s
  | 0x29 => reportCmd c s
  | 0x2A => regReadCmd c s
  | _ => s.freeCommand opc c fun s => (.stateConflict, 0, s)

/-- A CHARTER_CHUNK that waits for channel 7 (R351). -/
def State.mustWait (s : State) (opc : Byte) : Bool := opc == 0x02 && s.chunkWaits

/-- The ring whose turn it is, round robin over the 64 rings and the path of R455 from the one taken last. -/
def State.arbNext (s : State) : Option (Fin 65) :=
  let order : List (Fin 65) := (List.range 65).map fun k => Fin.ofNat 65 (s.host.arb + 1 + k)
  order.find? fun i => if i.val < 64 then s.entryDue (Fin.ofNat 64 i.val) 0 else !s.host.path.isEmpty

/-! ### Management messages -/

/-- A message can arrive: over SMBus, or in a frame of the MCTP EtherType on a port that has link. -/
def State.mctpHeard (s : State) (m : MctpMsg) : Bool :=
  m.smbus || (m.etherType.toNat == fld s.glb.mgmtCfg 15 0 && bitAt s.glb.mgmtLink (if m.port then 8 else 0))

/-- Commands and DOE objects come in messages of the vendor-defined type with the identifier 0x1F3A, PLDM in its own type (R455, R507;
log entry 193). -/
def mctpTyped (m : MctpMsg) : Bool :=
  match m.body with
  | .command _ _ _ _ => m.msgType == 0x7E && m.vendor == 0x1F3A
  | .doe _ => m.msgType == 0x7E && m.vendor == 0x1F3A
  | .pldmBase _ => m.msgType == 0x01
  | .pldmPlatform _ _ => m.msgType == 0x01

/-- The second copy of a message that both ports carry. -/
def State.mctpCopy (s : State) (m : MctpMsg) : Bool :=
  !m.smbus && s.sec.mctpLast == some (m.msgTag, m.endpoint, !m.port)

/-- An answer on the path of the request. -/
def State.mctpAnswer (s : State) (m : MctpMsg) (body : List Byte) : State :=
  s.emit (.mctp m.smbus m.port m.msgTag m.endpoint body)

/-- A message taken by its type. -/
def State.mctpTake (s : State) (m : MctpMsg) : State :=
  match m.body with
  | .command opc c first img => commandByOpc opc { c with src := if m.smbus then .smbus else .mgmt m.port } first img s
  | .pldmBase _ =>
    let (b, s) := s.pldmBaseAnswer
    s.mctpAnswer m b
  | .pldmPlatform k load =>
    let s := s.shedLoad load
    s.mctpAnswer m (s.pldmSensor k)
  | .doe o =>
    match doeParse o with
    | none => s
    | some q =>
      let (b, s) := s.doeAnswer q
      s.mctpAnswer m b

/-- A command enters the ring of the path of R455; a DOE object waits there for a bursar in reset (R455, R492, R507). -/
def State.mctpWaits (s : State) (m : MctpMsg) : Bool :=
  match m.body with
  | .command _ _ _ _ => true
  | .doe _ => s.noBursar
  | _ => false

/-- MCTP_MESSAGE: a command joins the arbiter's 65th ring, another message is answered; a PLDM message finds no answer while the bursar
is in reset. -/
def mctpMessage (m : MctpMsg) (s : State) : State :=
  if s.mctpHeard m = false ∨ mctpTyped m = false ∨ s.glb.ready = false then s
  else if s.mctpCopy m then s.modSec fun x => { x with mctpLast := none }
  else
    let s := if m.smbus then s else s.modSec fun x => { x with mctpLast := some (m.msgTag, m.endpoint, m.port) }
    if s.mctpWaits m then s.modHost fun h => { h with path := h.path ++ [m] }
    else if s.noBursar then s
    else s.mctpTake m

def execMctpMessage (m : MctpMsg) (s : State) : Res := .next (mctpMessage m s)

/-! ### The arbiter (R353) -/

/-- COMMAND_ARBITRATE: the entry at the head of the ring whose turn it is, or the next message of the path of R455. -/
def commandArbitrate (w : ArbEntry) (s : State) : State :=
  if s.noBursar then s
  else match w with
    | .ring r opc c first img =>
      if s.arbNext ≠ some ⟨r.val, by omega⟩ ∨ s.mustWait opc = true then s
      else
        let s := (s.modRing r RingSt.pop).modHost fun h => { h with arb := r.val }
        commandByOpc opc { c with src := .ring r } first img s
    | .path =>
      match s.host.path with
      | [] => s
      | m :: rest =>
        let waits := match m.body with
          | .command opc _ _ _ => s.mustWait opc
          | _ => false
        if s.arbNext ≠ some 64 ∨ waits = true then s
        else (s.modHost fun h => { h with arb := 64, path := rest }).mctpTake m

def execCommandArbitrate (w : ArbEntry) (s : State) : Res := .next (commandArbitrate w s)

end Sys2Proof.Machine
end

