-- ==== Sys2Proof/Machine/Dispatch.lean ====
section
/-! DEFINITION. The commands and their meanings, one arm per constructor of Instr. -/

namespace Sys2Proof.Machine

/-- The effect of a command on everything but the queue. -/
def exec (i : Instr) (s : State) : Host.Outcome State Fault Refusal :=
  match i with
  | .charterBegin c => Sys2Proof.Machine.execCharterBegin c s
  | .charterChunk c cut => Sys2Proof.Machine.execCharterChunk c cut s
  | .charterEnd c => Sys2Proof.Machine.execCharterEnd c s
  | .verificationDone => Sys2Proof.Machine.execVerificationDone s
  | .charterDiscard c => Sys2Proof.Machine.execCharterDiscard c s
  | .activate c => Sys2Proof.Machine.execActivate c s
  | .activationDone => Sys2Proof.Machine.execActivationDone s
  | .run c => Sys2Proof.Machine.execRun c s
  | .pause c => Sys2Proof.Machine.execPause c s
  | .planeSwitch c => Sys2Proof.Machine.execPlaneSwitch c s
  | .checkpointTake c => Sys2Proof.Machine.execCheckpointTake c s
  | .restore c img => Sys2Proof.Machine.execRestore c img s
  | .restoreDone => Sys2Proof.Machine.execRestoreDone s
  | .resume c => Sys2Proof.Machine.execResume c s
  | .release c => Sys2Proof.Machine.execRelease c s
  | .releaseDone => Sys2Proof.Machine.execReleaseDone s
  | .abort c => Sys2Proof.Machine.execAbort c s
  | .jobStatus c => Sys2Proof.Machine.execJobStatus c s
  | .dmaChain c first => Sys2Proof.Machine.execDmaChain c first s
  | .assayLoad c => Sys2Proof.Machine.execAssayLoad c s
  | .regWrite c => Sys2Proof.Machine.execRegWrite c s
  | .keyEnrol c => Sys2Proof.Machine.execKeyEnrol c s
  | .fuseMapLoad c => Sys2Proof.Machine.execFuseMapLoad c s
  | .fwWrite c => Sys2Proof.Machine.execFwWrite c s
  | .decommission c => Sys2Proof.Machine.execDecommission c s
  | .svnCommit c => Sys2Proof.Machine.execSvnCommit c s
  | .certInstall c => Sys2Proof.Machine.execCertInstall c s
  | .report c => Sys2Proof.Machine.execReport c s
  | .regRead c => Sys2Proof.Machine.execRegRead c s
  | .regDirectWrite src off val => Sys2Proof.Machine.execRegDirectWrite src off val s
  | .secIdentityWrite c => Sys2Proof.Machine.execSecIdentityWrite c s
  | .mgmtCfgWrite c => Sys2Proof.Machine.execMgmtCfgWrite c s
  | .smbusStop => Sys2Proof.Machine.execSmbusStop s
  | .dmaStart c => Sys2Proof.Machine.execDmaStart c s
  | .dmaStop w => Sys2Proof.Machine.execDmaStop w s
  | .dmaResume c => Sys2Proof.Machine.execDmaResume c s
  | .burstStart e ch data met sram limitWait pinWait => Sys2Proof.Machine.execBurstStart e ch data met sram limitWait pinWait s
  | .slipComplete e ch next pinWait => Sys2Proof.Machine.execSlipComplete e ch next pinWait s
  | .channelHalt e ch st offset => Sys2Proof.Machine.execChannelHalt e ch st offset s
  | .nop e => Sys2Proof.Machine.execNop e s
  | .set e => Sys2Proof.Machine.execSet e s
  | .add e => Sys2Proof.Machine.execAdd e s
  | .prefetch e => Sys2Proof.Machine.execPrefetch e s
  | .recv e waited => Sys2Proof.Machine.execRecv e waited s
  | .send e waited sram fails => Sys2Proof.Machine.execSend e waited sram fails s
  | .fwd e waited env => Sys2Proof.Machine.execFwd e waited env s
  | .bwd e waited env => Sys2Proof.Machine.execBwd e waited env s
  | .recomp e waited env => Sys2Proof.Machine.execRecomp e waited env s
  | .clear e => Sys2Proof.Machine.execClear e s
  | .update e => Sys2Proof.Machine.execUpdate e s
  | .publish e => Sys2Proof.Machine.execPublish e s
  | .stepEnd e => Sys2Proof.Machine.execStepEnd e s
  | .versionPromoteStrict e shard env => Sys2Proof.Machine.execVersionPromoteStrict e shard env s
  | .shadowSwap e arr shadowWait => Sys2Proof.Machine.execShadowSwap e arr shadowWait s
  | .arrayIdle e arr => Sys2Proof.Machine.execArrayIdle e arr s
  | .tileClose e faults sram retry slotWait bufWait => Sys2Proof.Machine.execTileClose e faults sram retry slotWait bufWait s
  | .quarantine e u => Sys2Proof.Machine.execQuarantine e u s
  | .strikeDecay e u => Sys2Proof.Machine.execStrikeDecay e u s
  | .vaultAccumulate e param band damage faults => Sys2Proof.Machine.execVaultAccumulate e param band damage faults s
  | .tileTake e tileWait sram => Sys2Proof.Machine.execTileTake e tileWait sram s
  | .vecNop x => Sys2Proof.Machine.execVecNop x s
  | .vecAdd x => Sys2Proof.Machine.execVecAdd x s
  | .sub x => Sys2Proof.Machine.execSub x s
  | .mul x => Sys2Proof.Machine.execMul x s
  | .fma x => Sys2Proof.Machine.execFma x s
  | .min x => Sys2Proof.Machine.execMin x s
  | .max x => Sys2Proof.Machine.execMax x s
  | .abs x => Sys2Proof.Machine.execAbs x s
  | .neg x => Sys2Proof.Machine.execNeg x s
  | .cmplt x => Sys2Proof.Machine.execCmplt x s
  | .cmple x => Sys2Proof.Machine.execCmple x s
  | .cmpeq x => Sys2Proof.Machine.execCmpeq x s
  | .sel x => Sys2Proof.Machine.execSel x s
  | .exp2 x => Sys2Proof.Machine.execExp2 x s
  | .log2 x => Sys2Proof.Machine.execLog2 x s
  | .rcp x => Sys2Proof.Machine.execRcp x s
  | .rsqrt x => Sys2Proof.Machine.execRsqrt x s
  | .sqrt x => Sys2Proof.Machine.execSqrt x s
  | .tanh x => Sys2Proof.Machine.execTanh x s
  | .erf x => Sys2Proof.Machine.execErf x s
  | .ld x => Sys2Proof.Machine.execLd x s
  | .st x => Sys2Proof.Machine.execSt x s
  | .gath x => Sys2Proof.Machine.execGath x s
  | .hadd x => Sys2Proof.Machine.execHadd x s
  | .rsum x => Sys2Proof.Machine.execRsum x s
  | .rmax x => Sys2Proof.Machine.execRmax x s
  | .rssq x => Sys2Proof.Machine.execRssq x s
  | .stepBoundary r => Sys2Proof.Machine.execStepBoundary r s
  | .assayWindowEnd tests => Sys2Proof.Machine.execAssayWindowEnd tests s
  | .idleAssay e tests => Sys2Proof.Machine.execIdleAssay e tests s
  | .updatePhase1 e shard => Sys2Proof.Machine.execUpdatePhase1 e shard s
  | .updatePhase2 e shard stateUe waited escrowWaited => Sys2Proof.Machine.execUpdatePhase2 e shard stateUe waited escrowWaited s
  | .normPartial peer shard step attempt p => Sys2Proof.Machine.execNormPartial peer shard step attempt p s
  | .normVerdict peer v => Sys2Proof.Machine.execNormVerdict peer v s
  | .loss peer replica step => Sys2Proof.Machine.execLoss peer replica step s
  | .live peer count step map => Sys2Proof.Machine.execLive peer count step map s
  | .linkUnit p pfx f crcOk fecBad fecCorrected => Sys2Proof.Machine.execLinkUnit p pfx f crcOk fecBad fecCorrected s
  | .retryTimeout p => Sys2Proof.Machine.execRetryTimeout p s
  | .portDown p => Sys2Proof.Machine.execPortDown p s
  | .portTrainingDone p good farModule rx => Sys2Proof.Machine.execPortTrainingDone p good farModule rx s
  | .tillData e t b => Sys2Proof.Machine.execTillData e t b s
  | .tillMessageComplete e t seqNo => Sys2Proof.Machine.execTillMessageComplete e t seqNo s
  | .objData b => Sys2Proof.Machine.execObjData b s
  | .credit e t by_ count msgBytes => Sys2Proof.Machine.execCredit e t by_ count msgBytes s
  | .msgCtrlAck w => Sys2Proof.Machine.execMsgCtrlAck w s
  | .msgCtrlResend w block => Sys2Proof.Machine.execMsgCtrlResend w block s
  | .overdraftTimeout e => Sys2Proof.Machine.execOverdraftTimeout e s
  | .requestFetch q => Sys2Proof.Machine.execRequestFetch q s
  | .requestRead q => Sys2Proof.Machine.execRequestRead q s
  | .requestRefuse q => Sys2Proof.Machine.execRequestRefuse q s
  | .fetchRetry e shard waited => Sys2Proof.Machine.execFetchRetry e shard waited s
  | .requestCommit q => Sys2Proof.Machine.execRequestCommit q s
  | .commitAck q => Sys2Proof.Machine.execCommitAck q s
  | .clearData b => Sys2Proof.Machine.execClearData b s
  | .clearWindowClose u why => Sys2Proof.Machine.execClearWindowClose u why s
  | .clearingComplete u shard => Sys2Proof.Machine.execClearingComplete u shard s
  | .reportReq peer nonce => Sys2Proof.Machine.execReportReq peer nonce s
  | .admitReport peer report cert => Sys2Proof.Machine.execAdmitReport peer report cert s
  | .peerAdmit => Sys2Proof.Machine.execPeerAdmit s
  | .kemCt peer ct => Sys2Proof.Machine.execKemCt peer ct s
  | .keyConfirm peer confirm => Sys2Proof.Machine.execKeyConfirm peer confirm s
  | .rekey peer => Sys2Proof.Machine.execRekey peer s
  | .keepalive peer => Sys2Proof.Machine.execKeepalive peer s
  | .leave peer => Sys2Proof.Machine.execLeave peer s
  | .peerLostTimeout peer => Sys2Proof.Machine.execPeerLostTimeout peer s
  | .faultEvent ev => Sys2Proof.Machine.execFaultEvent ev s
  | .replayMark island st step => Sys2Proof.Machine.execReplayMark island st step s
  | .replayRestart pageBad => Sys2Proof.Machine.execReplayRestart pageBad s
  | .replayExhausted => Sys2Proof.Machine.execReplayExhausted s
  | .auditCompare r auditorBad ownBad => Sys2Proof.Machine.execAuditCompare r auditorBad ownBad s
  | .auditVote r thirdBad => Sys2Proof.Machine.execAuditVote r thirdBad s
  | .checkpointCommit => Sys2Proof.Machine.execCheckpointCommit s
  | .commitRecordRead slots => Sys2Proof.Machine.execCommitRecordRead slots s
  | .memReadRequest ctl q => Sys2Proof.Machine.execMemReadRequest ctl q s
  | .memWriteRequest ctl q => Sys2Proof.Machine.execMemWriteRequest ctl q s
  | .narrowWrite ctl q fault => Sys2Proof.Machine.execNarrowWrite ctl q fault s
  | .mergeRetire ctl fault => Sys2Proof.Machine.execMergeRetire ctl fault s
  | .scrubRead ctl fault hottest => Sys2Proof.Machine.execScrubRead ctl fault hottest s
  | .dieMark ctl die => Sys2Proof.Machine.execDieMark ctl die s
  | .vaultOutOfService ctl die => Sys2Proof.Machine.execVaultOutOfService ctl die s
  | .parityError x got buf => Sys2Proof.Machine.execParityError x got buf s
  | .parityGiveUp x who => Sys2Proof.Machine.execParityGiveUp x who s
  | .errorFrameSend => Sys2Proof.Machine.execErrorFrameSend s
  | .mailboxOverflowFrame => Sys2Proof.Machine.execMailboxOverflowFrame s
  | .submissionDoorbell off tail => Sys2Proof.Machine.execSubmissionDoorbell off tail s
  | .completionDoorbell off head => Sys2Proof.Machine.execCompletionDoorbell off head s
  | .ringEnable c => Sys2Proof.Machine.execRingEnable c s
  | .ringDisable c => Sys2Proof.Machine.execRingDisable c s
  | .commandArbitrate w => Sys2Proof.Machine.execCommandArbitrate w s
  | .hostTillInEntry r w0 addr origin mb data tags => Sys2Proof.Machine.execHostTillInEntry r w0 addr origin mb data tags s
  | .hostTillOutEntry r w0 addr => Sys2Proof.Machine.execHostTillOutEntry r w0 addr s
  | .apertureMapWrite c => Sys2Proof.Machine.execApertureMapWrite c s
  | .apertureRead off len met => Sys2Proof.Machine.execApertureRead off len met s
  | .apertureWrite off data => Sys2Proof.Machine.execApertureWrite off data s
  | .hostLinkReset => Sys2Proof.Machine.execHostLinkReset s
  | .getReport o => Sys2Proof.Machine.execGetReport o s
  | .getCerts o => Sys2Proof.Machine.execGetCerts o s
  | .ideKem o => Sys2Proof.Machine.execIdeKem o s
  | .mctpMessage m => Sys2Proof.Machine.execMctpMessage m s
  | .pldmBase body => Sys2Proof.Machine.execPldmBase body s
  | .pldmPlatform sensor load => Sys2Proof.Machine.execPldmPlatform sensor load s
  | .flitDiscard lm east code => Sys2Proof.Machine.execFlitDiscard lm east code s
  | .widthAgreement lm west east checkOk => Sys2Proof.Machine.execWidthAgreement lm west east checkOk s
  | .laneLock lm checkOk => Sys2Proof.Machine.execLaneLock lm checkOk s
  | .powerApplied env => Sys2Proof.Machine.execPowerApplied env s
  | .inputLow => Sys2Proof.Machine.execInputLow s
  | .inputHigh => Sys2Proof.Machine.execInputHigh s
  | .inputLoss => Sys2Proof.Machine.execInputLoss s
  | .overVoltage => Sys2Proof.Machine.execOverVoltage s
  | .fastCapTrip => Sys2Proof.Machine.execFastCapTrip s
  | .budgetTick r => Sys2Proof.Machine.execBudgetTick r s
  | .excursion => Sys2Proof.Machine.execExcursion s
  | .thermalTrip => Sys2Proof.Machine.execThermalTrip s
  | .refClockLost is156 => Sys2Proof.Machine.execRefClockLost is156 s
  | .refClockPresent is156 env => Sys2Proof.Machine.execRefClockPresent is156 env s
  | .curveCommit c => Sys2Proof.Machine.execCurveCommit c s
  | .resetNAssert micros => Sys2Proof.Machine.execResetNAssert micros s
  | .perstNAssert => Sys2Proof.Machine.execPerstNAssert s
  | .perstNDeassert env => Sys2Proof.Machine.execPerstNDeassert env s
  | .moduleReset env => Sys2Proof.Machine.execModuleReset env s
  | .halfReset east env => Sys2Proof.Machine.execHalfReset east env s
  | .engineReset e => Sys2Proof.Machine.execEngineReset e s
  | .bursarReset c => Sys2Proof.Machine.execBursarReset c s
  | .watchdogExpiry => Sys2Proof.Machine.execWatchdogExpiry s
  | .recoveryAnnounce => Sys2Proof.Machine.execRecoveryAnnounce s
  | .chunk off len crc data => Sys2Proof.Machine.execChunk off len crc data s
  | .done len env => Sys2Proof.Machine.execDone len env s
  | .resetNDeassert env => Sys2Proof.Machine.execResetNDeassert env s
  | .inputNormal => Sys2Proof.Machine.execInputNormal s
  | .pcieLinkUp rate width flit => Sys2Proof.Machine.execPcieLinkUp rate width flit s
  | .mgmtLinkChange port up fec => Sys2Proof.Machine.execMgmtLinkChange port up fec s
  | .bursarUp codeOk env => Sys2Proof.Machine.execBursarUp codeOk env s
  | .thermalCooldown env => Sys2Proof.Machine.execThermalCooldown env s

end Sys2Proof.Machine
end

