-- ==== Sys2Proof/Laws/State.lean ====
section
/-! SUPPORT. What each update of one part of the state does to every field: the part that it names, and no other. -/

namespace Sys2Proof.Machine

/-! State.emit -/

@[simp] theorem State.emit_pending (s : State) (x : Emission) :
    (s.emit x).pending = s.pending := rfl
@[simp] theorem State.emit_free (s : State) (x : Emission) :
    (s.emit x).free = s.free := rfl
@[simp] theorem State.emit_out (s : State) (x : Emission) :
    (s.emit x).out = x :: s.out := rfl
@[simp] theorem State.emit_glb (s : State) (x : Emission) :
    (s.emit x).glb = s.glb := rfl
@[simp] theorem State.emit_job (s : State) (x : Emission) :
    (s.emit x).job = s.job := rfl
@[simp] theorem State.emit_int (s : State) (x : Emission) :
    (s.emit x).int = s.int := rfl
@[simp] theorem State.emit_sec (s : State) (x : Emission) :
    (s.emit x).sec = s.sec := rfl
@[simp] theorem State.emit_pwr (s : State) (x : Emission) :
    (s.emit x).pwr = s.pwr := rfl
@[simp] theorem State.emit_host (s : State) (x : Emission) :
    (s.emit x).host = s.host := rfl
@[simp] theorem State.emit_span (s : State) (x : Emission) :
    (s.emit x).span = s.span := rfl
@[simp] theorem State.emit_vaults (s : State) (x : Emission) :
    (s.emit x).vaults = s.vaults := rfl
@[simp] theorem State.emit_fars (s : State) (x : Emission) :
    (s.emit x).fars = s.fars := rfl
@[simp] theorem State.emit_caches (s : State) (x : Emission) :
    (s.emit x).caches = s.caches := rfl
@[simp] theorem State.emit_ports (s : State) (x : Emission) :
    (s.emit x).ports = s.ports := rfl
@[simp] theorem State.emit_env (s : State) (x : Emission) :
    (s.emit x).env = s.env := rfl
@[simp] theorem State.emit_upd (s : State) (x : Emission) :
    (s.emit x).upd = s.upd := rfl
@[simp] theorem State.emit_ckpt (s : State) (x : Emission) :
    (s.emit x).ckpt = s.ckpt := rfl
@[simp] theorem State.emit_eng (s : State) (x : Emission) :
    (s.emit x).eng = s.eng := rfl

/-! State.modEng -/

@[simp] theorem State.modEng_pending (s : State) (e : EngineId) (f : Engine → Engine) :
    (s.modEng e f).pending = s.pending := rfl
@[simp] theorem State.modEng_free (s : State) (e : EngineId) (f : Engine → Engine) :
    (s.modEng e f).free = s.free := rfl
@[simp] theorem State.modEng_out (s : State) (e : EngineId) (f : Engine → Engine) :
    (s.modEng e f).out = s.out := rfl
@[simp] theorem State.modEng_glb (s : State) (e : EngineId) (f : Engine → Engine) :
    (s.modEng e f).glb = s.glb := rfl
@[simp] theorem State.modEng_job (s : State) (e : EngineId) (f : Engine → Engine) :
    (s.modEng e f).job = s.job := rfl
@[simp] theorem State.modEng_int (s : State) (e : EngineId) (f : Engine → Engine) :
    (s.modEng e f).int = s.int := rfl
@[simp] theorem State.modEng_sec (s : State) (e : EngineId) (f : Engine → Engine) :
    (s.modEng e f).sec = s.sec := rfl
@[simp] theorem State.modEng_pwr (s : State) (e : EngineId) (f : Engine → Engine) :
    (s.modEng e f).pwr = s.pwr := rfl
@[simp] theorem State.modEng_host (s : State) (e : EngineId) (f : Engine → Engine) :
    (s.modEng e f).host = s.host := rfl
@[simp] theorem State.modEng_span (s : State) (e : EngineId) (f : Engine → Engine) :
    (s.modEng e f).span = s.span := rfl
@[simp] theorem State.modEng_vaults (s : State) (e : EngineId) (f : Engine → Engine) :
    (s.modEng e f).vaults = s.vaults := rfl
@[simp] theorem State.modEng_fars (s : State) (e : EngineId) (f : Engine → Engine) :
    (s.modEng e f).fars = s.fars := rfl
@[simp] theorem State.modEng_caches (s : State) (e : EngineId) (f : Engine → Engine) :
    (s.modEng e f).caches = s.caches := rfl
@[simp] theorem State.modEng_ports (s : State) (e : EngineId) (f : Engine → Engine) :
    (s.modEng e f).ports = s.ports := rfl
@[simp] theorem State.modEng_env (s : State) (e : EngineId) (f : Engine → Engine) :
    (s.modEng e f).env = s.env := rfl
@[simp] theorem State.modEng_upd (s : State) (e : EngineId) (f : Engine → Engine) :
    (s.modEng e f).upd = s.upd := rfl
@[simp] theorem State.modEng_ckpt (s : State) (e : EngineId) (f : Engine → Engine) :
    (s.modEng e f).ckpt = s.ckpt := rfl
@[simp] theorem State.modEng_eng (s : State) (e : EngineId) (f : Engine → Engine) :
    (s.modEng e f).eng = s.eng.set e.val (f s.eng[e.val]) := rfl

/-! State.modArr -/

@[simp] theorem State.modArr_pending (s : State) (e : EngineId) (f : EngArr → EngArr) :
    (s.modArr e f).pending = s.pending := rfl
@[simp] theorem State.modArr_free (s : State) (e : EngineId) (f : EngArr → EngArr) :
    (s.modArr e f).free = s.free := rfl
@[simp] theorem State.modArr_out (s : State) (e : EngineId) (f : EngArr → EngArr) :
    (s.modArr e f).out = s.out := rfl
@[simp] theorem State.modArr_glb (s : State) (e : EngineId) (f : EngArr → EngArr) :
    (s.modArr e f).glb = s.glb := rfl
@[simp] theorem State.modArr_job (s : State) (e : EngineId) (f : EngArr → EngArr) :
    (s.modArr e f).job = s.job := rfl
@[simp] theorem State.modArr_int (s : State) (e : EngineId) (f : EngArr → EngArr) :
    (s.modArr e f).int = s.int := rfl
@[simp] theorem State.modArr_sec (s : State) (e : EngineId) (f : EngArr → EngArr) :
    (s.modArr e f).sec = s.sec := rfl
@[simp] theorem State.modArr_pwr (s : State) (e : EngineId) (f : EngArr → EngArr) :
    (s.modArr e f).pwr = s.pwr := rfl
@[simp] theorem State.modArr_host (s : State) (e : EngineId) (f : EngArr → EngArr) :
    (s.modArr e f).host = s.host := rfl
@[simp] theorem State.modArr_span (s : State) (e : EngineId) (f : EngArr → EngArr) :
    (s.modArr e f).span = s.span := rfl
@[simp] theorem State.modArr_vaults (s : State) (e : EngineId) (f : EngArr → EngArr) :
    (s.modArr e f).vaults = s.vaults := rfl
@[simp] theorem State.modArr_fars (s : State) (e : EngineId) (f : EngArr → EngArr) :
    (s.modArr e f).fars = s.fars := rfl
@[simp] theorem State.modArr_caches (s : State) (e : EngineId) (f : EngArr → EngArr) :
    (s.modArr e f).caches = s.caches := rfl
@[simp] theorem State.modArr_ports (s : State) (e : EngineId) (f : EngArr → EngArr) :
    (s.modArr e f).ports = s.ports := rfl
@[simp] theorem State.modArr_env (s : State) (e : EngineId) (f : EngArr → EngArr) :
    (s.modArr e f).env = s.env := rfl
@[simp] theorem State.modArr_upd (s : State) (e : EngineId) (f : EngArr → EngArr) :
    (s.modArr e f).upd = s.upd := rfl
@[simp] theorem State.modArr_ckpt (s : State) (e : EngineId) (f : EngArr → EngArr) :
    (s.modArr e f).ckpt = s.ckpt := rfl
@[simp] theorem State.modArr_eng (s : State) (e : EngineId) (f : EngArr → EngArr) :
    (s.modArr e f).eng = s.eng.set e.val { s.eng[e.val] with arr := f s.eng[e.val].arr } := rfl

/-! State.modVec -/

@[simp] theorem State.modVec_pending (s : State) (e : EngineId) (f : EngVec → EngVec) :
    (s.modVec e f).pending = s.pending := rfl
@[simp] theorem State.modVec_free (s : State) (e : EngineId) (f : EngVec → EngVec) :
    (s.modVec e f).free = s.free := rfl
@[simp] theorem State.modVec_out (s : State) (e : EngineId) (f : EngVec → EngVec) :
    (s.modVec e f).out = s.out := rfl
@[simp] theorem State.modVec_glb (s : State) (e : EngineId) (f : EngVec → EngVec) :
    (s.modVec e f).glb = s.glb := rfl
@[simp] theorem State.modVec_job (s : State) (e : EngineId) (f : EngVec → EngVec) :
    (s.modVec e f).job = s.job := rfl
@[simp] theorem State.modVec_int (s : State) (e : EngineId) (f : EngVec → EngVec) :
    (s.modVec e f).int = s.int := rfl
@[simp] theorem State.modVec_sec (s : State) (e : EngineId) (f : EngVec → EngVec) :
    (s.modVec e f).sec = s.sec := rfl
@[simp] theorem State.modVec_pwr (s : State) (e : EngineId) (f : EngVec → EngVec) :
    (s.modVec e f).pwr = s.pwr := rfl
@[simp] theorem State.modVec_host (s : State) (e : EngineId) (f : EngVec → EngVec) :
    (s.modVec e f).host = s.host := rfl
@[simp] theorem State.modVec_span (s : State) (e : EngineId) (f : EngVec → EngVec) :
    (s.modVec e f).span = s.span := rfl
@[simp] theorem State.modVec_vaults (s : State) (e : EngineId) (f : EngVec → EngVec) :
    (s.modVec e f).vaults = s.vaults := rfl
@[simp] theorem State.modVec_fars (s : State) (e : EngineId) (f : EngVec → EngVec) :
    (s.modVec e f).fars = s.fars := rfl
@[simp] theorem State.modVec_caches (s : State) (e : EngineId) (f : EngVec → EngVec) :
    (s.modVec e f).caches = s.caches := rfl
@[simp] theorem State.modVec_ports (s : State) (e : EngineId) (f : EngVec → EngVec) :
    (s.modVec e f).ports = s.ports := rfl
@[simp] theorem State.modVec_env (s : State) (e : EngineId) (f : EngVec → EngVec) :
    (s.modVec e f).env = s.env := rfl
@[simp] theorem State.modVec_upd (s : State) (e : EngineId) (f : EngVec → EngVec) :
    (s.modVec e f).upd = s.upd := rfl
@[simp] theorem State.modVec_ckpt (s : State) (e : EngineId) (f : EngVec → EngVec) :
    (s.modVec e f).ckpt = s.ckpt := rfl
@[simp] theorem State.modVec_eng (s : State) (e : EngineId) (f : EngVec → EngVec) :
    (s.modVec e f).eng = s.eng.set e.val { s.eng[e.val] with vec := f s.eng[e.val].vec } := rfl

/-! State.modSeq -/

@[simp] theorem State.modSeq_pending (s : State) (e : EngineId) (f : SeqSt → SeqSt) :
    (s.modSeq e f).pending = s.pending := rfl
@[simp] theorem State.modSeq_free (s : State) (e : EngineId) (f : SeqSt → SeqSt) :
    (s.modSeq e f).free = s.free := rfl
@[simp] theorem State.modSeq_out (s : State) (e : EngineId) (f : SeqSt → SeqSt) :
    (s.modSeq e f).out = s.out := rfl
@[simp] theorem State.modSeq_glb (s : State) (e : EngineId) (f : SeqSt → SeqSt) :
    (s.modSeq e f).glb = s.glb := rfl
@[simp] theorem State.modSeq_job (s : State) (e : EngineId) (f : SeqSt → SeqSt) :
    (s.modSeq e f).job = s.job := rfl
@[simp] theorem State.modSeq_int (s : State) (e : EngineId) (f : SeqSt → SeqSt) :
    (s.modSeq e f).int = s.int := rfl
@[simp] theorem State.modSeq_sec (s : State) (e : EngineId) (f : SeqSt → SeqSt) :
    (s.modSeq e f).sec = s.sec := rfl
@[simp] theorem State.modSeq_pwr (s : State) (e : EngineId) (f : SeqSt → SeqSt) :
    (s.modSeq e f).pwr = s.pwr := rfl
@[simp] theorem State.modSeq_host (s : State) (e : EngineId) (f : SeqSt → SeqSt) :
    (s.modSeq e f).host = s.host := rfl
@[simp] theorem State.modSeq_span (s : State) (e : EngineId) (f : SeqSt → SeqSt) :
    (s.modSeq e f).span = s.span := rfl
@[simp] theorem State.modSeq_vaults (s : State) (e : EngineId) (f : SeqSt → SeqSt) :
    (s.modSeq e f).vaults = s.vaults := rfl
@[simp] theorem State.modSeq_fars (s : State) (e : EngineId) (f : SeqSt → SeqSt) :
    (s.modSeq e f).fars = s.fars := rfl
@[simp] theorem State.modSeq_caches (s : State) (e : EngineId) (f : SeqSt → SeqSt) :
    (s.modSeq e f).caches = s.caches := rfl
@[simp] theorem State.modSeq_ports (s : State) (e : EngineId) (f : SeqSt → SeqSt) :
    (s.modSeq e f).ports = s.ports := rfl
@[simp] theorem State.modSeq_env (s : State) (e : EngineId) (f : SeqSt → SeqSt) :
    (s.modSeq e f).env = s.env := rfl
@[simp] theorem State.modSeq_upd (s : State) (e : EngineId) (f : SeqSt → SeqSt) :
    (s.modSeq e f).upd = s.upd := rfl
@[simp] theorem State.modSeq_ckpt (s : State) (e : EngineId) (f : SeqSt → SeqSt) :
    (s.modSeq e f).ckpt = s.ckpt := rfl
@[simp] theorem State.modSeq_eng (s : State) (e : EngineId) (f : SeqSt → SeqSt) :
    (s.modSeq e f).eng = s.eng.set e.val { s.eng[e.val] with seq := f s.eng[e.val].seq } := rfl

/-! State.modLed -/

@[simp] theorem State.modLed_pending (s : State) (e : EngineId) (f : EngLed → EngLed) :
    (s.modLed e f).pending = s.pending := rfl
@[simp] theorem State.modLed_free (s : State) (e : EngineId) (f : EngLed → EngLed) :
    (s.modLed e f).free = s.free := rfl
@[simp] theorem State.modLed_out (s : State) (e : EngineId) (f : EngLed → EngLed) :
    (s.modLed e f).out = s.out := rfl
@[simp] theorem State.modLed_glb (s : State) (e : EngineId) (f : EngLed → EngLed) :
    (s.modLed e f).glb = s.glb := rfl
@[simp] theorem State.modLed_job (s : State) (e : EngineId) (f : EngLed → EngLed) :
    (s.modLed e f).job = s.job := rfl
@[simp] theorem State.modLed_int (s : State) (e : EngineId) (f : EngLed → EngLed) :
    (s.modLed e f).int = s.int := rfl
@[simp] theorem State.modLed_sec (s : State) (e : EngineId) (f : EngLed → EngLed) :
    (s.modLed e f).sec = s.sec := rfl
@[simp] theorem State.modLed_pwr (s : State) (e : EngineId) (f : EngLed → EngLed) :
    (s.modLed e f).pwr = s.pwr := rfl
@[simp] theorem State.modLed_host (s : State) (e : EngineId) (f : EngLed → EngLed) :
    (s.modLed e f).host = s.host := rfl
@[simp] theorem State.modLed_span (s : State) (e : EngineId) (f : EngLed → EngLed) :
    (s.modLed e f).span = s.span := rfl
@[simp] theorem State.modLed_vaults (s : State) (e : EngineId) (f : EngLed → EngLed) :
    (s.modLed e f).vaults = s.vaults := rfl
@[simp] theorem State.modLed_fars (s : State) (e : EngineId) (f : EngLed → EngLed) :
    (s.modLed e f).fars = s.fars := rfl
@[simp] theorem State.modLed_caches (s : State) (e : EngineId) (f : EngLed → EngLed) :
    (s.modLed e f).caches = s.caches := rfl
@[simp] theorem State.modLed_ports (s : State) (e : EngineId) (f : EngLed → EngLed) :
    (s.modLed e f).ports = s.ports := rfl
@[simp] theorem State.modLed_env (s : State) (e : EngineId) (f : EngLed → EngLed) :
    (s.modLed e f).env = s.env := rfl
@[simp] theorem State.modLed_upd (s : State) (e : EngineId) (f : EngLed → EngLed) :
    (s.modLed e f).upd = s.upd := rfl
@[simp] theorem State.modLed_ckpt (s : State) (e : EngineId) (f : EngLed → EngLed) :
    (s.modLed e f).ckpt = s.ckpt := rfl
@[simp] theorem State.modLed_eng (s : State) (e : EngineId) (f : EngLed → EngLed) :
    (s.modLed e f).eng = s.eng.set e.val { s.eng[e.val] with led := f s.eng[e.val].led } := rfl

/-! State.modEngInt -/

@[simp] theorem State.modEngInt_pending (s : State) (e : EngineId) (f : EngInt → EngInt) :
    (s.modEngInt e f).pending = s.pending := rfl
@[simp] theorem State.modEngInt_free (s : State) (e : EngineId) (f : EngInt → EngInt) :
    (s.modEngInt e f).free = s.free := rfl
@[simp] theorem State.modEngInt_out (s : State) (e : EngineId) (f : EngInt → EngInt) :
    (s.modEngInt e f).out = s.out := rfl
@[simp] theorem State.modEngInt_glb (s : State) (e : EngineId) (f : EngInt → EngInt) :
    (s.modEngInt e f).glb = s.glb := rfl
@[simp] theorem State.modEngInt_job (s : State) (e : EngineId) (f : EngInt → EngInt) :
    (s.modEngInt e f).job = s.job := rfl
@[simp] theorem State.modEngInt_int (s : State) (e : EngineId) (f : EngInt → EngInt) :
    (s.modEngInt e f).int = s.int := rfl
@[simp] theorem State.modEngInt_sec (s : State) (e : EngineId) (f : EngInt → EngInt) :
    (s.modEngInt e f).sec = s.sec := rfl
@[simp] theorem State.modEngInt_pwr (s : State) (e : EngineId) (f : EngInt → EngInt) :
    (s.modEngInt e f).pwr = s.pwr := rfl
@[simp] theorem State.modEngInt_host (s : State) (e : EngineId) (f : EngInt → EngInt) :
    (s.modEngInt e f).host = s.host := rfl
@[simp] theorem State.modEngInt_span (s : State) (e : EngineId) (f : EngInt → EngInt) :
    (s.modEngInt e f).span = s.span := rfl
@[simp] theorem State.modEngInt_vaults (s : State) (e : EngineId) (f : EngInt → EngInt) :
    (s.modEngInt e f).vaults = s.vaults := rfl
@[simp] theorem State.modEngInt_fars (s : State) (e : EngineId) (f : EngInt → EngInt) :
    (s.modEngInt e f).fars = s.fars := rfl
@[simp] theorem State.modEngInt_caches (s : State) (e : EngineId) (f : EngInt → EngInt) :
    (s.modEngInt e f).caches = s.caches := rfl
@[simp] theorem State.modEngInt_ports (s : State) (e : EngineId) (f : EngInt → EngInt) :
    (s.modEngInt e f).ports = s.ports := rfl
@[simp] theorem State.modEngInt_env (s : State) (e : EngineId) (f : EngInt → EngInt) :
    (s.modEngInt e f).env = s.env := rfl
@[simp] theorem State.modEngInt_upd (s : State) (e : EngineId) (f : EngInt → EngInt) :
    (s.modEngInt e f).upd = s.upd := rfl
@[simp] theorem State.modEngInt_ckpt (s : State) (e : EngineId) (f : EngInt → EngInt) :
    (s.modEngInt e f).ckpt = s.ckpt := rfl
@[simp] theorem State.modEngInt_eng (s : State) (e : EngineId) (f : EngInt → EngInt) :
    (s.modEngInt e f).eng = s.eng.set e.val { s.eng[e.val] with int := f s.eng[e.val].int } := rfl

/-! State.modTill -/

@[simp] theorem State.modTill_pending (s : State) (e : EngineId) (t : TillId) (f : TillSt → TillSt) :
    (s.modTill e t f).pending = s.pending := rfl
@[simp] theorem State.modTill_free (s : State) (e : EngineId) (t : TillId) (f : TillSt → TillSt) :
    (s.modTill e t f).free = s.free := rfl
@[simp] theorem State.modTill_out (s : State) (e : EngineId) (t : TillId) (f : TillSt → TillSt) :
    (s.modTill e t f).out = s.out := rfl
@[simp] theorem State.modTill_glb (s : State) (e : EngineId) (t : TillId) (f : TillSt → TillSt) :
    (s.modTill e t f).glb = s.glb := rfl
@[simp] theorem State.modTill_job (s : State) (e : EngineId) (t : TillId) (f : TillSt → TillSt) :
    (s.modTill e t f).job = s.job := rfl
@[simp] theorem State.modTill_int (s : State) (e : EngineId) (t : TillId) (f : TillSt → TillSt) :
    (s.modTill e t f).int = s.int := rfl
@[simp] theorem State.modTill_sec (s : State) (e : EngineId) (t : TillId) (f : TillSt → TillSt) :
    (s.modTill e t f).sec = s.sec := rfl
@[simp] theorem State.modTill_pwr (s : State) (e : EngineId) (t : TillId) (f : TillSt → TillSt) :
    (s.modTill e t f).pwr = s.pwr := rfl
@[simp] theorem State.modTill_host (s : State) (e : EngineId) (t : TillId) (f : TillSt → TillSt) :
    (s.modTill e t f).host = s.host := rfl
@[simp] theorem State.modTill_span (s : State) (e : EngineId) (t : TillId) (f : TillSt → TillSt) :
    (s.modTill e t f).span = s.span := rfl
@[simp] theorem State.modTill_vaults (s : State) (e : EngineId) (t : TillId) (f : TillSt → TillSt) :
    (s.modTill e t f).vaults = s.vaults := rfl
@[simp] theorem State.modTill_fars (s : State) (e : EngineId) (t : TillId) (f : TillSt → TillSt) :
    (s.modTill e t f).fars = s.fars := rfl
@[simp] theorem State.modTill_caches (s : State) (e : EngineId) (t : TillId) (f : TillSt → TillSt) :
    (s.modTill e t f).caches = s.caches := rfl
@[simp] theorem State.modTill_ports (s : State) (e : EngineId) (t : TillId) (f : TillSt → TillSt) :
    (s.modTill e t f).ports = s.ports := rfl
@[simp] theorem State.modTill_env (s : State) (e : EngineId) (t : TillId) (f : TillSt → TillSt) :
    (s.modTill e t f).env = s.env := rfl
@[simp] theorem State.modTill_upd (s : State) (e : EngineId) (t : TillId) (f : TillSt → TillSt) :
    (s.modTill e t f).upd = s.upd := rfl
@[simp] theorem State.modTill_ckpt (s : State) (e : EngineId) (t : TillId) (f : TillSt → TillSt) :
    (s.modTill e t f).ckpt = s.ckpt := rfl
@[simp] theorem State.modTill_eng (s : State) (e : EngineId) (t : TillId) (f : TillSt → TillSt) :
    (s.modTill e t f).eng = s.eng.set e.val { s.eng[e.val] with tills := s.eng[e.val].tills.set t.val (f s.eng[e.val].tills[t.val]) } := rfl

/-! State.modChan -/

@[simp] theorem State.modChan_pending (s : State) (e : EngineId) (c : ChanId) (f : ChanSt → ChanSt) :
    (s.modChan e c f).pending = s.pending := rfl
@[simp] theorem State.modChan_free (s : State) (e : EngineId) (c : ChanId) (f : ChanSt → ChanSt) :
    (s.modChan e c f).free = s.free := rfl
@[simp] theorem State.modChan_out (s : State) (e : EngineId) (c : ChanId) (f : ChanSt → ChanSt) :
    (s.modChan e c f).out = s.out := rfl
@[simp] theorem State.modChan_glb (s : State) (e : EngineId) (c : ChanId) (f : ChanSt → ChanSt) :
    (s.modChan e c f).glb = s.glb := rfl
@[simp] theorem State.modChan_job (s : State) (e : EngineId) (c : ChanId) (f : ChanSt → ChanSt) :
    (s.modChan e c f).job = s.job := rfl
@[simp] theorem State.modChan_int (s : State) (e : EngineId) (c : ChanId) (f : ChanSt → ChanSt) :
    (s.modChan e c f).int = s.int := rfl
@[simp] theorem State.modChan_sec (s : State) (e : EngineId) (c : ChanId) (f : ChanSt → ChanSt) :
    (s.modChan e c f).sec = s.sec := rfl
@[simp] theorem State.modChan_pwr (s : State) (e : EngineId) (c : ChanId) (f : ChanSt → ChanSt) :
    (s.modChan e c f).pwr = s.pwr := rfl
@[simp] theorem State.modChan_host (s : State) (e : EngineId) (c : ChanId) (f : ChanSt → ChanSt) :
    (s.modChan e c f).host = s.host := rfl
@[simp] theorem State.modChan_span (s : State) (e : EngineId) (c : ChanId) (f : ChanSt → ChanSt) :
    (s.modChan e c f).span = s.span := rfl
@[simp] theorem State.modChan_vaults (s : State) (e : EngineId) (c : ChanId) (f : ChanSt → ChanSt) :
    (s.modChan e c f).vaults = s.vaults := rfl
@[simp] theorem State.modChan_fars (s : State) (e : EngineId) (c : ChanId) (f : ChanSt → ChanSt) :
    (s.modChan e c f).fars = s.fars := rfl
@[simp] theorem State.modChan_caches (s : State) (e : EngineId) (c : ChanId) (f : ChanSt → ChanSt) :
    (s.modChan e c f).caches = s.caches := rfl
@[simp] theorem State.modChan_ports (s : State) (e : EngineId) (c : ChanId) (f : ChanSt → ChanSt) :
    (s.modChan e c f).ports = s.ports := rfl
@[simp] theorem State.modChan_env (s : State) (e : EngineId) (c : ChanId) (f : ChanSt → ChanSt) :
    (s.modChan e c f).env = s.env := rfl
@[simp] theorem State.modChan_upd (s : State) (e : EngineId) (c : ChanId) (f : ChanSt → ChanSt) :
    (s.modChan e c f).upd = s.upd := rfl
@[simp] theorem State.modChan_ckpt (s : State) (e : EngineId) (c : ChanId) (f : ChanSt → ChanSt) :
    (s.modChan e c f).ckpt = s.ckpt := rfl
@[simp] theorem State.modChan_eng (s : State) (e : EngineId) (c : ChanId) (f : ChanSt → ChanSt) :
    (s.modChan e c f).eng = s.eng.set e.val { s.eng[e.val] with dma := s.eng[e.val].dma.set c.val (f s.eng[e.val].dma[c.val]) } := rfl

/-! State.modAllEng -/

@[simp] theorem State.modAllEng_pending (s : State) (f : Engine → Engine) :
    (s.modAllEng f).pending = s.pending := rfl
@[simp] theorem State.modAllEng_free (s : State) (f : Engine → Engine) :
    (s.modAllEng f).free = s.free := rfl
@[simp] theorem State.modAllEng_out (s : State) (f : Engine → Engine) :
    (s.modAllEng f).out = s.out := rfl
@[simp] theorem State.modAllEng_glb (s : State) (f : Engine → Engine) :
    (s.modAllEng f).glb = s.glb := rfl
@[simp] theorem State.modAllEng_job (s : State) (f : Engine → Engine) :
    (s.modAllEng f).job = s.job := rfl
@[simp] theorem State.modAllEng_int (s : State) (f : Engine → Engine) :
    (s.modAllEng f).int = s.int := rfl
@[simp] theorem State.modAllEng_sec (s : State) (f : Engine → Engine) :
    (s.modAllEng f).sec = s.sec := rfl
@[simp] theorem State.modAllEng_pwr (s : State) (f : Engine → Engine) :
    (s.modAllEng f).pwr = s.pwr := rfl
@[simp] theorem State.modAllEng_host (s : State) (f : Engine → Engine) :
    (s.modAllEng f).host = s.host := rfl
@[simp] theorem State.modAllEng_span (s : State) (f : Engine → Engine) :
    (s.modAllEng f).span = s.span := rfl
@[simp] theorem State.modAllEng_vaults (s : State) (f : Engine → Engine) :
    (s.modAllEng f).vaults = s.vaults := rfl
@[simp] theorem State.modAllEng_fars (s : State) (f : Engine → Engine) :
    (s.modAllEng f).fars = s.fars := rfl
@[simp] theorem State.modAllEng_caches (s : State) (f : Engine → Engine) :
    (s.modAllEng f).caches = s.caches := rfl
@[simp] theorem State.modAllEng_ports (s : State) (f : Engine → Engine) :
    (s.modAllEng f).ports = s.ports := rfl
@[simp] theorem State.modAllEng_env (s : State) (f : Engine → Engine) :
    (s.modAllEng f).env = s.env := rfl
@[simp] theorem State.modAllEng_upd (s : State) (f : Engine → Engine) :
    (s.modAllEng f).upd = s.upd := rfl
@[simp] theorem State.modAllEng_ckpt (s : State) (f : Engine → Engine) :
    (s.modAllEng f).ckpt = s.ckpt := rfl
@[simp] theorem State.modAllEng_eng (s : State) (f : Engine → Engine) :
    (s.modAllEng f).eng = s.eng.map f := rfl

/-! State.modCache -/

@[simp] theorem State.modCache_pending (s : State) (c : CacheId) (f : CacheSt → CacheSt) :
    (s.modCache c f).pending = s.pending := rfl
@[simp] theorem State.modCache_free (s : State) (c : CacheId) (f : CacheSt → CacheSt) :
    (s.modCache c f).free = s.free := rfl
@[simp] theorem State.modCache_out (s : State) (c : CacheId) (f : CacheSt → CacheSt) :
    (s.modCache c f).out = s.out := rfl
@[simp] theorem State.modCache_glb (s : State) (c : CacheId) (f : CacheSt → CacheSt) :
    (s.modCache c f).glb = s.glb := rfl
@[simp] theorem State.modCache_job (s : State) (c : CacheId) (f : CacheSt → CacheSt) :
    (s.modCache c f).job = s.job := rfl
@[simp] theorem State.modCache_int (s : State) (c : CacheId) (f : CacheSt → CacheSt) :
    (s.modCache c f).int = s.int := rfl
@[simp] theorem State.modCache_sec (s : State) (c : CacheId) (f : CacheSt → CacheSt) :
    (s.modCache c f).sec = s.sec := rfl
@[simp] theorem State.modCache_pwr (s : State) (c : CacheId) (f : CacheSt → CacheSt) :
    (s.modCache c f).pwr = s.pwr := rfl
@[simp] theorem State.modCache_host (s : State) (c : CacheId) (f : CacheSt → CacheSt) :
    (s.modCache c f).host = s.host := rfl
@[simp] theorem State.modCache_span (s : State) (c : CacheId) (f : CacheSt → CacheSt) :
    (s.modCache c f).span = s.span := rfl
@[simp] theorem State.modCache_vaults (s : State) (c : CacheId) (f : CacheSt → CacheSt) :
    (s.modCache c f).vaults = s.vaults := rfl
@[simp] theorem State.modCache_fars (s : State) (c : CacheId) (f : CacheSt → CacheSt) :
    (s.modCache c f).fars = s.fars := rfl
@[simp] theorem State.modCache_caches (s : State) (c : CacheId) (f : CacheSt → CacheSt) :
    (s.modCache c f).caches = s.caches.set c.val (f s.caches[c.val]) := rfl
@[simp] theorem State.modCache_ports (s : State) (c : CacheId) (f : CacheSt → CacheSt) :
    (s.modCache c f).ports = s.ports := rfl
@[simp] theorem State.modCache_env (s : State) (c : CacheId) (f : CacheSt → CacheSt) :
    (s.modCache c f).env = s.env := rfl
@[simp] theorem State.modCache_upd (s : State) (c : CacheId) (f : CacheSt → CacheSt) :
    (s.modCache c f).upd = s.upd := rfl
@[simp] theorem State.modCache_ckpt (s : State) (c : CacheId) (f : CacheSt → CacheSt) :
    (s.modCache c f).ckpt = s.ckpt := rfl
@[simp] theorem State.modCache_eng (s : State) (c : CacheId) (f : CacheSt → CacheSt) :
    (s.modCache c f).eng = s.eng := rfl

/-! State.modPort -/

@[simp] theorem State.modPort_pending (s : State) (p : PortId) (f : PortSt → PortSt) :
    (s.modPort p f).pending = s.pending := rfl
@[simp] theorem State.modPort_free (s : State) (p : PortId) (f : PortSt → PortSt) :
    (s.modPort p f).free = s.free := rfl
@[simp] theorem State.modPort_out (s : State) (p : PortId) (f : PortSt → PortSt) :
    (s.modPort p f).out = s.out := rfl
@[simp] theorem State.modPort_glb (s : State) (p : PortId) (f : PortSt → PortSt) :
    (s.modPort p f).glb = s.glb := rfl
@[simp] theorem State.modPort_job (s : State) (p : PortId) (f : PortSt → PortSt) :
    (s.modPort p f).job = s.job := rfl
@[simp] theorem State.modPort_int (s : State) (p : PortId) (f : PortSt → PortSt) :
    (s.modPort p f).int = s.int := rfl
@[simp] theorem State.modPort_sec (s : State) (p : PortId) (f : PortSt → PortSt) :
    (s.modPort p f).sec = s.sec := rfl
@[simp] theorem State.modPort_pwr (s : State) (p : PortId) (f : PortSt → PortSt) :
    (s.modPort p f).pwr = s.pwr := rfl
@[simp] theorem State.modPort_host (s : State) (p : PortId) (f : PortSt → PortSt) :
    (s.modPort p f).host = s.host := rfl
@[simp] theorem State.modPort_span (s : State) (p : PortId) (f : PortSt → PortSt) :
    (s.modPort p f).span = s.span := rfl
@[simp] theorem State.modPort_vaults (s : State) (p : PortId) (f : PortSt → PortSt) :
    (s.modPort p f).vaults = s.vaults := rfl
@[simp] theorem State.modPort_fars (s : State) (p : PortId) (f : PortSt → PortSt) :
    (s.modPort p f).fars = s.fars := rfl
@[simp] theorem State.modPort_caches (s : State) (p : PortId) (f : PortSt → PortSt) :
    (s.modPort p f).caches = s.caches := rfl
@[simp] theorem State.modPort_ports (s : State) (p : PortId) (f : PortSt → PortSt) :
    (s.modPort p f).ports = s.ports.set p.val (f s.ports[p.val]) := rfl
@[simp] theorem State.modPort_env (s : State) (p : PortId) (f : PortSt → PortSt) :
    (s.modPort p f).env = s.env := rfl
@[simp] theorem State.modPort_upd (s : State) (p : PortId) (f : PortSt → PortSt) :
    (s.modPort p f).upd = s.upd := rfl
@[simp] theorem State.modPort_ckpt (s : State) (p : PortId) (f : PortSt → PortSt) :
    (s.modPort p f).ckpt = s.ckpt := rfl
@[simp] theorem State.modPort_eng (s : State) (p : PortId) (f : PortSt → PortSt) :
    (s.modPort p f).eng = s.eng := rfl

/-! State.modPeer -/

@[simp] theorem State.modPeer_pending (s : State) (i : Nat) (f : PeerSt → PeerSt) :
    (s.modPeer i f).pending = s.pending := rfl
@[simp] theorem State.modPeer_free (s : State) (i : Nat) (f : PeerSt → PeerSt) :
    (s.modPeer i f).free = s.free := rfl
@[simp] theorem State.modPeer_out (s : State) (i : Nat) (f : PeerSt → PeerSt) :
    (s.modPeer i f).out = s.out := rfl
@[simp] theorem State.modPeer_glb (s : State) (i : Nat) (f : PeerSt → PeerSt) :
    (s.modPeer i f).glb = s.glb := rfl
@[simp] theorem State.modPeer_job (s : State) (i : Nat) (f : PeerSt → PeerSt) :
    (s.modPeer i f).job = s.job := rfl
@[simp] theorem State.modPeer_int (s : State) (i : Nat) (f : PeerSt → PeerSt) :
    (s.modPeer i f).int = s.int := rfl
@[simp] theorem State.modPeer_sec (s : State) (i : Nat) (f : PeerSt → PeerSt) :
    (s.modPeer i f).sec = s.sec := rfl
@[simp] theorem State.modPeer_pwr (s : State) (i : Nat) (f : PeerSt → PeerSt) :
    (s.modPeer i f).pwr = s.pwr := rfl
@[simp] theorem State.modPeer_host (s : State) (i : Nat) (f : PeerSt → PeerSt) :
    (s.modPeer i f).host = s.host := rfl
@[simp] theorem State.modPeer_span (s : State) (i : Nat) (f : PeerSt → PeerSt) :
    (s.modPeer i f).span = s.span := rfl
@[simp] theorem State.modPeer_vaults (s : State) (i : Nat) (f : PeerSt → PeerSt) :
    (s.modPeer i f).vaults = s.vaults := rfl
@[simp] theorem State.modPeer_fars (s : State) (i : Nat) (f : PeerSt → PeerSt) :
    (s.modPeer i f).fars = s.fars := rfl
@[simp] theorem State.modPeer_caches (s : State) (i : Nat) (f : PeerSt → PeerSt) :
    (s.modPeer i f).caches = s.caches := rfl
@[simp] theorem State.modPeer_ports (s : State) (i : Nat) (f : PeerSt → PeerSt) :
    (s.modPeer i f).ports = s.ports := rfl
@[simp] theorem State.modPeer_env (s : State) (i : Nat) (f : PeerSt → PeerSt) :
    (s.modPeer i f).env = { s.env with peers := s.env.peers.modify i f } := rfl
@[simp] theorem State.modPeer_upd (s : State) (i : Nat) (f : PeerSt → PeerSt) :
    (s.modPeer i f).upd = s.upd := rfl
@[simp] theorem State.modPeer_ckpt (s : State) (i : Nat) (f : PeerSt → PeerSt) :
    (s.modPeer i f).ckpt = s.ckpt := rfl
@[simp] theorem State.modPeer_eng (s : State) (i : Nat) (f : PeerSt → PeerSt) :
    (s.modPeer i f).eng = s.eng := rfl

/-! State.modClr -/

@[simp] theorem State.modClr_pending (s : State) (u : Fin 2) (f : ClrSt → ClrSt) :
    (s.modClr u f).pending = s.pending := rfl
@[simp] theorem State.modClr_free (s : State) (u : Fin 2) (f : ClrSt → ClrSt) :
    (s.modClr u f).free = s.free := rfl
@[simp] theorem State.modClr_out (s : State) (u : Fin 2) (f : ClrSt → ClrSt) :
    (s.modClr u f).out = s.out := rfl
@[simp] theorem State.modClr_glb (s : State) (u : Fin 2) (f : ClrSt → ClrSt) :
    (s.modClr u f).glb = s.glb := rfl
@[simp] theorem State.modClr_job (s : State) (u : Fin 2) (f : ClrSt → ClrSt) :
    (s.modClr u f).job = s.job := rfl
@[simp] theorem State.modClr_int (s : State) (u : Fin 2) (f : ClrSt → ClrSt) :
    (s.modClr u f).int = s.int := rfl
@[simp] theorem State.modClr_sec (s : State) (u : Fin 2) (f : ClrSt → ClrSt) :
    (s.modClr u f).sec = s.sec := rfl
@[simp] theorem State.modClr_pwr (s : State) (u : Fin 2) (f : ClrSt → ClrSt) :
    (s.modClr u f).pwr = s.pwr := rfl
@[simp] theorem State.modClr_host (s : State) (u : Fin 2) (f : ClrSt → ClrSt) :
    (s.modClr u f).host = s.host := rfl
@[simp] theorem State.modClr_span (s : State) (u : Fin 2) (f : ClrSt → ClrSt) :
    (s.modClr u f).span = s.span := rfl
@[simp] theorem State.modClr_vaults (s : State) (u : Fin 2) (f : ClrSt → ClrSt) :
    (s.modClr u f).vaults = s.vaults := rfl
@[simp] theorem State.modClr_fars (s : State) (u : Fin 2) (f : ClrSt → ClrSt) :
    (s.modClr u f).fars = s.fars := rfl
@[simp] theorem State.modClr_caches (s : State) (u : Fin 2) (f : ClrSt → ClrSt) :
    (s.modClr u f).caches = s.caches := rfl
@[simp] theorem State.modClr_ports (s : State) (u : Fin 2) (f : ClrSt → ClrSt) :
    (s.modClr u f).ports = s.ports := rfl
@[simp] theorem State.modClr_env (s : State) (u : Fin 2) (f : ClrSt → ClrSt) :
    (s.modClr u f).env = { s.env with clr := s.env.clr.set u.val (f s.env.clr[u.val]) } := rfl
@[simp] theorem State.modClr_upd (s : State) (u : Fin 2) (f : ClrSt → ClrSt) :
    (s.modClr u f).upd = s.upd := rfl
@[simp] theorem State.modClr_ckpt (s : State) (u : Fin 2) (f : ClrSt → ClrSt) :
    (s.modClr u f).ckpt = s.ckpt := rfl
@[simp] theorem State.modClr_eng (s : State) (u : Fin 2) (f : ClrSt → ClrSt) :
    (s.modClr u f).eng = s.eng := rfl

/-! State.modRing -/

@[simp] theorem State.modRing_pending (s : State) (r : RingId) (f : RingSt → RingSt) :
    (s.modRing r f).pending = s.pending := rfl
@[simp] theorem State.modRing_free (s : State) (r : RingId) (f : RingSt → RingSt) :
    (s.modRing r f).free = s.free := rfl
@[simp] theorem State.modRing_out (s : State) (r : RingId) (f : RingSt → RingSt) :
    (s.modRing r f).out = s.out := rfl
@[simp] theorem State.modRing_glb (s : State) (r : RingId) (f : RingSt → RingSt) :
    (s.modRing r f).glb = s.glb := rfl
@[simp] theorem State.modRing_job (s : State) (r : RingId) (f : RingSt → RingSt) :
    (s.modRing r f).job = s.job := rfl
@[simp] theorem State.modRing_int (s : State) (r : RingId) (f : RingSt → RingSt) :
    (s.modRing r f).int = s.int := rfl
@[simp] theorem State.modRing_sec (s : State) (r : RingId) (f : RingSt → RingSt) :
    (s.modRing r f).sec = s.sec := rfl
@[simp] theorem State.modRing_pwr (s : State) (r : RingId) (f : RingSt → RingSt) :
    (s.modRing r f).pwr = s.pwr := rfl
@[simp] theorem State.modRing_host (s : State) (r : RingId) (f : RingSt → RingSt) :
    (s.modRing r f).host = { s.host with rings := s.host.rings.set r.val (f s.host.rings[r.val]) } := rfl
@[simp] theorem State.modRing_span (s : State) (r : RingId) (f : RingSt → RingSt) :
    (s.modRing r f).span = s.span := rfl
@[simp] theorem State.modRing_vaults (s : State) (r : RingId) (f : RingSt → RingSt) :
    (s.modRing r f).vaults = s.vaults := rfl
@[simp] theorem State.modRing_fars (s : State) (r : RingId) (f : RingSt → RingSt) :
    (s.modRing r f).fars = s.fars := rfl
@[simp] theorem State.modRing_caches (s : State) (r : RingId) (f : RingSt → RingSt) :
    (s.modRing r f).caches = s.caches := rfl
@[simp] theorem State.modRing_ports (s : State) (r : RingId) (f : RingSt → RingSt) :
    (s.modRing r f).ports = s.ports := rfl
@[simp] theorem State.modRing_env (s : State) (r : RingId) (f : RingSt → RingSt) :
    (s.modRing r f).env = s.env := rfl
@[simp] theorem State.modRing_upd (s : State) (r : RingId) (f : RingSt → RingSt) :
    (s.modRing r f).upd = s.upd := rfl
@[simp] theorem State.modRing_ckpt (s : State) (r : RingId) (f : RingSt → RingSt) :
    (s.modRing r f).ckpt = s.ckpt := rfl
@[simp] theorem State.modRing_eng (s : State) (r : RingId) (f : RingSt → RingSt) :
    (s.modRing r f).eng = s.eng := rfl

/-! State.modIsl -/

@[simp] theorem State.modIsl_pending (s : State) (i : IslandIdx) (f : IslSt → IslSt) :
    (s.modIsl i f).pending = s.pending := rfl
@[simp] theorem State.modIsl_free (s : State) (i : IslandIdx) (f : IslSt → IslSt) :
    (s.modIsl i f).free = s.free := rfl
@[simp] theorem State.modIsl_out (s : State) (i : IslandIdx) (f : IslSt → IslSt) :
    (s.modIsl i f).out = s.out := rfl
@[simp] theorem State.modIsl_glb (s : State) (i : IslandIdx) (f : IslSt → IslSt) :
    (s.modIsl i f).glb = s.glb := rfl
@[simp] theorem State.modIsl_job (s : State) (i : IslandIdx) (f : IslSt → IslSt) :
    (s.modIsl i f).job = s.job := rfl
@[simp] theorem State.modIsl_int (s : State) (i : IslandIdx) (f : IslSt → IslSt) :
    (s.modIsl i f).int = s.int := rfl
@[simp] theorem State.modIsl_sec (s : State) (i : IslandIdx) (f : IslSt → IslSt) :
    (s.modIsl i f).sec = s.sec := rfl
@[simp] theorem State.modIsl_pwr (s : State) (i : IslandIdx) (f : IslSt → IslSt) :
    (s.modIsl i f).pwr = { s.pwr with isl := s.pwr.isl.set i.val (f s.pwr.isl[i.val]) } := rfl
@[simp] theorem State.modIsl_host (s : State) (i : IslandIdx) (f : IslSt → IslSt) :
    (s.modIsl i f).host = s.host := rfl
@[simp] theorem State.modIsl_span (s : State) (i : IslandIdx) (f : IslSt → IslSt) :
    (s.modIsl i f).span = s.span := rfl
@[simp] theorem State.modIsl_vaults (s : State) (i : IslandIdx) (f : IslSt → IslSt) :
    (s.modIsl i f).vaults = s.vaults := rfl
@[simp] theorem State.modIsl_fars (s : State) (i : IslandIdx) (f : IslSt → IslSt) :
    (s.modIsl i f).fars = s.fars := rfl
@[simp] theorem State.modIsl_caches (s : State) (i : IslandIdx) (f : IslSt → IslSt) :
    (s.modIsl i f).caches = s.caches := rfl
@[simp] theorem State.modIsl_ports (s : State) (i : IslandIdx) (f : IslSt → IslSt) :
    (s.modIsl i f).ports = s.ports := rfl
@[simp] theorem State.modIsl_env (s : State) (i : IslandIdx) (f : IslSt → IslSt) :
    (s.modIsl i f).env = s.env := rfl
@[simp] theorem State.modIsl_upd (s : State) (i : IslandIdx) (f : IslSt → IslSt) :
    (s.modIsl i f).upd = s.upd := rfl
@[simp] theorem State.modIsl_ckpt (s : State) (i : IslandIdx) (f : IslSt → IslSt) :
    (s.modIsl i f).ckpt = s.ckpt := rfl
@[simp] theorem State.modIsl_eng (s : State) (i : IslandIdx) (f : IslSt → IslSt) :
    (s.modIsl i f).eng = s.eng := rfl

/-! State.modLane -/

@[simp] theorem State.modLane_pending (s : State) (l : Fin 16) (f : LaneSt → LaneSt) :
    (s.modLane l f).pending = s.pending := rfl
@[simp] theorem State.modLane_free (s : State) (l : Fin 16) (f : LaneSt → LaneSt) :
    (s.modLane l f).free = s.free := rfl
@[simp] theorem State.modLane_out (s : State) (l : Fin 16) (f : LaneSt → LaneSt) :
    (s.modLane l f).out = s.out := rfl
@[simp] theorem State.modLane_glb (s : State) (l : Fin 16) (f : LaneSt → LaneSt) :
    (s.modLane l f).glb = s.glb := rfl
@[simp] theorem State.modLane_job (s : State) (l : Fin 16) (f : LaneSt → LaneSt) :
    (s.modLane l f).job = s.job := rfl
@[simp] theorem State.modLane_int (s : State) (l : Fin 16) (f : LaneSt → LaneSt) :
    (s.modLane l f).int = s.int := rfl
@[simp] theorem State.modLane_sec (s : State) (l : Fin 16) (f : LaneSt → LaneSt) :
    (s.modLane l f).sec = s.sec := rfl
@[simp] theorem State.modLane_pwr (s : State) (l : Fin 16) (f : LaneSt → LaneSt) :
    (s.modLane l f).pwr = s.pwr := rfl
@[simp] theorem State.modLane_host (s : State) (l : Fin 16) (f : LaneSt → LaneSt) :
    (s.modLane l f).host = s.host := rfl
@[simp] theorem State.modLane_span (s : State) (l : Fin 16) (f : LaneSt → LaneSt) :
    (s.modLane l f).span = { s.span with lanes := s.span.lanes.set l.val (f s.span.lanes[l.val]) } := rfl
@[simp] theorem State.modLane_vaults (s : State) (l : Fin 16) (f : LaneSt → LaneSt) :
    (s.modLane l f).vaults = s.vaults := rfl
@[simp] theorem State.modLane_fars (s : State) (l : Fin 16) (f : LaneSt → LaneSt) :
    (s.modLane l f).fars = s.fars := rfl
@[simp] theorem State.modLane_caches (s : State) (l : Fin 16) (f : LaneSt → LaneSt) :
    (s.modLane l f).caches = s.caches := rfl
@[simp] theorem State.modLane_ports (s : State) (l : Fin 16) (f : LaneSt → LaneSt) :
    (s.modLane l f).ports = s.ports := rfl
@[simp] theorem State.modLane_env (s : State) (l : Fin 16) (f : LaneSt → LaneSt) :
    (s.modLane l f).env = s.env := rfl
@[simp] theorem State.modLane_upd (s : State) (l : Fin 16) (f : LaneSt → LaneSt) :
    (s.modLane l f).upd = s.upd := rfl
@[simp] theorem State.modLane_ckpt (s : State) (l : Fin 16) (f : LaneSt → LaneSt) :
    (s.modLane l f).ckpt = s.ckpt := rfl
@[simp] theorem State.modLane_eng (s : State) (l : Fin 16) (f : LaneSt → LaneSt) :
    (s.modLane l f).eng = s.eng := rfl

/-! State.modGlb -/

@[simp] theorem State.modGlb_pending (s : State) (f : GlbSt → GlbSt) :
    (s.modGlb f).pending = s.pending := rfl
@[simp] theorem State.modGlb_free (s : State) (f : GlbSt → GlbSt) :
    (s.modGlb f).free = s.free := rfl
@[simp] theorem State.modGlb_out (s : State) (f : GlbSt → GlbSt) :
    (s.modGlb f).out = s.out := rfl
@[simp] theorem State.modGlb_glb (s : State) (f : GlbSt → GlbSt) :
    (s.modGlb f).glb = f s.glb := rfl
@[simp] theorem State.modGlb_job (s : State) (f : GlbSt → GlbSt) :
    (s.modGlb f).job = s.job := rfl
@[simp] theorem State.modGlb_int (s : State) (f : GlbSt → GlbSt) :
    (s.modGlb f).int = s.int := rfl
@[simp] theorem State.modGlb_sec (s : State) (f : GlbSt → GlbSt) :
    (s.modGlb f).sec = s.sec := rfl
@[simp] theorem State.modGlb_pwr (s : State) (f : GlbSt → GlbSt) :
    (s.modGlb f).pwr = s.pwr := rfl
@[simp] theorem State.modGlb_host (s : State) (f : GlbSt → GlbSt) :
    (s.modGlb f).host = s.host := rfl
@[simp] theorem State.modGlb_span (s : State) (f : GlbSt → GlbSt) :
    (s.modGlb f).span = s.span := rfl
@[simp] theorem State.modGlb_vaults (s : State) (f : GlbSt → GlbSt) :
    (s.modGlb f).vaults = s.vaults := rfl
@[simp] theorem State.modGlb_fars (s : State) (f : GlbSt → GlbSt) :
    (s.modGlb f).fars = s.fars := rfl
@[simp] theorem State.modGlb_caches (s : State) (f : GlbSt → GlbSt) :
    (s.modGlb f).caches = s.caches := rfl
@[simp] theorem State.modGlb_ports (s : State) (f : GlbSt → GlbSt) :
    (s.modGlb f).ports = s.ports := rfl
@[simp] theorem State.modGlb_env (s : State) (f : GlbSt → GlbSt) :
    (s.modGlb f).env = s.env := rfl
@[simp] theorem State.modGlb_upd (s : State) (f : GlbSt → GlbSt) :
    (s.modGlb f).upd = s.upd := rfl
@[simp] theorem State.modGlb_ckpt (s : State) (f : GlbSt → GlbSt) :
    (s.modGlb f).ckpt = s.ckpt := rfl
@[simp] theorem State.modGlb_eng (s : State) (f : GlbSt → GlbSt) :
    (s.modGlb f).eng = s.eng := rfl

/-! State.modJob -/

@[simp] theorem State.modJob_pending (s : State) (f : JobSt → JobSt) :
    (s.modJob f).pending = s.pending := rfl
@[simp] theorem State.modJob_free (s : State) (f : JobSt → JobSt) :
    (s.modJob f).free = s.free := rfl
@[simp] theorem State.modJob_out (s : State) (f : JobSt → JobSt) :
    (s.modJob f).out = s.out := rfl
@[simp] theorem State.modJob_glb (s : State) (f : JobSt → JobSt) :
    (s.modJob f).glb = s.glb := rfl
@[simp] theorem State.modJob_job (s : State) (f : JobSt → JobSt) :
    (s.modJob f).job = f s.job := rfl
@[simp] theorem State.modJob_int (s : State) (f : JobSt → JobSt) :
    (s.modJob f).int = s.int := rfl
@[simp] theorem State.modJob_sec (s : State) (f : JobSt → JobSt) :
    (s.modJob f).sec = s.sec := rfl
@[simp] theorem State.modJob_pwr (s : State) (f : JobSt → JobSt) :
    (s.modJob f).pwr = s.pwr := rfl
@[simp] theorem State.modJob_host (s : State) (f : JobSt → JobSt) :
    (s.modJob f).host = s.host := rfl
@[simp] theorem State.modJob_span (s : State) (f : JobSt → JobSt) :
    (s.modJob f).span = s.span := rfl
@[simp] theorem State.modJob_vaults (s : State) (f : JobSt → JobSt) :
    (s.modJob f).vaults = s.vaults := rfl
@[simp] theorem State.modJob_fars (s : State) (f : JobSt → JobSt) :
    (s.modJob f).fars = s.fars := rfl
@[simp] theorem State.modJob_caches (s : State) (f : JobSt → JobSt) :
    (s.modJob f).caches = s.caches := rfl
@[simp] theorem State.modJob_ports (s : State) (f : JobSt → JobSt) :
    (s.modJob f).ports = s.ports := rfl
@[simp] theorem State.modJob_env (s : State) (f : JobSt → JobSt) :
    (s.modJob f).env = s.env := rfl
@[simp] theorem State.modJob_upd (s : State) (f : JobSt → JobSt) :
    (s.modJob f).upd = s.upd := rfl
@[simp] theorem State.modJob_ckpt (s : State) (f : JobSt → JobSt) :
    (s.modJob f).ckpt = s.ckpt := rfl
@[simp] theorem State.modJob_eng (s : State) (f : JobSt → JobSt) :
    (s.modJob f).eng = s.eng := rfl

/-! State.modInt -/

@[simp] theorem State.modInt_pending (s : State) (f : IntSt → IntSt) :
    (s.modInt f).pending = s.pending := rfl
@[simp] theorem State.modInt_free (s : State) (f : IntSt → IntSt) :
    (s.modInt f).free = s.free := rfl
@[simp] theorem State.modInt_out (s : State) (f : IntSt → IntSt) :
    (s.modInt f).out = s.out := rfl
@[simp] theorem State.modInt_glb (s : State) (f : IntSt → IntSt) :
    (s.modInt f).glb = s.glb := rfl
@[simp] theorem State.modInt_job (s : State) (f : IntSt → IntSt) :
    (s.modInt f).job = s.job := rfl
@[simp] theorem State.modInt_int (s : State) (f : IntSt → IntSt) :
    (s.modInt f).int = f s.int := rfl
@[simp] theorem State.modInt_sec (s : State) (f : IntSt → IntSt) :
    (s.modInt f).sec = s.sec := rfl
@[simp] theorem State.modInt_pwr (s : State) (f : IntSt → IntSt) :
    (s.modInt f).pwr = s.pwr := rfl
@[simp] theorem State.modInt_host (s : State) (f : IntSt → IntSt) :
    (s.modInt f).host = s.host := rfl
@[simp] theorem State.modInt_span (s : State) (f : IntSt → IntSt) :
    (s.modInt f).span = s.span := rfl
@[simp] theorem State.modInt_vaults (s : State) (f : IntSt → IntSt) :
    (s.modInt f).vaults = s.vaults := rfl
@[simp] theorem State.modInt_fars (s : State) (f : IntSt → IntSt) :
    (s.modInt f).fars = s.fars := rfl
@[simp] theorem State.modInt_caches (s : State) (f : IntSt → IntSt) :
    (s.modInt f).caches = s.caches := rfl
@[simp] theorem State.modInt_ports (s : State) (f : IntSt → IntSt) :
    (s.modInt f).ports = s.ports := rfl
@[simp] theorem State.modInt_env (s : State) (f : IntSt → IntSt) :
    (s.modInt f).env = s.env := rfl
@[simp] theorem State.modInt_upd (s : State) (f : IntSt → IntSt) :
    (s.modInt f).upd = s.upd := rfl
@[simp] theorem State.modInt_ckpt (s : State) (f : IntSt → IntSt) :
    (s.modInt f).ckpt = s.ckpt := rfl
@[simp] theorem State.modInt_eng (s : State) (f : IntSt → IntSt) :
    (s.modInt f).eng = s.eng := rfl

/-! State.modSec -/

@[simp] theorem State.modSec_pending (s : State) (f : SecSt → SecSt) :
    (s.modSec f).pending = s.pending := rfl
@[simp] theorem State.modSec_free (s : State) (f : SecSt → SecSt) :
    (s.modSec f).free = s.free := rfl
@[simp] theorem State.modSec_out (s : State) (f : SecSt → SecSt) :
    (s.modSec f).out = s.out := rfl
@[simp] theorem State.modSec_glb (s : State) (f : SecSt → SecSt) :
    (s.modSec f).glb = s.glb := rfl
@[simp] theorem State.modSec_job (s : State) (f : SecSt → SecSt) :
    (s.modSec f).job = s.job := rfl
@[simp] theorem State.modSec_int (s : State) (f : SecSt → SecSt) :
    (s.modSec f).int = s.int := rfl
@[simp] theorem State.modSec_sec (s : State) (f : SecSt → SecSt) :
    (s.modSec f).sec = f s.sec := rfl
@[simp] theorem State.modSec_pwr (s : State) (f : SecSt → SecSt) :
    (s.modSec f).pwr = s.pwr := rfl
@[simp] theorem State.modSec_host (s : State) (f : SecSt → SecSt) :
    (s.modSec f).host = s.host := rfl
@[simp] theorem State.modSec_span (s : State) (f : SecSt → SecSt) :
    (s.modSec f).span = s.span := rfl
@[simp] theorem State.modSec_vaults (s : State) (f : SecSt → SecSt) :
    (s.modSec f).vaults = s.vaults := rfl
@[simp] theorem State.modSec_fars (s : State) (f : SecSt → SecSt) :
    (s.modSec f).fars = s.fars := rfl
@[simp] theorem State.modSec_caches (s : State) (f : SecSt → SecSt) :
    (s.modSec f).caches = s.caches := rfl
@[simp] theorem State.modSec_ports (s : State) (f : SecSt → SecSt) :
    (s.modSec f).ports = s.ports := rfl
@[simp] theorem State.modSec_env (s : State) (f : SecSt → SecSt) :
    (s.modSec f).env = s.env := rfl
@[simp] theorem State.modSec_upd (s : State) (f : SecSt → SecSt) :
    (s.modSec f).upd = s.upd := rfl
@[simp] theorem State.modSec_ckpt (s : State) (f : SecSt → SecSt) :
    (s.modSec f).ckpt = s.ckpt := rfl
@[simp] theorem State.modSec_eng (s : State) (f : SecSt → SecSt) :
    (s.modSec f).eng = s.eng := rfl

/-! State.modPwr -/

@[simp] theorem State.modPwr_pending (s : State) (f : PwrSt → PwrSt) :
    (s.modPwr f).pending = s.pending := rfl
@[simp] theorem State.modPwr_free (s : State) (f : PwrSt → PwrSt) :
    (s.modPwr f).free = s.free := rfl
@[simp] theorem State.modPwr_out (s : State) (f : PwrSt → PwrSt) :
    (s.modPwr f).out = s.out := rfl
@[simp] theorem State.modPwr_glb (s : State) (f : PwrSt → PwrSt) :
    (s.modPwr f).glb = s.glb := rfl
@[simp] theorem State.modPwr_job (s : State) (f : PwrSt → PwrSt) :
    (s.modPwr f).job = s.job := rfl
@[simp] theorem State.modPwr_int (s : State) (f : PwrSt → PwrSt) :
    (s.modPwr f).int = s.int := rfl
@[simp] theorem State.modPwr_sec (s : State) (f : PwrSt → PwrSt) :
    (s.modPwr f).sec = s.sec := rfl
@[simp] theorem State.modPwr_pwr (s : State) (f : PwrSt → PwrSt) :
    (s.modPwr f).pwr = f s.pwr := rfl
@[simp] theorem State.modPwr_host (s : State) (f : PwrSt → PwrSt) :
    (s.modPwr f).host = s.host := rfl
@[simp] theorem State.modPwr_span (s : State) (f : PwrSt → PwrSt) :
    (s.modPwr f).span = s.span := rfl
@[simp] theorem State.modPwr_vaults (s : State) (f : PwrSt → PwrSt) :
    (s.modPwr f).vaults = s.vaults := rfl
@[simp] theorem State.modPwr_fars (s : State) (f : PwrSt → PwrSt) :
    (s.modPwr f).fars = s.fars := rfl
@[simp] theorem State.modPwr_caches (s : State) (f : PwrSt → PwrSt) :
    (s.modPwr f).caches = s.caches := rfl
@[simp] theorem State.modPwr_ports (s : State) (f : PwrSt → PwrSt) :
    (s.modPwr f).ports = s.ports := rfl
@[simp] theorem State.modPwr_env (s : State) (f : PwrSt → PwrSt) :
    (s.modPwr f).env = s.env := rfl
@[simp] theorem State.modPwr_upd (s : State) (f : PwrSt → PwrSt) :
    (s.modPwr f).upd = s.upd := rfl
@[simp] theorem State.modPwr_ckpt (s : State) (f : PwrSt → PwrSt) :
    (s.modPwr f).ckpt = s.ckpt := rfl
@[simp] theorem State.modPwr_eng (s : State) (f : PwrSt → PwrSt) :
    (s.modPwr f).eng = s.eng := rfl

/-! State.modHost -/

@[simp] theorem State.modHost_pending (s : State) (f : HostSt → HostSt) :
    (s.modHost f).pending = s.pending := rfl
@[simp] theorem State.modHost_free (s : State) (f : HostSt → HostSt) :
    (s.modHost f).free = s.free := rfl
@[simp] theorem State.modHost_out (s : State) (f : HostSt → HostSt) :
    (s.modHost f).out = s.out := rfl
@[simp] theorem State.modHost_glb (s : State) (f : HostSt → HostSt) :
    (s.modHost f).glb = s.glb := rfl
@[simp] theorem State.modHost_job (s : State) (f : HostSt → HostSt) :
    (s.modHost f).job = s.job := rfl
@[simp] theorem State.modHost_int (s : State) (f : HostSt → HostSt) :
    (s.modHost f).int = s.int := rfl
@[simp] theorem State.modHost_sec (s : State) (f : HostSt → HostSt) :
    (s.modHost f).sec = s.sec := rfl
@[simp] theorem State.modHost_pwr (s : State) (f : HostSt → HostSt) :
    (s.modHost f).pwr = s.pwr := rfl
@[simp] theorem State.modHost_host (s : State) (f : HostSt → HostSt) :
    (s.modHost f).host = f s.host := rfl
@[simp] theorem State.modHost_span (s : State) (f : HostSt → HostSt) :
    (s.modHost f).span = s.span := rfl
@[simp] theorem State.modHost_vaults (s : State) (f : HostSt → HostSt) :
    (s.modHost f).vaults = s.vaults := rfl
@[simp] theorem State.modHost_fars (s : State) (f : HostSt → HostSt) :
    (s.modHost f).fars = s.fars := rfl
@[simp] theorem State.modHost_caches (s : State) (f : HostSt → HostSt) :
    (s.modHost f).caches = s.caches := rfl
@[simp] theorem State.modHost_ports (s : State) (f : HostSt → HostSt) :
    (s.modHost f).ports = s.ports := rfl
@[simp] theorem State.modHost_env (s : State) (f : HostSt → HostSt) :
    (s.modHost f).env = s.env := rfl
@[simp] theorem State.modHost_upd (s : State) (f : HostSt → HostSt) :
    (s.modHost f).upd = s.upd := rfl
@[simp] theorem State.modHost_ckpt (s : State) (f : HostSt → HostSt) :
    (s.modHost f).ckpt = s.ckpt := rfl
@[simp] theorem State.modHost_eng (s : State) (f : HostSt → HostSt) :
    (s.modHost f).eng = s.eng := rfl

/-! State.modUpd -/

@[simp] theorem State.modUpd_pending (s : State) (f : UpdSt → UpdSt) :
    (s.modUpd f).pending = s.pending := rfl
@[simp] theorem State.modUpd_free (s : State) (f : UpdSt → UpdSt) :
    (s.modUpd f).free = s.free := rfl
@[simp] theorem State.modUpd_out (s : State) (f : UpdSt → UpdSt) :
    (s.modUpd f).out = s.out := rfl
@[simp] theorem State.modUpd_glb (s : State) (f : UpdSt → UpdSt) :
    (s.modUpd f).glb = s.glb := rfl
@[simp] theorem State.modUpd_job (s : State) (f : UpdSt → UpdSt) :
    (s.modUpd f).job = s.job := rfl
@[simp] theorem State.modUpd_int (s : State) (f : UpdSt → UpdSt) :
    (s.modUpd f).int = s.int := rfl
@[simp] theorem State.modUpd_sec (s : State) (f : UpdSt → UpdSt) :
    (s.modUpd f).sec = s.sec := rfl
@[simp] theorem State.modUpd_pwr (s : State) (f : UpdSt → UpdSt) :
    (s.modUpd f).pwr = s.pwr := rfl
@[simp] theorem State.modUpd_host (s : State) (f : UpdSt → UpdSt) :
    (s.modUpd f).host = s.host := rfl
@[simp] theorem State.modUpd_span (s : State) (f : UpdSt → UpdSt) :
    (s.modUpd f).span = s.span := rfl
@[simp] theorem State.modUpd_vaults (s : State) (f : UpdSt → UpdSt) :
    (s.modUpd f).vaults = s.vaults := rfl
@[simp] theorem State.modUpd_fars (s : State) (f : UpdSt → UpdSt) :
    (s.modUpd f).fars = s.fars := rfl
@[simp] theorem State.modUpd_caches (s : State) (f : UpdSt → UpdSt) :
    (s.modUpd f).caches = s.caches := rfl
@[simp] theorem State.modUpd_ports (s : State) (f : UpdSt → UpdSt) :
    (s.modUpd f).ports = s.ports := rfl
@[simp] theorem State.modUpd_env (s : State) (f : UpdSt → UpdSt) :
    (s.modUpd f).env = s.env := rfl
@[simp] theorem State.modUpd_upd (s : State) (f : UpdSt → UpdSt) :
    (s.modUpd f).upd = f s.upd := rfl
@[simp] theorem State.modUpd_ckpt (s : State) (f : UpdSt → UpdSt) :
    (s.modUpd f).ckpt = s.ckpt := rfl
@[simp] theorem State.modUpd_eng (s : State) (f : UpdSt → UpdSt) :
    (s.modUpd f).eng = s.eng := rfl

/-! State.modCkpt -/

@[simp] theorem State.modCkpt_pending (s : State) (f : CkptSt → CkptSt) :
    (s.modCkpt f).pending = s.pending := rfl
@[simp] theorem State.modCkpt_free (s : State) (f : CkptSt → CkptSt) :
    (s.modCkpt f).free = s.free := rfl
@[simp] theorem State.modCkpt_out (s : State) (f : CkptSt → CkptSt) :
    (s.modCkpt f).out = s.out := rfl
@[simp] theorem State.modCkpt_glb (s : State) (f : CkptSt → CkptSt) :
    (s.modCkpt f).glb = s.glb := rfl
@[simp] theorem State.modCkpt_job (s : State) (f : CkptSt → CkptSt) :
    (s.modCkpt f).job = s.job := rfl
@[simp] theorem State.modCkpt_int (s : State) (f : CkptSt → CkptSt) :
    (s.modCkpt f).int = s.int := rfl
@[simp] theorem State.modCkpt_sec (s : State) (f : CkptSt → CkptSt) :
    (s.modCkpt f).sec = s.sec := rfl
@[simp] theorem State.modCkpt_pwr (s : State) (f : CkptSt → CkptSt) :
    (s.modCkpt f).pwr = s.pwr := rfl
@[simp] theorem State.modCkpt_host (s : State) (f : CkptSt → CkptSt) :
    (s.modCkpt f).host = s.host := rfl
@[simp] theorem State.modCkpt_span (s : State) (f : CkptSt → CkptSt) :
    (s.modCkpt f).span = s.span := rfl
@[simp] theorem State.modCkpt_vaults (s : State) (f : CkptSt → CkptSt) :
    (s.modCkpt f).vaults = s.vaults := rfl
@[simp] theorem State.modCkpt_fars (s : State) (f : CkptSt → CkptSt) :
    (s.modCkpt f).fars = s.fars := rfl
@[simp] theorem State.modCkpt_caches (s : State) (f : CkptSt → CkptSt) :
    (s.modCkpt f).caches = s.caches := rfl
@[simp] theorem State.modCkpt_ports (s : State) (f : CkptSt → CkptSt) :
    (s.modCkpt f).ports = s.ports := rfl
@[simp] theorem State.modCkpt_env (s : State) (f : CkptSt → CkptSt) :
    (s.modCkpt f).env = s.env := rfl
@[simp] theorem State.modCkpt_upd (s : State) (f : CkptSt → CkptSt) :
    (s.modCkpt f).upd = s.upd := rfl
@[simp] theorem State.modCkpt_ckpt (s : State) (f : CkptSt → CkptSt) :
    (s.modCkpt f).ckpt = f s.ckpt := rfl
@[simp] theorem State.modCkpt_eng (s : State) (f : CkptSt → CkptSt) :
    (s.modCkpt f).eng = s.eng := rfl

/-! State.modCtl: a vault or a far channel. -/

@[simp] theorem State.modCtl_pending (s : State) (c : CtlId) (f : CtlSt → CtlSt) :
    (s.modCtl c f).pending = s.pending := by cases c <;> rfl
@[simp] theorem State.modCtl_free (s : State) (c : CtlId) (f : CtlSt → CtlSt) :
    (s.modCtl c f).free = s.free := by cases c <;> rfl
@[simp] theorem State.modCtl_out (s : State) (c : CtlId) (f : CtlSt → CtlSt) :
    (s.modCtl c f).out = s.out := by cases c <;> rfl
@[simp] theorem State.modCtl_glb (s : State) (c : CtlId) (f : CtlSt → CtlSt) :
    (s.modCtl c f).glb = s.glb := by cases c <;> rfl
@[simp] theorem State.modCtl_job (s : State) (c : CtlId) (f : CtlSt → CtlSt) :
    (s.modCtl c f).job = s.job := by cases c <;> rfl
@[simp] theorem State.modCtl_int (s : State) (c : CtlId) (f : CtlSt → CtlSt) :
    (s.modCtl c f).int = s.int := by cases c <;> rfl
@[simp] theorem State.modCtl_sec (s : State) (c : CtlId) (f : CtlSt → CtlSt) :
    (s.modCtl c f).sec = s.sec := by cases c <;> rfl
@[simp] theorem State.modCtl_pwr (s : State) (c : CtlId) (f : CtlSt → CtlSt) :
    (s.modCtl c f).pwr = s.pwr := by cases c <;> rfl
@[simp] theorem State.modCtl_host (s : State) (c : CtlId) (f : CtlSt → CtlSt) :
    (s.modCtl c f).host = s.host := by cases c <;> rfl
@[simp] theorem State.modCtl_span (s : State) (c : CtlId) (f : CtlSt → CtlSt) :
    (s.modCtl c f).span = s.span := by cases c <;> rfl
@[simp] theorem State.modCtl_caches (s : State) (c : CtlId) (f : CtlSt → CtlSt) :
    (s.modCtl c f).caches = s.caches := by cases c <;> rfl
@[simp] theorem State.modCtl_ports (s : State) (c : CtlId) (f : CtlSt → CtlSt) :
    (s.modCtl c f).ports = s.ports := by cases c <;> rfl
@[simp] theorem State.modCtl_env (s : State) (c : CtlId) (f : CtlSt → CtlSt) :
    (s.modCtl c f).env = s.env := by cases c <;> rfl
@[simp] theorem State.modCtl_upd (s : State) (c : CtlId) (f : CtlSt → CtlSt) :
    (s.modCtl c f).upd = s.upd := by cases c <;> rfl
@[simp] theorem State.modCtl_ckpt (s : State) (c : CtlId) (f : CtlSt → CtlSt) :
    (s.modCtl c f).ckpt = s.ckpt := by cases c <;> rfl
@[simp] theorem State.modCtl_eng (s : State) (c : CtlId) (f : CtlSt → CtlSt) :
    (s.modCtl c f).eng = s.eng := by cases c <;> rfl
@[simp] theorem State.modCtl_vault_vaults (s : State) (v : VaultId) (f : CtlSt → CtlSt) :
    (s.modCtl (.vault v) f).vaults = s.vaults.set v.val (f s.vaults[v.val]) := rfl
@[simp] theorem State.modCtl_vault_fars (s : State) (v : VaultId) (f : CtlSt → CtlSt) :
    (s.modCtl (.vault v) f).fars = s.fars := rfl
@[simp] theorem State.modCtl_far_fars (s : State) (n : FarId) (f : CtlSt → CtlSt) :
    (s.modCtl (.far n) f).fars = s.fars.set n.val (f s.fars[n.val]) := rfl
@[simp] theorem State.modCtl_far_vaults (s : State) (n : FarId) (f : CtlSt → CtlSt) :
    (s.modCtl (.far n) f).vaults = s.vaults := rfl
@[simp] theorem State.modCtl_ctl_self (s : State) (c : CtlId) (f : CtlSt → CtlSt) : (s.modCtl c f).ctl c = f (s.ctl c) := by
  cases c <;> simp [State.modCtl, State.ctl]
theorem State.modCtl_ctl_other (s : State) (c d : CtlId) (f : CtlSt → CtlSt) (h : c ≠ d) :
    (s.modCtl c f).ctl d = s.ctl d := by
  cases c with
  | vault v =>
    cases d with
    | vault w =>
      have hv : v.val ≠ w.val := fun e => h (by rw [Fin.ext e])
      simp [State.modCtl, State.ctl, hv]
    | far w => rfl
  | far v =>
    cases d with
    | vault w => rfl
    | far w =>
      have hv : v.val ≠ w.val := fun e => h (by rw [Fin.ext e])
      simp [State.modCtl, State.ctl, hv]
@[simp] theorem State.modEng_self (s : State) (e : EngineId) (f : Engine → Engine) :
    (s.modEng e f).eng[e.val] = f s.eng[e.val] := by simp [State.modEng]
theorem State.modEng_other (s : State) (e : EngineId) (f : Engine → Engine) (i : Nat) (hi : i < 128) (h : e.val ≠ i) :
    (s.modEng e f).eng[i] = s.eng[i] := by simp [State.modEng, h]

end Sys2Proof.Machine
end

