-- ==== Sys2Proof/Laws/Frames.lean ====
section
/-! SUPPORT. What the shared operations leave as it was. -/

namespace Sys2Proof.Machine

theorem foldl_keep {α β : Type} (g : State → β) (f : State → α → State) (l : List α) (s : State)
    (h : ∀ s a, g (f s a) = g s) : g (l.foldl f s) = g s := by
  induction l generalizing s with
  | nil => rfl
  | cons a l ih => exact (ih (f s a)).trans (h s a)

@[simp] theorem State.event_pending (s : State) (i : IslandIdx) :
    (State.event s i).2.pending = s.pending := rfl
@[simp] theorem State.event_free (s : State) (i : IslandIdx) :
    (State.event s i).2.free = s.free := rfl
@[simp] theorem State.event_out (s : State) (i : IslandIdx) :
    (State.event s i).2.out = s.out := rfl
@[simp] theorem State.event_job (s : State) (i : IslandIdx) :
    (State.event s i).2.job = s.job := rfl
@[simp] theorem State.event_int (s : State) (i : IslandIdx) :
    (State.event s i).2.int = s.int := rfl
@[simp] theorem State.event_sec (s : State) (i : IslandIdx) :
    (State.event s i).2.sec = s.sec := rfl
@[simp] theorem State.event_pwr (s : State) (i : IslandIdx) :
    (State.event s i).2.pwr = s.pwr := rfl
@[simp] theorem State.event_host (s : State) (i : IslandIdx) :
    (State.event s i).2.host = s.host := rfl
@[simp] theorem State.event_span (s : State) (i : IslandIdx) :
    (State.event s i).2.span = s.span := rfl
@[simp] theorem State.event_vaults (s : State) (i : IslandIdx) :
    (State.event s i).2.vaults = s.vaults := rfl
@[simp] theorem State.event_fars (s : State) (i : IslandIdx) :
    (State.event s i).2.fars = s.fars := rfl
@[simp] theorem State.event_caches (s : State) (i : IslandIdx) :
    (State.event s i).2.caches = s.caches := rfl
@[simp] theorem State.event_ports (s : State) (i : IslandIdx) :
    (State.event s i).2.ports = s.ports := rfl
@[simp] theorem State.event_env (s : State) (i : IslandIdx) :
    (State.event s i).2.env = s.env := rfl
@[simp] theorem State.event_upd (s : State) (i : IslandIdx) :
    (State.event s i).2.upd = s.upd := rfl
@[simp] theorem State.event_ckpt (s : State) (i : IslandIdx) :
    (State.event s i).2.ckpt = s.ckpt := rfl
@[simp] theorem State.event_eng (s : State) (i : IslandIdx) :
    (State.event s i).2.eng = s.eng := rfl
@[simp] theorem State.setErr_pending (s : State) (i : Nat) :
    (State.setErr s i).pending = s.pending := by
  unfold State.setErr
  simp [apply_ite State.pending]
@[simp] theorem State.setErr_free (s : State) (i : Nat) :
    (State.setErr s i).free = s.free := by
  unfold State.setErr
  simp [apply_ite State.free]
@[simp] theorem State.setErr_glb (s : State) (i : Nat) :
    (State.setErr s i).glb = s.glb := by
  unfold State.setErr
  simp [apply_ite State.glb]
@[simp] theorem State.setErr_job (s : State) (i : Nat) :
    (State.setErr s i).job = s.job := by
  unfold State.setErr
  simp [apply_ite State.job]
@[simp] theorem State.setErr_sec (s : State) (i : Nat) :
    (State.setErr s i).sec = s.sec := by
  unfold State.setErr
  simp [apply_ite State.sec]
@[simp] theorem State.setErr_pwr (s : State) (i : Nat) :
    (State.setErr s i).pwr = s.pwr := by
  unfold State.setErr
  simp [apply_ite State.pwr]
@[simp] theorem State.setErr_host (s : State) (i : Nat) :
    (State.setErr s i).host = s.host := by
  unfold State.setErr
  simp [apply_ite State.host]
@[simp] theorem State.setErr_span (s : State) (i : Nat) :
    (State.setErr s i).span = s.span := by
  unfold State.setErr
  simp [apply_ite State.span]
@[simp] theorem State.setErr_vaults (s : State) (i : Nat) :
    (State.setErr s i).vaults = s.vaults := by
  unfold State.setErr
  simp [apply_ite State.vaults]
@[simp] theorem State.setErr_fars (s : State) (i : Nat) :
    (State.setErr s i).fars = s.fars := by
  unfold State.setErr
  simp [apply_ite State.fars]
@[simp] theorem State.setErr_caches (s : State) (i : Nat) :
    (State.setErr s i).caches = s.caches := by
  unfold State.setErr
  simp [apply_ite State.caches]
@[simp] theorem State.setErr_ports (s : State) (i : Nat) :
    (State.setErr s i).ports = s.ports := by
  unfold State.setErr
  simp [apply_ite State.ports]
@[simp] theorem State.setErr_env (s : State) (i : Nat) :
    (State.setErr s i).env = s.env := by
  unfold State.setErr
  simp [apply_ite State.env]
@[simp] theorem State.setErr_upd (s : State) (i : Nat) :
    (State.setErr s i).upd = s.upd := by
  unfold State.setErr
  simp [apply_ite State.upd]
@[simp] theorem State.setErr_ckpt (s : State) (i : Nat) :
    (State.setErr s i).ckpt = s.ckpt := by
  unfold State.setErr
  simp [apply_ite State.ckpt]
@[simp] theorem State.setErr_eng (s : State) (i : Nat) :
    (State.setErr s i).eng = s.eng := by
  unfold State.setErr
  simp [apply_ite State.eng]
@[simp] theorem State.postAt_pending (s : State) (i : IslandIdx) (cls : Byte) (st : Status) (step : StepNo) (mb : W16) (r : Rec4) :
    (State.postAt s i cls st step mb r).pending = s.pending := by
  unfold State.postAt
  dsimp only; (repeat' split) <;> simp
@[simp] theorem State.postAt_free (s : State) (i : IslandIdx) (cls : Byte) (st : Status) (step : StepNo) (mb : W16) (r : Rec4) :
    (State.postAt s i cls st step mb r).free = s.free := by
  unfold State.postAt
  dsimp only; (repeat' split) <;> simp
@[simp] theorem State.postAt_job (s : State) (i : IslandIdx) (cls : Byte) (st : Status) (step : StepNo) (mb : W16) (r : Rec4) :
    (State.postAt s i cls st step mb r).job = s.job := by
  unfold State.postAt
  dsimp only; (repeat' split) <;> simp
@[simp] theorem State.postAt_sec (s : State) (i : IslandIdx) (cls : Byte) (st : Status) (step : StepNo) (mb : W16) (r : Rec4) :
    (State.postAt s i cls st step mb r).sec = s.sec := by
  unfold State.postAt
  dsimp only; (repeat' split) <;> simp
@[simp] theorem State.postAt_pwr (s : State) (i : IslandIdx) (cls : Byte) (st : Status) (step : StepNo) (mb : W16) (r : Rec4) :
    (State.postAt s i cls st step mb r).pwr = s.pwr := by
  unfold State.postAt
  dsimp only; (repeat' split) <;> simp
@[simp] theorem State.postAt_host (s : State) (i : IslandIdx) (cls : Byte) (st : Status) (step : StepNo) (mb : W16) (r : Rec4) :
    (State.postAt s i cls st step mb r).host = s.host := by
  unfold State.postAt
  dsimp only; (repeat' split) <;> simp
@[simp] theorem State.postAt_span (s : State) (i : IslandIdx) (cls : Byte) (st : Status) (step : StepNo) (mb : W16) (r : Rec4) :
    (State.postAt s i cls st step mb r).span = s.span := by
  unfold State.postAt
  dsimp only; (repeat' split) <;> simp
@[simp] theorem State.postAt_vaults (s : State) (i : IslandIdx) (cls : Byte) (st : Status) (step : StepNo) (mb : W16) (r : Rec4) :
    (State.postAt s i cls st step mb r).vaults = s.vaults := by
  unfold State.postAt
  dsimp only; (repeat' split) <;> simp
@[simp] theorem State.postAt_fars (s : State) (i : IslandIdx) (cls : Byte) (st : Status) (step : StepNo) (mb : W16) (r : Rec4) :
    (State.postAt s i cls st step mb r).fars = s.fars := by
  unfold State.postAt
  dsimp only; (repeat' split) <;> simp
@[simp] theorem State.postAt_caches (s : State) (i : IslandIdx) (cls : Byte) (st : Status) (step : StepNo) (mb : W16) (r : Rec4) :
    (State.postAt s i cls st step mb r).caches = s.caches := by
  unfold State.postAt
  dsimp only; (repeat' split) <;> simp
@[simp] theorem State.postAt_ports (s : State) (i : IslandIdx) (cls : Byte) (st : Status) (step : StepNo) (mb : W16) (r : Rec4) :
    (State.postAt s i cls st step mb r).ports = s.ports := by
  unfold State.postAt
  dsimp only; (repeat' split) <;> simp
@[simp] theorem State.postAt_env (s : State) (i : IslandIdx) (cls : Byte) (st : Status) (step : StepNo) (mb : W16) (r : Rec4) :
    (State.postAt s i cls st step mb r).env = s.env := by
  unfold State.postAt
  dsimp only; (repeat' split) <;> simp
@[simp] theorem State.postAt_upd (s : State) (i : IslandIdx) (cls : Byte) (st : Status) (step : StepNo) (mb : W16) (r : Rec4) :
    (State.postAt s i cls st step mb r).upd = s.upd := by
  unfold State.postAt
  dsimp only; (repeat' split) <;> simp
@[simp] theorem State.postAt_ckpt (s : State) (i : IslandIdx) (cls : Byte) (st : Status) (step : StepNo) (mb : W16) (r : Rec4) :
    (State.postAt s i cls st step mb r).ckpt = s.ckpt := by
  unfold State.postAt
  dsimp only; (repeat' split) <;> simp
@[simp] theorem State.postAt_eng (s : State) (i : IslandIdx) (cls : Byte) (st : Status) (step : StepNo) (mb : W16) (r : Rec4) :
    (State.postAt s i cls st step mb r).eng = s.eng := by
  unfold State.postAt
  dsimp only; (repeat' split) <;> simp
@[simp] theorem State.post_pending (s : State) (i : IslandIdx) (cls : Byte) (st : Status) (mb : W16) (r : Rec4) :
    (State.post s i cls st mb r).pending = s.pending := by
  unfold State.post
  simp
@[simp] theorem State.post_free (s : State) (i : IslandIdx) (cls : Byte) (st : Status) (mb : W16) (r : Rec4) :
    (State.post s i cls st mb r).free = s.free := by
  unfold State.post
  simp
@[simp] theorem State.post_job (s : State) (i : IslandIdx) (cls : Byte) (st : Status) (mb : W16) (r : Rec4) :
    (State.post s i cls st mb r).job = s.job := by
  unfold State.post
  simp
@[simp] theorem State.post_sec (s : State) (i : IslandIdx) (cls : Byte) (st : Status) (mb : W16) (r : Rec4) :
    (State.post s i cls st mb r).sec = s.sec := by
  unfold State.post
  simp
@[simp] theorem State.post_pwr (s : State) (i : IslandIdx) (cls : Byte) (st : Status) (mb : W16) (r : Rec4) :
    (State.post s i cls st mb r).pwr = s.pwr := by
  unfold State.post
  simp
@[simp] theorem State.post_host (s : State) (i : IslandIdx) (cls : Byte) (st : Status) (mb : W16) (r : Rec4) :
    (State.post s i cls st mb r).host = s.host := by
  unfold State.post
  simp
@[simp] theorem State.post_span (s : State) (i : IslandIdx) (cls : Byte) (st : Status) (mb : W16) (r : Rec4) :
    (State.post s i cls st mb r).span = s.span := by
  unfold State.post
  simp
@[simp] theorem State.post_vaults (s : State) (i : IslandIdx) (cls : Byte) (st : Status) (mb : W16) (r : Rec4) :
    (State.post s i cls st mb r).vaults = s.vaults := by
  unfold State.post
  simp
@[simp] theorem State.post_fars (s : State) (i : IslandIdx) (cls : Byte) (st : Status) (mb : W16) (r : Rec4) :
    (State.post s i cls st mb r).fars = s.fars := by
  unfold State.post
  simp
@[simp] theorem State.post_caches (s : State) (i : IslandIdx) (cls : Byte) (st : Status) (mb : W16) (r : Rec4) :
    (State.post s i cls st mb r).caches = s.caches := by
  unfold State.post
  simp
@[simp] theorem State.post_ports (s : State) (i : IslandIdx) (cls : Byte) (st : Status) (mb : W16) (r : Rec4) :
    (State.post s i cls st mb r).ports = s.ports := by
  unfold State.post
  simp
@[simp] theorem State.post_env (s : State) (i : IslandIdx) (cls : Byte) (st : Status) (mb : W16) (r : Rec4) :
    (State.post s i cls st mb r).env = s.env := by
  unfold State.post
  simp
@[simp] theorem State.post_upd (s : State) (i : IslandIdx) (cls : Byte) (st : Status) (mb : W16) (r : Rec4) :
    (State.post s i cls st mb r).upd = s.upd := by
  unfold State.post
  simp
@[simp] theorem State.post_ckpt (s : State) (i : IslandIdx) (cls : Byte) (st : Status) (mb : W16) (r : Rec4) :
    (State.post s i cls st mb r).ckpt = s.ckpt := by
  unfold State.post
  simp
@[simp] theorem State.post_eng (s : State) (i : IslandIdx) (cls : Byte) (st : Status) (mb : W16) (r : Rec4) :
    (State.post s i cls st mb r).eng = s.eng := by
  unfold State.post
  simp
@[simp] theorem State.dbAppendEntry_pending (s : State) (x : DbEntry) :
    (State.dbAppendEntry s x).pending = s.pending := by
  unfold State.dbAppendEntry
  simp [apply_ite State.pending]
@[simp] theorem State.dbAppendEntry_free (s : State) (x : DbEntry) :
    (State.dbAppendEntry s x).free = s.free := by
  unfold State.dbAppendEntry
  simp [apply_ite State.free]
@[simp] theorem State.dbAppendEntry_glb (s : State) (x : DbEntry) :
    (State.dbAppendEntry s x).glb = s.glb := by
  unfold State.dbAppendEntry
  simp [apply_ite State.glb]
@[simp] theorem State.dbAppendEntry_job (s : State) (x : DbEntry) :
    (State.dbAppendEntry s x).job = s.job := by
  unfold State.dbAppendEntry
  simp [apply_ite State.job]
@[simp] theorem State.dbAppendEntry_int (s : State) (x : DbEntry) :
    (State.dbAppendEntry s x).int = s.int := by
  unfold State.dbAppendEntry
  simp [apply_ite State.int]
@[simp] theorem State.dbAppendEntry_pwr (s : State) (x : DbEntry) :
    (State.dbAppendEntry s x).pwr = s.pwr := by
  unfold State.dbAppendEntry
  simp [apply_ite State.pwr]
@[simp] theorem State.dbAppendEntry_host (s : State) (x : DbEntry) :
    (State.dbAppendEntry s x).host = s.host := by
  unfold State.dbAppendEntry
  simp [apply_ite State.host]
@[simp] theorem State.dbAppendEntry_span (s : State) (x : DbEntry) :
    (State.dbAppendEntry s x).span = s.span := by
  unfold State.dbAppendEntry
  simp [apply_ite State.span]
@[simp] theorem State.dbAppendEntry_vaults (s : State) (x : DbEntry) :
    (State.dbAppendEntry s x).vaults = s.vaults := by
  unfold State.dbAppendEntry
  simp [apply_ite State.vaults]
@[simp] theorem State.dbAppendEntry_fars (s : State) (x : DbEntry) :
    (State.dbAppendEntry s x).fars = s.fars := by
  unfold State.dbAppendEntry
  simp [apply_ite State.fars]
@[simp] theorem State.dbAppendEntry_caches (s : State) (x : DbEntry) :
    (State.dbAppendEntry s x).caches = s.caches := by
  unfold State.dbAppendEntry
  simp [apply_ite State.caches]
@[simp] theorem State.dbAppendEntry_ports (s : State) (x : DbEntry) :
    (State.dbAppendEntry s x).ports = s.ports := by
  unfold State.dbAppendEntry
  simp [apply_ite State.ports]
@[simp] theorem State.dbAppendEntry_env (s : State) (x : DbEntry) :
    (State.dbAppendEntry s x).env = s.env := by
  unfold State.dbAppendEntry
  simp [apply_ite State.env]
@[simp] theorem State.dbAppendEntry_upd (s : State) (x : DbEntry) :
    (State.dbAppendEntry s x).upd = s.upd := by
  unfold State.dbAppendEntry
  simp [apply_ite State.upd]
@[simp] theorem State.dbAppendEntry_ckpt (s : State) (x : DbEntry) :
    (State.dbAppendEntry s x).ckpt = s.ckpt := by
  unfold State.dbAppendEntry
  simp [apply_ite State.ckpt]
@[simp] theorem State.dbAppendEntry_eng (s : State) (x : DbEntry) :
    (State.dbAppendEntry s x).eng = s.eng := by
  unfold State.dbAppendEntry
  simp [apply_ite State.eng]
@[simp] theorem State.dbAppend_pending (s : State) (kind role source : Byte) (st : Status) (code : Byte) (target : W64) (digest : Dig512) :
    (State.dbAppend s kind role source st code target digest).pending = s.pending := by
  unfold State.dbAppend
  simp
@[simp] theorem State.dbAppend_free (s : State) (kind role source : Byte) (st : Status) (code : Byte) (target : W64) (digest : Dig512) :
    (State.dbAppend s kind role source st code target digest).free = s.free := by
  unfold State.dbAppend
  simp
@[simp] theorem State.dbAppend_glb (s : State) (kind role source : Byte) (st : Status) (code : Byte) (target : W64) (digest : Dig512) :
    (State.dbAppend s kind role source st code target digest).glb = s.glb := by
  unfold State.dbAppend
  simp
@[simp] theorem State.dbAppend_job (s : State) (kind role source : Byte) (st : Status) (code : Byte) (target : W64) (digest : Dig512) :
    (State.dbAppend s kind role source st code target digest).job = s.job := by
  unfold State.dbAppend
  simp
@[simp] theorem State.dbAppend_int (s : State) (kind role source : Byte) (st : Status) (code : Byte) (target : W64) (digest : Dig512) :
    (State.dbAppend s kind role source st code target digest).int = s.int := by
  unfold State.dbAppend
  simp
@[simp] theorem State.dbAppend_pwr (s : State) (kind role source : Byte) (st : Status) (code : Byte) (target : W64) (digest : Dig512) :
    (State.dbAppend s kind role source st code target digest).pwr = s.pwr := by
  unfold State.dbAppend
  simp
@[simp] theorem State.dbAppend_host (s : State) (kind role source : Byte) (st : Status) (code : Byte) (target : W64) (digest : Dig512) :
    (State.dbAppend s kind role source st code target digest).host = s.host := by
  unfold State.dbAppend
  simp
@[simp] theorem State.dbAppend_span (s : State) (kind role source : Byte) (st : Status) (code : Byte) (target : W64) (digest : Dig512) :
    (State.dbAppend s kind role source st code target digest).span = s.span := by
  unfold State.dbAppend
  simp
@[simp] theorem State.dbAppend_vaults (s : State) (kind role source : Byte) (st : Status) (code : Byte) (target : W64) (digest : Dig512) :
    (State.dbAppend s kind role source st code target digest).vaults = s.vaults := by
  unfold State.dbAppend
  simp
@[simp] theorem State.dbAppend_fars (s : State) (kind role source : Byte) (st : Status) (code : Byte) (target : W64) (digest : Dig512) :
    (State.dbAppend s kind role source st code target digest).fars = s.fars := by
  unfold State.dbAppend
  simp
@[simp] theorem State.dbAppend_caches (s : State) (kind role source : Byte) (st : Status) (code : Byte) (target : W64) (digest : Dig512) :
    (State.dbAppend s kind role source st code target digest).caches = s.caches := by
  unfold State.dbAppend
  simp
@[simp] theorem State.dbAppend_ports (s : State) (kind role source : Byte) (st : Status) (code : Byte) (target : W64) (digest : Dig512) :
    (State.dbAppend s kind role source st code target digest).ports = s.ports := by
  unfold State.dbAppend
  simp
@[simp] theorem State.dbAppend_env (s : State) (kind role source : Byte) (st : Status) (code : Byte) (target : W64) (digest : Dig512) :
    (State.dbAppend s kind role source st code target digest).env = s.env := by
  unfold State.dbAppend
  simp
@[simp] theorem State.dbAppend_upd (s : State) (kind role source : Byte) (st : Status) (code : Byte) (target : W64) (digest : Dig512) :
    (State.dbAppend s kind role source st code target digest).upd = s.upd := by
  unfold State.dbAppend
  simp
@[simp] theorem State.dbAppend_ckpt (s : State) (kind role source : Byte) (st : Status) (code : Byte) (target : W64) (digest : Dig512) :
    (State.dbAppend s kind role source st code target digest).ckpt = s.ckpt := by
  unfold State.dbAppend
  simp
@[simp] theorem State.dbAppend_eng (s : State) (kind role source : Byte) (st : Status) (code : Byte) (target : W64) (digest : Dig512) :
    (State.dbAppend s kind role source st code target digest).eng = s.eng := by
  unfold State.dbAppend
  simp
@[simp] theorem State.dbModule_pending (s : State) (st : Status) (cls : Byte) (target : W64) (digest : Dig512) :
    (State.dbModule s st cls target digest).pending = s.pending := by
  unfold State.dbModule
  simp
@[simp] theorem State.dbModule_free (s : State) (st : Status) (cls : Byte) (target : W64) (digest : Dig512) :
    (State.dbModule s st cls target digest).free = s.free := by
  unfold State.dbModule
  simp
@[simp] theorem State.dbModule_glb (s : State) (st : Status) (cls : Byte) (target : W64) (digest : Dig512) :
    (State.dbModule s st cls target digest).glb = s.glb := by
  unfold State.dbModule
  simp
@[simp] theorem State.dbModule_job (s : State) (st : Status) (cls : Byte) (target : W64) (digest : Dig512) :
    (State.dbModule s st cls target digest).job = s.job := by
  unfold State.dbModule
  simp
@[simp] theorem State.dbModule_int (s : State) (st : Status) (cls : Byte) (target : W64) (digest : Dig512) :
    (State.dbModule s st cls target digest).int = s.int := by
  unfold State.dbModule
  simp
@[simp] theorem State.dbModule_pwr (s : State) (st : Status) (cls : Byte) (target : W64) (digest : Dig512) :
    (State.dbModule s st cls target digest).pwr = s.pwr := by
  unfold State.dbModule
  simp
@[simp] theorem State.dbModule_host (s : State) (st : Status) (cls : Byte) (target : W64) (digest : Dig512) :
    (State.dbModule s st cls target digest).host = s.host := by
  unfold State.dbModule
  simp
@[simp] theorem State.dbModule_span (s : State) (st : Status) (cls : Byte) (target : W64) (digest : Dig512) :
    (State.dbModule s st cls target digest).span = s.span := by
  unfold State.dbModule
  simp
@[simp] theorem State.dbModule_vaults (s : State) (st : Status) (cls : Byte) (target : W64) (digest : Dig512) :
    (State.dbModule s st cls target digest).vaults = s.vaults := by
  unfold State.dbModule
  simp
@[simp] theorem State.dbModule_fars (s : State) (st : Status) (cls : Byte) (target : W64) (digest : Dig512) :
    (State.dbModule s st cls target digest).fars = s.fars := by
  unfold State.dbModule
  simp
@[simp] theorem State.dbModule_caches (s : State) (st : Status) (cls : Byte) (target : W64) (digest : Dig512) :
    (State.dbModule s st cls target digest).caches = s.caches := by
  unfold State.dbModule
  simp
@[simp] theorem State.dbModule_ports (s : State) (st : Status) (cls : Byte) (target : W64) (digest : Dig512) :
    (State.dbModule s st cls target digest).ports = s.ports := by
  unfold State.dbModule
  simp
@[simp] theorem State.dbModule_env (s : State) (st : Status) (cls : Byte) (target : W64) (digest : Dig512) :
    (State.dbModule s st cls target digest).env = s.env := by
  unfold State.dbModule
  simp
@[simp] theorem State.dbModule_upd (s : State) (st : Status) (cls : Byte) (target : W64) (digest : Dig512) :
    (State.dbModule s st cls target digest).upd = s.upd := by
  unfold State.dbModule
  simp
@[simp] theorem State.dbModule_ckpt (s : State) (st : Status) (cls : Byte) (target : W64) (digest : Dig512) :
    (State.dbModule s st cls target digest).ckpt = s.ckpt := by
  unfold State.dbModule
  simp
@[simp] theorem State.dbModule_eng (s : State) (st : Status) (cls : Byte) (target : W64) (digest : Dig512) :
    (State.dbModule s st cls target digest).eng = s.eng := by
  unfold State.dbModule
  simp
@[simp] theorem State.reserve_pending (s : State) (src : CmdSrc) :
    (State.reserve s src).pending = s.pending := by
  unfold State.reserve
  cases src <;> rfl
@[simp] theorem State.reserve_free (s : State) (src : CmdSrc) :
    (State.reserve s src).free = s.free := by
  unfold State.reserve
  cases src <;> rfl
@[simp] theorem State.reserve_out (s : State) (src : CmdSrc) :
    (State.reserve s src).out = s.out := by
  unfold State.reserve
  cases src <;> rfl
@[simp] theorem State.reserve_glb (s : State) (src : CmdSrc) :
    (State.reserve s src).glb = s.glb := by
  unfold State.reserve
  cases src <;> rfl
@[simp] theorem State.reserve_job (s : State) (src : CmdSrc) :
    (State.reserve s src).job = s.job := by
  unfold State.reserve
  cases src <;> rfl
@[simp] theorem State.reserve_int (s : State) (src : CmdSrc) :
    (State.reserve s src).int = s.int := by
  unfold State.reserve
  cases src <;> rfl
@[simp] theorem State.reserve_sec (s : State) (src : CmdSrc) :
    (State.reserve s src).sec = s.sec := by
  unfold State.reserve
  cases src <;> rfl
@[simp] theorem State.reserve_pwr (s : State) (src : CmdSrc) :
    (State.reserve s src).pwr = s.pwr := by
  unfold State.reserve
  cases src <;> rfl
@[simp] theorem State.reserve_span (s : State) (src : CmdSrc) :
    (State.reserve s src).span = s.span := by
  unfold State.reserve
  cases src <;> rfl
@[simp] theorem State.reserve_vaults (s : State) (src : CmdSrc) :
    (State.reserve s src).vaults = s.vaults := by
  unfold State.reserve
  cases src <;> rfl
@[simp] theorem State.reserve_fars (s : State) (src : CmdSrc) :
    (State.reserve s src).fars = s.fars := by
  unfold State.reserve
  cases src <;> rfl
@[simp] theorem State.reserve_caches (s : State) (src : CmdSrc) :
    (State.reserve s src).caches = s.caches := by
  unfold State.reserve
  cases src <;> rfl
@[simp] theorem State.reserve_ports (s : State) (src : CmdSrc) :
    (State.reserve s src).ports = s.ports := by
  unfold State.reserve
  cases src <;> rfl
@[simp] theorem State.reserve_env (s : State) (src : CmdSrc) :
    (State.reserve s src).env = s.env := by
  unfold State.reserve
  cases src <;> rfl
@[simp] theorem State.reserve_upd (s : State) (src : CmdSrc) :
    (State.reserve s src).upd = s.upd := by
  unfold State.reserve
  cases src <;> rfl
@[simp] theorem State.reserve_ckpt (s : State) (src : CmdSrc) :
    (State.reserve s src).ckpt = s.ckpt := by
  unfold State.reserve
  cases src <;> rfl
@[simp] theorem State.reserve_eng (s : State) (src : CmdSrc) :
    (State.reserve s src).eng = s.eng := by
  unfold State.reserve
  cases src <;> rfl
@[simp] theorem State.takeToken_pending (s : State) (role : Byte) (c : Cmd) :
    (State.takeToken s role c).pending = s.pending := rfl
@[simp] theorem State.takeToken_free (s : State) (role : Byte) (c : Cmd) :
    (State.takeToken s role c).free = s.free := rfl
@[simp] theorem State.takeToken_out (s : State) (role : Byte) (c : Cmd) :
    (State.takeToken s role c).out = s.out := rfl
@[simp] theorem State.takeToken_glb (s : State) (role : Byte) (c : Cmd) :
    (State.takeToken s role c).glb = s.glb := rfl
@[simp] theorem State.takeToken_job (s : State) (role : Byte) (c : Cmd) :
    (State.takeToken s role c).job = s.job := rfl
@[simp] theorem State.takeToken_int (s : State) (role : Byte) (c : Cmd) :
    (State.takeToken s role c).int = s.int := rfl
@[simp] theorem State.takeToken_pwr (s : State) (role : Byte) (c : Cmd) :
    (State.takeToken s role c).pwr = s.pwr := rfl
@[simp] theorem State.takeToken_host (s : State) (role : Byte) (c : Cmd) :
    (State.takeToken s role c).host = s.host := rfl
@[simp] theorem State.takeToken_span (s : State) (role : Byte) (c : Cmd) :
    (State.takeToken s role c).span = s.span := rfl
@[simp] theorem State.takeToken_vaults (s : State) (role : Byte) (c : Cmd) :
    (State.takeToken s role c).vaults = s.vaults := rfl
@[simp] theorem State.takeToken_fars (s : State) (role : Byte) (c : Cmd) :
    (State.takeToken s role c).fars = s.fars := rfl
@[simp] theorem State.takeToken_caches (s : State) (role : Byte) (c : Cmd) :
    (State.takeToken s role c).caches = s.caches := rfl
@[simp] theorem State.takeToken_ports (s : State) (role : Byte) (c : Cmd) :
    (State.takeToken s role c).ports = s.ports := rfl
@[simp] theorem State.takeToken_env (s : State) (role : Byte) (c : Cmd) :
    (State.takeToken s role c).env = s.env := rfl
@[simp] theorem State.takeToken_upd (s : State) (role : Byte) (c : Cmd) :
    (State.takeToken s role c).upd = s.upd := rfl
@[simp] theorem State.takeToken_ckpt (s : State) (role : Byte) (c : Cmd) :
    (State.takeToken s role c).ckpt = s.ckpt := rfl
@[simp] theorem State.takeToken_eng (s : State) (role : Byte) (c : Cmd) :
    (State.takeToken s role c).eng = s.eng := rfl
@[simp] theorem State.ringComplete_pending (s : State) (r : RingId) (gen : Nat) (st : Status) (tag : W16) (opc : Byte) (res : W64) :
    (State.ringComplete s r gen st tag opc res).pending = s.pending := by
  unfold State.ringComplete
  simp [apply_ite State.pending]
@[simp] theorem State.ringComplete_free (s : State) (r : RingId) (gen : Nat) (st : Status) (tag : W16) (opc : Byte) (res : W64) :
    (State.ringComplete s r gen st tag opc res).free = s.free := by
  unfold State.ringComplete
  simp [apply_ite State.free]
@[simp] theorem State.ringComplete_glb (s : State) (r : RingId) (gen : Nat) (st : Status) (tag : W16) (opc : Byte) (res : W64) :
    (State.ringComplete s r gen st tag opc res).glb = s.glb := by
  unfold State.ringComplete
  simp [apply_ite State.glb]
@[simp] theorem State.ringComplete_job (s : State) (r : RingId) (gen : Nat) (st : Status) (tag : W16) (opc : Byte) (res : W64) :
    (State.ringComplete s r gen st tag opc res).job = s.job := by
  unfold State.ringComplete
  simp [apply_ite State.job]
@[simp] theorem State.ringComplete_int (s : State) (r : RingId) (gen : Nat) (st : Status) (tag : W16) (opc : Byte) (res : W64) :
    (State.ringComplete s r gen st tag opc res).int = s.int := by
  unfold State.ringComplete
  simp [apply_ite State.int]
@[simp] theorem State.ringComplete_sec (s : State) (r : RingId) (gen : Nat) (st : Status) (tag : W16) (opc : Byte) (res : W64) :
    (State.ringComplete s r gen st tag opc res).sec = s.sec := by
  unfold State.ringComplete
  simp [apply_ite State.sec]
@[simp] theorem State.ringComplete_pwr (s : State) (r : RingId) (gen : Nat) (st : Status) (tag : W16) (opc : Byte) (res : W64) :
    (State.ringComplete s r gen st tag opc res).pwr = s.pwr := by
  unfold State.ringComplete
  simp [apply_ite State.pwr]
@[simp] theorem State.ringComplete_span (s : State) (r : RingId) (gen : Nat) (st : Status) (tag : W16) (opc : Byte) (res : W64) :
    (State.ringComplete s r gen st tag opc res).span = s.span := by
  unfold State.ringComplete
  simp [apply_ite State.span]
@[simp] theorem State.ringComplete_vaults (s : State) (r : RingId) (gen : Nat) (st : Status) (tag : W16) (opc : Byte) (res : W64) :
    (State.ringComplete s r gen st tag opc res).vaults = s.vaults := by
  unfold State.ringComplete
  simp [apply_ite State.vaults]
@[simp] theorem State.ringComplete_fars (s : State) (r : RingId) (gen : Nat) (st : Status) (tag : W16) (opc : Byte) (res : W64) :
    (State.ringComplete s r gen st tag opc res).fars = s.fars := by
  unfold State.ringComplete
  simp [apply_ite State.fars]
@[simp] theorem State.ringComplete_caches (s : State) (r : RingId) (gen : Nat) (st : Status) (tag : W16) (opc : Byte) (res : W64) :
    (State.ringComplete s r gen st tag opc res).caches = s.caches := by
  unfold State.ringComplete
  simp [apply_ite State.caches]
@[simp] theorem State.ringComplete_ports (s : State) (r : RingId) (gen : Nat) (st : Status) (tag : W16) (opc : Byte) (res : W64) :
    (State.ringComplete s r gen st tag opc res).ports = s.ports := by
  unfold State.ringComplete
  simp [apply_ite State.ports]
@[simp] theorem State.ringComplete_env (s : State) (r : RingId) (gen : Nat) (st : Status) (tag : W16) (opc : Byte) (res : W64) :
    (State.ringComplete s r gen st tag opc res).env = s.env := by
  unfold State.ringComplete
  simp [apply_ite State.env]
@[simp] theorem State.ringComplete_upd (s : State) (r : RingId) (gen : Nat) (st : Status) (tag : W16) (opc : Byte) (res : W64) :
    (State.ringComplete s r gen st tag opc res).upd = s.upd := by
  unfold State.ringComplete
  simp [apply_ite State.upd]
@[simp] theorem State.ringComplete_ckpt (s : State) (r : RingId) (gen : Nat) (st : Status) (tag : W16) (opc : Byte) (res : W64) :
    (State.ringComplete s r gen st tag opc res).ckpt = s.ckpt := by
  unfold State.ringComplete
  simp [apply_ite State.ckpt]
@[simp] theorem State.ringComplete_eng (s : State) (r : RingId) (gen : Nat) (st : Status) (tag : W16) (opc : Byte) (res : W64) :
    (State.ringComplete s r gen st tag opc res).eng = s.eng := by
  unfold State.ringComplete
  simp [apply_ite State.eng]
@[simp] theorem State.complete_pending (s : State) (p : PendCmd) (st : Status) (res : W64) :
    (State.complete s p st res).pending = s.pending := by
  obtain ⟨src, tag, opc, gen⟩ := p
  cases src <;> simp [State.complete, apply_ite State.pending]
@[simp] theorem State.complete_free (s : State) (p : PendCmd) (st : Status) (res : W64) :
    (State.complete s p st res).free = s.free := by
  obtain ⟨src, tag, opc, gen⟩ := p
  cases src <;> simp [State.complete, apply_ite State.free]
@[simp] theorem State.complete_glb (s : State) (p : PendCmd) (st : Status) (res : W64) :
    (State.complete s p st res).glb = s.glb := by
  obtain ⟨src, tag, opc, gen⟩ := p
  cases src <;> simp [State.complete, apply_ite State.glb]
@[simp] theorem State.complete_int (s : State) (p : PendCmd) (st : Status) (res : W64) :
    (State.complete s p st res).int = s.int := by
  obtain ⟨src, tag, opc, gen⟩ := p
  cases src <;> simp [State.complete, apply_ite State.int]
@[simp] theorem State.complete_sec (s : State) (p : PendCmd) (st : Status) (res : W64) :
    (State.complete s p st res).sec = s.sec := by
  obtain ⟨src, tag, opc, gen⟩ := p
  cases src <;> simp [State.complete, apply_ite State.sec]
@[simp] theorem State.complete_pwr (s : State) (p : PendCmd) (st : Status) (res : W64) :
    (State.complete s p st res).pwr = s.pwr := by
  obtain ⟨src, tag, opc, gen⟩ := p
  cases src <;> simp [State.complete, apply_ite State.pwr]
@[simp] theorem State.complete_span (s : State) (p : PendCmd) (st : Status) (res : W64) :
    (State.complete s p st res).span = s.span := by
  obtain ⟨src, tag, opc, gen⟩ := p
  cases src <;> simp [State.complete, apply_ite State.span]
@[simp] theorem State.complete_vaults (s : State) (p : PendCmd) (st : Status) (res : W64) :
    (State.complete s p st res).vaults = s.vaults := by
  obtain ⟨src, tag, opc, gen⟩ := p
  cases src <;> simp [State.complete, apply_ite State.vaults]
@[simp] theorem State.complete_fars (s : State) (p : PendCmd) (st : Status) (res : W64) :
    (State.complete s p st res).fars = s.fars := by
  obtain ⟨src, tag, opc, gen⟩ := p
  cases src <;> simp [State.complete, apply_ite State.fars]
@[simp] theorem State.complete_caches (s : State) (p : PendCmd) (st : Status) (res : W64) :
    (State.complete s p st res).caches = s.caches := by
  obtain ⟨src, tag, opc, gen⟩ := p
  cases src <;> simp [State.complete, apply_ite State.caches]
@[simp] theorem State.complete_ports (s : State) (p : PendCmd) (st : Status) (res : W64) :
    (State.complete s p st res).ports = s.ports := by
  obtain ⟨src, tag, opc, gen⟩ := p
  cases src <;> simp [State.complete, apply_ite State.ports]
@[simp] theorem State.complete_env (s : State) (p : PendCmd) (st : Status) (res : W64) :
    (State.complete s p st res).env = s.env := by
  obtain ⟨src, tag, opc, gen⟩ := p
  cases src <;> simp [State.complete, apply_ite State.env]
@[simp] theorem State.complete_upd (s : State) (p : PendCmd) (st : Status) (res : W64) :
    (State.complete s p st res).upd = s.upd := by
  obtain ⟨src, tag, opc, gen⟩ := p
  cases src <;> simp [State.complete, apply_ite State.upd]
@[simp] theorem State.complete_ckpt (s : State) (p : PendCmd) (st : Status) (res : W64) :
    (State.complete s p st res).ckpt = s.ckpt := by
  obtain ⟨src, tag, opc, gen⟩ := p
  cases src <;> simp [State.complete, apply_ite State.ckpt]
@[simp] theorem State.complete_eng (s : State) (p : PendCmd) (st : Status) (res : W64) :
    (State.complete s p st res).eng = s.eng := by
  obtain ⟨src, tag, opc, gen⟩ := p
  cases src <;> simp [State.complete, apply_ite State.eng]
@[simp] theorem State.completeOpt_pending (s : State) (p : Option PendCmd) (st : Status) :
    (State.completeOpt s p st).pending = s.pending := by
  cases p <;> simp [State.completeOpt]
@[simp] theorem State.completeOpt_free (s : State) (p : Option PendCmd) (st : Status) :
    (State.completeOpt s p st).free = s.free := by
  cases p <;> simp [State.completeOpt]
@[simp] theorem State.completeOpt_glb (s : State) (p : Option PendCmd) (st : Status) :
    (State.completeOpt s p st).glb = s.glb := by
  cases p <;> simp [State.completeOpt]
@[simp] theorem State.completeOpt_int (s : State) (p : Option PendCmd) (st : Status) :
    (State.completeOpt s p st).int = s.int := by
  cases p <;> simp [State.completeOpt]
@[simp] theorem State.completeOpt_sec (s : State) (p : Option PendCmd) (st : Status) :
    (State.completeOpt s p st).sec = s.sec := by
  cases p <;> simp [State.completeOpt]
@[simp] theorem State.completeOpt_pwr (s : State) (p : Option PendCmd) (st : Status) :
    (State.completeOpt s p st).pwr = s.pwr := by
  cases p <;> simp [State.completeOpt]
@[simp] theorem State.completeOpt_span (s : State) (p : Option PendCmd) (st : Status) :
    (State.completeOpt s p st).span = s.span := by
  cases p <;> simp [State.completeOpt]
@[simp] theorem State.completeOpt_vaults (s : State) (p : Option PendCmd) (st : Status) :
    (State.completeOpt s p st).vaults = s.vaults := by
  cases p <;> simp [State.completeOpt]
@[simp] theorem State.completeOpt_fars (s : State) (p : Option PendCmd) (st : Status) :
    (State.completeOpt s p st).fars = s.fars := by
  cases p <;> simp [State.completeOpt]
@[simp] theorem State.completeOpt_caches (s : State) (p : Option PendCmd) (st : Status) :
    (State.completeOpt s p st).caches = s.caches := by
  cases p <;> simp [State.completeOpt]
@[simp] theorem State.completeOpt_ports (s : State) (p : Option PendCmd) (st : Status) :
    (State.completeOpt s p st).ports = s.ports := by
  cases p <;> simp [State.completeOpt]
@[simp] theorem State.completeOpt_env (s : State) (p : Option PendCmd) (st : Status) :
    (State.completeOpt s p st).env = s.env := by
  cases p <;> simp [State.completeOpt]
@[simp] theorem State.completeOpt_upd (s : State) (p : Option PendCmd) (st : Status) :
    (State.completeOpt s p st).upd = s.upd := by
  cases p <;> simp [State.completeOpt]
@[simp] theorem State.completeOpt_ckpt (s : State) (p : Option PendCmd) (st : Status) :
    (State.completeOpt s p st).ckpt = s.ckpt := by
  cases p <;> simp [State.completeOpt]
@[simp] theorem State.completeOpt_eng (s : State) (p : Option PendCmd) (st : Status) :
    (State.completeOpt s p st).eng = s.eng := by
  cases p <;> simp [State.completeOpt]
@[simp] theorem State.measure_pending (s : State) (mr : Byte) (kind : Byte) (version : W64) (digest : Dig512) :
    (State.measure s mr kind version digest).pending = s.pending := rfl
@[simp] theorem State.measure_free (s : State) (mr : Byte) (kind : Byte) (version : W64) (digest : Dig512) :
    (State.measure s mr kind version digest).free = s.free := rfl
@[simp] theorem State.measure_out (s : State) (mr : Byte) (kind : Byte) (version : W64) (digest : Dig512) :
    (State.measure s mr kind version digest).out = s.out := rfl
@[simp] theorem State.measure_glb (s : State) (mr : Byte) (kind : Byte) (version : W64) (digest : Dig512) :
    (State.measure s mr kind version digest).glb = s.glb := rfl
@[simp] theorem State.measure_job (s : State) (mr : Byte) (kind : Byte) (version : W64) (digest : Dig512) :
    (State.measure s mr kind version digest).job = s.job := rfl
@[simp] theorem State.measure_int (s : State) (mr : Byte) (kind : Byte) (version : W64) (digest : Dig512) :
    (State.measure s mr kind version digest).int = s.int := rfl
@[simp] theorem State.measure_pwr (s : State) (mr : Byte) (kind : Byte) (version : W64) (digest : Dig512) :
    (State.measure s mr kind version digest).pwr = s.pwr := rfl
@[simp] theorem State.measure_host (s : State) (mr : Byte) (kind : Byte) (version : W64) (digest : Dig512) :
    (State.measure s mr kind version digest).host = s.host := rfl
@[simp] theorem State.measure_span (s : State) (mr : Byte) (kind : Byte) (version : W64) (digest : Dig512) :
    (State.measure s mr kind version digest).span = s.span := rfl
@[simp] theorem State.measure_vaults (s : State) (mr : Byte) (kind : Byte) (version : W64) (digest : Dig512) :
    (State.measure s mr kind version digest).vaults = s.vaults := rfl
@[simp] theorem State.measure_fars (s : State) (mr : Byte) (kind : Byte) (version : W64) (digest : Dig512) :
    (State.measure s mr kind version digest).fars = s.fars := rfl
@[simp] theorem State.measure_caches (s : State) (mr : Byte) (kind : Byte) (version : W64) (digest : Dig512) :
    (State.measure s mr kind version digest).caches = s.caches := rfl
@[simp] theorem State.measure_ports (s : State) (mr : Byte) (kind : Byte) (version : W64) (digest : Dig512) :
    (State.measure s mr kind version digest).ports = s.ports := rfl
@[simp] theorem State.measure_env (s : State) (mr : Byte) (kind : Byte) (version : W64) (digest : Dig512) :
    (State.measure s mr kind version digest).env = s.env := rfl
@[simp] theorem State.measure_upd (s : State) (mr : Byte) (kind : Byte) (version : W64) (digest : Dig512) :
    (State.measure s mr kind version digest).upd = s.upd := rfl
@[simp] theorem State.measure_ckpt (s : State) (mr : Byte) (kind : Byte) (version : W64) (digest : Dig512) :
    (State.measure s mr kind version digest).ckpt = s.ckpt := rfl
@[simp] theorem State.measure_eng (s : State) (mr : Byte) (kind : Byte) (version : W64) (digest : Dig512) :
    (State.measure s mr kind version digest).eng = s.eng := rfl
@[simp] theorem State.clearMrJob_pending (s : State) :
    (State.clearMrJob s).pending = s.pending := rfl
@[simp] theorem State.clearMrJob_free (s : State) :
    (State.clearMrJob s).free = s.free := rfl
@[simp] theorem State.clearMrJob_out (s : State) :
    (State.clearMrJob s).out = s.out := rfl
@[simp] theorem State.clearMrJob_glb (s : State) :
    (State.clearMrJob s).glb = s.glb := rfl
@[simp] theorem State.clearMrJob_job (s : State) :
    (State.clearMrJob s).job = s.job := rfl
@[simp] theorem State.clearMrJob_int (s : State) :
    (State.clearMrJob s).int = s.int := rfl
@[simp] theorem State.clearMrJob_pwr (s : State) :
    (State.clearMrJob s).pwr = s.pwr := rfl
@[simp] theorem State.clearMrJob_host (s : State) :
    (State.clearMrJob s).host = s.host := rfl
@[simp] theorem State.clearMrJob_span (s : State) :
    (State.clearMrJob s).span = s.span := rfl
@[simp] theorem State.clearMrJob_vaults (s : State) :
    (State.clearMrJob s).vaults = s.vaults := rfl
@[simp] theorem State.clearMrJob_fars (s : State) :
    (State.clearMrJob s).fars = s.fars := rfl
@[simp] theorem State.clearMrJob_caches (s : State) :
    (State.clearMrJob s).caches = s.caches := rfl
@[simp] theorem State.clearMrJob_ports (s : State) :
    (State.clearMrJob s).ports = s.ports := rfl
@[simp] theorem State.clearMrJob_env (s : State) :
    (State.clearMrJob s).env = s.env := rfl
@[simp] theorem State.clearMrJob_upd (s : State) :
    (State.clearMrJob s).upd = s.upd := rfl
@[simp] theorem State.clearMrJob_ckpt (s : State) :
    (State.clearMrJob s).ckpt = s.ckpt := rfl
@[simp] theorem State.clearMrJob_eng (s : State) :
    (State.clearMrJob s).eng = s.eng := rfl
@[simp] theorem State.setErrRec_pending (s : State) (e : CharterErr) :
    (State.setErrRec s e).pending = s.pending := rfl
@[simp] theorem State.setErrRec_free (s : State) (e : CharterErr) :
    (State.setErrRec s e).free = s.free := rfl
@[simp] theorem State.setErrRec_out (s : State) (e : CharterErr) :
    (State.setErrRec s e).out = s.out := rfl
@[simp] theorem State.setErrRec_glb (s : State) (e : CharterErr) :
    (State.setErrRec s e).glb = s.glb := rfl
@[simp] theorem State.setErrRec_int (s : State) (e : CharterErr) :
    (State.setErrRec s e).int = s.int := rfl
@[simp] theorem State.setErrRec_sec (s : State) (e : CharterErr) :
    (State.setErrRec s e).sec = s.sec := rfl
@[simp] theorem State.setErrRec_pwr (s : State) (e : CharterErr) :
    (State.setErrRec s e).pwr = s.pwr := rfl
@[simp] theorem State.setErrRec_host (s : State) (e : CharterErr) :
    (State.setErrRec s e).host = s.host := rfl
@[simp] theorem State.setErrRec_span (s : State) (e : CharterErr) :
    (State.setErrRec s e).span = s.span := rfl
@[simp] theorem State.setErrRec_vaults (s : State) (e : CharterErr) :
    (State.setErrRec s e).vaults = s.vaults := rfl
@[simp] theorem State.setErrRec_fars (s : State) (e : CharterErr) :
    (State.setErrRec s e).fars = s.fars := rfl
@[simp] theorem State.setErrRec_caches (s : State) (e : CharterErr) :
    (State.setErrRec s e).caches = s.caches := rfl
@[simp] theorem State.setErrRec_ports (s : State) (e : CharterErr) :
    (State.setErrRec s e).ports = s.ports := rfl
@[simp] theorem State.setErrRec_env (s : State) (e : CharterErr) :
    (State.setErrRec s e).env = s.env := rfl
@[simp] theorem State.setErrRec_upd (s : State) (e : CharterErr) :
    (State.setErrRec s e).upd = s.upd := rfl
@[simp] theorem State.setErrRec_ckpt (s : State) (e : CharterErr) :
    (State.setErrRec s e).ckpt = s.ckpt := rfl
@[simp] theorem State.setErrRec_eng (s : State) (e : CharterErr) :
    (State.setErrRec s e).eng = s.eng := rfl
@[simp] theorem State.draw_pending (s : State) :
    (State.draw s).2.pending = s.pending := rfl
@[simp] theorem State.draw_out (s : State) :
    (State.draw s).2.out = s.out := rfl
@[simp] theorem State.draw_glb (s : State) :
    (State.draw s).2.glb = s.glb := rfl
@[simp] theorem State.draw_job (s : State) :
    (State.draw s).2.job = s.job := rfl
@[simp] theorem State.draw_int (s : State) :
    (State.draw s).2.int = s.int := rfl
@[simp] theorem State.draw_sec (s : State) :
    (State.draw s).2.sec = s.sec := rfl
@[simp] theorem State.draw_pwr (s : State) :
    (State.draw s).2.pwr = s.pwr := rfl
@[simp] theorem State.draw_host (s : State) :
    (State.draw s).2.host = s.host := rfl
@[simp] theorem State.draw_span (s : State) :
    (State.draw s).2.span = s.span := rfl
@[simp] theorem State.draw_vaults (s : State) :
    (State.draw s).2.vaults = s.vaults := rfl
@[simp] theorem State.draw_fars (s : State) :
    (State.draw s).2.fars = s.fars := rfl
@[simp] theorem State.draw_caches (s : State) :
    (State.draw s).2.caches = s.caches := rfl
@[simp] theorem State.draw_ports (s : State) :
    (State.draw s).2.ports = s.ports := rfl
@[simp] theorem State.draw_env (s : State) :
    (State.draw s).2.env = s.env := rfl
@[simp] theorem State.draw_upd (s : State) :
    (State.draw s).2.upd = s.upd := rfl
@[simp] theorem State.draw_ckpt (s : State) :
    (State.draw s).2.ckpt = s.ckpt := rfl
@[simp] theorem State.draw_eng (s : State) :
    (State.draw s).2.eng = s.eng := rfl
@[simp] theorem State.random_pending (s : State) :
    (State.random s).2.pending = s.pending := rfl
@[simp] theorem State.random_free (s : State) :
    (State.random s).2.free = s.free := rfl
@[simp] theorem State.random_out (s : State) :
    (State.random s).2.out = s.out := rfl
@[simp] theorem State.random_glb (s : State) :
    (State.random s).2.glb = s.glb := rfl
@[simp] theorem State.random_job (s : State) :
    (State.random s).2.job = s.job := rfl
@[simp] theorem State.random_int (s : State) :
    (State.random s).2.int = s.int := rfl
@[simp] theorem State.random_pwr (s : State) :
    (State.random s).2.pwr = s.pwr := rfl
@[simp] theorem State.random_host (s : State) :
    (State.random s).2.host = s.host := rfl
@[simp] theorem State.random_span (s : State) :
    (State.random s).2.span = s.span := rfl
@[simp] theorem State.random_vaults (s : State) :
    (State.random s).2.vaults = s.vaults := rfl
@[simp] theorem State.random_fars (s : State) :
    (State.random s).2.fars = s.fars := rfl
@[simp] theorem State.random_caches (s : State) :
    (State.random s).2.caches = s.caches := rfl
@[simp] theorem State.random_ports (s : State) :
    (State.random s).2.ports = s.ports := rfl
@[simp] theorem State.random_env (s : State) :
    (State.random s).2.env = s.env := rfl
@[simp] theorem State.random_upd (s : State) :
    (State.random s).2.upd = s.upd := rfl
@[simp] theorem State.random_ckpt (s : State) :
    (State.random s).2.ckpt = s.ckpt := rfl
@[simp] theorem State.random_eng (s : State) :
    (State.random s).2.eng = s.eng := rfl
@[simp] theorem State.drawNonce_pending (s : State) :
    (State.drawNonce s).pending = s.pending := rfl
@[simp] theorem State.drawNonce_free (s : State) :
    (State.drawNonce s).free = s.free := rfl
@[simp] theorem State.drawNonce_out (s : State) :
    (State.drawNonce s).out = s.out := rfl
@[simp] theorem State.drawNonce_glb (s : State) :
    (State.drawNonce s).glb = s.glb := rfl
@[simp] theorem State.drawNonce_job (s : State) :
    (State.drawNonce s).job = s.job := rfl
@[simp] theorem State.drawNonce_int (s : State) :
    (State.drawNonce s).int = s.int := rfl
@[simp] theorem State.drawNonce_pwr (s : State) :
    (State.drawNonce s).pwr = s.pwr := rfl
@[simp] theorem State.drawNonce_host (s : State) :
    (State.drawNonce s).host = s.host := rfl
@[simp] theorem State.drawNonce_span (s : State) :
    (State.drawNonce s).span = s.span := rfl
@[simp] theorem State.drawNonce_vaults (s : State) :
    (State.drawNonce s).vaults = s.vaults := rfl
@[simp] theorem State.drawNonce_fars (s : State) :
    (State.drawNonce s).fars = s.fars := rfl
@[simp] theorem State.drawNonce_caches (s : State) :
    (State.drawNonce s).caches = s.caches := rfl
@[simp] theorem State.drawNonce_ports (s : State) :
    (State.drawNonce s).ports = s.ports := rfl
@[simp] theorem State.drawNonce_env (s : State) :
    (State.drawNonce s).env = s.env := rfl
@[simp] theorem State.drawNonce_upd (s : State) :
    (State.drawNonce s).upd = s.upd := rfl
@[simp] theorem State.drawNonce_ckpt (s : State) :
    (State.drawNonce s).ckpt = s.ckpt := rfl
@[simp] theorem State.drawNonce_eng (s : State) :
    (State.drawNonce s).eng = s.eng := rfl
@[simp] theorem State.faultLog_pending (s : State) (e : EngineId) (r : Rec4) :
    (State.faultLog s e r).pending = s.pending := rfl
@[simp] theorem State.faultLog_free (s : State) (e : EngineId) (r : Rec4) :
    (State.faultLog s e r).free = s.free := rfl
@[simp] theorem State.faultLog_out (s : State) (e : EngineId) (r : Rec4) :
    (State.faultLog s e r).out = s.out := rfl
@[simp] theorem State.faultLog_glb (s : State) (e : EngineId) (r : Rec4) :
    (State.faultLog s e r).glb = s.glb := rfl
@[simp] theorem State.faultLog_job (s : State) (e : EngineId) (r : Rec4) :
    (State.faultLog s e r).job = s.job := rfl
@[simp] theorem State.faultLog_int (s : State) (e : EngineId) (r : Rec4) :
    (State.faultLog s e r).int = s.int := rfl
@[simp] theorem State.faultLog_sec (s : State) (e : EngineId) (r : Rec4) :
    (State.faultLog s e r).sec = s.sec := rfl
@[simp] theorem State.faultLog_pwr (s : State) (e : EngineId) (r : Rec4) :
    (State.faultLog s e r).pwr = s.pwr := rfl
@[simp] theorem State.faultLog_host (s : State) (e : EngineId) (r : Rec4) :
    (State.faultLog s e r).host = s.host := rfl
@[simp] theorem State.faultLog_span (s : State) (e : EngineId) (r : Rec4) :
    (State.faultLog s e r).span = s.span := rfl
@[simp] theorem State.faultLog_vaults (s : State) (e : EngineId) (r : Rec4) :
    (State.faultLog s e r).vaults = s.vaults := rfl
@[simp] theorem State.faultLog_fars (s : State) (e : EngineId) (r : Rec4) :
    (State.faultLog s e r).fars = s.fars := rfl
@[simp] theorem State.faultLog_caches (s : State) (e : EngineId) (r : Rec4) :
    (State.faultLog s e r).caches = s.caches := rfl
@[simp] theorem State.faultLog_ports (s : State) (e : EngineId) (r : Rec4) :
    (State.faultLog s e r).ports = s.ports := rfl
@[simp] theorem State.faultLog_env (s : State) (e : EngineId) (r : Rec4) :
    (State.faultLog s e r).env = s.env := rfl
@[simp] theorem State.faultLog_upd (s : State) (e : EngineId) (r : Rec4) :
    (State.faultLog s e r).upd = s.upd := rfl
@[simp] theorem State.faultLog_ckpt (s : State) (e : EngineId) (r : Rec4) :
    (State.faultLog s e r).ckpt = s.ckpt := rfl
@[simp] theorem State.emitUnit_pending (s : State) (p : PortId) (seqNo : W16) (nak : Bool) (f : Frame) :
    (State.emitUnit s p seqNo nak f).pending = s.pending := rfl
@[simp] theorem State.emitUnit_free (s : State) (p : PortId) (seqNo : W16) (nak : Bool) (f : Frame) :
    (State.emitUnit s p seqNo nak f).free = s.free := rfl
@[simp] theorem State.emitUnit_glb (s : State) (p : PortId) (seqNo : W16) (nak : Bool) (f : Frame) :
    (State.emitUnit s p seqNo nak f).glb = s.glb := rfl
@[simp] theorem State.emitUnit_job (s : State) (p : PortId) (seqNo : W16) (nak : Bool) (f : Frame) :
    (State.emitUnit s p seqNo nak f).job = s.job := rfl
@[simp] theorem State.emitUnit_int (s : State) (p : PortId) (seqNo : W16) (nak : Bool) (f : Frame) :
    (State.emitUnit s p seqNo nak f).int = s.int := rfl
@[simp] theorem State.emitUnit_sec (s : State) (p : PortId) (seqNo : W16) (nak : Bool) (f : Frame) :
    (State.emitUnit s p seqNo nak f).sec = s.sec := rfl
@[simp] theorem State.emitUnit_pwr (s : State) (p : PortId) (seqNo : W16) (nak : Bool) (f : Frame) :
    (State.emitUnit s p seqNo nak f).pwr = s.pwr := rfl
@[simp] theorem State.emitUnit_host (s : State) (p : PortId) (seqNo : W16) (nak : Bool) (f : Frame) :
    (State.emitUnit s p seqNo nak f).host = s.host := rfl
@[simp] theorem State.emitUnit_span (s : State) (p : PortId) (seqNo : W16) (nak : Bool) (f : Frame) :
    (State.emitUnit s p seqNo nak f).span = s.span := rfl
@[simp] theorem State.emitUnit_vaults (s : State) (p : PortId) (seqNo : W16) (nak : Bool) (f : Frame) :
    (State.emitUnit s p seqNo nak f).vaults = s.vaults := rfl
@[simp] theorem State.emitUnit_fars (s : State) (p : PortId) (seqNo : W16) (nak : Bool) (f : Frame) :
    (State.emitUnit s p seqNo nak f).fars = s.fars := rfl
@[simp] theorem State.emitUnit_caches (s : State) (p : PortId) (seqNo : W16) (nak : Bool) (f : Frame) :
    (State.emitUnit s p seqNo nak f).caches = s.caches := rfl
@[simp] theorem State.emitUnit_env (s : State) (p : PortId) (seqNo : W16) (nak : Bool) (f : Frame) :
    (State.emitUnit s p seqNo nak f).env = s.env := rfl
@[simp] theorem State.emitUnit_upd (s : State) (p : PortId) (seqNo : W16) (nak : Bool) (f : Frame) :
    (State.emitUnit s p seqNo nak f).upd = s.upd := rfl
@[simp] theorem State.emitUnit_ckpt (s : State) (p : PortId) (seqNo : W16) (nak : Bool) (f : Frame) :
    (State.emitUnit s p seqNo nak f).ckpt = s.ckpt := rfl
@[simp] theorem State.emitUnit_eng (s : State) (p : PortId) (seqNo : W16) (nak : Bool) (f : Frame) :
    (State.emitUnit s p seqNo nak f).eng = s.eng := rfl
@[simp] theorem State.raise_pending (s : State) (ev : FaultEv) :
    (State.raise s ev).pending = s.pending := rfl
@[simp] theorem State.raise_free (s : State) (ev : FaultEv) :
    (State.raise s ev).free = s.free := rfl
@[simp] theorem State.raise_out (s : State) (ev : FaultEv) :
    (State.raise s ev).out = s.out := rfl
@[simp] theorem State.raise_glb (s : State) (ev : FaultEv) :
    (State.raise s ev).glb = s.glb := rfl
@[simp] theorem State.raise_job (s : State) (ev : FaultEv) :
    (State.raise s ev).job = s.job := rfl
@[simp] theorem State.raise_sec (s : State) (ev : FaultEv) :
    (State.raise s ev).sec = s.sec := rfl
@[simp] theorem State.raise_pwr (s : State) (ev : FaultEv) :
    (State.raise s ev).pwr = s.pwr := rfl
@[simp] theorem State.raise_host (s : State) (ev : FaultEv) :
    (State.raise s ev).host = s.host := rfl
@[simp] theorem State.raise_span (s : State) (ev : FaultEv) :
    (State.raise s ev).span = s.span := rfl
@[simp] theorem State.raise_vaults (s : State) (ev : FaultEv) :
    (State.raise s ev).vaults = s.vaults := rfl
@[simp] theorem State.raise_fars (s : State) (ev : FaultEv) :
    (State.raise s ev).fars = s.fars := rfl
@[simp] theorem State.raise_caches (s : State) (ev : FaultEv) :
    (State.raise s ev).caches = s.caches := rfl
@[simp] theorem State.raise_ports (s : State) (ev : FaultEv) :
    (State.raise s ev).ports = s.ports := rfl
@[simp] theorem State.raise_env (s : State) (ev : FaultEv) :
    (State.raise s ev).env = s.env := rfl
@[simp] theorem State.raise_upd (s : State) (ev : FaultEv) :
    (State.raise s ev).upd = s.upd := rfl
@[simp] theorem State.raise_ckpt (s : State) (ev : FaultEv) :
    (State.raise s ev).ckpt = s.ckpt := rfl
@[simp] theorem State.raise_eng (s : State) (ev : FaultEv) :
    (State.raise s ev).eng = s.eng := rfl
@[simp] theorem State.mark_pending (s : State) (isl : IslandIdx) (st : Status) :
    (State.mark s isl st).pending = s.pending := by
  unfold State.mark
  dsimp only
  (repeat' split) <;> first | rfl | simp
@[simp] theorem State.mark_free (s : State) (isl : IslandIdx) (st : Status) :
    (State.mark s isl st).free = s.free := by
  unfold State.mark
  dsimp only
  (repeat' split) <;> first | rfl | simp
@[simp] theorem State.mark_job (s : State) (isl : IslandIdx) (st : Status) :
    (State.mark s isl st).job = s.job := by
  unfold State.mark
  dsimp only
  (repeat' split) <;> first | rfl | simp
@[simp] theorem State.mark_sec (s : State) (isl : IslandIdx) (st : Status) :
    (State.mark s isl st).sec = s.sec := by
  unfold State.mark
  dsimp only
  (repeat' split) <;> first | rfl | simp
@[simp] theorem State.mark_pwr (s : State) (isl : IslandIdx) (st : Status) :
    (State.mark s isl st).pwr = s.pwr := by
  unfold State.mark
  dsimp only
  (repeat' split) <;> first | rfl | simp
@[simp] theorem State.mark_host (s : State) (isl : IslandIdx) (st : Status) :
    (State.mark s isl st).host = s.host := by
  unfold State.mark
  dsimp only
  (repeat' split) <;> first | rfl | simp
@[simp] theorem State.mark_span (s : State) (isl : IslandIdx) (st : Status) :
    (State.mark s isl st).span = s.span := by
  unfold State.mark
  dsimp only
  (repeat' split) <;> first | rfl | simp
@[simp] theorem State.mark_vaults (s : State) (isl : IslandIdx) (st : Status) :
    (State.mark s isl st).vaults = s.vaults := by
  unfold State.mark
  dsimp only
  (repeat' split) <;> first | rfl | simp
@[simp] theorem State.mark_fars (s : State) (isl : IslandIdx) (st : Status) :
    (State.mark s isl st).fars = s.fars := by
  unfold State.mark
  dsimp only
  (repeat' split) <;> first | rfl | simp
@[simp] theorem State.mark_caches (s : State) (isl : IslandIdx) (st : Status) :
    (State.mark s isl st).caches = s.caches := by
  unfold State.mark
  dsimp only
  (repeat' split) <;> first | rfl | simp
@[simp] theorem State.mark_ports (s : State) (isl : IslandIdx) (st : Status) :
    (State.mark s isl st).ports = s.ports := by
  unfold State.mark
  dsimp only
  (repeat' split) <;> first | rfl | simp
@[simp] theorem State.mark_env (s : State) (isl : IslandIdx) (st : Status) :
    (State.mark s isl st).env = s.env := by
  unfold State.mark
  dsimp only
  (repeat' split) <;> first | rfl | simp
@[simp] theorem State.mark_upd (s : State) (isl : IslandIdx) (st : Status) :
    (State.mark s isl st).upd = s.upd := by
  unfold State.mark
  dsimp only
  (repeat' split) <;> first | rfl | simp
@[simp] theorem State.mark_ckpt (s : State) (isl : IslandIdx) (st : Status) :
    (State.mark s isl st).ckpt = s.ckpt := by
  unfold State.mark
  dsimp only
  (repeat' split) <;> first | rfl | simp
@[simp] theorem State.leaveHeld_pending (s : State) :
    (State.leaveHeld s).pending = s.pending := rfl
@[simp] theorem State.leaveHeld_free (s : State) :
    (State.leaveHeld s).free = s.free := rfl
@[simp] theorem State.leaveHeld_out (s : State) :
    (State.leaveHeld s).out = s.out := rfl
@[simp] theorem State.leaveHeld_glb (s : State) :
    (State.leaveHeld s).glb = s.glb := rfl
@[simp] theorem State.leaveHeld_job (s : State) :
    (State.leaveHeld s).job = s.job := rfl
@[simp] theorem State.leaveHeld_sec (s : State) :
    (State.leaveHeld s).sec = s.sec := rfl
@[simp] theorem State.leaveHeld_pwr (s : State) :
    (State.leaveHeld s).pwr = s.pwr := rfl
@[simp] theorem State.leaveHeld_host (s : State) :
    (State.leaveHeld s).host = s.host := rfl
@[simp] theorem State.leaveHeld_span (s : State) :
    (State.leaveHeld s).span = s.span := rfl
@[simp] theorem State.leaveHeld_vaults (s : State) :
    (State.leaveHeld s).vaults = s.vaults := rfl
@[simp] theorem State.leaveHeld_fars (s : State) :
    (State.leaveHeld s).fars = s.fars := rfl
@[simp] theorem State.leaveHeld_caches (s : State) :
    (State.leaveHeld s).caches = s.caches := rfl
@[simp] theorem State.leaveHeld_ports (s : State) :
    (State.leaveHeld s).ports = s.ports := rfl
@[simp] theorem State.leaveHeld_env (s : State) :
    (State.leaveHeld s).env = s.env := rfl
@[simp] theorem State.leaveHeld_upd (s : State) :
    (State.leaveHeld s).upd = s.upd := rfl
@[simp] theorem State.leaveHeld_ckpt (s : State) :
    (State.leaveHeld s).ckpt = s.ckpt := rfl
@[simp] theorem State.leaveHeld_eng (s : State) :
    (State.leaveHeld s).eng = s.eng := rfl
@[simp] theorem State.cancelPending_pending (s : State) :
    (State.cancelPending s).pending = s.pending := by
  simp [State.cancelPending]
@[simp] theorem State.cancelPending_free (s : State) :
    (State.cancelPending s).free = s.free := by
  simp [State.cancelPending]
@[simp] theorem State.cancelPending_glb (s : State) :
    (State.cancelPending s).glb = s.glb := by
  simp [State.cancelPending]
@[simp] theorem State.cancelPending_int (s : State) :
    (State.cancelPending s).int = s.int := by
  simp [State.cancelPending]
@[simp] theorem State.cancelPending_sec (s : State) :
    (State.cancelPending s).sec = s.sec := by
  simp [State.cancelPending]
@[simp] theorem State.cancelPending_pwr (s : State) :
    (State.cancelPending s).pwr = s.pwr := by
  simp [State.cancelPending]
@[simp] theorem State.cancelPending_span (s : State) :
    (State.cancelPending s).span = s.span := by
  simp [State.cancelPending]
@[simp] theorem State.cancelPending_vaults (s : State) :
    (State.cancelPending s).vaults = s.vaults := by
  simp [State.cancelPending]
@[simp] theorem State.cancelPending_fars (s : State) :
    (State.cancelPending s).fars = s.fars := by
  simp [State.cancelPending]
@[simp] theorem State.cancelPending_caches (s : State) :
    (State.cancelPending s).caches = s.caches := by
  simp [State.cancelPending]
@[simp] theorem State.cancelPending_ports (s : State) :
    (State.cancelPending s).ports = s.ports := by
  simp [State.cancelPending]
@[simp] theorem State.cancelPending_env (s : State) :
    (State.cancelPending s).env = s.env := by
  simp [State.cancelPending]
@[simp] theorem State.cancelPending_upd (s : State) :
    (State.cancelPending s).upd = s.upd := by
  simp [State.cancelPending]
@[simp] theorem State.cancelPending_ckpt (s : State) :
    (State.cancelPending s).ckpt = s.ckpt := by
  simp [State.cancelPending]
@[simp] theorem State.cancelPending_eng (s : State) :
    (State.cancelPending s).eng = s.eng := by
  simp [State.cancelPending]
@[simp] theorem State.answer_pending (s : State) (c : CtlId) (st : Status) (a : Nat) (who : Requester) :
    (State.answer s c st a who).pending = s.pending := by
  unfold State.answer
  repeat' split
  all_goals simp
@[simp] theorem State.answer_free (s : State) (c : CtlId) (st : Status) (a : Nat) (who : Requester) :
    (State.answer s c st a who).free = s.free := by
  unfold State.answer
  repeat' split
  all_goals simp
@[simp] theorem State.answer_glb (s : State) (c : CtlId) (st : Status) (a : Nat) (who : Requester) :
    (State.answer s c st a who).glb = s.glb := by
  unfold State.answer
  repeat' split
  all_goals simp
@[simp] theorem State.answer_job (s : State) (c : CtlId) (st : Status) (a : Nat) (who : Requester) :
    (State.answer s c st a who).job = s.job := by
  unfold State.answer
  repeat' split
  all_goals simp
@[simp] theorem State.answer_int (s : State) (c : CtlId) (st : Status) (a : Nat) (who : Requester) :
    (State.answer s c st a who).int = s.int := by
  unfold State.answer
  repeat' split
  all_goals simp
@[simp] theorem State.answer_sec (s : State) (c : CtlId) (st : Status) (a : Nat) (who : Requester) :
    (State.answer s c st a who).sec = s.sec := by
  unfold State.answer
  repeat' split
  all_goals simp
@[simp] theorem State.answer_pwr (s : State) (c : CtlId) (st : Status) (a : Nat) (who : Requester) :
    (State.answer s c st a who).pwr = s.pwr := by
  unfold State.answer
  repeat' split
  all_goals simp
@[simp] theorem State.answer_host (s : State) (c : CtlId) (st : Status) (a : Nat) (who : Requester) :
    (State.answer s c st a who).host = s.host := by
  unfold State.answer
  repeat' split
  all_goals simp
@[simp] theorem State.answer_span (s : State) (c : CtlId) (st : Status) (a : Nat) (who : Requester) :
    (State.answer s c st a who).span = s.span := by
  unfold State.answer
  repeat' split
  all_goals simp
@[simp] theorem State.answer_caches (s : State) (c : CtlId) (st : Status) (a : Nat) (who : Requester) :
    (State.answer s c st a who).caches = s.caches := by
  unfold State.answer
  repeat' split
  all_goals simp
@[simp] theorem State.answer_ports (s : State) (c : CtlId) (st : Status) (a : Nat) (who : Requester) :
    (State.answer s c st a who).ports = s.ports := by
  unfold State.answer
  repeat' split
  all_goals simp
@[simp] theorem State.answer_env (s : State) (c : CtlId) (st : Status) (a : Nat) (who : Requester) :
    (State.answer s c st a who).env = s.env := by
  unfold State.answer
  repeat' split
  all_goals simp
@[simp] theorem State.answer_upd (s : State) (c : CtlId) (st : Status) (a : Nat) (who : Requester) :
    (State.answer s c st a who).upd = s.upd := by
  unfold State.answer
  repeat' split
  all_goals simp
@[simp] theorem State.answer_ckpt (s : State) (c : CtlId) (st : Status) (a : Nat) (who : Requester) :
    (State.answer s c st a who).ckpt = s.ckpt := by
  unfold State.answer
  repeat' split
  all_goals simp
@[simp] theorem State.answer_vaults (s : State) (c : CtlId) (st : Status) (a : Nat) (who : Requester) :
    (State.answer s c st a who).vaults = s.vaults := by
  unfold State.answer
  repeat' split
  all_goals simp
@[simp] theorem State.answer_fars (s : State) (c : CtlId) (st : Status) (a : Nat) (who : Requester) :
    (State.answer s c st a who).fars = s.fars := by
  unfold State.answer
  repeat' split
  all_goals simp
@[simp] theorem State.answerAll_pending (s : State) (c : CtlId) (st : Status) (a : Nat) (l : List Requester) :
    (State.answerAll s c st a l).pending = s.pending :=
  foldl_keep State.pending _ _ _ (fun _ _ => by simp)
@[simp] theorem State.answerAll_free (s : State) (c : CtlId) (st : Status) (a : Nat) (l : List Requester) :
    (State.answerAll s c st a l).free = s.free :=
  foldl_keep State.free _ _ _ (fun _ _ => by simp)
@[simp] theorem State.answerAll_glb (s : State) (c : CtlId) (st : Status) (a : Nat) (l : List Requester) :
    (State.answerAll s c st a l).glb = s.glb :=
  foldl_keep State.glb _ _ _ (fun _ _ => by simp)
@[simp] theorem State.answerAll_job (s : State) (c : CtlId) (st : Status) (a : Nat) (l : List Requester) :
    (State.answerAll s c st a l).job = s.job :=
  foldl_keep State.job _ _ _ (fun _ _ => by simp)
@[simp] theorem State.answerAll_int (s : State) (c : CtlId) (st : Status) (a : Nat) (l : List Requester) :
    (State.answerAll s c st a l).int = s.int :=
  foldl_keep State.int _ _ _ (fun _ _ => by simp)
@[simp] theorem State.answerAll_sec (s : State) (c : CtlId) (st : Status) (a : Nat) (l : List Requester) :
    (State.answerAll s c st a l).sec = s.sec :=
  foldl_keep State.sec _ _ _ (fun _ _ => by simp)
@[simp] theorem State.answerAll_pwr (s : State) (c : CtlId) (st : Status) (a : Nat) (l : List Requester) :
    (State.answerAll s c st a l).pwr = s.pwr :=
  foldl_keep State.pwr _ _ _ (fun _ _ => by simp)
@[simp] theorem State.answerAll_host (s : State) (c : CtlId) (st : Status) (a : Nat) (l : List Requester) :
    (State.answerAll s c st a l).host = s.host :=
  foldl_keep State.host _ _ _ (fun _ _ => by simp)
@[simp] theorem State.answerAll_span (s : State) (c : CtlId) (st : Status) (a : Nat) (l : List Requester) :
    (State.answerAll s c st a l).span = s.span :=
  foldl_keep State.span _ _ _ (fun _ _ => by simp)
@[simp] theorem State.answerAll_caches (s : State) (c : CtlId) (st : Status) (a : Nat) (l : List Requester) :
    (State.answerAll s c st a l).caches = s.caches :=
  foldl_keep State.caches _ _ _ (fun _ _ => by simp)
@[simp] theorem State.answerAll_ports (s : State) (c : CtlId) (st : Status) (a : Nat) (l : List Requester) :
    (State.answerAll s c st a l).ports = s.ports :=
  foldl_keep State.ports _ _ _ (fun _ _ => by simp)
@[simp] theorem State.answerAll_env (s : State) (c : CtlId) (st : Status) (a : Nat) (l : List Requester) :
    (State.answerAll s c st a l).env = s.env :=
  foldl_keep State.env _ _ _ (fun _ _ => by simp)
@[simp] theorem State.answerAll_upd (s : State) (c : CtlId) (st : Status) (a : Nat) (l : List Requester) :
    (State.answerAll s c st a l).upd = s.upd :=
  foldl_keep State.upd _ _ _ (fun _ _ => by simp)
@[simp] theorem State.answerAll_ckpt (s : State) (c : CtlId) (st : Status) (a : Nat) (l : List Requester) :
    (State.answerAll s c st a l).ckpt = s.ckpt :=
  foldl_keep State.ckpt _ _ _ (fun _ _ => by simp)
@[simp] theorem State.answerAll_vaults (s : State) (c : CtlId) (st : Status) (a : Nat) (l : List Requester) :
    (State.answerAll s c st a l).vaults = s.vaults :=
  foldl_keep State.vaults _ _ _ (fun _ _ => by simp)
@[simp] theorem State.answerAll_fars (s : State) (c : CtlId) (st : Status) (a : Nat) (l : List Requester) :
    (State.answerAll s c st a l).fars = s.fars :=
  foldl_keep State.fars _ _ _ (fun _ _ => by simp)
@[simp] theorem State.zeroise_pending (s : State) (c : CtlId) (first n : Nat) :
    (State.zeroise s c first n).pending = s.pending := by
  simp [State.zeroise]
@[simp] theorem State.zeroise_free (s : State) (c : CtlId) (first n : Nat) :
    (State.zeroise s c first n).free = s.free := by
  simp [State.zeroise]
@[simp] theorem State.zeroise_glb (s : State) (c : CtlId) (first n : Nat) :
    (State.zeroise s c first n).glb = s.glb := by
  simp [State.zeroise]
@[simp] theorem State.zeroise_job (s : State) (c : CtlId) (first n : Nat) :
    (State.zeroise s c first n).job = s.job := by
  simp [State.zeroise]
@[simp] theorem State.zeroise_int (s : State) (c : CtlId) (first n : Nat) :
    (State.zeroise s c first n).int = s.int := by
  simp [State.zeroise]
@[simp] theorem State.zeroise_sec (s : State) (c : CtlId) (first n : Nat) :
    (State.zeroise s c first n).sec = s.sec := by
  simp [State.zeroise]
@[simp] theorem State.zeroise_pwr (s : State) (c : CtlId) (first n : Nat) :
    (State.zeroise s c first n).pwr = s.pwr := by
  simp [State.zeroise]
@[simp] theorem State.zeroise_host (s : State) (c : CtlId) (first n : Nat) :
    (State.zeroise s c first n).host = s.host := by
  simp [State.zeroise]
@[simp] theorem State.zeroise_span (s : State) (c : CtlId) (first n : Nat) :
    (State.zeroise s c first n).span = s.span := by
  simp [State.zeroise]
@[simp] theorem State.zeroise_caches (s : State) (c : CtlId) (first n : Nat) :
    (State.zeroise s c first n).caches = s.caches := by
  simp [State.zeroise]
@[simp] theorem State.zeroise_ports (s : State) (c : CtlId) (first n : Nat) :
    (State.zeroise s c first n).ports = s.ports := by
  simp [State.zeroise]
@[simp] theorem State.zeroise_env (s : State) (c : CtlId) (first n : Nat) :
    (State.zeroise s c first n).env = s.env := by
  simp [State.zeroise]
@[simp] theorem State.zeroise_upd (s : State) (c : CtlId) (first n : Nat) :
    (State.zeroise s c first n).upd = s.upd := by
  simp [State.zeroise]
@[simp] theorem State.zeroise_ckpt (s : State) (c : CtlId) (first n : Nat) :
    (State.zeroise s c first n).ckpt = s.ckpt := by
  simp [State.zeroise]
@[simp] theorem State.zeroCtl_pending (s : State) (c : CtlId) : (State.zeroCtl s c).pending = s.pending := by
  simp [State.zeroCtl]
@[simp] theorem State.zeroCtl_free (s : State) (c : CtlId) : (State.zeroCtl s c).free = s.free := by
  simp [State.zeroCtl]
@[simp] theorem State.zeroCtl_glb (s : State) (c : CtlId) : (State.zeroCtl s c).glb = s.glb := by
  simp [State.zeroCtl]
@[simp] theorem State.zeroCtl_job (s : State) (c : CtlId) : (State.zeroCtl s c).job = s.job := by
  simp [State.zeroCtl]
@[simp] theorem State.zeroCtl_int (s : State) (c : CtlId) : (State.zeroCtl s c).int = s.int := by
  simp [State.zeroCtl]
@[simp] theorem State.zeroCtl_sec (s : State) (c : CtlId) : (State.zeroCtl s c).sec = s.sec := by
  simp [State.zeroCtl]
@[simp] theorem State.zeroCtl_pwr (s : State) (c : CtlId) : (State.zeroCtl s c).pwr = s.pwr := by
  simp [State.zeroCtl]
@[simp] theorem State.zeroCtl_host (s : State) (c : CtlId) : (State.zeroCtl s c).host = s.host := by
  simp [State.zeroCtl]
@[simp] theorem State.zeroCtl_span (s : State) (c : CtlId) : (State.zeroCtl s c).span = s.span := by
  simp [State.zeroCtl]
@[simp] theorem State.zeroCtl_caches (s : State) (c : CtlId) : (State.zeroCtl s c).caches = s.caches := by
  simp [State.zeroCtl]
@[simp] theorem State.zeroCtl_ports (s : State) (c : CtlId) : (State.zeroCtl s c).ports = s.ports := by
  simp [State.zeroCtl]
@[simp] theorem State.zeroCtl_env (s : State) (c : CtlId) : (State.zeroCtl s c).env = s.env := by
  simp [State.zeroCtl]
@[simp] theorem State.zeroCtl_upd (s : State) (c : CtlId) : (State.zeroCtl s c).upd = s.upd := by
  simp [State.zeroCtl]
@[simp] theorem State.zeroCtl_ckpt (s : State) (c : CtlId) : (State.zeroCtl s c).ckpt = s.ckpt := by
  simp [State.zeroCtl]
@[simp] theorem State.clearStaging_pending (s : State) : (State.clearStaging s).pending = s.pending :=
  foldl_keep State.pending _ _ _ (fun _ _ => by simp)
@[simp] theorem State.clearStaging_free (s : State) : (State.clearStaging s).free = s.free :=
  foldl_keep State.free _ _ _ (fun _ _ => by simp)
@[simp] theorem State.clearStaging_glb (s : State) : (State.clearStaging s).glb = s.glb :=
  foldl_keep State.glb _ _ _ (fun _ _ => by simp)
@[simp] theorem State.clearStaging_job (s : State) : (State.clearStaging s).job = s.job :=
  foldl_keep State.job _ _ _ (fun _ _ => by simp)
@[simp] theorem State.clearStaging_int (s : State) : (State.clearStaging s).int = s.int :=
  foldl_keep State.int _ _ _ (fun _ _ => by simp)
@[simp] theorem State.clearStaging_sec (s : State) : (State.clearStaging s).sec = s.sec :=
  foldl_keep State.sec _ _ _ (fun _ _ => by simp)
@[simp] theorem State.clearStaging_pwr (s : State) : (State.clearStaging s).pwr = s.pwr :=
  foldl_keep State.pwr _ _ _ (fun _ _ => by simp)
@[simp] theorem State.clearStaging_host (s : State) : (State.clearStaging s).host = s.host :=
  foldl_keep State.host _ _ _ (fun _ _ => by simp)
@[simp] theorem State.clearStaging_span (s : State) : (State.clearStaging s).span = s.span :=
  foldl_keep State.span _ _ _ (fun _ _ => by simp)
@[simp] theorem State.clearStaging_caches (s : State) : (State.clearStaging s).caches = s.caches :=
  foldl_keep State.caches _ _ _ (fun _ _ => by simp)
@[simp] theorem State.clearStaging_ports (s : State) : (State.clearStaging s).ports = s.ports :=
  foldl_keep State.ports _ _ _ (fun _ _ => by simp)
@[simp] theorem State.clearStaging_env (s : State) : (State.clearStaging s).env = s.env :=
  foldl_keep State.env _ _ _ (fun _ _ => by simp)
@[simp] theorem State.clearStaging_upd (s : State) : (State.clearStaging s).upd = s.upd :=
  foldl_keep State.upd _ _ _ (fun _ _ => by simp)
@[simp] theorem State.clearStaging_ckpt (s : State) : (State.clearStaging s).ckpt = s.ckpt :=
  foldl_keep State.ckpt _ _ _ (fun _ _ => by simp)
@[simp] theorem State.zeroAllDram_pending (s : State) : (State.zeroAllDram s).pending = s.pending :=
  (foldl_keep State.pending _ _ _ (fun _ _ => by simp)).trans (foldl_keep State.pending _ _ _ (fun _ _ => by simp))
@[simp] theorem State.zeroAllDram_free (s : State) : (State.zeroAllDram s).free = s.free :=
  (foldl_keep State.free _ _ _ (fun _ _ => by simp)).trans (foldl_keep State.free _ _ _ (fun _ _ => by simp))
@[simp] theorem State.zeroAllDram_glb (s : State) : (State.zeroAllDram s).glb = s.glb :=
  (foldl_keep State.glb _ _ _ (fun _ _ => by simp)).trans (foldl_keep State.glb _ _ _ (fun _ _ => by simp))
@[simp] theorem State.zeroAllDram_job (s : State) : (State.zeroAllDram s).job = s.job :=
  (foldl_keep State.job _ _ _ (fun _ _ => by simp)).trans (foldl_keep State.job _ _ _ (fun _ _ => by simp))
@[simp] theorem State.zeroAllDram_int (s : State) : (State.zeroAllDram s).int = s.int :=
  (foldl_keep State.int _ _ _ (fun _ _ => by simp)).trans (foldl_keep State.int _ _ _ (fun _ _ => by simp))
@[simp] theorem State.zeroAllDram_sec (s : State) : (State.zeroAllDram s).sec = s.sec :=
  (foldl_keep State.sec _ _ _ (fun _ _ => by simp)).trans (foldl_keep State.sec _ _ _ (fun _ _ => by simp))
@[simp] theorem State.zeroAllDram_pwr (s : State) : (State.zeroAllDram s).pwr = s.pwr :=
  (foldl_keep State.pwr _ _ _ (fun _ _ => by simp)).trans (foldl_keep State.pwr _ _ _ (fun _ _ => by simp))
@[simp] theorem State.zeroAllDram_host (s : State) : (State.zeroAllDram s).host = s.host :=
  (foldl_keep State.host _ _ _ (fun _ _ => by simp)).trans (foldl_keep State.host _ _ _ (fun _ _ => by simp))
@[simp] theorem State.zeroAllDram_span (s : State) : (State.zeroAllDram s).span = s.span :=
  (foldl_keep State.span _ _ _ (fun _ _ => by simp)).trans (foldl_keep State.span _ _ _ (fun _ _ => by simp))
@[simp] theorem State.zeroAllDram_caches (s : State) : (State.zeroAllDram s).caches = s.caches :=
  (foldl_keep State.caches _ _ _ (fun _ _ => by simp)).trans (foldl_keep State.caches _ _ _ (fun _ _ => by simp))
@[simp] theorem State.zeroAllDram_ports (s : State) : (State.zeroAllDram s).ports = s.ports :=
  (foldl_keep State.ports _ _ _ (fun _ _ => by simp)).trans (foldl_keep State.ports _ _ _ (fun _ _ => by simp))
@[simp] theorem State.zeroAllDram_env (s : State) : (State.zeroAllDram s).env = s.env :=
  (foldl_keep State.env _ _ _ (fun _ _ => by simp)).trans (foldl_keep State.env _ _ _ (fun _ _ => by simp))
@[simp] theorem State.zeroAllDram_upd (s : State) : (State.zeroAllDram s).upd = s.upd :=
  (foldl_keep State.upd _ _ _ (fun _ _ => by simp)).trans (foldl_keep State.upd _ _ _ (fun _ _ => by simp))
@[simp] theorem State.zeroAllDram_ckpt (s : State) : (State.zeroAllDram s).ckpt = s.ckpt :=
  (foldl_keep State.ckpt _ _ _ (fun _ _ => by simp)).trans (foldl_keep State.ckpt _ _ _ (fun _ _ => by simp))
@[simp] theorem State.busyDone_pending (s : State) (st : Status) : (State.busyDone s st).pending = s.pending := by
  unfold State.busyDone
  split <;> simp
@[simp] theorem State.busyDone_free (s : State) (st : Status) : (State.busyDone s st).free = s.free := by
  unfold State.busyDone
  split <;> simp
@[simp] theorem State.busyDone_glb (s : State) (st : Status) : (State.busyDone s st).glb = s.glb := by
  unfold State.busyDone
  split <;> simp
@[simp] theorem State.busyDone_int (s : State) (st : Status) : (State.busyDone s st).int = s.int := by
  unfold State.busyDone
  split <;> simp
@[simp] theorem State.busyDone_pwr (s : State) (st : Status) : (State.busyDone s st).pwr = s.pwr := by
  unfold State.busyDone
  split <;> simp
@[simp] theorem State.busyDone_span (s : State) (st : Status) : (State.busyDone s st).span = s.span := by
  unfold State.busyDone
  split <;> simp
@[simp] theorem State.busyDone_vaults (s : State) (st : Status) : (State.busyDone s st).vaults = s.vaults := by
  unfold State.busyDone
  split <;> simp
@[simp] theorem State.busyDone_fars (s : State) (st : Status) : (State.busyDone s st).fars = s.fars := by
  unfold State.busyDone
  split <;> simp
@[simp] theorem State.busyDone_caches (s : State) (st : Status) : (State.busyDone s st).caches = s.caches := by
  unfold State.busyDone
  split <;> simp
@[simp] theorem State.busyDone_ports (s : State) (st : Status) : (State.busyDone s st).ports = s.ports := by
  unfold State.busyDone
  split <;> simp
@[simp] theorem State.busyDone_env (s : State) (st : Status) : (State.busyDone s st).env = s.env := by
  unfold State.busyDone
  split <;> simp
@[simp] theorem State.busyDone_upd (s : State) (st : Status) : (State.busyDone s st).upd = s.upd := by
  unfold State.busyDone
  split <;> simp
@[simp] theorem State.busyDone_ckpt (s : State) (st : Status) : (State.busyDone s st).ckpt = s.ckpt := by
  unfold State.busyDone
  split <;> simp
@[simp] theorem State.busyDone_eng (s : State) (st : Status) : (State.busyDone s st).eng = s.eng := by
  unfold State.busyDone
  split <;> simp

end Sys2Proof.Machine
end

