-- ==== Sys2Proof/Safety.lean ====
section
/-! DEFINITION. What a sound state of the block is: the invariant that every step keeps. -/

namespace Sys2Proof.Machine

/-- The RAMs of an engine are in canonical form, and its tile queue holds at most 32 tiles (R80). -/
structure Engine.Sound (x : Engine) : Prop where
  store : x.store.wf
  acc : x.acc.wf
  chk : x.chk.wf
  vr : x.vec.vr.wf
  queue : x.arr.queue.length ≤ 32

/-- The pending bytes of a merge entry: some, each in its codeword, and once. -/
structure PendingSound (l : List (Nat × Byte)) : Prop where
  some : l ≠ []
  within : ∀ b ∈ l, b.1 < 64
  once : (l.map (·.1)).Nodup

/-- A merge buffer holds at most 64 entries, each with pending bytes of its codeword (R272). -/
def MergeSound (l : List MergeEnt) : Prop := l.length ≤ 64 ∧ ∀ m ∈ l, PendingSound m.bytes

/-- A controller's memory is in canonical form, and so is its merge buffer. -/
structure CtlSt.Sound (x : CtlSt) : Prop where
  data : x.data.wf
  merge : MergeSound x.merge

/-- A ring that is enabled has a SIZE from 4 to 12 and a KIND from 0 to 2 (R347). -/
def RingSt.Sound (x : RingSt) : Prop :=
  x.enabled = true → 4 ≤ fld x.cfg 3 0 ∧ fld x.cfg 3 0 ≤ 12 ∧ fld x.cfg 9 8 ≤ 2

/-- The parts of a state that are bounded or in canonical form. -/
structure State.Sound (s : State) : Prop where
  eng : ∀ (i : Nat) (h : i < 128), (s.eng[i]).Sound
  vaults : ∀ (i : Nat) (h : i < 32), (s.vaults[i]).Sound
  fars : ∀ (i : Nat) (h : i < 48), (s.fars[i]).Sound
  /-- the error mailbox holds at most 4,096 entries (R402) -/
  mbox : s.int.mbox.length ≤ 4096
  /-- the security block holds the last 4,096 day-book entries (R457) -/
  book : s.sec.db.length ≤ 4096
  /-- every aperture segment is unmapped or lies on 4 GiB of one vault or far channel (R344) -/
  aperture : ∀ (i : Nat) (h : i < 16), aptValueOk (s.host.aptMap[i]) = true
  rings : ∀ (i : Nat) (h : i < 64), (s.host.rings[i]).Sound

/-! Terms that the statements share. -/

/-- The two states hold the same in every part outside the job, the security block, the rings and what has left. -/
structure SameUnits (s t : State) : Prop where
  glb : t.glb = s.glb
  int : t.int = s.int
  pwr : t.pwr = s.pwr
  span : t.span = s.span
  vaults : t.vaults = s.vaults
  fars : t.fars = s.fars
  caches : t.caches = s.caches
  ports : t.ports = s.ports
  env : t.env = s.env
  upd : t.upd = s.upd
  ckpt : t.ckpt = s.ckpt
  eng : t.eng = s.eng

/-- The bursar takes a command entry, and its token passes the checks of R454 for the role. -/
def Taken (s : State) (opc : Byte) (roles : List Byte) (c : Cmd) (role : Byte) : Prop :=
  s.noBursar = false ∧ s.sec.tokenCheck opc c roles = some role

/-- The state in which the effect of a command is evaluated once its token has passed: its completion slot is reserved
(R353) and its number is the last accepted one of its role (R453). -/
def State.taken (s : State) (role : Byte) (c : Cmd) : State := (s.reserve c.src).takeToken role c

/-- The commands that need a token, with their OPC and the roles whose tokens they take (R59, R349, R448). -/
def tokenCmd : Instr → Option (Byte × List Byte × Cmd)
  | .charterBegin c => some (0x01, [2], c)
  | .charterChunk c _ => some (0x02, [2], c)
  | .charterEnd c => some (0x03, [2], c)
  | .charterDiscard c => some (0x04, [2], c)
  | .activate c => some (0x05, [2], c)
  | .run c => some (0x06, [2], c)
  | .pause c => some (0x07, [2], c)
  | .planeSwitch c => some (0x08, [2], c)
  | .checkpointTake c => some (0x09, [2], c)
  | .restore c _ => some (0x0A, [2], c)
  | .resume c => some (0x0B, [2], c)
  | .release c => some (0x0C, [2], c)
  | .abort c => some (0x0D, [1, 2], c)
  | .dmaChain c _ => some (0x20, [2], c)
  | .assayLoad c => some (0x21, [0, 1], c)
  | .regWrite c => some (0x22, [0, 1, 2], c)
  | .keyEnrol c => some (0x23, [1], c)
  | .fuseMapLoad c => some (0x24, [1], c)
  | .fwWrite c => some (0x25, [1], c)
  | .decommission c => some (0x26, [0, 1], c)
  | .svnCommit c => some (0x27, [1], c)
  | .certInstall c => some (0x28, [0], c)
  | _ => none

/-- Registers of Access RW that the installer writes and that read as written in their defined fields: offset and mask
(13 R408, 15 R468, 16 R483, 11 R340). -/
def plainRegs : List (Nat × W64) := [
  (0x408, 0x3_FFFF), (0x410, 0xFFFF_FFFF_FFFF), (0x438, 0xFFFF_FFFF_FFFF), (0x10_00E0, 0xFFFF_FFFF_FFFF_FFFF),
  (0x10_00E8, 0x8000_0000_0000_000F), (0x20_0010, 0xFFFF_FFFF), (0x20_0018, 0x7_FFFF), (0x20_0020, 0xFF),
  (0x5C_0000, 0xFFFF_FFFF)]

/-- The path that a command came by takes its completion: a ring that is enabled, or a path without a ring. -/
def pathOpen (s : State) (src : CmdSrc) : Bool :=
  match src with
  | .ring r => s.host.rings[r.val].enabled
  | _ => true

/-- A REG_WRITE that names the register at the offset, with a token of the role, while its unit answers (R449, R516). -/
structure RegTaken (s : State) (c : Cmd) (role : Byte) (off : Nat) : Prop where
  path : pathOpen s c.src = true
  taken : Taken s 0x22 [0, 1, 2] c role
  names : regOff c = off
  there : s.regGone off = false

/-- The offset of a register of an engine's channel (R302). -/
def dmaReg (e : EngineId) (ch : ChanId) (k : Nat) : Nat := 0x100_0000 + e.val * 0x1_0000 + 0x2000 + ch.val * 0x40 + k

/-- The state in which an accepted RESTORE begins to load (R428): RESTORING for that command, with what step 1 empties
gone. -/
def State.restoreStart (s : State) (c : Cmd) (img : CkptImage) : State :=
  ((s.taken 2 c).leaveHeld.modJob fun j => { j with
      state := .restoring, busy := some (s.pendOf 0x0A c), runLeft := none }).restoreBegin (Fin.ofNat 4 (fld c.arg0 1 0)) img

/-- Owned shards that load one after the other (R428 step 2): each has its record, and its pages, map and checksum stand. -/
def ShardsLoad (img : CkptImage) : List (ShardEnt × List Nat) → State → Prop
  | [], _ => True
  | (x, named) :: l, s =>
    (∃ r, ((shardRecs img.counterfoil).find? fun r => r.shard == x.shard) = some r ∧
      (s.restoreShard img (rdW 48 img.counterfoil 0x10) named x r).1 = .ok) ∧
    ShardsLoad img l (s.restoreOwned img (rdW 48 img.counterfoil 0x10) (shardRecs img.counterfoil) [(x, named)])

/-- A restore that loads: every owned shard does, and the owner of every other shard of the job is a peer (R428 steps 2 and 4);
a declaration of loss has ended with the restore (R323). -/
structure RestoreLoads (s : State) (c : Cmd) (img : CkptImage) : Prop where
  owned : ShardsLoad img ((s.restoreStart c img).restoreList img) (s.restoreStart c img)
  owners : ∀ x ∈ (s.restoreStart c img).shardEnts, (s.restoreStart c img).owns x = false →
    ∃ i, s.peerOf ((s.restoreStart c img).ownerOf x) = some i

/-- A payload that both reads find as the entry's digest gives it, of a length from 1 to the command's limit (R352). -/
structure PayloadOk (c : Cmd) (limit : Nat) : Prop where
  least : 1 ≤ fld c.arg0 31 0
  most : fld c.arg0 31 0 ≤ limit
  place : payloadSpace c.arg1 c.src = true
  first : fld c.arg0 31 0 ≤ c.payload.length
  second : fld c.arg0 31 0 ≤ c.payload2.length
  digest : Config.sha3_256 (c.payload.take (fld c.arg0 31 0)) = argDigest c
  same : Config.sha3_256 (c.payload2.take (fld c.arg0 31 0)) = argDigest c

/-- A draw of the command nonce (R452): the epoch is one higher, no number has been accepted under it, and the head of the
day book goes with it. -/
structure NonceDrawn (s t : State) : Prop where
  epoch : t.sec.nonceEpoch = wrapAdd s.sec.nonceEpoch 1
  maker : t.sec.seqM = 0
  installer : t.sec.seqI = 0
  operator : t.sec.seqO = 0
  head : t.sec.nonceHead = t.sec.dbHead

/-- A slip that a channel runs: owned by the module, well formed (R289), and not refused (R287, R467). -/
structure SlipRuns (s : State) (e : EngineId) (ring first : Bool) (x : Slip) : Prop where
  owned : x.own = true
  formed : slipBad e x first = false
  allowed : s.slipRefused e ring x = none

/-- Every engine but e is as it was. -/
def OtherEngines (s t : State) (e : EngineId) : Prop :=
  ∀ f : EngineId, f ≠ e → t.eng[f.val] = s.eng[f.val]

/-- A completion of the command, with the status and RESULT, has left the module (R354). -/
def Completed (t : State) (c : Cmd) (opc : Byte) (st : Status) (res : W64) : Prop :=
  ∃ (addr : W64) (phase : Bool), Emission.completion c.src addr (complWord st phase c.tag opc) res ∈ t.out

/-- The row of an engine has completed OK, its counters left as q holds them: the next row is NEXT where COND holds and the
following row otherwise, and nothing waits (R41, R42). -/
structure RowDone (q : SeqSt) (r : SchedRow) (t : State) (e : EngineId) : Prop where
  row : (t.eng[e.val]).seq.row = if r.holds q then r.next.toNat else q.row + 1
  ctr : (t.eng[e.val]).seq.ctr = q.ctr
  wait : (t.eng[e.val]).seq.wait = 0
  pass : (t.eng[e.val]).seq.pass = none
  failed : (t.eng[e.val]).seq.failed = q.failed

/-- Nothing but engine e has changed. -/
def OnlyEngine (s t : State) (e : EngineId) : Prop := t = { s with eng := s.eng.set e.val t.eng[e.val] }

/-- Nothing of engine e but its sequencer has changed, and nothing outside the engine. -/
def OnlySeq (s t : State) (e : EngineId) : Prop :=
  t = { s with eng := s.eng.set e.val { s.eng[e.val] with seq := (t.eng[e.val]).seq } }

/-- The instruction of a register operation of the vector engine. -/
def vecInstr : VecOp → VecR → Instr
  | .nop, i => .vecNop i
  | .add, i => .vecAdd i
  | .sub, i => .sub i
  | .mul, i => .mul i
  | .fma, i => .fma i
  | .min, i => .min i
  | .max, i => .max i
  | .abs, i => .abs i
  | .neg, i => .neg i
  | .cmplt, i => .cmplt i
  | .cmple, i => .cmple i
  | .cmpeq, i => .cmpeq i
  | .sel, i => .sel i
  | .exp2, i => .exp2 i
  | .log2, i => .log2 i
  | .rcp, i => .rcp i
  | .rsqrt, i => .rsqrt i
  | .sqrt, i => .sqrt i
  | .tanh, i => .tanh i
  | .erf, i => .erf i

/-- The instruction of a reduction. -/
def redInstr : RedOp → VecM → Instr
  | .sum, i => .rsum i
  | .max, i => .rmax i
  | .ssq, i => .rssq i

/-- Both states hold the same outside engine e but for events raised and records and frames that leave. -/
structure EngineAndEvents (s t : State) (e : EngineId) : Prop where
  others : OtherEngines s t e
  job : t.job = s.job
  vaults : t.vaults = s.vaults
  fars : t.fars = s.fars
  sec : t.sec = s.sec
  host : t.host = s.host
  env : t.env = s.env
  ports : t.ports = s.ports
  upd : t.upd = s.upd
  ckpt : t.ckpt = s.ckpt

/-- What answers and frames that have left may change of an engine: the progress of its channels, and the SERVE counts of its
ledger entries (R223, R288). -/
structure Told (x y : Engine) : Prop where
  same : y = { x with dma := y.dma, led := { x.led with entries := y.led.entries } }
  entries : (y.led.entries.map fun z => (z.1, { z.2 with serve := 0 })) = x.led.entries.map fun z => (z.1, { z.2 with serve := 0 })

/-- Frames have moved and nothing else: ports, what has left, frames on their way through, the SERVE counts that a page lowers as
it leaves (R223, R314), and the port in use of a peer (R320). -/
structure LinkOnly (s t : State) : Prop where
  rest : t = { s with
    ports := t.ports, out := t.out, eng := t.eng
    env := { s.env with peers := t.env.peers, serving := t.env.serving, transit := t.env.transit } }
  peers : (t.env.peers.map fun x => { x with port := none }) = s.env.peers.map fun x => { x with port := none }
  eng : ∀ e : EngineId, Told s.eng[e.val] t.eng[e.val] ∧ (t.eng[e.val]).dma = (s.eng[e.val]).dma

/-- A requester whose answers leave the module's controllers as such; a DMA channel keeps its own. -/
def plainReq : Requester → Bool
  | .dma _ _ => false
  | _ => true

/-- A frame that has been handed to port p waits there, or is held until the far end acknowledges it; a frame that a port's
failure has moved waits with those that go first (R320). -/
def Held (t : State) (p : PortId) (f : Frame) : Prop :=
  f ∈ (t.ports[p.val]).moved ∨ f ∈ (t.ports[p.val]).queue ∨ ∃ u ∈ (t.ports[p.val]).retry, u.frame = f

/-- The frame is a REQUEST of KIND REFUSE for a module, with the status (R313). -/
def RefuseFrame (f : Frame) (m : BitVec 12) (st : Status) : Prop :=
  frTyp f = 5 ∧ frDst f = m ∧ f.payload[0]? = some 3 ∧ f.payload[26]? = some st.code

/-- Nothing holds or ends a start-up before READY: PERST# is released, no recovery strap is set, the fuse banks agree, the
security store shows the tag of its contents, no three watchdog resets come, and the flash holds an image that passes its check. -/
structure StartClear (env : StartEnv) (s : State) : Prop where
  perst : s.glb.perst = false
  strap : s.glb.strapRecovery = false
  pin : s.glb.pinRecovery = false
  fuses : env.fuseSplit = false
  store : s.sec.store.bad env.storeTag = false
  dogs : env.watchdogs < 3
  image : ∃ img, s.sec.flash = some img ∧ s.fwOk img = true

end Sys2Proof.Machine
end

