-- ==== Sys2Proof/Laws/Commands.lean ====
section
/-! SUPPORT. What a command entry's evaluation does around the command's own effect: the completion slot, the token, the
day book, the completion. -/

namespace Sys2Proof.Machine

/-- A ring that takes the completion of p: enabled, and not disabled since p was taken. -/
def PendCmd.open (p : PendCmd) (s : State) : Prop :=
  ∀ r, p.src = .ring r → s.host.rings[r.val].enabled = true ∧ s.host.rings[r.val].gen = p.gen

theorem ring_set_enabled (s : State) (r : RingId) (f : RingSt → RingSt) (q : RingId)
    (h : ∀ x, (f x).enabled = x.enabled) : (s.modRing r f).host.rings[q.val].enabled = s.host.rings[q.val].enabled := by
  simp only [State.modRing_host, Vector.getElem_set]
  split
  · rename_i e; rw [h]; simp only [e]
  · rfl

theorem ring_set_gen (s : State) (r : RingId) (f : RingSt → RingSt) (q : RingId)
    (h : ∀ x, (f x).gen = x.gen) : (s.modRing r f).host.rings[q.val].gen = s.host.rings[q.val].gen := by
  simp only [State.modRing_host, Vector.getElem_set]
  split
  · rename_i e; rw [h]; simp only [e]
  · rfl

theorem ring_reserve (s : State) (src : CmdSrc) (q : RingId) :
    (s.reserve src).host.rings[q.val].enabled = s.host.rings[q.val].enabled ∧
    (s.reserve src).host.rings[q.val].gen = s.host.rings[q.val].gen := by
  cases src with
  | ring r => exact ⟨ring_set_enabled s r _ q fun _ => rfl, ring_set_gen s r _ q fun _ => rfl⟩
  | mgmt p => exact ⟨rfl, rfl⟩
  | smbus => exact ⟨rfl, rfl⟩

/-- The pending form of an entry is open when its path is, in every state with the same rings. -/
theorem pendOf_open (s t : State) (opc : Byte) (c : Cmd) (h : pathOpen s c.src = true)
    (ht : t.host.rings = (s.reserve c.src).host.rings) : (s.pendOf opc c).open t := by
  intro r hr
  have hr' : c.src = .ring r := hr
  rw [hr'] at h ht
  have h1 := ring_reserve s (.ring r) r
  have e : t.host.rings[r.val] = (s.reserve (.ring r)).host.rings[r.val] := by rw [ht]
  rw [e]
  refine ⟨h1.1.trans h, h1.2.trans ?_⟩
  simp [State.pendOf, hr']

/-- A command that completes on an open path leaves its completion (R354). -/
theorem complete_out (s : State) (p : PendCmd) (st : Status) (res : W64) (h : p.open s) :
    ∃ (addr : W64) (phase : Bool), Emission.completion p.src addr (complWord st phase p.tag p.opc) res ∈ (s.complete p st res).out := by
  obtain ⟨src, tag, opc, gen⟩ := p
  cases src with
  | mgmt p => exact ⟨0, false, by simp [State.complete]⟩
  | smbus => exact ⟨0, false, by simp [State.complete]⟩
  | ring r =>
    have h1 := h r rfl
    unfold State.complete State.ringComplete
    dsimp only at h1 ⊢
    generalize hs : (if (decide (1 ≤ opc.toNat) && decide (opc.toNat ≤ 14)) = true then
      s.modJob fun j => { j with lastStatus := st.code } else s) = u
    have hu : u.host = s.host := by rw [← hs]; split <;> rfl
    have e1 : u.host.rings[r.val] = s.host.rings[r.val] := by rw [hu]
    rw [e1, h1.2]
    simp only [h1.1, beq_self_eq_true, Bool.and_self, if_true]
    refine ⟨wrapAdd s.host.rings[r.val].cq (s.host.rings[r.val].cPos * 16), s.host.rings[r.val].phase, ?_⟩
    split
    · simp only [State.emit_out, State.modRing_out]
      exact List.mem_cons_of_mem _ (List.mem_cons_self ..)
    · simp only [State.emit_out, State.modRing_out]
      exact List.mem_cons_self ..

/-- What a token command does: its body on the state with the slot reserved and the token taken, the day-book entry, what
follows it, and the completion. -/
theorem command_taken (s : State) (opc : Byte) (roles : List Byte) (c : Cmd) (body : PendCmd → Byte → State → CmdOut)
    (role : Byte) (h : Taken s opc roles c role) :
    s.command opc roles c body =
      (let o := body (s.pendOf opc c) role ((s.reserve c.src).takeToken role c)
       let t := o.after (if o.ended
         then o.s.dbAppend dbCommand role (srcCode c.src) (o.st.getD .ok) opc o.target (cmdDigest c opc) else o.s)
       match o.st with
       | some st => t.complete (s.pendOf opc c) st o.res
       | none => t) := by
  unfold State.command
  rw [if_neg (by rw [h.1]; exact Bool.false_ne_true)]
  have h2 : (s.reserve c.src).sec.tokenCheck opc c roles = some role := by rw [State.reserve_sec]; exact h.2
  simp only [h2] <;> rfl

/-- A token that fails: DENIED, counted and entered in the day book (R454, R457). -/
theorem command_denied (s : State) (opc : Byte) (roles : List Byte) (c : Cmd) (body : PendCmd → Byte → State → CmdOut)
    (hb : s.noBursar = false) (h : s.sec.tokenCheck opc c roles = none) :
    s.command opc roles c body =
      (((s.reserve c.src).modSec fun x => { x with deniedToken := satAdd x.deniedToken 1 }).dbAppend dbCommand
        (tokenRole c) (srcCode c.src) .denied opc 0
        (cmdDigest c opc)).complete (s.pendOf opc c) .denied 0 := by
  unfold State.command
  rw [if_neg (by rw [hb]; exact Bool.false_ne_true)]
  have h2 : (s.reserve c.src).sec.tokenCheck opc c roles = none := by rw [State.reserve_sec]; exact h
  simp only [h2]

theorem complete_completed (s t : State) (opc : Byte) (c : Cmd) (st : Status) (res : W64) (h : pathOpen s c.src = true)
    (ht : t.host.rings = (s.reserve c.src).host.rings) : Completed (t.complete (s.pendOf opc c) st res) c opc st res := by
  obtain ⟨a, p, hm⟩ := complete_out t (s.pendOf opc c) st res (pendOf_open s t opc c h ht)
  exact ⟨a, p, hm⟩

/-- A completion changes of the job only GLB_JOB_STATE.LAST_STATUS. -/
theorem complete_job (s : State) (p : PendCmd) (st : Status) (res : W64) :
    (s.complete p st res).job = s.job ∨ (s.complete p st res).job = { s.job with lastStatus := st.code } := by
  unfold State.complete
  split
  · simp
    split <;> simp
  · simp
    split <;> simp

@[simp] theorem complete_job_state (s : State) (p : PendCmd) (st : Status) (res : W64) :
    (s.complete p st res).job.state = s.job.state := by
  rcases complete_job s p st res with h | h <;> rw [h]

theorem complete_units (s : State) (p : PendCmd) (st : Status) (res : W64) : SameUnits s (s.complete p st res) := by
  constructor <;> simp

theorem dbAppend_units (s : State) (k r q : Byte) (st : Status) (o : Byte) (g : W64) (d : Dig512) :
    SameUnits s (s.dbAppend k r q st o g d) := by
  constructor <;> simp

theorem SameUnits.trans {s t u : State} (h : SameUnits s t) (k : SameUnits t u) : SameUnits s u :=
  ⟨k.glb.trans h.glb, k.int.trans h.int, k.pwr.trans h.pwr, k.span.trans h.span, k.vaults.trans h.vaults,
    k.fars.trans h.fars, k.caches.trans h.caches, k.ports.trans h.ports, k.env.trans h.env, k.upd.trans h.upd,
    k.ckpt.trans h.ckpt, k.eng.trans h.eng⟩

/-- A completion writes GLB_JOB_STATE.LAST_STATUS for a job command, and of the job nothing else. -/
theorem complete_job_eq (s : State) (p : PendCmd) (st : Status) (res : W64) :
    (s.complete p st res).job =
      if 1 ≤ p.opc.toNat ∧ p.opc.toNat ≤ 14 then { s.job with lastStatus := st.code } else s.job := by
  unfold State.complete
  simp only [Bool.and_eq_true, decide_eq_true_eq]
  split <;> split <;> simp_all

/-- What a day-book entry changes of the security block. -/
theorem dbAppendEntry_sec (s : State) (x : DbEntry) :
    (s.dbAppendEntry x).sec = { s.sec with
      dbSeq := x.seqNo
      dbHead := Config.sha3_512 (toBytes s.sec.dbHead 64 ++ x.bytes)
      dbOpen := true
      db := (x :: s.sec.db).take 4096
      store := if x.stored then
        { s.sec.store with dbHead := Config.sha3_512 (toBytes s.sec.dbHead 64 ++ x.bytes), dbSeq := x.seqNo } else s.sec.store } := by
  unfold State.dbAppendEntry
  simp only [apply_ite State.sec, State.emit_sec, ite_self]
  rfl

@[simp] theorem dbAppendEntry_flash (s : State) (x : DbEntry) : (s.dbAppendEntry x).sec.flash = s.sec.flash := by
  rw [dbAppendEntry_sec]
@[simp] theorem dbAppend_flash (s : State) (k r q : Byte) (st : Status) (o : Byte) (g : W64) (d : Dig512) :
    (s.dbAppend k r q st o g d).sec.flash = s.sec.flash := dbAppendEntry_flash ..
@[simp] theorem takeToken_flash (s : State) (r : Byte) (c : Cmd) : (s.takeToken r c).sec.flash = s.sec.flash := by
  unfold State.takeToken; simp; (repeat' split) <;> rfl
@[simp] theorem dbAppendEntry_floor (s : State) (x : DbEntry) : (s.dbAppendEntry x).sec.floor = s.sec.floor := by
  rw [dbAppendEntry_sec]
@[simp] theorem dbAppend_floor (s : State) (k r q : Byte) (st : Status) (o : Byte) (g : W64) (d : Dig512) :
    (s.dbAppend k r q st o g d).sec.floor = s.sec.floor := dbAppendEntry_floor ..
@[simp] theorem takeToken_floor (s : State) (r : Byte) (c : Cmd) : (s.takeToken r c).sec.floor = s.sec.floor := by
  unfold State.takeToken; simp; (repeat' split) <;> rfl
@[simp] theorem dbAppendEntry_extends_ (s : State) (x : DbEntry) : (s.dbAppendEntry x).sec.extends_ = s.sec.extends_ := by
  rw [dbAppendEntry_sec]
@[simp] theorem dbAppend_extends_ (s : State) (k r q : Byte) (st : Status) (o : Byte) (g : W64) (d : Dig512) :
    (s.dbAppend k r q st o g d).sec.extends_ = s.sec.extends_ := dbAppendEntry_extends_ ..
@[simp] theorem takeToken_extends_ (s : State) (r : Byte) (c : Cmd) : (s.takeToken r c).sec.extends_ = s.sec.extends_ := by
  unfold State.takeToken; simp; (repeat' split) <;> rfl
@[simp] theorem dbAppendEntry_mlog (s : State) (x : DbEntry) : (s.dbAppendEntry x).sec.mlog = s.sec.mlog := by
  rw [dbAppendEntry_sec]
@[simp] theorem dbAppend_mlog (s : State) (k r q : Byte) (st : Status) (o : Byte) (g : W64) (d : Dig512) :
    (s.dbAppend k r q st o g d).sec.mlog = s.sec.mlog := dbAppendEntry_mlog ..
@[simp] theorem takeToken_mlog (s : State) (r : Byte) (c : Cmd) : (s.takeToken r c).sec.mlog = s.sec.mlog := by
  unfold State.takeToken; simp; (repeat' split) <;> rfl
@[simp] theorem dbAppendEntry_mlogFull (s : State) (x : DbEntry) : (s.dbAppendEntry x).sec.mlogFull = s.sec.mlogFull := by
  rw [dbAppendEntry_sec]
@[simp] theorem dbAppend_mlogFull (s : State) (k r q : Byte) (st : Status) (o : Byte) (g : W64) (d : Dig512) :
    (s.dbAppend k r q st o g d).sec.mlogFull = s.sec.mlogFull := dbAppendEntry_mlogFull ..
@[simp] theorem takeToken_mlogFull (s : State) (r : Byte) (c : Cmd) : (s.takeToken r c).sec.mlogFull = s.sec.mlogFull := by
  unfold State.takeToken; simp; (repeat' split) <;> rfl
@[simp] theorem dbAppendEntry_mapVer (s : State) (x : DbEntry) : (s.dbAppendEntry x).sec.mapVer = s.sec.mapVer := by
  rw [dbAppendEntry_sec]
@[simp] theorem dbAppend_mapVer (s : State) (k r q : Byte) (st : Status) (o : Byte) (g : W64) (d : Dig512) :
    (s.dbAppend k r q st o g d).sec.mapVer = s.sec.mapVer := dbAppendEntry_mapVer ..
@[simp] theorem takeToken_mapVer (s : State) (r : Byte) (c : Cmd) : (s.takeToken r c).sec.mapVer = s.sec.mapVer := by
  unfold State.takeToken; simp; (repeat' split) <;> rfl
@[simp] theorem dbAppendEntry_storeFail (s : State) (x : DbEntry) : (s.dbAppendEntry x).sec.storeFail = s.sec.storeFail := by
  rw [dbAppendEntry_sec]
@[simp] theorem dbAppend_storeFail (s : State) (k r q : Byte) (st : Status) (o : Byte) (g : W64) (d : Dig512) :
    (s.dbAppend k r q st o g d).sec.storeFail = s.sec.storeFail := dbAppendEntry_storeFail ..
@[simp] theorem takeToken_storeFail (s : State) (r : Byte) (c : Cmd) : (s.takeToken r c).sec.storeFail = s.sec.storeFail := by
  unfold State.takeToken; simp; (repeat' split) <;> rfl
@[simp] theorem dbAppendEntry_keyI (s : State) (x : DbEntry) : (s.dbAppendEntry x).sec.keyI = s.sec.keyI := by
  rw [dbAppendEntry_sec]
@[simp] theorem dbAppend_keyI (s : State) (k r q : Byte) (st : Status) (o : Byte) (g : W64) (d : Dig512) :
    (s.dbAppend k r q st o g d).sec.keyI = s.sec.keyI := dbAppendEntry_keyI ..
@[simp] theorem takeToken_keyI (s : State) (r : Byte) (c : Cmd) : (s.takeToken r c).sec.keyI = s.sec.keyI := by
  unfold State.takeToken; simp; (repeat' split) <;> rfl
@[simp] theorem dbAppendEntry_keyO (s : State) (x : DbEntry) : (s.dbAppendEntry x).sec.keyO = s.sec.keyO := by
  rw [dbAppendEntry_sec]
@[simp] theorem dbAppend_keyO (s : State) (k r q : Byte) (st : Status) (o : Byte) (g : W64) (d : Dig512) :
    (s.dbAppend k r q st o g d).sec.keyO = s.sec.keyO := dbAppendEntry_keyO ..
@[simp] theorem takeToken_keyO (s : State) (r : Byte) (c : Cmd) : (s.takeToken r c).sec.keyO = s.sec.keyO := by
  unfold State.takeToken; simp; (repeat' split) <;> rfl
@[simp] theorem dbAppendEntry_ideKeys (s : State) (x : DbEntry) : (s.dbAppendEntry x).sec.ideKeys = s.sec.ideKeys := by
  rw [dbAppendEntry_sec]
@[simp] theorem dbAppend_ideKeys (s : State) (k r q : Byte) (st : Status) (o : Byte) (g : W64) (d : Dig512) :
    (s.dbAppend k r q st o g d).sec.ideKeys = s.sec.ideKeys := dbAppendEntry_ideKeys ..
@[simp] theorem takeToken_ideKeys (s : State) (r : Byte) (c : Cmd) : (s.takeToken r c).sec.ideKeys = s.sec.ideKeys := by
  unfold State.takeToken; simp; (repeat' split) <;> rfl
@[simp] theorem dbAppendEntry_jobKey (s : State) (x : DbEntry) : (s.dbAppendEntry x).sec.jobKey = s.sec.jobKey := by
  rw [dbAppendEntry_sec]
@[simp] theorem dbAppend_jobKey (s : State) (k r q : Byte) (st : Status) (o : Byte) (g : W64) (d : Dig512) :
    (s.dbAppend k r q st o g d).sec.jobKey = s.sec.jobKey := dbAppendEntry_jobKey ..
@[simp] theorem takeToken_jobKey (s : State) (r : Byte) (c : Cmd) : (s.takeToken r c).sec.jobKey = s.sec.jobKey := by
  unfold State.takeToken; simp; (repeat' split) <;> rfl
@[simp] theorem dbAppendEntry_memKey (s : State) (x : DbEntry) : (s.dbAppendEntry x).sec.memKey = s.sec.memKey := by
  rw [dbAppendEntry_sec]
@[simp] theorem dbAppend_memKey (s : State) (k r q : Byte) (st : Status) (o : Byte) (g : W64) (d : Dig512) :
    (s.dbAppend k r q st o g d).sec.memKey = s.sec.memKey := dbAppendEntry_memKey ..
@[simp] theorem takeToken_memKey (s : State) (r : Byte) (c : Cmd) : (s.takeToken r c).sec.memKey = s.sec.memKey := by
  unfold State.takeToken; simp; (repeat' split) <;> rfl
@[simp] theorem dbAppendEntry_boot (s : State) (x : DbEntry) : (s.dbAppendEntry x).sec.boot = s.sec.boot := by
  rw [dbAppendEntry_sec]
@[simp] theorem dbAppend_boot (s : State) (k r q : Byte) (st : Status) (o : Byte) (g : W64) (d : Dig512) :
    (s.dbAppend k r q st o g d).sec.boot = s.sec.boot := dbAppendEntry_boot ..
@[simp] theorem takeToken_boot (s : State) (r : Byte) (c : Cmd) : (s.takeToken r c).sec.boot = s.sec.boot := by
  unfold State.takeToken; simp; (repeat' split) <;> rfl
@[simp] theorem dbAppendEntry_fwSecVer (s : State) (x : DbEntry) : (s.dbAppendEntry x).sec.fwSecVer = s.sec.fwSecVer := by
  rw [dbAppendEntry_sec]
@[simp] theorem dbAppend_fwSecVer (s : State) (k r q : Byte) (st : Status) (o : Byte) (g : W64) (d : Dig512) :
    (s.dbAppend k r q st o g d).sec.fwSecVer = s.sec.fwSecVer := dbAppendEntry_fwSecVer ..
@[simp] theorem takeToken_fwSecVer (s : State) (r : Byte) (c : Cmd) : (s.takeToken r c).sec.fwSecVer = s.sec.fwSecVer := by
  unfold State.takeToken; simp; (repeat' split) <;> rfl
@[simp] theorem dbAppendEntry_fwVer (s : State) (x : DbEntry) : (s.dbAppendEntry x).sec.fwVer = s.sec.fwVer := by
  rw [dbAppendEntry_sec]
@[simp] theorem dbAppend_fwVer (s : State) (k r q : Byte) (st : Status) (o : Byte) (g : W64) (d : Dig512) :
    (s.dbAppend k r q st o g d).sec.fwVer = s.sec.fwVer := dbAppendEntry_fwVer ..
@[simp] theorem takeToken_fwVer (s : State) (r : Byte) (c : Cmd) : (s.takeToken r c).sec.fwVer = s.sec.fwVer := by
  unfold State.takeToken; simp; (repeat' split) <;> rfl
@[simp] theorem dbAppendEntry_nonce (s : State) (x : DbEntry) : (s.dbAppendEntry x).sec.nonce = s.sec.nonce := by
  rw [dbAppendEntry_sec]
@[simp] theorem dbAppend_nonce (s : State) (k r q : Byte) (st : Status) (o : Byte) (g : W64) (d : Dig512) :
    (s.dbAppend k r q st o g d).sec.nonce = s.sec.nonce := dbAppendEntry_nonce ..
@[simp] theorem takeToken_nonce (s : State) (r : Byte) (c : Cmd) : (s.takeToken r c).sec.nonce = s.sec.nonce := by
  unfold State.takeToken; simp; (repeat' split) <;> rfl
@[simp] theorem dbAppendEntry_nonceHead (s : State) (x : DbEntry) : (s.dbAppendEntry x).sec.nonceHead = s.sec.nonceHead := by
  rw [dbAppendEntry_sec]
@[simp] theorem dbAppend_nonceHead (s : State) (k r q : Byte) (st : Status) (o : Byte) (g : W64) (d : Dig512) :
    (s.dbAppend k r q st o g d).sec.nonceHead = s.sec.nonceHead := dbAppendEntry_nonceHead ..
@[simp] theorem takeToken_nonceHead (s : State) (r : Byte) (c : Cmd) : (s.takeToken r c).sec.nonceHead = s.sec.nonceHead := by
  unfold State.takeToken; simp; (repeat' split) <;> rfl
@[simp] theorem dbAppendEntry_nonceEpoch (s : State) (x : DbEntry) : (s.dbAppendEntry x).sec.nonceEpoch = s.sec.nonceEpoch := by
  rw [dbAppendEntry_sec]
@[simp] theorem dbAppend_nonceEpoch (s : State) (k r q : Byte) (st : Status) (o : Byte) (g : W64) (d : Dig512) :
    (s.dbAppend k r q st o g d).sec.nonceEpoch = s.sec.nonceEpoch := dbAppendEntry_nonceEpoch ..
@[simp] theorem takeToken_nonceEpoch (s : State) (r : Byte) (c : Cmd) : (s.takeToken r c).sec.nonceEpoch = s.sec.nonceEpoch := by
  unfold State.takeToken; simp; (repeat' split) <;> rfl
@[simp] theorem dbAppendEntry_seqM (s : State) (x : DbEntry) : (s.dbAppendEntry x).sec.seqM = s.sec.seqM := by
  rw [dbAppendEntry_sec]
@[simp] theorem dbAppend_seqM (s : State) (k r q : Byte) (st : Status) (o : Byte) (g : W64) (d : Dig512) :
    (s.dbAppend k r q st o g d).sec.seqM = s.sec.seqM := dbAppendEntry_seqM ..
@[simp] theorem dbAppendEntry_seqI (s : State) (x : DbEntry) : (s.dbAppendEntry x).sec.seqI = s.sec.seqI := by
  rw [dbAppendEntry_sec]
@[simp] theorem dbAppend_seqI (s : State) (k r q : Byte) (st : Status) (o : Byte) (g : W64) (d : Dig512) :
    (s.dbAppend k r q st o g d).sec.seqI = s.sec.seqI := dbAppendEntry_seqI ..
@[simp] theorem dbAppendEntry_seqO (s : State) (x : DbEntry) : (s.dbAppendEntry x).sec.seqO = s.sec.seqO := by
  rw [dbAppendEntry_sec]
@[simp] theorem dbAppend_seqO (s : State) (k r q : Byte) (st : Status) (o : Byte) (g : W64) (d : Dig512) :
    (s.dbAppend k r q st o g d).sec.seqO = s.sec.seqO := dbAppendEntry_seqO ..
@[simp] theorem dbAppendEntry_dbMirror (s : State) (x : DbEntry) : (s.dbAppendEntry x).sec.dbMirror = s.sec.dbMirror := by
  rw [dbAppendEntry_sec]
@[simp] theorem dbAppend_dbMirror (s : State) (k r q : Byte) (st : Status) (o : Byte) (g : W64) (d : Dig512) :
    (s.dbAppend k r q st o g d).sec.dbMirror = s.sec.dbMirror := dbAppendEntry_dbMirror ..
@[simp] theorem takeToken_dbMirror (s : State) (r : Byte) (c : Cmd) : (s.takeToken r c).sec.dbMirror = s.sec.dbMirror := by
  unfold State.takeToken; simp; (repeat' split) <;> rfl
@[simp] theorem dbAppendEntry_dbMirrorCfg (s : State) (x : DbEntry) : (s.dbAppendEntry x).sec.dbMirrorCfg = s.sec.dbMirrorCfg := by
  rw [dbAppendEntry_sec]
@[simp] theorem dbAppend_dbMirrorCfg (s : State) (k r q : Byte) (st : Status) (o : Byte) (g : W64) (d : Dig512) :
    (s.dbAppend k r q st o g d).sec.dbMirrorCfg = s.sec.dbMirrorCfg := dbAppendEntry_dbMirrorCfg ..
@[simp] theorem takeToken_dbMirrorCfg (s : State) (r : Byte) (c : Cmd) : (s.takeToken r c).sec.dbMirrorCfg = s.sec.dbMirrorCfg := by
  unfold State.takeToken; simp; (repeat' split) <;> rfl
@[simp] theorem dbAppendEntry_mrBoot (s : State) (x : DbEntry) : (s.dbAppendEntry x).sec.mrBoot = s.sec.mrBoot := by
  rw [dbAppendEntry_sec]
@[simp] theorem dbAppend_mrBoot (s : State) (k r q : Byte) (st : Status) (o : Byte) (g : W64) (d : Dig512) :
    (s.dbAppend k r q st o g d).sec.mrBoot = s.sec.mrBoot := dbAppendEntry_mrBoot ..
@[simp] theorem takeToken_mrBoot (s : State) (r : Byte) (c : Cmd) : (s.takeToken r c).sec.mrBoot = s.sec.mrBoot := by
  unfold State.takeToken; simp; (repeat' split) <;> rfl
@[simp] theorem dbAppendEntry_mrCfg (s : State) (x : DbEntry) : (s.dbAppendEntry x).sec.mrCfg = s.sec.mrCfg := by
  rw [dbAppendEntry_sec]
@[simp] theorem dbAppend_mrCfg (s : State) (k r q : Byte) (st : Status) (o : Byte) (g : W64) (d : Dig512) :
    (s.dbAppend k r q st o g d).sec.mrCfg = s.sec.mrCfg := dbAppendEntry_mrCfg ..
@[simp] theorem takeToken_mrCfg (s : State) (r : Byte) (c : Cmd) : (s.takeToken r c).sec.mrCfg = s.sec.mrCfg := by
  unfold State.takeToken; simp; (repeat' split) <;> rfl
@[simp] theorem dbAppendEntry_mrJob (s : State) (x : DbEntry) : (s.dbAppendEntry x).sec.mrJob = s.sec.mrJob := by
  rw [dbAppendEntry_sec]
@[simp] theorem dbAppend_mrJob (s : State) (k r q : Byte) (st : Status) (o : Byte) (g : W64) (d : Dig512) :
    (s.dbAppend k r q st o g d).sec.mrJob = s.sec.mrJob := dbAppendEntry_mrJob ..
@[simp] theorem takeToken_mrJob (s : State) (r : Byte) (c : Cmd) : (s.takeToken r c).sec.mrJob = s.sec.mrJob := by
  unfold State.takeToken; simp; (repeat' split) <;> rfl
@[simp] theorem dbAppendEntry_deniedToken (s : State) (x : DbEntry) : (s.dbAppendEntry x).sec.deniedToken = s.sec.deniedToken := by
  rw [dbAppendEntry_sec]
@[simp] theorem dbAppend_deniedToken (s : State) (k r q : Byte) (st : Status) (o : Byte) (g : W64) (d : Dig512) :
    (s.dbAppend k r q st o g d).sec.deniedToken = s.sec.deniedToken := dbAppendEntry_deniedToken ..
@[simp] theorem takeToken_deniedToken (s : State) (r : Byte) (c : Cmd) : (s.takeToken r c).sec.deniedToken = s.sec.deniedToken := by
  unfold State.takeToken; simp; (repeat' split) <;> rfl
@[simp] theorem dbAppendEntry_deniedDirect (s : State) (x : DbEntry) : (s.dbAppendEntry x).sec.deniedDirect = s.sec.deniedDirect := by
  rw [dbAppendEntry_sec]
@[simp] theorem dbAppend_deniedDirect (s : State) (k r q : Byte) (st : Status) (o : Byte) (g : W64) (d : Dig512) :
    (s.dbAppend k r q st o g d).sec.deniedDirect = s.sec.deniedDirect := dbAppendEntry_deniedDirect ..
@[simp] theorem takeToken_deniedDirect (s : State) (r : Byte) (c : Cmd) : (s.takeToken r c).sec.deniedDirect = s.sec.deniedDirect := by
  unfold State.takeToken; simp; (repeat' split) <;> rfl
@[simp] theorem dbAppendEntry_wdogResets (s : State) (x : DbEntry) : (s.dbAppendEntry x).sec.wdogResets = s.sec.wdogResets := by
  rw [dbAppendEntry_sec]
@[simp] theorem dbAppend_wdogResets (s : State) (k r q : Byte) (st : Status) (o : Byte) (g : W64) (d : Dig512) :
    (s.dbAppend k r q st o g d).sec.wdogResets = s.sec.wdogResets := dbAppendEntry_wdogResets ..
@[simp] theorem takeToken_wdogResets (s : State) (r : Byte) (c : Cmd) : (s.takeToken r c).sec.wdogResets = s.sec.wdogResets := by
  unfold State.takeToken; simp; (repeat' split) <;> rfl
@[simp] theorem dbAppendEntry_wdogTimeout (s : State) (x : DbEntry) : (s.dbAppendEntry x).sec.wdogTimeout = s.sec.wdogTimeout := by
  rw [dbAppendEntry_sec]
@[simp] theorem dbAppend_wdogTimeout (s : State) (k r q : Byte) (st : Status) (o : Byte) (g : W64) (d : Dig512) :
    (s.dbAppend k r q st o g d).sec.wdogTimeout = s.sec.wdogTimeout := dbAppendEntry_wdogTimeout ..
@[simp] theorem takeToken_wdogTimeout (s : State) (r : Byte) (c : Cmd) : (s.takeToken r c).sec.wdogTimeout = s.sec.wdogTimeout := by
  unfold State.takeToken; simp; (repeat' split) <;> rfl
@[simp] theorem dbAppendEntry_fwDigest (s : State) (x : DbEntry) : (s.dbAppendEntry x).sec.fwDigest = s.sec.fwDigest := by
  rw [dbAppendEntry_sec]
@[simp] theorem dbAppend_fwDigest (s : State) (k r q : Byte) (st : Status) (o : Byte) (g : W64) (d : Dig512) :
    (s.dbAppend k r q st o g d).sec.fwDigest = s.sec.fwDigest := dbAppendEntry_fwDigest ..
@[simp] theorem takeToken_fwDigest (s : State) (r : Byte) (c : Cmd) : (s.takeToken r c).sec.fwDigest = s.sec.fwDigest := by
  unfold State.takeToken; simp; (repeat' split) <;> rfl
@[simp] theorem dbAppendEntry_draws (s : State) (x : DbEntry) : (s.dbAppendEntry x).sec.draws = s.sec.draws := by
  rw [dbAppendEntry_sec]
@[simp] theorem dbAppend_draws (s : State) (k r q : Byte) (st : Status) (o : Byte) (g : W64) (d : Dig512) :
    (s.dbAppend k r q st o g d).sec.draws = s.sec.draws := dbAppendEntry_draws ..
@[simp] theorem takeToken_draws (s : State) (r : Byte) (c : Cmd) : (s.takeToken r c).sec.draws = s.sec.draws := by
  unfold State.takeToken; simp; (repeat' split) <;> rfl
@[simp] theorem dbAppendEntry_recovery (s : State) (x : DbEntry) : (s.dbAppendEntry x).sec.recovery = s.sec.recovery := by
  rw [dbAppendEntry_sec]
@[simp] theorem dbAppend_recovery (s : State) (k r q : Byte) (st : Status) (o : Byte) (g : W64) (d : Dig512) :
    (s.dbAppend k r q st o g d).sec.recovery = s.sec.recovery := dbAppendEntry_recovery ..
@[simp] theorem takeToken_recovery (s : State) (r : Byte) (c : Cmd) : (s.takeToken r c).sec.recovery = s.sec.recovery := by
  unfold State.takeToken; simp; (repeat' split) <;> rfl
@[simp] theorem dbAppendEntry_doeWait (s : State) (x : DbEntry) : (s.dbAppendEntry x).sec.doeWait = s.sec.doeWait := by
  rw [dbAppendEntry_sec]
@[simp] theorem dbAppend_doeWait (s : State) (k r q : Byte) (st : Status) (o : Byte) (g : W64) (d : Dig512) :
    (s.dbAppend k r q st o g d).sec.doeWait = s.sec.doeWait := dbAppendEntry_doeWait ..
@[simp] theorem takeToken_doeWait (s : State) (r : Byte) (c : Cmd) : (s.takeToken r c).sec.doeWait = s.sec.doeWait := by
  unfold State.takeToken; simp; (repeat' split) <;> rfl
@[simp] theorem dbAppendEntry_doeError (s : State) (x : DbEntry) : (s.dbAppendEntry x).sec.doeError = s.sec.doeError := by
  rw [dbAppendEntry_sec]
@[simp] theorem dbAppend_doeError (s : State) (k r q : Byte) (st : Status) (o : Byte) (g : W64) (d : Dig512) :
    (s.dbAppend k r q st o g d).sec.doeError = s.sec.doeError := dbAppendEntry_doeError ..
@[simp] theorem takeToken_doeError (s : State) (r : Byte) (c : Cmd) : (s.takeToken r c).sec.doeError = s.sec.doeError := by
  unfold State.takeToken; simp; (repeat' split) <;> rfl
@[simp] theorem dbAppendEntry_mctpLast (s : State) (x : DbEntry) : (s.dbAppendEntry x).sec.mctpLast = s.sec.mctpLast := by
  rw [dbAppendEntry_sec]
@[simp] theorem dbAppend_mctpLast (s : State) (k r q : Byte) (st : Status) (o : Byte) (g : W64) (d : Dig512) :
    (s.dbAppend k r q st o g d).sec.mctpLast = s.sec.mctpLast := dbAppendEntry_mctpLast ..
@[simp] theorem takeToken_mctpLast (s : State) (r : Byte) (c : Cmd) : (s.takeToken r c).sec.mctpLast = s.sec.mctpLast := by
  unfold State.takeToken; simp; (repeat' split) <;> rfl

@[simp] theorem dbAppendEntry_store_cert (s : State) (x : DbEntry) :
    (s.dbAppendEntry x).sec.store.cert = s.sec.store.cert := by
  rw [dbAppendEntry_sec]; split <;> rfl
@[simp] theorem dbAppend_store_cert (s : State) (k r q : Byte) (st : Status) (o : Byte) (g : W64) (d : Dig512) :
    (s.dbAppend k r q st o g d).sec.store.cert = s.sec.store.cert := dbAppendEntry_store_cert ..
@[simp] theorem dbAppendEntry_store_keyI (s : State) (x : DbEntry) :
    (s.dbAppendEntry x).sec.store.keyI = s.sec.store.keyI := by
  rw [dbAppendEntry_sec]; split <;> rfl
@[simp] theorem dbAppend_store_keyI (s : State) (k r q : Byte) (st : Status) (o : Byte) (g : W64) (d : Dig512) :
    (s.dbAppend k r q st o g d).sec.store.keyI = s.sec.store.keyI := dbAppendEntry_store_keyI ..
@[simp] theorem dbAppendEntry_store_keyO (s : State) (x : DbEntry) :
    (s.dbAppendEntry x).sec.store.keyO = s.sec.store.keyO := by
  rw [dbAppendEntry_sec]; split <;> rfl
@[simp] theorem dbAppend_store_keyO (s : State) (k r q : Byte) (st : Status) (o : Byte) (g : W64) (d : Dig512) :
    (s.dbAppend k r q st o g d).sec.store.keyO = s.sec.store.keyO := dbAppendEntry_store_keyO ..
@[simp] theorem dbAppendEntry_store_moduleId (s : State) (x : DbEntry) :
    (s.dbAppendEntry x).sec.store.moduleId = s.sec.store.moduleId := by
  rw [dbAppendEntry_sec]; split <;> rfl
@[simp] theorem dbAppend_store_moduleId (s : State) (k r q : Byte) (st : Status) (o : Byte) (g : W64) (d : Dig512) :
    (s.dbAppend k r q st o g d).sec.store.moduleId = s.sec.store.moduleId := dbAppendEntry_store_moduleId ..
@[simp] theorem dbAppendEntry_store_boot (s : State) (x : DbEntry) :
    (s.dbAppendEntry x).sec.store.boot = s.sec.store.boot := by
  rw [dbAppendEntry_sec]; split <;> rfl
@[simp] theorem dbAppend_store_boot (s : State) (k r q : Byte) (st : Status) (o : Byte) (g : W64) (d : Dig512) :
    (s.dbAppend k r q st o g d).sec.store.boot = s.sec.store.boot := dbAppendEntry_store_boot ..
@[simp] theorem dbAppendEntry_store_fuseMap (s : State) (x : DbEntry) :
    (s.dbAppendEntry x).sec.store.fuseMap = s.sec.store.fuseMap := by
  rw [dbAppendEntry_sec]; split <;> rfl
@[simp] theorem dbAppend_store_fuseMap (s : State) (k r q : Byte) (st : Status) (o : Byte) (g : W64) (d : Dig512) :
    (s.dbAppend k r q st o g d).sec.store.fuseMap = s.sec.store.fuseMap := dbAppendEntry_store_fuseMap ..
@[simp] theorem dbAppendEntry_store_jobFlag (s : State) (x : DbEntry) :
    (s.dbAppendEntry x).sec.store.jobFlag = s.sec.store.jobFlag := by
  rw [dbAppendEntry_sec]; split <;> rfl
@[simp] theorem dbAppend_store_jobFlag (s : State) (k r q : Byte) (st : Status) (o : Byte) (g : W64) (d : Dig512) :
    (s.dbAppend k r q st o g d).sec.store.jobFlag = s.sec.store.jobFlag := dbAppendEntry_store_jobFlag ..
@[simp] theorem takeToken_store (s : State) (r : Byte) (c : Cmd) : (s.takeToken r c).sec.store = s.sec.store := by
  unfold State.takeToken; simp; (repeat' split) <;> rfl

theorem out_ite {x : Emission} {c : Prop} [Decidable c] {a b : State} (ha : x ∈ a.out) (hb : x ∈ b.out) :
    x ∈ (if c then a else b).out := by
  split <;> assumption

/-- What has left stays out through a completion and a day-book entry. -/
theorem complete_keeps_out (s : State) (p : PendCmd) (st : Status) (res : W64) (x : Emission) (h : x ∈ s.out) :
    x ∈ (s.complete p st res).out := by
  have hr : ∀ (s : State) r g st tg o res, x ∈ s.out → x ∈ (s.ringComplete r g st tg o res).out := by
    intro s r g st tg o res h
    unfold State.ringComplete
    dsimp only
    have hu (f) : x ∈ (if (s.host.rings[r.val]).gen = g then s.modRing r f else s).out := out_ite h h
    exact out_ite (out_ite (List.mem_cons_of_mem _ (List.mem_cons_of_mem _ (hu _))) (List.mem_cons_of_mem _ (hu _))) (hu _)
  unfold State.complete
  have hu (b : Bool) (f) : x ∈ (if b then s.modJob f else s).out := out_ite h h
  cases p.src with
  | ring r => exact hr _ _ _ _ _ _ _ (hu _ _)
  | mgmt q => exact List.mem_cons_of_mem _ (hu _ _)
  | smbus => exact List.mem_cons_of_mem _ (hu _ _)

theorem dbAppend_keeps_out (s : State) (k r q : Byte) (st : Status) (o : Byte) (g : W64) (d : Dig512) (x : Emission)
    (h : x ∈ s.out) : x ∈ (s.dbAppend k r q st o g d).out := by
  unfold State.dbAppend State.dbAppendEntry
  exact out_ite (List.mem_cons_of_mem _ h) h

/-- A token command by what its body answers. -/
theorem command_runs {s f : State} {opc : Byte} {roles : List Byte} {c : Cmd} {body : PendCmd → Byte → State → CmdOut}
    {role : Byte} {o : CmdOut} (h : Taken s opc roles c role) (e : f = s.command opc roles c body)
    (ho : body (s.pendOf opc c) role ((s.reserve c.src).takeToken role c) = o) (hend : o.ended = true) :
    f = (match o.st with
      | some st => (o.after (o.s.dbAppend dbCommand role (srcCode c.src) st opc o.target (cmdDigest c opc))).complete
          (s.pendOf opc c) st o.res
      | none => o.after (o.s.dbAppend dbCommand role (srcCode c.src) .ok opc o.target (cmdDigest c opc))) := by
  rw [e, command_taken s opc roles c body role h, ho]
  dsimp only
  rw [if_pos hend]
  cases o.st <;> rfl

/-- A token command that completes at once: its completion has left, and beside the job, the security block and the
completion path the block is as the command's body left it. -/
theorem command_done {s f : State} {opc : Byte} {roles : List Byte} {c : Cmd} {body : PendCmd → Byte → State → CmdOut}
    {role : Byte} {o : CmdOut} {st : Status} (h : Taken s opc roles c role) (hp : pathOpen s c.src = true)
    (e : f = s.command opc roles c body)
    (ho : body (s.pendOf opc c) role ((s.reserve c.src).takeToken role c) = o) (hst : o.st = some st) (hend : o.ended = true)
    (ha : o.after = id) (hh : o.s.host.rings = (s.reserve c.src).host.rings) :
    Completed f c opc st o.res ∧ SameUnits o.s f ∧
    f.job =
      (if 1 ≤ opc.toNat ∧ opc.toNat ≤ 14 then { o.s.job with lastStatus := st.code } else o.s.job) ∧
    f.sec =
      (o.s.dbAppend dbCommand role (srcCode c.src) st opc o.target (cmdDigest c opc)).sec := by
  rw [e, command_taken s opc roles c body role h, ho]
  simp only [ha, hst, hend, if_true, id, Option.getD_some]
  refine ⟨complete_completed s _ opc c st o.res hp (by simpa using hh), (dbAppend_units ..).trans (complete_units ..), ?_, ?_⟩
  · rw [complete_job_eq]; simp [State.pendOf]
  · simp

/-- A token command whose evaluation ends with the job's next state: no entry stands yet. -/
theorem command_busy {s f : State} {opc : Byte} {roles : List Byte} {c : Cmd} {body : PendCmd → Byte → State → CmdOut}
    {role : Byte} {u : State} (h : Taken s opc roles c role) (e : f = s.command opc roles c body)
    (ho : body (s.pendOf opc c) role ((s.reserve c.src).takeToken role c) = cmdBusy u) : f = u := by
  rw [e, command_taken s opc roles c body role h, ho]
  rfl

/-- A token command that completes later, or whose effect follows the day-book entry. -/
theorem command_later {s f : State} {opc : Byte} {roles : List Byte} {c : Cmd} {body : PendCmd → Byte → State → CmdOut}
    {role : Byte} {u : State} (h : Taken s opc roles c role) (e : f = s.command opc roles c body)
    (ho : body (s.pendOf opc c) role ((s.reserve c.src).takeToken role c) = cmdLater u) :
    f = u.dbAppend dbCommand role (srcCode c.src) .ok opc 0 (cmdDigest c opc) := by
  rw [e, command_taken s opc roles c body role h, ho]
  rfl

/-- A free command: its completion has left, and beside the security block and the completion path the block is as the
command's body left it. -/
theorem free_done {s f : State} {opc : Byte} {c : Cmd} {body : State → Status × W64 × State} {st : Status} {res : W64}
    {u : State} (hb : s.noBursar = false) (hp : pathOpen s c.src = true) (e : f = s.freeCommand opc c body)
    (ho : body (s.reserve c.src) = (st, res, u))
    (hh : u.host.rings = (s.reserve c.src).host.rings) :
    Completed f c opc st res ∧ SameUnits u f ∧
    f.job =
      (if 1 ≤ opc.toNat ∧ opc.toNat ≤ 14 then { u.job with lastStatus := st.code } else u.job) := by
  subst e
  unfold State.freeCommand
  rw [if_neg (by rw [hb]; exact Bool.false_ne_true), ho]
  dsimp only
  split
  · refine ⟨complete_completed s _ opc c st res hp hh, complete_units .., ?_⟩
    rw [complete_job_eq]; rfl
  · refine ⟨complete_completed s _ opc c st res hp (by simpa using hh), (dbAppend_units ..).trans (complete_units ..), ?_⟩
    rw [complete_job_eq, State.dbAppend_job]; rfl

end Sys2Proof.Machine
end

