-- ==== Sys2Proof/WellFormed.lean ====
section
/-! DEFINITION. Which operands a command can have: the lengths and ranges that the spec fixes for what reaches the
module from outside. A meaning is total; these checks say which terms stand for a command of the hardware. -/

namespace Sys2Proof

/-- A command entry's token has the length that the entry gives (R349). -/
def Cmd.wf (c : Cmd) : Bool := c.token.length == c.tokenLen.toNat

/-- A peer index lies in the peer list's range (R316). -/
def peerWf (i : Nat) : Bool := decide (i < 4096)

/-- A whole block with its data (R189). -/
def blockWf (d : List Byte) : Bool := d.length == 4096

/-- The faults that a read meets name codewords of the access (R266), the lines with an uncorrectable word lines of it
(R265). -/
def ReadMet.wf (m : ReadMet) (addr len : Nat) : Bool :=
  (m.faults.all fun f => decide (addr / 64 ≤ f.1) && decide (f.1 < (addr + len + 63) / 64)) &&
  m.cacheUe.all fun l => decide (l ≤ (addr % 128 + len) / 128)

/-- A read of at least one byte (R266). -/
def MemRead.wf (q : MemRead) : Bool := decide (0 < q.len) && q.met.wf q.addr q.len

/-- A write of whole codewords; one with a sideband is a whole, aligned block (R270, R272). -/
def MemWrite.wholeWf (q : MemWrite) : Bool :=
  decide (0 < q.data.length) && q.addr % 64 == 0 && q.data.length % 64 == 0 &&
  (match q.side with
  | some _ => q.addr % 4096 == 0 && blockWf q.data
  | none => true)

/-- A write of a part of one codeword (R272). -/
def MemWrite.narrowWf (q : MemWrite) : Bool :=
  decide (0 < q.data.length) && decide (q.data.length < 64) && decide (q.addr % 64 + q.data.length ≤ 64) && q.side.isNone

def TillPath.wf (p : TillPath) : Bool :=
  match p with
  | .onModule _ _ => true
  | .envis i _ => peerWf i
  | .host _ => true

def TillBlk.wf (b : TillBlk) : Bool := b.path.wf && blockWf b.data

def ObjBlk.wf (b : ObjBlk) : Bool := peerWf b.peer && blockWf b.data

/-- A clearing band: a block, or none for a band of zeros (R329). -/
def ClearBlk.wf (b : ClearBlk) : Bool := peerWf b.peer && (blockWf b.data || (b.zero && b.data.isEmpty))

def ReqFrame.wf (q : ReqFrame) : Bool := peerWf q.peer

def GivenUp.wf (w : GivenUp) : Bool :=
  match w with
  | .peerFetch _ q _ => q.wf
  | _ => true

/-- A frame carries 256 payload bytes (R309). -/
def Frame.wf (f : Frame) : Bool := f.payload.length == 256

/-- An attempt of R97 and a word of the tile's accumulator rows: at most 4,096 rows (R97), twice as many in FP64, of 64
words (R260). -/
def TileFault.wf (f : TileFault) : Bool := decide (f.attempt < 3) && decide (f.row < 8192) && decide (f.col < 64)

def FaultEv.wf (v : FaultEv) : Bool := peerWf v.peer

/-- The commands that ask a channel to stop: channels 0 to 5 through their issuer, 6 and 7 also by a write (R302). -/
def StopOf.wf (w : StopOf) : Bool :=
  match w with
  | .issuer _ _ => true
  | .write c => c.wf

/-- A peer lies in the peer list's range (R316). -/
def CtrlOf.wf (w : CtrlOf) : Bool :=
  match w with
  | .till _ _ _ by_ => by_.path.wf
  | .slip i _ => peerWf i
  | .band i _ => peerWf i
  | .mirror i _ => peerWf i

/-- Mismatches at instructions of the run, each once (R184). -/
def RunEnv.wf (v : RunEnv) : Bool := (v.mism.map Prod.fst).eraseDups.length == v.mism.length

def runsWf (l : RunEnvs) : Bool := l.all fun x => x.2.wf

/-- The mean of a tick is at most its greatest value (R472, R474). -/
def Readings.wf (r : Readings) : Bool := decide (r.power ≤ r.peak)

/-- A rate of R340; a link without FLIT mode trains at up to 32.0 GT/s (R342). -/
def rateWf (rate : BitVec 4) (flit : Bool) : Bool := decide (1 ≤ rate.toNat) && decide (rate.toNat ≤ if flit then 6 else 5)

/-- One far-end module for every port, a width code of R360 for every lane module and side in each of three rounds (R494). -/
def StartEnv.wf (v : StartEnv) : Bool :=
  v.farModule.length == 48 && v.widthWest.length == 48 && v.widthEast.length == 48 &&
  v.widthWest.all (fun w => decide (w.toNat ≤ 4)) && v.widthEast.all (fun w => decide (w.toNat ≤ 4)) && v.rx.wf &&
  (match v.pcie with
  | some (r, _, f) => rateWf r f
  | none => true)

/-- A checkpoint slot's commit record and counterfoil, and blocks with their records (R417). -/
def CkptImage.wf (x : CkptImage) : Bool := x.blocks.all fun b => blockWf b.1 && b.2.length == 64

def MctpBody.wf (b : MctpBody) : Bool :=
  match b with
  | .command _ c _ img => c.wf && img.wf && (match c.src with | .ring _ => false | _ => true)
  | _ => true

/-- An access of the aperture lies in one segment of 4 GiB (R344). -/
def apertureWf (off : BitVec 36) (len : Nat) : Bool := decide (0 < len) && decide (off.toNat % 2 ^ 32 + len ≤ 2 ^ 32)

/-- A command entry that came by the ring it is taken from (R353). -/
def ringCmdWf (r : RingId) (c : Cmd) : Bool := c.wf && c.src == .ring r

/-- A Zhosan object with a request code and at least so many bytes (R358, R464). A discovery request, which has no row of its own, comes
with GET_REPORT (log entry 190). -/
def DoeObj.holds (o : DoeObj) (code : Byte) (n : Nat) : Bool :=
  o.vendor == 0x1F3A && o.ty == 0x01 && o.body.head? == some code && decide (n ≤ o.body.length)

def ArbEntry.wf (w : ArbEntry) : Bool :=
  match w with
  | .ring r _ c _ img => ringCmdWf r c && img.wf
  | .path => true

/-- The operands of a command of the hardware. -/
def Instr.wf (i : Instr) : Bool :=
  match i with
  | .charterBegin c => c.wf
  | .charterChunk c _ => c.wf
  | .charterEnd c => c.wf
  | .verificationDone => true
  | .charterDiscard c => c.wf
  | .activate c => c.wf
  | .activationDone => true
  | .run c => c.wf
  | .pause c => c.wf
  | .planeSwitch c => c.wf
  | .checkpointTake c => c.wf
  | .restore c img => c.wf && img.wf
  | .restoreDone => true
  | .resume c => c.wf
  | .release c => c.wf
  | .releaseDone => true
  | .abort c => c.wf
  | .jobStatus c => c.wf
  | .dmaChain c _ => c.wf
  | .assayLoad c => c.wf
  | .regWrite c => c.wf
  | .keyEnrol c => c.wf
  | .fuseMapLoad c => c.wf
  | .fwWrite c => c.wf
  | .decommission c => c.wf
  | .svnCommit c => c.wf
  | .certInstall c => c.wf
  | .report c => c.wf
  | .regRead c => c.wf
  | .regDirectWrite _ off _ => off.toNat % 8 == 0
  | .secIdentityWrite c => c.wf
  | .mgmtCfgWrite c => c.wf
  | .smbusStop => true
  | .dmaStart c => c.wf
  | .dmaStop w => w.wf
  | .dmaResume c => c.wf
  | .burstStart _ _ _ _ _ _ _ => true
  | .slipComplete _ _ _ _ => true
  | .channelHalt _ _ x _ => x != .ok
  | .nop _ => true
  | .set _ => true
  | .add _ => true
  | .prefetch _ => true
  | .recv _ _ => true
  | .send _ _ _ _ => true
  | .fwd _ _ env => runsWf env
  | .bwd _ _ env => runsWf env
  | .recomp _ _ env => runsWf env
  | .clear _ => true
  | .update _ => true
  | .publish _ => true
  | .stepEnd _ => true
  | .versionPromoteStrict _ _ env => runsWf env
  | .shadowSwap _ _ _ => true
  | .arrayIdle _ _ => true
  | .tileClose _ fs _ _ _ _ => fs.all TileFault.wf
  | .quarantine _ _ => true
  | .strikeDecay _ _ => true
  | .vaultAccumulate _ _ _ damage _ => damage.all blockWf
  | .tileTake _ _ env => runsWf env
  | .vecNop _ => true
  | .vecAdd _ => true
  | .sub _ => true
  | .mul _ => true
  | .fma _ => true
  | .min _ => true
  | .max _ => true
  | .abs _ => true
  | .neg _ => true
  | .cmplt _ => true
  | .cmple _ => true
  | .cmpeq _ => true
  | .sel _ => true
  | .exp2 _ => true
  | .log2 _ => true
  | .rcp _ => true
  | .rsqrt _ => true
  | .sqrt _ => true
  | .tanh _ => true
  | .erf _ => true
  | .ld _ => true
  | .st _ => true
  | .gath _ => true
  | .hadd _ => true
  | .rsum _ => true
  | .rmax _ => true
  | .rssq _ => true
  | .stepBoundary r => r.wf
  | .assayWindowEnd _ => true
  | .idleAssay _ _ => true
  | .updatePhase1 _ _ => true
  | .updatePhase2 _ _ _ _ _ => true
  | .normPartial p _ _ _ _ => peerWf p
  | .normVerdict p _ => peerWf p
  | .loss p _ _ => peerWf p
  | .live p _ _ _ => peerWf p
  | .linkUnit _ _ f _ _ _ => f.wf
  | .retryTimeout _ => true
  | .portDown _ => true
  | .portTrainingDone _ _ _ rx => rx.wf
  | .tillData _ _ b => b.wf
  | .tillMessageComplete _ _ _ => true
  | .objData b => b.wf
  | .credit _ _ by_ _ _ => by_.path.wf
  | .msgCtrlAck w => w.wf
  | .msgCtrlResend w _ => w.wf
  | .overdraftTimeout _ => true
  | .requestFetch q => q.wf
  | .requestRead q => q.wf
  | .requestRefuse q => q.wf
  | .fetchRetry _ _ _ => true
  | .requestCommit q => q.wf
  | .commitAck q => q.wf
  | .clearData b => b.wf
  | .clearWindowClose _ _ => true
  | .clearingComplete _ _ => true
  | .reportReq p _ => peerWf p
  | .admitReport p _ _ => peerWf p
  | .peerAdmit => true
  | .kemCt p _ => peerWf p
  | .keyConfirm p _ => peerWf p
  | .rekey p => peerWf p
  | .keepalive p => peerWf p
  | .leave p => peerWf p
  | .peerLostTimeout p => peerWf p
  | .faultEvent v => v.wf
  | .replayMark _ x _ => x != .ok
  | .replayRestart _ => true
  | .replayExhausted => true
  | .auditCompare _ _ _ => true
  | .auditVote _ _ => true
  | .checkpointCommit => true
  | .commitRecordRead l => l.length == 3 && l.all CkptImage.wf
  | .memReadRequest _ q => q.wf
  | .memWriteRequest _ q => q.wholeWf
  | .narrowWrite _ q _ => q.narrowWf
  | .mergeRetire _ _ => true
  | .scrubRead _ _ _ => true
  | .dieMark _ _ => true
  | .vaultOutOfService _ _ => true
  | .parityError _ _ buf => decide (1 ≤ buf.length) && decide (buf.length ≤ 32)
  | .parityGiveUp _ who => who.wf
  | .errorFrameSend => true
  | .mailboxOverflowFrame => true
  | .submissionDoorbell off _ => off.toNat % 4096 == 0
  | .completionDoorbell off _ => off.toNat % 4096 == 0x800
  | .ringEnable c => c.wf && c.arg1.getLsbD 63
  | .ringDisable c => c.wf && !c.arg1.getLsbD 63
  | .commandArbitrate w => w.wf
  | .hostTillInEntry _ _ _ _ _ _ _ => true
  | .hostTillOutEntry _ _ _ => true
  | .apertureMapWrite c => c.wf
  | .apertureRead off len _ => apertureWf off len
  | .apertureWrite off data => apertureWf off data.length
  | .hostLinkReset => true
  | .getReport o => o.holds 0x01 33 || (o.vendor == 0x0001 && o.ty == 0x00 && !o.body.isEmpty)
  | .getCerts o => o.holds 0x02 1
  | .ideKem o => o.holds 0x03 1601
  | .mctpMessage m => m.body.wf
  | .pldmBase _ => true
  | .pldmPlatform _ _ => true
  | .flitDiscard _ _ _ => true
  | .widthAgreement _ w e _ => decide (w.toNat ≤ 4) && decide (e.toNat ≤ 4)
  | .laneLock _ _ => true
  | .powerApplied v => v.wf
  | .inputLow => true
  | .inputHigh => true
  | .inputLoss => true
  | .overVoltage => true
  | .fastCapTrip => true
  | .budgetTick r => r.wf
  | .excursion => true
  | .thermalTrip => true
  | .refClockLost _ => true
  | .refClockPresent _ v => v.wf
  | .curveCommit c => c.wf
  | .resetNAssert _ => true
  | .perstNAssert => true
  | .perstNDeassert v => v.wf
  | .moduleReset v => v.wf
  | .halfReset _ v => v.wf
  | .engineReset c => c.wf
  | .bursarReset c => c.wf
  | .watchdogExpiry => true
  | .recoveryAnnounce => true
  | .chunk _ len _ data => data.length == len.toNat
  | .done _ v => v.wf
  | .resetNDeassert v => v.wf
  | .inputNormal => true
  | .pcieLinkUp rate _ flit => rateWf rate flit
  | .mgmtLinkChange _ _ _ => true
  | .bursarUp _ v => v.wf
  | .thermalCooldown v => v.wf

end Sys2Proof
end

