-- ==== Sys2Proof/Certificates/Slice0/Obligations.lean ====
section
/-! DEFINITION. The statements for the provers. -/

open Sys2Proof Sys2Proof.Machine

/-! ### Job commands -/

/-- R35, R37, R59, R350, R351: in the states where they have an effect, with valid operands and a token of the operator,
CHARTER_BEGIN opens the staging of a charter of the declared length, CHARTER_CHUNK puts its bytes at their offset in every
copy of the image, CHARTER_END hands the image to verification, which is then under way for that command, and
CHARTER_DISCARD empties the job. -/
def Obligations.StagingCommandsTakeEffect : Prop :=
  ∀ (c : Cmd) (s : State), pathOpen s c.src = true →
    (Taken s 0x01 [2] c 2 → s.job.state = .empty → argsOk c 0xFFFF_FFFF 0 0 = true → 8512 ≤ fld c.arg0 31 0 →
      fld c.arg0 31 0 ≤ 268435456 → s.charterCopies ≠ [] →
      ∃ t, exec (.charterBegin c) s = .next t ∧ t.job.state = .staging ∧ t.job.declared = fld c.arg0 31 0 ∧
        Completed t c 0x01 .ok 0) ∧
    (Taken s 0x02 [2] c 2 → s.job.state = .staging → s.job.charter = none →
      argsOk c 0xFFFF_FFFF 0xFFFF_FFFF (BitVec.allOnes 64) = true → chunkOk c s.job.declared = true →
      s.job.declared ≤ 268435456 → s.chunkWaits = false → s.chunkHalt c none = none → s.Sound →
      ∃ t, exec (.charterChunk c none) s = .next t ∧ t.job.state = .staging ∧ t.job.declared = s.job.declared ∧
        t.vaults = s.vaults ∧ Completed t c 0x02 .ok 0 ∧
        ∀ f ∈ s.charterCopies, ∀ i : Nat, i < fld c.arg1 31 0 →
          (∀ m ∈ (s.ctl (.far f)).merge, m.cw ≠ (charterBase + fld c.arg0 31 0 + i) / 64) →
          (t.ctl (.far f)).byte (charterBase + fld c.arg0 31 0 + i) = c.payload.getD i 0) ∧
    (Taken s 0x03 [2] c 2 → s.job.state = .staging → argsOk c 0 0 0 = true →
      ∃ t, exec (.charterEnd c) s = .next t ∧ t.job = { s.job with state := .verifying, busy := some (s.pendOf 0x03 c) } ∧
        t.eng = s.eng ∧ t.vaults = s.vaults ∧ t.fars = s.fars) ∧
    (Taken s 0x04 [2] c 2 → s.job.state = .staging ∨ s.job.state = .verified → argsOk c 0 0 0 = true →
      ∃ t, exec (.charterDiscard c) s = .next t ∧ t.job.state = .empty ∧ t.job.charter = none ∧ t.job.locked = false ∧
        t.sec.jobKey = none ∧ t.sec.memKey = none ∧ t.sec.mrJob = 0 ∧ Completed t c 0x04 .ok 0)


/-- R36, R37: the end of a verification decides the job: an image that cannot be read empties it; a failed check empties it
and shows in the charter error record; no failed check leaves it VERIFIED with the charter's digest and identifier, and no
error. The model's choices that it rests on: log entries 115, 130. -/
def Obligations.VerificationDecides : Prop :=
  ∀ s : State, s.job.state = .verifying →
    ∃ t, exec .verificationDone s = .next t ∧ t.job.busy = none ∧
      match s.charterImage s.job.declared with
      | (.error _, _) => t.job.state = .empty ∧ t.job.charter = none ∧ t.job.err = s.job.err
      | (.ok img, u) => match u.verify img s.job.declared with
        | some e => t.job.state = .empty ∧ t.job.charter = none ∧ t.job.err = e ∧ t.job.digest = 0 ∧ t.sec.jobKey = none
        | none => t.job.state = .verified ∧ t.job.charter = some (parseCharter img) ∧ t.job.err = CharterErr.none ∧
            t.job.digest = (parseCharter img).digest ∧ t.job.jobId = (parseCharter img).jobId ∧ t.job.locked = s.job.locked

/-- R37 steps 9 to 13, R38, R280, R490: ACTIVATE in VERIFIED repeats check 13 and either completes with BAD_CHARTER, or
with UNCORRECTABLE where no copy of the image reads sound, the job left VERIFIED, or leaves the job ACTIVATING for that
command, the mark of an activated job set in the security store. An activation that ends with every unit of the charter
still in service leaves the job ACTIVE, locked, on plane 0, at the step before the charter's first, with the loss scale,
the live map and the tables of the charter; one that does not leaves it VERIFIED. The model's choices that it rests on:
log entries 65, 116, 117. -/
def Obligations.ActivationSetsUpTheJob : Prop :=
  (∀ (c : Cmd) (s : State), pathOpen s c.src = true → Taken s 0x05 [2] c 2 → s.job.state = .verified →
     argsOk c 0 0 0 = true →
     ∃ t, exec (.activate c) s = .next t ∧
       match ((s.taken 2 c).unitsLost).1 with
       | some (st, e) => t.job.state = .verified ∧ t.job.err = e ∧ t.job.charter = s.job.charter ∧ Completed t c 0x05 st 0
       | none => t.job.state = .activating ∧ t.job.busy = some (s.pendOf 0x05 c) ∧ t.sec.store.jobFlag = true ∧
           t.job.charter = s.job.charter) ∧
  (∀ (s : State) (c : Charter), s.job.state = .activating → s.job.charter = some c →
     ∃ t, exec .activationDone s = .next t ∧ t.job.busy = none ∧
       match s.unitsLost.1 with
       | some (_, e) => t.job.state = .verified ∧ t.job.err = e
       | none => t.job.state = .active ∧ t.job.locked = true ∧ t.job.plane = 0 ∧ t.job.step = c.startStep - 1 ∧
           t.job.switches = 0 ∧ t.upd.exp = c.shards.lsInit ∧ t.ckpt.live = c.replicaCount ∧ t.ckpt.liveStep = c.startStep ∧
           t.int.replay = none ∧ (c.sealed = true → t.sec.jobKey = c.jobKey) ∧
           t.env.peers.length = c.peers.entries.length ∧
           ∀ e : EngineId, (t.eng[e.val]).table0 = c.tableOf 0 e.val ∧ (t.eng[e.val]).table1 = c.tableOf 1 e.val)

/-- R53, R59, R61, R210, R396: RUN in ACTIVE with no live map due starts the step after the last retired one, for the
number of steps its operand gives, 0 for no limit, and completes at once. PAUSE while RUNNING waits for the boundary;
PLANE_SWITCH while RUNNING waits for it too, and in ACTIVE with every till empty switches at once; a job of one plane
does not switch. RESUME in HELD leaves the job ACTIVE at the same step and plane; with every lane module out of service
it leaves it HELD (R364). The model's choices that it rests on: log entry 184. -/
def Obligations.RunPauseSwitchResume : Prop :=
  ∀ (c : Cmd) (s : State), pathOpen s c.src = true →
    (Taken s 0x06 [2] c 2 → s.job.state = .active → argsOk c 0xFFFF_FFFF 0 0 = true → s.ckpt.liveNext = [] →
      s.job.stepOn = false → s.int.assayWindow = false →
      ∃ t, exec (.run c) s = .next t ∧ t.job.state = .running ∧ t.job.stepOn = true ∧ t.job.step = s.job.step ∧
        t.job.runLeft = (if fld c.arg0 31 0 = 0 then none else some (fld c.arg0 31 0)) ∧
        t.vaults = s.vaults ∧ t.fars = s.fars ∧ Completed t c 0x06 .ok 0) ∧
    (argsOk c 0 0 0 = true →
      (Taken s 0x07 [2] c 2 → s.job.state = .running → s.job.pendPause = none →
        ∃ t, exec (.pause c) s = .next t ∧ t.job = { s.job with pendPause := some (s.pendOf 0x07 c) } ∧ SameUnits s t) ∧
      (Taken s 0x08 [2] c 2 → s.job.state = .running → s.onePlane = false → s.job.pendSwitch = none →
        ∃ t, exec (.planeSwitch c) s = .next t ∧ t.job = { s.job with pendSwitch := some (s.pendOf 0x08 c) } ∧
          SameUnits s t) ∧
      (Taken s 0x08 [2] c 2 → s.job.state = .active → s.onePlane = false → s.job.pendSwitch = none → s.tillsEmpty = true →
        ∃ t, exec (.planeSwitch c) s = .next t ∧ t.job.state = .active ∧ t.job.plane = 1 - s.job.plane ∧
          t.job.switches = wrapAdd s.job.switches 1 ∧ t.vaults = s.vaults ∧ t.fars = s.fars ∧ Completed t c 0x08 .ok 0) ∧
      (Taken s 0x08 [2] c 2 → s.onePlane = true →
        ∃ t, exec (.planeSwitch c) s = .next t ∧ t.job.plane = s.job.plane ∧ t.job.pendSwitch = s.job.pendSwitch ∧
          SameUnits s t ∧ Completed t c 0x08 .stateConflict 0) ∧
      (Taken s 0x0B [2] c 2 → s.job.state = .held → s.spanOut = false →
        ∃ t, exec (.resume c) s = .next t ∧ t.job.state = .active ∧ t.job.step = s.job.step ∧ t.job.plane = s.job.plane ∧
          t.vaults = s.vaults ∧ t.fars = s.fars ∧ Completed t c 0x0B .ok 0) ∧
      (Taken s 0x0B [2] c 2 → s.job.state = .held → s.spanOut = true →
        ∃ t, exec (.resume c) s = .next t ∧ t.job.state = .held ∧ SameUnits s t ∧ Completed t c 0x0B .stateConflict 0))

/-- R412, R424: CHECKPOINT_TAKE in ACTIVE with no step named marks at once the cut at the last retired step, with the
plane that ran it and the plane now active; while RUNNING it waits for the boundary of the step it names, or for the
next; while a checkpoint drains it completes with STATE_CONFLICT. -/
def Obligations.CheckpointTakeMarks : Prop :=
  ∀ (c : Cmd) (s : State), pathOpen s c.src = true → Taken s 0x09 [2] c 2 →
    argsOk c 0xFFFF_FFFF_FFFF 0 0 = true →
    (s.job.state = .active → fld c.arg0 47 0 = 0 → s.markFree = true → s.job.pendCkpt = none →
      ∃ t, exec (.checkpointTake c) s = .next t ∧ Completed t c 0x09 .ok 0 ∧ t.job.state = .active ∧
        (s.job.charter.isSome = true → ∃ d, t.ckpt.drain = some d ∧ d.cut = s.job.step ∧ d.planeClosed = s.job.planeClosed ∧
          d.planeNext = s.job.plane ∧ t.ckpt.cut = s.job.step ∧ t.ckpt.slot = d.slot)) ∧
    (s.job.state = .running → fld c.arg0 47 0 = 0 ∨ s.job.step.toNat < fld c.arg0 47 0 → s.markFree = true →
      s.job.pendCkpt = none →
      ∃ t, exec (.checkpointTake c) s = .next t ∧
        t.job = { s.job with pendCkpt := some (s.pendOf 0x09 c, BitVec.ofNat 48 (fld c.arg0 47 0)) } ∧ SameUnits s t) ∧
    (s.job.state = .active ∨ s.job.state = .running → s.ckpt.drain.isSome = true →
      ∃ t, exec (.checkpointTake c) s = .next t ∧ Completed t c 0x09 .stateConflict 0 ∧ SameUnits s t)

/-- R60, R62: RELEASE from VERIFIED, ACTIVE or HELD, and ABORT from every state but EMPTY and RELEASING, leave the job
RELEASING for that command, no step under way and no command pending; the end of the release leaves it EMPTY, with no
charter, no key of the job and nothing locked. -/
def Obligations.ReleaseAndAbortEndTheJob : Prop :=
  (∀ (c : Cmd) (s : State), argsOk c 0 0 0 = true →
    (Taken s 0x0C [2] c 2 → s.job.state = .verified ∨ s.job.state = .active ∨ s.job.state = .held →
      ∃ t, exec (.release c) s = .next t ∧ t.job.state = .releasing ∧ t.job.busy = some (s.pendOf 0x0C c) ∧
        t.job.stepOn = false ∧ t.job.pendPause = none ∧ t.job.pendSwitch = none ∧ t.job.pendCkpt = none ∧
        t.ckpt.drain = none ∧ t.int.replay = none) ∧
    (∀ role : Byte, Taken s 0x0D [1, 2] c role → s.job.state ≠ .empty → s.job.state ≠ .releasing →
      ∃ t, exec (.abort c) s = .next t ∧ t.job.state = .releasing ∧ t.job.busy = some (s.pendOf 0x0D c) ∧
        t.job.stepOn = false ∧ t.job.pendPause = none ∧ t.job.pendSwitch = none ∧ t.job.pendCkpt = none ∧
        t.ckpt.drain = none ∧ t.int.replay = none)) ∧
  (∀ s : State, s.job.state = .releasing →
    ∃ t, exec .releaseDone s = .next t ∧ t.job.state = .empty ∧ t.job.charter = none ∧ t.job.locked = false ∧
      t.job.busy = none ∧ t.sec.jobKey = none ∧ t.sec.memKey = none ∧ t.sec.store.jobFlag = false ∧ t.env.peers = [])

/-- R426, R427, R428: RESTORE in ACTIVE or HELD, with a slot from 0 to 2 and no checkpoint draining, applies the checks
in their order to what the slot holds: the first that fails completes the command with its status, shown with the shard
in GLB_RESTORE, and the engines, the memories and the update stay as they are; when none fails and every owned shard
loads, the owner of every other shard being a peer, the job is RESTORING for that command with what the counterfoil
records; it is HELD where a block, a map or an owner fails while it loads. The model's choices that it rests on: log
entries 121, 122. -/
def Obligations.RestoreAppliesTheChecks : Prop :=
  ∀ (c : Cmd) (img : CkptImage) (s : State) (ch : Charter), pathOpen s c.src = true → Taken s 0x0A [2] c 2 →
    s.job.state = .active ∨ s.job.state = .held → argsOk c 3 0xFFFF_FFFF_FFFF (BitVec.allOnes 64) = true →
    s.job.charter = some ch → fld c.arg0 1 0 ≠ 3 → s.markFree = true →
    ∃ t, exec (.restore c img) s = .next t ∧
      match restoreCheck ch c.arg1 (s.slotImage (c.arg2 != 0) img) with
      | some (st, h) => Completed t c 0x0A st 0 ∧ t.job.state = s.job.state ∧ t.ckpt.rStatus = st.code ∧ t.ckpt.rShard = h ∧
          t.eng = s.eng ∧ t.vaults = s.vaults ∧ t.fars = s.fars ∧ t.upd = s.upd
      | none =>
          (RestoreLoads s c (ckptSized (s.slotImage (c.arg2 != 0) img)) →
            t.job.state = .restoring ∧ t.job.busy = some (s.pendOf 0x0A c) ∧
            ∃ r, t.ckpt.restore = some r ∧ { r with mirroring := [] } =
              restoreOf (Fin.ofNat 4 (fld c.arg0 1 0)) (ckptSized (s.slotImage (c.arg2 != 0) img))) ∧
          ((t.job.state = .restoring ∧ t.job.busy = some (s.pendOf 0x0A c)) ∨ (t.job.state = .held ∧ t.job.busy = none))

/-- R428 steps 5 and 6, R429: when every shard is loaded, fetched and mirrored, the job is ACTIVE at the step of the cut,
in the plane, with the loss scale, the counts and the live map that the counterfoil records. The model's choices that it
rests on: log entry 123. -/
def Obligations.RestoreEndsAtTheCut : Prop :=
  ∀ (s : State) (r : RestoreSt), s.job.state = .restoring → s.ckpt.restore = some r → s.restoreReady r = true →
    ∃ t, exec .restoreDone s = .next t ∧ t.job.state = .active ∧ t.job.step = r.cut ∧ t.job.plane = r.planeNext ∧
      t.job.busy = none ∧ t.upd.exp = r.exp ∧ t.upd.cleanRun = r.clean ∧ t.upd.skipRun = r.skip ∧
      t.upd.updates = r.updates ∧ t.upd.skips = r.skips ∧ t.ckpt.liveMap = r.live ∧ t.ckpt.restore = none ∧
      t.ckpt.rStatus = 0 ∧ t.ckpt.recordsRead = false ∧ t.job.planeClosed = r.planeClosed


/-- R349, R354, R462, R517: the commands that need no token: JOB_STATUS and REG_READ answer the word of the register in
RESULT, REPORT writes the report over the nonce of its operands to the host, and nothing outside the completion path and
the day book changes. The model's choices that it rests on: log entries 39, 64. -/
def Obligations.FreeCommandsAnswer : Prop :=
  ∀ (c : Cmd) (s : State), pathOpen s c.src = true → s.noBursar = false →
    (argsOk c 0 0 0 = true →
      ∃ t, exec (.jobStatus c) s = .next t ∧ Completed t c 0x0E .ok s.jobWord ∧ SameUnits s t ∧
        t.job = { s.job with lastStatus := 0 }) ∧
    (regOff c % 8 = 0 → s.regGone (regOff c) = false →
      ∃ t, exec (.regRead c) s = .next t ∧ Completed t c 0x2A .ok ((s.reserve c.src).regRead (regOff c)) ∧ SameUnits s t ∧ t.job = s.job) ∧
    (regOff c % 8 ≠ 0 ∨ s.regGone (regOff c) = true →
      ∃ t, exec (.regRead c) s = .next t ∧ Completed t c 0x2A .stateConflict 0 ∧ SameUnits s t ∧ t.job = s.job) ∧
    (∃ t, exec (.report c) s = .next t ∧ Completed t c 0x29 .ok 0 ∧ SameUnits s t ∧ t.job = s.job ∧
      Emission.hostWrite c.arg4 (s.report (c.arg3 ++ c.arg2 ++ c.arg1 ++ c.arg0)) ∈ t.out)

/-! ### Keys, images, identity -/

/-- R450, R451: KEY_ENROL takes the hash of its payload for the role it names, the operator's only while the job is EMPTY;
DECOMMISSION of an EMPTY module leaves no key and no module identifier and every engine's SRAM zero; after both the command
nonce has been drawn. -/
def Obligations.KeysAreEnrolledAndRemoved : Prop :=
  ∀ (c : Cmd) (s : State), pathOpen s c.src = true →
    (Taken s 0x23 [1] c 1 → PayloadOk c 2592 → fld c.arg0 39 32 = 1 →
      ∃ t, exec (.keyEnrol c) s = .next t ∧ Completed t c 0x23 .ok 0 ∧ SameUnits s t ∧ t.job = s.job ∧
        t.sec.keyI = some (Config.sha3_512 (payloadOf c)) ∧ t.sec.store.keyI = t.sec.keyI ∧ t.sec.keyO = s.sec.keyO ∧
        NonceDrawn s t) ∧
    (Taken s 0x23 [1] c 1 → PayloadOk c 2592 → fld c.arg0 39 32 = 2 →
      ∃ t, exec (.keyEnrol c) s = .next t ∧ SameUnits s t ∧ t.job = s.job ∧ t.sec.keyI = s.sec.keyI ∧
        (s.job.state = .empty → Completed t c 0x23 .ok 0 ∧ t.sec.keyO = some (Config.sha3_512 (payloadOf c)) ∧
          t.sec.store.keyO = t.sec.keyO ∧ NonceDrawn s t) ∧
        (s.job.state ≠ .empty → Completed t c 0x23 .stateConflict 0 ∧ t.sec.keyO = s.sec.keyO)) ∧
    (∀ role : Byte, Taken s 0x26 [0, 1] c role → s.job.state = .empty →
      ∃ t, exec (.decommission c) s = .next t ∧ Completed t c 0x26 .ok 0 ∧ t.job = s.job ∧ t.sec.keyI = none ∧
        t.sec.keyO = none ∧ t.sec.store.keyI = none ∧ t.sec.store.keyO = none ∧ t.sec.store.moduleId = 0 ∧ NonceDrawn s t ∧
        ∀ e : EngineId, (t.eng[e.val]).store = [] ∧ (t.eng[e.val]).acc = [] ∧ (t.eng[e.val]).vec.vr = [])

/-- R397, R398, R446, R460: an image or certificate whose payload stands takes its place when it passes its check, and
is refused with DENIED, the old one left, when it does not; SVN_COMMIT raises the floor to the running image's version
and never lowers it. The model's choices that it rests on: log entries 9, 189. -/
def Obligations.ImagesAreInstalled : Prop :=
  ∀ (c : Cmd) (s : State), pathOpen s c.src = true →
    (∀ role : Byte, Taken s 0x21 [0, 1] c role → PayloadOk c 1048576 →
      ∃ t, exec (.assayLoad c) s = .next t ∧ t.job = s.job ∧
        (s.assayOk (payloadOf c) = true → Completed t c 0x21 .ok 0 ∧ t.int.assay = some
          { image := payloadOf c, id := rdW 64 (payloadOf c) 8, units := rdW 8 (payloadOf c) 7
            budget := rdW 32 (payloadOf c) 0x14 } ∧
          ∀ e : EngineId, t.eng[e.val] = { s.eng[e.val] with
            int := { (s.eng[e.val]).int with assayPos := 0, assaySpent := 0 } }) ∧
        (s.assayOk (payloadOf c) = false → Completed t c 0x21 .denied 0 ∧ t.int = s.int ∧ t.eng = s.eng)) ∧
    (Taken s 0x24 [1] c 1 → PayloadOk c 1048576 →
      ∃ t, exec (.fuseMapLoad c) s = .next t ∧ t.job = s.job ∧ SameUnits s t ∧
        if Config.fuseMapSigned (payloadOf c) = true ∧
            (s.sec.store.fuseMap = [] ∨
              (Config.fuseMapVersion s.sec.store.fuseMap).toNat ≤ (Config.fuseMapVersion (payloadOf c)).toNat)
        then Completed t c 0x24 .ok 0 ∧ t.sec.store.fuseMap = payloadOf c
        else Completed t c 0x24 .denied 0 ∧ t.sec.store.fuseMap = s.sec.store.fuseMap) ∧
    (Taken s 0x25 [1] c 1 → PayloadOk c 16777216 →
      ∃ t, exec (.fwWrite c) s = .next t ∧ t.job = s.job ∧ SameUnits s t ∧
        if fwSignedOk (payloadOf c) = true ∧ s.sec.floor.toNat ≤ (Config.fwSecVersion (payloadOf c)).toNat
        then Completed t c 0x25 .ok 0 ∧ t.sec.flash = some (payloadOf c)
        else Completed t c 0x25 .denied 0 ∧ t.sec.flash = s.sec.flash) ∧
    (Taken s 0x28 [0] c 0 → PayloadOk c 8192 →
      ∃ t, exec (.certInstall c) s = .next t ∧ t.job = s.job ∧ SameUnits s t ∧ Completed t c 0x28 .ok 0 ∧
        t.sec.store.cert = payloadOf c) ∧
    (Taken s 0x27 [1] c 1 →
      ∃ t, exec (.svnCommit c) s = .next t ∧ t.job = s.job ∧ SameUnits s t ∧ Completed t c 0x27 .ok 0 ∧
        t.sec.floor.toNat = max s.sec.floor.toNat s.sec.fwSecVer.toNat)

/-- R453, R454, R457: a command whose token fails a check completes with DENIED, is counted and is entered in the day book
as the newest entry, and has no effect: the job but for GLB_JOB_STATE.LAST_STATUS, every register outside the security
block and every memory stay as they were; a CHARTER_CHUNK that must wait is not evaluated yet. A command whose token passes
moves its role's last accepted number to the token's, so that the same token fails from then on, whatever the command does.
The model's choices that it rests on: log entry 64. -/
def Obligations.TokensAreCheckedAndSpent : Prop :=
  (∀ (s : State) (i : Instr) (opc : Byte) (roles : List Byte) (c : Cmd), tokenCmd i = some (opc, roles, c) →
     pathOpen s c.src = true → s.noBursar = false → s.sec.tokenCheck opc c roles = none →
     (∀ cut, i = .charterChunk c cut → s.chunkWaits = false) →
     ∃ t e, exec i s = .next t ∧ Completed t c opc .denied 0 ∧ SameUnits s t ∧
       t.sec.deniedToken = satAdd s.sec.deniedToken 1 ∧ t.sec.db.head? = some e ∧ e.kind = dbCommand ∧ e.code = opc ∧
       e.status = Status.denied.code ∧ e.role = tokenRole c ∧ e.seqNo = s.sec.nextSeq ∧
       t.job = (if 1 ≤ opc.toNat ∧ opc.toNat ≤ 14 then { s.job with lastStatus := Status.denied.code } else s.job)) ∧
  (∀ (s : State) (opc : Byte) (roles : List Byte) (c : Cmd) (role : Byte), Taken s opc roles c role → role.toNat < 3 →
     (s.taken role c).sec.seqOf role = rdW 64 c.token 8 ∧
     (∀ r : Byte, r ≠ role → r.toNat < 3 → (s.taken role c).sec.seqOf r = s.sec.seqOf r) ∧
     ∀ (t : State) (opc' : Byte) (roles' : List Byte) (d : Cmd),
       (rdW 64 c.token 8).toNat ≤ (t.sec.seqOf role).toNat → d.token = c.token → t.sec.tokenCheck opc' d roles' = none)

/-! ### Registers -/

/-- R5, R6, R449: REG_WRITE by the installer of a plain RW register completes with OK and the register then reads as the
value in its defined fields, zero in its reserved ones; no engine, memory or job changes. The model's choices that it rests
on: log entry 37. -/
def Obligations.RegisterWritesReadBack : Prop :=
  ∀ (c : Cmd) (s : State) (off : Nat) (mask : W64), pathOpen s c.src = true → Taken s 0x22 [0, 1, 2] c 1 →
    (off, mask) ∈ plainRegs → regOff c = off →
    ∃ t, exec (.regWrite c) s = .next t ∧ Completed t c 0x22 .ok 0 ∧ t.regRead off = c.arg1 &&& mask ∧ t.job = s.job ∧
      t.eng = s.eng ∧ t.vaults = s.vaults ∧ t.fars = s.fars ∧ t.ports = s.ports

/-- R6, R7, R449, R457, R515, R516: a REG_WRITE completes with STATE_CONFLICT at an offset that is no multiple of 8, at a
register whose unit does not answer, and at a locked register while a job is locked; with DENIED where no role may write,
or another role may; it then changes nothing outside the security block. A register write that comes straight to the module
changes no register: it is counted and entered in the day book as refused where some role may write the register, and drops
where none may. The model's choices that it rests on: log entries 39, 40, 41. -/
def Obligations.RefusedWritesHaveNoEffect : Prop :=
  (∀ (c : Cmd) (s : State) (role : Byte), pathOpen s c.src = true → Taken s 0x22 [0, 1, 2] c role →
     (regOff c % 8 ≠ 0 ∨ s.regGone (regOff c) = true →
       ∃ t, exec (.regWrite c) s = .next t ∧ Completed t c 0x22 .stateConflict 0 ∧ SameUnits s t ∧ t.job = s.job) ∧
     (regOff c % 8 = 0 → s.regGone (regOff c) = false →
       (∀ r, wregAt (regOff c) = some r → wregRole r ≠ role) →
       ∃ t, exec (.regWrite c) s = .next t ∧ Completed t c 0x22 .denied 0 ∧ SameUnits s t ∧ t.job = s.job) ∧
     (∀ r, regOff c % 8 = 0 → s.regGone (regOff c) = false → wregAt (regOff c) = some r → wregRole r = role →
       wregLocks r = true → s.job.locked = true →
       ∃ t, exec (.regWrite c) s = .next t ∧ Completed t c 0x22 .stateConflict 0 ∧ SameUnits s t ∧ t.job = s.job)) ∧
  (∀ (src : DirectSrc) (off : BitVec 26) (v : W64) (s : State), s.off = false →
     ∃ t, exec (.regDirectWrite src off v) s = .next t ∧ SameUnits s t ∧ t.job = s.job ∧ t.host = s.host ∧
       (wregAt (off.toNat / 8 * 8) = none → t = s) ∧
       (wregAt (off.toNat / 8 * 8) ≠ none → t.sec.deniedDirect = satAdd s.sec.deniedDirect 1 ∧
         ∃ e, t.sec.db.head? = some e ∧ e.kind = dbRefused ∧ e.source = directCode src ∧ e.status = Status.denied.code ∧
           e.target = put off.toNat 0))

/-- R447, R512, R344: the REG_WRITEs that have a row of their own, with a token of the role that may write the register.
SEC_IDENTITY_WRITE puts MODULE_ID into the security store, and completes with STATE_CONFLICT while a job is locked;
MGMT_CFG_WRITE writes GLB_MGMT_CFG, but refuses the EtherType of the error frames; APERTURE_MAP_WRITE gives a segment a
value of its rules, and leaves it as it was for any other. The model's choices that it rests on: log entries 45, 46. -/
def Obligations.NamedRegisterWrites : Prop :=
  ∀ (c : Cmd) (s : State),
    (RegTaken s c 1 0x10_0018 →
      ∃ t, exec (.secIdentityWrite c) s = .next t ∧ SameUnits s t ∧ t.job = s.job ∧
        if s.job.locked = true then Completed t c 0x22 .stateConflict 0 ∧ t.sec.store.moduleId = s.sec.store.moduleId
        else Completed t c 0x22 .ok 0 ∧ t.sec.store.moduleId = c.arg1.setWidth 12) ∧
    (RegTaken s c 1 0x608 →
      ∃ t, exec (.mgmtCfgWrite c) s = .next t ∧ t.job = s.job ∧ t.int = s.int ∧ t.eng = s.eng ∧ t.vaults = s.vaults ∧
        t.fars = s.fars ∧
        if fld c.arg1 15 0 = fld s.int.errCfg 15 0
        then Completed t c 0x22 .stateConflict 0 ∧ t.glb = s.glb
        else Completed t c 0x22 .ok 0 ∧ t.glb = { s.glb with mgmtCfg := c.arg1 &&& 0x7F_FFFF }) ∧
    (∀ k : Fin 16, RegTaken s c 2 (0x60_0100 + 8 * k.val) →
      ∃ t, exec (.apertureMapWrite c) s = .next t ∧ Completed t c 0x22 .ok 0 ∧ SameUnits s t ∧ t.job = s.job ∧
        t.host.aptMap[k.val] = (if aptValueOk (aptMasked c.arg1) = true then aptMasked c.arg1 else s.host.aptMap[k.val]) ∧
        ∀ j : Fin 16, j ≠ k → t.host.aptMap[j.val] = s.host.aptMap[j.val])

/-! ### DMA channels -/

/-- R289, R298, R302, R349: the operator's START and DMA_CHAIN of an idle channel 6 or 7 take up the slip at DMA_HEAD,
in host memory, when it may run; RESUME takes up the slip at DMA_CUR of a stopped channel and the NEXT of a halted one;
no other engine and no memory changes. The model's choices that it rests on: log entries 44, 95. -/
def Obligations.ChainsStartAndResume : Prop :=
  (∀ (c : Cmd) (e : EngineId) (ch : ChanId) (x : Slip) (a : Nat) (s : State), 6 ≤ ch.val → RegTaken s c 2 (dmaReg e ch 8) →
    x = slipOfBytes c.payload →
    (fld c.arg1 2 0 = 1 → (s.chan e ch).state = .idle → placeOf e (s.chan e ch).head = .host a → SlipRuns s e false true x →
      ∃ t, exec (.dmaStart c) s = .next t ∧ Completed t c 0x22 .ok 0 ∧ (t.chan e ch).state = .running ∧
        (t.chan e ch).slip = some x ∧ (t.chan e ch).cur = (s.chan e ch).head ∧ (t.chan e ch).progress = 0 ∧
        OtherEngines s t e ∧ t.vaults = s.vaults ∧ t.fars = s.fars) ∧
    (fld c.arg1 2 0 = 4 → (s.chan e ch).state = .stopped → placeOf e (s.chan e ch).cur = .host a →
      SlipRuns s e (s.chan e ch).hostRing false x →
      ∃ t, exec (.dmaResume c) s = .next t ∧ Completed t c 0x22 .ok 0 ∧ (t.chan e ch).state = .running ∧
        (t.chan e ch).slip = some x ∧ (t.chan e ch).cur = (s.chan e ch).cur ∧ OtherEngines s t e ∧ t.vaults = s.vaults ∧
        t.fars = s.fars) ∧
    (∀ y, fld c.arg1 2 0 = 4 → (s.chan e ch).state = .halted → (s.chan e ch).slip = some y → placeOf e y.w3 = .host a →
      SlipRuns s e (s.chan e ch).hostRing false x →
      ∃ t, exec (.dmaResume c) s = .next t ∧ Completed t c 0x22 .ok 0 ∧ (t.chan e ch).state = .running ∧
        (t.chan e ch).slip = some x ∧ (t.chan e ch).cur = y.w3 ∧ OtherEngines s t e ∧ t.vaults = s.vaults ∧
        t.fars = s.fars)) ∧
  (∀ (c : Cmd) (x : Slip) (a : Nat) (s : State) (e : EngineId) (ch : ChanId), Taken s 0x20 [2] c 2 →
    e = Fin.ofNat 128 (fld c.arg0 6 0) → ch = (if bitAt c.arg0 8 then 7 else 6) → s.engOk e.val = true →
    (s.chan e ch).state = .idle → placeOf e c.arg1 = .host a →
    SlipRuns s e (match c.src with
      | .ring _ => true
      | _ => false) true x →
    ∃ t, exec (.dmaChain c x) s = .next t ∧ (t.chan e ch).state = .running ∧ (t.chan e ch).slip = some x ∧
      (t.chan e ch).head = c.arg1 ∧ (t.chan e ch).cur = c.arg1 ∧ (t.chan e ch).chain.isSome = true ∧ OtherEngines s t e ∧
      t.vaults = s.vaults ∧ t.fars = s.fars)

/-- R290, R291, R294: a burst of a slip without BLOCKS into a stage store, from a source that answers, reads sound and
does not meet the destination, moves its bytes as they stand and counts them, where the destination is not pinned: they
land at DST plus the bytes moved before. The model's choices that it rests on: log entry 18. -/
def Obligations.BurstsMoveTheirBytes : Prop :=
  ∀ (e : EngineId) (ch : ChanId) (data : List Byte) (met : ReadMet) (sram : SramRead) (lw pw : Nat) (s : State) (x : Slip)
      (f : EngineId) (b n : Nat),
    6 ≤ ch.val → (s.chan e ch).slip = some x → (s.chan e ch).busy = true → s.engOk e.val = true → x.blocks = false →
    (s.chan e ch).halting = none → (s.chan e ch).progress.toNat ≤ (s.chan e ch).sent → (s.chan e ch).part = [] → (s.chan e ch).asked = (s.chan e ch).sent →
    (s.chan e ch).sent < x.len → n = min (s.chan e ch).burst (x.len - (s.chan e ch).sent) → 1 ≤ n →
    placeOf e x.w2 = .store f b → s.engOk f.val = true → slipOverlaps e x = false →
    s.pinned f (b + (s.chan e ch).sent, n) = false → (s.eng[f.val]).partBad 0 (b + (s.chan e ch).sent) n = [] →
    ∀ bytes : List Byte, bytes.length = n →
      ((∃ a, placeOf e x.w1 = .host a ∧ s.host.ltssm = 1 ∧ bytes = pad data n) ∨
       (∃ g a, placeOf e x.w1 = .store g a ∧ s.engOk g.val = true ∧ sram.ue = [] ∧
         (s.eng[g.val]).badAt 0 [(a + (s.chan e ch).sent, n)] = [] ∧
         bytes = memRead (s.eng[g.val]).store (a + (s.chan e ch).sent) n) ∨
       (∃ c a, placeOf e x.w1 = .dram c a ∧ s.ctlOk c = true ∧ (s.ctl c).bad = [] ∧ met.faults = [] ∧
         bytes = s.readBytes c (a + (s.chan e ch).sent) n)) →
      ∃ t, exec (.burstStart e ch data met sram lw pw) s = .next t ∧
        (t.eng[f.val]).store = memWrite (s.eng[f.val]).store (b + (s.chan e ch).sent) bytes ∧
        (t.chan e ch).sent = (s.chan e ch).sent + n ∧ (t.chan e ch).progress = BitVec.ofNat 32 ((s.chan e ch).sent + n) ∧
        (t.chan e ch).state = (s.chan e ch).state ∧ (t.chan e ch).slip = some x ∧ t.vaults = s.vaults ∧ t.fars = s.fars

/-- R292, R295, R298: a stop of a running channel, by its issuer or, of channels 6 and 7, by the operator's write of
STOP, waits for its slip, or stops a channel between slips at once and is counted; it moves no data. A slip of channel 6
or 7 whose last byte is answered, its checksum word with them, and whose words are not pinned completes: it is counted,
the channel has no slip and stops where a stop waited, at the slip's NEXT; with no NEXT it is IDLE. A slip with NOTIFY
tells the host. The model's choices that it rests on: log entry 83. -/
def Obligations.StopsAndCompletions : Prop :=
  ∀ (e : EngineId) (ch : ChanId) (s : State), s.engOk e.val = true →
    (∀ w : StopOf, (w = .issuer e ch ∨ ∃ c, w = .write c ∧ 6 ≤ ch.val ∧ RegTaken s c 2 (dmaReg e ch 8) ∧ fld c.arg1 2 0 = 2) →
      (s.chan e ch).state = .running →
      ∃ t, exec (.dmaStop w) s = .next t ∧ (t.chan e ch).slip = (s.chan e ch).slip ∧
        (if (s.chan e ch).slip.isSome = true then (t.chan e ch).state = .stopping
         else (t.chan e ch).state = .stopped ∧ (t.chan e ch).stops = satAdd (s.chan e ch).stops 1) ∧
        OtherEngines s t e ∧ t.vaults = s.vaults ∧ t.fars = s.fars ∧ (t.eng[e.val]).store = (s.eng[e.val]).store ∧
        ∀ c, w = .write c → Completed t c 0x22 .ok 0) ∧
    (∀ (next x : Slip) (pw : Nat), 6 ≤ ch.val → (s.chan e ch).slip = some x → (s.chan e ch).busy = true →
      (s.chan e ch).halting = none → (s.chan e ch).progress.toNat = x.len →
      (s.chan e ch).state = .stopping ∨ fld x.w3 63 60 = 15 → s.placePinned (placeOf e (s.chan e ch).cur) 64 = false →
      x.csum = false ∨ ((s.chan e ch).csumSent = true ∧ s.owes e ch (placeOf e x.w4) = false) ∨
        (s.placeGone (placeOf e x.w4) = false ∧ s.placePinned (placeOf e x.w4) 8 = false ∧ s.placeBad (placeOf e x.w4) 8 = [] ∧
          ∀ c a, placeOf e x.w4 ≠ .dram c a) →
      ∃ t, exec (.slipComplete e ch next pw) s = .next t ∧ (t.chan e ch).slips = wrapAdd (s.chan e ch).slips 1 ∧
        (t.chan e ch).slip = none ∧ (t.chan e ch).cur = x.w3 ∧
        (t.chan e ch).state = (if (s.chan e ch).state = .stopping then .stopped else .idle) ∧
        (x.notify = true → Emission.notify e ch ∈ t.out))

/-- R300, R301: a failing access halts its channel, with the status and the failing offset in its registers, once the
writes that the channel has issued are answered and nothing pins the words that it writes; a chain of channel 6 or 7
keeps its slip, and one of the engine's own channels marks the step in flight for replay. The model's choices that it
rests on: log entry 97. -/
def Obligations.FailingAccessesHalt : Prop :=
  ∀ (e : EngineId) (ch : ChanId) (st : Status) (offset : Nat) (s : State), s.engOk e.val = true →
    (∀ x, 6 ≤ ch.val → (s.chan e ch).busy = true → (s.chan e ch).slip = some x → (s.chan e ch).halting = none →
      s.owes e ch (placeOf e x.w2) = false → s.owes e ch (placeOf e x.w4) = false → (s.chan e ch).openBlks = 0 →
      s.placePinned (placeOf e (s.chan e ch).cur) 64 = false →
      ∃ t, exec (.channelHalt e ch st offset) s = .next t ∧ (t.chan e ch).state = .halted ∧
        (t.chan e ch).haltStatus = st.code ∧ (t.chan e ch).lastStatus = st.code ∧
        (t.chan e ch).haltOffset = BitVec.ofNat 28 (max offset (s.chan e ch).progress.toNat) ∧
        (t.chan e ch).halts = satAdd (s.chan e ch).halts 1 ∧ (t.chan e ch).slip = some x ∧ t.int.replay = s.int.replay) ∧
    (∀ x, 6 ≤ ch.val → (s.chan e ch).busy = true → (s.chan e ch).slip = some x → (s.chan e ch).halting = none →
      s.owes e ch (placeOf e x.w2) = true ∨ s.owes e ch (placeOf e x.w4) = true ∨ (s.chan e ch).openBlks ≠ 0 ∨
        s.placePinned (placeOf e (s.chan e ch).cur) 64 = true →
      ∃ t, exec (.channelHalt e ch st offset) s = .next t ∧ t.chan e ch =
        { s.chan e ch with halting := some (st, max offset (s.chan e ch).progress.toNat) }) ∧
    (ch.val < 6 →
      ∃ t, exec (.channelHalt e ch st offset) s = .next t ∧ (t.chan e ch).state = .halted ∧
        (t.chan e ch).haltStatus = st.code ∧ (t.chan e ch).halts = satAdd (s.chan e ch).halts 1 ∧
        (s.job.state = .running → s.job.stepOn = true → s.int.holding = false → s.int.replay = none →
          t.int.replay = some
            { step := s.curStep, cause := st.code, island := islandId (islEngine e), marks := 1, stopped := true, fresh := true }) ∧
        (ch = 5 → s.ckpt.drain.isSome = true → t.ckpt.drain = none ∧ t.ckpt.failed = satAdd s.ckpt.failed 1))


/-! ### Rows -/

/-- R40, R41, R42: NOP, SET and ADD complete OK in the step that runs them: the named counter takes the value, or its sum
with the value modulo 2^16, every other counter keeps its own, the sequencer goes to the row that COND chooses, and nothing
but the sequencer changes. -/
def Obligations.CounterRowsComplete : Prop :=
  ∀ (e : EngineId) (r : SchedRow) (s : State),
    (s.rowAt e 0x00 = some r →
      ∃ t, exec (.nop e) s = .next t ∧ RowDone (s.eng[e.val]).seq r t e ∧ OnlySeq s t e) ∧
    (s.rowAt e 0x01 = some r →
      ∃ t q, exec (.set e) s = .next t ∧ RowDone q r t e ∧ OnlySeq s t e ∧ q.row = (s.eng[e.val]).seq.row ∧
        q.failed = (s.eng[e.val]).seq.failed ∧ q.counter r.argA.toNat = r.argB ∧
        ∀ i : Nat, i % 8 ≠ r.argA.toNat % 8 → q.counter i = (s.eng[e.val]).seq.counter i) ∧
    (s.rowAt e 0x02 = some r →
      ∃ t q, exec (.add e) s = .next t ∧ RowDone q r t e ∧ OnlySeq s t e ∧ q.row = (s.eng[e.val]).seq.row ∧
        q.failed = (s.eng[e.val]).seq.failed ∧
        q.counter r.argA.toNat = (s.eng[e.val]).seq.counter r.argA.toNat + r.argB ∧
        ∀ i : Nat, i % 8 ≠ r.argA.toNat % 8 → q.counter i = (s.eng[e.val]).seq.counter i)

/-- R43, R150, R210, R211, R213, R331: PREFETCH, with no earlier load waiting and every page of the layer's CURRENT
parameters and of their map readable, makes the layer resident, and completes OK too where the layer has no parameter
here; where its region is pinned the row completes and the load waits. CLEAR, with no gradient on its way to a home,
opens the window of every shard of its group; UPDATE enters the group's owned shards; PUBLISH marks the step's versions
of its group; STEP_END waits until all that the step issued has completed, and then retires the engine's step. The
model's choices that it rests on: log entries 24, 89. -/
def Obligations.ServiceRowsComplete : Prop :=
  ∀ (e : EngineId) (r : SchedRow) (s : State),
    (∀ d x p c, s.rowAt e 0x10 = some r → s.layer r.argA.toNat = some d → s.paramShard e d.paramId = some (x, p) →
      (s.eng[e.val]).current x.shard = some c → (s.eng[e.val]).led.loads = [] → (s.eng[e.val]).seq.pass = none →
      (s.pinned e (s.statRegion d p) = false →
        (∀ q ∈ c.2.mapPages, s.ctlOk (s.poolLoc e q).1 = true ∧ s.pageGood (s.poolLoc e q).1 (s.poolLoc e q).2 = true) →
        (s.eng[e.val]).ledger c.1 = c.2 →
        (∀ k ∈ s.layerSlips e d p c.1, s.ctlOk k.1 = true ∧ s.pageGood k.1 k.2.1 = true ∧
          hallmarkOk (s.readPage k.1 k.2.1).2 (s.readPage k.1 k.2.1).1 = true) →
        ∃ t, exec (.prefetch e) s = .next t ∧ RowDone (s.eng[e.val]).seq r t e ∧
          (t.eng[e.val]).resident r.argA.toNat c.1 = true ∧ (t.eng[e.val]).led.loads = [] ∧
          t = { s with eng := s.eng.set e.val t.eng[e.val], caches := t.caches, free := t.free }) ∧
      (s.pinned e (s.statRegion d p) = true →
        ∃ t, exec (.prefetch e) s = .next t ∧ RowDone (s.eng[e.val]).seq r t e ∧ OnlyEngine s t e ∧
          (t.eng[e.val]).led.loads = [(r.argA.toNat, c.1)] ∧ (t.eng[e.val]).store = (s.eng[e.val]).store ∧
          (t.eng[e.val]).led.residency = (s.eng[e.val]).led.residency)) ∧
    (∀ d, s.rowAt e 0x10 = some r → s.layer r.argA.toNat = some d → s.paramShard e d.paramId = none →
      ∃ t, exec (.prefetch e) s = .next t ∧ RowDone (s.eng[e.val]).seq r t e ∧ OnlySeq s t e) ∧
    (s.rowAt e 0x30 = some r → (s.eng[e.val]).arr.homeFlight = [] →
      (∀ x ∈ s.clearShards e r.argA.toNat, (s.env.clr[(clrUnit e).val]).record s.curStep x.shard = none) →
      ∃ t, exec (.clear e) s = .next t ∧ RowDone (s.eng[e.val]).seq r t e ∧
        t = { s with env := t.env, eng := t.eng } ∧
        (∀ g : EngineId, t.eng[g.val] = { s.eng[g.val] with
          seq := (t.eng[g.val]).seq, int := { (s.eng[g.val]).int with deeds := (t.eng[g.val]).int.deeds } } ∧
          (g ≠ e → (t.eng[g.val]).seq = (s.eng[g.val]).seq)) ∧
        ∀ x ∈ s.clearShards e r.argA.toNat,
          ∃ y, (t.env.clr[(clrUnit e).val]).record s.curStep x.shard = some y ∧ y.handed = true ∧ y.opened = true ∧
            y.closed = false) ∧
    (s.rowAt e 0x31 = some r →
      ∃ t, exec (.update e) s = .next t ∧ RowDone (s.eng[e.val]).seq r t e ∧ t.upd.ran = true ∧
        t = { s with upd := t.upd, eng := s.eng.set e.val (t.eng[e.val]) } ∧
        (t.eng[e.val]).led.upd = (s.eng[e.val]).led.upd ++ if s.ownedShards e r.argB.toNat = [] then [] else
          [{ recipe := r.argA.toNat, group := r.argB.toNat, plane := s.job.plane.val, phase1 := s.ownedShards e r.argB.toNat
             phase2 := s.ownedShards e r.argB.toNat, mirroring := [] }]) ∧
    (s.rowAt e 0x32 = some r →
      ∃ t, exec (.publish e) s = .next t ∧ RowDone (s.eng[e.val]).seq r t e ∧ OnlyEngine s t e ∧
        r.argA.toNat ∈ (t.eng[e.val]).led.pubGroups ∧
        ∀ i x, (i, x) ∈ (s.eng[e.val]).led.entries →
          (((s.shardsOf e).any fun y => y.group == r.argA.toNat && y.shard == x.shard) = true →
            x.state = .building ∨ x.state = .ready → x.created = s.curStep →
            (i, { x with published := true }) ∈ (t.eng[e.val]).led.entries) ∧
          (x.state ≠ .building → x.state ≠ .ready → (i, x) ∈ (t.eng[e.val]).led.entries)) ∧
    (s.rowAt e 0x3F = some r → (∀ tb, s.table e = some tb → tb.stashed = true ∨ (s.eng[e.val]).float = []) →
      (s.eng[e.val]).led.loads = [] →
      ∃ t, exec (.stepEnd e) s = .next t ∧ (t.eng[e.val]).seq.wait = 6 ∧ (t.eng[e.val]).seq.retired = s.stepDone e ∧
        OnlyEngine s t e)

/-- R196, R199, R202, R206, R212: RECV of the message it names claims it and, on an OPEN till, opens its float entry;
SEND, to another engine or to a peer, of a message not sent before takes one credit and the next sequence number and
records the hallmarks of its source, which reads sound; an overdraft ends the SEND with OVERDRAFT and raises its event.
RECV and SEND are stated with no load of a PREFETCH waiting. -/
def Obligations.TillRowsMoveMessages : Prop :=
  ∀ (e : EngineId) (r : SchedRow) (c : TillEnd) (n : Nat) (s : State), r.argA.toNat < 64 →
    s.tillCfg e.val r.argA.toNat = some c →
    (∀ m, s.rowAt e 0x11 = some r → (s.till e c.till).head = some m → m.mb = s.rowMb e r →
      (s.eng[e.val]).led.loads = [] →
      (c.opens = true → s.floatFull e = false ∧ m.origin = s.curStep) →
      (c.opens = false → ∃ f, (s.eng[e.val]).entry m.mb = some f ∧ f.origin = m.origin) →
      ∃ t, exec (.recv e n) s = .next t ∧ RowDone (s.eng[e.val]).seq r t e ∧ OnlyEngine s t e ∧
        (t.till e c.till).nextClaim = wrapAdd m.seqNo 1 ∧
        (∀ y ∈ (t.till e c.till).msgs, y.seqNo = m.seqNo → y.claimed = true) ∧
        (c.opens = true → (t.eng[e.val]).float = (s.eng[e.val]).float ++
          [{ mb := m.mb, origin := s.curStep, claims := [(c.till, m.seqNo)], vers := [], exiting := false }])) ∧
    (∀ f sram fails, s.rowAt e 0x12 = some r → (s.eng[e.val]).entry (s.rowMb e r) = some f → (s.till e c.till).state = 1 →
      (s.eng[e.val]).led.loads = [] → s.sourceBad e c sram = [] →
      s.tillPeerLost c = false → (s.till e c.till).credits ≠ 0 → s.tillPeerReady c = true →
      (s.till e c.till).outOf s.curStep f.origin f.mb = none → c.path ≠ .host →
      ∃ t, exec (.send e n sram fails) s = .next t ∧ RowDone (s.eng[e.val]).seq r t e ∧ t.vaults = s.vaults ∧ t.fars = s.fars ∧
        (∀ g : EngineId, g ≠ e → Told s.eng[g.val] t.eng[g.val]) ∧ (t.till e c.till).credits = (s.till e c.till).credits - 1 ∧
        (t.till e c.till).nextOut = wrapAdd (s.till e c.till).nextOut 1 ∧
        (t.till e c.till).outs = (s.till e c.till).outs ++
          [{ seqNo := (s.till e c.till).nextOut, origin := f.origin, mb := f.mb, step := s.curStep
             hallmarks := s.sourceMarks e c, acked := false, again := false, cut := false }]) ∧
    (s.rowAt e 0x12 = some r → c.odLimit ≠ 0 → (s.eng[e.val]).seq.wait = 2 →
      ∃ t, exec (.overdraftTimeout e) s = .next t ∧ (t.eng[e.val]).seq.failed = true ∧
        (t.eng[e.val]).seq.lastStatus = Status.overdraft.code ∧ (t.eng[e.val]).seq.row = (s.eng[e.val]).seq.row ∧
        (t.till e c.till).cOver = satAdd (s.till e c.till).cOver 1 ∧ t.vaults = s.vaults ∧ t.fars = s.fars ∧
        t.int.raised = s.int.raised ++ [{ cls := .rowFail, island := islEngine e, status := .overdraft
                                          record := rowRec e .overdraft, mb := s.rowMb e r, peer := 0 }])

/-- R170, R205, R208, R218: a FWD, RECOMP or BWD row starts: with its micro-batch in the float, no load of a PREFETCH
waiting, the first layer's parameters resident in the version noted for the micro-batch and no program to run first, the
pass stands at the first layer with exactly that layer's tiles due. -/
def Obligations.PassRowsStart : Prop :=
  ∀ (e : EngineId) (kind : PassKind) (n l : Nat) (env : RunEnvs) (r : SchedRow) (f : FloatEntry) (d : LayerDesc)
      (rest : List Nat) (s : State),
    s.rowAt e (passOp kind) = some r → (s.eng[e.val]).seq.pass = none → (s.eng[e.val]).seq.wait = 0 →
    (s.eng[e.val]).led.loads = [] → (s.eng[e.val]).entry (s.rowMb e r) = some f →
    s.stepsBack f.origin ≤ 31 → s.reloadsFor e f kind r.argA.toNat r.argC.toNat = [] → passLayers kind r = l :: rest →
    s.layer l = some d → d.arrKind ≠ 0 →
    (d.paramId = 0 ∨ s.paramShard e d.paramId = none ∨ ∃ x p v, s.paramShard e d.paramId = some (x, p) ∧
      (f.vers.find? fun v => v.1 == x.shard) = some v ∧ (s.eng[e.val]).resident l v.2 = true) →
    s.storesPinned e { kind := kind, mb := s.rowMb e r, origin := f.origin, layers := l :: rest, begun := false, due := []
                       take := [], reloads := [], top := r.argC.toNat } l d = false →
    (kind = .bwd → d.rowOp = 0 ∧ d.preLen = 0) →
    let due := (match kind with
      | .fwd => fwdTiles l d .fwd
      | .recomp => fwdTiles l d .recomp
      | .bwd => bwdTiles l d (s.seqMode e d))
    due ≠ [] →
    ∃ t p, exec (match kind with
        | .fwd => Instr.fwd e n env
        | .recomp => Instr.recomp e n env
        | .bwd => Instr.bwd e n env) s = .next t ∧
      (t.eng[e.val]).seq.pass = some p ∧ p.begun = true ∧ p.mb = s.rowMb e r ∧ p.layers = l :: rest ∧ p.due = due ∧
      (t.eng[e.val]).seq.row = (s.eng[e.val]).seq.row ∧ (kind = .bwd → (t.eng[e.val]).arr.bwdActive = true) ∧ OnlyEngine s t e

/-- R218, R255: the version that a waiting first use is due has become READY: it becomes CURRENT, is noted for the
micro-batch with one more reference, and the waiting FWD row starts its layer. -/
def Obligations.VersionBecomesCurrent : Prop :=
  ∀ (e : EngineId) (env : RunEnvs) (l : Nat) (rest : List Nat) (r : SchedRow) (f : FloatEntry) (d : LayerDesc) (p : Pass)
    (x : ShardEnt) (g : ParamRec) (c y : Nat × LedgerEntry) (s : State),
    s.rowAt e 0x20 = some r → (s.eng[e.val]).seq.pass = some p → p.kind = .fwd → p.begun = false → p.layers = l :: rest →
    (s.eng[e.val]).seq.wait = 4 → s.layer l = some d → d.paramId ≠ 0 → s.paramShard e d.paramId = some (x, g) →
    (s.eng[e.val]).entry p.mb = some f → (f.vers.find? fun v => v.1 == x.shard) = none → x.frozen = false →
    (s.eng[e.val]).current x.shard = some c → older c.2.version s.wantVersion = true →
    (((s.eng[e.val]).versions x.shard).find? fun y => y.2.state == .ready && y.2.version == s.wantVersion) = some y →
    (s.eng[e.val]).ledger y.1 = y.2 → (s.eng[e.val]).resident l y.1 = true → s.storesPinned e p l d = false →
    d.arrKind ≠ 0 → fwdTiles l d .fwd ≠ [] →
    ∃ t q f', exec (.versionPromoteStrict e x.shard env) s = .next t ∧ (t.eng[e.val]).seq.pass = some q ∧ q.begun = true ∧
      q.due = fwdTiles l d .fwd ∧ (t.eng[e.val]).seq.wait = 0 ∧ ((t.eng[e.val]).ledger y.1).state = .current ∧
      ((t.eng[e.val]).ledger y.1).refcount = y.2.refcount + 1 ∧ (t.eng[e.val]).entry p.mb = some f' ∧
      f'.vers = f.vers ++ [(x.shard, y.1)] ∧ OnlyEngine s t e

/-! ### Arrays -/

/-- R75, R76, R77, R86, R99: a swap exchanges the sets of an array with a tile in progress, so that rows meet the loaded
block from now on, and the load of the tile's next block starts; with no block loaded nothing is swapped and that load
starts; an array without a tile stays as it is. 64 cycles without a row make an array idle and end its ramp. Nothing
else changes but the counted wait. -/
def Obligations.ArraysSwapAndIdle : Prop :=
  ∀ (e : EngineId) (w : ArrId) (n : Nat) (s : State),
    (∃ t, exec (.shadowSwap e w n) s = .next t ∧ OnlyEngine s t e ∧
      ((t.eng[e.val]).arr.arr (otherArr w)) = ((s.eng[e.val]).arr.arr (otherArr w)) ∧
      (t.eng[e.val]).arr.shadowWait = satAdd (s.eng[e.val]).arr.shadowWait n ∧
      (t.eng[e.val]).store = (s.eng[e.val]).store ∧ (t.eng[e.val]).acc = (s.eng[e.val]).acc ∧
      (s.planOn e w = none → (t.eng[e.val]).arr.arr w = (s.eng[e.val]).arr.arr w) ∧
      ∀ k p y, s.planOn e w = some (k, p) → y = (s.eng[e.val]).arr.arr w → y.met.length < p.blocks k →
        (y.shadowValid = true →
          ((t.eng[e.val]).arr.arr w).active = y.shadow ∧ ((t.eng[e.val]).arr.arr w).met = y.met ++ [y.shadow] ∧
          (if y.met.length + 1 < p.blocks k
           then ((t.eng[e.val]).arr.arr w).shadowValid = true ∧
             ((t.eng[e.val]).arr.arr w).shadow = p.block s.fp32 s.fp64 k (y.met.length + 1)
           else ((t.eng[e.val]).arr.arr w).shadowValid = false ∧ ((t.eng[e.val]).arr.arr w).shadow = y.active)) ∧
        (y.shadowValid = false →
          ((t.eng[e.val]).arr.arr w).active = y.active ∧ ((t.eng[e.val]).arr.arr w).met = y.met ∧
          ((t.eng[e.val]).arr.arr w).shadowValid = true ∧
          ((t.eng[e.val]).arr.arr w).shadow = p.block s.fp32 s.fp64 k y.met.length)) ∧
    (∃ t, exec (.arrayIdle e w) s = .next t ∧ OnlyEngine s t e ∧
      ((t.eng[e.val]).arr.arr (otherArr w)) = ((s.eng[e.val]).arr.arr (otherArr w)) ∧
      (t.eng[e.val]).arr.arr w = { (s.eng[e.val]).arr.arr w with idle := true, ramping := false } ∧
      (t.eng[e.val]).store = (s.eng[e.val]).store ∧ (t.eng[e.val]).acc = (s.eng[e.val]).acc)

/-- R80, R81, R84, R98, R171: a tile in progress that the queue takes, whose slot is free, whose reads are sound and
whose first attempt passes its check closes with that attempt's results in the accumulator and the checksum store; it is
no longer due, and enters the tile queue, or waits while 32 tiles are queued. A queued tile of the running pass is
taken: its program runs, it leaves the queue, and the pass goes on with the tiles that are left. -/
def Obligations.TilesCloseAndAreTaken : Prop :=
  (∀ (e : EngineId) (fs : List TileFault) (x : SramRead) (rx : List SramRead) (n m : Nat) (s : State) (ps : Pass)
       (k : TileKey) (rest : List TileKey) (d : LayerDesc) (w : ArrId) (a : Attempt),
     (s.eng[e.val]).seq.pass = some ps → ps.due = k :: rest → s.layer k.layer = some d →
     (s.eng[e.val]).arr.holder k = some w → s.slotFree e k (s.plan e ps d k) = true →
     (s.tileReads e (s.plan e ps d k) x).1 = [] → queued d k = true →
     (s.eng[e.val]).seq.spoiled.contains (k.layer, (s.plan e ps d k).accRow) = false →
     a = s.attempt e k (s.plan e ps d k) (((s.finishBlocks e w).eng[e.val]).arr.arr w).met (faultsOf fs 0) → a.fail = false →
     ∃ t c, exec (.tileClose e fs x rx n m) s = .next t ∧ (t.eng[e.val]).acc = a.acc ∧ (t.eng[e.val]).chk = a.chk ∧
       (t.eng[e.val]).seq.pass = some { ps with due := rest } ∧ c.key = { k with arr := w } ∧ c.mb = ps.mb ∧
       (if 32 ≤ (s.eng[e.val]).arr.queue.length
        then (t.eng[e.val]).arr.queue = (s.eng[e.val]).arr.queue ∧
          (t.eng[e.val]).arr.waiting = (s.eng[e.val]).arr.waiting ++ [c]
        else (t.eng[e.val]).arr.queue = (s.eng[e.val]).arr.queue ++ [c] ∧
          (t.eng[e.val]).arr.waiting = (s.eng[e.val]).arr.waiting) ∧
       (t.eng[e.val]).store = (s.eng[e.val]).store ∧ EngineAndEvents s t e) ∧
  (∀ (e : EngineId) (n l : Nat) (env : RunEnvs) (s : State) (r : SchedRow) (p : Pass) (k k' : TileKey) (rest : List TileKey)
       (ls : List Nat) (d d' : LayerDesc) (c : ClosedTile),
     s.rowAt e (passOp p.kind) = some r → (s.eng[e.val]).seq.pass = some p → p.take = k :: k' :: rest → p.begun = true →
     p.layers = l :: ls → s.layer l = some d' → s.layer k.layer = some d → (s.eng[e.val]).led.loads = [] →
     (s.envOf e env).sram.ue = [] → (s.envOf e env).mism = [] → (s.eng[e.val]).badWords = [] →
     ((s.eng[e.val]).arr.queue.find? fun c => sameTile k c p.mb) = some c → (s.eng[e.val]).arr.waiting = [] →
     ∃ t x, exec (.tileTake e n env) s = .next t ∧ (t.eng[e.val]).seq.pass = some { p with take := k' :: rest } ∧
       (t.eng[e.val]).arr.queue = (s.eng[e.val]).arr.queue.erase c ∧
       (t.eng[e.val]).vec.tileWait = satAdd (s.eng[e.val]).vec.tileWait n ∧
       (t.eng[e.val]).seq.runs = x :: (s.eng[e.val]).seq.runs ∧ x.row = false ∧ (t.eng[e.val]).vec.run.active = false ∧
       EngineAndEvents s t e)

/-- R145, R148, R149: the band that its engine sent first of those on their way to a controller in service is taken from
its way. Arriving whole it is written on its first touch, and added element by element to a sound page otherwise, the
page's sideband naming the parameter, the band and the step; the controller answers, no other controller changes, and
every byte outside the page that no narrow write is pending on reads as before. A band that arrives with other bytes
than its hallmark describes leaves the memories as they were, and marks the step. -/
def Obligations.VaultsAccumulateBands : Prop :=
  ∀ (e : EngineId) (param : W16) (band : Nat) (damage : Option Bytes) (fs : List (Nat × CwFault)) (s : State) (h : HomeRec)
      (c : CtlId) (page : Nat) (b : HomeBand) (data : List Byte),
    s.homeRec e.val param.toNat = some h → h.place e band = (c, page) → s.firstBand e c = some b →
    b.param = param.toNat → b.band = band → s.ctlOk c = true → s.Sound → data = damage.getD (wordBytes b.data) →
    (crc32c data = crc32c (wordBytes b.data) → data.length = 4096 → s.coverKey c page = none →
      (s.ctl c).merge.length < 64 ∨ (s.ctl c).bad = [] ∧ s.tagArea c = none → s.isTouched e param.toNat band = false →
      ∃ t, exec (.vaultAccumulate e param band damage fs) s = .next t ∧
        t.readPage c page = (data, mkSide (crc32c data) 3 false s.curStep noMb param.toNat band 0) ∧
        t.isTouched e param.toNat band = true ∧ (t.eng[e.val]).arr.homeFlight = (s.eng[e.val]).arr.homeFlight.erase b ∧
        Emission.memAnswer c .ok [] [] ∈ t.out ∧ (∀ c' : CtlId, c' ≠ c → t.ctl c' = s.ctl c') ∧ (∀ g : EngineId, g ≠ e → Told s.eng[g.val] t.eng[g.val]) ∧
        (∀ a : Nat, a < page * 4096 ∨ page * 4096 + 4096 ≤ a → (∀ m ∈ (s.ctl c).merge, m.cw ≠ a / 64) →
          a < ctlBytes c → (t.ctl c).byte a = (s.ctl c).byte a)) ∧
    (∀ sum : List Byte, crc32c data = crc32c (wordBytes b.data) → data.length = 4096 → s.coverKey c page = none →
      (s.ctl c).merge.length < 64 ∨ (s.ctl c).bad = [] ∧ s.tagArea c = none → s.isTouched e param.toNat band = true → (s.ctl c).badIn c (page * 4096) 4096 fs = [] →
      hallmarkOk (s.readPage c page).2 (s.readPage c page).1 = true →
      sum = wordBytes (bandAdd s.fp32 false (words (s.readPage c page).1 1024) (words data 1024)).1 →
      ∃ t, exec (.vaultAccumulate e param band damage fs) s = .next t ∧
        t.readPage c page = (sum, mkSide (crc32c sum) 3 false s.curStep noMb param.toNat band 0) ∧
        (t.eng[e.val]).arr.homeFlight = (s.eng[e.val]).arr.homeFlight.erase b ∧
        Emission.memAnswer c .ok [] [] ∈ t.out ∧ (∀ c' : CtlId, c' ≠ c → t.ctl c' = s.ctl c') ∧ (∀ g : EngineId, g ≠ e → Told s.eng[g.val] t.eng[g.val]) ∧
        (∀ a : Nat, a < page * 4096 ∨ page * 4096 + 4096 ≤ a → (∀ m ∈ (s.ctl c).merge, m.cw ≠ a / 64) →
          a < ctlBytes c → (t.ctl c).byte a = (s.ctl c).byte a)) ∧
    (crc32c data ≠ crc32c (wordBytes b.data) →
      ∃ t, exec (.vaultAccumulate e param band damage fs) s = .next t ∧ t.vaults = s.vaults ∧ t.fars = s.fars ∧
        Emission.memAnswer c .hallmarkFail [] [] ∈ t.out ∧
        (s.job.state = .running → s.job.stepOn = true → s.int.holding = false → s.int.replay = none →
          ∃ q, t.int.replay = some q ∧ q.step = s.curStep ∧ q.cause = Status.hallmarkFail.code))

/-- R376, R377, R378: QUARANTINE marks a unit quarantined and shows in GLB_ERR_SUMMARY. An array whose neighbour is good
leaves its engine in service, and no other unit of it is marked; an array whose neighbour is quarantined, and any other
unit, takes its engine out of service. STRIKE_DECAY × 1,024 steps without a strike take back the newest strike of a unit
that is not quarantined, and with it the newest probation step. -/
def Obligations.QuarantineAndDecay : Prop :=
  ∀ (e : EngineId) (u : Unit5) (s : State),
    (((s.eng[e.val]).unit u).quarantined = false →
      ∃ t, exec (.quarantine e u) s = .next t ∧ ((t.eng[e.val]).unit u).quarantined = true ∧
        (∀ v : Unit5, v ≠ u → (t.eng[e.val]).unit v = (s.eng[e.val]).unit v) ∧
        bitAt t.int.errSummary errQuarantine = true ∧ t.vaults = s.vaults ∧ t.fars = s.fars ∧ OtherEngines s t e ∧
        (u = .arrayA → (t.eng[e.val]).arr.a.quar = true ∧ (t.eng[e.val]).arr.b = (s.eng[e.val]).arr.b) ∧
        (u = .arrayB → (t.eng[e.val]).arr.b.quar = true ∧ (t.eng[e.val]).arr.a = (s.eng[e.val]).arr.a) ∧
        (if (u = .arrayA ∧ (s.eng[e.val]).arr.b.quar = false) ∨ (u = .arrayB ∧ (s.eng[e.val]).arr.a.quar = false)
         then t.glb.engAvail = s.glb.engAvail else t.engOk e.val = false)) ∧
    (∀ f, s.faults = some f → f.strikeDecay ≠ 0 → 0 < ((s.eng[e.val]).unit u).strikes →
      ((s.eng[e.val]).unit u).quarantined = false →
      f.strikeDecay * 1024 ≤ s.curStep.toNat - ((s.eng[e.val]).unit u).since.toNat →
      ∃ t, exec (.strikeDecay e u) s = .next t ∧ ((t.eng[e.val]).unit u).strikes = ((s.eng[e.val]).unit u).strikes - 1 ∧
        ((t.eng[e.val]).unit u).since = s.curStep ∧ ((t.eng[e.val]).unit u).probs = ((s.eng[e.val]).unit u).probs.drop 1 ∧
        ((t.eng[e.val]).unit u).quarantined = false ∧ OtherEngines s t e ∧ t.vaults = s.vaults ∧ t.fars = s.fars)

/-! ### Vector engine -/

/-- R162, R163, R164, R165: a register operation issued without a duplex mismatch writes, in every active lane, its result
on that lane's operands (an immediate stands for SRC_B) into DST, and changes no inactive lane, no other register and
nothing else of the engine's memories; NOP changes no register. A result that the spec bounds but does not fix is a free
value. The model's choices that it rests on: log entries 10, 88. -/
def Obligations.RegisterOpsActOnLanes : Prop :=
  ∀ (op : VecOp) (i : VecR) (s : State), (s.eng[i.engine.val]).vec.vr.wf →
    (i.mismatch = 0 ∨ bitAt (s.eng[i.engine.val]).vec.duplex 0 = false) →
    ∃ t, exec (vecInstr op i) s = .next t ∧ EngineAndEvents s t i.engine ∧
      (t.eng[i.engine.val]).store = (s.eng[i.engine.val]).store ∧ (t.eng[i.engine.val]).acc = (s.eng[i.engine.val]).acc ∧
      (t.eng[i.engine.val]).seq = (s.eng[i.engine.val]).seq ∧ (t.eng[i.engine.val]).arr = (s.eng[i.engine.val]).arr ∧
      (op = .nop → (t.eng[i.engine.val]).vec.vr = (s.eng[i.engine.val]).vec.vr) ∧
      (∀ (r : Fin 64) (l : Nat), l < laneCount i.ty → r ≠ i.dst →
        (t.eng[i.engine.val]).vec.lane r.val i.ty l = (s.eng[i.engine.val]).vec.lane r.val i.ty l) ∧
      (∀ l : Nat, (l, none) ∈ (s.runCtx i.engine).lanes s i.ty →
        (t.eng[i.engine.val]).vec.lane i.dst.val i.ty l = (s.eng[i.engine.val]).vec.lane i.dst.val i.ty l) ∧
      (op ≠ .nop → ∀ (l : Nat) (rc : Nat × Nat), (l, some rc) ∈ (s.runCtx i.engine).lanes s i.ty →
        (t.eng[i.engine.val]).vec.lane i.dst.val i.ty l =
          (op.lane (s.vecDenom i.ty) i.ty ((s.eng[i.engine.val]).vec.lane i.a.val i.ty l)
            (match i.imm with
              | some w => immCode (s.vecDenom i.ty) w
              | none => (s.eng[i.engine.val]).vec.lane i.b.val i.ty l)
            ((s.eng[i.engine.val]).vec.lane i.c.val i.ty l)).1 % 2 ^ (8 * laneBytes i.ty))

/-- R161, R168, R174: LD, of a tensor that reads sound, loads every active lane that lies in the descriptor's extent,
GATH the row that lane IDX names, NaN where that row is outside; lanes outside the extent and every other register keep
their values. ST puts the register's active lanes, in lane order, at their elements of a stage-store tensor of the
program's own type. The model's choices that it rests on: log entries 86, 87. -/
def Obligations.LoadsAndStores : Prop :=
  ∀ (i : VecM) (s : State) (td : TensorDesc) (c : RunCtx), i.sram.ue = [] → (s.eng[i.engine.val]).badWords = [] →
    (i.mismatch = 0 ∨ bitAt (s.eng[i.engine.val]).vec.duplex 0 = false) → c = s.runCtx i.engine →
    (c.d.bind fun d => s.td d i.td.val) = some td → (s.eng[i.engine.val]).vec.vr.wf →
    (td.kind = 3 → ∀ h, s.homeRec i.engine.val td.paramId = some h → ∀ band : Nat,
      s.ctlOk (h.place i.engine band).1 = true ∧ s.pageGood (h.place i.engine band).1 (h.place i.engine band).2 = true) →
    (∃ t, exec (.ld i) s = .next t ∧ EngineAndEvents s t i.engine ∧
      (t.eng[i.engine.val]).store = (s.eng[i.engine.val]).store ∧ (t.eng[i.engine.val]).acc = (s.eng[i.engine.val]).acc ∧
      (∀ (r : Fin 64) (l : Nat), l < laneCount c.ty → r ≠ i.reg →
        (t.eng[i.engine.val]).vec.lane r.val c.ty l = (s.eng[i.engine.val]).vec.lane r.val c.ty l) ∧
      (∀ (l : Nat) (rc : Nat × Nat), (l, some rc) ∈ c.lanes s c.ty →
        (t.eng[i.engine.val]).vec.lane i.reg.val c.ty l =
          if (c.coord td rc).1 < (c.extent td).1 ∧ (c.coord td rc).2 < (c.extent td).2
          then (c.laneOf s (c.tileScale s) (c.load s td (c.coord td rc))).1 % 2 ^ (8 * laneBytes c.ty)
          else (s.eng[i.engine.val]).vec.lane i.reg.val c.ty l)) ∧
    (∃ t, exec (.gath i) s = .next t ∧ EngineAndEvents s t i.engine ∧
      (t.eng[i.engine.val]).store = (s.eng[i.engine.val]).store ∧ (t.eng[i.engine.val]).acc = (s.eng[i.engine.val]).acc ∧
      (∀ (l : Nat) (rc : Nat × Nat), (l, some rc) ∈ c.lanes s c.ty →
        (t.eng[i.engine.val]).vec.lane i.reg.val c.ty l =
          if (c.extent td).1 ≤ (s.eng[i.engine.val]).vec.lane i.idx.val c.ty l
          then (nanOut (s.vecDenom c.ty) true).1 % 2 ^ (8 * laneBytes c.ty)
          else if (c.coord td rc).2 < (c.extent td).2
          then (c.laneOf s (c.tileScale s) (c.load s td ((s.eng[i.engine.val]).vec.lane i.idx.val c.ty l,
            (c.coord td rc).2))).1 % 2 ^ (8 * laneBytes c.ty)
          else (s.eng[i.engine.val]).vec.lane i.reg.val c.ty l)) ∧
    (c.storeOn td = true → td.kind = 1 → td.den = typeDen c.ty → (s.denom td.den).isBlock = false →
      ∃ t, exec (.st i) s = .next t ∧ EngineAndEvents s t i.engine ∧
        (t.eng[i.engine.val]).vec.vr = (s.eng[i.engine.val]).vec.vr ∧ (t.eng[i.engine.val]).acc = (s.eng[i.engine.val]).acc ∧
        (t.eng[i.engine.val]).store = ((c.lanes s c.ty).filterMap fun l => l.2.map fun rc => (l.1, c.coord td rc)).foldl
          (fun m p => if p.2.1 < (c.extent td).1 ∧ p.2.2 < (c.extent td).2
            then putElem (s.denom td.den) m (s.reloc i.engine c.entry td.addr + p.2.1 * td.rowStride) p.2.2
              ((s.eng[i.engine.val]).vec.lane i.reg.val c.ty p.1)
            else m) (s.eng[i.engine.val]).store)

/-- R173, R174: HADD touches the home's band of every active lane that lies in the home, in the accumulator or on its way
to the vault, and leaves the stage store, the registers and the accumulator rows outside the home as they were. RSUM, RMAX
and RSSQ of a row of one position write the lane tree's result, converted to the descriptor's denomination, at the row's
element. The model's choices that it rests on: log entries 86, 88. -/
def Obligations.HomesAndReductions : Prop :=
  ∀ (i : VecM) (s : State) (td : TensorDesc) (c : RunCtx), i.sram.ue = [] → (s.eng[i.engine.val]).badWords = [] →
    (i.mismatch = 0 ∨ bitAt (s.eng[i.engine.val]).vec.duplex 0 = false) → c = s.runCtx i.engine →
    (c.d.bind fun d => s.td d i.td.val) = some td →
    (∀ h, s.homeRec i.engine.val td.paramId = some h → (s.eng[i.engine.val]).acc.wf →
      ∃ t, exec (.hadd i) s = .next t ∧ EngineAndEvents s t i.engine ∧
        (t.eng[i.engine.val]).store = (s.eng[i.engine.val]).store ∧
        (t.eng[i.engine.val]).vec.vr = (s.eng[i.engine.val]).vec.vr ∧
        (∀ a : Nat, a < accAddr h.accRow 0 ∨ accAddr (h.accRow + 16 * h.accBands) 0 ≤ a →
          memGet (t.eng[i.engine.val]).acc a = memGet (s.eng[i.engine.val]).acc a) ∧
        ∀ (l n band : Nat) (rc : Nat × Nat), (l, some rc) ∈ c.lanes s c.ty →
          n = (s.eng[i.engine.val]).vec.lane i.idx.val c.ty l → n < h.n → (c.coord td rc).2 < h.k →
          band = ((c.coord td rc).2 / max 1 h.nw * h.colRows + n) / 16 →
          if band < h.accBands then t.isTouched i.engine h.paramId band = true
          else ∃ b ∈ (t.eng[i.engine.val]).arr.homeFlight, b.param = h.paramId ∧ b.band = band ∧ b.mb = c.mb) ∧
    (∀ (op : RedOp) (q : TensorDesc) (rc : Nat × Nat) (y : Sys2Proof.Machine.Num), c.byTile = false → c.drv = some q →
      ceilDiv q.cols (laneCount c.ty) = 1 → ((c.lanes s c.ty).findSome? fun x => x.2) = some rc →
      (redTree (op.join (s.redFmt op c.ty)) 9 ((c.lanes s c.ty).map fun x => x.2.map fun _ =>
        (op.bring (s.redFmt op c.ty) ((s.vecDenom c.ty).decode ((s.eng[i.engine.val]).vec.lane i.reg.val c.ty x.1))).val)).1 = some y →
      ((s.eng[i.engine.val]).vec.red.any fun x => x.1 == 256 + ((0x3C + redCode op) * 16 + i.td.val) && x.2.1 == rc.1) = false →
      (c.coord td rc).1 < td.rows → 0 < td.cols → (s.denom td.den).isBlock = false →
      ∃ t, exec (redInstr op i) s = .next t ∧ EngineAndEvents s t i.engine ∧
        (t.eng[i.engine.val]).vec.vr = (s.eng[i.engine.val]).vec.vr ∧ (t.eng[i.engine.val]).acc = (s.eng[i.engine.val]).acc ∧
        (t.eng[i.engine.val]).store = putElem (s.denom td.den) (s.eng[i.engine.val]).store
          (s.reloc i.engine c.entry td.addr + (c.coord td rc).1 * td.rowStride) 0
          ((s.denom td.den).convert (s.stream (s.denom td.den) c.step c.mb c.layer i.site ((c.coord td rc).1 * td.cols))
            (if (s.denom td.den).perTensor = true then (numMul y (c.scaleWord s 2)).1 else y)).1)

/-! ### Boundaries, audits, assays -/

/-- R61, R210, R219, R234: a boundary at which every stage engine has retired the step, the verdict is there, the audits
are complete and no replay stands closes the step; the last step of a RUN leaves the job ACTIVE with the loss scale and the
update count of the verdict. A promotion that would leave too many live versions stops the boundary at every stage engine. -/
def Obligations.BoundaryClosesTheStep : Prop :=
  ∀ (r : Readings) (s : State), s.boundaryReady = true →
    (s.depthBreach = false → ∃ t, exec (.stepBoundary r) s = .next t ∧ t.job.step = s.curStep) ∧
    (s.depthBreach = false → s.glb.bursarUp = true → s.job.runLeft = some 1 → s.job.pendPause = none → s.ckpt.toTake = [] →
      ∃ t, exec (.stepBoundary r) s = .next t ∧ t.job.state = .active ∧ t.job.stepOn = false ∧ t.job.runLeft = none ∧
        match s.verdictOf s.curStep with
        | some v => t.upd.exp = toInt 8 v.eNext.toNat ∧
            t.upd.updates = (if v.skip = true then s.upd.updates else wrapAdd s.upd.updates 1) ∧
            t.upd.due = (if v.skip = true then s.upd.due else s.curStep)
        | none => t.upd.exp = s.upd.exp ∧ t.upd.updates = s.upd.updates ∧ t.upd.due = s.upd.due) ∧
    (s.depthBreach = true → ∃ t, exec (.stepBoundary r) s = .next t ∧ t.job = s.job ∧ t.vaults = s.vaults ∧
      t.fars = s.fars ∧ ∀ e ∈ s.stages, (t.eng[e.val]).seq.failed = true ∧
        (t.eng[e.val]).seq.lastStatus = Status.stateConflict.code ∧ (t.eng[e.val]).seq.retired = false)

/-- R381, R382, R383: of a run that the audit awaits, the checksums of the auditor and of the engine, each the run's own
unless a fault makes it another, complete the audit where they are equal; different ones are counted and wait for a
third engine; the engine of the two whose checksum the third does not share has its vector or row engine quarantined,
and the run's audit is complete. The model's choices that it rests on: log entries 76 and 188. -/
def Obligations.AuditsCompareAndVote : Prop :=
  ∀ (r : AuditRun) (ab ob : Option W32) (s : State) (d : RunDone) (a o : W32), d = s.runDone r → a = ab.getD d.crc →
    o = ob.getD d.crc →
    (s.auditDue r = true → (s.int.auditVotes.any fun v => v.1 == r) = false →
      ∃ t, exec (.auditCompare r ab ob) s = .next t ∧
        (a = o → t = { s with int := t.int } ∧ t.int.auditDone = (r.engine.val, r.run) :: s.int.auditDone ∧
          t.int.auditVotes = s.int.auditVotes ∧ t.int.auditMismatch = s.int.auditMismatch) ∧
        (a ≠ o → t.int.auditVotes = (r, a, o) :: s.int.auditVotes ∧ t.int.auditDone = s.int.auditDone ∧
          t.int.auditMismatch = satAdd s.int.auditMismatch 1 ∧
          (t.eng[r.engine.val]).int.sampleBad = satAdd (s.eng[r.engine.val]).int.sampleBad 1 ∧
          t = { s with int := t.int, eng := s.eng.set r.engine.val (t.eng[r.engine.val]) })) ∧
    (∀ (b x : EngineId) (tb : Option W32) (v : W32), s.auditorOf r.engine = some b →
      (s.int.auditVotes.find? fun y => y.1 == r) = some (r, a, o) → (s.thirdEngine r.engine b).isSome = true → a ≠ o →
      v = tb.getD d.crc → v = a ∨ v = o → x = (if v = a then r.engine else b) →
      ∃ t, exec (.auditVote r tb) s = .next t ∧ (r.engine.val, r.run) ∈ t.int.auditDone ∧
        t.int.auditVotes = (s.int.auditVotes.filter fun y => y.1 != r) ∧ t.vaults = s.vaults ∧
        t.fars = s.fars ∧ bitAt t.int.errSummary errAudit = true ∧
        ((t.eng[x.val]).unit (if d.row = true then .row else .vector)).quarantined = true)

/-- R399, R400, R401, R406: an assay of an engine goes on with the unit at which it stands, for at most the µs that its
window and its image give; the last unit done within them ends the run, which is counted, and a unit that fails is
counted as a failure; a unit that needs more keeps the µs that it has had and ends no run. A window that ends is closed;
a run outside a window on an idle engine goes the same way; a run on a sealed job's engine leaves zeros in its area. The
model's choices that it rests on: log entries 13 and 189. -/
def Obligations.AssaysAreCounted : Prop :=
  ∀ (r : AssayResult) (g : Assay) (base m w : Nat) (us : List Unit5) (s : State), s.int.assay = some g →
    s.engOk r.engine.val = true → s.assayArea r.engine = some base →
    g.tested.drop (s.eng[r.engine.val]).int.assayPos = r.unit :: us →
    m = min (fld s.int.assayCfg 31 16) g.budget.toNat → w = g.budget.toNat →
    (s.int.assayWindow = true →
      ∃ t, exec (.assayWindowEnd [r]) s = .next t ∧ t.int.assayWindow = false ∧
        (us = [] → r.micros ≤ (s.eng[r.engine.val]).int.assaySpent + m →
          t.int.assayRuns = wrapAdd s.int.assayRuns 1 ∧
          t.int.assayFails = (if r.crc = Config.assayExpected g.image (unitIdx r.unit).val then s.int.assayFails
            else satAdd s.int.assayFails 1)) ∧
        ((s.eng[r.engine.val]).int.assaySpent + m < r.micros → t.int.assayRuns = s.int.assayRuns ∧
          t.int.assayFails = s.int.assayFails)) ∧
    (fld s.int.assayCfg 15 0 ≠ 0 → s.job.state ≠ .running ∨ s.stages.contains r.engine = false →
      ∃ t, exec (.idleAssay r.engine [r]) s = .next t ∧
        (us = [] → r.micros ≤ (s.eng[r.engine.val]).int.assaySpent + w →
          t.int.assayRuns = wrapAdd s.int.assayRuns 1 ∧
          t.int.assayFails = (if r.crc = Config.assayExpected g.image (unitIdx r.unit).val then s.int.assayFails
            else satAdd s.int.assayFails 1) ∧
          (t.eng[r.engine.val]).int.assayPos = 0 ∧ (t.eng[r.engine.val]).int.assaySpent = 0) ∧
        ((s.eng[r.engine.val]).int.assaySpent + w < r.micros → t.int.assayRuns = s.int.assayRuns ∧
          t.int.assayFails = s.int.assayFails ∧
          (t.eng[r.engine.val]).int.assayPos = (s.eng[r.engine.val]).int.assayPos ∧
          (t.eng[r.engine.val]).int.assaySpent = (s.eng[r.engine.val]).int.assaySpent + w) ∧
        t.job = s.job ∧ t.vaults = s.vaults ∧ t.fars = s.fars ∧ OtherEngines s t r.engine ∧
        (s.sealedJob = true → (t.eng[r.engine.val]).store = memClear (s.eng[r.engine.val]).store base 1048576 ∧
          (t.eng[r.engine.val]).acc = []))

/-! ### Faults and replay -/

/-- R387, R388, R391, R392: a mark of the step in flight stops every engine with its tiles abandoned and notes the step,
the cause and the number of marks; a further mark, while the engines stand still or after the restart, restarts the
replay with one mark more, and where the engines stop for HOLD a mark changes no more than that it is another command.
Once all is answered, with every controller in service and every codeword readable, the step restarts at ENTRY with
counters zero; more marks than REPLAY_LIMIT raise the exhausted event instead. The model's choices that it rests on: log
entries 70 and 167. -/
def Obligations.StepsAreReplayed : Prop :=
  ∀ s : State, s.job.state = .running → s.job.stepOn = true →
    (∀ (isl : W16) (st : Status), s.int.holding = false →
      ∃ t, exec (.replayMark isl st s.curStep) s = .next t ∧ t.vaults = s.vaults ∧ t.fars = s.fars ∧ t.job = s.job ∧
        ∃ q, t.int.replay = some q ∧ q.step = s.curStep ∧ q.cause = st.code ∧ q.stopped = true ∧
          q.marks = (match s.int.replay with
            | some r => r.marks + 1
            | none => 1) ∧
          ∀ e : EngineId, (t.eng[e.val]).seq.running = false ∧ (t.eng[e.val]).arr.queue = []) ∧
    (∀ (isl : W16) (st : Status), s.int.holding = true → exec (.replayMark isl st s.curStep) s = .next s.settle) ∧
    (∀ r, s.int.replay = some r → r.stopped = true → r.marks ≤ s.replayLimit → s.quiet = true →
      (∀ c : CtlId, (s.ctl c).bad = [] ∧ s.ctlOk c = true) → (∀ e : EngineId, (s.eng[e.val]).led.fetches = []) →
      ∃ t, exec (.replayRestart []) s = .next t ∧ t.int.replay = some { r with stopped := false } ∧
        t.int.replays = wrapAdd s.int.replays 1 ∧ t.job = s.job ∧
        ∀ e ∈ s.stages, (t.eng[e.val]).seq.running = true ∧ (t.eng[e.val]).seq.ctr = Vector.replicate 8 0 ∧
          (t.eng[e.val]).seq.retired = false ∧ (t.eng[e.val]).seq.failed = false ∧
          (∀ tb, s.table e = some tb → (t.eng[e.val]).seq.row = tb.entry) ∧
          (t.eng[e.val]).float = (s.eng[e.val]).save.float) ∧
    (∀ r, s.int.replay = some r → r.stopped = true → s.replayLimit < r.marks →
      (s.int.raised.any fun ev => ev.cls == .exhausted) = false →
      ∃ t, exec .replayExhausted s = .next t ∧ t = { s with int := t.int } ∧
        ∃ ev, t.int.raised = s.int.raised ++ [ev] ∧ ev.cls = .exhausted)

/-- R394, R396: an event of a locked job is taken from those raised, and its class's action follows: REPORT changes
nothing of the job; HOLD leaves a job that is ACTIVE, or has no step under way, in HELD; of a step under way it stops
every engine, and the job moves to HELD with no step under way and no replay as soon as all that the engines had issued
is answered, at once or at a later REPLAY_RESTART; REPLAY marks the step. The model's choices that it rests on: log
entries 84 and 169. -/
def Obligations.EventsTakeTheirAction : Prop :=
  (∀ (ev : FaultEv) (f : Faults) (s : State), s.faults = some f → s.job.locked = true →
    (f.action ev.cls = .report →
      ∃ t, exec (.faultEvent ev) s = .next t ∧ t.int.raised = s.int.raised.erase ev ∧ t.job = s.job ∧ t.eng = s.eng ∧
        t.vaults = s.vaults ∧ t.fars = s.fars ∧ t.int.replay = s.int.replay) ∧
    (f.action ev.cls = .hold → (s.job.state = .running ∧ (s.job.stepOn = true → (s.modAllEng Engine.stop).quiet = true)) ∨
        s.job.state = .active →
      ∃ t, exec (.faultEvent ev) s = .next t ∧ t.job.state = .held ∧ t.job.stepOn = false ∧ t.job.step = s.job.step ∧
        t.int.replay = none ∧ t.job.pendPause = none ∧ t.job.pendSwitch = none ∧ t.job.pendCkpt = none) ∧
    (f.action ev.cls = .hold → s.job.state = .running → s.job.stepOn = true → (s.modAllEng Engine.stop).quiet = false →
      ∃ t, exec (.faultEvent ev) s = .next t ∧ t.job = s.job ∧ t.int.holding = true ∧ t.int.replay = none ∧
        t.vaults = s.vaults ∧ t.fars = s.fars ∧
        ∀ e : EngineId, (t.eng[e.val]).seq.running = false ∧ (t.eng[e.val]).arr.queue = []) ∧
    (f.action ev.cls = .replay → s.job.state = .running → s.job.stepOn = true → s.int.replay = none → s.int.holding = false →
      ∃ t, exec (.faultEvent ev) s = .next t ∧ t.job = s.job ∧ t.int.raised = s.int.raised.erase ev ∧
        ∃ q, t.int.replay = some q ∧ q.step = s.curStep ∧ q.cause = ev.status.code ∧ q.marks = 1)) ∧
  (∀ (pages : List (EngineId × BitVec 24 × Nat)) (s : State), s.int.replay = none → s.int.holding = true → s.quiet = true →
    ∃ t, exec (.replayRestart pages) s = .next t ∧ t.job.state = .held ∧ t.job.stepOn = false ∧ t.job.step = s.job.step ∧
      t.int.holding = false ∧ t.int.replay = none)

/-- R417, R421, R424, R492: once no drain slip is left, and while the bursar runs, the commit makes the drained slot the
newest checkpoint and the newest the older one, counts it, releases every escrow hold and ends the drain, and enters the
day book; no vault, channel or engine RAM changes. Once after ACTIVE the commit records are read, with no other effect:
the newest and the older committed checkpoint are the two accepted slots with the highest cuts, in that order, as far as
so many are accepted. -/
def Obligations.CheckpointsAreCommitted : Prop :=
  (∀ (s : State) (c : CkptSec) (h : Charter) (d : Drain), s.ckptSec = some c → s.job.charter = some h → s.ckpt.drain = some d →
    d.left = [] → s.glb.bursarUp = true →
    ∃ t, exec .checkpointCommit s = .next t ∧ t.ckpt.drain = none ∧ t.ckpt.lastStatus = 0 ∧
      t.ckpt.committed = wrapAdd s.ckpt.committed 1 ∧ t.ckpt.older = s.ckpt.newest ∧
      t.ckpt.newest = some { slot := d.slot, cut := d.cut } ∧ t.job = s.job ∧ t.vaults = s.vaults ∧ t.fars = s.fars ∧
      t.upd = s.upd ∧ t.sec.dbSeq = s.sec.nextSeq ∧
      ∀ e : EngineId, Told (s.eng[e.val]).releaseEscrow (t.eng[e.val])) ∧
  (∀ s : State, s.ckpt.drain = none ∨ s.glb.bursarUp = false ∨ (∃ d, s.ckpt.drain = some d ∧ d.left ≠ []) →
    exec .checkpointCommit s = .next s) ∧
  (∀ (slots : List CkptImage) (s : State), s.job.charter = none ∨ s.ckpt.recordsRead = true ∨ s.glb.bursarUp = false ∨
      s.job.locked = false ∨ s.job.state = .restoring ∨ s.job.state = .releasing → exec (.commitRecordRead slots) s = .next s) ∧
  (∀ (slots : List CkptImage) (s : State) (c : Charter), s.job.charter = some c → s.job.locked = true →
    s.job.state = .active ∨ s.job.state = .running ∨ s.job.state = .held → s.ckpt.recordsRead = false →
    s.glb.bursarUp = true →
    ∃ t, exec (.commitRecordRead slots) s = .next t ∧ t = { s with ckpt := t.ckpt } ∧ t.ckpt.recordsRead = true ∧
      t.ckpt = { s.ckpt with newest := t.ckpt.newest, older := t.ckpt.older, recordsRead := true } ∧
      (∀ x, t.ckpt.newest = some x ∨ t.ckpt.older = some x → ∃ i, (slots.take 3)[x.slot.val]? = some i ∧
        commitCheck c i.commit = none ∧ x.cut = rdW 48 i.commit 0x10) ∧
      (∀ x y, t.ckpt.newest = some x → t.ckpt.older = some y → x.slot ≠ y.slot ∧ y.cut.toNat ≤ x.cut.toNat) ∧
      ∀ (n : Nat) (i : CkptImage), (slots.take 3)[n]? = some i → commitCheck c i.commit = none →
        ∃ x, t.ckpt.newest = some x ∧ (rdW 48 i.commit 0x10).toNat ≤ x.cut.toNat ∧
          (x.slot.val ≠ n → ∃ y, t.ckpt.older = some y ∧ (rdW 48 i.commit 0x10).toNat ≤ y.cut.toNat))

/-! ### Norms, verdicts, updates -/

/-- R240, R242, R322, R337, R432, R437, R438: norm traffic of a peer that is not admitted has no effect but a count. Of
an admitted one: the root keeps a partial of a step that has no verdict; once NORM_PARTIALS are there it forms the
verdict from them, records it as the step's and has no partial of the step left. A module that receives a verdict
records it once and counts a skip; a second one of the same step changes nothing; one whose step has passed its boundary
moves the exponent and the version due at once. A loss clears the replica's bit in the map that the root forms next, and
in no other module's; a live map joins those that wait for the start of the next step, is forwarded once, and changes no
memory. The model's choice that it rests on: log entry 187. -/
def Obligations.VerdictsAndLiveMaps : Prop :=
  ((∀ (i : Nat) (h : BitVec 24) (step : StepNo) (a : Byte) (p : W64) (s : State) (x : Shards), s.shardsSec = some x →
     s.isRoot = true → s.admitted i = true → s.verdictOf step = none → s.ckpt.rootMap = none →
     (∀ y ∈ s.upd.partials, y.step = step → y.shard ≠ h) →
     ∃ t, exec (.normPartial i h step a p) s = .next t ∧ t.job = s.job ∧ t.vaults = s.vaults ∧ t.fars = s.fars ∧
       if (s.upd.partials.filter fun y => y.step == step).length + 1 < x.normPartials
       then t = { s with upd := t.upd } ∧
         t.upd.partials = { shard := h, step := step, attempt := a, p := p } :: s.upd.partials
       else ∃ v, t.verdictOf step = some v ∧ v.step = step ∧ (∀ y ∈ t.upd.partials, y.step ≠ step) ∧
         v.skip = (formVerdict x (s.expFor step) 0 ({ shard := h, step := step, attempt := a, p := p } ::
           s.upd.partials.filter fun y => y.step == step) step).1.skip ∧
         t.upd.vValid = true ∧ t.upd.vStep = step ∧ t.upd.q = v.q ∧ t.upd.gamma = v.gamma) ∧
   (∀ (i : Nat) (v : Verdict) (s : State), s.admitted i = true →
     (s.verdictOf v.step = none →
       ∃ t, exec (.normVerdict i v) s = .next t ∧ t.verdictOf v.step = some v ∧ t.upd.q = v.q ∧ t.upd.gamma = v.gamma ∧
         t.upd.vStep = v.step ∧ t.upd.vValid = true ∧ t.job = s.job ∧ t.vaults = s.vaults ∧ t.fars = s.fars ∧
         t.upd.skips = (if v.skip = true then wrapAdd s.upd.skips 1 else s.upd.skips) ∧
         t.upd.exp = (if v.step = s.job.step then toInt 8 v.eNext.toNat else s.upd.exp) ∧
         t.upd.due = (if v.step.toNat ≤ s.job.step.toNat ∧ v.skip = false ∧ s.upd.due.toNat < v.step.toNat then v.step
           else s.upd.due)) ∧
     ((s.verdictOf v.step).isSome = true → exec (.normVerdict i v) s = .next s))) ∧
  ((∀ (i : Nat) (r : W16) (step : StepNo) (s : State) (x : Shards), s.shardsSec = some x → s.admitted i = true →
     s.ckpt.rootMap = none →
     ∃ t, exec (.loss i r step) s = .next t ∧ t = { s with ckpt := t.ckpt } ∧
       t.ckpt.rootMap = (let m := (s.ckpt.liveNext.getLast?.map (·.2.2)).getD s.ckpt.liveMap
         if (x.normRoot = s.ownModule ∨ x.normAlt = s.ownModule) ∧ bitAt m r.toNat = true
         then some (setBit m r.toNat false) else none) ∧ t.ckpt.liveMap = s.ckpt.liveMap) ∧
   (∀ (i : Nat) (n : W16) (step : StepNo) (map : BitVec 1024) (s : State), s.admitted i = true →
     (s.upd.liveForwarded ≠ some step →
       ∃ t, exec (.live i n step map) s = .next t ∧ t.ckpt.liveNext = s.ckpt.liveNext ++ [(step, n.toNat, map)] ∧
         t.upd.liveForwarded = some step ∧ t.ckpt.liveMap = s.ckpt.liveMap ∧ t.job = s.job ∧ t.vaults = s.vaults ∧
         t.fars = s.fars ∧ ∀ e : EngineId, Told s.eng[e.val] t.eng[e.val]) ∧
     (s.upd.liveForwarded = some step → exec (.live i n step map) s = .next s))) ∧
  (∀ (i : Nat) (h : BitVec 24) (step : StepNo) (a : Byte) (p : W64) (v : Verdict) (r n : W16) (map : BitVec 1024) (s : State),
    s.admitted i = false →
    ∃ t, t = { s with ports := t.ports } ∧ exec (.normPartial i h step a p) s = .next t ∧ exec (.normVerdict i v) s = .next t ∧
      exec (.loss i r step) s = .next t ∧ exec (.live i n step map) s = .next t ∧
      ∀ q : PortId, t.ports[q.val] = (if s.route i 4096 = some q
        then { s.ports[q.val] with unadmitted := satAdd (s.ports[q.val]).unadmitted 1 } else s.ports[q.val]))

/-- R238, R239, R241, R249: phase 1 of the next shard whose gradient clearing has delivered, its homes sound, sends its
partial norm, with attempt number 1 the first time and one above every earlier one of the step after that while the
numbers last, and the shard is done with phase 1; phase 2 of a shard in a skipped step ends it with NORM_SKIPPED and
writes nothing; in another step, with its state and homes sound, an entry free and no shard still being mirrored, the
update of a shard without a mirror is counted and ends with OK. The model's choices that it rests on: log entry 32. -/
def Obligations.UpdatesRunInPhases : Prop :=
  ∀ (e : EngineId) (h : BitVec 24) (s : State) (i : UpdItem) (x : ShardEnt), s.shardEnt h = some x →
    (((s.eng[e.val]).led.upd.find? fun i => !i.phase1.isEmpty) = some i → i.phase1.head? = some h → s.cleared x = true →
      (∀ z ∈ s.homePages x, s.ctlOk z.1 = true ∧ s.pageGood z.1 z.2 = true) →
      s.verdictOf s.curStep = none →
      ∃ t y, exec (.updatePhase1 e h) s = .next t ∧ (t.eng[e.val]).led.updPhase = 2 ∧ (t.eng[e.val]).led.updShard = h ∧
        (t.eng[e.val]).led.upd = modFirst (fun i => !i.phase1.isEmpty) (fun i => { i with phase1 := i.phase1.drop 1 })
          (s.eng[e.val]).led.upd ∧
        y ∈ t.upd.sent ∧ y.shard = h ∧ y.step = s.curStep ∧ y.p = toF64 (s.partialNorm x).1 ∧
        ((∀ z ∈ s.upd.sent, z.step = s.curStep → z.shard ≠ h) → y.attempt = 1) ∧
        ((∀ z ∈ s.upd.sent, z.step = s.curStep → z.shard = h → z.attempt.toNat < 255) →
          ∀ z ∈ s.upd.sent, z.step = s.curStep → z.shard = h → z.attempt.toNat < y.attempt.toNat) ∧
        t.job = s.job ∧ t.vaults = s.vaults ∧ t.fars = s.fars) ∧
    (∀ (v : Verdict) (b : Bool) (n m : Nat), ((s.eng[e.val]).led.upd.find? fun i => !i.phase2.isEmpty) = some i →
      i.phase2.head? = some h →
      ((s.eng[e.val]).led.upd.all fun i => i.phase1.isEmpty && i.mirroring.isEmpty) = true →
      s.verdictOf s.curStep = some v →
      (v.skip = true → ∃ t, exec (.updatePhase2 e h b n m) s = .next t ∧ OnlyEngine s t e ∧
        (t.eng[e.val]).led.updPhase = 0 ∧ (t.eng[e.val]).led.updLast = Status.normSkipped.code ∧
        (t.eng[e.val]).led.updated = (s.eng[e.val]).led.updated ∧
        (t.eng[e.val]).led.entries = (s.eng[e.val]).led.entries) ∧
      (∀ q, v.skip = false → b = false → s.recipeOf i = some q →
        (x.tier = 2 ∨ s.ctlOk (pageOf e x.state).1 = true ∧ ∀ k < s.stateLen x, ∀ c n,
          (c, n) = ((pageOf e x.state).1, (pageOf e x.state).2 + s.stateBase x + k) →
          s.pageGood c n = true ∧ hallmarkOk (s.readPage c n).2 (s.readPage c n).1 = true) →
        (∀ z ∈ s.homePages x, s.ctlOk z.1 = true ∧ s.pageGood z.1 z.2 = true) →
        s.ctlOk (s.poolLoc e 0).1 = true → s.mirrorPeer x = none →
        (s.allocEntry e x s.curStep true false ((s.eng[e.val]).led.pubGroups.contains x.group)).1.isSome = true →
        ∃ t, exec (.updatePhase2 e h b n m) s = .next t ∧ (t.eng[e.val]).led.updPhase = 0 ∧
          (t.eng[e.val]).led.updLast = 0 ∧ (t.eng[e.val]).led.updated = wrapAdd (s.eng[e.val]).led.updated 1 ∧
          t.job = s.job))


/-! ### Envis links and tills -/

/-- R304, R306, R307, R308, R310, R313: a unit in sequence on a port that is up is taken, and the next one is expected;
an IDLE unit only carries its acknowledgement and credits, the units that it acknowledges leave the retry buffer, and an
acknowledgement that this port has not yet passed on leaves in an IDLE unit of its own; any other unit is discarded, its
uncorrectable codewords counted, the first of them with a NAK that names the unit expected. A unit moves frames and
changes nothing else. The model's choices that it rests on: log entries 17, 142. -/
def Obligations.LinkUnitsRunInSequence : Prop :=
  ∀ (p : PortId) (pfx : W64) (f : Frame) (n : Nat) (s : State), (s.ports[p.val]).state = 2 →
    (frTyp f ≠ 0 → BitVec.ofNat 16 (fld pfx 63 48) = (s.ports[p.val]).expect →
      ∃ t, exec (.linkUnit p pfx f true 0 n) s = .next t ∧ LinkOnly s t ∧
        (t.ports[p.val]).expect = wrapAdd (s.ports[p.val]).expect 1 ∧ (t.ports[p.val]).nakSent = false ∧
        (t.ports[p.val]).rx = wrapAdd (s.ports[p.val]).rx 1 ∧
        (t.ports[p.val]).fecCorrected = satAdd (s.ports[p.val]).fecCorrected n ∧
        (10 ≤ frTyp f → (t.ports[p.val]).badType = satAdd (s.ports[p.val]).badType 1) ∧
        (frTyp f < 8 → frDst f = s.ownModule → (∀ i, s.peerOf (frSrc f) = some i → (s.peer i).state ≠ 2) →
          (t.ports[p.val]).unadmitted = satAdd (s.ports[p.val]).unadmitted 1)) ∧
    (frTyp f = 0 → wrapAdd (BitVec.ofNat 16 (fld pfx 63 48)) 1 = (s.ports[p.val]).expect → bitAt pfx 31 = false →
      (s.ports[p.val]).queue = [] → (s.ports[p.val]).moved = [] →
      ∃ t, exec (.linkUnit p pfx f true 0 n) s = .next t ∧ t = { s with ports := t.ports, out := t.out } ∧
        (t.ports[p.val]).expect = (s.ports[p.val]).expect ∧ (t.ports[p.val]).lseq = (s.ports[p.val]).lseq ∧
        (BitVec.ofNat 16 (fld pfx 47 32) = (s.ports[p.val]).lseq → (t.ports[p.val]).retry = []) ∧
        (∀ u ∈ (t.ports[p.val]).retry, u ∈ (s.ports[p.val]).retry) ∧
        ((s.ports[p.val]).expect ≠ (s.ports[p.val]).ackSent → ∃ w, t.out =
          .linkUnit p w idleFrame (unitCrc w idleFrame) :: s.out ∧ bitAt w 31 = false ∧
            fld w 47 32 = (s.ports[p.val]).expect.toNat) ∧
        ∀ (v : Nat) (h : v < 8), (t.ports[p.val]).credits[v] = if v = fld pfx 30 28
          then Nat.min 512 ((s.ports[p.val]).credits[v] + fld pfx 27 16) else (s.ports[p.val]).credits[v]) ∧
    (∀ (crcOk : Bool) (bad : Nat), crcOk = false ∨ bad ≠ 0 ∨
        (if frTyp f = 0 then wrapAdd (BitVec.ofNat 16 (fld pfx 63 48)) 1 else BitVec.ofNat 16 (fld pfx 63 48)) ≠
          (s.ports[p.val]).expect →
      ∃ t, exec (.linkUnit p pfx f crcOk bad n) s = .next t ∧ t = { s with ports := t.ports, out := t.out } ∧
        (t.ports[p.val]).expect = (s.ports[p.val]).expect ∧ (t.ports[p.val]).rx = (s.ports[p.val]).rx ∧
        (t.ports[p.val]).retry = (s.ports[p.val]).retry ∧ (t.ports[p.val]).queue = (s.ports[p.val]).queue ∧
        (t.ports[p.val]).credits = (s.ports[p.val]).credits ∧ (t.ports[p.val]).nakSent = true ∧
        (t.ports[p.val]).fecUncorrectable = satAdd (s.ports[p.val]).fecUncorrectable bad ∧
        if (s.ports[p.val]).nakSent = true then (t.ports[p.val]).naks = (s.ports[p.val]).naks ∧ t.out = s.out
        else (t.ports[p.val]).naks = satAdd (s.ports[p.val]).naks 1 ∧ ∃ w, t.out =
          .linkUnit p w idleFrame (unitCrc w idleFrame) :: s.out ∧ bitAt w 31 = true ∧
            fld w 47 32 = (s.ports[p.val]).expect.toNat)

/-- R307, R308, R320, R338: without progress every unacknowledged unit is sent again with its number and has been
replayed once more, and where one has been replayed REPLAY_LIMIT times the port goes down; a port that goes down hands
its unacknowledged units in their order, and then its waiting frames, to the lowest port of the same peer that is up,
where the units leave before any frame that waits, or keeps them where there is none; a training that succeeds opens the
port with its numbers afresh, one that fails is tried again, and the third failure in a row takes it out of service. Of
a port in another state each of the three has no effect. The model's choices that it rests on: log entries 17 and 182.
-/
def Obligations.PortsReplayAndTrain : Prop :=
  ∀ (p : PortId) (s : State),
    ((s.ports[p.val]).state = 2 → (s.ports[p.val]).retry ≠ [] →
      ((∀ u ∈ (s.ports[p.val]).retry, u.replays < fld (s.ports[p.val]).cfg 7 0) →
        ∃ t, exec (.retryTimeout p) s = .next t ∧ t = { s with ports := t.ports, out := t.out } ∧
          (t.ports[p.val]).retry = ((s.ports[p.val]).retry.map fun u => { u with replays := u.replays + 1 }) ∧
          (t.ports[p.val]).replayed = wrapAdd (s.ports[p.val]).replayed (s.ports[p.val]).retry.length ∧
          (t.ports[p.val]).queue = (s.ports[p.val]).queue ∧ (t.ports[p.val]).lseq = (s.ports[p.val]).lseq ∧
          ∀ u ∈ (s.ports[p.val]).retry, ∃ w, Emission.linkUnit p w u.frame (unitCrc w u.frame) ∈ t.out ∧
            fld w 63 48 = u.seqNo.toNat) ∧
      (∀ u ∈ (s.ports[p.val]).retry, fld (s.ports[p.val]).cfg 7 0 ≤ u.replays →
        ∃ t, exec (.retryTimeout p) s = .next t ∧ exec (.portDown p) s = .next t ∧ (t.ports[p.val]).state = 0)) ∧
    ((s.ports[p.val]).state ≠ 2 ∨ (s.ports[p.val]).retry = [] → exec (.retryTimeout p) s = .next s) ∧
    ((s.ports[p.val]).state ≠ 3 →
      ∃ t, exec (.portDown p) s = .next t ∧ LinkOnly s t ∧ (t.ports[p.val]).state = 0 ∧
        (t.ports[p.val]).retry = [] ∧
        ∀ e, (s.peersSec.bind fun q => q.entries.find? fun e => bitAt e.ports p.val) = some e →
          ((∀ q : PortId, q ≠ p → bitAt e.ports q.val = true → (s.ports[q.val]).state ≠ 2) →
            (t.ports[p.val]).moved = (s.ports[p.val]).retry.map (·.frame) ++ (s.ports[p.val]).moved ∧
            (t.ports[p.val]).queue = (s.ports[p.val]).queue) ∧
          (∀ q : PortId, q ≠ p → bitAt e.ports q.val = true → (s.ports[q.val]).state = 2 →
            (∀ r : PortId, r ≠ p → r.val < q.val → bitAt e.ports r.val = true → (s.ports[r.val]).state ≠ 2) →
            (t.ports[p.val]).moved = [] ∧ (t.ports[p.val]).queue = [] ∧
            (s.ports[q.val]).retry.map (·.frame) ++ (s.ports[q.val]).moved ++ (s.ports[p.val]).retry.map (·.frame) ++
              (s.ports[p.val]).moved <+: (t.ports[q.val]).retry.map (·.frame) ++ (t.ports[q.val]).moved ∧
            ∀ f ∈ (s.ports[p.val]).queue, Held t q f)) ∧
    ((s.ports[p.val]).state = 3 → exec (.portDown p) s = .next s) ∧
    (∀ (far : BitVec 12) (rx : Readings),
      ((s.ports[p.val]).state < 2 → s.glb.ref156 = true →
        (∃ t, exec (.portTrainingDone p true far rx) s = .next t ∧ (t.ports[p.val]).state = 2 ∧
          (t.ports[p.val]).farModule = far ∧ (t.ports[p.val]).failed = 0 ∧ (t.ports[p.val]).expect = 0 ∧
          (t.ports[p.val]).retrains = satAdd (s.ports[p.val]).retrains 1 ∧ t.portOk p.val = true ∧ t.job = s.job ∧
          t.vaults = s.vaults ∧ t.fars = s.fars ∧ ∀ e : EngineId, Told s.eng[e.val] t.eng[e.val]) ∧
        (∃ t, exec (.portTrainingDone p false far rx) s = .next t ∧ t.job = s.job ∧ t.eng = s.eng ∧
          t.vaults = s.vaults ∧ t.fars = s.fars ∧ (t.ports[p.val]).retrains = satAdd (s.ports[p.val]).retrains 1 ∧
          if (s.ports[p.val]).failed + 1 < 3
          then (t.ports[p.val]).failed = (s.ports[p.val]).failed + 1 ∧ (t.ports[p.val]).state = 1 ∧
            t.glb.portAvail = s.glb.portAvail
          else (t.ports[p.val]).state = 3 ∧ t.portOk p.val = false)) ∧
      ((s.ports[p.val]).state = 2 ∨ (s.ports[p.val]).state = 3 ∨ s.glb.ref156 = false →
        ∀ good, exec (.portTrainingDone p good far rx) s = .next s))

/-- R16, R194, R197, R198, R200, R201, R206, R315, R316: the first block of a message on its IN end, held by a credit,
takes the lowest free ring slot and store place and is written there once its hallmark holds; without a credit it is
discarded and counted. The last block written completes the message, when every earlier one of the till is complete, and
it is then acknowledged. At an OUT end a grant adds credits, an announced size that differs puts the end into FAULT, an
acknowledgement settles the message, which on an EXIT till takes its micro-batch out of the float, and a resend sends
the block again from its source. Blocks of a peer are stated in the clear. What a peer that is not admitted sends is
dropped and counted, what no end of the till joins goes nowhere, and a block for an engine out of service is not served.
The model's choices that it rests on: log entries 143 and 181. -/
def Obligations.TillEndsExchangeMessages : Prop :=
  ∀ (e : EngineId) (t : TillId) (c : TillEnd) (s : State), s.tillCfg e.val t.val = some c →
    (∀ b : TillBlk,
      (s.engOk e.val = false → exec (.tillData e t b) s = .next (s.settle.emit (.notServed (islEngine e) .stateConflict))) ∧
      (s.engOk e.val = true → c.isOut = false → (s.till e t.val).state = 1 →
        (∀ i v, b.path = .envis i v → s.admitted i = false → exec (.tillData e t b) s = .next (s.settle.dropUnadmitted i)) ∧
        ((∀ i v, b.path = .envis i v → s.admitted i = true) → s.joins c b.path b.plane = false →
          exec (.tillData e t b) s = .next s.settle))) ∧
    (∀ b : TillBlk, c.isOut = false → s.joins c b.path b.plane = true →
      (c.path = .envis → s.admitted c.link = true ∧ ∃ x, s.peerEnt c.link = some x ∧ (s.sealedJob = false ∨ x.storage = true)) →
      s.engOk e.val = true → (s.till e t.val).state = 1 →
      (s.till e t.val).msg (BitVec.ofNat 32 b.side.index) = none →
      seqAfter (BitVec.ofNat 32 b.side.index) (s.till e t.val).nextIn < 2147483648 →
      ((s.till e t.val).dropping ≠ some (BitVec.ofNat 32 b.side.index) ∨ b.side.block = 0) →
      ((s.till e t.val).o = 0 →
        ∃ u, exec (.tillData e t b) s = .next u ∧ (u.till e t.val).cOver = satAdd (s.till e t.val).cOver 1 ∧
          (u.till e t.val).dropping = some (BitVec.ofNat 32 b.side.index) ∧ (u.till e t.val).msgs = (s.till e t.val).msgs ∧
          (u.eng[e.val]).store = (s.eng[e.val]).store ∧ u.vaults = s.vaults ∧ u.fars = s.fars ∧ u.job = s.job) ∧
      ((s.till e t.val).o ≠ 0 → hallmarkOk b.side b.data = true →
        (∀ j, (s.till e t.val).freePlace c = some j → b.storeFail = none ∧ b.data.length = 4096 ∧ s.Sound ∧
          s.ctlOk (storePage e c j b.side.block).1 = true ∧
          (storePage e c j b.side.block).2 < ctlBlocks (storePage e c j b.side.block).1 ∧
          s.coverKey (storePage e c j b.side.block).1 (storePage e c j b.side.block).2 = none ∧
          ((s.ctl (storePage e c j b.side.block).1).merge.length < 64 ∨
            (s.ctl (storePage e c j b.side.block).1).bad = [] ∧ s.tagArea (storePage e c j b.side.block).1 = none)) →
        ∃ u m, exec (.tillData e t b) s = .next u ∧ (u.till e t.val).o = (s.till e t.val).o - 1 ∧
          (u.till e t.val).r = (s.till e t.val).r + 1 ∧
          (u.till e t.val).msg (BitVec.ofNat 32 b.side.index) = some m ∧ m.slot = (s.till e t.val).freeSlot c ∧
          m.place = (s.till e t.val).freePlace c ∧ m.origin = b.side.step ∧ m.mb = b.side.mb ∧ m.blocks = [b.side.block] ∧
          m.complete = false ∧ m.claimed = false ∧
          (u.eng[e.val]).store = (match (s.till e t.val).freeSlot c with
            | some k => memWrite (s.eng[e.val]).store (c.addr + k * c.msgBytes + b.side.block * 4096) b.data
            | none => (s.eng[e.val]).store) ∧
          (∀ g : EngineId, g ≠ e → Told s.eng[g.val] u.eng[g.val]) ∧ u.job = s.job ∧
          (match (s.till e t.val).freePlace c with
            | some j => u.readPage (storePage e c j b.side.block).1 (storePage e c j b.side.block).2 = (b.data, b.side)
            | none => u.vaults = s.vaults ∧ u.fars = s.fars))) ∧
    (∀ (n : W32) (m : MsgIn), c.isOut = false → (s.till e t.val).msg n = some m → c.blocks ≤ m.blocks.length →
      ((∀ y ∈ (s.till e t.val).msgs, y.complete = true ∨ y.seqNo = n ∨ seqAfter y.seqNo n < 2147483648) →
        ∃ u, exec (.tillMessageComplete e t n) s = .next u ∧ (u.till e t.val).msg n = some { m with complete := true } ∧
          (m.complete = false → (u.till e t.val).cMsgs = wrapAdd (s.till e t.val).cMsgs 1) ∧
          (c.path = .onModule → Emission.tillAck c.farEngine c.farTill n ∈ u.out) ∧
          (∀ g : EngineId, g ≠ e → Told s.eng[g.val] u.eng[g.val]) ∧
          (u.eng[e.val]).store = (s.eng[e.val]).store ∧ u.vaults = s.vaults ∧ u.fars = s.fars ∧ u.job = s.job) ∧
      ((∃ y ∈ (s.till e t.val).msgs, y.complete = false ∧ y.seqNo ≠ n ∧ 2147483648 ≤ seqAfter y.seqNo n) →
        exec (.tillMessageComplete e t n) s = .next s)) ∧
    (∀ (f : CtrlFrom) (i : Nat) (v : Fin 8), f.path = .envis i v → s.admitted i = false → ∀ (k : W16) (bytes n : W32),
      (c.isOut = true → (s.till e t.val).state = 1 → exec (.credit e t f k bytes) s = .next (s.dropUnadmitted i)) ∧
      exec (.msgCtrlAck (.till e t n f)) s = .next (s.dropUnadmitted i) ∧
      exec (.msgCtrlResend (.till e t n f) k) s = .next (s.dropUnadmitted i)) ∧
    (∀ f : CtrlFrom, (∀ i v, f.path = .envis i v → s.admitted i = true) → s.joins c f.path f.plane = false →
      ∀ (k : W16) (bytes n : W32), exec (.credit e t f k bytes) s = .next s ∧ exec (.msgCtrlAck (.till e t n f)) s = .next s ∧
        exec (.msgCtrlResend (.till e t n f) k) s = .next s) ∧
    (∀ f : CtrlFrom, (∀ i v, f.path = .envis i v → s.admitted i = true) → s.joins c f.path f.plane = true →
      (∀ (k : W16) (bytes : W32), c.isOut = true → (s.till e t.val).state = 1 →
        ∃ u, exec (.credit e t f k bytes) s = .next u ∧ OnlyEngine s u e ∧
          if bytes = 0 ∨ bytes.toNat = c.msgBytes
          then (u.till e t.val).credits = (s.till e t.val).credits + k.toNat ∧ (u.till e t.val).state = 1
          else (u.till e t.val).credits = (s.till e t.val).credits ∧ (u.till e t.val).state = 2) ∧
      (∀ (n : W32) (o : MsgOut), ((s.till e t.val).outs.find? fun o => o.seqNo == n && !o.acked) = some o →
        ∃ u, exec (.msgCtrlAck (.till e t n f)) s = .next u ∧ u.vaults = s.vaults ∧ u.fars = s.fars ∧ u.job = s.job ∧
          (∀ y ∈ (u.till e t.val).outs, y.seqNo = n → y.acked = true) ∧
          (c.exit = false → OnlyEngine s u e ∧ (u.eng[e.val]).float = (s.eng[e.val]).float) ∧
          (c.exit = true → ∀ y, ((s.eng[e.val]).float.find? fun y => y.exiting && y.mb == o.mb && y.origin == o.origin) = some y →
            (u.eng[e.val]).float = (s.eng[e.val]).float.erase y)) ∧
      (∀ (n : W32) (k : W16) (o : MsgOut), ((s.till e t.val).outs.find? fun o => o.seqNo == n && !o.acked) = some o →
        c.isOut = true → k.toNat < c.blocks → c.path = .onModule →
        ∃ u b, exec (.msgCtrlResend (.till e t n f) k) s = .next u ∧
          u.out = .tillBlock (Fin.ofNat 4 c.till) c.farEngine c.farTill b :: s.out ∧
          b.data = memRead (s.eng[e.val]).store (c.addr + k.toNat * 4096) 4096 ∧ hallmarkOk b.side b.data = true ∧
          b.side.index = n.toNat ∧ b.side.block = k.toNat % 2048 ∧ b.side.step = o.origin ∧ b.side.mb = o.mb ∧
          (u.till e t.val).cResends = satAdd (s.till e t.val).cResends 1 ∧
          u = { s with out := u.out, eng := s.eng.set e.val u.eng[e.val] } ∧ (u.eng[e.val]).store = (s.eng[e.val]).store))


/-! ### Objects, clearing, peers -/

/-- R300, R318, R322, R326, R327: a block or request of a peer that is not admitted is dropped and counted. Unsolicited
data of an admitted peer is written inside its window once its hallmark holds, and acknowledged; outside the window
nothing is written, and the block is counted and refused with DENIED, under the engine and the channel of its header. A
read inside the window is answered with the blocks of the range, one outside it is refused, as is one of a storage peer
in a sealed job. A refusal halts the slip that waits for that peer, with the status of the refusal, once nothing that it
has sent is open; an acknowledgement of its next block moves its PROGRESS. The model's choices that it rests on: log
entry 163. -/
def Obligations.WindowsBoundPeerAccess : Prop :=
  ∀ s : State,
    (∀ i, s.admitted i = false →
      (∀ b : ObjBlk, b.peer = i → exec (.objData b) s = .next (s.settle.dropUnadmitted i)) ∧
      (∀ p, s.route i 4096 = some p → s.dropUnadmitted i = { s with ports := (s.dropUnadmitted i).ports } ∧
        ((s.dropUnadmitted i).ports[p.val]).unadmitted = satAdd (s.ports[p.val]).unadmitted 1) ∧
      (∀ q : ReqFrame, q.peer = i →
        exec (.requestFetch q) s = .next (s.dropUnadmitted i) ∧ exec (.requestRead q) s = .next (s.dropUnadmitted i) ∧
        exec (.requestRefuse q) s = .next (s.dropUnadmitted i))) ∧
    (∀ (b : ObjBlk) (e : EngineId) (ch : ChanId) (off : Nat) (x : PeerEnt) (c : CtlId) (a : Nat), b.kind = .window e ch off →
      s.admitted b.peer = true →
      s.peerEnt b.peer = some x → s.sealedJob = false ∨ x.storage = true → placeOf 0 x.windowBase = .dram c a →
      s.ctlOk c = true → s.Sound → a + x.windowLen ≤ ctlBytes c →
      (off + 4096 ≤ x.windowLen → hallmarkOk b.side b.data = true → b.data.length = 4096 →
        s.coverKey c ((a + off) / 4096) = none →
        (s.ctl c).merge.length < 64 ∨ (s.ctl c).bad = [] ∧ s.tagArea c = none →
        ∃ t, exec (.objData b) s = .next t ∧ t.readPage c ((a + off) / 4096) = (b.data, b.side) ∧ t.job = s.job ∧
          (∀ e : EngineId, Told s.eng[e.val] t.eng[e.val]) ∧ (∀ c' : CtlId, c' ≠ c → t.ctl c' = s.ctl c') ∧
          ∀ p, s.route b.peer 4096 = some p → ∃ f, Held t p f ∧ frTyp f = 4 ∧ frDst f = x.module ∧
            f.payload[0]? = some 1) ∧
      (off + 4096 ≤ x.windowLen → hallmarkOk b.side b.data = false →
        ∃ t, exec (.objData b) s = .next t ∧ t.vaults = s.vaults ∧ t.fars = s.fars ∧ t.job = s.job ∧
          ∀ p, s.route b.peer 4096 = some p → ∃ f, Held t p f ∧ RefuseFrame f x.module .hallmarkFail ∧
            slice f.payload 2 2 = [BitVec.ofNat 8 e.val, BitVec.ofNat 8 ch.val]) ∧
      (x.windowLen < off + 4096 →
        ∃ t, exec (.objData b) s = .next t ∧ LinkOnly s.settle t ∧
          ∀ p, s.route b.peer 4096 = some p → (t.ports[p.val]).window = satAdd (s.ports[p.val]).window 1 ∧
            ∃ f, Held t p f ∧ RefuseFrame f x.module .denied ∧
              slice f.payload 2 2 = [BitVec.ofNat 8 e.val, BitVec.ofNat 8 ch.val])) ∧
    (∀ (q : ReqFrame) (x : PeerEnt) (c : CtlId) (a : Nat), s.admitted q.peer = true → s.peerEnt q.peer = some x →
      placeOf 0 x.windowBase = .dram c a → a + x.windowLen ≤ ctlBytes c → s.ctlOk c = true →
      (x.windowLen < q.object.toNat + q.count.toNat * 4096 →
        ∃ t, exec (.requestRead q) s = .next t ∧ LinkOnly s t ∧
          ∀ p, s.route q.peer 4096 = some p → ∃ f, Held t p f ∧ RefuseFrame f x.module .denied) ∧
      (q.object.toNat + q.count.toNat * 4096 ≤ x.windowLen → s.sealedJob = true → x.storage = true →
        ∃ t, exec (.requestRead q) s = .next t ∧ LinkOnly s t ∧
          ∀ p, s.route q.peer 4096 = some p → ∃ f, Held t p f ∧ RefuseFrame f x.module .sealed) ∧
      (q.object.toNat + q.count.toNat * 4096 ≤ x.windowLen → s.sealedJob = false → (s.ctl c).bad = [] →
        ∃ t, exec (.requestRead q) s = .next t ∧ t.vaults = s.vaults ∧ t.fars = s.fars ∧
          t.job = s.job ∧ (∀ e : EngineId, Told s.eng[e.val] t.eng[e.val]) ∧
          ∀ p, s.route q.peer 4096 = some p → ∀ k j : Nat, k < q.count.toNat → j < 16 →
            ∃ f, Held t p f ∧ frTyp f = 2 ∧ frDst f = x.module ∧
              f.payload = slice (s.readPage c ((a + q.object.toNat) / 4096 + k)).1 (j * 256) 256)) ∧
    (∀ (q : ReqFrame) (x : Slip) (n : Nat) (c : ChanSt), s.admitted q.peer = true → 6 ≤ q.chan.val →
      c = s.chan q.engine q.chan → c.slip = some x → c.busy = true → c.halting = none →
      (placeOf q.engine x.w2).atPeer q.peer = true ∨ (placeOf q.engine x.w1).atPeer q.peer = true →
      n = (if (placeOf q.engine x.w2).atPeer q.peer = true then c.openBlks - 1 else c.openBlks) →
      ∃ t, exec (.requestRefuse q) s = .next t ∧ (t.chan q.engine q.chan).slip = some x ∧
        (n = 0 → s.owes q.engine q.chan (placeOf q.engine x.w2) = false →
          s.owes q.engine q.chan (placeOf q.engine x.w4) = false → s.placePinned (placeOf q.engine c.cur) 64 = false →
          (t.chan q.engine q.chan).state = .halted ∧ (t.chan q.engine q.chan).haltStatus = q.status.code ∧
          (t.chan q.engine q.chan).halts = satAdd c.halts 1) ∧
        (n ≠ 0 → OnlyEngine s t q.engine ∧ (t.chan q.engine q.chan).state = c.state ∧ (t.chan q.engine q.chan).openBlks = n ∧
          ∃ y, (t.chan q.engine q.chan).halting = some (q.status, y))) ∧
    (∀ (i : Nat) (block : W32), s.admitted i = false →
      exec (.msgCtrlAck (.slip i block)) s = .next (s.dropUnadmitted i) ∧
      exec (.msgCtrlAck (.mirror i 0)) s = .next (s.dropUnadmitted i)) ∧
    (∀ (i : Nat) (block : W32) (e : EngineId) (ch : ChanId) (off : Nat), s.admitted i = true →
      s.slipOf i (block.toNat * 4096) = some (e, ch, off) → (s.chan e ch).halting = none →
      ∃ t, exec (.msgCtrlAck (.slip i block)) s = .next t ∧ OnlyEngine s t e ∧
        (t.chan e ch).openBlks = (s.chan e ch).openBlks - 1 ∧ (t.chan e ch).slip = (s.chan e ch).slip ∧
        (t.chan e ch).progress = (if off = (s.chan e ch).progress.toNat then BitVec.ofNat 32 (off + 4096)
          else (s.chan e ch).progress) ∧ (t.eng[e.val]).store = (s.eng[e.val]).store)

/-- R217, R223, R252, R256, R432: a fetch of a version that the owner holds and can read is served page by page, and
nothing of its engine changes but the SERVE counts and what it has done in the step; one that it does not hold is
counted and refused. A refused fetch waits, and its retry asks the owner, once admitted, again, the cycles that it
waited for a ledger entry in VERSION_WAIT. A mirror answers a commit once every page of the version is there and reads,
and its slot is then valid; the acknowledgement ends the owner's update, mirrored where it is OK. The model's choices
that it rests on: log entries 34, 36, 75. -/
def Obligations.VersionsAreFetchedAndMirrored : Prop :=
  ∀ (q : ReqFrame) (s : State) (x : ShardEnt) (e : EngineId), s.admitted q.peer = true →
    s.shardEnt (BitVec.ofNat 24 q.object.toNat) = some x → e = Fin.ofNat 128 x.engine →
    (∀ y, ((s.eng[e.val].versions x.shard).find? fun y => y.2.version == q.version) = some y → y.2.state ≠ .building →
      (∀ c : CtlId, (s.ctl c).bad = []) → s.ctlOk (s.poolLoc e 0).1 = true →
      ∃ t, exec (.requestFetch q) s = .next t ∧ (∀ g : EngineId, g ≠ e → Told s.eng[g.val] t.eng[g.val]) ∧
        Told { s.eng[e.val] with int := { s.eng[e.val].int with deeds := (t.eng[e.val]).int.deeds } } (t.eng[e.val]) ∧
        t.vaults = s.vaults ∧ t.fars = s.fars ∧ t.job = s.job ∧
        (s.sealedJob = false → ∀ p m, s.route q.peer 4096 = some p → s.peerEnt q.peer = some m →
          ∀ w ∈ s.servedPages e q y.2, ∀ j < 16, ∃ f, Held t p f ∧ frTyp f = 2 ∧ frDst f = m.module ∧
            f.payload = slice (s.readPage (s.poolLoc e w.2).1 (s.poolLoc e w.2).2).1 (j * 256) 256)) ∧
    (∀ m : PeerEnt, ((s.eng[e.val].versions x.shard).find? fun y => y.2.version == q.version) = none →
      s.restoreTime = false → s.peerEnt q.peer = some m →
      ∃ t, exec (.requestFetch q) s = .next t ∧ t.vaults = s.vaults ∧ t.fars = s.fars ∧ t.job = s.job ∧
        (∀ g : EngineId, g ≠ e → Told s.eng[g.val] t.eng[g.val]) ∧
        (t.eng[e.val]).led.refusals = satAdd (s.eng[e.val]).led.refusals 1 ∧
        ∀ p, s.route q.peer 4096 = some p → ∃ f, Held t p f ∧ RefuseFrame f m.module .notResident) ∧
    (∀ f, q.chan = 4 → q.engine = e → ((s.eng[e.val]).led.fetches.find? fun f => f.shard == x.shard && f.req == q.req) = some f →
      s.isRepair e f = false → f.restore = false → q.status ≠ .notResident →
      ∃ t, exec (.requestRefuse q) s = .next t ∧ OnlyEngine s t e ∧
        ∀ y ∈ (t.eng[e.val]).led.fetches, y.shard = x.shard → y.req = q.req → y.waiting = true) ∧
    (∀ f i p m, ((s.eng[e.val]).led.fetches.find? fun f => f.shard == x.shard && f.waiting) = some f →
      s.peerOf (s.ownerOf x) = some i → s.admitted i = true → s.route i 4096 = some p → s.peerEnt i = some m →
      ∀ n : Nat, ∃ t g, exec (.fetchRetry e x.shard n) s = .next t ∧ t.job = s.job ∧ t.vaults = s.vaults ∧ t.fars = s.fars ∧
        (∀ g : EngineId, g ≠ e → Told s.eng[g.val] t.eng[g.val]) ∧
        (t.eng[e.val]).versionWait =
          (if f.held = true then satAdd (s.eng[e.val]).versionWait n else (s.eng[e.val]).versionWait) ∧
        (∀ y ∈ (t.eng[e.val]).led.fetches, y.shard = x.shard → y.req = f.req → y.waiting = false) ∧
        Held t p g ∧ frTyp g = 5 ∧ frDst g = m.module ∧ g.payload.take 2 = [1, f.req]) ∧
    (∀ f i, ((s.eng[e.val]).led.fetches.find? fun f => f.shard == x.shard && f.waiting) = some f →
      s.peerOf (s.ownerOf x) = some i → s.admitted i = false → (s.peer i).state ≠ 4 →
      ∀ n : Nat, ∃ t, exec (.fetchRetry e x.shard n) s = .next t ∧ OnlyEngine s t e ∧
        ∀ y ∈ (t.eng[e.val]).led.fetches, y.shard = x.shard → y.req = f.req → y.waiting = true) ∧
    (x.mirror = s.ownModule →
      ((s.mirrorGot x.shard q.version).length ≠ s.stateLen x →
        ∃ t, exec (.requestCommit q) s = .next t ∧ t = { s with ckpt := t.ckpt } ∧
          t.ckpt.mirrorDue = (q.peer, x.shard, q.version) :: s.ckpt.mirrorDue ∧
          t.ckpt.mirrorSlots = s.ckpt.mirrorSlots) ∧
      ((s.mirrorGot x.shard q.version).length = s.stateLen x → x.tier = 2 ∨ s.ctlOk (pageOf e x.state).1 = true →
        (∃ l, (s.slotBytes x (slotOfVersion q.version).val).1 = .ok l) →
        ∃ t, exec (.requestCommit q) s = .next t ∧ (x.shard, slotOfVersion q.version, q.version) ∈ t.ckpt.mirrorSlots ∧
          (∀ y ∈ t.ckpt.mirrorDue, y.2.1 = x.shard → y.2.2 ≠ q.version) ∧ t.job = s.job ∧
          (∀ g : EngineId, Told s.eng[g.val] t.eng[g.val]) ∧
          ∀ p m, s.route q.peer 4096 = some p → s.peerEnt q.peer = some m →
            ∃ f, Held t p f ∧ frTyp f = 5 ∧ frDst f = m.module ∧ f.payload[0]? = some 5 ∧ f.payload[26]? = some 0)) ∧
    (((s.eng[e.val]).led.upd.any fun i => i.mirroring.any fun y => y.1 == x.shard) = true →
      ∃ t, exec (.commitAck q) s = .next t ∧ OtherEngines s t e ∧ t.job = s.job ∧ t.vaults = s.vaults ∧ t.fars = s.fars ∧
        (t.eng[e.val]).led.updated = wrapAdd (s.eng[e.val]).led.updated 1 ∧ (t.eng[e.val]).led.updLast = q.status.code ∧
        (x.shard ∈ t.ckpt.unmirroredShards ↔ q.status ≠ .ok))

/-- R322, R328 to R335, R373, R438, R439: a band of a child in the tree of its step that passes its hallmark, or that is
ZERO, goes into the buffer, a ZERO one without a page, and no home changes before the contribution is whole; a band that
fails is asked for again twice. What comes from a node that is no child is dropped, and counted once. A window closes
for the first shard that meets the condition, and closes for good; its sum is ready once every addition has been
answered, the parent of a non-owner is admitted and every band reads. Clearing then completes with OK at the owner, at
another node once the parent has acknowledged every band, which is counted, and under CLEAR_MODE 1 once the sum has gone
down to every child, or with PEER_LOST where the parent is lost. The model's choices that it rests on: log entries 28,
108, 176, 177, 178, 180. -/
def Obligations.GradientsAreCleared : Prop :=
  ∀ s : State,
    (∀ (b : ClearBlk) (x : ShardEnt) (h : HomeRec) (k : Nat) (u : Fin 2) (g : Nat × StepNo × BitVec 24),
      s.shardEnt b.shard = some x → s.bandAt b.engine b.band = some (h, k) → u = clrUnit (Fin.ofNat 128 x.engine) →
      g = (b.peer, b.step, x.shard) →
      (s.admitted b.peer = false → exec (.clearData b) s = .next (s.settle.dropUnadmitted b.peer)) ∧
      (s.admitted b.peer = true → b.down = false → ((s.treeFor x b.step).kids.find? fun q => q.2 == b.peer) = none →
        ∃ t, exec (.clearData b) s = .next t ∧
          t = { s with env := t.env, int := t.int, glb := t.glb, out := t.out, ports := t.ports } ∧
          ((s.env.clr[u.val]).gone.contains g = false →
            (t.env.clr[u.val]).contribs = ((s.env.clr[u.val]).contribs.filter fun c => !(c.isOf b.peer b.step x.shard)) ∧
            (t.env.clr[u.val]).dropped = satAdd (s.env.clr[u.val]).dropped 1 ∧
            (t.env.clr[u.val]).gone = g :: (s.env.clr[u.val]).gone ∧
            (s.int.mbox.length < 4096 → ∃ m, t.int.mbox = s.int.mbox ++ [m] ∧ m.status = Status.staleDropped.code)) ∧
          ((s.env.clr[u.val]).gone.contains g = true → s.sealedJob = false → t = s.settle)) ∧
      (∀ kid : Nat × Nat, s.admitted b.peer = true → b.down = false →
        ((s.treeFor x b.step).kids.find? fun q => q.2 == b.peer) = some kid → s.bandStale u x b = false → s.sealedJob = false →
        (∀ pg : Option Nat, (b.zero = true ∧ pg = none) ∨ (b.zero = false ∧ hallmarkOk b.side b.data = true ∧
            ∃ p, pg = some p ∧ (s.env.clr[u.val]).freePage = some p ∧ s.ctlOk (s.bufPage u p).1 = true ∧
              ((s.ctl (s.bufPage u p).1).merge.length < 64 ∨
                (s.ctl (s.bufPage u p).1).bad = [] ∧ s.tagArea (s.bufPage u p).1 = none)) →
          (∀ c ∈ (s.env.clr[u.val]).contribs, c.isOf b.peer b.step b.shard = true →
            (∀ y ∈ c.bands, y.1 ≠ bandKey h k) ∧ c.complete = false ∧ c.bands.length + 1 < (s.shardBands x).length) →
          1 < (s.shardBands x).length →
          ∃ t c, exec (.clearData b) s = .next t ∧ c ∈ (t.env.clr[u.val]).contribs ∧
            c.isOf b.peer b.step b.shard = true ∧ c.complete = false ∧ (bandKey h k, pg) ∈ c.bands ∧
            (∀ g : EngineId, Told s.eng[g.val] t.eng[g.val]) ∧ t.job = s.job ∧
            (pg = none → t.vaults = s.vaults ∧ t.fars = s.fars) ∧
            (∀ p, pg = some p → (∀ c : CtlId, c ≠ (s.bufPage u p).1 → t.ctl c = s.ctl c) ∧
              (s.Sound → b.data.length = 4096 → (s.bufPage u p).2 < ctlBlocks (s.bufPage u p).1 →
                s.coverKey (s.bufPage u p).1 (s.bufPage u p).2 = none →
                t.readPage (s.bufPage u p).1 (s.bufPage u p).2 = (b.data, b.side)))) ∧
        (b.zero = false → hallmarkOk b.side b.data = false →
          lookupD (s.env.clr[u.val]).fails (b.peer, x.shard, b.band) 0 < 2 →
          ∃ t, exec (.clearData b) s = .next t ∧ (t.env.clr[u.val]).contribs = (s.env.clr[u.val]).contribs ∧
            bitAt t.int.errSummary errHallmark = true ∧ (∀ g : EngineId, Told s.eng[g.val] t.eng[g.val]) ∧
            t.vaults = s.vaults ∧ t.fars = s.fars ∧ t.job = s.job ∧ ∀ p m, s.route b.peer 4096 = some p → s.peerEnt b.peer = some m →
              ∃ f, Held t p f ∧ frTyp f = 4 ∧ frDst f = m.module ∧ f.payload[0]? = some 2))) ∧
    (∀ (u : Fin 2) (why : WindowClose),
      (∀ r x, ((s.env.clr[u.val]).shards.find? fun r => s.closes r why) = some r → s.shardEnt r.shard = some x →
        ∃ t y, exec (.clearWindowClose u why) s = .next t ∧ (t.env.clr[u.val]).record s.curStep r.shard = some y ∧
          y.closed = true ∧ t.job = s.job ∧
          ((∀ p, (s.clrTree x).parent = some p → s.admitted p = true ∨ (s.peer p).state = 4) →
            (∀ c : CtlId, (s.ctl c).bad = [] ∧ s.ctlOk c = true) → t.addsDone x = true → y.added = true) ∧
          ((∀ c ∈ (s.env.clr[u.val]).carries, (s.env.clr[u.val]).gone.contains (c.peer, c.step, c.shard) = false) →
            ∀ c ∈ (t.env.clr[u.val]).carries, c.shard = r.shard → c.step = s.curStep)) ∧
      ((∀ r ∈ (s.env.clr[u.val]).shards, s.closes r why = false) → exec (.clearWindowClose u why) s = .next s.settle)) ∧
    (∀ (x : ShardEnt) (u : Fin 2) (r : ClrShard), s.shardEnt x.shard = some x →
      u = clrUnit (Fin.ofNat 128 x.engine) → (s.env.clr[u.val]).record s.curStep x.shard = some r → r.handed = true →
      r.closed = true → r.added = true → r.complete = false →
      (∀ p, (s.clrTree x).parent = some p → (s.peer p).state = 4 →
        ∃ t y, exec (.clearingComplete u x.shard) s = .next t ∧ (t.env.clr[u.val]).record s.curStep x.shard = some y ∧
          y.complete = true ∧ (t.env.clr[u.val]).lastStatus = Status.peerLost.code ∧ t = { s with env := t.env }) ∧
      (∀ p, (s.clrTree x).parent = some p → (s.peer p).state ≠ 4 → r.acked < (s.shardBands x).length →
        exec (.clearingComplete u x.shard) s = .next s) ∧
      (∀ p, (s.clrTree x).parent = some p → (s.peer p).state ≠ 4 → (s.shardBands x).length ≤ r.acked → s.gathers = true →
        r.down = false →
        ∃ t y, exec (.clearingComplete u x.shard) s = .next t ∧ (t.env.clr[u.val]).record s.curStep x.shard = some y ∧
          y = { r with phase := 4 } ∧ t = { s with env := t.env }) ∧
      ((∀ p, (s.clrTree x).parent = some p → (s.peer p).state ≠ 4 ∧ (s.shardBands x).length ≤ r.acked ∧
          (s.gathers = true → r.down = true)) →
        ((s.clrTree x).parent = none → ∀ h ∈ s.shardHomes x, (s.eng[h.eng.val]).arr.homeFlight = []) →
        (s.gathers = true → (∀ c : CtlId, (s.ctl c).bad = [] ∧ s.ctlOk c = true) ∧
          ∀ q ∈ (s.clrTree x).kids, (s.peer q.2).state = 4 ∨ s.admitted q.2 = true) →
        ∃ t y, exec (.clearingComplete u x.shard) s = .next t ∧ (t.env.clr[u.val]).record s.curStep x.shard = some y ∧
          y.complete = true ∧ (t.env.clr[u.val]).lastStatus = 0 ∧ (∀ g : EngineId, Told s.eng[g.val] t.eng[g.val]) ∧
          t.vaults = s.vaults ∧ t.fars = s.fars ∧ t.job = s.job)) ∧
    (∀ (x : ShardEnt) (h : BitVec 24) (peer : Nat) (u : Fin 2), s.shardEnt h = some x →
      u = clrUnit (Fin.ofNat 128 x.engine) →
      (s.admitted peer = false → exec (.msgCtrlAck (.band peer h)) s = .next (s.dropUnadmitted peer)) ∧
      (s.admitted peer = true → (s.clrTree x).parent = some peer →
        ∃ t y, exec (.msgCtrlAck (.band peer h)) s = .next t ∧ t = { s with env := t.env } ∧
          (t.env.clr[u.val]).record s.curStep x.shard = some y ∧ ∀ r,
          (s.env.clr[u.val]).record s.curStep x.shard = some r → y = { r with acked := r.acked + 1 }))

/-- R322, R323, R324, R325: from activation every peer is asked for its report, and answers a request with its own; a
storage peer is admitted on its signed answer, a module peer on its report, the agreed secret and a confirmation that
matches, and a step that fails refuses it and loses it. New keys, once a counter of blocks has reached 2^40, take the
other epoch and keep the old receive key. A peer that leaves or stays silent is LOST, with an event. The model's choices
that it rests on: log entries 19, 72. -/
def Obligations.PeersAreAdmittedOrLost : Prop :=
  ∀ (i : Nat) (s : State) (e : PeerEnt), s.peerEnt i = some e → i < s.env.peers.length →
    ((s.peer i).state ≠ 4 → ∀ c : Instr, c = .leave i ∨ c = .peerLostTimeout i →
      ∃ t ev, exec c s = .next t ∧ (t.peer i).state = 4 ∧ i ∈ t.env.lostNow ∧ bitAt t.int.errSummary errPeerLost = true ∧
        ev ∈ t.int.raised ∧ ev.cls = .peerLost ∧ ev.peer = i ∧ (s.job.state ≠ .restoring → t.job = s.job)) ∧
    (s.admitted i = true →
      ∃ t, exec (.keepalive i) s = .next t ∧ LinkOnly s t ∧
        ∀ p, s.route i 4096 = some p → ∃ f, Held t p f ∧ frTyp f = 9 ∧ frDst f = e.module ∧ f.payload[0]? = some 1) ∧
    (s.job.locked = true → s.job.state ≠ .activating → s.job.state ≠ .releasing →
      ∃ t, exec .peerAdmit s = .next t ∧ t.job = s.job ∧ t.vaults = s.vaults ∧ t.fars = s.fars ∧
        (∀ g : EngineId, Told s.eng[g.val] t.eng[g.val]) ∧
        (if (s.peer i).state = 0 then (t.peer i).state = 1 ∧ (t.peer i).ownNonce.isSome = true ∧
            ∀ p, s.route i 4096 = some p → ∃ f, Held t p f ∧ frTyp f = 8 ∧ frDst f = e.module ∧ f.payload[0]? = some 1
         else t.peer i = { s.peer i with port := (t.peer i).port })) ∧
    (∀ n : Dig256, s.job.locked = true → (s.peer i).state < 2 →
      ∃ t, exec (.reportReq i n) s = .next t ∧ (t.peer i).peerNonce = some n ∧ t.job = s.job ∧
        t.vaults = s.vaults ∧ t.fars = s.fars ∧
        ∀ p, s.route i 4096 = some p → ∃ f, Held t p f ∧ frTyp f = 8 ∧ frDst f = e.module ∧ f.payload[0]? = some 2) ∧
    (∀ (c : Charter) (r cert : Bytes), s.job.charter = some c → (s.peer i).state = 1 → (s.peer i).reportOk = false →
      (e.storage = true →
        ∃ t, exec (.admitReport i r cert) s = .next t ∧
          (t.peer i).state = (if Config.storageVerify e.keyHash ((s.peer i).ownNonce.getD 0) r then 2 else 4)) ∧
      (e.storage = false →
        ∃ t, exec (.admitReport i r cert) s = .next t ∧
          (s.reportGood c i e r cert = true → (t.peer i).reportOk = true ∧ (t.peer i).sealPub = slice r 0x280 1568 ∧
            t.job = s.job ∧ t.vaults = s.vaults ∧ t.fars = s.fars) ∧
          (s.reportGood c i e r cert = false → (t.peer i).state = 4))) ∧
    (∀ ct : Bytes, s.sealedJob = true → (s.peer i).module.toNat ≤ s.ownModule.toNat → (s.peer i).state = 1 ∨ (s.peer i).state = 2 →
      ∃ t, exec (.kemCt i ct) s = .next t ∧ (t.peer i).secret = some (kemDecap ct) ∧
        ((s.peer i).state = 2 → (t.peer i).rekeying = true ∧ (t.peer i).keyTx = (s.peer i).keyTx ∧
          (t.peer i).keyRx = (s.peer i).keyRx) ∧ t.job = s.job ∧ t.vaults = s.vaults ∧ t.fars = s.fars) ∧
    (∀ k : Bytes, (s.peer i).state = 1 → (s.peer i).ownNonce.isSome = true → (s.peer i).peerNonce.isSome = true →
      s.sealedJob = false ∨ (s.peer i).secret.isSome = true →
      (k = s.confirmOf i → ∃ t, exec (.keyConfirm i k) s = .next t ∧ (t.peer i).confirmed = true ∧
        (t.peer i).state = (if (s.peer i).reportOk = true then 2 else 1) ∧ t.job = s.job ∧ t.vaults = s.vaults ∧
        t.fars = s.fars) ∧
      (k ≠ s.confirmOf i → ∃ t, exec (.keyConfirm i k) s = .next t ∧ (t.peer i).state = 4)) ∧
    (∀ ss, (s.peer i).state = 2 → (s.peer i).secret = some ss → (s.peer i).rekeying = true →
      ∃ t, exec (.keyConfirm i (s.confirmOf i)) s = .next t ∧ (t.peer i).epoch = !(s.peer i).epoch ∧
        (t.peer i).oldRx = (s.peer i).keyRx ∧ (t.peer i).keyTx = some (s.linkKeys i (s.linkSecret i ss)).1 ∧
        (t.peer i).keyRx = some (s.linkKeys i (s.linkSecret i ss)).2 ∧ (t.peer i).ctrTx = Vector.replicate 8 0 ∧
        (t.peer i).ctrRx = Vector.replicate 8 0 ∧ (t.peer i).ctrOld = (s.peer i).ctrRx ∧
        (t.peer i).rekeying = false ∧ t = { s with env := t.env }) ∧
    (s.sealedJob = true → (s.peer i).state = 2 → (s.peer i).rekeying = false → s.ownModule.toNat < (s.peer i).module.toNat →
      ((s.peer i).worn = false → exec (.rekey i) s = .next s) ∧ ((s.peer i).worn = true →
      ∃ t, exec (.rekey i) s = .next t ∧ (t.peer i).rekeying = true ∧ (t.peer i).secret.isSome = true ∧
        (t.peer i).keyTx = (s.peer i).keyTx ∧ (t.peer i).keyRx = (s.peer i).keyRx ∧ (t.peer i).epoch = (s.peer i).epoch ∧
        t.job = s.job ∧ (∀ g : EngineId, Told s.eng[g.val] t.eng[g.val]) ∧
        ∀ p, s.route i 4096 = some p → ∃ f, Held t p f ∧ frTyp f = 8 ∧ frDst f = e.module ∧ f.payload[0]? = some 3))


/-! ### Memory controllers -/

/-- R260, R263, R270, R271, R272, R273, R274, R278, R280, R467: an access past the controller's end stops the machine;
one to a controller out of service is answered with STATE_CONFLICT, and one of the host or the bursar to a sealed page
with SEALED. A clean read is answered with its bytes and sidebands; one with an uncorrectable codeword is recorded, the
codeword reads so until it is written again, and the read takes its requester's path. A whole block is stored with its
sideband once its hallmark holds, and not at all otherwise, and answered as the codeword of its sideband is written;
other whole codewords are stored; a narrow write waits in the merge buffer, reads back from there, and is answered once
its codeword is written. The model's choices that it rests on: log entry 133. -/
def Obligations.ControllersAnswerRequests : Prop :=
  ∀ (ctl : CtlId) (s : State),
    (∀ q : MemRead, ctlBytes ctl < q.addr + q.len → exec (.memReadRequest ctl q) s = .fault .noSuchAddress) ∧
    (∀ (q : MemWrite) (b : Option CwFault), ctlBytes ctl < q.addr + q.data.length →
      exec (.memWriteRequest ctl q) s = .fault .noSuchAddress ∧ exec (.narrowWrite ctl q b) s = .fault .noSuchAddress) ∧
    (s.ctlOk ctl = false →
      (∀ q : MemRead, q.addr + q.len ≤ ctlBytes ctl →
        exec (.memReadRequest ctl q) s = .next { s with out := .memAnswer ctl .stateConflict [] [] :: s.out }) ∧
      (∀ (q : MemWrite) (b : Option CwFault), q.addr + q.data.length ≤ ctlBytes ctl →
        exec (.memWriteRequest ctl q) s = .next { s with out := .memAnswer ctl .stateConflict [] [] :: s.out } ∧
        exec (.narrowWrite ctl q b) s = .next { s with out := .memAnswer ctl .stateConflict [] [] :: s.out })) ∧
    (s.ctlOk ctl = true →
      (∀ q : MemRead, q.addr + q.len ≤ ctlBytes ctl → s.sealedFor q.who ctl q.addr q.len = true →
        exec (.memReadRequest ctl q) s = .next { s with out := .memAnswer ctl .sealed [] [] :: s.out }) ∧
      (∀ (q : MemWrite) (b : Option CwFault), q.addr + q.data.length ≤ ctlBytes ctl →
        s.sealedFor q.who ctl q.addr q.data.length = true →
        exec (.memWriteRequest ctl q) s = .next { s with out := .memAnswer ctl .sealed [] [] :: s.out } ∧
        exec (.narrowWrite ctl q b) s = .next { s with out := .memAnswer ctl .sealed [] [] :: s.out }) ∧
      (∀ q : MemRead, q.addr + q.len ≤ ctlBytes ctl → s.sealedFor q.who ctl q.addr q.len = false → q.met.faults = [] →
        (s.ctl ctl).badIn ctl (q.addr / 256 * 256) ((q.addr % 256 + q.len + 255) / 256 * 256) [] = [] →
        ∃ t, exec (.memReadRequest ctl q) s = .next t ∧
          t = { s with caches := t.caches, free := t.free, out := t.out, int := t.int, glb := t.glb } ∧
          t.out.head? = some (.memAnswer ctl .ok (s.readBytes ctl q.addr q.len) (s.readSides ctl q.addr q.len)) ∧
          (q.met.cacheUe = [] → t.int = s.int ∧ t.glb = s.glb ∧
            t.out = .memAnswer ctl .ok (s.readBytes ctl q.addr q.len) (s.readSides ctl q.addr q.len) :: s.out) ∧
          (∀ v, ctl = .vault v → t = { s with out := t.out })) ∧
      (∀ q : MemRead, q.addr + q.len ≤ ctlBytes ctl → s.sealedFor q.who ctl q.addr q.len = false →
        (∀ f, ctl = .far f → ∀ i, s.resident f i = false) → (s.ctl ctl).badIn ctl q.addr q.len q.met.faults ≠ [] →
        ∃ t, exec (.memReadRequest ctl q) s = .next t ∧ (t.ctl ctl).ueSeen = true ∧
          (∃ cw ∈ (t.ctl ctl).bad, (t.ctl ctl).lastUe = BitVec.ofNat 30 cw) ∧
          (∀ v y, ctl = .vault v → ((s.ctl ctl).badIn ctl q.addr q.len q.met.faults).head? = some y →
            (t.ctl ctl).lastUe = BitVec.ofNat 30 y.1) ∧
          (∀ y ∈ (s.ctl ctl).badIn ctl q.addr q.len q.met.faults, y.1 ∈ (t.ctl ctl).bad) ∧
          bitAt t.int.errSummary errUe = true ∧ (t.ctl ctl).data = (s.ctl ctl).data ∧
          (∀ c : CtlId, c ≠ ctl → t.ctl c = s.ctl c) ∧ t.job = s.job ∧
          (q.who = .host → Emission.pci .abort [] ∈ t.out ∧ bitAt t.host.aer 15 = true ∧
            ∀ off, s.aptOffset ctl q.addr = some off → t.host.aptStatus = Status.uncorrectable.code ∧ t.host.aptOff = off) ∧
          (q.who = .bursarFetch → Emission.coreFault true ∈ t.out) ∧
          (∀ e, q.who = .tile e ∨ q.who = .vector e ∨ q.who = .accumulate e ∨ q.who = .tillReload e ∨ q.who = .tillSend e →
            Emission.memAnswer ctl .uncorrectable [] [] ∈ t.out ∧
            (s.job.state = .running → s.job.stepOn = true → s.int.holding = false → s.int.replay = none → t.int.replay = some
              { step := s.curStep, cause := Status.uncorrectable.code, island := islandId (islEngine e), marks := 1
                stopped := true, fresh := true })))) ∧
    (s.ctlOk ctl = true → s.Sound → ∀ q : MemWrite, q.addr + q.data.length ≤ ctlBytes ctl →
      s.sealedFor q.who ctl q.addr q.data.length = false →
      (∀ x, q.side = some x → q.addr % 4096 = 0 → q.data.length = 4096 →
        (hallmarkOk x q.data = true → s.coverKey ctl (q.addr / 4096) = none →
          (s.ctl ctl).merge.length < 64 ∨ (s.ctl ctl).bad = [] ∧ s.tagArea ctl = none →
          ∃ t, exec (.memWriteRequest ctl q) s = .next t ∧ t.readPage ctl (q.addr / 4096) = (q.data, x) ∧
            (∀ y, ((s.ctl ctl).merge.find? fun y => y.cw == sideCw ctl (q.addr / 4096)) = some y →
              64 ≤ (mergeBytes y.bytes (q.addr / 4096 % 2 * 32) x.bytes).length →
              (∀ m ∈ (t.ctl ctl).merge, m.cw ≠ sideCw ctl (q.addr / 4096)) ∧
              (plainReq q.who = true → t.out.head? = some (.memAnswer ctl .ok [] []))) ∧
            ((∀ y, ((s.ctl ctl).merge.find? fun y => y.cw == sideCw ctl (q.addr / 4096)) = some y →
                (mergeBytes y.bytes (q.addr / 4096 % 2 * 32) x.bytes).length < 64) →
              (∃ m ∈ (t.ctl ctl).merge, m.cw = sideCw ctl (q.addr / 4096) ∧ q.who ∈ m.writes) ∧
              ((s.ctl ctl).merge = [] → t.out = s.out)) ∧
            (∀ c : CtlId, c ≠ ctl → t.ctl c = s.ctl c) ∧ (∀ g : EngineId, Told s.eng[g.val] t.eng[g.val]) ∧
            (s.tagArea ctl = none → ∀ a : Nat, a < ctlBytes ctl → a < q.addr ∨ q.addr + 4096 ≤ a →
              (s.ctl ctl).merge.length < 64 ∨ q.evict = none ∧ (s.ctl ctl).bad = [] ∨ (∀ m ∈ (s.ctl ctl).merge, m.cw ≠ a / 64) →
              (t.ctl ctl).byte a = (s.ctl ctl).byte a)) ∧
        (hallmarkOk x q.data = false →
          ∃ t, exec (.memWriteRequest ctl q) s = .next t ∧ t.vaults = s.vaults ∧ t.fars = s.fars ∧ t.eng = s.eng ∧
            bitAt t.int.errSummary errHallmark = true ∧ Emission.memAnswer ctl .hallmarkFail [] [] ∈ t.out)) ∧
      (q.side = none ∨ q.addr % 4096 ≠ 0 ∨ q.data.length ≠ 4096 → s.tagArea ctl = none → (s.ctl ctl).bad = [] →
        q.evict = none → q.data ≠ [] →
        ∃ t, exec (.memWriteRequest ctl q) s = .next t ∧ (∀ c : CtlId, c ≠ ctl → t.ctl c = s.ctl c) ∧
          (∀ g : EngineId, Told s.eng[g.val] t.eng[g.val]) ∧
          (isLate q.addr q.data.length = false → t.out.head? = some (.memAnswer ctl .ok [] [])) ∧
          (q.addr % 4096 + q.data.length < 4096 → (t.readPage ctl (q.addr / 4096)).2.valid = false) ∧
          (∀ i : Nat, i < q.data.length → (t.ctl ctl).byte (q.addr + i) = q.data.getD i 0) ∧
          ∀ a : Nat, a < ctlBytes ctl → a < q.addr ∨ q.addr + q.data.length ≤ a →
            (t.ctl ctl).byte a = (s.ctl ctl).byte a) ∧
      (∀ b : Option CwFault, q.addr % 64 + q.data.length ≤ 64 →
        (s.coverKey ctl (q.addr / 4096) ≠ none → plainReq q.who = true →
          ∃ t, exec (.narrowWrite ctl q b) s = .next t ∧ t.out.head? = some (.memAnswer ctl .ok [] []) ∧
            (∀ c : CtlId, c ≠ ctl → t.ctl c = s.ctl c) ∧ ∀ g : EngineId, Told s.eng[g.val] t.eng[g.val]) ∧
        (s.coverKey ctl (q.addr / 4096) = none → q.data = [] →
          ∃ t, exec (.narrowWrite ctl q b) s = .next t ∧ (t.ctl ctl).data = (s.ctl ctl).data ∧
            (t.ctl ctl).merge = (s.ctl ctl).merge) ∧
        (s.coverKey ctl (q.addr / 4096) = none → q.data ≠ [] → (∀ m ∈ (s.ctl ctl).merge, m.cw ≠ q.addr / 64) →
          (s.ctl ctl).merge.length < 64 →
          ∃ t, exec (.narrowWrite ctl q b) s = .next t ∧ t.out = s.out ∧ (t.ctl ctl).data = (s.ctl ctl).data ∧
            (∃ m ∈ (t.ctl ctl).merge, m.cw = q.addr / 64 ∧ q.who ∈ m.writes) ∧
            (∀ c : CtlId, c ≠ ctl → t.ctl c = s.ctl c) ∧ t.eng = s.eng ∧
            (∀ i : Nat, i < q.data.length → (t.ctl ctl).byte (q.addr + i) = q.data.getD i 0) ∧
            ∀ a : Nat, a < q.addr ∨ q.addr + q.data.length ≤ a → (t.ctl ctl).byte a = (s.ctl ctl).byte a) ∧
        (∀ m, s.coverKey ctl (q.addr / 4096) = none → q.data ≠ [] →
          ((s.ctl ctl).merge.find? fun x => x.cw == q.addr / 64) = some m →
          ∃ t, exec (.narrowWrite ctl q b) s = .next t ∧ (∀ c : CtlId, c ≠ ctl → t.ctl c = s.ctl c) ∧
            (∀ i : Nat, i < q.data.length → (t.ctl ctl).byte (q.addr + i) = q.data.getD i 0) ∧
            (∀ a : Nat, a < q.addr ∨ q.addr + q.data.length ≤ a → (t.ctl ctl).byte a = (s.ctl ctl).byte a) ∧
            (if (mergeBytes m.bytes (q.addr % 64) q.data).length < 64
             then (t.ctl ctl).data = (s.ctl ctl).data ∧ (t.ctl ctl).merged = (s.ctl ctl).merged ∧ t.out = s.out ∧
               t.eng = s.eng
             else (t.ctl ctl).merged = wrapAdd (s.ctl ctl).merged 1 ∧ (∀ x ∈ (t.ctl ctl).merge, x.cw ≠ q.addr / 64) ∧
               t.out = List.replicate ((m.writes ++ [q.who]).filter plainReq).length (.memAnswer ctl .ok [] []) ++ s.out ∧
               ∀ g : EngineId, Told s.eng[g.val] t.eng[g.val]))))

/-- R267, R268, R273, R274, R275, R276: the oldest merge entry is written by a read-modify-write that leaves every byte
reading as before, or given up as uncorrectable, and every write merged into it is answered; the scrubber goes on by one
codeword, counts what it corrects and starts a new pass at the end; the first die whose corrections reach the threshold
is marked, once; a second die's errors that reach it take the controller out of service. The model's choices that it
rests on: log entry 52. -/
def Obligations.ControllersMendThemselves : Prop :=
  ∀ (ctl : CtlId) (s : State),
    (∀ (m : MergeEnt) (r : List MergeEnt), (s.ctl ctl).merge = m :: r → s.Sound →
      (s.coverKey ctl (m.cw * 64 / 4096) = none → (s.ctl ctl).bad.contains m.cw = false →
        ∃ t, exec (.mergeRetire ctl none) s = .next t ∧ (∀ x ∈ (t.ctl ctl).merge, x.cw ≠ m.cw) ∧
          (t.ctl ctl).rmw = wrapAdd (s.ctl ctl).rmw 1 ∧
          t.out = List.replicate (m.writes.filter plainReq).length (.memAnswer ctl .ok [] []) ++ s.out ∧
          (∀ c : CtlId, c ≠ ctl → t.ctl c = s.ctl c) ∧ (∀ g : EngineId, Told s.eng[g.val] t.eng[g.val]) ∧
          t.job = s.job ∧ ∀ a : Nat, a < ctlBytes ctl → (t.ctl ctl).byte a = (s.ctl ctl).byte a) ∧
      (∀ fl : Option CwFault, (∃ d, fl = some (.uncorrectable d)) ∨ (s.ctl ctl).bad.contains m.cw = true →
        (∀ f, ctl = .far f → s.resident f (m.cw / 4) = false) →
        ∃ t, exec (.mergeRetire ctl fl) s = .next t ∧
          (t.ctl ctl).merge = r.filter (fun x => x.cw != m.cw) ∧ m.cw ∈ (t.ctl ctl).bad ∧
          (t.ctl ctl).data = (s.ctl ctl).data ∧ bitAt t.int.errSummary errUe = true ∧ t.job = s.job ∧
          (∀ g : EngineId, Told s.eng[g.val] t.eng[g.val]) ∧
          (∀ w ∈ m.writes, plainReq w = true → Emission.memAnswer ctl .uncorrectable [] [] ∈ t.out) ∧
          ∀ (e : EngineId) (ch : ChanId), Requester.dma e ch ∈ m.writes → (s.chan e ch).slip.isSome = true →
            (t.chan e ch).halting.isSome = true) ∧
      (∀ (fl : Option CwFault) (p : Nat) (x : Sideband), (∃ d, fl = some (.uncorrectable d)) → m.old = [(p, x)] →
        (∀ f, ctl = .far f → s.resident f (m.cw / 4) = false) →
        ∃ t, exec (.mergeRetire ctl fl) s = .next t ∧ (t.ctl ctl).side p = x)) ∧
    ((s.ctl ctl).merge = [] → ∀ fl, exec (.mergeRetire ctl fl) s = .next s) ∧
    (∀ (f : Option CwFault) (hot : Int), (s.ctl ctl).scrubOn = true →
      ∃ t, exec (.scrubRead ctl f hot) s = .next t ∧ (t.ctl ctl).data = (s.ctl ctl).data ∧
        (t.ctl ctl).merge = (s.ctl ctl).merge ∧ (∀ c : CtlId, c ≠ ctl → t.ctl c = s.ctl c) ∧ t.job = s.job ∧ t.eng = s.eng ∧
        (if (s.ctl ctl).pos + 1 < ctlCodewords ctl
         then (t.ctl ctl).pos = (s.ctl ctl).pos + 1 ∧ (t.ctl ctl).passes = (s.ctl ctl).passes
         else (t.ctl ctl).pos = 0 ∧ (t.ctl ctl).passes = wrapAdd (s.ctl ctl).passes 1 ∧
           (t.ctl ctl).dieCe = Vector.replicate 8 0 ∧ (t.ctl ctl).dieUe = Vector.replicate 8 0) ∧
        ((∀ m ∈ (s.ctl ctl).merge, m.cw ≠ (s.ctl ctl).pos) → (s.ctl ctl).bad.contains (s.ctl ctl).pos = true →
          (t.ctl ctl).scrubUe = satAdd (s.ctl ctl).scrubUe 1 ∧ bitAt t.int.errSummary errUe = true) ∧
        ((∀ m ∈ (s.ctl ctl).merge, m.cw ≠ (s.ctl ctl).pos) → (s.ctl ctl).bad.contains (s.ctl ctl).pos = false →
          (f = none → (t.ctl ctl).scrubCe = (s.ctl ctl).scrubCe ∧ (t.ctl ctl).scrubUe = (s.ctl ctl).scrubUe) ∧
          (∀ d, f = some (.corrected d) → (s.ctl ctl).marked = none ∨ (s.ctl ctl).marked = some d.val →
            (t.ctl ctl).scrubCe = satAdd (s.ctl ctl).scrubCe 1) ∧
          (∀ d, f = some (.uncorrectable d) → (t.ctl ctl).scrubUe = satAdd (s.ctl ctl).scrubUe 1 ∧
            (t.ctl ctl).ueSeen = true ∧ bitAt t.int.errSummary errUe = true))) ∧
    (∀ d : Fin 8,
      ((s.ctl ctl).marked = none → fld (s.ctl ctl).cfg 31 16 ≤ (s.ctl ctl).dieCe[d.val] →
        ∃ t, exec (.dieMark ctl d) s = .next t ∧ (t.ctl ctl).marked = some d.val ∧ (t.ctl ctl).data = (s.ctl ctl).data ∧
          (∀ c : CtlId, c ≠ ctl → t.ctl c = s.ctl c) ∧ t.job = s.job ∧ t.eng = s.eng) ∧
      ((s.ctl ctl).marked.isSome = true ∨ (s.ctl ctl).dieCe[d.val] < fld (s.ctl ctl).cfg 31 16 →
        exec (.dieMark ctl d) s = .next s) ∧
      ((s.ctl ctl).marked = none ∨ (s.ctl ctl).marked = some d.val ∨ (s.ctl ctl).dieUe[d.val] < fld (s.ctl ctl).cfg 31 16 →
        exec (.vaultOutOfService ctl d) s = .next s) ∧
      (∀ k, (s.ctl ctl).marked = some k → k ≠ d.val → fld (s.ctl ctl).cfg 31 16 ≤ (s.ctl ctl).dieUe[d.val] →
        ∃ t, exec (.vaultOutOfService ctl d) s = .next t ∧ t.ctlOk ctl = false ∧ (t.ctl ctl).inService = false ∧
          (∀ c : CtlId, c ≠ ctl → t.ctl c = s.ctl c ∧ t.ctlOk c = s.ctlOk c) ∧ t.job = s.job ∧ t.eng = s.eng ∧
          (s.job.state = .running → ∃ ev ∈ t.int.raised, ev.cls = .unitLost)))

/-! ### Span, parity, mailbox, management ports -/

/-- R361, R362, R363, R364, R365, R369, R370, R403: a flit of bad parity or of another width code than the agreed one is
discarded and replayed and its lane module stops for an agreement, and any other flit is taken; up to three rounds look
for the lesser of the widths that the two sides offer; then the lock at code 2, or the module goes out, either way with
an event, and with the last of them the job is held; each row's cross traffic takes the route that the lane modules left
in service give it. A transfer with a word of odd parity is counted where it is received and the sender sends again from
it on; the sixteenth failure in a row gives it up, counted, with its requester's path. Error frames leave oldest first
on the enabled ports that have link, and wait while none has. What each row does in the states where nothing is to be
done is to change nothing. The model's choices that it rests on: log entries 169, 183, 185. -/
def Obligations.SpanParityAndMailbox : Prop :=
  ∀ s : State,
    (∀ (lm : Fin 16) (east : Bool) (code : BitVec 4),
      ((s.span.lanes[lm.val]).state = 3 →
        (code.getLsbD 3 ≠ (code.getLsbD 0 ^^ code.getLsbD 1 ^^ code.getLsbD 2)) ∨
          code.setWidth 3 ≠ (s.span.lanes[lm.val]).agreed →
        ∃ t, exec (.flitDiscard lm east code) s = .next t ∧ t = { s with span := t.span, out := t.out } ∧
          t.span.lanes[lm.val] = { s.span.lanes[lm.val] with state := 2 } ∧
          t.span.discards = satAdd s.span.discards 1 ∧ t.span.replayed = wrapAdd s.span.replayed 1 ∧
          t.span.agreements = satAdd s.span.agreements 1 ∧
          (∀ k : Fin 16, k ≠ lm → t.span.lanes[k.val] = s.span.lanes[k.val]) ∧
          ∀ k : Fin 16, t.span.routes[k.val] = t.span.route (Fin.ofNat 8 (k.val / 2)) (k.val % 2 == 1)) ∧
      ((s.span.lanes[lm.val]).state ≠ 3 ∨
          (code.getLsbD 3 = (code.getLsbD 0 ^^ code.getLsbD 1 ^^ code.getLsbD 2) ∧
            code.setWidth 3 = (s.span.lanes[lm.val]).agreed) →
        exec (.flitDiscard lm east code) s = .next s)) ∧
    (∀ (lm : Fin 16) (w x : BitVec 3) (ok : Bool),
      let offer := fun v : BitVec 3 => if (s.span.lanes[lm.val]).locked = true then Nat.min 2 v.toNat else v.toNat
      ((s.span.lanes[lm.val]).state = 1 ∨ (s.span.lanes[lm.val]).state = 2 → (s.span.lanes[lm.val]).attempts < 3 →
        ∃ t, exec (.widthAgreement lm w x ok) s = .next t ∧ t = { s with span := t.span, out := t.out } ∧
          (∀ k : Fin 16, k ≠ lm → t.span.lanes[k.val] = s.span.lanes[k.val]) ∧
          (∀ k : Fin 16, t.span.routes[k.val] = t.span.route (Fin.ofNat 8 (k.val / 2)) (k.val % 2 == 1)) ∧
          (t.span.lanes[lm.val]).locked = (s.span.lanes[lm.val]).locked ∧
          if ok = true ∧ 1 ≤ Nat.min (offer w) (offer x) ∧ w.toNat ≤ 4 ∧ x.toNat ≤ 4
          then (t.span.lanes[lm.val]).state = 3 ∧ (t.span.lanes[lm.val]).agreed.toNat = Nat.min (offer w) (offer x) ∧
            (t.span.lanes[lm.val]).west = (t.span.lanes[lm.val]).agreed ∧
            (t.span.lanes[lm.val]).east = (t.span.lanes[lm.val]).agreed ∧ (t.span.lanes[lm.val]).attempts = 0
          else (t.span.lanes[lm.val]).state = 2 ∧
            (t.span.lanes[lm.val]).attempts = (s.span.lanes[lm.val]).attempts + 1) ∧
      (((s.span.lanes[lm.val]).state ≠ 1 ∧ (s.span.lanes[lm.val]).state ≠ 2) ∨ 3 ≤ (s.span.lanes[lm.val]).attempts →
        exec (.widthAgreement lm w x ok) s = .next s)) ∧
    (∀ lm : Fin 16,
      ((s.span.lanes[lm.val]).state = 2 → (s.span.lanes[lm.val]).attempts = 3 →
        (∃ t, exec (.laneLock lm true) s = .next t ∧ (t.span.lanes[lm.val]).state = 3 ∧
          (t.span.lanes[lm.val]).locked = true ∧ (t.span.lanes[lm.val]).agreed = 2 ∧ (t.span.lanes[lm.val]).attempts = 0 ∧
          (∀ k : Fin 16, k ≠ lm → t.span.lanes[k.val] = s.span.lanes[k.val]) ∧
          t.job = s.job ∧ t.eng = s.eng ∧ t.vaults = s.vaults ∧ t.fars = s.fars ∧
          (s.int.mbox.length < 4096 → ∃ m, t.int.mbox = s.int.mbox ++ [m] ∧ m.status = Status.widthMismatch.code)) ∧
        (∃ t, exec (.laneLock lm false) s = .next t ∧ (t.span.lanes[lm.val]).state = 0 ∧
          (∀ k : Fin 16, k ≠ lm → t.span.lanes[k.val] = s.span.lanes[k.val]) ∧
          (s.int.mbox.length < 4096 →
            ∃ m, t.int.mbox[s.int.mbox.length]? = some m ∧ m.status = Status.widthMismatch.code) ∧
          ((∃ k : Fin 16, k ≠ lm ∧ (s.span.lanes[k.val]).state ≠ 0) → t.job = s.job ∧ t.eng = s.eng) ∧
          ((∀ k : Fin 16, k ≠ lm → (s.span.lanes[k.val]).state = 0) →
            s.job.state = .active ∨ (s.job.state = .running ∧ s.job.stepOn = false) → t.job.state = .held) ∧
          ((∀ k : Fin 16, k ≠ lm → (s.span.lanes[k.val]).state = 0) → s.job.state = .running →
            t.job.state = .held ∨ (t.int.holding = true ∧ t.job = s.job)))) ∧
      ((s.span.lanes[lm.val]).state ≠ 2 ∨ (s.span.lanes[lm.val]).attempts ≠ 3 → ∀ ok : Bool,
        exec (.laneLock lm ok) s = .next s)) ∧
    (∀ (x : Crossing) (got : List (W32 × Bool)) (buf : List (List W32)),
      (got.all parityOk = true → exec (.parityError x got buf) s = .next s) ∧
      (got.all parityOk = false →
        ∃ t, exec (.parityError x got buf) s = .next t ∧ t.out = .paritySend x.recv.val x.send.val buf :: s.out ∧
          t = { s with out := t.out, int := t.int, eng := t.eng } ∧
          (∀ e : EngineId, x.recv = islEngine e → t.int = s.int ∧
            (t.eng[e.val]).int = { (s.eng[e.val]).int with parResends := wrapAdd (s.eng[e.val]).int.parResends 1 }) ∧
          (128 ≤ x.recv.val → t.eng = s.eng) ∧
          (∀ k : Fin 16, x.recv.val = 128 + k.val → t.int.xch[k.val] = (wrapAdd (s.int.xch[k.val]).1 1, (s.int.xch[k.val]).2)) ∧
          (144 ≤ x.recv.val → x.recv.val < 208 → t.int = { s.int with parMem := satAdd s.int.parMem 1 }) ∧
          (208 ≤ x.recv.val → x.recv.val < 256 → t.int = { s.int with parPort := satAdd s.int.parPort 1 }) ∧
          (256 ≤ x.recv.val → x.recv.val < 258 → t.int = { s.int with parSpan := satAdd s.int.parSpan 1 }) ∧
          (258 ≤ x.recv.val → t.int = { s.int with parOther := satAdd s.int.parOther 1 }))) ∧
    (∀ (x : Crossing) (who : GivenUp),
      ∃ t, exec (.parityGiveUp x who) s = .next t ∧ bitAt t.int.errSummary errParity = true ∧
        (∀ e : EngineId, x.recv = islEngine e →
          (t.eng[e.val]).int.parBroken = satAdd (s.eng[e.val]).int.parBroken 1) ∧
        (s.int.mbox.length < 4096 → ∃ m, t.int.mbox[s.int.mbox.length]? = some m ∧ m.cls = 5 ∧
          m.record.w0 = put (islandId x.recv).toNat 48 ||| put (islandId x.send).toNat 32) ∧
        ((∀ e ch, who ≠ .dma e ch) → (∀ ctl cw, who ≠ .readModifyWrite ctl cw) → who ≠ .charterStore →
          t.job = s.job ∧ t.vaults = s.vaults ∧ t.fars = s.fars) ∧
        (who = .hostRegister → t.out.head? = some (.pci .abort []) ∧ bitAt t.host.aer 15 = true) ∧
        (∀ off, who = .hostAperture off → t.out.head? = some (.pci .abort []) ∧ bitAt t.host.aer 15 = true ∧
          t.host.aptStatus = Status.uncorrectable.code ∧ t.host.aptOff = off) ∧
        (who = .bursarLoad → t.out.head? = some (.coreFault false)) ∧
        (who = .bursarFetch → t.out.head? = some (.coreFault true)) ∧
        (∀ e ch z, who = .dma e ch → 6 ≤ ch.val → s.engOk e.val = true → (s.chan e ch).busy = true →
          (s.chan e ch).slip = some z → (s.chan e ch).halting = none →
          (s.owes e ch (placeOf e z.w2) = false → s.owes e ch (placeOf e z.w4) = false → (s.chan e ch).openBlks = 0 →
            s.placePinned (placeOf e (s.chan e ch).cur) 64 = false →
            (t.chan e ch).state = .halted ∧ (t.chan e ch).haltStatus = Status.uncorrectable.code ∧
              (t.chan e ch).slip = some z) ∧
          ((s.chan e ch).openBlks ≠ 0 → t.chan e ch =
            { s.chan e ch with halting := some (.uncorrectable, (s.chan e ch).progress.toNat) })) ∧
        (∀ e, (who = .vector e ∨ who = .rowPass e ∨ (∃ ch, who = .dma e ch ∧ ch.val < 5 ∧ s.engOk e.val = true) ∨
            (∃ ctl b, who = .accumulate e ctl ∧ s.firstBand e ctl = some b) ∨
            ((who = .tillReload e ∨ who = .tillSend e) ∧ (s.eng[e.val]).seq.running = true) ∨
            (∃ ps k arr d, who = .tile e ∧ (s.eng[e.val]).seq.pass = some ps ∧ s.nextClose e ps = some (k, arr) ∧
              s.layer k.layer = some d)) →
          s.job.state = .running → s.job.stepOn = true → s.int.holding = false → s.int.replay = none →
          t.int.replay = some { step := s.curStep, cause := Status.uncorrectable.code, island := islandId (islEngine e)
                                marks := 1, stopped := true, fresh := true }) ∧
        (∀ e, who = .tillReload e ∨ who = .tillSend e → (s.eng[e.val]).seq.running = true →
          (t.eng[e.val]).seq.lastStatus = Status.uncorrectable.code ∧ (t.eng[e.val]).seq.failed = true) ∧
        (∀ e, who = .vector e → (t.eng[e.val]).vec.run.active = false) ∧
        (who = .charterStore → 2 ≤ s.charterCopies.length → t.job = s.job) ∧
        (who = .charterStore → s.charterCopies.length < 2 → s.job.state = .verifying → t.job.state = .empty) ∧
        (who = .charterStore → s.charterCopies.length < 2 → s.job.state = .activating → t.job.state = .verified) ∧
        (∀ f line, who = .cache f line → ∀ l ∈ (t.caches[(sliceOf f).val]).lines, ¬(l.far = f.val ∧ l.line = line)) ∧
        (∀ ctl cw, who = .readModifyWrite ctl cw →
          (∀ m ∈ (s.ctl ctl).merge, m.cw = cw → ∀ e ch, Requester.dma e ch ∉ m.writes) →
          ∀ m ∈ (t.ctl ctl).merge, m.cw ≠ cw)) ∧
    (∀ (m : MboxEntry) (r : List MboxEntry), s.int.mbox = m :: r → s.errPorts ≠ [] →
      ∃ t, exec .errorFrameSend s = .next t ∧ t = { s with int := { s.int with mbox := r, sent := t.int.sent }, out := t.out } ∧
        t.int.sent = BitVec.ofNat 32 m.seqNo.toNat ∧
        ∀ p ∈ s.errPorts, Emission.ether p (BitVec.ofNat 16 (fld s.int.errCfg 15 0)) s.int.errDst (s.framePayload m) ∈ t.out) ∧
    (s.int.mbox = [] ∨ s.errPorts = [] → exec .errorFrameSend s = .next s) ∧
    (s.int.mbox.length < 4096 → (∃ i : Nat, ∃ h : i < 16, s.int.ovfByClass[i] ≠ 0) →
      ∃ t m, exec .mailboxOverflowFrame s = .next t ∧ t.int.mbox = s.int.mbox ++ [m] ∧ m.cls = 0x0E ∧
        m.status = 0 ∧ t.int.ovfByClass = Vector.replicate 16 0 ∧ t.job = s.job ∧ t.eng = s.eng ∧
        ∀ k : Fin 16, ((([m.record.w0, m.record.w1, m.record.w2, m.record.w3] : List W64).getD (k.val / 4) 0) >>>
          (16 * (k.val % 4))).setWidth 16 = s.int.ovfByClass[k.val]) ∧
    (4096 ≤ s.int.mbox.length ∨ (∀ i : Nat, ∀ h : i < 16, s.int.ovfByClass[i] = 0) →
      exec .mailboxOverflowFrame s = .next s) ∧
    (∀ p up fec : Bool,
      ∃ t, exec (.mgmtLinkChange p up fec) s = .next t ∧ t = { s with glb := { s.glb with mgmtLink := t.glb.mgmtLink } } ∧
        bitAt t.glb.mgmtLink (if p = true then 8 else 0) = up ∧
        bitAt t.glb.mgmtLink (if p = true then 9 else 1) = (up && fec) ∧
        ∀ k : Nat, k < 10 → k ≠ (if p = true then 8 else 0) → k ≠ (if p = true then 9 else 1) →
          bitAt t.glb.mgmtLink k = bitAt s.glb.mgmtLink k)


/-! ### Host interface, reports, messages -/

/-- R4, R7, R340, R342, R347, R343, R348, R353, R359, R455: a disabled ring is enabled by the installer's write of a
valid configuration, at position zero, and refuses any other; a write that disables it clears it. A doorbell moves the
tail or the head within what the rules allow, marks the ring otherwise, and is ignored on a disabled ring and while IDE
is required and not active. The arbiter takes the entry of the ring whose turn it is, the path of R455 being the 65th. A
link that comes up presents the module's PCIe function, at 32.0 GT/s at most without FLIT mode, and shows whether it is
degraded. -/
def Obligations.RingsTakeCommands : Prop :=
  ∀ (r : RingId) (s : State),
    (∀ (c : Cmd) (v : W64), RegTaken s c 1 (0x60_0000 + 0x1_0000 + r.val * 0x40) → v = c.arg1 → bitAt v 63 = true →
      (s.host.rings[r.val]).enabled = false →
      ∃ t, exec (.ringEnable c) s = .next t ∧ Completed t c 0x22 .ok 0 ∧ t.job = s.job ∧ t.vaults = s.vaults ∧
        t.fars = s.fars ∧ (∀ k : RingId, k ≠ r → c.src ≠ .ring k → t.host.rings[k.val] = s.host.rings[k.val]) ∧
        if 4 ≤ fld v 3 0 ∧ fld v 3 0 ≤ 12 ∧ fld v 9 8 ≤ 2 ∧ fld (s.host.rings[r.val]).sq 11 0 = 0 ∧
            fld (s.host.rings[r.val]).cq 11 0 = 0
        then (t.host.rings[r.val]).enabled = true ∧ (t.host.rings[r.val]).head = 0 ∧ (t.host.rings[r.val]).tail = 0 ∧
          (t.host.rings[r.val]).cHead = 0 ∧ (t.host.rings[r.val]).cPos = 0 ∧ (t.host.rings[r.val]).phase = true ∧
          (t.host.rings[r.val]).badCfg = false ∧ (t.host.rings[r.val]).badDb = false ∧
          fld (t.host.rings[r.val]).cfg 3 0 = fld v 3 0 ∧ fld (t.host.rings[r.val]).cfg 9 8 = fld v 9 8
        else (t.host.rings[r.val]).enabled = false ∧ (t.host.rings[r.val]).badCfg = true) ∧
    (∀ c : Cmd, RegTaken s c 1 (0x60_0000 + 0x1_0000 + r.val * 0x40) → bitAt c.arg1 63 = false →
      (s.host.rings[r.val]).enabled = true →
      ∃ t, exec (.ringDisable c) s = .next t ∧ SameUnits s t ∧ t.job = s.job ∧ (t.host.rings[r.val]).enabled = false ∧
        (t.host.rings[r.val]).head = (s.host.rings[r.val]).head ∧ (c.src ≠ .ring r → Completed t c 0x22 .ok 0) ∧
        (∀ k : RingId, k ≠ r → c.src ≠ .ring k → t.host.rings[k.val] = s.host.rings[k.val])) ∧
    (∀ (off : BitVec 18) (k : W32), off.toNat / 4096 = r.val → s.ideRefused = false → (s.host.rings[r.val]).enabled = true →
      (off.toNat % 4096 = 0 →
        ∃ t, exec (.submissionDoorbell off k) s = .next t ∧ t = { s with host := t.host } ∧
        (∀ j : RingId, j ≠ r → t.host.rings[j.val] = s.host.rings[j.val]) ∧
        if k.toNat < (s.host.rings[r.val]).size ∧
            ringDist (s.host.rings[r.val]).size (s.host.rings[r.val]).tail (s.host.rings[r.val]).head ≤
              ringDist (s.host.rings[r.val]).size k.toNat (s.host.rings[r.val]).head
        then t.host.rings[r.val] = { s.host.rings[r.val] with tail := k.toNat }
        else t.host.rings[r.val] = { s.host.rings[r.val] with badDb := true }) ∧
      (off.toNat % 4096 = 0x800 →
        ∃ t, exec (.completionDoorbell off k) s = .next t ∧ t = { s with host := t.host } ∧
        (∀ j : RingId, j ≠ r → t.host.rings[j.val] = s.host.rings[j.val]) ∧
        if k.toNat < (s.host.rings[r.val]).size ∧
            ringDist (s.host.rings[r.val]).size k.toNat (s.host.rings[r.val]).cHead ≤ (s.host.rings[r.val]).unreturned
        then t.host.rings[r.val] = { s.host.rings[r.val] with cHead := k.toNat }
        else t.host.rings[r.val] = { s.host.rings[r.val] with badDb := true })) ∧
    (∀ (off : BitVec 18) (k : W32), off.toNat / 4096 = r.val →
      (s.host.rings[r.val]).enabled = false ∨ (bitAt s.host.cfg 0 = true ∧ s.host.ideActive = false) ∨
        (off.toNat % 4096 ≠ 0 ∧ off.toNat % 4096 ≠ 0x800) →
      exec (.submissionDoorbell off k) s = .next s ∧ exec (.completionDoorbell off k) s = .next s) ∧
    (∀ (rate : BitVec 4) (width : BitVec 5) (flit : Bool),
      (s.glb.perst = false → s.glb.hold ≠ .off → s.pwr.refLost100 = false →
        ∃ t, exec (.pcieLinkUp rate width flit) s = .next t ∧
          t = { s with host := { s.host with rate := t.host.rate, width := width, flit := flit, ltssm := 1, degraded := t.host.degraded },
                       out := .pciConfig pciFunction :: s.out } ∧
          t.host.rate = (if flit = false ∧ 5 < rate.toNat then 5 else rate) ∧
          (t.host.degraded = true ↔ rate.toNat < 6 ∨ width.toNat < 16 ∨ flit = false)) ∧
      (s.glb.perst = true ∨ s.glb.hold = .off ∨ s.pwr.refLost100 = true → exec (.pcieLinkUp rate width flit) s = .next s)) ∧
    (∀ (opc : Byte) (c : Cmd) (x : Slip) (img : CkptImage),
      (s.noBursar = false → s.arbNext = some r.castSucc →
        (argsOk c 0 0 0 = true →
          ∃ t, exec (.commandArbitrate (.ring r 0x0E c x img)) s = .next t ∧
            Completed t { c with src := .ring r } 0x0E .ok s.jobWord ∧ SameUnits s t ∧
            t.job = { s.job with lastStatus := Status.ok.code } ∧
            (t.host.rings[r.val]).head = ((s.host.rings[r.val]).head + 1) % (s.host.rings[r.val]).size ∧
            t.host.arb = r.val) ∧
        (opc.toNat = 0 ∨ (0x0E < opc.toNat ∧ opc.toNat < 0x20) ∨ 0x2A < opc.toNat →
          ∃ t, exec (.commandArbitrate (.ring r opc c x img)) s = .next t ∧
            Completed t { c with src := .ring r } opc .stateConflict 0 ∧ SameUnits s t ∧ t.job = s.job ∧
            (t.host.rings[r.val]).head = ((s.host.rings[r.val]).head + 1) % (s.host.rings[r.val]).size ∧
            t.host.arb = r.val)) ∧
      (s.noBursar = true ∨ s.arbNext ≠ some r.castSucc ∨ (opc = 0x02 ∧ s.chunkWaits = true) →
        exec (.commandArbitrate (.ring r opc c x img)) s = .next s)) ∧
    (∀ (m : MctpMsg) (rest : List MctpMsg) (c : Cmd) (x : Slip) (img : CkptImage), s.host.path = m :: rest →
      m.body = .command 0x0E c x img → s.noBursar = false → s.arbNext = some 64 → argsOk c 0 0 0 = true →
      ∃ t, exec (.commandArbitrate .path) s = .next t ∧
        Completed t { c with src := if m.smbus = true then .smbus else .mgmt m.port } 0x0E .ok s.jobWord ∧ SameUnits s t ∧
        t.job = { s.job with lastStatus := Status.ok.code } ∧ t.host = { s.host with arb := 64, path := rest }) ∧
    (s.noBursar = true ∨ s.host.path = [] ∨ s.arbNext ≠ some 64 → exec (.commandArbitrate .path) s = .next s)

/-- R344, R345, R346, R355, R357: an aperture access that no rule refuses reads the bytes of its unit, or writes them; a
refused one has the PCIe status of its rule, changes no memory and shows in HST_APT_ERR and to AER. A host till entry
sends its message on a credit, and a posted buffer gives the till one credit or takes a message that waits. A reset of
the host link unmaps the aperture, disables every ring, takes the credits of the host tills, ends a drain and halts the
slips that have a host access outstanding, once their writes are answered. The model's choice that it rests on: log
entry 186. -/
def Obligations.HostReachesMemoryAndTills : Prop :=
  (∀ (off : BitVec 36) (n : Nat) (data : Bytes) (met : ReadMet) (s : State),
    (∀ p st, s.aptRefusal off n false = some (p, st) →
      ∃ t, exec (.apertureRead off n met) s = .next t ∧ t.out = .pci p [] :: s.out ∧
        (p = .unsupported → bitAt t.host.aer 20 = true) ∧ (p = .abort → bitAt t.host.aer 15 = true) ∧
        t = { s with host := { s.host with aptStatus := st.code, aptOff := off, aer := t.host.aer }, out := t.out }) ∧
    (∀ c a, s.aptRefusal off n false = none → s.aptTarget off n = some (c, a) → met.faults = [] →
      (s.ctl c).badIn c (a / 256 * 256) ((a % 256 + n + 255) / 256 * 256) [] = [] →
      ∃ t, exec (.apertureRead off n met) s = .next t ∧ t.out.head? = some (.pci .success (s.readBytes c a n)) ∧
        t = { s with caches := t.caches, free := t.free, out := t.out, int := t.int, glb := t.glb } ∧
        (met.cacheUe = [] → t.int = s.int ∧ t.glb = s.glb ∧ t.out = .pci .success (s.readBytes c a n) :: s.out) ∧
        (∀ v, c = .vault v → t = { s with out := t.out })) ∧
    (∀ c a, s.aptRefusal off n false = none → s.aptTarget off n = some (c, a) →
      (∀ f, c = .far f → ∀ i, s.resident f i = false) → (s.ctl c).badIn c a n met.faults ≠ [] →
      ∃ t, exec (.apertureRead off n met) s = .next t ∧ t.out.head? = some (.pci .abort []) ∧ bitAt t.host.aer 15 = true ∧
        t.host.aptStatus = Status.uncorrectable.code ∧ t.host.aptOff = off ∧ (t.ctl c).ueSeen = true ∧
        (∀ d : CtlId, (t.ctl d).data = (s.ctl d).data) ∧ t.job = s.job ∧ t.eng = s.eng) ∧
    (∀ p st, s.aptRefusal off data.length true = some (p, st) →
      ∃ t, exec (.apertureWrite off data) s = .next t ∧
        t = { s with host := { s.host with aptStatus := st.code, aptOff := off, aer := t.host.aer } } ∧
        (p = .unsupported → bitAt t.host.aer 20 = true) ∧ (p = .abort → bitAt t.host.aer 15 = true) ∧
        (p = .success → t.host.aer = s.host.aer)) ∧
    (∀ c a, s.aptRefusal off data.length true = none → s.aptTarget off data.length = some (c, a) → s.tagArea c = none →
      (s.ctl c).bad = [] → s.Sound →
      ∃ t, exec (.apertureWrite off data) s = .next t ∧ t = { s with
          vaults := t.vaults, fars := t.fars, caches := t.caches, eng := t.eng, out := t.out } ∧
        (∀ g : EngineId, Told s.eng[g.val] t.eng[g.val]) ∧ (∀ d : CtlId, d ≠ c → t.ctl d = s.ctl d) ∧
        (∀ i : Nat, i < data.length → (t.ctl c).byte (a + i) = data.getD i 0) ∧
        (∀ i : Nat, i < data.length → (t.readPage c ((a + i) / 4096)).2.valid = false) ∧
        ∀ x : Nat, x < ctlBytes c → x < a ∨ a + data.length ≤ x →
          (t.ctl c).byte x = (s.ctl c).byte x)) ∧
  (∀ (r : RingId) (w0 addr : W64) (origin : StepNo) (mb : W16) (data : Bytes) (tags : List (BitVec 128)) (s : State)
      (c : TillEnd) (e : EngineId) (k : Nat), s.ringTill r false = some c → c.engine = e.val → c.till < 64 →
    s.engOk e.val = true → s.tillCfg e.val c.till = some c → s.entryDue r 1 = true → (s.till e c.till).state = 1 →
    (s.till e c.till).o ≠ 0 → s.sealedJob = false → (s.till e c.till).msg (s.till e c.till).nextIn = none → 1 ≤ c.blocks → c.blocks ≤ 2048 →
    c.storeMsgs = 0 → (s.till e c.till).freeSlot c = some k → s.Sound →
    ∃ t m, exec (.hostTillInEntry r w0 addr origin mb data tags) s = .next t ∧
      (t.till e c.till).msg (s.till e c.till).nextIn = some m ∧ m.origin = origin ∧ m.mb = mb ∧ m.slot = some k ∧
      m.blocks.length = c.blocks ∧ (t.till e c.till).o = (s.till e c.till).o - 1 ∧
      (t.host.rings[r.val]).posted = (s.host.rings[r.val]).posted ++ [(w0, addr)] ∧
      (t.host.rings[r.val]).taken = (s.host.rings[r.val]).taken + 1 ∧
      (∀ j : Nat, j < c.blocks → memRead (t.eng[e.val]).store (c.addr + k * c.msgBytes + j * 4096) 4096 =
        pad (slice data (j * 4096) 4096) 4096) ∧ OtherEngines s t e ∧ t.vaults = s.vaults ∧ t.fars = s.fars ∧ t.job = s.job) ∧
  (∀ (r : RingId) (w0 addr : W64) (origin : StepNo) (mb : W16) (data : Bytes) (tags : List (BitVec 128)) (s : State),
    (s.ringTill r false = none ∨ s.entryDue r 1 = false ∨
      (∃ c, s.ringTill r false = some c ∧ ((s.till (Fin.ofNat 128 c.engine) c.till).state ≠ 1 ∨
        (s.till (Fin.ofNat 128 c.engine) c.till).o = 0)) →
      exec (.hostTillInEntry r w0 addr origin mb data tags) s = .next s) ∧
    (s.ringTill r true = none ∨ s.entryDue r 2 = false ∨
      (∃ c, s.ringTill r true = some c ∧ (s.till (Fin.ofNat 128 c.engine) c.till).state ≠ 1) →
      exec (.hostTillOutEntry r w0 addr) s = .next s)) ∧
  (∀ (r : RingId) (w0 addr : W64) (s : State) (c : TillEnd) (e : EngineId), s.ringTill r true = some c → c.engine = e.val →
    c.till < 64 → s.tillCfg e.val c.till = some c → s.entryDue r 2 = true → (s.till e c.till).state = 1 →
    (((s.till e c.till).outs.find? fun o => !o.acked) = none →
      ∃ t, exec (.hostTillOutEntry r w0 addr) s = .next t ∧ (t.till e c.till).credits = (s.till e c.till).credits + 1 ∧
        (t.host.rings[r.val]).posted = (s.host.rings[r.val]).posted ++ [(w0, addr)] ∧ OtherEngines s t e ∧
        (t.eng[e.val]).store = (s.eng[e.val]).store ∧ t.vaults = s.vaults ∧ t.fars = s.fars ∧ t.job = s.job) ∧
    (∀ o, ((s.till e c.till).outs.find? fun o => !o.acked) = some o → (s.host.rings[r.val]).posted = [] →
      ∃ t, exec (.hostTillOutEntry r w0 addr) s = .next t ∧
        Emission.hostWrite addr (s.hostBuffer r o.origin o.mb ((List.range c.blocks).map fun b => s.sourceBlock e c b)) ∈ t.out ∧
        (∀ g : EngineId, g ≠ e → Told s.eng[g.val] t.eng[g.val]) ∧ t.vaults = s.vaults ∧ t.fars = s.fars ∧ t.job = s.job)) ∧
  (∀ s : State, ∃ t, exec .hostLinkReset s = .next t ∧ t.host.ideActive = false ∧
    t.host.aptMap = Vector.replicate 16 0xF000_0000_0000_0000 ∧ (∀ r : RingId, (t.host.rings[r.val]).enabled = false) ∧
    t.job = s.job ∧ (s.ckpt.drain.isSome = true → t.ckpt.drain = none ∧ t.ckpt.failed = satAdd s.ckpt.failed 1) ∧
    (s.planeCfg = none → ∀ (e : EngineId) (k : Nat), t.till e k = s.till e k) ∧
    (∀ (p : PlaneCfg) (c : TillEnd) (e : EngineId), s.planeCfg = some p → c ∈ p.tills → c.path = .host → c.engine = e.val →
      c.till < 64 → if c.isOut = true then (t.till e c.till).credits = 0 else (t.till e c.till).o = 0) ∧
    ∀ (e : EngineId) (ch : ChanId) (x : Slip), 6 ≤ ch.val → (s.chan e ch).onHost e = true → (s.chan e ch).slip = some x →
      (s.chan e ch).halting = none →
      ((t.chan e ch).halting.isSome = true ∨ (t.chan e ch).state = .halted) ∧
      ((s.chan e ch).openBlks = 0 → (∀ (d : CtlId) (m : MergeEnt) (g : EngineId) (k : ChanId),
          m ∈ (s.ctl d).merge → Requester.dma g k ∉ m.writes) →
        s.placePinned (placeOf e (s.chan e ch).cur) 64 = false →
        (t.chan e ch).state = .halted ∧ (t.chan e ch).haltStatus = Status.stateConflict.code))

/-- R358, R455, R462, R464, R491, R492, R506, R507: an object at the DOE mailbox is answered by its type and code while
the bursar runs, the first of a reset waits for it, a second sets the error, and one of another type or code has no
effect. The certificates are framed leaf first, each after its length. A management message joins the arbiter's ring or
is answered on its path; the second copy of one that both ports carry is dropped, as is one of another type. PLDM reads
give the sensors of PWR_INPUT and PWR_TEMP, or are refused while telemetry is shed: the bursar sheds it when its work
queue is above 75 per cent, then the mirroring of the day book, until the queue is below 50 per cent. The model's
choices that it rests on: log entries 12, 47, 50, 53, 190, 193. -/
def Obligations.ReportsAndMessages : Prop :=
  ∀ s : State,
    (∀ (o : DoeObj) (b : Byte) (r : List Byte), o.body = b :: r →
      (s.glb.bursarUp = true → o.vendor = 0x1F3A → o.ty = 0x01 →
        (b = 0x01 → 32 ≤ r.length →
          exec (.getReport o) s = .next { s with out := .doe { o with body := s.report (rdW 256 r 0) } :: s.out }) ∧
        (b = 0x02 → exec (.getCerts o) s = .next { s with out := .doe { o with body := s.certChain } :: s.out }) ∧
        (b = 0x03 → 1600 ≤ r.length →
          ∃ t k, exec (.ideKem o) s = .next t ∧ t.host = { s.host with ideActive := true } ∧
          t.sec = { s.sec with ideKeys := some k } ∧
          k = Config.sha3_512 (toBytes (kemDecap (r.take 1568)) 32 ++ toBytes (rdW 256 r 1568) 32 ++
            [0x5A, 0x43, 0x2D, 0x49, 0x44, 0x45]) ∧
          t.out = .doe { o with body := toBytes (Config.sha3_256 (toBytes k 64 ++
            [0x63, 0x6F, 0x6E, 0x66, 0x69, 0x72, 0x6D])) 32 } :: s.out ∧ SameUnits s t ∧ t.job = s.job)) ∧
      (s.glb.bursarUp = true → o.vendor = 0x0001 → o.ty = 0x00 →
        exec (.getReport o) s = .next { s with out := .doe { o with body := doeDiscovery b } :: s.out })) ∧
    (s.certChain.take (4 + s.sec.store.cert.length) =
      toBytes (BitVec.ofNat 32 s.sec.store.cert.length) 4 ++ s.sec.store.cert) ∧
    (∀ o : DoeObj, doeParse o = none →
      exec (.getReport o) s = .next s ∧ exec (.getCerts o) s = .next s ∧ exec (.ideKem o) s = .next s) ∧
    (∀ o : DoeObj, s.glb.bursarUp = false → (doeParse o).isSome = true →
      let held : SecSt := if s.sec.doeWait = none then { s.sec with doeWait := some o } else { s.sec with doeError := true }
      exec (.getReport o) s = .next { s with sec := held } ∧ exec (.getCerts o) s = .next { s with sec := held } ∧
        exec (.ideKem o) s = .next { s with sec := held }) ∧
    (s.glb.bursarUp = true →
      (∃ t x, ∀ b, exec (.pldmBase b) s = .next t ∧ t.out = .mctp true false 0 0 x :: s.out ∧ x.length = 8 ∧
        t = { s with free := s.free + 1, out := t.out }) ∧
      (∀ (k : Fin 4) (load : Fin 101), ∃ t, exec (.pldmPlatform k load) s = .next t ∧
        t = { s with out := t.out, glb := { s.glb with shedTelemetry := t.glb.shedTelemetry, shedMirror := t.glb.shedMirror } } ∧
        (t.glb.shedTelemetry = true ↔ 75 < load.val ∨ 50 ≤ load.val ∧ s.glb.shedTelemetry = true) ∧
        (t.glb.shedMirror = true ↔
          75 < load.val ∧ s.glb.shedTelemetry = true ∨ 50 ≤ load.val ∧ s.glb.shedMirror = true) ∧
        ((t.glb.shedTelemetry = true ∧ ∃ x, t.out = .mctp true false 0 0 [x] :: s.out) ∨
         (t.glb.shedTelemetry = false ∧
          t.out = .mctp true false 0 0 (0 :: toBytes (if k = 0 then s.pwr.volts else if k = 1 then s.pwr.power else
            s.pwr.temp) 2) :: s.out)))) ∧
    (s.glb.bursarUp = false →
      (∀ b, exec (.pldmBase b) s = .next s) ∧ (∀ k load, exec (.pldmPlatform k load) s = .next s)) ∧
    (∀ m : MctpMsg, s.glb.ready = true → s.mctpHeard m = true → mctpTyped m = true →
      let heard : SecSt := if m.smbus = true then s.sec else { s.sec with mctpLast := some (m.msgTag, m.endpoint, m.port) }
      (m.smbus = false → s.sec.mctpLast = some (m.msgTag, m.endpoint, !m.port) →
        exec (.mctpMessage m) s = .next { s with sec := { s.sec with mctpLast := none } }) ∧
      (m.smbus = true ∨ s.sec.mctpLast ≠ some (m.msgTag, m.endpoint, !m.port) →
        (∀ opc c x img, m.body = .command opc c x img →
          exec (.mctpMessage m) s = .next { s with sec := heard, host := { s.host with path := s.host.path ++ [m] } }) ∧
        (∀ o, m.body = .doe o → s.noBursar = true →
          exec (.mctpMessage m) s = .next { s with sec := heard, host := { s.host with path := s.host.path ++ [m] } }) ∧
        (∀ o r, m.body = .doe o → s.noBursar = false → o.vendor = 0x1F3A → o.ty = 0x01 → o.body = 0x01 :: r → 32 ≤ r.length →
          ∃ t, exec (.mctpMessage m) s = .next t ∧
            t.out = .mctp m.smbus m.port m.msgTag m.endpoint (s.report (rdW 256 r 0)) :: s.out ∧
            t = { s with sec := heard, out := t.out }) ∧
        (∀ k load, m.body = .pldmPlatform k load → s.noBursar = false →
          ∃ t, exec (.mctpMessage m) s = .next t ∧
            t.out = .mctp m.smbus m.port m.msgTag m.endpoint ((s.shedLoad load).pldmSensor k) :: s.out ∧
            t = { s with sec := heard, glb := t.glb, out := t.out }) ∧
        (∀ b, m.body = .pldmBase b → s.noBursar = false →
          ∃ t x, exec (.mctpMessage m) s = .next t ∧ t.out = .mctp m.smbus m.port m.msgTag m.endpoint x :: s.out ∧
            x.length = 8 ∧ t = { s with sec := heard, free := s.free + 1, out := t.out }) ∧
        (s.noBursar = true → (∃ b, m.body = .pldmBase b) ∨ (∃ k load, m.body = .pldmPlatform k load) →
          exec (.mctpMessage m) s = .next { s with sec := heard }))) ∧
    (∀ m : MctpMsg, s.mctpHeard m = false ∨ mctpTyped m = false ∨ s.glb.ready = false → exec (.mctpMessage m) s = .next s)

/-! ### Power -/

/-- R6, R7, R470, R472, R473, R474, R475, R476, R478, R480, R482: the input's level shows in its flags and in ALERT_N;
the fast cap and the hundredth tick over budget are counted and bring the throttle, which ends with a whole tick within
the budget, and the arrays then ramp again. A tick over budget lowers every engine by one curve point, one below the
budget by more than the hysteresis raises it again, and an island at its cap heats by one. The installer's write that
commits the staging window stores a table that passes its checks, unless 32 others are held, and marks the status of one
that does not. -/
def Obligations.TreasurerKeepsTheBudget : Prop :=
  ∀ s : State,
    (∃ t, exec .inputLow s = .next t ∧ t = { s with pwr := t.pwr, glb := t.glb } ∧
      t.pwr = { s.pwr with inputLow := true, inputHigh := false } ∧ (s.glb.hold ≠ .off → t.glb.alertN = true)) ∧
    (∃ t, exec .inputHigh s = .next t ∧ t = { s with pwr := t.pwr, glb := t.glb } ∧
      t.pwr = { s.pwr with inputLow := false, inputHigh := true } ∧ (s.glb.hold ≠ .off → t.glb.alertN = true)) ∧
    (∃ t, exec .inputNormal s = .next t ∧ t = { s with pwr := t.pwr, glb := t.glb } ∧
      t.pwr = { s.pwr with inputLow := false, inputHigh := false }) ∧
    (∃ t, exec .fastCapTrip s = .next t ∧ t = { s with pwr := t.pwr, glb := t.glb } ∧
      t.pwr = { s.pwr with capTrips := satAdd s.pwr.capTrips 1, throttle := true, throttleWhole := false } ∧
      (s.glb.hold ≠ .off → t.glb.alertN = true)) ∧
    (100 ≤ s.pwr.overTicks → ∃ t, exec .excursion s = .next t ∧ t = { s with pwr := t.pwr, glb := t.glb } ∧
      t.pwr = { s.pwr with excursions := satAdd s.pwr.excursions 1, throttle := true, throttleWhole := false }) ∧
    (s.pwr.overTicks < 100 → exec .excursion s = .next s) ∧
    (∀ r : Readings, ∃ t, exec (.budgetTick r) s = .next t ∧ t.job = s.job ∧ t.vaults = s.vaults ∧ t.fars = s.fars ∧
      (s.pwr.throttle = false ∨ t.pwr.throttle = true → t.eng = s.eng) ∧
      (s.pwr.throttle = true → t.pwr.throttle = false → ∀ e : EngineId,
        t.eng[e.val] = { s.eng[e.val] with arr := (t.eng[e.val]).arr } ∧ ∀ k : ArrId,
          ((t.eng[e.val]).arr.arr k).ramping = true ∨ ((t.eng[e.val]).arr.arr k).idle = true) ∧
      t.pwr.volts = r.volts ∧ t.pwr.budget = s.pwr.budget ∧
      (s.pwr.budgetW < r.power → t.pwr.overTicks = s.pwr.overTicks + 1 ∧
        t.pwr.level = (if s.pwr.level < Config.engineCurvePoints - 1 then s.pwr.level + 1 else s.pwr.level)) ∧
      (r.power ≤ s.pwr.budgetW → t.pwr.overTicks = 0) ∧
      (r.power + fld s.pwr.budget 31 16 < s.pwr.budgetW → t.pwr.level = s.pwr.level - 1) ∧
      (r.power ≤ s.pwr.budgetW → s.pwr.budgetW ≤ r.power + fld s.pwr.budget 31 16 → t.pwr.level = s.pwr.level) ∧
      (s.pwr.throttle = true → s.pwr.throttleWhole = true → r.power ≤ s.pwr.budgetW → t.pwr.throttle = false) ∧
      (s.pwr.throttle = true → s.pwr.throttleWhole = false → t.pwr.throttle = true ∧ t.pwr.throttleWhole = true) ∧
      (∀ (i : IslandIdx) (x : Int), tempOf r i = some x → (fld s.pwr.thermal 7 0 : Nat) ≤ x →
        (s.pwr.isl[i.val]).heat < lastPoint i →
        (t.pwr.isl[i.val]).heat = (s.pwr.isl[i.val]).heat + 1 ∧ t.pwr.thermalCap = true) ∧
      ∀ e : EngineId, (t.pwr.isl[e.val]).freq = BitVec.ofNat 16 (2500 - 100 *
        Nat.min (t.pwr.level + (t.pwr.isl[e.val]).probF + (t.pwr.isl[e.val]).heat) (Config.engineCurvePoints - 1))) ∧
    (∀ (c : Cmd) (k u : Byte), RegTaken s c 1 0x20_0040 → bitAt c.arg1 16 = true → k = BitVec.ofNat 8 (fld c.arg1 7 0) →
      u = BitVec.ofNat 8 (fld c.arg1 15 8) →
      (installerOk s.pwr.window k.toNat u.toNat = false →
        ∃ t, exec (.curveCommit c) s = .next t ∧ Completed t c 0x22 .ok 0 ∧
          t.pwr = { s.pwr with curveCtrl := t.pwr.curveCtrl } ∧ fld t.pwr.curveCtrl 63 56 = Status.badCharter.code.toNat ∧
          t.job = s.job ∧ t.eng = s.eng ∧ t.vaults = s.vaults ∧ t.fars = s.fars) ∧
      (installerOk s.pwr.window k.toNat u.toNat = true →
        32 ≤ ((newestCurves s.pwr.curves).filter fun h => !(h.kind == k && h.target == u)).length →
        ∃ t, exec (.curveCommit c) s = .next t ∧ Completed t c 0x22 .stateConflict 0 ∧ t.pwr = s.pwr ∧ t.job = s.job ∧
          t.eng = s.eng ∧ t.vaults = s.vaults ∧ t.fars = s.fars) ∧
      (installerOk s.pwr.window k.toNat u.toNat = true →
        ((newestCurves s.pwr.curves).filter fun h => !(h.kind == k && h.target == u)).length < 32 →
        ∃ t h, exec (.curveCommit c) s = .next t ∧ Completed t c 0x22 .ok 0 ∧
          t.pwr.curveCtrl = c.arg1 &&& 0xFF00_0000_0001_FFFF ∧ t.pwr.curves.head? = some h ∧
          (∀ x ∈ s.pwr.curves, x.kind ≠ k ∨ x.target ≠ u → x ∈ t.pwr.curves) ∧ h.kind = k ∧
          h.target = u ∧ h.curve = parseCurve s.pwr.window 0 ∧ (h.waiting = true ↔ s.job.state = .running) ∧ t.job = s.job ∧
          t.eng = s.eng ∧ t.vaults = s.vaults ∧ t.fars = s.fars)) ∧
    (∀ c : Cmd, cmdReg c ≠ some .curveCtrl ∨ bitAt c.arg1 16 = false → exec (.curveCommit c) s = .next s) ∧
    (∃ t, exec .smbusStop s = .next t ∧ t = { s with glb := { s.glb with smbAddr := BitVec.ofNat 7 (fld s.glb.mgmtCfg 22 16) } })

/-! ### Start-up, resets, recovery -/

/-- R447, R458, R487, R490, R494, R500, R504: with a firmware image that passes its check and nothing that holds the
start, every cause of a start ends READY with the job EMPTY, the boot count one higher and the enrolled keys of the
security store; power that was off leaves the memories as nothing has written them, a reset with power kept leaves their
contents, or zeros where a job had not ended. A start that the fuses, the recovery strap, the flash or watchdog resets
stop waits as R494 and R495 say; one that waits for PERST# goes on from step 8; the 156.25 MHz reference trains the
ports. The model's choices that it rests on: log entries 6, 7, 103. -/
def Obligations.StartUpEndsReady : Prop :=
  (∀ (env : StartEnv) (s : State) (c : Instr), StartClear env s →
    (c = .moduleReset env ∧ s.glb.resetDue = 1 ∧ s.glb.hold ≠ .off ∧ s.glb.ref100 = true ∧ s.glb.resetN = false ∨
     c = .powerApplied env ∧ s.glb.hold = .off ∧ s.glb.ref100 = true ∧ s.glb.resetN = false ∨
     c = .thermalCooldown env ∧ s.glb.hold = .cool ∧ s.glb.ref100 = true ∧ s.glb.resetN = false ∨
     c = .resetNDeassert env ∧ s.glb.hold = .resetN ∧ s.glb.ref100 = true ∨
     c = .refClockPresent false env ∧ s.glb.hold = .refClock ∧ s.glb.resetN = false) →
    ∃ t, exec c s = .next t ∧ t.glb.ready = true ∧ t.glb.startStep = 11 ∧ t.glb.bursarUp = true ∧ t.glb.hold = .done ∧
      t.sec.boot = wrapAdd s.sec.store.boot 1 ∧ t.sec.keyI = s.sec.store.keyI ∧ t.sec.keyO = s.sec.store.keyO ∧
      t.sec.store.jobFlag = false ∧ t.sec.seqM = 0 ∧ t.sec.seqI = 0 ∧ t.sec.seqO = 0 ∧
      (c = .moduleReset env ∨ c = .powerApplied env → t.job = JobSt.init) ∧
      (c = .moduleReset env → t.glb.lastReset = 5) ∧
      (c = .powerApplied env → t.glb.lastReset = (if s.glb.lastReset = 3 then 3 else 1) ∧
        (s.sec.store.jobFlag = false → ∀ x : CtlId, (t.ctl x).data = [])) ∧
      (c = .moduleReset env ∨ c ≠ .powerApplied env ∧ s.job.state = .empty → s.sec.store.jobFlag = false →
        (c = .moduleReset env → ∀ (e : EngineId) (ch : ChanId), (s.chan e ch).busy = false) → ∀ x : CtlId, (t.ctl x).data = (s.ctl x).data) ∧
      (c = .moduleReset env → s.sec.store.jobFlag = true → ∀ (x : CtlId) (a : Nat), a < ctlBytes x → (t.ctl x).byte a = 0)) ∧
  (∀ (env : StartEnv) (s : State),
    (s.glb.hold = .off ∨ s.glb.resetDue ≠ 1 → exec (.moduleReset env) s = .next s) ∧
    (s.glb.hold ≠ .off → exec (.powerApplied env) s = .next s) ∧
    (s.glb.hold ≠ .cool → exec (.thermalCooldown env) s = .next s) ∧
    (s.glb.hold ≠ .resetN → exec (.resetNDeassert env) s = .next { s with glb := { s.glb with resetN := false } }) ∧
    (s.glb.hold ≠ .off → s.glb.resetDue = 1 → s.glb.ref100 = true → s.glb.resetN = false →
      (env.fuseSplit = true →
        ∃ t, exec (.moduleReset env) s = .next t ∧ t.glb.hold = .fuseSplit ∧ t.glb.ready = false ∧ t.glb.alertN = true) ∧
      (env.fuseSplit = false → s.glb.pinRecovery = true ∨ s.sec.flash = none ∨ 3 ≤ env.watchdogs →
        ∃ t, exec (.moduleReset env) s = .next t ∧ t.glb.hold = .recovery ∧ t.glb.ready = false)) ∧
    (s.glb.hold = .perst → ∃ t, exec (.perstNDeassert env) s = .next t ∧ t.glb.perst = false ∧ t.glb.ready = true ∧
      t.glb.startStep = 11 ∧ t.glb.hold = .done) ∧
    (∃ t, exec (.refClockPresent true env) s = .next t ∧ t.glb.ref156 = true ∧ t.job = s.job ∧
      (s.glb.hold = .off → t = { s with glb := t.glb }) ∧
      (s.glb.hold ≠ .off → t.pwr.refLost156 = false) ∧
      (s.glb.hold = .done → ∀ p : PortId, (s.ports[p.val]).state ≠ 3 → (s.ports[p.val]).up = false →
        if bitAt env.portBad p.val = true then (t.ports[p.val]).state = 3 else (t.ports[p.val]).up = true)))

/-- R357, R470, R472, R478, R486, R487, R488, R489, R492, R493, R500, R504: power loss and module resets leave an empty
job; a reset held by a pin or by heat waits at step 2. A lost reference or PERST# takes down the links that run on it. A
half reset that the installer has asked for and an engine reset leave their own units empty and the others as they were;
an engine that the job uses is not reset. A bursar reset stops only the commands, and ends with the code checked. The
model's choices that it rests on: log entries 7, 18, 100, 102, 103, 107. -/
def Obligations.ResetsAndReferences : Prop :=
  ∀ s : State,
    (s.glb.hold ≠ .off →
      (∀ c : Instr, c = .inputLoss ∨ c = .overVoltage →
        ∃ t, exec c s = .next t ∧ t.glb.hold = .off ∧ t.glb.lastReset = (if c = .inputLoss then 3 else 0) ∧
          t.job = JobSt.init ∧ t.sec.store = s.sec.store ∧ t.sec.flash = s.sec.flash ∧ t.eng = State.reset.eng ∧
          ∀ x : CtlId, (t.ctl x).data = []) ∧
      (∃ t, exec .thermalTrip s = .next t ∧ t.glb.hold = .cool ∧ t.glb.lastReset = 4 ∧ t.job = JobSt.init ∧
        t.glb.startStep = 2 ∧ t.eng = State.reset.eng ∧ t.sec.store = s.sec.store ∧
        ((∀ (e : EngineId) (ch : ChanId), (s.chan e ch).busy = false) → ∀ x : CtlId, (t.ctl x).data = (s.ctl x).data)) ∧
      (∀ n : Nat, 10 ≤ n → s.glb.hold ≠ .cool →
        ∃ t, exec (.resetNAssert n) s = .next t ∧ t.glb.hold = .resetN ∧ t.glb.resetN = true ∧ t.glb.lastReset = 2 ∧
          t.job = JobSt.init ∧ t.eng = State.reset.eng ∧
          ((∀ (e : EngineId) (ch : ChanId), (s.chan e ch).busy = false) → ∀ x : CtlId, (t.ctl x).data = (s.ctl x).data)) ∧
      (∃ t, exec (.refClockLost false) s = .next t ∧ t.glb.ref100 = false ∧ t.pwr.refLost100 = true ∧ t.host.ltssm = 0 ∧
        t.glb.alertN = true ∧ (∀ r : RingId, (t.host.rings[r.val]).enabled = false) ∧ t.job = s.job) ∧
      (∃ t, exec (.refClockLost true) s = .next t ∧ t.glb.ref156 = false ∧ t.pwr.refLost156 = true ∧ t.glb.alertN = true ∧
        (∀ p : PortId, (s.ports[p.val]).state ≠ 3 → (t.ports[p.val]).state = 0) ∧ t.job = s.job ∧
        (∀ g : EngineId, Told s.eng[g.val] t.eng[g.val]) ∧
        t.vaults = s.vaults ∧ t.fars = s.fars)) ∧
    (s.glb.hold = .off → exec .inputLoss s = .next s ∧ exec .overVoltage s = .next s ∧ exec .thermalTrip s = .next s ∧
      exec (.refClockLost false) s = .next { s with glb := { s.glb with ref100 := false } } ∧
      exec (.refClockLost true) s = .next { s with glb := { s.glb with ref156 := false } } ∧
      ∀ n : Nat, 10 ≤ n → exec (.resetNAssert n) s = .next { s with glb := { s.glb with resetN := true } }) ∧
    (∀ n : Nat, 10 ≤ n → s.glb.hold = .cool →
      ∃ t, exec (.resetNAssert n) s = .next t ∧ t.glb.hold = .cool ∧ t.glb.resetN = true ∧ t.job = JobSt.init) ∧
    exec (.resetNAssert 0) s = .next s ∧
    (∀ n : Nat, 1 ≤ n → n < 10 → exec (.resetNAssert n) s = .next { s with free := s.free + 1 } ∨
      exec (.resetNAssert n) s = exec (.resetNAssert 10) { s with free := s.free + 1 }) ∧
    (∃ t, exec .perstNAssert s = .next t ∧ t.glb.perst = true ∧ t.host.ltssm = 0 ∧ t.host.ideActive = false ∧
      (∀ r : RingId, (t.host.rings[r.val]).enabled = false) ∧ t.job = s.job) ∧
    (∀ (env : StartEnv) (rate : BitVec 4) (w : BitVec 5) (f : Bool), s.glb.hold = .done → env.pcie = some (rate, w, f) →
      ∃ t, exec (.perstNDeassert env) s = .next t ∧ t.glb.perst = false ∧ t.host.ltssm = 1 ∧
        t.host.rate = (if f = false ∧ 5 < rate.toNat then 5 else rate) ∧ t.job = s.job ∧ t.eng = s.eng ∧ t.vaults = s.vaults ∧ t.fars = s.fars) ∧
    (∀ env : StartEnv, s.glb.hold ≠ .perst → s.glb.hold ≠ .done ∨ env.pcie = none →
      exec (.perstNDeassert env) s = .next { s with glb := { s.glb with perst := false } }) ∧
    (∀ (env : StartEnv) (east : Bool), s.glb.hold ≠ .done ∨ s.glb.resetDue ≠ (if east = true then 3 else 2) →
      exec (.halfReset east env) s = .next s) ∧
    (∀ (env : StartEnv) (east : Bool), s.glb.hold = .done → s.glb.resetDue = (if east = true then 3 else 2) →
      (s.job.state = .empty → (∀ (e : EngineId) (ch : ChanId), (s.chan e ch).busy = false) →
        ∃ t, exec (.halfReset east env) s = .next t ∧ t.job.state = .empty ∧ t.glb.resetDue = 0 ∧
          (∀ e : EngineId, inHalf east e.val = true → (t.eng[e.val]).store = [] ∧ (t.eng[e.val]).acc = [] ∧
            (t.eng[e.val]).int = (s.eng[e.val]).int) ∧
          (∀ e : EngineId, inHalf east e.val = false → Told s.eng[e.val] t.eng[e.val]) ∧
          (∀ v : VaultId, (t.vaults[v.val]).data = if decide (16 ≤ v.val) = east then [] else (s.vaults[v.val]).data) ∧
          (∀ f : FarId, (t.fars[f.val]).data = if decide (24 ≤ f.val) = east then [] else (s.fars[f.val]).data)) ∧
      (s.job.state = .running ∨ s.job.state = .active →
        ∃ t, exec (.halfReset east env) s = .next t ∧ t.job.state = .held ∧ t.glb.resetDue = 0 ∧
          ∀ e : EngineId, inHalf east e.val = true → (t.eng[e.val]).store = [] ∧ (t.eng[e.val]).acc = [])) ∧
    (∀ (c : Cmd) (e : EngineId), RegTaken s c 1 0x20_0038 → fld c.arg1 2 0 = 3 → fld c.arg1 15 8 = e.val →
      (s.engResetOk e = true → s.glb.hold = .done → (∀ ch : ChanId, (s.chan e ch).busy = false) →
        ∃ t, exec (.engineReset c) s = .next t ∧ Completed t c 0x22 .ok 0 ∧ OtherEngines s t e ∧ (t.eng[e.val]).store = [] ∧ (t.eng[e.val]).acc = [] ∧
          (t.eng[e.val]).float = [] ∧ (t.eng[e.val]).int = (s.eng[e.val]).int ∧ t.job = s.job ∧ t.vaults = s.vaults ∧
          t.fars = s.fars) ∧
      (s.engResetOk e = false →
        ∃ t, exec (.engineReset c) s = .next t ∧ Completed t c 0x22 .stateConflict 0 ∧ SameUnits s t ∧ t.job = s.job)) ∧
    (s.glb.bursarUp = true →
      (∀ c : Cmd, RegTaken s c 1 0x20_0038 → fld c.arg1 2 0 = 4 →
        ∃ t, exec (.bursarReset c) s = .next t ∧ Completed t c 0x22 .ok 0 ∧ t.glb.bursarUp = false ∧
        (s.job.state ≠ .verifying → t.eng = s.eng ∧ t.vaults = s.vaults ∧ t.fars = s.fars) ∧
        t.job.state = (match s.job.state with
          | .verifying => .empty
          | .activating => .verified
          | .restoring => .held
          | x => x) ∧
        (s.job.state = .running → t.job = s.job)) ∧
      (∃ t, exec .watchdogExpiry s = .next t ∧ t.glb.bursarUp = false ∧
        t.sec.wdogResets = satAdd s.sec.wdogResets 1 ∧
        (s.job.state ≠ .verifying → t.eng = s.eng ∧ t.vaults = s.vaults ∧ t.fars = s.fars))) ∧
    (s.glb.bursarUp = false → exec .watchdogExpiry s = .next s) ∧
    (∀ (ok : Bool) (env : StartEnv), s.glb.bursarUp = true ∨ s.glb.ready = false → exec (.bursarUp ok env) s = .next s) ∧
    (∀ env : StartEnv, s.glb.bursarUp = false → s.glb.ready = true →
      (∃ t, exec (.bursarUp true env) s = .next t ∧ t.glb.bursarUp = true ∧ t.job = s.job ∧ t.eng = s.eng ∧
        t.vaults = s.vaults ∧ t.fars = s.fars ∧ t.sec.doeWait = none ∧
        (s.sec.doeWait = none → t.out = s.out) ∧
        (∀ (o : DoeObj) (r : List Byte), s.sec.doeWait = some o → o.vendor = 0x1F3A → o.ty = 0x01 → o.body = 0x01 :: r →
          32 ≤ r.length → t.out = .doe { o with body := s.report (rdW 256 r 0) } :: s.out)) ∧
      (∃ t, exec (.bursarUp false env) s = .next t ∧ t.glb.lastReset = 5 ∧ t.job = JobSt.init ∧ t.sec.flash = s.sec.flash))

/-- R495, R496: in recovery the module announces itself on both ports, keeps each chunk whose CRC holds and answers it, and
takes a complete image that passes the checks of firmware for the flash, entered in the day book, with a module reset; any
other is refused and the loader waits on. The model's choices that it rests on: log entry 101. -/
def Obligations.RecoveryTakesAnImage : Prop :=
  (∀ s : State, s.glb.hold = .recovery →
    (∃ t x, exec .recoveryAnnounce s = .next t ∧ t = { s with out := t.out } ∧
      t.out = .ether true (BitVec.ofNat 16 (fld s.int.errCfg 15 0)) 0xFFFF_FFFF_FFFF x ::
        .ether false (BitVec.ofNat 16 (fld s.int.errCfg 15 0)) 0xFFFF_FFFF_FFFF x :: s.out ∧
      x.take 4 = [1, 0, 1, 0]) ∧
    (∀ (off len crc : W32) (data : Bytes), len ≠ 0 → len.toNat ≤ 1024 → data.length = len.toNat →
      off.toNat + len.toNat ≤ 16777216 →
      ∃ t x, exec (.chunk off len crc data) s = .next t ∧ t = { s with sec := t.sec, out := t.out } ∧
        Emission.ether false (BitVec.ofNat 16 (fld s.int.errCfg 15 0)) 0xFFFF_FFFF_FFFF x ∈ t.out ∧
        if crc32c data = crc
        then t.sec = { s.sec with recovery := (off.toNat, data) :: s.sec.recovery } ∧ x.take 4 = [1, 0, 3, 0]
        else t.sec = s.sec ∧ x.take 4 = [1, 0, 3, Status.hallmarkFail.code]) ∧
    (∀ (off len crc : W32) (data : Bytes), len = 0 ∨ 1024 < len.toNat ∨ data.length ≠ len.toNat ∨
        16777216 < off.toNat + len.toNat →
      ∃ t x, exec (.chunk off len crc data) s = .next t ∧ t = { s with out := t.out } ∧
        Emission.ether false (BitVec.ofNat 16 (fld s.int.errCfg 15 0)) 0xFFFF_FFFF_FFFF x ∈ t.out ∧
        x.take 4 = [1, 0, 3, Status.stateConflict.code]) ∧
    (∀ (len : W32) (env : StartEnv), 16777216 < len.toNat →
      ∃ t, exec (.done len env) s = .next t ∧ t = { s with out := t.out }) ∧
    (∀ (len : W32) (env : StartEnv) (img : List Byte), len.toNat ≤ 16777216 → img.length = len.toNat →
      (∀ i : Nat, i < len.toNat → chunkByte s.sec.recovery i = some (img.getD i 0)) →
      (s.fwOk img = true → ∃ t, exec (.done len env) s = .next t ∧ t.sec.flash = some img ∧ t.glb.lastReset = 6 ∧
        t.job = JobSt.init) ∧
      (s.fwOk img = false → ∃ t, exec (.done len env) s = .next t ∧ t = { s with out := t.out } ∧
        t.glb.hold = .recovery)) ∧
    (∀ (len : W32) (env : StartEnv) (i : Nat), i < len.toNat → chunkByte s.sec.recovery i = none →
      ∃ t, exec (.done len env) s = .next t ∧ t = { s with out := t.out })) ∧
  (∀ (s : State) (off len crc : W32) (data : Bytes) (env : StartEnv), s.glb.hold ≠ .recovery →
    exec .recoveryAnnounce s = .next s ∧ exec (.chunk off len crc data) s = .next s ∧ exec (.done len env) s = .next s)


/-! ### The queue, reset, the invariant -/

/-- The command at the front of the queue is the one a step runs, on the state with the queue's rest. On an empty queue the
block idles: the model's choice (log entry 15). -/
def Obligations.StepRunsTheFront : Prop :=
  (∀ (c : Instr) (rest : List Instr) (s : State), step { s with pending := c :: rest } = exec c { s with pending := rest }) ∧
  (∀ s : State, s.pending = [] → step s = .next s)

/-- The Reset column of the register index (18): what the registers of State.reset read as, by group: the module's, the
security block's, the treasurer's, the controllers', the ports', the host's and the engines'. -/
def Obligations.ResetRegisters : Prop :=
  (∀ x ∈ ([(0x100, 0x0000_3030_2008_8002), (0x200, 0), (0x208, 0), (0x210, 0), (0x400, 0), (0x408, 0x3_88B5),
      (0x410, 0xFFFF_FFFF_FFFF), (0x430, 0), (0x608, 0x6A_88B6), (0x10_0248, 0x3E8), (0x20_0010, 0x64_0ED8),
      (0x20_0018, 0x4_1130), (0x20_0020, 0x64), (0x5C_0000, 0x1_86A0), (0x60_0010, 0)] : List (Nat × W64)),
    State.reset.regRead x.1 = x.2) ∧
  (∀ v : VaultId, State.reset.regRead (0x40_0000 + v.val * 0x1000 + 8) = 0x40_0080 ∧
    State.reset.regRead (0x40_0000 + v.val * 0x1000 + 0x10) = 0x1_0002 ∧
    State.reset.regRead (0x40_0000 + v.val * 0x1000 + 0x18) = 0) ∧
  (∀ f : FarId, State.reset.regRead (0x48_0000 + f.val * 0x1000 + 8) = 0x40_0080 ∧
    State.reset.regRead (0x48_0000 + f.val * 0x1000 + 0x10) = 0x1_0002) ∧
  (∀ p : PortId, State.reset.regRead (0x50_0000 + p.val * 0x4000 + 8) = 0x4000_0008) ∧
  (∀ k : Fin 16, State.reset.regRead (0x60_0100 + k.val * 8) = 0xF000_0000_0000_0000) ∧
  (∀ (e : EngineId) (c : ChanId), State.reset.regRead (0x100_0000 + e.val * 0x1_0000 + 0x28) = 6 ∧
    State.reset.regRead (0x100_0000 + e.val * 0x1_0000 + 0x2020 + c.val * 0x40) = 3 ∧
    State.reset.regRead (0x100_0000 + e.val * 0x1_0000 + 0x2000 + c.val * 0x40) = 0)

/-- The state after reset is sound: memories in canonical form, queues and buffers within their bounds, every aperture
segment unmapped, no ring enabled. -/
def Obligations.ResetIsSound : Prop := State.reset.Sound

/-- R80, R272, R344, R347, R402, R457: a step from a sound state ends in a sound state: memories stay in canonical form, a
tile queue holds at most 32 tiles, a merge buffer at most 64 entries, each with bytes of its codeword, the mailbox and the
day book at most 4,096, every aperture segment is unmapped or lies on 4 GiB of one unit, and a ring that is enabled has a SIZE and a KIND that R347
admits. -/
def Obligations.StepKeepsSound : Prop :=
  ∀ s t : State, s.Sound → step s = .next t → t.Sound
end

