-- ==== Sys2Proof/Laws/Memory.lean ====
section
/-! SUPPORT. The laws of the byte memories: canonical form, and a read after a write. -/

namespace Sys2Proof.Machine

/-- A list of cells is sorted above a bound when its first address is. -/
def memAbove (k : Nat) : Mem → Prop
  | [] => True
  | (a, _) :: _ => k < a

theorem memSorted_cons (k : Nat) (v : Byte) (m : Mem) :
    memSorted ((k, v) :: m) = true ↔ v ≠ memUnlisted ∧ memAbove k m ∧ memSorted m = true := by
  cases m with
  | nil => simp [memSorted, memAbove]
  | cons c r => obtain ⟨k', v'⟩ := c; simp [memSorted, memAbove, and_assoc]

theorem memAbove_memSet (m : Mem) (k a : Nat) (b : Byte) (h : memAbove k m) (hm : memSorted m = true) (ha : k < a) :
    memAbove k (memSet m a b) := by
  cases m with
  | nil => simp only [memSet]; split <;> simp [memAbove, ha]
  | cons c r =>
    obtain ⟨k', v'⟩ := c
    simp only [memAbove] at h
    simp only [memSet]
    split
    · split <;> simp [memAbove, ha, h]
    · split
      · split
        · rw [memSorted_cons] at hm
          cases r with
          | nil => trivial
          | cons c r => obtain ⟨k2, v2⟩ := c; simp only [memAbove] at hm ⊢; omega
        · simpa [memAbove] using ha
      · simpa [memAbove] using h

theorem memSet_wf (m : Mem) (a : Nat) (b : Byte) (h : m.wf) : (memSet m a b).wf := by
  induction m with
  | nil => simp only [memSet, Mem.wf]; split <;> simp_all [memSorted]
  | cons c r ih =>
    obtain ⟨k, v⟩ := c
    have h' := (memSorted_cons k v r).1 h
    simp only [memSet, Mem.wf]
    split
    · split
      · exact h
      · rw [memSorted_cons]; exact ⟨by assumption, by simpa [memAbove] using ‹a < k›, h⟩
    · split
      · split
        · exact h'.2.2
        · rename_i ha hb; subst ha; rw [memSorted_cons]; exact ⟨hb, h'.2⟩
      · rw [memSorted_cons]
        exact ⟨h'.1, memAbove_memSet r k a b h'.2.1 h'.2.2 (by omega), ih h'.2.2⟩

theorem memWrite_wf (m : Mem) (a : Nat) (bs : List Byte) (h : m.wf) : (memWrite m a bs).wf := by
  induction bs generalizing m a with
  | nil => exact h
  | cons b bs ih => exact ih _ _ (memSet_wf m a b h)

theorem memFilter_above (m : Mem) (k : Nat) (p : Host.Cell → Bool) (h : memAbove k m) (hm : memSorted m = true) :
    memAbove k (m.filter p) := by
  induction m with
  | nil => trivial
  | cons c r ih =>
    obtain ⟨a, v⟩ := c
    have h' := (memSorted_cons a v r).1 hm
    simp only [memAbove] at h
    rw [List.filter_cons]
    split
    · exact h
    · apply ih _ h'.2.2
      cases r with
      | nil => trivial
      | cons c r => obtain ⟨a2, v2⟩ := c; simp only [memAbove] at h' ⊢; omega

theorem memFilter_wf (m : Mem) (p : Host.Cell → Bool) (h : m.wf) : Mem.wf (m.filter p) := by
  induction m with
  | nil => exact h
  | cons c r ih =>
    obtain ⟨a, v⟩ := c
    have h' := (memSorted_cons a v r).1 h
    rw [List.filter_cons]
    split
    · exact (memSorted_cons _ _ _).2 ⟨h'.1, memFilter_above r a p h'.2.1 h'.2.2, ih h'.2.2⟩
    · exact ih h'.2.2

theorem memClear_wf (m : Mem) (a n : Nat) (h : m.wf) : (memClear m a n).wf := memFilter_wf m _ h

theorem memGet_above (m : Mem) (k : Nat) (h : memAbove k m) (hm : memSorted m = true) : memGet m k = memUnlisted := by
  induction m with
  | nil => rfl
  | cons c r ih =>
    obtain ⟨a, v⟩ := c
    have h' := (memSorted_cons a v r).1 hm
    simp only [memAbove] at h
    have hne : a ≠ k := by omega
    simp only [memGet, hne, if_false]
    apply ih _ h'.2.2
    cases r with
    | nil => trivial
    | cons c r => obtain ⟨a2, v2⟩ := c; simp only [memAbove] at h' ⊢; omega

/-- A read after a write of one byte: the byte at its address, every other byte as before. -/
theorem memGet_memSet (m : Mem) (a x : Nat) (b : Byte) (h : m.wf) :
    memGet (memSet m a b) x = if x = a then b else memGet m x := by
  induction m with
  | nil =>
    simp only [memSet]
    by_cases hx : x = a
    · subst hx; by_cases hb : b = memUnlisted <;> simp [hb, memGet]
    · have : a ≠ x := fun h => hx h.symm
      by_cases hb : b = memUnlisted <;> simp [hb, memGet, hx, this]
  | cons c r ih =>
    obtain ⟨k, v⟩ := c
    have h' := (memSorted_cons k v r).1 h
    have hk := memGet_above r k h'.2.1 h'.2.2
    simp only [memSet]
    by_cases h1 : a < k
    · simp only [h1, if_true]
      have hak : memGet ((k, v) :: r) a = memUnlisted := memGet_above _ a (by simpa [memAbove] using h1) h
      by_cases hx : x = a
      · subst hx; by_cases hb : b = memUnlisted
        · simp [hb, hak]
        · simp [hb, memGet]
      · have : a ≠ x := fun h => hx h.symm
        by_cases hb : b = memUnlisted <;> simp [hb, hx, memGet, this]
    · by_cases h2 : a = k
      · subst h2
        by_cases hx : x = a
        · subst hx; by_cases hb : b = memUnlisted <;> simp [hb, memGet, hk]
        · have : a ≠ x := fun h => hx h.symm
          by_cases hb : b = memUnlisted <;> simp [hb, hx, memGet, this]
      · simp only [h1, h2, if_false, memGet]
        by_cases hx : x = a
        · subst hx
          have : k ≠ x := fun h => h2 h.symm
          simp [this, ih h'.2.2]
        · by_cases hkx : k = x
          · simp [hkx, hx]
          · simp [hkx, hx, ih h'.2.2]

/-- A byte outside a written range reads as before. -/
theorem memGet_memWrite_out (m : Mem) (a x : Nat) (bs : List Byte) (h : m.wf) (hx : x < a ∨ a + bs.length ≤ x) :
    memGet (memWrite m a bs) x = memGet m x := by
  induction bs generalizing m a with
  | nil => rfl
  | cons b bs ih =>
    simp only [List.length_cons] at hx
    rw [memWrite, ih _ _ (memSet_wf m a b h) (by omega), memGet_memSet m a x b h, if_neg (by omega)]

/-- The bytes of a written range read back. -/
theorem memGet_memWrite_in (m : Mem) (a i : Nat) (bs : List Byte) (h : m.wf) (hi : i < bs.length) :
    memGet (memWrite m a bs) (a + i) = bs[i] := by
  induction bs generalizing m a i with
  | nil => simp at hi
  | cons b bs ih =>
    cases i with
    | zero =>
      simp only [Nat.add_zero, List.getElem_cons_zero]
      rw [memWrite, memGet_memWrite_out _ _ _ _ (memSet_wf m a b h) (by omega), memGet_memSet m a a b h, if_pos rfl]
    | succ i =>
      have := ih (memSet m a b) (a + 1) i (memSet_wf m a b h) (by simpa using hi)
      rw [memWrite, show a + (i + 1) = a + 1 + i by omega, this]; simp

theorem memRead_length (m : Mem) (a n : Nat) : (memRead m a n).length = n := by
  induction n generalizing a with
  | zero => rfl
  | succ n ih => simp [memRead, ih]

theorem memRead_get (m : Mem) (a n i : Nat) (h : i < n) : (memRead m a n)[i]'(by rw [memRead_length]; exact h) = memGet m (a + i) := by
  induction n generalizing a i with
  | zero => omega
  | succ n ih =>
    cases i with
    | zero => simp [memRead]
    | succ i => simp only [memRead, List.getElem_cons_succ]; rw [ih (a + 1) i (by omega)]; congr 1; omega

/-- A range read after it was written gives what was written. -/
theorem memRead_memWrite (m : Mem) (a : Nat) (bs : List Byte) (h : m.wf) : memRead (memWrite m a bs) a bs.length = bs := by
  apply List.ext_getElem (memRead_length _ _ _)
  intro i h1 h2
  rw [memRead_get _ _ _ _ h2, memGet_memWrite_in m a i bs h h2]

theorem memRead_congr (m m' : Mem) (a n : Nat) (h : ∀ x, a ≤ x → x < a + n → memGet m x = memGet m' x) :
    memRead m a n = memRead m' a n := by
  induction n generalizing a with
  | zero => rfl
  | succ n ih =>
    simp only [memRead]
    rw [h a (by omega) (by omega), ih (a + 1) fun x h1 h2 => h x (by omega) (by omega)]

/-- A range that a write does not meet reads as before. -/
theorem memRead_memWrite_out (m : Mem) (a x n : Nat) (bs : List Byte) (h : m.wf) (hx : x + n ≤ a ∨ a + bs.length ≤ x) :
    memRead (memWrite m a bs) x n = memRead m x n :=
  memRead_congr _ _ _ _ fun y _ _ => memGet_memWrite_out m a y bs h (by omega)

theorem memGet_memClear (m : Mem) (a n x : Nat) :
    memGet (memClear m a n) x = if a ≤ x ∧ x < a + n then memUnlisted else memGet m x := by
  induction m with
  | nil => simp [memClear, memGet]
  | cons c r ih =>
    obtain ⟨k, v⟩ := c
    simp only [memClear] at ih ⊢
    rw [List.filter_cons]
    by_cases hk : a ≤ k ∧ k < a + n
    · simp only [hk.1, hk.2, decide_true, Bool.and_self, Bool.not_true, Bool.false_eq_true, if_false, ih, memGet]
      by_cases hx : k = x
      · subst hx; simp [hk]
      · simp [hx]
    · have : (!(decide (a ≤ k) && decide (k < a + n))) = true := by simp; omega
      simp only [this, if_true, memGet]
      by_cases hx : k = x
      · subst hx; simp [hk]
      · rw [if_neg hx, if_neg hx]; exact ih

end Sys2Proof.Machine
end

