-- ==== Sys2Proof/Laws/Sidebands.lean ====
section
/-! SUPPORT. Fields of words, and what a sideband built with VALID reads as (R269, R372). -/

namespace Sys2Proof.Machine

theorem testBit_one_ne (i : Nat) (h : i ≠ 0) : Nat.testBit 1 i = false :=
  Nat.testBit_lt_two_pow (Nat.one_lt_two_pow h)

theorem getLsbD_put (v lo i : Nat) : (put v lo).getLsbD i = (decide (i < 64) && decide (lo ≤ i) && v.testBit (i - lo)) := by
  simp only [put, BitVec.getLsbD_ofNat, Nat.testBit_shiftLeft, ge_iff_le, Bool.and_assoc]

theorem getLsbD_putB (b : Bool) (lo i : Nat) : (putB b lo).getLsbD i = (decide (i < 64) && decide (i = lo) && b) := by
  cases b
  · simp [putB]
  · simp only [putB, if_true, getLsbD_put, Bool.and_true]
    by_cases h : i = lo
    · subst h; simp
    · by_cases g : lo ≤ i
      · have : i - lo ≠ 0 := by omega
        simp [h, testBit_one_ne _ this]
      · simp [g, h]

theorem testBit_fld {n : Nat} (w : BitVec n) (hi lo i : Nat) :
    (fld w hi lo).testBit i = (decide (i < hi + 1 - lo) && w.getLsbD (lo + i)) := by
  simp only [fld, Nat.testBit_mod_two_pow, Nat.testBit_shiftRight, BitVec.getLsbD]

/-- A field that reads a number's bits one by one is the number, cut to the field's width. -/
theorem fld_eq {n : Nat} (w : BitVec n) (hi lo v : Nat)
    (h : ∀ i, i < hi + 1 - lo → w.getLsbD (lo + i) = v.testBit i) : fld w hi lo = v % 2 ^ (hi + 1 - lo) := by
  apply Nat.eq_of_testBit_eq
  intro i
  rw [testBit_fld, Nat.testBit_mod_two_pow]
  by_cases g : i < hi + 1 - lo
  · rw [h i g]
  · simp [g]

section mkSide

variable (hm : W32) (kind : Nat) (plane : Bool) (step : StepNo) (mb : W16) (object index block : Nat)

theorem mkSide_hallmark : (mkSide hm kind plane step mb object index block).hallmark = hm := by
  rw [Sideband.hallmark, fld_eq (v := hm.toNat)]
  · rw [Nat.mod_eq_of_lt (by have := hm.isLt; omega), BitVec.ofNat_toNat, BitVec.setWidth_eq]
  · intro i h
    have g : kind % 16 < 2 ^ 4 := Nat.mod_lt _ (by omega)
    have k : (kind % 16).testBit (32 + i - 27) = false := Nat.testBit_lt_two_pow (Nat.lt_of_lt_of_le g (Nat.pow_le_pow_right (by omega) (by omega)))
    simp only [mkSide, BitVec.getLsbD_or, getLsbD_put, getLsbD_putB, k, Nat.add_sub_cancel_left,
      testBit_one_ne _ (show 32 + i - 31 ≠ 0 by omega)]
    simp [show 32 + i < 64 by omega, show ¬32 + i = 26 by omega]

theorem mkSide_valid : (mkSide hm kind plane step mb object index block).valid = true := by
  simp only [Sideband.valid, bitAt, mkSide, BitVec.getLsbD_or, getLsbD_put]
  simp

theorem mkSide_step : (mkSide hm kind plane step mb object index block).step = step := by
  rw [Sideband.step, fld_eq (v := step.toNat)]
  · rw [Nat.mod_eq_of_lt step.isLt, BitVec.ofNat_toNat, BitVec.setWidth_eq]
  · intro i h
    have k : mb.toNat.testBit (16 + i) = false :=
      Nat.testBit_lt_two_pow (Nat.lt_of_lt_of_le mb.isLt (Nat.pow_le_pow_right (by omega) (by omega)))
    simp only [mkSide, BitVec.getLsbD_or, getLsbD_put, k, Nat.add_sub_cancel_left, Nat.sub_zero]
    simp [show 16 + i < 64 by omega]

theorem mkSide_mb : (mkSide hm kind plane step mb object index block).mb = mb := by
  rw [Sideband.mb, fld_eq (v := mb.toNat)]
  · rw [Nat.mod_eq_of_lt mb.isLt, BitVec.ofNat_toNat, BitVec.setWidth_eq]
  · intro i h
    simp only [mkSide, BitVec.getLsbD_or, getLsbD_put, Nat.zero_add, Nat.sub_zero]
    simp [show i < 64 by omega, show ¬16 ≤ i by omega]

theorem mkSide_kind : (mkSide hm kind plane step mb object index block).kind = kind % 16 := by
  rw [Sideband.kind, fld_eq (v := kind % 16)]
  · exact Nat.mod_eq_of_lt (Nat.mod_lt _ (by omega))
  · intro i h
    simp only [mkSide, BitVec.getLsbD_or, getLsbD_put, getLsbD_putB, Nat.add_sub_cancel_left]
    simp [show 27 + i < 64 by omega, show ¬32 ≤ 27 + i by omega, show ¬31 ≤ 27 + i by omega, show ¬27 + i = 26 by omega]

theorem mkSide_object : (mkSide hm kind plane step mb object index block).object = object % 2 ^ 24 := by
  rw [Sideband.object, fld_eq (v := object % 2 ^ 24)]
  · exact Nat.mod_eq_of_lt (Nat.mod_lt _ (by omega))
  · intro i h
    have g : index % 2 ^ 32 < 2 ^ 32 := Nat.mod_lt _ (by omega)
    have k : (index % 2 ^ 32).testBit (40 + i - 8) = false :=
      Nat.testBit_lt_two_pow (Nat.lt_of_lt_of_le g (Nat.pow_le_pow_right (by omega) (by omega)))
    simp only [mkSide, BitVec.getLsbD_or, getLsbD_put, k, Nat.add_sub_cancel_left]
    simp [show 40 + i < 64 by omega]

theorem mkSide_index : (mkSide hm kind plane step mb object index block).index = index % 2 ^ 32 := by
  rw [Sideband.index, fld_eq (v := index % 2 ^ 32)]
  · exact Nat.mod_eq_of_lt (Nat.mod_lt _ (by omega))
  · intro i h
    simp only [mkSide, BitVec.getLsbD_or, getLsbD_put, Nat.add_sub_cancel_left]
    simp [show 8 + i < 64 by omega, show ¬40 ≤ 8 + i by omega]

theorem mkSide_block : (mkSide hm kind plane step mb object index block).block = block % 2 ^ 11 := by
  rw [Sideband.block, fld_eq (v := block % 2 ^ 11)]
  · exact Nat.mod_eq_of_lt (Nat.mod_lt _ (by omega))
  · intro i h
    simp only [mkSide, getLsbD_put, Nat.add_sub_cancel_left]
    simp [show 53 + i < 64 by omega]

/-- A sideband made for a block describes it. -/
theorem hallmarkOk_mkSide (d : List Byte) (h : hm = crc32c d) :
    hallmarkOk (mkSide hm kind plane step mb object index block) d = true := by
  simp only [hallmarkOk, mkSide_valid, mkSide_hallmark, h, beq_self_eq_true, Bool.and_self]

end mkSide

end Sys2Proof.Machine
end

