-- ==== Sys2Proof/Laws/Sound.lean ====
section
/-! SUPPORT. What the shared operations of Machine/Ops keep of a sound state. -/

namespace Sys2Proof.Machine

theorem foldl_sound {α : Type} (f : State → α → State) (l : List α) (s : State) (hf : ∀ s a, s.Sound → (f s a).Sound)
    (h : s.Sound) : (l.foldl f s).Sound := by
  induction l generalizing s with
  | nil => exact h
  | cons a l ih => exact ih _ (hf s a h)

theorem foldl_fst_sound {α β : Type} (f : State × β → α → State × β) (l : List α) (s : State × β)
    (hf : ∀ s a, s.1.Sound → (f s a).1.Sound) (h : s.1.Sound) : (l.foldl f s).1.Sound := by
  induction l generalizing s with
  | nil => exact h
  | cons a l ih => exact ih _ (hf s a h)

theorem foldl_snd_sound {α β : Type} (f : β × State → α → β × State) (l : List α) (s : β × State)
    (hf : ∀ s a, s.2.Sound → (f s a).2.Sound) (h : s.2.Sound) : (l.foldl f s).2.Sound := by
  induction l generalizing s with
  | nil => exact h
  | cons a l ih => exact ih _ (hf s a h)

/-- A state that a pair holds, once the pair is known. -/
theorem snd_sound_of_eq {α : Type} {x : α × State} {a : α} {t : State} (h : x = (a, t)) (hx : x.2.Sound) : t.Sound := by
  rw [h] at hx; exact hx

theorem fst_sound_of_eq {α : Type} {x : State × α} {a : α} {t : State} (h : x = (t, a)) (hx : x.1.Sound) : t.Sound := by
  rw [h] at hx; exact hx

theorem foldl_eng_sound {α : Type} (f : Engine → α → Engine) (l : List α) (x : Engine)
    (hf : ∀ (x : Engine) (a : α), x.Sound → (f x a).Sound) (h : x.Sound) : (l.foldl f x).Sound := by
  induction l generalizing x with
  | nil => exact h
  | cons a l ih => exact ih _ (hf x a h)

theorem foldl_ctl_sound {α : Type} (f : CtlSt → α → CtlSt) (l : List α) (x : CtlSt)
    (hf : ∀ (x : CtlSt) (a : α), x.Sound → (f x a).Sound) (h : x.Sound) : (l.foldl f x).Sound := by
  induction l generalizing x with
  | nil => exact h
  | cons a l ih => exact ih _ (hf x a h)

theorem vset_all {α : Type} {n : Nat} (v : Vector α n) (k : Nat) (hk : k < n) (x : α) (P : α → Prop)
    (hv : ∀ (i : Nat) (h : i < n), P v[i]) (hx : P x) : ∀ (i : Nat) (h : i < n), P (v.set k x)[i] := by
  intro i h
  rw [Vector.getElem_set]
  split
  · exact hx
  · exact hv i h

theorem State.emit_sound (s : State) (x : Emission) (h : s.Sound) : (s.emit x).Sound :=
  ⟨h.eng, h.vaults, h.fars, h.mbox, h.book, h.aperture, h.rings⟩

theorem State.modEng_sound (s : State) (e : EngineId) (f : Engine → Engine) (h : s.Sound)
    (hf : ∀ x : Engine, x.Sound → (f x).Sound) : (s.modEng e f).Sound :=
  ⟨vset_all s.eng e.val e.isLt _ Engine.Sound h.eng (hf _ (h.eng _ _)), h.vaults, h.fars, h.mbox, h.book, h.aperture, h.rings⟩

theorem State.modAllEng_sound (s : State) (f : Engine → Engine) (h : s.Sound)
    (hf : ∀ x : Engine, x.Sound → (f x).Sound) : (s.modAllEng f).Sound :=
  ⟨fun i hi => by
    have : (s.eng.map f)[i] = f s.eng[i] := by rw [Vector.getElem_map]
    show ((s.eng.map f)[i]).Sound
    rw [this]; exact hf _ (h.eng i hi), h.vaults, h.fars, h.mbox, h.book, h.aperture, h.rings⟩

theorem State.modArr_sound (s : State) (e : EngineId) (f : EngArr → EngArr) (h : s.Sound)
    (hf : ∀ x : EngArr, x.queue.length ≤ 32 → (f x).queue.length ≤ 32) : (s.modArr e f).Sound :=
  s.modEng_sound e _ h fun _ hx => ⟨hx.store, hx.acc, hx.chk, hx.vr, hf _ hx.queue⟩

theorem State.modVec_sound (s : State) (e : EngineId) (f : EngVec → EngVec) (h : s.Sound)
    (hf : ∀ x : EngVec, x.vr.wf → (f x).vr.wf) : (s.modVec e f).Sound :=
  s.modEng_sound e _ h fun _ hx => ⟨hx.store, hx.acc, hx.chk, hf _ hx.vr, hx.queue⟩

theorem State.modSeq_sound (s : State) (e : EngineId) (f : SeqSt → SeqSt) (h : s.Sound) : (s.modSeq e f).Sound :=
  s.modEng_sound e _ h fun _ hx => ⟨hx.store, hx.acc, hx.chk, hx.vr, hx.queue⟩

theorem State.modLed_sound (s : State) (e : EngineId) (f : EngLed → EngLed) (h : s.Sound) : (s.modLed e f).Sound :=
  s.modEng_sound e _ h fun _ hx => ⟨hx.store, hx.acc, hx.chk, hx.vr, hx.queue⟩

theorem State.modEngInt_sound (s : State) (e : EngineId) (f : EngInt → EngInt) (h : s.Sound) : (s.modEngInt e f).Sound :=
  s.modEng_sound e _ h fun _ hx => ⟨hx.store, hx.acc, hx.chk, hx.vr, hx.queue⟩

theorem State.modTill_sound (s : State) (e : EngineId) (t : TillId) (f : TillSt → TillSt) (h : s.Sound) :
    (s.modTill e t f).Sound :=
  s.modEng_sound e _ h fun _ hx => ⟨hx.store, hx.acc, hx.chk, hx.vr, hx.queue⟩

theorem State.modChan_sound (s : State) (e : EngineId) (c : ChanId) (f : ChanSt → ChanSt) (h : s.Sound) :
    (s.modChan e c f).Sound :=
  s.modEng_sound e _ h fun _ hx => ⟨hx.store, hx.acc, hx.chk, hx.vr, hx.queue⟩

theorem State.modCtl_sound (s : State) (c : CtlId) (f : CtlSt → CtlSt) (h : s.Sound)
    (hf : ∀ x : CtlSt, x.Sound → (f x).Sound) : (s.modCtl c f).Sound := by
  cases c with
  | vault v =>
    exact ⟨h.eng, vset_all s.vaults v.val v.isLt _ CtlSt.Sound h.vaults (hf _ (h.vaults _ _)), h.fars, h.mbox, h.book, h.aperture, h.rings⟩
  | far v =>
    exact ⟨h.eng, h.vaults, vset_all s.fars v.val v.isLt _ CtlSt.Sound h.fars (hf _ (h.fars _ _)), h.mbox, h.book, h.aperture, h.rings⟩

theorem State.modCache_sound (s : State) (c : CacheId) (f : CacheSt → CacheSt) (h : s.Sound) : (s.modCache c f).Sound :=
  ⟨h.eng, h.vaults, h.fars, h.mbox, h.book, h.aperture, h.rings⟩
theorem State.modPort_sound (s : State) (p : PortId) (f : PortSt → PortSt) (h : s.Sound) : (s.modPort p f).Sound :=
  ⟨h.eng, h.vaults, h.fars, h.mbox, h.book, h.aperture, h.rings⟩
theorem State.modPeer_sound (s : State) (i : Nat) (f : PeerSt → PeerSt) (h : s.Sound) : (s.modPeer i f).Sound :=
  ⟨h.eng, h.vaults, h.fars, h.mbox, h.book, h.aperture, h.rings⟩
theorem State.modClr_sound (s : State) (u : Fin 2) (f : ClrSt → ClrSt) (h : s.Sound) : (s.modClr u f).Sound :=
  ⟨h.eng, h.vaults, h.fars, h.mbox, h.book, h.aperture, h.rings⟩
theorem State.modIsl_sound (s : State) (i : IslandIdx) (f : IslSt → IslSt) (h : s.Sound) : (s.modIsl i f).Sound :=
  ⟨h.eng, h.vaults, h.fars, h.mbox, h.book, h.aperture, h.rings⟩
theorem State.modLane_sound (s : State) (l : Fin 16) (f : LaneSt → LaneSt) (h : s.Sound) : (s.modLane l f).Sound :=
  ⟨h.eng, h.vaults, h.fars, h.mbox, h.book, h.aperture, h.rings⟩
theorem State.modGlb_sound (s : State) (f : GlbSt → GlbSt) (h : s.Sound) : (s.modGlb f).Sound :=
  ⟨h.eng, h.vaults, h.fars, h.mbox, h.book, h.aperture, h.rings⟩
theorem State.modJob_sound (s : State) (f : JobSt → JobSt) (h : s.Sound) : (s.modJob f).Sound :=
  ⟨h.eng, h.vaults, h.fars, h.mbox, h.book, h.aperture, h.rings⟩
theorem State.modPwr_sound (s : State) (f : PwrSt → PwrSt) (h : s.Sound) : (s.modPwr f).Sound :=
  ⟨h.eng, h.vaults, h.fars, h.mbox, h.book, h.aperture, h.rings⟩
theorem State.modUpd_sound (s : State) (f : UpdSt → UpdSt) (h : s.Sound) : (s.modUpd f).Sound :=
  ⟨h.eng, h.vaults, h.fars, h.mbox, h.book, h.aperture, h.rings⟩
theorem State.modCkpt_sound (s : State) (f : CkptSt → CkptSt) (h : s.Sound) : (s.modCkpt f).Sound :=
  ⟨h.eng, h.vaults, h.fars, h.mbox, h.book, h.aperture, h.rings⟩

theorem State.modInt_sound (s : State) (f : IntSt → IntSt) (h : s.Sound)
    (hf : ∀ x : IntSt, x.mbox.length ≤ 4096 → (f x).mbox.length ≤ 4096) : (s.modInt f).Sound :=
  ⟨h.eng, h.vaults, h.fars, hf _ h.mbox, h.book, h.aperture, h.rings⟩
theorem State.modSec_sound (s : State) (f : SecSt → SecSt) (h : s.Sound)
    (hf : ∀ x : SecSt, x.db.length ≤ 4096 → (f x).db.length ≤ 4096) : (s.modSec f).Sound :=
  ⟨h.eng, h.vaults, h.fars, h.mbox, hf _ h.book, h.aperture, h.rings⟩
theorem State.modRing_sound (s : State) (r : RingId) (f : RingSt → RingSt) (h : s.Sound)
    (hf : ∀ x : RingSt, x.Sound → (f x).Sound) : (s.modRing r f).Sound :=
  ⟨h.eng, h.vaults, h.fars, h.mbox, h.book, h.aperture,
    vset_all s.host.rings r.val r.isLt _ RingSt.Sound h.rings (hf _ (h.rings _ _))⟩

/-- A change of the host interface that leaves its segment map and rings. -/
theorem State.modHost_sound (s : State) (f : HostSt → HostSt) (h : s.Sound)
    (h1 : ∀ x, (f x).aptMap = x.aptMap) (h2 : ∀ x, (f x).rings = x.rings) : (s.modHost f).Sound :=
  ⟨h.eng, h.vaults, h.fars, h.mbox, h.book, fun i hi => by
    have := h.aperture i hi
    show aptValueOk ((f s.host).aptMap[i]) = true
    simp only [h1]; exact this, fun i hi => by
    have := h.rings i hi
    show RingSt.Sound ((f s.host).rings[i])
    simp only [h2]; exact this⟩

theorem forRange_sound (s : State) (n : Nat) (f : State → Nat → State) (h : s.Sound)
    (hf : ∀ s i, s.Sound → (f s i).Sound) : (s.forRange n f).Sound := foldl_sound f _ s hf h

theorem forEng_sound (s : State) (f : State → EngineId → State) (h : s.Sound)
    (hf : ∀ s i, s.Sound → (f s i).Sound) : (s.forEng f).Sound := foldl_sound f _ s hf h

theorem ite_sound {c : Prop} [Decidable c] {a b : State} (ha : c → a.Sound) (hb : ¬c → b.Sound) :
    (if c then a else b).Sound := by
  split
  · exact ha (by assumption)
  · exact hb (by assumption)

theorem ite_snd_sound {α : Type} {c : Prop} [Decidable c] {a b : α × State} (ha : c → a.2.Sound) (hb : ¬c → b.2.Sound) :
    (if c then a else b).2.Sound := by
  split
  · exact ha (by assumption)
  · exact hb (by assumption)

theorem ite_fst_sound {α : Type} {c : Prop} [Decidable c] {a b : State × α} (ha : c → a.1.Sound) (hb : ¬c → b.1.Sound) :
    (if c then a else b).1.Sound := by
  split
  · exact ha (by assumption)
  · exact hb (by assumption)

/-- A command's completion leaves a sound state, and what it sets in motion keeps one. -/
def CmdOut.Sound (o : CmdOut) : Prop := o.s.Sound ∧ ∀ t : State, t.Sound → (o.after t).Sound

theorem filter_le {α : Type} (p : α → Bool) (l : List α) (n : Nat) (h : l.length ≤ n) : (l.filter p).length ≤ n :=
  Nat.le_trans (List.length_filter_le p l) h
theorem take_le {α : Type} (l : List α) (k n : Nat) (h : k ≤ n) : (l.take k).length ≤ n :=
  Nat.le_trans (List.length_take_le k l) h
theorem map_le {α β : Type} (f : α → β) (l : List α) (n : Nat) (h : l.length ≤ n) : (l.map f).length ≤ n := by
  simpa using h

theorem foldl_mem_wf {α : Type} (f : Mem → α → Mem) (l : List α) (m : Mem) (hf : ∀ (m : Mem) (a : α), m.wf → (f m a).wf)
    (h : m.wf) : (l.foldl f m).wf := by
  induction l generalizing m with
  | nil => exact h
  | cons a l ih => exact ih _ (hf m a h)

theorem CmdOut.sound_mk {o : CmdOut} (h1 : o.s.Sound) (h2 : ∀ t : State, t.Sound → (o.after t).Sound) : o.Sound := ⟨h1, h2⟩
theorem ite_cmd_sound {c : Prop} [Decidable c] {a b : CmdOut} (ha : c → a.Sound) (hb : ¬c → b.Sound) :
    (if c then a else b).Sound := by
  split
  · exact ha (by assumption)
  · exact hb (by assumption)

theorem CmdOut.sound_s {o : CmdOut} (h : o.Sound) : o.s.Sound := h.1
theorem CmdOut.sound_after {o : CmdOut} (t : State) (h : o.Sound) (ht : t.Sound) : (o.after t).Sound := h.2 t ht

theorem cmdDone_s (st : Status) (s : State) : (cmdDone st s).s = s := rfl

theorem foldl_memf_wf {α β : Type} (f : (Mem × β) → α → (Mem × β)) (l : List α) (m : (Mem × β))
    (hf : ∀ (m : (Mem × β)) (a : α), m.1.wf → (f m a).1.wf) (h : m.1.wf) : (l.foldl f m).1.wf := by
  induction l generalizing m with
  | nil => exact h
  | cons a l ih => exact ih _ (hf m a h)

theorem foldl_vec_wf {α : Type} (f : EngVec → α → EngVec) (l : List α) (m : EngVec)
    (hf : ∀ (m : EngVec) (a : α), m.vr.wf → (f m a).vr.wf) (h : m.vr.wf) : (l.foldl f m).vr.wf := by
  induction l generalizing m with
  | nil => exact h
  | cons a l ih => exact ih _ (hf m a h)

theorem foldl_vecf_wf {α β : Type} (f : (EngVec × β) → α → (EngVec × β)) (l : List α) (m : (EngVec × β))
    (hf : ∀ (m : (EngVec × β)) (a : α), m.1.vr.wf → (f m a).1.vr.wf) (h : m.1.vr.wf) : (l.foldl f m).1.vr.wf := by
  induction l generalizing m with
  | nil => exact h
  | cons a l ih => exact ih _ (hf m a h)

theorem foldl_vecs_wf {α β : Type} (f : (β × EngVec) → α → (β × EngVec)) (l : List α) (m : (β × EngVec))
    (hf : ∀ (m : (β × EngVec)) (a : α), m.2.vr.wf → (f m a).2.vr.wf) (h : m.2.vr.wf) : (l.foldl f m).2.vr.wf := by
  induction l generalizing m with
  | nil => exact h
  | cons a l ih => exact ih _ (hf m a h)

theorem State.ctl_sound (s : State) (c : CtlId) (h : s.Sound) : (s.ctl c).Sound := by
  cases c
  · exact h.vaults _ _
  · exact h.fars _ _

theorem erase_le {α : Type} [BEq α] (l : List α) (a : α) (n : Nat) (h : l.length ≤ n) : (l.erase a).length ≤ n :=
  Nat.le_trans List.length_erase_le h

theorem foldl_snd2_sound {α β γ : Type} (f : (β × γ × State) → α → (β × γ × State)) (l : List α) (s : (β × γ × State))
    (hf : ∀ (s : (β × γ × State)) (a : α), s.2.2.Sound → (f s a).2.2.Sound) (h : s.2.2.Sound) : (l.foldl f s).2.2.Sound := by
  induction l generalizing s with
  | nil => exact h
  | cons a l ih => exact ih _ (hf s a h)

theorem foldl_snd3_sound {α β γ δ : Type} (f : (β × γ × δ × State) → α → (β × γ × δ × State)) (l : List α) (s : (β × γ × δ × State))
    (hf : ∀ (s : (β × γ × δ × State)) (a : α), s.2.2.2.Sound → (f s a).2.2.2.Sound) (h : s.2.2.2.Sound) : (l.foldl f s).2.2.2.Sound := by
  induction l generalizing s with
  | nil => exact h
  | cons a l ih => exact ih _ (hf s a h)

theorem cmdDone_after (st : Status) (s t : State) : (cmdDone st s).after t = t := rfl
theorem cmdLater_s (s : State) : (cmdLater s).s = s := rfl
theorem cmdLater_after (s t : State) : (cmdLater s).after t = t := rfl

theorem State.modHost_sound2 (s : State) (f : HostSt → HostSt) (h : s.Sound)
    (h1 : ∀ (i : Nat) (hi : i < 16), aptValueOk ((f s.host).aptMap[i]) = true)
    (h2 : ∀ (i : Nat) (hi : i < 64), ((f s.host).rings[i]).Sound) : (s.modHost f).Sound :=
  ⟨h.eng, h.vaults, h.fars, h.mbox, h.book, h1, h2⟩

theorem Engine.init_sound : Engine.init.Sound := ⟨rfl, rfl, rfl, rfl, Nat.zero_le _⟩
theorem CtlSt.init_sound : CtlSt.init.Sound := ⟨rfl, Nat.zero_le _, fun _ h => nomatch h⟩
theorem RingSt.init_sound : RingSt.init.Sound := by
  intro h
  exact absurd h (by decide)

theorem State.reset_sound : State.reset.Sound where
  eng i hi := by
    have h : State.reset.eng[i] = Engine.init := Vector.getElem_replicate ..
    rw [h]; exact Engine.init_sound
  vaults i hi := by
    have h : State.reset.vaults[i] = CtlSt.init := Vector.getElem_replicate ..
    rw [h]; exact CtlSt.init_sound
  fars i hi := by
    have h : State.reset.fars[i] = CtlSt.init := Vector.getElem_replicate ..
    rw [h]; exact CtlSt.init_sound
  mbox := Nat.zero_le _
  book := Nat.zero_le _
  aperture i hi := by
    have h : State.reset.host.aptMap[i] = 0xF000_0000_0000_0000 := Vector.getElem_replicate ..
    rw [h]; decide
  rings i hi := by
    have h : State.reset.host.rings[i] = RingSt.init := Vector.getElem_replicate ..
    rw [h]; exact RingSt.init_sound

theorem ite_eng_sound {c : Prop} [Decidable c] {a b : Engine} (ha : c → a.Sound) (hb : ¬c → b.Sound) :
    (if c then a else b).Sound := by
  split
  · exact ha (by assumption)
  · exact hb (by assumption)
theorem ite_ctl_sound {c : Prop} [Decidable c] {a b : CtlSt} (ha : c → a.Sound) (hb : ¬c → b.Sound) :
    (if c then a else b).Sound := by
  split
  · exact ha (by assumption)
  · exact hb (by assumption)

/-- An outcome whose next state, if there is one, is sound. -/
def Res.Sound (r : Res) : Prop :=
  match r with
  | .next t => t.Sound
  | _ => True

theorem Res.next_sound {t : State} (h : t.Sound) : Res.Sound (.next t) := h
theorem Res.fault_sound (f : Fault) : Res.Sound (.fault f) := trivial
theorem ite_res_sound {c : Prop} [Decidable c] {a b : Res} (ha : c → a.Sound) (hb : ¬c → b.Sound) :
    Res.Sound (if c then a else b) := by
  split
  · exact ha (by assumption)
  · exact hb (by assumption)

end Sys2Proof.Machine
end

