-- ==== Sys2Proof/Laws/SoundOps.lean ====
section
/-! SUPPORT. What the operations and meanings of Machine/Ops keep of a sound state. -/

namespace Sys2Proof.Machine

theorem memWrite_sound (m : Mem) (a : Nat) (nn : List Byte) (hs : m.wf) : (memWrite m a nn).wf := by
  induction nn generalizing m a with
  | nil =>
      unfold memWrite
      try dsimp only
      repeat' first
      | with_reducible assumption
  | cons x l IH =>
      unfold memWrite
      try dsimp only
      repeat' first
      | with_reducible assumption
      | with_reducible apply IH
      | with_reducible apply memSet_wf

theorem State.draw_sound (s : State) (hs : s.Sound) : (State.draw s).2.Sound := by
  unfold State.draw
  try dsimp only
  repeat' first
  | with_reducible exact hs
  | with_reducible refine State.Sound.eng ?_
  | with_reducible refine State.Sound.vaults ?_
  | with_reducible refine State.Sound.fars ?_
  | with_reducible refine State.Sound.mbox ?_
  | with_reducible refine State.Sound.book ?_
  | with_reducible refine State.Sound.aperture ?_
  | with_reducible refine State.Sound.rings ?_

  | (with_reducible refine State.Sound.mk ?_ ?_ ?_ ?_ ?_ ?_ ?_ <;> dsimp only)

theorem State.draw_sound_eq {s : State} {a0} {t : State} (hq : State.draw s = (a0, t)) (hs : s.Sound) : t.Sound := by
  have := State.draw_sound s hs; rw [hq] at this; exact this

theorem State.deed_sound (s : State) (e : EngineId) (kind : Nat) (object : Nat) (peer : Nat) (hs : s.Sound) : (State.deed s e kind object peer).Sound := by
  unfold State.deed
  try dsimp only
  repeat' first
  | with_reducible assumption
  | with_reducible intro hc
  | with_reducible apply State.modEngInt_sound
  | with_reducible apply ite_sound
  | with_reducible apply ite_eng_sound
  | (with_reducible refine Engine.Sound.mk ?_ ?_ ?_ ?_ ?_ <;> dsimp only)
  | (have hq := ‹Engine.Sound _›; with_reducible exact hq.store)
  | (have hq := ‹Engine.Sound _›; with_reducible exact hq.acc)
  | (have hq := ‹Engine.Sound _›; with_reducible exact hq.chk)
  | (have hq := ‹Engine.Sound _›; with_reducible exact hq.vr)
  | (have hq := ‹Engine.Sound _›; with_reducible exact hq.queue)
  | with_reducible apply Engine.Sound.store
  | with_reducible apply Engine.Sound.acc
  | with_reducible apply Engine.Sound.chk
  | with_reducible apply Engine.Sound.vr
  | with_reducible apply Engine.Sound.queue
  | with_reducible refine State.Sound.eng ?_ _ _
  | dsimp only
  | split

theorem State.event_sound (s : State) (i : IslandIdx) (hs : s.Sound) : (State.event s i).2.Sound := by
  unfold State.event
  try dsimp only
  repeat' first
  | with_reducible exact hs
  | with_reducible apply State.modGlb_sound

theorem State.event_sound_eq {s : State} {i : IslandIdx} {a0} {t : State} (hq : State.event s i = (a0, t)) (hs : s.Sound) : t.Sound := by
  have := State.event_sound s i hs; rw [hq] at this; exact this

theorem State.setErr_sound (s : State) (i : Nat) (hs : s.Sound) : (State.setErr s i).Sound := by
  unfold State.setErr
  try dsimp only
  repeat' first
  | with_reducible assumption
  | with_reducible intro hc
  | with_reducible apply ite_sound
  | with_reducible apply State.modInt_sound
  | with_reducible apply State.emit_sound

theorem State.postAt_sound (s : State) (i : IslandIdx) (cls : Byte) (st : Status) (step : StepNo) (mb : W16) (r : Rec4) (hs : s.Sound) : (State.postAt s i cls st step mb r).Sound := by
  unfold State.postAt
  dsimp only
  have h1 : (s.event i).2.Sound := State.event_sound s i hs
  split
  · rename_i hlt
    exact ⟨h1.eng, h1.vaults, h1.fars, by
      show (_ ++ [_]).length ≤ 4096
      rw [List.length_append]
      have : mboxSize = 4096 := rfl
      simp only [List.length_singleton]; omega, h1.book, h1.aperture, h1.rings⟩
  · apply State.setErr_sound
    exact State.modInt_sound _ _ h1 fun x hx => hx

theorem State.post_sound (s : State) (i : IslandIdx) (cls : Byte) (st : Status) (mb : W16) (r : Rec4) (hs : s.Sound) : (State.post s i cls st mb r).Sound := by
  unfold State.post
  try dsimp only
  repeat' first
  | with_reducible assumption
  | with_reducible apply State.postAt_sound

theorem State.dbAppendEntry_sound (s : State) (x : DbEntry) (hs : s.Sound) : (State.dbAppendEntry s x).Sound := by
  unfold State.dbAppendEntry
  apply ite_sound
  · intro _
    apply State.emit_sound
    apply State.modSec_sound _ _ hs
    intro x _; exact List.length_take_le _ _
  · intro _
    apply State.modSec_sound _ _ hs
    intro x _; exact List.length_take_le _ _

theorem State.dbAppend_sound (s : State) (kind : Byte) (role : Byte) (source : Byte) (st : Status) (code : Byte) (target : W64) (digest : Dig512) (hs : s.Sound) : (State.dbAppend s kind role source st code target digest).Sound := by
  unfold State.dbAppend
  try dsimp only
  repeat' first
  | with_reducible assumption
  | with_reducible intro hc
  | with_reducible apply State.dbAppendEntry_sound

theorem State.dbModule_sound (s : State) (st : Status) (cls : Byte) (target : W64) (digest : Dig512) (hs : s.Sound) : (State.dbModule s st cls target digest).Sound := by
  unfold State.dbModule
  try dsimp only
  repeat' first
  | with_reducible exact hs
  | with_reducible apply State.dbAppend_sound

theorem RingSt.advance_sound (r : RingSt) (hs : r.Sound) : (RingSt.advance r).Sound := by
  unfold RingSt.advance
  try dsimp only
  repeat' first
  | ((fail_if_success (with_reducible refine State.Sound.mk ?_ ?_ ?_ ?_ ?_ ?_ ?_)); first | assumption | (intros; rfl) | exact Nat.zero_le _ | exact rfl)

theorem State.ringComplete_sound (s : State) (r : RingId) (gen : Nat) (st : Status) (tag : W16) (opc : Byte) (res : W64) (hs : s.Sound) : (State.ringComplete s r gen st tag opc res).Sound := by
  unfold State.ringComplete
  try dsimp only
  repeat' first
  | with_reducible exact hs
  | with_reducible intro hc
  | with_reducible apply ite_sound
  | with_reducible apply State.modRing_sound
  | with_reducible apply State.emit_sound
  | ((fail_if_success (with_reducible refine State.Sound.mk ?_ ?_ ?_ ?_ ?_ ?_ ?_)); first | assumption | (intros; rfl) | exact Nat.zero_le _ | exact rfl)

theorem State.complete_sound (s : State) (p : PendCmd) (st : Status) (res : W64) (hs : s.Sound) : (State.complete s p st res).Sound := by
  unfold State.complete
  try dsimp only
  repeat' first
  | with_reducible exact hs
  | with_reducible apply State.modJob_sound
  | with_reducible apply State.ringComplete_sound
  | with_reducible apply State.emit_sound
  | split

theorem State.completeOpt_sound (s : State) (p : Option PendCmd) (st : Status) (hs : s.Sound) : (State.completeOpt s p st).Sound := by
  unfold State.completeOpt
  try dsimp only
  repeat' first
  | with_reducible exact hs
  | with_reducible apply State.complete_sound
  | split

end Sys2Proof.Machine
end

