-- ==== Sys2Proof/Laws/SoundPower.lean ====
section
/-! SUPPORT. What the operations and meanings of Machine/Power keep of a sound state. -/

namespace Sys2Proof.Machine

theorem State.alert_sound (s : State) (hs : s.Sound) : (State.alert s).Sound := by
  unfold State.alert
  try dsimp only
  repeat' first
  | with_reducible exact hs
  | with_reducible apply State.modGlb_sound

theorem EngArr.modA_sound (x : EngArr) (i : ArrId) (f : ArraySt → ArraySt) (hs : x.queue.length ≤ 32) : (EngArr.modA x i f).queue.length ≤ 32 := by
  unfold EngArr.modA
  try dsimp only
  repeat' first
  | with_reducible assumption
  | with_reducible intro hc
  | dsimp only
  | split

theorem EngArr.ramp_sound (x : EngArr) (arr : ArrId) (src : Nat) (hs : x.queue.length ≤ 32) : (EngArr.ramp x arr src).queue.length ≤ 32 := by
  unfold EngArr.ramp
  try dsimp only
  repeat' first
  | with_reducible assumption
  | with_reducible intro hc
  | with_reducible apply EngArr.modA_sound

theorem EngArr.rampAgain_sound (x : EngArr) (arr : ArrId) (src : Nat) (hs : x.queue.length ≤ 32) : (EngArr.rampAgain x arr src).queue.length ≤ 32 := by
  unfold EngArr.rampAgain
  try dsimp only
  repeat' first
  | with_reducible assumption
  | with_reducible intro hc
  | with_reducible apply EngArr.modA_sound
  | with_reducible apply EngArr.ramp_sound
  | with_reducible apply ite_sound
  | dsimp only
  | split

theorem State.rampsAgain_sound (s : State) (was : Bool) (hs : s.Sound) : (State.rampsAgain s was).Sound := by
  unfold State.rampsAgain
  try dsimp only
  repeat' first
  | with_reducible assumption
  | with_reducible intro hc
  | with_reducible apply State.modAllEng_sound
  | with_reducible apply EngArr.rampAgain_sound
  | with_reducible apply ite_sound
  | with_reducible apply ite_eng_sound
  | (with_reducible refine Engine.Sound.mk ?_ ?_ ?_ ?_ ?_ <;> dsimp only)
  | (have hq := ‹Engine.Sound _›; with_reducible exact hq.store)
  | (have hq := ‹Engine.Sound _›; with_reducible exact hq.acc)
  | (have hq := ‹Engine.Sound _›; with_reducible exact hq.chk)
  | (have hq := ‹Engine.Sound _›; with_reducible exact hq.vr)
  | (have hq := ‹Engine.Sound _›; with_reducible exact hq.queue)
  | with_reducible apply Engine.Sound.store
  | with_reducible apply Engine.Sound.acc
  | with_reducible apply Engine.Sound.chk
  | with_reducible apply Engine.Sound.vr
  | with_reducible apply Engine.Sound.queue
  | with_reducible refine State.Sound.eng ?_ _ _
  | dsimp only
  | split

theorem State.envelopeEvent_sound (s : State) (kind id : Nat) (hs : s.Sound) : (State.envelopeEvent s kind id).Sound := by
  unfold State.envelopeEvent
  try dsimp only
  repeat' first
  | with_reducible exact hs
  | with_reducible apply State.modPwr_sound
  | with_reducible apply State.post_sound
  | with_reducible apply State.setErr_sound

theorem State.envelopeTick_sound (s : State) (r : Readings) (hs : s.Sound) : (State.envelopeTick s r).Sound := by
  unfold State.envelopeTick
  try dsimp only
  repeat' first
  | with_reducible assumption
  | with_reducible intro hc
  | with_reducible apply State.modPwr_sound
  | with_reducible apply State.envelopeEvent_sound
  | with_reducible apply foldl_sound

theorem execInputLow_sound (s : State) (hs : s.Sound) : Res.Sound (execInputLow s) := by
  unfold execInputLow
  try dsimp only
  repeat' first
  | with_reducible exact hs
  | with_reducible refine Res.next_sound ?_
  | with_reducible apply State.alert_sound
  | with_reducible apply State.modPwr_sound

theorem execInputHigh_sound (s : State) (hs : s.Sound) : Res.Sound (execInputHigh s) := by
  unfold execInputHigh
  try dsimp only
  repeat' first
  | with_reducible exact hs
  | with_reducible refine Res.next_sound ?_
  | with_reducible apply State.modPwr_sound
  | with_reducible apply State.alert_sound

theorem execInputNormal_sound (s : State) (hs : s.Sound) : Res.Sound (execInputNormal s) := by
  unfold execInputNormal
  try dsimp only
  repeat' first
  | with_reducible exact hs
  | with_reducible refine Res.next_sound ?_
  | with_reducible apply State.modPwr_sound
  | with_reducible apply State.alert_sound

theorem State.throttleOn_sound (s : State) (hs : s.Sound) : (State.throttleOn s).Sound := by
  unfold State.throttleOn
  try dsimp only
  repeat' first
  | with_reducible exact hs
  | with_reducible apply State.modPwr_sound
  | with_reducible apply State.alert_sound

theorem execFastCapTrip_sound (s : State) (hs : s.Sound) : Res.Sound (execFastCapTrip s) := by
  unfold execFastCapTrip
  try dsimp only
  repeat' first
  | with_reducible exact hs
  | with_reducible refine Res.next_sound ?_
  | with_reducible apply State.modPwr_sound
  | with_reducible apply State.throttleOn_sound

theorem execExcursion_sound (s : State) (hs : s.Sound) : Res.Sound (execExcursion s) := by
  unfold execExcursion
  try dsimp only
  repeat' first
  | with_reducible exact hs
  | with_reducible intro hc
  | with_reducible apply ite_sound
  | with_reducible refine Res.next_sound ?_
  | with_reducible apply State.modPwr_sound
  | with_reducible apply State.throttleOn_sound

theorem execBudgetTick_sound (r : Readings) (s : State) (hs : s.Sound) : Res.Sound (execBudgetTick r s) := by
  unfold execBudgetTick
  try dsimp only
  repeat' first
  | with_reducible assumption
  | with_reducible refine Res.next_sound ?_
  | with_reducible apply State.modPwr_sound
  | with_reducible apply State.alert_sound
  | with_reducible apply State.rampsAgain_sound
  | with_reducible apply State.envelopeTick_sound

theorem State.rampCheck_sound (s : State) (c : Option Curve) (r : Readings) (hs : s.Sound) : (State.rampCheck s c r).Sound := by
  unfold State.rampCheck
  try dsimp only
  repeat' first
  | with_reducible exact hs
  | with_reducible apply State.modPwr_sound
  | with_reducible apply State.envelopeEvent_sound
  | split

theorem State.curvesDue_sound (s : State) (hs : s.Sound) : (State.curvesDue s).Sound := by
  unfold State.curvesDue
  try dsimp only
  repeat' first
  | with_reducible exact hs
  | with_reducible apply State.modPwr_sound

end Sys2Proof.Machine
end

