-- ==== Sys2Proof/Laws/SoundFaults.lean ====
section
/-! SUPPORT. What the operations and meanings of Machine/Faults keep of a sound state. -/

namespace Sys2Proof.Machine

theorem State.raise_sound (s : State) (ev : FaultEv) (hs : s.Sound) : (State.raise s ev).Sound := by
  unfold State.raise
  try dsimp only
  repeat' first
  | with_reducible assumption
  | with_reducible intro hc
  | with_reducible apply State.modInt_sound

theorem Engine.stop_sound (e : Engine) (hs : e.Sound) : (Engine.stop e).Sound := by
  unfold Engine.stop
  try dsimp only
  repeat' first
  | (with_reducible refine Engine.Sound.mk ?_ ?_ ?_ ?_ ?_ <;> dsimp only)
  | exact Nat.zero_le _
  | (have hq := ‹Engine.Sound _›; with_reducible exact hq.store)
  | (have hq := ‹Engine.Sound _›; with_reducible exact hq.acc)
  | (have hq := ‹Engine.Sound _›; with_reducible exact hq.chk)
  | (have hq := ‹Engine.Sound _›; with_reducible exact hq.vr)

theorem State.settle_sound (s : State) (hs : s.Sound) : (State.settle s).Sound := by
  unfold State.settle
  try dsimp only
  repeat' first
  | with_reducible assumption
  | with_reducible intro hc
  | with_reducible apply State.modInt_sound
  | (intros; rfl)

theorem State.mark_sound (s : State) (isl : IslandIdx) (st : Status) (hs : s.Sound) : (State.mark s isl st).Sound := by
  unfold State.mark
  try dsimp only
  repeat' first
  | with_reducible assumption
  | with_reducible intro hc
  | with_reducible apply State.emit_sound
  | with_reducible apply State.modAllEng_sound
  | with_reducible apply State.modInt_sound
  | with_reducible apply State.post_sound
  | with_reducible apply Engine.stop_sound
  | with_reducible apply ite_sound
  | with_reducible apply ite_eng_sound
  | (with_reducible refine Engine.Sound.mk ?_ ?_ ?_ ?_ ?_ <;> dsimp only)
  | (have hq := ‹Engine.Sound _›; with_reducible exact hq.store)
  | (have hq := ‹Engine.Sound _›; with_reducible exact hq.acc)
  | (have hq := ‹Engine.Sound _›; with_reducible exact hq.chk)
  | (have hq := ‹Engine.Sound _›; with_reducible exact hq.vr)
  | (have hq := ‹Engine.Sound _›; with_reducible exact hq.queue)
  | with_reducible apply Engine.Sound.store
  | with_reducible apply Engine.Sound.acc
  | with_reducible apply Engine.Sound.chk
  | with_reducible apply Engine.Sound.vr
  | with_reducible apply Engine.Sound.queue
  | with_reducible refine State.Sound.eng ?_ _ _
  | (intros; rfl)
  | with_reducible refine snd_sound_of_eq (by assumption) ?_
  | with_reducible refine fst_sound_of_eq (by assumption) ?_
  | dsimp only
  | split

theorem State.engLost_sound (s : State) (e : EngineId) (st : Status) (hs : s.Sound) : (State.engLost s e st).Sound := by
  unfold State.engLost
  try dsimp only
  repeat' first
  | with_reducible exact hs
  | with_reducible intro hc
  | with_reducible apply ite_sound
  | with_reducible apply State.modGlb_sound
  | with_reducible apply State.raise_sound

theorem State.ctlLost_sound (s : State) (c : CtlId) (st : Status) (hs : s.Sound) : (State.ctlLost s c st).Sound := by
  unfold State.ctlLost
  try dsimp only
  repeat' first
  | with_reducible assumption
  | with_reducible intro hc
  | with_reducible apply State.modCtl_sound
  | with_reducible apply State.modGlb_sound
  | with_reducible apply State.raise_sound
  | with_reducible apply ite_sound
  | with_reducible apply ite_ctl_sound
  | (with_reducible refine CtlSt.Sound.mk ?_ ?_ <;> dsimp only)
  | (have hq := ‹CtlSt.Sound _›; with_reducible exact hq.data)
  | (have hq := ‹CtlSt.Sound _›; with_reducible exact hq.merge)
  | with_reducible apply CtlSt.Sound.data
  | with_reducible apply CtlSt.Sound.merge
  | with_reducible refine snd_sound_of_eq (by assumption) ?_
  | with_reducible refine fst_sound_of_eq (by assumption) ?_
  | dsimp only
  | split

theorem State.portLost_sound (s : State) (p : PortId) (hs : s.Sound) : (State.portLost s p).Sound := by
  unfold State.portLost
  try dsimp only
  repeat' first
  | with_reducible assumption
  | with_reducible intro hc
  | with_reducible apply State.modGlb_sound
  | with_reducible apply State.raise_sound
  | with_reducible apply ite_sound
  | dsimp only
  | split

theorem State.modUnit_sound (s : State) (e : EngineId) (u : Unit5) (f : UnitSt → UnitSt) (hs : s.Sound) : (State.modUnit s e u f).Sound := by
  unfold State.modUnit
  try dsimp only
  repeat' first
  | with_reducible exact hs
  | with_reducible apply State.modEngInt_sound

theorem State.strikeOut_sound (s : State) (e : EngineId) (u : Unit5) (event : Nat) (layer : Nat) (hs : s.Sound) : (State.strikeOut s e u event layer).Sound := by
  unfold State.strikeOut
  try dsimp only
  repeat' first
  | with_reducible assumption
  | with_reducible apply State.post_sound
  | with_reducible apply State.dbModule_sound

theorem State.quarantine_sound (s : State) (e : EngineId) (u : Unit5) (layer : Nat) (hs : s.Sound) : (State.quarantine s e u layer).Sound := by
  unfold State.quarantine
  try dsimp only
  repeat' first
  | with_reducible assumption
  | with_reducible intro hc
  | with_reducible apply State.modUnit_sound
  | with_reducible apply State.strikeOut_sound
  | with_reducible apply State.setErr_sound
  | with_reducible apply State.modArr_sound
  | with_reducible apply State.engLost_sound
  | split

theorem State.probation_sound (s : State) (e : EngineId) (clock up : Bool) (hs : s.Sound) : (State.probation s e clock up).Sound := by
  unfold State.probation
  try dsimp only
  repeat' first
  | with_reducible exact hs
  | with_reducible apply State.modIsl_sound

theorem State.strike_sound (s : State) (e : EngineId) (u : Unit5) (layer : Nat) (hs : s.Sound) : (State.strike s e u layer).Sound := by
  unfold State.strike
  try dsimp only
  repeat' first
  | with_reducible exact hs
  | with_reducible intro hc
  | with_reducible apply ite_sound
  | with_reducible apply State.modUnit_sound
  | with_reducible apply State.strikeOut_sound
  | with_reducible apply State.setErr_sound
  | with_reducible apply State.quarantine_sound
  | with_reducible apply State.probation_sound

theorem State.faultLog_sound (s : State) (e : EngineId) (r : Rec4) (hs : s.Sound) : (State.faultLog s e r).Sound := by
  unfold State.faultLog
  try dsimp only
  repeat' first
  | with_reducible exact hs
  | with_reducible apply State.modEngInt_sound

theorem execQuarantine_sound (e : EngineId) (u : Unit5) (s : State) (hs : s.Sound) : Res.Sound (execQuarantine e u s) := by
  unfold execQuarantine
  try dsimp only
  repeat' first
  | with_reducible exact hs
  | with_reducible refine Res.next_sound ?_
  | with_reducible apply State.quarantine_sound

theorem execStrikeDecay_sound (e : EngineId) (u : Unit5) (s : State) (hs : s.Sound) : Res.Sound (execStrikeDecay e u s) := by
  unfold execStrikeDecay
  try dsimp only
  repeat' first
  | with_reducible exact hs
  | with_reducible refine Res.next_sound ?_
  | with_reducible apply State.modUnit_sound
  | with_reducible apply State.probation_sound
  | with_reducible apply State.strikeOut_sound
  | split

theorem State.cancelPending_sound (s : State) (hs : s.Sound) : (State.cancelPending s).Sound := by
  unfold State.cancelPending
  try dsimp only
  repeat' first
  | with_reducible exact hs
  | with_reducible apply State.completeOpt_sound
  | with_reducible apply State.modJob_sound

theorem State.leaveHeld_sound (s : State) (hs : s.Sound) : (State.leaveHeld s).Sound := by
  unfold State.leaveHeld
  try dsimp only
  repeat' first
  | with_reducible assumption
  | with_reducible intro hc
  | with_reducible apply State.modInt_sound

end Sys2Proof.Machine
end

