-- ==== Sys2Proof/Laws/SoundMemory.lean ====
section
/-! SUPPORT. What the operations and meanings of Machine/Memory keep of a sound state. -/

namespace Sys2Proof.Machine

theorem CtlSt.setSide_sound (c : CtlSt) (b : Nat) (x : Sideband) (hs : c.Sound) : (CtlSt.setSide c b x).Sound := by
  unfold CtlSt.setSide
  try dsimp only
  repeat' first
  | (with_reducible refine CtlSt.Sound.mk ?_ ?_ <;> dsimp only)
  | (have hq := ‹CtlSt.Sound _›; with_reducible exact hq.data)
  | (have hq := ‹CtlSt.Sound _›; with_reducible exact hq.merge)

theorem mergeSound_filter {l : List MergeEnt} (p : MergeEnt → Bool) (h : MergeSound l) : MergeSound (l.filter p) :=
  ⟨Nat.le_trans (List.length_filter_le _ _) h.1, fun m hm => h.2 m (List.mem_filter.1 hm).1⟩

theorem mergeSound_map {l : List MergeEnt} (f : MergeEnt → MergeEnt)
    (hf : ∀ m ∈ l, PendingSound m.bytes → PendingSound (f m).bytes) (h : MergeSound l) : MergeSound (l.map f) := by
  refine ⟨by rw [List.length_map]; exact h.1, fun m hm => ?_⟩
  obtain ⟨x, hx, rfl⟩ := List.mem_map.1 hm
  exact hf x hx (h.2 x hx)

/-- What a write leaves of the pending bytes. -/
theorem mergeSound_without {l : List MergeEnt} (a n : Nat) (h : MergeSound l) :
    MergeSound ((l.map fun m => m.without a n).filter fun m => !m.bytes.isEmpty) := by
  refine ⟨Nat.le_trans (List.length_filter_le _ _) (by rw [List.length_map]; exact h.1), fun m hm => ?_⟩
  obtain ⟨hm, he⟩ := List.mem_filter.1 hm
  obtain ⟨x, hx, rfl⟩ := List.mem_map.1 hm
  have hp := h.2 x hx
  exact ⟨fun h0 => by simp [h0] at he, fun b hb => hp.within b (List.mem_filter.1 hb).1,
    hp.once.sublist (List.Sublist.map _ List.filter_sublist)⟩

theorem CtlSt.overwrite_sound (c : CtlSt) (a : Nat) (bs : List Byte) (hs : c.Sound) : (CtlSt.overwrite c a bs).Sound :=
  ⟨memWrite_wf _ _ _ hs.data, mergeSound_without _ _ hs.merge⟩

theorem State.answer_sound (s : State) (c : CtlId) (st : Status) (a : Nat) (who : Requester) (hs : s.Sound) : (State.answer s c st a who).Sound := by
  unfold State.answer
  try dsimp only
  repeat' first
  | with_reducible assumption
  | with_reducible intro hc
  | with_reducible apply State.emit_sound
  | with_reducible apply State.modChan_sound
  | with_reducible apply State.ctl_sound
  | with_reducible apply ite_sound
  | with_reducible refine snd_sound_of_eq (by assumption) ?_
  | with_reducible refine fst_sound_of_eq (by assumption) ?_
  | dsimp only
  | split

theorem State.answerAll_sound (s : State) (c : CtlId) (st : Status) (a : Nat) (l : List Requester) (hs : s.Sound) : (State.answerAll s c st a l).Sound := by
  unfold State.answerAll
  try dsimp only
  repeat' first
  | with_reducible assumption
  | with_reducible intro hc
  | with_reducible apply State.answer_sound
  | with_reducible apply foldl_sound
  | with_reducible apply foldl_fst_sound
  | with_reducible apply foldl_snd_sound

theorem State.overwrite_sound (s : State) (c : CtlId) (a : Nat) (bs : List Byte) (hs : s.Sound) : (State.overwrite s c a bs).Sound := by
  unfold State.overwrite
  try dsimp only
  repeat' first
  | with_reducible assumption
  | with_reducible intro hc
  | with_reducible apply State.modCtl_sound
  | with_reducible apply State.ctl_sound
  | with_reducible apply CtlSt.overwrite_sound
  | with_reducible apply State.answerAll_sound
  | (with_reducible refine CtlSt.Sound.mk ?_ ?_ <;> dsimp only)
  | (have hq := ‹CtlSt.Sound _›; with_reducible exact hq.data)
  | (have hq := ‹CtlSt.Sound _›; with_reducible exact hq.merge)

theorem State.putPage_sound (s : State) (c : CtlId) (p : Nat) (data : List Byte) (x : Sideband) (hs : s.Sound) : (State.putPage s c p data x).Sound := by
  unfold State.putPage
  try dsimp only
  repeat' first
  | with_reducible assumption
  | with_reducible intro hc
  | with_reducible apply State.modCtl_sound
  | with_reducible apply CtlSt.setSide_sound
  | with_reducible apply State.overwrite_sound
  | (with_reducible refine CtlSt.Sound.mk ?_ ?_ <;> dsimp only)
  | with_reducible apply CtlSt.Sound.data
  | with_reducible apply CtlSt.Sound.merge
  | split

theorem State.putPart_sound (s : State) (c : CtlId) (a : Nat) (data : List Byte) (hs : s.Sound) : (State.putPart s c a data).Sound := by
  unfold State.putPart
  try dsimp only
  repeat' first
  | with_reducible assumption
  | with_reducible intro hc
  | with_reducible apply State.modCtl_sound
  | with_reducible apply CtlSt.setSide_sound
  | with_reducible apply State.overwrite_sound
  | with_reducible apply State.putPage_sound
  | split

theorem State.putParts_sound (s : State) (c : CtlId) (a : Nat) (data : List Byte) (nn : Nat) (hs : s.Sound) : (State.putParts s c a data nn).Sound := by
  induction nn generalizing s c a data with
  | zero =>
      unfold State.putParts
      try dsimp only
      repeat' first
      | with_reducible assumption
      | with_reducible intro hc
      | with_reducible apply IH
      | with_reducible apply State.putPart_sound
      | with_reducible apply ite_sound
      | dsimp only
      | split
  | succ k IH =>
      unfold State.putParts
      try dsimp only
      repeat' first
      | with_reducible assumption
      | with_reducible intro hc
      | with_reducible apply IH
      | with_reducible apply State.putPart_sound
      | with_reducible apply ite_sound
      | dsimp only
      | split

theorem State.correct_sound (s : State) (c : CtlId) (d : Fin 8) (cw : Nat) (b : ReadBy) (hs : s.Sound) : (State.correct s c d cw b).Sound := by
  unfold State.correct
  try dsimp only
  repeat' first
  | with_reducible assumption
  | with_reducible intro hc
  | with_reducible apply State.modCtl_sound
  | with_reducible apply State.postAt_sound
  | with_reducible apply ite_sound
  | (with_reducible refine CtlSt.Sound.mk ?_ ?_ <;> dsimp only)
  | (have hq := ‹CtlSt.Sound _›; with_reducible exact hq.data)
  | (have hq := ‹CtlSt.Sound _›; with_reducible exact hq.merge)

theorem State.countUe_sound (s : State) (c : CtlId) (cw : Nat) (d : Option (Fin 8)) (scrub : Bool) (hs : s.Sound) : (State.countUe s c cw d scrub).Sound := by
  unfold State.countUe
  try dsimp only
  repeat' first
  | with_reducible assumption
  | with_reducible intro hc
  | with_reducible apply State.modCtl_sound
  | with_reducible apply ite_sound
  | with_reducible apply ite_ctl_sound
  | (with_reducible refine CtlSt.Sound.mk ?_ ?_ <;> dsimp only)
  | (have hq := ‹CtlSt.Sound _›; with_reducible exact hq.data)
  | (have hq := ‹CtlSt.Sound _›; with_reducible exact hq.merge)
  | with_reducible apply CtlSt.Sound.data
  | with_reducible apply CtlSt.Sound.merge
  | with_reducible refine snd_sound_of_eq (by assumption) ?_
  | with_reducible refine fst_sound_of_eq (by assumption) ?_
  | dsimp only
  | split

theorem State.recordUe_sound (s : State) (c : CtlId) (d : Option (Fin 8)) (cw : Nat) (b : ReadBy) (hs : s.Sound) : (State.recordUe s c d cw b).Sound := by
  unfold State.recordUe
  try dsimp only
  repeat' first
  | with_reducible assumption
  | with_reducible intro hc
  | with_reducible apply State.modCtl_sound
  | with_reducible apply State.setErr_sound
  | with_reducible apply State.postAt_sound
  | (with_reducible refine CtlSt.Sound.mk ?_ ?_ <;> dsimp only)
  | (have hq := ‹CtlSt.Sound _›; with_reducible exact hq.data)
  | (have hq := ‹CtlSt.Sound _›; with_reducible exact hq.merge)

theorem State.sift_sound (s : State) (c : CtlId) (a : Nat) (len : Nat) (fs : List (Nat × CwFault)) (b : ReadBy) (hs : s.Sound) : (State.sift s c a len fs b).2.Sound := by
  unfold State.sift
  try dsimp only
  repeat' first
  | with_reducible assumption
  | with_reducible intro hc
  | with_reducible apply State.correct_sound
  | with_reducible apply foldl_sound
  | with_reducible apply ite_sound
  | split

theorem State.sift_sound_eq {s : State} {c : CtlId} {a : Nat} {len : Nat} {fs : List (Nat × CwFault)} {b : ReadBy} {a0} {t : State} (hq : State.sift s c a len fs b = (a0, t)) (hs : s.Sound) : t.Sound := by
  have := State.sift_sound s c a len fs b hs; rw [hq] at this; exact this

theorem State.reportBad_sound (s : State) (c : CtlId) (l : List BadCw) (b : ReadBy) (hs : s.Sound) : (State.reportBad s c l b).2.Sound := by
  unfold State.reportBad
  try dsimp only
  repeat' first
  | with_reducible assumption
  | with_reducible intro hc
  | with_reducible apply State.countUe_sound
  | with_reducible apply State.recordUe_sound
  | with_reducible apply foldl_sound
  | split

theorem State.reportBad_sound_eq {s : State} {c : CtlId} {l : List BadCw} {b : ReadBy} {a0} {t : State} (hq : State.reportBad s c l b = (a0, t)) (hs : s.Sound) : t.Sound := by
  have := State.reportBad_sound s c l b hs; rw [hq] at this; exact this

theorem State.cacheFill_sound (s : State) (f : FarId) (line : Nat) (hs : s.Sound) : (State.cacheFill s f line).Sound := by
  unfold State.cacheFill
  try dsimp only
  repeat' first
  | with_reducible assumption
  | with_reducible intro hc
  | with_reducible apply State.modCache_sound
  | with_reducible refine State.Sound.mbox ?_
  | with_reducible refine State.Sound.book ?_
  | with_reducible refine State.Sound.eng ?_ _ _
  | with_reducible refine State.Sound.vaults ?_ _ _
  | with_reducible refine State.Sound.fars ?_ _ _
  | with_reducible refine State.Sound.aperture ?_ _ _
  | with_reducible refine State.Sound.rings ?_ _ _
  | (with_reducible refine State.Sound.mk ?_ ?_ ?_ ?_ ?_ ?_ ?_ <;> dsimp only)
  | split

theorem State.cacheDrop_sound (s : State) (f : FarId) (line : Nat) (hs : s.Sound) : (State.cacheDrop s f line).Sound := by
  unfold State.cacheDrop
  try dsimp only
  repeat' first
  | with_reducible assumption
  | with_reducible intro hc
  | with_reducible apply State.modCache_sound
  | with_reducible apply filter_le

theorem State.cacheRefetch_sound (s : State) (f : FarId) (line : Nat) (b : ReadBy) (hs : s.Sound) : (State.cacheRefetch s f line b).Sound := by
  unfold State.cacheRefetch
  try dsimp only
  repeat' first
  | with_reducible assumption
  | with_reducible intro hc
  | with_reducible apply State.postAt_sound
  | with_reducible apply State.cacheDrop_sound

theorem State.cacheLine_sound (s : State) (f : FarId) (a : Nat) (len : Nat) (line : Nat) (noAlloc : Bool) (badLine : Bool) (fs : List (Nat × CwFault)) (b : ReadBy) (hs : s.Sound) : (State.cacheLine s f a len line noAlloc badLine fs b).2.Sound := by
  unfold State.cacheLine
  try dsimp only
  repeat' first
  | with_reducible assumption
  | with_reducible intro hc
  | with_reducible apply State.modCache_sound
  | with_reducible apply State.sift_sound
  | with_reducible apply State.cacheFill_sound
  | with_reducible apply State.cacheRefetch_sound
  | with_reducible refine State.sift_sound_eq (by assumption) ?_
  | with_reducible apply ite_sound
  | with_reducible apply ite_snd_sound
  | with_reducible apply ite_fst_sound
  | dsimp only
  | split

theorem State.cacheLine_sound_eq {s : State} {f : FarId} {a : Nat} {len : Nat} {line : Nat} {noAlloc : Bool} {badLine : Bool} {fs : List (Nat × CwFault)} {b : ReadBy} {a0} {t : State} (hq : State.cacheLine s f a len line noAlloc badLine fs b = (a0, t)) (hs : s.Sound) : t.Sound := by
  have := State.cacheLine_sound s f a len line noAlloc badLine fs b hs; rw [hq] at this; exact this

theorem State.cacheRead_sound (s : State) (f : FarId) (a : Nat) (len : Nat) (noAlloc : Bool) (m : ReadMet) (b : ReadBy) (hs : s.Sound) : (State.cacheRead s f a len noAlloc m b).2.Sound := by
  unfold State.cacheRead
  try dsimp only
  repeat' first
  | with_reducible assumption
  | with_reducible intro hc
  | with_reducible apply foldl_snd2_sound
  | with_reducible apply State.modCache_sound
  | with_reducible apply State.cacheLine_sound
  | with_reducible refine State.cacheLine_sound_eq (by assumption) ?_
  | with_reducible apply foldl_sound
  | with_reducible apply foldl_fst_sound
  | with_reducible apply foldl_snd_sound
  | with_reducible apply ite_sound
  | with_reducible apply ite_snd_sound
  | with_reducible apply ite_fst_sound
  | with_reducible apply filter_le
  | dsimp only
  | split

theorem State.cacheRead_sound_eq {s : State} {f : FarId} {a : Nat} {len : Nat} {noAlloc : Bool} {m : ReadMet} {b : ReadBy} {a0} {t : State} (hq : State.cacheRead s f a len noAlloc m b = (a0, t)) (hs : s.Sound) : t.Sound := by
  have := State.cacheRead_sound s f a len noAlloc m b hs; rw [hq] at this; exact this

theorem State.readVia_sound (s : State) (c : CtlId) (a : Nat) (len : Nat) (noAlloc : Bool) (m : ReadMet) (b : ReadBy) (hs : s.Sound) : (State.readVia s c a len noAlloc m b).2.Sound := by
  unfold State.readVia
  try dsimp only
  repeat' first
  | with_reducible assumption
  | with_reducible apply State.sift_sound
  | with_reducible apply State.reportBad_sound
  | with_reducible apply State.cacheRead_sound
  | split

theorem State.readVia_sound_eq {s : State} {c : CtlId} {a : Nat} {len : Nat} {noAlloc : Bool} {m : ReadMet} {b : ReadBy} {a0} {t : State} (hq : State.readVia s c a len noAlloc m b = (a0, t)) (hs : s.Sound) : t.Sound := by
  have := State.readVia_sound s c a len noAlloc m b hs; rw [hq] at this; exact this

theorem State.readPageVia_sound (s : State) (c : CtlId) (p : Nat) (b : ReadBy) (hs : s.Sound) : (State.readPageVia s c p b).2.Sound := by
  unfold State.readPageVia
  try dsimp only
  repeat' first
  | with_reducible assumption
  | with_reducible apply State.readVia_sound

theorem State.readPageVia_sound_eq {s : State} {c : CtlId} {p : Nat} {b : ReadBy} {a0} {t : State} (hq : State.readPageVia s c p b = (a0, t)) (hs : s.Sound) : t.Sound := by
  have := State.readPageVia_sound s c p b hs; rw [hq] at this; exact this

theorem State.pageIn_sound (s : State) (c : CtlId) (p : Nat) (b : ReadBy) (hs : s.Sound) : (State.pageIn s c p b).2.Sound := by
  unfold State.pageIn
  try dsimp only
  repeat' first
  | with_reducible assumption
  | with_reducible intro hc
  | with_reducible apply State.readPageVia_sound
  | with_reducible refine State.readPageVia_sound_eq (by assumption) ?_
  | with_reducible apply ite_sound
  | with_reducible apply ite_snd_sound
  | with_reducible apply ite_fst_sound
  | dsimp only
  | split

theorem State.pageIn_sound_eq {s : State} {c : CtlId} {p : Nat} {b : ReadBy} {a0} {t : State} (hq : State.pageIn s c p b = (a0, t)) (hs : s.Sound) : t.Sound := by
  have := State.pageIn_sound s c p b hs; rw [hq] at this; exact this

theorem State.pagesIn_sound (s : State) (ps : List (CtlId × Nat)) (b : ReadBy) (hs : s.Sound) : (State.pagesIn s ps b).2.Sound := by
  unfold State.pagesIn
  try dsimp only
  repeat' first
  | with_reducible assumption
  | with_reducible intro hc
  | with_reducible apply State.pageIn_sound
  | with_reducible refine State.pageIn_sound_eq (by assumption) ?_
  | with_reducible apply foldl_sound
  | with_reducible apply foldl_fst_sound
  | with_reducible apply foldl_snd_sound
  | with_reducible apply ite_sound
  | with_reducible apply ite_snd_sound
  | with_reducible apply ite_fst_sound
  | with_reducible refine snd_sound_of_eq (by assumption) ?_
  | with_reducible refine fst_sound_of_eq (by assumption) ?_
  | dsimp only
  | split

theorem State.pagesIn_sound_eq {s : State} {ps : List (CtlId × Nat)} {b : ReadBy} {a0} {t : State} (hq : State.pagesIn s ps b = (a0, t)) (hs : s.Sound) : t.Sound := by
  have := State.pagesIn_sound s ps b hs; rw [hq] at this; exact this

theorem ite_pending {c : Prop} [Decidable c] {x y : MergeEnt} (hx : PendingSound x.bytes) (hy : PendingSound y.bytes) :
    PendingSound (if c then x else y).bytes := by
  split
  · exact hx
  · exact hy

/-- Pending bytes of a codeword, each once. -/
def PendingOk (l : List (Nat × Byte)) : Prop := (∀ b ∈ l, b.1 < 64) ∧ (l.map (·.1)).Nodup

theorem assocSet_pending {l : List (Nat × Byte)} {k : Nat} {v : Byte} (h : PendingOk l) (hk : k < 64) :
    PendingOk (assocSet l k v) := by
  refine ⟨fun b hb => ?_, List.nodup_cons.2 ⟨fun hc => ?_, h.2.sublist (List.Sublist.map _ List.filter_sublist)⟩⟩
  · rcases List.mem_cons.1 hb with rfl | hb
    · exact hk
    · exact h.1 b (List.mem_filter.1 hb).1
  · obtain ⟨x, hx, e⟩ := List.mem_map.1 hc
    simp [e] at hx

theorem mergeBytes_pending (data : List Byte) : ∀ (old : List (Nat × Byte)) (off : Nat), PendingOk old →
    off + data.length ≤ 64 ∨ data = [] → PendingOk (mergeBytes old off data) := by
  induction data with
  | nil => intro old off h _; exact h
  | cons x xs ih =>
    intro old off h hl
    have hl : off + (xs.length + 1) ≤ 64 := by simpa using hl
    exact ih _ _ (assocSet_pending h (by omega)) (.inl (by omega))

theorem mergeBytes_some (data : List Byte) : ∀ (old : List (Nat × Byte)) (off : Nat), old ≠ [] ∨ data ≠ [] →
    mergeBytes old off data ≠ [] := by
  induction data with
  | nil => intro old off h; simpa [mergeBytes] using h
  | cons x xs ih => intro old off _; exact ih _ _ (.inl (List.cons_ne_nil _ _))

theorem mergeBytes_sound (data : List Byte) (old : List (Nat × Byte)) (off : Nat) (h : PendingOk old)
    (hd : ¬((data.take (64 - off)).isEmpty = true)) : PendingSound (mergeBytes old off (data.take (64 - off))) := by
  have hd : data.take (64 - off) ≠ [] := fun h0 => hd (by rw [h0]; rfl)
  have hp : PendingOk (mergeBytes old off (data.take (64 - off))) := by
    refine mergeBytes_pending _ _ _ h (.inl ?_)
    by_cases ho : off ≤ 64
    · rw [List.length_take]; omega
    · exact absurd (by rw [show 64 - off = 0 by omega]; rfl) hd
  exact ⟨mergeBytes_some _ _ _ (.inr hd), hp.1, hp.2⟩

theorem State.putCw_sound (s : State) (ctl : CtlId) (cw : Nat) (bs : List Byte) (hs : s.Sound) : (State.putCw s ctl cw bs).Sound := by
  unfold State.putCw
  try dsimp only
  repeat' first
  | with_reducible assumption
  | with_reducible intro hc
  | with_reducible apply State.modCtl_sound
  | with_reducible apply State.putPart_sound
  | with_reducible apply ite_sound
  | (with_reducible refine CtlSt.Sound.mk ?_ ?_ <;> dsimp only)
  | (have hq := ‹CtlSt.Sound _›; with_reducible exact hq.data)
  | (have hq := ‹CtlSt.Sound _›; with_reducible exact hq.merge)

theorem State.readCw_sound (s : State) (ctl : CtlId) (cw : Nat) (fault : Option CwFault) (b : ReadBy) (hs : s.Sound) : (State.readCw s ctl cw fault b).2.Sound := by
  unfold State.readCw
  try dsimp only
  repeat' first
  | with_reducible assumption
  | with_reducible intro hc
  | with_reducible apply State.modCache_sound
  | with_reducible apply State.sift_sound
  | with_reducible apply ite_snd_sound
  | split

theorem State.readCw_sound_eq {s : State} {ctl : CtlId} {cw : Nat} {fault : Option CwFault} {b : ReadBy} {a0} {t : State} (hq : State.readCw s ctl cw fault b = (a0, t)) (hs : s.Sound) : t.Sound := by
  have := State.readCw_sound s ctl cw fault b hs; rw [hq] at this; exact this

theorem State.retireFails_sound (s : State) (ctl : CtlId) (m : MergeEnt) (hs : s.Sound) : (State.retireFails s ctl m).Sound := by
  unfold State.retireFails
  try dsimp only
  repeat' first
  | with_reducible assumption
  | with_reducible intro hc
  | with_reducible apply foldl_ctl_sound
  | with_reducible apply mergeSound_filter
  | with_reducible apply CtlSt.setSide_sound
  | with_reducible apply State.modCtl_sound
  | with_reducible apply CtlSt.setSide_sound
  | with_reducible apply State.answerAll_sound
  | with_reducible apply foldl_sound
  | with_reducible apply foldl_fst_sound
  | with_reducible apply foldl_snd_sound
  | (with_reducible refine CtlSt.Sound.mk ?_ ?_ <;> dsimp only)
  | (have hq := ‹CtlSt.Sound _›; with_reducible exact hq.data)
  | (have hq := ‹CtlSt.Sound _›; with_reducible exact hq.merge)
  | with_reducible apply memFilter_wf
  | with_reducible apply CtlSt.Sound.data
  | with_reducible apply CtlSt.Sound.merge
  | with_reducible apply filter_le

theorem State.retire_sound (s : State) (ctl : CtlId) (m : MergeEnt) (fault : Option CwFault) (hs : s.Sound) : (State.retire s ctl m fault).Sound := by
  unfold State.retire
  try dsimp only
  repeat' first
  | with_reducible assumption
  | with_reducible intro hc
  | with_reducible apply mergeSound_filter
  | with_reducible apply State.modCtl_sound
  | with_reducible apply State.answerAll_sound
  | with_reducible apply State.reportBad_sound
  | with_reducible apply State.putCw_sound
  | with_reducible apply State.readCw_sound
  | with_reducible apply State.retireFails_sound
  | with_reducible refine State.reportBad_sound_eq (by assumption) ?_
  | with_reducible refine State.readCw_sound_eq (by assumption) ?_
  | with_reducible apply ite_sound
  | with_reducible apply ite_ctl_sound
  | (with_reducible refine CtlSt.Sound.mk ?_ ?_ <;> dsimp only)
  | (have hq := ‹CtlSt.Sound _›; with_reducible exact hq.data)
  | (have hq := ‹CtlSt.Sound _›; with_reducible exact hq.merge)
  | with_reducible apply memFilter_wf
  | with_reducible apply CtlSt.Sound.data
  | with_reducible apply CtlSt.Sound.merge
  | with_reducible apply filter_le
  | with_reducible apply map_le
  | dsimp only
  | split

theorem CtlSt.addMerge_sound (c : CtlSt) (m : MergeEnt) (hm : PendingSound m.bytes) (hs : c.Sound) :
    (CtlSt.addMerge c m).Sound := by
  refine ⟨hs.data, ?_, fun x hx => ?_⟩
  · show ((c.merge ++ [m]).drop (c.merge.length + 1 - 64)).length ≤ 64
    rw [List.length_drop, List.length_append, List.length_singleton]
    omega
  · rcases List.mem_append.1 (List.mem_of_mem_drop hx) with h | h
    · exact hs.merge.2 x h
    · rw [List.mem_singleton.1 h]; exact hm

theorem pendingOk {l : List (Nat × Byte)} (h : PendingSound l) : PendingOk l := ⟨h.within, h.once⟩

theorem State.mergeIn_sound (s : State) (ctl : CtlId) (cw : Nat) (off : Nat) (data : List Byte) (who : List Requester) (fault : Option CwFault) (old : List (Nat × Sideband)) (hs : s.Sound) : (State.mergeIn s ctl cw off data who fault old).Sound := by
  unfold State.mergeIn
  try dsimp only
  repeat' first
  | with_reducible assumption
  | with_reducible intro hc
  | exact mergeBytes_sound _ _ _ (pendingOk ((State.ctl_sound s ctl hs).merge.2 _ (List.mem_of_find?_eq_some ‹_›))) ‹_›
  | exact mergeBytes_sound _ _ _ ⟨(fun _ h => nomatch h), List.nodup_nil⟩ ‹_›
  | with_reducible apply mergeSound_filter
  | (with_reducible refine mergeSound_map _ (fun m _ hb => ite_pending ?_ hb) ?_)
  | with_reducible apply State.modCtl_sound
  | with_reducible apply State.ctl_sound
  | with_reducible apply State.answerAll_sound
  | with_reducible apply mergeBytes_sound
  | with_reducible apply State.putCw_sound
  | with_reducible apply State.retire_sound
  | with_reducible apply CtlSt.addMerge_sound
  | with_reducible refine State.retire_sound_eq (by assumption) ?_
  | with_reducible apply ite_sound
  | with_reducible apply ite_ctl_sound
  | (with_reducible refine CtlSt.Sound.mk ?_ ?_ <;> dsimp only)
  | exact Nat.zero_le _
  | exact rfl
  | (have hq := ‹CtlSt.Sound _›; with_reducible exact hq.data)
  | (have hq := ‹CtlSt.Sound _›; with_reducible exact hq.merge)
  | with_reducible apply memFilter_wf
  | with_reducible apply CtlSt.Sound.data
  | with_reducible apply CtlSt.Sound.merge
  | with_reducible apply filter_le
  | with_reducible apply map_le
  | with_reducible refine snd_sound_of_eq (by assumption) ?_
  | with_reducible refine fst_sound_of_eq (by assumption) ?_
  | dsimp only
  | split

theorem State.narrow_sound (s : State) (ctl : CtlId) (a : Nat) (data : List Byte) (who : List Requester) (fault : Option CwFault) (hs : s.Sound) : (State.narrow s ctl a data who fault).Sound := by
  unfold State.narrow
  try dsimp only
  repeat' first
  | with_reducible assumption
  | with_reducible intro hc
  | with_reducible apply State.modCtl_sound
  | with_reducible apply CtlSt.setSide_sound
  | with_reducible apply State.answerAll_sound
  | with_reducible apply State.putPart_sound
  | with_reducible apply State.mergeIn_sound
  | with_reducible refine State.mergeIn_sound_eq (by assumption) ?_
  | (with_reducible refine CtlSt.Sound.mk ?_ ?_ <;> dsimp only)
  | exact Nat.zero_le _
  | exact rfl
  | (have hq := ‹CtlSt.Sound _›; with_reducible exact hq.data)
  | (have hq := ‹CtlSt.Sound _›; with_reducible exact hq.merge)
  | with_reducible apply CtlSt.Sound.data
  | with_reducible apply CtlSt.Sound.merge
  | with_reducible refine snd_sound_of_eq (by assumption) ?_
  | with_reducible refine fst_sound_of_eq (by assumption) ?_
  | dsimp only
  | split

theorem State.writePage_sound (s : State) (c : CtlId) (p : Nat) (data : List Byte) (x : Sideband) (who : List Requester) (evict : Option CwFault) (hs : s.Sound) : (State.writePage s c p data x who evict).Sound := by
  unfold State.writePage
  try dsimp only
  repeat' first
  | with_reducible assumption
  | with_reducible intro hc
  | with_reducible apply State.ctl_sound
  | with_reducible apply State.answerAll_sound
  | with_reducible apply State.putPage_sound
  | with_reducible apply State.mergeIn_sound
  | with_reducible refine State.mergeIn_sound_eq (by assumption) ?_
  | with_reducible apply ite_sound
  | dsimp only
  | split

theorem State.writeRange_sound (s : State) (c : CtlId) (a : Nat) (data : List Byte) (who : List Requester) (evict : Option CwFault) (nn : Nat) (hs : s.Sound) : (State.writeRange s c a data who evict nn).Sound := by
  induction nn generalizing s c a data who evict with
  | zero =>
      unfold State.writeRange
      try dsimp only
      repeat' first
      | with_reducible assumption
      | with_reducible intro hc
      | with_reducible apply IH
      | with_reducible apply State.putPart_sound
      | with_reducible apply State.narrow_sound
      | with_reducible apply State.writePage_sound
      | with_reducible refine State.narrow_sound_eq (by assumption) ?_
      | with_reducible refine State.writePage_sound_eq (by assumption) ?_
      | with_reducible apply ite_sound
      | dsimp only
      | split
  | succ k IH =>
      unfold State.writeRange
      try dsimp only
      repeat' first
      | with_reducible assumption
      | with_reducible intro hc
      | with_reducible apply IH
      | with_reducible apply State.putPart_sound
      | with_reducible apply State.narrow_sound
      | with_reducible apply State.writePage_sound
      | with_reducible refine State.narrow_sound_eq (by assumption) ?_
      | with_reducible refine State.writePage_sound_eq (by assumption) ?_
      | with_reducible apply ite_sound
      | dsimp only
      | split

theorem State.writeBytes_sound (s : State) (c : CtlId) (a : Nat) (data : List Byte) (who : List Requester) (evict : Option CwFault) (hs : s.Sound) : (State.writeBytes s c a data who evict).Sound := by
  unfold State.writeBytes
  try dsimp only
  repeat' first
  | with_reducible assumption
  | with_reducible intro hc
  | with_reducible apply State.answerAll_sound
  | with_reducible apply State.writeRange_sound
  | with_reducible refine State.writeRange_sound_eq (by assumption) ?_
  | with_reducible apply ite_sound
  | dsimp only
  | split

theorem State.writeBlock_sound (s : State) (c : CtlId) (page : Nat) (data : List Byte) (x : Sideband) (who : List Requester) (evict : Option CwFault) (hs : s.Sound) : (State.writeBlock s c page data x who evict).2.Sound := by
  unfold State.writeBlock
  try dsimp only
  repeat' first
  | with_reducible assumption
  | with_reducible intro hc
  | with_reducible apply State.writePage_sound
  | with_reducible refine State.writePage_sound_eq (by assumption) ?_
  | with_reducible apply ite_sound
  | with_reducible apply ite_snd_sound
  | with_reducible apply ite_fst_sound
  | dsimp only
  | split

theorem State.writeBlock_sound_eq {s : State} {c : CtlId} {page : Nat} {data : List Byte} {x : Sideband} {who : List Requester} {evict : Option CwFault} {a0} {t : State} (hq : State.writeBlock s c page data x who evict = (a0, t)) (hs : s.Sound) : t.Sound := by
  have := State.writeBlock_sound s c page data x who evict hs; rw [hq] at this; exact this

theorem State.aptErr_sound (s : State) (st : Status) (off : BitVec 36) (hs : s.Sound) : (State.aptErr s st off).Sound := by
  unfold State.aptErr
  try dsimp only
  repeat' first
  | with_reducible assumption
  | with_reducible intro hc
  | with_reducible apply State.modHost_sound
  | (intros; rfl)

theorem State.aerLog_sound (s : State) (p : PciStatus) (hs : s.Sound) : (State.aerLog s p).Sound := by
  unfold State.aerLog
  try dsimp only
  repeat' first
  | with_reducible assumption
  | with_reducible intro hc
  | with_reducible apply State.modHost_sound
  | (intros; rfl)
  | dsimp only
  | split

theorem State.pciRefuse_sound (s : State) (p : PciStatus) (hs : s.Sound) : (State.pciRefuse s p).Sound := by
  unfold State.pciRefuse
  try dsimp only
  repeat' first
  | with_reducible assumption
  | with_reducible intro hc
  | with_reducible apply State.emit_sound
  | with_reducible apply State.aerLog_sound

theorem State.hostUe_sound (s : State) (c : CtlId) (a : Nat) (hs : s.Sound) : (State.hostUe s c a).Sound := by
  unfold State.hostUe
  try dsimp only
  repeat' first
  | with_reducible assumption
  | with_reducible intro hc
  | with_reducible apply State.aptErr_sound
  | with_reducible apply State.pciRefuse_sound
  | dsimp only
  | split

theorem State.uePath_sound (s : State) (ctl : CtlId) (a : Nat) (who : Requester) (hs : s.Sound) : (State.uePath s ctl a who).Sound := by
  unfold State.uePath
  try dsimp only
  repeat' first
  | with_reducible assumption
  | with_reducible intro hc
  | with_reducible apply State.emit_sound
  | with_reducible apply State.settle_sound
  | with_reducible apply State.mark_sound
  | with_reducible apply State.hostUe_sound
  | with_reducible refine snd_sound_of_eq (by assumption) ?_
  | with_reducible refine fst_sound_of_eq (by assumption) ?_
  | dsimp only
  | split

theorem execMemReadRequest_sound (ctl : CtlId) (q : MemRead) (s : State) (hs : s.Sound) : Res.Sound (execMemReadRequest ctl q s) := by
  unfold execMemReadRequest
  try dsimp only
  repeat' first
  | with_reducible assumption
  | with_reducible intro hc
  | with_reducible refine Res.next_sound ?_
  | with_reducible exact Res.fault_sound _
  | with_reducible apply State.emit_sound
  | with_reducible apply State.readVia_sound
  | with_reducible apply State.uePath_sound
  | with_reducible refine State.readVia_sound_eq (by assumption) ?_
  | with_reducible apply ite_sound
  | with_reducible apply ite_res_sound
  | dsimp only
  | split
  | exact trivial

theorem execMemWriteRequest_sound (ctl : CtlId) (q : MemWrite) (s : State) (hs : s.Sound) : Res.Sound (execMemWriteRequest ctl q s) := by
  unfold execMemWriteRequest
  try dsimp only
  repeat' first
  | with_reducible assumption
  | with_reducible intro hc
  | with_reducible refine Res.next_sound ?_
  | with_reducible exact Res.fault_sound _
  | with_reducible apply State.emit_sound
  | with_reducible apply State.setErr_sound
  | with_reducible apply State.post_sound
  | with_reducible apply State.writeBytes_sound
  | with_reducible apply State.writeBlock_sound
  | with_reducible refine State.writeBytes_sound_eq (by assumption) ?_
  | with_reducible refine State.writeBlock_sound_eq (by assumption) ?_
  | with_reducible apply ite_sound
  | with_reducible apply ite_res_sound
  | with_reducible apply ite_ctl_sound
  | with_reducible refine snd_sound_of_eq (by assumption) ?_
  | with_reducible refine fst_sound_of_eq (by assumption) ?_
  | dsimp only
  | split
  | exact trivial

theorem execNarrowWrite_sound (ctl : CtlId) (q : MemWrite) (fault : Option CwFault) (s : State) (hs : s.Sound) : Res.Sound (execNarrowWrite ctl q fault s) := by
  unfold execNarrowWrite
  try dsimp only
  repeat' first
  | with_reducible assumption
  | with_reducible intro hc
  | with_reducible refine Res.next_sound ?_
  | with_reducible exact Res.fault_sound _
  | with_reducible apply State.emit_sound
  | with_reducible apply State.narrow_sound
  | with_reducible apply ite_res_sound

theorem execMergeRetire_sound (ctl : CtlId) (fault : Option CwFault) (s : State) (hs : s.Sound) : Res.Sound (execMergeRetire ctl fault s) := by
  unfold execMergeRetire
  try dsimp only
  repeat' first
  | with_reducible assumption
  | with_reducible refine Res.next_sound ?_
  | with_reducible apply State.retire_sound
  | split

theorem State.scrubRate_sound (s : State) (ctl : CtlId) (hot : Int) (hs : s.Sound) : (State.scrubRate s ctl hot).Sound := by
  unfold State.scrubRate
  try dsimp only
  repeat' first
  | with_reducible exact hs
  | with_reducible intro hc
  | with_reducible apply State.modCtl_sound
  | with_reducible apply State.envelopeEvent_sound
  | (with_reducible refine CtlSt.Sound.mk ?_ ?_ <;> dsimp only)
  | (have hq := ‹CtlSt.Sound _›; with_reducible exact hq.data)
  | (have hq := ‹CtlSt.Sound _›; with_reducible exact hq.merge)
  | split

theorem execScrubRead_sound (ctl : CtlId) (fault : Option CwFault) (hot : Int) (s : State) (hs : s.Sound) : Res.Sound (execScrubRead ctl fault hot s) := by
  unfold execScrubRead
  try dsimp only
  repeat' first
  | with_reducible assumption
  | with_reducible intro hc
  | with_reducible refine Res.next_sound ?_
  | with_reducible exact Res.fault_sound _
  | with_reducible apply State.modCtl_sound
  | with_reducible apply State.ctl_sound
  | with_reducible apply State.correct_sound
  | with_reducible apply State.reportBad_sound
  | with_reducible apply State.scrubRate_sound
  | with_reducible refine State.reportBad_sound_eq (by assumption) ?_
  | with_reducible apply ite_sound
  | with_reducible apply ite_res_sound
  | with_reducible apply ite_ctl_sound
  | (with_reducible refine CtlSt.Sound.mk ?_ ?_ <;> dsimp only)
  | (have hq := ‹CtlSt.Sound _›; with_reducible exact hq.data)
  | (have hq := ‹CtlSt.Sound _›; with_reducible exact hq.merge)
  | with_reducible apply CtlSt.Sound.data
  | with_reducible apply CtlSt.Sound.merge
  | (rw [Vector.getElem_map])
  | (rw [Vector.getElem_replicate])
  | with_reducible apply map_le
  | with_reducible refine snd_sound_of_eq (by assumption) ?_
  | with_reducible refine fst_sound_of_eq (by assumption) ?_
  | dsimp only
  | split
  | exact trivial

theorem execDieMark_sound (ctl : CtlId) (die : Fin 8) (s : State) (hs : s.Sound) : Res.Sound (execDieMark ctl die s) := by
  unfold execDieMark
  try dsimp only
  repeat' first
  | with_reducible assumption
  | with_reducible intro hc
  | with_reducible refine Res.next_sound ?_
  | with_reducible apply State.modCtl_sound
  | with_reducible apply State.post_sound
  | with_reducible apply ite_sound
  | (with_reducible refine CtlSt.Sound.mk ?_ ?_ <;> dsimp only)
  | (have hq := ‹CtlSt.Sound _›; with_reducible exact hq.data)
  | (have hq := ‹CtlSt.Sound _›; with_reducible exact hq.merge)

theorem execVaultOutOfService_sound (ctl : CtlId) (die : Fin 8) (s : State) (hs : s.Sound) : Res.Sound (execVaultOutOfService ctl die s) := by
  unfold execVaultOutOfService
  try dsimp only
  repeat' first
  | with_reducible exact hs
  | with_reducible intro hc
  | with_reducible apply ite_sound
  | with_reducible refine Res.next_sound ?_
  | with_reducible apply State.ctlLost_sound

theorem CtlSt.zeroise_sound (c : CtlSt) (k : CtlId) (first : Nat) (n : Nat) (hs : c.Sound) : (CtlSt.zeroise c k first n).Sound := by
  unfold CtlSt.zeroise
  try dsimp only
  repeat' first
  | (with_reducible refine CtlSt.Sound.mk ?_ ?_ <;> dsimp only)
  | (have hq := ‹CtlSt.Sound _›; with_reducible exact hq.data)
  | (have hq := ‹CtlSt.Sound _›; with_reducible exact hq.merge)
  | with_reducible apply memFilter_wf
  | with_reducible apply mergeSound_filter

theorem State.zeroise_sound (s : State) (c : CtlId) (first : Nat) (n : Nat) (hs : s.Sound) : (State.zeroise s c first n).Sound := by
  unfold State.zeroise
  try dsimp only
  repeat' first
  | with_reducible assumption
  | with_reducible intro hc
  | with_reducible apply State.modCtl_sound
  | with_reducible apply State.ctl_sound
  | with_reducible apply State.answerAll_sound
  | with_reducible apply CtlSt.zeroise_sound
  | (with_reducible refine CtlSt.Sound.mk ?_ ?_ <;> dsimp only)
  | (have hq := ‹CtlSt.Sound _›; with_reducible exact hq.data)
  | (have hq := ‹CtlSt.Sound _›; with_reducible exact hq.merge)

theorem State.zeroCtl_sound (s : State) (c : CtlId) (hs : s.Sound) : (State.zeroCtl s c).Sound := by
  unfold State.zeroCtl
  try dsimp only
  repeat' first
  | with_reducible assumption
  | with_reducible intro hc
  | with_reducible apply State.modCtl_sound
  | with_reducible apply CtlSt.zeroise_sound
  | with_reducible apply State.zeroise_sound
  | (with_reducible refine CtlSt.Sound.mk ?_ ?_ <;> dsimp only)
  | (have hq := ‹CtlSt.Sound _›; with_reducible exact hq.data)
  | (have hq := ‹CtlSt.Sound _›; with_reducible exact hq.merge)
  | with_reducible apply CtlSt.Sound.data
  | with_reducible apply CtlSt.Sound.merge

theorem State.zeroAllDram_sound (s : State) (hs : s.Sound) : (State.zeroAllDram s).Sound := by
  unfold State.zeroAllDram
  try dsimp only
  repeat' first
  | with_reducible assumption
  | with_reducible intro hc
  | with_reducible apply State.zeroCtl_sound
  | with_reducible apply foldl_sound

end Sys2Proof.Machine
end

