-- ==== Sys2Proof/Laws/SoundSecurity.lean ====
section
/-! SUPPORT. What the operations and meanings of Machine/Security keep of a sound state. -/

namespace Sys2Proof.Machine

theorem State.random_sound (s : State) (hs : s.Sound) : (State.random s).2.Sound := by
  unfold State.random
  try dsimp only
  repeat' first
  | with_reducible assumption
  | with_reducible intro hc
  | with_reducible apply State.modSec_sound

theorem State.random_sound_eq {s : State} {a0} {t : State} (hq : State.random s = (a0, t)) (hs : s.Sound) : t.Sound := by
  have := State.random_sound s hs; rw [hq] at this; exact this

theorem State.drawNonce_sound (s : State) (hs : s.Sound) : (State.drawNonce s).Sound := by
  unfold State.drawNonce
  try dsimp only
  repeat' first
  | with_reducible assumption
  | with_reducible intro hc
  | with_reducible apply State.random_sound
  | with_reducible apply State.modSec_sound

theorem State.measure_sound (s : State) (mr : Byte) (kind : Byte) (version : W64) (digest : Dig512) (hs : s.Sound) : (State.measure s mr kind version digest).Sound := by
  unfold State.measure
  try dsimp only
  repeat' first
  | with_reducible assumption
  | with_reducible intro hc
  | with_reducible apply State.modSec_sound

theorem State.clearMrJob_sound (s : State) (hs : s.Sound) : (State.clearMrJob s).Sound := by
  unfold State.clearMrJob
  try dsimp only
  repeat' first
  | with_reducible assumption
  | with_reducible intro hc
  | with_reducible apply State.modSec_sound

theorem State.takeToken_sound (s : State) (role : Byte) (c : Cmd) (hs : s.Sound) : (State.takeToken s role c).Sound := by
  unfold State.takeToken
  try dsimp only
  repeat' first
  | with_reducible assumption
  | with_reducible intro hc
  | with_reducible apply State.modSec_sound
  | split

theorem cmdDone_sound (st : Status) (s : State) (hs : s.Sound) : (cmdDone st s).Sound := by
  exact ⟨hs, fun _ ht => ht⟩

theorem cmdLater_sound (s : State) (hs : s.Sound) : (cmdLater s).Sound := by
  exact ⟨hs, fun _ ht => ht⟩

theorem cmdBusy_sound (s : State) (hs : s.Sound) : (cmdBusy s).Sound := by
  exact ⟨hs, fun _ ht => ht⟩

theorem State.busyDone_sound (s : State) (st : Status) (hs : s.Sound) : (State.busyDone s st).Sound := by
  unfold State.busyDone
  try dsimp only
  repeat' first
  | with_reducible assumption
  | with_reducible intro hc
  | with_reducible apply State.modJob_sound
  | with_reducible apply State.dbAppend_sound
  | with_reducible apply State.complete_sound
  | with_reducible refine snd_sound_of_eq (by assumption) ?_
  | with_reducible refine fst_sound_of_eq (by assumption) ?_
  | dsimp only
  | split

theorem State.reserve_sound (s : State) (src : CmdSrc) (hs : s.Sound) : (State.reserve s src).Sound := by
  unfold State.reserve
  try dsimp only
  repeat' first
  | with_reducible exact hs
  | with_reducible intro hc
  | with_reducible apply State.modRing_sound
  | ((fail_if_success (with_reducible refine State.Sound.mk ?_ ?_ ?_ ?_ ?_ ?_ ?_)); first | assumption | (intros; rfl) | exact Nat.zero_le _ | exact rfl)
  | split

theorem State.command_sound (s : State) (opc : Byte) (roles : List Byte) (c : Cmd) (body : PendCmd → Byte → State → CmdOut)
    (hs : s.Sound) (hb : ∀ p r t, t.Sound → (body p r t).Sound) : (State.command s opc roles c body).Sound := by
  unfold State.command
  have h1 := State.reserve_sound s c.src hs
  apply ite_sound
  · intro _; exact hs
  · intro _
    dsimp only
    split
    · apply State.complete_sound
      apply State.dbAppend_sound
      apply State.modSec_sound _ _ h1
      intro x hx; exact hx
    · rename_i role _
      have h2 := hb (s.pendOf opc c) role _ (State.takeToken_sound _ role c h1)
      split
      · refine State.complete_sound _ _ _ _ (h2.2 _ (ite_sound (fun _ => ?_) (fun _ => h2.1)))
        exact State.dbAppend_sound _ _ _ _ _ _ _ _ h2.1
      · refine h2.2 _ (ite_sound (fun _ => ?_) (fun _ => h2.1))
        exact State.dbAppend_sound _ _ _ _ _ _ _ _ h2.1

theorem State.freeCommand_sound (s : State) (opc : Byte) (c : Cmd) (body : State → Status × W64 × State)
    (hs : s.Sound) (hb : ∀ t, t.Sound → (body t).2.2.Sound) : (State.freeCommand s opc c body).Sound := by
  unfold State.freeCommand
  have h1 := hb _ (State.reserve_sound s c.src hs)
  apply ite_sound
  · intro _; exact hs
  · intro _
    apply State.complete_sound
    apply ite_sound
    · intro _; exact h1
    · intro _; exact State.dbAppend_sound _ _ _ _ _ _ _ _ h1

theorem payloadRun_sound (c : Cmd) (limit : Nat) (s : State) (check : Option Status) (short : State → State)
    (effect : State → CmdOut) (hs : s.Sound) (h1 : ∀ t, t.Sound → (short t).Sound) (h2 : ∀ t, t.Sound → (effect t).Sound) :
    (payloadRun c limit s check short effect).Sound := by
  unfold payloadRun
  apply ite_cmd_sound
  · intro _; exact cmdDone_sound _ s hs
  · intro _
    apply ite_cmd_sound
    · intro _; exact cmdDone_sound _ s hs
    · intro _
      split
      · exact cmdDone_sound _ s hs
      · apply ite_cmd_sound
        · intro _; exact cmdDone_sound _ _ (h1 _ hs)
        · intro _; exact h2 _ hs

theorem assayLoad_sound (c : Cmd) (s : State) (hs : s.Sound) : (assayLoad c s).Sound := by
  unfold assayLoad
  try dsimp only
  repeat' first
  | with_reducible assumption
  | with_reducible intro hc
  | exact hc
  | with_reducible apply State.modAllEng_sound
  | with_reducible apply State.modInt_sound
  | with_reducible apply State.measure_sound
  | with_reducible apply cmdDone_sound
  | with_reducible apply State.command_sound
  | with_reducible apply payloadRun_sound
  | with_reducible apply ite_sound
  | with_reducible apply ite_eng_sound
  | (rw [cmdDone_s])
  | (rw [cmdDone_after])
  | (with_reducible refine Engine.Sound.mk ?_ ?_ ?_ ?_ ?_ <;> dsimp only)
  | (have hq := ‹Engine.Sound _›; with_reducible exact hq.store)
  | (have hq := ‹Engine.Sound _›; with_reducible exact hq.acc)
  | (have hq := ‹Engine.Sound _›; with_reducible exact hq.chk)
  | (have hq := ‹Engine.Sound _›; with_reducible exact hq.vr)
  | (have hq := ‹Engine.Sound _›; with_reducible exact hq.queue)
  | with_reducible apply Engine.Sound.store
  | with_reducible apply Engine.Sound.acc
  | with_reducible apply Engine.Sound.chk
  | with_reducible apply Engine.Sound.vr
  | with_reducible apply Engine.Sound.queue
  | with_reducible refine State.Sound.eng ?_ _ _
  | (intros; rfl)
  | dsimp only
  | split

theorem execAssayLoad_sound (c : Cmd) (s : State) (hs : s.Sound) : Res.Sound (execAssayLoad c s) := by
  unfold execAssayLoad
  try dsimp only
  repeat' first
  | with_reducible exact hs
  | with_reducible refine Res.next_sound ?_
  | with_reducible apply assayLoad_sound

theorem keyEnrol_sound (c : Cmd) (s : State) (hs : s.Sound) : (keyEnrol c s).Sound := by
  unfold keyEnrol
  try dsimp only
  repeat' first
  | with_reducible assumption
  | with_reducible intro hc
  | with_reducible apply State.command_sound
  | with_reducible apply payloadRun_sound
  | with_reducible apply State.modSec_sound
  | with_reducible apply State.drawNonce_sound
  | (with_reducible refine CmdOut.sound_mk ?_ ?_ <;> dsimp only)
  | split
  | (rw [cmdDone_s])
  | (rw [id_eq])

theorem execKeyEnrol_sound (c : Cmd) (s : State) (hs : s.Sound) : Res.Sound (execKeyEnrol c s) := by
  unfold execKeyEnrol
  try dsimp only
  repeat' first
  | with_reducible exact hs
  | with_reducible refine Res.next_sound ?_
  | with_reducible apply keyEnrol_sound

theorem fuseMapLoad_sound (c : Cmd) (s : State) (hs : s.Sound) : (fuseMapLoad c s).Sound := by
  unfold fuseMapLoad
  try dsimp only
  repeat' first
  | with_reducible assumption
  | with_reducible intro hc
  | with_reducible apply State.command_sound
  | with_reducible apply payloadRun_sound
  | with_reducible apply cmdDone_sound
  | with_reducible apply State.modSec_sound
  | (rw [id_eq])

theorem execFuseMapLoad_sound (c : Cmd) (s : State) (hs : s.Sound) : Res.Sound (execFuseMapLoad c s) := by
  unfold execFuseMapLoad
  try dsimp only
  repeat' first
  | with_reducible exact hs
  | with_reducible refine Res.next_sound ?_
  | with_reducible apply fuseMapLoad_sound

theorem fwWrite_sound (c : Cmd) (s : State) (hs : s.Sound) : (fwWrite c s).Sound := by
  unfold fwWrite
  try dsimp only
  repeat' first
  | with_reducible assumption
  | with_reducible intro hc
  | with_reducible apply State.command_sound
  | with_reducible apply payloadRun_sound
  | with_reducible apply State.modSec_sound
  | with_reducible apply cmdDone_sound

theorem execFwWrite_sound (c : Cmd) (s : State) (hs : s.Sound) : Res.Sound (execFwWrite c s) := by
  unfold execFwWrite
  try dsimp only
  repeat' first
  | with_reducible exact hs
  | with_reducible refine Res.next_sound ?_
  | with_reducible apply fwWrite_sound

theorem Engine.zeroSram_sound (e : Engine) (hs : e.Sound) : (Engine.zeroSram e).Sound := by
  unfold Engine.zeroSram
  try dsimp only
  repeat' first
  | (with_reducible refine Engine.Sound.mk ?_ ?_ ?_ ?_ ?_ <;> dsimp only)
  | exact rfl
  | (have hq := ‹Engine.Sound _›; with_reducible exact hq.queue)

theorem decommission_sound (c : Cmd) (s : State) (hs : s.Sound) : (decommission c s).Sound := by
  unfold decommission
  try dsimp only
  repeat' first
  | with_reducible assumption
  | with_reducible intro hc
  | with_reducible apply ite_cmd_sound
  | with_reducible apply State.command_sound
  | with_reducible apply cmdDone_sound
  | with_reducible apply State.zeroAllDram_sound
  | with_reducible apply State.modAllEng_sound
  | with_reducible apply Engine.zeroSram_sound
  | with_reducible apply State.modSec_sound
  | with_reducible apply State.drawNonce_sound
  | (with_reducible refine CmdOut.sound_mk ?_ ?_ <;> dsimp only)
  | (rw [cmdDone_s])

theorem execDecommission_sound (c : Cmd) (s : State) (hs : s.Sound) : Res.Sound (execDecommission c s) := by
  unfold execDecommission
  try dsimp only
  repeat' first
  | with_reducible exact hs
  | with_reducible refine Res.next_sound ?_
  | with_reducible apply decommission_sound

theorem svnCommit_sound (c : Cmd) (s : State) (hs : s.Sound) : (svnCommit c s).Sound := by
  unfold svnCommit
  try dsimp only
  repeat' first
  | with_reducible assumption
  | with_reducible intro hc
  | with_reducible apply State.command_sound
  | with_reducible apply cmdDone_sound
  | with_reducible apply State.modSec_sound

theorem execSvnCommit_sound (c : Cmd) (s : State) (hs : s.Sound) : Res.Sound (execSvnCommit c s) := by
  unfold execSvnCommit
  try dsimp only
  repeat' first
  | with_reducible exact hs
  | with_reducible refine Res.next_sound ?_
  | with_reducible apply svnCommit_sound

theorem certInstall_sound (c : Cmd) (s : State) (hs : s.Sound) : (certInstall c s).Sound := by
  unfold certInstall
  try dsimp only
  repeat' first
  | with_reducible assumption
  | with_reducible intro hc
  | with_reducible apply State.command_sound
  | with_reducible apply payloadRun_sound
  | with_reducible apply cmdDone_sound
  | with_reducible apply State.modSec_sound
  | (rw [id_eq])

theorem execCertInstall_sound (c : Cmd) (s : State) (hs : s.Sound) : Res.Sound (execCertInstall c s) := by
  unfold execCertInstall
  try dsimp only
  repeat' first
  | with_reducible exact hs
  | with_reducible refine Res.next_sound ?_
  | with_reducible apply certInstall_sound

theorem reportCmd_sound (c : Cmd) (s : State) (hs : s.Sound) : (reportCmd c s).Sound := by
  unfold reportCmd
  try dsimp only
  repeat' first
  | with_reducible assumption
  | with_reducible intro hc
  | with_reducible apply State.freeCommand_sound
  | with_reducible apply State.emit_sound

theorem execReport_sound (c : Cmd) (s : State) (hs : s.Sound) : Res.Sound (execReport c s) := by
  unfold execReport
  try dsimp only
  repeat' first
  | with_reducible exact hs
  | with_reducible refine Res.next_sound ?_
  | with_reducible apply reportCmd_sound

theorem State.ideKem_sound (s : State) (ct : List Byte) (nonce : Dig256) (hs : s.Sound) : (State.ideKem s ct nonce).2.Sound := by
  unfold State.ideKem
  try dsimp only
  repeat' first
  | with_reducible assumption
  | with_reducible intro hc
  | with_reducible apply State.modSec_sound
  | with_reducible apply State.modHost_sound
  | (intros; rfl)

theorem State.ideKem_sound_eq {s : State} {ct : List Byte} {nonce : Dig256} {a0} {t : State} (hq : State.ideKem s ct nonce = (a0, t)) (hs : s.Sound) : t.Sound := by
  have := State.ideKem_sound s ct nonce hs; rw [hq] at this; exact this

theorem State.doeAnswer_sound (s : State) (q : DoeReq) (hs : s.Sound) : (State.doeAnswer s q).2.Sound := by
  cases q <;> first | exact hs | exact State.ideKem_sound _ _ _ hs

theorem State.doeRequest_sound (s : State) (o : DoeObj) (hs : s.Sound) : (State.doeRequest s o).Sound := by
  unfold State.doeRequest
  split
  · exact hs
  · apply ite_sound
    · intro _; exact State.emit_sound _ _ (State.doeAnswer_sound _ _ hs)
    · intro _; split <;> exact State.modSec_sound _ _ hs fun _ hx => hx

theorem execGetReport_sound (o : DoeObj) (s : State) (hs : s.Sound) : Res.Sound (execGetReport o s) := by
  unfold execGetReport
  try dsimp only
  repeat' first
  | with_reducible assumption
  | with_reducible intro hc
  | with_reducible refine Res.next_sound ?_
  | with_reducible apply State.doeRequest_sound
  | exact trivial

theorem execGetCerts_sound (o : DoeObj) (s : State) (hs : s.Sound) : Res.Sound (execGetCerts o s) := by
  unfold execGetCerts
  try dsimp only
  repeat' first
  | with_reducible assumption
  | with_reducible intro hc
  | with_reducible refine Res.next_sound ?_
  | with_reducible apply State.doeRequest_sound
  | exact trivial

theorem execIdeKem_sound (o : DoeObj) (s : State) (hs : s.Sound) : Res.Sound (execIdeKem o s) := by
  unfold execIdeKem
  try dsimp only
  repeat' first
  | with_reducible assumption
  | with_reducible intro hc
  | with_reducible refine Res.next_sound ?_
  | with_reducible apply State.doeRequest_sound
  | exact trivial

end Sys2Proof.Machine
end

