-- ==== Sys2Proof/Laws/SoundOperands.lean ====
section
/-! SUPPORT. What the operations and meanings of Machine/Operands keep of a sound state. -/

namespace Sys2Proof.Machine

theorem putBits_sound (m : Mem) (base off n v : Nat) (hs : m.wf) : (putBits m base off n v).wf := by
  unfold putBits
  try dsimp only
  repeat' first
  | with_reducible exact hs

  | with_reducible apply memWrite_wf

theorem accSet_sound (m : Mem) (row col : Nat) (w : W32) (hs : m.wf) : (accSet m row col w).wf := by
  unfold accSet
  try dsimp only
  repeat' first
  | with_reducible exact hs

  | with_reducible apply memWrite_wf

theorem acc64Set_sound (m : Mem) (row col : Nat) (w : W64) (hs : m.wf) : (acc64Set m row col w).wf := by
  unfold acc64Set
  try dsimp only
  repeat' first
  | with_reducible exact hs

  | with_reducible apply memWrite_wf

theorem Engine.heal_sound (e : Engine) (store : Fin 4) (a : Nat) (n : Nat) (hs : e.Sound) : (Engine.heal e store a n).Sound := by
  unfold Engine.heal
  try dsimp only
  repeat' first
  | (with_reducible refine Engine.Sound.mk ?_ ?_ ?_ ?_ ?_ <;> dsimp only)
  | (have hq := ‹Engine.Sound _›; with_reducible exact hq.store)
  | (have hq := ‹Engine.Sound _›; with_reducible exact hq.acc)
  | (have hq := ‹Engine.Sound _›; with_reducible exact hq.chk)
  | (have hq := ‹Engine.Sound _›; with_reducible exact hq.vr)
  | (have hq := ‹Engine.Sound _›; with_reducible exact hq.queue)

theorem Engine.putStore_sound (e : Engine) (a : Nat) (bs : List Byte) (hs : e.Sound) : (Engine.putStore e a bs).Sound := by
  unfold Engine.putStore
  try dsimp only
  repeat' first
  | with_reducible assumption
  | with_reducible intro hc
  | with_reducible apply memWrite_sound
  | with_reducible apply Engine.heal_sound
  | with_reducible apply foldl_mem_wf
  | (with_reducible refine Engine.Sound.mk ?_ ?_ ?_ ?_ ?_ <;> dsimp only)
  | (have hq := ‹Engine.Sound _›; with_reducible exact hq.store)
  | (have hq := ‹Engine.Sound _›; with_reducible exact hq.acc)
  | (have hq := ‹Engine.Sound _›; with_reducible exact hq.chk)
  | (have hq := ‹Engine.Sound _›; with_reducible exact hq.vr)
  | (have hq := ‹Engine.Sound _›; with_reducible exact hq.queue)

theorem State.putStore_sound (s : State) (e : EngineId) (a : Nat) (bs : List Byte) (hs : s.Sound) : (State.putStore s e a bs).Sound := by
  unfold State.putStore
  try dsimp only
  repeat' first
  | with_reducible assumption
  | with_reducible intro hc
  | with_reducible apply State.modEng_sound
  | with_reducible apply Engine.putStore_sound

end Sys2Proof.Machine
end

