-- ==== Sys2Proof/Laws/SoundArrays.lean ====
section
/-! SUPPORT. What the operations and meanings of Machine/Arrays keep of a sound state. -/

namespace Sys2Proof.Machine

theorem Plan.store_sound (p : Plan) (t : TileRes) (acc : Mem) (hs : acc.wf) : (Plan.store p t acc).wf := by
  unfold Plan.store
  try dsimp only
  repeat' first
  | with_reducible assumption
  | with_reducible intro hc
  | with_reducible apply accSet_sound
  | with_reducible apply acc64Set_sound
  | with_reducible apply foldl_mem_wf
  | split

theorem Plan.storeChk_sound (p : Plan) (t : TileRes) (chk : Mem) (hs : chk.wf) : (Plan.storeChk p t chk).wf := by
  unfold Plan.storeChk
  try dsimp only
  repeat' first
  | with_reducible assumption
  | with_reducible intro hc

  | with_reducible apply memWrite_wf
  | with_reducible apply foldl_mem_wf
  | split

theorem flipAcc_sound (acc : Mem) (accRow : Nat) (fs : List TileFault) (hs : acc.wf) : (flipAcc acc accRow fs).wf := by
  unfold flipAcc
  try dsimp only
  repeat' first
  | with_reducible assumption
  | with_reducible intro hc
  | with_reducible apply accSet_sound
  | with_reducible apply foldl_mem_wf

theorem State.excEvents_sound (s : State) (e : EngineId) (x : Exc) (r : Rec4) (mb : W16) (hs : s.Sound) : (State.excEvents s e x r mb).Sound := by
  unfold State.excEvents
  try dsimp only
  repeat' first
  | with_reducible exact hs
  | with_reducible intro hc
  | with_reducible apply ite_sound
  | with_reducible apply State.raise_sound

theorem State.sramCe_sound (s : State) (e : EngineId) (x : SramRead) (hs : s.Sound) : (State.sramCe s e x).Sound := by
  unfold State.sramCe
  try dsimp only
  repeat' first
  | with_reducible exact hs
  | with_reducible apply State.modEngInt_sound

theorem State.homeCount_sound (s : State) (e : EngineId) (first : Bool) (inv ovf nan : Nat) (mb : W16) (r : Rec4) (hs : s.Sound) : (State.homeCount s e first inv ovf nan mb r).Sound := by
  unfold State.homeCount
  try dsimp only
  repeat' first
  | with_reducible assumption
  | with_reducible intro hc
  | with_reducible apply State.modArr_sound
  | with_reducible apply State.excEvents_sound

theorem State.sramUe_sound (s : State) (e : EngineId) (ws : List (Fin 4 × Nat)) (mb : W16) (ch : Nat) (hs : s.Sound) : (State.sramUe s e ws mb ch).Sound := by
  unfold State.sramUe
  try dsimp only
  repeat' first
  | with_reducible assumption
  | with_reducible intro hc
  | with_reducible apply State.modEng_sound
  | with_reducible apply State.modEngInt_sound
  | with_reducible apply State.setErr_sound
  | with_reducible apply State.post_sound
  | (with_reducible refine Engine.Sound.mk ?_ ?_ ?_ ?_ ?_ <;> dsimp only)
  | (have hq := ‹Engine.Sound _›; with_reducible exact hq.store)
  | (have hq := ‹Engine.Sound _›; with_reducible exact hq.acc)
  | (have hq := ‹Engine.Sound _›; with_reducible exact hq.chk)
  | (have hq := ‹Engine.Sound _›; with_reducible exact hq.vr)
  | (have hq := ‹Engine.Sound _›; with_reducible exact hq.queue)
  | split

theorem State.homeBand_sound (s : State) (e : EngineId) (h : HomeRec) (band : Nat) (new : List W32) (slot : Option Nat) (mb : W16) (r : Rec4) (hs : s.Sound) : (State.homeBand s e h band new slot mb r).Sound := by
  unfold State.homeBand
  try dsimp only
  repeat' first
  | with_reducible assumption
  | with_reducible intro hc
  | with_reducible apply State.modEng_sound
  | with_reducible apply State.modArr_sound
  | with_reducible apply memWrite_sound
  | with_reducible apply State.mark_sound
  | with_reducible apply Engine.heal_sound
  | with_reducible apply State.homeCount_sound
  | with_reducible apply State.sramUe_sound
  | with_reducible apply ite_sound
  | with_reducible apply ite_eng_sound
  | (with_reducible refine Engine.Sound.mk ?_ ?_ ?_ ?_ ?_ <;> dsimp only)
  | exact Nat.zero_le _
  | exact rfl
  | (have hq := ‹Engine.Sound _›; with_reducible exact hq.store)
  | (have hq := ‹Engine.Sound _›; with_reducible exact hq.acc)
  | (have hq := ‹Engine.Sound _›; with_reducible exact hq.chk)
  | (have hq := ‹Engine.Sound _›; with_reducible exact hq.vr)
  | (have hq := ‹Engine.Sound _›; with_reducible exact hq.queue)
  | with_reducible apply Engine.Sound.store
  | with_reducible apply Engine.Sound.acc
  | with_reducible apply Engine.Sound.chk
  | with_reducible apply Engine.Sound.vr
  | with_reducible apply Engine.Sound.queue
  | with_reducible apply memWrite_wf
  | with_reducible refine State.Sound.eng ?_ _ _
  | with_reducible refine snd_sound_of_eq (by assumption) ?_
  | with_reducible refine fst_sound_of_eq (by assumption) ?_
  | dsimp only
  | split

theorem State.homeAdd_sound (s : State) (e : EngineId) (h : HomeRec) (k : TileKey) (p : Plan) (mb : W16) (r : Rec4) (hs : s.Sound) : (State.homeAdd s e h k p mb r).Sound := by
  unfold State.homeAdd
  try dsimp only
  repeat' first
  | with_reducible assumption
  | with_reducible intro hc
  | with_reducible apply State.homeBand_sound
  | with_reducible apply foldl_sound

theorem execArrayIdle_sound (e : EngineId) (arr : ArrId) (s : State) (hs : s.Sound) : Res.Sound (execArrayIdle e arr s) := by
  unfold execArrayIdle
  try dsimp only
  repeat' first
  | with_reducible assumption
  | with_reducible intro hc
  | with_reducible refine Res.next_sound ?_
  | with_reducible apply State.modArr_sound
  | with_reducible apply EngArr.modA_sound

theorem State.rowEnters_sound (s : State) (e : EngineId) (arr : ArrId) (hs : s.Sound) : (State.rowEnters s e arr).Sound := by
  unfold State.rowEnters
  try dsimp only
  repeat' first
  | with_reducible assumption
  | with_reducible intro hc
  | with_reducible apply State.modArr_sound
  | with_reducible apply EngArr.ramp_sound
  | with_reducible apply ite_sound
  | dsimp only
  | split

theorem State.startRow_sound (s : State) (e : EngineId) (arr : ArrId) (hs : s.Sound) : (State.startRow s e arr).Sound := by
  unfold State.startRow
  try dsimp only
  repeat' first
  | with_reducible assumption
  | with_reducible intro hc
  | with_reducible apply State.modArr_sound
  | with_reducible apply EngArr.modA_sound
  | with_reducible apply State.rowEnters_sound
  | with_reducible apply ite_sound
  | dsimp only
  | split

theorem State.modPass_sound (s : State) (e : EngineId) (f : Pass → Pass) (hs : s.Sound) : (State.modPass s e f).Sound := by
  unfold State.modPass
  try dsimp only
  repeat' first
  | with_reducible exact hs
  | with_reducible apply State.modSeq_sound

theorem State.swapOn_sound (s : State) (e : EngineId) (arr : ArrId) (hs : s.Sound) : (State.swapOn s e arr).Sound := by
  unfold State.swapOn
  try dsimp only
  repeat' first
  | with_reducible assumption
  | with_reducible intro hc
  | with_reducible apply State.modArr_sound
  | with_reducible apply EngArr.modA_sound
  | with_reducible apply State.rowEnters_sound
  | with_reducible apply ite_sound
  | with_reducible refine snd_sound_of_eq (by assumption) ?_
  | with_reducible refine fst_sound_of_eq (by assumption) ?_
  | dsimp only
  | split

theorem State.finishBlocks_sound (s : State) (e : EngineId) (arr : ArrId) (hs : s.Sound) : (State.finishBlocks s e arr).Sound := by
  unfold State.finishBlocks
  try dsimp only
  repeat' first
  | with_reducible assumption
  | with_reducible intro hc
  | with_reducible apply State.modArr_sound
  | with_reducible apply EngArr.modA_sound
  | with_reducible apply State.rowEnters_sound
  | with_reducible apply foldl_sound
  | with_reducible apply foldl_fst_sound
  | with_reducible apply foldl_snd_sound
  | with_reducible refine snd_sound_of_eq (by assumption) ?_
  | with_reducible refine fst_sound_of_eq (by assumption) ?_
  | dsimp only
  | split

theorem execShadowSwap_sound (e : EngineId) (arr : ArrId) (shadowWait : Nat) (s : State) (hs : s.Sound) : Res.Sound (execShadowSwap e arr shadowWait s) := by
  unfold execShadowSwap
  try dsimp only
  repeat' first
  | with_reducible assumption
  | with_reducible intro hc
  | with_reducible refine Res.next_sound ?_
  | with_reducible apply State.modArr_sound
  | with_reducible apply State.swapOn_sound

theorem State.startTile_sound (s : State) (e : EngineId) (arr : ArrId) (hs : s.Sound) : (State.startTile s e arr).Sound := by
  unfold State.startTile
  try dsimp only
  repeat' first
  | with_reducible assumption
  | with_reducible intro hc
  | with_reducible apply State.modArr_sound
  | with_reducible apply EngArr.modA_sound
  | with_reducible refine snd_sound_of_eq (by assumption) ?_
  | with_reducible refine fst_sound_of_eq (by assumption) ?_
  | dsimp only
  | split

theorem State.startTiles_sound (s : State) (e : EngineId) (hs : s.Sound) : (State.startTiles s e).Sound := by
  unfold State.startTiles
  try dsimp only
  repeat' first
  | with_reducible assumption
  | with_reducible intro hc
  | with_reducible apply State.modArr_sound
  | with_reducible apply State.startRow_sound
  | with_reducible apply State.startTile_sound
  | with_reducible apply ite_sound
  | dsimp only
  | split

theorem State.endTile_sound (s : State) (e : EngineId) (arr : ArrId) (k : TileKey) (rest : List TileKey) (hs : s.Sound) : (State.endTile s e arr k rest).Sound := by
  unfold State.endTile
  try dsimp only
  repeat' first
  | with_reducible assumption
  | with_reducible intro hc
  | with_reducible apply State.modArr_sound
  | with_reducible apply EngArr.modA_sound
  | with_reducible apply State.modPass_sound

theorem State.fillSquares_sound (s : State) (e : EngineId) (ps : Pass) (d : LayerDesc) (k : TileKey) (hs : s.Sound) : (State.fillSquares s e ps d k).Sound := by
  unfold State.fillSquares
  try dsimp only
  repeat' first
  | with_reducible assumption
  | with_reducible intro hc
  | with_reducible apply State.modArr_sound
  | with_reducible apply ite_sound

theorem Plan.cleared_sound (p : Plan) (acc : Mem) (hs : acc.wf) : (Plan.cleared p acc).wf := by
  unfold Plan.cleared
  try dsimp only
  repeat' first
  | with_reducible exact hs
  | with_reducible apply memClear_wf
  | split

theorem State.intoQueue_sound (s : State) (e : EngineId) (c : ClosedTile) (hs : s.Sound) (hq : s.eng[e.val].arr.queue.length < 32) : (State.intoQueue s e c).Sound := by
  unfold State.intoQueue
  apply State.excEvents_sound
  have h1 : (s.modArr e fun y => { y with queue := y.queue ++ [c] }).Sound := by
    refine ⟨vset_all s.eng e.val e.isLt _ Engine.Sound hs.eng ?_, hs.vaults, hs.fars, hs.mbox, hs.book, hs.aperture, hs.rings⟩
    have hx := hs.eng e.val e.isLt
    refine ⟨hx.store, hx.acc, hx.chk, hx.vr, ?_⟩
    show (s.eng[e.val].arr.queue ++ [c]).length ≤ 32
    rw [List.length_append]
    simp only [List.length_singleton]; omega
  apply State.modArr_sound _ _ _ h1
  intro x hx; exact EngArr.modA_sound x _ _ hx

theorem State.countExc_sound (s : State) (e : EngineId) (x : TileExc) (hs : s.Sound) : (State.countExc s e x).Sound := by
  unfold State.countExc
  try dsimp only
  repeat' first
  | with_reducible assumption
  | with_reducible intro hc
  | with_reducible apply State.modArr_sound

theorem State.enqueue_sound (s : State) (e : EngineId) (c : ClosedTile) (x : TileExc) (hs : s.Sound) : (State.enqueue s e c x).Sound := by
  unfold State.enqueue
  have h1 := State.countExc_sound s e x hs
  apply ite_sound
  · intro _; apply State.modArr_sound _ _ _ h1; intro x hx; exact hx
  · intro hq; exact State.intoQueue_sound _ e c h1 (by omega)

theorem State.tileFail_sound (s : State) (e : EngineId) (r : Rec4) (mb : W16) (hs : s.Sound) : (State.tileFail s e r mb).Sound := by
  unfold State.tileFail
  try dsimp only
  repeat' first
  | with_reducible exact hs
  | with_reducible apply State.faultLog_sound
  | with_reducible apply State.post_sound
  | with_reducible apply State.setErr_sound

theorem State.attempt_wf (s : State) (e : EngineId) (k : TileKey) (p : Plan) (met : List StatBlock) (fs : List TileFault) (hs : s.Sound) :
    (s.attempt e k p met fs).acc.wf ∧ (s.attempt e k p met fs).chk.wf := by
  have he := hs.eng e.val e.isLt
  unfold State.attempt
  dsimp only
  split
  · exact ⟨flipAcc_sound _ _ _ (Plan.store_sound _ _ _ (Plan.cleared_sound _ _ he.acc)), he.chk⟩
  · exact ⟨flipAcc_sound _ _ _ (Plan.store_sound _ _ _ (Plan.cleared_sound _ _ he.acc)), Plan.storeChk_sound _ _ _ he.chk⟩

theorem State.attempt_acc (s : State) (e : EngineId) (k : TileKey) (p : Plan) (met : List StatBlock) (fs : List TileFault) (hs : s.Sound) :
    (s.attempt e k p met fs).acc.wf := (State.attempt_wf s e k p met fs hs).1

theorem State.attempt_chk (s : State) (e : EngineId) (k : TileKey) (p : Plan) (met : List StatBlock) (fs : List TileFault) (hs : s.Sound) :
    (s.attempt e k p met fs).chk.wf := (State.attempt_wf s e k p met fs hs).2

theorem State.keepAttempt_sound (s : State) (e : EngineId) (k : TileKey) (p : Plan) (a : Attempt) (hs : s.Sound) (h1 : a.acc.wf) (h2 : a.chk.wf) : (State.keepAttempt s e k p a).Sound := by
  unfold State.keepAttempt
  apply State.modArr_sound
  · apply State.modEng_sound
    · exact State.modEng_sound _ _ _ hs fun x hx => ⟨hx.store, h1, h2, hx.vr, hx.queue⟩
    · intro x hx; exact Engine.heal_sound _ _ _ _ hx
  · intro x hx; exact EngArr.modA_sound _ _ _ hx

theorem State.tilePass_sound (s : State) (e : EngineId) (ps : Pass) (d : LayerDesc) (k : TileKey) (p : Plan) (a : Attempt) (n : Nat) (hs : s.Sound) (h1 : a.acc.wf) (h2 : a.chk.wf) : (State.tilePass s e ps d k p a n).Sound := by
  unfold State.tilePass
  try dsimp only
  repeat' first
  | with_reducible assumption
  | with_reducible apply State.keepAttempt_sound
  | with_reducible apply State.modSeq_sound
  | with_reducible apply State.enqueue_sound
  | with_reducible apply State.countExc_sound
  | with_reducible apply State.excEvents_sound
  | with_reducible apply State.homeAdd_sound
  | split

theorem State.tileReads_sound (s : State) (e : EngineId) (p : Plan) (x : SramRead) (hs : s.Sound) : (State.tileReads s e p x).2.Sound := by
  unfold State.tileReads
  try dsimp only
  repeat' first
  | with_reducible assumption
  | with_reducible intro hc
  | with_reducible apply State.sramCe_sound
  | with_reducible apply ite_sound
  | with_reducible apply ite_snd_sound
  | with_reducible apply ite_fst_sound
  | dsimp only
  | split

theorem State.tileReads_sound_eq {s : State} {e : EngineId} {p : Plan} {x : SramRead} {a0} {t : State} (hq : State.tileReads s e p x = (a0, t)) (hs : s.Sound) : t.Sound := by
  have := State.tileReads_sound s e p x hs; rw [hq] at this; exact this

theorem State.freeSlot_sound (s : State) (e : EngineId) (p : Plan) (hs : s.Sound) : (State.freeSlot s e p).Sound := by
  unfold State.freeSlot
  try dsimp only
  repeat' first
  | with_reducible exact hs
  | with_reducible intro hc
  | with_reducible apply State.draw_sound
  | with_reducible apply State.modEng_sound
  | (with_reducible refine Engine.Sound.mk ?_ ?_ ?_ ?_ ?_ <;> dsimp only)
  | (have hq := ‹Engine.Sound _›; with_reducible exact hq.store)
  | (have hq := ‹Engine.Sound _›; with_reducible exact hq.acc)
  | (have hq := ‹Engine.Sound _›; with_reducible exact hq.chk)
  | (have hq := ‹Engine.Sound _›; with_reducible exact hq.vr)
  | (have hq := ‹Engine.Sound _›; with_reducible exact hq.queue)
  | with_reducible apply memWrite_wf

theorem State.tileUe_sound (s : State) (e : EngineId) (ps : Pass) (k : TileKey) (p : Plan) (n : Nat) (ws : List (Fin 4 × Nat)) (hs : s.Sound) : (State.tileUe s e ps k p n ws).Sound := by
  unfold State.tileUe
  try dsimp only
  repeat' first
  | with_reducible assumption
  | with_reducible intro hc
  | with_reducible apply State.mark_sound
  | with_reducible apply State.faultLog_sound
  | with_reducible apply State.sramUe_sound
  | with_reducible apply State.freeSlot_sound
  | with_reducible apply ite_sound

theorem State.retile_sound (s : State) (e : EngineId) (ps : Pass) (d : LayerDesc) (k : TileKey) (p : Plan) (fs : List TileFault) (retry : List SramRead) (hs : s.Sound) : (State.retile s e ps d k p fs retry).Sound := by
  unfold State.retile
  try dsimp only
  repeat' first
  | with_reducible assumption
  | with_reducible intro hc
  | with_reducible apply State.attempt_acc
  | with_reducible apply State.attempt_chk
  | with_reducible apply State.modEngInt_sound
  | with_reducible apply State.mark_sound
  | with_reducible apply State.strike_sound
  | with_reducible apply State.tileFail_sound
  | with_reducible apply State.keepAttempt_sound
  | with_reducible apply State.tilePass_sound
  | with_reducible apply State.tileReads_sound
  | with_reducible apply State.tileUe_sound
  | with_reducible apply ite_sound

theorem State.spoil_sound (s : State) (e : EngineId) (k : TileKey) (p : Plan) (hs : s.Sound) : (State.spoil s e k p).Sound := by
  unfold State.spoil
  try dsimp only
  repeat' first
  | with_reducible assumption
  | with_reducible apply State.modSeq_sound

theorem State.unspoil_sound (s : State) (e : EngineId) (k : TileKey) (p : Plan) (hs : s.Sound) : (State.unspoil s e k p).Sound := by
  unfold State.unspoil
  try dsimp only
  repeat' first
  | with_reducible assumption
  | with_reducible intro hc
  | with_reducible apply State.modSeq_sound
  | with_reducible apply State.freeSlot_sound
  | with_reducible apply ite_sound

theorem State.closeTile_sound (s : State) (e : EngineId) (ps : Pass) (d : LayerDesc) (k : TileKey) (arr : ArrId) (rest : List TileKey) (faults : List TileFault) (sram : SramRead) (retry : List SramRead) (hs : s.Sound) : (State.closeTile s e ps d k arr rest faults sram retry).Sound := by
  unfold State.closeTile
  try dsimp only
  repeat' first
  | with_reducible assumption
  | with_reducible intro hc
  | with_reducible apply State.attempt_acc
  | with_reducible apply State.attempt_chk
  | with_reducible apply State.mark_sound
  | with_reducible apply State.finishBlocks_sound
  | with_reducible apply State.endTile_sound
  | with_reducible apply State.fillSquares_sound
  | with_reducible apply State.tileFail_sound
  | with_reducible apply State.keepAttempt_sound
  | with_reducible apply State.tilePass_sound
  | with_reducible apply State.tileReads_sound
  | with_reducible apply State.freeSlot_sound
  | with_reducible apply State.tileUe_sound
  | with_reducible apply State.retile_sound
  | with_reducible apply State.spoil_sound
  | with_reducible apply State.unspoil_sound
  | with_reducible apply ite_sound

theorem tileClose_sound (e : EngineId) (faults : List TileFault) (sram : SramRead) (retry : List SramRead) (slotWait : Nat) (bufWait : Nat) (s : State) (hs : s.Sound) : (tileClose e faults sram retry slotWait bufWait s).Sound := by
  unfold tileClose
  try dsimp only
  repeat' first
  | with_reducible assumption
  | with_reducible intro hc
  | with_reducible apply State.modArr_sound
  | with_reducible apply State.startTiles_sound
  | with_reducible apply State.closeTile_sound
  | with_reducible apply ite_sound
  | with_reducible refine snd_sound_of_eq (by assumption) ?_
  | with_reducible refine fst_sound_of_eq (by assumption) ?_
  | dsimp only
  | split

theorem execTileClose_sound (e : EngineId) (faults : List TileFault) (sram : SramRead) (retry : List SramRead) (slotWait : Nat) (bufWait : Nat) (s : State) (hs : s.Sound) : Res.Sound (execTileClose e faults sram retry slotWait bufWait s) := by
  unfold execTileClose
  try dsimp only
  repeat' first
  | with_reducible assumption
  | with_reducible refine Res.next_sound ?_
  | with_reducible apply tileClose_sound

theorem State.accumFail_sound (s : State) (e : EngineId) (ctl : CtlId) (st : Status) (hs : s.Sound) : (State.accumFail s e ctl st).Sound := by
  unfold State.accumFail
  try dsimp only
  repeat' first
  | with_reducible assumption
  | with_reducible intro hc
  | with_reducible apply State.emit_sound
  | with_reducible apply State.settle_sound
  | with_reducible apply State.mark_sound

theorem State.accumulate_sound (s : State) (e : EngineId) (h : HomeRec) (b : HomeBand) (data : List Byte) (faults : List (Nat × CwFault)) (hs : s.Sound) : (State.accumulate s e h b data faults).Sound := by
  unfold State.accumulate
  try dsimp only
  repeat' first
  | with_reducible assumption
  | with_reducible intro hc
  | with_reducible apply State.emit_sound
  | with_reducible apply State.modArr_sound
  | with_reducible apply State.setErr_sound
  | with_reducible apply State.post_sound
  | with_reducible apply State.readVia_sound
  | with_reducible apply State.writePage_sound
  | with_reducible apply State.homeCount_sound
  | with_reducible apply State.accumFail_sound
  | with_reducible apply ite_sound

theorem execVaultAccumulate_sound (e : EngineId) (param : W16) (band : Nat) (damage : Option Bytes) (faults : List (Nat × CwFault)) (s : State) (hs : s.Sound) : Res.Sound (execVaultAccumulate e param band damage faults s) := by
  unfold execVaultAccumulate
  try dsimp only
  repeat' first
  | with_reducible assumption
  | with_reducible intro hc
  | with_reducible refine Res.next_sound ?_
  | with_reducible apply State.modArr_sound
  | with_reducible apply State.startTiles_sound
  | with_reducible apply State.accumulate_sound
  | with_reducible apply ite_sound
  | split

end Sys2Proof.Machine
end

