-- ==== Sys2Proof/Laws/SoundLink.lean ====
section
/-! SUPPORT. What the operations and meanings of Machine/Link keep of a sound state. -/

namespace Sys2Proof.Machine

theorem State.emitUnit_sound (s : State) (p : PortId) (seqNo : W16) (nak : Bool) (f : Frame) (hs : s.Sound) : (State.emitUnit s p seqNo nak f).Sound := by
  unfold State.emitUnit
  try dsimp only
  repeat' first
  | with_reducible assumption
  | with_reducible intro hc
  | with_reducible apply State.emit_sound
  | with_reducible apply State.modPort_sound
  | with_reducible apply ite_sound
  | dsimp only
  | split

theorem State.sendIdle_sound (s : State) (p : PortId) (nak : Bool) (hs : s.Sound) : (State.sendIdle s p nak).Sound := by
  unfold State.sendIdle
  try dsimp only
  repeat' first
  | with_reducible assumption
  | with_reducible apply State.emitUnit_sound

theorem State.idleSlot_sound (s : State) (p : PortId) (hs : s.Sound) : (State.idleSlot s p).Sound := by
  unfold State.idleSlot
  try dsimp only
  repeat' first
  | with_reducible assumption
  | with_reducible intro hc
  | with_reducible apply State.sendIdle_sound
  | with_reducible apply ite_sound

theorem State.pageSent_sound (s : State) (f : Frame) (hs : s.Sound) : (State.pageSent s f).Sound := by
  unfold State.pageSent
  try dsimp only
  repeat' first
  | with_reducible assumption
  | with_reducible intro hc
  | with_reducible apply State.modLed_sound
  | with_reducible refine State.Sound.mbox ?_
  | with_reducible refine State.Sound.book ?_
  | with_reducible refine State.Sound.eng ?_ _ _
  | with_reducible refine State.Sound.vaults ?_ _ _
  | with_reducible refine State.Sound.fars ?_ _ _
  | with_reducible refine State.Sound.aperture ?_ _ _
  | with_reducible refine State.Sound.rings ?_ _ _
  | (with_reducible refine State.Sound.mk ?_ ?_ ?_ ?_ ?_ ?_ ?_ <;> dsimp only)
  | split

theorem State.leaves_sound (s : State) (f : Frame) (hs : s.Sound) : (State.leaves s f).Sound := by
  unfold State.leaves
  try dsimp only
  repeat' first
  | with_reducible assumption
  | with_reducible intro hc
  | with_reducible apply State.modPort_sound
  | with_reducible apply State.idleSlot_sound
  | with_reducible refine State.Sound.mbox ?_
  | with_reducible refine State.Sound.book ?_
  | with_reducible refine State.Sound.eng ?_ _ _
  | with_reducible refine State.Sound.vaults ?_ _ _
  | with_reducible refine State.Sound.fars ?_ _ _
  | with_reducible refine State.Sound.aperture ?_ _ _
  | with_reducible refine State.Sound.rings ?_ _ _
  | (with_reducible refine State.Sound.mk ?_ ?_ ?_ ?_ ?_ ?_ ?_ <;> dsimp only)
  | split

theorem State.drain_sound (s : State) (p : PortId) (nn : Nat) (hs : s.Sound) : (State.drain s p nn).Sound := by
  induction nn generalizing s p with
  | zero =>
      unfold State.drain
      try dsimp only
      repeat' first
      | with_reducible assumption
      | with_reducible intro hc
      | with_reducible apply IH
      | with_reducible apply State.modPort_sound
      | with_reducible apply State.emitUnit_sound
      | with_reducible apply State.idleSlot_sound
      | with_reducible apply State.pageSent_sound
      | with_reducible apply State.leaves_sound
      | with_reducible apply ite_sound
      | with_reducible refine snd_sound_of_eq (by assumption) ?_
      | with_reducible refine fst_sound_of_eq (by assumption) ?_
      | dsimp only
      | split
  | succ k IH =>
      unfold State.drain
      try dsimp only
      repeat' first
      | with_reducible assumption
      | with_reducible intro hc
      | with_reducible apply IH
      | with_reducible apply State.modPort_sound
      | with_reducible apply State.emitUnit_sound
      | with_reducible apply State.idleSlot_sound
      | with_reducible apply State.pageSent_sound
      | with_reducible apply State.leaves_sound
      | with_reducible apply ite_sound
      | with_reducible refine snd_sound_of_eq (by assumption) ?_
      | with_reducible refine fst_sound_of_eq (by assumption) ?_
      | dsimp only
      | split

theorem State.drainPort_sound (s : State) (p : PortId) (hs : s.Sound) : (State.drainPort s p).Sound := by
  unfold State.drainPort
  try dsimp only
  repeat' first
  | with_reducible assumption
  | with_reducible intro hc
  | with_reducible apply State.drain_sound

theorem State.pushPort_sound (s : State) (p : PortId) (fs : List Frame) (hs : s.Sound) : (State.pushPort s p fs).Sound := by
  unfold State.pushPort
  try dsimp only
  repeat' first
  | with_reducible assumption
  | with_reducible intro hc
  | with_reducible apply State.modPort_sound
  | with_reducible apply State.drainPort_sound

theorem State.sendOn_sound (s : State) (i : Nat) (fs : List Frame) (hs : s.Sound) : (State.sendOn s i fs).Sound := by
  unfold State.sendOn
  try dsimp only
  repeat' first
  | with_reducible assumption
  | with_reducible intro hc
  | with_reducible apply State.modPeer_sound
  | with_reducible apply State.pushPort_sound
  | with_reducible refine snd_sound_of_eq (by assumption) ?_
  | with_reducible refine fst_sound_of_eq (by assumption) ?_
  | dsimp only
  | split

theorem State.sendFrames_sound (s : State) (i : Nat) (fs : List Frame) (hs : s.Sound) : (State.sendFrames s i fs).Sound := by
  unfold State.sendFrames
  try dsimp only
  repeat' first
  | with_reducible assumption
  | with_reducible intro hc
  | with_reducible apply State.sendOn_sound
  | with_reducible apply ite_sound
  | dsimp only
  | split

theorem State.sendCtrl_sound (s : State) (i : Nat) (typ vc : Nat) (payload : List Byte) (hs : s.Sound) : (State.sendCtrl s i typ vc payload).Sound := by
  unfold State.sendCtrl
  try dsimp only
  repeat' first
  | with_reducible exact hs
  | with_reducible apply State.sendFrames_sound
  | split

theorem State.sendCredit_sound (s : State) (i : Nat) (plane : Bool) (count msgBytes : Nat) (hs : s.Sound) : (State.sendCredit s i plane count msgBytes).Sound := by
  unfold State.sendCredit
  try dsimp only
  repeat' first
  | with_reducible exact hs
  | with_reducible apply State.sendCtrl_sound

theorem State.sendMsgCtrl_sound (s : State) (i : Nat) (resend : Bool) (plane : Bool) (seqNo : W32) (block : Nat) (hs : s.Sound) : (State.sendMsgCtrl s i resend plane seqNo block).Sound := by
  unfold State.sendMsgCtrl
  try dsimp only
  repeat' first
  | with_reducible assumption
  | with_reducible apply State.sendCtrl_sound

theorem State.sendRequest_sound (s : State) (i : Nat) (kind : Byte) (q : ReqFrame) (hs : s.Sound) : (State.sendRequest s i kind q).Sound := by
  unfold State.sendRequest
  try dsimp only
  repeat' first
  | with_reducible exact hs
  | with_reducible apply State.sendCtrl_sound

theorem State.sendNorm_sound (s : State) (i : Nat) (payload : List Byte) (hs : s.Sound) : (State.sendNorm s i payload).Sound := by
  unfold State.sendNorm
  try dsimp only
  repeat' first
  | with_reducible exact hs
  | with_reducible apply State.sendCtrl_sound

theorem State.dropUnadmitted_sound (s : State) (peer : Nat) (hs : s.Sound) : (State.dropUnadmitted s peer).Sound := by
  unfold State.dropUnadmitted
  try dsimp only
  repeat' first
  | with_reducible assumption
  | with_reducible apply State.modPort_sound
  | split

theorem State.blockFor_sound (s : State) (i : Nat) (typ : Nat) (vc : Fin 8) (low : Nat) (zero : Bool) (data : List Byte) (x : Sideband) (st : Status) (hs : s.Sound) : (State.blockFor s i typ vc low zero data x st).2.Sound := by
  unfold State.blockFor
  try dsimp only
  repeat' first
  | with_reducible assumption
  | with_reducible intro hc
  | with_reducible apply State.modPeer_sound
  | with_reducible apply ite_sound
  | with_reducible apply ite_snd_sound
  | with_reducible apply ite_fst_sound
  | with_reducible refine snd_sound_of_eq (by assumption) ?_
  | with_reducible refine fst_sound_of_eq (by assumption) ?_
  | dsimp only
  | split

theorem State.blockFor_sound_eq {s : State} {i : Nat} {typ : Nat} {vc : Fin 8} {low : Nat} {zero : Bool} {data : List Byte} {x : Sideband} {st : Status} {a0} {t : State} (hq : State.blockFor s i typ vc low zero data x st = (a0, t)) (hs : s.Sound) : t.Sound := by
  have := State.blockFor_sound s i typ vc low zero data x st hs; rw [hq] at this; exact this

theorem State.sendBlock_sound (s : State) (i : Nat) (typ : Nat) (vc : Fin 8) (low : Nat) (zero : Bool) (data : List Byte) (x : Sideband) (st : Status) (hs : s.Sound) : (State.sendBlock s i typ vc low zero data x st).Sound := by
  unfold State.sendBlock
  try dsimp only
  repeat' first
  | with_reducible assumption
  | with_reducible apply State.sendFrames_sound
  | with_reducible apply State.blockFor_sound

theorem State.openBlock_sound (s : State) (i : Nat) (typ : Nat) (vc : Fin 8) (low : Nat) (zero : Bool) (epoch : Bool) (data : List Byte) (x : Sideband) (tag : BitVec 128) (hs : s.Sound) : (State.openBlock s i typ vc low zero epoch data x tag).2.Sound := by
  unfold State.openBlock
  try dsimp only
  repeat' first
  | with_reducible assumption
  | with_reducible intro hc
  | with_reducible apply State.modPeer_sound
  | with_reducible apply State.dropUnadmitted_sound
  | with_reducible apply ite_sound
  | with_reducible apply ite_snd_sound
  | with_reducible apply ite_fst_sound
  | with_reducible refine snd_sound_of_eq (by assumption) ?_
  | with_reducible refine fst_sound_of_eq (by assumption) ?_
  | dsimp only
  | split

theorem State.openBlock_sound_eq {s : State} {i : Nat} {typ : Nat} {vc : Fin 8} {low : Nat} {zero : Bool} {epoch : Bool} {data : List Byte} {x : Sideband} {tag : BitVec 128} {a0} {t : State} (hq : State.openBlock s i typ vc low zero epoch data x tag = (a0, t)) (hs : s.Sound) : t.Sound := by
  have := State.openBlock_sound s i typ vc low zero epoch data x tag hs; rw [hq] at this; exact this

theorem State.takeOverFrames_sound (s : State) (p : PortId) (q : PortId) (ms : List Frame) (fs : List Frame) (hs : s.Sound) : (State.takeOverFrames s p q ms fs).Sound := by
  unfold State.takeOverFrames
  try dsimp only
  repeat' first
  | with_reducible assumption
  | with_reducible intro hc
  | with_reducible apply State.modPort_sound
  | with_reducible apply State.modPeer_sound
  | with_reducible apply State.drainPort_sound
  | with_reducible refine snd_sound_of_eq (by assumption) ?_
  | with_reducible refine fst_sound_of_eq (by assumption) ?_
  | dsimp only
  | split

theorem State.portDown_sound (s : State) (p : PortId) (hs : s.Sound) : (State.portDown s p).Sound := by
  unfold State.portDown
  try dsimp only
  repeat' first
  | with_reducible assumption
  | with_reducible intro hc
  | with_reducible apply State.modPort_sound
  | with_reducible apply State.takeOverFrames_sound
  | with_reducible apply filter_le
  | with_reducible apply map_le
  | with_reducible refine State.Sound.eng ?_
  | with_reducible refine State.Sound.vaults ?_
  | with_reducible refine State.Sound.fars ?_
  | with_reducible refine State.Sound.mbox ?_
  | with_reducible refine State.Sound.book ?_
  | with_reducible refine State.Sound.aperture ?_
  | with_reducible refine State.Sound.rings ?_
  | with_reducible refine State.Sound.eng ?_ _ _
  | with_reducible refine State.Sound.vaults ?_ _ _
  | with_reducible refine State.Sound.fars ?_ _ _
  | with_reducible refine State.Sound.aperture ?_ _ _
  | with_reducible refine State.Sound.rings ?_ _ _
  | (with_reducible refine State.Sound.mk ?_ ?_ ?_ ?_ ?_ ?_ ?_ <;> dsimp only)
  | with_reducible refine snd_sound_of_eq (by assumption) ?_
  | with_reducible refine fst_sound_of_eq (by assumption) ?_
  | dsimp only
  | split

theorem State.replayUnits_sound (s : State) (p : PortId) (hs : s.Sound) : (State.replayUnits s p).Sound := by
  unfold State.replayUnits
  try dsimp only
  repeat' first
  | with_reducible assumption
  | with_reducible intro hc
  | with_reducible apply State.modPort_sound
  | with_reducible apply State.emitUnit_sound
  | with_reducible apply State.portDown_sound
  | with_reducible apply foldl_sound
  | with_reducible apply foldl_fst_sound
  | with_reducible apply foldl_snd_sound
  | with_reducible apply ite_sound
  | dsimp only
  | split

theorem State.passFrames_sound (s : State) (p : PortId) (i : Nat) (fs : List Frame) (hs : s.Sound) : (State.passFrames s p i fs).Sound := by
  unfold State.passFrames
  try dsimp only
  repeat' first
  | with_reducible assumption
  | with_reducible intro hc
  | with_reducible apply State.modPort_sound
  | with_reducible apply State.leaves_sound
  | with_reducible apply State.sendOn_sound
  | with_reducible apply foldl_sound
  | with_reducible apply foldl_fst_sound
  | with_reducible apply foldl_snd_sound
  | with_reducible apply ite_sound
  | dsimp only
  | split

theorem State.buffer_sound (s : State) (p : PortId) (f : Frame) (hs : s.Sound) : (State.buffer s p f).Sound := by
  unfold State.buffer
  try dsimp only
  repeat' first
  | with_reducible assumption
  | with_reducible intro hc
  | with_reducible apply State.modPort_sound
  | with_reducible apply ite_sound
  | with_reducible refine State.Sound.mbox ?_
  | with_reducible refine State.Sound.book ?_
  | with_reducible refine State.Sound.eng ?_ _ _
  | with_reducible refine State.Sound.vaults ?_ _ _
  | with_reducible refine State.Sound.fars ?_ _ _
  | with_reducible refine State.Sound.aperture ?_ _ _
  | with_reducible refine State.Sound.rings ?_ _ _
  | (with_reducible refine State.Sound.mk ?_ ?_ ?_ ?_ ?_ ?_ ?_ <;> dsimp only)

theorem State.forwardFrame_sound (s : State) (p : PortId) (i : Nat) (f : Frame) (hs : s.Sound) : (State.forwardFrame s p i f).Sound := by
  unfold State.forwardFrame
  try dsimp only
  repeat' first
  | with_reducible assumption
  | with_reducible intro hc
  | with_reducible apply State.modPort_sound
  | with_reducible apply State.passFrames_sound
  | with_reducible apply foldl_sound
  | with_reducible apply foldl_fst_sound
  | with_reducible apply foldl_snd_sound
  | with_reducible apply ite_sound
  | with_reducible apply filter_le
  | dsimp only
  | split

theorem State.takeFrame_sound (s : State) (p : PortId) (f : Frame) (hs : s.Sound) : (State.takeFrame s p f).Sound := by
  unfold State.takeFrame
  try dsimp only
  repeat' first
  | with_reducible assumption
  | with_reducible intro hc
  | with_reducible apply State.modPort_sound
  | with_reducible apply State.forwardFrame_sound
  | with_reducible apply ite_sound
  | split

theorem State.takePrefix_sound (s : State) (p : PortId) (pfx : W64) (hs : s.Sound) : (State.takePrefix s p pfx).Sound := by
  unfold State.takePrefix
  try dsimp only
  repeat' first
  | with_reducible assumption
  | with_reducible intro hc
  | with_reducible apply State.modPort_sound
  | with_reducible apply State.drainPort_sound
  | with_reducible apply State.replayUnits_sound
  | with_reducible apply ite_sound
  | dsimp only
  | split

theorem linkUnit_sound (p : PortId) (pfx : W64) (f : Frame) (crcOk : Bool) (fecBad : Nat) (fecCorrected : Nat) (s : State) (hs : s.Sound) : (linkUnit p pfx f crcOk fecBad fecCorrected s).Sound := by
  unfold linkUnit
  try dsimp only
  repeat' first
  | with_reducible assumption
  | with_reducible intro hc
  | with_reducible apply State.modPort_sound
  | with_reducible apply State.sendIdle_sound
  | with_reducible apply State.idleSlot_sound
  | with_reducible apply State.buffer_sound
  | with_reducible apply State.takeFrame_sound
  | with_reducible apply State.takePrefix_sound
  | with_reducible apply ite_sound

theorem execLinkUnit_sound (p : PortId) (pfx : W64) (f : Frame) (crcOk : Bool) (fecBad : Nat) (fecCorrected : Nat) (s : State) (hs : s.Sound) : Res.Sound (execLinkUnit p pfx f crcOk fecBad fecCorrected s) := by
  unfold execLinkUnit
  try dsimp only
  repeat' first
  | with_reducible assumption
  | with_reducible refine Res.next_sound ?_
  | with_reducible apply linkUnit_sound

theorem execRetryTimeout_sound (p : PortId) (s : State) (hs : s.Sound) : Res.Sound (execRetryTimeout p s) := by
  unfold execRetryTimeout
  try dsimp only
  repeat' first
  | with_reducible exact hs
  | with_reducible intro hc
  | with_reducible apply ite_sound
  | with_reducible refine Res.next_sound ?_
  | with_reducible apply State.replayUnits_sound

theorem State.gatherFrames_sound (s : State) (p : PortId) (hs : s.Sound) : (State.gatherFrames s p).Sound := by
  unfold State.gatherFrames
  try dsimp only
  repeat' first
  | with_reducible assumption
  | with_reducible intro hc
  | with_reducible apply State.modPort_sound
  | with_reducible apply State.drainPort_sound
  | with_reducible apply foldl_sound
  | with_reducible apply foldl_fst_sound
  | with_reducible apply foldl_snd_sound
  | with_reducible apply filter_le

theorem execPortDown_sound (p : PortId) (s : State) (hs : s.Sound) : Res.Sound (execPortDown p s) := by
  unfold execPortDown
  try dsimp only
  repeat' first
  | with_reducible exact hs
  | with_reducible intro hc
  | with_reducible apply ite_sound
  | with_reducible refine Res.next_sound ?_
  | with_reducible apply State.portDown_sound

theorem State.presetCheck_sound (s : State) (p : PortId) (r : Readings) (hs : s.Sound) : (State.presetCheck s p r).Sound := by
  unfold State.presetCheck
  try dsimp only
  repeat' first
  | with_reducible exact hs
  | with_reducible apply State.envelopeEvent_sound
  | split

theorem portTraining_sound (p : PortId) (good : Bool) (far : BitVec 12) (rx : Readings) (s : State) (hs : s.Sound) : (portTraining p good far rx s).Sound := by
  unfold portTraining
  try dsimp only
  repeat' first
  | with_reducible assumption
  | with_reducible intro hc
  | with_reducible apply State.modPort_sound
  | with_reducible apply State.modGlb_sound
  | with_reducible apply State.portLost_sound
  | with_reducible apply State.gatherFrames_sound
  | with_reducible apply State.presetCheck_sound
  | with_reducible apply ite_sound
  | dsimp only
  | split

theorem execPortTrainingDone_sound (p : PortId) (good : Bool) (farModule : BitVec 12) (rx : Readings) (s : State) (hs : s.Sound) : Res.Sound (execPortTrainingDone p good farModule rx s) := by
  unfold execPortTrainingDone
  try dsimp only
  repeat' first
  | with_reducible exact hs
  | with_reducible refine Res.next_sound ?_
  | with_reducible apply portTraining_sound

end Sys2Proof.Machine
end

