-- ==== Sys2Proof/Laws/SoundVector.lean ====
section
/-! SUPPORT. What the operations and meanings of Machine/Vector keep of a sound state. -/

namespace Sys2Proof.Machine

theorem EngVec.setLane_sound (v : EngVec) (r : Nat) (ty : Fin 4) (lane code : Nat) (hs : v.vr.wf) : (EngVec.setLane v r ty lane code).vr.wf := by
  unfold EngVec.setLane
  try dsimp only
  repeat' first
  | with_reducible exact hs

  | with_reducible apply memWrite_wf

theorem EngVec.count_sound (v : EngVec) (c : ExcCnt) (hs : v.vr.wf) : (EngVec.count v c).vr.wf := by
  unfold EngVec.count
  try dsimp only
  repeat' first
  | with_reducible exact hs

theorem EngVec.tally_sound (v : EngVec) (c : ExcCnt) (hs : v.vr.wf) : (EngVec.tally v c).vr.wf := by
  unfold EngVec.tally
  try dsimp only
  repeat' first
  | with_reducible exact hs
  | with_reducible apply EngVec.count_sound

theorem putElem_sound (d : Denom) (m : Mem) (row i code : Nat) (hs : m.wf) : (putElem d m row i code).wf := by
  unfold putElem
  try dsimp only
  repeat' first
  | with_reducible exact hs
  | with_reducible apply putBits_sound

theorem putBlock_sound (d : Denom) (m : Mem) (row : Nat) (cols : Nat) (q : Nat) (b : Byte × List Nat) (hs : m.wf) : (putBlock d m row cols q b).wf := by
  unfold putBlock
  try dsimp only
  repeat' first
  | with_reducible assumption
  | with_reducible intro hc
  | with_reducible apply putBits_sound
  | with_reducible apply putElem_sound
  | with_reducible apply foldl_mem_wf
  | with_reducible apply memSet_wf
  | split

theorem RunCtx.storeBlocks_sound (c : RunCtx) (s : State) (t : TensorDesc) (site : Byte) (row : Nat) (seg : List (Nat × Num)) (m : Mem) (hs : s.Sound) (hm : m.wf) : (RunCtx.storeBlocks c s t site row seg m).1.wf := by
  unfold RunCtx.storeBlocks
  try dsimp only
  repeat' first
  | with_reducible assumption
  | with_reducible intro hc
  | with_reducible apply Engine.init_sound
  | with_reducible apply CtlSt.init_sound
  | with_reducible apply RingSt.init_sound
  | with_reducible apply memWrite_sound
  | with_reducible apply putBlock_sound
  | with_reducible apply foldl_sound
  | with_reducible apply foldl_fst_sound
  | with_reducible apply foldl_snd_sound
  | with_reducible apply foldl_mem_wf
  | with_reducible apply foldl_memf_wf
  | with_reducible apply ite_sound
  | with_reducible apply ite_snd_sound
  | with_reducible apply ite_fst_sound
  | with_reducible apply memWrite_wf
  | with_reducible apply filter_le
  | with_reducible refine snd_sound_of_eq (by assumption) ?_
  | with_reducible refine fst_sound_of_eq (by assumption) ?_
  | dsimp only
  | split

theorem RunCtx.storeBlocks_sound_eq {c : RunCtx} {s : State} {t : TensorDesc} {site : Byte} {row : Nat} {seg : List (Nat × Num)} {m : Mem} {a1} {tt : Mem} (hq : RunCtx.storeBlocks c s t site row seg m = (tt, a1)) (hs : s.Sound) (hm : m.wf) : tt.wf := by
  have := RunCtx.storeBlocks_sound c s t site row seg m hs hm; rw [hq] at this; exact this

theorem RunCtx.storeElem_sound (c : RunCtx) (s : State) (t : TensorDesc) (site : Byte) (rc : Nat × Nat) (code : Nat) (m : Mem) (hs : s.Sound) (hm : m.wf) : (RunCtx.storeElem c s t site rc code m).1.wf := by
  unfold RunCtx.storeElem
  try dsimp only
  repeat' first
  | with_reducible assumption
  | with_reducible intro hc
  | with_reducible apply Engine.init_sound
  | with_reducible apply CtlSt.init_sound
  | with_reducible apply RingSt.init_sound
  | with_reducible apply memWrite_sound
  | with_reducible apply putElem_sound
  | with_reducible apply ite_sound
  | with_reducible apply ite_snd_sound
  | with_reducible apply ite_fst_sound
  | with_reducible apply memWrite_wf
  | dsimp only
  | split

theorem RunCtx.storeElem_sound_eq {c : RunCtx} {s : State} {t : TensorDesc} {site : Byte} {rc : Nat × Nat} {code : Nat} {m : Mem} {a1} {tt : Mem} (hq : RunCtx.storeElem c s t site rc code m = (tt, a1)) (hs : s.Sound) (hm : m.wf) : tt.wf := by
  have := RunCtx.storeElem_sound c s t site rc code m hs hm; rw [hq] at this; exact this

theorem Engine.healBits_sound (en : Engine) (bits : List (Fin 4 × Nat × Nat)) (hs : en.Sound) : (Engine.healBits en bits).Sound := by
  unfold Engine.healBits
  try dsimp only
  repeat' first
  | with_reducible assumption
  | with_reducible intro hc
  | (with_reducible refine Engine.Sound.mk ?_ ?_ ?_ ?_ ?_ <;> dsimp only)
  | (have hq := ‹Engine.Sound _›; with_reducible exact hq.store)
  | (have hq := ‹Engine.Sound _›; with_reducible exact hq.acc)
  | (have hq := ‹Engine.Sound _›; with_reducible exact hq.chk)
  | (have hq := ‹Engine.Sound _›; with_reducible exact hq.vr)
  | (have hq := ‹Engine.Sound _›; with_reducible exact hq.queue)
  | with_reducible apply Engine.Sound.store
  | with_reducible apply Engine.Sound.acc
  | with_reducible apply Engine.Sound.chk
  | with_reducible apply Engine.Sound.vr
  | with_reducible apply Engine.Sound.queue
  | with_reducible refine State.Sound.eng ?_ _ _
  | with_reducible apply filter_le

theorem State.resultsOf_sound (s : State) (e : EngineId) (f : Engine → List Byte) (hs : s.Sound) : (State.resultsOf s e f).Sound := by
  unfold State.resultsOf
  try dsimp only
  repeat' first
  | with_reducible assumption
  | with_reducible intro hc
  | with_reducible apply State.modVec_sound
  | with_reducible apply ite_sound
  | dsimp only
  | split

theorem RunCtx.st_sound (c : RunCtx) (s : State) (reg : Nat) (t : TensorDesc) (site : Byte) (hs : s.Sound) : (RunCtx.st c s reg t site).Sound := by
  unfold RunCtx.st
  try dsimp only
  repeat' first
  | with_reducible assumption
  | with_reducible intro hc
  | with_reducible apply State.modEng_sound
  | with_reducible apply State.modVec_sound
  | with_reducible apply Engine.init_sound
  | with_reducible apply CtlSt.init_sound
  | with_reducible apply RingSt.init_sound
  | with_reducible apply accSet_sound
  | with_reducible apply acc64Set_sound
  | with_reducible apply Plan.store_sound
  | with_reducible apply EngVec.count_sound
  | with_reducible apply RunCtx.storeBlocks_sound
  | with_reducible apply RunCtx.storeElem_sound
  | with_reducible apply Engine.healBits_sound
  | with_reducible refine RunCtx.storeBlocks_sound_eq (by assumption) ?_
  | with_reducible refine RunCtx.storeElem_sound_eq (by assumption) ?_
  | with_reducible apply foldl_sound
  | with_reducible apply foldl_fst_sound
  | with_reducible apply foldl_snd_sound
  | with_reducible apply foldl_eng_sound
  | with_reducible apply foldl_mem_wf
  | with_reducible apply foldl_memf_wf
  | with_reducible apply foldl_vec_wf
  | with_reducible apply foldl_vecf_wf
  | with_reducible apply foldl_vecs_wf
  | with_reducible apply ite_sound
  | with_reducible apply ite_eng_sound
  | (with_reducible refine Engine.Sound.mk ?_ ?_ ?_ ?_ ?_ <;> dsimp only)
  | (have hq := ‹Engine.Sound _›; with_reducible exact hq.store)
  | (have hq := ‹Engine.Sound _›; with_reducible exact hq.acc)
  | (have hq := ‹Engine.Sound _›; with_reducible exact hq.chk)
  | (have hq := ‹Engine.Sound _›; with_reducible exact hq.vr)
  | (have hq := ‹Engine.Sound _›; with_reducible exact hq.queue)
  | with_reducible apply Engine.Sound.store
  | with_reducible apply Engine.Sound.acc
  | with_reducible apply Engine.Sound.chk
  | with_reducible apply Engine.Sound.vr
  | with_reducible apply Engine.Sound.queue
  | (rw [Vector.getElem_map])
  | with_reducible refine State.Sound.eng ?_ _ _
  | with_reducible apply filter_le
  | with_reducible refine snd_sound_of_eq (by assumption) ?_
  | with_reducible refine fst_sound_of_eq (by assumption) ?_
  | dsimp only
  | split

theorem RunCtx.ld_sound (c : RunCtx) (s : State) (reg : Nat) (t : TensorDesc) (idx : Option Nat) (hs : s.Sound) : (RunCtx.ld c s reg t idx).Sound := by
  unfold RunCtx.ld
  try dsimp only
  repeat' first
  | with_reducible assumption
  | with_reducible intro hc
  | exact (hs.eng _ _).vr
  | with_reducible apply State.modVec_sound
  | with_reducible apply Engine.init_sound
  | with_reducible apply CtlSt.init_sound
  | with_reducible apply RingSt.init_sound
  | with_reducible apply EngVec.setLane_sound
  | with_reducible apply EngVec.count_sound
  | with_reducible apply foldl_sound
  | with_reducible apply foldl_fst_sound
  | with_reducible apply foldl_snd_sound
  | with_reducible apply foldl_vec_wf
  | with_reducible apply foldl_vecf_wf
  | with_reducible apply foldl_vecs_wf
  | with_reducible apply ite_sound
  | with_reducible refine snd_sound_of_eq (by assumption) ?_
  | with_reducible refine fst_sound_of_eq (by assumption) ?_
  | dsimp only
  | split

theorem RunCtx.hadd_sound (c : RunCtx) (s : State) (reg : Nat) (idx : Nat) (t : TensorDesc) (hs : s.Sound) : (RunCtx.hadd c s reg idx t).Sound := by
  unfold RunCtx.hadd
  try dsimp only
  repeat' first
  | with_reducible assumption
  | with_reducible intro hc
  | with_reducible apply State.modEng_sound
  | with_reducible apply State.modArr_sound
  | with_reducible apply State.modVec_sound
  | with_reducible apply Engine.init_sound
  | with_reducible apply CtlSt.init_sound
  | with_reducible apply RingSt.init_sound
  | with_reducible apply memWrite_sound
  | with_reducible apply Engine.heal_sound
  | with_reducible apply State.homeCount_sound
  | with_reducible apply EngVec.count_sound
  | with_reducible apply foldl_sound
  | with_reducible apply foldl_fst_sound
  | with_reducible apply foldl_snd_sound
  | with_reducible apply foldl_eng_sound
  | with_reducible apply foldl_mem_wf
  | with_reducible apply foldl_memf_wf
  | with_reducible apply ite_sound
  | with_reducible apply ite_eng_sound
  | (with_reducible refine Engine.Sound.mk ?_ ?_ ?_ ?_ ?_ <;> dsimp only)
  | (have hq := ‹Engine.Sound _›; with_reducible exact hq.store)
  | (have hq := ‹Engine.Sound _›; with_reducible exact hq.acc)
  | (have hq := ‹Engine.Sound _›; with_reducible exact hq.chk)
  | (have hq := ‹Engine.Sound _›; with_reducible exact hq.vr)
  | (have hq := ‹Engine.Sound _›; with_reducible exact hq.queue)
  | with_reducible apply Engine.Sound.store
  | with_reducible apply Engine.Sound.acc
  | with_reducible apply Engine.Sound.chk
  | with_reducible apply Engine.Sound.vr
  | with_reducible apply Engine.Sound.queue
  | with_reducible apply memWrite_wf
  | (rw [Vector.getElem_map])
  | with_reducible refine State.Sound.eng ?_ _ _
  | with_reducible refine snd_sound_of_eq (by assumption) ?_
  | with_reducible refine fst_sound_of_eq (by assumption) ?_
  | dsimp only
  | split

theorem RunCtx.redWrite_sound (c : RunCtx) (s : State) (t : TensorDesc) (site : Byte) (rc : Nat × Nat) (v : Num) (hs : s.Sound) : (RunCtx.redWrite c s t site rc v).Sound := by
  unfold RunCtx.redWrite
  try dsimp only
  repeat' first
  | with_reducible assumption
  | with_reducible intro hc
  | with_reducible apply State.modEng_sound
  | with_reducible apply State.modVec_sound
  | with_reducible apply Plan.store_sound
  | with_reducible apply EngVec.count_sound
  | with_reducible apply putElem_sound
  | with_reducible apply RunCtx.storeBlocks_sound
  | with_reducible apply Engine.healBits_sound
  | with_reducible refine RunCtx.storeBlocks_sound_eq (by assumption) ?_
  | with_reducible apply ite_sound
  | with_reducible apply ite_eng_sound
  | (with_reducible refine Engine.Sound.mk ?_ ?_ ?_ ?_ ?_ <;> dsimp only)
  | (have hq := ‹Engine.Sound _›; with_reducible exact hq.store)
  | (have hq := ‹Engine.Sound _›; with_reducible exact hq.acc)
  | (have hq := ‹Engine.Sound _›; with_reducible exact hq.chk)
  | (have hq := ‹Engine.Sound _›; with_reducible exact hq.vr)
  | (have hq := ‹Engine.Sound _›; with_reducible exact hq.queue)
  | with_reducible apply Engine.Sound.store
  | with_reducible apply Engine.Sound.acc
  | with_reducible apply Engine.Sound.chk
  | with_reducible apply Engine.Sound.vr
  | with_reducible apply Engine.Sound.queue
  | with_reducible refine State.Sound.eng ?_ _ _
  | dsimp only
  | split

theorem RunCtx.reduce_sound (c : RunCtx) (s : State) (op : RedOp) (reg : Nat) (t : TensorDesc) (site : Byte) (hs : s.Sound) : (RunCtx.reduce c s op reg t site).Sound := by
  unfold RunCtx.reduce
  try dsimp only
  repeat' first
  | with_reducible assumption
  | with_reducible intro hc
  | with_reducible apply State.modVec_sound
  | with_reducible apply Engine.init_sound
  | with_reducible apply CtlSt.init_sound
  | with_reducible apply RingSt.init_sound
  | with_reducible apply EngVec.count_sound
  | with_reducible apply RunCtx.redWrite_sound
  | with_reducible refine RunCtx.redWrite_sound_eq (by assumption) ?_
  | with_reducible apply foldl_sound
  | with_reducible apply foldl_fst_sound
  | with_reducible apply foldl_snd_sound
  | with_reducible apply foldl_vec_wf
  | with_reducible apply foldl_vecf_wf
  | with_reducible apply foldl_vecs_wf
  | with_reducible apply ite_sound
  | (rw [Vector.getElem_map])
  | with_reducible apply filter_le
  | with_reducible refine snd_sound_of_eq (by assumption) ?_
  | with_reducible refine fst_sound_of_eq (by assumption) ?_
  | dsimp only
  | split

theorem RunCtx.regOp_sound (c : RunCtx) (s : State) (op : VecOp) (ty : Fin 4) (dst a b src3 : Nat) (imm : Option W32) (hs : s.Sound) : (RunCtx.regOp c s op ty dst a b src3 imm).Sound := by
  unfold RunCtx.regOp
  try dsimp only
  repeat' first
  | with_reducible assumption
  | with_reducible intro hc
  | with_reducible refine State.Sound.eng ?_ _ _
  | with_reducible apply EngVec.setLane_sound
  | with_reducible apply State.modVec_sound
  | with_reducible apply EngVec.count_sound
  | with_reducible apply foldl_vecf_wf
  | with_reducible apply Engine.Sound.vr
  | split

theorem State.runFail_sound (s : State) (e : EngineId) (r : Rec4) (mb : W16) (hs : s.Sound) : (State.runFail s e r mb).Sound := by
  unfold State.runFail
  try dsimp only
  repeat' first
  | with_reducible assumption
  | with_reducible apply State.setErr_sound
  | with_reducible apply State.post_sound
  | with_reducible apply State.faultLog_sound

theorem State.duplex_sound (s : State) (e : EngineId) (u : Unit5) (layer : Nat) (mb : W16) (m : Mismatch) (rec_ : Nat → Rec4) (hs : s.Sound) : (State.duplex s e u layer mb m rec_).2.Sound := by
  unfold State.duplex
  try dsimp only
  repeat' first
  | with_reducible assumption
  | with_reducible apply State.modEngInt_sound
  | with_reducible apply State.mark_sound
  | with_reducible apply State.strike_sound
  | with_reducible apply State.runFail_sound
  | split

theorem State.duplex_sound_eq {s : State} {e : EngineId} {u : Unit5} {layer : Nat} {mb : W16} {m : Mismatch} {rec_ : Nat → Rec4} {a0} {t : State} (hq : State.duplex s e u layer mb m rec_ = (a0, t)) (hs : s.Sound) : t.Sound := by
  have := State.duplex_sound s e u layer mb m rec_ hs; rw [hq] at this; exact this

theorem State.countDep_sound (s : State) (e : EngineId) (n : Nat) (hs : s.Sound) : (State.countDep s e n).Sound := by
  unfold State.countDep
  try dsimp only
  repeat' first
  | with_reducible assumption
  | with_reducible intro hc
  | with_reducible apply State.modVec_sound

theorem State.issue_sound (s : State) (e : EngineId) (u : Unit5) (mismatch : Mismatch) (wait : Nat) (f : RunCtx → State → State) (hs : s.Sound) (hf : ∀ x0 x1, x1.Sound → (f x0 x1).Sound) : (State.issue s e u mismatch wait f).Sound := by
  unfold State.issue
  try dsimp only
  repeat' first
  | with_reducible assumption
  | with_reducible intro hc
  | with_reducible apply hf
  | with_reducible apply State.modVec_sound
  | with_reducible apply State.excEvents_sound
  | with_reducible apply State.duplex_sound
  | with_reducible apply State.countDep_sound
  | with_reducible apply ite_sound

theorem State.regInstr_sound (s : State) (op : VecOp) (i : VecR) (hs : s.Sound) : (State.regInstr s op i).Sound := by
  unfold State.regInstr
  try dsimp only
  repeat' first
  | with_reducible assumption
  | with_reducible intro hc
  | with_reducible apply RunCtx.regOp_sound
  | with_reducible apply State.issue_sound

theorem State.runUe_sound (s : State) (c : RunCtx) (prog : Nat) (ws : List (Fin 4 × Nat)) (hs : s.Sound) : (State.runUe s c prog ws).Sound := by
  unfold State.runUe
  try dsimp only
  repeat' first
  | with_reducible assumption
  | with_reducible intro hc
  | with_reducible apply State.modVec_sound
  | with_reducible apply State.mark_sound
  | with_reducible apply State.faultLog_sound
  | with_reducible apply State.sramUe_sound

theorem RunCtx.homeReads_sound (c : RunCtx) (s : State) (ps : List (CtlId × Nat)) (hs : s.Sound) : (RunCtx.homeReads c s ps).2.Sound := by
  unfold RunCtx.homeReads
  try dsimp only
  repeat' first
  | with_reducible assumption
  | with_reducible intro hc
  | with_reducible apply State.pagesIn_sound
  | with_reducible refine State.pagesIn_sound_eq (by assumption) ?_

theorem RunCtx.homeReads_sound_eq {c : RunCtx} {s : State} {ps : List (CtlId × Nat)} {a0} {t : State} (hq : RunCtx.homeReads c s ps = (a0, t)) (hs : s.Sound) : t.Sound := by
  have := RunCtx.homeReads_sound c s ps hs; rw [hq] at this; exact this

theorem State.memInstr_sound (s : State) (u : Unit5) (op : Nat) (i : VecM) (f : RunCtx → State → TensorDesc → State) (hs : s.Sound) (hf : ∀ x0 x1 x2, x1.Sound → (f x0 x1 x2).Sound) : (State.memInstr s u op i f).Sound := by
  unfold State.memInstr
  try dsimp only
  repeat' first
  | with_reducible assumption
  | with_reducible intro hc
  | with_reducible apply hf
  | with_reducible apply State.sramCe_sound
  | with_reducible apply State.issue_sound
  | with_reducible apply State.runUe_sound
  | with_reducible apply RunCtx.homeReads_sound
  | with_reducible refine RunCtx.homeReads_sound_eq (by assumption) ?_
  | with_reducible apply ite_sound
  | with_reducible refine snd_sound_of_eq (by assumption) ?_
  | with_reducible refine fst_sound_of_eq (by assumption) ?_
  | dsimp only
  | split

theorem State.instr_sound (s : State) (c : RunCtx) (w : W64) (hs : s.Sound) : (State.instr s c w).Sound := by
  unfold State.instr
  try dsimp only
  repeat' first
  | with_reducible exact hs
  | with_reducible apply RunCtx.regOp_sound
  | with_reducible apply RunCtx.ld_sound
  | with_reducible apply RunCtx.st_sound
  | with_reducible apply RunCtx.hadd_sound
  | with_reducible apply RunCtx.reduce_sound
  | split

theorem State.beginRun_sound (s : State) (e : EngineId) (layer : Nat) (prog : Nat) (mb : W16) (tile : Option ClosedTile) (hs : s.Sound) : (State.beginRun s e layer prog mb tile).Sound := by
  unfold State.beginRun
  try dsimp only
  repeat' first
  | with_reducible assumption
  | with_reducible intro hc
  | with_reducible apply State.modVec_sound
  | with_reducible apply Engine.init_sound
  | with_reducible apply CtlSt.init_sound
  | with_reducible apply RingSt.init_sound

theorem State.issueIn_sound (s : State) (c : RunCtx) (prog : Nat) (env : RunEnv) (n : Nat) (w : W64) (hs : s.Sound) : (State.issueIn s c prog env n w).2.Sound := by
  unfold State.issueIn
  try dsimp only
  repeat' first
  | with_reducible assumption
  | with_reducible intro hc
  | with_reducible apply State.resultsOf_sound
  | with_reducible apply State.duplex_sound
  | with_reducible apply State.runUe_sound
  | with_reducible apply RunCtx.homeReads_sound
  | with_reducible apply State.instr_sound
  | with_reducible refine State.duplex_sound_eq (by assumption) ?_
  | with_reducible refine RunCtx.homeReads_sound_eq (by assumption) ?_
  | with_reducible apply ite_sound
  | with_reducible apply ite_snd_sound
  | with_reducible apply ite_fst_sound
  | with_reducible refine snd_sound_of_eq (by assumption) ?_
  | with_reducible refine fst_sound_of_eq (by assumption) ?_
  | dsimp only
  | split

theorem State.issueIn_sound_eq {s : State} {c : RunCtx} {prog : Nat} {env : RunEnv} {n : Nat} {w : W64} {a0} {t : State} (hq : State.issueIn s c prog env n w = (a0, t)) (hs : s.Sound) : t.Sound := by
  have := State.issueIn_sound s c prog env n w hs; rw [hq] at this; exact this

theorem State.runProgram_sound (s : State) (e : EngineId) (layer : Nat) (prog : Nat) (mb : W16) (tile : Option ClosedTile) (envs : RunEnvs) (hs : s.Sound) : (State.runProgram s e layer prog mb tile envs).2.Sound := by
  unfold State.runProgram
  try dsimp only
  repeat' first
  | with_reducible assumption
  | with_reducible intro hc
  | with_reducible apply State.modVec_sound
  | with_reducible apply State.modSeq_sound
  | with_reducible apply State.excEvents_sound
  | with_reducible apply State.sramCe_sound
  | with_reducible apply State.countDep_sound
  | with_reducible apply State.beginRun_sound
  | with_reducible apply State.issueIn_sound
  | with_reducible refine State.issueIn_sound_eq (by assumption) ?_
  | with_reducible apply foldl_sound
  | with_reducible apply foldl_fst_sound
  | with_reducible apply foldl_snd_sound
  | with_reducible apply foldl_vec_wf
  | with_reducible apply foldl_vecf_wf
  | with_reducible apply foldl_vecs_wf
  | with_reducible apply ite_sound
  | with_reducible apply ite_snd_sound
  | with_reducible apply ite_fst_sound
  | with_reducible refine snd_sound_of_eq (by assumption) ?_
  | with_reducible refine fst_sound_of_eq (by assumption) ?_
  | dsimp only
  | split

theorem State.runProgram_sound_eq {s : State} {e : EngineId} {layer : Nat} {prog : Nat} {mb : W16} {tile : Option ClosedTile} {envs : RunEnvs} {a0} {t : State} (hq : State.runProgram s e layer prog mb tile envs = (a0, t)) (hs : s.Sound) : t.Sound := by
  have := State.runProgram_sound s e layer prog mb tile envs hs; rw [hq] at this; exact this

theorem execVecNop_sound (i : VecR) (s : State) (hs : s.Sound) : Res.Sound (execVecNop i s) := by
  unfold execVecNop
  try dsimp only
  repeat' first
  | with_reducible exact hs
  | with_reducible refine Res.next_sound ?_
  | with_reducible apply State.regInstr_sound

theorem execVecAdd_sound (i : VecR) (s : State) (hs : s.Sound) : Res.Sound (execVecAdd i s) := by
  unfold execVecAdd
  try dsimp only
  repeat' first
  | with_reducible exact hs
  | with_reducible refine Res.next_sound ?_
  | with_reducible apply State.regInstr_sound

theorem execSub_sound (i : VecR) (s : State) (hs : s.Sound) : Res.Sound (execSub i s) := by
  unfold execSub
  try dsimp only
  repeat' first
  | with_reducible exact hs
  | with_reducible refine Res.next_sound ?_
  | with_reducible apply State.regInstr_sound

theorem execMul_sound (i : VecR) (s : State) (hs : s.Sound) : Res.Sound (execMul i s) := by
  unfold execMul
  try dsimp only
  repeat' first
  | with_reducible exact hs
  | with_reducible refine Res.next_sound ?_
  | with_reducible apply State.regInstr_sound

theorem execFma_sound (i : VecR) (s : State) (hs : s.Sound) : Res.Sound (execFma i s) := by
  unfold execFma
  try dsimp only
  repeat' first
  | with_reducible exact hs
  | with_reducible refine Res.next_sound ?_
  | with_reducible apply State.regInstr_sound

theorem execMin_sound (i : VecR) (s : State) (hs : s.Sound) : Res.Sound (execMin i s) := by
  unfold execMin
  try dsimp only
  repeat' first
  | with_reducible exact hs
  | with_reducible refine Res.next_sound ?_
  | with_reducible apply State.regInstr_sound

theorem execMax_sound (i : VecR) (s : State) (hs : s.Sound) : Res.Sound (execMax i s) := by
  unfold execMax
  try dsimp only
  repeat' first
  | with_reducible exact hs
  | with_reducible refine Res.next_sound ?_
  | with_reducible apply State.regInstr_sound

theorem execAbs_sound (i : VecR) (s : State) (hs : s.Sound) : Res.Sound (execAbs i s) := by
  unfold execAbs
  try dsimp only
  repeat' first
  | with_reducible exact hs
  | with_reducible refine Res.next_sound ?_
  | with_reducible apply State.regInstr_sound

theorem execNeg_sound (i : VecR) (s : State) (hs : s.Sound) : Res.Sound (execNeg i s) := by
  unfold execNeg
  try dsimp only
  repeat' first
  | with_reducible exact hs
  | with_reducible refine Res.next_sound ?_
  | with_reducible apply State.regInstr_sound

theorem execCmplt_sound (i : VecR) (s : State) (hs : s.Sound) : Res.Sound (execCmplt i s) := by
  unfold execCmplt
  try dsimp only
  repeat' first
  | with_reducible exact hs
  | with_reducible refine Res.next_sound ?_
  | with_reducible apply State.regInstr_sound

theorem execCmple_sound (i : VecR) (s : State) (hs : s.Sound) : Res.Sound (execCmple i s) := by
  unfold execCmple
  try dsimp only
  repeat' first
  | with_reducible exact hs
  | with_reducible refine Res.next_sound ?_
  | with_reducible apply State.regInstr_sound

theorem execCmpeq_sound (i : VecR) (s : State) (hs : s.Sound) : Res.Sound (execCmpeq i s) := by
  unfold execCmpeq
  try dsimp only
  repeat' first
  | with_reducible exact hs
  | with_reducible refine Res.next_sound ?_
  | with_reducible apply State.regInstr_sound

theorem execSel_sound (i : VecR) (s : State) (hs : s.Sound) : Res.Sound (execSel i s) := by
  unfold execSel
  try dsimp only
  repeat' first
  | with_reducible exact hs
  | with_reducible refine Res.next_sound ?_
  | with_reducible apply State.regInstr_sound

theorem execExp2_sound (i : VecR) (s : State) (hs : s.Sound) : Res.Sound (execExp2 i s) := by
  unfold execExp2
  try dsimp only
  repeat' first
  | with_reducible exact hs
  | with_reducible refine Res.next_sound ?_
  | with_reducible apply State.regInstr_sound

theorem execLog2_sound (i : VecR) (s : State) (hs : s.Sound) : Res.Sound (execLog2 i s) := by
  unfold execLog2
  try dsimp only
  repeat' first
  | with_reducible exact hs
  | with_reducible refine Res.next_sound ?_
  | with_reducible apply State.regInstr_sound

theorem execRcp_sound (i : VecR) (s : State) (hs : s.Sound) : Res.Sound (execRcp i s) := by
  unfold execRcp
  try dsimp only
  repeat' first
  | with_reducible exact hs
  | with_reducible refine Res.next_sound ?_
  | with_reducible apply State.regInstr_sound

theorem execRsqrt_sound (i : VecR) (s : State) (hs : s.Sound) : Res.Sound (execRsqrt i s) := by
  unfold execRsqrt
  try dsimp only
  repeat' first
  | with_reducible exact hs
  | with_reducible refine Res.next_sound ?_
  | with_reducible apply State.regInstr_sound

theorem execSqrt_sound (i : VecR) (s : State) (hs : s.Sound) : Res.Sound (execSqrt i s) := by
  unfold execSqrt
  try dsimp only
  repeat' first
  | with_reducible exact hs
  | with_reducible refine Res.next_sound ?_
  | with_reducible apply State.regInstr_sound

theorem execTanh_sound (i : VecR) (s : State) (hs : s.Sound) : Res.Sound (execTanh i s) := by
  unfold execTanh
  try dsimp only
  repeat' first
  | with_reducible exact hs
  | with_reducible refine Res.next_sound ?_
  | with_reducible apply State.regInstr_sound

theorem execErf_sound (i : VecR) (s : State) (hs : s.Sound) : Res.Sound (execErf i s) := by
  unfold execErf
  try dsimp only
  repeat' first
  | with_reducible exact hs
  | with_reducible refine Res.next_sound ?_
  | with_reducible apply State.regInstr_sound

theorem execLd_sound (i : VecM) (s : State) (hs : s.Sound) : Res.Sound (execLd i s) := by
  unfold execLd
  try dsimp only
  repeat' first
  | with_reducible assumption
  | with_reducible intro hc
  | with_reducible refine Res.next_sound ?_
  | with_reducible apply RunCtx.ld_sound
  | with_reducible apply State.memInstr_sound

theorem execSt_sound (i : VecM) (s : State) (hs : s.Sound) : Res.Sound (execSt i s) := by
  unfold execSt
  try dsimp only
  repeat' first
  | with_reducible assumption
  | with_reducible intro hc
  | with_reducible refine Res.next_sound ?_
  | with_reducible apply RunCtx.st_sound
  | with_reducible apply State.memInstr_sound

theorem execGath_sound (i : VecM) (s : State) (hs : s.Sound) : Res.Sound (execGath i s) := by
  unfold execGath
  try dsimp only
  repeat' first
  | with_reducible assumption
  | with_reducible intro hc
  | with_reducible refine Res.next_sound ?_
  | with_reducible apply RunCtx.ld_sound
  | with_reducible apply State.memInstr_sound

theorem execHadd_sound (i : VecM) (s : State) (hs : s.Sound) : Res.Sound (execHadd i s) := by
  unfold execHadd
  try dsimp only
  repeat' first
  | with_reducible assumption
  | with_reducible intro hc
  | with_reducible refine Res.next_sound ?_
  | with_reducible apply RunCtx.hadd_sound
  | with_reducible apply State.memInstr_sound

theorem execRsum_sound (i : VecM) (s : State) (hs : s.Sound) : Res.Sound (execRsum i s) := by
  unfold execRsum
  try dsimp only
  repeat' first
  | with_reducible assumption
  | with_reducible intro hc
  | with_reducible refine Res.next_sound ?_
  | with_reducible apply RunCtx.reduce_sound
  | with_reducible apply State.memInstr_sound

theorem execRmax_sound (i : VecM) (s : State) (hs : s.Sound) : Res.Sound (execRmax i s) := by
  unfold execRmax
  try dsimp only
  repeat' first
  | with_reducible assumption
  | with_reducible intro hc
  | with_reducible refine Res.next_sound ?_
  | with_reducible apply RunCtx.reduce_sound
  | with_reducible apply State.memInstr_sound

theorem execRssq_sound (i : VecM) (s : State) (hs : s.Sound) : Res.Sound (execRssq i s) := by
  unfold execRssq
  try dsimp only
  repeat' first
  | with_reducible assumption
  | with_reducible intro hc
  | with_reducible refine Res.next_sound ?_
  | with_reducible apply RunCtx.reduce_sound
  | with_reducible apply State.memInstr_sound

end Sys2Proof.Machine
end

