-- ==== Sys2Proof/Laws/SoundRowEngine.lean ====
section
/-! SUPPORT. What the operations and meanings of Machine/RowEngine keep of a sound state. -/

namespace Sys2Proof.Machine

theorem State.spill_sound (s : State) (e : EngineId) (b : StatsBlk) (hs : s.Sound) : (State.spill s e b).Sound := by
  unfold State.spill
  try dsimp only
  repeat' first
  | with_reducible assumption
  | with_reducible intro hc
  | with_reducible apply State.modVec_sound
  | with_reducible apply State.putStore_sound
  | split

theorem State.makeRoom_sound (s : State) (e : EngineId) (n : Nat) (nn : Nat) (hs : s.Sound) : (State.makeRoom s e n nn).Sound := by
  induction nn generalizing s e n with
  | zero =>
      unfold State.makeRoom
      try dsimp only
      repeat' first
      | with_reducible exact hs

  | succ k IH =>
      unfold State.makeRoom
      try dsimp only
      repeat' first
      | with_reducible exact hs
      | with_reducible apply IH
      | with_reducible apply State.spill_sound
      | split

theorem State.allocStats_sound (s : State) (e : EngineId) (layer : Nat) (mb : W16) (n : Nat) (hs : s.Sound) : (State.allocStats s e layer mb n).Sound := by
  unfold State.allocStats
  try dsimp only
  repeat' first
  | with_reducible assumption
  | with_reducible intro hc
  | with_reducible apply State.modVec_sound
  | with_reducible apply State.makeRoom_sound
  | with_reducible apply ite_sound

theorem State.keepRow_sound (s : State) (e : EngineId) (layer : Nat) (mb : W16) (st : W32 × W32) (hs : s.Sound) : (State.keepRow s e layer mb st).Sound := by
  unfold State.keepRow
  try dsimp only
  repeat' first
  | with_reducible assumption
  | with_reducible intro hc
  | with_reducible apply State.modVec_sound

theorem State.keepStats_sound (s : State) (e : EngineId) (d : LayerDesc) (layer : Nat) (mb : W16) (n : Nat) (hs : s.Sound) : (State.keepStats s e d layer mb n).Sound := by
  unfold State.keepStats
  try dsimp only
  repeat' first
  | with_reducible assumption
  | with_reducible intro hc
  | with_reducible apply State.modVec_sound
  | with_reducible apply State.putStore_sound
  | with_reducible apply ite_sound
  | split

theorem State.putRow_sound (s : State) (c : RunCtx) (t : TensorDesc) (r : Nat) (ys : List Num) (hs : s.Sound) : (State.putRow s c t r ys).Sound := by
  unfold State.putRow
  try dsimp only
  repeat' first
  | with_reducible assumption
  | with_reducible intro hc
  | with_reducible apply State.modEng_sound
  | with_reducible apply State.modVec_sound
  | with_reducible apply Engine.init_sound
  | with_reducible apply CtlSt.init_sound
  | with_reducible apply RingSt.init_sound
  | with_reducible apply Plan.store_sound
  | with_reducible apply EngVec.count_sound
  | with_reducible apply putElem_sound
  | with_reducible apply RunCtx.storeBlocks_sound
  | with_reducible refine RunCtx.storeBlocks_sound_eq (by assumption) ?_
  | with_reducible apply foldl_sound
  | with_reducible apply foldl_fst_sound
  | with_reducible apply foldl_snd_sound
  | with_reducible apply foldl_eng_sound
  | with_reducible apply foldl_mem_wf
  | with_reducible apply foldl_memf_wf
  | with_reducible apply ite_sound
  | with_reducible apply ite_eng_sound
  | (with_reducible refine Engine.Sound.mk ?_ ?_ ?_ ?_ ?_ <;> dsimp only)
  | (have hq := ‹Engine.Sound _›; with_reducible exact hq.store)
  | (have hq := ‹Engine.Sound _›; with_reducible exact hq.acc)
  | (have hq := ‹Engine.Sound _›; with_reducible exact hq.chk)
  | (have hq := ‹Engine.Sound _›; with_reducible exact hq.vr)
  | (have hq := ‹Engine.Sound _›; with_reducible exact hq.queue)
  | with_reducible apply Engine.Sound.store
  | with_reducible apply Engine.Sound.acc
  | with_reducible apply Engine.Sound.chk
  | with_reducible apply Engine.Sound.vr
  | with_reducible apply Engine.Sound.queue
  | (rw [Vector.getElem_map])
  | with_reducible refine State.Sound.eng ?_ _ _
  | dsimp only
  | split

theorem State.rowDone_sound (s : State) (e : EngineId) (layer : Nat) (mb : W16) (prog : Nat) (attempt : Nat) (rows : Nat) (hs : s.Sound) : (State.rowDone s e layer mb prog attempt rows).Sound := by
  unfold State.rowDone
  try dsimp only
  repeat' first
  | with_reducible assumption
  | with_reducible intro hc
  | with_reducible apply State.modVec_sound
  | with_reducible apply State.modSeq_sound
  | with_reducible apply State.excEvents_sound

theorem State.rowUe_sound (s : State) (e : EngineId) (layer : Nat) (mb : W16) (prog : Nat) (rows : Nat) (ws : List (Fin 4 × Nat)) (hs : s.Sound) : (State.rowUe s e layer mb prog rows ws).Sound := by
  unfold State.rowUe
  try dsimp only
  repeat' first
  | with_reducible assumption
  | with_reducible intro hc
  | with_reducible apply State.modVec_sound
  | with_reducible apply State.mark_sound
  | with_reducible apply State.faultLog_sound
  | with_reducible apply State.sramUe_sound

theorem State.rowOne_sound (s : State) (e : EngineId) (c : RunCtx) (prog : Nat) (env : RunEnv) (ins : List TensorDesc) (out : TensorDesc) (r : Nat) (f : State → State) (hs : s.Sound) (hf : ∀ x0, x0.Sound → (f x0).Sound) : (State.rowOne s e c prog env ins out r f).2.Sound := by
  unfold State.rowOne
  try dsimp only
  repeat' first
  | with_reducible assumption
  | with_reducible intro hc
  | with_reducible apply hf
  | with_reducible apply State.modEng_sound
  | with_reducible apply Engine.heal_sound
  | with_reducible apply Plan.store_sound
  | with_reducible apply State.resultsOf_sound
  | with_reducible apply State.rowUe_sound
  | with_reducible apply ite_sound
  | with_reducible apply ite_snd_sound
  | with_reducible apply ite_fst_sound
  | with_reducible apply ite_eng_sound
  | (with_reducible refine Engine.Sound.mk ?_ ?_ ?_ ?_ ?_ <;> dsimp only)
  | exact Nat.zero_le _
  | exact rfl
  | (have hq := ‹Engine.Sound _›; with_reducible exact hq.store)
  | (have hq := ‹Engine.Sound _›; with_reducible exact hq.acc)
  | (have hq := ‹Engine.Sound _›; with_reducible exact hq.chk)
  | (have hq := ‹Engine.Sound _›; with_reducible exact hq.vr)
  | (have hq := ‹Engine.Sound _›; with_reducible exact hq.queue)
  | with_reducible apply Engine.Sound.store
  | with_reducible apply Engine.Sound.acc
  | with_reducible apply Engine.Sound.chk
  | with_reducible apply Engine.Sound.vr
  | with_reducible apply Engine.Sound.queue
  | (rw [Vector.getElem_map])
  | with_reducible refine State.Sound.eng ?_ _ _
  | dsimp only
  | split

theorem State.rowOne_sound_eq {s : State} {e : EngineId} {c : RunCtx} {prog : Nat} {env : RunEnv} {ins : List TensorDesc} {out : TensorDesc} {r : Nat} {f : State → State} {a0} {t : State} (hq : State.rowOne s e c prog env ins out r f = (a0, t)) (hs : s.Sound) (hf : ∀ x0, x0.Sound → (f x0).Sound) : t.Sound := by
  have := State.rowOne_sound s e c prog env ins out r f hs hf; rw [hq] at this; exact this

theorem State.rowsOf_sound (s : State) (n : Nat) (f : Nat → State → Bool × State) (hs : s.Sound) (hf : ∀ x0 x1, x1.Sound → (f x0 x1).2.Sound) : (State.rowsOf s n f).2.Sound := by
  unfold State.rowsOf
  try dsimp only
  repeat' first
  | with_reducible assumption
  | with_reducible intro hc
  | with_reducible apply hf
  | with_reducible apply foldl_snd_sound
  | with_reducible apply ite_snd_sound

theorem State.rowsOf_sound_eq {s : State} {n : Nat} {f : Nat → State → Bool × State} {a0} {t : State} (hq : State.rowsOf s n f = (a0, t)) (hs : s.Sound) (hf : ∀ x0 x1, x1.Sound → (f x0 x1).2.Sound) : t.Sound := by
  have := State.rowsOf_sound s n f hs hf; rw [hq] at this; exact this

theorem State.rowBegin_sound (s : State) (e : EngineId) (layer : Nat) (mb : W16) (bwd : Bool) (hs : s.Sound) : (State.rowBegin s e layer mb bwd).Sound := by
  unfold State.rowBegin
  try dsimp only
  repeat' first
  | with_reducible assumption
  | with_reducible intro hc
  | with_reducible apply State.modVec_sound
  | with_reducible apply Engine.init_sound
  | with_reducible apply CtlSt.init_sound
  | with_reducible apply RingSt.init_sound

theorem State.rowForward_sound (s : State) (e : EngineId) (layer : Nat) (d : LayerDesc) (mb : W16) (envs : RunEnvs) (hs : s.Sound) : (State.rowForward s e layer d mb envs).2.Sound := by
  unfold State.rowForward
  try dsimp only
  repeat' first
  | with_reducible assumption
  | with_reducible intro hc
  | with_reducible apply State.modVec_sound
  | with_reducible apply State.sramCe_sound
  | with_reducible apply EngVec.count_sound
  | with_reducible apply State.duplex_sound
  | with_reducible apply State.allocStats_sound
  | with_reducible apply State.keepRow_sound
  | with_reducible apply State.keepStats_sound
  | with_reducible apply State.putRow_sound
  | with_reducible apply State.rowDone_sound
  | with_reducible apply State.rowOne_sound
  | with_reducible apply State.rowsOf_sound
  | with_reducible apply State.rowBegin_sound
  | with_reducible apply ite_snd_sound
  | split

theorem State.rowForward_sound_eq {s : State} {e : EngineId} {layer : Nat} {d : LayerDesc} {mb : W16} {envs : RunEnvs} {a0} {t : State} (hq : State.rowForward s e layer d mb envs = (a0, t)) (hs : s.Sound) : t.Sound := by
  have := State.rowForward_sound s e layer d mb envs hs; rw [hq] at this; exact this

theorem State.rowBackward_sound (s : State) (e : EngineId) (layer : Nat) (d : LayerDesc) (mb : W16) (envs : RunEnvs) (hs : s.Sound) : (State.rowBackward s e layer d mb envs).2.Sound := by
  unfold State.rowBackward
  try dsimp only
  repeat' first
  | with_reducible assumption
  | with_reducible intro hc
  | with_reducible apply State.modVec_sound
  | with_reducible apply State.faultLog_sound
  | with_reducible apply State.sramCe_sound
  | with_reducible apply EngVec.count_sound
  | with_reducible apply State.duplex_sound
  | with_reducible apply State.putRow_sound
  | with_reducible apply State.rowDone_sound
  | with_reducible apply State.rowUe_sound
  | with_reducible apply State.rowOne_sound
  | with_reducible apply State.rowsOf_sound
  | with_reducible apply State.rowBegin_sound
  | with_reducible apply ite_sound
  | with_reducible apply ite_snd_sound
  | split

theorem State.rowBackward_sound_eq {s : State} {e : EngineId} {layer : Nat} {d : LayerDesc} {mb : W16} {envs : RunEnvs} {a0} {t : State} (hq : State.rowBackward s e layer d mb envs = (a0, t)) (hs : s.Sound) : t.Sound := by
  have := State.rowBackward_sound s e layer d mb envs hs; rw [hq] at this; exact this

end Sys2Proof.Machine
end

