-- ==== Sys2Proof/Laws/SoundLedger.lean ====
section
/-! SUPPORT. What the operations and meanings of Machine/Ledger keep of a sound state. -/

namespace Sys2Proof.Machine

theorem State.modEntry_sound (s : State) (e : EngineId) (i : Nat) (f : LedgerEntry → LedgerEntry) (hs : s.Sound) : (State.modEntry s e i f).Sound := by
  unfold State.modEntry
  try dsimp only
  repeat' first
  | with_reducible exact hs
  | with_reducible apply State.modLed_sound

theorem State.chanTake_sound (s : State) (e : EngineId) (ch : ChanId) (x : Slip) (hs : s.Sound) : (State.chanTake s e ch x).Sound := by
  unfold State.chanTake
  try dsimp only
  repeat' first
  | with_reducible assumption
  | with_reducible intro hc
  | with_reducible apply State.modChan_sound
  | with_reducible apply State.draw_sound
  | with_reducible refine State.draw_sound_eq (by assumption) ?_
  | with_reducible refine snd_sound_of_eq (by assumption) ?_
  | with_reducible refine fst_sound_of_eq (by assumption) ?_
  | dsimp only
  | split

theorem State.chanFails_sound (s : State) (e : EngineId) (ch : ChanId) (st : Status) (hs : s.Sound) : (State.chanFails s e ch st).Sound := by
  unfold State.chanFails
  try dsimp only
  repeat' first
  | with_reducible assumption
  | with_reducible intro hc
  | with_reducible apply State.modChan_sound
  | with_reducible apply State.mark_sound

theorem State.chanRead_sound (s : State) (e : EngineId) (ch : ChanId) (c : CtlId) (page : Nat) (m : ReadMet) (mb : W16) (hs : s.Sound) : (State.chanRead s e ch c page m mb).2.Sound := by
  unfold State.chanRead
  try dsimp only
  repeat' first
  | with_reducible assumption
  | with_reducible intro hc
  | with_reducible apply State.setErr_sound
  | with_reducible apply State.post_sound
  | with_reducible apply State.readVia_sound
  | with_reducible apply State.chanFails_sound
  | with_reducible refine State.readVia_sound_eq (by assumption) ?_
  | with_reducible apply ite_sound
  | with_reducible apply ite_snd_sound
  | with_reducible apply ite_fst_sound
  | with_reducible apply ite_eng_sound
  | with_reducible refine snd_sound_of_eq (by assumption) ?_
  | with_reducible refine fst_sound_of_eq (by assumption) ?_
  | dsimp only
  | split

theorem State.chanRead_sound_eq {s : State} {e : EngineId} {ch : ChanId} {c : CtlId} {page : Nat} {m : ReadMet} {mb : W16} {a0} {t : State} (hq : State.chanRead s e ch c page m mb = (a0, t)) (hs : s.Sound) : t.Sound := by
  have := State.chanRead_sound s e ch c page m mb hs; rw [hq] at this; exact this

theorem State.fetchPage_sound (s : State) (e : EngineId) (ch : ChanId) (c : CtlId) (page : Nat) (dst : W64) (n : Nat) (m : ReadMet) (mb : W16) (hs : s.Sound) : (State.fetchPage s e ch c page dst n m mb).2.Sound := by
  unfold State.fetchPage
  try dsimp only
  repeat' first
  | with_reducible assumption
  | with_reducible intro hc
  | with_reducible apply State.modChan_sound
  | with_reducible apply State.chanTake_sound
  | with_reducible apply State.chanRead_sound
  | with_reducible refine State.chanTake_sound_eq (by assumption) ?_
  | with_reducible refine State.chanRead_sound_eq (by assumption) ?_
  | with_reducible refine snd_sound_of_eq (by assumption) ?_
  | with_reducible refine fst_sound_of_eq (by assumption) ?_
  | dsimp only
  | split

theorem State.fetchPage_sound_eq {s : State} {e : EngineId} {ch : ChanId} {c : CtlId} {page : Nat} {dst : W64} {n : Nat} {m : ReadMet} {mb : W16} {a0} {t : State} (hq : State.fetchPage s e ch c page dst n m mb = (a0, t)) (hs : s.Sound) : t.Sound := by
  have := State.fetchPage_sound s e ch c page dst n m mb hs; rw [hq] at this; exact this

theorem State.chanWrite_sound (s : State) (e : EngineId) (ch : ChanId) (c : CtlId) (page : Nat) (data : List Byte) (x : Sideband) (hs : s.Sound) : (State.chanWrite s e ch c page data x).Sound := by
  unfold State.chanWrite
  try dsimp only
  repeat' first
  | with_reducible assumption
  | with_reducible intro hc
  | with_reducible apply State.modChan_sound
  | with_reducible apply State.writePage_sound
  | with_reducible apply State.chanTake_sound
  | with_reducible apply State.chanFails_sound
  | with_reducible refine State.chanTake_sound_eq (by assumption) ?_
  | with_reducible apply ite_sound
  | dsimp only
  | split

theorem State.setShare_sound (s : State) (e : EngineId) (q : Nat) (n : Nat) (hs : s.Sound) : (State.setShare s e q n).Sound := by
  unfold State.setShare
  try dsimp only
  repeat' first
  | with_reducible assumption
  | with_reducible intro hc
  | with_reducible apply State.modLed_sound
  | with_reducible apply State.mark_sound
  | with_reducible apply State.writeBytes_sound
  | with_reducible apply ite_sound
  | with_reducible apply ite_eng_sound
  | with_reducible refine snd_sound_of_eq (by assumption) ?_
  | with_reducible refine fst_sound_of_eq (by assumption) ?_
  | dsimp only
  | split

theorem State.takePage_sound (s : State) (e : EngineId) (hs : s.Sound) : (State.takePage s e).2.Sound := by
  unfold State.takePage
  try dsimp only
  repeat' first
  | with_reducible exact hs
  | with_reducible apply State.setShare_sound
  | split

theorem State.takePage_sound_eq {s : State} {e : EngineId} {a0} {t : State} (hq : State.takePage s e = (a0, t)) (hs : s.Sound) : t.Sound := by
  have := State.takePage_sound s e hs; rw [hq] at this; exact this

theorem State.takePages_sound (s : State) (e : EngineId) (nn : Nat) (hs : s.Sound) : (State.takePages s e nn).2.Sound := by
  induction nn generalizing s e with
  | zero =>
      unfold State.takePages
      try dsimp only
      repeat' first
      | with_reducible exact hs

  | succ k IH =>
      unfold State.takePages
      try dsimp only
      repeat' first
      | with_reducible exact hs
      | with_reducible apply IH
      | with_reducible apply State.takePage_sound

theorem State.takePages_sound_eq {s : State} {e : EngineId} {nn : Nat} {a0} {t : State} (hq : State.takePages s e nn = (a0, t)) (hs : s.Sound) : t.Sound := by
  have := State.takePages_sound s e nn hs; rw [hq] at this; exact this

theorem State.dropShare_sound (s : State) (e : EngineId) (q : Nat) (hs : s.Sound) : (State.dropShare s e q).Sound := by
  unfold State.dropShare
  try dsimp only
  repeat' first
  | with_reducible exact hs
  | with_reducible apply State.setShare_sound

theorem State.addShare_sound (s : State) (e : EngineId) (q : Nat) (hs : s.Sound) : (State.addShare s e q).Sound := by
  unfold State.addShare
  try dsimp only
  repeat' first
  | with_reducible exact hs
  | with_reducible apply State.setShare_sound

theorem State.readMap_sound (s : State) (e : EngineId) (x : LedgerEntry) (ch : Nat) (hs : s.Sound) : (State.readMap s e x ch).2.Sound := by
  unfold State.readMap
  try dsimp only
  repeat' first
  | with_reducible assumption
  | with_reducible intro hc
  | with_reducible apply State.mark_sound
  | with_reducible apply State.pageIn_sound
  | with_reducible refine State.pageIn_sound_eq (by assumption) ?_
  | with_reducible apply foldl_sound
  | with_reducible apply foldl_fst_sound
  | with_reducible apply foldl_snd_sound
  | with_reducible apply foldl_eng_sound
  | with_reducible apply ite_sound
  | with_reducible apply ite_snd_sound
  | with_reducible apply ite_fst_sound
  | with_reducible apply ite_eng_sound
  | with_reducible refine snd_sound_of_eq (by assumption) ?_
  | with_reducible refine fst_sound_of_eq (by assumption) ?_
  | dsimp only
  | split

theorem State.readMap_sound_eq {s : State} {e : EngineId} {x : LedgerEntry} {ch : Nat} {a0} {t : State} (hq : State.readMap s e x ch = (a0, t)) (hs : s.Sound) : t.Sound := by
  have := State.readMap_sound s e x ch hs; rw [hq] at this; exact this

theorem State.writeMap_sound (s : State) (e : EngineId) (x : LedgerEntry) (ws : List Nat) (hs : s.Sound) : (State.writeMap s e x ws).Sound := by
  unfold State.writeMap
  try dsimp only
  repeat' first
  | with_reducible assumption
  | with_reducible intro hc
  | with_reducible apply State.chanWrite_sound
  | with_reducible refine State.chanWrite_sound_eq (by assumption) ?_
  | with_reducible apply foldl_sound
  | with_reducible apply foldl_fst_sound
  | with_reducible apply foldl_snd_sound
  | with_reducible refine snd_sound_of_eq (by assumption) ?_
  | with_reducible refine fst_sound_of_eq (by assumption) ?_
  | dsimp only
  | split

theorem State.allocEntry_sound (s : State) (e : EngineId) (x : ShardEnt) (version : StepNo) (owned : Bool) (orphan : Bool) (published : Bool) (hs : s.Sound) : (State.allocEntry s e x version owned orphan published).2.Sound := by
  unfold State.allocEntry
  try dsimp only
  repeat' first
  | with_reducible assumption
  | with_reducible intro hc
  | with_reducible apply State.modLed_sound
  | with_reducible apply State.takePages_sound
  | with_reducible apply State.addShare_sound
  | with_reducible apply State.readMap_sound
  | with_reducible apply State.writeMap_sound
  | with_reducible refine State.takePages_sound_eq (by assumption) ?_
  | with_reducible refine State.readMap_sound_eq (by assumption) ?_
  | with_reducible refine State.writeMap_sound_eq (by assumption) ?_
  | with_reducible apply foldl_sound
  | with_reducible apply foldl_fst_sound
  | with_reducible apply foldl_snd_sound
  | with_reducible apply ite_sound
  | with_reducible apply ite_snd_sound
  | with_reducible apply ite_fst_sound
  | (rw [Vector.getElem_map])
  | with_reducible refine snd_sound_of_eq (by assumption) ?_
  | with_reducible refine fst_sound_of_eq (by assumption) ?_
  | dsimp only
  | split

theorem State.allocEntry_sound_eq {s : State} {e : EngineId} {x : ShardEnt} {version : StepNo} {owned : Bool} {orphan : Bool} {published : Bool} {a0} {t : State} (hq : State.allocEntry s e x version owned orphan published = (a0, t)) (hs : s.Sound) : t.Sound := by
  have := State.allocEntry_sound s e x version owned orphan published hs; rw [hq] at this; exact this

theorem State.writeVersionPage_sound (s : State) (e : EngineId) (i : Nat) (p : Nat) (data : List Byte) (hs : s.Sound) : (State.writeVersionPage s e i p data).Sound := by
  unfold State.writeVersionPage
  try dsimp only
  repeat' first
  | with_reducible assumption
  | with_reducible intro hc
  | with_reducible apply State.modEntry_sound
  | with_reducible apply State.chanRead_sound
  | with_reducible apply State.chanWrite_sound
  | with_reducible apply State.takePage_sound
  | with_reducible apply State.dropShare_sound
  | with_reducible apply State.writeMap_sound
  | with_reducible refine State.chanRead_sound_eq (by assumption) ?_
  | with_reducible refine State.chanWrite_sound_eq (by assumption) ?_
  | with_reducible refine State.takePage_sound_eq (by assumption) ?_
  | with_reducible refine State.writeMap_sound_eq (by assumption) ?_
  | with_reducible apply ite_sound
  | with_reducible refine snd_sound_of_eq (by assumption) ?_
  | with_reducible refine fst_sound_of_eq (by assumption) ?_
  | dsimp only
  | split

theorem State.makeReady_sound (s : State) (e : EngineId) (i : Nat) (hs : s.Sound) : (State.makeReady s e i).Sound := by
  unfold State.makeReady
  try dsimp only
  repeat' first
  | with_reducible exact hs
  | with_reducible apply State.modEntry_sound

theorem State.freeEntry_sound (s : State) (e : EngineId) (i : Nat) (hs : s.Sound) : (State.freeEntry s e i).Sound := by
  unfold State.freeEntry
  try dsimp only
  repeat' first
  | with_reducible assumption
  | with_reducible intro hc
  | with_reducible apply State.modLed_sound
  | with_reducible apply State.dropShare_sound
  | with_reducible apply State.readMap_sound
  | with_reducible refine State.readMap_sound_eq (by assumption) ?_
  | with_reducible apply foldl_sound
  | with_reducible apply foldl_fst_sound
  | with_reducible apply foldl_snd_sound
  | with_reducible apply ite_sound
  | with_reducible apply filter_le
  | dsimp only
  | split

theorem State.promoteEntry_sound (s : State) (e : EngineId) (i : Nat) (hs : s.Sound) : (State.promoteEntry s e i).Sound := by
  unfold State.promoteEntry
  try dsimp only
  repeat' first
  | with_reducible exact hs
  | with_reducible apply State.modEntry_sound
  | split

theorem State.ledgerBoundary_sound (s : State) (e : EngineId) (step : StepNo) (hs : s.Sound) : (State.ledgerBoundary s e step).Sound := by
  unfold State.ledgerBoundary
  try dsimp only
  repeat' first
  | with_reducible assumption
  | with_reducible intro hc
  | with_reducible apply State.promoteEntry_sound
  | with_reducible apply State.freeEntry_sound
  | with_reducible apply foldl_sound
  | split

theorem State.poolAudit_sound (s : State) (e : EngineId) (step : StepNo) (hs : s.Sound) : (State.poolAudit s e step).Sound := by
  unfold State.poolAudit
  try dsimp only
  repeat' first
  | with_reducible exact hs
  | with_reducible intro hc
  | with_reducible apply ite_sound
  | with_reducible apply State.modLed_sound
  | with_reducible apply State.post_sound
  | with_reducible apply State.setErr_sound

theorem State.freeAll_sound (s : State) (e : EngineId) (hs : s.Sound) : (State.freeAll s e).Sound := by
  unfold State.freeAll
  try dsimp only
  repeat' first
  | with_reducible assumption
  | with_reducible intro hc
  | with_reducible apply State.freeEntry_sound
  | with_reducible apply foldl_sound

theorem State.hostPage_sound (s : State) (a : W64) (hs : s.Sound) : (State.hostPage s a).2.Sound := by
  unfold State.hostPage
  try dsimp only
  repeat' first
  | with_reducible assumption
  | with_reducible intro hc
  | with_reducible apply State.modHost_sound
  | with_reducible apply State.draw_sound
  | with_reducible refine State.draw_sound_eq (by assumption) ?_
  | (intros; rfl)
  | with_reducible refine snd_sound_of_eq (by assumption) ?_
  | with_reducible refine fst_sound_of_eq (by assumption) ?_
  | dsimp only
  | split

theorem State.hostPage_sound_eq {s : State} {a : W64} {a0} {t : State} (hq : State.hostPage s a = (a0, t)) (hs : s.Sound) : t.Sound := by
  have := State.hostPage_sound s a hs; rw [hq] at this; exact this

theorem State.putHostPage_sound (s : State) (a : W64) (data : List Byte) (hs : s.Sound) : (State.putHostPage s a data).Sound := by
  unfold State.putHostPage
  try dsimp only
  repeat' first
  | with_reducible assumption
  | with_reducible intro hc
  | with_reducible apply State.emit_sound
  | with_reducible apply State.modHost_sound
  | (intros; rfl)

theorem State.readState_sound (s : State) (e : EngineId) (x : ShardEnt) (page : Nat) (m : ReadMet) (hs : s.Sound) : (State.readState s e x page m).2.Sound := by
  unfold State.readState
  try dsimp only
  repeat' first
  | with_reducible assumption
  | with_reducible intro hc
  | with_reducible apply State.fetchPage_sound
  | with_reducible apply State.hostPage_sound
  | with_reducible refine State.fetchPage_sound_eq (by assumption) ?_
  | with_reducible refine State.hostPage_sound_eq (by assumption) ?_
  | with_reducible apply ite_sound
  | with_reducible apply ite_snd_sound
  | with_reducible apply ite_fst_sound
  | with_reducible refine snd_sound_of_eq (by assumption) ?_
  | with_reducible refine fst_sound_of_eq (by assumption) ?_
  | dsimp only
  | split

theorem State.readState_sound_eq {s : State} {e : EngineId} {x : ShardEnt} {page : Nat} {m : ReadMet} {a0} {t : State} (hq : State.readState s e x page m = (a0, t)) (hs : s.Sound) : t.Sound := by
  have := State.readState_sound s e x page m hs; rw [hq] at this; exact this

theorem State.writeState_sound (s : State) (e : EngineId) (x : ShardEnt) (page : Nat) (version : StepNo) (data : List Byte) (hs : s.Sound) : (State.writeState s e x page version data).Sound := by
  unfold State.writeState
  try dsimp only
  repeat' first
  | with_reducible assumption
  | with_reducible intro hc
  | with_reducible apply State.chanWrite_sound
  | with_reducible apply State.putHostPage_sound
  | with_reducible refine State.chanWrite_sound_eq (by assumption) ?_
  | with_reducible apply ite_sound
  | with_reducible refine snd_sound_of_eq (by assumption) ?_
  | with_reducible refine fst_sound_of_eq (by assumption) ?_
  | dsimp only
  | split

theorem State.readStates_sound (s : State) (e : EngineId) (x : ShardEnt) (first : Nat) (n : Nat) (m : ReadMet) (hs : s.Sound) : (State.readStates s e x first n m).2.Sound := by
  unfold State.readStates
  try dsimp only
  repeat' first
  | with_reducible assumption
  | with_reducible intro hc
  | with_reducible apply State.readState_sound
  | with_reducible refine State.readState_sound_eq (by assumption) ?_
  | with_reducible apply foldl_sound
  | with_reducible apply foldl_fst_sound
  | with_reducible apply foldl_snd_sound
  | with_reducible apply foldl_snd2_sound
  | with_reducible apply foldl_snd3_sound
  | with_reducible apply ite_sound
  | with_reducible apply ite_snd_sound
  | with_reducible apply ite_fst_sound
  | with_reducible refine snd_sound_of_eq (by assumption) ?_
  | with_reducible refine fst_sound_of_eq (by assumption) ?_
  | dsimp only
  | split

theorem State.readStates_sound_eq {s : State} {e : EngineId} {x : ShardEnt} {first : Nat} {n : Nat} {m : ReadMet} {a0} {t : State} (hq : State.readStates s e x first n m = (a0, t)) (hs : s.Sound) : t.Sound := by
  have := State.readStates_sound s e x first n m hs; rw [hq] at this; exact this

theorem State.readMasters_sound (s : State) (e : EngineId) (x : ShardEnt) (hs : s.Sound) : (State.readMasters s e x).2.Sound := by
  unfold State.readMasters
  try dsimp only
  repeat' first
  | with_reducible assumption
  | with_reducible intro hc
  | with_reducible apply State.readStates_sound
  | with_reducible refine State.readStates_sound_eq (by assumption) ?_
  | with_reducible apply foldl_sound
  | with_reducible apply foldl_fst_sound
  | with_reducible apply foldl_snd_sound
  | with_reducible refine snd_sound_of_eq (by assumption) ?_
  | with_reducible refine fst_sound_of_eq (by assumption) ?_
  | dsimp only
  | split

theorem State.readMasters_sound_eq {s : State} {e : EngineId} {x : ShardEnt} {a0} {t : State} (hq : State.readMasters s e x = (a0, t)) (hs : s.Sound) : t.Sound := by
  have := State.readMasters_sound s e x hs; rw [hq] at this; exact this

theorem State.updEvents_sound (s : State) (e : EngineId) (shard : BitVec 24) (c : ExcCnt) (hs : s.Sound) : (State.updEvents s e shard c).Sound := by
  unfold State.updEvents
  try dsimp only
  repeat' first
  | with_reducible assumption
  | with_reducible apply State.excEvents_sound

theorem State.deriveFrom_sound (s : State) (e : EngineId) (x : ShardEnt) (i : Nat) (masters : List (List Byte)) (hs : s.Sound) : (State.deriveFrom s e x i masters).1.Sound := by
  unfold State.deriveFrom
  try dsimp only
  repeat' first
  | with_reducible assumption
  | with_reducible intro hc
  | with_reducible apply Engine.init_sound
  | with_reducible apply CtlSt.init_sound
  | with_reducible apply RingSt.init_sound
  | with_reducible apply State.deed_sound
  | with_reducible apply State.writeVersionPage_sound
  | with_reducible refine State.writeVersionPage_sound_eq (by assumption) ?_
  | with_reducible apply foldl_sound
  | with_reducible apply foldl_fst_sound
  | with_reducible apply foldl_snd_sound
  | with_reducible refine snd_sound_of_eq (by assumption) ?_
  | with_reducible refine fst_sound_of_eq (by assumption) ?_
  | dsimp only
  | split

theorem State.deriveFrom_sound_eq {s : State} {e : EngineId} {x : ShardEnt} {i : Nat} {masters : List (List Byte)} {a1} {t : State} (hq : State.deriveFrom s e x i masters = (t, a1)) (hs : s.Sound) : t.Sound := by
  have := State.deriveFrom_sound s e x i masters hs; rw [hq] at this; exact this

theorem State.deriveShard_sound (s : State) (e : EngineId) (x : ShardEnt) (i : Nat) (hs : s.Sound) : (State.deriveShard s e x i).2.Sound := by
  unfold State.deriveShard
  try dsimp only
  repeat' first
  | with_reducible assumption
  | with_reducible intro hc
  | with_reducible apply State.modVec_sound
  | with_reducible apply EngVec.tally_sound
  | with_reducible apply State.makeReady_sound
  | with_reducible apply State.readMasters_sound
  | with_reducible apply State.updEvents_sound
  | with_reducible apply State.deriveFrom_sound
  | with_reducible refine State.readMasters_sound_eq (by assumption) ?_
  | with_reducible refine State.deriveFrom_sound_eq (by assumption) ?_
  | with_reducible refine snd_sound_of_eq (by assumption) ?_
  | with_reducible refine fst_sound_of_eq (by assumption) ?_
  | dsimp only
  | split

theorem State.deriveShard_sound_eq {s : State} {e : EngineId} {x : ShardEnt} {i : Nat} {a0} {t : State} (hq : State.deriveShard s e x i = (a0, t)) (hs : s.Sound) : t.Sound := by
  have := State.deriveShard_sound s e x i hs; rw [hq] at this; exact this

end Sys2Proof.Machine
end

