-- ==== Sys2Proof/Laws/SoundTills.lean ====
section
/-! SUPPORT. What the operations and meanings of Machine/Tills keep of a sound state. -/

namespace Sys2Proof.Machine

theorem State.modT_sound (s : State) (e : EngineId) (t : Nat) (f : TillSt → TillSt) (hs : s.Sound) : (State.modT s e t f).Sound := by
  unfold State.modT
  try dsimp only
  repeat' first
  | with_reducible exact hs
  | with_reducible apply State.modTill_sound

theorem State.grant_sound (s : State) (e : EngineId) (t : Nat) (hs : s.Sound) : (State.grant s e t).Sound := by
  unfold State.grant
  try dsimp only
  repeat' first
  | with_reducible exact hs
  | with_reducible apply State.modT_sound
  | with_reducible apply State.emit_sound
  | with_reducible apply State.sendCredit_sound
  | split

theorem State.openTill_sound (s : State) (e : EngineId) (c : TillEnd) (hs : s.Sound) : (State.openTill s e c).Sound := by
  unfold State.openTill
  try dsimp only
  repeat' first
  | with_reducible assumption
  | with_reducible apply State.modT_sound
  | with_reducible apply State.grant_sound

theorem State.openTills_sound (s : State) (again : Bool) (hs : s.Sound) : (State.openTills s again).Sound := by
  unfold State.openTills
  try dsimp only
  repeat' first
  | with_reducible assumption
  | with_reducible intro hc
  | with_reducible apply State.modAllEng_sound
  | with_reducible apply State.openTill_sound
  | with_reducible apply foldl_sound
  | (with_reducible refine Engine.Sound.mk ?_ ?_ ?_ ?_ ?_ <;> dsimp only)
  | (have hq := ‹Engine.Sound _›; with_reducible exact hq.store)
  | (have hq := ‹Engine.Sound _›; with_reducible exact hq.acc)
  | (have hq := ‹Engine.Sound _›; with_reducible exact hq.chk)
  | (have hq := ‹Engine.Sound _›; with_reducible exact hq.vr)
  | (have hq := ‹Engine.Sound _›; with_reducible exact hq.queue)
  | split

theorem State.dropSlot_sound (s : State) (e : EngineId) (t : Nat) (n : W32) (reload : Bool) (hs : s.Sound) : (State.dropSlot s e t n reload).Sound := by
  unfold State.dropSlot
  try dsimp only
  repeat' first
  | with_reducible assumption
  | with_reducible intro hc
  | with_reducible apply State.modT_sound
  | with_reducible apply State.grant_sound
  | with_reducible apply ite_sound
  | split

theorem State.dropStore_sound (s : State) (e : EngineId) (t : Nat) (n : W32) (inStep : StepNo) (hs : s.Sound) : (State.dropStore s e t n inStep).Sound := by
  unfold State.dropStore
  try dsimp only
  repeat' first
  | with_reducible assumption
  | with_reducible intro hc
  | with_reducible apply State.modT_sound
  | with_reducible apply State.grant_sound
  | with_reducible apply ite_sound
  | split

theorem State.exitFloat_sound (s : State) (e : EngineId) (f : FloatEntry) (hs : s.Sound) : (State.exitFloat s e f).Sound := by
  unfold State.exitFloat
  try dsimp only
  repeat' first
  | with_reducible assumption
  | with_reducible intro hc
  | with_reducible apply State.modEng_sound
  | with_reducible apply State.modEntry_sound
  | with_reducible apply State.modT_sound
  | with_reducible apply State.dropSlot_sound
  | with_reducible apply State.dropStore_sound
  | with_reducible apply foldl_sound
  | (with_reducible refine Engine.Sound.mk ?_ ?_ ?_ ?_ ?_ <;> dsimp only)
  | (have hq := ‹Engine.Sound _›; with_reducible exact hq.store)
  | (have hq := ‹Engine.Sound _›; with_reducible exact hq.acc)
  | (have hq := ‹Engine.Sound _›; with_reducible exact hq.chk)
  | (have hq := ‹Engine.Sound _›; with_reducible exact hq.vr)
  | (have hq := ‹Engine.Sound _›; with_reducible exact hq.queue)

theorem State.askResend_sound (s : State) (e : EngineId) (t : TillId) (c : TillEnd) (n : W32) (block : Nat) (hs : s.Sound) : (State.askResend s e t c n block).Sound := by
  unfold State.askResend
  try dsimp only
  repeat' first
  | with_reducible exact hs
  | with_reducible apply State.modT_sound
  | with_reducible apply State.emit_sound
  | with_reducible apply State.sendMsgCtrl_sound
  | split

theorem State.blockFails_sound (s : State) (e : EngineId) (t : TillId) (c : TillEnd) (m : MsgIn) (block : Nat) (hs : s.Sound) : (State.blockFails s e t c m block).Sound := by
  unfold State.blockFails
  try dsimp only
  repeat' first
  | with_reducible exact hs
  | with_reducible intro hc
  | with_reducible apply ite_sound
  | with_reducible apply State.modT_sound
  | with_reducible apply State.askResend_sound
  | with_reducible apply State.mark_sound

theorem State.storeBlock_sound (s : State) (e : EngineId) (t : TillId) (c : TillEnd) (m : MsgIn) (block : Nat) (data : List Byte) (x : Sideband) (bad : Option Status) (hs : s.Sound) : (State.storeBlock s e t c m block data x bad).Sound := by
  unfold State.storeBlock
  try dsimp only
  repeat' first
  | with_reducible assumption
  | with_reducible apply State.mark_sound
  | with_reducible apply State.writePage_sound
  | with_reducible apply State.putStore_sound
  | with_reducible apply State.modT_sound
  | with_reducible apply State.blockFails_sound
  | split

theorem State.overdraftIn_sound (s : State) (e : EngineId) (t : TillId) (x : Sideband) (hs : s.Sound) : (State.overdraftIn s e t x).Sound := by
  unfold State.overdraftIn
  try dsimp only
  repeat' first
  | with_reducible exact hs
  | with_reducible apply State.modT_sound
  | with_reducible apply State.post_sound

theorem State.heard_sound (s : State) (c : TillEnd) (path : TillPath) (plane : Bool) (f : State → State) (hs : s.Sound) (hf : ∀ x0, x0.Sound → (f x0).Sound) : (State.heard s c path plane f).Sound := by
  unfold State.heard
  try dsimp only
  repeat' first
  | with_reducible assumption
  | with_reducible intro hc
  | with_reducible apply hf
  | with_reducible apply State.dropUnadmitted_sound
  | with_reducible apply ite_sound
  | dsimp only
  | split

theorem State.openTillBlock_sound (s : State) (c : TillEnd) (b : TillBlk) (hs : s.Sound) : (State.openTillBlock s c b).2.Sound := by
  unfold State.openTillBlock
  try dsimp only
  repeat' first
  | with_reducible assumption
  | with_reducible intro hc
  | with_reducible apply State.openBlock_sound
  | with_reducible refine State.openBlock_sound_eq (by assumption) ?_
  | with_reducible refine snd_sound_of_eq (by assumption) ?_
  | with_reducible refine fst_sound_of_eq (by assumption) ?_
  | dsimp only
  | split

theorem State.openTillBlock_sound_eq {s : State} {c : TillEnd} {b : TillBlk} {a0} {t : State} (hq : State.openTillBlock s c b = (a0, t)) (hs : s.Sound) : t.Sound := by
  have := State.openTillBlock_sound s c b hs; rw [hq] at this; exact this

theorem State.takeBlock_sound (s : State) (e : EngineId) (t : TillId) (c : TillEnd) (m : MsgIn) (b : TillBlk) (pt : Option (List Byte)) (hs : s.Sound) : (State.takeBlock s e t c m b pt).Sound := by
  unfold State.takeBlock
  try dsimp only
  repeat' first
  | with_reducible assumption
  | with_reducible intro hc
  | with_reducible apply State.setErr_sound
  | with_reducible apply State.post_sound
  | with_reducible apply State.blockFails_sound
  | with_reducible apply State.storeBlock_sound
  | with_reducible apply ite_sound
  | with_reducible apply ite_eng_sound
  | with_reducible refine snd_sound_of_eq (by assumption) ?_
  | with_reducible refine fst_sound_of_eq (by assumption) ?_
  | dsimp only
  | split

theorem State.blockIn_sound (s : State) (e : EngineId) (t : TillId) (c : TillEnd) (b : TillBlk) (hs : s.Sound) : (State.blockIn s e t c b).Sound := by
  unfold State.blockIn
  try dsimp only
  repeat' first
  | with_reducible assumption
  | with_reducible intro hc
  | with_reducible apply State.freeSlot_sound
  | with_reducible apply State.modT_sound
  | with_reducible apply State.overdraftIn_sound
  | with_reducible apply State.openTillBlock_sound
  | with_reducible apply State.takeBlock_sound
  | with_reducible refine State.openTillBlock_sound_eq (by assumption) ?_
  | with_reducible apply ite_sound
  | with_reducible refine snd_sound_of_eq (by assumption) ?_
  | with_reducible refine fst_sound_of_eq (by assumption) ?_
  | dsimp only
  | split

theorem tillData_sound (e : EngineId) (t : TillId) (b : TillBlk) (s : State) (hs : s.Sound) : (tillData e t b s).Sound := by
  unfold tillData
  try dsimp only
  repeat' first
  | with_reducible assumption
  | with_reducible intro hc
  | with_reducible apply State.emit_sound
  | with_reducible apply State.heard_sound
  | with_reducible apply State.blockIn_sound
  | with_reducible refine State.blockIn_sound_eq (by assumption) ?_
  | with_reducible apply ite_sound
  | with_reducible apply ite_eng_sound
  | with_reducible refine snd_sound_of_eq (by assumption) ?_
  | with_reducible refine fst_sound_of_eq (by assumption) ?_
  | dsimp only
  | split

theorem execTillData_sound (e : EngineId) (t : TillId) (b : TillBlk) (s : State) (hs : s.Sound) : Res.Sound (execTillData e t b s) := by
  unfold execTillData
  try dsimp only
  repeat' first
  | with_reducible assumption
  | with_reducible intro hc
  | with_reducible refine Res.next_sound ?_
  | with_reducible apply State.settle_sound
  | with_reducible apply tillData_sound
  | with_reducible refine tillData_sound_eq (by assumption) ?_
  | exact trivial

theorem State.ackMsg_sound (s : State) (c : TillEnd) (n : W32) (hs : s.Sound) : (State.ackMsg s c n).Sound := by
  unfold State.ackMsg
  try dsimp only
  repeat' first
  | with_reducible exact hs
  | with_reducible intro hc
  | with_reducible apply State.emit_sound
  | with_reducible apply State.sendMsgCtrl_sound
  | with_reducible apply State.modRing_sound
  | with_reducible apply State.ringComplete_sound
  | ((fail_if_success (with_reducible refine State.Sound.mk ?_ ?_ ?_ ?_ ?_ ?_ ?_)); first | assumption | (intros; rfl) | exact Nat.zero_le _ | exact rfl)
  | split

theorem execTillMessageComplete_sound (e : EngineId) (t : TillId) (seqNo : W32) (s : State) (hs : s.Sound) : Res.Sound (execTillMessageComplete e t seqNo s) := by
  unfold execTillMessageComplete
  try dsimp only
  repeat' first
  | with_reducible assumption
  | with_reducible intro hc
  | with_reducible refine Res.next_sound ?_
  | with_reducible apply State.modT_sound
  | with_reducible apply State.ackMsg_sound
  | with_reducible apply ite_sound
  | split

theorem State.sendTillBlock_sound (s : State) (e : EngineId) (c : TillEnd) (o : MsgOut) (b : Nat) (hs : s.Sound) : (State.sendTillBlock s e c o b).Sound := by
  unfold State.sendTillBlock
  try dsimp only
  repeat' first
  | with_reducible assumption
  | with_reducible intro hc
  | with_reducible apply State.emit_sound
  | with_reducible apply State.sendBlock_sound
  | with_reducible refine snd_sound_of_eq (by assumption) ?_
  | with_reducible refine fst_sound_of_eq (by assumption) ?_
  | dsimp only
  | split

theorem State.modOut_sound (s : State) (e : EngineId) (t : Nat) (n : W32) (f : MsgOut → MsgOut) (hs : s.Sound) : (State.modOut s e t n f).Sound := by
  unfold State.modOut
  try dsimp only
  repeat' first
  | with_reducible exact hs
  | with_reducible apply State.modT_sound

theorem State.outAcked_sound (s : State) (e : EngineId) (t : Nat) (n : W32) (hs : s.Sound) : (State.outAcked s e t n).Sound := by
  unfold State.outAcked
  try dsimp only
  repeat' first
  | with_reducible exact hs
  | with_reducible apply State.modOut_sound
  | with_reducible apply State.exitFloat_sound
  | split

theorem State.hostFilled_sound (s : State) (e : EngineId) (c : TillEnd) (o : MsgOut) (w : W64 × W64) (hs : s.Sound) : (State.hostFilled s e c o w).Sound := by
  unfold State.hostFilled
  try dsimp only
  repeat' first
  | with_reducible assumption
  | with_reducible intro hc
  | exact hc
  | with_reducible apply State.emit_sound
  | with_reducible apply State.modRing_sound
  | with_reducible apply State.ringComplete_sound
  | with_reducible apply State.outAcked_sound

theorem State.hostFailures_sound (s : State) (e : EngineId) (c : TillEnd) (o : MsgOut) (fails : List (Nat × Nat)) (hs : s.Sound) : (State.hostFailures s e c o fails).Sound := by
  unfold State.hostFailures
  try dsimp only
  repeat' first
  | with_reducible assumption
  | with_reducible intro hc
  | with_reducible apply State.setErr_sound
  | with_reducible apply State.post_sound
  | with_reducible apply State.modT_sound
  | with_reducible apply foldl_sound
  | with_reducible apply foldl_fst_sound
  | with_reducible apply foldl_snd_sound

theorem State.sendHost_sound (s : State) (e : EngineId) (c : TillEnd) (o : MsgOut) (fails : List (Nat × Nat)) (hs : s.Sound) : (State.sendHost s e c o fails).Sound := by
  unfold State.sendHost
  try dsimp only
  repeat' first
  | with_reducible assumption
  | with_reducible intro hc
  | with_reducible apply State.mark_sound
  | with_reducible apply State.modOut_sound
  | with_reducible apply State.hostFilled_sound
  | with_reducible apply State.hostFailures_sound
  | with_reducible apply ite_sound
  | with_reducible apply ite_eng_sound
  | with_reducible apply filter_le
  | with_reducible refine snd_sound_of_eq (by assumption) ?_
  | with_reducible refine fst_sound_of_eq (by assumption) ?_
  | dsimp only
  | split

theorem State.sendMsg_sound (s : State) (e : EngineId) (c : TillEnd) (o : MsgOut) (n : Nat) (fails : List (Nat × Nat)) (hs : s.Sound) : (State.sendMsg s e c o n fails).Sound := by
  unfold State.sendMsg
  try dsimp only
  repeat' first
  | with_reducible assumption
  | with_reducible intro hc
  | with_reducible apply State.sendTillBlock_sound
  | with_reducible apply State.sendHost_sound
  | with_reducible apply forRange_sound
  | with_reducible apply ite_sound
  | dsimp only
  | split

theorem State.sendNew_sound (s : State) (e : EngineId) (c : TillEnd) (f : FloatEntry) (n : Nat) (fails : List (Nat × Nat)) (hs : s.Sound) : (State.sendNew s e c f n fails).Sound := by
  unfold State.sendNew
  try dsimp only
  repeat' first
  | with_reducible assumption
  | with_reducible intro hc
  | with_reducible apply State.deed_sound
  | with_reducible apply State.modT_sound
  | with_reducible apply State.sendMsg_sound

theorem execCredit_sound (e : EngineId) (t : TillId) (by_ : CtrlFrom) (count : W16) (msgBytes : W32) (s : State) (hs : s.Sound) : Res.Sound (execCredit e t by_ count msgBytes s) := by
  unfold execCredit
  try dsimp only
  repeat' first
  | with_reducible assumption
  | with_reducible intro hc
  | with_reducible refine Res.next_sound ?_
  | with_reducible apply State.modT_sound
  | with_reducible apply State.heard_sound
  | with_reducible apply ite_sound
  | with_reducible apply ite_res_sound
  | with_reducible refine snd_sound_of_eq (by assumption) ?_
  | with_reducible refine fst_sound_of_eq (by assumption) ?_
  | dsimp only
  | split
  | exact trivial

theorem State.tillAcked_sound (s : State) (e : EngineId) (t : Nat) (seqNo : W32) (by_ : CtrlFrom) (hs : s.Sound) : (State.tillAcked s e t seqNo by_).Sound := by
  unfold State.tillAcked
  try dsimp only
  repeat' first
  | with_reducible assumption
  | with_reducible intro hc
  | with_reducible apply State.heard_sound
  | with_reducible apply State.outAcked_sound
  | dsimp only
  | split

theorem State.tillResend_sound (s : State) (e : EngineId) (t : Nat) (seqNo : W32) (block : Nat) (by_ : CtrlFrom) (hs : s.Sound) : (State.tillResend s e t seqNo block by_).Sound := by
  unfold State.tillResend
  try dsimp only
  repeat' first
  | with_reducible assumption
  | with_reducible intro hc
  | with_reducible apply State.modT_sound
  | with_reducible apply State.heard_sound
  | with_reducible apply State.sendTillBlock_sound
  | with_reducible apply State.sendHost_sound
  | with_reducible apply ite_sound
  | with_reducible refine snd_sound_of_eq (by assumption) ?_
  | with_reducible refine fst_sound_of_eq (by assumption) ?_
  | dsimp only
  | split

theorem State.tillBoundary_sound (s : State) (e : EngineId) (t : Nat) (hs : s.Sound) : (State.tillBoundary s e t).Sound := by
  unfold State.tillBoundary
  try dsimp only
  repeat' first
  | with_reducible assumption
  | with_reducible apply State.modT_sound
  | with_reducible apply State.grant_sound

end Sys2Proof.Machine
end

