-- ==== Sys2Proof/Laws/SoundClearing.lean ====
section
/-! SUPPORT. What the operations and meanings of Machine/Clearing keep of a sound state. -/

namespace Sys2Proof.Machine

theorem State.faultWindow_sound (s : State) (i : IslandIdx) (unit : Nat) (engine : Nat) (auditor : Nat) (sPass : StepNo) (sDet : StepNo) (touches : List Rec4) (hs : s.Sound) : (State.faultWindow s i unit engine auditor sPass sDet touches).Sound := by
  unfold State.faultWindow
  try dsimp only
  repeat' first
  | with_reducible assumption
  | with_reducible intro hc
  | with_reducible apply State.modInt_sound
  | with_reducible apply State.post_sound
  | with_reducible apply foldl_sound

theorem State.replayDiffers_sound (s : State) (i : IslandIdx) (e : EngineId) (hs : s.Sound) : (State.replayDiffers s i e).Sound := by
  unfold State.replayDiffers
  try dsimp only
  repeat' first
  | with_reducible assumption
  | with_reducible apply State.raise_sound
  | with_reducible apply State.faultWindow_sound

theorem State.putBand_sound (s : State) (h : HomeRec) (b : Nat) (data : List Byte) (hs : s.Sound) : (State.putBand s h b data).Sound := by
  unfold State.putBand
  try dsimp only
  repeat' first
  | with_reducible assumption
  | with_reducible intro hc
  | with_reducible apply ite_sound
  | with_reducible apply State.modEng_sound
  | with_reducible apply State.writePage_sound
  | with_reducible apply State.modArr_sound
  | (with_reducible refine Engine.Sound.mk ?_ ?_ ?_ ?_ ?_ <;> dsimp only)
  | (have hq := ‹Engine.Sound _›; with_reducible exact hq.store)
  | (have hq := ‹Engine.Sound _›; with_reducible exact hq.acc)
  | (have hq := ‹Engine.Sound _›; with_reducible exact hq.chk)
  | (have hq := ‹Engine.Sound _›; with_reducible exact hq.vr)
  | (have hq := ‹Engine.Sound _›; with_reducible exact hq.queue)
  | with_reducible apply memWrite_wf

theorem State.modRec_sound (s : State) (u : Fin 2) (step : StepNo) (x : ShardEnt) (f : ClrShard → ClrShard) (hs : s.Sound) : (State.modRec s u step x f).Sound := by
  unfold State.modRec
  try dsimp only
  repeat' first
  | with_reducible exact hs
  | with_reducible apply State.modClr_sound

theorem State.staleDropped_sound (s : State) (u : Fin 2) (h : BitVec 24) (e : EngineId) (step : StepNo) (hs : s.Sound) : (State.staleDropped s u h e step).Sound := by
  unfold State.staleDropped
  try dsimp only
  repeat' first
  | with_reducible exact hs
  | with_reducible apply State.modClr_sound
  | with_reducible apply State.post_sound

theorem State.addBands_sound (s : State) (u : Fin 2) (x : ShardEnt) (k : Int) (c : Contribution) (hs : s.Sound) : (State.addBands s u x k c).2.Sound := by
  unfold State.addBands
  try dsimp only
  repeat' first
  | with_reducible assumption
  | with_reducible intro hc
  | with_reducible apply State.pageIn_sound
  | with_reducible apply State.homeBand_sound
  | with_reducible refine State.pageIn_sound_eq (by assumption) ?_
  | with_reducible apply foldl_sound
  | with_reducible apply foldl_fst_sound
  | with_reducible apply foldl_snd_sound
  | with_reducible apply ite_sound
  | with_reducible apply ite_snd_sound
  | with_reducible apply ite_fst_sound
  | with_reducible refine snd_sound_of_eq (by assumption) ?_
  | with_reducible refine fst_sound_of_eq (by assumption) ?_
  | dsimp only
  | split

theorem State.addBands_sound_eq {s : State} {u : Fin 2} {x : ShardEnt} {k : Int} {c : Contribution} {a0} {t : State} (hq : State.addBands s u x k c = (a0, t)) (hs : s.Sound) : t.Sound := by
  have := State.addBands_sound s u x k c hs; rw [hq] at this; exact this

theorem State.dropStale_sound (s : State) (u : Fin 2) (peer : Nat) (step : StepNo) (x : ShardEnt) (hs : s.Sound) : (State.dropStale s u peer step x).Sound := by
  unfold State.dropStale
  try dsimp only
  repeat' first
  | with_reducible assumption
  | with_reducible intro hc
  | with_reducible apply State.modClr_sound
  | with_reducible apply State.staleDropped_sound
  | with_reducible apply ite_sound
  | with_reducible apply filter_le
  | dsimp only
  | split

theorem State.straggler_sound (s : State) (u : Fin 2) (x : ShardEnt) (c : Contribution) (hs : s.Sound) : (State.straggler s u x c).Sound := by
  unfold State.straggler
  try dsimp only
  repeat' first
  | with_reducible assumption
  | with_reducible intro hc
  | with_reducible apply State.modClr_sound
  | with_reducible apply State.dropStale_sound
  | with_reducible apply ite_sound
  | with_reducible apply filter_le
  | dsimp only
  | split

theorem State.excludeKid_sound (s : State) (u : Fin 2) (x : ShardEnt) (step : StepNo) (rank : Nat) (peer : Nat) (hs : s.Sound) : (State.excludeKid s u x step rank peer).Sound := by
  unfold State.excludeKid
  try dsimp only
  repeat' first
  | with_reducible assumption
  | with_reducible intro hc
  | with_reducible apply State.modClr_sound
  | with_reducible apply State.modRec_sound
  | with_reducible apply filter_le

theorem State.addContribution_sound (s : State) (u : Fin 2) (x : ShardEnt) (c : Contribution) (hs : s.Sound) : (State.addContribution s u x c).Sound := by
  unfold State.addContribution
  try dsimp only
  repeat' first
  | with_reducible assumption
  | with_reducible intro hc
  | with_reducible apply State.mark_sound
  | with_reducible apply State.addBands_sound
  | with_reducible apply State.excludeKid_sound
  | with_reducible refine State.addBands_sound_eq (by assumption) ?_
  | with_reducible refine snd_sound_of_eq (by assumption) ?_
  | with_reducible refine fst_sound_of_eq (by assumption) ?_
  | dsimp only
  | split

theorem State.arrival_sound (s : State) (u : Fin 2) (x : ShardEnt) (c : Contribution) (hs : s.Sound) : (State.arrival s u x c).Sound := by
  unfold State.arrival
  try dsimp only
  repeat' first
  | with_reducible assumption
  | with_reducible intro hc
  | with_reducible apply State.modClr_sound
  | with_reducible apply State.modRec_sound
  | with_reducible apply State.straggler_sound
  | with_reducible apply State.addContribution_sound
  | with_reducible refine State.addContribution_sound_eq (by assumption) ?_
  | with_reducible apply ite_sound
  | dsimp only
  | split

theorem State.clrAck_sound (s : State) (peer : Nat) (resend : Bool) (x : ShardEnt) (band : Nat) (hs : s.Sound) : (State.clrAck s peer resend x band).Sound := by
  unfold State.clrAck
  try dsimp only
  repeat' first
  | with_reducible exact hs
  | with_reducible apply State.sendMsgCtrl_sound

theorem State.clrFail_sound (s : State) (u : Fin 2) (x : ShardEnt) (rank : Nat) (b : ClearBlk) (hs : s.Sound) : (State.clrFail s u x rank b).Sound := by
  unfold State.clrFail
  try dsimp only
  repeat' first
  | with_reducible assumption
  | with_reducible intro hc
  | with_reducible apply State.modClr_sound
  | with_reducible apply State.excludeKid_sound
  | with_reducible apply State.clrAck_sound
  | with_reducible apply ite_sound
  | dsimp only
  | split

theorem State.bandIn_sound (s : State) (u : Fin 2) (b : ClearBlk) (rank : Nat) (key : EngineId × Nat × Nat) (data : Option (List Byte)) (hs : s.Sound) : (State.bandIn s u b rank key data).2.Sound := by
  unfold State.bandIn
  try dsimp only
  repeat' first
  | with_reducible assumption
  | with_reducible intro hc
  | with_reducible apply State.modClr_sound
  | with_reducible apply State.writePage_sound
  | with_reducible apply ite_sound
  | with_reducible apply ite_snd_sound
  | with_reducible apply ite_fst_sound
  | with_reducible refine snd_sound_of_eq (by assumption) ?_
  | with_reducible refine fst_sound_of_eq (by assumption) ?_
  | dsimp only
  | split

theorem State.bandIn_sound_eq {s : State} {u : Fin 2} {b : ClearBlk} {rank : Nat} {key : EngineId × Nat × Nat} {data : Option (List Byte)} {a0} {t : State} (hq : State.bandIn s u b rank key data = (a0, t)) (hs : s.Sound) : t.Sound := by
  have := State.bandIn_sound s u b rank key data hs; rw [hq] at this; exact this

theorem State.writeDown_sound (s : State) (u : Fin 2) (x : ShardEnt) (hs : s.Sound) : (State.writeDown s u x).Sound := by
  unfold State.writeDown
  try dsimp only
  repeat' first
  | with_reducible assumption
  | with_reducible intro hc
  | with_reducible apply State.putBand_sound
  | with_reducible apply foldl_sound
  | with_reducible apply foldl_fst_sound
  | with_reducible apply foldl_snd_sound
  | with_reducible refine snd_sound_of_eq (by assumption) ?_
  | with_reducible refine fst_sound_of_eq (by assumption) ?_
  | dsimp only
  | split

theorem State.sendBand_sound (s : State) (peer : Nat) (down : Bool) (x : ShardEnt) (step : StepNo) (h : HomeRec) (b : Nat) (zero : Bool) (data : List Byte) (hs : s.Sound) : (State.sendBand s peer down x step h b zero data).Sound := by
  unfold State.sendBand
  try dsimp only
  repeat' first
  | with_reducible assumption
  | with_reducible intro hc
  | with_reducible apply State.sendBlock_sound
  | with_reducible apply ite_sound
  | dsimp only
  | split

theorem State.bandsOut_sound (s : State) (u : Fin 2) (x : ShardEnt) (hs : s.Sound) : (State.bandsOut s u x).2.Sound := by
  unfold State.bandsOut
  try dsimp only
  repeat' first
  | with_reducible assumption
  | with_reducible intro hc
  | with_reducible apply State.mark_sound
  | with_reducible apply State.pagesIn_sound
  | with_reducible refine State.pagesIn_sound_eq (by assumption) ?_
  | with_reducible apply ite_sound
  | with_reducible apply ite_snd_sound
  | with_reducible apply ite_fst_sound
  | with_reducible apply filter_le
  | dsimp only
  | split

theorem State.bandsOut_sound_eq {s : State} {u : Fin 2} {x : ShardEnt} {a0} {t : State} (hq : State.bandsOut s u x = (a0, t)) (hs : s.Sound) : t.Sound := by
  have := State.bandsOut_sound s u x hs; rw [hq] at this; exact this

theorem State.sendBands_sound (s : State) (peer : Nat) (down : Bool) (x : ShardEnt) (hs : s.Sound) : (State.sendBands s peer down x).Sound := by
  unfold State.sendBands
  try dsimp only
  repeat' first
  | with_reducible assumption
  | with_reducible intro hc
  | with_reducible apply State.sendBand_sound
  | with_reducible apply foldl_sound

theorem State.gatherDown_sound (s : State) (u : Fin 2) (x : ShardEnt) (hs : s.Sound) : (State.gatherDown s u x).Sound := by
  unfold State.gatherDown
  try dsimp only
  repeat' first
  | with_reducible assumption
  | with_reducible intro hc
  | with_reducible apply State.modRec_sound
  | with_reducible apply State.bandsOut_sound
  | with_reducible apply State.sendBands_sound
  | with_reducible refine State.bandsOut_sound_eq (by assumption) ?_
  | with_reducible apply foldl_sound
  | with_reducible apply foldl_fst_sound
  | with_reducible apply foldl_snd_sound
  | with_reducible apply ite_sound
  | with_reducible apply filter_le
  | with_reducible refine snd_sound_of_eq (by assumption) ?_
  | with_reducible refine fst_sound_of_eq (by assumption) ?_
  | dsimp only
  | split

theorem State.bandUp_sound (s : State) (u : Fin 2) (x : ShardEnt) (b : ClearBlk) (rank : Nat) (key : EngineId × Nat × Nat) (data : Option (List Byte)) (hs : s.Sound) : (State.bandUp s u x b rank key data).Sound := by
  unfold State.bandUp
  try dsimp only
  repeat' first
  | with_reducible assumption
  | with_reducible intro hc
  | with_reducible apply State.modClr_sound
  | with_reducible apply State.complete_sound
  | with_reducible apply State.arrival_sound
  | with_reducible apply State.clrAck_sound
  | with_reducible apply State.clrFail_sound
  | with_reducible apply State.bandIn_sound
  | with_reducible refine State.arrival_sound_eq (by assumption) ?_
  | with_reducible refine State.bandIn_sound_eq (by assumption) ?_
  | with_reducible apply ite_sound
  | with_reducible refine snd_sound_of_eq (by assumption) ?_
  | with_reducible refine fst_sound_of_eq (by assumption) ?_
  | dsimp only
  | split

theorem State.bandDown_sound (s : State) (u : Fin 2) (x : ShardEnt) (b : ClearBlk) (key : EngineId × Nat × Nat) (data : Option (List Byte)) (hs : s.Sound) : (State.bandDown s u x b key data).Sound := by
  unfold State.bandDown
  try dsimp only
  repeat' first
  | with_reducible assumption
  | with_reducible intro hc
  | with_reducible apply State.modRec_sound
  | with_reducible apply State.clrAck_sound
  | with_reducible apply State.writeDown_sound
  | with_reducible apply State.gatherDown_sound
  | with_reducible refine State.gatherDown_sound_eq (by assumption) ?_
  | with_reducible apply ite_sound
  | dsimp only
  | split

theorem clearData_sound (b : ClearBlk) (s : State) (hs : s.Sound) : (clearData b s).Sound := by
  unfold clearData
  try dsimp only
  repeat' first
  | with_reducible assumption
  | with_reducible intro hc
  | with_reducible apply State.setErr_sound
  | with_reducible apply State.post_sound
  | with_reducible apply State.dropUnadmitted_sound
  | with_reducible apply State.openBlock_sound
  | with_reducible apply State.dropStale_sound
  | with_reducible apply State.clrAck_sound
  | with_reducible apply State.clrFail_sound
  | with_reducible apply State.bandUp_sound
  | with_reducible apply State.bandDown_sound
  | with_reducible refine State.openBlock_sound_eq (by assumption) ?_
  | with_reducible refine State.bandUp_sound_eq (by assumption) ?_
  | with_reducible refine State.bandDown_sound_eq (by assumption) ?_
  | with_reducible apply ite_sound
  | (rw [Vector.getElem_map])
  | with_reducible refine snd_sound_of_eq (by assumption) ?_
  | with_reducible refine fst_sound_of_eq (by assumption) ?_
  | dsimp only
  | split

theorem execClearData_sound (b : ClearBlk) (s : State) (hs : s.Sound) : Res.Sound (execClearData b s) := by
  unfold execClearData
  try dsimp only
  repeat' first
  | with_reducible assumption
  | with_reducible intro hc
  | with_reducible refine Res.next_sound ?_
  | with_reducible apply State.settle_sound
  | with_reducible apply clearData_sound
  | with_reducible refine clearData_sound_eq (by assumption) ?_
  | exact trivial

theorem State.sendUp_sound (s : State) (u : Fin 2) (x : ShardEnt) (parent : Nat) (hs : s.Sound) : (State.sendUp s u x parent).Sound := by
  unfold State.sendUp
  try dsimp only
  repeat' first
  | with_reducible assumption
  | with_reducible intro hc
  | with_reducible apply State.modClr_sound
  | with_reducible apply State.replayDiffers_sound
  | with_reducible apply State.modRec_sound
  | with_reducible apply State.sendBands_sound
  | with_reducible apply ite_sound
  | (rw [Vector.getElem_map])
  | dsimp only
  | split

theorem State.foldHomes_sound (s : State) (u : Fin 2) (x : ShardEnt) (hs : s.Sound) : (State.foldHomes s u x).Sound := by
  unfold State.foldHomes
  try dsimp only
  repeat' first
  | with_reducible assumption
  | with_reducible intro hc
  | with_reducible apply State.homeBand_sound
  | with_reducible apply State.bandsOut_sound
  | with_reducible refine State.bandsOut_sound_eq (by assumption) ?_
  | with_reducible apply foldl_sound
  | with_reducible apply foldl_fst_sound
  | with_reducible apply foldl_snd_sound
  | with_reducible apply ite_sound
  | with_reducible apply filter_le
  | with_reducible refine snd_sound_of_eq (by assumption) ?_
  | with_reducible refine fst_sound_of_eq (by assumption) ?_
  | dsimp only
  | split

theorem State.afterClose_sound (s : State) (u : Fin 2) (x : ShardEnt) (hs : s.Sound) : (State.afterClose s u x).Sound := by
  unfold State.afterClose
  try dsimp only
  repeat' first
  | with_reducible assumption
  | with_reducible intro hc
  | with_reducible apply State.modRec_sound
  | with_reducible apply State.writeDown_sound
  | with_reducible apply State.bandsOut_sound
  | with_reducible apply State.sendUp_sound
  | with_reducible apply State.foldHomes_sound
  | with_reducible refine State.bandsOut_sound_eq (by assumption) ?_
  | with_reducible refine State.foldHomes_sound_eq (by assumption) ?_
  | with_reducible apply ite_sound
  | with_reducible refine snd_sound_of_eq (by assumption) ?_
  | with_reducible refine fst_sound_of_eq (by assumption) ?_
  | dsimp only
  | split

theorem State.addCarry_sound (s : State) (u : Fin 2) (x : ShardEnt) (c : Contribution) (hs : s.Sound) : (State.addCarry s u x c).Sound := by
  unfold State.addCarry
  try dsimp only
  repeat' first
  | with_reducible assumption
  | with_reducible intro hc
  | with_reducible apply State.mark_sound
  | with_reducible apply State.modRec_sound
  | with_reducible apply State.addBands_sound
  | with_reducible apply State.dropStale_sound
  | with_reducible refine State.addBands_sound_eq (by assumption) ?_
  | with_reducible refine snd_sound_of_eq (by assumption) ?_
  | with_reducible refine fst_sound_of_eq (by assumption) ?_
  | dsimp only
  | split

theorem State.closeWindow_sound (s : State) (u : Fin 2) (x : ShardEnt) (hs : s.Sound) : (State.closeWindow s u x).Sound := by
  unfold State.closeWindow
  try dsimp only
  repeat' first
  | with_reducible assumption
  | with_reducible intro hc
  | with_reducible apply State.modClr_sound
  | with_reducible apply State.modRec_sound
  | with_reducible apply State.dropStale_sound
  | with_reducible apply State.afterClose_sound
  | with_reducible apply State.addCarry_sound
  | with_reducible refine State.afterClose_sound_eq (by assumption) ?_
  | with_reducible refine State.addCarry_sound_eq (by assumption) ?_
  | with_reducible apply foldl_sound
  | with_reducible apply foldl_fst_sound
  | with_reducible apply foldl_snd_sound
  | with_reducible apply filter_le

theorem State.addCarryAgain_sound (s : State) (u : Fin 2) (x : ShardEnt) (c : Contribution) (hs : s.Sound) : (State.addCarryAgain s u x c).Sound := by
  unfold State.addCarryAgain
  try dsimp only
  repeat' first
  | with_reducible assumption
  | with_reducible intro hc
  | with_reducible apply State.mark_sound
  | with_reducible apply State.modRec_sound
  | with_reducible apply State.addBands_sound
  | with_reducible refine State.addBands_sound_eq (by assumption) ?_
  | with_reducible refine snd_sound_of_eq (by assumption) ?_
  | with_reducible refine fst_sound_of_eq (by assumption) ?_
  | dsimp only
  | split

theorem State.handShard_sound (s : State) (x : ShardEnt) (hs : s.Sound) : (State.handShard s x).Sound := by
  unfold State.handShard
  try dsimp only
  repeat' first
  | with_reducible assumption
  | with_reducible intro hc
  | with_reducible apply State.deed_sound
  | with_reducible apply State.modRec_sound
  | with_reducible apply State.addContribution_sound
  | with_reducible apply State.afterClose_sound
  | with_reducible apply State.addCarryAgain_sound
  | with_reducible refine State.addContribution_sound_eq (by assumption) ?_
  | with_reducible refine State.afterClose_sound_eq (by assumption) ?_
  | with_reducible refine State.addCarryAgain_sound_eq (by assumption) ?_
  | with_reducible apply foldl_sound
  | with_reducible apply foldl_fst_sound
  | with_reducible apply foldl_snd_sound
  | with_reducible apply ite_sound
  | with_reducible refine snd_sound_of_eq (by assumption) ?_
  | with_reducible refine fst_sound_of_eq (by assumption) ?_
  | dsimp only
  | split

theorem State.bandAcked_sound (s : State) (peer : Nat) (h : BitVec 24) (hs : s.Sound) : (State.bandAcked s peer h).Sound := by
  unfold State.bandAcked
  try dsimp only
  repeat' first
  | with_reducible assumption
  | with_reducible intro hc
  | with_reducible apply State.dropUnadmitted_sound
  | with_reducible apply State.modRec_sound
  | with_reducible apply ite_sound
  | split

theorem State.bandResend_sound (s : State) (peer : Nat) (h : BitVec 24) (band : Nat) (hs : s.Sound) : (State.bandResend s peer h band).Sound := by
  unfold State.bandResend
  try dsimp only
  repeat' first
  | with_reducible assumption
  | with_reducible intro hc
  | with_reducible apply State.dropUnadmitted_sound
  | with_reducible apply State.sendBand_sound
  | with_reducible apply State.bandsOut_sound
  | with_reducible refine State.bandsOut_sound_eq (by assumption) ?_
  | with_reducible apply ite_sound
  | with_reducible refine snd_sound_of_eq (by assumption) ?_
  | with_reducible refine fst_sound_of_eq (by assumption) ?_
  | dsimp only
  | split

theorem State.clearHandoff_sound (s : State) (e : EngineId) (group : Nat) (hs : s.Sound) : (State.clearHandoff s e group).Sound := by
  unfold State.clearHandoff
  try dsimp only
  repeat' first
  | with_reducible exact hs
  | with_reducible apply State.handShard_sound
  | with_reducible apply foldl_sound

theorem clearWindowClose_sound (u : Fin 2) (why : WindowClose) (s : State) (hs : s.Sound) : (clearWindowClose u why s).Sound := by
  unfold clearWindowClose
  try dsimp only
  repeat' first
  | with_reducible exact hs
  | with_reducible apply State.closeWindow_sound
  | split

theorem execClearWindowClose_sound (u : Fin 2) (why : WindowClose) (s : State) (hs : s.Sound) : Res.Sound (execClearWindowClose u why s) := by
  unfold execClearWindowClose
  try dsimp only
  repeat' first
  | with_reducible assumption
  | with_reducible intro hc
  | with_reducible refine Res.next_sound ?_
  | with_reducible apply State.settle_sound
  | with_reducible apply clearWindowClose_sound
  | exact trivial

theorem State.clrDone_sound (s : State) (u : Fin 2) (x : ShardEnt) (st : Status) (hs : s.Sound) : (State.clrDone s u x st).Sound := by
  unfold State.clrDone
  try dsimp only
  repeat' first
  | with_reducible assumption
  | with_reducible intro hc
  | with_reducible apply State.modClr_sound
  | with_reducible apply State.modRec_sound

theorem clearingComplete_sound (u : Fin 2) (shard : BitVec 24) (s : State) (hs : s.Sound) : (clearingComplete u shard s).Sound := by
  unfold clearingComplete
  try dsimp only
  repeat' first
  | with_reducible assumption
  | with_reducible intro hc
  | with_reducible apply State.complete_sound
  | with_reducible apply State.modRec_sound
  | with_reducible apply State.gatherDown_sound
  | with_reducible apply State.afterClose_sound
  | with_reducible apply State.clrDone_sound
  | with_reducible refine State.gatherDown_sound_eq (by assumption) ?_
  | with_reducible refine State.afterClose_sound_eq (by assumption) ?_
  | with_reducible apply ite_sound
  | with_reducible refine snd_sound_of_eq (by assumption) ?_
  | with_reducible refine fst_sound_of_eq (by assumption) ?_
  | dsimp only
  | split

theorem execClearingComplete_sound (u : Fin 2) (shard : BitVec 24) (s : State) (hs : s.Sound) : Res.Sound (execClearingComplete u shard s) := by
  unfold execClearingComplete
  try dsimp only
  repeat' first
  | with_reducible exact hs
  | with_reducible refine Res.next_sound ?_
  | with_reducible apply clearingComplete_sound

theorem State.clrPeerLost_sound (s : State) (peer : Nat) (hs : s.Sound) : (State.clrPeerLost s peer).Sound := by
  unfold State.clrPeerLost
  try dsimp only
  repeat' first
  | with_reducible assumption
  | with_reducible intro hc
  | with_reducible apply State.excludeKid_sound
  | with_reducible apply foldl_sound
  | with_reducible apply foldl_fst_sound
  | with_reducible apply foldl_snd_sound
  | with_reducible apply ite_sound
  | with_reducible apply filter_le
  | with_reducible refine snd_sound_of_eq (by assumption) ?_
  | with_reducible refine fst_sound_of_eq (by assumption) ?_
  | dsimp only
  | split

theorem State.clrBoundary_sound (s : State) (step : StepNo) (skipped : Bool) (hs : s.Sound) : (State.clrBoundary s step skipped).Sound := by
  unfold State.clrBoundary
  try dsimp only
  repeat' first
  | with_reducible assumption
  | with_reducible intro hc
  | with_reducible apply State.modClr_sound
  | with_reducible apply State.complete_sound
  | with_reducible apply State.dropStale_sound
  | with_reducible apply foldl_sound
  | with_reducible apply foldl_fst_sound
  | with_reducible apply foldl_snd_sound
  | with_reducible apply filter_le
  | with_reducible refine snd_sound_of_eq (by assumption) ?_
  | with_reducible refine fst_sound_of_eq (by assumption) ?_
  | dsimp only
  | split

theorem State.clrStart_sound (s : State) (hs : s.Sound) : (State.clrStart s).Sound := by
  unfold State.clrStart
  try dsimp only
  repeat' first
  | with_reducible assumption
  | with_reducible intro hc
  | with_reducible apply State.modClr_sound
  | with_reducible apply State.complete_sound
  | with_reducible apply State.dropStale_sound
  | with_reducible apply foldl_sound
  | with_reducible apply foldl_fst_sound
  | with_reducible apply foldl_snd_sound
  | with_reducible apply ite_sound
  | with_reducible apply filter_le
  | with_reducible refine snd_sound_of_eq (by assumption) ?_
  | with_reducible refine fst_sound_of_eq (by assumption) ?_
  | dsimp only
  | split

end Sys2Proof.Machine
end

