-- ==== Sys2Proof/Laws/SoundSched.lean ====
section
/-! SUPPORT. What the operations and meanings of Machine/Sched keep of a sound state. -/

namespace Sys2Proof.Machine

theorem State.rowOk_sound (s : State) (e : EngineId) (r : SchedRow) (hs : s.Sound) : (State.rowOk s e r).Sound := by
  unfold State.rowOk
  try dsimp only
  repeat' first
  | with_reducible exact hs
  | with_reducible apply State.modSeq_sound

theorem State.rowStop_sound (s : State) (e : EngineId) (st : Status) (hs : s.Sound) : (State.rowStop s e st).Sound := by
  unfold State.rowStop
  try dsimp only
  repeat' first
  | with_reducible exact hs
  | with_reducible apply State.modSeq_sound

theorem State.rowFail_sound (s : State) (e : EngineId) (st : Status) (mb : W16) (peer : Nat) (hs : s.Sound) : (State.rowFail s e st mb peer).Sound := by
  unfold State.rowFail
  try dsimp only
  repeat' first
  | with_reducible assumption
  | with_reducible intro hc
  | with_reducible apply State.raise_sound
  | with_reducible apply State.rowStop_sound

theorem State.rowMark_sound (s : State) (e : EngineId) (st : Status) (hs : s.Sound) : (State.rowMark s e st).Sound := by
  unfold State.rowMark
  try dsimp only
  repeat' first
  | with_reducible exact hs
  | with_reducible apply State.rowStop_sound
  | with_reducible apply State.mark_sound

theorem State.setWait_sound (s : State) (e : EngineId) (n : Nat) (hs : s.Sound) : (State.setWait s e n).Sound := by
  unfold State.setWait
  try dsimp only
  repeat' first
  | with_reducible exact hs
  | with_reducible apply State.modSeq_sound

theorem nopRow_sound (e : EngineId) (s : State) (hs : s.Sound) : (nopRow e s).Sound := by
  unfold nopRow
  try dsimp only
  repeat' first
  | with_reducible exact hs
  | with_reducible apply State.rowOk_sound
  | split

theorem execNop_sound (e : EngineId) (s : State) (hs : s.Sound) : Res.Sound (execNop e s) := by
  unfold execNop
  try dsimp only
  repeat' first
  | with_reducible exact hs
  | with_reducible refine Res.next_sound ?_
  | with_reducible apply nopRow_sound

theorem setRow_sound (e : EngineId) (s : State) (hs : s.Sound) : (setRow e s).Sound := by
  unfold setRow
  try dsimp only
  repeat' first
  | with_reducible exact hs
  | with_reducible apply State.modSeq_sound
  | with_reducible apply State.rowOk_sound
  | split

theorem execSet_sound (e : EngineId) (s : State) (hs : s.Sound) : Res.Sound (execSet e s) := by
  unfold execSet
  try dsimp only
  repeat' first
  | with_reducible exact hs
  | with_reducible refine Res.next_sound ?_
  | with_reducible apply setRow_sound

theorem addRow_sound (e : EngineId) (s : State) (hs : s.Sound) : (addRow e s).Sound := by
  unfold addRow
  try dsimp only
  repeat' first
  | with_reducible exact hs
  | with_reducible apply State.modSeq_sound
  | with_reducible apply State.rowOk_sound
  | split

theorem execAdd_sound (e : EngineId) (s : State) (hs : s.Sound) : Res.Sound (execAdd e s) := by
  unfold execAdd
  try dsimp only
  repeat' first
  | with_reducible exact hs
  | with_reducible refine Res.next_sound ?_
  | with_reducible apply addRow_sound

theorem State.untag_sound (s : State) (e : EngineId) (r : Nat × Nat) (hs : s.Sound) : (State.untag s e r).Sound := by
  unfold State.untag
  try dsimp only
  repeat' first
  | with_reducible assumption
  | with_reducible apply State.modLed_sound

theorem State.loadLayer_sound (s : State) (e : EngineId) (ch : ChanId) (mb : W16) (l : Nat) (d : LayerDesc) (p : ParamRec) (i : Nat) (hs : s.Sound) : (State.loadLayer s e ch mb l d p i).2.Sound := by
  unfold State.loadLayer
  try dsimp only
  repeat' first
  | with_reducible assumption
  | with_reducible intro hc
  | with_reducible apply State.modLed_sound
  | with_reducible apply Engine.putStore_sound
  | with_reducible apply State.putStore_sound
  | with_reducible apply State.fetchPage_sound
  | with_reducible apply State.readMap_sound
  | with_reducible apply State.untag_sound
  | with_reducible refine State.fetchPage_sound_eq (by assumption) ?_
  | with_reducible refine State.readMap_sound_eq (by assumption) ?_
  | with_reducible apply foldl_sound
  | with_reducible apply foldl_fst_sound
  | with_reducible apply foldl_snd_sound
  | with_reducible apply foldl_mem_wf
  | with_reducible apply foldl_memf_wf
  | with_reducible refine snd_sound_of_eq (by assumption) ?_
  | with_reducible refine fst_sound_of_eq (by assumption) ?_
  | dsimp only
  | split

theorem State.loadLayer_sound_eq {s : State} {e : EngineId} {ch : ChanId} {mb : W16} {l : Nat} {d : LayerDesc} {p : ParamRec} {i : Nat} {a0} {t : State} (hq : State.loadLayer s e ch mb l d p i = (a0, t)) (hs : s.Sound) : t.Sound := by
  have := State.loadLayer_sound s e ch mb l d p i hs; rw [hq] at this; exact this

theorem State.runLoads_sound (s : State) (e : EngineId) (nn : List (Nat × Nat)) (hs : s.Sound) : (State.runLoads s e nn).Sound := by
  induction nn generalizing s e with
  | nil =>
      unfold State.runLoads
      try dsimp only
      repeat' first
      | with_reducible assumption
      | with_reducible intro hc
      | with_reducible apply IH
      | with_reducible apply State.modLed_sound
      | with_reducible apply State.loadLayer_sound
      | with_reducible refine State.loadLayer_sound_eq (by assumption) ?_
      | with_reducible apply ite_sound
      | with_reducible refine snd_sound_of_eq (by assumption) ?_
      | with_reducible refine fst_sound_of_eq (by assumption) ?_
      | dsimp only
      | split
  | cons x l IH =>
      unfold State.runLoads
      try dsimp only
      repeat' first
      | with_reducible assumption
      | with_reducible intro hc
      | with_reducible apply IH
      | with_reducible apply State.modLed_sound
      | with_reducible apply State.loadLayer_sound
      | with_reducible refine State.loadLayer_sound_eq (by assumption) ?_
      | with_reducible apply ite_sound
      | with_reducible refine snd_sound_of_eq (by assumption) ?_
      | with_reducible refine fst_sound_of_eq (by assumption) ?_
      | dsimp only
      | split

theorem State.loadsDue_sound (s : State) (e : EngineId) (hs : s.Sound) : (State.loadsDue s e).Sound := by
  unfold State.loadsDue
  try dsimp only
  repeat' first
  | with_reducible assumption
  | with_reducible intro hc
  | with_reducible apply State.modChan_sound
  | with_reducible apply State.runLoads_sound
  | with_reducible refine State.runLoads_sound_eq (by assumption) ?_

theorem prefetchRow_sound (e : EngineId) (s : State) (hs : s.Sound) : (prefetchRow e s).Sound := by
  unfold prefetchRow
  try dsimp only
  repeat' first
  | with_reducible assumption
  | with_reducible intro hc
  | with_reducible apply State.modLed_sound
  | with_reducible apply State.rowOk_sound
  | with_reducible apply State.rowFail_sound
  | with_reducible apply State.loadsDue_sound
  | with_reducible refine State.loadsDue_sound_eq (by assumption) ?_
  | with_reducible refine snd_sound_of_eq (by assumption) ?_
  | with_reducible refine fst_sound_of_eq (by assumption) ?_
  | dsimp only
  | split

theorem execPrefetch_sound (e : EngineId) (s : State) (hs : s.Sound) : Res.Sound (execPrefetch e s) := by
  unfold execPrefetch
  try dsimp only
  repeat' first
  | with_reducible exact hs
  | with_reducible refine Res.next_sound ?_
  | with_reducible apply prefetchRow_sound

theorem State.lookAhead_sound (s : State) (e : EngineId) (r : SchedRow) (hs : s.Sound) : (State.lookAhead s e r).Sound := by
  unfold State.lookAhead
  try dsimp only
  repeat' first
  | with_reducible assumption
  | with_reducible intro hc
  | with_reducible apply State.modLed_sound
  | with_reducible apply State.loadLayer_sound
  | with_reducible refine State.loadLayer_sound_eq (by assumption) ?_
  | with_reducible apply ite_sound
  | (rw [Vector.getElem_map])
  | with_reducible refine snd_sound_of_eq (by assumption) ?_
  | with_reducible refine fst_sound_of_eq (by assumption) ?_
  | dsimp only
  | split

theorem State.waitIn_sound (s : State) (e : EngineId) (r : SchedRow) (code : Nat) (hs : s.Sound) : (State.waitIn s e r code).Sound := by
  unfold State.waitIn
  try dsimp only
  repeat' first
  | with_reducible exact hs
  | with_reducible intro hc
  | with_reducible apply ite_sound
  | with_reducible apply State.setWait_sound
  | with_reducible apply State.lookAhead_sound

theorem State.countRecv_sound (s : State) (e : EngineId) (n : Nat) (hs : s.Sound) : (State.countRecv s e n).Sound := by
  unfold State.countRecv
  try dsimp only
  repeat' first
  | with_reducible exact hs
  | with_reducible intro hc
  | with_reducible apply State.modEng_sound
  | (with_reducible refine Engine.Sound.mk ?_ ?_ ?_ ?_ ?_ <;> dsimp only)
  | (have hq := ‹Engine.Sound _›; with_reducible exact hq.store)
  | (have hq := ‹Engine.Sound _›; with_reducible exact hq.acc)
  | (have hq := ‹Engine.Sound _›; with_reducible exact hq.chk)
  | (have hq := ‹Engine.Sound _›; with_reducible exact hq.vr)
  | (have hq := ‹Engine.Sound _›; with_reducible exact hq.queue)
  | split

theorem State.modFloat_sound (s : State) (e : EngineId) (mb : W16) (f : FloatEntry → FloatEntry) (hs : s.Sound) : (State.modFloat s e mb f).Sound := by
  unfold State.modFloat
  try dsimp only
  repeat' first
  | with_reducible exact hs
  | with_reducible intro hc
  | with_reducible apply State.modEng_sound
  | (with_reducible refine Engine.Sound.mk ?_ ?_ ?_ ?_ ?_ <;> dsimp only)
  | (have hq := ‹Engine.Sound _›; with_reducible exact hq.store)
  | (have hq := ‹Engine.Sound _›; with_reducible exact hq.acc)
  | (have hq := ‹Engine.Sound _›; with_reducible exact hq.chk)
  | (have hq := ‹Engine.Sound _›; with_reducible exact hq.vr)
  | (have hq := ‹Engine.Sound _›; with_reducible exact hq.queue)

theorem State.claim_sound (s : State) (e : EngineId) (c : TillEnd) (m : MsgIn) (mb : W16) (hs : s.Sound) : (State.claim s e c m mb).Sound := by
  unfold State.claim
  try dsimp only
  repeat' first
  | with_reducible exact hs
  | with_reducible intro hc
  | with_reducible apply ite_sound
  | with_reducible apply State.modT_sound
  | with_reducible apply State.modEng_sound
  | with_reducible apply State.modFloat_sound
  | (with_reducible refine Engine.Sound.mk ?_ ?_ ?_ ?_ ?_ <;> dsimp only)
  | (have hq := ‹Engine.Sound _›; with_reducible exact hq.store)
  | (have hq := ‹Engine.Sound _›; with_reducible exact hq.acc)
  | (have hq := ‹Engine.Sound _›; with_reducible exact hq.chk)
  | (have hq := ‹Engine.Sound _›; with_reducible exact hq.vr)
  | (have hq := ‹Engine.Sound _›; with_reducible exact hq.queue)

theorem recvRow_sound (e : EngineId) (waited : Nat) (s : State) (hs : s.Sound) : (recvRow e waited s).Sound := by
  unfold recvRow
  try dsimp only
  repeat' first
  | with_reducible assumption
  | with_reducible intro hc
  | with_reducible apply State.modT_sound
  | with_reducible apply State.rowOk_sound
  | with_reducible apply State.rowFail_sound
  | with_reducible apply State.loadsDue_sound
  | with_reducible apply State.waitIn_sound
  | with_reducible apply State.countRecv_sound
  | with_reducible apply State.claim_sound
  | with_reducible apply ite_sound
  | split

theorem execRecv_sound (e : EngineId) (waited : Nat) (s : State) (hs : s.Sound) : Res.Sound (execRecv e waited s) := by
  unfold execRecv
  try dsimp only
  repeat' first
  | with_reducible exact hs
  | with_reducible refine Res.next_sound ?_
  | with_reducible apply recvRow_sound

theorem State.countSend_sound (s : State) (e : EngineId) (t n : Nat) (hs : s.Sound) : (State.countSend s e t n).Sound := by
  unfold State.countSend
  try dsimp only
  repeat' first
  | with_reducible exact hs
  | with_reducible intro hc
  | with_reducible apply State.modEng_sound
  | with_reducible apply State.modT_sound
  | (with_reducible refine Engine.Sound.mk ?_ ?_ ?_ ?_ ?_ <;> dsimp only)
  | (have hq := ‹Engine.Sound _›; with_reducible exact hq.store)
  | (have hq := ‹Engine.Sound _›; with_reducible exact hq.acc)
  | (have hq := ‹Engine.Sound _›; with_reducible exact hq.chk)
  | (have hq := ‹Engine.Sound _›; with_reducible exact hq.vr)
  | (have hq := ‹Engine.Sound _›; with_reducible exact hq.queue)

theorem State.sourceUe_sound (s : State) (e : EngineId) (ws : List (Fin 4 × Nat)) (mb : W16) (hs : s.Sound) : (State.sourceUe s e ws mb).Sound := by
  unfold State.sourceUe
  try dsimp only
  repeat' first
  | with_reducible assumption
  | with_reducible apply State.sramUe_sound
  | with_reducible apply State.rowMark_sound

theorem State.sendAgain_sound (s : State) (e : EngineId) (c : TillEnd) (o : MsgOut) (f : FloatEntry) (r : SchedRow) (ws : List (Fin 4 × Nat)) (fails : List (Nat × Nat)) (hs : s.Sound) : (State.sendAgain s e c o f r ws fails).Sound := by
  unfold State.sendAgain
  try dsimp only
  repeat' first
  | with_reducible assumption
  | with_reducible intro hc
  | with_reducible apply State.exitFloat_sound
  | with_reducible apply State.modOut_sound
  | with_reducible apply State.sendMsg_sound
  | with_reducible apply State.replayDiffers_sound
  | with_reducible apply State.rowOk_sound
  | with_reducible apply State.rowMark_sound
  | with_reducible apply State.sourceUe_sound
  | with_reducible apply ite_sound
  | with_reducible apply ite_eng_sound
  | dsimp only
  | split

theorem sendRow_sound (e : EngineId) (waited : Nat) (sram : SramRead) (fails : List (Nat × Nat)) (s : State) (hs : s.Sound) : (sendRow e waited sram fails s).Sound := by
  unfold sendRow
  try dsimp only
  repeat' first
  | with_reducible assumption
  | with_reducible intro hc
  | with_reducible apply State.sramCe_sound
  | with_reducible apply State.modT_sound
  | with_reducible apply State.sendNew_sound
  | with_reducible apply State.rowOk_sound
  | with_reducible apply State.rowFail_sound
  | with_reducible apply State.loadsDue_sound
  | with_reducible apply State.waitIn_sound
  | with_reducible apply State.modFloat_sound
  | with_reducible apply State.countSend_sound
  | with_reducible apply State.sourceUe_sound
  | with_reducible apply State.sendAgain_sound
  | with_reducible refine State.loadsDue_sound_eq (by assumption) ?_
  | with_reducible apply ite_sound
  | with_reducible refine snd_sound_of_eq (by assumption) ?_
  | with_reducible refine fst_sound_of_eq (by assumption) ?_
  | dsimp only
  | split

theorem execSend_sound (e : EngineId) (waited : Nat) (sram : SramRead) (fails : List (Nat × Nat)) (s : State) (hs : s.Sound) : Res.Sound (execSend e waited sram fails s) := by
  unfold execSend
  try dsimp only
  repeat' first
  | with_reducible assumption
  | with_reducible intro hc
  | with_reducible refine Res.next_sound ?_
  | with_reducible apply sendRow_sound
  | with_reducible refine sendRow_sound_eq (by assumption) ?_
  | exact trivial

theorem overdraftTimeout_sound (e : EngineId) (s : State) (hs : s.Sound) : (overdraftTimeout e s).Sound := by
  unfold overdraftTimeout
  try dsimp only
  repeat' first
  | with_reducible exact hs
  | with_reducible apply State.modT_sound
  | with_reducible apply State.modFloat_sound
  | with_reducible apply State.rowFail_sound
  | split

theorem execOverdraftTimeout_sound (e : EngineId) (s : State) (hs : s.Sound) : Res.Sound (execOverdraftTimeout e s) := by
  unfold execOverdraftTimeout
  try dsimp only
  repeat' first
  | with_reducible exact hs
  | with_reducible refine Res.next_sound ?_
  | with_reducible apply overdraftTimeout_sound

theorem State.writeConst_sound (s : State) (e : EngineId) (f : FloatEntry) (hs : s.Sound) : ∀ t, State.writeConst s e f = some t → t.Sound := by
  unfold State.writeConst
  intro t ht
  try dsimp only at ht
  repeat' first
  | with_reducible assumption
  | with_reducible apply State.putStore_sound
  | (rw [Option.some.injEq] at ht; subst ht)
  | (simp only [reduceCtorEq] at ht)
  | split at ht

theorem State.writeConst_sound_eq {s : State} {e : EngineId} {f : FloatEntry} {t : State} (hq : State.writeConst s e f = some t) (hs : s.Sound) : t.Sound :=
  State.writeConst_sound s e f hs t hq

theorem State.reloadMsg_sound (s : State) (e : EngineId) (c : TillEnd) (m : MsgIn) (hs : s.Sound) : (State.reloadMsg s e c m).2.Sound := by
  unfold State.reloadMsg
  try dsimp only
  repeat' first
  | with_reducible assumption
  | with_reducible intro hc
  | with_reducible refine Res.next_sound ?_
  | with_reducible apply Engine.putStore_sound
  | with_reducible apply State.putStore_sound
  | with_reducible apply State.freeSlot_sound
  | with_reducible apply State.fetchPage_sound
  | with_reducible apply State.modT_sound
  | with_reducible apply State.askResend_sound
  | with_reducible apply State.setWait_sound
  | with_reducible refine State.fetchPage_sound_eq (by assumption) ?_
  | with_reducible apply foldl_sound
  | with_reducible apply foldl_fst_sound
  | with_reducible apply foldl_snd_sound
  | with_reducible apply foldl_mem_wf
  | with_reducible apply foldl_memf_wf
  | with_reducible apply ite_sound
  | with_reducible apply ite_snd_sound
  | with_reducible apply ite_fst_sound
  | with_reducible refine snd_sound_of_eq (by assumption) ?_
  | with_reducible refine fst_sound_of_eq (by assumption) ?_
  | dsimp only
  | split

theorem State.reloadMsg_sound_eq {s : State} {e : EngineId} {c : TillEnd} {m : MsgIn} {a0} {t : State} (hq : State.reloadMsg s e c m = (a0, t)) (hs : s.Sound) : t.Sound := by
  have := State.reloadMsg_sound s e c m hs; rw [hq] at this; exact this

theorem State.reloadAll_sound (s : State) (e : EngineId) (mb : W16) (nn : List (TillEnd × MsgIn)) (hs : s.Sound) : (State.reloadAll s e mb nn).2.Sound := by
  induction nn generalizing s e mb with
  | nil =>
      unfold State.reloadAll
      try dsimp only
      repeat' first
      | with_reducible assumption
      | with_reducible intro hc
      | with_reducible apply IH
      | with_reducible apply State.raise_sound
      | with_reducible apply State.rowFail_sound
      | with_reducible apply State.rowMark_sound
      | with_reducible apply State.reloadMsg_sound
      | with_reducible refine State.reloadMsg_sound_eq (by assumption) ?_
      | with_reducible refine snd_sound_of_eq (by assumption) ?_
      | with_reducible refine fst_sound_of_eq (by assumption) ?_
      | dsimp only
      | split
  | cons x l IH =>
      unfold State.reloadAll
      try dsimp only
      repeat' first
      | with_reducible assumption
      | with_reducible intro hc
      | with_reducible apply IH
      | with_reducible apply State.raise_sound
      | with_reducible apply State.rowFail_sound
      | with_reducible apply State.rowMark_sound
      | with_reducible apply State.reloadMsg_sound
      | with_reducible refine State.reloadMsg_sound_eq (by assumption) ?_
      | with_reducible refine snd_sound_of_eq (by assumption) ?_
      | with_reducible refine fst_sound_of_eq (by assumption) ?_
      | dsimp only
      | split

theorem State.reloadAll_sound_eq {s : State} {e : EngineId} {mb : W16} {nn : List (TillEnd × MsgIn)} {a0} {t : State} (hq : State.reloadAll s e mb nn = (a0, t)) (hs : s.Sound) : t.Sound := by
  have := State.reloadAll_sound s e mb nn hs; rw [hq] at this; exact this

theorem State.recordUse_sound (s : State) (e : EngineId) (mb : W16) (h : BitVec 24) (i : Nat) (stale : Bool) (hs : s.Sound) : (State.recordUse s e mb h i stale).2.Sound := by
  unfold State.recordUse
  try dsimp only
  repeat' first
  | with_reducible exact hs
  | with_reducible intro hc
  | with_reducible apply ite_sound
  | with_reducible apply State.modFloat_sound
  | with_reducible apply State.modEntry_sound
  | with_reducible apply State.modLed_sound

theorem State.recordUse_sound_eq {s : State} {e : EngineId} {mb : W16} {h : BitVec 24} {i : Nat} {stale : Bool} {a0} {t : State} (hq : State.recordUse s e mb h i stale = (a0, t)) (hs : s.Sound) : t.Sound := by
  have := State.recordUse_sound s e mb h i stale hs; rw [hq] at this; exact this

theorem State.useVersion_sound (s : State) (e : EngineId) (p : Pass) (d : LayerDesc) (hs : s.Sound) : (State.useVersion s e p d).2.Sound := by
  unfold State.useVersion
  try dsimp only
  repeat' first
  | with_reducible assumption
  | with_reducible intro hc
  | with_reducible apply State.promoteEntry_sound
  | with_reducible apply State.recordUse_sound
  | with_reducible apply ite_sound
  | with_reducible apply ite_snd_sound
  | split

theorem State.useVersion_sound_eq {s : State} {e : EngineId} {p : Pass} {d : LayerDesc} {a0} {t : State} (hq : State.useVersion s e p d = (a0, t)) (hs : s.Sound) : t.Sound := by
  have := State.useVersion_sound s e p d hs; rw [hq] at this; exact this

theorem State.versionWaits_sound (s : State) (e : EngineId) (hs : s.Sound) : (State.versionWaits s e).Sound := by
  unfold State.versionWaits
  try dsimp only
  repeat' first
  | with_reducible assumption
  | with_reducible intro hc
  | with_reducible apply State.modLed_sound
  | with_reducible apply State.setWait_sound
  | with_reducible apply ite_sound

theorem State.finishPass_sound (s : State) (e : EngineId) (r : SchedRow) (p : Pass) (hs : s.Sound) : (State.finishPass s e r p).Sound := by
  unfold State.finishPass
  try dsimp only
  repeat' first
  | with_reducible assumption
  | with_reducible intro hc
  | with_reducible apply State.dropSlot_sound
  | with_reducible apply State.exitFloat_sound
  | with_reducible apply State.rowOk_sound
  | with_reducible apply foldl_sound
  | split

theorem State.makeResident_sound (s : State) (e : EngineId) (mb : W16) (l : Nat) (d : LayerDesc) (i : Option Nat) (hs : s.Sound) : (State.makeResident s e mb l d i).2.Sound := by
  unfold State.makeResident
  try dsimp only
  repeat' first
  | with_reducible assumption
  | with_reducible intro hc
  | with_reducible apply State.modLed_sound
  | with_reducible apply State.loadLayer_sound
  | with_reducible refine State.loadLayer_sound_eq (by assumption) ?_
  | with_reducible apply ite_sound
  | with_reducible apply ite_snd_sound
  | with_reducible apply ite_fst_sound
  | with_reducible refine snd_sound_of_eq (by assumption) ?_
  | with_reducible refine fst_sound_of_eq (by assumption) ?_
  | dsimp only
  | split

theorem State.makeResident_sound_eq {s : State} {e : EngineId} {mb : W16} {l : Nat} {d : LayerDesc} {i : Option Nat} {a0} {t : State} (hq : State.makeResident s e mb l d i = (a0, t)) (hs : s.Sound) : t.Sound := by
  have := State.makeResident_sound s e mb l d i hs; rw [hq] at this; exact this

theorem State.beginUnits_sound (s : State) (e : EngineId) (p : Pass) (l : Nat) (d : LayerDesc) (env : RunEnvs) (hs : s.Sound) : (State.beginUnits s e p l d env).2.Sound := by
  unfold State.beginUnits
  try dsimp only
  repeat' first
  | with_reducible assumption
  | with_reducible intro hc
  | with_reducible apply State.modArr_sound
  | with_reducible apply State.modPass_sound
  | with_reducible apply State.startTiles_sound
  | with_reducible apply State.runProgram_sound
  | with_reducible apply State.rowBackward_sound
  | with_reducible refine State.runProgram_sound_eq (by assumption) ?_
  | with_reducible apply ite_snd_sound
  | with_reducible refine snd_sound_of_eq (by assumption) ?_
  | split

theorem State.beginUnits_sound_eq {s : State} {e : EngineId} {p : Pass} {l : Nat} {d : LayerDesc} {env : RunEnvs} {a0} {t : State} (hq : State.beginUnits s e p l d env = (a0, t)) (hs : s.Sound) : t.Sound := by
  have := State.beginUnits_sound s e p l d env hs; rw [hq] at this; exact this

theorem State.beginLayer_sound (s : State) (e : EngineId) (p : Pass) (l : Nat) (d : LayerDesc) (env : RunEnvs) (hs : s.Sound) : (State.beginLayer s e p l d env).2.Sound := by
  unfold State.beginLayer
  try dsimp only
  repeat' first
  | with_reducible assumption
  | with_reducible intro hc
  | with_reducible apply State.rowFail_sound
  | with_reducible apply State.rowMark_sound
  | with_reducible apply State.setWait_sound
  | with_reducible apply State.useVersion_sound
  | with_reducible apply State.versionWaits_sound
  | with_reducible apply State.makeResident_sound
  | with_reducible apply State.beginUnits_sound
  | with_reducible refine State.useVersion_sound_eq (by assumption) ?_
  | with_reducible refine State.makeResident_sound_eq (by assumption) ?_
  | with_reducible refine State.beginUnits_sound_eq (by assumption) ?_
  | with_reducible apply ite_sound
  | with_reducible apply ite_snd_sound
  | with_reducible apply ite_fst_sound
  | with_reducible refine snd_sound_of_eq (by assumption) ?_
  | with_reducible refine fst_sound_of_eq (by assumption) ?_
  | dsimp only
  | split

theorem State.beginLayer_sound_eq {s : State} {e : EngineId} {p : Pass} {l : Nat} {d : LayerDesc} {env : RunEnvs} {a0} {t : State} (hq : State.beginLayer s e p l d env = (a0, t)) (hs : s.Sound) : t.Sound := by
  have := State.beginLayer_sound s e p l d env hs; rw [hq] at this; exact this

theorem State.endLayer_sound (s : State) (e : EngineId) (p : Pass) (l : Nat) (d : LayerDesc) (env : RunEnvs) (hs : s.Sound) : (State.endLayer s e p l d env).2.Sound := by
  unfold State.endLayer
  try dsimp only
  repeat' first
  | with_reducible assumption
  | with_reducible intro hc
  | with_reducible apply State.modArr_sound
  | with_reducible apply State.modPass_sound
  | with_reducible apply State.rowForward_sound
  | with_reducible apply ite_snd_sound
  | with_reducible refine snd_sound_of_eq (by assumption) ?_
  | split

theorem State.endLayer_sound_eq {s : State} {e : EngineId} {p : Pass} {l : Nat} {d : LayerDesc} {env : RunEnvs} {a0} {t : State} (hq : State.endLayer s e p l d env = (a0, t)) (hs : s.Sound) : t.Sound := by
  have := State.endLayer_sound s e p l d env hs; rw [hq] at this; exact this

theorem State.advance_sound (s : State) (e : EngineId) (r : SchedRow) (env : RunEnvs) (nn : Nat) (hs : s.Sound) : (State.advance s e r env nn).Sound := by
  induction nn generalizing s e r env with
  | zero =>
      unfold State.advance
      try dsimp only
      repeat' first
      | with_reducible assumption
  | succ k IH =>
      unfold State.advance
      try dsimp only
      repeat' first
      | with_reducible assumption
      | with_reducible intro hc
      | with_reducible apply IH
      | with_reducible apply State.modPass_sound
      | with_reducible apply State.finishPass_sound
      | with_reducible refine State.beginLayer_sound_eq (by assumption) ?_
      | with_reducible refine State.endLayer_sound_eq (by assumption) ?_
      | with_reducible apply ite_sound
      | split

theorem State.startPass_sound (s : State) (e : EngineId) (kind : PassKind) (r : SchedRow) (env : RunEnvs) (hs : s.Sound) : (State.startPass s e kind r env).Sound := by
  unfold State.startPass
  try dsimp only
  repeat' first
  | with_reducible assumption
  | with_reducible intro hc
  | with_reducible apply State.modSeq_sound
  | with_reducible apply RingSt.advance_sound
  | with_reducible apply State.rowFail_sound
  | with_reducible apply State.reloadAll_sound
  | with_reducible apply State.advance_sound
  | with_reducible refine State.reloadAll_sound_eq (by assumption) ?_
  | with_reducible refine snd_sound_of_eq (by assumption) ?_
  | with_reducible refine fst_sound_of_eq (by assumption) ?_
  | with_reducible exact State.writeConst_sound _ _ _ (by assumption) _ (by assumption)
  | dsimp only
  | split

theorem passRow_sound (e : EngineId) (kind : PassKind) (waited : Nat) (env : RunEnvs) (s : State) (hs : s.Sound) : (passRow e kind waited env s).Sound := by
  unfold passRow
  try dsimp only
  repeat' first
  | with_reducible assumption
  | with_reducible intro hc
  | with_reducible apply State.modEng_sound
  | with_reducible apply State.loadsDue_sound
  | with_reducible apply State.advance_sound
  | with_reducible apply State.startPass_sound
  | with_reducible apply ite_sound
  | (with_reducible refine Engine.Sound.mk ?_ ?_ ?_ ?_ ?_ <;> dsimp only)
  | (have hq := ‹Engine.Sound _›; with_reducible exact hq.store)
  | (have hq := ‹Engine.Sound _›; with_reducible exact hq.acc)
  | (have hq := ‹Engine.Sound _›; with_reducible exact hq.chk)
  | (have hq := ‹Engine.Sound _›; with_reducible exact hq.vr)
  | (have hq := ‹Engine.Sound _›; with_reducible exact hq.queue)
  | split

theorem execFwd_sound (e : EngineId) (waited : Nat) (env : RunEnvs) (s : State) (hs : s.Sound) : Res.Sound (execFwd e waited env s) := by
  unfold execFwd
  try dsimp only
  repeat' first
  | with_reducible assumption
  | with_reducible refine Res.next_sound ?_
  | with_reducible apply passRow_sound

theorem execBwd_sound (e : EngineId) (waited : Nat) (env : RunEnvs) (s : State) (hs : s.Sound) : Res.Sound (execBwd e waited env s) := by
  unfold execBwd
  try dsimp only
  repeat' first
  | with_reducible assumption
  | with_reducible refine Res.next_sound ?_
  | with_reducible apply passRow_sound

theorem execRecomp_sound (e : EngineId) (waited : Nat) (env : RunEnvs) (s : State) (hs : s.Sound) : Res.Sound (execRecomp e waited env s) := by
  unfold execRecomp
  try dsimp only
  repeat' first
  | with_reducible assumption
  | with_reducible refine Res.next_sound ?_
  | with_reducible apply passRow_sound

theorem versionPromote_sound (e : EngineId) (shard : BitVec 24) (env : RunEnvs) (s : State) (hs : s.Sound) : (versionPromote e shard env s).Sound := by
  unfold versionPromote
  try dsimp only
  repeat' first
  | with_reducible assumption
  | with_reducible intro hc
  | with_reducible apply State.advance_sound
  | with_reducible apply ite_sound
  | split

theorem execVersionPromoteStrict_sound (e : EngineId) (shard : BitVec 24) (env : RunEnvs) (s : State) (hs : s.Sound) : Res.Sound (execVersionPromoteStrict e shard env s) := by
  unfold execVersionPromoteStrict
  try dsimp only
  repeat' first
  | with_reducible assumption
  | with_reducible refine Res.next_sound ?_
  | with_reducible apply versionPromote_sound

theorem State.clearCarry_sound (s : State) (e : EngineId) (d : LayerDesc) (prog : Nat) (mb : W16) (hs : s.Sound) : (State.clearCarry s e d prog mb).Sound := by
  unfold State.clearCarry
  try dsimp only
  repeat' first
  | with_reducible assumption
  | with_reducible intro hc
  | with_reducible apply State.modEng_sound
  | with_reducible apply Engine.putStore_sound
  | with_reducible apply foldl_sound
  | with_reducible apply foldl_eng_sound
  | with_reducible apply ite_sound

theorem State.modArr_queue (s : State) (e : EngineId) (l : List ClosedTile) :
    ((s.modArr e fun x => { x with waiting := l }).eng[e.val]).arr.queue = (s.eng[e.val]).arr.queue := by
  unfold State.modArr State.modEng
  rw [Vector.getElem_set_self]

theorem State.dequeue_sound (s : State) (e : EngineId) (t : ClosedTile) (hs : s.Sound) : (State.dequeue s e t).Sound := by
  unfold State.dequeue
  have h1 : (s.modArr e fun x => { x with queue := x.queue.erase t }).Sound :=
    State.modArr_sound s e _ hs (fun x hx => erase_le x.queue t 32 hx)
  generalize hm : s.modArr e (fun x => { x with queue := x.queue.erase t }) = m at h1 ⊢
  dsimp only
  apply State.startTiles_sound
  split
  · exact h1
  · rename_i w rest _
    apply ite_sound
    · intro _; exact h1
    · intro hq
      refine State.intoQueue_sound _ e w ?_ ?_
      · exact State.modArr_sound _ _ _ h1 (fun x hx => hx)
      · rw [State.modArr_queue]
        omega

theorem tileTake_sound (e : EngineId) (tileWait : Nat) (env : RunEnvs) (s : State) (hs : s.Sound) : (tileTake e tileWait env s).Sound := by
  unfold tileTake
  try dsimp only
  repeat' first
  | with_reducible assumption
  | with_reducible intro hc
  | with_reducible apply State.modVec_sound
  | with_reducible apply State.modPass_sound
  | with_reducible apply State.loadsDue_sound
  | with_reducible apply State.advance_sound
  | with_reducible apply State.clearCarry_sound
  | with_reducible apply State.dequeue_sound
  | with_reducible refine State.runProgram_sound_eq (by assumption) ?_
  | with_reducible apply ite_sound
  | split

theorem execTileTake_sound (e : EngineId) (tileWait : Nat) (env : RunEnvs) (s : State) (hs : s.Sound) : Res.Sound (execTileTake e tileWait env s) := by
  unfold execTileTake
  try dsimp only
  repeat' first
  | with_reducible assumption
  | with_reducible refine Res.next_sound ?_
  | with_reducible apply tileTake_sound

theorem clearRow_sound (e : EngineId) (s : State) (hs : s.Sound) : (clearRow e s).Sound := by
  unfold clearRow
  try dsimp only
  repeat' first
  | with_reducible exact hs
  | with_reducible apply State.clearHandoff_sound
  | with_reducible apply State.rowOk_sound
  | split

theorem execClear_sound (e : EngineId) (s : State) (hs : s.Sound) : Res.Sound (execClear e s) := by
  unfold execClear
  try dsimp only
  repeat' first
  | with_reducible exact hs
  | with_reducible refine Res.next_sound ?_
  | with_reducible apply clearRow_sound

theorem updateRow_sound (e : EngineId) (s : State) (hs : s.Sound) : (updateRow e s).Sound := by
  unfold updateRow
  try dsimp only
  repeat' first
  | with_reducible exact hs
  | with_reducible apply State.modLed_sound
  | with_reducible apply State.modUpd_sound
  | with_reducible apply State.rowOk_sound
  | split

theorem execUpdate_sound (e : EngineId) (s : State) (hs : s.Sound) : Res.Sound (execUpdate e s) := by
  unfold execUpdate
  try dsimp only
  repeat' first
  | with_reducible exact hs
  | with_reducible refine Res.next_sound ?_
  | with_reducible apply updateRow_sound

theorem publishRow_sound (e : EngineId) (s : State) (hs : s.Sound) : (publishRow e s).Sound := by
  unfold publishRow
  try dsimp only
  repeat' first
  | with_reducible exact hs
  | with_reducible apply State.modLed_sound
  | with_reducible apply State.rowOk_sound
  | split

theorem execPublish_sound (e : EngineId) (s : State) (hs : s.Sound) : Res.Sound (execPublish e s) := by
  unfold execPublish
  try dsimp only
  repeat' first
  | with_reducible exact hs
  | with_reducible refine Res.next_sound ?_
  | with_reducible apply publishRow_sound

theorem stepEndRow_sound (e : EngineId) (s : State) (hs : s.Sound) : (stepEndRow e s).Sound := by
  unfold stepEndRow
  try dsimp only
  repeat' first
  | with_reducible assumption
  | with_reducible intro hc
  | with_reducible apply State.modVec_sound
  | with_reducible apply State.modSeq_sound
  | with_reducible apply State.rowFail_sound
  | with_reducible apply State.setWait_sound
  | with_reducible apply State.loadsDue_sound
  | with_reducible apply ite_sound
  | split

theorem execStepEnd_sound (e : EngineId) (s : State) (hs : s.Sound) : Res.Sound (execStepEnd e s) := by
  unfold execStepEnd
  try dsimp only
  repeat' first
  | with_reducible exact hs
  | with_reducible refine Res.next_sound ?_
  | with_reducible apply stepEndRow_sound

end Sys2Proof.Machine
end

