-- ==== Sys2Proof/Laws/SoundHold.lean ====
section
/-! SUPPORT. What the operations and meanings of Machine/Hold keep of a sound state. -/

namespace Sys2Proof.Machine

theorem State.askBad_sound (s : State) (e : EngineId) (t : Nat) (hs : s.Sound) : (State.askBad s e t).Sound := by
  unfold State.askBad
  try dsimp only
  repeat' first
  | with_reducible assumption
  | with_reducible intro hc
  | with_reducible apply State.askResend_sound
  | with_reducible apply foldl_sound
  | with_reducible apply ite_sound
  | split

theorem State.drainNext_sound (s : State) (e : EngineId) (hs : s.Sound) : (State.drainNext s e).Sound := by
  unfold State.drainNext
  try dsimp only
  repeat' first
  | with_reducible assumption
  | with_reducible intro hc
  | with_reducible apply State.drain_sound
  | with_reducible apply State.chanTake_sound
  | with_reducible apply ite_sound
  | with_reducible apply filter_le
  | with_reducible refine snd_sound_of_eq (by assumption) ?_
  | with_reducible refine fst_sound_of_eq (by assumption) ?_
  | dsimp only
  | split

theorem State.drainOn_sound (s : State) (hs : s.Sound) : (State.drainOn s).Sound := by
  unfold State.drainOn
  try dsimp only
  repeat' first
  | with_reducible assumption
  | with_reducible intro hc
  | with_reducible apply State.drainNext_sound
  | with_reducible apply foldl_sound

theorem State.freeYoung_sound (s : State) (e : EngineId) (hs : s.Sound) : (State.freeYoung s e).Sound := by
  unfold State.freeYoung
  try dsimp only
  repeat' first
  | with_reducible assumption
  | with_reducible intro hc
  | with_reducible apply State.modLed_sound
  | with_reducible apply State.freeEntry_sound
  | with_reducible apply foldl_sound
  | with_reducible apply ite_sound

theorem State.undoState_sound (s : State) (e : EngineId) (hs : s.Sound) : (State.undoState s e).Sound := by
  unfold State.undoState
  try dsimp only
  repeat' first
  | with_reducible assumption
  | with_reducible intro hc
  | with_reducible apply State.writeState_sound
  | with_reducible apply State.modLed_sound
  | with_reducible apply foldl_sound
  | split

theorem State.restoreEng_sound (s : State) (e : EngineId) (hs : s.Sound) : (State.restoreEng s e).Sound := by
  unfold State.restoreEng
  try dsimp only
  repeat' first
  | with_reducible assumption
  | with_reducible intro hc
  | with_reducible apply State.modEng_sound
  | with_reducible apply State.modLed_sound
  | with_reducible apply State.modT_sound
  | with_reducible apply State.grant_sound
  | with_reducible apply State.askBad_sound
  | with_reducible apply State.freeYoung_sound
  | with_reducible apply State.undoState_sound
  | with_reducible apply foldl_sound
  | with_reducible apply foldl_fst_sound
  | with_reducible apply foldl_snd_sound
  | with_reducible apply foldl_eng_sound
  | with_reducible apply foldl_mem_wf
  | with_reducible apply foldl_memf_wf
  | with_reducible apply foldl_vec_wf
  | with_reducible apply foldl_vecf_wf
  | with_reducible apply foldl_vecs_wf
  | with_reducible apply ite_sound
  | with_reducible apply ite_eng_sound
  | (with_reducible refine Engine.Sound.mk ?_ ?_ ?_ ?_ ?_ <;> dsimp only)
  | exact Nat.zero_le _
  | exact rfl
  | (have hq := ‹Engine.Sound _›; with_reducible exact hq.store)
  | (have hq := ‹Engine.Sound _›; with_reducible exact hq.acc)
  | (have hq := ‹Engine.Sound _›; with_reducible exact hq.chk)
  | (have hq := ‹Engine.Sound _›; with_reducible exact hq.vr)
  | (have hq := ‹Engine.Sound _›; with_reducible exact hq.queue)
  | with_reducible apply Engine.Sound.store
  | with_reducible apply Engine.Sound.acc
  | with_reducible apply Engine.Sound.chk
  | with_reducible apply Engine.Sound.vr
  | with_reducible apply Engine.Sound.queue
  | (rw [Vector.getElem_map])
  | with_reducible refine State.Sound.eng ?_ _ _
  | dsimp only
  | split

theorem State.restoreStep_sound (s : State) (hs : s.Sound) : (State.restoreStep s).Sound := by
  unfold State.restoreStep
  try dsimp only
  repeat' first
  | with_reducible exact hs
  | with_reducible apply State.restoreEng_sound
  | with_reducible apply State.modClr_sound
  | with_reducible apply State.modUpd_sound
  | with_reducible apply foldl_sound

theorem State.held_sound (s : State) (hs : s.Sound) : (State.held s).Sound := by
  unfold State.held
  try dsimp only
  repeat' first
  | with_reducible assumption
  | with_reducible intro hc
  | with_reducible apply State.modJob_sound
  | with_reducible apply State.modInt_sound
  | with_reducible apply State.setErr_sound
  | with_reducible apply State.cancelPending_sound
  | with_reducible apply State.drainOn_sound
  | (intros; rfl)

theorem State.holdOn_sound (s : State) (hs : s.Sound) : (State.holdOn s).Sound := by
  unfold State.holdOn
  try dsimp only
  repeat' first
  | with_reducible assumption
  | with_reducible intro hc
  | with_reducible apply State.restoreStep_sound
  | with_reducible apply State.held_sound
  | with_reducible apply ite_sound
  | dsimp only
  | split

theorem State.hold_sound (s : State) (hs : s.Sound) : (State.hold s).Sound := by
  unfold State.hold
  try dsimp only
  repeat' first
  | with_reducible assumption
  | with_reducible intro hc
  | with_reducible apply State.modAllEng_sound
  | with_reducible apply State.modInt_sound
  | with_reducible apply Engine.stop_sound
  | with_reducible apply State.held_sound
  | with_reducible apply State.holdOn_sound
  | with_reducible apply ite_sound
  | with_reducible apply ite_eng_sound
  | (with_reducible refine Engine.Sound.mk ?_ ?_ ?_ ?_ ?_ <;> dsimp only)
  | (have hq := ‹Engine.Sound _›; with_reducible exact hq.store)
  | (have hq := ‹Engine.Sound _›; with_reducible exact hq.acc)
  | (have hq := ‹Engine.Sound _›; with_reducible exact hq.chk)
  | (have hq := ‹Engine.Sound _›; with_reducible exact hq.vr)
  | (have hq := ‹Engine.Sound _›; with_reducible exact hq.queue)
  | with_reducible apply Engine.Sound.store
  | with_reducible apply Engine.Sound.acc
  | with_reducible apply Engine.Sound.chk
  | with_reducible apply Engine.Sound.vr
  | with_reducible apply Engine.Sound.queue
  | with_reducible refine State.Sound.eng ?_ _ _
  | (intros; rfl)
  | dsimp only
  | split

end Sys2Proof.Machine
end

