-- ==== Sys2Proof/Laws/SoundDrain.lean ====
section
/-! SUPPORT. What the operations and meanings of Machine/Drain keep of a sound state. -/

namespace Sys2Proof.Machine

theorem State.peerBlocks_sound (s : State) (peer off : Nat) (data : List Byte) (hs : s.Sound) : (State.peerBlocks s peer off data).Sound := by
  unfold State.peerBlocks
  try dsimp only
  repeat' first
  | with_reducible assumption
  | with_reducible intro hc
  | with_reducible apply State.sendBlock_sound
  | with_reducible apply foldl_sound

theorem State.slotWrite_sound (s : State) (c : CkptSec) (slot : Fin 4) (off : Nat) (data : List Byte) (hs : s.Sound) : (State.slotWrite s c slot off data).Sound := by
  unfold State.slotWrite
  try dsimp only
  repeat' first
  | with_reducible exact hs
  | with_reducible intro hc
  | with_reducible apply ite_sound
  | with_reducible apply State.peerBlocks_sound
  | with_reducible apply State.emit_sound

theorem State.markEng_sound (s : State) (c : CkptSec) (e : EngineId) (hs : s.Sound) : (State.markEng s c e).Sound := by
  unfold State.markEng
  try dsimp only
  repeat' first
  | with_reducible exact hs
  | with_reducible intro hc
  | with_reducible apply State.modLed_sound
  | with_reducible apply State.modEng_sound
  | (with_reducible refine Engine.Sound.mk ?_ ?_ ?_ ?_ ?_ <;> dsimp only)
  | (have hq := ‹Engine.Sound _›; with_reducible exact hq.store)
  | (have hq := ‹Engine.Sound _›; with_reducible exact hq.acc)
  | (have hq := ‹Engine.Sound _›; with_reducible exact hq.chk)
  | (have hq := ‹Engine.Sound _›; with_reducible exact hq.vr)
  | (have hq := ‹Engine.Sound _›; with_reducible exact hq.queue)

theorem State.escrowMark_sound (s : State) (cut : StepNo) (planeNext : Fin 2) (hs : s.Sound) : (State.escrowMark s cut planeNext).Sound := by
  unfold State.escrowMark
  try dsimp only
  repeat' first
  | with_reducible assumption
  | with_reducible intro hc
  | with_reducible apply State.modCkpt_sound
  | with_reducible apply State.drainOn_sound
  | with_reducible apply State.slotWrite_sound
  | with_reducible apply State.markEng_sound
  | with_reducible apply foldl_sound
  | with_reducible apply foldl_fst_sound
  | with_reducible apply foldl_snd_sound
  | with_reducible refine snd_sound_of_eq (by assumption) ?_
  | with_reducible refine fst_sound_of_eq (by assumption) ?_
  | dsimp only
  | split

theorem Engine.releaseEscrow_sound (e : Engine) (hs : e.Sound) : (Engine.releaseEscrow e).Sound := by
  unfold Engine.releaseEscrow
  try dsimp only
  repeat' first
  | with_reducible assumption
  | with_reducible intro hc
  | (with_reducible refine Engine.Sound.mk ?_ ?_ ?_ ?_ ?_ <;> dsimp only)
  | exact Nat.zero_le _
  | exact rfl
  | (have hq := ‹Engine.Sound _›; with_reducible exact hq.store)
  | (have hq := ‹Engine.Sound _›; with_reducible exact hq.acc)
  | (have hq := ‹Engine.Sound _›; with_reducible exact hq.chk)
  | (have hq := ‹Engine.Sound _›; with_reducible exact hq.vr)
  | (have hq := ‹Engine.Sound _›; with_reducible exact hq.queue)
  | with_reducible apply Engine.Sound.store
  | with_reducible apply Engine.Sound.acc
  | with_reducible apply Engine.Sound.chk
  | with_reducible apply Engine.Sound.vr
  | with_reducible apply Engine.Sound.queue
  | with_reducible refine State.Sound.eng ?_ _ _

theorem Engine.modChan_sound (e : Engine) (c : ChanId) (f : ChanSt → ChanSt) (hs : e.Sound) : (Engine.modChan e c f).Sound := by
  unfold Engine.modChan
  try dsimp only
  repeat' first
  | (with_reducible refine Engine.Sound.mk ?_ ?_ ?_ ?_ ?_ <;> dsimp only)
  | (have hq := ‹Engine.Sound _›; with_reducible exact hq.store)
  | (have hq := ‹Engine.Sound _›; with_reducible exact hq.acc)
  | (have hq := ‹Engine.Sound _›; with_reducible exact hq.chk)
  | (have hq := ‹Engine.Sound _›; with_reducible exact hq.vr)
  | (have hq := ‹Engine.Sound _›; with_reducible exact hq.queue)

theorem State.drainFail_sound (s : State) (st : Status) (counts : Bool) (hs : s.Sound) : (State.drainFail s st counts).Sound := by
  unfold State.drainFail
  try dsimp only
  repeat' first
  | with_reducible assumption
  | with_reducible intro hc
  | with_reducible apply State.modAllEng_sound
  | with_reducible apply State.modCkpt_sound
  | with_reducible apply Engine.releaseEscrow_sound
  | with_reducible apply Engine.modChan_sound
  | split

theorem State.drainHalt_sound (s : State) (st : Status) (hs : s.Sound) : (State.drainHalt s st).Sound := by
  unfold State.drainHalt
  try dsimp only
  repeat' first
  | with_reducible assumption
  | with_reducible intro hc
  | with_reducible apply State.drainFail_sound

theorem State.drainSource_sound (s : State) (b : DrainBlk) (hs : s.Sound) : (State.drainSource s b).2.Sound := by
  unfold State.drainSource
  try dsimp only
  repeat' first
  | with_reducible assumption
  | with_reducible intro hc
  | with_reducible apply State.chanRead_sound
  | with_reducible apply State.readState_sound
  | with_reducible refine State.chanRead_sound_eq (by assumption) ?_
  | with_reducible refine State.readState_sound_eq (by assumption) ?_
  | with_reducible apply ite_sound
  | with_reducible apply ite_snd_sound
  | with_reducible apply ite_fst_sound
  | with_reducible apply ite_eng_sound
  | with_reducible apply ite_ctl_sound
  | with_reducible refine snd_sound_of_eq (by assumption) ?_
  | with_reducible refine fst_sound_of_eq (by assumption) ?_
  | dsimp only
  | split

theorem State.drainSource_sound_eq {s : State} {b : DrainBlk} {a0} {t : State} (hq : State.drainSource s b = (a0, t)) (hs : s.Sound) : t.Sound := by
  have := State.drainSource_sound s b hs; rw [hq] at this; exact this

theorem State.modDrain_sound (s : State) (f : Drain → Drain) (hs : s.Sound) : (State.modDrain s f).Sound := by
  unfold State.modDrain
  try dsimp only
  repeat' first
  | with_reducible exact hs
  | with_reducible apply State.modCkpt_sound

theorem State.putBlock_sound (s : State) (c : CkptSec) (d : Drain) (b : DrainBlk) (data : List Byte) (x : Sideband) (hs : s.Sound) : (State.putBlock s c d b data x).Sound := by
  unfold State.putBlock
  try dsimp only
  repeat' first
  | with_reducible exact hs
  | with_reducible intro hc
  | with_reducible apply ite_sound
  | with_reducible apply State.slotWrite_sound
  | with_reducible apply State.modDrain_sound
  | with_reducible apply State.modEng_sound
  | (with_reducible refine Engine.Sound.mk ?_ ?_ ?_ ?_ ?_ <;> dsimp only)
  | (have hq := ‹Engine.Sound _›; with_reducible exact hq.store)
  | (have hq := ‹Engine.Sound _›; with_reducible exact hq.acc)
  | (have hq := ‹Engine.Sound _›; with_reducible exact hq.chk)
  | (have hq := ‹Engine.Sound _›; with_reducible exact hq.vr)
  | (have hq := ‹Engine.Sound _›; with_reducible exact hq.queue)

theorem State.blockCarried_sound (s : State) (b : DrainBlk) (hs : s.Sound) : (State.blockCarried s b).Sound := by
  unfold State.blockCarried
  try dsimp only
  repeat' first
  | with_reducible exact hs
  | with_reducible intro hc
  | with_reducible apply ite_sound
  | with_reducible apply State.modEng_sound
  | (with_reducible refine Engine.Sound.mk ?_ ?_ ?_ ?_ ?_ <;> dsimp only)
  | (have hq := ‹Engine.Sound _›; with_reducible exact hq.store)
  | (have hq := ‹Engine.Sound _›; with_reducible exact hq.acc)
  | (have hq := ‹Engine.Sound _›; with_reducible exact hq.chk)
  | (have hq := ‹Engine.Sound _›; with_reducible exact hq.vr)
  | (have hq := ‹Engine.Sound _›; with_reducible exact hq.queue)

theorem State.carryEarly_sound (s : State) (b : DrainBlk) (hs : s.Sound) : (State.carryEarly s b).Sound := by
  unfold State.carryEarly
  try dsimp only
  repeat' first
  | with_reducible assumption
  | with_reducible intro hc
  | with_reducible apply State.drain_sound
  | with_reducible apply State.drainHalt_sound
  | with_reducible apply State.drainSource_sound
  | with_reducible apply State.putBlock_sound
  | with_reducible apply State.blockCarried_sound
  | with_reducible refine State.drainSource_sound_eq (by assumption) ?_
  | with_reducible refine snd_sound_of_eq (by assumption) ?_
  | with_reducible refine fst_sound_of_eq (by assumption) ?_
  | dsimp only
  | split

theorem State.carryNext_sound (s : State) (b : DrainBlk) (hs : s.Sound) : (State.carryNext s b).Sound := by
  unfold State.carryNext
  try dsimp only
  repeat' first
  | with_reducible exact hs
  | with_reducible apply State.carryEarly_sound
  | with_reducible apply State.modDrain_sound
  | split

theorem State.escrowEntry_sound (s : State) (e : EngineId) (h : BitVec 24) (hs : s.Sound) : (State.escrowEntry s e h).Sound := by
  unfold State.escrowEntry
  try dsimp only
  repeat' first
  | with_reducible exact hs
  | with_reducible apply State.modLed_sound

theorem State.drainSlip_sound (s : State) (e : EngineId) (hs : s.Sound) : (State.drainSlip s e).Sound := by
  unfold State.drainSlip
  try dsimp only
  repeat' first
  | with_reducible assumption
  | with_reducible intro hc
  | with_reducible apply State.modChan_sound
  | with_reducible apply State.drain_sound
  | with_reducible apply State.drainNext_sound
  | with_reducible apply Engine.modChan_sound
  | with_reducible apply State.carryNext_sound
  | with_reducible apply State.escrowEntry_sound
  | with_reducible apply foldl_sound
  | with_reducible apply foldl_fst_sound
  | with_reducible apply foldl_snd_sound
  | with_reducible apply ite_sound
  | (rw [Vector.getElem_map])
  | with_reducible apply filter_le
  | with_reducible refine snd_sound_of_eq (by assumption) ?_
  | with_reducible refine fst_sound_of_eq (by assumption) ?_
  | dsimp only
  | split

theorem State.putState_sound (s : State) (e : EngineId) (x : ShardEnt) (page : Nat) (version : StepNo) (data : List Byte) (old : List Byte × Sideband) (hs : s.Sound) : (State.putState s e x page version data old).Sound := by
  unfold State.putState
  try dsimp only
  repeat' first
  | with_reducible assumption
  | with_reducible intro hc
  | with_reducible apply State.modEng_sound
  | with_reducible apply State.drain_sound
  | with_reducible apply State.chanWrite_sound
  | with_reducible apply State.writeState_sound
  | with_reducible apply State.carryEarly_sound
  | with_reducible refine State.carryEarly_sound_eq (by assumption) ?_
  | with_reducible apply ite_sound
  | with_reducible apply ite_eng_sound
  | (with_reducible refine Engine.Sound.mk ?_ ?_ ?_ ?_ ?_ <;> dsimp only)
  | exact Nat.zero_le _
  | exact rfl
  | (have hq := ‹Engine.Sound _›; with_reducible exact hq.store)
  | (have hq := ‹Engine.Sound _›; with_reducible exact hq.acc)
  | (have hq := ‹Engine.Sound _›; with_reducible exact hq.chk)
  | (have hq := ‹Engine.Sound _›; with_reducible exact hq.vr)
  | (have hq := ‹Engine.Sound _›; with_reducible exact hq.queue)
  | with_reducible apply Engine.Sound.store
  | with_reducible apply Engine.Sound.acc
  | with_reducible apply Engine.Sound.chk
  | with_reducible apply Engine.Sound.vr
  | with_reducible apply Engine.Sound.queue
  | with_reducible refine State.Sound.eng ?_ _ _
  | with_reducible refine snd_sound_of_eq (by assumption) ?_
  | with_reducible refine fst_sound_of_eq (by assumption) ?_
  | dsimp only
  | split

theorem checkpointCommit_sound (s : State) (hs : s.Sound) : (checkpointCommit s).Sound := by
  unfold checkpointCommit
  try dsimp only
  repeat' first
  | with_reducible assumption
  | with_reducible intro hc
  | with_reducible apply State.modAllEng_sound
  | with_reducible apply State.modCkpt_sound
  | with_reducible apply State.dbModule_sound
  | with_reducible apply State.slotWrite_sound
  | with_reducible apply Engine.releaseEscrow_sound
  | with_reducible apply ite_sound
  | split

theorem execCheckpointCommit_sound (s : State) (hs : s.Sound) : Res.Sound (execCheckpointCommit s) := by
  unfold execCheckpointCommit
  try dsimp only
  repeat' first
  | with_reducible exact hs
  | with_reducible refine Res.next_sound ?_
  | with_reducible apply checkpointCommit_sound

end Sys2Proof.Machine
end

