-- ==== Sys2Proof/Laws/SoundUpdate.lean ====
section
/-! SUPPORT. What the operations and meanings of Machine/Update keep of a sound state. -/

namespace Sys2Proof.Machine

theorem State.sendNorms_sound (s : State) (l : List Nat) (bytes : List Byte) (hs : s.Sound) : (State.sendNorms s l bytes).Sound := by
  unfold State.sendNorms
  try dsimp only
  repeat' first
  | with_reducible assumption
  | with_reducible intro hc
  | with_reducible apply State.sendNorm_sound
  | with_reducible apply foldl_sound

theorem State.askFetch_sound (s : State) (e : EngineId) (x : ShardEnt) (f : Fetch) (first : Nat) (count : Nat) (hs : s.Sound) : (State.askFetch s e x f first count).Sound := by
  unfold State.askFetch
  try dsimp only
  repeat' first
  | with_reducible assumption
  | with_reducible intro hc
  | with_reducible apply State.modLed_sound
  | with_reducible apply State.sendRequest_sound
  | with_reducible apply ite_sound
  | with_reducible refine snd_sound_of_eq (by assumption) ?_
  | with_reducible refine fst_sound_of_eq (by assumption) ?_
  | dsimp only
  | split

theorem State.startFetch_sound (s : State) (e : EngineId) (x : ShardEnt) (version : StepNo) (restore : Bool) (hs : s.Sound) : (State.startFetch s e x version restore).Sound := by
  unfold State.startFetch
  try dsimp only
  repeat' first
  | with_reducible assumption
  | with_reducible intro hc
  | with_reducible apply State.modLed_sound
  | with_reducible apply State.askFetch_sound
  | with_reducible apply ite_sound

theorem State.fetchDue_sound (s : State) (step : StepNo) (hs : s.Sound) : (State.fetchDue s step).Sound := by
  unfold State.fetchDue
  try dsimp only
  repeat' first
  | with_reducible assumption
  | with_reducible intro hc
  | with_reducible apply ite_sound
  | with_reducible apply State.startFetch_sound
  | with_reducible apply foldl_sound

theorem State.lateVerdict_sound (s : State) (v : Verdict) (hs : s.Sound) : (State.lateVerdict s v).Sound := by
  unfold State.lateVerdict
  try dsimp only
  repeat' first
  | with_reducible assumption
  | with_reducible intro hc
  | with_reducible apply State.modUpd_sound
  | with_reducible apply ite_sound
  | dsimp only
  | split

theorem State.takeVerdict_sound (s : State) (v : Verdict) (clipped : Bool) (peers : List Nat) (hs : s.Sound) : (State.takeVerdict s v clipped peers).Sound := by
  unfold State.takeVerdict
  try dsimp only
  repeat' first
  | with_reducible assumption
  | with_reducible intro hc
  | with_reducible apply State.modUpd_sound
  | with_reducible apply State.sendNorms_sound
  | with_reducible apply State.fetchDue_sound
  | with_reducible apply State.lateVerdict_sound
  | with_reducible apply ite_sound
  | dsimp only
  | split

theorem State.tryVerdict_sound (s : State) (step : StepNo) (hs : s.Sound) : (State.tryVerdict s step).Sound := by
  unfold State.tryVerdict
  try dsimp only
  repeat' first
  | with_reducible assumption
  | with_reducible intro hc
  | with_reducible apply State.modUpd_sound
  | with_reducible apply State.modCkpt_sound
  | with_reducible apply State.post_sound
  | with_reducible apply State.sendNorms_sound
  | with_reducible apply State.takeVerdict_sound
  | with_reducible apply ite_sound
  | with_reducible apply filter_le
  | with_reducible refine snd_sound_of_eq (by assumption) ?_
  | with_reducible refine fst_sound_of_eq (by assumption) ?_
  | dsimp only
  | split

theorem State.takePartial_sound (s : State) (p : Partial) (hs : s.Sound) : (State.takePartial s p).Sound := by
  unfold State.takePartial
  try dsimp only
  repeat' first
  | with_reducible assumption
  | with_reducible intro hc
  | with_reducible apply State.modUpd_sound
  | with_reducible apply State.tryVerdict_sound
  | with_reducible apply ite_sound

theorem State.fromPeer_sound (s : State) (peer : Nat) (f : State → State) (hs : s.Sound) (hf : ∀ x0, x0.Sound → (f x0).Sound) : (State.fromPeer s peer f).Sound := by
  unfold State.fromPeer
  try dsimp only
  repeat' first
  | with_reducible assumption
  | with_reducible intro hc
  | with_reducible apply hf
  | with_reducible apply State.dropUnadmitted_sound
  | with_reducible apply ite_sound
  | dsimp only
  | split

theorem execNormPartial_sound (peer : Nat) (shard : BitVec 24) (step : StepNo) (attempt : Byte) (p : W64) (s : State) (hs : s.Sound) : Res.Sound (execNormPartial peer shard step attempt p s) := by
  unfold execNormPartial
  try dsimp only
  repeat' first
  | with_reducible assumption
  | with_reducible intro hc
  | with_reducible refine Res.next_sound ?_
  | with_reducible apply State.takePartial_sound
  | with_reducible apply State.fromPeer_sound
  | exact trivial

theorem execNormVerdict_sound (peer : Nat) (v : Verdict) (s : State) (hs : s.Sound) : Res.Sound (execNormVerdict peer v s) := by
  unfold execNormVerdict
  try dsimp only
  repeat' first
  | with_reducible assumption
  | with_reducible intro hc
  | with_reducible refine Res.next_sound ?_
  | with_reducible apply State.takeVerdict_sound
  | with_reducible apply State.fromPeer_sound
  | with_reducible apply ite_sound
  | with_reducible apply ite_res_sound
  | dsimp only
  | split
  | exact trivial

theorem loss_sound (replica : W16) (s : State) (hs : s.Sound) : (loss replica s).Sound := by
  unfold loss
  try dsimp only
  repeat' first
  | with_reducible assumption
  | with_reducible intro hc
  | with_reducible apply State.modCkpt_sound
  | with_reducible apply ite_sound
  | with_reducible refine snd_sound_of_eq (by assumption) ?_
  | with_reducible refine fst_sound_of_eq (by assumption) ?_
  | dsimp only
  | split

theorem execLoss_sound (peer : Nat) (replica : W16) (_step : StepNo) (s : State) (hs : s.Sound) : Res.Sound (execLoss peer replica _step s) := by
  unfold execLoss
  try dsimp only
  repeat' first
  | with_reducible assumption
  | with_reducible intro hc
  | with_reducible refine Res.next_sound ?_
  | with_reducible apply State.fromPeer_sound
  | with_reducible apply loss_sound
  | exact trivial

theorem live_sound (count : W16) (step : StepNo) (map : BitVec 1024) (s : State) (hs : s.Sound) : (live count step map s).Sound := by
  unfold live
  try dsimp only
  repeat' first
  | with_reducible assumption
  | with_reducible intro hc
  | with_reducible apply State.modUpd_sound
  | with_reducible apply State.modCkpt_sound
  | with_reducible apply State.sendNorms_sound
  | with_reducible apply ite_sound
  | with_reducible refine snd_sound_of_eq (by assumption) ?_
  | with_reducible refine fst_sound_of_eq (by assumption) ?_
  | dsimp only
  | split

theorem execLive_sound (peer : Nat) (count : W16) (step : StepNo) (map : BitVec 1024) (s : State) (hs : s.Sound) : Res.Sound (execLive peer count step map s) := by
  unfold execLive
  try dsimp only
  repeat' first
  | with_reducible assumption
  | with_reducible intro hc
  | with_reducible refine Res.next_sound ?_
  | with_reducible apply State.fromPeer_sound
  | with_reducible apply live_sound
  | exact trivial

theorem State.homesIn_sound (s : State) (e : EngineId) (x : ShardEnt) (hs : s.Sound) : (State.homesIn s e x).2.Sound := by
  unfold State.homesIn
  try dsimp only
  repeat' first
  | with_reducible assumption
  | with_reducible intro hc
  | with_reducible apply State.mark_sound
  | with_reducible apply State.pagesIn_sound
  | with_reducible refine State.pagesIn_sound_eq (by assumption) ?_
  | with_reducible apply ite_sound
  | with_reducible apply ite_snd_sound
  | with_reducible apply ite_fst_sound
  | with_reducible apply ite_eng_sound
  | dsimp only
  | split

theorem State.homesIn_sound_eq {s : State} {e : EngineId} {x : ShardEnt} {a0} {t : State} (hq : State.homesIn s e x = (a0, t)) (hs : s.Sound) : t.Sound := by
  have := State.homesIn_sound s e x hs; rw [hq] at this; exact this

theorem State.sendPartial_sound (s : State) (shard : BitVec 24) (p : W64) (hs : s.Sound) : (State.sendPartial s shard p).Sound := by
  unfold State.sendPartial
  try dsimp only
  repeat' first
  | with_reducible exact hs
  | with_reducible apply State.modUpd_sound
  | with_reducible apply State.takePartial_sound
  | with_reducible apply State.sendNorm_sound
  | split

theorem updatePhase1_sound (e : EngineId) (shard : BitVec 24) (s : State) (hs : s.Sound) : (updatePhase1 e shard s).Sound := by
  unfold updatePhase1
  try dsimp only
  repeat' first
  | with_reducible assumption
  | with_reducible intro hc
  | with_reducible apply State.modVec_sound
  | with_reducible apply State.modLed_sound
  | with_reducible apply Plan.cleared_sound
  | with_reducible apply EngVec.tally_sound
  | with_reducible apply State.homesIn_sound
  | with_reducible apply State.sendPartial_sound
  | with_reducible refine State.homesIn_sound_eq (by assumption) ?_
  | with_reducible apply ite_sound
  | with_reducible refine snd_sound_of_eq (by assumption) ?_
  | with_reducible refine fst_sound_of_eq (by assumption) ?_
  | dsimp only
  | split

theorem execUpdatePhase1_sound (e : EngineId) (shard : BitVec 24) (s : State) (hs : s.Sound) : Res.Sound (execUpdatePhase1 e shard s) := by
  unfold execUpdatePhase1
  try dsimp only
  repeat' first
  | with_reducible exact hs
  | with_reducible refine Res.next_sound ?_
  | with_reducible apply updatePhase1_sound

theorem State.mirrorPage_sound (s : State) (e : EngineId) (x : ShardEnt) (peer : Nat) (version : StepNo) (p : Nat × List Byte) (hs : s.Sound) : (State.mirrorPage s e x peer version p).Sound := by
  unfold State.mirrorPage
  try dsimp only
  repeat' first
  | with_reducible assumption
  | with_reducible intro hc
  | with_reducible apply State.modChan_sound
  | with_reducible apply State.sendBlock_sound
  | with_reducible apply State.chanTake_sound
  | with_reducible apply Engine.modChan_sound
  | with_reducible refine snd_sound_of_eq (by assumption) ?_
  | with_reducible refine fst_sound_of_eq (by assumption) ?_
  | dsimp only
  | split

theorem State.sendMirror_sound (s : State) (e : EngineId) (x : ShardEnt) (peer : Nat) (version : StepNo) (pages : List (Nat × List Byte)) (hs : s.Sound) : (State.sendMirror s e x peer version pages).Sound := by
  unfold State.sendMirror
  try dsimp only
  repeat' first
  | with_reducible assumption
  | with_reducible intro hc
  | with_reducible apply State.sendRequest_sound
  | with_reducible apply State.mirrorPage_sound
  | with_reducible apply foldl_sound

theorem State.mirrorResend_sound (s : State) (peer : Nat) (h : BitVec 24) (page : Nat) (hs : s.Sound) : (State.mirrorResend s peer h page).Sound := by
  unfold State.mirrorResend
  try dsimp only
  repeat' first
  | with_reducible assumption
  | with_reducible intro hc
  | with_reducible apply State.readState_sound
  | with_reducible apply State.mirrorPage_sound
  | with_reducible refine State.readState_sound_eq (by assumption) ?_
  | with_reducible apply ite_sound
  | with_reducible apply ite_eng_sound
  | with_reducible refine snd_sound_of_eq (by assumption) ?_
  | with_reducible refine fst_sound_of_eq (by assumption) ?_
  | dsimp only
  | split

theorem State.endUpdate_sound (s : State) (e : EngineId) (shard : BitVec 24) (st : Status) (hs : s.Sound) : (State.endUpdate s e shard st).Sound := by
  unfold State.endUpdate
  try dsimp only
  repeat' first
  | with_reducible assumption
  | with_reducible apply State.modLed_sound

theorem State.finishUpdate_sound (s : State) (e : EngineId) (shard : BitVec 24) (st : Status) (cnt : ExcCnt) (hs : s.Sound) : (State.finishUpdate s e shard st cnt).Sound := by
  unfold State.finishUpdate
  try dsimp only
  repeat' first
  | with_reducible assumption
  | with_reducible apply State.modLed_sound
  | with_reducible apply State.makeReady_sound
  | with_reducible apply State.updEvents_sound
  | with_reducible apply State.endUpdate_sound
  | split

theorem State.mirrorDone_sound (s : State) (e : EngineId) (shard : BitVec 24) (st : Status) (hs : s.Sound) : (State.mirrorDone s e shard st).Sound := by
  unfold State.mirrorDone
  try dsimp only
  repeat' first
  | with_reducible assumption
  | with_reducible apply State.finishUpdate_sound
  | split

theorem State.updateUe_sound (s : State) (e : EngineId) (x : ShardEnt) (hs : s.Sound) : (State.updateUe s e x).Sound := by
  unfold State.updateUe
  try dsimp only
  repeat' first
  | with_reducible assumption
  | with_reducible intro hc
  | with_reducible apply State.raise_sound
  | with_reducible apply State.endUpdate_sound

theorem State.readRegion_sound (s : State) (e : EngineId) (x : ShardEnt) (ue : Bool) (hs : s.Sound) : (State.readRegion s e x ue).2.Sound := by
  unfold State.readRegion
  try dsimp only
  repeat' first
  | with_reducible assumption
  | with_reducible intro hc
  | with_reducible apply State.readStates_sound
  | with_reducible refine State.readStates_sound_eq (by assumption) ?_
  | with_reducible apply ite_sound
  | with_reducible apply ite_snd_sound
  | with_reducible apply ite_fst_sound
  | dsimp only
  | split

theorem State.readRegion_sound_eq {s : State} {e : EngineId} {x : ShardEnt} {ue : Bool} {a0} {t : State} (hq : State.readRegion s e x ue = (a0, t)) (hs : s.Sound) : t.Sound := by
  have := State.readRegion_sound s e x ue hs; rw [hq] at this; exact this

theorem State.stepPage_sound (s : State) (e : EngineId) (x : ShardEnt) (page : Nat) (version : StepNo) (data : List Byte) (old : List Byte × Sideband) (hs : s.Sound) : (State.stepPage s e x page version data old).Sound := by
  unfold State.stepPage
  try dsimp only
  repeat' first
  | with_reducible assumption
  | with_reducible intro hc
  | with_reducible apply State.modLed_sound
  | with_reducible apply State.putState_sound
  | with_reducible apply ite_sound
  | dsimp only
  | split

theorem State.runUpdate_sound (s : State) (e : EngineId) (x : ShardEnt) (i : Nat) (q : Recipe) (plane : Nat) (gamma : W32) (old : List (List Byte × Sideband)) (hs : s.Sound) : (State.runUpdate s e x i q plane gamma old).Sound := by
  unfold State.runUpdate
  try dsimp only
  repeat' first
  | with_reducible assumption
  | with_reducible intro hc
  | with_reducible apply State.modVec_sound
  | with_reducible apply State.modLed_sound
  | with_reducible apply State.deed_sound
  | with_reducible apply EngVec.tally_sound
  | with_reducible apply State.deriveFrom_sound
  | with_reducible apply State.sendMirror_sound
  | with_reducible apply State.finishUpdate_sound
  | with_reducible apply State.stepPage_sound
  | with_reducible refine State.deriveFrom_sound_eq (by assumption) ?_
  | with_reducible apply foldl_sound
  | with_reducible apply foldl_fst_sound
  | with_reducible apply foldl_snd_sound
  | with_reducible refine snd_sound_of_eq (by assumption) ?_
  | with_reducible refine fst_sound_of_eq (by assumption) ?_
  | dsimp only
  | split

theorem State.escrowWait_sound (s : State) (e : EngineId) (h : BitVec 24) (waited : Nat) (hs : s.Sound) : (State.escrowWait s e h waited).Sound := by
  unfold State.escrowWait
  try dsimp only
  repeat' first
  | with_reducible assumption
  | with_reducible intro hc
  | with_reducible apply State.modEng_sound
  | with_reducible apply ite_eng_sound
  | (with_reducible refine Engine.Sound.mk ?_ ?_ ?_ ?_ ?_ <;> dsimp only)
  | (have hq := ‹Engine.Sound _›; with_reducible exact hq.store)
  | (have hq := ‹Engine.Sound _›; with_reducible exact hq.acc)
  | (have hq := ‹Engine.Sound _›; with_reducible exact hq.chk)
  | (have hq := ‹Engine.Sound _›; with_reducible exact hq.vr)
  | (have hq := ‹Engine.Sound _›; with_reducible exact hq.queue)

theorem updatePhase2_sound (e : EngineId) (shard : BitVec 24) (stateUe : Bool) (waited : Nat) (escrowWaited : Nat) (s : State) (hs : s.Sound) : (updatePhase2 e shard stateUe waited escrowWaited s).Sound := by
  unfold updatePhase2
  try dsimp only
  repeat' first
  | with_reducible assumption
  | with_reducible intro hc
  | with_reducible apply State.modEng_sound
  | with_reducible apply State.modLed_sound
  | with_reducible apply State.chanFails_sound
  | with_reducible apply State.allocEntry_sound
  | with_reducible apply State.homesIn_sound
  | with_reducible apply State.endUpdate_sound
  | with_reducible apply State.updateUe_sound
  | with_reducible apply State.readRegion_sound
  | with_reducible apply State.runUpdate_sound
  | with_reducible apply State.escrowWait_sound
  | with_reducible refine State.allocEntry_sound_eq (by assumption) ?_
  | with_reducible refine State.homesIn_sound_eq (by assumption) ?_
  | with_reducible refine State.readRegion_sound_eq (by assumption) ?_
  | with_reducible refine State.runUpdate_sound_eq (by assumption) ?_
  | with_reducible apply ite_sound
  | with_reducible apply ite_eng_sound
  | (with_reducible refine Engine.Sound.mk ?_ ?_ ?_ ?_ ?_ <;> dsimp only)
  | (have hq := ‹Engine.Sound _›; with_reducible exact hq.store)
  | (have hq := ‹Engine.Sound _›; with_reducible exact hq.acc)
  | (have hq := ‹Engine.Sound _›; with_reducible exact hq.chk)
  | (have hq := ‹Engine.Sound _›; with_reducible exact hq.vr)
  | (have hq := ‹Engine.Sound _›; with_reducible exact hq.queue)
  | with_reducible apply Engine.Sound.store
  | with_reducible apply Engine.Sound.acc
  | with_reducible apply Engine.Sound.chk
  | with_reducible apply Engine.Sound.vr
  | with_reducible apply Engine.Sound.queue
  | with_reducible refine State.Sound.eng ?_ _ _
  | with_reducible refine snd_sound_of_eq (by assumption) ?_
  | with_reducible refine fst_sound_of_eq (by assumption) ?_
  | dsimp only
  | split

theorem execUpdatePhase2_sound (e : EngineId) (shard : BitVec 24) (stateUe : Bool) (waited : Nat) (escrowWaited : Nat) (s : State) (hs : s.Sound) : Res.Sound (execUpdatePhase2 e shard stateUe waited escrowWaited s) := by
  unfold execUpdatePhase2
  try dsimp only
  repeat' first
  | with_reducible assumption
  | with_reducible refine Res.next_sound ?_
  | with_reducible apply updatePhase2_sound

end Sys2Proof.Machine
end

