-- ==== Sys2Proof/Laws/SoundFetch.lean ====
section
/-! SUPPORT. What the operations and meanings of Machine/Fetch keep of a sound state. -/

namespace Sys2Proof.Machine

theorem State.pageBlock_sound (s : State) (q : ReqFrame) (page : Nat) (data : List Byte) (x : Sideband) (st : Status) (hs : s.Sound) : (State.pageBlock s q page data x st).2.Sound := by
  unfold State.pageBlock
  try dsimp only
  repeat' first
  | with_reducible assumption
  | with_reducible intro hc
  | with_reducible apply State.blockFor_sound
  | with_reducible refine State.blockFor_sound_eq (by assumption) ?_

theorem State.pageBlock_sound_eq {s : State} {q : ReqFrame} {page : Nat} {data : List Byte} {x : Sideband} {st : Status} {a0} {t : State} (hq : State.pageBlock s q page data x st = (a0, t)) (hs : s.Sound) : t.Sound := by
  have := State.pageBlock_sound s q page data x st hs; rw [hq] at this; exact this

theorem State.servePage_sound (s : State) (e : EngineId) (q : ReqFrame) (page : Nat) (c : CtlId) (a : Nat) (last : Option Nat) (hs : s.Sound) : (State.servePage s e q page c a last).Sound := by
  unfold State.servePage
  try dsimp only
  repeat' first
  | with_reducible assumption
  | with_reducible intro hc
  | with_reducible apply State.modChan_sound
  | with_reducible apply State.pageIn_sound
  | with_reducible apply State.sendFrames_sound
  | with_reducible apply State.chanTake_sound
  | with_reducible apply Engine.modChan_sound
  | with_reducible apply State.pageBlock_sound
  | with_reducible refine State.pageIn_sound_eq (by assumption) ?_
  | with_reducible refine State.pageBlock_sound_eq (by assumption) ?_
  | with_reducible refine State.Sound.eng ?_
  | with_reducible refine State.Sound.vaults ?_
  | with_reducible refine State.Sound.fars ?_
  | with_reducible refine State.Sound.mbox ?_
  | with_reducible refine State.Sound.book ?_
  | with_reducible refine State.Sound.aperture ?_
  | with_reducible refine State.Sound.rings ?_
  | with_reducible refine State.Sound.eng ?_ _ _
  | with_reducible refine State.Sound.vaults ?_ _ _
  | with_reducible refine State.Sound.fars ?_ _ _
  | with_reducible refine State.Sound.aperture ?_ _ _
  | with_reducible refine State.Sound.rings ?_ _ _
  | (with_reducible refine State.Sound.mk ?_ ?_ ?_ ?_ ?_ ?_ ?_ <;> dsimp only)
  | with_reducible refine snd_sound_of_eq (by assumption) ?_
  | with_reducible refine fst_sound_of_eq (by assumption) ?_
  | dsimp only
  | split

theorem State.serve_sound (s : State) (e : EngineId) (q : ReqFrame) (i : Nat) (y : LedgerEntry) (hs : s.Sound) : (State.serve s e q i y).Sound := by
  unfold State.serve
  try dsimp only
  repeat' first
  | with_reducible assumption
  | with_reducible intro hc
  | with_reducible apply State.deed_sound
  | with_reducible apply State.modEntry_sound
  | with_reducible apply State.readMap_sound
  | with_reducible apply State.servePage_sound
  | with_reducible refine State.readMap_sound_eq (by assumption) ?_
  | with_reducible refine State.servePage_sound_eq (by assumption) ?_
  | with_reducible apply foldl_sound
  | with_reducible apply foldl_fst_sound
  | with_reducible apply foldl_snd_sound
  | with_reducible apply ite_sound
  | with_reducible refine snd_sound_of_eq (by assumption) ?_
  | with_reducible refine fst_sound_of_eq (by assumption) ?_
  | dsimp only
  | split

theorem requestFetch_sound (q : ReqFrame) (s : State) (hs : s.Sound) : (requestFetch q s).Sound := by
  unfold requestFetch
  try dsimp only
  repeat' first
  | with_reducible assumption
  | with_reducible intro hc
  | with_reducible apply State.modLed_sound
  | with_reducible apply State.sendRequest_sound
  | with_reducible apply State.dropUnadmitted_sound
  | with_reducible apply State.serve_sound
  | with_reducible apply ite_sound
  | split

theorem execRequestFetch_sound (q : ReqFrame) (s : State) (hs : s.Sound) : Res.Sound (execRequestFetch q s) := by
  unfold execRequestFetch
  try dsimp only
  repeat' first
  | with_reducible exact hs
  | with_reducible refine Res.next_sound ?_
  | with_reducible apply requestFetch_sound

theorem State.modFetch_sound (s : State) (e : EngineId) (h : BitVec 24) (req : Byte) (f : Fetch → Fetch) (hs : s.Sound) : (State.modFetch s e h req f).Sound := by
  unfold State.modFetch
  try dsimp only
  repeat' first
  | with_reducible exact hs
  | with_reducible apply State.modLed_sound

theorem State.dropFetch_sound (s : State) (e : EngineId) (h : BitVec 24) (req : Byte) (hs : s.Sound) : (State.dropFetch s e h req).Sound := by
  unfold State.dropFetch
  try dsimp only
  repeat' first
  | with_reducible exact hs
  | with_reducible apply State.modLed_sound

theorem State.restoreFail_sound (s : State) (st : Status) (h : BitVec 24) (hs : s.Sound) : (State.restoreFail s st h).Sound := by
  unfold State.restoreFail
  try dsimp only
  repeat' first
  | with_reducible assumption
  | with_reducible intro hc
  | with_reducible apply State.modAllEng_sound
  | with_reducible apply State.modJob_sound
  | with_reducible apply State.modCkpt_sound
  | with_reducible apply State.busyDone_sound
  | with_reducible apply State.held_sound
  | (with_reducible refine Engine.Sound.mk ?_ ?_ ?_ ?_ ?_ <;> dsimp only)
  | (have hq := ‹Engine.Sound _›; with_reducible exact hq.store)
  | (have hq := ‹Engine.Sound _›; with_reducible exact hq.acc)
  | (have hq := ‹Engine.Sound _›; with_reducible exact hq.chk)
  | (have hq := ‹Engine.Sound _›; with_reducible exact hq.vr)
  | (have hq := ‹Engine.Sound _›; with_reducible exact hq.queue)
  | with_reducible apply Engine.Sound.store
  | with_reducible apply Engine.Sound.acc
  | with_reducible apply Engine.Sound.chk
  | with_reducible apply Engine.Sound.vr
  | with_reducible apply Engine.Sound.queue
  | with_reducible refine State.Sound.eng ?_ _ _
  | with_reducible apply filter_le

theorem State.restartFetch_sound (s : State) (e : EngineId) (x : ShardEnt) (f : Fetch) (r : Rec4) (hs : s.Sound) : (State.restartFetch s e x f r).Sound := by
  unfold State.restartFetch
  try dsimp only
  repeat' first
  | with_reducible exact hs
  | with_reducible apply State.post_sound
  | with_reducible apply State.setErr_sound
  | with_reducible apply State.freeEntry_sound
  | with_reducible apply State.modFetch_sound
  | with_reducible apply State.askFetch_sound
  | split

theorem State.repairFail_sound (s : State) (e : EngineId) (h : BitVec 24) (hs : s.Sound) : (State.repairFail s e h).Sound := by
  unfold State.repairFail
  try dsimp only
  repeat' first
  | with_reducible exact hs
  | with_reducible apply State.raise_sound

theorem State.repairWith_sound (s : State) (e : EngineId) (h : BitVec 24) (i : Nat) (page : Nat) (data : List Byte) (hs : s.Sound) : (State.repairWith s e h i page data).Sound := by
  unfold State.repairWith
  try dsimp only
  repeat' first
  | with_reducible assumption
  | with_reducible intro hc
  | with_reducible apply State.chanWrite_sound
  | with_reducible apply State.repairFail_sound
  | with_reducible apply ite_sound
  | with_reducible refine snd_sound_of_eq (by assumption) ?_
  | with_reducible refine fst_sound_of_eq (by assumption) ?_
  | dsimp only
  | split

theorem State.repairMap_sound (s : State) (e : EngineId) (h : BitVec 24) (i : Nat) (k : Nat) (data : List Byte) (hs : s.Sound) : (State.repairMap s e h i k data).Sound := by
  unfold State.repairMap
  try dsimp only
  repeat' first
  | with_reducible assumption
  | with_reducible intro hc
  | with_reducible apply State.chanWrite_sound
  | with_reducible apply State.repairFail_sound
  | with_reducible apply ite_sound
  | (rw [Vector.getElem_map])
  | with_reducible refine snd_sound_of_eq (by assumption) ?_
  | with_reducible refine fst_sound_of_eq (by assumption) ?_
  | dsimp only
  | split

theorem State.fetchRefused_sound (s : State) (e : EngineId) (x : ShardEnt) (f : Fetch) (st : Status) (hs : s.Sound) : (State.fetchRefused s e x f st).Sound := by
  unfold State.fetchRefused
  try dsimp only
  repeat' first
  | with_reducible assumption
  | with_reducible intro hc
  | with_reducible apply State.freeEntry_sound
  | with_reducible apply State.askFetch_sound
  | with_reducible apply State.modFetch_sound
  | with_reducible apply State.dropFetch_sound
  | with_reducible apply State.restoreFail_sound
  | with_reducible apply State.repairFail_sound
  | with_reducible apply ite_sound
  | with_reducible refine snd_sound_of_eq (by assumption) ?_
  | with_reducible refine fst_sound_of_eq (by assumption) ?_
  | dsimp only
  | split

theorem fetchRetry_sound (e : EngineId) (shard : BitVec 24) (waited : Nat) (s : State) (hs : s.Sound) : (fetchRetry e shard waited s).Sound := by
  unfold fetchRetry
  try dsimp only
  repeat' first
  | with_reducible assumption
  | with_reducible intro hc
  | with_reducible apply State.modEng_sound
  | with_reducible apply State.askFetch_sound
  | with_reducible apply State.modFetch_sound
  | with_reducible apply ite_sound
  | (with_reducible refine Engine.Sound.mk ?_ ?_ ?_ ?_ ?_ <;> dsimp only)
  | (have hq := ‹Engine.Sound _›; with_reducible exact hq.store)
  | (have hq := ‹Engine.Sound _›; with_reducible exact hq.acc)
  | (have hq := ‹Engine.Sound _›; with_reducible exact hq.chk)
  | (have hq := ‹Engine.Sound _›; with_reducible exact hq.vr)
  | (have hq := ‹Engine.Sound _›; with_reducible exact hq.queue)
  | split

theorem execFetchRetry_sound (e : EngineId) (shard : BitVec 24) (waited : Nat) (s : State) (hs : s.Sound) : Res.Sound (execFetchRetry e shard waited s) := by
  unfold execFetchRetry
  try dsimp only
  repeat' first
  | with_reducible assumption
  | with_reducible refine Res.next_sound ?_
  | with_reducible apply fetchRetry_sound

theorem State.fetchDone_sound (s : State) (e : EngineId) (x : ShardEnt) (f : Fetch) (i : Nat) (r : Rec4) (hs : s.Sound) : (State.fetchDone s e x f i r).Sound := by
  unfold State.fetchDone
  try dsimp only
  repeat' first
  | with_reducible assumption
  | with_reducible intro hc
  | with_reducible apply State.modLed_sound
  | with_reducible apply State.modEntry_sound
  | with_reducible apply State.makeReady_sound
  | with_reducible apply State.promoteEntry_sound
  | with_reducible apply State.dropFetch_sound
  | with_reducible apply State.restartFetch_sound
  | with_reducible apply ite_sound

theorem State.fetchPageIn_sound (s : State) (b : ObjBlk) (pt : Option (List Byte)) (req : Byte) (h : BitVec 24) (isMap : Bool) (page : Nat) (hs : s.Sound) : (State.fetchPageIn s b pt req h isMap page).Sound := by
  unfold State.fetchPageIn
  try dsimp only
  repeat' first
  | with_reducible assumption
  | with_reducible intro hc
  | with_reducible apply State.allocEntry_sound
  | with_reducible apply State.writeVersionPage_sound
  | with_reducible apply State.askFetch_sound
  | with_reducible apply State.modFetch_sound
  | with_reducible apply State.dropFetch_sound
  | with_reducible apply State.restartFetch_sound
  | with_reducible apply State.repairFail_sound
  | with_reducible apply State.repairWith_sound
  | with_reducible apply State.repairMap_sound
  | with_reducible apply State.fetchDone_sound
  | with_reducible refine State.allocEntry_sound_eq (by assumption) ?_
  | with_reducible apply ite_sound
  | with_reducible apply ite_eng_sound
  | with_reducible refine snd_sound_of_eq (by assumption) ?_
  | with_reducible refine fst_sound_of_eq (by assumption) ?_
  | dsimp only
  | split

theorem State.mirrorWrite_sound (s : State) (x : ShardEnt) (k : Nat) (version : StepNo) (data : List Byte) (hs : s.Sound) : (State.mirrorWrite s x k version data).Sound := by
  unfold State.mirrorWrite
  try dsimp only
  repeat' first
  | with_reducible assumption
  | with_reducible intro hc
  | with_reducible apply State.chanWrite_sound
  | with_reducible apply State.putHostPage_sound
  | with_reducible apply ite_sound
  | with_reducible apply ite_eng_sound
  | with_reducible refine snd_sound_of_eq (by assumption) ?_
  | with_reducible refine fst_sound_of_eq (by assumption) ?_
  | dsimp only
  | split

theorem State.mirrorRead_sound (s : State) (x : ShardEnt) (k : Nat) (hs : s.Sound) : (State.mirrorRead s x k).2.Sound := by
  unfold State.mirrorRead
  try dsimp only
  repeat' first
  | with_reducible assumption
  | with_reducible intro hc
  | with_reducible apply State.fetchPage_sound
  | with_reducible apply State.hostPage_sound
  | with_reducible refine State.fetchPage_sound_eq (by assumption) ?_
  | with_reducible refine State.hostPage_sound_eq (by assumption) ?_
  | with_reducible apply ite_sound
  | with_reducible apply ite_snd_sound
  | with_reducible apply ite_fst_sound
  | with_reducible apply ite_eng_sound
  | with_reducible refine snd_sound_of_eq (by assumption) ?_
  | with_reducible refine fst_sound_of_eq (by assumption) ?_
  | dsimp only
  | split

theorem State.mirrorRead_sound_eq {s : State} {x : ShardEnt} {k : Nat} {a0} {t : State} (hq : State.mirrorRead s x k = (a0, t)) (hs : s.Sound) : t.Sound := by
  have := State.mirrorRead_sound s x k hs; rw [hq] at this; exact this

theorem State.slotBytes_sound (s : State) (x : ShardEnt) (slot : Nat) (hs : s.Sound) : (State.slotBytes s x slot).2.Sound := by
  unfold State.slotBytes
  try dsimp only
  repeat' first
  | with_reducible assumption
  | with_reducible intro hc
  | with_reducible apply State.mirrorRead_sound
  | with_reducible refine State.mirrorRead_sound_eq (by assumption) ?_
  | with_reducible apply foldl_sound
  | with_reducible apply foldl_fst_sound
  | with_reducible apply foldl_snd_sound
  | with_reducible refine snd_sound_of_eq (by assumption) ?_
  | with_reducible refine fst_sound_of_eq (by assumption) ?_
  | dsimp only
  | split

theorem State.slotBytes_sound_eq {s : State} {x : ShardEnt} {slot : Nat} {a0} {t : State} (hq : State.slotBytes s x slot = (a0, t)) (hs : s.Sound) : t.Sound := by
  have := State.slotBytes_sound s x slot hs; rw [hq] at this; exact this

theorem State.writeCommit_sound (s : State) (x : ShardEnt) (version : StepNo) (csum : W64) (hs : s.Sound) : (State.writeCommit s x version csum).Sound := by
  unfold State.writeCommit
  try dsimp only
  repeat' first
  | with_reducible exact hs
  | with_reducible apply State.mirrorWrite_sound

theorem State.commitCsum_sound (s : State) (x : ShardEnt) (hs : s.Sound) : (State.commitCsum s x).2.Sound := by
  unfold State.commitCsum
  try dsimp only
  repeat' first
  | with_reducible assumption
  | with_reducible intro hc
  | with_reducible apply State.mirrorRead_sound
  | with_reducible refine State.mirrorRead_sound_eq (by assumption) ?_
  | with_reducible apply ite_sound
  | with_reducible apply ite_snd_sound
  | with_reducible apply ite_fst_sound
  | with_reducible refine snd_sound_of_eq (by assumption) ?_
  | with_reducible refine fst_sound_of_eq (by assumption) ?_
  | dsimp only
  | split

theorem State.commitCsum_sound_eq {s : State} {x : ShardEnt} {a0} {t : State} (hq : State.commitCsum s x = (a0, t)) (hs : s.Sound) : t.Sound := by
  have := State.commitCsum_sound s x hs; rw [hq] at this; exact this

theorem State.clearSlots_sound (s : State) (x : ShardEnt) (version : StepNo) (p : Fin 2 → Bool) (hs : s.Sound) : (State.clearSlots s x version p).Sound := by
  unfold State.clearSlots
  try dsimp only
  repeat' first
  | with_reducible assumption
  | with_reducible intro hc
  | with_reducible apply State.modCkpt_sound
  | with_reducible apply State.writeCommit_sound
  | with_reducible apply State.commitCsum_sound
  | with_reducible refine State.commitCsum_sound_eq (by assumption) ?_
  | with_reducible apply filter_le
  | with_reducible refine snd_sound_of_eq (by assumption) ?_
  | with_reducible refine fst_sound_of_eq (by assumption) ?_
  | dsimp only
  | split

theorem State.mirrorAck_sound (s : State) (x : ShardEnt) (peer : Nat) (version : StepNo) (st : Status) (hs : s.Sound) : (State.mirrorAck s x peer version st).Sound := by
  unfold State.mirrorAck
  try dsimp only
  repeat' first
  | with_reducible exact hs
  | with_reducible apply State.sendRequest_sound

theorem State.mirrorCommit_sound (s : State) (x : ShardEnt) (peer : Nat) (v : StepNo) (hs : s.Sound) : (State.mirrorCommit s x peer v).Sound := by
  unfold State.mirrorCommit
  try dsimp only
  repeat' first
  | with_reducible assumption
  | with_reducible intro hc
  | with_reducible apply State.modCkpt_sound
  | with_reducible apply State.slotBytes_sound
  | with_reducible apply State.writeCommit_sound
  | with_reducible apply State.mirrorAck_sound
  | with_reducible refine State.slotBytes_sound_eq (by assumption) ?_
  | with_reducible apply filter_le
  | with_reducible refine snd_sound_of_eq (by assumption) ?_
  | with_reducible refine fst_sound_of_eq (by assumption) ?_
  | dsimp only
  | split

theorem State.tryCommit_sound (s : State) (x : ShardEnt) (v : StepNo) (hs : s.Sound) : (State.tryCommit s x v).Sound := by
  unfold State.tryCommit
  try dsimp only
  repeat' first
  | with_reducible exact hs
  | with_reducible apply State.mirrorCommit_sound
  | split

theorem State.mirrorPageFails_sound (s : State) (b : ObjBlk) (h : BitVec 24) (v : StepNo) (page : Nat) (x : ShardEnt) (hs : s.Sound) : (State.mirrorPageFails s b h v page x).Sound := by
  unfold State.mirrorPageFails
  try dsimp only
  repeat' first
  | with_reducible exact hs
  | with_reducible intro hc
  | with_reducible apply ite_sound
  | with_reducible apply State.modCkpt_sound
  | with_reducible apply State.sendMsgCtrl_sound
  | with_reducible apply State.clearSlots_sound
  | with_reducible apply State.mirrorAck_sound

theorem State.mirrorPageIn_sound (s : State) (b : ObjBlk) (pt : Option (List Byte)) (h : BitVec 24) (v : StepNo) (page : Nat) (hs : s.Sound) : (State.mirrorPageIn s b pt h v page).Sound := by
  unfold State.mirrorPageIn
  try dsimp only
  repeat' first
  | with_reducible assumption
  | with_reducible intro hc
  | with_reducible apply State.modCkpt_sound
  | with_reducible apply State.mirrorWrite_sound
  | with_reducible apply State.clearSlots_sound
  | with_reducible apply State.tryCommit_sound
  | with_reducible apply State.mirrorPageFails_sound
  | with_reducible refine State.clearSlots_sound_eq (by assumption) ?_
  | with_reducible apply ite_sound
  | with_reducible apply filter_le
  | with_reducible refine snd_sound_of_eq (by assumption) ?_
  | with_reducible refine fst_sound_of_eq (by assumption) ?_
  | dsimp only
  | split

theorem requestCommit_sound (q : ReqFrame) (s : State) (hs : s.Sound) : (requestCommit q s).Sound := by
  unfold requestCommit
  try dsimp only
  repeat' first
  | with_reducible exact hs
  | with_reducible apply State.dropUnadmitted_sound
  | with_reducible apply State.modCkpt_sound
  | with_reducible apply State.tryCommit_sound
  | split

theorem execRequestCommit_sound (q : ReqFrame) (s : State) (hs : s.Sound) : Res.Sound (execRequestCommit q s) := by
  unfold execRequestCommit
  try dsimp only
  repeat' first
  | with_reducible exact hs
  | with_reducible refine Res.next_sound ?_
  | with_reducible apply requestCommit_sound

theorem State.setUnmirrored_sound (s : State) (h : BitVec 24) (on : Bool) (hs : s.Sound) : (State.setUnmirrored s h on).Sound := by
  unfold State.setUnmirrored
  try dsimp only
  repeat' first
  | with_reducible exact hs
  | with_reducible apply State.modCkpt_sound

theorem commitAck_sound (q : ReqFrame) (s : State) (hs : s.Sound) : (commitAck q s).Sound := by
  unfold commitAck
  try dsimp only
  repeat' first
  | with_reducible assumption
  | with_reducible intro hc
  | with_reducible apply State.modCkpt_sound
  | with_reducible apply State.post_sound
  | with_reducible apply State.dropUnadmitted_sound
  | with_reducible apply State.mirrorDone_sound
  | with_reducible apply State.setUnmirrored_sound
  | with_reducible apply ite_sound
  | split

theorem execCommitAck_sound (q : ReqFrame) (s : State) (hs : s.Sound) : Res.Sound (execCommitAck q s) := by
  unfold execCommitAck
  try dsimp only
  repeat' first
  | with_reducible exact hs
  | with_reducible refine Res.next_sound ?_
  | with_reducible apply commitAck_sound

end Sys2Proof.Machine
end

