-- ==== Sys2Proof/Laws/SoundPeers.lean ====
section
/-! SUPPORT. What the operations and meanings of Machine/Peers keep of a sound state. -/

namespace Sys2Proof.Machine

theorem State.peerLostEvent_sound (s : State) (i : Nat) (hs : s.Sound) : (State.peerLostEvent s i).Sound := by
  unfold State.peerLostEvent
  try dsimp only
  repeat' first
  | with_reducible assumption
  | with_reducible intro hc
  | with_reducible apply State.setErr_sound
  | with_reducible apply State.post_sound
  | with_reducible apply State.raise_sound

theorem State.ownerLost_sound (s : State) (m : BitVec 12) (x : ShardEnt) (hs : s.Sound) : (State.ownerLost s m x).Sound := by
  unfold State.ownerLost
  try dsimp only
  repeat' first
  | with_reducible exact hs
  | with_reducible apply State.modCkpt_sound
  | with_reducible apply State.takePartial_sound
  | with_reducible apply State.sendNorm_sound
  | with_reducible apply State.raise_sound
  | split

theorem State.mirrorLost_sound (s : State) (m : BitVec 12) (x : ShardEnt) (hs : s.Sound) : (State.mirrorLost s m x).Sound := by
  unfold State.mirrorLost
  try dsimp only
  repeat' first
  | with_reducible assumption
  | with_reducible intro hc
  | with_reducible apply State.modCkpt_sound
  | with_reducible apply State.mirrorDone_sound
  | with_reducible apply State.setUnmirrored_sound
  | with_reducible apply ite_sound

theorem State.rootLost_sound (s : State) (hs : s.Sound) : (State.rootLost s).Sound := by
  unfold State.rootLost
  try dsimp only
  repeat' first
  | with_reducible assumption
  | with_reducible intro hc
  | with_reducible apply ite_sound
  | with_reducible apply State.sendPartial_sound
  | with_reducible apply foldl_sound

theorem State.markLost_sound (s : State) (i : Nat) (e : PeerEnt) (hs : s.Sound) : (State.markLost s i e).Sound := by
  unfold State.markLost
  try dsimp only
  repeat' first
  | with_reducible exact hs
  | with_reducible refine State.Sound.eng ?_
  | with_reducible refine State.Sound.vaults ?_
  | with_reducible refine State.Sound.fars ?_
  | with_reducible refine State.Sound.mbox ?_
  | with_reducible refine State.Sound.book ?_
  | with_reducible refine State.Sound.aperture ?_
  | with_reducible refine State.Sound.rings ?_
  | with_reducible intro hc
  | with_reducible apply ite_sound
  | with_reducible apply State.modPeer_sound
  | with_reducible apply State.peerLostEvent_sound
  | with_reducible apply State.modCkpt_sound
  | (with_reducible refine State.Sound.mk ?_ ?_ ?_ ?_ ?_ ?_ ?_ <;> dsimp only)

theorem State.storageLost_sound (s : State) (i : Nat) (hs : s.Sound) : (State.storageLost s i).Sound := by
  unfold State.storageLost
  try dsimp only
  repeat' first
  | with_reducible exact hs
  | with_reducible apply State.drainFail_sound
  | split

theorem State.restoreLost_sound (s : State) (m : BitVec 12) (hs : s.Sound) : (State.restoreLost s m).Sound := by
  unfold State.restoreLost
  try dsimp only
  repeat' first
  | with_reducible exact hs
  | with_reducible apply State.restoreFail_sound
  | split

theorem State.serveLost_sound (s : State) (i : Nat) (hs : s.Sound) : (State.serveLost s i).Sound := by
  unfold State.serveLost
  try dsimp only
  repeat' first
  | with_reducible assumption
  | with_reducible intro hc
  | with_reducible apply State.pageSent_sound
  | with_reducible apply foldl_sound

theorem State.modulePeerLost_sound (s : State) (i : Nat) (e : PeerEnt) (hs : s.Sound) : (State.modulePeerLost s i e).Sound := by
  unfold State.modulePeerLost
  try dsimp only
  repeat' first
  | with_reducible assumption
  | with_reducible intro hc
  | with_reducible apply State.clrPeerLost_sound
  | with_reducible apply State.ownerLost_sound
  | with_reducible apply State.mirrorLost_sound
  | with_reducible apply State.rootLost_sound
  | with_reducible apply State.restoreLost_sound
  | with_reducible apply State.serveLost_sound
  | with_reducible apply foldl_sound
  | with_reducible apply ite_sound

theorem State.declareOne_sound (s : State) (i : Nat) (hs : s.Sound) : (State.declareOne s i).Sound := by
  unfold State.declareOne
  try dsimp only
  repeat' first
  | with_reducible exact hs
  | with_reducible apply State.markLost_sound
  | with_reducible apply State.storageLost_sound
  | with_reducible apply State.modulePeerLost_sound
  | split

theorem State.declareLost_sound (s : State) (i : Nat) (hs : s.Sound) : (State.declareLost s i).Sound := by
  unfold State.declareLost
  try dsimp only
  repeat' first
  | with_reducible exact hs
  | with_reducible apply State.declareOne_sound
  | with_reducible apply foldl_sound

theorem execPeerLostTimeout_sound (peer : Nat) (s : State) (hs : s.Sound) : Res.Sound (execPeerLostTimeout peer s) := by
  unfold execPeerLostTimeout
  try dsimp only
  repeat' first
  | with_reducible exact hs
  | with_reducible refine Res.next_sound ?_
  | with_reducible apply State.declareLost_sound

theorem execLeave_sound (peer : Nat) (s : State) (hs : s.Sound) : Res.Sound (execLeave peer s) := by
  unfold execLeave
  try dsimp only
  repeat' first
  | with_reducible exact hs
  | with_reducible refine Res.next_sound ?_
  | with_reducible apply State.declareLost_sound

theorem execKeepalive_sound (peer : Nat) (s : State) (hs : s.Sound) : Res.Sound (execKeepalive peer s) := by
  unfold execKeepalive
  try dsimp only
  repeat' first
  | with_reducible exact hs
  | with_reducible intro hc
  | with_reducible apply ite_sound
  | with_reducible refine Res.next_sound ?_
  | with_reducible apply State.sendCtrl_sound

theorem State.refusePeer_sound (s : State) (i : Nat) (hs : s.Sound) : (State.refusePeer s i).Sound := by
  unfold State.refusePeer
  try dsimp only
  repeat' first
  | with_reducible assumption
  | with_reducible intro hc
  | with_reducible apply State.modPeer_sound
  | with_reducible apply State.post_sound
  | with_reducible apply State.dbAppend_sound
  | with_reducible apply State.declareLost_sound
  | with_reducible refine snd_sound_of_eq (by assumption) ?_
  | with_reducible refine fst_sound_of_eq (by assumption) ?_
  | dsimp only
  | split

theorem sendAdmit_sound (i : Nat) (kind : Byte) (body : List Byte) (s : State) (hs : s.Sound) : (sendAdmit i kind body s).Sound := by
  unfold sendAdmit
  try dsimp only
  repeat' first
  | with_reducible exact hs
  | with_reducible apply State.sendCtrl_sound

theorem State.tryAdmit_sound (s : State) (i : Nat) (hs : s.Sound) : (State.tryAdmit s i).Sound := by
  unfold State.tryAdmit
  try dsimp only
  repeat' first
  | with_reducible assumption
  | with_reducible intro hc
  | with_reducible apply State.modPeer_sound
  | with_reducible apply State.dbAppend_sound
  | with_reducible apply State.grant_sound
  | with_reducible apply foldl_sound
  | with_reducible apply foldl_fst_sound
  | with_reducible apply foldl_snd_sound
  | with_reducible apply ite_sound
  | (rw [Vector.getElem_replicate])
  | with_reducible refine snd_sound_of_eq (by assumption) ?_
  | with_reducible refine fst_sound_of_eq (by assumption) ?_
  | dsimp only
  | split

theorem State.sendConfirm_sound (s : State) (i : Nat) (hs : s.Sound) : (State.sendConfirm s i).Sound := by
  unfold State.sendConfirm
  try dsimp only
  repeat' first
  | with_reducible exact hs
  | with_reducible intro hc
  | with_reducible apply ite_sound
  | with_reducible apply sendAdmit_sound
  | with_reducible apply State.tryAdmit_sound

theorem peerAdmit_sound (s : State) (hs : s.Sound) : (peerAdmit s).Sound := by
  unfold peerAdmit
  try dsimp only
  repeat' first
  | with_reducible assumption
  | with_reducible intro hc
  | with_reducible apply ite_sound
  | with_reducible apply State.random_sound
  | with_reducible apply State.modPeer_sound
  | with_reducible apply sendAdmit_sound
  | with_reducible apply foldl_sound

theorem execPeerAdmit_sound (s : State) (hs : s.Sound) : Res.Sound (execPeerAdmit s) := by
  unfold execPeerAdmit
  try dsimp only
  repeat' first
  | with_reducible exact hs
  | with_reducible refine Res.next_sound ?_
  | with_reducible apply peerAdmit_sound

theorem reportReq_sound (i : Nat) (nonce : Dig256) (s : State) (hs : s.Sound) : (reportReq i nonce s).Sound := by
  unfold reportReq
  try dsimp only
  repeat' first
  | with_reducible assumption
  | with_reducible intro hc
  | with_reducible apply State.modPeer_sound
  | with_reducible apply sendAdmit_sound
  | with_reducible apply State.sendConfirm_sound
  | with_reducible apply ite_sound
  | dsimp only
  | split

theorem execReportReq_sound (peer : Nat) (nonce : Dig256) (s : State) (hs : s.Sound) : Res.Sound (execReportReq peer nonce s) := by
  unfold execReportReq
  try dsimp only
  repeat' first
  | with_reducible exact hs
  | with_reducible refine Res.next_sound ?_
  | with_reducible apply reportReq_sound

theorem admitReport_sound (i : Nat) (report cert : Bytes) (s : State) (hs : s.Sound) : (admitReport i report cert s).Sound := by
  unfold admitReport
  try dsimp only
  repeat' first
  | with_reducible assumption
  | with_reducible intro hc
  | with_reducible apply State.modPeer_sound
  | with_reducible apply State.dbAppend_sound
  | with_reducible apply State.refusePeer_sound
  | with_reducible apply State.modSec_sound
  | with_reducible apply sendAdmit_sound
  | with_reducible apply State.sendConfirm_sound
  | split

theorem execAdmitReport_sound (peer : Nat) (report cert : Bytes) (s : State) (hs : s.Sound) : Res.Sound (execAdmitReport peer report cert s) := by
  unfold execAdmitReport
  try dsimp only
  repeat' first
  | with_reducible exact hs
  | with_reducible refine Res.next_sound ?_
  | with_reducible apply admitReport_sound

theorem kemCt_sound (i : Nat) (ct : Bytes) (s : State) (hs : s.Sound) : (kemCt i ct s).Sound := by
  unfold kemCt
  try dsimp only
  repeat' first
  | with_reducible assumption
  | with_reducible intro hc
  | with_reducible apply State.modPeer_sound
  | with_reducible apply sendAdmit_sound
  | with_reducible apply State.sendConfirm_sound
  | with_reducible apply ite_sound
  | dsimp only
  | split

theorem execKemCt_sound (peer : Nat) (ct : Bytes) (s : State) (hs : s.Sound) : Res.Sound (execKemCt peer ct s) := by
  unfold execKemCt
  try dsimp only
  repeat' first
  | with_reducible exact hs
  | with_reducible refine Res.next_sound ?_
  | with_reducible apply kemCt_sound

theorem State.newKeys_sound (s : State) (i : Nat) (ss : Dig256) (hs : s.Sound) : (State.newKeys s i ss).Sound := by
  unfold State.newKeys
  try dsimp only
  repeat' first
  | with_reducible assumption
  | with_reducible intro hc
  | with_reducible apply State.modPeer_sound
  | (rw [Vector.getElem_replicate])
  | with_reducible refine snd_sound_of_eq (by assumption) ?_
  | with_reducible refine fst_sound_of_eq (by assumption) ?_
  | dsimp only
  | split

theorem keyConfirm_sound (i : Nat) (confirm : Bytes) (s : State) (hs : s.Sound) : (keyConfirm i confirm s).Sound := by
  unfold keyConfirm
  try dsimp only
  repeat' first
  | with_reducible exact hs
  | with_reducible apply State.newKeys_sound
  | with_reducible apply State.modPeer_sound
  | with_reducible apply State.tryAdmit_sound
  | with_reducible apply State.refusePeer_sound
  | split

theorem execKeyConfirm_sound (peer : Nat) (confirm : Bytes) (s : State) (hs : s.Sound) : Res.Sound (execKeyConfirm peer confirm s) := by
  unfold execKeyConfirm
  try dsimp only
  repeat' first
  | with_reducible exact hs
  | with_reducible refine Res.next_sound ?_
  | with_reducible apply keyConfirm_sound

theorem rekey_sound (i : Nat) (s : State) (hs : s.Sound) : (rekey i s).Sound := by
  unfold rekey
  try dsimp only
  repeat' first
  | with_reducible assumption
  | with_reducible intro hc
  | with_reducible apply State.modPeer_sound
  | with_reducible apply State.modSec_sound
  | with_reducible apply sendAdmit_sound
  | with_reducible apply ite_sound
  | (intros; rfl)
  | with_reducible refine snd_sound_of_eq (by assumption) ?_
  | with_reducible refine fst_sound_of_eq (by assumption) ?_
  | dsimp only
  | split

theorem execRekey_sound (peer : Nat) (s : State) (hs : s.Sound) : Res.Sound (execRekey peer s) := by
  unfold execRekey
  try dsimp only
  repeat' first
  | with_reducible exact hs
  | with_reducible refine Res.next_sound ?_
  | with_reducible apply rekey_sound

end Sys2Proof.Machine
end

