-- ==== Sys2Proof/Laws/SoundBoundary.lean ====
section
/-! SUPPORT. What the operations and meanings of Machine/Boundary keep of a sound state. -/

namespace Sys2Proof.Machine

theorem auditCompare_sound (r : AuditRun) (auditorBad : Option W32) (ownBad : Option W32) (s : State) (hs : s.Sound) : (auditCompare r auditorBad ownBad s).Sound := by
  unfold auditCompare
  try dsimp only
  repeat' first
  | with_reducible assumption
  | with_reducible intro hc
  | with_reducible apply State.modEngInt_sound
  | with_reducible apply State.modInt_sound
  | with_reducible apply ite_sound
  | with_reducible apply ite_eng_sound
  | (with_reducible refine Engine.Sound.mk ?_ ?_ ?_ ?_ ?_ <;> dsimp only)
  | (have hq := ‹Engine.Sound _›; with_reducible exact hq.store)
  | (have hq := ‹Engine.Sound _›; with_reducible exact hq.acc)
  | (have hq := ‹Engine.Sound _›; with_reducible exact hq.chk)
  | (have hq := ‹Engine.Sound _›; with_reducible exact hq.vr)
  | (have hq := ‹Engine.Sound _›; with_reducible exact hq.queue)
  | with_reducible apply Engine.Sound.store
  | with_reducible apply Engine.Sound.acc
  | with_reducible apply Engine.Sound.chk
  | with_reducible apply Engine.Sound.vr
  | with_reducible apply Engine.Sound.queue
  | with_reducible refine State.Sound.eng ?_ _ _
  | (intros; rfl)
  | with_reducible refine snd_sound_of_eq (by assumption) ?_
  | with_reducible refine fst_sound_of_eq (by assumption) ?_
  | dsimp only
  | split

theorem execAuditCompare_sound (r : AuditRun) (auditorBad : Option W32) (ownBad : Option W32) (s : State) (hs : s.Sound) : Res.Sound (execAuditCompare r auditorBad ownBad s) := by
  unfold execAuditCompare
  try dsimp only
  repeat' first
  | with_reducible assumption
  | with_reducible intro hc
  | with_reducible refine Res.next_sound ?_
  | with_reducible apply auditCompare_sound
  | exact trivial

theorem State.auditWindow_sound (s : State) (named : EngineId) (auditor : EngineId) (u : Unit5) (hs : s.Sound) : (State.auditWindow s named auditor u).Sound := by
  unfold State.auditWindow
  try dsimp only
  repeat' first
  | with_reducible assumption
  | with_reducible apply State.faultWindow_sound

theorem State.auditEvent_sound (s : State) (e : EngineId) (hs : s.Sound) : (State.auditEvent s e).Sound := by
  unfold State.auditEvent
  try dsimp only
  repeat' first
  | with_reducible assumption
  | with_reducible apply State.setErr_sound
  | with_reducible apply State.raise_sound

theorem State.auditFault_sound (s : State) (named : EngineId) (auditor : EngineId) (u : Unit5) (hs : s.Sound) : (State.auditFault s named auditor u).Sound := by
  unfold State.auditFault
  try dsimp only
  repeat' first
  | with_reducible assumption
  | with_reducible apply State.quarantine_sound
  | with_reducible apply State.auditWindow_sound
  | with_reducible apply State.auditEvent_sound

theorem State.auditSplit_sound (s : State) (e : EngineId) (auditor : EngineId) (u : Unit5) (hs : s.Sound) : (State.auditSplit s e auditor u).Sound := by
  unfold State.auditSplit
  try dsimp only
  repeat' first
  | with_reducible assumption
  | with_reducible apply State.auditWindow_sound
  | with_reducible apply State.auditEvent_sound

theorem auditVote_sound (r : AuditRun) (thirdBad : Option W32) (s : State) (hs : s.Sound) : (auditVote r thirdBad s).Sound := by
  unfold auditVote
  try dsimp only
  repeat' first
  | with_reducible assumption
  | with_reducible intro hc
  | with_reducible apply State.modInt_sound
  | with_reducible apply State.auditFault_sound
  | with_reducible apply State.auditSplit_sound
  | with_reducible apply ite_sound
  | with_reducible apply ite_eng_sound
  | (with_reducible refine Engine.Sound.mk ?_ ?_ ?_ ?_ ?_ <;> dsimp only)
  | (have hq := ‹Engine.Sound _›; with_reducible exact hq.store)
  | (have hq := ‹Engine.Sound _›; with_reducible exact hq.acc)
  | (have hq := ‹Engine.Sound _›; with_reducible exact hq.chk)
  | (have hq := ‹Engine.Sound _›; with_reducible exact hq.vr)
  | (have hq := ‹Engine.Sound _›; with_reducible exact hq.queue)
  | with_reducible apply Engine.Sound.store
  | with_reducible apply Engine.Sound.acc
  | with_reducible apply Engine.Sound.chk
  | with_reducible apply Engine.Sound.vr
  | with_reducible apply Engine.Sound.queue
  | with_reducible refine State.Sound.eng ?_ _ _
  | with_reducible apply filter_le
  | (intros; rfl)
  | with_reducible refine snd_sound_of_eq (by assumption) ?_
  | with_reducible refine fst_sound_of_eq (by assumption) ?_
  | dsimp only
  | split

theorem execAuditVote_sound (r : AuditRun) (thirdBad : Option W32) (s : State) (hs : s.Sound) : Res.Sound (execAuditVote r thirdBad s) := by
  unfold execAuditVote
  try dsimp only
  repeat' first
  | with_reducible assumption
  | with_reducible intro hc
  | with_reducible refine Res.next_sound ?_
  | with_reducible apply auditVote_sound
  | exact trivial

theorem State.auditBoundary_sound (s : State) (step : StepNo) (hs : s.Sound) : (State.auditBoundary s step).Sound := by
  unfold State.auditBoundary
  try dsimp only
  repeat' first
  | with_reducible assumption
  | with_reducible intro hc
  | with_reducible apply State.modEngInt_sound
  | with_reducible apply State.modInt_sound
  | with_reducible apply foldl_sound
  | with_reducible apply foldl_fst_sound
  | with_reducible apply foldl_snd_sound
  | with_reducible apply foldl_eng_sound
  | with_reducible apply ite_sound
  | with_reducible apply ite_eng_sound
  | (with_reducible refine Engine.Sound.mk ?_ ?_ ?_ ?_ ?_ <;> dsimp only)
  | exact Nat.zero_le _
  | exact rfl
  | (have hq := ‹Engine.Sound _›; with_reducible exact hq.store)
  | (have hq := ‹Engine.Sound _›; with_reducible exact hq.acc)
  | (have hq := ‹Engine.Sound _›; with_reducible exact hq.chk)
  | (have hq := ‹Engine.Sound _›; with_reducible exact hq.vr)
  | (have hq := ‹Engine.Sound _›; with_reducible exact hq.queue)
  | with_reducible apply Engine.Sound.store
  | with_reducible apply Engine.Sound.acc
  | with_reducible apply Engine.Sound.chk
  | with_reducible apply Engine.Sound.vr
  | with_reducible apply Engine.Sound.queue
  | with_reducible refine State.Sound.eng ?_ _ _
  | (intros; rfl)
  | with_reducible refine snd_sound_of_eq (by assumption) ?_
  | with_reducible refine fst_sound_of_eq (by assumption) ?_
  | dsimp only
  | split

theorem State.derivedPages_sound (s : State) (e : EngineId) (x : ShardEnt) (y : LedgerEntry) (masters : List (List Byte)) (hs : s.Sound) : (State.derivedPages s e x y masters).2.Sound := by
  unfold State.derivedPages
  try dsimp only
  repeat' first
  | with_reducible assumption
  | with_reducible intro hc
  | with_reducible apply State.modVec_sound
  | with_reducible apply Engine.init_sound
  | with_reducible apply CtlSt.init_sound
  | with_reducible apply RingSt.init_sound
  | with_reducible apply EngVec.tally_sound
  | with_reducible apply State.updEvents_sound
  | with_reducible apply foldl_sound
  | with_reducible apply foldl_fst_sound
  | with_reducible apply foldl_snd_sound
  | with_reducible apply foldl_snd2_sound
  | with_reducible apply foldl_snd3_sound
  | with_reducible refine snd_sound_of_eq (by assumption) ?_
  | with_reducible refine fst_sound_of_eq (by assumption) ?_
  | dsimp only
  | split

theorem State.derivedPages_sound_eq {s : State} {e : EngineId} {x : ShardEnt} {y : LedgerEntry} {masters : List (List Byte)} {a0} {t : State} (hq : State.derivedPages s e x y masters = (a0, t)) (hs : s.Sound) : t.Sound := by
  have := State.derivedPages_sound s e x y masters hs; rw [hq] at this; exact this

theorem State.driftPages_sound (s : State) (e : EngineId) (y : LedgerEntry) (ps : List (Nat × List Byte)) (hs : s.Sound) : (State.driftPages s e y ps).2.Sound := by
  unfold State.driftPages
  try dsimp only
  repeat' first
  | with_reducible assumption
  | with_reducible intro hc
  | with_reducible apply State.fetchPage_sound
  | with_reducible refine State.fetchPage_sound_eq (by assumption) ?_
  | with_reducible apply foldl_sound
  | with_reducible apply foldl_fst_sound
  | with_reducible apply foldl_snd_sound
  | with_reducible apply ite_sound
  | with_reducible apply ite_snd_sound
  | with_reducible apply ite_fst_sound
  | with_reducible refine snd_sound_of_eq (by assumption) ?_
  | with_reducible refine fst_sound_of_eq (by assumption) ?_
  | dsimp only
  | split

theorem State.driftPages_sound_eq {s : State} {e : EngineId} {y : LedgerEntry} {ps : List (Nat × List Byte)} {a0} {t : State} (hq : State.driftPages s e y ps = (a0, t)) (hs : s.Sound) : t.Sound := by
  have := State.driftPages_sound s e y ps hs; rw [hq] at this; exact this

theorem State.driftShard_sound (s : State) (e : EngineId) (step : StepNo) (x : ShardEnt) (hs : s.Sound) : (State.driftShard s e step x).Sound := by
  unfold State.driftShard
  try dsimp only
  repeat' first
  | with_reducible assumption
  | with_reducible intro hc
  | with_reducible apply State.modLed_sound
  | with_reducible apply State.setErr_sound
  | with_reducible apply State.post_sound
  | with_reducible apply State.readMasters_sound
  | with_reducible apply State.derivedPages_sound
  | with_reducible apply State.driftPages_sound
  | with_reducible refine State.readMasters_sound_eq (by assumption) ?_
  | with_reducible refine State.derivedPages_sound_eq (by assumption) ?_
  | with_reducible refine State.driftPages_sound_eq (by assumption) ?_
  | with_reducible apply foldl_sound
  | with_reducible apply foldl_fst_sound
  | with_reducible apply foldl_snd_sound
  | with_reducible apply foldl_eng_sound
  | with_reducible apply ite_sound
  | with_reducible apply ite_eng_sound
  | with_reducible refine snd_sound_of_eq (by assumption) ?_
  | with_reducible refine fst_sound_of_eq (by assumption) ?_
  | dsimp only
  | split

theorem State.driftAudit_sound (s : State) (step : StepNo) (hs : s.Sound) : (State.driftAudit s step).Sound := by
  unfold State.driftAudit
  try dsimp only
  repeat' first
  | with_reducible assumption
  | with_reducible intro hc
  | with_reducible apply State.driftShard_sound
  | with_reducible apply foldl_sound
  | split

theorem State.holdNow_sound (s : State) (hs : s.Sound) : (State.holdNow s).Sound := by
  unfold State.holdNow
  try dsimp only
  repeat' first
  | with_reducible assumption
  | with_reducible intro hc
  | with_reducible apply State.cancelPending_sound
  | with_reducible apply State.modJob_sound
  | with_reducible apply State.modInt_sound
  | with_reducible apply State.setErr_sound

theorem State.dropFetches_sound (s : State) (e : EngineId) (h : BitVec 24) (hs : s.Sound) : (State.dropFetches s e h).Sound := by
  unfold State.dropFetches
  try dsimp only
  repeat' first
  | with_reducible assumption
  | with_reducible intro hc
  | with_reducible apply ite_sound
  | with_reducible apply State.freeEntry_sound
  | with_reducible apply State.modLed_sound
  | with_reducible apply foldl_sound

theorem State.rederive_sound (s : State) (e : EngineId) (x : ShardEnt) (version : StepNo) (hs : s.Sound) : (State.rederive s e x version).Sound := by
  unfold State.rederive
  try dsimp only
  repeat' first
  | with_reducible assumption
  | with_reducible intro hc
  | with_reducible apply State.raise_sound
  | with_reducible apply State.allocEntry_sound
  | with_reducible apply State.freeEntry_sound
  | with_reducible apply State.promoteEntry_sound
  | with_reducible apply State.deriveShard_sound
  | with_reducible refine State.allocEntry_sound_eq (by assumption) ?_
  | with_reducible refine State.deriveShard_sound_eq (by assumption) ?_
  | with_reducible refine snd_sound_of_eq (by assumption) ?_
  | with_reducible refine fst_sound_of_eq (by assumption) ?_
  | dsimp only
  | split

theorem State.publishSame_sound (s : State) (e : EngineId) (x : ShardEnt) (version : StepNo) (hs : s.Sound) : (State.publishSame s e x version).Sound := by
  unfold State.publishSame
  try dsimp only
  repeat' first
  | with_reducible exact hs
  | with_reducible refine State.allocEntry_sound_eq (by assumption) ?_
  | with_reducible apply State.makeReady_sound
  | split

theorem State.noSlot_sound (s : State) (x : ShardEnt) (hs : s.Sound) : (State.noSlot s x).Sound := by
  unfold State.noSlot
  try dsimp only
  repeat' first
  | with_reducible exact hs
  | with_reducible apply State.post_sound
  | with_reducible apply State.holdNow_sound

theorem State.takeOver_sound (s : State) (step : StepNo) (skipped : Bool) (x : ShardEnt) (hs : s.Sound) : (State.takeOver s step skipped x).Sound := by
  unfold State.takeOver
  try dsimp only
  repeat' first
  | with_reducible assumption
  | with_reducible intro hc
  | with_reducible apply State.modLed_sound
  | with_reducible apply State.modCkpt_sound
  | with_reducible apply State.setUnmirrored_sound
  | with_reducible apply State.dropFetches_sound
  | with_reducible apply State.rederive_sound
  | with_reducible apply State.publishSame_sound
  | with_reducible apply State.noSlot_sound
  | with_reducible apply ite_sound
  | split

theorem State.takeovers_sound (s : State) (step : StepNo) (skipped : Bool) (hs : s.Sound) : (State.takeovers s step skipped).Sound := by
  unfold State.takeovers
  try dsimp only
  repeat' first
  | with_reducible assumption
  | with_reducible refine State.Sound.eng ?_
  | with_reducible refine State.Sound.vaults ?_
  | with_reducible refine State.Sound.fars ?_
  | with_reducible refine State.Sound.mbox ?_
  | with_reducible refine State.Sound.book ?_
  | with_reducible refine State.Sound.aperture ?_
  | with_reducible refine State.Sound.rings ?_
  | with_reducible intro hc
  | with_reducible apply State.takeOver_sound
  | with_reducible apply State.modCkpt_sound
  | with_reducible apply State.askFetch_sound
  | with_reducible apply foldl_sound
  | (with_reducible refine State.Sound.mk ?_ ?_ ?_ ?_ ?_ ?_ ?_ <;> dsimp only)

theorem State.elastic_sound (s : State) (hs : s.Sound) : (State.elastic s).Sound := by
  unfold State.elastic
  try dsimp only
  repeat' first
  | with_reducible assumption
  | with_reducible intro hc
  | with_reducible apply State.modEng_sound
  | with_reducible apply foldl_sound
  | (with_reducible refine Engine.Sound.mk ?_ ?_ ?_ ?_ ?_ <;> dsimp only)
  | (have hq := ‹Engine.Sound _›; with_reducible exact hq.store)
  | (have hq := ‹Engine.Sound _›; with_reducible exact hq.acc)
  | (have hq := ‹Engine.Sound _›; with_reducible exact hq.chk)
  | (have hq := ‹Engine.Sound _›; with_reducible exact hq.vr)
  | (have hq := ‹Engine.Sound _›; with_reducible exact hq.queue)
  | split

theorem State.applyLive_sound (s : State) (hs : s.Sound) : (State.applyLive s).Sound := by
  unfold State.applyLive
  try dsimp only
  repeat' first
  | with_reducible assumption
  | with_reducible intro hc
  | with_reducible apply State.modCkpt_sound
  | with_reducible apply State.post_sound
  | with_reducible apply live_sound
  | with_reducible apply State.declareLost_sound
  | with_reducible apply State.holdNow_sound
  | with_reducible apply foldl_sound
  | with_reducible apply foldl_fst_sound
  | with_reducible apply foldl_snd_sound
  | with_reducible apply ite_sound
  | with_reducible apply filter_le
  | with_reducible refine snd_sound_of_eq (by assumption) ?_
  | with_reducible refine fst_sound_of_eq (by assumption) ?_
  | dsimp only
  | split

theorem Engine.startStep_sound (x : Engine) (t : Option SchedTable) (hs : x.Sound) : (Engine.startStep x t).Sound := by
  unfold Engine.startStep
  try dsimp only
  repeat' first
  | (with_reducible refine Engine.Sound.mk ?_ ?_ ?_ ?_ ?_ <;> dsimp only)
  | (have hq := ‹Engine.Sound _›; with_reducible exact hq.store)
  | (have hq := ‹Engine.Sound _›; with_reducible exact hq.acc)
  | (have hq := ‹Engine.Sound _›; with_reducible exact hq.chk)
  | (have hq := ‹Engine.Sound _›; with_reducible exact hq.vr)
  | (have hq := ‹Engine.Sound _›; with_reducible exact hq.queue)

theorem State.startStep_sound (s : State) (hs : s.Sound) : (State.startStep s).Sound := by
  unfold State.startStep
  try dsimp only
  repeat' first
  | with_reducible assumption
  | with_reducible intro hc
  | with_reducible apply State.modEng_sound
  | with_reducible apply State.modJob_sound
  | with_reducible apply State.clrStart_sound
  | with_reducible apply live_sound
  | with_reducible apply State.elastic_sound
  | with_reducible apply State.applyLive_sound
  | with_reducible apply Engine.startStep_sound
  | with_reducible apply foldl_sound
  | with_reducible apply foldl_fst_sound
  | with_reducible apply foldl_snd_sound
  | with_reducible apply foldl_eng_sound
  | with_reducible apply ite_sound
  | with_reducible apply ite_eng_sound
  | (with_reducible refine Engine.Sound.mk ?_ ?_ ?_ ?_ ?_ <;> dsimp only)
  | (have hq := ‹Engine.Sound _›; with_reducible exact hq.store)
  | (have hq := ‹Engine.Sound _›; with_reducible exact hq.acc)
  | (have hq := ‹Engine.Sound _›; with_reducible exact hq.chk)
  | (have hq := ‹Engine.Sound _›; with_reducible exact hq.vr)
  | (have hq := ‹Engine.Sound _›; with_reducible exact hq.queue)
  | with_reducible apply Engine.Sound.store
  | with_reducible apply Engine.Sound.acc
  | with_reducible apply Engine.Sound.chk
  | with_reducible apply Engine.Sound.vr
  | with_reducible apply Engine.Sound.queue
  | with_reducible refine State.Sound.eng ?_ _ _
  | with_reducible refine State.Sound.eng ?_
  | with_reducible refine State.Sound.vaults ?_
  | with_reducible refine State.Sound.fars ?_
  | with_reducible refine State.Sound.mbox ?_
  | with_reducible refine State.Sound.book ?_
  | with_reducible refine State.Sound.aperture ?_
  | with_reducible refine State.Sound.rings ?_
  | with_reducible refine State.Sound.eng ?_ _ _
  | with_reducible refine State.Sound.vaults ?_ _ _
  | with_reducible refine State.Sound.fars ?_ _ _
  | with_reducible refine State.Sound.aperture ?_ _ _
  | with_reducible refine State.Sound.rings ?_ _ _
  | (with_reducible refine State.Sound.mk ?_ ?_ ?_ ?_ ?_ ?_ ?_ <;> dsimp only)
  | dsimp only
  | split

theorem State.openWindow_sound (s : State) (step : StepNo) (hs : s.Sound) : (State.openWindow s step).Sound := by
  unfold State.openWindow
  try dsimp only
  repeat' first
  | with_reducible assumption
  | with_reducible intro hc
  | with_reducible apply ite_sound
  | with_reducible apply State.modInt_sound

theorem State.assayLeaves_sound (s : State) (e : EngineId) (hs : s.Sound) : (State.assayLeaves s e).Sound := by
  unfold State.assayLeaves
  try dsimp only
  repeat' first
  | with_reducible exact hs
  | with_reducible intro hc
  | with_reducible apply State.draw_sound
  | with_reducible apply State.modEng_sound
  | with_reducible apply State.modVec_sound
  | (with_reducible refine Engine.Sound.mk ?_ ?_ ?_ ?_ ?_ <;> dsimp only)
  | (have hq := ‹Engine.Sound _›; with_reducible exact hq.store)
  | (have hq := ‹Engine.Sound _›; with_reducible exact hq.chk)
  | (have hq := ‹Engine.Sound _›; with_reducible exact hq.vr)
  | (have hq := ‹Engine.Sound _›; with_reducible exact hq.queue)
  | with_reducible apply memWrite_wf
  | with_reducible apply memClear_wf
  | ((fail_if_success (with_reducible refine State.Sound.mk ?_ ?_ ?_ ?_ ?_ ?_ ?_)); first | assumption | (intros; rfl) | exact Nat.zero_le _ | exact rfl)
  | split

theorem State.assayResult_sound (s : State) (a : Assay) (r : AssayResult) (hs : s.Sound) : (State.assayResult s a r).Sound := by
  unfold State.assayResult
  try dsimp only
  repeat' first
  | with_reducible assumption
  | with_reducible intro hc
  | with_reducible apply State.modInt_sound
  | with_reducible apply State.setErr_sound
  | with_reducible apply State.post_sound
  | with_reducible apply State.strike_sound
  | with_reducible apply ite_sound
  | with_reducible apply ite_eng_sound
  | (with_reducible refine Engine.Sound.mk ?_ ?_ ?_ ?_ ?_ <;> dsimp only)
  | (have hq := ‹Engine.Sound _›; with_reducible exact hq.store)
  | (have hq := ‹Engine.Sound _›; with_reducible exact hq.acc)
  | (have hq := ‹Engine.Sound _›; with_reducible exact hq.chk)
  | (have hq := ‹Engine.Sound _›; with_reducible exact hq.vr)
  | (have hq := ‹Engine.Sound _›; with_reducible exact hq.queue)
  | with_reducible apply Engine.Sound.store
  | with_reducible apply Engine.Sound.acc
  | with_reducible apply Engine.Sound.chk
  | with_reducible apply Engine.Sound.vr
  | with_reducible apply Engine.Sound.queue
  | with_reducible refine State.Sound.eng ?_ _ _
  | (intros; rfl)
  | dsimp only
  | split

theorem State.assayUnits_sound (a : Assay) (e : EngineId) (tests : List AssayResult) (l : List Unit5) :
    ∀ (s : State) (left : Nat), s.Sound → (State.assayUnits s a e tests l left).Sound := by
  induction l with
  | nil => intro s _ hs; exact State.modEngInt_sound _ _ _ (State.modInt_sound _ _ hs fun _ hx => hx)
  | cons u us ih =>
    intro s left hs
    unfold State.assayUnits
    split
    · exact hs
    · dsimp only
      apply ite_sound
      · intro _; exact ih _ _ (State.assayResult_sound _ _ _ (State.modEngInt_sound _ _ _ hs))
      · intro _; exact State.modEngInt_sound _ _ _ hs

theorem State.assayOn_sound (s : State) (a : Assay) (limit : Nat) (tests : List AssayResult) (e : EngineId) (hs : s.Sound) : (State.assayOn s a limit tests e).Sound := by
  unfold State.assayOn
  try dsimp only
  repeat' first
  | with_reducible assumption
  | with_reducible intro hc
  | with_reducible apply State.assayLeaves_sound
  | with_reducible apply State.assayUnits_sound

theorem assayWindowEnd_sound (tests : List AssayResult) (s : State) (hs : s.Sound) : (assayWindowEnd tests s).Sound := by
  unfold assayWindowEnd
  try dsimp only
  repeat' first
  | with_reducible assumption
  | with_reducible intro hc
  | with_reducible apply State.modInt_sound
  | with_reducible apply Engine.startStep_sound
  | with_reducible apply State.startStep_sound
  | with_reducible apply State.assayOn_sound
  | with_reducible apply foldl_sound
  | with_reducible apply foldl_fst_sound
  | with_reducible apply foldl_snd_sound
  | with_reducible apply ite_sound
  | with_reducible apply filter_le
  | (intros; rfl)
  | with_reducible refine snd_sound_of_eq (by assumption) ?_
  | with_reducible refine fst_sound_of_eq (by assumption) ?_
  | dsimp only
  | split

theorem execAssayWindowEnd_sound (tests : List AssayResult) (s : State) (hs : s.Sound) : Res.Sound (execAssayWindowEnd tests s) := by
  unfold execAssayWindowEnd
  try dsimp only
  repeat' first
  | with_reducible assumption
  | with_reducible intro hc
  | with_reducible refine Res.next_sound ?_
  | with_reducible apply assayWindowEnd_sound
  | exact trivial

theorem idleAssay_sound (e : EngineId) (tests : List AssayResult) (s : State) (hs : s.Sound) : (idleAssay e tests s).Sound := by
  unfold idleAssay
  try dsimp only
  repeat' first
  | with_reducible assumption
  | with_reducible intro hc
  | with_reducible apply State.assayOn_sound
  | with_reducible apply ite_sound
  | with_reducible refine snd_sound_of_eq (by assumption) ?_
  | with_reducible refine fst_sound_of_eq (by assumption) ?_
  | dsimp only
  | split

theorem execIdleAssay_sound (e : EngineId) (tests : List AssayResult) (s : State) (hs : s.Sound) : Res.Sound (execIdleAssay e tests s) := by
  unfold execIdleAssay
  try dsimp only
  repeat' first
  | with_reducible assumption
  | with_reducible intro hc
  | with_reducible refine Res.next_sound ?_
  | with_reducible apply idleAssay_sound
  | exact trivial

theorem State.switchPlane_sound (s : State) (hs : s.Sound) : (State.switchPlane s).Sound := by
  unfold State.switchPlane
  try dsimp only
  repeat' first
  | with_reducible assumption
  | with_reducible intro hc
  | with_reducible apply State.modAllEng_sound
  | with_reducible apply State.modJob_sound
  | with_reducible apply State.dbModule_sound
  | with_reducible apply State.openTills_sound
  | (with_reducible refine Engine.Sound.mk ?_ ?_ ?_ ?_ ?_ <;> dsimp only)
  | (have hq := ‹Engine.Sound _›; with_reducible exact hq.store)
  | (have hq := ‹Engine.Sound _›; with_reducible exact hq.acc)
  | (have hq := ‹Engine.Sound _›; with_reducible exact hq.chk)
  | (have hq := ‹Engine.Sound _›; with_reducible exact hq.vr)
  | (have hq := ‹Engine.Sound _›; with_reducible exact hq.queue)

theorem State.switchDue_sound (s : State) (hs : s.Sound) : (State.switchDue s).Sound := by
  unfold State.switchDue
  try dsimp only
  repeat' first
  | with_reducible exact hs
  | with_reducible apply State.modJob_sound
  | with_reducible apply State.switchPlane_sound
  | with_reducible apply State.complete_sound
  | split

theorem State.skipMark_sound (s : State) (hs : s.Sound) : (State.skipMark s).Sound := by
  unfold State.skipMark
  try dsimp only
  repeat' first
  | with_reducible exact hs
  | with_reducible apply State.modCkpt_sound

theorem State.markPolicy_sound (s : State) (step : StepNo) (next : Fin 2) (hs : s.Sound) : (State.markPolicy s step next).Sound := by
  unfold State.markPolicy
  try dsimp only
  repeat' first
  | with_reducible exact hs
  | with_reducible intro hc
  | with_reducible apply ite_sound
  | with_reducible apply State.escrowMark_sound
  | with_reducible apply State.skipMark_sound

theorem State.markDue_sound (s : State) (step : StepNo) (hs : s.Sound) : (State.markDue s step).Sound := by
  unfold State.markDue
  try dsimp only
  repeat' first
  | with_reducible exact hs
  | with_reducible apply State.modJob_sound
  | with_reducible apply State.escrowMark_sound
  | with_reducible apply State.complete_sound
  | with_reducible apply State.skipMark_sound
  | with_reducible apply State.markPolicy_sound
  | split

theorem State.runDue_sound (s : State) (hs : s.Sound) : (State.runDue s).Sound := by
  unfold State.runDue
  try dsimp only
  repeat' first
  | with_reducible exact hs
  | with_reducible apply State.modJob_sound
  | with_reducible apply State.complete_sound
  | split

theorem State.actions_sound (s : State) (step : StepNo) (skipped : Bool) (hs : s.Sound) : (State.actions s step skipped).Sound := by
  unfold State.actions
  try dsimp only
  repeat' first
  | with_reducible exact hs
  | with_reducible intro hc
  | with_reducible apply ite_sound
  | with_reducible apply State.markDue_sound
  | with_reducible apply State.takeovers_sound
  | with_reducible apply State.switchDue_sound
  | with_reducible apply State.runDue_sound
  | with_reducible apply State.skipMark_sound
  | with_reducible apply State.modJob_sound

theorem State.updBoundary_sound (s : State) (step : StepNo) (v : Option Verdict) (hs : s.Sound) : (State.updBoundary s step v).Sound := by
  unfold State.updBoundary
  try dsimp only
  repeat' first
  | with_reducible assumption
  | with_reducible apply State.modUpd_sound

theorem State.tillsBoundary_sound (s : State) (hs : s.Sound) : (State.tillsBoundary s).Sound := by
  unfold State.tillsBoundary
  try dsimp only
  repeat' first
  | with_reducible assumption
  | with_reducible intro hc
  | with_reducible apply State.tillBoundary_sound
  | with_reducible apply foldl_sound
  | split

theorem State.replayRetired_sound (s : State) (r : Option ReplaySt) (hs : s.Sound) : (State.replayRetired s r).Sound := by
  unfold State.replayRetired
  try dsimp only
  repeat' first
  | with_reducible assumption
  | with_reducible apply State.postAt_sound
  | split

theorem State.scrubRates_sound (s : State) (r : Readings) (hs : s.Sound) : (State.scrubRates s r).Sound := by
  unfold State.scrubRates
  try dsimp only
  repeat' first
  | with_reducible assumption
  | with_reducible intro hc
  | with_reducible apply State.scrubRate_sound
  | with_reducible apply forRange_sound

theorem State.closeStep_sound (s : State) (r : Readings) (hs : s.Sound) : (State.closeStep s r).Sound := by
  unfold State.closeStep
  try dsimp only
  repeat' first
  | with_reducible assumption
  | with_reducible intro hc
  | with_reducible apply State.modGlb_sound
  | with_reducible apply State.modJob_sound
  | with_reducible apply State.modInt_sound
  | with_reducible apply State.rampCheck_sound
  | with_reducible apply State.curvesDue_sound
  | with_reducible apply State.ledgerBoundary_sound
  | with_reducible apply State.poolAudit_sound
  | with_reducible apply State.clrBoundary_sound
  | with_reducible apply State.auditBoundary_sound
  | with_reducible apply State.driftAudit_sound
  | with_reducible apply Engine.startStep_sound
  | with_reducible apply State.startStep_sound
  | with_reducible apply State.openWindow_sound
  | with_reducible apply State.actions_sound
  | with_reducible apply State.updBoundary_sound
  | with_reducible apply State.tillsBoundary_sound
  | with_reducible apply State.replayRetired_sound
  | with_reducible apply State.scrubRates_sound
  | with_reducible apply foldl_sound
  | with_reducible apply foldl_fst_sound
  | with_reducible apply foldl_snd_sound
  | (intros; rfl)
  | with_reducible refine snd_sound_of_eq (by assumption) ?_
  | with_reducible refine fst_sound_of_eq (by assumption) ?_
  | dsimp only
  | split

theorem stepBoundary_sound (r : Readings) (s : State) (hs : s.Sound) : (stepBoundary r s).Sound := by
  unfold stepBoundary
  try dsimp only
  repeat' first
  | with_reducible assumption
  | with_reducible intro hc
  | with_reducible apply ite_sound
  | with_reducible apply State.modSeq_sound
  | with_reducible apply State.rowFail_sound
  | with_reducible apply State.closeStep_sound
  | with_reducible apply foldl_sound

theorem execStepBoundary_sound (r : Readings) (s : State) (hs : s.Sound) : Res.Sound (execStepBoundary r s) := by
  unfold execStepBoundary
  try dsimp only
  repeat' first
  | with_reducible exact hs
  | with_reducible refine Res.next_sound ?_
  | with_reducible apply stepBoundary_sound

end Sys2Proof.Machine
end

