-- ==== Sys2Proof/Laws/SoundReplay.lean ====
section
/-! SUPPORT. What the operations and meanings of Machine/Replay keep of a sound state. -/

namespace Sys2Proof.Machine

theorem execReplayMark_sound (island : W16) (st : Status) (step : StepNo) (s : State) (hs : s.Sound) : Res.Sound (execReplayMark island st step s) := by
  unfold execReplayMark
  try dsimp only
  repeat' first
  | with_reducible assumption
  | with_reducible intro hc
  | with_reducible refine Res.next_sound ?_
  | with_reducible apply State.settle_sound
  | with_reducible apply State.mark_sound
  | with_reducible apply ite_sound
  | with_reducible apply ite_res_sound
  | dsimp only
  | split
  | exact trivial

theorem State.askRepair_sound (s : State) (e : EngineId) (x : ShardEnt) (i : Nat) (pages : List Nat) (maps : List (Nat × List Byte)) (hs : s.Sound) : (State.askRepair s e x i pages maps).Sound := by
  unfold State.askRepair
  try dsimp only
  repeat' first
  | with_reducible assumption
  | with_reducible intro hc
  | with_reducible apply State.modLed_sound
  | with_reducible apply State.askFetch_sound
  | with_reducible apply State.repairFail_sound
  | with_reducible apply ite_sound
  | split

theorem State.repairPage_sound (s : State) (b : EngineId × BitVec 24 × Nat × Nat) (hs : s.Sound) : (State.repairPage s b).Sound := by
  unfold State.repairPage
  try dsimp only
  repeat' first
  | with_reducible assumption
  | with_reducible intro hc
  | with_reducible apply State.readMasters_sound
  | with_reducible apply State.repairFail_sound
  | with_reducible apply State.repairWith_sound
  | with_reducible apply State.derivedPages_sound
  | with_reducible apply State.askRepair_sound
  | with_reducible refine State.readMasters_sound_eq (by assumption) ?_
  | with_reducible refine State.derivedPages_sound_eq (by assumption) ?_
  | with_reducible apply ite_sound
  | with_reducible refine snd_sound_of_eq (by assumption) ?_
  | with_reducible refine fst_sound_of_eq (by assumption) ?_
  | dsimp only
  | split

theorem State.repairMapPage_sound (s : State) (e : EngineId) (i : Nat) (k : Nat) (y : LedgerEntry) (hs : s.Sound) : (State.repairMapPage s e i k y).Sound := by
  unfold State.repairMapPage
  try dsimp only
  repeat' first
  | with_reducible assumption
  | with_reducible intro hc
  | with_reducible apply State.readMasters_sound
  | with_reducible apply State.repairFail_sound
  | with_reducible apply State.repairMap_sound
  | with_reducible apply State.derivedPages_sound
  | with_reducible apply State.askRepair_sound
  | with_reducible refine State.readMasters_sound_eq (by assumption) ?_
  | with_reducible refine State.derivedPages_sound_eq (by assumption) ?_
  | with_reducible apply ite_sound
  | with_reducible refine snd_sound_of_eq (by assumption) ?_
  | with_reducible refine fst_sound_of_eq (by assumption) ?_
  | dsimp only
  | split

theorem State.repairMaps_sound (s : State) (hs : s.Sound) : (State.repairMaps s).Sound := by
  unfold State.repairMaps
  try dsimp only
  repeat' first
  | with_reducible assumption
  | with_reducible intro hc
  | with_reducible apply State.repairMapPage_sound
  | with_reducible apply foldl_sound
  | with_reducible apply ite_sound

theorem replayRestart_sound (pageBad : List (EngineId × BitVec 24 × Nat)) (s : State) (hs : s.Sound) : (replayRestart pageBad s).Sound := by
  unfold replayRestart
  try dsimp only
  repeat' first
  | with_reducible assumption
  | with_reducible intro hc
  | with_reducible apply State.modSeq_sound
  | with_reducible apply State.modInt_sound
  | with_reducible apply State.setErr_sound
  | with_reducible apply State.post_sound
  | with_reducible apply State.drainOn_sound
  | with_reducible apply State.restoreStep_sound
  | with_reducible apply State.holdOn_sound
  | with_reducible apply State.repairPage_sound
  | with_reducible apply State.repairMaps_sound
  | with_reducible refine State.repairPage_sound_eq (by assumption) ?_
  | with_reducible apply foldl_sound
  | with_reducible apply foldl_fst_sound
  | with_reducible apply foldl_snd_sound
  | with_reducible apply foldl_eng_sound
  | with_reducible apply foldl_mem_wf
  | with_reducible apply foldl_memf_wf
  | with_reducible apply ite_sound
  | with_reducible apply ite_eng_sound
  | (with_reducible refine Engine.Sound.mk ?_ ?_ ?_ ?_ ?_ <;> dsimp only)
  | exact Nat.zero_le _
  | exact rfl
  | (have hq := ‹Engine.Sound _›; with_reducible exact hq.store)
  | (have hq := ‹Engine.Sound _›; with_reducible exact hq.acc)
  | (have hq := ‹Engine.Sound _›; with_reducible exact hq.chk)
  | (have hq := ‹Engine.Sound _›; with_reducible exact hq.vr)
  | (have hq := ‹Engine.Sound _›; with_reducible exact hq.queue)
  | with_reducible apply Engine.Sound.store
  | with_reducible apply Engine.Sound.acc
  | with_reducible apply Engine.Sound.chk
  | with_reducible apply Engine.Sound.vr
  | with_reducible apply Engine.Sound.queue
  | with_reducible refine State.Sound.eng ?_ _ _
  | (intros; rfl)
  | with_reducible refine snd_sound_of_eq (by assumption) ?_
  | with_reducible refine fst_sound_of_eq (by assumption) ?_
  | dsimp only
  | split

theorem execReplayRestart_sound (pageBad : List (EngineId × BitVec 24 × Nat)) (s : State) (hs : s.Sound) : Res.Sound (execReplayRestart pageBad s) := by
  unfold execReplayRestart
  try dsimp only
  repeat' first
  | with_reducible exact hs
  | with_reducible refine Res.next_sound ?_
  | with_reducible apply replayRestart_sound

theorem replayExhausted_sound (s : State) (hs : s.Sound) : (replayExhausted s).Sound := by
  unfold replayExhausted
  try dsimp only
  repeat' first
  | with_reducible assumption
  | with_reducible intro hc
  | with_reducible apply State.raise_sound
  | with_reducible apply ite_sound
  | with_reducible refine snd_sound_of_eq (by assumption) ?_
  | with_reducible refine fst_sound_of_eq (by assumption) ?_
  | dsimp only
  | split

theorem execReplayExhausted_sound (s : State) (hs : s.Sound) : Res.Sound (execReplayExhausted s) := by
  unfold execReplayExhausted
  try dsimp only
  repeat' first
  | with_reducible exact hs
  | with_reducible refine Res.next_sound ?_
  | with_reducible apply replayExhausted_sound

theorem State.sendLeave_sound (s : State) (hs : s.Sound) : (State.sendLeave s).Sound := by
  unfold State.sendLeave
  try dsimp only
  repeat' first
  | with_reducible assumption
  | with_reducible intro hc
  | with_reducible apply State.sendCtrl_sound
  | with_reducible apply foldl_sound
  | split

theorem State.sendLoss_sound (s : State) (replica : Nat) (hs : s.Sound) : (State.sendLoss s replica).Sound := by
  unfold State.sendLoss
  try dsimp only
  repeat' first
  | with_reducible exact hs
  | with_reducible apply loss_sound
  | with_reducible apply State.sendNorm_sound
  | split

theorem State.leaveJob_sound (s : State) (hs : s.Sound) : (State.leaveJob s).Sound := by
  unfold State.leaveJob
  try dsimp only
  repeat' first
  | with_reducible exact hs
  | with_reducible apply State.hold_sound
  | with_reducible apply State.sendLoss_sound
  | with_reducible apply State.sendLeave_sound
  | split

theorem State.shrink_sound (s : State) (ev : FaultEv) (hs : s.Sound) : (State.shrink s ev).Sound := by
  unfold State.shrink
  try dsimp only
  repeat' first
  | with_reducible exact hs
  | with_reducible apply State.leaveJob_sound
  | with_reducible apply State.sendLoss_sound
  | split

theorem faultEvent_sound (ev : FaultEv) (s : State) (hs : s.Sound) : (faultEvent ev s).Sound := by
  unfold faultEvent
  try dsimp only
  repeat' first
  | with_reducible assumption
  | with_reducible intro hc
  | with_reducible apply State.modInt_sound
  | with_reducible apply State.setErr_sound
  | with_reducible apply State.post_sound
  | with_reducible apply State.settle_sound
  | with_reducible apply State.mark_sound
  | with_reducible apply State.hold_sound
  | with_reducible apply State.shrink_sound
  | with_reducible apply ite_sound
  | (intros; rfl)
  | dsimp only
  | split

theorem execFaultEvent_sound (ev : FaultEv) (s : State) (hs : s.Sound) : Res.Sound (execFaultEvent ev s) := by
  unfold execFaultEvent
  try dsimp only
  repeat' first
  | with_reducible exact hs
  | with_reducible refine Res.next_sound ?_
  | with_reducible apply faultEvent_sound

end Sys2Proof.Machine
end

