-- ==== Sys2Proof/Laws/SoundDma.lean ====
section
/-! SUPPORT. What the operations and meanings of Machine/Dma keep of a sound state. -/

namespace Sys2Proof.Machine

theorem State.putPlace_sound (s : State) (p : Place) (data : List Byte) (who : List Requester) (hs : s.Sound) : (State.putPlace s p data who).Sound := by
  unfold State.putPlace
  try dsimp only
  repeat' first
  | with_reducible assumption
  | with_reducible apply State.emit_sound
  | with_reducible apply State.writeBytes_sound
  | with_reducible apply State.putStore_sound
  | split

theorem State.spoilPlace_sound (s : State) (p : Place) (n : Nat) (hs : s.Sound) : (State.spoilPlace s p n).Sound := by
  unfold State.spoilPlace
  try dsimp only
  repeat' first
  | with_reducible assumption
  | with_reducible intro hc
  | with_reducible apply State.draw_sound
  | with_reducible apply State.putParts_sound
  | with_reducible apply State.putPlace_sound
  | with_reducible refine State.draw_sound_eq (by assumption) ?_
  | with_reducible refine snd_sound_of_eq (by assumption) ?_
  | with_reducible refine fst_sound_of_eq (by assumption) ?_
  | dsimp only
  | split

theorem State.chanRefuse_sound (s : State) (e : EngineId) (ch : ChanId) (hs : s.Sound) : (State.chanRefuse s e ch).Sound := by
  unfold State.chanRefuse
  try dsimp only
  repeat' first
  | with_reducible exact hs
  | with_reducible apply State.modChan_sound

theorem State.chainDone_sound (s : State) (e : EngineId) (ch : ChanId) (st : Status) (hs : s.Sound) : (State.chainDone s e ch st).Sound := by
  unfold State.chainDone
  try dsimp only
  repeat' first
  | with_reducible assumption
  | with_reducible intro hc
  | with_reducible apply State.modChan_sound
  | with_reducible apply State.complete_sound
  | with_reducible apply Engine.modChan_sound
  | with_reducible refine snd_sound_of_eq (by assumption) ?_
  | with_reducible refine fst_sound_of_eq (by assumption) ?_
  | dsimp only
  | split

theorem State.writeBack_sound (s : State) (e : EngineId) (ch : ChanId) (st : Status) (progress : Nat) (hs : s.Sound) : (State.writeBack s e ch st progress).Sound := by
  unfold State.writeBack
  try dsimp only
  repeat' first
  | with_reducible assumption
  | with_reducible apply State.putPlace_sound
  | split

theorem State.chainEnd_sound (s : State) (e : EngineId) (ch : ChanId) (st : Status) (hs : s.Sound) : (State.chainEnd s e ch st).Sound := by
  unfold State.chainEnd
  try dsimp only
  repeat' first
  | with_reducible exact hs
  | with_reducible apply State.modChan_sound
  | with_reducible apply State.chainDone_sound

theorem State.slipEnds_sound (s : State) (e : EngineId) (ch : ChanId) (st : Status) (hs : s.Sound) : (State.slipEnds s e ch st).Sound := by
  unfold State.slipEnds
  try dsimp only
  repeat' first
  | with_reducible assumption
  | with_reducible apply State.modChan_sound
  | with_reducible apply State.writeBack_sound
  | with_reducible apply State.chainEnd_sound

theorem State.haltDue_sound (s : State) (e : EngineId) (ch : ChanId) (hs : s.Sound) : (State.haltDue s e ch).Sound := by
  unfold State.haltDue
  try dsimp only
  repeat' first
  | with_reducible assumption
  | with_reducible intro hc
  | with_reducible apply State.modChan_sound
  | with_reducible apply Engine.modChan_sound
  | with_reducible apply State.chainDone_sound
  | with_reducible apply State.writeBack_sound
  | with_reducible apply ite_sound
  | with_reducible refine snd_sound_of_eq (by assumption) ?_
  | with_reducible refine fst_sound_of_eq (by assumption) ?_
  | dsimp only
  | split

theorem State.chainHalt_sound (s : State) (e : EngineId) (ch : ChanId) (st : Status) (offset : Nat) (hs : s.Sound) : (State.chainHalt s e ch st offset).Sound := by
  unfold State.chainHalt
  try dsimp only
  repeat' first
  | with_reducible assumption
  | with_reducible intro hc
  | with_reducible apply State.modChan_sound
  | with_reducible apply Engine.modChan_sound
  | with_reducible apply State.haltDue_sound

theorem State.startSlip_sound (s : State) (e : EngineId) (ch : ChanId) (addr : W64) (first : Bool) (host : Slip) (hs : s.Sound) : (State.startSlip s e ch addr first host).Sound := by
  unfold State.startSlip
  try dsimp only
  repeat' first
  | with_reducible assumption
  | with_reducible intro hc
  | with_reducible apply State.modChan_sound
  | with_reducible apply State.sramUe_sound
  | with_reducible apply Engine.modChan_sound
  | with_reducible apply State.chainEnd_sound
  | with_reducible apply State.slipEnds_sound
  | with_reducible apply State.chainHalt_sound
  | with_reducible apply ite_sound
  | with_reducible refine snd_sound_of_eq (by assumption) ?_
  | with_reducible refine fst_sound_of_eq (by assumption) ?_
  | dsimp only
  | split

theorem State.chanStart_sound (s : State) (e : EngineId) (ch : ChanId) (first : Slip) (hs : s.Sound) : (State.chanStart s e ch first).Sound := by
  unfold State.chanStart
  try dsimp only
  repeat' first
  | with_reducible exact hs
  | with_reducible apply State.startSlip_sound

theorem dmaStart_sound (e : EngineId) (ch : ChanId) (first : Slip) (s : State) (hs : s.Sound) : (dmaStart e ch first s).Sound := by
  unfold dmaStart
  try dsimp only
  repeat' first
  | with_reducible exact hs
  | with_reducible intro hc
  | with_reducible apply ite_sound
  | with_reducible apply State.chanRefuse_sound
  | with_reducible apply State.modChan_sound
  | with_reducible apply State.chanStart_sound

theorem dmaChain_sound (c : Cmd) (first : Slip) (s : State) (hs : s.Sound) : (dmaChain c first s).Sound := by
  unfold dmaChain
  try dsimp only
  repeat' first
  | with_reducible assumption
  | with_reducible intro hc
  | with_reducible apply ite_cmd_sound
  | with_reducible apply State.command_sound
  | with_reducible apply cmdDone_sound
  | with_reducible apply State.modChan_sound
  | with_reducible apply State.chanRefuse_sound
  | with_reducible apply State.chanStart_sound
  | (with_reducible refine CmdOut.sound_mk ?_ ?_ <;> dsimp only)
  | (rw [cmdDone_s])
  | (rw [cmdDone_after])
  | (rw [cmdLater_s])

theorem execDmaChain_sound (c : Cmd) (first : Slip) (s : State) (hs : s.Sound) : Res.Sound (execDmaChain c first s) := by
  unfold execDmaChain
  try dsimp only
  repeat' first
  | with_reducible exact hs
  | with_reducible refine Res.next_sound ?_
  | with_reducible apply dmaChain_sound

theorem dmaStop_sound (e : EngineId) (ch : ChanId) (byIssuer : Bool) (s : State) (hs : s.Sound) : (dmaStop e ch byIssuer s).Sound := by
  unfold dmaStop
  try dsimp only
  repeat' first
  | with_reducible exact hs
  | with_reducible apply State.modChan_sound
  | with_reducible apply State.chanRefuse_sound
  | split

theorem dmaResume_sound (e : EngineId) (ch : ChanId) (next : Slip) (s : State) (hs : s.Sound) : (dmaResume e ch next s).Sound := by
  unfold dmaResume
  try dsimp only
  repeat' first
  | with_reducible exact hs
  | with_reducible apply State.startSlip_sound
  | with_reducible apply State.chainEnd_sound
  | with_reducible apply State.chanRefuse_sound
  | split

theorem channelHalt_sound (e : EngineId) (ch : ChanId) (st : Status) (offset : Nat) (s : State) (hs : s.Sound) : (channelHalt e ch st offset s).Sound := by
  unfold channelHalt
  try dsimp only
  repeat' first
  | with_reducible assumption
  | with_reducible intro hc
  | with_reducible apply State.modChan_sound
  | with_reducible apply State.settle_sound
  | with_reducible apply State.mark_sound
  | with_reducible apply State.drain_sound
  | with_reducible apply Engine.modChan_sound
  | with_reducible apply State.drainFail_sound
  | with_reducible apply State.chainHalt_sound
  | with_reducible apply ite_sound
  | with_reducible apply ite_eng_sound
  | dsimp only
  | split

theorem execChannelHalt_sound (e : EngineId) (ch : ChanId) (st : Status) (offset : Nat) (s : State) (hs : s.Sound) : Res.Sound (execChannelHalt e ch st offset s) := by
  unfold execChannelHalt
  try dsimp only
  repeat' first
  | with_reducible exact hs
  | with_reducible refine Res.next_sound ?_
  | with_reducible apply channelHalt_sound

theorem State.burstRead_sound (s : State) (e : EngineId) (ch : ChanId) (x : Slip) (p : Place) (n : Nat) (data : List Byte) (met : ReadMet) (sram : SramRead) (hs : s.Sound) : (State.burstRead s e ch x p n data met sram).2.Sound := by
  unfold State.burstRead
  try dsimp only
  repeat' first
  | with_reducible assumption
  | with_reducible intro hc
  | with_reducible apply State.readVia_sound
  | with_reducible apply Plan.store_sound
  | with_reducible apply State.sramCe_sound
  | with_reducible apply State.sramUe_sound
  | with_reducible refine State.readVia_sound_eq (by assumption) ?_
  | with_reducible apply ite_sound
  | with_reducible apply ite_snd_sound
  | with_reducible apply ite_fst_sound
  | with_reducible refine snd_sound_of_eq (by assumption) ?_
  | with_reducible refine fst_sound_of_eq (by assumption) ?_
  | dsimp only
  | split

theorem State.burstRead_sound_eq {s : State} {e : EngineId} {ch : ChanId} {x : Slip} {p : Place} {n : Nat} {data : List Byte} {met : ReadMet} {sram : SramRead} {a0} {t : State} (hq : State.burstRead s e ch x p n data met sram = (a0, t)) (hs : s.Sound) : t.Sound := by
  have := State.burstRead_sound s e ch x p n data met sram hs; rw [hq] at this; exact this

theorem State.putBlocks_sound (s : State) (e : EngineId) (ch : ChanId) (p : Place) (data : List Byte) (sides : List Sideband) (hs : s.Sound) : (State.putBlocks s e ch p data sides).Sound := by
  unfold State.putBlocks
  try dsimp only
  repeat' first
  | with_reducible assumption
  | with_reducible intro hc
  | with_reducible apply State.writePage_sound
  | with_reducible apply State.sendBlock_sound
  | with_reducible apply State.putPlace_sound
  | with_reducible apply foldl_sound
  | with_reducible apply foldl_fst_sound
  | with_reducible apply foldl_snd_sound
  | with_reducible apply foldl_mem_wf
  | with_reducible apply foldl_memf_wf
  | with_reducible refine snd_sound_of_eq (by assumption) ?_
  | with_reducible refine fst_sound_of_eq (by assumption) ?_
  | dsimp only
  | split

theorem State.burstWrite_sound (s : State) (e : EngineId) (ch : ChanId) (x : Slip) (data : List Byte) (sides : List Sideband) (hs : s.Sound) : (State.burstWrite s e ch x data sides).Sound := by
  unfold State.burstWrite
  try dsimp only
  repeat' first
  | with_reducible assumption
  | with_reducible intro hc
  | with_reducible apply State.modChan_sound
  | with_reducible apply Engine.modChan_sound
  | with_reducible apply State.putPlace_sound
  | with_reducible apply State.putBlocks_sound
  | with_reducible apply ite_sound
  | dsimp only
  | split

theorem State.hallmarkPost_sound (s : State) (i : IslandIdx) (x : Sideband) (hs : s.Sound) : (State.hallmarkPost s i x).Sound := by
  unfold State.hallmarkPost
  try dsimp only
  repeat' first
  | with_reducible exact hs
  | with_reducible apply State.post_sound
  | with_reducible apply State.setErr_sound

theorem State.burstPut_sound (s : State) (e : EngineId) (ch : ChanId) (x : Slip) (data : List Byte) (sides : List Sideband) (hs : s.Sound) : (State.burstPut s e ch x data sides).Sound := by
  unfold State.burstPut
  try dsimp only
  repeat' first
  | with_reducible assumption
  | with_reducible intro hc
  | with_reducible apply Plan.store_sound
  | with_reducible apply State.sramUe_sound
  | with_reducible apply State.chainHalt_sound
  | with_reducible apply State.burstWrite_sound
  | with_reducible apply State.hallmarkPost_sound
  | with_reducible apply ite_sound
  | with_reducible apply ite_eng_sound
  | with_reducible refine State.Sound.eng ?_
  | with_reducible refine State.Sound.vaults ?_
  | with_reducible refine State.Sound.fars ?_
  | with_reducible refine State.Sound.mbox ?_
  | with_reducible refine State.Sound.book ?_
  | with_reducible refine State.Sound.aperture ?_
  | with_reducible refine State.Sound.rings ?_
  | with_reducible refine State.Sound.eng ?_ _ _
  | with_reducible refine State.Sound.vaults ?_ _ _
  | with_reducible refine State.Sound.fars ?_ _ _
  | with_reducible refine State.Sound.aperture ?_ _ _
  | with_reducible refine State.Sound.rings ?_ _ _
  | (with_reducible refine State.Sound.mk ?_ ?_ ?_ ?_ ?_ ?_ ?_ <;> dsimp only)
  | with_reducible refine snd_sound_of_eq (by assumption) ?_
  | with_reducible refine fst_sound_of_eq (by assumption) ?_
  | dsimp only
  | split

theorem State.burstMove_sound (s : State) (e : EngineId) (ch : ChanId) (x : Slip) (n : Nat) (data : List Byte) (met : ReadMet) (sram : SramRead) (hs : s.Sound) : (State.burstMove s e ch x n data met sram).Sound := by
  unfold State.burstMove
  try dsimp only
  repeat' first
  | with_reducible assumption
  | with_reducible intro hc
  | with_reducible apply State.modChan_sound
  | with_reducible apply State.chainHalt_sound
  | with_reducible apply State.burstRead_sound
  | with_reducible apply State.burstPut_sound
  | with_reducible apply ite_sound
  | split

theorem State.burstLand_sound (s : State) (e : EngineId) (ch : ChanId) (x : Slip) (hs : s.Sound) : (State.burstLand s e ch x).Sound := by
  unfold State.burstLand
  try dsimp only
  repeat' first
  | with_reducible assumption
  | with_reducible intro hc
  | with_reducible apply State.modChan_sound
  | with_reducible apply State.burstPut_sound
  | with_reducible apply ite_sound

theorem State.burstAsk_sound (s : State) (e : EngineId) (ch : ChanId) (x : Slip) (i : Nat) (off : Nat) (hs : s.Sound) : (State.burstAsk s e ch x i off).Sound := by
  unfold State.burstAsk
  try dsimp only
  repeat' first
  | with_reducible assumption
  | with_reducible intro hc
  | with_reducible apply State.modChan_sound
  | with_reducible apply State.sendRequest_sound
  | with_reducible apply State.chainHalt_sound
  | with_reducible apply State.burstLand_sound
  | with_reducible apply ite_sound

theorem burstStart_sound (e : EngineId) (ch : ChanId) (data : List Byte) (met : ReadMet) (sram : SramRead) (limitWait : Nat) (pinWait : Nat) (s : State) (hs : s.Sound) : (burstStart e ch data met sram limitWait pinWait s).Sound := by
  unfold burstStart
  try dsimp only
  repeat' first
  | with_reducible assumption
  | with_reducible intro hc
  | with_reducible apply State.modChan_sound
  | with_reducible apply Engine.modChan_sound
  | with_reducible apply State.haltDue_sound
  | with_reducible apply State.burstMove_sound
  | with_reducible apply State.burstAsk_sound
  | with_reducible apply ite_sound
  | with_reducible refine snd_sound_of_eq (by assumption) ?_
  | with_reducible refine fst_sound_of_eq (by assumption) ?_
  | dsimp only
  | split

theorem execBurstStart_sound (e : EngineId) (ch : ChanId) (data : Bytes) (met : ReadMet) (sram : SramRead) (limitWait : Nat) (pinWait : Nat) (s : State) (hs : s.Sound) : Res.Sound (execBurstStart e ch data met sram limitWait pinWait s) := by
  unfold execBurstStart
  try dsimp only
  repeat' first
  | with_reducible assumption
  | with_reducible intro hc
  | with_reducible refine Res.next_sound ?_
  | with_reducible apply State.settle_sound
  | with_reducible apply burstStart_sound
  | exact trivial

theorem State.writeCsum_sound (s : State) (e : EngineId) (ch : ChanId) (x : Slip) (hs : s.Sound) : (State.writeCsum s e ch x).Sound := by
  unfold State.writeCsum
  try dsimp only
  repeat' first
  | with_reducible assumption
  | with_reducible intro hc
  | with_reducible apply State.modChan_sound
  | with_reducible apply Plan.store_sound
  | with_reducible apply State.sramUe_sound
  | with_reducible apply Engine.modChan_sound
  | with_reducible apply State.putPlace_sound
  | with_reducible apply State.chainHalt_sound
  | with_reducible apply ite_sound
  | with_reducible refine snd_sound_of_eq (by assumption) ?_
  | with_reducible refine fst_sound_of_eq (by assumption) ?_
  | dsimp only
  | split

theorem State.slipDone_sound (s : State) (e : EngineId) (ch : ChanId) (x : Slip) (next : Slip) (hs : s.Sound) : (State.slipDone s e ch x next).Sound := by
  unfold State.slipDone
  try dsimp only
  repeat' first
  | with_reducible assumption
  | with_reducible intro hc
  | with_reducible apply State.emit_sound
  | with_reducible apply State.modChan_sound
  | with_reducible apply State.chainDone_sound
  | with_reducible apply State.writeBack_sound
  | with_reducible apply State.startSlip_sound
  | with_reducible apply ite_sound

theorem State.slipSteps_sound (s : State) (e : EngineId) (ch : ChanId) (x : Slip) (next : Slip) (hs : s.Sound) : (State.slipSteps s e ch x next).Sound := by
  unfold State.slipSteps
  try dsimp only
  repeat' first
  | with_reducible assumption
  | with_reducible intro hc
  | with_reducible apply State.haltDue_sound
  | with_reducible apply State.writeCsum_sound
  | with_reducible apply State.slipDone_sound
  | with_reducible apply ite_sound
  | dsimp only
  | split

theorem slipComplete_sound (e : EngineId) (ch : ChanId) (next : Slip) (pinWait : Nat) (s : State) (hs : s.Sound) : (slipComplete e ch next pinWait s).Sound := by
  unfold slipComplete
  try dsimp only
  repeat' first
  | with_reducible assumption
  | with_reducible intro hc
  | with_reducible apply State.modChan_sound
  | with_reducible apply Engine.modChan_sound
  | with_reducible apply State.drainSlip_sound
  | with_reducible apply State.haltDue_sound
  | with_reducible apply State.slipSteps_sound
  | with_reducible apply ite_sound
  | with_reducible refine snd_sound_of_eq (by assumption) ?_
  | with_reducible refine fst_sound_of_eq (by assumption) ?_
  | dsimp only
  | split

theorem execSlipComplete_sound (e : EngineId) (ch : ChanId) (next : Slip) (pinWait : Nat) (s : State) (hs : s.Sound) : Res.Sound (execSlipComplete e ch next pinWait s) := by
  unfold execSlipComplete
  try dsimp only
  repeat' first
  | with_reducible assumption
  | with_reducible intro hc
  | with_reducible refine Res.next_sound ?_
  | with_reducible apply State.settle_sound
  | with_reducible apply slipComplete_sound
  | exact trivial

theorem State.cutSlip_sound (s : State) (e : EngineId) (ch : ChanId) (hs : s.Sound) : (State.cutSlip s e ch).Sound := by
  unfold State.cutSlip
  try dsimp only
  repeat' first
  | with_reducible assumption
  | with_reducible intro hc
  | with_reducible apply State.modChan_sound
  | with_reducible apply Engine.modChan_sound
  | with_reducible apply State.spoilPlace_sound
  | with_reducible apply State.chainDone_sound
  | with_reducible refine State.spoilPlace_sound_eq (by assumption) ?_
  | with_reducible apply ite_sound
  | with_reducible refine snd_sound_of_eq (by assumption) ?_
  | with_reducible refine fst_sound_of_eq (by assumption) ?_
  | dsimp only
  | split

theorem State.refuse_sound (s : State) (q : ReqFrame) (st : Status) (hs : s.Sound) : (State.refuse s q st).Sound := by
  unfold State.refuse
  try dsimp only
  repeat' first
  | with_reducible exact hs
  | with_reducible apply State.sendRequest_sound

theorem State.windowIn_sound (s : State) (b : ObjBlk) (pt : Option (List Byte)) (e : EngineId) (ch : ChanId) (off : Nat) (hs : s.Sound) : (State.windowIn s b pt e ch off).Sound := by
  unfold State.windowIn
  try dsimp only
  repeat' first
  | with_reducible assumption
  | with_reducible intro hc
  | with_reducible apply State.modPort_sound
  | with_reducible apply State.writeBlock_sound
  | with_reducible apply State.sendMsgCtrl_sound
  | with_reducible apply State.hallmarkPost_sound
  | with_reducible apply State.refuse_sound
  | with_reducible refine State.writeBlock_sound_eq (by assumption) ?_
  | with_reducible apply ite_sound
  | with_reducible refine snd_sound_of_eq (by assumption) ?_
  | with_reducible refine fst_sound_of_eq (by assumption) ?_
  | dsimp only
  | split

theorem State.dmaReadIn_sound (s : State) (b : ObjBlk) (pt : Option (List Byte)) (e : EngineId) (ch : ChanId) (off : Nat) (hs : s.Sound) : (State.dmaReadIn s b pt e ch off).Sound := by
  unfold State.dmaReadIn
  try dsimp only
  repeat' first
  | with_reducible assumption
  | with_reducible intro hc
  | with_reducible apply State.modChan_sound
  | with_reducible apply Engine.modChan_sound
  | with_reducible apply State.chainHalt_sound
  | with_reducible apply State.hallmarkPost_sound
  | with_reducible apply State.burstLand_sound
  | with_reducible apply ite_sound
  | with_reducible apply ite_eng_sound
  | with_reducible refine snd_sound_of_eq (by assumption) ?_
  | with_reducible refine fst_sound_of_eq (by assumption) ?_
  | dsimp only
  | split

theorem objData_sound (b : ObjBlk) (s : State) (hs : s.Sound) : (objData b s).Sound := by
  unfold objData
  try dsimp only
  repeat' first
  | with_reducible assumption
  | with_reducible intro hc
  | with_reducible apply State.dropUnadmitted_sound
  | with_reducible apply State.openBlock_sound
  | with_reducible apply State.fetchPageIn_sound
  | with_reducible apply State.mirrorPageIn_sound
  | with_reducible apply State.windowIn_sound
  | with_reducible apply State.dmaReadIn_sound
  | with_reducible refine State.openBlock_sound_eq (by assumption) ?_
  | with_reducible refine State.windowIn_sound_eq (by assumption) ?_
  | with_reducible apply ite_sound
  | with_reducible refine snd_sound_of_eq (by assumption) ?_
  | with_reducible refine fst_sound_of_eq (by assumption) ?_
  | dsimp only
  | split

theorem execObjData_sound (b : ObjBlk) (s : State) (hs : s.Sound) : Res.Sound (execObjData b s) := by
  unfold execObjData
  try dsimp only
  repeat' first
  | with_reducible assumption
  | with_reducible intro hc
  | with_reducible refine Res.next_sound ?_
  | with_reducible apply State.settle_sound
  | with_reducible apply objData_sound
  | with_reducible refine objData_sound_eq (by assumption) ?_
  | exact trivial

theorem State.serveBlock_sound (s : State) (q : ReqFrame) (off : Nat) (c : CtlId) (page : Nat) (hs : s.Sound) : (State.serveBlock s q off c page).Sound := by
  unfold State.serveBlock
  try dsimp only
  repeat' first
  | with_reducible assumption
  | with_reducible apply State.readPageVia_sound
  | with_reducible apply State.sendBlock_sound

theorem requestRead_sound (q : ReqFrame) (s : State) (hs : s.Sound) : (requestRead q s).Sound := by
  unfold requestRead
  try dsimp only
  repeat' first
  | with_reducible assumption
  | with_reducible intro hc
  | with_reducible apply State.dropUnadmitted_sound
  | with_reducible apply EngVec.count_sound
  | with_reducible apply State.refuse_sound
  | with_reducible apply State.serveBlock_sound
  | with_reducible apply foldl_sound
  | with_reducible apply foldl_fst_sound
  | with_reducible apply foldl_snd_sound
  | with_reducible apply ite_sound
  | with_reducible refine snd_sound_of_eq (by assumption) ?_
  | with_reducible refine fst_sound_of_eq (by assumption) ?_
  | dsimp only
  | split

theorem execRequestRead_sound (q : ReqFrame) (s : State) (hs : s.Sound) : Res.Sound (execRequestRead q s) := by
  unfold execRequestRead
  try dsimp only
  repeat' first
  | with_reducible exact hs
  | with_reducible refine Res.next_sound ?_
  | with_reducible apply requestRead_sound

theorem State.peerRefused_sound (s : State) (e : EngineId) (ch : ChanId) (peer : Nat) (off : Nat) (st : Status) (hs : s.Sound) : (State.peerRefused s e ch peer off st).Sound := by
  unfold State.peerRefused
  try dsimp only
  repeat' first
  | with_reducible assumption
  | with_reducible intro hc
  | with_reducible apply State.modChan_sound
  | with_reducible apply Engine.modChan_sound
  | with_reducible apply State.chainHalt_sound
  | with_reducible apply ite_sound
  | with_reducible refine snd_sound_of_eq (by assumption) ?_
  | with_reducible refine fst_sound_of_eq (by assumption) ?_
  | dsimp only
  | split

theorem requestRefuse_sound (q : ReqFrame) (s : State) (hs : s.Sound) : (requestRefuse q s).Sound := by
  unfold requestRefuse
  try dsimp only
  repeat' first
  | with_reducible assumption
  | with_reducible intro hc
  | with_reducible apply State.dropUnadmitted_sound
  | with_reducible apply State.fetchRefused_sound
  | with_reducible apply State.peerRefused_sound
  | with_reducible apply ite_sound
  | dsimp only
  | split

theorem execRequestRefuse_sound (q : ReqFrame) (s : State) (hs : s.Sound) : Res.Sound (execRequestRefuse q s) := by
  unfold execRequestRefuse
  try dsimp only
  repeat' first
  | with_reducible exact hs
  | with_reducible refine Res.next_sound ?_
  | with_reducible apply requestRefuse_sound

theorem State.slipAcked_sound (s : State) (peer : Nat) (block : W32) (hs : s.Sound) : (State.slipAcked s peer block).Sound := by
  unfold State.slipAcked
  try dsimp only
  repeat' first
  | with_reducible assumption
  | with_reducible intro hc
  | with_reducible apply State.modChan_sound
  | with_reducible apply Engine.modChan_sound
  | with_reducible apply State.haltDue_sound
  | with_reducible apply ite_sound
  | with_reducible refine snd_sound_of_eq (by assumption) ?_
  | with_reducible refine fst_sound_of_eq (by assumption) ?_
  | dsimp only
  | split

theorem execMsgCtrlAck_sound (w : CtrlOf) (s : State) (hs : s.Sound) : Res.Sound (execMsgCtrlAck w s) := by
  unfold execMsgCtrlAck
  try dsimp only
  repeat' first
  | with_reducible assumption
  | with_reducible intro hc
  | with_reducible refine Res.next_sound ?_
  | with_reducible apply State.dropUnadmitted_sound
  | with_reducible apply State.tillAcked_sound
  | with_reducible apply State.bandAcked_sound
  | with_reducible apply State.slipAcked_sound
  | with_reducible apply ite_sound
  | with_reducible apply ite_res_sound
  | dsimp only
  | split
  | exact trivial

theorem execMsgCtrlResend_sound (w : CtrlOf) (block : W16) (s : State) (hs : s.Sound) : Res.Sound (execMsgCtrlResend w block s) := by
  unfold execMsgCtrlResend
  try dsimp only
  repeat' first
  | with_reducible assumption
  | with_reducible intro hc
  | with_reducible refine Res.next_sound ?_
  | with_reducible apply State.dropUnadmitted_sound
  | with_reducible apply State.tillResend_sound
  | with_reducible apply State.bandResend_sound
  | with_reducible apply State.mirrorResend_sound
  | with_reducible apply ite_sound
  | with_reducible apply ite_res_sound
  | dsimp only
  | split
  | exact trivial

end Sys2Proof.Machine
end

