-- ==== Sys2Proof/Laws/SoundSpan.lean ====
section
/-! SUPPORT. What the operations and meanings of Machine/Span keep of a sound state. -/

namespace Sys2Proof.Machine

theorem State.reroute_sound (s : State) (hs : s.Sound) : (State.reroute s).Sound := by
  unfold State.reroute
  try dsimp only
  repeat' first
  | with_reducible assumption
  | with_reducible intro hc
  | with_reducible apply State.emit_sound
  | with_reducible apply foldl_sound
  | with_reducible apply foldl_fst_sound
  | with_reducible apply foldl_snd_sound
  | with_reducible apply ite_sound
  | with_reducible refine State.Sound.eng ?_
  | with_reducible refine State.Sound.vaults ?_
  | with_reducible refine State.Sound.fars ?_
  | with_reducible refine State.Sound.mbox ?_
  | with_reducible refine State.Sound.book ?_
  | with_reducible refine State.Sound.aperture ?_
  | with_reducible refine State.Sound.rings ?_
  | with_reducible refine State.Sound.eng ?_ _ _
  | with_reducible refine State.Sound.vaults ?_ _ _
  | with_reducible refine State.Sound.fars ?_ _ _
  | with_reducible refine State.Sound.aperture ?_ _ _
  | with_reducible refine State.Sound.rings ?_ _ _
  | (with_reducible refine State.Sound.mk ?_ ?_ ?_ ?_ ?_ ?_ ?_ <;> dsimp only)
  | dsimp only
  | split

theorem State.laneAgree_sound (s : State) (l : Fin 16) (hs : s.Sound) : (State.laneAgree s l).Sound := by
  unfold State.laneAgree
  try dsimp only
  repeat' first
  | with_reducible assumption
  | with_reducible intro hc
  | with_reducible apply State.modLane_sound
  | with_reducible apply State.reroute_sound
  | with_reducible refine State.Sound.eng ?_
  | with_reducible refine State.Sound.vaults ?_
  | with_reducible refine State.Sound.fars ?_
  | with_reducible refine State.Sound.mbox ?_
  | with_reducible refine State.Sound.book ?_
  | with_reducible refine State.Sound.aperture ?_
  | with_reducible refine State.Sound.rings ?_
  | with_reducible refine State.Sound.eng ?_ _ _
  | with_reducible refine State.Sound.vaults ?_ _ _
  | with_reducible refine State.Sound.fars ?_ _ _
  | with_reducible refine State.Sound.aperture ?_ _ _
  | with_reducible refine State.Sound.rings ?_ _ _
  | (with_reducible refine State.Sound.mk ?_ ?_ ?_ ?_ ?_ ?_ ?_ <;> dsimp only)

theorem execFlitDiscard_sound (lm : Fin 16) (_east : Bool) (code : BitVec 4) (s : State) (hs : s.Sound) : Res.Sound (execFlitDiscard lm _east code s) := by
  unfold execFlitDiscard
  try dsimp only
  repeat' first
  | with_reducible assumption
  | with_reducible intro hc
  | with_reducible refine Res.next_sound ?_
  | with_reducible apply State.laneAgree_sound
  | with_reducible apply ite_sound
  | with_reducible apply ite_res_sound
  | with_reducible refine State.Sound.eng ?_
  | with_reducible refine State.Sound.vaults ?_
  | with_reducible refine State.Sound.fars ?_
  | with_reducible refine State.Sound.mbox ?_
  | with_reducible refine State.Sound.book ?_
  | with_reducible refine State.Sound.aperture ?_
  | with_reducible refine State.Sound.rings ?_
  | with_reducible refine State.Sound.eng ?_ _ _
  | with_reducible refine State.Sound.vaults ?_ _ _
  | with_reducible refine State.Sound.fars ?_ _ _
  | with_reducible refine State.Sound.aperture ?_ _ _
  | with_reducible refine State.Sound.rings ?_ _ _
  | (with_reducible refine State.Sound.mk ?_ ?_ ?_ ?_ ?_ ?_ ?_ <;> dsimp only)
  | dsimp only
  | split
  | exact trivial

theorem execWidthAgreement_sound (lm : Fin 16) (west : BitVec 3) (east : BitVec 3) (checkOk : Bool) (s : State) (hs : s.Sound) : Res.Sound (execWidthAgreement lm west east checkOk s) := by
  unfold execWidthAgreement
  try dsimp only
  repeat' first
  | with_reducible assumption
  | with_reducible intro hc
  | with_reducible refine Res.next_sound ?_
  | with_reducible apply State.modLane_sound
  | with_reducible apply State.reroute_sound
  | with_reducible apply ite_sound
  | with_reducible apply ite_res_sound
  | dsimp only
  | split
  | exact trivial

theorem State.widthEvent_sound (s : State) (lm : Fin 16) (hs : s.Sound) : (State.widthEvent s lm).Sound := by
  unfold State.widthEvent
  try dsimp only
  repeat' first
  | with_reducible exact hs
  | with_reducible apply State.post_sound

theorem laneLock_sound (lm : Fin 16) (checkOk : Bool) (s : State) (hs : s.Sound) : (laneLock lm checkOk s).Sound := by
  unfold laneLock
  try dsimp only
  repeat' first
  | with_reducible assumption
  | with_reducible intro hc
  | with_reducible apply State.modLane_sound
  | with_reducible apply State.hold_sound
  | with_reducible apply State.reroute_sound
  | with_reducible apply State.widthEvent_sound
  | with_reducible apply ite_sound
  | dsimp only
  | split

theorem execLaneLock_sound (lm : Fin 16) (checkOk : Bool) (s : State) (hs : s.Sound) : Res.Sound (execLaneLock lm checkOk s) := by
  unfold execLaneLock
  try dsimp only
  repeat' first
  | with_reducible exact hs
  | with_reducible intro hc
  | with_reducible apply ite_sound
  | with_reducible refine Res.next_sound ?_
  | with_reducible apply laneLock_sound

theorem State.modXch_sound (s : State) (k : Fin 16) (f : W32 × W16 → W32 × W16) (hs : s.Sound) : (State.modXch s k f).Sound := by
  unfold State.modXch
  try dsimp only
  repeat' first
  | with_reducible assumption
  | with_reducible intro hc
  | with_reducible apply State.modInt_sound

theorem State.parityCount_sound (s : State) (i : IslandIdx) (hs : s.Sound) : (State.parityCount s i).Sound := by
  unfold State.parityCount
  try dsimp only
  repeat' first
  | with_reducible assumption
  | with_reducible intro hc
  | with_reducible apply State.modEngInt_sound
  | with_reducible apply State.modXch_sound
  | with_reducible apply State.modInt_sound
  | split

theorem State.parityBroken_sound (s : State) (i : IslandIdx) (hs : s.Sound) : (State.parityBroken s i).Sound := by
  unfold State.parityBroken
  try dsimp only
  repeat' first
  | with_reducible exact hs
  | with_reducible apply State.modEngInt_sound
  | with_reducible apply State.modXch_sound
  | split

theorem execParityError_sound (x : Crossing) (got : List (W32 × Bool)) (buf : List (List W32)) (s : State) (hs : s.Sound) : Res.Sound (execParityError x got buf s) := by
  unfold execParityError
  try dsimp only
  repeat' first
  | with_reducible assumption
  | with_reducible intro hc
  | with_reducible refine Res.next_sound ?_
  | with_reducible apply State.emit_sound
  | with_reducible apply State.parityCount_sound
  | with_reducible apply ite_sound
  | with_reducible apply ite_res_sound
  | dsimp only
  | split
  | exact trivial

theorem execErrorFrameSend_sound (s : State) (hs : s.Sound) : Res.Sound (execErrorFrameSend s) := by
  unfold execErrorFrameSend
  refine Res.next_sound ?_
  split
  · rename_i m r p ps hm hp
    have h1 : ((p :: ps).foldl (fun s p => s.emit (.ether p (BitVec.ofNat 16 (fld s.int.errCfg 15 0)) s.int.errDst
        (s.framePayload m))) s).Sound := foldl_sound _ _ _ (fun s a h => State.emit_sound _ _ h) hs
    apply State.modInt_sound _ _ h1
    intro x _
    have := hs.mbox
    rw [hm] at this
    exact Nat.le_of_succ_le this
  · exact hs

theorem execMailboxOverflowFrame_sound (s : State) (hs : s.Sound) : Res.Sound (execMailboxOverflowFrame s) := by
  unfold execMailboxOverflowFrame
  try dsimp only
  repeat' first
  | with_reducible assumption
  | with_reducible intro hc
  | with_reducible apply ite_sound
  | with_reducible refine Res.next_sound ?_
  | with_reducible apply State.post_sound
  | with_reducible apply State.modInt_sound

theorem execMgmtLinkChange_sound (port up fec : Bool) (s : State) (hs : s.Sound) : Res.Sound (execMgmtLinkChange port up fec s) := by
  unfold execMgmtLinkChange
  try dsimp only
  repeat' first
  | with_reducible exact hs
  | with_reducible refine Res.next_sound ?_
  | with_reducible apply State.modGlb_sound

end Sys2Proof.Machine
end

