-- ==== Sys2Proof/Laws/SoundRings.lean ====
section
/-! SUPPORT. What the operations and meanings of Machine/Rings keep of a sound state. -/

namespace Sys2Proof.Machine

theorem bitAt_setBit_clear (w : W64) (i : Nat) (h : i < 64) : bitAt (setBit w i false) i = false := by
  unfold bitAt setBit
  rw [if_neg (by decide)]
  simp only [BitVec.getLsbD_and, BitVec.getLsbD_not, h, decide_true, Bool.true_and, BitVec.getLsbD_ofNat,
    Nat.testBit_two_pow_self, Bool.not_true, Bool.and_false]

theorem RingSt.write_sound (r : RingSt) (val : W64) (hs : r.Sound) : (RingSt.write r val).Sound := by
  unfold RingSt.write
  dsimp only
  have off : ∀ (x : RingSt), x.enabled = false → x.Sound := fun x h1 h2 => by rw [h1] at h2; cases h2
  split
  · split
    · exact hs
    · exact off _ (bitAt_setBit_clear _ 63 (by omega))
  · split
    · split
      · rename_i hc
        intro _
        unfold RingSt.cfgOk at hc
        simp only [Bool.and_eq_true, decide_eq_true_eq] at hc
        exact ⟨hc.1.1.1.1, hc.1.1.1.2, hc.1.1.2⟩
      · exact off _ (bitAt_setBit_clear _ 63 (by omega))
    · rename_i hb
      exact off _ (by unfold RingSt.enabled; exact Bool.eq_false_iff.mpr hb)

theorem State.regrant_sound (s : State) (r : RingId) (hs : s.Sound) : (State.regrant s r).Sound := by
  unfold State.regrant
  try dsimp only
  repeat' first
  | with_reducible assumption
  | with_reducible intro hc
  | with_reducible apply State.grant_sound
  | with_reducible apply foldl_sound
  | split

theorem State.writeRing_sound (s : State) (r : RingId) (val : W64) (hs : s.Sound) : (State.writeRing s r val).Sound := by
  unfold State.writeRing
  try dsimp only
  repeat' first
  | with_reducible assumption
  | with_reducible intro hc
  | with_reducible apply ite_sound
  | with_reducible apply State.modRing_sound
  | with_reducible apply RingSt.write_sound
  | with_reducible apply State.regrant_sound

theorem RingSt.submit_sound (r : RingSt) (t : Nat) (hs : r.Sound) : (RingSt.submit r t).Sound := by
  unfold RingSt.submit
  try dsimp only
  repeat' first
  | ((fail_if_success (with_reducible refine State.Sound.mk ?_ ?_ ?_ ?_ ?_ ?_ ?_)); first | assumption | (intros; rfl) | exact Nat.zero_le _ | exact rfl)
  | split

theorem RingSt.giveBack_sound (r : RingSt) (c : Nat) (hs : r.Sound) : (RingSt.giveBack r c).Sound := by
  unfold RingSt.giveBack
  try dsimp only
  repeat' first
  | ((fail_if_success (with_reducible refine State.Sound.mk ?_ ?_ ?_ ?_ ?_ ?_ ?_)); first | assumption | (intros; rfl) | exact Nat.zero_le _ | exact rfl)
  | split

theorem State.doorbell_sound (s : State) (off : BitVec 18) (val : W32) (hs : s.Sound) : (State.doorbell s off val).Sound := by
  unfold State.doorbell
  try dsimp only
  repeat' first
  | with_reducible assumption
  | with_reducible intro hc
  | with_reducible apply State.modRing_sound
  | with_reducible apply RingSt.submit_sound
  | with_reducible apply RingSt.giveBack_sound
  | with_reducible apply ite_sound
  | with_reducible refine snd_sound_of_eq (by assumption) ?_
  | with_reducible refine fst_sound_of_eq (by assumption) ?_
  | dsimp only
  | split

theorem execSubmissionDoorbell_sound (off : BitVec 18) (tail : W32) (s : State) (hs : s.Sound) : Res.Sound (execSubmissionDoorbell off tail s) := by
  unfold execSubmissionDoorbell
  try dsimp only
  repeat' first
  | with_reducible assumption
  | with_reducible intro hc
  | with_reducible refine Res.next_sound ?_
  | with_reducible apply State.doorbell_sound
  | exact trivial

theorem execCompletionDoorbell_sound (off : BitVec 18) (head : W32) (s : State) (hs : s.Sound) : Res.Sound (execCompletionDoorbell off head s) := by
  unfold execCompletionDoorbell
  try dsimp only
  repeat' first
  | with_reducible assumption
  | with_reducible intro hc
  | with_reducible refine Res.next_sound ?_
  | with_reducible apply State.doorbell_sound
  | exact trivial

theorem RingSt.take_sound (r : RingSt) (hs : r.Sound) : (RingSt.take r).Sound := by
  unfold RingSt.take
  try dsimp only
  repeat' first
  | ((fail_if_success (with_reducible refine State.Sound.mk ?_ ?_ ?_ ?_ ?_ ?_ ?_)); first | assumption | (intros; rfl) | exact Nat.zero_le _ | exact rfl)

theorem RingSt.pop_sound (r : RingSt) (hs : r.Sound) : (RingSt.pop r).Sound := by
  unfold RingSt.pop
  try dsimp only
  repeat' first
  | ((fail_if_success (with_reducible refine State.Sound.mk ?_ ?_ ?_ ?_ ?_ ?_ ?_)); first | assumption | (intros; rfl) | exact Nat.zero_le _ | exact rfl)

theorem State.pcieUp_sound (s : State) (rate : BitVec 4) (width : BitVec 5) (flit : Bool) (hs : s.Sound) : (State.pcieUp s rate width flit).Sound := by
  unfold State.pcieUp
  try dsimp only
  repeat' first
  | with_reducible assumption
  | with_reducible intro hc
  | with_reducible apply State.emit_sound
  | with_reducible apply State.modHost_sound
  | with_reducible apply ite_sound
  | (intros; rfl)
  | dsimp only
  | split

theorem execPcieLinkUp_sound (rate : BitVec 4) (width : BitVec 5) (flit : Bool) (s : State) (hs : s.Sound) : Res.Sound (execPcieLinkUp rate width flit s) := by
  unfold execPcieLinkUp
  try dsimp only
  repeat' first
  | with_reducible exact hs
  | with_reducible intro hc
  | with_reducible apply ite_sound
  | with_reducible refine Res.next_sound ?_
  | with_reducible apply State.pcieUp_sound

end Sys2Proof.Machine
end

