-- ==== Sys2Proof/Laws/SoundHost.lean ====
section
/-! SUPPORT. What the operations and meanings of Machine/Host keep of a sound state. -/

namespace Sys2Proof.Machine

theorem State.writeApt_sound (s : State) (k : Fin 16) (v : W64) (hs : s.Sound) : (State.writeApt s k v).Sound := by
  unfold State.writeApt
  split
  · rename_i hv
    refine ⟨hs.eng, hs.vaults, hs.fars, hs.mbox, hs.book, ?_, hs.rings⟩
    exact vset_all s.host.aptMap k.val k.isLt (aptMasked v) (fun v => aptValueOk v = true) hs.aperture hv
  · exact State.modHost_sound _ _ hs (fun _ => rfl) (fun _ => rfl)

theorem apertureRead_sound (off : BitVec 36) (len : Nat) (met : ReadMet) (s : State) (hs : s.Sound) : (apertureRead off len met s).Sound := by
  unfold apertureRead
  try dsimp only
  repeat' first
  | with_reducible assumption
  | with_reducible intro hc
  | with_reducible apply State.emit_sound
  | with_reducible apply State.readVia_sound
  | with_reducible apply State.aptErr_sound
  | with_reducible apply State.pciRefuse_sound
  | with_reducible refine State.readVia_sound_eq (by assumption) ?_
  | with_reducible apply ite_sound
  | with_reducible refine snd_sound_of_eq (by assumption) ?_
  | with_reducible refine fst_sound_of_eq (by assumption) ?_
  | dsimp only
  | split

theorem execApertureRead_sound (off : BitVec 36) (len : Nat) (met : ReadMet) (s : State) (hs : s.Sound) : Res.Sound (execApertureRead off len met s) := by
  unfold execApertureRead
  try dsimp only
  repeat' first
  | with_reducible assumption
  | with_reducible refine Res.next_sound ?_
  | with_reducible apply apertureRead_sound

theorem State.writeTlps_sound (s : State) (c : CtlId) (a : Nat) (data : List Byte) (nn : Nat) (hs : s.Sound) : (State.writeTlps s c a data nn).Sound := by
  induction nn generalizing s c a data with
  | zero =>
      unfold State.writeTlps
      try dsimp only
      repeat' first
      | with_reducible assumption
  | succ k IH =>
      unfold State.writeTlps
      try dsimp only
      repeat' first
      | with_reducible assumption
      | with_reducible intro hc
      | with_reducible apply IH
      | with_reducible apply State.writeBytes_sound
      | with_reducible apply ite_sound

theorem apertureWrite_sound (off : BitVec 36) (data : Bytes) (s : State) (hs : s.Sound) : (apertureWrite off data s).Sound := by
  unfold apertureWrite
  try dsimp only
  repeat' first
  | with_reducible assumption
  | with_reducible intro hc
  | with_reducible apply State.aptErr_sound
  | with_reducible apply State.aerLog_sound
  | with_reducible apply State.writeTlps_sound
  | with_reducible refine snd_sound_of_eq (by assumption) ?_
  | with_reducible refine fst_sound_of_eq (by assumption) ?_
  | dsimp only
  | split

theorem execApertureWrite_sound (off : BitVec 36) (data : Bytes) (s : State) (hs : s.Sound) : Res.Sound (execApertureWrite off data s) := by
  unfold execApertureWrite
  try dsimp only
  repeat' first
  | with_reducible exact hs
  | with_reducible refine Res.next_sound ?_
  | with_reducible apply apertureWrite_sound

theorem hostTillInEntry_sound (r : RingId) (w0 : W64) (addr : W64) (origin : StepNo) (mb : W16) (data : Bytes) (tags : List (BitVec 128)) (s : State) (hs : s.Sound) : (hostTillInEntry r w0 addr origin mb data tags s).Sound := by
  unfold hostTillInEntry
  try dsimp only
  repeat' first
  | with_reducible assumption
  | with_reducible intro hc
  | exact hc
  | with_reducible apply State.modRing_sound
  | with_reducible apply tillData_sound
  | with_reducible apply RingSt.take_sound
  | with_reducible apply foldl_sound
  | with_reducible apply foldl_fst_sound
  | with_reducible apply foldl_snd_sound
  | with_reducible apply foldl_eng_sound
  | with_reducible apply foldl_mem_wf
  | with_reducible apply foldl_memf_wf
  | with_reducible apply ite_sound
  | with_reducible apply ite_eng_sound
  | with_reducible refine snd_sound_of_eq (by assumption) ?_
  | with_reducible refine fst_sound_of_eq (by assumption) ?_
  | dsimp only
  | split

theorem execHostTillInEntry_sound (r : RingId) (w0 : W64) (addr : W64) (origin : StepNo) (mb : W16) (data : Bytes) (tags : List (BitVec 128)) (s : State) (hs : s.Sound) : Res.Sound (execHostTillInEntry r w0 addr origin mb data tags s) := by
  unfold execHostTillInEntry
  try dsimp only
  repeat' first
  | with_reducible exact hs
  | with_reducible refine Res.next_sound ?_
  | with_reducible apply hostTillInEntry_sound

theorem hostTillOutEntry_sound (r : RingId) (w0 : W64) (addr : W64) (s : State) (hs : s.Sound) : (hostTillOutEntry r w0 addr s).Sound := by
  unfold hostTillOutEntry
  try dsimp only
  repeat' first
  | with_reducible assumption
  | with_reducible intro hc
  | exact hc
  | with_reducible apply State.modRing_sound
  | with_reducible apply State.modT_sound
  | with_reducible apply State.sendHost_sound
  | with_reducible apply RingSt.take_sound
  | with_reducible apply ite_sound
  | with_reducible apply ite_eng_sound
  | (with_reducible refine Engine.Sound.mk ?_ ?_ ?_ ?_ ?_ <;> dsimp only)
  | exact Nat.zero_le _
  | exact rfl
  | (have hq := ‹Engine.Sound _›; with_reducible exact hq.store)
  | (have hq := ‹Engine.Sound _›; with_reducible exact hq.acc)
  | (have hq := ‹Engine.Sound _›; with_reducible exact hq.chk)
  | (have hq := ‹Engine.Sound _›; with_reducible exact hq.vr)
  | (have hq := ‹Engine.Sound _›; with_reducible exact hq.queue)
  | with_reducible apply Engine.Sound.store
  | with_reducible apply Engine.Sound.acc
  | with_reducible apply Engine.Sound.chk
  | with_reducible apply Engine.Sound.vr
  | with_reducible apply Engine.Sound.queue
  | with_reducible refine State.Sound.eng ?_ _ _
  | with_reducible refine snd_sound_of_eq (by assumption) ?_
  | with_reducible refine fst_sound_of_eq (by assumption) ?_
  | dsimp only
  | split

theorem execHostTillOutEntry_sound (r : RingId) (w0 : W64) (addr : W64) (s : State) (hs : s.Sound) : Res.Sound (execHostTillOutEntry r w0 addr s) := by
  unfold execHostTillOutEntry
  try dsimp only
  repeat' first
  | with_reducible exact hs
  | with_reducible refine Res.next_sound ?_
  | with_reducible apply hostTillOutEntry_sound

theorem State.hostTillsReset_sound (s : State) (hs : s.Sound) : (State.hostTillsReset s).Sound := by
  unfold State.hostTillsReset
  try dsimp only
  repeat' first
  | with_reducible assumption
  | with_reducible intro hc
  | with_reducible apply State.modT_sound
  | with_reducible apply foldl_sound
  | split

theorem State.hostChannelsHalt_sound (s : State) (hs : s.Sound) : (State.hostChannelsHalt s).Sound := by
  unfold State.hostChannelsHalt
  try dsimp only
  repeat' first
  | with_reducible assumption
  | with_reducible intro hc
  | with_reducible apply ite_sound
  | with_reducible apply forEng_sound
  | with_reducible apply State.chainHalt_sound
  | with_reducible apply foldl_sound

theorem State.hostDrainFails_sound (s : State) (hs : s.Sound) : (State.hostDrainFails s).Sound := by
  unfold State.hostDrainFails
  try dsimp only
  repeat' first
  | with_reducible assumption
  | with_reducible intro hc
  | with_reducible apply State.drainFail_sound

theorem RingSt.off_sound (x : RingSt) : RingSt.Sound { x with cfg := setBit x.cfg 63 false } := by
  intro h
  have h3 : bitAt (setBit x.cfg 63 false) 63 = false := bitAt_setBit_clear _ 63 (by omega)
  have h4 : bitAt (setBit x.cfg 63 false) 63 = true := h
  rw [h3] at h4; cases h4

theorem State.hostDown_sound (s : State) (hs : s.Sound) :
    (s.modHost fun h => { h with
      ideActive := false
      aptMap := Vector.replicate 16 0xF000_0000_0000_0000
      rings := h.rings.map fun g => { g with cfg := setBit g.cfg 63 false } }).Sound := by
  apply State.modHost_sound2 _ _ hs
  · intro i hi
    dsimp only
    rw [Vector.getElem_replicate]
    decide
  · intro i hi
    dsimp only
    rw [Vector.getElem_map]
    exact RingSt.off_sound _

theorem hostLinkReset_sound (s : State) (hs : s.Sound) : (hostLinkReset s).Sound := by
  unfold hostLinkReset
  dsimp only
  with_reducible apply State.hostDrainFails_sound
  with_reducible apply State.hostChannelsHalt_sound
  with_reducible apply State.hostTillsReset_sound
  exact State.hostDown_sound s hs

theorem execHostLinkReset_sound (s : State) (hs : s.Sound) : Res.Sound (execHostLinkReset s) := by
  unfold execHostLinkReset
  try dsimp only
  repeat' first
  | with_reducible exact hs
  | with_reducible refine Res.next_sound ?_
  | with_reducible apply hostLinkReset_sound

end Sys2Proof.Machine
end

