-- ==== Sys2Proof/Laws/SoundStart.lean ====
section
/-! SUPPORT. What the operations and meanings of Machine/Start keep of a sound state. -/

namespace Sys2Proof.Machine

theorem EngArr.takeCounts_sound (x y : EngArr) (hs : x.queue.length ≤ 32) : (EngArr.takeCounts x y).queue.length ≤ 32 := by
  unfold EngArr.takeCounts
  try dsimp only
  repeat' first
  | with_reducible exact hs

theorem EngVec.takeCounts_sound (x y : EngVec) (hs : x.vr.wf) : (EngVec.takeCounts x y).vr.wf := by
  unfold EngVec.takeCounts
  try dsimp only
  repeat' first
  | with_reducible exact hs

theorem Engine.takeCounts_sound (x y : Engine) (hs : x.Sound) : (Engine.takeCounts x y).Sound := by
  unfold Engine.takeCounts
  try dsimp only
  repeat' first
  | with_reducible apply EngArr.takeCounts_sound
  | with_reducible apply EngVec.takeCounts_sound
  | (with_reducible refine Engine.Sound.mk ?_ ?_ ?_ ?_ ?_ <;> dsimp only)
  | (have hq := ‹Engine.Sound _›; with_reducible exact hq.store)
  | (have hq := ‹Engine.Sound _›; with_reducible exact hq.acc)
  | (have hq := ‹Engine.Sound _›; with_reducible exact hq.chk)
  | (have hq := ‹Engine.Sound _›; with_reducible exact hq.vr)
  | (have hq := ‹Engine.Sound _›; with_reducible exact hq.queue)

theorem Engine.zeroCounts_sound (x : Engine) (hs : x.Sound) : (Engine.zeroCounts x).Sound := by
  unfold Engine.zeroCounts
  try dsimp only
  repeat' first
  | with_reducible exact hs
  | with_reducible apply Engine.takeCounts_sound

theorem Engine.wiped_sound (e : Engine) (hs : e.Sound) : (Engine.wiped e).Sound := by
  unfold Engine.wiped
  try dsimp only
  repeat' first
  | with_reducible apply Engine.takeCounts_sound
  | (with_reducible refine Engine.Sound.mk ?_ ?_ ?_ ?_ ?_ <;> dsimp only)
  | with_reducible apply Engine.Sound.store
  | with_reducible apply Engine.Sound.acc
  | with_reducible apply Engine.Sound.chk
  | with_reducible apply Engine.Sound.vr
  | with_reducible apply Engine.Sound.queue
  | with_reducible exact Engine.init_sound

theorem State.sampleStraps_sound (s : State) (hs : s.Sound) : (State.sampleStraps s).Sound := by
  unfold State.sampleStraps
  try dsimp only
  repeat' first
  | with_reducible exact hs
  | with_reducible apply State.modGlb_sound

theorem State.atStep_sound (s : State) (n : Nat) (hs : s.Sound) : (State.atStep s n).Sound := by
  unfold State.atStep
  try dsimp only
  repeat' first
  | with_reducible exact hs
  | with_reducible apply State.modGlb_sound

theorem State.holdStart_sound (s : State) (h : StartHold) (hs : s.Sound) : (State.holdStart s h).Sound := by
  unfold State.holdStart
  try dsimp only
  repeat' first
  | with_reducible exact hs
  | with_reducible apply State.modGlb_sound
  | with_reducible apply State.alert_sound

theorem State.enterRecovery_sound (s : State) (hs : s.Sound) : (State.enterRecovery s).Sound := by
  unfold State.enterRecovery
  try dsimp only
  repeat' first
  | with_reducible exact hs
  | with_reducible apply State.modGlb_sound
  | with_reducible apply State.holdStart_sound

theorem State.loadStore_sound (s : State) (tag : Option (BitVec 128)) (hs : s.Sound) : (State.loadStore s tag).Sound := by
  unfold State.loadStore
  try dsimp only
  repeat' first
  | with_reducible assumption
  | with_reducible intro hc
  | with_reducible apply State.modSec_sound
  | with_reducible apply Plan.store_sound
  | with_reducible apply ite_sound
  | (intros; rfl)
  | dsimp only
  | split

theorem State.loadFirmware_sound (s : State) (hs : s.Sound) : ∀ t, State.loadFirmware s = some t → t.Sound := by
  unfold State.loadFirmware
  intro t ht
  try dsimp only
  repeat' first
  | with_reducible assumption
  | with_reducible intro hc
  | with_reducible apply State.modSec_sound
  | with_reducible apply State.measure_sound
  | (rw [Option.some.injEq] at ht; subst ht)
  | (simp only [reduceCtorEq] at ht)
  | split at ht

theorem State.loadFirmware_sound_eq {s : State} {t : State} (hq : State.loadFirmware s = some t) (hs : s.Sound) : t.Sound :=
  State.loadFirmware_sound s hs t hq

theorem Engine.applyMap_sound (e : Engine) (map : List Byte) (i : Nat) (hs : e.Sound) : (Engine.applyMap e map i).Sound := by
  unfold Engine.applyMap
  try dsimp only
  repeat' first
  | (with_reducible refine Engine.Sound.mk ?_ ?_ ?_ ?_ ?_ <;> dsimp only)
  | (have hq := ‹Engine.Sound _›; with_reducible exact hq.store)
  | (have hq := ‹Engine.Sound _›; with_reducible exact hq.acc)
  | (have hq := ‹Engine.Sound _›; with_reducible exact hq.chk)
  | (have hq := ‹Engine.Sound _›; with_reducible exact hq.vr)
  | (have hq := ‹Engine.Sound _›; with_reducible exact hq.queue)

theorem CtlSt.applyMap_sound (c : CtlSt) (map : List Byte) (i : Nat) (hs : c.Sound) : (CtlSt.applyMap c map i).Sound := by
  unfold CtlSt.applyMap
  try dsimp only
  repeat' first
  | (with_reducible refine CtlSt.Sound.mk ?_ ?_ <;> dsimp only)
  | (have hq := ‹CtlSt.Sound _›; with_reducible exact hq.data)
  | (have hq := ‹CtlSt.Sound _›; with_reducible exact hq.merge)

theorem State.applyMaps_sound (s : State) (hs : s.Sound) : (State.applyMaps s).Sound := by
  unfold State.applyMaps
  try dsimp only
  repeat' first
  | with_reducible assumption
  | with_reducible intro hc
  | with_reducible apply State.modGlb_sound
  | with_reducible apply State.modSec_sound
  | with_reducible apply Engine.applyMap_sound
  | with_reducible apply CtlSt.applyMap_sound
  | (rw [Vector.getElem_ofFn])
  | with_reducible refine State.Sound.mbox ?_
  | with_reducible refine State.Sound.book ?_
  | with_reducible refine State.Sound.eng ?_ _ _
  | with_reducible refine State.Sound.vaults ?_ _ _
  | with_reducible refine State.Sound.fars ?_ _ _
  | with_reducible refine State.Sound.aperture ?_ _ _
  | with_reducible refine State.Sound.rings ?_ _ _
  | (with_reducible refine State.Sound.mk ?_ ?_ ?_ ?_ ?_ ?_ ?_ <;> dsimp only)

theorem State.measureMap_sound (s : State) (hs : s.Sound) : (State.measureMap s).Sound := by
  unfold State.measureMap
  try dsimp only
  repeat' first
  | with_reducible exact hs
  | with_reducible intro hc
  | with_reducible apply ite_sound
  | with_reducible apply State.measure_sound

theorem State.setReset_sound (s : State) (first last : Nat) (on : Bool) (hs : s.Sound) : (State.setReset s first last on).Sound := by
  unfold State.setReset
  try dsimp only
  repeat' first
  | with_reducible exact hs
  | with_reducible apply State.modPwr_sound

theorem State.setPairs_sound (s : State) (mine : Bool → Bool) (hs : s.Sound) : (State.setPairs s mine).Sound := by
  unfold State.setPairs
  try dsimp only
  repeat' first
  | with_reducible exact hs
  | with_reducible refine State.Sound.eng ?_
  | with_reducible refine State.Sound.vaults ?_
  | with_reducible refine State.Sound.fars ?_
  | with_reducible refine State.Sound.mbox ?_
  | with_reducible refine State.Sound.book ?_
  | with_reducible refine State.Sound.aperture ?_
  | with_reducible refine State.Sound.rings ?_

  | (with_reducible refine State.Sound.mk ?_ ?_ ?_ ?_ ?_ ?_ ?_ <;> dsimp only)

theorem State.spanStart_sound (s : State) (env : StartEnv) (mine : LaneSt → Bool) (hs : s.Sound) : (State.spanStart s env mine).Sound := by
  unfold State.spanStart
  try dsimp only
  repeat' first
  | with_reducible assumption
  | with_reducible intro hc
  | with_reducible apply State.modLane_sound
  | with_reducible apply Engine.init_sound
  | with_reducible apply CtlSt.init_sound
  | with_reducible apply RingSt.init_sound
  | with_reducible apply State.reroute_sound
  | with_reducible apply State.laneAgree_sound
  | with_reducible apply laneLock_sound
  | with_reducible apply foldl_sound
  | with_reducible apply foldl_fst_sound
  | with_reducible apply foldl_snd_sound
  | with_reducible apply ite_sound
  | with_reducible apply filter_le
  | dsimp only
  | split

theorem State.trainMemory_sound (s : State) (env : StartEnv) (mine : Bool → Bool) (hs : s.Sound) : (State.trainMemory s env mine).Sound := by
  unfold State.trainMemory
  try dsimp only
  repeat' first
  | with_reducible exact hs
  | with_reducible refine State.Sound.eng ?_
  | with_reducible refine State.Sound.mbox ?_
  | with_reducible refine State.Sound.book ?_
  | with_reducible refine State.Sound.aperture ?_
  | with_reducible refine State.Sound.rings ?_
  | with_reducible intro hc
  | with_reducible refine State.Sound.vaults ?_ _ _
  | with_reducible refine State.Sound.fars ?_ _ _
  | with_reducible apply State.modGlb_sound
  | (with_reducible refine CtlSt.Sound.mk ?_ ?_ <;> dsimp only)
  | with_reducible apply CtlSt.Sound.merge
  | with_reducible apply CtlSt.Sound.data
  | split
  | (with_reducible refine State.Sound.mk ?_ ?_ ?_ ?_ ?_ ?_ ?_ <;> dsimp only)
  | (rw [Vector.getElem_ofFn])

theorem State.trainPorts_sound (s : State) (env : StartEnv) (mine : Bool → Bool) (hs : s.Sound) : (State.trainPorts s env mine).Sound := by
  unfold State.trainPorts
  try dsimp only
  repeat' first
  | with_reducible assumption
  | with_reducible intro hc
  | with_reducible apply State.modPort_sound
  | with_reducible apply State.modGlb_sound
  | with_reducible apply State.gatherFrames_sound
  | with_reducible apply State.presetCheck_sound
  | with_reducible apply foldl_sound
  | with_reducible apply ite_sound

theorem State.bootEntry_sound (s : State) (hs : s.Sound) : (State.bootEntry s).Sound := by
  unfold State.bootEntry
  try dsimp only
  repeat' first
  | with_reducible assumption
  | with_reducible intro hc
  | with_reducible apply State.dbAppendEntry_sound
  | with_reducible apply Plan.store_sound

theorem State.raise10_sound (s : State) (hs : s.Sound) : (State.raise10 s).Sound := by
  unfold State.raise10
  try dsimp only
  repeat' first
  | with_reducible assumption
  | with_reducible intro hc
  | with_reducible apply ite_sound
  | with_reducible apply State.setReset_sound
  | with_reducible apply State.modPwr_sound
  | with_reducible apply State.zeroAllDram_sound
  | with_reducible apply State.modSec_sound

theorem State.ready11_sound (s : State) (hs : s.Sound) : (State.ready11 s).Sound := by
  unfold State.ready11
  try dsimp only
  repeat' first
  | with_reducible exact hs
  | with_reducible apply State.atStep_sound
  | with_reducible apply State.bootEntry_sound
  | with_reducible apply State.drawNonce_sound
  | with_reducible apply State.modGlb_sound
  | with_reducible apply State.alert_sound

theorem State.startFrom8_sound (s : State) (env : StartEnv) (hs : s.Sound) : (State.startFrom8 s env).Sound := by
  unfold State.startFrom8
  try dsimp only
  repeat' first
  | with_reducible exact hs
  | with_reducible apply State.atStep_sound
  | with_reducible apply State.holdStart_sound
  | with_reducible apply State.pcieUp_sound
  | with_reducible apply State.setReset_sound
  | with_reducible apply State.trainPorts_sound
  | with_reducible apply State.raise10_sound
  | with_reducible apply State.ready11_sound
  | split

theorem State.startFrom4_sound (s : State) (env : StartEnv) (hs : s.Sound) : (State.startFrom4 s env).Sound := by
  unfold State.startFrom4
  try dsimp only
  repeat' first
  | with_reducible assumption
  | with_reducible intro hc
  | with_reducible apply State.modGlb_sound
  | with_reducible apply State.modSec_sound
  | with_reducible apply State.atStep_sound
  | with_reducible apply State.enterRecovery_sound
  | with_reducible apply State.applyMaps_sound
  | with_reducible apply State.measureMap_sound
  | with_reducible apply State.setReset_sound
  | with_reducible apply State.setPairs_sound
  | with_reducible apply State.spanStart_sound
  | with_reducible apply State.trainMemory_sound
  | with_reducible apply State.startFrom8_sound
  | with_reducible apply ite_sound

theorem State.startFrom2_sound (s : State) (env : StartEnv) (sample : Bool) (hs : s.Sound) : (State.startFrom2 s env sample).Sound := by
  unfold State.startFrom2
  try dsimp only
  repeat' first
  | with_reducible assumption
  | with_reducible intro hc
  | with_reducible exact State.loadFirmware_sound _ (by assumption) _ (by assumption)
  | with_reducible refine State.loadFirmware_sound _ ?_ _ (by assumption)
  | with_reducible apply State.sampleStraps_sound
  | with_reducible apply State.atStep_sound
  | with_reducible apply State.holdStart_sound
  | with_reducible apply State.enterRecovery_sound
  | with_reducible apply State.loadStore_sound
  | with_reducible apply State.startFrom4_sound
  | with_reducible apply ite_sound
  | with_reducible refine snd_sound_of_eq (by assumption) ?_
  | with_reducible refine fst_sound_of_eq (by assumption) ?_
  | with_reducible exact State.loadFirmware_sound _ (by assumption) _ (by assumption)
  | dsimp only
  | split

theorem State.gate2_sound (s : State) (env : StartEnv) (hs : s.Sound) : (State.gate2 s env).Sound := by
  unfold State.gate2
  try dsimp only
  repeat' first
  | with_reducible exact hs
  | with_reducible intro hc
  | with_reducible apply ite_sound
  | with_reducible apply State.modGlb_sound
  | with_reducible apply State.setReset_sound
  | with_reducible apply State.holdStart_sound
  | with_reducible apply State.startFrom2_sound

theorem State.cutAll_sound (s : State) (mine : EngineId → Bool) (hs : s.Sound) : (State.cutAll s mine).Sound := by
  unfold State.cutAll
  try dsimp only
  repeat' first
  | with_reducible assumption
  | with_reducible intro hc
  | with_reducible apply State.cutSlip_sound
  | with_reducible apply foldl_sound
  | with_reducible apply ite_sound

theorem keepMem_sound (c : CtlSt) (hs : c.Sound) : (keepMem c).Sound := by
  unfold keepMem
  try dsimp only
  repeat' first
  | with_reducible assumption
  | with_reducible intro hc
  | with_reducible apply Engine.init_sound
  | with_reducible apply CtlSt.init_sound
  | with_reducible apply RingSt.init_sound
  | (with_reducible refine CtlSt.Sound.mk ?_ ?_ <;> dsimp only)
  | (have hq := ‹CtlSt.Sound _›; with_reducible exact hq.data)
  | (have hq := ‹CtlSt.Sound _›; with_reducible exact hq.merge)
  | with_reducible apply CtlSt.Sound.data
  | with_reducible apply CtlSt.Sound.merge

theorem State.blank_sound (s : State) (cause : BitVec 4) (power : Bool) (hs : s.Sound) : (State.blank s cause power).Sound := by
  unfold State.blank
  try dsimp only
  repeat' first
  | with_reducible exact hs
  | with_reducible refine State.Sound.eng ?_
  | with_reducible refine State.Sound.aperture ?_
  | with_reducible refine State.Sound.rings ?_
  | with_reducible intro hc
  | with_reducible refine State.Sound.vaults ?_ _ _
  | with_reducible refine State.Sound.fars ?_ _ _
  | with_reducible apply keepMem_sound
  | ((fail_if_success (with_reducible refine State.Sound.mk ?_ ?_ ?_ ?_ ?_ ?_ ?_)); first | assumption | (intros; rfl) | exact Nat.zero_le _ | exact rfl)
  | split
  | (with_reducible refine State.Sound.mk ?_ ?_ ?_ ?_ ?_ ?_ ?_ <;> dsimp only)
  | with_reducible exact CtlSt.init_sound
  | with_reducible exact State.reset_sound
  | (rw [Vector.getElem_replicate])
  | (rw [Vector.getElem_map])

theorem State.moduleReset_sound (s : State) (cause : BitVec 4) (h : StartHold) (hs : s.Sound) : (State.moduleReset s cause h).Sound := by
  unfold State.moduleReset
  try dsimp only
  repeat' first
  | with_reducible assumption
  | with_reducible apply State.modGlb_sound
  | with_reducible apply State.modPwr_sound
  | with_reducible apply State.sendLeave_sound
  | with_reducible apply State.holdStart_sound
  | with_reducible apply State.setReset_sound
  | with_reducible apply State.cutAll_sound
  | with_reducible apply State.blank_sound

theorem State.resetAndStart_sound (s : State) (cause : BitVec 4) (env : StartEnv) (hs : s.Sound) : (State.resetAndStart s cause env).Sound := by
  unfold State.resetAndStart
  try dsimp only
  repeat' first
  | with_reducible exact hs
  | with_reducible apply State.moduleReset_sound
  | with_reducible apply State.gate2_sound

theorem execModuleReset_sound (env : StartEnv) (s : State) (hs : s.Sound) : Res.Sound (execModuleReset env s) := by
  unfold execModuleReset
  try dsimp only
  repeat' first
  | with_reducible assumption
  | with_reducible intro hc
  | with_reducible refine Res.next_sound ?_
  | with_reducible apply State.resetAndStart_sound
  | with_reducible apply ite_sound

theorem powerApplied_sound (env : StartEnv) (s : State) (hs : s.Sound) : (powerApplied env s).Sound := by
  unfold powerApplied
  try dsimp only
  repeat' first
  | with_reducible exact hs
  | with_reducible intro hc
  | with_reducible apply ite_sound
  | with_reducible apply State.blank_sound
  | with_reducible apply State.atStep_sound
  | with_reducible apply State.sampleStraps_sound
  | with_reducible apply State.modGlb_sound
  | with_reducible apply State.modPwr_sound
  | with_reducible apply State.gate2_sound

theorem execPowerApplied_sound (env : StartEnv) (s : State) (hs : s.Sound) : Res.Sound (execPowerApplied env s) := by
  unfold execPowerApplied
  try dsimp only
  repeat' first
  | with_reducible exact hs
  | with_reducible refine Res.next_sound ?_
  | with_reducible apply powerApplied_sound

theorem State.powerOff_sound (s : State) (cause : BitVec 4) (hs : s.Sound) : (State.powerOff s cause).Sound := by
  unfold State.powerOff
  try dsimp only
  repeat' first
  | with_reducible exact hs
  | with_reducible intro hc
  | with_reducible apply ite_sound
  | with_reducible apply State.blank_sound

theorem execInputLoss_sound (s : State) (hs : s.Sound) : Res.Sound (execInputLoss s) := by
  unfold execInputLoss
  try dsimp only
  repeat' first
  | with_reducible exact hs
  | with_reducible refine Res.next_sound ?_
  | with_reducible apply State.powerOff_sound

theorem execOverVoltage_sound (s : State) (hs : s.Sound) : Res.Sound (execOverVoltage s) := by
  unfold execOverVoltage
  try dsimp only
  repeat' first
  | with_reducible exact hs
  | with_reducible refine Res.next_sound ?_
  | with_reducible apply State.powerOff_sound

theorem execThermalTrip_sound (s : State) (hs : s.Sound) : Res.Sound (execThermalTrip s) := by
  unfold execThermalTrip
  try dsimp only
  repeat' first
  | with_reducible exact hs
  | with_reducible intro hc
  | with_reducible apply ite_sound
  | with_reducible refine Res.next_sound ?_
  | with_reducible apply State.moduleReset_sound

theorem execThermalCooldown_sound (env : StartEnv) (s : State) (hs : s.Sound) : Res.Sound (execThermalCooldown env s) := by
  unfold execThermalCooldown
  try dsimp only
  repeat' first
  | with_reducible exact hs
  | with_reducible intro hc
  | with_reducible apply ite_sound
  | with_reducible refine Res.next_sound ?_
  | with_reducible apply State.gate2_sound

theorem State.pcieDown_sound (s : State) (hs : s.Sound) : (State.pcieDown s).Sound := by
  unfold State.pcieDown
  try dsimp only
  repeat' first
  | with_reducible exact hs
  | with_reducible apply hostLinkReset_sound
  | with_reducible apply State.modHost_sound
  | ((fail_if_success (with_reducible refine State.Sound.mk ?_ ?_ ?_ ?_ ?_ ?_ ?_)); first | assumption | (intros; rfl) | exact Nat.zero_le _ | exact rfl)

theorem refClockLost_sound (is156 : Bool) (s : State) (hs : s.Sound) : (refClockLost is156 s).Sound := by
  unfold refClockLost
  try dsimp only
  repeat' first
  | with_reducible assumption
  | with_reducible intro hc
  | with_reducible apply ite_sound
  | with_reducible apply State.modGlb_sound
  | with_reducible apply State.modPwr_sound
  | with_reducible apply State.alert_sound
  | with_reducible apply State.portDown_sound
  | with_reducible apply State.pcieDown_sound
  | with_reducible apply foldl_sound

theorem execRefClockLost_sound (is156 : Bool) (s : State) (hs : s.Sound) : Res.Sound (execRefClockLost is156 s) := by
  unfold execRefClockLost
  try dsimp only
  repeat' first
  | with_reducible exact hs
  | with_reducible refine Res.next_sound ?_
  | with_reducible apply refClockLost_sound

theorem refClockPresent_sound (is156 : Bool) (env : StartEnv) (s : State) (hs : s.Sound) : (refClockPresent is156 env s).Sound := by
  unfold refClockPresent
  try dsimp only
  repeat' first
  | with_reducible exact hs
  | with_reducible intro hc
  | with_reducible apply ite_sound
  | with_reducible apply State.modGlb_sound
  | with_reducible apply State.modPwr_sound
  | with_reducible apply State.alert_sound
  | with_reducible apply State.trainPorts_sound
  | with_reducible apply State.gate2_sound

theorem execRefClockPresent_sound (is156 : Bool) (env : StartEnv) (s : State) (hs : s.Sound) : Res.Sound (execRefClockPresent is156 env s) := by
  unfold execRefClockPresent
  try dsimp only
  repeat' first
  | with_reducible exact hs
  | with_reducible refine Res.next_sound ?_
  | with_reducible apply refClockPresent_sound

theorem resetNAssert_sound (micros : Nat) (s : State) (hs : s.Sound) : (resetNAssert micros s).Sound := by
  unfold resetNAssert
  try dsimp only
  repeat' first
  | with_reducible exact hs
  | with_reducible refine State.Sound.eng ?_
  | with_reducible refine State.Sound.vaults ?_
  | with_reducible refine State.Sound.fars ?_
  | with_reducible refine State.Sound.mbox ?_
  | with_reducible refine State.Sound.book ?_
  | with_reducible refine State.Sound.aperture ?_
  | with_reducible refine State.Sound.rings ?_
  | with_reducible intro hc
  | with_reducible apply ite_sound
  | with_reducible apply ite_snd_sound
  | with_reducible apply State.modGlb_sound
  | with_reducible apply State.moduleReset_sound
  | (with_reducible refine State.Sound.mk ?_ ?_ ?_ ?_ ?_ ?_ ?_ <;> dsimp only)

theorem execResetNAssert_sound (micros : Nat) (s : State) (hs : s.Sound) : Res.Sound (execResetNAssert micros s) := by
  unfold execResetNAssert
  try dsimp only
  repeat' first
  | with_reducible exact hs
  | with_reducible refine Res.next_sound ?_
  | with_reducible apply resetNAssert_sound

theorem execResetNDeassert_sound (env : StartEnv) (s : State) (hs : s.Sound) : Res.Sound (execResetNDeassert env s) := by
  unfold execResetNDeassert
  try dsimp only
  repeat' first
  | with_reducible exact hs
  | with_reducible intro hc
  | with_reducible apply ite_sound
  | with_reducible refine Res.next_sound ?_
  | with_reducible apply State.modGlb_sound
  | with_reducible apply State.gate2_sound

theorem execPerstNAssert_sound (s : State) (hs : s.Sound) : Res.Sound (execPerstNAssert s) := by
  unfold execPerstNAssert
  try dsimp only
  repeat' first
  | with_reducible exact hs
  | with_reducible refine Res.next_sound ?_
  | with_reducible apply State.modGlb_sound
  | with_reducible apply State.pcieDown_sound

theorem perstNDeassert_sound (env : StartEnv) (s : State) (hs : s.Sound) : (perstNDeassert env s).Sound := by
  unfold perstNDeassert
  try dsimp only
  repeat' first
  | with_reducible exact hs
  | with_reducible apply State.modGlb_sound
  | with_reducible apply State.startFrom8_sound
  | with_reducible apply State.pcieUp_sound
  | split

theorem execPerstNDeassert_sound (env : StartEnv) (s : State) (hs : s.Sound) : Res.Sound (execPerstNDeassert env s) := by
  unfold execPerstNDeassert
  try dsimp only
  repeat' first
  | with_reducible exact hs
  | with_reducible refine Res.next_sound ?_
  | with_reducible apply perstNDeassert_sound

theorem CtlSt.wiped_sound (c : CtlSt) (hs : c.Sound) : (CtlSt.wiped c).Sound := by
  unfold CtlSt.wiped
  try dsimp only
  repeat' first
  | (with_reducible refine CtlSt.Sound.mk ?_ ?_ <;> dsimp only)
  | with_reducible apply CtlSt.Sound.merge
  | with_reducible apply CtlSt.Sound.data
  | with_reducible exact CtlSt.init_sound

theorem State.holdLost_sound (s : State) (hs : s.Sound) : (State.holdLost s).Sound := by
  unfold State.holdLost
  try dsimp only
  repeat' first
  | with_reducible assumption
  | with_reducible intro hc
  | with_reducible apply State.modJob_sound
  | with_reducible apply State.setErr_sound
  | with_reducible apply State.post_sound
  | with_reducible apply State.busyDone_sound
  | with_reducible apply State.held_sound
  | with_reducible apply State.hold_sound
  | with_reducible apply ite_sound
  | dsimp only
  | split

theorem State.wipeHalf_sound (s : State) (east : Bool) (hs : s.Sound) : (State.wipeHalf s east).Sound := by
  unfold State.wipeHalf
  try dsimp only
  repeat' first
  | with_reducible assumption
  | with_reducible intro hc
  | with_reducible apply Engine.wiped_sound
  | with_reducible apply State.cutAll_sound
  | with_reducible apply CtlSt.wiped_sound
  | (rw [Vector.getElem_ofFn])
  | with_reducible refine State.Sound.mbox ?_
  | with_reducible refine State.Sound.book ?_
  | with_reducible refine State.Sound.eng ?_ _ _
  | with_reducible refine State.Sound.vaults ?_ _ _
  | with_reducible refine State.Sound.fars ?_ _ _
  | with_reducible refine State.Sound.aperture ?_ _ _
  | with_reducible refine State.Sound.rings ?_ _ _
  | (with_reducible refine State.Sound.mk ?_ ?_ ?_ ?_ ?_ ?_ ?_ <;> dsimp only)
  | dsimp only
  | split

theorem halfReset_sound (east : Bool) (env : StartEnv) (s : State) (hs : s.Sound) : (halfReset east env s).Sound := by
  unfold halfReset
  try dsimp only
  repeat' first
  | with_reducible assumption
  | with_reducible intro hc
  | with_reducible apply State.modGlb_sound
  | with_reducible apply State.modPwr_sound
  | with_reducible apply State.setPairs_sound
  | with_reducible apply State.spanStart_sound
  | with_reducible apply State.trainMemory_sound
  | with_reducible apply State.trainPorts_sound
  | with_reducible apply State.holdLost_sound
  | with_reducible apply State.wipeHalf_sound
  | with_reducible apply ite_sound

theorem execHalfReset_sound (east : Bool) (env : StartEnv) (s : State) (hs : s.Sound) : Res.Sound (execHalfReset east env s) := by
  unfold execHalfReset
  try dsimp only
  repeat' first
  | with_reducible exact hs
  | with_reducible refine Res.next_sound ?_
  | with_reducible apply halfReset_sound

theorem engineReset_sound (e : EngineId) (s : State) (hs : s.Sound) : (engineReset e s).Sound := by
  unfold engineReset
  try dsimp only
  repeat' first
  | with_reducible assumption
  | with_reducible intro hc
  | with_reducible apply State.modEng_sound
  | with_reducible apply State.modPwr_sound
  | with_reducible apply Engine.wiped_sound
  | with_reducible apply State.cutAll_sound
  | with_reducible apply ite_sound

theorem State.clearStaging_sound (s : State) (hs : s.Sound) : (State.clearStaging s).Sound := by
  unfold State.clearStaging
  try dsimp only
  repeat' first
  | with_reducible assumption
  | with_reducible intro hc
  | with_reducible apply CtlSt.zeroise_sound
  | with_reducible apply State.zeroise_sound
  | with_reducible apply foldl_sound
  | with_reducible apply foldl_fst_sound
  | with_reducible apply foldl_snd_sound

theorem State.toEmpty_sound (s : State) (hs : s.Sound) : (State.toEmpty s).Sound := by
  unfold State.toEmpty
  try dsimp only
  repeat' first
  | with_reducible assumption
  | with_reducible intro hc
  | with_reducible apply State.modJob_sound
  | with_reducible apply State.modSec_sound
  | with_reducible apply State.clearMrJob_sound
  | with_reducible apply Plan.store_sound
  | with_reducible apply State.clearStaging_sound
  | (intros; rfl)

theorem State.bursarReset_sound (s : State) (hs : s.Sound) : (State.bursarReset s).Sound := by
  unfold State.bursarReset
  try dsimp only
  repeat' first
  | with_reducible assumption
  | with_reducible intro hc
  | with_reducible apply State.modGlb_sound
  | with_reducible apply State.modJob_sound
  | with_reducible apply State.modCkpt_sound
  | with_reducible apply State.busyDone_sound
  | with_reducible apply State.held_sound
  | with_reducible apply State.toEmpty_sound
  | with_reducible apply ite_sound
  | with_reducible refine snd_sound_of_eq (by assumption) ?_
  | with_reducible refine fst_sound_of_eq (by assumption) ?_
  | dsimp only
  | split

theorem watchdogExpiry_sound (s : State) (hs : s.Sound) : (watchdogExpiry s).Sound := by
  unfold watchdogExpiry
  try dsimp only
  repeat' first
  | with_reducible assumption
  | with_reducible intro hc
  | with_reducible apply ite_sound
  | with_reducible apply State.bursarReset_sound
  | with_reducible apply State.modSec_sound
  | with_reducible apply State.dbModule_sound
  | with_reducible apply State.post_sound

theorem execWatchdogExpiry_sound (s : State) (hs : s.Sound) : Res.Sound (execWatchdogExpiry s) := by
  unfold execWatchdogExpiry
  try dsimp only
  repeat' first
  | with_reducible exact hs
  | with_reducible refine Res.next_sound ?_
  | with_reducible apply watchdogExpiry_sound

theorem bursarUp_sound (codeOk : Bool) (env : StartEnv) (s : State) (hs : s.Sound) : (bursarUp codeOk env s).Sound := by
  unfold bursarUp
  try dsimp only
  repeat' first
  | with_reducible assumption
  | with_reducible intro hc
  | with_reducible apply State.resetAndStart_sound
  | with_reducible apply State.modGlb_sound
  | with_reducible apply State.modSec_sound
  | with_reducible apply State.doeRequest_sound
  | split

theorem execBursarUp_sound (codeOk : Bool) (env : StartEnv) (s : State) (hs : s.Sound) : Res.Sound (execBursarUp codeOk env s) := by
  unfold execBursarUp
  try dsimp only
  repeat' first
  | with_reducible exact hs
  | with_reducible refine Res.next_sound ?_
  | with_reducible apply bursarUp_sound

theorem State.sendRecovery_sound (s : State) (p : List Byte) (hs : s.Sound) : (State.sendRecovery s p).Sound := by
  unfold State.sendRecovery
  try dsimp only
  repeat' first
  | with_reducible exact hs
  | with_reducible apply State.emit_sound

theorem execRecoveryAnnounce_sound (s : State) (hs : s.Sound) : Res.Sound (execRecoveryAnnounce s) := by
  unfold execRecoveryAnnounce
  try dsimp only
  repeat' first
  | with_reducible exact hs
  | with_reducible intro hc
  | with_reducible apply ite_sound
  | with_reducible refine Res.next_sound ?_
  | with_reducible apply State.sendRecovery_sound

theorem chunk_sound (off len crc : W32) (data : Bytes) (s : State) (hs : s.Sound) : (chunk off len crc data s).Sound := by
  unfold chunk
  try dsimp only
  repeat' first
  | with_reducible assumption
  | with_reducible intro hc
  | with_reducible apply ite_sound
  | with_reducible apply State.sendRecovery_sound
  | with_reducible apply State.modSec_sound

theorem execChunk_sound (off len crc : W32) (data : Bytes) (s : State) (hs : s.Sound) : Res.Sound (execChunk off len crc data s) := by
  unfold execChunk
  try dsimp only
  repeat' first
  | with_reducible exact hs
  | with_reducible refine Res.next_sound ?_
  | with_reducible apply chunk_sound

theorem done_sound (len : W32) (env : StartEnv) (s : State) (hs : s.Sound) : (done len env s).Sound := by
  unfold done
  try dsimp only
  repeat' first
  | with_reducible assumption
  | with_reducible intro hc
  | with_reducible apply State.sendRecovery_sound
  | with_reducible apply State.modSec_sound
  | with_reducible apply State.dbAppend_sound
  | with_reducible apply State.resetAndStart_sound
  | split

theorem execDone_sound (len : W32) (env : StartEnv) (s : State) (hs : s.Sound) : Res.Sound (execDone len env s) := by
  unfold execDone
  try dsimp only
  repeat' first
  | with_reducible exact hs
  | with_reducible refine Res.next_sound ?_
  | with_reducible apply done_sound

theorem State.commitCurve_sound (s : State) (kind target : Byte) (hs : s.Sound) : (State.commitCurve s kind target).2.Sound := by
  unfold State.commitCurve
  try dsimp only
  repeat' first
  | with_reducible exact hs
  | with_reducible intro hc
  | with_reducible apply ite_sound
  | with_reducible apply ite_snd_sound
  | with_reducible apply State.modPwr_sound
  | with_reducible apply State.measure_sound

theorem State.commitCurve_sound_eq {s : State} {kind target : Byte} {a0} {t : State} (hq : State.commitCurve s kind target = (a0, t)) (hs : s.Sound) : t.Sound := by
  have := State.commitCurve_sound s kind target hs; rw [hq] at this; exact this

theorem curveCommit_sound (kind : Byte) (target : Byte) (word : W64) (s : State) (hs : s.Sound) : (curveCommit kind target word s).2.Sound := by
  unfold curveCommit
  try dsimp only
  repeat' first
  | with_reducible assumption
  | with_reducible apply State.modPwr_sound
  | with_reducible refine State.commitCurve_sound_eq (by assumption) ?_
  | split

theorem curveCommit_sound_eq {kind : Byte} {target : Byte} {word : W64} {s : State} {a0} {t : State} (hq : curveCommit kind target word s = (a0, t)) (hs : s.Sound) : t.Sound := by
  have := curveCommit_sound kind target word s hs; rw [hq] at this; exact this

theorem execSmbusStop_sound (s : State) (hs : s.Sound) : Res.Sound (execSmbusStop s) := by
  unfold execSmbusStop
  try dsimp only
  repeat' first
  | with_reducible exact hs
  | with_reducible refine Res.next_sound ?_
  | with_reducible apply State.modGlb_sound

theorem State.pldmBaseAnswer_sound (s : State) (hs : s.Sound) : (State.pldmBaseAnswer s).2.Sound := by
  unfold State.pldmBaseAnswer
  try dsimp only
  repeat' first
  | with_reducible exact hs
  | with_reducible refine State.Sound.eng ?_
  | with_reducible refine State.Sound.vaults ?_
  | with_reducible refine State.Sound.fars ?_
  | with_reducible refine State.Sound.mbox ?_
  | with_reducible refine State.Sound.book ?_
  | with_reducible refine State.Sound.aperture ?_
  | with_reducible refine State.Sound.rings ?_

  | (with_reducible refine State.Sound.mk ?_ ?_ ?_ ?_ ?_ ?_ ?_ <;> dsimp only)

theorem State.pldmBaseAnswer_sound_eq {s : State} {a0} {t : State} (hq : State.pldmBaseAnswer s = (a0, t)) (hs : s.Sound) : t.Sound := by
  have := State.pldmBaseAnswer_sound s hs; rw [hq] at this; exact this

theorem State.shedLoad_sound (s : State) (load : Fin 101) (hs : s.Sound) : (State.shedLoad s load).Sound := by
  unfold State.shedLoad
  exact State.modGlb_sound _ _ hs

theorem execPldmBase_sound (ubody0 : Bytes) (s : State) (hs : s.Sound) : Res.Sound (execPldmBase ubody0 s) := by
  unfold execPldmBase
  try dsimp only
  repeat' first
  | with_reducible exact hs
  | with_reducible intro hc
  | with_reducible apply ite_sound
  | with_reducible refine Res.next_sound ?_
  | with_reducible apply State.pldmBaseAnswer_sound
  | with_reducible apply State.emit_sound

theorem execPldmPlatform_sound (sensor : Fin 4) (load : Fin 101) (s : State) (hs : s.Sound) : Res.Sound (execPldmPlatform sensor load s) := by
  unfold execPldmPlatform
  try dsimp only
  repeat' first
  | with_reducible exact hs
  | with_reducible intro hc
  | with_reducible apply ite_sound
  | with_reducible refine Res.next_sound ?_
  | with_reducible apply State.emit_sound
  | with_reducible apply State.shedLoad_sound

end Sys2Proof.Machine
end

