-- ==== Sys2Proof/Laws/SoundJobs.lean ====
section
/-! SUPPORT. What the operations and meanings of Machine/Jobs keep of a sound state. -/

namespace Sys2Proof.Machine

theorem State.jobCommand_sound (s : State) (opc : Byte) (roles : List Byte) (c : Cmd) (m0 m1 m2 : W64) (ok : JState → Bool) (body : PendCmd → Byte → State → CmdOut) (hs : s.Sound) (hb : ∀ p r t, t.Sound → (body p r t).Sound) : (State.jobCommand s opc roles c m0 m1 m2 ok body).Sound := by
  unfold State.jobCommand
  try dsimp only
  repeat' first
  | with_reducible assumption
  | with_reducible intro hc
  | with_reducible apply ite_cmd_sound
  | with_reducible apply hb
  | with_reducible apply State.command_sound
  | with_reducible apply cmdDone_sound

theorem State.setErrRec_sound (s : State) (e : CharterErr) (hs : s.Sound) : (State.setErrRec s e).Sound := by
  unfold State.setErrRec
  try dsimp only
  repeat' first
  | with_reducible exact hs
  | with_reducible apply State.modJob_sound

theorem State.writeStaging_sound (s : State) (off : Nat) (data : List Byte) (hs : s.Sound) : (State.writeStaging s off data).Sound := by
  unfold State.writeStaging
  try dsimp only
  repeat' first
  | with_reducible assumption
  | with_reducible intro hc
  | with_reducible apply State.writeBytes_sound
  | with_reducible apply foldl_sound

theorem State.otherCopy_sound (s : State) (f : FarId) (bad : List BadCw) (hs : s.Sound) : (State.otherCopy s f bad).2.Sound := by
  unfold State.otherCopy
  try dsimp only
  repeat' first
  | with_reducible assumption
  | with_reducible intro hc
  | with_reducible apply State.reportBad_sound
  | with_reducible apply State.cacheRead_sound
  | with_reducible apply foldl_snd_sound

theorem State.otherCopy_sound_eq {s : State} {f : FarId} {bad : List BadCw} {a0} {t : State} (hq : State.otherCopy s f bad = (a0, t)) (hs : s.Sound) : t.Sound := by
  have := State.otherCopy_sound s f bad hs; rw [hq] at this; exact this

theorem State.readCopy_sound (s : State) (f : FarId) (len : Nat) (hs : s.Sound) : (State.readCopy s f len).2.Sound := by
  unfold State.readCopy
  try dsimp only
  repeat' first
  | with_reducible assumption
  | with_reducible apply State.reportBad_sound
  | with_reducible apply State.cacheRead_sound

theorem State.readCopy_sound_eq {s : State} {f : FarId} {len : Nat} {a0} {t : State} (hq : State.readCopy s f len = (a0, t)) (hs : s.Sound) : t.Sound := by
  have := State.readCopy_sound s f len hs; rw [hq] at this; exact this

theorem State.charterImage_sound (s : State) (len : Nat) (hs : s.Sound) : (State.charterImage s len).2.Sound := by
  unfold State.charterImage
  try dsimp only
  repeat' first
  | with_reducible assumption
  | with_reducible refine State.otherCopy_sound_eq (by assumption) ?_
  | with_reducible refine State.readCopy_sound_eq (by assumption) ?_
  | split

theorem State.charterImage_sound_eq {s : State} {len : Nat} {a0} {t : State} (hq : State.charterImage s len = (a0, t)) (hs : s.Sound) : t.Sound := by
  have := State.charterImage_sound s len hs; rw [hq] at this; exact this

theorem charterBegin_sound (c : Cmd) (s : State) (hs : s.Sound) : (charterBegin c s).Sound := by
  unfold charterBegin
  try dsimp only
  repeat' first
  | with_reducible assumption
  | with_reducible intro hc
  | with_reducible apply ite_cmd_sound
  | with_reducible apply State.jobCommand_sound
  | with_reducible apply cmdDone_sound
  | with_reducible apply State.setErrRec_sound
  | with_reducible apply State.clearStaging_sound
  | with_reducible apply State.modJob_sound

theorem execCharterBegin_sound (c : Cmd) (s : State) (hs : s.Sound) : Res.Sound (execCharterBegin c s) := by
  unfold execCharterBegin
  try dsimp only
  repeat' first
  | with_reducible exact hs
  | with_reducible refine Res.next_sound ?_
  | with_reducible apply charterBegin_sound

theorem State.chunkSlips_sound (s : State) (c : Cmd) (halt : Option Cut) (hs : s.Sound) : (State.chunkSlips s c halt).Sound := by
  unfold State.chunkSlips
  try dsimp only
  repeat' first
  | with_reducible assumption
  | with_reducible intro hc
  | with_reducible apply State.modChan_sound
  | with_reducible apply State.chanTake_sound
  | with_reducible apply Engine.modChan_sound
  | with_reducible apply foldl_sound
  | with_reducible apply foldl_fst_sound
  | with_reducible apply foldl_snd_sound
  | with_reducible apply foldl_eng_sound
  | with_reducible refine snd_sound_of_eq (by assumption) ?_
  | with_reducible refine fst_sound_of_eq (by assumption) ?_
  | dsimp only
  | split

theorem charterChunk_sound (c : Cmd) (cut : Option Cut) (s : State) (hs : s.Sound) : (charterChunk c cut s).Sound := by
  unfold charterChunk
  try dsimp only
  repeat' first
  | with_reducible assumption
  | with_reducible intro hc
  | with_reducible apply cmdDone_sound
  | with_reducible apply RingSt.take_sound
  | with_reducible apply State.jobCommand_sound
  | with_reducible apply State.writeStaging_sound
  | with_reducible apply State.chunkSlips_sound
  | with_reducible apply ite_sound
  | (rw [cmdDone_s])
  | (rw [cmdDone_after])
  | with_reducible refine snd_sound_of_eq (by assumption) ?_
  | with_reducible refine fst_sound_of_eq (by assumption) ?_
  | dsimp only
  | split

theorem execCharterChunk_sound (c : Cmd) (cut : Option Cut) (s : State) (hs : s.Sound) : Res.Sound (execCharterChunk c cut s) := by
  unfold execCharterChunk
  try dsimp only
  repeat' first
  | with_reducible exact hs
  | with_reducible refine Res.next_sound ?_
  | with_reducible apply charterChunk_sound

theorem charterDiscard_sound (c : Cmd) (s : State) (hs : s.Sound) : (charterDiscard c s).Sound := by
  unfold charterDiscard
  try dsimp only
  repeat' first
  | with_reducible assumption
  | with_reducible intro hc
  | with_reducible apply State.jobCommand_sound
  | with_reducible apply cmdDone_sound
  | with_reducible apply State.toEmpty_sound

theorem execCharterDiscard_sound (c : Cmd) (s : State) (hs : s.Sound) : Res.Sound (execCharterDiscard c s) := by
  unfold execCharterDiscard
  try dsimp only
  repeat' first
  | with_reducible exact hs
  | with_reducible refine Res.next_sound ?_
  | with_reducible apply charterDiscard_sound

theorem charterEnd_sound (c : Cmd) (s : State) (hs : s.Sound) : (charterEnd c s).Sound := by
  unfold charterEnd
  try dsimp only
  repeat' first
  | with_reducible assumption
  | with_reducible intro hc
  | with_reducible apply State.modJob_sound
  | with_reducible apply cmdBusy_sound
  | with_reducible apply State.jobCommand_sound

theorem execCharterEnd_sound (c : Cmd) (s : State) (hs : s.Sound) : Res.Sound (execCharterEnd c s) := by
  unfold execCharterEnd
  try dsimp only
  repeat' first
  | with_reducible exact hs
  | with_reducible refine Res.next_sound ?_
  | with_reducible apply charterEnd_sound

theorem State.verified_sound (s : State) (c : Charter) (hs : s.Sound) : (State.verified s c).Sound := by
  unfold State.verified
  try dsimp only
  repeat' first
  | with_reducible exact hs
  | with_reducible apply State.setErrRec_sound
  | with_reducible apply State.measure_sound
  | with_reducible apply State.dbModule_sound
  | with_reducible apply State.modJob_sound
  | with_reducible apply State.busyDone_sound

theorem verificationDone_sound (s : State) (hs : s.Sound) : (verificationDone s).Sound := by
  unfold verificationDone
  try dsimp only
  repeat' first
  | with_reducible exact hs
  | with_reducible refine State.charterImage_sound_eq (by assumption) ?_
  | with_reducible apply State.busyDone_sound
  | with_reducible apply State.toEmpty_sound
  | with_reducible apply State.setErrRec_sound
  | with_reducible apply State.verified_sound
  | split

theorem execVerificationDone_sound (s : State) (hs : s.Sound) : Res.Sound (execVerificationDone s) := by
  unfold execVerificationDone
  try dsimp only
  repeat' first
  | with_reducible exact hs
  | with_reducible refine Res.next_sound ?_
  | with_reducible apply verificationDone_sound

theorem State.unitsLost_sound (s : State) (hs : s.Sound) : (State.unitsLost s).2.Sound := by
  unfold State.unitsLost
  try dsimp only
  repeat' first
  | with_reducible assumption
  | with_reducible intro hc
  | with_reducible apply State.charterImage_sound
  | with_reducible refine State.charterImage_sound_eq (by assumption) ?_
  | with_reducible refine snd_sound_of_eq (by assumption) ?_
  | with_reducible refine fst_sound_of_eq (by assumption) ?_
  | dsimp only
  | split

theorem State.unitsLost_sound_eq {s : State} {a0} {t : State} (hq : State.unitsLost s = (a0, t)) (hs : s.Sound) : t.Sound := by
  have := State.unitsLost_sound s hs; rw [hq] at this; exact this

theorem activate_sound (c : Cmd) (s : State) (hs : s.Sound) : (activate c s).Sound := by
  unfold activate
  try dsimp only
  repeat' first
  | with_reducible assumption
  | with_reducible intro hc
  | with_reducible apply State.modJob_sound
  | with_reducible apply State.modSec_sound
  | with_reducible apply cmdDone_sound
  | with_reducible apply cmdBusy_sound
  | with_reducible apply Plan.store_sound
  | with_reducible apply State.jobCommand_sound
  | with_reducible apply State.setErrRec_sound
  | with_reducible apply State.verified_sound
  | with_reducible apply State.unitsLost_sound
  | with_reducible refine State.unitsLost_sound_eq (by assumption) ?_
  | (rw [cmdDone_s])
  | (rw [cmdDone_after])
  | (intros; rfl)
  | with_reducible refine snd_sound_of_eq (by assumption) ?_
  | with_reducible refine fst_sound_of_eq (by assumption) ?_
  | dsimp only
  | split

theorem execActivate_sound (c : Cmd) (s : State) (hs : s.Sound) : Res.Sound (execActivate c s) := by
  unfold execActivate
  try dsimp only
  repeat' first
  | with_reducible exact hs
  | with_reducible refine Res.next_sound ?_
  | with_reducible apply activate_sound

theorem Engine.activated_sound (x : Engine) (c : Charter) (e free : Nat) (hs : x.Sound) : (Engine.activated x c e free).Sound := by
  unfold Engine.activated
  try dsimp only
  repeat' first
  | with_reducible apply Engine.zeroCounts_sound
  | (with_reducible refine Engine.Sound.mk ?_ ?_ ?_ ?_ ?_ <;> dsimp only)
  | with_reducible apply Engine.Sound.store
  | with_reducible apply Engine.Sound.acc
  | with_reducible apply Engine.Sound.chk
  | with_reducible apply Engine.Sound.vr
  | ((fail_if_success (with_reducible refine State.Sound.mk ?_ ?_ ?_ ?_ ?_ ?_ ?_)); first | assumption | (intros; rfl) | exact Nat.zero_le _ | exact rfl)

theorem State.clearHeader_sound (s : State) (e : EngineId) (hs : s.Sound) : (State.clearHeader s e).Sound := by
  unfold State.clearHeader
  try dsimp only
  repeat' first
  | with_reducible assumption
  | with_reducible intro hc
  | with_reducible apply State.writeBytes_sound
  | with_reducible apply foldl_sound

theorem State.scaleRecord_sound (s : State) (e : EngineId) (d : LayerDesc) (hs : s.Sound) : (State.scaleRecord s e d).Sound := by
  unfold State.scaleRecord
  try dsimp only
  repeat' first
  | with_reducible exact hs
  | with_reducible intro hc
  | with_reducible apply ite_sound
  | with_reducible apply State.modEng_sound
  | (with_reducible refine Engine.Sound.mk ?_ ?_ ?_ ?_ ?_ <;> dsimp only)
  | (have hq := ‹Engine.Sound _›; with_reducible exact hq.store)
  | (have hq := ‹Engine.Sound _›; with_reducible exact hq.acc)
  | (have hq := ‹Engine.Sound _›; with_reducible exact hq.chk)
  | (have hq := ‹Engine.Sound _›; with_reducible exact hq.vr)
  | (have hq := ‹Engine.Sound _›; with_reducible exact hq.queue)
  | with_reducible apply memWrite_wf

theorem State.planeScales_sound (s : State) (p : PlaneCfg) (hs : s.Sound) : (State.planeScales s p).Sound := by
  unfold State.planeScales
  try dsimp only
  repeat' first
  | with_reducible assumption
  | with_reducible intro hc
  | with_reducible apply State.scaleRecord_sound
  | with_reducible apply foldl_sound
  | split

theorem State.scaleRecords_sound (s : State) (hs : s.Sound) : (State.scaleRecords s).Sound := by
  unfold State.scaleRecords
  try dsimp only
  repeat' first
  | with_reducible exact hs
  | with_reducible apply State.planeScales_sound
  | split

theorem State.step10_sound (s : State) (c : Charter) (hs : s.Sound) : (State.step10 s c).Sound := by
  unfold State.step10
  try dsimp only
  repeat' first
  | with_reducible assumption
  | with_reducible intro hc
  | with_reducible apply State.modJob_sound
  | with_reducible apply State.modSec_sound
  | with_reducible apply State.random_sound
  | with_reducible apply Engine.activated_sound
  | with_reducible apply State.clearHeader_sound
  | with_reducible apply State.scaleRecords_sound
  | with_reducible refine State.random_sound_eq (by assumption) ?_
  | with_reducible apply foldl_sound
  | with_reducible apply foldl_fst_sound
  | with_reducible apply foldl_snd_sound
  | with_reducible apply foldl_eng_sound
  | with_reducible apply ite_sound
  | with_reducible apply ite_eng_sound
  | (with_reducible refine Engine.Sound.mk ?_ ?_ ?_ ?_ ?_ <;> dsimp only)
  | (have hq := ‹Engine.Sound _›; with_reducible exact hq.store)
  | (have hq := ‹Engine.Sound _›; with_reducible exact hq.acc)
  | (have hq := ‹Engine.Sound _›; with_reducible exact hq.chk)
  | (have hq := ‹Engine.Sound _›; with_reducible exact hq.vr)
  | (have hq := ‹Engine.Sound _›; with_reducible exact hq.queue)
  | with_reducible apply Engine.Sound.store
  | with_reducible apply Engine.Sound.acc
  | with_reducible apply Engine.Sound.chk
  | with_reducible apply Engine.Sound.vr
  | with_reducible apply Engine.Sound.queue
  | (rw [Vector.getElem_ofFn])
  | with_reducible refine State.Sound.eng ?_ _ _
  | (intros; rfl)
  | with_reducible refine State.Sound.eng ?_
  | with_reducible refine State.Sound.vaults ?_
  | with_reducible refine State.Sound.fars ?_
  | with_reducible refine State.Sound.mbox ?_
  | with_reducible refine State.Sound.book ?_
  | with_reducible refine State.Sound.aperture ?_
  | with_reducible refine State.Sound.rings ?_
  | with_reducible refine State.Sound.eng ?_ _ _
  | with_reducible refine State.Sound.vaults ?_ _ _
  | with_reducible refine State.Sound.fars ?_ _ _
  | with_reducible refine State.Sound.aperture ?_ _ _
  | with_reducible refine State.Sound.rings ?_ _ _
  | (with_reducible refine State.Sound.mk ?_ ?_ ?_ ?_ ?_ ?_ ?_ <;> dsimp only)
  | with_reducible refine snd_sound_of_eq (by assumption) ?_
  | with_reducible refine fst_sound_of_eq (by assumption) ?_
  | dsimp only
  | split

theorem State.step11_sound (s : State) (c : Charter) (hs : s.Sound) : (State.step11 s c).Sound := by
  unfold State.step11
  try dsimp only
  repeat' first
  | with_reducible assumption
  | with_reducible intro hc
  | with_reducible apply Engine.init_sound
  | with_reducible apply CtlSt.init_sound
  | with_reducible apply RingSt.init_sound
  | with_reducible apply live_sound
  | with_reducible refine State.Sound.eng ?_
  | with_reducible refine State.Sound.vaults ?_
  | with_reducible refine State.Sound.fars ?_
  | with_reducible refine State.Sound.mbox ?_
  | with_reducible refine State.Sound.book ?_
  | with_reducible refine State.Sound.aperture ?_
  | with_reducible refine State.Sound.rings ?_
  | with_reducible refine State.Sound.eng ?_ _ _
  | with_reducible refine State.Sound.vaults ?_ _ _
  | with_reducible refine State.Sound.fars ?_ _ _
  | with_reducible refine State.Sound.aperture ?_ _ _
  | with_reducible refine State.Sound.rings ?_ _ _
  | (with_reducible refine State.Sound.mk ?_ ?_ ?_ ?_ ?_ ?_ ?_ <;> dsimp only)

theorem State.jobStart_sound (s : State) (c : Charter) (hs : s.Sound) : (State.jobStart s c).Sound := by
  unfold State.jobStart
  try dsimp only
  repeat' first
  | with_reducible exact hs
  | with_reducible apply State.modUpd_sound
  | with_reducible apply State.modCkpt_sound

theorem State.step13_sound (s : State) (c : Charter) (hs : s.Sound) : (State.step13 s c).Sound := by
  unfold State.step13
  try dsimp only
  repeat' first
  | with_reducible assumption
  | with_reducible intro hc
  | with_reducible apply State.modJob_sound
  | with_reducible apply State.modPwr_sound
  | with_reducible apply State.modInt_sound
  | with_reducible apply State.dbModule_sound
  | with_reducible apply State.busyDone_sound
  | with_reducible apply State.openTills_sound
  | with_reducible apply Engine.startStep_sound
  | with_reducible apply State.startStep_sound
  | (intros; rfl)

theorem activationDone_sound (s : State) (hs : s.Sound) : (activationDone s).Sound := by
  unfold activationDone
  try dsimp only
  repeat' first
  | with_reducible assumption
  | with_reducible intro hc
  | with_reducible apply State.modJob_sound
  | with_reducible apply State.busyDone_sound
  | with_reducible apply State.setErrRec_sound
  | with_reducible apply State.verified_sound
  | with_reducible apply State.unitsLost_sound
  | with_reducible apply State.step10_sound
  | with_reducible apply State.step11_sound
  | with_reducible apply State.jobStart_sound
  | with_reducible apply State.step13_sound
  | with_reducible refine State.unitsLost_sound_eq (by assumption) ?_
  | with_reducible refine State.step10_sound_eq (by assumption) ?_
  | with_reducible apply ite_sound
  | with_reducible refine snd_sound_of_eq (by assumption) ?_
  | with_reducible refine fst_sound_of_eq (by assumption) ?_
  | dsimp only
  | split

theorem execActivationDone_sound (s : State) (hs : s.Sound) : Res.Sound (execActivationDone s) := by
  unfold execActivationDone
  try dsimp only
  repeat' first
  | with_reducible exact hs
  | with_reducible refine Res.next_sound ?_
  | with_reducible apply activationDone_sound

theorem run_sound (c : Cmd) (s : State) (hs : s.Sound) : (run c s).Sound := by
  unfold run
  try dsimp only
  repeat' first
  | with_reducible assumption
  | with_reducible intro hc
  | with_reducible apply State.jobCommand_sound
  | with_reducible apply State.modJob_sound
  | with_reducible apply State.startStep_sound
  | (with_reducible refine CmdOut.sound_mk ?_ ?_ <;> dsimp only)
  | (rw [cmdDone_s])

theorem execRun_sound (c : Cmd) (s : State) (hs : s.Sound) : Res.Sound (execRun c s) := by
  unfold execRun
  try dsimp only
  repeat' first
  | with_reducible exact hs
  | with_reducible refine Res.next_sound ?_
  | with_reducible apply run_sound

theorem pause_sound (c : Cmd) (s : State) (hs : s.Sound) : (pause c s).Sound := by
  unfold pause
  try dsimp only
  repeat' first
  | with_reducible assumption
  | with_reducible intro hc
  | with_reducible apply ite_cmd_sound
  | with_reducible apply State.jobCommand_sound
  | with_reducible apply cmdDone_sound
  | with_reducible apply cmdLater_sound
  | with_reducible apply State.modJob_sound

theorem execPause_sound (c : Cmd) (s : State) (hs : s.Sound) : Res.Sound (execPause c s) := by
  unfold execPause
  try dsimp only
  repeat' first
  | with_reducible exact hs
  | with_reducible refine Res.next_sound ?_
  | with_reducible apply pause_sound

theorem planeSwitch_sound (c : Cmd) (s : State) (hs : s.Sound) : (planeSwitch c s).Sound := by
  unfold planeSwitch
  try dsimp only
  repeat' first
  | with_reducible assumption
  | with_reducible intro hc
  | with_reducible apply ite_cmd_sound
  | with_reducible apply State.jobCommand_sound
  | with_reducible apply cmdDone_sound
  | with_reducible apply cmdLater_sound
  | with_reducible apply State.modJob_sound
  | with_reducible apply State.switchPlane_sound

theorem execPlaneSwitch_sound (c : Cmd) (s : State) (hs : s.Sound) : Res.Sound (execPlaneSwitch c s) := by
  unfold execPlaneSwitch
  try dsimp only
  repeat' first
  | with_reducible exact hs
  | with_reducible refine Res.next_sound ?_
  | with_reducible apply planeSwitch_sound

theorem checkpointTake_sound (c : Cmd) (s : State) (hs : s.Sound) : (checkpointTake c s).Sound := by
  unfold checkpointTake
  try dsimp only
  repeat' first
  | with_reducible assumption
  | with_reducible intro hc
  | with_reducible apply ite_cmd_sound
  | with_reducible apply State.jobCommand_sound
  | with_reducible apply cmdDone_sound
  | with_reducible apply State.escrowMark_sound
  | with_reducible apply cmdLater_sound
  | with_reducible apply State.modJob_sound

theorem execCheckpointTake_sound (c : Cmd) (s : State) (hs : s.Sound) : Res.Sound (execCheckpointTake c s) := by
  unfold execCheckpointTake
  try dsimp only
  repeat' first
  | with_reducible exact hs
  | with_reducible refine Res.next_sound ?_
  | with_reducible apply checkpointTake_sound

theorem resume_sound (c : Cmd) (s : State) (hs : s.Sound) : (resume c s).Sound := by
  unfold resume
  try dsimp only
  repeat' first
  | with_reducible assumption
  | with_reducible intro hc
  | with_reducible apply State.modJob_sound
  | with_reducible apply State.leaveHeld_sound
  | with_reducible apply cmdDone_sound
  | with_reducible apply State.held_sound
  | with_reducible apply State.jobCommand_sound
  | with_reducible apply ite_sound
  | (rw [cmdDone_s])
  | (rw [cmdDone_after])
  | dsimp only
  | split

theorem execResume_sound (c : Cmd) (s : State) (hs : s.Sound) : Res.Sound (execResume c s) := by
  unfold execResume
  try dsimp only
  repeat' first
  | with_reducible exact hs
  | with_reducible refine Res.next_sound ?_
  | with_reducible apply resume_sound

theorem State.endChannels_sound (s : State) (cut : Bool) (e : EngineId) (hs : s.Sound) : (State.endChannels s cut e).Sound := by
  unfold State.endChannels
  try dsimp only
  repeat' first
  | with_reducible assumption
  | with_reducible intro hc
  | with_reducible apply ite_sound
  | with_reducible apply State.cutSlip_sound
  | with_reducible apply State.modEng_sound
  | with_reducible apply foldl_sound
  | (with_reducible refine Engine.Sound.mk ?_ ?_ ?_ ?_ ?_ <;> dsimp only)
  | (have hq := ‹Engine.Sound _›; with_reducible exact hq.store)
  | (have hq := ‹Engine.Sound _›; with_reducible exact hq.acc)
  | (have hq := ‹Engine.Sound _›; with_reducible exact hq.chk)
  | (have hq := ‹Engine.Sound _›; with_reducible exact hq.vr)
  | (have hq := ‹Engine.Sound _›; with_reducible exact hq.queue)

theorem State.endJob_sound (s : State) (p : PendCmd) (cut : Bool) (hs : s.Sound) : (State.endJob s p cut).Sound := by
  unfold State.endJob
  try dsimp only
  repeat' first
  | with_reducible assumption
  | with_reducible intro hc
  | with_reducible apply State.modAllEng_sound
  | with_reducible apply State.modJob_sound
  | with_reducible apply State.modCkpt_sound
  | with_reducible apply State.modInt_sound
  | with_reducible apply Engine.stop_sound
  | with_reducible apply State.cancelPending_sound
  | with_reducible apply State.leaveHeld_sound
  | with_reducible apply State.busyDone_sound
  | with_reducible apply State.drainFail_sound
  | with_reducible apply State.sendLeave_sound
  | with_reducible apply State.endChannels_sound
  | with_reducible apply forEng_sound
  | (with_reducible refine Engine.Sound.mk ?_ ?_ ?_ ?_ ?_ <;> dsimp only)
  | exact Nat.zero_le _
  | exact rfl
  | (have hq := ‹Engine.Sound _›; with_reducible exact hq.store)
  | (have hq := ‹Engine.Sound _›; with_reducible exact hq.acc)
  | (have hq := ‹Engine.Sound _›; with_reducible exact hq.chk)
  | (have hq := ‹Engine.Sound _›; with_reducible exact hq.vr)
  | (have hq := ‹Engine.Sound _›; with_reducible exact hq.queue)
  | with_reducible apply Engine.Sound.store
  | with_reducible apply Engine.Sound.acc
  | with_reducible apply Engine.Sound.chk
  | with_reducible apply Engine.Sound.vr
  | with_reducible apply Engine.Sound.queue
  | with_reducible refine State.Sound.eng ?_ _ _
  | (intros; rfl)

theorem release_sound (c : Cmd) (s : State) (hs : s.Sound) : (release c s).Sound := by
  unfold release
  try dsimp only
  repeat' first
  | with_reducible assumption
  | with_reducible intro hc
  | exact ⟨hc, fun _ ht => State.endJob_sound _ _ _ ht⟩
  | with_reducible apply cmdBusy_sound
  | with_reducible apply State.held_sound
  | with_reducible apply State.jobCommand_sound
  | with_reducible apply State.verified_sound
  | with_reducible apply State.endJob_sound

theorem execRelease_sound (c : Cmd) (s : State) (hs : s.Sound) : Res.Sound (execRelease c s) := by
  unfold execRelease
  try dsimp only
  repeat' first
  | with_reducible exact hs
  | with_reducible refine Res.next_sound ?_
  | with_reducible apply release_sound

theorem abort_sound (c : Cmd) (s : State) (hs : s.Sound) : (abort c s).Sound := by
  unfold abort
  try dsimp only
  repeat' first
  | with_reducible assumption
  | with_reducible intro hc
  | exact ⟨hc, fun _ ht => State.endJob_sound _ _ _ ht⟩
  | with_reducible apply cmdBusy_sound
  | with_reducible apply State.jobCommand_sound
  | with_reducible apply State.endJob_sound

theorem execAbort_sound (c : Cmd) (s : State) (hs : s.Sound) : Res.Sound (execAbort c s) := by
  unfold execAbort
  try dsimp only
  repeat' first
  | with_reducible exact hs
  | with_reducible refine Res.next_sound ?_
  | with_reducible apply abort_sound

theorem Engine.freedJob_sound (x : Engine) (hs : x.Sound) : (Engine.freedJob x).Sound := by
  unfold Engine.freedJob
  try dsimp only
  repeat' first
  | (with_reducible refine Engine.Sound.mk ?_ ?_ ?_ ?_ ?_ <;> dsimp only)
  | exact Nat.zero_le _
  | exact rfl

theorem State.freedJob_sound (s : State) (hs : s.Sound) : (State.freedJob s).Sound := by
  unfold State.freedJob
  try dsimp only
  repeat' first
  | with_reducible assumption
  | with_reducible intro hc
  | with_reducible apply State.modUpd_sound
  | with_reducible apply State.modCkpt_sound
  | with_reducible apply Engine.init_sound
  | with_reducible apply CtlSt.init_sound
  | with_reducible apply RingSt.init_sound
  | with_reducible apply live_sound
  | with_reducible apply Engine.wiped_sound
  | with_reducible apply CtlSt.wiped_sound
  | with_reducible refine State.Sound.eng ?_
  | with_reducible refine State.Sound.vaults ?_
  | with_reducible refine State.Sound.fars ?_
  | with_reducible refine State.Sound.mbox ?_
  | with_reducible refine State.Sound.book ?_
  | with_reducible refine State.Sound.aperture ?_
  | with_reducible refine State.Sound.rings ?_
  | with_reducible refine State.Sound.eng ?_ _ _
  | with_reducible refine State.Sound.vaults ?_ _ _
  | with_reducible refine State.Sound.fars ?_ _ _
  | with_reducible refine State.Sound.aperture ?_ _ _
  | with_reducible refine State.Sound.rings ?_ _ _
  | (with_reducible refine State.Sound.mk ?_ ?_ ?_ ?_ ?_ ?_ ?_ <;> dsimp only)

theorem releaseDone_sound (s : State) (hs : s.Sound) : (releaseDone s).Sound := by
  unfold releaseDone
  try dsimp only
  repeat' first
  | with_reducible assumption
  | with_reducible intro hc
  | with_reducible apply ite_sound
  | with_reducible apply State.zeroAllDram_sound
  | with_reducible apply State.modAllEng_sound
  | with_reducible apply Engine.freedJob_sound
  | with_reducible apply State.freedJob_sound
  | with_reducible apply State.busyDone_sound
  | with_reducible apply State.toEmpty_sound

theorem execReleaseDone_sound (s : State) (hs : s.Sound) : Res.Sound (execReleaseDone s) := by
  unfold execReleaseDone
  try dsimp only
  repeat' first
  | with_reducible exact hs
  | with_reducible refine Res.next_sound ?_
  | with_reducible apply releaseDone_sound

theorem jobStatus_sound (c : Cmd) (s : State) (hs : s.Sound) : (jobStatus c s).Sound := by
  unfold jobStatus
  try dsimp only
  repeat' first
  | with_reducible assumption
  | with_reducible intro hc
  | with_reducible apply State.freeCommand_sound
  | split

theorem execJobStatus_sound (c : Cmd) (s : State) (hs : s.Sound) : Res.Sound (execJobStatus c s) := by
  unfold execJobStatus
  try dsimp only
  repeat' first
  | with_reducible exact hs
  | with_reducible refine Res.next_sound ?_
  | with_reducible apply jobStatus_sound

theorem State.rowGaveUp_sound (s : State) (e : EngineId) (hs : s.Sound) : (State.rowGaveUp s e).Sound := by
  unfold State.rowGaveUp
  try dsimp only
  repeat' first
  | with_reducible assumption
  | with_reducible intro hc
  | with_reducible apply State.rowMark_sound
  | with_reducible apply ite_sound
  | dsimp only
  | split

theorem State.tileGaveUp_sound (s : State) (e : EngineId) (hs : s.Sound) : (State.tileGaveUp s e).Sound := by
  unfold State.tileGaveUp
  try dsimp only
  repeat' first
  | with_reducible assumption
  | with_reducible intro hc
  | with_reducible apply State.endTile_sound
  | with_reducible apply State.tileUe_sound
  | with_reducible refine snd_sound_of_eq (by assumption) ?_
  | with_reducible refine fst_sound_of_eq (by assumption) ?_
  | dsimp only
  | split

theorem State.addGaveUp_sound (s : State) (e : EngineId) (ctl : CtlId) (hs : s.Sound) : (State.addGaveUp s e ctl).Sound := by
  unfold State.addGaveUp
  try dsimp only
  repeat' first
  | with_reducible assumption
  | with_reducible intro hc
  | with_reducible apply State.modArr_sound
  | with_reducible apply State.accumFail_sound
  | with_reducible refine snd_sound_of_eq (by assumption) ?_
  | with_reducible refine fst_sound_of_eq (by assumption) ?_
  | dsimp only
  | split

theorem State.pageGaveUp_sound (s : State) (e : EngineId) (q : ReqFrame) (page : Nat) (hs : s.Sound) : (State.pageGaveUp s e q page).Sound := by
  unfold State.pageGaveUp
  try dsimp only
  repeat' first
  | with_reducible assumption
  | with_reducible intro hc
  | with_reducible apply State.draw_sound
  | with_reducible apply State.sendFrames_sound
  | with_reducible apply State.pageBlock_sound
  | with_reducible refine State.draw_sound_eq (by assumption) ?_
  | with_reducible refine State.pageBlock_sound_eq (by assumption) ?_
  | with_reducible apply ite_sound
  | with_reducible refine snd_sound_of_eq (by assumption) ?_
  | with_reducible refine fst_sound_of_eq (by assumption) ?_
  | dsimp only
  | split

theorem State.charterGaveUp_sound (s : State) (hs : s.Sound) : (State.charterGaveUp s).Sound := by
  unfold State.charterGaveUp
  try dsimp only
  repeat' first
  | with_reducible assumption
  | with_reducible intro hc
  | with_reducible apply State.modJob_sound
  | with_reducible apply State.busyDone_sound
  | with_reducible apply State.toEmpty_sound
  | with_reducible apply State.verified_sound
  | with_reducible apply ite_sound
  | with_reducible refine snd_sound_of_eq (by assumption) ?_
  | with_reducible refine fst_sound_of_eq (by assumption) ?_
  | dsimp only
  | split

theorem State.gaveUp_sound (s : State) (who : GivenUp) (hs : s.Sound) : (State.gaveUp s who).Sound := by
  unfold State.gaveUp
  try dsimp only
  repeat' first
  | with_reducible assumption
  | with_reducible intro hc
  | with_reducible apply State.emit_sound
  | with_reducible apply State.ctl_sound
  | with_reducible apply State.cacheDrop_sound
  | with_reducible apply State.retireFails_sound
  | with_reducible apply State.aptErr_sound
  | with_reducible apply State.pciRefuse_sound
  | with_reducible apply State.accumulate_sound
  | with_reducible apply State.runUe_sound
  | with_reducible apply State.rowUe_sound
  | with_reducible apply channelHalt_sound
  | with_reducible apply State.rowGaveUp_sound
  | with_reducible apply State.tileGaveUp_sound
  | with_reducible apply State.addGaveUp_sound
  | with_reducible apply State.pageGaveUp_sound
  | with_reducible apply State.charterGaveUp_sound
  | with_reducible refine State.pageGaveUp_sound_eq (by assumption) ?_
  | with_reducible apply ite_sound
  | with_reducible refine snd_sound_of_eq (by assumption) ?_
  | with_reducible refine fst_sound_of_eq (by assumption) ?_
  | dsimp only
  | split

theorem execParityGiveUp_sound (x : Crossing) (who : GivenUp) (s : State) (hs : s.Sound) : Res.Sound (execParityGiveUp x who s) := by
  unfold execParityGiveUp
  try dsimp only
  repeat' first
  | with_reducible assumption
  | with_reducible intro hc
  | with_reducible refine Res.next_sound ?_
  | with_reducible apply State.setErr_sound
  | with_reducible apply State.post_sound
  | with_reducible apply State.settle_sound
  | with_reducible apply State.parityBroken_sound
  | with_reducible apply State.gaveUp_sound
  | with_reducible refine State.gaveUp_sound_eq (by assumption) ?_
  | exact trivial

end Sys2Proof.Machine
end

