-- ==== Sys2Proof/Laws/SoundRestore.lean ====
section
/-! SUPPORT. What the operations and meanings of Machine/Restore keep of a sound state. -/

namespace Sys2Proof.Machine

theorem commitRecordRead_sound (slots : List CkptImage) (s : State) (hs : s.Sound) : (commitRecordRead slots s).Sound := by
  unfold commitRecordRead
  try dsimp only
  repeat' first
  | with_reducible exact hs
  | with_reducible apply State.modCkpt_sound
  | split

theorem execCommitRecordRead_sound (slots : List CkptImage) (s : State) (hs : s.Sound) : Res.Sound (execCommitRecordRead slots s) := by
  unfold execCommitRecordRead
  try dsimp only
  repeat' first
  | with_reducible exact hs
  | with_reducible refine Res.next_sound ?_
  | with_reducible apply commitRecordRead_sound

theorem State.restoreRefused_sound (s : State) (st : Status) (h : BitVec 24) (slot : Option (Fin 4)) (hs : s.Sound) : (State.restoreRefused s st h slot).Sound := by
  unfold State.restoreRefused
  try dsimp only
  repeat' first
  | with_reducible exact hs
  | with_reducible apply State.modCkpt_sound

theorem State.restoreClear_sound (s : State) (hs : s.Sound) : (State.restoreClear s).Sound := by
  unfold State.restoreClear
  try dsimp only
  repeat' first
  | with_reducible assumption
  | with_reducible intro hc
  | with_reducible apply State.modAllEng_sound
  | with_reducible apply State.modCkpt_sound
  | with_reducible apply State.modSec_sound
  | with_reducible apply Engine.init_sound
  | with_reducible apply CtlSt.init_sound
  | with_reducible apply RingSt.init_sound
  | with_reducible apply State.random_sound
  | with_reducible apply State.freeAll_sound
  | with_reducible apply State.openTills_sound
  | with_reducible apply State.putBand_sound
  | with_reducible refine State.random_sound_eq (by assumption) ?_
  | with_reducible apply foldl_sound
  | with_reducible apply foldl_fst_sound
  | with_reducible apply foldl_snd_sound
  | with_reducible apply ite_sound
  | with_reducible apply ite_eng_sound
  | (with_reducible refine Engine.Sound.mk ?_ ?_ ?_ ?_ ?_ <;> dsimp only)
  | exact Nat.zero_le _
  | exact rfl
  | (have hq := ‹Engine.Sound _›; with_reducible exact hq.store)
  | (have hq := ‹Engine.Sound _›; with_reducible exact hq.acc)
  | (have hq := ‹Engine.Sound _›; with_reducible exact hq.chk)
  | (have hq := ‹Engine.Sound _›; with_reducible exact hq.vr)
  | (have hq := ‹Engine.Sound _›; with_reducible exact hq.queue)
  | with_reducible apply Engine.Sound.store
  | with_reducible apply Engine.Sound.acc
  | with_reducible apply Engine.Sound.chk
  | with_reducible apply Engine.Sound.vr
  | with_reducible apply Engine.Sound.queue
  | with_reducible refine State.Sound.eng ?_ _ _
  | (intros; rfl)
  | with_reducible refine State.Sound.eng ?_
  | with_reducible refine State.Sound.vaults ?_
  | with_reducible refine State.Sound.fars ?_
  | with_reducible refine State.Sound.mbox ?_
  | with_reducible refine State.Sound.book ?_
  | with_reducible refine State.Sound.aperture ?_
  | with_reducible refine State.Sound.rings ?_
  | with_reducible refine State.Sound.eng ?_ _ _
  | with_reducible refine State.Sound.vaults ?_ _ _
  | with_reducible refine State.Sound.fars ?_ _ _
  | with_reducible refine State.Sound.aperture ?_ _ _
  | with_reducible refine State.Sound.rings ?_ _ _
  | (with_reducible refine State.Sound.mk ?_ ?_ ?_ ?_ ?_ ?_ ?_ <;> dsimp only)
  | with_reducible refine snd_sound_of_eq (by assumption) ?_
  | with_reducible refine fst_sound_of_eq (by assumption) ?_
  | dsimp only
  | split

theorem State.putPages_sound (s : State) (e : EngineId) (ws : List Nat) (blks : List (List Byte × Sideband)) (hs : s.Sound) : (State.putPages s e ws blks).Sound := by
  unfold State.putPages
  try dsimp only
  repeat' first
  | with_reducible assumption
  | with_reducible intro hc
  | with_reducible apply State.setShare_sound
  | with_reducible apply State.writePage_sound
  | with_reducible apply foldl_sound

theorem State.restoreEntry_sound (s : State) (e : EngineId) (x : ShardEnt) (v : StepNo) (ws : List Nat) (maps : List Nat) (hs : s.Sound) : (State.restoreEntry s e x v ws maps).Sound := by
  unfold State.restoreEntry
  try dsimp only
  repeat' first
  | with_reducible assumption
  | with_reducible apply State.modLed_sound
  | split

theorem State.putStates_sound (s : State) (e : EngineId) (x : ShardEnt) (blks : List (List Byte × Sideband)) (hs : s.Sound) : (State.putStates s e x blks).Sound := by
  unfold State.putStates
  try dsimp only
  repeat' first
  | with_reducible assumption
  | with_reducible intro hc
  | with_reducible apply State.writeState_sound
  | with_reducible apply foldl_sound

theorem State.restoreShard_sound (s : State) (img : CkptImage) (cut : StepNo) (named : List Nat) (x : ShardEnt) (r : ShardRec) (hs : s.Sound) : (State.restoreShard s img cut named x r).2.Sound := by
  unfold State.restoreShard
  try dsimp only
  repeat' first
  | with_reducible exact hs
  | with_reducible intro hc
  | with_reducible apply ite_snd_sound
  | with_reducible apply State.putPages_sound
  | with_reducible apply State.putStates_sound
  | with_reducible apply State.restoreEntry_sound

theorem State.restoreShard_sound_eq {s : State} {img : CkptImage} {cut : StepNo} {named : List Nat} {x : ShardEnt} {r : ShardRec} {a0} {t : State} (hq : State.restoreShard s img cut named x r = (a0, t)) (hs : s.Sound) : t.Sound := by
  have := State.restoreShard_sound s img cut named x r hs; rw [hq] at this; exact this

theorem State.restoreOwned_sound (s : State) (img : CkptImage) (cut : StepNo) (recs : List ShardRec) (nn : List (ShardEnt × List Nat)) (hs : s.Sound) : (State.restoreOwned s img cut recs nn).Sound := by
  induction nn generalizing s img cut recs with
  | nil =>
      unfold State.restoreOwned
      try dsimp only
      repeat' first
      | with_reducible exact hs

  | cons a0 l0 IH =>
      unfold State.restoreOwned
      try dsimp only
      repeat' first
      | with_reducible exact hs
      | with_reducible apply IH
      | with_reducible apply State.restoreFail_sound
      | with_reducible refine State.restoreShard_sound_eq (by assumption) ?_
      | with_reducible apply State.modCkpt_sound
      | with_reducible apply State.sendMirror_sound
      | with_reducible apply State.setErr_sound
      | split

theorem State.restoreFetches_sound (s : State) (recs : List ShardRec) (hs : s.Sound) : (State.restoreFetches s recs).Sound := by
  unfold State.restoreFetches
  try dsimp only
  repeat' first
  | with_reducible assumption
  | with_reducible intro hc
  | with_reducible apply State.restoreFail_sound
  | with_reducible apply State.startFetch_sound
  | with_reducible apply foldl_sound
  | split

theorem State.restoreBegin_sound (s : State) (slot : Fin 4) (img : CkptImage) (hs : s.Sound) :
    (State.restoreBegin s slot img).Sound :=
  State.modCkpt_sound _ _ (State.restoreClear_sound _ hs)

theorem State.restoreLoad_sound (s : State) (slot : Fin 4) (img : CkptImage) (hs : s.Sound) : (State.restoreLoad s slot img).Sound := by
  unfold State.restoreLoad
  try dsimp only
  repeat' first
  | with_reducible exact hs
  | with_reducible apply State.restoreBegin_sound
  | with_reducible apply State.restoreOwned_sound
  | with_reducible apply State.restoreFetches_sound

theorem restore_sound (c : Cmd) (img : CkptImage) (s : State) (hs : s.Sound) : (restore c img s).Sound := by
  unfold restore
  try dsimp only
  repeat' first
  | with_reducible assumption
  | with_reducible intro hc
  | (refine ⟨?_, fun _ ht => State.restoreLoad_sound _ _ _ ht⟩; dsimp only [cmdBusy])
  | with_reducible apply State.modJob_sound
  | with_reducible apply State.leaveHeld_sound
  | with_reducible apply cmdDone_sound
  | with_reducible apply cmdBusy_sound
  | with_reducible apply State.held_sound
  | with_reducible apply State.jobCommand_sound
  | with_reducible apply State.restoreRefused_sound
  | with_reducible apply State.restoreLoad_sound
  | with_reducible apply ite_sound
  | (rw [cmdDone_s])
  | (rw [cmdDone_after])
  | with_reducible refine snd_sound_of_eq (by assumption) ?_
  | with_reducible refine fst_sound_of_eq (by assumption) ?_
  | dsimp only
  | split

theorem execRestore_sound (c : Cmd) (img : CkptImage) (s : State) (hs : s.Sound) : Res.Sound (execRestore c img s) := by
  unfold execRestore
  try dsimp only
  repeat' first
  | with_reducible exact hs
  | with_reducible refine Res.next_sound ?_
  | with_reducible apply restore_sound

theorem State.restoreSet_sound (s : State) (r : RestoreSt) (hs : s.Sound) : (State.restoreSet s r).Sound := by
  unfold State.restoreSet
  try dsimp only
  repeat' first
  | with_reducible assumption
  | with_reducible intro hc
  | with_reducible apply State.modJob_sound
  | with_reducible apply State.modUpd_sound
  | with_reducible apply State.modCkpt_sound
  | with_reducible apply State.openTills_sound
  | with_reducible apply live_sound
  | with_reducible apply State.scaleRecords_sound
  | with_reducible apply restore_sound
  | with_reducible apply ite_sound
  | with_reducible apply filter_le
  | dsimp only
  | split

theorem restoreDone_sound (s : State) (hs : s.Sound) : (restoreDone s).Sound := by
  unfold restoreDone
  try dsimp only
  repeat' first
  | with_reducible assumption
  | with_reducible intro hc
  | with_reducible apply State.modJob_sound
  | with_reducible apply State.dbModule_sound
  | with_reducible apply State.busyDone_sound
  | with_reducible apply State.restoreSet_sound
  | with_reducible apply ite_sound
  | split

theorem execRestoreDone_sound (s : State) (hs : s.Sound) : Res.Sound (execRestoreDone s) := by
  unfold execRestoreDone
  try dsimp only
  repeat' first
  | with_reducible exact hs
  | with_reducible refine Res.next_sound ?_
  | with_reducible apply restoreDone_sound

end Sys2Proof.Machine
end

