-- ==== Sys2Proof/Laws/SoundRegs.lean ====
section
/-! SUPPORT. What the operations and meanings of Machine/Regs keep of a sound state. -/

namespace Sys2Proof.Machine

theorem State.clearErr_sound (s : State) (v : W64) (hs : s.Sound) : (State.clearErr s v).Sound := by
  unfold State.clearErr
  try dsimp only
  repeat' first
  | with_reducible assumption
  | with_reducible intro hc
  | with_reducible apply ite_sound
  | with_reducible apply State.modInt_sound
  | with_reducible apply State.emit_sound

theorem State.writeScrub_sound (s : State) (c : CtlId) (v : W64) (hs : s.Sound) : (State.writeScrub s c v).Sound := by
  unfold State.writeScrub
  try dsimp only
  repeat' first
  | with_reducible exact hs
  | with_reducible intro hc
  | with_reducible apply State.modCtl_sound
  | (with_reducible refine CtlSt.Sound.mk ?_ ?_ <;> dsimp only)
  | (have hq := ‹CtlSt.Sound _›; with_reducible exact hq.data)
  | (have hq := ‹CtlSt.Sound _›; with_reducible exact hq.merge)

theorem State.writeReset_sound (s : State) (v : W64) (hs : s.Sound) : (State.writeReset s v).Sound := by
  unfold State.writeReset
  try dsimp only
  repeat' first
  | with_reducible exact hs
  | with_reducible apply cmdDone_sound
  | with_reducible apply State.modGlb_sound
  | with_reducible apply engineReset_sound
  | with_reducible apply State.bursarReset_sound
  | (with_reducible refine CmdOut.sound_mk ?_ ?_ <;> dsimp only)
  | split
  | (rw [cmdDone_s])

theorem State.writeCurveCtrl_sound (s : State) (v : W64) (hs : s.Sound) : (State.writeCurveCtrl s v).Sound := by
  unfold State.writeCurveCtrl
  try dsimp only
  repeat' first
  | with_reducible assumption
  | with_reducible intro hc
  | with_reducible apply State.modPwr_sound
  | with_reducible apply cmdDone_sound
  | with_reducible apply curveCommit_sound
  | with_reducible apply ite_cmd_sound

theorem State.writeDmaCtrl_sound (s : State) (e : EngineId) (c : ChanId) (v : W64) (host : Slip) (hs : s.Sound) : (State.writeDmaCtrl s e c v host).Sound := by
  unfold State.writeDmaCtrl
  try dsimp only
  repeat' first
  | with_reducible exact hs
  | with_reducible apply dmaStart_sound
  | with_reducible apply dmaStop_sound
  | with_reducible apply dmaResume_sound
  | with_reducible apply State.chanRefuse_sound
  | split

theorem State.writeEng_sound (s : State) (r : WReg) (v : W64) (host : Slip) (hs : s.Sound) : (State.writeEng s r v host).Sound := by
  unfold State.writeEng
  try dsimp only
  repeat' first
  | with_reducible assumption
  | with_reducible intro hc
  | with_reducible apply State.modArr_sound
  | with_reducible apply State.modVec_sound
  | with_reducible apply State.writeDmaCtrl_sound
  | with_reducible apply State.modChan_sound
  | split

theorem State.writeMgmt_sound (s : State) (v : W64) (hs : s.Sound) : (State.writeMgmt s v).Sound := by
  unfold State.writeMgmt
  try dsimp only
  repeat' first
  | with_reducible exact hs
  | with_reducible intro hc
  | with_reducible apply ite_cmd_sound
  | with_reducible apply cmdDone_sound
  | with_reducible apply State.modGlb_sound

theorem State.writeIdentity_sound (s : State) (v : W64) (hs : s.Sound) : (State.writeIdentity s v).Sound := by
  unfold State.writeIdentity
  try dsimp only
  repeat' first
  | with_reducible assumption
  | with_reducible intro hc
  | with_reducible apply State.modSec_sound

theorem State.regStore_sound (s : State) (r : WReg) (v : W64) (host : Slip) (hs : s.Sound) : (State.regStore s r v host).Sound := by
  unfold State.regStore
  try dsimp only
  repeat' first
  | with_reducible exact hs
  | with_reducible refine State.Sound.eng ?_
  | with_reducible refine State.Sound.vaults ?_
  | with_reducible refine State.Sound.fars ?_
  | with_reducible refine State.Sound.mbox ?_
  | with_reducible refine State.Sound.book ?_
  | with_reducible refine State.Sound.aperture ?_
  | with_reducible refine State.Sound.rings ?_
  | with_reducible intro hc
  | with_reducible apply cmdDone_sound
  | with_reducible apply State.clearErr_sound
  | with_reducible apply State.modInt_sound
  | with_reducible apply State.modCkpt_sound
  | with_reducible apply State.writeMgmt_sound
  | with_reducible apply State.writeIdentity_sound
  | with_reducible apply State.modSec_sound
  | with_reducible apply State.modPwr_sound
  | with_reducible apply State.writeReset_sound
  | with_reducible apply State.writeCurveCtrl_sound
  | with_reducible apply State.modCtl_sound
  | with_reducible apply State.writeScrub_sound
  | with_reducible apply State.modPort_sound
  | with_reducible apply State.modHost_sound
  | with_reducible apply State.writeApt_sound
  | with_reducible apply State.writeRing_sound
  | with_reducible apply State.modRing_sound
  | with_reducible apply State.writeEng_sound
  | (with_reducible refine CtlSt.Sound.mk ?_ ?_ <;> dsimp only)
  | (have hq := ‹CtlSt.Sound _›; with_reducible exact hq.data)
  | (have hq := ‹CtlSt.Sound _›; with_reducible exact hq.merge)
  | ((fail_if_success (with_reducible refine State.Sound.mk ?_ ?_ ?_ ?_ ?_ ?_ ?_)); first | assumption | (intros; rfl) | exact Nat.zero_le _ | exact rfl)
  | split
  | (with_reducible refine State.Sound.mk ?_ ?_ ?_ ?_ ?_ ?_ ?_ <;> dsimp only)

theorem State.regAccess_sound (s : State) (off : Nat) (role : Byte) (v : W64) (host : Slip) (hs : s.Sound) : (State.regAccess s off role v host).Sound := by
  have h : ∀ o : CmdOut, o.Sound → CmdOut.Sound { o with target := put off 0 } := fun o h => ⟨h.1, h.2⟩
  unfold State.regAccess
  apply h
  split
  · exact cmdDone_sound _ s hs
  · split
    · exact cmdDone_sound _ s hs
    · split
      · exact cmdDone_sound _ s hs
      · split
        · exact cmdDone_sound _ s hs
        · exact State.regStore_sound _ _ _ _ hs

theorem regWriteAt_sound (c : Cmd) (off : Nat) (s : State) (hs : s.Sound) : (regWriteAt c off s).Sound := by
  unfold regWriteAt
  try dsimp only
  repeat' first
  | with_reducible assumption
  | with_reducible intro hc
  | with_reducible apply State.command_sound
  | with_reducible apply State.regAccess_sound

theorem regWrite_sound (c : Cmd) (s : State) (hs : s.Sound) : (regWrite c s).Sound := by
  unfold regWrite
  try dsimp only
  repeat' first
  | with_reducible exact hs
  | with_reducible apply regWriteAt_sound

theorem execRegWrite_sound (c : Cmd) (s : State) (hs : s.Sound) : Res.Sound (execRegWrite c s) := by
  unfold execRegWrite
  try dsimp only
  repeat' first
  | with_reducible exact hs
  | with_reducible refine Res.next_sound ?_
  | with_reducible apply regWrite_sound

theorem regWriteIf_sound (here : Bool) (c : Cmd) (s : State) (hs : s.Sound) : Res.Sound (regWriteIf here c s) := by
  unfold regWriteIf
  try dsimp only
  repeat' first
  | with_reducible assumption
  | with_reducible intro hc
  | with_reducible refine Res.next_sound ?_
  | with_reducible apply regWriteAt_sound
  | with_reducible apply ite_sound

theorem execSecIdentityWrite_sound (c : Cmd) (s : State) (hs : s.Sound) : Res.Sound (execSecIdentityWrite c s) := by
  unfold execSecIdentityWrite
  try dsimp only
  repeat' first
  | with_reducible assumption
  | with_reducible apply regWriteIf_sound

theorem execMgmtCfgWrite_sound (c : Cmd) (s : State) (hs : s.Sound) : Res.Sound (execMgmtCfgWrite c s) := by
  unfold execMgmtCfgWrite
  try dsimp only
  repeat' first
  | with_reducible assumption
  | with_reducible apply regWriteIf_sound

theorem execApertureMapWrite_sound (c : Cmd) (s : State) (hs : s.Sound) : Res.Sound (execApertureMapWrite c s) := by
  unfold execApertureMapWrite
  try dsimp only
  repeat' first
  | with_reducible assumption
  | with_reducible apply regWriteIf_sound

theorem execRingEnable_sound (c : Cmd) (s : State) (hs : s.Sound) : Res.Sound (execRingEnable c s) := by
  unfold execRingEnable
  try dsimp only
  repeat' first
  | with_reducible assumption
  | with_reducible apply regWriteIf_sound

theorem execRingDisable_sound (c : Cmd) (s : State) (hs : s.Sound) : Res.Sound (execRingDisable c s) := by
  unfold execRingDisable
  try dsimp only
  repeat' first
  | with_reducible assumption
  | with_reducible apply regWriteIf_sound

theorem execDmaStart_sound (c : Cmd) (s : State) (hs : s.Sound) : Res.Sound (execDmaStart c s) := by
  unfold execDmaStart
  try dsimp only
  repeat' first
  | with_reducible assumption
  | with_reducible apply regWriteIf_sound

theorem execDmaStop_sound (w : StopOf) (s : State) (hs : s.Sound) : Res.Sound (execDmaStop w s) := by
  unfold execDmaStop
  try dsimp only
  repeat' first
  | with_reducible assumption
  | with_reducible refine Res.next_sound ?_
  | with_reducible apply dmaStop_sound
  | with_reducible apply regWriteIf_sound
  | split

theorem execDmaResume_sound (c : Cmd) (s : State) (hs : s.Sound) : Res.Sound (execDmaResume c s) := by
  unfold execDmaResume
  try dsimp only
  repeat' first
  | with_reducible assumption
  | with_reducible apply regWriteIf_sound

theorem execCurveCommit_sound (c : Cmd) (s : State) (hs : s.Sound) : Res.Sound (execCurveCommit c s) := by
  unfold execCurveCommit
  try dsimp only
  repeat' first
  | with_reducible assumption
  | with_reducible apply regWriteIf_sound

theorem execEngineReset_sound (c : Cmd) (s : State) (hs : s.Sound) : Res.Sound (execEngineReset c s) := by
  unfold execEngineReset
  try dsimp only
  repeat' first
  | with_reducible assumption
  | with_reducible apply regWriteIf_sound

theorem execBursarReset_sound (c : Cmd) (s : State) (hs : s.Sound) : Res.Sound (execBursarReset c s) := by
  unfold execBursarReset
  try dsimp only
  repeat' first
  | with_reducible assumption
  | with_reducible apply regWriteIf_sound

theorem regReadCmd_sound (c : Cmd) (s : State) (hs : s.Sound) : (regReadCmd c s).Sound := by
  unfold regReadCmd
  try dsimp only
  repeat' first
  | with_reducible assumption
  | with_reducible intro hc
  | with_reducible apply State.freeCommand_sound
  | split

theorem execRegRead_sound (c : Cmd) (s : State) (hs : s.Sound) : Res.Sound (execRegRead c s) := by
  unfold execRegRead
  try dsimp only
  repeat' first
  | with_reducible exact hs
  | with_reducible refine Res.next_sound ?_
  | with_reducible apply regReadCmd_sound

theorem regDirectWrite_sound (src : DirectSrc) (off : BitVec 26) (val : W64) (s : State) (hs : s.Sound) : (regDirectWrite src off val s).Sound := by
  unfold regDirectWrite
  try dsimp only
  repeat' first
  | with_reducible assumption
  | with_reducible intro hc
  | with_reducible apply State.modSec_sound
  | with_reducible apply State.dbAppend_sound
  | split

theorem execRegDirectWrite_sound (src : DirectSrc) (off : BitVec 26) (val : W64) (s : State) (hs : s.Sound) : Res.Sound (execRegDirectWrite src off val s) := by
  unfold execRegDirectWrite
  try dsimp only
  repeat' first
  | with_reducible exact hs
  | with_reducible refine Res.next_sound ?_
  | with_reducible apply regDirectWrite_sound

end Sys2Proof.Machine
end

