-- ==== Sys2Proof/Laws/SoundCommands.lean ====
section
/-! SUPPORT. What the operations and meanings of Machine/Commands keep of a sound state. -/

namespace Sys2Proof.Machine

theorem commandByOpc_sound (opc : Byte) (c : Cmd) (first : Slip) (img : CkptImage) (s : State) (hs : s.Sound) : (commandByOpc opc c first img s).Sound := by
  unfold commandByOpc
  try dsimp only
  repeat' first
  | with_reducible assumption
  | with_reducible intro hc
  | with_reducible apply charterBegin_sound
  | with_reducible apply charterChunk_sound
  | with_reducible apply charterEnd_sound
  | with_reducible apply charterDiscard_sound
  | with_reducible apply activate_sound
  | with_reducible apply run_sound
  | with_reducible apply pause_sound
  | with_reducible apply planeSwitch_sound
  | with_reducible apply checkpointTake_sound
  | with_reducible apply restore_sound
  | with_reducible apply resume_sound
  | with_reducible apply release_sound
  | with_reducible apply abort_sound
  | with_reducible apply jobStatus_sound
  | with_reducible apply dmaChain_sound
  | with_reducible apply assayLoad_sound
  | with_reducible apply regWrite_sound
  | with_reducible apply keyEnrol_sound
  | with_reducible apply fuseMapLoad_sound
  | with_reducible apply fwWrite_sound
  | with_reducible apply decommission_sound
  | with_reducible apply svnCommit_sound
  | with_reducible apply certInstall_sound
  | with_reducible apply reportCmd_sound
  | with_reducible apply regReadCmd_sound
  | with_reducible apply State.freeCommand_sound
  | split

theorem State.mctpAnswer_sound (s : State) (m : MctpMsg) (body : List Byte) (hs : s.Sound) : (State.mctpAnswer s m body).Sound := by
  unfold State.mctpAnswer
  try dsimp only
  repeat' first
  | with_reducible exact hs
  | with_reducible apply State.emit_sound

theorem State.mctpTake_sound (s : State) (m : MctpMsg) (hs : s.Sound) : (State.mctpTake s m).Sound := by
  unfold State.mctpTake
  try dsimp only
  repeat' first
  | with_reducible assumption
  | with_reducible intro hc
  | with_reducible apply State.command_sound
  | with_reducible apply State.doeAnswer_sound
  | with_reducible apply State.pldmBaseAnswer_sound
  | with_reducible apply State.shedLoad_sound
  | with_reducible apply commandByOpc_sound
  | with_reducible apply State.mctpAnswer_sound
  | with_reducible refine State.pldmBaseAnswer_sound_eq (by assumption) ?_
  | with_reducible apply ite_sound
  | with_reducible refine snd_sound_of_eq (by assumption) ?_
  | with_reducible refine fst_sound_of_eq (by assumption) ?_
  | dsimp only
  | split

theorem mctpMessage_sound (m : MctpMsg) (s : State) (hs : s.Sound) : (mctpMessage m s).Sound := by
  unfold mctpMessage
  try dsimp only
  repeat' first
  | with_reducible assumption
  | with_reducible intro hc
  | with_reducible apply State.modSec_sound
  | with_reducible apply State.modHost_sound
  | with_reducible apply State.mctpTake_sound
  | with_reducible refine State.mctpTake_sound_eq (by assumption) ?_
  | with_reducible apply ite_sound
  | (intros; rfl)
  | dsimp only
  | split

theorem execMctpMessage_sound (m : MctpMsg) (s : State) (hs : s.Sound) : Res.Sound (execMctpMessage m s) := by
  unfold execMctpMessage
  try dsimp only
  repeat' first
  | with_reducible exact hs
  | with_reducible refine Res.next_sound ?_
  | with_reducible apply mctpMessage_sound

theorem commandArbitrate_sound (w : ArbEntry) (s : State) (hs : s.Sound) : (commandArbitrate w s).Sound := by
  unfold commandArbitrate
  try dsimp only
  repeat' first
  | with_reducible assumption
  | with_reducible intro hc
  | with_reducible apply State.modRing_sound
  | with_reducible apply State.modHost_sound
  | with_reducible apply State.command_sound
  | with_reducible apply RingSt.pop_sound
  | with_reducible apply commandByOpc_sound
  | with_reducible apply State.mctpTake_sound
  | with_reducible refine State.mctpTake_sound_eq (by assumption) ?_
  | with_reducible apply ite_sound
  | (intros; rfl)
  | with_reducible refine snd_sound_of_eq (by assumption) ?_
  | with_reducible refine fst_sound_of_eq (by assumption) ?_
  | dsimp only
  | split

theorem execCommandArbitrate_sound (w : ArbEntry) (s : State) (hs : s.Sound) : Res.Sound (execCommandArbitrate w s) := by
  unfold execCommandArbitrate
  try dsimp only
  repeat' first
  | with_reducible assumption
  | with_reducible intro hc
  | with_reducible refine Res.next_sound ?_
  | with_reducible apply commandArbitrate_sound
  | with_reducible refine commandArbitrate_sound_eq (by assumption) ?_
  | exact trivial

end Sys2Proof.Machine
end

