-- ==== Sys2Proof/Tests/Slice0.lean ====
section
/-! SUPPORT. Tests: ill-formed operands are refused, and for every statement with hypotheses a state and operands that
meet them. -/

set_option Elab.async false

namespace Sys2Proof.Tests

open Sys2Proof Sys2Proof.Machine

/-! ### Helpers of the witnesses: bytes, tokens, small states -/

theorem length_toBytes {n : Nat} (w : BitVec n) (k : Nat) : (toBytes w k).length = k := by simp [toBytes]

theorem slice_append_mid (a b c : List Byte) : slice (a ++ b ++ c) a.length b.length = b := by
  simp [slice, List.append_assoc]

theorem slice_mid (a b c : List Byte) (i k : Nat) (h : a.length = i) (g : b.length = k) :
    slice (a ++ (b ++ c)) i k = b := by
  subst h; subst g; simp [slice]

theorem toBytes_succ {n : Nat} (w : BitVec n) (k : Nat) :
    toBytes w (k + 1) = BitVec.ofNat 8 w.toNat :: toBytes (BitVec.ofNat n (w.toNat / 256)) k := by
  simp only [toBytes, List.range_succ_eq_map, List.map_cons, List.map_map, List.cons.injEq]
  refine ⟨by simp, List.map_congr_left fun i _ => ?_⟩
  have h : w.toNat / 256 < 2 ^ n := Nat.lt_of_le_of_lt (Nat.div_le_self _ _) w.isLt
  simp only [Function.comp, BitVec.toNat_ofNat, Nat.mod_eq_of_lt h, Nat.shiftRight_eq_div_pow, Nat.succ_eq_add_one]
  rw [Nat.div_div_eq_div_mul]
  congr 2
  rw [Nat.mul_add, Nat.pow_add, Nat.mul_one, Nat.mul_comm]

theorem ofBytes_toBytes {n : Nat} (k : Nat) : ∀ w : BitVec n, ofBytes (toBytes w k) = w.toNat % 256 ^ k := by
  induction k with
  | zero => intro w; simp [toBytes, ofBytes, Nat.mod_one]
  | succ k ih =>
    intro w
    have h : w.toNat / 256 < 2 ^ n := Nat.lt_of_le_of_lt (Nat.div_le_self _ _) w.isLt
    rw [toBytes_succ]
    simp only [ofBytes, List.foldr_cons] at *
    rw [ih]
    simp only [BitVec.toNat_ofNat, Nat.mod_eq_of_lt h]
    have e := Nat.mod_mul (x := w.toNat) (a := 256) (b := 256 ^ k)
    rw [show (256 : Nat) ^ (k + 1) = 256 * 256 ^ k by rw [Nat.pow_succ, Nat.mul_comm], e]

/-- The first 256 bytes of a token: a nonce and a head of zeros, the number, role and code given. -/
def tokHead (role opc : Byte) (num : W64) (c : Cmd) : List Byte :=
  [0x4B, 0x54, 0x43, 0x5A, 1, 0, role, opc] ++ (toBytes num 8 ++ (List.replicate 96 0 ++ (toBytes (cmdDigest c opc) 64 ++
    List.replicate 80 0)))

/-- The command with a token of the role, numbered, under the key with the hash k. -/
def withTok (k : Dig512) (role opc : Byte) (num : W64) (c : Cmd) : Cmd :=
  { c with
    tokenLen := 5120
    token := tokHead role opc num c ++
      (toBytes (Config.mlDsaSign k (Config.sha3_512 (tokHead role opc num c))) 4627 ++ List.replicate 237 0) }

theorem length_tokHead (role opc : Byte) (num : W64) (c : Cmd) : (tokHead role opc num c).length = 256 := by
  simp only [tokHead, List.length_append, length_toBytes, List.length_replicate, List.length_cons, List.length_nil]

theorem test_token_length (k : Dig512) (role opc : Byte) (num : W64) (c : Cmd) : (withTok k role opc num c).wf = true := by
  simp only [withTok, Cmd.wf, List.length_append, length_tokHead, length_toBytes, List.length_replicate]
  decide

theorem slice_head (a b : List Byte) (i k : Nat) (h : i + k ≤ a.length) : slice (a ++ b) i k = slice a i k := by
  simp only [slice]
  rw [List.drop_append_of_le_length (by omega), List.take_append_of_le_length (by simp; omega)]

theorem rdNat_head (a b : List Byte) (i k : Nat) (h : i + k ≤ a.length) : rdNat (a ++ b) i k = rdNat a i k := by
  simp only [rdNat, slice_head a b i k h]

theorem rdNat_mid (a b c : List Byte) (i k : Nat) (h : a.length = i) (g : b.length = k) :
    rdNat (a ++ (b ++ c)) i k = ofBytes b := by
  simp only [rdNat, slice_mid a b c i k h g]

/-- A token made so passes every check of R454 while the nonce and its head are zero and the number is a later one. -/
theorem tokenCheck_withTok (x : SecSt) (k : Dig512) (role opc : Byte) (num : W64) (c : Cmd) (roles : List Byte)
    (hr : roles.contains role = true) (hk : x.keyOf role = some k) (hf : x.firstKey opc c = none) (hn : x.nonce = 0)
    (hh : x.nonceHead = 0) (hz : x.storeFail = false) (hs : (x.seqOf role).toNat < num.toNat) :
    x.tokenCheck opc (withTok k role opc num c) roles = some role := by
  have L := length_tokHead role opc num c
  have f1 : x.firstKey opc (withTok k role opc num c) = none := hf
  have hd : ∀ i n : Nat, i + n ≤ 256 → ∀ r, rdNat (tokHead role opc num c ++ r) i n = rdNat (tokHead role opc num c) i n :=
    fun i n h r => rdNat_head _ _ _ _ (by omega)
  have e0 : rdNat (tokHead role opc num c) 0 4 = 0x5A43544B := by simp [tokHead, rdNat, slice, ofBytes]
  have e4 : rdNat (tokHead role opc num c) 4 2 = 1 := by simp [tokHead, rdNat, slice, ofBytes]
  have e6 : rdNat (tokHead role opc num c) 6 1 = role.toNat := by simp [tokHead, rdNat, slice, ofBytes]
  have e7 : rdNat (tokHead role opc num c) 7 1 = opc.toNat := by simp [tokHead, rdNat, slice, ofBytes]
  have e8 : rdNat (tokHead role opc num c) 8 8 = num.toNat := by
    rw [tokHead, rdNat_mid _ _ _ 8 8 rfl (length_toBytes _ _), ofBytes_toBytes]
    exact Nat.mod_eq_of_lt num.isLt
  have z : ∀ n, ofBytes (List.replicate n (0 : Byte)) = 0 := by
    intro n
    induction n with
    | zero => rfl
    | succ n ih => simp only [List.replicate_succ, ofBytes, List.foldr_cons] at *; rw [ih]; simp
  have q : tokHead role opc num c = ([0x4B, 0x54, 0x43, 0x5A, 1, 0, role, opc] ++ toBytes num 8) ++ (List.replicate 32 0 ++
      (List.replicate 64 0 ++ (toBytes (cmdDigest c opc) 64 ++ List.replicate 80 0))) := by
    rw [tokHead, show List.replicate 96 (0 : Byte) = List.replicate 32 0 ++ List.replicate 64 0 from rfl]
    simp only [List.append_assoc]
  have g : ([0x4B, 0x54, 0x43, 0x5A, 1, 0, role, opc] ++ toBytes num 8).length = 16 := by
    simp only [List.length_append, length_toBytes, List.length_cons, List.length_nil]
  have e10 : rdNat (tokHead role opc num c) 0x10 32 = 0 := by
    rw [q, rdNat_mid _ _ _ 16 32 g List.length_replicate]
    exact z 32
  have e30 : rdNat (tokHead role opc num c) 0x30 64 = 0 := by
    rw [q, ← List.append_assoc, rdNat_mid _ _ _ 48 64
      (by simp only [List.length_append, g, List.length_replicate]) List.length_replicate]
    exact z 64
  have e70 : rdNat (tokHead role opc num c) 0x70 64 = (cmdDigest c opc).toNat := by
    rw [q, ← List.append_assoc, ← List.append_assoc, rdNat_mid _ _ _ 112 64
      (by simp only [List.length_append, g, List.length_replicate]) (length_toBytes _ _), ofBytes_toBytes]
    exact Nat.mod_eq_of_lt (Nat.lt_of_lt_of_le (cmdDigest c opc).isLt (by decide +kernel))
  have es : slice (withTok k role opc num c).token 0x100 4627 =
      toBytes (Config.mlDsaSign k (Config.sha3_512 (tokHead role opc num c))) 4627 :=
    slice_mid _ _ _ _ _ L (length_toBytes _ _)
  have e00 : slice (withTok k role opc num c).token 0 0x100 = tokHead role opc num c := by
    simp only [withTok, slice, List.drop_zero]
    rw [List.take_append_of_le_length (by omega), List.take_of_length_le (by omega)]
  have l : (withTok k role opc num c).tokenLen = 5120 := rfl
  have d : cmdDigest (withTok k role opc num c) opc = cmdDigest c opc := rfl
  have hd' : ∀ i n : Nat, i + n ≤ 256 → rdNat (withTok k role opc num c).token i n = rdNat (tokHead role opc num c) i n :=
    fun i n h => hd i n h _
  simp only [SecSt.tokenCheck, f1, rdW, Nat.reduceAdd, Nat.reduceDiv, es, e00, hd' _ _ (show 0 + 4 ≤ 256 by omega),
    hd' _ _ (show 4 + 2 ≤ 256 by omega), hd' _ _ (show 6 + 1 ≤ 256 by omega), hd' _ _ (show 7 + 1 ≤ 256 by omega),
    hd' _ _ (show 8 + 8 ≤ 256 by omega), hd' _ _ (show 16 + 32 ≤ 256 by omega), hd' _ _ (show 48 + 64 ≤ 256 by omega),
    hd' _ _ (show 112 + 64 ≤ 256 by omega), e0, e4, e6, e7, e8, e10, e30, e70, BitVec.ofNat_toNat, BitVec.setWidth_eq,
    hk, hn, hh, hz, l, d, hr, mlDsaOk, Bool.false_eq_true, false_and, if_false, beq_self_eq_true, Bool.true_or, hs, and_self, if_true, BitVec.ofNat_eq_ofNat]

/-! ### A module that is up, and an operator's commands -/

/-- Start-up has ended, every unit answers, the link to the host is up, and two keys are enrolled. -/
def up : State :=
  { State.reset with
    glb := { GlbSt.init with
      startStep := 11, bursarUp := true, ready := true, hold := .done, ref100 := true, ref156 := true
      engAvail := BitVec.allOnes 128, vaultAvail := BitVec.allOnes 32, farAvail := BitVec.allOnes 48
      portAvail := BitVec.allOnes 48 }
    sec := { SecSt.init with keyI := some 0, keyO := some 0 }
    host := { HostSt.init with ltssm := 1 } }

/-- A command entry over management port 0 with the operands given. -/
def cmd (a0 a1 a2 : W64) : Cmd :=
  { src := .mgmt false, tag := 7, tokenLen := 0, token := [], arg0 := a0, arg1 := a1, arg2 := a2, arg3 := 0, arg4 := 0
    arg5 := 0, payload := [], payload2 := [] }

/-- A state in which tokens of the tests stand. -/
def Fresh (s : State) : Prop :=
  s.noBursar = false ∧ s.sec.nonce = 0 ∧ s.sec.nonceHead = 0 ∧ s.sec.keyI = some 0 ∧ s.sec.keyO = some 0 ∧ s.sec.seqM = 0 ∧
  s.sec.seqI = 0 ∧ s.sec.seqO = 0 ∧ s.sec.storeFail = false

theorem taken_with (s : State) (k : Dig512) (role opc : Byte) (c : Cmd) (roles : List Byte) (hs : Fresh s)
    (hr : roles.contains role = true) (hk : s.sec.keyOf role = some k) :
    Taken s opc roles (withTok k role opc 1 c) role := by
  obtain ⟨a, n, h, ki, _, m, i, o, z⟩ := hs
  refine ⟨a, tokenCheck_withTok s.sec k role opc 1 c roles hr hk ?_ n h z ?_⟩
  · simp only [SecSt.firstKey, ki]; split <;> simp
  · simp only [SecSt.seqOf, m, i, o, ite_self]; decide

theorem taken_op (s : State) (opc : Byte) (c : Cmd) (hs : Fresh s) : Taken s opc [2] (withTok 0 2 opc 1 c) 2 :=
  taken_with s 0 2 opc c [2] hs rfl (by simp [SecSt.keyOf, hs.2.2.2.2.1])

theorem taken_inst (s : State) (opc : Byte) (c : Cmd) (hs : Fresh s) : Taken s opc [1] (withTok 0 1 opc 1 c) 1 :=
  taken_with s 0 1 opc c [1] hs rfl (by simp [SecSt.keyOf, hs.2.2.2.1])

/-- The module in a job state. -/
def inJob (j : JState) : State := up.modJob fun x => { x with state := j }

theorem fresh_up (s : State) (g : s.noBursar = false) (x : s.sec = up.sec) : Fresh s := by
  rw [Fresh, x]; exact ⟨g, rfl, rfl, rfl, rfl, rfl, rfl, rfl, rfl⟩

/-- A REG_WRITE of a value at an offset with a token of a role. -/
def regTok (role : Byte) (off v : W64) : Cmd := withTok 0 role 0x22 1 (cmd off v 0)

theorem reg_taken (s : State) (c : Cmd) (role : Byte) (off : Nat) (hs : Fresh s) (hr : [0, 1, 2].contains role = true)
    (hk : s.sec.keyOf role = some 0) (p : pathOpen s c.src = true) (n : regOff c = off) (g : s.regGone off = false) :
    RegTaken s (withTok 0 role 0x22 1 c) role off :=
  ⟨p, taken_with s 0 role 0x22 c _ hs hr hk, n, g⟩

theorem up_sound : up.Sound where
  eng i h := by simp only [up, State.reset, Vector.getElem_replicate]; constructor <;> decide
  vaults i h := by simp only [up, State.reset, Vector.getElem_replicate]; exact CtlSt.init_sound
  fars i h := by simp only [up, State.reset, Vector.getElem_replicate]; exact CtlSt.init_sound
  mbox := by decide
  book := by decide
  aperture i h := by simp only [up, HostSt.init, Vector.getElem_replicate]; decide
  rings i h := by simp only [up, HostSt.init, Vector.getElem_replicate]; exact fun h => absurd h (by decide)

/-- A state with the memories, queues and host interface of another is as sound. -/
theorem sound_of {s t : State} (h : s.Sound) (e : t.eng = s.eng := by rfl) (v : t.vaults = s.vaults := by rfl)
    (f : t.fars = s.fars := by rfl) (i : t.int = s.int := by rfl) (x : t.sec = s.sec := by rfl)
    (y : t.host = s.host := by rfl) : t.Sound :=
  ⟨e ▸ h.1, v ▸ h.2, f ▸ h.3, i ▸ h.4, x ▸ h.5, y ▸ h.6, y ▸ h.7⟩

/-- A charter with nothing in it: two planes, one replica. -/
def wCh : Charter :=
  { (default : Charter) with
    planes := 2, stageCount := 1, replicaCount := 1, startStep := 1, plane := [default, default] }

/-- A charter active on the module, in a job state. -/
def inCharter (c : Charter) (j : JState) : State :=
  up.modJob fun x => { x with state := j, charter := some c, locked := true }

/-- Every lane module of the span out of service. -/
def lanesOut (s : State) : State :=
  { s with span := { s.span with lanes := s.span.lanes.map fun x => { x with state := 0 } } }

theorem test_staging_commands :
    (∃ (c : Cmd) (s : State), pathOpen s c.src = true ∧ Taken s 0x01 [2] c 2 ∧ s.job.state = .empty ∧
      argsOk c 0xFFFF_FFFF 0 0 = true ∧ 8512 ≤ fld c.arg0 31 0 ∧ fld c.arg0 31 0 ≤ 268435456 ∧ s.charterCopies ≠ []) ∧
    (∃ (c : Cmd) (s : State), pathOpen s c.src = true ∧ Taken s 0x02 [2] c 2 ∧ s.job.state = .staging ∧ s.job.charter = none ∧
      argsOk c 0xFFFF_FFFF 0xFFFF_FFFF (BitVec.allOnes 64) = true ∧ chunkOk c s.job.declared = true ∧
      s.job.declared ≤ 268435456 ∧ s.chunkWaits = false ∧ s.chunkHalt c none = none ∧ s.Sound) ∧
    (∃ (c : Cmd) (s : State), pathOpen s c.src = true ∧ Taken s 0x03 [2] c 2 ∧ s.job.state = .staging ∧
      argsOk c 0 0 0 = true) ∧
    (∃ (c : Cmd) (s : State), pathOpen s c.src = true ∧ Taken s 0x04 [2] c 2 ∧ s.job.state = .verified ∧
      argsOk c 0 0 0 = true) :=
  ⟨⟨withTok 0 2 1 1 (cmd 8512 0 0), inJob .empty, rfl, taken_op _ _ _ (fresh_up _ rfl rfl), rfl, rfl, by decide +kernel,
      by decide +kernel, by decide +kernel⟩,
   ⟨withTok 0 2 2 1 (cmd 0 64 0x4000_0000_0000_0000), up.modJob fun x => { x with state := .staging, declared := 8512 }, rfl,
      taken_op _ _ _ (fresh_up _ rfl rfl), rfl, rfl, rfl, by decide +kernel, by decide +kernel, by decide +kernel, by decide +kernel,
      sound_of up_sound⟩,
   ⟨withTok 0 2 3 1 (cmd 0 0 0), inJob .staging, rfl, taken_op _ _ _ (fresh_up _ rfl rfl), rfl, rfl⟩,
   ⟨withTok 0 2 4 1 (cmd 0 0 0), inJob .verified, rfl, taken_op _ _ _ (fresh_up _ rfl rfl), rfl, rfl⟩⟩

theorem test_job_commands :
    (∃ s : State, s.job.state = .verifying) ∧
    (∃ (c : Cmd) (s : State), pathOpen s c.src = true ∧ Taken s 0x05 [2] c 2 ∧ s.job.state = .verified ∧
      argsOk c 0 0 0 = true) ∧
    (∃ (s : State) (c : Charter), s.job.state = .activating ∧ s.job.charter = some c ∧ s.unitsLost.1 = none) ∧
    (∃ (c : Cmd) (s : State), pathOpen s c.src = true ∧ Taken s 0x06 [2] c 2 ∧ s.job.state = .active ∧
      argsOk c 0xFFFF_FFFF 0 0 = true ∧ s.ckpt.liveNext = [] ∧ s.job.stepOn = false ∧ s.int.assayWindow = false) ∧
    (∃ (c : Cmd) (s : State), pathOpen s c.src = true ∧ argsOk c 0 0 0 = true ∧ Taken s 0x07 [2] c 2 ∧
      s.job.state = .running ∧ s.job.pendPause = none) ∧
    (∃ (c : Cmd) (s : State), pathOpen s c.src = true ∧ argsOk c 0 0 0 = true ∧ Taken s 0x08 [2] c 2 ∧
      s.job.state = .running ∧ s.onePlane = false ∧ s.job.pendSwitch = none) ∧
    (∃ (c : Cmd) (s : State), pathOpen s c.src = true ∧ argsOk c 0 0 0 = true ∧ Taken s 0x08 [2] c 2 ∧
      s.job.state = .active ∧ s.onePlane = false ∧ s.job.pendSwitch = none ∧ s.tillsEmpty = true) ∧
    (∃ (c : Cmd) (s : State), pathOpen s c.src = true ∧ argsOk c 0 0 0 = true ∧ Taken s 0x08 [2] c 2 ∧
      s.onePlane = true) ∧
    (∃ (c : Cmd) (s : State), pathOpen s c.src = true ∧ argsOk c 0 0 0 = true ∧ Taken s 0x0B [2] c 2 ∧
      s.job.state = .held ∧ s.spanOut = false) ∧
    (∃ (c : Cmd) (s : State), pathOpen s c.src = true ∧ argsOk c 0 0 0 = true ∧ Taken s 0x0B [2] c 2 ∧
      s.job.state = .held ∧ s.spanOut = true) ∧
    (∃ (c : Cmd) (s : State), argsOk c 0 0 0 = true ∧ Taken s 0x0C [2] c 2 ∧ s.job.state = .verified) ∧
    (∃ (c : Cmd) (s : State), argsOk c 0 0 0 = true ∧ Taken s 0x0D [1, 2] c 1 ∧ s.job.state = .running) ∧
    (∃ s : State, s.job.state = .releasing) :=
  ⟨⟨inJob .verifying, rfl⟩,
   ⟨withTok 0 2 5 1 (cmd 0 0 0), inJob .verified, rfl, taken_op _ _ _ (fresh_up _ rfl rfl), by decide +kernel⟩,
   ⟨inCharter wCh .activating, wCh, rfl, rfl, by decide +kernel⟩,
   ⟨withTok 0 2 6 1 (cmd 1 0 0), inCharter wCh .active, rfl, taken_op _ _ _ (fresh_up _ rfl rfl), by decide +kernel⟩,
   ⟨withTok 0 2 7 1 (cmd 0 0 0), inCharter wCh .running, rfl, rfl, taken_op _ _ _ (fresh_up _ rfl rfl), by decide +kernel⟩,
   ⟨withTok 0 2 8 1 (cmd 0 0 0), inCharter wCh .running, rfl, rfl, taken_op _ _ _ (fresh_up _ rfl rfl), by decide +kernel⟩,
   ⟨withTok 0 2 8 1 (cmd 0 0 0), inCharter wCh .active, rfl, rfl, taken_op _ _ _ (fresh_up _ rfl rfl), by decide +kernel⟩,
   ⟨withTok 0 2 8 1 (cmd 0 0 0), inJob .empty, rfl, rfl, taken_op _ _ _ (fresh_up _ rfl rfl), rfl⟩,
   ⟨withTok 0 2 11 1 (cmd 0 0 0), (inCharter wCh .held).modLane 0 fun x => { x with state := 3 }, rfl, rfl,
     taken_op _ _ _ (fresh_up _ rfl rfl), rfl, by decide +kernel⟩,
   ⟨withTok 0 2 11 1 (cmd 0 0 0), lanesOut (inCharter wCh .held), rfl, rfl, taken_op _ _ _ (fresh_up _ rfl rfl), rfl,
     by decide +kernel⟩,
   ⟨withTok 0 2 12 1 (cmd 0 0 0), inJob .verified, rfl, taken_op _ _ _ (fresh_up _ rfl rfl), rfl⟩,
   ⟨withTok 0 1 13 1 (cmd 0 0 0), inCharter wCh .running, rfl,
     taken_with _ 0 1 13 _ [1, 2] (fresh_up _ rfl rfl) rfl rfl, rfl⟩,
   ⟨inJob .releasing, rfl⟩⟩

/-- The commit records have been read, and no checkpoint drains. -/
def marked (j : JState) : State := (inCharter wCh j).modCkpt fun k => { k with recordsRead := true }

def wDrain : Drain := { (default : Drain) with cut := 4 }

/-- That charter has no stage. -/
theorem wCh_stages (s : State) (h : s.job.charter = some wCh) (p : s.job.plane = 0) : s.stages = [] := by
  simp [State.stages, State.engMap, State.planeCfg, h, p, wCh, show (default : PlaneCfg).engMap = [] from rfl]

theorem wCh_openTills (s : State) (h : s.job.charter = some wCh) (p : s.job.plane = 0) : (s.openTills false).job = s.job := by
  have q : s.planeCfg = some default := by simp [State.planeCfg, h, p, wCh]
  unfold State.openTills
  simp only [State.planeCfg, State.modAllEng]
  simp only [State.planeCfg] at q
  simp only [q, show (default : PlaneCfg).tills = [] from rfl, List.foldl_nil]

theorem wCh_restoreClear (s : State) (h : s.job.charter = some wCh) (p : s.job.plane = 0) : s.restoreClear.job = s.job := by
  have r : s.homeRecs = [] := by
    simp [State.homeRecs, State.shardsSec, h, wCh, show (default : Charter).shards.homes = [] from rfl]
  have d : s.sealedJob = false := by simp [State.sealedJob, h, wCh]; rfl
  simp only [State.restoreClear, wCh_stages s h p, r, d, List.foldl_nil, List.flatMap_nil, Bool.false_eq_true, if_false]
  exact wCh_openTills _ h p

theorem wCh_restoreStart (s : State) (c : Cmd) (img : CkptImage) (h : s.job.charter = some wCh) (p : s.job.plane = 0) :
    (s.restoreStart c img).job.charter = some wCh ∧ (s.restoreStart c img).job.plane = 0 := by
  have e : (s.restoreStart c img).job = _ := wCh_restoreClear _ (by simp [State.taken, h]) (by simp [State.taken, p])
  rw [e]
  simp [State.taken, h, p]

/-- Nothing is to load for it. -/
theorem wCh_loads (s : State) (c : Cmd) (img : CkptImage) (h : s.job.charter = some wCh) (p : s.job.plane = 0) :
    RestoreLoads s c img := by
  have q := wCh_restoreStart s c img h p
  constructor
  · rw [show (s.restoreStart c img).restoreList img = [] by simp [State.restoreList, wCh_stages _ q.1 q.2]]; trivial
  · rw [show (s.restoreStart c img).shardEnts = [] by simp [State.shardEnts, State.shardsSec, q.1, wCh]; rfl]
    exact fun x h => nomatch h

theorem test_checkpoints_and_restores :
    (∃ (c : Cmd) (s : State), pathOpen s c.src = true ∧ Taken s 0x09 [2] c 2 ∧ argsOk c 0xFFFF_FFFF_FFFF 0 0 = true ∧
      s.job.state = .active ∧ fld c.arg0 47 0 = 0 ∧ s.markFree = true ∧ s.job.pendCkpt = none ∧
      s.job.charter.isSome = true) ∧
    (∃ (c : Cmd) (s : State), pathOpen s c.src = true ∧ Taken s 0x09 [2] c 2 ∧ argsOk c 0xFFFF_FFFF_FFFF 0 0 = true ∧
      s.job.state = .running ∧ s.job.step.toNat < fld c.arg0 47 0 ∧ s.markFree = true ∧ s.job.pendCkpt = none) ∧
    (∃ (c : Cmd) (s : State), pathOpen s c.src = true ∧ Taken s 0x09 [2] c 2 ∧ argsOk c 0xFFFF_FFFF_FFFF 0 0 = true ∧
      s.job.state = .active ∧ s.ckpt.drain.isSome = true) ∧
    (∃ (c : Cmd) (s : State) (ch : Charter), pathOpen s c.src = true ∧ Taken s 0x0A [2] c 2 ∧ s.job.state = .held ∧
      argsOk c 3 0xFFFF_FFFF_FFFF (BitVec.allOnes 64) = true ∧ s.job.charter = some ch ∧ fld c.arg0 1 0 ≠ 3 ∧
      s.markFree = true) ∧
    (∃ (c : Cmd) (s : State) (img : CkptImage), pathOpen s c.src = true ∧ Taken s 0x0A [2] c 2 ∧ s.job.state = .active ∧
      argsOk c 3 0xFFFF_FFFF_FFFF (BitVec.allOnes 64) = true ∧ s.job.charter = some wCh ∧ fld c.arg0 1 0 ≠ 3 ∧
      s.markFree = true ∧ RestoreLoads s c (ckptSized (s.slotImage (c.arg2 != 0) img))) ∧
    (∃ (s : State) (r : RestoreSt), s.job.state = .restoring ∧ s.ckpt.restore = some r ∧ s.restoreReady r = true) :=
  ⟨⟨withTok 0 2 9 1 (cmd 0 0 0), marked .active, rfl, taken_op _ _ _ (fresh_up _ rfl rfl), by decide +kernel⟩,
   ⟨withTok 0 2 9 1 (cmd 1 0 0), marked .running, rfl, taken_op _ _ _ (fresh_up _ rfl rfl), by decide +kernel⟩,
   ⟨withTok 0 2 9 1 (cmd 0 0 0), (marked .active).modCkpt fun k => { k with drain := some wDrain }, rfl,
     taken_op _ _ _ (fresh_up _ rfl rfl), by decide +kernel⟩,
   ⟨withTok 0 2 10 1 (cmd 2 0 0), marked .held, wCh, rfl, taken_op _ _ _ (fresh_up _ rfl rfl), by decide +kernel⟩,
   ⟨withTok 0 2 10 1 (cmd 2 0 0), marked .active, default, rfl, taken_op _ _ _ (fresh_up _ rfl rfl), by decide +kernel,
     by decide +kernel, by decide +kernel, by decide +kernel, by decide +kernel,
     wCh_loads _ _ _ rfl rfl⟩,
   ⟨(marked .restoring).modCkpt fun k => { k with restore := some default }, default, rfl, rfl, by decide +kernel⟩⟩

/-- A payload of n bytes, the digest that its command gives, and the path that may carry it. -/
def wPay (a0 : W64) (n : Nat) (h : Dig256) : Cmd :=
  { cmd (a0 ||| BitVec.ofNat 64 n) 0xF000_0000_0000_0000 0 with
    payload := List.replicate n 1, payload2 := List.replicate n 1
    arg2 := h.extractLsb' 0 64, arg3 := h.extractLsb' 64 64, arg4 := h.extractLsb' 128 64, arg5 := h.extractLsb' 192 64 }

theorem digest_split (h : Dig256) (c : Cmd) (a : c.arg2 = h.extractLsb' 0 64) (b : c.arg3 = h.extractLsb' 64 64)
    (d : c.arg4 = h.extractLsb' 128 64) (e : c.arg5 = h.extractLsb' 192 64) : argDigest c = h := by
  rw [argDigest, a, b, d, e]
  apply BitVec.eq_of_getLsbD_eq
  intro i hi
  simp only [BitVec.getLsbD_append, BitVec.getLsbD_extractLsb']
  rcases Nat.lt_or_ge i 64 with h1 | h1
  · simp [h1]
  · rcases Nat.lt_or_ge i 128 with h2 | h2
    · simp [show ¬i < 64 by omega, show i - 64 < 64 by omega, show 64 + (i - 64) = i by omega]
    · rcases Nat.lt_or_ge i 192 with h3 | h3
      · simp [show ¬i < 64 by omega, show ¬i - 64 < 64 by omega, show i - 64 - 64 < 64 by omega,
          show 128 + (i - 64 - 64) = i by omega]
      · simp [show ¬i < 64 by omega, show ¬i - 64 < 64 by omega, show ¬i - 64 - 64 < 64 by omega,
          show i - 64 - 64 - 64 < 64 by omega, show 192 + (i - 64 - 64 - 64) = i by omega]

/-- A payload of one byte, with the head of ARG0 that its command needs. -/
def onePay (a0 : W64) : Cmd := wPay a0 1 (Config.sha3_256 [1])

theorem payload_ok (a0 : W64) (limit : Nat) (k : Dig512) (r o : Byte) (h : fld (onePay a0).arg0 31 0 = 1) (l : 1 ≤ limit) :
    PayloadOk (withTok k r o 1 (onePay a0)) limit := by
  have d : argDigest (withTok k r o 1 (onePay a0)) = Config.sha3_256 [1] := digest_split _ _ rfl rfl rfl rfl
  have f : fld (withTok k r o 1 (onePay a0)).arg0 31 0 = 1 := h
  constructor
  · omega
  · omega
  · show payloadSpace 0xF000_0000_0000_0000 (.mgmt false) = true
    decide +kernel
  · rw [f]; exact Nat.le_refl 1
  · rw [f]; exact Nat.le_refl 1
  · rw [d, f]; rfl
  · rw [d, f]; rfl

theorem test_free_commands :
    (∃ (c : Cmd) (s : State), pathOpen s c.src = true ∧ s.noBursar = false ∧ argsOk c 0 0 0 = true) ∧
    (∃ (c : Cmd) (s : State), pathOpen s c.src = true ∧ s.noBursar = false ∧ regOff c % 8 = 0 ∧
      s.regGone (regOff c) = false) ∧
    (∃ (c : Cmd) (s : State), pathOpen s c.src = true ∧ s.noBursar = false ∧ s.regGone (regOff c) = true) :=
  ⟨⟨cmd 0 0 0, up, by decide +kernel⟩, ⟨cmd 0x200 0 0, up, by decide +kernel⟩,
   ⟨cmd 0x17F_0000 0 0, up.modGlb fun g => { g with engAvail := 1 }, by decide +kernel⟩⟩

theorem test_keys_and_images :
    (∃ (c : Cmd) (s : State), pathOpen s c.src = true ∧ Taken s 0x23 [1] c 1 ∧ PayloadOk c 2592 ∧ fld c.arg0 39 32 = 1) ∧
    (∃ (c : Cmd) (s : State), pathOpen s c.src = true ∧ Taken s 0x23 [1] c 1 ∧ PayloadOk c 2592 ∧ fld c.arg0 39 32 = 2 ∧
      s.job.state = .empty) ∧
    (∃ (c : Cmd) (s : State), pathOpen s c.src = true ∧ Taken s 0x23 [1] c 1 ∧ PayloadOk c 2592 ∧ fld c.arg0 39 32 = 2 ∧
      s.job.state ≠ .empty) ∧
    (∃ (c : Cmd) (s : State) (role : Byte), pathOpen s c.src = true ∧ Taken s 0x26 [0, 1] c role ∧ s.job.state = .empty) ∧
    (∃ (c : Cmd) (s : State) (role : Byte), pathOpen s c.src = true ∧ Taken s 0x21 [0, 1] c role ∧ PayloadOk c 1048576) ∧
    (∃ (c : Cmd) (s : State), pathOpen s c.src = true ∧ Taken s 0x24 [1] c 1 ∧ PayloadOk c 1048576) ∧
    (∃ (c : Cmd) (s : State), pathOpen s c.src = true ∧ Taken s 0x25 [1] c 1 ∧ PayloadOk c 16777216) ∧
    (∃ (c : Cmd) (s : State), pathOpen s c.src = true ∧ Taken s 0x28 [0] c 0 ∧ PayloadOk c 8192) ∧
    (∃ (c : Cmd) (s : State), pathOpen s c.src = true ∧ Taken s 0x27 [1] c 1) :=
  ⟨⟨withTok 0 1 0x23 1 (onePay 0x1_0000_0000), up, rfl, taken_inst _ _ _ (fresh_up _ rfl rfl),
      payload_ok _ _ _ _ _ (by decide +kernel) (by decide), by decide +kernel⟩,
   ⟨withTok 0 1 0x23 1 (onePay 0x2_0000_0000), up, rfl, taken_inst _ _ _ (fresh_up _ rfl rfl),
      payload_ok _ _ _ _ _ (by decide +kernel) (by decide), by decide +kernel, rfl⟩,
   ⟨withTok 0 1 0x23 1 (onePay 0x2_0000_0000), inJob .staging, rfl, taken_inst _ _ _ (fresh_up _ rfl rfl),
      payload_ok _ _ _ _ _ (by decide +kernel) (by decide), by decide +kernel, by decide⟩,
   ⟨withTok 0 1 0x26 1 (cmd 0 0 0), up, 1, rfl, taken_with _ 0 1 _ _ _ (fresh_up _ rfl rfl) rfl rfl, rfl⟩,
   ⟨withTok Config.makerKeyHash 0 0x21 1 (onePay 0), up, 0, rfl, taken_with _ _ 0 _ _ _ (fresh_up _ rfl rfl) rfl rfl,
      payload_ok _ _ _ _ _ (by decide +kernel) (by decide)⟩,
   ⟨withTok 0 1 0x24 1 (onePay 0), up, rfl, taken_inst _ _ _ (fresh_up _ rfl rfl),
      payload_ok _ _ _ _ _ (by decide +kernel) (by decide)⟩,
   ⟨withTok 0 1 0x25 1 (onePay 0), up, rfl, taken_inst _ _ _ (fresh_up _ rfl rfl),
      payload_ok _ _ _ _ _ (by decide +kernel) (by decide)⟩,
   ⟨withTok Config.makerKeyHash 0 0x28 1 (onePay 0), up, rfl, taken_with _ _ 0 _ _ _ (fresh_up _ rfl rfl) rfl rfl,
      payload_ok _ _ _ _ _ (by decide +kernel) (by decide)⟩,
   ⟨withTok 0 1 0x27 1 (cmd 0 0 0), up, rfl, taken_inst _ _ _ (fresh_up _ rfl rfl)⟩⟩

theorem test_tokens :
    (∃ (s : State) (i : Instr) (opc : Byte) (roles : List Byte) (c : Cmd), tokenCmd i = some (opc, roles, c) ∧
      pathOpen s c.src = true ∧ s.noBursar = false ∧ s.sec.tokenCheck opc c roles = none ∧
      ∀ cut, i = .charterChunk c cut → s.chunkWaits = false) ∧
    (∃ (s : State) (opc : Byte) (roles : List Byte) (c : Cmd) (role : Byte), Taken s opc roles c role ∧ role.toNat < 3 ∧
      ∃ (t : State) (d : Cmd), (rdW 64 c.token 8).toNat ≤ (t.sec.seqOf role).toNat ∧ d.token = c.token) :=
  ⟨⟨up, .charterChunk (cmd 0 0 0) none, 2, [2], cmd 0 0 0, rfl, rfl, rfl, by decide +kernel, fun _ _ => by decide +kernel⟩,
   ⟨up, 7, [2], withTok 0 2 7 1 (cmd 0 0 0), 2, taken_op _ _ _ (fresh_up _ rfl rfl), by decide,
     up.modSec fun x => { x with seqO := BitVec.allOnes 64 }, withTok 0 2 7 1 (cmd 0 0 0),
     Nat.le_of_lt_succ (BitVec.isLt _), rfl⟩⟩

theorem test_register_writes :
    (∃ (c : Cmd) (s : State) (off : Nat) (mask : W64), pathOpen s c.src = true ∧ Taken s 0x22 [0, 1, 2] c 1 ∧
      (off, mask) ∈ plainRegs ∧ regOff c = off) ∧
    (∃ (c : Cmd) (s : State), pathOpen s c.src = true ∧ Taken s 0x22 [0, 1, 2] c 1 ∧ regOff c % 8 ≠ 0) ∧
    (∃ (c : Cmd) (s : State), pathOpen s c.src = true ∧ Taken s 0x22 [0, 1, 2] c 1 ∧ s.regGone (regOff c) = true) ∧
    (∃ (c : Cmd) (s : State), pathOpen s c.src = true ∧ Taken s 0x22 [0, 1, 2] c 2 ∧ regOff c % 8 = 0 ∧
      s.regGone (regOff c) = false ∧ ∀ r, wregAt (regOff c) = some r → wregRole r ≠ 2) ∧
    (∃ (c : Cmd) (s : State) (r : WReg), pathOpen s c.src = true ∧ Taken s 0x22 [0, 1, 2] c 1 ∧ regOff c % 8 = 0 ∧
      s.regGone (regOff c) = false ∧ wregAt (regOff c) = some r ∧ wregRole r = 1 ∧ wregLocks r = true ∧
      s.job.locked = true) ∧
    (∃ (off : BitVec 26) (s : State), s.off = false ∧ wregAt (off.toNat / 8 * 8) = none) ∧
    (∃ (off : BitVec 26) (s : State), s.off = false ∧ wregAt (off.toNat / 8 * 8) ≠ none) ∧
    (∃ (c : Cmd) (s : State), RegTaken s c 1 0x10_0018 ∧ s.job.locked = false) ∧
    (∃ (c : Cmd) (s : State), RegTaken s c 1 0x10_0018 ∧ s.job.locked = true) ∧
    (∃ (c : Cmd) (s : State), RegTaken s c 1 0x608 ∧ fld c.arg1 15 0 ≠ fld s.int.errCfg 15 0) ∧
    (∃ (c : Cmd) (s : State), RegTaken s c 1 0x608 ∧ fld c.arg1 15 0 = fld s.int.errCfg 15 0) ∧
    (∃ (c : Cmd) (s : State) (k : Fin 16), RegTaken s c 2 (0x60_0100 + 8 * k.val) ∧ aptValueOk c.arg1 = true) :=
  ⟨⟨withTok 0 1 0x22 1 (cmd 0x408 5 0), up, 0x408, 0x3_FFFF, rfl, taken_with _ 0 1 _ _ _ (fresh_up _ rfl rfl) rfl rfl,
      by decide +kernel⟩,
   ⟨withTok 0 1 0x22 1 (cmd 0x40C 5 0), up, rfl, taken_with _ 0 1 _ _ _ (fresh_up _ rfl rfl) rfl rfl, by decide +kernel⟩,
   ⟨withTok 0 1 0x22 1 (cmd 0x17F_0000 5 0), up.modGlb fun g => { g with engAvail := 1 }, rfl,
      taken_with _ 0 1 _ _ _ (fresh_up _ rfl rfl) rfl rfl, by decide +kernel⟩,
   ⟨withTok 0 2 0x22 1 (cmd 0x408 5 0), up, rfl, taken_with _ 0 2 _ _ _ (fresh_up _ rfl rfl) rfl rfl, by decide +kernel,
      by decide +kernel, fun r h => by injection (h : some WReg.errCfg = some r) with h; subst h; decide⟩,
   ⟨withTok 0 1 0x22 1 (cmd 0x10_0018 5 0), inCharter wCh .active, .identity, rfl,
      taken_with _ 0 1 _ _ _ (fresh_up _ rfl rfl) rfl rfl, by decide +kernel⟩,
   ⟨0x200, up, by decide +kernel⟩, ⟨0x40C, up, by decide +kernel⟩,
   ⟨_, up, reg_taken _ (cmd 0x10_0018 5 0) 1 _ (fresh_up _ rfl rfl) rfl rfl rfl (by decide +kernel) (by decide +kernel), rfl⟩,
   ⟨_, inCharter wCh .active, reg_taken _ (cmd 0x10_0018 5 0) 1 _ (fresh_up _ rfl rfl) rfl rfl rfl (by decide +kernel) (by decide +kernel), rfl⟩,
   ⟨_, up, reg_taken _ (cmd 0x608 5 0) 1 _ (fresh_up _ rfl rfl) rfl rfl rfl (by decide +kernel) (by decide +kernel), by decide +kernel⟩,
   ⟨_, up, reg_taken _ (cmd 0x608 0x88B5 0) 1 _ (fresh_up _ rfl rfl) rfl rfl rfl (by decide +kernel) (by decide +kernel), by decide +kernel⟩,
   ⟨_, up, 15, reg_taken _ (cmd 0x60_0178 0x3000_0201_0000_0000 0) 2 _ (fresh_up _ rfl rfl) rfl rfl rfl (by decide +kernel) (by decide +kernel), by decide +kernel⟩⟩

/-- A slip of n bytes from host memory into the engine's stage store, with no next one and no status words. -/
def wSlip (n : Nat) : Slip :=
  { w0 := 0x80_0000_0000_0000 ||| BitVec.ofNat 64 n, w1 := 0x4000_0000_0000_0000, w2 := 0x1000, w3 := 0xF000_0000_0000_0000
    w4 := 0xF000_0000_0000_0000, w5 := 0, w6 := 0, w7 := 0 }

/-- Channel 6 of engine 0, changed. -/
def chan6 (f : ChanSt → ChanSt) : State := up.modChan 0 6 f

theorem slip_runs (s : State) (ring first : Bool) (h : s.slipRefused 0 ring (wSlip 512) = none) :
    SlipRuns s 0 ring first (wSlip 512) :=
  ⟨by decide +kernel, by cases first <;> decide +kernel, h⟩

/-- The bytes of that slip of 512 bytes in host memory. -/
def slipBytes : List Byte :=
  [(wSlip 512).w0, (wSlip 512).w1, (wSlip 512).w2, (wSlip 512).w3, (wSlip 512).w4, (wSlip 512).w5, (wSlip 512).w6,
    (wSlip 512).w7].flatMap fun w => toBytes w 8

/-- The host's write of DMA_CTRL of channel 6 of engine 0, the slip that it takes up read with it. -/
def ctrl6 (v : W64) : Cmd := { cmd 0x100_2188 v 0 with payload := slipBytes }

theorem ctrl6_taken (s : State) (v : W64) (h : Fresh s) (g : s.regGone 0x100_2188 = false) :
    RegTaken s (withTok 0 2 0x22 1 (ctrl6 v)) 2 (dmaReg 0 6 8) :=
  reg_taken s (ctrl6 v) 2 _ h rfl (by simp [SecSt.keyOf, h.2.2.2.2.1]) rfl rfl g

theorem test_chains :
    (∃ (c : Cmd) (e : EngineId) (ch : ChanId) (x : Slip) (a : Nat) (s : State), 6 ≤ ch.val ∧
      RegTaken s c 2 (dmaReg e ch 8) ∧ x = slipOfBytes c.payload ∧ fld c.arg1 2 0 = 1 ∧
      (s.chan e ch).state = .idle ∧ placeOf e (s.chan e ch).head = .host a ∧ SlipRuns s e false true x) ∧
    (∃ (c : Cmd) (e : EngineId) (ch : ChanId) (x : Slip) (a : Nat) (s : State), 6 ≤ ch.val ∧
      RegTaken s c 2 (dmaReg e ch 8) ∧ x = slipOfBytes c.payload ∧ fld c.arg1 2 0 = 4 ∧
      (s.chan e ch).state = .stopped ∧ placeOf e (s.chan e ch).cur = .host a ∧
      SlipRuns s e (s.chan e ch).hostRing false x) ∧
    (∃ (c : Cmd) (e : EngineId) (ch : ChanId) (x y : Slip) (a : Nat) (s : State), 6 ≤ ch.val ∧
      RegTaken s c 2 (dmaReg e ch 8) ∧ x = slipOfBytes c.payload ∧ fld c.arg1 2 0 = 4 ∧
      (s.chan e ch).state = .halted ∧ (s.chan e ch).slip = some y ∧ placeOf e y.w3 = .host a ∧
      SlipRuns s e (s.chan e ch).hostRing false x) ∧
    (∃ (c : Cmd) (x : Slip) (a : Nat) (s : State) (e : EngineId) (ch : ChanId), Taken s 0x20 [2] c 2 ∧
      e = Fin.ofNat 128 (fld c.arg0 6 0) ∧ ch = (if bitAt c.arg0 8 then 7 else 6) ∧ s.engOk e.val = true ∧
      (s.chan e ch).state = .idle ∧ placeOf e c.arg1 = .host a ∧
      SlipRuns s e (match c.src with
        | .ring _ => true
        | _ => false) true x) :=
  ⟨⟨_, 0, 6, wSlip 512, 64, chan6 fun c => { c with head := 0x4000_0000_0000_0040 }, by decide,
      ctrl6_taken _ 1 (fresh_up _ rfl rfl) (by decide +kernel), by decide +kernel, by decide +kernel, by decide +kernel,
      by decide +kernel, slip_runs _ _ _ (by decide +kernel)⟩,
   ⟨_, 0, 6, wSlip 512, 64, chan6 fun c => { c with state := .stopped, cur := 0x4000_0000_0000_0040 }, by decide,
      ctrl6_taken _ 4 (fresh_up _ rfl rfl) (by decide +kernel), by decide +kernel, by decide +kernel, by decide +kernel,
      by decide +kernel, slip_runs _ _ _ (by decide +kernel)⟩,
   ⟨_, 0, 6, wSlip 512, { wSlip 512 with w3 := 0x4000_0000_0000_0040 }, 64,
      chan6 fun c => { c with state := .halted, slip := some { wSlip 512 with w3 := 0x4000_0000_0000_0040 } }, by decide,
      ctrl6_taken _ 4 (fresh_up _ rfl rfl) (by decide +kernel), by decide +kernel, by decide +kernel, by decide +kernel,
      by decide +kernel, by decide +kernel, slip_runs _ _ _ (by decide +kernel)⟩,
   ⟨withTok 0 2 0x20 1 (cmd 0x100 0x4000_0000_0000_0040 0), wSlip 512, 64, up, 0, 7, taken_op _ _ _ (fresh_up _ rfl rfl),
      by decide +kernel, by decide +kernel, by decide +kernel, by decide +kernel, by decide +kernel,
      slip_runs _ _ _ (by decide +kernel)⟩⟩

/-- Channel 6 of engine 0 runs a slip, so many of its bytes moved. -/
def running6 (x : Slip) (done : W32) : State :=
  chan6 fun c => { c with
    state := .running, slip := some x, progress := done, burst := 512, asked := done.toNat, sent := done.toNat }

theorem running6_sound (x : Slip) (done : W32) : (running6 x done).Sound := by
  unfold running6 chan6; exact State.modChan_sound _ _ _ _ up_sound

/-- A burst of n bytes of the slip x, done with the bytes before it, into engine 0's stage store. -/
structure BurstMoves (s : State) (x : Slip) (n : Nat) : Prop where
  slip : (s.chan 0 6).slip = some x
  busy : (s.chan 0 6).busy = true
  ok : s.engOk 0 = true
  plain : x.blocks = false
  good : (s.chan 0 6).halting = none
  moved : (s.chan 0 6).progress.toNat ≤ (s.chan 0 6).sent
  part : (s.chan 0 6).part = []
  asked : (s.chan 0 6).asked = (s.chan 0 6).sent
  left : (s.chan 0 6).sent < x.len
  size : n = min (s.chan 0 6).burst (x.len - (s.chan 0 6).sent)
  some : 1 ≤ n
  dst : placeOf 0 x.w2 = .store 0 0x1000
  apart : slipOverlaps 0 x = false
  free : s.pinned 0 (0x1000 + (s.chan 0 6).sent, n) = false
  whole : (s.eng[0]).partBad 0 (0x1000 + (s.chan 0 6).sent) n = []

theorem test_bursts :
    (∃ (s : State) (x : Slip) (n a : Nat), BurstMoves s x n ∧ placeOf 0 x.w1 = .host a ∧ s.host.ltssm = 1) ∧
    (∃ (s : State) (x : Slip) (n a : Nat), BurstMoves s x n ∧ placeOf 0 x.w1 = .store 1 a ∧ s.engOk 1 = true ∧
      (s.eng[1]).badAt 0 [(a + (s.chan 0 6).sent, n)] = []) ∧
    (∃ (s : State) (x : Slip) (n a : Nat) (c : CtlId), BurstMoves s x n ∧ placeOf 0 x.w1 = .dram c a ∧ s.ctlOk c = true ∧
      (s.ctl c).bad = []) :=
  ⟨⟨running6 (wSlip 768) 512, wSlip 768, 256, 0, by constructor <;> decide +kernel, by decide +kernel⟩,
   ⟨running6 { wSlip 768 with w1 := 0x1000_0000_0100_0000 } 0, { wSlip 768 with w1 := 0x1000_0000_0100_0000 }, 512, 0,
     by constructor <;> decide +kernel, by decide +kernel⟩,
   ⟨running6 { wSlip 768 with w1 := 0x2000_0000_0000_0000 } 0, { wSlip 768 with w1 := 0x2000_0000_0000_0000 }, 512, 0,
     .vault 0, by constructor <;> decide +kernel, by decide +kernel⟩⟩

/-- A slip with a checksum word, in host memory or in a vault. -/
def sumSlip : Slip := { wSlip 512 with w0 := 0x90_0000_0000_0200, w4 := 0x4000_0000_0000_0040 }

def sumDram : Slip := { wSlip 512 with w0 := 0x90_0000_0000_0200, w4 := 0x2000_0000_0000_0040 }

theorem test_stops :
    (∃ (s : State) (ch : ChanId), s.engOk 0 = true ∧ (s.chan 0 ch).state = .running ∧ (s.chan 0 ch).slip.isSome = true) ∧
    (∃ (s : State) (ch : ChanId), s.engOk 0 = true ∧ (s.chan 0 ch).state = .running ∧ (s.chan 0 ch).slip = none) ∧
    (∃ (s : State) (c : Cmd), s.engOk 0 = true ∧ RegTaken s c 2 (dmaReg 0 6 8) ∧ fld c.arg1 2 0 = 2 ∧
      (s.chan 0 6).state = .running) ∧
    (∃ (s : State) (x : Slip), s.engOk 0 = true ∧ (s.chan 0 6).slip = some x ∧ (s.chan 0 6).busy = true ∧
      (s.chan 0 6).halting = none ∧ s.placePinned (placeOf 0 (s.chan 0 6).cur) 64 = false ∧ (s.chan 0 6).progress.toNat = x.len ∧ (s.chan 0 6).state = .stopping ∧
      x.csum = false) ∧
    (∃ (s : State) (x : Slip), s.engOk 0 = true ∧ (s.chan 0 6).slip = some x ∧ (s.chan 0 6).busy = true ∧
      (s.chan 0 6).halting = none ∧ s.placePinned (placeOf 0 (s.chan 0 6).cur) 64 = false ∧ (s.chan 0 6).progress.toNat = x.len ∧ fld x.w3 63 60 = 15 ∧ x.notify = true ∧
      x.csum = false) ∧
    (∃ (s : State) (x : Slip), s.engOk 0 = true ∧ (s.chan 0 6).slip = some x ∧ (s.chan 0 6).busy = true ∧
      (s.chan 0 6).halting = none ∧ s.placePinned (placeOf 0 (s.chan 0 6).cur) 64 = false ∧ (s.chan 0 6).progress.toNat = x.len ∧ fld x.w3 63 60 = 15 ∧ x.csum = true ∧
      s.placeGone (placeOf 0 x.w4) = false ∧ s.placePinned (placeOf 0 x.w4) 8 = false ∧ s.placeBad (placeOf 0 x.w4) 8 = [] ∧
      ∃ a, placeOf 0 x.w4 = .host a) ∧
    (∃ (s : State) (x : Slip), s.engOk 0 = true ∧ (s.chan 0 6).slip = some x ∧ (s.chan 0 6).busy = true ∧
      (s.chan 0 6).halting = none ∧ s.placePinned (placeOf 0 (s.chan 0 6).cur) 64 = false ∧ (s.chan 0 6).progress.toNat = x.len ∧ fld x.w3 63 60 = 15 ∧ x.csum = true ∧
      (s.chan 0 6).csumSent = true ∧ s.owes 0 6 (placeOf 0 x.w4) = false) ∧
    (∃ (s : State) (x : Slip), s.engOk 0 = true ∧ (s.chan 0 6).busy = true ∧ (s.chan 0 6).slip = some x ∧
      (s.chan 0 6).halting = none ∧ s.owes 0 6 (placeOf 0 x.w2) = false ∧ s.owes 0 6 (placeOf 0 x.w4) = false ∧
      (s.chan 0 6).openBlks = 0 ∧ s.placePinned (placeOf 0 (s.chan 0 6).cur) 64 = false) ∧
    (∃ (s : State) (x : Slip), s.engOk 0 = true ∧ (s.chan 0 6).busy = true ∧ (s.chan 0 6).slip = some x ∧
      (s.chan 0 6).halting = none ∧ (s.chan 0 6).openBlks ≠ 0) ∧
    (∃ (s : State) (ch : ChanId), s.engOk 0 = true ∧ ch.val < 6 ∧ s.job.state = .running ∧ s.job.stepOn = true ∧
      s.int.holding = false ∧ s.int.replay = none ∧ ch = 5 ∧ s.ckpt.drain.isSome = true) :=
  ⟨⟨running6 (wSlip 512) 0, 6, by decide +kernel⟩, ⟨up.modChan 0 5 fun c => { c with state := .running }, 5, by decide +kernel⟩,
   ⟨running6 (wSlip 512) 0, _, by decide +kernel, ctrl6_taken _ 2 (fresh_up _ rfl rfl) (by decide +kernel), by decide +kernel⟩,
   ⟨chan6 fun c => { c with state := .stopping, slip := some (wSlip 512), progress := 512 }, wSlip 512, by decide +kernel⟩,
   ⟨running6 { wSlip 512 with w0 := 0xA0_0000_0000_0200 } 512, { wSlip 512 with w0 := 0xA0_0000_0000_0200 },
     by decide +kernel⟩,
   ⟨running6 sumSlip 512, sumSlip, by decide +kernel, rfl, by decide +kernel, rfl, by decide +kernel, by decide +kernel,
     by decide +kernel, by decide +kernel, by decide +kernel, by decide +kernel, by decide +kernel, 64, by decide +kernel⟩,
   ⟨chan6 fun c => { c with state := .running, slip := some sumDram, progress := 512, csumSent := true }, sumDram,
     by decide +kernel⟩,
   ⟨running6 (wSlip 512) 0, wSlip 512, by decide +kernel⟩,
   ⟨chan6 fun c => { c with state := .running, slip := some (wSlip 512), openBlks := 1 }, wSlip 512, by decide +kernel⟩,
   ⟨((inCharter wCh .running).modJob fun j => { j with stepOn := true }).modCkpt fun k => { k with drain := some wDrain }, 5,
     by decide +kernel⟩⟩

/-! ### A job on engine 0 -/

/-- Reads of SRAM without an error. -/
def clean : SramRead := { store := 0, acc := 0, other := 0, ue := [] }

/-- A layer with a parameter of one page: 16 × 64, one token block. -/
def wLayer : LayerDesc :=
  { (default : LayerDesc) with
    arrKind := 1, k := 16, n := 64, m := 16, mTile := 16, nw := 64, accKeep := true, accSlots := 1, paramId := 5
    wAddr := 0x10000, xAddr := 0x20000 }

def wShard : ShardEnt :=
  { (default : ShardEnt) with shard := 9, group := 3, engine := 0, owner := 0, mirror := 0xFFF, paramFirst := 0, params := 1 }

def wParam : ParamRec := { paramId := 5, denW := 0, nw := 64, k := 16, n := 64, page := 0, wscale := 0x3F80_0000 }

def wHome : HomeRec :=
  { paramId := 5, engine := 0, nw := 64, k := 16, n := 64, accRow := 0, accBands := 0, vault := 0, block := 100 }

/-- An IN end that opens micro-batches, and an OUT end, of engine 0. -/
def wIn : TillEnd :=
  { (default : TillEnd) with
    engine := 0, till := 1, opens := true, link := 1, depth := 2, credits := 2, msgBytes := 4096, addr := 0x30000 }

def wOut : TillEnd :=
  { (default : TillEnd) with
    engine := 0, till := 2, isOut := true, link := 1, depth := 2, msgBytes := 4096, addr := 0x10000, odLimit := 1 }

def wPlane : PlaneCfg :=
  { (default : PlaneCfg) with
    engMap := [{ role := 1, stage := 0, layerFirst := 0, layerLast := 1, pool := 0, poolPages := 64 }]
    tills := [wIn, wOut]
    layers := { descs := [wLayer, { wLayer with paramId := 0 }], tds := [], instrs := [] } }

def wJob : Charter :=
  { wCh with
    plane := [wPlane, default], denom := [dFp32 true]
    shards := { (default : Shards) with normPartials := 1, entries := [wShard], params := [wParam], homes := [wHome] }
    faults := { (default : Faults) with replayLimit := 3, strikeDecay := 1, actions := [.report, .report, .report, .hold] } }

def row (op : Byte) (a b c : W16) : SchedRow := { (default : SchedRow) with op := op, argA := a, argB := b, argC := c }

/-- A step runs, and engine 0 stands at a row; f changes the engine. -/
def onRow (r : SchedRow) (f : Engine → Engine) : State :=
  ((inCharter wJob .running).modJob fun j => { j with stepOn := true }).modEng 0 fun x => f { x with
    table0 := some { engine := 0, stashed := false, floatLimit := 2, versionDepth := 1, entry := 0, rows := [r] }
    seq := { x.seq with running := true } }

theorem test_counter_rows :
    (∃ (r : SchedRow) (s : State), s.rowAt 0 0x00 = some r) ∧ (∃ (r : SchedRow) (s : State), s.rowAt 0 0x01 = some r) ∧
    (∃ (r : SchedRow) (s : State), s.rowAt 0 0x02 = some r) :=
  ⟨⟨row 0 0 0 0, onRow (row 0 0 0 0) id, by decide +kernel⟩, ⟨row 1 7 9 0, onRow (row 1 7 9 0) id, by decide +kernel⟩,
   ⟨row 2 7 9 0, onRow (row 2 7 9 0) id, by decide +kernel⟩⟩

/-- The CURRENT version of the shard, its map in pool page 1, which names pool page 0. -/
def wCurrent : LedgerEntry :=
  { LedgerEntry.empty with state := .current, shard := 9, pages := 1, mapPages := [1] }

def zeros : List Byte := List.replicate 4096 0

/-- The pool's page 0 holds zeros under their hallmark. -/
def zeroPool (s : State) : State :=
  s.modCtl (.vault 0) fun c => { c with sides := [(0, mkSide (crc32c zeros) 2 false 0 noMb 9 0 0)] }

theorem bytes_nil (c : CtlSt) (a n : Nat) (m : c.merge = []) (d : c.data = []) : c.bytes a n = List.replicate n 0 := by
  induction n generalizing a with
  | zero => rfl
  | succ n ih => rw [CtlSt.bytes, ih, List.replicate_succ]; simp [CtlSt.byte, m, d, memGet, memUnlisted]

/-- A page of a controller that nothing has written, under the sideband that its list gives. -/
theorem readPage_zero (s : State) (c : CtlId) (p : Nat) (x : Sideband) (k : s.coverKey c p = none) (m : (s.ctl c).merge = [])
    (d : (s.ctl c).data = []) (h : (s.ctl c).side p = x) : s.readPage c p = (zeros, x) := by
  simp only [State.readPage, k, h, bytes_nil _ _ _ m d, zeros]

/-- A job with the shard's version in the pool, engine 0 at a row. -/
def withVersion (r : SchedRow) (f : Engine → Engine) : State :=
  zeroPool (onRow r fun x => f { x with led := { x.led with entries := [(0, wCurrent)] } })

theorem test_service_rows :
    (∃ (r : SchedRow) (s : State) (d : LayerDesc) (x : ShardEnt) (p : ParamRec) (c : Nat × LedgerEntry),
      s.rowAt 0 0x10 = some r ∧ s.layer r.argA.toNat = some d ∧ s.paramShard 0 d.paramId = some (x, p) ∧
      (s.eng[0]).current x.shard = some c ∧ (s.eng[0]).led.loads = [] ∧ (s.eng[0]).seq.pass = none ∧
      s.pinned 0 (s.statRegion d p) = false ∧
      (∀ q ∈ c.2.mapPages, s.ctlOk (s.poolLoc 0 q).1 = true ∧ s.pageGood (s.poolLoc 0 q).1 (s.poolLoc 0 q).2 = true) ∧
      (s.eng[0]).ledger c.1 = c.2 ∧ s.layerSlips 0 d p c.1 ≠ [] ∧
      ∀ k ∈ s.layerSlips 0 d p c.1, s.ctlOk k.1 = true ∧ s.pageGood k.1 k.2.1 = true ∧
        hallmarkOk (s.readPage k.1 k.2.1).2 (s.readPage k.1 k.2.1).1 = true) ∧
    (∃ (r : SchedRow) (s : State) (d : LayerDesc), s.rowAt 0 0x10 = some r ∧ s.layer r.argA.toNat = some d ∧
      s.paramShard 0 d.paramId = none) ∧
    (∃ (r : SchedRow) (s : State) (d : LayerDesc) (x : ShardEnt) (p : ParamRec) (c : Nat × LedgerEntry),
      s.rowAt 0 0x10 = some r ∧ s.layer r.argA.toNat = some d ∧ s.paramShard 0 d.paramId = some (x, p) ∧
      (s.eng[0]).current x.shard = some c ∧ (s.eng[0]).led.loads = [] ∧ (s.eng[0]).seq.pass = none ∧
      s.pinned 0 (s.statRegion d p) = true) ∧
    (∃ (r : SchedRow) (s : State), s.rowAt 0 0x30 = some r ∧ (s.eng[0]).arr.homeFlight = [] ∧
      ∀ x ∈ s.clearShards 0 r.argA.toNat, (s.env.clr[(clrUnit 0).val]).record s.curStep x.shard = none) ∧
    (∃ (r : SchedRow) (s : State), s.rowAt 0 0x31 = some r) ∧
    (∃ (r : SchedRow) (s : State) (i : Nat) (x : LedgerEntry), s.rowAt 0 0x32 = some r ∧
      (i, x) ∈ (s.eng[0]).led.entries ∧
      ((s.shardsOf 0).any fun y => y.group == r.argA.toNat && y.shard == x.shard) = true ∧ x.state = .ready ∧
      x.created = s.curStep) ∧
    (∃ (r : SchedRow) (s : State), s.rowAt 0 0x3F = some r ∧ (s.eng[0]).led.loads = [] ∧
      ∀ tb, s.table 0 = some tb → tb.stashed = true ∨ (s.eng[0]).float = []) := by
  refine ⟨⟨row 0x10 0 0 0, withVersion (row 0x10 0 0 0) id, wLayer, wShard, wParam, (0, wCurrent), by decide +kernel,
      by decide +kernel, by decide +kernel, by decide +kernel, by decide +kernel, by decide +kernel, by decide +kernel,
      ?_, by decide +kernel, by decide +kernel, ?_⟩,
    ⟨row 0x10 1 0 0, onRow (row 0x10 1 0 0) id, { wLayer with paramId := 0 }, by decide +kernel⟩,
    ⟨row 0x10 0 0 0, withVersion (row 0x10 0 0 0) fun x => { x with tills := x.tills.set 2 { TillSt.init with
        outs := [default] } }, wLayer, wShard, wParam, (0, wCurrent), by decide +kernel⟩,
    ⟨row 0x30 3 0 0, onRow (row 0x30 3 0 0) id, by decide +kernel, by decide +kernel, fun x _ => rfl⟩,
    ⟨row 0x31 0 3 0, onRow (row 0x31 0 3 0) id, by decide +kernel⟩,
    ⟨row 0x32 3 0 0, onRow (row 0x32 3 0 0) fun x => { x with led := { x.led with
        entries := [(1, { wCurrent with state := .ready, created := 1 })] } }, 1, _, by decide +kernel,
      List.mem_singleton.2 rfl, by decide +kernel, rfl, by decide +kernel⟩,
    ⟨row 0x3F 0 0 0, onRow (row 0x3F 0 0 0) id, by decide +kernel, by decide +kernel, fun _ _ => .inr (by decide +kernel)⟩⟩
  · intro q hq
    obtain rfl : q = 1 := by simpa [wCurrent] using hq
    decide +kernel
  intro k hk
  obtain ⟨a, b⟩ : k.1 = .vault 0 ∧ k.2.1 = 0 := by revert k; decide +kernel
  rw [a, b]
  refine ⟨by decide +kernel, by decide +kernel, ?_⟩
  rw [readPage_zero _ (.vault 0) 0 (mkSide (crc32c zeros) 2 false 0 noMb 9 0 0) rfl rfl rfl rfl]
  exact hallmarkOk_mkSide _ _ _ _ _ _ _ _ _ rfl

/-- A complete message that opens a micro-batch, at the IN end, and what the row's counter names. -/
def wMsg : MsgIn := { (default : MsgIn) with seqNo := 0, origin := 1, mb := 0, slot := some 0, complete := true }

def wFloat : FloatEntry := { mb := 0, origin := 1, claims := [], vers := [], exiting := false }

theorem test_till_rows :
    (∃ (r : SchedRow) (c : TillEnd) (s : State) (m : MsgIn), r.argA.toNat < 64 ∧ s.tillCfg 0 r.argA.toNat = some c ∧
      s.rowAt 0 0x11 = some r ∧ (s.till 0 c.till).head = some m ∧ m.mb = s.rowMb 0 r ∧
      (s.eng[0]).led.loads = [] ∧ c.opens = true ∧
      s.floatFull 0 = false ∧ m.origin = s.curStep) ∧
    (∃ (r : SchedRow) (c : TillEnd) (s : State) (m : MsgIn) (f : FloatEntry), r.argA.toNat < 64 ∧
      s.tillCfg 0 r.argA.toNat = some c ∧ s.rowAt 0 0x11 = some r ∧ (s.till 0 c.till).head = some m ∧ m.mb = s.rowMb 0 r ∧
      c.opens = false ∧ (s.eng[0]).entry m.mb = some f ∧ f.origin = m.origin) ∧
    (∃ (r : SchedRow) (c : TillEnd) (s : State) (f : FloatEntry), r.argA.toNat < 64 ∧
      s.tillCfg 0 r.argA.toNat = some c ∧ s.rowAt 0 0x12 = some r ∧ (s.eng[0]).entry (s.rowMb 0 r) = some f ∧
      (s.till 0 c.till).state = 1 ∧ (s.eng[0]).led.loads = [] ∧ s.sourceBad 0 c clean = [] ∧ s.tillPeerLost c = false ∧ (s.till 0 c.till).credits ≠ 0 ∧ s.tillPeerReady c = true ∧
      (s.till 0 c.till).outOf s.curStep f.origin f.mb = none ∧ c.path ≠ .host) ∧
    (∃ (r : SchedRow) (c : TillEnd) (s : State), r.argA.toNat < 64 ∧ s.tillCfg 0 r.argA.toNat = some c ∧
      s.rowAt 0 0x12 = some r ∧ c.odLimit ≠ 0 ∧ (s.eng[0]).seq.wait = 2) :=
  ⟨⟨row 0x11 1 0 0, wIn, onRow (row 0x11 1 0 0) fun x => { x with tills := x.tills.set 1 { TillSt.init with
      state := 1, msgs := [wMsg] } }, wMsg, by decide +kernel⟩,
   ⟨row 0x11 1 0 0, { wIn with opens := false },
      (onRow (row 0x11 1 0 0) fun x => { x with float := [wFloat], tills := x.tills.set 1 { TillSt.init with
        state := 1, msgs := [wMsg] } }).modJob fun j => { j with
          charter := some { wJob with plane := [{ wPlane with tills := [{ wIn with opens := false }] }, default] } },
      wMsg, wFloat, by decide +kernel⟩,
   ⟨row 0x12 2 0 0, wOut, onRow (row 0x12 2 0 0) fun x => { x with float := [wFloat], tills := x.tills.set 2 { TillSt.init with
      state := 1, credits := 1 } }, wFloat, by decide +kernel⟩,
   ⟨row 0x12 2 0 0, wOut, onRow (row 0x12 2 0 0) fun x => { x with seq := { x.seq with wait := 2 } }, by decide +kernel⟩⟩

/-- The micro-batch has its version noted, and layer 0's parameters are resident. -/
def wUsed : FloatEntry := { wFloat with vers := [(9, 0)] }

def onPass (r : SchedRow) : State :=
  withVersion r fun x => { x with float := [wUsed], led := { x.led with residency := [(0, 0)] } }

theorem test_passes :
    (∃ (r : SchedRow) (f : FloatEntry) (d : LayerDesc) (rest : List Nat) (s : State) (x : ShardEnt) (p : ParamRec)
        (v : BitVec 24 × Nat), s.rowAt 0 (passOp .fwd) = some r ∧ (s.eng[0]).seq.pass = none ∧ (s.eng[0]).seq.wait = 0 ∧
      (s.eng[0]).led.loads = [] ∧ (s.eng[0]).entry (s.rowMb 0 r) = some f ∧ s.stepsBack f.origin ≤ 31 ∧
      s.reloadsFor 0 f .fwd r.argA.toNat r.argC.toNat = [] ∧ passLayers .fwd r = 0 :: rest ∧ s.layer 0 = some d ∧
      d.arrKind ≠ 0 ∧ s.paramShard 0 d.paramId = some (x, p) ∧ (f.vers.find? fun v => v.1 == x.shard) = some v ∧
      (s.eng[0]).resident 0 v.2 = true ∧
      s.storesPinned 0 { kind := .fwd, mb := s.rowMb 0 r, origin := f.origin, layers := 0 :: rest, begun := false, due := []
                         take := [], reloads := [], top := r.argC.toNat } 0 d = false ∧ fwdTiles 0 d .fwd ≠ []) ∧
    (∃ (r : SchedRow) (f : FloatEntry) (d : LayerDesc) (rest : List Nat) (s : State),
      s.rowAt 0 (passOp .bwd) = some r ∧ (s.eng[0]).seq.pass = none ∧ (s.eng[0]).seq.wait = 0 ∧
      (s.eng[0]).led.loads = [] ∧ (s.eng[0]).entry (s.rowMb 0 r) = some f ∧ s.stepsBack f.origin ≤ 31 ∧
      s.reloadsFor 0 f .bwd r.argA.toNat r.argC.toNat = [] ∧ passLayers .bwd r = 1 :: rest ∧ s.layer 1 = some d ∧
      d.arrKind ≠ 0 ∧ d.paramId = 0 ∧
      s.storesPinned 0 { kind := .bwd, mb := s.rowMb 0 r, origin := f.origin, layers := 1 :: rest, begun := false, due := []
                         take := [], reloads := [], top := r.argC.toNat } 1 d = false ∧
      d.rowOp = 0 ∧ d.preLen = 0 ∧ bwdTiles 1 d (s.seqMode 0 d) ≠ []) ∧
    (∃ (r : SchedRow) (f : FloatEntry) (d : LayerDesc) (rest : List Nat) (s : State),
      s.rowAt 0 (passOp .recomp) = some r ∧ (s.eng[0]).seq.pass = none ∧ (s.eng[0]).seq.wait = 0 ∧
      (s.eng[0]).led.loads = [] ∧ (s.eng[0]).entry (s.rowMb 0 r) = some f ∧ s.stepsBack f.origin ≤ 31 ∧
      s.reloadsFor 0 f .recomp r.argA.toNat r.argC.toNat = [] ∧ passLayers .recomp r = 1 :: rest ∧ s.layer 1 = some d ∧
      d.arrKind ≠ 0 ∧ s.paramShard 0 d.paramId = none ∧
      s.storesPinned 0 { kind := .recomp, mb := s.rowMb 0 r, origin := f.origin, layers := 1 :: rest, begun := false, due := []
                         take := [], reloads := [], top := r.argC.toNat } 1 d = false ∧ fwdTiles 1 d .recomp ≠ []) :=
  ⟨⟨row 0x20 0 0 1, wUsed, wLayer, [1], onPass (row 0x20 0 0 1), wShard, wParam, (9, 0), by decide +kernel⟩,
   ⟨row 0x21 0 0 1, wUsed, { wLayer with paramId := 0 }, [0], onPass (row 0x21 0 0 1), by decide +kernel⟩,
   ⟨row 0x22 1 0 1, wUsed, { wLayer with paramId := 0 }, [], onPass (row 0x22 1 0 1), by decide +kernel⟩⟩

def wPass (due take : List TileKey) (begun : Bool) : Pass :=
  { kind := .fwd, mb := 0, origin := 1, layers := [0], begun := begun, due := due, take := take, reloads := [], top := 0 }

def wReady : LedgerEntry := { wCurrent with state := .ready, version := 1 }

theorem test_promotion :
    ∃ (s : State) (r : SchedRow) (f : FloatEntry) (d : LayerDesc) (p : Pass) (x : ShardEnt) (g : ParamRec)
      (c y : Nat × LedgerEntry), s.rowAt 0 0x20 = some r ∧ (s.eng[0]).seq.pass = some p ∧ p.kind = .fwd ∧ p.begun = false ∧
      p.layers = [0] ∧ (s.eng[0]).seq.wait = 4 ∧ s.layer 0 = some d ∧ d.paramId ≠ 0 ∧
      s.paramShard 0 d.paramId = some (x, g) ∧ (s.eng[0]).entry p.mb = some f ∧
      (f.vers.find? fun v => v.1 == x.shard) = none ∧ x.frozen = false ∧ (s.eng[0]).current x.shard = some c ∧
      older c.2.version s.wantVersion = true ∧
      (((s.eng[0]).versions x.shard).find? fun y => y.2.state == .ready && y.2.version == s.wantVersion) = some y ∧
      (s.eng[0]).ledger y.1 = y.2 ∧ (s.eng[0]).resident 0 y.1 = true ∧ s.storesPinned 0 p 0 d = false ∧ d.arrKind ≠ 0 ∧
      fwdTiles 0 d .fwd ≠ [] :=
  ⟨(onRow (row 0x20 0 0 0) fun x => { x with
      float := [wFloat], seq := { x.seq with wait := 4, pass := some (wPass [] [] false) }
      led := { x.led with entries := [(0, wCurrent), (1, wReady)], residency := [(0, 1)] } }).modUpd fun u => { u with due := 1 },
   row 0x20 0 0 0, wFloat, wLayer, wPass [] [] false, wShard, wParam, (0, wCurrent), (1, wReady), by decide +kernel⟩

def wTile : TileKey := { layer := 0, kind := .fwd, i := 0, j := 0, chunk := 0, arr := .a }

/-- A job whose layer 0 has one element. -/
def oneElem : Charter :=
  { wJob with plane := [{ wPlane with layers := { descs := [{ wLayer with k := 1, n := 1, m := 1, mTile := 1, nw := 1 }], tds := [], instrs := [] } }, default] }

theorem test_tiles :
    (∃ (s : State) (ps : Pass) (k : TileKey) (rest : List TileKey) (d : LayerDesc) (w : ArrId),
      (s.eng[0]).seq.pass = some ps ∧ ps.due = k :: rest ∧ s.layer k.layer = some d ∧ (s.eng[0]).arr.holder k = some w ∧
      s.slotFree 0 k (s.plan 0 ps d k) = true ∧ (s.tileReads 0 (s.plan 0 ps d k) clean).1 = [] ∧ queued d k = true ∧
      (s.eng[0]).seq.spoiled.contains (k.layer, (s.plan 0 ps d k).accRow) = false ∧
      (s.attempt 0 k (s.plan 0 ps d k) (((s.finishBlocks 0 w).eng[0]).arr.arr w).met (faultsOf [] 0)).fail = false) ∧
    (∃ (s : State) (r : SchedRow) (p : Pass) (k k' : TileKey) (rest : List TileKey) (ls : List Nat) (d d' : LayerDesc)
        (c : ClosedTile), s.rowAt 0 (passOp p.kind) = some r ∧ (s.eng[0]).seq.pass = some p ∧ p.take = k :: k' :: rest ∧
      p.begun = true ∧ p.layers = 0 :: ls ∧ s.layer 0 = some d' ∧ s.layer k.layer = some d ∧ (s.eng[0]).led.loads = [] ∧
      (s.envOf 0 []).sram.ue = [] ∧ (s.envOf 0 []).mism = [] ∧ (s.eng[0]).badWords = [] ∧
      ((s.eng[0]).arr.queue.find? fun c => sameTile k c p.mb) = some c ∧ (s.eng[0]).arr.waiting = []) :=
  ⟨⟨(onRow (row 0x20 0 0 0) fun x => { x with
      float := [wFloat], seq := { x.seq with pass := some (wPass [wTile] [wTile] true) }
      arr := { x.arr with a := { x.arr.a with tile := some wTile } } }).modJob fun j => { j with
        charter := some oneElem },
      wPass [wTile] [wTile] true, wTile, [], { wLayer with k := 1, n := 1, m := 1, mTile := 1, nw := 1 }, .a,
      by decide +kernel⟩,
   ⟨onRow (row 0x20 0 0 0) fun x => { x with
      float := [wFloat], seq := { x.seq with pass := some (wPass [] [wTile, { wTile with j := 1 }] true) }
      arr := { x.arr with queue := [{ key := wTile, mb := 0, record := Rec4.zero }] } },
      row 0x20 0 0 0, wPass [] [wTile, { wTile with j := 1 }] true, wTile, { wTile with j := 1 }, [], [], wLayer, wLayer,
      { key := wTile, mb := 0, record := Rec4.zero }, by decide +kernel⟩⟩

/-- A band of engine 0's parameter on its way to its vault. -/
def wSent (k : Nat) (ws : List W32) : HomeBand := { param := 5, band := k, data := ws, slot := none, mb := 0, record := Rec4.zero }

theorem length_wordBytes (n : Nat) (x : W32) : (wordBytes (List.replicate n x)).length = 4 * n := by
  simp [wordBytes, List.length_flatMap, length_toBytes, Nat.mul_comm]

/-- The band of the witnesses as it arrives, and where it goes. -/
structure BandComes (s : State) (h : HomeRec) (c : CtlId) (page : Nat) (b : HomeBand) (data : Bytes) : Prop where
  home : s.homeRec 0 5 = some h
  place : h.place 0 b.band = (c, page)
  first : s.firstBand 0 c = some b
  param : b.param = 5
  ok : s.ctlOk c = true
  sound : s.Sound

theorem test_bands :
    (∃ (data : Bytes) (s : State) (h : HomeRec) (c : CtlId) (page : Nat) (b : HomeBand), BandComes s h c page b data ∧
      data = (none : Option Bytes).getD (wordBytes b.data) ∧ data.length = 4096 ∧ s.coverKey c page = none ∧
      (s.ctl c).merge.length < 64 ∧ s.isTouched 0 5 b.band = false) ∧
    (∃ (data : Bytes) (s : State) (h : HomeRec) (c : CtlId) (page : Nat) (b : HomeBand), BandComes s h c page b data ∧
      data = (none : Option Bytes).getD (wordBytes b.data) ∧ data.length = 4096 ∧ s.coverKey c page = none ∧
      (s.ctl c).merge.length < 64 ∧ s.isTouched 0 5 b.band = true ∧ (s.ctl c).badIn c (page * 4096) 4096 [] = [] ∧
      hallmarkOk (s.readPage c page).2 (s.readPage c page).1 = true) ∧
    (∃ (data : Bytes) (s : State) (h : HomeRec) (c : CtlId) (page : Nat) (b : HomeBand), BandComes s h c page b data ∧
      data = (some data).getD (wordBytes b.data) ∧ crc32c data ≠ crc32c (wordBytes b.data) ∧ s.job.state = .running ∧
      s.job.stepOn = true ∧ s.int.holding = false ∧ s.int.replay = none) := by
  have A : ∀ f, (inCharter wJob .running).Sound ∧ ((inCharter wJob .running).modArr 0 fun x => { x with
      homeFlight := f, touched := [(5, 1)] }).Sound :=
    fun f => ⟨sound_of up_sound, State.modArr_sound _ _ _ (sound_of up_sound) fun _ h => h⟩
  refine ⟨⟨_, (inCharter wJob .running).modArr 0 fun x => { x with homeFlight := [wSent 0 (List.replicate 1024 0)] }, wHome,
      .vault 0, 100, wSent 0 (List.replicate 1024 0), ⟨by decide +kernel, by decide +kernel, by decide +kernel, rfl,
        by decide +kernel, State.modArr_sound _ _ _ (sound_of up_sound) fun _ h => h⟩, rfl, length_wordBytes _ _,
      by decide +kernel, by decide +kernel, by decide +kernel⟩,
    ⟨_, ((inCharter wJob .running).modArr 0 fun x => { x with
        homeFlight := [wSent 1 (List.replicate 1024 0)], touched := [(5, 1)] }).modCtl (.vault 0) fun c =>
      { c with sides := [(101, mkSide (crc32c zeros) 3 false 1 noMb 5 1 0)] }, wHome, .vault 0, 101,
      wSent 1 (List.replicate 1024 0), ⟨by decide +kernel, by decide +kernel, by decide +kernel, rfl, by decide +kernel, ?_⟩,
      rfl, length_wordBytes _ _, by decide +kernel, by decide +kernel, by decide +kernel, by decide +kernel, ?_⟩,
    ⟨[1], (onRow (row 0 0 0 0) id).modArr 0 fun x => { x with homeFlight := [wSent 0 []] }, wHome, .vault 0, 100, wSent 0 [],
      ⟨by decide +kernel, by decide +kernel, by decide +kernel, rfl, by decide +kernel, ?_⟩, rfl, by decide +kernel, rfl, rfl,
      rfl, rfl⟩⟩
  · exact State.modCtl_sound _ _ _ (A _).2 fun _ h => ⟨h.1, h.2⟩
  · rw [readPage_zero _ (.vault 0) 101 (mkSide (crc32c zeros) 3 false 1 noMb 5 1 0) rfl rfl rfl rfl]
    exact hallmarkOk_mkSide _ _ _ _ _ _ _ _ _ rfl
  · exact State.modArr_sound _ _ _ (State.modEng_sound _ _ _ (sound_of up_sound) fun _ h => ⟨h.1, h.2, h.3, h.4, h.5⟩)
      fun _ h => h

theorem test_quarantine :
    (∃ (u : Unit5) (s : State), ((s.eng[0]).unit u).quarantined = false ∧ u ≠ .arrayA ∧ u ≠ .arrayB) ∧
    (∃ s : State, ((s.eng[0]).unit .arrayA).quarantined = false ∧ (s.eng[0]).arr.b.quar = false) ∧
    (∃ s : State, ((s.eng[0]).unit .arrayA).quarantined = false ∧ (s.eng[0]).arr.b.quar = true) ∧
    (∃ (u : Unit5) (s : State) (f : Faults), s.faults = some f ∧ f.strikeDecay ≠ 0 ∧ 0 < ((s.eng[0]).unit u).strikes ∧
      ((s.eng[0]).unit u).quarantined = false ∧
      f.strikeDecay * 1024 ≤ s.curStep.toNat - ((s.eng[0]).unit u).since.toNat) :=
  ⟨⟨.vector, up, by decide +kernel⟩, ⟨up, by decide +kernel⟩,
   ⟨up.modArr 0 fun x => { x with b := { x.b with quar := true } }, by decide +kernel⟩,
   ⟨.vector, ((inCharter wJob .running).modJob fun j => { j with step := 1024 }).modEngInt 0 fun x => { x with
      units := Vector.replicate 5 { UnitSt.init with strikes := 1 } }, wJob.faults, by decide +kernel⟩⟩

/-! ### Runs of programs -/

/-- A stage-store tensor of one row of 64 columns, and a home. -/
def wTd : TensorDesc :=
  { (default : TensorDesc) with kind := 1, den := 6, addr := 0x50000, rows := 1, cols := 64, rowStride := 256 }

def wHomeTd : TensorDesc := { (default : TensorDesc) with kind := 3, den := 6, paramId := 5, rows := 16, cols := 64 }

/-- A job whose layer 0 has a program that begins with a load of descriptor 0. -/
def vecJob : Charter :=
  { wJob with
    denom := List.replicate 7 (dFp32 true) ++ [dFp64 true]
    plane := [{ wPlane with layers := { descs := [{ wLayer with fwdLen := 1 }], tds := [wTd, wHomeTd], instrs := [0x3800_0000_0000_0000] } }, default] }

def onRun : State := inCharter vecJob .running

def vecR (imm : Option W32) (m : Mismatch) : VecR :=
  { engine := 0, ty := 0, dst := 63, a := 1, b := 2, c := 3, imm := imm, mismatch := m, depWait := 0 }

def vecM (td : Fin 16) : VecM := { engine := 0, reg := 63, idx := 1, td := td, site := 4, sram := clean, mismatch := 0, depWait := 0 }

theorem test_vector :
    (∃ (i : VecR) (s : State) (l : Nat) (rc : Nat × Nat), (s.eng[i.engine.val]).vec.vr.wf ∧
      (i.mismatch = 0 ∨ bitAt (s.eng[i.engine.val]).vec.duplex 0 = false) ∧
      (l, some rc) ∈ (s.runCtx i.engine).lanes s i.ty) ∧
    (∃ (i : VecR) (s : State) (l : Nat), (s.eng[i.engine.val]).vec.vr.wf ∧
      (i.mismatch = 0 ∨ bitAt (s.eng[i.engine.val]).vec.duplex 0 = false) ∧ (l, none) ∈ (s.runCtx i.engine).lanes s i.ty) ∧
    (∃ (i : VecM) (s : State) (td : TensorDesc) (l : Nat) (rc : Nat × Nat), i.sram.ue = [] ∧ (s.eng[i.engine.val]).badWords = [] ∧
      (i.mismatch = 0 ∨ bitAt (s.eng[i.engine.val]).vec.duplex 0 = false) ∧
      ((s.runCtx i.engine).d.bind fun d => s.td d i.td.val) = some td ∧ (s.eng[i.engine.val]).vec.vr.wf ∧
      (l, some rc) ∈ (s.runCtx i.engine).lanes s (s.runCtx i.engine).ty ∧ (s.runCtx i.engine).storeOn td = true ∧
      (td.kind = 3 → ∀ h, s.homeRec i.engine.val td.paramId = some h → ∀ band : Nat,
        s.ctlOk (h.place i.engine band).1 = true ∧ s.pageGood (h.place i.engine band).1 (h.place i.engine band).2 = true) ∧
      td.kind = 1 ∧ td.den = typeDen (s.runCtx i.engine).ty ∧ (s.denom td.den).isBlock = false) ∧
    (∃ (i : VecM) (s : State) (td : TensorDesc) (h : HomeRec) (l n : Nat) (rc : Nat × Nat), i.sram.ue = [] ∧ (s.eng[i.engine.val]).badWords = [] ∧
      (i.mismatch = 0 ∨ bitAt (s.eng[i.engine.val]).vec.duplex 0 = false) ∧
      ((s.runCtx i.engine).d.bind fun d => s.td d i.td.val) = some td ∧ s.homeRec i.engine.val td.paramId = some h ∧
      (s.eng[i.engine.val]).acc.wf ∧ (l, some rc) ∈ (s.runCtx i.engine).lanes s (s.runCtx i.engine).ty ∧
      n = (s.eng[i.engine.val]).vec.lane i.idx.val (s.runCtx i.engine).ty l ∧ n < h.n ∧
      ((s.runCtx i.engine).coord td rc).2 < h.k) ∧
    (∃ (i : VecM) (s : State) (td q : TensorDesc) (op : RedOp) (rc : Nat × Nat) (y : Sys2Proof.Machine.Num), i.sram.ue = [] ∧ (s.eng[i.engine.val]).badWords = [] ∧
      (i.mismatch = 0 ∨ bitAt (s.eng[i.engine.val]).vec.duplex 0 = false) ∧
      ((s.runCtx i.engine).d.bind fun d => s.td d i.td.val) = some td ∧ (s.runCtx i.engine).byTile = false ∧
      (s.runCtx i.engine).drv = some q ∧ ceilDiv q.cols (laneCount (s.runCtx i.engine).ty) = 1 ∧
      (((s.runCtx i.engine).lanes s (s.runCtx i.engine).ty).findSome? fun x => x.2) = some rc ∧
      (redTree (op.join (s.redFmt op (s.runCtx i.engine).ty)) 9 (((s.runCtx i.engine).lanes s (s.runCtx i.engine).ty).map fun x => x.2.map fun _ =>
        (op.bring (s.redFmt op (s.runCtx i.engine).ty) ((s.vecDenom (s.runCtx i.engine).ty).decode
          ((s.eng[i.engine.val]).vec.lane i.reg.val (s.runCtx i.engine).ty x.1))).val)).1 = some y ∧
      ((s.eng[i.engine.val]).vec.red.any fun x => x.1 == 256 + ((0x3C + redCode op) * 16 + i.td.val) && x.2.1 == rc.1) = false ∧
      ((s.runCtx i.engine).coord td rc).1 < td.rows ∧ 0 < td.cols ∧ (s.denom td.den).isBlock = false) :=
  ⟨⟨vecR none 0, onRun, 63, (0, 63), by decide +kernel⟩, ⟨vecR (some 5) 0, onRun, 64, by decide +kernel⟩,
   ⟨vecM 0, onRun, wTd, 63, (0, 63), by decide +kernel, by decide +kernel, by decide +kernel, by decide +kernel, by decide +kernel,
     by decide +kernel, by decide +kernel, fun h => absurd h (by decide), by decide +kernel⟩, ⟨vecM 1, onRun, wHomeTd, wHome, 15, 0, (0, 15), by decide +kernel⟩,
   ⟨vecM 0, onRun, wTd, wTd, .sum, (0, 0), .fin false 0 0, by decide +kernel⟩⟩

/-! ### Boundaries, audits, assays, replay -/

/-- A step that every engine has retired. -/
def atEnd (f : Engine → Engine) : State := onRow (row 0x3F 0 0 0) fun x => f { x with seq := { x.seq with retired := true } }

def readings : Readings := { power := 0, peak := 0, volts := 0, temps := [] }

theorem test_boundary :
    (∃ s : State, s.boundaryReady = true ∧ s.depthBreach = false ∧ s.glb.bursarUp = true ∧ s.job.runLeft = some 1 ∧
      s.job.pendPause = none ∧ s.ckpt.toTake = []) ∧
    (∃ s : State, s.boundaryReady = true ∧ s.depthBreach = true) :=
  ⟨⟨(atEnd id).modJob fun j => { j with runLeft := some 1 }, by decide +kernel⟩,
   ⟨atEnd fun x => { x with led := { x.led with entries := [(0, wCurrent), (1, { wCurrent with state := .retired, refcount := 1 })] } },
     by decide +kernel⟩⟩

/-- Every step is audited, and engine 0 has run one program. -/
def auditing : State :=
  (onRow (row 0 0 0 0) fun x => { x with seq := { x.seq with runs := [{ row := false, crc := 7 }] } }).modJob fun j => { j with
    charter := some { wJob with faults := { wJob.faults with auditN := 1 } } }

theorem test_audits :
    (∃ (r : AuditRun) (s : State), s.auditDue r = true ∧ (s.int.auditVotes.any fun v => v.1 == r) = false ∧
      (none : Option W32).getD (s.runDone r).crc = (none : Option W32).getD (s.runDone r).crc) ∧
    (∃ (r : AuditRun) (s : State) (ab : Option W32), s.auditDue r = true ∧ (s.int.auditVotes.any fun v => v.1 == r) = false ∧
      ab.getD (s.runDone r).crc ≠ (none : Option W32).getD (s.runDone r).crc) ∧
    (∃ (r : AuditRun) (s : State) (b : EngineId) (ab tb : Option W32) (a o : W32), a = ab.getD (s.runDone r).crc ∧
      o = (none : Option W32).getD (s.runDone r).crc ∧ s.auditorOf r.engine = some b ∧
      (s.int.auditVotes.find? fun y => y.1 == r) = some (r, a, o) ∧ (s.thirdEngine r.engine b).isSome = true ∧ a ≠ o ∧
      tb.getD (s.runDone r).crc = a) ∧
    (∃ (r : AuditRun) (s : State) (b : EngineId) (ab tb : Option W32) (a o : W32), a = ab.getD (s.runDone r).crc ∧
      o = (none : Option W32).getD (s.runDone r).crc ∧ s.auditorOf r.engine = some b ∧
      (s.int.auditVotes.find? fun y => y.1 == r) = some (r, a, o) ∧ (s.thirdEngine r.engine b).isSome = true ∧ a ≠ o ∧
      tb.getD (s.runDone r).crc = o) :=
  ⟨⟨⟨0, 0⟩, auditing, by decide +kernel⟩, ⟨⟨0, 0⟩, auditing, some 1, by decide +kernel⟩,
   ⟨⟨0, 0⟩, auditing.modInt fun x => { x with auditVotes := [(⟨0, 0⟩, 1, 7)] }, 1, some 1, some 1, 1, 7, by decide +kernel⟩,
   ⟨⟨0, 0⟩, auditing.modInt fun x => { x with auditVotes := [(⟨0, 0⟩, 1, 7)] }, 1, some 1, none, 1, 7, by decide +kernel⟩⟩

/-- An assay image is loaded, and engine 0 has an area. -/
def assaying (j : JState) (sealed : Bool) : State :=
  ((inCharter { wJob with
      sealed := sealed
      faults := { wJob.faults with engines := [{ duplex := 0, noAudit := false, assayValid := true, assayAddr := 0 }] } } j).modInt
    fun x => { x with assay := some { image := [], id := 1, units := 2, budget := 5 }, assayCfg := 0x1_0001_0001 })

theorem test_assays :
    (∃ (r : AssayResult) (g : Assay) (base m : Nat) (us : List Unit5) (s : State), s.int.assay = some g ∧
      s.engOk r.engine.val = true ∧ s.assayArea r.engine = some base ∧
      g.tested.drop (s.eng[r.engine.val]).int.assayPos = r.unit :: us ∧ m = min (fld s.int.assayCfg 31 16) g.budget.toNat ∧
      s.int.assayWindow = true ∧ us = [] ∧ r.micros ≤ (s.eng[r.engine.val]).int.assaySpent + m) ∧
    (∃ (r : AssayResult) (g : Assay) (base m : Nat) (us : List Unit5) (s : State), s.int.assay = some g ∧
      s.engOk r.engine.val = true ∧ s.assayArea r.engine = some base ∧
      g.tested.drop (s.eng[r.engine.val]).int.assayPos = r.unit :: us ∧ m = min (fld s.int.assayCfg 31 16) g.budget.toNat ∧
      s.int.assayWindow = true ∧ (s.eng[r.engine.val]).int.assaySpent + m < r.micros) ∧
    (∃ (r : AssayResult) (g : Assay) (base : Nat) (us : List Unit5) (s : State), s.int.assay = some g ∧
      s.engOk r.engine.val = true ∧ s.assayArea r.engine = some base ∧
      g.tested.drop (s.eng[r.engine.val]).int.assayPos = r.unit :: us ∧ fld s.int.assayCfg 15 0 ≠ 0 ∧
      (s.job.state ≠ .running ∨ s.stages.contains r.engine = false) ∧ us = [] ∧
      r.micros ≤ (s.eng[r.engine.val]).int.assaySpent + g.budget.toNat ∧ s.sealedJob = true) ∧
    (∃ (r : AssayResult) (g : Assay) (base : Nat) (us : List Unit5) (s : State), s.int.assay = some g ∧
      s.engOk r.engine.val = true ∧ s.assayArea r.engine = some base ∧
      g.tested.drop (s.eng[r.engine.val]).int.assayPos = r.unit :: us ∧ fld s.int.assayCfg 15 0 ≠ 0 ∧
      (s.job.state ≠ .running ∨ s.stages.contains r.engine = false) ∧
      (s.eng[r.engine.val]).int.assaySpent + g.budget.toNat < r.micros) :=
  ⟨⟨⟨0, .vector, 0, 1⟩, _, 0, 1, [], (assaying .running false).modInt fun x => { x with assayWindow := true }, rfl,
     by decide +kernel⟩,
   ⟨⟨0, .vector, 0, 2⟩, _, 0, 1, [], (assaying .running false).modInt fun x => { x with assayWindow := true }, rfl,
     by decide +kernel⟩,
   ⟨⟨0, .vector, 0, 5⟩, _, 0, [], assaying .active true, rfl, by decide +kernel⟩,
   ⟨⟨0, .vector, 0, 6⟩, _, 0, [], assaying .active true, rfl, by decide +kernel⟩⟩

def wReplay (marks : Nat) : ReplaySt := { step := 1, cause := 5, island := 0x1000, marks := marks, stopped := true, fresh := false }

theorem test_replay :
    (∃ s : State, s.job.state = .running ∧ s.job.stepOn = true ∧ s.int.holding = false) ∧
    (∃ s : State, s.job.state = .running ∧ s.job.stepOn = true ∧ s.int.holding = true) ∧
    (∃ (s : State) (r : ReplaySt), s.job.state = .running ∧ s.job.stepOn = true ∧ s.int.replay = some r ∧ r.stopped = true ∧
      r.marks ≤ s.replayLimit ∧ s.quiet = true ∧ (∀ c : CtlId, (s.ctl c).bad = [] ∧ s.ctlOk c = true) ∧
      ∀ e : EngineId, (s.eng[e.val]).led.fetches = []) ∧
    (∃ (s : State) (r : ReplaySt), s.job.state = .running ∧ s.job.stepOn = true ∧ s.int.replay = some r ∧ r.stopped = true ∧
      s.replayLimit < r.marks ∧ (s.int.raised.any fun ev => ev.cls == .exhausted) = false) :=
  ⟨⟨onRow (row 0 0 0 0) id, by decide +kernel⟩,
   ⟨(onRow (row 0 0 0 0) id).modInt fun x => { x with holding := true }, by decide +kernel⟩,
   ⟨(onRow (row 0 0 0 0) id).modInt fun x => { x with replay := some (wReplay 3) }, wReplay 3, by decide +kernel,
      by decide +kernel, rfl, rfl, by decide +kernel, by decide +kernel, fun c => by
        cases c with
        | vault v =>
          refine ⟨?_, by revert v; decide +kernel⟩
          show ((Vector.replicate 32 CtlSt.init)[v.val]).bad = []; rw [Vector.getElem_replicate]; rfl
        | far v =>
          refine ⟨?_, by revert v; decide +kernel⟩
          show ((Vector.replicate 48 CtlSt.init)[v.val]).bad = []; rw [Vector.getElem_replicate]; rfl,
      by decide +kernel⟩,
   ⟨(onRow (row 0 0 0 0) id).modInt fun x => { x with replay := some (wReplay 4) }, wReplay 4, by decide +kernel⟩⟩

def wEv (c : EvClass) : FaultEv := { cls := c, island := 0, status := .uncorrectable, record := Rec4.zero, mb := noMb, peer := 0 }

/-- An event with the action HOLD, in a step under way. -/
def holding (f : Engine → Engine) : State := (onRow (row 0 0 0 0) fun x => f { x with seq := { x.seq with wait := 0 } })

theorem test_events :
    (∃ (ev : FaultEv) (f : Faults) (s : State), s.faults = some f ∧ s.job.locked = true ∧ f.action ev.cls = .report) ∧
    (∃ (ev : FaultEv) (f : Faults) (s : State), s.faults = some f ∧ s.job.locked = true ∧ f.action ev.cls = .hold ∧
      s.job.state = .active) ∧
    (∃ (ev : FaultEv) (f : Faults) (s : State), s.faults = some f ∧ s.job.locked = true ∧ f.action ev.cls = .hold ∧
      s.job.state = .running ∧ s.job.stepOn = true ∧ (s.modAllEng Engine.stop).quiet = true) ∧
    (∃ (ev : FaultEv) (f : Faults) (s : State), s.faults = some f ∧ s.job.locked = true ∧ f.action ev.cls = .hold ∧
      s.job.state = .running ∧ s.job.stepOn = true ∧ (s.modAllEng Engine.stop).quiet = false) ∧
    (∃ (ev : FaultEv) (f : Faults) (s : State), s.faults = some f ∧ s.job.locked = true ∧ f.action ev.cls = .replay ∧
      s.job.state = .running ∧ s.job.stepOn = true ∧ s.int.replay = none ∧ s.int.holding = false) ∧
    (∃ s : State, s.int.replay = none ∧ s.int.holding = true ∧ s.quiet = true) :=
  ⟨⟨wEv .invalid, wJob.faults, inCharter wJob .running, by decide +kernel⟩,
   ⟨wEv .unitLost, wJob.faults, inCharter wJob .active, by decide +kernel⟩,
   ⟨wEv .unitLost, wJob.faults, holding id, by decide +kernel⟩,
   ⟨wEv .unitLost, wJob.faults, holding fun x => { x with arr := { x.arr with homeFlight := [wSent 0 []] } }, by decide +kernel⟩,
   ⟨wEv .invalid, { wJob.faults with actions := [.replay] },
      (onRow (row 0 0 0 0) id).modJob fun j => { j with
        charter := some { wJob with faults := { wJob.faults with actions := [.replay] } } }, by decide +kernel⟩,
   ⟨(holding id).modInt fun x => { x with holding := true }, by decide +kernel⟩⟩

theorem test_commits :
    (∃ (s : State) (c : CkptSec) (h : Charter) (d : Drain), s.ckptSec = some c ∧ s.job.charter = some h ∧
      s.ckpt.drain = some d ∧ d.left = [] ∧ s.glb.bursarUp = true) ∧
    (∃ (s : State) (c : Charter), s.job.charter = some c ∧ s.job.locked = true ∧ s.job.state = .active ∧
      s.ckpt.recordsRead = false ∧ s.glb.bursarUp = true) :=
  ⟨⟨(inCharter wJob .running).modCkpt fun k => { k with drain := some wDrain }, wJob.ckpt, wJob, wDrain, rfl, rfl, rfl, rfl, rfl⟩,
   ⟨inCharter wJob .active, wJob, by decide +kernel⟩⟩

/-! ### Norms, verdicts, updates -/

/-- A job of which this module is the norm root, at step 1. -/
def atRoot (n : Nat) : State :=
  (onRow (row 0 0 0 0) id).modJob fun j => { j with
    charter := some { wJob with shards := { wJob.shards with normPartials := n } } }

def wVerdict (skip : Bool) : Verdict := { step := 1, skip := skip, eNext := 0, q := 0, gamma := 0x3F80_0000 }

/-- Peer 0 is admitted. -/
def admits (s : State) : State := { s with env := { s.env with peers := [{ (default : PeerSt) with state := 2 }] } }

theorem test_verdicts :
    (∃ (h : BitVec 24) (step : StepNo) (s : State) (x : Shards), s.shardsSec = some x ∧ s.isRoot = true ∧ s.admitted 0 = true ∧
      s.verdictOf step = none ∧ s.ckpt.rootMap = none ∧
      (∀ y ∈ s.upd.partials, y.step = step → y.shard ≠ h) ∧
      (s.upd.partials.filter fun y => y.step == step).length + 1 < x.normPartials) ∧
    (∃ (h : BitVec 24) (step : StepNo) (s : State) (x : Shards), s.shardsSec = some x ∧ s.isRoot = true ∧ s.admitted 0 = true ∧
      s.verdictOf step = none ∧ s.ckpt.rootMap = none ∧
      (∀ y ∈ s.upd.partials, y.step = step → y.shard ≠ h) ∧
      x.normPartials ≤ (s.upd.partials.filter fun y => y.step == step).length + 1) ∧
    (∃ (v : Verdict) (s : State), s.admitted 0 = true ∧ s.verdictOf v.step = none) ∧
    (∃ (v : Verdict) (s : State), s.admitted 0 = true ∧ (s.verdictOf v.step).isSome = true) ∧
    (∃ (r : W16) (s : State) (x : Shards), s.shardsSec = some x ∧ s.admitted 0 = true ∧ s.ckpt.rootMap = none ∧
      x.normRoot = s.ownModule ∧ bitAt ((s.ckpt.liveNext.getLast?.map (·.2.2)).getD s.ckpt.liveMap) r.toNat = true) ∧
    (∃ (step : StepNo) (s : State), s.admitted 0 = true ∧ s.upd.liveForwarded ≠ some step) ∧
    (∃ (step : StepNo) (s : State), s.admitted 0 = true ∧ s.upd.liveForwarded = some step) ∧
    (∃ s : State, s.admitted 0 = false) :=
  ⟨⟨9, 1, admits (atRoot 2), { wJob.shards with normPartials := 2 }, by decide +kernel⟩,
   ⟨9, 1, admits (atRoot 1), { wJob.shards with normPartials := 1 }, by decide +kernel⟩,
   ⟨wVerdict false, admits (atRoot 1), by decide +kernel⟩,
   ⟨wVerdict false, admits ((atRoot 1).modUpd fun u => { u with verdicts := [wVerdict false] }), by decide +kernel⟩,
   ⟨1023, admits ((atRoot 1).modCkpt fun k => { k with liveMap := BitVec.allOnes 1024 }), { wJob.shards with normPartials := 1 },
     by decide +kernel⟩,
   ⟨1, admits (atRoot 1), by decide +kernel⟩, ⟨1, admits ((atRoot 1).modUpd fun u => { u with liveForwarded := some 1 }), by decide +kernel⟩,
   ⟨atRoot 1, by decide +kernel⟩⟩

def wItem (p1 p2 : List (BitVec 24)) : UpdItem :=
  { recipe := 0, group := 3, plane := 0, phase1 := p1, phase2 := p2, mirroring := [] }

/-- A job with a recipe and an owned shard without a parameter, whose state therefore reads. -/
def updJob : Charter :=
  { wJob with
    plane := [{ wPlane with recipes := some { constAddr := 0x60000, list := [default] } }, default]
    shards := { wJob.shards with entries := [{ wShard with params := 0 }] } }

/-- Engine 0 has UPDATE work queued. -/
def updating (i : UpdItem) (v : List Verdict) : State :=
  (((onRow (row 0 0 0 0) fun x => { x with led := { x.led with upd := [i] } }).modJob fun j => { j with
    charter := some updJob }).modUpd fun u => { u with verdicts := v }).modClr 0 fun c => { c with
      shards := [{ ClrShard.fresh 1 { wShard with params := 0 } with handed := true, complete := true }] }

theorem test_updates :
    (∃ (s : State) (i : UpdItem) (x : ShardEnt), s.shardEnt 9 = some x ∧
      ((s.eng[0]).led.upd.find? fun i => !i.phase1.isEmpty) = some i ∧ i.phase1.head? = some 9 ∧ s.cleared x = true ∧
      (∀ z ∈ s.homePages x, s.ctlOk z.1 = true ∧ s.pageGood z.1 z.2 = true) ∧ s.verdictOf s.curStep = none) ∧
    (∃ (s : State) (i : UpdItem) (x : ShardEnt) (v : Verdict), s.shardEnt 9 = some x ∧
      ((s.eng[0]).led.upd.find? fun i => !i.phase2.isEmpty) = some i ∧ i.phase2.head? = some 9 ∧
      ((s.eng[0]).led.upd.all fun i => i.phase1.isEmpty && i.mirroring.isEmpty) = true ∧ s.verdictOf s.curStep = some v ∧ v.skip = true) ∧
    (∃ (s : State) (i : UpdItem) (x : ShardEnt) (v : Verdict) (q : Recipe) (k : Nat), s.shardEnt 9 = some x ∧
      ((s.eng[0]).led.upd.find? fun i => !i.phase2.isEmpty) = some i ∧ i.phase2.head? = some 9 ∧
      ((s.eng[0]).led.upd.all fun i => i.phase1.isEmpty && i.mirroring.isEmpty) = true ∧ s.verdictOf s.curStep = some v ∧ v.skip = false ∧
      s.recipeOf i = some q ∧
      (x.tier = 2 ∨ s.ctlOk (pageOf 0 x.state).1 = true ∧ ∀ k < s.stateLen x, ∀ c n,
        (c, n) = ((pageOf 0 x.state).1, (pageOf 0 x.state).2 + s.stateBase x + k) →
        s.pageGood c n = true ∧ hallmarkOk (s.readPage c n).2 (s.readPage c n).1 = true) ∧
      (∀ z ∈ s.homePages x, s.ctlOk z.1 = true ∧ s.pageGood z.1 z.2 = true) ∧ s.ctlOk (s.poolLoc 0 0).1 = true ∧ s.mirrorPeer x = none ∧
      (s.allocEntry 0 x s.curStep true false ((s.eng[0]).led.pubGroups.contains x.group)).1 = some k) :=
  ⟨⟨updating (wItem [9] [9]) [], wItem [9] [9], { wShard with params := 0 }, by decide +kernel⟩,
   ⟨updating (wItem [] [9]) [wVerdict true], wItem [] [9], { wShard with params := 0 }, wVerdict true, by decide +kernel⟩,
   ⟨updating (wItem [] [9]) [wVerdict false], wItem [] [9], { wShard with params := 0 }, wVerdict false, default, 0,
     by decide +kernel, by decide +kernel, by decide +kernel, by decide +kernel, by decide +kernel, by decide +kernel,
     by decide +kernel, .inr ⟨by decide +kernel, fun k h => absurd h (by revert k; decide +kernel)⟩, by decide +kernel⟩⟩

/-! ### Links -/

/-- A frame of a type to a module. -/
def wFrame (typ dst : Nat) : Frame := { hdr := BitVec.ofNat 128 (typ <<< 124 ||| dst <<< 97), payload := List.replicate 256 0 }

/-- Port 5 changed. -/
def port5 (f : PortSt → PortSt) : State := (inCharter wJob .running).modPort 5 f

/-- A peer behind ports 5 and 6. -/
def wTwo : PeerEnt := { (default : PeerEnt) with module := 0x22, ports := 0x60, nextHop := 0xFFFF }

def twoPorts : State := inCharter { wJob with peers := { (default : Peers) with entries := [wTwo] } } .running

/-- A unit in a retry buffer that has been replayed n times. -/
def wUnit (n : Nat) : RetryUnit := { seqNo := 0, frame := wFrame 1 0, replays := n }

theorem test_links :
    (∃ (pfx : W64) (f : Frame) (s : State), (s.ports[5]).state = 2 ∧ frTyp f ≠ 0 ∧
      BitVec.ofNat 16 (fld pfx 63 48) = (s.ports[5]).expect ∧ 10 ≤ frTyp f) ∧
    (∃ (pfx : W64) (f : Frame) (s : State), (s.ports[5]).state = 2 ∧ frTyp f ≠ 0 ∧
      BitVec.ofNat 16 (fld pfx 63 48) = (s.ports[5]).expect ∧ frTyp f < 8 ∧ frDst f = s.ownModule ∧
      s.peerOf (frSrc f) = none) ∧
    (∃ (pfx : W64) (f : Frame) (s : State), (s.ports[5]).state = 2 ∧ frTyp f = 0 ∧
      wrapAdd (BitVec.ofNat 16 (fld pfx 63 48)) 1 = (s.ports[5]).expect ∧ bitAt pfx 31 = false ∧ (s.ports[5]).queue = [] ∧
      (s.ports[5]).moved = [] ∧ BitVec.ofNat 16 (fld pfx 47 32) = (s.ports[5]).lseq ∧
      (s.ports[5]).expect ≠ (s.ports[5]).ackSent) ∧
    (∃ (pfx : W64) (f : Frame) (s : State), (s.ports[5]).state = 2 ∧
      (if frTyp f = 0 then wrapAdd (BitVec.ofNat 16 (fld pfx 63 48)) 1 else BitVec.ofNat 16 (fld pfx 63 48)) ≠
        (s.ports[5]).expect ∧ (s.ports[5]).nakSent = true) ∧
    (∃ s : State, (s.ports[5]).state = 2 ∧ (s.ports[5]).nakSent = false) ∧
    (∃ s : State, (s.ports[5]).state = 2 ∧ (s.ports[5]).retry ≠ [] ∧
      ∀ u ∈ (s.ports[5]).retry, u.replays < fld (s.ports[5]).cfg 7 0) ∧
    (∃ (s : State) (u : RetryUnit), (s.ports[5]).state = 2 ∧ (s.ports[5]).retry ≠ [] ∧ u ∈ (s.ports[5]).retry ∧
      fld (s.ports[5]).cfg 7 0 ≤ u.replays) ∧
    (∃ s : State, (s.ports[5]).state = 2 ∧ (s.ports[5]).retry = []) ∧ (∃ s : State, (s.ports[5]).state = 3) ∧
    (∃ (s : State) (e : PeerEnt), (s.ports[5]).state ≠ 3 ∧
      (s.peersSec.bind fun q => q.entries.find? fun e => bitAt e.ports 5) = some e ∧
      ∀ q : PortId, q ≠ 5 → bitAt e.ports q.val = true → (s.ports[q.val]).state ≠ 2) ∧
    (∃ (s : State) (e : PeerEnt) (q : PortId), (s.ports[5]).state ≠ 3 ∧
      (s.peersSec.bind fun q => q.entries.find? fun e => bitAt e.ports 5) = some e ∧ q ≠ 5 ∧ bitAt e.ports q.val = true ∧
      (s.ports[q.val]).state = 2 ∧
      ∀ r : PortId, r ≠ 5 → r.val < q.val → bitAt e.ports r.val = true → (s.ports[r.val]).state ≠ 2) ∧
    (∃ s : State, (s.ports[5]).state < 2 ∧ s.glb.ref156 = true) :=
  ⟨⟨0, wFrame 10 0, port5 fun x => { x with state := 2 }, by decide +kernel⟩,
   ⟨0xFFFF_0000_0000_0000, wFrame 7 0, port5 fun x => { x with state := 2, expect := 0xFFFF }, by decide +kernel⟩,
   ⟨0, wFrame 0 0, port5 fun x => { x with state := 2, expect := 1 }, by decide +kernel⟩,
   ⟨0x1_0000_0000_0000, wFrame 1 0, port5 fun x => { x with state := 2, nakSent := true }, by decide +kernel⟩,
   ⟨port5 fun x => { x with state := 2 }, by decide +kernel⟩,
   ⟨port5 fun x => { x with state := 2, retry := [wUnit 0] }, by decide +kernel⟩,
   ⟨port5 fun x => { x with state := 2, retry := [wUnit 255] }, wUnit 255, by decide +kernel⟩,
   ⟨port5 fun x => { x with state := 2 }, by decide +kernel⟩, ⟨port5 fun x => { x with state := 3 }, by decide +kernel⟩,
   ⟨twoPorts.modPort 5 fun x => { x with state := 2, retry := [wUnit 0] }, wTwo, by decide +kernel⟩,
   ⟨(twoPorts.modPort 5 fun x => { x with state := 2, retry := [wUnit 0] }).modPort 6 fun x => { x with
      state := 2 }, wTwo, 6, by decide +kernel⟩,
   ⟨port5 fun x => { x with state := 1, failed := 2 }, by decide +kernel⟩⟩


/-! ### Till ends -/

/-- The far end that the till of index 1 of the job joins. -/
def wFrom : CtrlFrom := { path := .onModule wIn.farEngine wIn.farTill, plane := false }

/-- A block of zeros under its hallmark, first of message 0. -/
def wBlock : TillBlk :=
  { (default : TillBlk) with path := wFrom.path, data := zeros, side := mkSide (crc32c zeros) 4 false 1 0 1 0 0, storeFail := none }

theorem wBlock_hallmark : hallmarkOk wBlock.side wBlock.data = true := hallmarkOk_mkSide _ _ _ _ _ _ _ _ _ rfl

/-- The same IN end with a till store of one message in vault 0. -/
def wStored : TillEnd := { wIn with storeMsgs := 1, store := 16 }

def storedJob : Charter := { wJob with plane := [{ wPlane with tills := [wStored, wOut] }, default] }

/-- A till end of engine 0 as given. -/
def atTill (c : Charter) (t : Nat) (h : t < 64) (x : TillSt) : State :=
  (inCharter c .running).modEng 0 fun e => { e with tills := e.tills.set t x }

theorem atTill_sound (c : Charter) (t : Nat) (h : t < 64) (x : TillSt) : (atTill c t h x).Sound :=
  State.modEng_sound _ _ _ (sound_of up_sound) fun _ g => ⟨g.1, g.2, g.3, g.4, g.5⟩

def sent : MsgOut := { seqNo := 3, origin := 1, mb := 0, step := 1, hallmarks := [], acked := false, again := false, cut := false }

/-- A block of the statement comes to an IN end that takes it. -/
structure BlockComes (e : EngineId) (t : TillId) (c : TillEnd) (s : State) (b : TillBlk) : Prop where
  cfg : s.tillCfg e.val t.val = some c
  inEnd : c.isOut = false
  joins : s.joins c b.path b.plane = true
  peer : c.path = .envis → s.admitted c.link = true ∧ ∃ x, s.peerEnt c.link = some x ∧ (s.sealedJob = false ∨ x.storage = true)
  ok : s.engOk e.val = true
  isOpen : (s.till e t.val).state = 1
  fresh : (s.till e t.val).msg (BitVec.ofNat 32 b.side.index) = none
  next : seqAfter (BitVec.ofNat 32 b.side.index) (s.till e t.val).nextIn < 2147483648
  first : (s.till e t.val).dropping ≠ some (BitVec.ofNat 32 b.side.index) ∨ b.side.block = 0

/-- An OUT end over Envis, of engine 0's peer, and an EXIT one on the module. -/
def wPeerOut : TillEnd := { wOut with path := .envis, link := 0 }

def wExit : TillEnd := { wOut with exit := true }

/-- The far end that the OUT end joins. -/
def toOut : CtrlFrom := { path := .onModule wOut.farEngine wOut.farTill, plane := false }

def peerTill (x : TillEnd) : Charter := { wJob with plane := [{ wPlane with tills := [x] }, default] }

theorem test_till_ends :
    (∃ (e : EngineId) (t : TillId) (c : TillEnd) (s : State) (b : TillBlk), BlockComes e t c s b ∧ (s.till e t.val).o = 0) ∧
    (∃ (e : EngineId) (t : TillId) (c : TillEnd) (s : State) (b : TillBlk), BlockComes e t c s b ∧ (s.till e t.val).o ≠ 0 ∧
      hallmarkOk b.side b.data = true ∧ ∃ j, (s.till e t.val).freePlace c = some j ∧ b.storeFail = none ∧
      b.data.length = 4096 ∧ s.Sound ∧ s.ctlOk (storePage e c j b.side.block).1 = true ∧
      (storePage e c j b.side.block).2 < ctlBlocks (storePage e c j b.side.block).1 ∧
      s.coverKey (storePage e c j b.side.block).1 (storePage e c j b.side.block).2 = none ∧
      (s.ctl (storePage e c j b.side.block).1).merge.length < 64) ∧
    (∃ (e : EngineId) (t : TillId) (c : TillEnd) (s : State) (n : W32) (m : MsgIn), s.tillCfg e.val t.val = some c ∧
      c.isOut = false ∧ (s.till e t.val).msg n = some m ∧ c.blocks ≤ m.blocks.length ∧
      ∀ y ∈ (s.till e t.val).msgs, y.complete = true ∨ y.seqNo = n ∨ seqAfter y.seqNo n < 2147483648) ∧
    (∃ (e : EngineId) (t : TillId) (c : TillEnd) (s : State) (n : W32) (m : MsgIn), s.tillCfg e.val t.val = some c ∧
      c.isOut = false ∧ (s.till e t.val).msg n = some m ∧ c.blocks ≤ m.blocks.length ∧
      ∃ y ∈ (s.till e t.val).msgs, y.complete = false ∧ y.seqNo ≠ n ∧ 2147483648 ≤ seqAfter y.seqNo n) ∧
    (∃ (t : TillId) (c : TillEnd) (s : State), s.tillCfg 0 t.val = some c ∧ s.engOk 0 = false) ∧
    (∃ (t : TillId) (c : TillEnd) (s : State) (b : TillBlk) (v : Fin 8), s.tillCfg 0 t.val = some c ∧ s.engOk 0 = true ∧
      c.isOut = false ∧ (s.till 0 t.val).state = 1 ∧ b.path = .envis 0 v ∧ s.admitted 0 = false) ∧
    (∃ (t : TillId) (c : TillEnd) (s : State) (b : TillBlk), s.tillCfg 0 t.val = some c ∧ s.engOk 0 = true ∧
      c.isOut = false ∧ (s.till 0 t.val).state = 1 ∧ (∀ i v, b.path = .envis i v → s.admitted i = true) ∧
      s.joins c b.path b.plane = false) ∧
    (∃ (t : TillId) (c : TillEnd) (s : State) (f : CtrlFrom) (v : Fin 8), s.tillCfg 0 t.val = some c ∧
      f.path = .envis 0 v ∧ s.admitted 0 = false ∧ c.isOut = true ∧ (s.till 0 t.val).state = 1) ∧
    (∃ (t : TillId) (c : TillEnd) (s : State) (f : CtrlFrom), s.tillCfg 0 t.val = some c ∧
      (∀ i v, f.path = .envis i v → s.admitted i = true) ∧ s.joins c f.path f.plane = false) ∧
    (∃ (t : TillId) (c : TillEnd) (s : State) (f : CtrlFrom) (bytes : W32), s.tillCfg 0 t.val = some c ∧
      (∀ i v, f.path = .envis i v → s.admitted i = true) ∧ s.joins c f.path f.plane = true ∧
      c.isOut = true ∧ (s.till 0 t.val).state = 1 ∧ ¬(bytes = 0 ∨ bytes.toNat = c.msgBytes)) ∧
    (∃ (t : TillId) (c : TillEnd) (s : State) (f : CtrlFrom) (n : W32) (o : MsgOut) (y : FloatEntry),
      s.tillCfg 0 t.val = some c ∧ (∀ i v, f.path = .envis i v → s.admitted i = true) ∧ s.joins c f.path f.plane = true ∧
      ((s.till 0 t.val).outs.find? fun o => o.seqNo == n && !o.acked) = some o ∧ c.exit = true ∧
      ((s.eng[0]).float.find? fun y => y.exiting && y.mb == o.mb && y.origin == o.origin) = some y) ∧
    (∃ (t : TillId) (c : TillEnd) (s : State) (f : CtrlFrom) (n : W32) (k : W16) (o : MsgOut),
      s.tillCfg 0 t.val = some c ∧ (∀ i v, f.path = .envis i v → s.admitted i = true) ∧ s.joins c f.path f.plane = true ∧
      ((s.till 0 t.val).outs.find? fun o => o.seqNo == n && !o.acked) = some o ∧
      c.exit = false ∧ c.isOut = true ∧ k.toNat < c.blocks ∧ c.path = .onModule) := by
  have near : ∀ (s : State) (f : CtrlFrom), (∀ i v, f.path ≠ .envis i v) → ∀ i v, f.path = .envis i v → s.admitted i = true :=
    fun s f h i v g => absurd g (h i v)
  refine ⟨⟨0, 1, wIn, atTill wJob 1 (by decide) { TillSt.init with state := 1 }, wBlock,
      ⟨by decide +kernel, by decide +kernel, by decide +kernel, nofun, by decide +kernel, by decide +kernel,
        ?_, ?_, ?_⟩, by decide +kernel⟩,
    ⟨0, 1, wStored, atTill storedJob 1 (by decide) { TillSt.init with state := 1, o := 1 }, wBlock,
      ⟨by decide +kernel, by decide +kernel, by decide +kernel, nofun, by decide +kernel, by decide +kernel,
        ?_, ?_, ?_⟩, by decide +kernel, wBlock_hallmark, 0, by decide +kernel, rfl, List.length_replicate, atTill_sound _ _ _ _,
      ?_, ?_, ?_, by decide +kernel⟩,
    ⟨0, 1, wIn, atTill wJob 1 (by decide) { TillSt.init with state := 1, msgs := [{ wMsg with complete := false, blocks := [0] }] },
      0, { wMsg with complete := false, blocks := [0] }, by decide +kernel⟩,
    ⟨0, 1, wIn, atTill wJob 1 (by decide) { TillSt.init with
        state := 1, msgs := [{ wMsg with complete := false, seqNo := 0xFFFF_FFFF }, { wMsg with complete := false, blocks := [0] }] },
      0, { wMsg with complete := false, blocks := [0] }, by decide +kernel⟩,
    ⟨1, wIn, (inCharter wJob .running).modGlb fun g => { g with engAvail := 0 }, by decide +kernel⟩,
    ⟨1, wIn, atTill wJob 1 (by decide) { TillSt.init with state := 1 }, { wBlock with path := .envis 0 0 }, 0, by decide +kernel,
      by decide +kernel, by decide +kernel, by decide +kernel, rfl, by decide +kernel⟩,
    ⟨1, wIn, atTill wJob 1 (by decide) { TillSt.init with state := 1 }, { wBlock with path := .host 0 }, by decide +kernel,
      by decide +kernel, by decide +kernel, by decide +kernel, nofun, by decide +kernel⟩,
    ⟨2, wPeerOut, atTill (peerTill wPeerOut) 2 (by decide) { TillSt.init with state := 1 }, ⟨.envis 0 0, false⟩, 0,
      by decide +kernel⟩,
    ⟨2, wOut, atTill wJob 2 (by decide) { TillSt.init with state := 1 }, ⟨.host 0, false⟩, by decide +kernel,
      near _ _ (fun _ _ h => TillPath.noConfusion h), by decide +kernel⟩,
    ⟨2, wOut, atTill wJob 2 (by decide) { TillSt.init with state := 1 }, toOut, 8192, by decide +kernel,
      near _ _ (fun _ _ h => TillPath.noConfusion h), by decide +kernel⟩,
    ⟨2, wExit, (atTill (peerTill wExit) 2 (by decide) { TillSt.init with state := 1, outs := [sent] }).modEng 0 fun x => { x with
        float := [{ wFloat with exiting := true }] }, toOut, 3, sent, { wFloat with exiting := true }, by decide +kernel,
      near _ _ (fun _ _ h => TillPath.noConfusion h), by decide +kernel⟩,
    ⟨2, wOut, atTill wJob 2 (by decide) { TillSt.init with state := 1, outs := [sent] }, toOut, 3, 0, sent, by decide +kernel,
      near _ _ (fun _ _ h => TillPath.noConfusion h), by decide +kernel⟩⟩
  all_goals first
    | exact .inr (mkSide_block _ _ _ _ _ _ _ _)
    | (rw [show wBlock.side.index = 0 from mkSide_index _ _ _ _ _ _ _ _]; decide +kernel)
    | (rw [show wBlock.side.block = 0 from mkSide_block _ _ _ _ _ _ _ _]; decide +kernel)

/-! ### Objects, clearing, peers -/

/-- A peer behind port 5, with a window of two blocks in vault 1. -/
def wPe : PeerEnt :=
  { (default : PeerEnt) with
    module := 0x22, ports := 0x20, nextHop := 0xFFFF, windowBase := 0x2000_0010_1000_0000, windowLen := 8192 }

/-- A job of two replicas with the peer. -/
def peerJob : Charter :=
  { wJob with replicaCount := 2, peers := { (default : Peers) with fanin := 1, entries := [wPe], replicas := [0xFFFF, 0] } }

/-- The job with the peer in a state, on a module of identifier 0x11. -/
def withPeer (c : Charter) (p : PeerSt) : State :=
  { inCharter c .running with
    env := { EnvSt.init with peers := [p], live := [0, 1] }
    sec := { up.sec with store := { up.sec.store with moduleId := 0x11 } } }

def wPs (st : Nat) : PeerSt := { PeerSt.init with state := st, module := 0x22 }

theorem withPeer_sound (c : Charter) (p : PeerSt) : (withPeer c p).Sound :=
  ⟨up_sound.1, up_sound.2, up_sound.3, up_sound.4, up_sound.5, up_sound.6, up_sound.7⟩

def wObj (off : Nat) (d : List Byte) (h : W32) : ObjBlk :=
  { (default : ObjBlk) with kind := .window 3 7 off, data := d, side := mkSide h 5 false 0 noMb 0 0 0 }

def wReq (object count : Nat) : ReqFrame :=
  { (default : ReqFrame) with object := BitVec.ofNat 64 object, count := BitVec.ofNat 32 count }

/-- A slip from the peer's window. -/
def wPull : Slip := { (default : Slip) with w1 := 0x5000_0000_0000_0000, w2 := 0xF000_0000_0000_0000 }

/-- A slip into the peer's window. -/
def wPush : Slip := { (default : Slip) with w0 := 0x2000, w1 := 0xF000_0000_0000_0000, w2 := 0x5000_0000_0000_0000 }

/-- A storage peer of a sealed job with the window. -/
def sealedStore : State := withPeer { peerJob with
  sealed := true, peers := { peerJob.peers with entries := [{ wPe with storage := true }] } } (wPs 2)

theorem test_windows :
    (∃ (s : State) (i : Nat) (b : ObjBlk) (q : ReqFrame) (p : PortId), s.admitted i = false ∧ b.peer = i ∧ q.peer = i ∧
      s.route i 4096 = some p) ∧
    (∃ (s : State) (b : ObjBlk) (off : Nat) (x : PeerEnt) (c : CtlId) (a : Nat), b.kind = .window 3 7 off ∧
      s.admitted b.peer = true ∧ s.peerEnt b.peer = some x ∧ s.sealedJob = false ∧ placeOf 0 x.windowBase = .dram c a ∧
      s.ctlOk c = true ∧ s.Sound ∧ a + x.windowLen ≤ ctlBytes c ∧ off + 4096 ≤ x.windowLen ∧
      hallmarkOk b.side b.data = true ∧ b.data.length = 4096 ∧ s.coverKey c ((a + off) / 4096) = none ∧
      (s.ctl c).merge.length < 64) ∧
    (∃ (s : State) (b : ObjBlk) (off : Nat) (x : PeerEnt) (c : CtlId) (a : Nat), b.kind = .window 3 7 off ∧
      s.admitted b.peer = true ∧ s.peerEnt b.peer = some x ∧ s.sealedJob = false ∧ placeOf 0 x.windowBase = .dram c a ∧
      s.ctlOk c = true ∧ s.Sound ∧ a + x.windowLen ≤ ctlBytes c ∧ off + 4096 ≤ x.windowLen ∧
      hallmarkOk b.side b.data = false) ∧
    (∃ (s : State) (b : ObjBlk) (off : Nat) (x : PeerEnt) (c : CtlId) (a : Nat), b.kind = .window 3 7 off ∧
      s.admitted b.peer = true ∧ s.peerEnt b.peer = some x ∧ s.sealedJob = false ∧ placeOf 0 x.windowBase = .dram c a ∧
      s.ctlOk c = true ∧ s.Sound ∧ a + x.windowLen ≤ ctlBytes c ∧ x.windowLen < off + 4096) ∧
    (∃ (s : State) (q : ReqFrame) (x : PeerEnt) (c : CtlId) (a : Nat), s.admitted q.peer = true ∧
      s.peerEnt q.peer = some x ∧ placeOf 0 x.windowBase = .dram c a ∧ a + x.windowLen ≤ ctlBytes c ∧ s.ctlOk c = true ∧
      x.windowLen < q.object.toNat + q.count.toNat * 4096) ∧
    (∃ (s : State) (q : ReqFrame) (x : PeerEnt) (c : CtlId) (a : Nat), s.admitted q.peer = true ∧
      s.peerEnt q.peer = some x ∧ placeOf 0 x.windowBase = .dram c a ∧ a + x.windowLen ≤ ctlBytes c ∧ s.ctlOk c = true ∧
      q.object.toNat + q.count.toNat * 4096 ≤ x.windowLen ∧ s.sealedJob = true ∧ x.storage = true) ∧
    (∃ (s : State) (q : ReqFrame) (x : PeerEnt) (c : CtlId) (a : Nat), s.admitted q.peer = true ∧
      s.peerEnt q.peer = some x ∧ placeOf 0 x.windowBase = .dram c a ∧ a + x.windowLen ≤ ctlBytes c ∧ s.ctlOk c = true ∧
      q.object.toNat + q.count.toNat * 4096 ≤ x.windowLen ∧ s.sealedJob = false ∧ (s.ctl c).bad = []) ∧
    (∃ (s : State) (q : ReqFrame) (x : Slip) (c : ChanSt), s.admitted q.peer = true ∧ 6 ≤ q.chan.val ∧
      c = s.chan q.engine q.chan ∧ c.slip = some x ∧ c.busy = true ∧ c.halting = none ∧
      (placeOf q.engine x.w1).atPeer q.peer = true ∧ (placeOf q.engine x.w2).atPeer q.peer = false ∧ c.openBlks = 0 ∧
      s.owes q.engine q.chan (placeOf q.engine x.w2) = false ∧ s.owes q.engine q.chan (placeOf q.engine x.w4) = false ∧
      s.placePinned (placeOf q.engine c.cur) 64 = false) ∧
    (∃ (s : State) (q : ReqFrame) (x : Slip) (c : ChanSt), s.admitted q.peer = true ∧ 6 ≤ q.chan.val ∧
      c = s.chan q.engine q.chan ∧ c.slip = some x ∧ c.busy = true ∧ c.halting = none ∧
      (placeOf q.engine x.w2).atPeer q.peer = true ∧ 1 < c.openBlks) ∧
    (∃ (s : State) (i : Nat) (block : W32) (e : EngineId) (ch : ChanId) (off : Nat), s.admitted i = true ∧
      s.slipOf i (block.toNat * 4096) = some (e, ch, off) ∧ (s.chan e ch).halting = none ∧
      off = (s.chan e ch).progress.toNat) := by
  refine ⟨⟨withPeer peerJob (wPs 1), 0, wObj 0 [] 0, wReq 0 0, 5, rfl, rfl, rfl, by decide +kernel⟩,
    ⟨withPeer peerJob (wPs 2), wObj 4096 zeros (crc32c zeros), 4096, wPe, .vault 1, 0x1000_0000, rfl, rfl, rfl, rfl,
      by decide +kernel, by decide +kernel, withPeer_sound _ _, by decide +kernel, by decide +kernel,
      hallmarkOk_mkSide _ _ _ _ _ _ _ _ _ rfl, List.length_replicate, by decide +kernel, by decide +kernel⟩,
    ⟨withPeer peerJob (wPs 2), wObj 4096 [1] 0, 4096, wPe, .vault 1, 0x1000_0000, rfl, rfl, rfl, rfl,
      by decide +kernel, by decide +kernel, withPeer_sound _ _, by decide +kernel, by decide +kernel, by decide +kernel⟩,
    ⟨withPeer peerJob (wPs 2), wObj 4097 [] 0, 4097, wPe, .vault 1, 0x1000_0000, rfl, rfl, rfl, rfl,
      by decide +kernel, by decide +kernel, withPeer_sound _ _, by decide +kernel, by decide +kernel⟩,
    ⟨withPeer peerJob (wPs 2), wReq 4096 2, wPe, .vault 1, 0x1000_0000, by decide +kernel⟩,
    ⟨sealedStore, wReq 4096 1, { wPe with storage := true }, .vault 1, 0x1000_0000, by decide +kernel⟩,
    ⟨withPeer peerJob (wPs 2), wReq 4096 1, wPe, .vault 1, 0x1000_0000, by decide +kernel⟩,
    ⟨(withPeer peerJob (wPs 2)).modChan 0 6 fun c => { c with slip := some wPull, state := .running },
      { wReq 0 0 with chan := 6 }, wPull, _, rfl, by decide +kernel, rfl, by decide +kernel⟩,
    ⟨(withPeer peerJob (wPs 2)).modChan 0 6 fun c => { c with slip := some wPush, state := .running, sent := 8192, openBlks := 2 },
      { wReq 0 0 with chan := 6 }, wPush, _, rfl, by decide +kernel, rfl, by decide +kernel⟩,
    ⟨(withPeer peerJob (wPs 2)).modChan 0 6 fun c => { c with slip := some wPush, state := .running, sent := 4096, openBlks := 1 },
      0, 0, 0, 6, 0, by decide +kernel⟩⟩

def wFetch (waiting : Bool) : Fetch :=
  { shard := 9, version := 4, req := 1, entry := none, restore := false, waiting := waiting, gotPages := [], failed := [], maps := []
    held := waiting }

def asking (c : Nat) : ReqFrame := { wReq 9 1 with req := 1, chan := Fin.ofNat 8 c, version := 4 }

/-- The peer's job with engine 0's ledger as given, and the shard's owner and mirror. -/
def atLedger (o m : BitVec 12) (l : EngLed → EngLed) : State :=
  (withPeer { peerJob with shards := { peerJob.shards with entries := [{ wShard with owner := o, mirror := m }] } }
    (wPs 2)).modLed 0 l

/-- The shard's owner, not admitted yet, and a second peer that is. -/
def twoPeers : State :=
  let s := withPeer { peerJob with
    peers := { peerJob.peers with entries := [wPe, { wPe with module := 0x33 }] }
    shards := { peerJob.shards with entries := [{ wShard with owner := 0x22, mirror := 0 }] } } (wPs 1)
  { s with env := { s.env with peers := [wPs 1, { wPs 2 with module := 0x33 }] } }.modLed 0 fun l => { l with
    fetches := [wFetch true] }

/-- A shard of which this module is the mirror, its state in host memory, all of whose pages have come. -/
def wMirrored : ShardEnt := { wShard with owner := 0x22, mirror := 0x11, tier := 2 }

def mirrored : State :=
  let s := withPeer { peerJob with shards := { peerJob.shards with entries := [wMirrored] } } (wPs 2)
  s.modCkpt fun k => { k with mirrorPages := (List.range (s.stateLen wMirrored)).map fun i => (9, 4, i) }

theorem test_fetches :
    (∃ (q : ReqFrame) (s : State) (x : ShardEnt) (y : Nat × LedgerEntry), s.admitted q.peer = true ∧
      s.shardEnt (BitVec.ofNat 24 q.object.toNat) = some x ∧ x.engine = 0 ∧
      ((s.eng[0].versions x.shard).find? fun y => y.2.version == q.version) = some y ∧ y.2.state ≠ .building ∧
      (∀ c : CtlId, (s.ctl c).bad = []) ∧ s.ctlOk (s.poolLoc 0 0).1 = true) ∧
    (∃ (q : ReqFrame) (s : State) (x : ShardEnt) (m : PeerEnt), s.admitted q.peer = true ∧
      s.shardEnt (BitVec.ofNat 24 q.object.toNat) = some x ∧ x.engine = 0 ∧
      ((s.eng[0].versions x.shard).find? fun y => y.2.version == q.version) = none ∧ s.restoreTime = false ∧
      s.peerEnt q.peer = some m) ∧
    (∃ (q : ReqFrame) (s : State) (x : ShardEnt) (f : Fetch), s.admitted q.peer = true ∧
      s.shardEnt (BitVec.ofNat 24 q.object.toNat) = some x ∧ x.engine = 0 ∧ q.chan = 4 ∧ q.engine = 0 ∧
      ((s.eng[0]).led.fetches.find? fun f => f.shard == x.shard && f.req == q.req) = some f ∧ s.isRepair 0 f = false ∧
      f.restore = false ∧ q.status ≠ .notResident) ∧
    (∃ (q : ReqFrame) (s : State) (x : ShardEnt) (f : Fetch) (i : Nat) (p : PortId) (m : PeerEnt), s.admitted q.peer = true ∧
      s.shardEnt (BitVec.ofNat 24 q.object.toNat) = some x ∧ x.engine = 0 ∧
      ((s.eng[0]).led.fetches.find? fun f => f.shard == x.shard && f.waiting) = some f ∧
      s.peerOf (s.ownerOf x) = some i ∧ s.admitted i = true ∧ s.route i 4096 = some p ∧ s.peerEnt i = some m) ∧
    (∃ (q : ReqFrame) (s : State) (x : ShardEnt) (f : Fetch) (i : Nat), s.admitted q.peer = true ∧
      s.shardEnt (BitVec.ofNat 24 q.object.toNat) = some x ∧ x.engine = 0 ∧
      ((s.eng[0]).led.fetches.find? fun f => f.shard == x.shard && f.waiting) = some f ∧
      s.peerOf (s.ownerOf x) = some i ∧ s.admitted i = false ∧ (s.peer i).state ≠ 4) ∧
    (∃ (q : ReqFrame) (s : State) (x : ShardEnt), s.admitted q.peer = true ∧
      s.shardEnt (BitVec.ofNat 24 q.object.toNat) = some x ∧ x.engine = 0 ∧ x.mirror = s.ownModule ∧
      (s.mirrorGot x.shard q.version).length ≠ s.stateLen x) ∧
    (∃ (q : ReqFrame) (s : State) (x : ShardEnt), s.admitted q.peer = true ∧
      s.shardEnt (BitVec.ofNat 24 q.object.toNat) = some x ∧ x.engine = 0 ∧ x.mirror = s.ownModule ∧
      (s.mirrorGot x.shard q.version).length = s.stateLen x ∧ (x.tier = 2 ∨ s.ctlOk (pageOf 0 x.state).1 = true) ∧
      (s.slotBytes x (slotOfVersion q.version).val).1.toOption.isSome = true) ∧
    (∃ (q : ReqFrame) (s : State) (x : ShardEnt), s.admitted q.peer = true ∧
      s.shardEnt (BitVec.ofNat 24 q.object.toNat) = some x ∧ x.engine = 0 ∧
      ((s.eng[0]).led.upd.any fun i => i.mirroring.any fun y => y.1 == x.shard) = true) := by
  have bad : ∀ (l : EngLed → EngLed) (c : CtlId), ((atLedger 0x11 0 l).ctl c).bad = [] := fun l c => by
    cases c with
    | vault v => show ((Vector.replicate 32 CtlSt.init)[v.val]).bad = []; rw [Vector.getElem_replicate]; rfl
    | far v => show ((Vector.replicate 48 CtlSt.init)[v.val]).bad = []; rw [Vector.getElem_replicate]; rfl
  refine ⟨⟨asking 4, atLedger 0x11 0 fun l => { l with entries := [(0, { wReady with version := 4 })] }, _,
      (0, { wReady with version := 4 }), rfl, rfl, by decide +kernel, by decide +kernel, by decide +kernel, bad _,
      by decide +kernel⟩,
    ⟨asking 4, atLedger 0x11 0 id, { wShard with owner := 0x11, mirror := 0 }, wPe, by decide +kernel⟩,
    ⟨asking 4, atLedger 0x22 0 fun l => { l with fetches := [wFetch false] }, { wShard with owner := 0x22, mirror := 0 },
      wFetch false, by decide +kernel⟩,
    ⟨asking 4, atLedger 0x22 0 fun l => { l with fetches := [wFetch true] }, { wShard with owner := 0x22, mirror := 0 },
      wFetch true, 0, 5, wPe, by decide +kernel⟩,
    ⟨{ asking 4 with peer := 1 }, twoPeers, { wShard with owner := 0x22, mirror := 0 }, wFetch true, 0, by decide +kernel⟩,
    ⟨asking 4, atLedger 0x22 0x11 id, { wShard with owner := 0x22, mirror := 0x11 }, by decide +kernel⟩,
    ⟨asking 4, mirrored, wMirrored, by decide +kernel⟩,
    ⟨asking 4, atLedger 0x11 0x22 fun l => { l with upd := [{ wItem [] [] with mirroring := [(9, default)] }] },
      { wShard with owner := 0x11, mirror := 0x22 }, by decide +kernel⟩⟩

def wBand (zero : Bool) (d : List Byte) (h : W32) : ClearBlk :=
  { (default : ClearBlk) with
    step := 1, group := 3, shard := 9, band := 1, zero := zero, data := d, side := mkSide h 3 false 1 noMb 5 1 0 }

/-- A home of two bands. -/
def wHome2 : HomeRec := { wHome with k := 32 }

/-- Two replicas, the shard of the owner given, with the peer in a state. -/
def clearing (o : BitVec 12) (st : Nat) : State :=
  (withPeer { peerJob with shards := { peerJob.shards with entries := [{ wShard with owner := o }], homes := [wHome2] } }
    (wPs st)).modJob fun j => { j with stepOn := true }

def wClr (f : ClrShard → ClrShard) : ClrShard := f { ClrShard.fresh 1 wShard with handed := true, opened := true }

/-- The record of the shard in clearing unit 0. -/
def withRecord (o : BitVec 12) (st : Nat) (f : ClrShard → ClrShard) : State :=
  (clearing o st).modClr 0 fun c => { c with shards := [wClr f] }

/-- A closed window whose sum is ready, before and after its bands are acknowledged. -/
def added (r : ClrShard) : ClrShard := { r with closed := true, added := true }

def acked (r : ClrShard) : ClrShard := { added r with acked := 1000 }

/-- The record of a shard that the peer owns, under CLEAR_MODE 1. -/
def gathering (f : ClrShard → ClrShard) : State :=
  (withRecord 0x22 2 f).modJob fun j => { j with
    charter := j.charter.map fun c => { c with peers := { c.peers with clearAll := true } } }

/-- The same, the sum having gone down to the children. -/
def handedDown (r : ClrShard) : ClrShard := { acked r with down := true }

/-- Every controller of the state with the shard's record is in service and reads. -/
theorem withRecord_ctl (o : BitVec 12) (st : Nat) (f : ClrShard → ClrShard) (c : CtlId) :
    ((withRecord o st f).ctl c).bad = [] ∧ (withRecord o st f).ctlOk c = true := by
  cases c with
  | vault v =>
    refine ⟨?_, by show bitAt (BitVec.ofNat 64 0xFFFF_FFFF) v.val = true; revert v; decide +kernel⟩
    show ((Vector.replicate 32 CtlSt.init)[v.val]).bad = []; rw [Vector.getElem_replicate]; rfl
  | far v =>
    refine ⟨?_, by show bitAt (BitVec.ofNat 64 0xFFFF_FFFF_FFFF) v.val = true; revert v; decide +kernel⟩
    show ((Vector.replicate 48 CtlSt.init)[v.val]).bad = []; rw [Vector.getElem_replicate]; rfl

theorem test_clearing :
    (∃ (s : State) (b : ClearBlk) (x : ShardEnt) (h : HomeRec) (k : Nat), s.shardEnt b.shard = some x ∧
      s.bandAt b.engine b.band = some (h, k) ∧ s.admitted b.peer = false) ∧
    (∀ again : Bool, ∃ (s : State) (b : ClearBlk) (x : ShardEnt) (h : HomeRec) (k : Nat), s.shardEnt b.shard = some x ∧
      s.bandAt b.engine b.band = some (h, k) ∧ clrUnit (Fin.ofNat 128 x.engine) = 0 ∧ s.admitted b.peer = true ∧ b.down = false ∧
      ((s.treeFor x b.step).kids.find? fun q => q.2 == b.peer) = none ∧ s.int.mbox.length < 4096 ∧
      (s.env.clr[0]).gone.contains (b.peer, b.step, x.shard) = again ∧ s.sealedJob = false) ∧
    (∃ (s : State) (b : ClearBlk) (x : ShardEnt) (h : HomeRec) (k : Nat) (kid : Nat × Nat), s.shardEnt b.shard = some x ∧
      s.bandAt b.engine b.band = some (h, k) ∧ clrUnit (Fin.ofNat 128 x.engine) = 0 ∧ s.admitted b.peer = true ∧ b.down = false ∧
      ((s.treeFor x b.step).kids.find? fun q => q.2 == b.peer) = some kid ∧ s.bandStale 0 x b = false ∧ s.sealedJob = false ∧
      b.zero = true ∧ (s.env.clr[0]).contribs = [] ∧ 1 < (s.shardBands x).length) ∧
    (∃ (s : State) (b : ClearBlk) (x : ShardEnt) (h : HomeRec) (k : Nat) (kid : Nat × Nat) (p : Nat), s.shardEnt b.shard = some x ∧
      s.bandAt b.engine b.band = some (h, k) ∧ clrUnit (Fin.ofNat 128 x.engine) = 0 ∧ s.admitted b.peer = true ∧ b.down = false ∧
      ((s.treeFor x b.step).kids.find? fun q => q.2 == b.peer) = some kid ∧ s.bandStale 0 x b = false ∧ s.sealedJob = false ∧
      b.zero = false ∧ (s.env.clr[0]).contribs = [] ∧ 1 < (s.shardBands x).length ∧ (s.env.clr[0]).freePage = some p ∧
      s.ctlOk (s.bufPage 0 p).1 = true ∧ (s.ctl (s.bufPage 0 p).1).merge.length < 64 ∧ b.data.length = 4096 ∧
      (s.bufPage 0 p).2 < ctlBlocks (s.bufPage 0 p).1 ∧ s.coverKey (s.bufPage 0 p).1 (s.bufPage 0 p).2 = none ∧ s.Sound ∧
      hallmarkOk b.side b.data = true) ∧
    (∃ (s : State) (b : ClearBlk) (x : ShardEnt) (h : HomeRec) (k : Nat) (kid : Nat × Nat), s.shardEnt b.shard = some x ∧
      s.bandAt b.engine b.band = some (h, k) ∧ clrUnit (Fin.ofNat 128 x.engine) = 0 ∧ s.admitted b.peer = true ∧ b.down = false ∧
      ((s.treeFor x b.step).kids.find? fun q => q.2 == b.peer) = some kid ∧ s.bandStale 0 x b = false ∧ s.sealedJob = false ∧
      b.zero = false ∧ hallmarkOk b.side b.data = false ∧
      lookupD (s.env.clr[0]).fails (b.peer, x.shard, b.band) 0 < 2) ∧
    (∃ (s : State) (r : ClrShard) (x : ShardEnt), ((s.env.clr[0]).shards.find? fun r => s.closes r .allArrived) = some r ∧
      s.shardEnt r.shard = some x ∧ (s.clrTree x).parent = none ∧ s.addsDone x = true ∧ (s.env.clr[0]).carries = [] ∧
      ∀ c : CtlId, (s.ctl c).bad = [] ∧ s.ctlOk c = true) ∧
    (∃ (s : State), ∀ r ∈ (s.env.clr[0]).shards, s.closes r .restLost = false) ∧
    (∃ (s : State) (x : ShardEnt) (r : ClrShard) (p : Nat), s.shardEnt x.shard = some x ∧ x.engine = 0 ∧
      (s.env.clr[0]).record s.curStep x.shard = some r ∧ r.handed = true ∧ r.closed = true ∧ r.added = true ∧ r.complete = false ∧
      (s.clrTree x).parent = some p ∧ (s.peer p).state = 4) ∧
    (∃ (s : State) (x : ShardEnt) (r : ClrShard) (p : Nat), s.shardEnt x.shard = some x ∧ x.engine = 0 ∧
      (s.env.clr[0]).record s.curStep x.shard = some r ∧ r.handed = true ∧ r.closed = true ∧ r.added = true ∧
      r.complete = false ∧ (s.clrTree x).parent = some p ∧ (s.peer p).state ≠ 4 ∧
      r.acked < (s.shardBands x).length) ∧
    (∃ (s : State) (x : ShardEnt) (r : ClrShard) (p : Nat), s.shardEnt x.shard = some x ∧ x.engine = 0 ∧
      (s.env.clr[0]).record s.curStep x.shard = some r ∧ r.handed = true ∧ r.closed = true ∧ r.added = true ∧
      r.complete = false ∧ (s.clrTree x).parent = some p ∧ (s.peer p).state ≠ 4 ∧
      (s.shardBands x).length ≤ r.acked ∧ s.gathers = true ∧ r.down = false) ∧
    (∃ (s : State) (x : ShardEnt) (r : ClrShard) (p : Nat), s.shardEnt x.shard = some x ∧ x.engine = 0 ∧
      (s.env.clr[0]).record s.curStep x.shard = some r ∧ r.handed = true ∧ r.closed = true ∧ r.added = true ∧
      r.complete = false ∧ (s.clrTree x).parent = some p ∧ (s.peer p).state ≠ 4 ∧
      (s.shardBands x).length ≤ r.acked ∧ s.gathers = false) ∧
    (∃ (s : State) (x : ShardEnt) (r : ClrShard) (p : Nat), s.shardEnt x.shard = some x ∧ x.engine = 0 ∧
      (s.env.clr[0]).record s.curStep x.shard = some r ∧ r.handed = true ∧ r.closed = true ∧ r.added = true ∧
      r.complete = false ∧ (s.clrTree x).parent = some p ∧ (s.peer p).state ≠ 4 ∧
      (s.shardBands x).length ≤ r.acked ∧ s.gathers = true ∧ r.down = true ∧
      (∀ c : CtlId, (s.ctl c).bad = [] ∧ s.ctlOk c = true) ∧ (s.clrTree x).kids = []) ∧
    (∃ (s : State) (x : ShardEnt) (r : ClrShard), s.shardEnt x.shard = some x ∧ x.engine = 0 ∧
      (s.env.clr[0]).record s.curStep x.shard = some r ∧ r.handed = true ∧ r.closed = true ∧ r.added = true ∧ r.complete = false ∧
      (s.clrTree x).parent = none ∧ s.gathers = false ∧
      ∀ h ∈ s.shardHomes x, (s.eng[h.eng.val]).arr.homeFlight = []) ∧
    (∃ (s : State) (x : ShardEnt) (peer : Nat), s.shardEnt 9 = some x ∧ x.engine = 0 ∧ s.admitted peer = false) ∧
    (∃ (s : State) (x : ShardEnt) (peer : Nat) (r : ClrShard), s.shardEnt 9 = some x ∧ x.engine = 0 ∧
      s.admitted peer = true ∧ (s.clrTree x).parent = some peer ∧ (s.env.clr[0]).record s.curStep x.shard = some r) := by
  refine ⟨⟨clearing 0x11 1, wBand true [] 0, _, wHome2, 1, rfl, by decide +kernel, by decide +kernel⟩,
    fun again => ⟨(clearing 0x22 2).modClr 0 fun c => { c with gone := if again then [(0, 1, 9)] else [] }, wBand true [] 0,
      { wShard with owner := 0x22 }, wHome2, 1, by cases again <;> decide +kernel⟩,
    ⟨clearing 0x11 2, wBand true [] 0, { wShard with owner := 0x11 }, wHome2, 1, (1, 0), by decide +kernel⟩,
    ⟨(clearing 0x11 2).modClr 0 fun c => { c with pages := 4 }, wBand false zeros (crc32c zeros), { wShard with owner := 0x11 },
      wHome2, 1, (1, 0), 0, by decide +kernel, by decide +kernel, by decide +kernel, by decide +kernel, rfl, by decide +kernel,
      by decide +kernel, by decide +kernel, rfl, by decide +kernel, by decide +kernel, by decide +kernel, by decide +kernel,
      by decide +kernel, List.length_replicate, by decide +kernel, by decide +kernel, ?_, hallmarkOk_mkSide _ _ _ _ _ _ _ _ _ rfl⟩,
    ⟨clearing 0x11 2, wBand false [1] 0, { wShard with owner := 0x11 }, wHome2, 1, (1, 0), by decide +kernel⟩,
    ⟨withRecord 0x11 2 fun r => { r with arrivals := [1] }, wClr fun r => { r with arrivals := [1] },
      { wShard with owner := 0x11 }, by decide +kernel, by decide +kernel, by decide +kernel, by decide +kernel, by decide +kernel,
      withRecord_ctl _ _ _⟩,
    ⟨withRecord 0x11 2 id, by decide +kernel⟩,
    ⟨withRecord 0x22 4 added, { wShard with owner := 0x22 }, wClr added, 0, by decide +kernel⟩,
    ⟨withRecord 0x22 2 added, { wShard with owner := 0x22 }, wClr added, 0, by decide +kernel⟩,
    ⟨gathering acked, { wShard with owner := 0x22 }, wClr acked, 0, by decide +kernel⟩,
    ⟨withRecord 0x22 2 acked, { wShard with owner := 0x22 }, wClr acked, 0, by decide +kernel⟩,
    ⟨gathering handedDown, { wShard with owner := 0x22 }, wClr handedDown, 0, by decide +kernel, by decide +kernel, by decide +kernel,
      rfl, rfl, rfl, rfl, by decide +kernel, by decide +kernel, by decide +kernel, by decide +kernel, rfl, withRecord_ctl 0x22 2 handedDown,
      by decide +kernel⟩,
    ⟨withRecord 0x11 2 added, { wShard with owner := 0x11 }, wClr added, by decide +kernel⟩,
    ⟨clearing 0x22 1, { wShard with owner := 0x22 }, 0, by decide +kernel⟩,
    ⟨withRecord 0x22 2 added, { wShard with owner := 0x22 }, 0, wClr added, by decide +kernel⟩⟩
  exact ⟨up_sound.1, up_sound.2, up_sound.3, up_sound.4, up_sound.5, up_sound.6, up_sound.7⟩

/-- The peer, and a sealed job with it. -/
def sealedPeer (p : PeerSt) : State := withPeer { peerJob with sealed := true } p

theorem test_peers :
    (∃ (s : State) (e : PeerEnt), s.peerEnt 0 = some e ∧ 0 < s.env.peers.length ∧ (s.peer 0).state ≠ 4 ∧
      s.admitted 0 = true) ∧
    (∃ (s : State) (e : PeerEnt), s.peerEnt 0 = some e ∧ 0 < s.env.peers.length ∧ s.job.locked = true ∧
      s.job.state ≠ .activating ∧ s.job.state ≠ .releasing ∧ (s.peer 0).state < 2) ∧
    (∃ (s : State) (e : PeerEnt) (c : Charter), s.peerEnt 0 = some e ∧ 0 < s.env.peers.length ∧ s.job.charter = some c ∧
      (s.peer 0).state = 1 ∧ (s.peer 0).reportOk = false ∧ e.storage = true) ∧
    (∃ (s : State) (e : PeerEnt) (c : Charter), s.peerEnt 0 = some e ∧ 0 < s.env.peers.length ∧ s.job.charter = some c ∧
      (s.peer 0).state = 1 ∧ (s.peer 0).reportOk = false ∧ e.storage = false) ∧
    (∃ (s : State) (e : PeerEnt), s.peerEnt 0 = some e ∧ 0 < s.env.peers.length ∧ s.sealedJob = true ∧
      (s.peer 0).module.toNat ≤ s.ownModule.toNat ∧ (s.peer 0).state = 2) ∧
    (∃ (s : State) (e : PeerEnt), s.peerEnt 0 = some e ∧ 0 < s.env.peers.length ∧ (s.peer 0).state = 1 ∧
      (s.peer 0).ownNonce.isSome = true ∧ (s.peer 0).peerNonce.isSome = true ∧ s.sealedJob = false) ∧
    (∃ (s : State) (e : PeerEnt) (ss : Dig256), s.peerEnt 0 = some e ∧ 0 < s.env.peers.length ∧ (s.peer 0).state = 2 ∧
      (s.peer 0).secret = some ss ∧ (s.peer 0).rekeying = true) ∧
    (∃ (s : State) (e : PeerEnt), s.peerEnt 0 = some e ∧ 0 < s.env.peers.length ∧ s.sealedJob = true ∧
      (s.peer 0).state = 1 ∧ (s.peer 0).ownNonce.isSome = true ∧ (s.peer 0).peerNonce.isSome = true ∧
      (s.peer 0).secret.isSome = true) ∧
    (∀ w : Bool, ∃ (s : State) (e : PeerEnt), s.peerEnt 0 = some e ∧ 0 < s.env.peers.length ∧ s.sealedJob = true ∧
      (s.peer 0).state = 2 ∧ (s.peer 0).rekeying = false ∧ s.ownModule.toNat < (s.peer 0).module.toNat ∧
      (s.peer 0).worn = w) :=
  ⟨⟨withPeer peerJob (wPs 2), wPe, by decide +kernel⟩, ⟨withPeer peerJob (wPs 0), wPe, by decide +kernel⟩,
   ⟨withPeer { peerJob with peers := { peerJob.peers with entries := [{ wPe with storage := true }] } } (wPs 1),
      { wPe with storage := true }, _, rfl, by decide +kernel, rfl, rfl, rfl, rfl⟩,
   ⟨withPeer peerJob (wPs 1), wPe, _, rfl, by decide +kernel, rfl, rfl, rfl, rfl⟩,
   ⟨sealedPeer { wPs 2 with module := 0x10 }, wPe, by decide +kernel⟩,
   ⟨withPeer peerJob { wPs 1 with ownNonce := some 1, peerNonce := some 2 }, wPe, by decide +kernel⟩,
   ⟨sealedPeer { wPs 2 with secret := some 3, rekeying := true }, wPe, 3, by decide +kernel⟩,
   ⟨sealedPeer { wPs 1 with ownNonce := some 1, peerNonce := some 2, secret := some 3 }, wPe, by decide +kernel⟩,
   fun w => ⟨sealedPeer { wPs 2 with ctrTx := (wPs 2).ctrTx.set 7 (if w then 2 ^ 40 else 2 ^ 40 - 1) }, wPe, by
     cases w <;> decide +kernel⟩⟩

/-! ### Memory controllers -/

/-- What a read meets: the faults given, and no error of a cache line. -/
def meets (f : List (Nat × CwFault)) : ReadMet := { faults := f, cacheCe := 0, cacheUe := [] }

def wRead (a n : Nat) (f : List (Nat × CwFault)) : MemRead :=
  { addr := a, len := n, who := .tile 0, noAlloc := false, mb := noMb, met := meets f }

def wWrite (a : Nat) (d : List Byte) (x : Option Sideband) : MemWrite := { addr := a, data := d, side := x, who := .tile 0, evict := none }

/-- A sealed job whose memory key is held, vault 0's page 0 covered. -/
def sealing : State :=
  (inCharter { wJob with
    sealed := true
    sealing := some { (default : Sealing) with
      areas := List.replicate 80 { (default : TagArea) with count := 1 } } } .running).modSec fun x => { x with memKey := some 1 }

/-- A codeword with one byte pending of the tile's. -/
def wMerge : MergeEnt := ⟨0, [(0, 1)], [.tile 0], []⟩

def merging : State := up.modCtl (.vault 0) fun c => { c with merge := [wMerge] }

/-- The codeword of the sidebands of pages 0 and 1 of vault 0, page 0's half of it pending. -/
def wHalf : MergeEnt := ⟨sideCw (.vault 0) 1, (List.range 32).map fun i => (i, 0), [.tile 0], []⟩

def halfSide : State := up.modCtl (.vault 0) fun c => { c with merge := [wHalf] }

theorem halfSide_sound : halfSide.Sound :=
  State.modCtl_sound _ _ _ up_sound fun _ h => ⟨h.1, (by decide : (1 : Nat) ≤ 64), fun m g => by
    rw [List.mem_singleton.1 g]; exact ⟨by decide +kernel, by decide +kernel, by decide +kernel⟩⟩

theorem length_mergeBytes (l : List Byte) : ∀ (old : List (Nat × Byte)) (off : Nat), (∀ x ∈ old, x.1 < off) →
    (mergeBytes old off l).length = old.length + l.length := by
  induction l with
  | nil => intro old off _; rfl
  | cons b bs ih =>
    intro old off h
    have e : old.filter (fun p => p.1 != off) = old :=
      List.filter_eq_self.2 fun p g => by have := h p g; simp only [bne_iff_ne, ne_eq]; omega
    rw [mergeBytes, ih _ _ (by
      simp only [assocSet, e, List.mem_cons, forall_eq_or_imp, Nat.lt_succ_self, true_and]
      exact fun x g => Nat.lt_succ_of_lt (h x g))]
    simp only [assocSet, e, List.length_cons]; omega

theorem halfSide_full (x : Sideband) : 64 ≤ (mergeBytes wHalf.bytes (4096 / 4096 % 2 * 32) x.bytes).length := by
  rw [length_mergeBytes _ _ _ (by decide +kernel)]
  simp [wHalf, Sideband.bytes, length_toBytes]

theorem merging_sound : merging.Sound :=
  State.modCtl_sound _ _ _ up_sound fun _ h => ⟨h.1, (by decide : (1 : Nat) ≤ 64), fun m g => by
    rw [List.mem_singleton.1 g]; exact ⟨by decide, fun x h => by rw [List.mem_singleton.1 h]; decide, by decide⟩⟩

/-- A write of a controller that it takes, outside every sealed page. -/
structure WriteComes (ctl : CtlId) (s : State) (q : MemWrite) : Prop where
  ok : s.ctlOk ctl = true
  sound : s.Sound
  fits : q.addr + q.data.length ≤ ctlBytes ctl
  isOpen : s.sealedFor q.who ctl q.addr q.data.length = false

theorem test_requests :
    (∃ (ctl : CtlId) (q : MemRead), ctlBytes ctl < q.addr + q.len) ∧
    (∃ (ctl : CtlId) (q : MemWrite), ctlBytes ctl < q.addr + q.data.length) ∧
    (∃ (ctl : CtlId) (s : State) (q : MemRead), s.ctlOk ctl = false ∧ q.addr + q.len ≤ ctlBytes ctl) ∧
    (∃ (ctl : CtlId) (s : State) (q : MemWrite), s.ctlOk ctl = false ∧ q.addr + q.data.length ≤ ctlBytes ctl) ∧
    (∃ (ctl : CtlId) (s : State) (q : MemRead), s.ctlOk ctl = true ∧ q.addr + q.len ≤ ctlBytes ctl ∧
      s.sealedFor q.who ctl q.addr q.len = true) ∧
    (∃ (ctl : CtlId) (s : State) (q : MemWrite), s.ctlOk ctl = true ∧ q.addr + q.data.length ≤ ctlBytes ctl ∧
      s.sealedFor q.who ctl q.addr q.data.length = true) ∧
    (∃ (ctl : CtlId) (s : State) (q : MemRead), s.ctlOk ctl = true ∧ q.addr + q.len ≤ ctlBytes ctl ∧
      s.sealedFor q.who ctl q.addr q.len = false ∧ q.met.faults = [] ∧
      (s.ctl ctl).badIn ctl (q.addr / 256 * 256) ((q.addr % 256 + q.len + 255) / 256 * 256) [] = []) ∧
    (∃ (s : State) (q : MemRead) (v : VaultId), s.ctlOk (.vault v) = true ∧ q.addr + q.len ≤ ctlBytes (.vault v) ∧
      s.sealedFor q.who (.vault v) q.addr q.len = false ∧ (s.ctl (.vault v)).badIn (.vault v) q.addr q.len q.met.faults ≠ [] ∧
      s.job.state = .running ∧ s.job.stepOn = true ∧ s.int.holding = false ∧ s.int.replay = none ∧ q.who = .tile 0) ∧
    (∃ (s : State) (q : MemRead) (f : FarId), s.ctlOk (.far f) = true ∧ q.addr + q.len ≤ ctlBytes (.far f) ∧
      s.sealedFor q.who (.far f) q.addr q.len = false ∧ (∀ i, s.resident f i = false) ∧
      (s.ctl (.far f)).badIn (.far f) q.addr q.len q.met.faults ≠ []) ∧
    (∃ (ctl : CtlId) (s : State) (q : MemWrite) (x : Sideband), WriteComes ctl s q ∧ q.side = some x ∧ q.addr % 4096 = 0 ∧
      q.data.length = 4096 ∧ hallmarkOk x q.data = true ∧ s.coverKey ctl (q.addr / 4096) = none ∧
      (s.ctl ctl).merge = []) ∧
    (∃ (ctl : CtlId) (s : State) (q : MemWrite) (x : Sideband) (y : MergeEnt), WriteComes ctl s q ∧ q.side = some x ∧
      q.addr % 4096 = 0 ∧ q.data.length = 4096 ∧ hallmarkOk x q.data = true ∧ s.coverKey ctl (q.addr / 4096) = none ∧
      (s.ctl ctl).merge.length < 64 ∧ ((s.ctl ctl).merge.find? fun y => y.cw == sideCw ctl (q.addr / 4096)) = some y ∧
      64 ≤ (mergeBytes y.bytes (q.addr / 4096 % 2 * 32) x.bytes).length) ∧
    (∃ (ctl : CtlId) (s : State) (q : MemWrite) (x : Sideband), WriteComes ctl s q ∧ q.side = some x ∧ q.addr % 4096 = 0 ∧
      q.data.length = 4096 ∧ hallmarkOk x q.data = false) ∧
    (∃ (ctl : CtlId) (s : State) (q : MemWrite), WriteComes ctl s q ∧ q.side = none ∧ s.tagArea ctl = none ∧
      (s.ctl ctl).bad = [] ∧ q.evict = none ∧ q.addr % 4096 + q.data.length < 4096 ∧ q.data ≠ []) ∧
    (∃ (ctl : CtlId) (s : State) (q : MemWrite), WriteComes ctl s q ∧ q.addr % 64 + q.data.length ≤ 64 ∧
      s.coverKey ctl (q.addr / 4096) ≠ none ∧ plainReq q.who = true) ∧
    (∃ (ctl : CtlId) (s : State) (q : MemWrite), WriteComes ctl s q ∧ q.addr % 64 + q.data.length ≤ 64 ∧
      s.coverKey ctl (q.addr / 4096) = none ∧ q.data = []) ∧
    (∃ (ctl : CtlId) (s : State) (q : MemWrite), WriteComes ctl s q ∧ q.addr % 64 + q.data.length ≤ 64 ∧
      s.coverKey ctl (q.addr / 4096) = none ∧ q.data ≠ [] ∧ (∀ m ∈ (s.ctl ctl).merge, m.cw ≠ q.addr / 64) ∧
      (s.ctl ctl).merge.length < 64) ∧
    (∃ (ctl : CtlId) (s : State) (q : MemWrite) (m : MergeEnt), WriteComes ctl s q ∧ q.addr % 64 + q.data.length ≤ 64 ∧
      s.coverKey ctl (q.addr / 4096) = none ∧ q.data ≠ [] ∧
      ((s.ctl ctl).merge.find? fun x => x.cw == q.addr / 64) = some m) := by
  refine ⟨⟨.vault 0, wRead (ctlBytes (.vault 0)) 1 [], by decide⟩, ⟨.far 0, wWrite (ctlBytes (.far 0)) [1] none, by decide⟩,
    ⟨.vault 0, State.reset, wRead 0 64 [], by decide +kernel⟩, ⟨.far 0, State.reset, wWrite 0 [1] none, by decide +kernel⟩,
    ⟨.vault 0, sealing, { wRead 0 64 [] with who := .host }, by decide +kernel⟩,
    ⟨.vault 0, sealing, { wWrite 0 [1] none with who := .bursarLoad }, by decide +kernel⟩,
    ⟨.far 47, up, wRead 0 64 [], by decide +kernel⟩,
    ⟨onRow (row 0 0 0 0) id, wRead 64 128 [(1, .uncorrectable (some 3))], 31, by decide +kernel, by decide +kernel,
      by decide +kernel, ?_, by decide +kernel⟩,
    ⟨up, wRead 64 128 [(1, .uncorrectable none)], 47, by decide +kernel, by decide +kernel, by decide +kernel, fun i => rfl, ?_⟩,
    ⟨.vault 0, up, wWrite 4096 zeros (some (mkSide (crc32c zeros) 3 false 1 noMb 5 1 0)), _,
      ⟨by decide +kernel, up_sound, ?_, rfl⟩, rfl, rfl, List.length_replicate, hallmarkOk_mkSide _ _ _ _ _ _ _ _ _ rfl,
      by decide +kernel, by decide +kernel⟩,
    ⟨.vault 0, halfSide, wWrite 4096 zeros (some (mkSide (crc32c zeros) 3 false 1 noMb 5 1 0)), _, wHalf,
      ⟨by decide +kernel, halfSide_sound, ?_, rfl⟩, rfl, rfl, List.length_replicate, hallmarkOk_mkSide _ _ _ _ _ _ _ _ _ rfl,
      by decide +kernel, by decide +kernel, by decide +kernel, halfSide_full _⟩,
    ⟨.vault 0, up, wWrite 4096 zeros (some default), default, ⟨by decide +kernel, up_sound, ?_, rfl⟩, rfl,
      rfl, List.length_replicate, by decide +kernel⟩,
    ⟨.vault 0, up, wWrite 64 (List.replicate 64 5) none, ⟨by decide +kernel, up_sound, by decide +kernel, rfl⟩, rfl,
      by decide +kernel, by decide +kernel, by decide +kernel, by decide +kernel⟩,
    ⟨.vault 0, sealing, wWrite 63 [1] none, ⟨by decide +kernel, State.modSec_sound _ _ (sound_of up_sound) fun _ h => h,
      by decide +kernel, by decide +kernel⟩, by decide +kernel, by decide +kernel, rfl⟩,
    ⟨.vault 0, up, wWrite 63 [] none, ⟨by decide +kernel, up_sound, by decide +kernel, rfl⟩, by decide +kernel, by decide +kernel,
      rfl⟩,
    ⟨.vault 0, up, wWrite 63 [1] none, ⟨by decide +kernel, up_sound, by decide +kernel, rfl⟩, by decide +kernel,
      by decide +kernel, by decide +kernel, by decide +kernel, by decide +kernel⟩,
    ⟨.vault 0, merging, wWrite 1 [1] none, wMerge, ⟨by decide +kernel, merging_sound, by decide +kernel, rfl⟩,
      by decide +kernel, by decide +kernel, by decide +kernel, by decide +kernel⟩⟩
  all_goals first
    | (rw [show (wWrite 4096 zeros _).data = zeros from rfl, show zeros.length = 4096 from List.length_replicate]; decide +kernel)
    | decide +kernel

theorem test_mending :
    (∃ (ctl : CtlId) (s : State) (m : MergeEnt) (r : List MergeEnt), (s.ctl ctl).merge = m :: r ∧ s.Sound ∧
      s.coverKey ctl (m.cw * 64 / 4096) = none ∧ (s.ctl ctl).bad.contains m.cw = false) ∧
    (∃ (s : State) (m : MergeEnt) (r : List MergeEnt) (f : FarId) (e : EngineId) (ch : ChanId) (p : Nat) (x : Sideband),
      (s.ctl (.far f)).merge = m :: r ∧ s.Sound ∧ s.resident f (m.cw / 4) = false ∧ Requester.dma e ch ∈ m.writes ∧
      (s.chan e ch).slip.isSome = true ∧ m.old = [(p, x)]) ∧
    (∃ (s : State) (m : MergeEnt) (r : List MergeEnt) (v : VaultId), (s.ctl (.vault v)).merge = m :: r ∧ s.Sound ∧
      (s.ctl (.vault v)).bad.contains m.cw = true) ∧ (∃ (ctl : CtlId) (s : State), (s.ctl ctl).merge = []) ∧
    (∃ (ctl : CtlId) (s : State), (s.ctl ctl).scrubOn = true ∧ (∀ m ∈ (s.ctl ctl).merge, m.cw ≠ (s.ctl ctl).pos) ∧
      (s.ctl ctl).bad.contains (s.ctl ctl).pos = true) ∧
    (∃ (ctl : CtlId) (s : State), (s.ctl ctl).scrubOn = true ∧ (∀ m ∈ (s.ctl ctl).merge, m.cw ≠ (s.ctl ctl).pos) ∧
      (s.ctl ctl).bad.contains (s.ctl ctl).pos = false ∧ (s.ctl ctl).marked = none) ∧
    (∃ (ctl : CtlId) (d : Fin 8) (s : State), (s.ctl ctl).marked = none ∧
      fld (s.ctl ctl).cfg 31 16 ≤ (s.ctl ctl).dieCe[d.val]) ∧
    (∃ (ctl : CtlId) (s : State), (s.ctl ctl).marked.isSome = true) ∧
    (∃ (ctl : CtlId) (d : Fin 8) (s : State) (k : Nat), (s.ctl ctl).marked = some k ∧ k ≠ d.val ∧
      fld (s.ctl ctl).cfg 31 16 ≤ (s.ctl ctl).dieUe[d.val]) :=
  ⟨⟨.vault 0, merging, wMerge, [], rfl, merging_sound, by decide +kernel, by decide +kernel⟩,
   ⟨(running6 (wSlip 512) 0).modCtl (.far 0) fun c => { c with merge := [{ wMerge with writes := [.dma 0 6], old := [(1, default)] }] },
      _, [], 0, 0, 6, 1, default, rfl,
      State.modCtl_sound _ _ _ (running6_sound _ _) fun _ h => ⟨h.1, (by decide : (1 : Nat) ≤ 64), fun m g => by
        rw [List.mem_singleton.1 g]; exact ⟨by decide, fun x h => by rw [List.mem_singleton.1 h]; decide, by decide⟩⟩,
      rfl, by decide +kernel, by decide +kernel, rfl⟩,
   ⟨merging.modCtl (.vault 0) fun c => { c with bad := [0] }, wMerge, [], 0, rfl,
      State.modCtl_sound _ _ _ merging_sound fun _ h => ⟨h.1, h.2⟩, by decide +kernel⟩,
   ⟨.vault 0, up, by decide +kernel⟩, ⟨.vault 31, up.modCtl (.vault 31) fun c => { c with scrubOn := true, bad := [0] }, by decide +kernel⟩,
   ⟨.far 0, up.modCtl (.far 0) fun c => { c with scrubOn := true }, by decide +kernel⟩,
   ⟨.far 1, 7, up.modCtl (.far 1) fun c => { c with cfg := 0x40_0080, dieCe := Vector.replicate 8 64 }, by decide +kernel⟩,
   ⟨.far 1, up.modCtl (.far 1) fun c => { c with marked := some 0 }, by decide +kernel⟩,
   ⟨.far 1, 7, up.modCtl (.far 1) fun c => { c with cfg := 0x40_0080, marked := some 0, dieUe := Vector.replicate 8 64 }, 0,
     by decide +kernel⟩⟩

/-! ### Images and reports that their makers sign -/

/-- The signature block of R32. -/
def sigBlock (k msg : Dig512) : List Byte :=
  [0x87, 0, 0, 0] ++ (toBytes (Config.mlDsaSign k msg) 4627 ++ List.replicate 3561 0)

theorem length_sigBlock (k msg : Dig512) : (sigBlock k msg).length = 8192 := by
  simp only [sigBlock, List.length_append, length_toBytes, List.length_replicate, List.length_cons, List.length_nil]

/-- The head of an assay image of the maker, 8,216 bytes in all. -/
def assayHead : List Byte :=
  [0x53, 0x41, 0x43, 0x5A, 1, 0, 0, 0] ++ List.replicate 8 0 ++ [0x18, 0x20, 0, 0] ++ List.replicate 4 0

def assayImage : List Byte := assayHead ++ sigBlock Config.makerKeyHash (Config.sha3_512 assayHead)

theorem test_assay_image (s : State) : s.assayOk assayImage = true := by
  have L : assayHead.length = 24 := by simp only [assayHead, List.length_append, List.length_replicate, List.length_cons, List.length_nil]
  have n : assayImage.length = 8216 := by simp only [assayImage, List.length_append, L, length_sigBlock]
  have d : assayImage.drop 24 = sigBlock Config.makerKeyHash (Config.sha3_512 assayHead) := by
    rw [assayImage, List.drop_append_of_le_length (by omega), List.drop_of_length_le (by omega), List.nil_append]
  have t : assayImage.take 24 = assayHead := by
    rw [assayImage, List.take_append_of_le_length (by omega), List.take_of_length_le (by omega)]
  have h : ∀ i k : Nat, i + k ≤ 24 → rdNat assayImage i k = rdNat assayHead i k := fun i k h => rdNat_head _ _ _ _ (by omega)
  have z : allZero (List.replicate 3561 (0 : Byte)) = true :=
    List.all_eq_true.2 fun x h => by rw [List.eq_of_mem_replicate h]; rfl
  have g : imageSigned Config.makerKeyHash assayImage = true := by
    simp only [imageSigned, n, Nat.reduceSub, d, t]
    have a : rdNat (sigBlock Config.makerKeyHash (Config.sha3_512 assayHead)) 0 4 = 0x87 := by
      rw [sigBlock, rdNat_head _ _ _ _ (by simp)]; decide
    have b : (sigBlock Config.makerKeyHash (Config.sha3_512 assayHead)).drop 0x1217 = List.replicate 3561 0 := by
      rw [sigBlock, ← List.append_assoc, List.drop_append_of_le_length (by simp [length_toBytes]),
        List.drop_of_length_le (by simp [length_toBytes]), List.nil_append]
    have c : slice (sigBlock Config.makerKeyHash (Config.sha3_512 assayHead)) 4 4627 =
        toBytes (Config.mlDsaSign Config.makerKeyHash (Config.sha3_512 assayHead)) 4627 :=
      slice_mid _ _ _ 4 4627 rfl (length_toBytes _ _)
    simp only [a, b, c, z, mlDsaOk, beq_self_eq_true, Bool.true_or, Bool.and_true, decide_eq_true_eq]
    decide
  simp only [State.assayOk, h 6 1 (by omega), h 0 4 (by omega), h 4 2 (by omega), h 16 4 (by omega), n]
  rw [show rdNat assayHead 6 1 = 0 by decide +kernel, show rdNat assayHead 0 4 = 0x5A434153 by decide +kernel,
    show rdNat assayHead 4 2 = 1 by decide +kernel, show rdNat assayHead 16 4 = 8216 by decide +kernel]
  simp only [g]
  rfl

/-- A peer's report: nonce 0, identifier 0x22, a job set of zeros, no sealing; it comes with the maker's chain. -/
def reportHead : List Byte := [0x54, 0x41, 0x43, 0x5A, 1, 0, 0x22, 0] ++ List.replicate 2552 0

def peerReport : List Byte :=
  (reportHead ++ List.replicate 4 0) ++ (toBytes (Config.mlDsaSign (Config.sha3_512 (Config.x509Key Config.makerLeaf)) (Config.sha3_512 reportHead)) 4627 ++ List.replicate 3561 0)

theorem test_peer_report : (withPeer peerJob { wPs 1 with ownNonce := some 0 }).reportGood peerJob 0 wPe peerReport Config.makerChain = true := by
  have L : reportHead.length = 2560 := by simp only [reportHead, List.length_append, List.length_replicate, List.length_cons, List.length_nil]
  have n : peerReport.length = 10752 := by
    simp only [peerReport, List.length_append, L, length_toBytes, List.length_replicate]
  have t : peerReport.take 0xA00 = reportHead := by
    rw [peerReport, List.append_assoc, List.take_append_of_le_length (by omega), List.take_of_length_le (by omega)]
  have h : ∀ i k : Nat, i + k ≤ 2560 → rdNat peerReport i k = rdNat reportHead i k := fun i k h => by
    rw [peerReport, List.append_assoc]; exact rdNat_head _ _ _ _ (by omega)
  have c : slice peerReport 0xA04 4627 = toBytes (Config.mlDsaSign (Config.sha3_512 (Config.x509Key Config.makerLeaf)) (Config.sha3_512 reportHead)) 4627 :=
    slice_mid _ _ _ _ _ (by simp [L]) (length_toBytes _ _)
  simp only [State.reportGood, rdW, Nat.reduceAdd, Nat.reduceDiv, h 0 4 (by omega), h 4 2 (by omega), h 48 32 (by omega),
    h 6 2 (by omega), h 336 64 (by omega), h 29 1 (by omega), n, t, c, certOk, chainLeaf, if_pos, mlDsaOk, beq_self_eq_true, Bool.true_or]
  decide +kernel

/-- An image that the maker signs is a firmware image. -/
theorem test_made_image (s : State) (h : s.sec.floor = 0) (n : Nat) (g : 7219 ≤ n) :
    s.fwOk (toBytes (Config.fwMade n) n) = true := by
  simp only [State.fwOk, fwSignedOk]
  rw [length_toBytes]
  simp [h, g]

theorem test_short_image (s : State) : s.fwOk [1] = false := by simp [State.fwOk, fwSignedOk]

/-! ### Span, parity, mailbox -/

def withLane (k : Fin 16) (l : LaneSt) : State :=
  { inCharter wJob .running with span := { SpanSt.init with lanes := SpanSt.init.lanes.set k.val l } }

/-- The first lane module about to lock, every other one out of service. -/
def lastLane : SpanSt :=
  { SpanSt.init with lanes := (Vector.replicate 16 { LaneSt.init with state := 0 }).set 0 { LaneSt.init with state := 2, attempts := 3 } }

/-- Every lane module locked or agreed but the first, which is about to lock. -/
def lanesUp : State :=
  let l : LaneSt := { LaneSt.init with state := 3 }
  { withLane 0 l with span := { SpanSt.init with lanes := (Vector.replicate 16 l).set 0 { l with state := 2, attempts := 3 } } }

theorem test_span :
    (∃ (lm : Fin 16) (s : State) (code : BitVec 4), (s.span.lanes[lm.val]).state = 3 ∧
      code.getLsbD 3 ≠ (code.getLsbD 0 ^^ code.getLsbD 1 ^^ code.getLsbD 2)) ∧
    (∃ (lm : Fin 16) (s : State) (code : BitVec 4), (s.span.lanes[lm.val]).state = 3 ∧
      code.setWidth 3 ≠ (s.span.lanes[lm.val]).agreed) ∧
    (∃ (lm : Fin 16) (s : State) (code : BitVec 4), (s.span.lanes[lm.val]).state = 3 ∧
      code.getLsbD 3 = (code.getLsbD 0 ^^ code.getLsbD 1 ^^ code.getLsbD 2) ∧ code.setWidth 3 = (s.span.lanes[lm.val]).agreed) ∧
    (∃ (lm : Fin 16) (s : State), (s.span.lanes[lm.val]).state = 2 ∧ (s.span.lanes[lm.val]).attempts < 3) ∧
    (∃ (lm : Fin 16) (s : State), 3 ≤ (s.span.lanes[lm.val]).attempts) ∧
    (∃ (lm : Fin 16) (s : State), (s.span.lanes[lm.val]).state = 2 ∧ (s.span.lanes[lm.val]).attempts = 3 ∧
      ∃ k : Fin 16, k ≠ lm ∧ (s.span.lanes[k.val]).state ≠ 0) ∧
    (∃ (lm : Fin 16) (s : State), (s.span.lanes[lm.val]).state = 2 ∧ (s.span.lanes[lm.val]).attempts = 3 ∧
      (∀ k : Fin 16, k ≠ lm → (s.span.lanes[k.val]).state = 0) ∧ s.job.state = .running) ∧
    (∃ (lm : Fin 16) (s : State), (s.span.lanes[lm.val]).state = 2 ∧ (s.span.lanes[lm.val]).attempts = 3 ∧
      (∀ k : Fin 16, k ≠ lm → (s.span.lanes[k.val]).state = 0) ∧ s.job.state = .active) ∧
    (∃ (lm : Fin 16) (s : State), (s.span.lanes[lm.val]).attempts ≠ 3) ∧
    (∃ got : List (W32 × Bool), got.all parityOk = true) ∧ (∃ got : List (W32 × Bool), got.all parityOk = false) ∧
    (∃ (s : State) (m : MboxEntry) (r : List MboxEntry), s.int.mbox = m :: r ∧ s.errPorts ≠ []) ∧
    (∃ (s : State) (m : MboxEntry) (r : List MboxEntry), s.int.mbox = m :: r ∧ s.errPorts = []) ∧
    (∃ s : State, s.int.mbox.length < 4096 ∧ ∃ i : Nat, ∃ h : i < 16, s.int.ovfByClass[i] ≠ 0) ∧
    (∃ s : State, ∀ i : Nat, ∀ h : i < 16, s.int.ovfByClass[i] = 0) :=
  ⟨⟨15, withLane 15 { LaneSt.init with state := 3, agreed := 2 }, 2, by decide +kernel⟩,
   ⟨15, withLane 15 { LaneSt.init with state := 3, agreed := 4 }, 10, by decide +kernel⟩,
   ⟨15, withLane 15 { LaneSt.init with state := 3, agreed := 2 }, 10, by decide +kernel⟩,
   ⟨15, withLane 15 { LaneSt.init with state := 2, attempts := 2 }, by decide +kernel⟩,
   ⟨0, lanesUp, by decide +kernel⟩,
   ⟨0, lanesUp, by decide +kernel, by decide +kernel, 15, by decide, by decide +kernel⟩,
   ⟨0, { lanesOut (inCharter wJob .running) with span := lastLane }, by decide +kernel⟩,
   ⟨0, { lanesOut (inCharter wJob .active) with span := lastLane }, by decide +kernel⟩, ⟨0, up, by decide +kernel⟩,
   ⟨[(3, false), (7, true)], by decide +kernel⟩, ⟨[(3, false), (7, false)], by decide +kernel⟩,
   ⟨(up.modInt fun x => { x with mbox := [default], errCfg := 0x3_88B5 }).modGlb fun g => { g with mgmtLink := 0x100 },
     default, [], rfl, by decide +kernel⟩,
   ⟨up.modInt fun x => { x with mbox := [default], errCfg := 0x3_88B5 }, default, [], rfl, by decide +kernel⟩,
   ⟨up.modInt fun x => { x with ovfByClass := x.ovfByClass.set 15 1 }, by decide +kernel, 15, by decide, by decide +kernel⟩,
   ⟨up, by decide +kernel⟩⟩

/-- A step runs, and no replay is marked or under way. -/
def Marks (s : State) : Prop :=
  s.job.state = .running ∧ s.job.stepOn = true ∧ s.int.holding = false ∧ s.int.replay = none

theorem test_given_up :
    (∃ s : State, s.int.mbox.length < 4096) ∧
    (∀ sent : Bool, ∃ (s : State) (e : EngineId) (ch : ChanId) (z : Slip), 6 ≤ ch.val ∧ s.engOk e.val = true ∧
      (s.chan e ch).busy = true ∧ (s.chan e ch).slip = some z ∧ (s.chan e ch).halting = none ∧
      s.owes e ch (placeOf e z.w2) = false ∧ s.owes e ch (placeOf e z.w4) = false ∧
      s.placePinned (placeOf e (s.chan e ch).cur) 64 = false ∧ (s.chan e ch).openBlks = if sent then 1 else 0) ∧
    (∃ (s : State) (e : EngineId) (b : HomeBand), Marks s ∧ s.engOk e.val = true ∧ s.firstBand e (.vault 0) = some b) ∧
    (∃ (s : State) (e : EngineId), Marks s ∧ (s.eng[e.val]).seq.running = true) ∧
    (∃ (s : State) (e : EngineId) (ps : Pass) (k : TileKey) (arr : ArrId) (d : LayerDesc), Marks s ∧
      (s.eng[e.val]).seq.pass = some ps ∧ s.nextClose e ps = some (k, arr) ∧ s.layer k.layer = some d) ∧
    (∃ s : State, 2 ≤ s.charterCopies.length) ∧
    (∃ s : State, s.charterCopies.length < 2 ∧ s.job.state = .verifying) ∧
    (∃ s : State, s.charterCopies.length < 2 ∧ s.job.state = .activating) ∧
    (∃ (s : State) (cw : Nat), (s.ctl (.vault 0)).merge ≠ [] ∧
      ∀ m ∈ (s.ctl (.vault 0)).merge, m.cw = cw → ∀ e ch, Requester.dma e ch ∉ m.writes) :=
  ⟨⟨up, by decide +kernel⟩,
   fun b => ⟨(running6 (wSlip 512) 0).modChan 0 6 fun c => { c with openBlks := if b then 1 else 0 }, 0, 6, wSlip 512, by
     cases b <;> decide +kernel⟩,
   ⟨(onRow (row 0 0 0 0) id).modArr 0 fun x => { x with homeFlight := [wSent 0 []] }, 0, wSent 0 [],
     ⟨rfl, rfl, rfl, rfl⟩, by decide +kernel, by decide +kernel⟩,
   ⟨onRow (row 0 0 0 0) id, 0, ⟨rfl, rfl, rfl, rfl⟩, by decide +kernel⟩,
   ⟨onRow (row 0x20 0 0 0) fun x => { x with
      seq := { x.seq with pass := some (wPass [wTile] [wTile] true) }, arr := { x.arr with a := { x.arr.a with tile := some wTile } } },
     0, wPass [wTile] [wTile] true, wTile, .a, wLayer, ⟨rfl, rfl, rfl, rfl⟩, by decide +kernel⟩,
   ⟨up, by decide +kernel⟩,
   ⟨(inCharter wJob .verifying).modGlb fun g => { g with farAvail := 0xFF_FFFF }, by decide +kernel⟩,
   ⟨(inCharter wJob .activating).modGlb fun g => { g with farAvail := 0xFF_FFFF }, by decide +kernel⟩,
   ⟨merging, 0, by decide +kernel, fun m g _ e ch => by
     rw [show m = wMerge from List.mem_singleton.1 g]; exact fun h => nomatch List.mem_singleton.1 h⟩⟩

/-! ### Rings, aperture, host tills, messages -/

/-- Ring 63 enabled with 16 entries, as given. -/
def ring63 (kind : Nat) (f : RingSt → RingSt) : State :=
  up.modRing 63 fun x => f { x with cfg := BitVec.ofNat 64 (2 ^ 63 ||| kind <<< 8 ||| 4) }

/-- A management message, of the type of its body. -/
def wMctp (smbus : Bool) (b : MctpBody) : MctpMsg :=
  let pldm := match b with
    | .pldmBase _ => true
    | .pldmPlatform _ _ => true
    | _ => false
  { smbus := smbus, port := true, msgTag := 3, endpoint := 9, etherType := 0x88B6, msgType := if pldm then 0x01 else 0x7E
    vendor := if pldm then 0 else 0x1F3A, body := b }

theorem test_rings :
    (∃ (r : RingId) (s : State) (c : Cmd), RegTaken s c 1 (0x60_0000 + 0x1_0000 + r.val * 0x40) ∧ bitAt c.arg1 63 = true ∧
      (s.host.rings[r.val]).enabled = false) ∧
    (∃ (r : RingId) (s : State) (c : Cmd), RegTaken s c 1 (0x60_0000 + 0x1_0000 + r.val * 0x40) ∧ bitAt c.arg1 63 = false ∧
      (s.host.rings[r.val]).enabled = true) ∧
    (∀ sub : Bool, ∃ (r : RingId) (off : BitVec 18) (s : State), off.toNat / 4096 = r.val ∧
      off.toNat % 4096 = (if sub then 0 else 0x800) ∧ s.ideRefused = false ∧ (s.host.rings[r.val]).enabled = true) ∧
    (∃ (s : State) (off : BitVec 18) (r : RingId), off.toNat / 4096 = r.val ∧ bitAt s.host.cfg 0 = true ∧ s.host.ideActive = false) ∧
    (∃ (r : RingId) (off : BitVec 18) (s : State), off.toNat / 4096 = r.val ∧ (s.host.rings[r.val]).enabled = false) ∧
    (∃ s : State, s.glb.perst = false ∧ s.glb.hold ≠ .off ∧ s.pwr.refLost100 = false) ∧ (∃ s : State, s.glb.perst = true) ∧
    (∃ (r : RingId) (s : State) (c : Cmd), s.noBursar = false ∧ s.arbNext = some r.castSucc ∧ argsOk c 0 0 0 = true) ∧
    (∃ (r : RingId) (s : State), s.arbNext ≠ some r.castSucc) ∧
    (∃ (s : State) (m : MctpMsg) (rest : List MctpMsg) (c : Cmd) (x : Slip) (img : CkptImage), s.host.path = m :: rest ∧
      m.body = .command 0x0E c x img ∧ s.noBursar = false ∧ s.arbNext = some 64 ∧ argsOk c 0 0 0 = true) ∧
    (∃ s : State, s.host.path = []) :=
  ⟨⟨63, up, _, reg_taken _ (cmd 0x61_0FC0 0x8000_0000_0000_0004 0) 1 _ (fresh_up _ rfl rfl) rfl rfl rfl (by decide +kernel)
      (by decide +kernel), by decide +kernel⟩,
   ⟨63, ring63 0 id, _, reg_taken _ (cmd 0x61_0FC0 0 0) 1 _ (fresh_up _ rfl rfl) rfl rfl rfl (by decide +kernel)
      (by decide +kernel), by decide +kernel⟩,
   fun sub => ⟨63, if sub then 0x3_F000 else 0x3_F800, ring63 0 id, by cases sub <;> decide +kernel⟩,
   ⟨up.modHost fun h => { h with cfg := 1 }, 0, 0, by decide +kernel⟩, ⟨63, 0x3_F000, up, by decide +kernel⟩,
   ⟨up, by decide +kernel⟩, ⟨up.modGlb fun g => { g with perst := true }, rfl⟩,
   ⟨63, ring63 0 fun x => { x with tail := 1 }, cmd 0 0 0, by decide +kernel⟩, ⟨0, up, by decide +kernel⟩,
   ⟨up.modHost fun h => { h with path := [wMctp true (.command 0x0E (cmd 0 0 0) default default)] },
     wMctp true (.command 0x0E (cmd 0 0 0) default default), [], cmd 0 0 0, default, default, by decide +kernel⟩,
   ⟨up, by decide +kernel⟩⟩

/-- Segment 15 of the aperture on vault 31 from its start. -/
def mapped : State := up.modHost fun h => { h with aptMap := h.aptMap.set 15 0x2000_01F0_0000_0000 }

/-- A host IN end, and a host OUT end, on ring 63. -/
def wHostTill (isOut : Bool) : TillEnd := { wIn with isOut := isOut, path := .host, link := 63 }

def hostJob (isOut : Bool) : Charter := { wJob with plane := [{ wPlane with tills := [wHostTill isOut] }, default] }

def atHost (isOut : Bool) (x : TillSt) : State :=
  (atTill (hostJob isOut) 1 (by decide) x).modRing 63 fun r => { r with
    cfg := if isOut then 0x8000_0000_0000_0204 else 0x8000_0000_0000_0104, tail := 1 }

theorem test_host :
    (∃ (off : BitVec 36) (n : Nat) (w : Bool) (p : PciStatus) (st : Status) (s : State), s.aptRefusal off n w = some (p, st)) ∧
    (∃ (off : BitVec 36) (n : Nat) (s : State) (c : CtlId) (a : Nat), 1 ≤ n ∧ s.aptRefusal off n false = none ∧
      s.aptTarget off n = some (c, a) ∧ (s.ctl c).badIn c (a / 256 * 256) ((a % 256 + n + 255) / 256 * 256) [] = []) ∧
    (∃ (off : BitVec 36) (n : Nat) (s : State) (c : CtlId) (a : Nat) (met : ReadMet), s.aptRefusal off n false = none ∧
      s.aptTarget off n = some (c, a) ∧ (∀ f, c = .far f → ∀ i, s.resident f i = false) ∧
      (s.ctl c).badIn c a n met.faults ≠ []) ∧
    (∃ (off : BitVec 36) (n : Nat) (s : State) (c : CtlId) (a : Nat), s.aptRefusal off n true = none ∧
      s.aptTarget off n = some (c, a) ∧ s.tagArea c = none ∧ (s.ctl c).bad = [] ∧ s.Sound) ∧
    (∃ (r : RingId) (s : State) (c : TillEnd) (e : EngineId) (k : Nat), s.ringTill r false = some c ∧ c.engine = e.val ∧
      c.till < 64 ∧ s.engOk e.val = true ∧ s.tillCfg e.val c.till = some c ∧ s.entryDue r 1 = true ∧ (s.till e c.till).state = 1 ∧
      (s.till e c.till).o ≠ 0 ∧ s.sealedJob = false ∧ (s.till e c.till).msg (s.till e c.till).nextIn = none ∧
      1 ≤ c.blocks ∧ c.blocks ≤ 2048 ∧ c.storeMsgs = 0 ∧ (s.till e c.till).freeSlot c = some k ∧ s.Sound) ∧
    (∃ (r : RingId) (s : State) (c : TillEnd) (e : EngineId), s.ringTill r true = some c ∧ c.engine = e.val ∧ c.till < 64 ∧
      s.tillCfg e.val c.till = some c ∧ s.entryDue r 2 = true ∧ (s.till e c.till).state = 1 ∧
      ((s.till e c.till).outs.find? fun o => !o.acked) = none) ∧
    (∃ (r : RingId) (s : State) (c : TillEnd) (e : EngineId) (o : MsgOut), s.ringTill r true = some c ∧ c.engine = e.val ∧
      c.till < 64 ∧ s.tillCfg e.val c.till = some c ∧ s.entryDue r 2 = true ∧ (s.till e c.till).state = 1 ∧
      ((s.till e c.till).outs.find? fun o => !o.acked) = some o ∧ (s.host.rings[r.val]).posted = []) ∧
    (∃ (r : RingId) (s : State), s.ringTill r false = none ∧ s.ringTill r true = none) ∧
    (∃ (s : State) (r : RingId) (e : EngineId) (ch : ChanId) (x : Slip), 6 ≤ ch.val ∧ (s.chan e ch).onHost e = true ∧
      (s.chan e ch).slip = some x ∧ (s.chan e ch).halting = none ∧ (s.chan e ch).openBlks = 0 ∧
      (s.eng[e.val]).float = [] ∧ (s.host.rings[r.val]).enabled = true ∧
      s.placePinned (placeOf e (s.chan e ch).cur) 64 = false) := by
  refine ⟨⟨0, 1, false, .unsupported, .stateConflict, up, by decide +kernel⟩,
    ⟨0xF_FFFF_FFFF, 1, mapped, .vault 31, 0xFFFF_FFFF, by decide +kernel⟩,
    ⟨0xF_FFFF_FFFF, 1, mapped, .vault 31, 0xFFFF_FFFF, meets [(0x3FF_FFFF, .uncorrectable none)], by decide +kernel,
      by decide +kernel, fun f h => (by cases h), by decide +kernel⟩,
    ⟨0xF_FFFF_FFFF, 1, mapped, .vault 31, 0xFFFF_FFFF, by decide +kernel, by decide +kernel, by decide +kernel,
      by decide +kernel, ?_⟩,
    ⟨63, atHost false { TillSt.init with state := 1, o := 1 }, wHostTill false, 0, 0, by decide +kernel, rfl, by decide,
      by decide +kernel,
      by decide +kernel, by decide +kernel, rfl, by decide +kernel, rfl, rfl, by decide, by decide, rfl, by decide +kernel, ?_⟩,
    ⟨63, atHost true { TillSt.init with state := 1 }, wHostTill true, 0, by decide +kernel⟩,
    ⟨63, atHost true { TillSt.init with state := 1, outs := [sent] }, wHostTill true, 0, sent, by decide +kernel⟩,
    ⟨63, up, by decide +kernel⟩,
    ⟨(running6 { wSlip 512 with w1 := 0x4000_0000_0000_0000 } 0).modRing 63 fun x => { x with cfg := 0x8000_0000_0000_0004 }, 63, 0, 6,
      { wSlip 512 with w1 := 0x4000_0000_0000_0000 }, by decide +kernel⟩⟩
  · exact ⟨up_sound.1, up_sound.2, up_sound.3, up_sound.4, up_sound.5, by decide +kernel, up_sound.7⟩
  · exact State.modRing_sound _ _ _ (atTill_sound _ _ _ _) fun _ _ _ =>
      (by decide : 4 ≤ fld (0x8000_0000_0000_0104 : W64) 3 0 ∧ fld (0x8000_0000_0000_0104 : W64) 3 0 ≤ 12 ∧
        fld (0x8000_0000_0000_0104 : W64) 9 8 ≤ 2)

/-- An object of the bursar's: a code and n bytes after it. -/
def wDoe (b : Byte) (n : Nat) : DoeObj := { vendor := 0x1F3A, ty := 0x01, body := b :: List.replicate n 0 }

theorem test_messages :
    (∀ b : Byte, b = 1 ∨ b = 2 ∨ b = 3 → ∃ (s : State) (o : DoeObj) (r : List Byte), s.glb.bursarUp = true ∧
      o.vendor = 0x1F3A ∧ o.ty = 0x01 ∧ o.body = b :: r ∧ 1600 ≤ r.length) ∧
    (∃ (s : State) (o : DoeObj) (b : Byte) (r : List Byte), s.glb.bursarUp = true ∧ o.vendor = 0x0001 ∧ o.ty = 0x00 ∧
      o.body = b :: r) ∧
    (∃ o : DoeObj, doeParse o = none) ∧
    (∃ (s : State) (o : DoeObj), s.glb.bursarUp = false ∧ (doeParse o).isSome = true) ∧ (∃ s : State, s.glb.bursarUp = true) ∧
    (∃ (s : State) (m : MctpMsg), s.glb.ready = true ∧ s.mctpHeard m = true ∧ mctpTyped m = true ∧ m.smbus = false ∧
      s.sec.mctpLast = some (m.msgTag, m.endpoint, !m.port)) ∧
    (∃ (s : State) (m : MctpMsg) (c : Cmd) (x : Slip) (img : CkptImage), s.glb.ready = true ∧ s.mctpHeard m = true ∧
      mctpTyped m = true ∧ m.smbus = true ∧ m.body = .command 0x0E c x img) ∧
    (∀ held : Bool, ∃ (s : State) (m : MctpMsg) (o : DoeObj) (r : List Byte), s.glb.ready = true ∧ s.mctpHeard m = true ∧
      mctpTyped m = true ∧ m.smbus = true ∧ m.body = .doe o ∧ s.noBursar = held ∧ o.vendor = 0x1F3A ∧ o.ty = 0x01 ∧
      o.body = 0x01 :: r ∧ 32 ≤ r.length) ∧
    (∀ held : Bool, ∃ (s : State) (m : MctpMsg) (k : Fin 4) (load : Fin 101), s.glb.ready = true ∧ s.mctpHeard m = true ∧
      mctpTyped m = true ∧ m.smbus = true ∧ m.body = .pldmPlatform k load ∧ s.noBursar = held) ∧
    (∃ (s : State) (m : MctpMsg) (b : Bytes), s.glb.ready = true ∧ s.mctpHeard m = true ∧ mctpTyped m = true ∧ m.smbus = true ∧
      m.body = .pldmBase b ∧ s.noBursar = false) ∧
    (∃ (s : State) (m : MctpMsg), s.mctpHeard m = false) ∧ (∃ m : MctpMsg, mctpTyped m = false) :=
  ⟨fun b _ => ⟨up, wDoe b 1600, _, rfl, rfl, rfl, rfl, Nat.le_of_eq List.length_replicate.symm⟩,
   ⟨up, { vendor := 1, ty := 0, body := [2] }, 2, [], by decide +kernel⟩, ⟨{ wDoe 2 0 with ty := 2 }, by decide +kernel⟩,
   ⟨State.reset, wDoe 2 0, by decide +kernel⟩, ⟨up, rfl⟩,
   ⟨(up.modGlb fun g => { g with mgmtLink := 0x100 }).modSec fun x => { x with mctpLast := some (3, 9, false) },
     wMctp false (.doe (wDoe 2 0)), by decide +kernel⟩,
   ⟨up, wMctp true (.command 0x0E (cmd 0 0 0) default default), cmd 0 0 0, default, default, by decide +kernel⟩,
   fun held => ⟨up.modGlb fun g => { g with bursarUp := !held }, wMctp true (.doe (wDoe 1 32)), wDoe 1 32, List.replicate 32 0, by
     cases held <;> decide +kernel⟩,
   fun held => ⟨up.modGlb fun g => { g with bursarUp := !held }, wMctp true (.pldmPlatform 3 100), 3, 100, by
     cases held <;> decide +kernel⟩,
   ⟨up, wMctp true (.pldmBase []), [], by decide +kernel⟩,
   ⟨up, wMctp false (.doe (wDoe 2 0)), by decide +kernel⟩, ⟨{ wMctp true (.doe (wDoe 2 0)) with vendor := 0 }, by decide +kernel⟩⟩

/-! ### Power, start-up, resets, recovery -/

/-- A scrub-rate curve of two points stands in the staging window. -/
def staged : State :=
  { up with pwr := { up.pwr with
      curveData := [(0, 0x7400_0000_0002_000A), (1, 0xF_7F00), (3, 0x3F80_0000), (4, 1), (5, 0x3F80_0000)] } }

/-- The same with 32 tables held. -/
def fullTable : State :=
  { staged with pwr := { staged.pwr with
      curves := (List.range 32).map fun k => { (default : HeldCurve) with kind := 9, target := BitVec.ofNat 8 k } } }

theorem test_power :
    (∃ s : State, s.glb.hold ≠ .off) ∧ (∃ s : State, 100 ≤ s.pwr.overTicks) ∧ (∃ s : State, s.pwr.overTicks < 100) ∧
    (∃ (s : State) (r : Readings), s.pwr.budgetW < r.power) ∧
    (∃ (s : State) (r : Readings), r.power + fld s.pwr.budget 31 16 < s.pwr.budgetW) ∧
    (∃ (s : State) (r : Readings), s.pwr.throttle = true ∧ s.pwr.throttleWhole = true ∧ r.power ≤ s.pwr.budgetW) ∧
    (∃ (s : State) (c : Cmd), RegTaken s c 1 0x20_0040 ∧ bitAt c.arg1 16 = true ∧
      installerOk s.pwr.window (BitVec.ofNat 8 (fld c.arg1 7 0)).toNat (BitVec.ofNat 8 (fld c.arg1 15 8)).toNat = false) ∧
    (∃ (s : State) (c : Cmd), RegTaken s c 1 0x20_0040 ∧ bitAt c.arg1 16 = true ∧
      installerOk s.pwr.window (BitVec.ofNat 8 (fld c.arg1 7 0)).toNat (BitVec.ofNat 8 (fld c.arg1 15 8)).toNat = true ∧
      s.pwr.curves = []) ∧
    (∃ (s : State) (c : Cmd), RegTaken s c 1 0x20_0040 ∧ bitAt c.arg1 16 = true ∧
      installerOk s.pwr.window (BitVec.ofNat 8 (fld c.arg1 7 0)).toNat (BitVec.ofNat 8 (fld c.arg1 15 8)).toNat = true ∧
      32 ≤ ((newestCurves s.pwr.curves).filter fun h =>
        !(h.kind == BitVec.ofNat 8 (fld c.arg1 7 0) && h.target == BitVec.ofNat 8 (fld c.arg1 15 8))).length) ∧
    (∃ c : Cmd, cmdReg c ≠ some .curveCtrl) :=
  ⟨⟨up, by decide⟩, ⟨{ up with pwr := { up.pwr with overTicks := 100 } }, Nat.le_refl 100⟩, ⟨up, by decide +kernel⟩,
   ⟨up, { readings with power := 5000, peak := 5000 }, by decide +kernel⟩, ⟨up, readings, by decide +kernel⟩,
   ⟨{ up with pwr := { up.pwr with throttle := true, throttleWhole := true } }, readings, by decide +kernel⟩,
   ⟨up, _, reg_taken _ (cmd 0x20_0040 0x1_0909 0) 1 _ (fresh_up _ rfl rfl) rfl rfl rfl (by decide +kernel) (by decide +kernel),
     by decide +kernel, by decide +kernel⟩,
   ⟨staged, _, reg_taken _ (cmd 0x20_0040 0x1_FF0A 0) 1 _ (fresh_up _ rfl rfl) rfl rfl rfl (by decide +kernel)
     (by decide +kernel), by decide +kernel, by decide +kernel, rfl⟩,
   ⟨fullTable, _, reg_taken _ (cmd 0x20_0040 0x1_FF0A 0) 1 _ (fresh_up _ rfl rfl) rfl rfl rfl (by decide +kernel)
     (by decide +kernel), by decide +kernel, by decide +kernel, by decide +kernel⟩, ⟨cmd 0 0 0, by decide +kernel⟩⟩

/-- Nothing fails in a start-up. -/
def wEnv : StartEnv :=
  { fuseSplit := false, storeTag := none, vaultBad := 0, farBad := 0, portBad := 0, rx := readings, farModule := List.replicate 48 0
    widthWest := List.replicate 48 4, widthEast := List.replicate 48 4, checkBad := 0, lockOk := 0, pcie := some (6, 16, true), watchdogs := 0 }

/-- The module with a firmware image in its flash. -/
def flashed (f : GlbSt → GlbSt) : State :=
  (up.modGlb f).modSec fun x => { x with flash := some (toBytes (Config.fwMade 8000) 8000) }

theorem clear_flashed (f : GlbSt → GlbSt) (a : (f up.glb).perst = false) (b : (f up.glb).strapRecovery = false)
    (d : (f up.glb).pinRecovery = false) : StartClear wEnv (flashed f) where
  perst := a
  strap := b
  pin := d
  fuses := rfl
  store := rfl
  dogs := by decide
  image := ⟨_, rfl, test_made_image _ rfl 8000 (by decide)⟩

theorem test_start :
    (∃ (env : StartEnv) (s : State), StartClear env s ∧ s.glb.resetDue = 1 ∧ s.glb.hold ≠ .off ∧ s.glb.ref100 = true ∧
      s.glb.resetN = false) ∧
    (∃ (env : StartEnv) (s : State), StartClear env s ∧ s.glb.hold = .off ∧ s.glb.ref100 = true ∧ s.glb.resetN = false) ∧
    (∃ (env : StartEnv) (s : State), StartClear env s ∧ s.glb.hold = .cool ∧ s.glb.ref100 = true ∧ s.glb.resetN = false) ∧
    (∃ (env : StartEnv) (s : State), StartClear env s ∧ s.glb.hold = .resetN ∧ s.glb.ref100 = true) ∧
    (∃ (env : StartEnv) (s : State), StartClear env s ∧ s.glb.hold = .refClock ∧ s.glb.resetN = false) ∧
    (∃ s : State, s.glb.hold = .off) ∧ (∃ s : State, s.glb.hold ≠ .off ∧ s.glb.hold ≠ .cool ∧ s.glb.hold ≠ .resetN ∧ s.glb.resetDue ≠ 1) ∧
    (∀ split : Bool, ∃ (env : StartEnv) (s : State), s.glb.hold ≠ .off ∧ s.glb.resetDue = 1 ∧ s.glb.ref100 = true ∧
      s.glb.resetN = false ∧ env.fuseSplit = split ∧ s.sec.flash = none) ∧
    (∃ s : State, s.glb.hold = .perst) ∧
    (∃ (env : StartEnv) (s : State) (p : PortId), s.glb.hold = .done ∧ (s.ports[p.val]).state ≠ 3 ∧ (s.ports[p.val]).up = false ∧
      bitAt env.portBad p.val = true) :=
  ⟨⟨wEnv, flashed fun g => { g with resetDue := 1 }, clear_flashed _ rfl rfl rfl, rfl, by decide, rfl, rfl⟩,
   ⟨wEnv, flashed fun g => { g with hold := .off }, clear_flashed _ rfl rfl rfl, rfl, rfl, rfl⟩,
   ⟨wEnv, flashed fun g => { g with hold := .cool }, clear_flashed _ rfl rfl rfl, rfl, rfl, rfl⟩,
   ⟨wEnv, flashed fun g => { g with hold := .resetN }, clear_flashed _ rfl rfl rfl, rfl, rfl⟩,
   ⟨wEnv, flashed fun g => { g with hold := .refClock }, clear_flashed _ rfl rfl rfl, rfl, rfl⟩,
   ⟨up.modGlb fun g => { g with hold := .off }, rfl⟩, ⟨up, by decide⟩,
   fun split => ⟨{ wEnv with fuseSplit := split }, up.modGlb fun g => { g with resetDue := 1 }, by decide, rfl, rfl, rfl, rfl, rfl⟩,
   ⟨up.modGlb fun g => { g with hold := .perst }, rfl⟩,
   ⟨{ wEnv with portBad := 1 }, up.modPort 0 fun x => { x with state := 0 }, 0, by decide +kernel⟩⟩

theorem test_resets :
    (∃ s : State, s.glb.hold ≠ .off ∧ s.glb.hold ≠ .cool) ∧
    (∃ (env : StartEnv) (s : State) (rate : BitVec 4) (w : BitVec 5) (f : Bool), s.glb.hold = .done ∧
      env.pcie = some (rate, w, f)) ∧
    (∃ (s : State) (east : Bool), s.glb.hold = .done ∧ s.glb.resetDue = (if east = true then 3 else 2) ∧
      s.job.state = .empty ∧ ∀ (e : EngineId) (ch : ChanId), (s.chan e ch).busy = false) ∧
    (∃ (s : State) (east : Bool), s.glb.hold = .done ∧ s.glb.resetDue = (if east = true then 3 else 2) ∧
      s.job.state = .running) ∧
    (∃ (s : State) (c : Cmd) (e : EngineId), RegTaken s c 1 0x20_0038 ∧ fld c.arg1 2 0 = 3 ∧ fld c.arg1 15 8 = e.val ∧
      s.engResetOk e = true ∧ s.glb.hold = .done ∧ ∀ ch : ChanId, (s.chan e ch).busy = false) ∧
    (∃ (s : State) (c : Cmd) (e : EngineId), RegTaken s c 1 0x20_0038 ∧ fld c.arg1 2 0 = 3 ∧ fld c.arg1 15 8 = e.val ∧
      s.engResetOk e = false) ∧
    (∃ (s : State) (c : Cmd), s.glb.bursarUp = true ∧ RegTaken s c 1 0x20_0038 ∧ fld c.arg1 2 0 = 4) ∧
    (∃ s : State, s.glb.bursarUp = false ∧ s.glb.ready = true) :=
  ⟨⟨up, by decide⟩, ⟨wEnv, up, 6, 16, true, rfl, rfl⟩, 
   ⟨up.modGlb fun g => { g with resetDue := 2 }, false, rfl, rfl, rfl, by decide +kernel⟩,
   ⟨(inCharter wJob .running).modGlb fun g => { g with resetDue := 3 }, true, rfl, rfl, rfl⟩,
   ⟨inCharter wJob .running, _, 127, reg_taken _ (cmd 0x20_0038 0x7F03 0) 1 _ (fresh_up _ rfl rfl) rfl rfl rfl
     (by decide +kernel) (by decide +kernel), by decide +kernel⟩,
   ⟨inCharter wJob .running, _, 0, reg_taken _ (cmd 0x20_0038 3 0) 1 _ (fresh_up _ rfl rfl) rfl rfl rfl
     (by decide +kernel) (by decide +kernel), by decide +kernel⟩,
   ⟨up, _, rfl, reg_taken _ (cmd 0x20_0038 4 0) 1 _ (fresh_up _ rfl rfl) rfl rfl rfl (by decide +kernel) (by decide +kernel),
     by decide +kernel⟩, ⟨up.modGlb fun g => { g with bursarUp := false }, rfl, rfl⟩⟩

theorem chunkByte_one (l : List Byte) (i : Nat) (h : i < l.length) : chunkByte [(0, l)] i = some (l.getD i 0) := by
  simp [chunkByte, h]

theorem test_recovery :
    (∃ (s : State) (off len : W32) (data : Bytes), s.glb.hold = .recovery ∧ len ≠ 0 ∧ len.toNat ≤ 1024 ∧
      data.length = len.toNat ∧ off.toNat + len.toNat ≤ 16777216) ∧
    (∃ (s : State) (len : W32) (img : List Byte), s.glb.hold = .recovery ∧ len.toNat ≤ 16777216 ∧ img.length = len.toNat ∧
      (∀ i : Nat, i < len.toNat → chunkByte s.sec.recovery i = some (img.getD i 0)) ∧ s.fwOk img = true) ∧
    (∃ (s : State) (len : W32) (img : List Byte), s.glb.hold = .recovery ∧ len.toNat ≤ 16777216 ∧ img.length = len.toNat ∧
      (∀ i : Nat, i < len.toNat → chunkByte s.sec.recovery i = some (img.getD i 0)) ∧ s.fwOk img = false) ∧
    (∃ (s : State) (len : W32) (i : Nat), s.glb.hold = .recovery ∧ i < len.toNat ∧ chunkByte s.sec.recovery i = none) := by
  refine ⟨⟨up.modGlb fun g => { g with hold := .recovery }, 16777215, 1, [5], rfl, by decide, by decide, rfl, by decide⟩,
    ⟨(up.modGlb fun g => { g with hold := .recovery }).modSec fun x => { x with
        recovery := [(0, toBytes (Config.fwMade 8000) 8000)] }, 8000, toBytes (Config.fwMade 8000) 8000, rfl, by decide,
      length_toBytes _ _, fun i h => chunkByte_one _ _ (by rw [length_toBytes]; exact h), test_made_image _ rfl _ (by decide)⟩,
    ⟨(up.modGlb fun g => { g with hold := .recovery }).modSec fun x => { x with recovery := [(0, [1])] }, 1, [1], rfl,
      by decide, rfl, fun i h => chunkByte_one _ _ h, test_short_image _⟩,
    ⟨up.modGlb fun g => { g with hold := .recovery }, 1, 0, rfl, by decide, rfl⟩⟩

/-! ### The queue, the invariant -/

theorem test_queue : (∃ s : State, s.pending = []) ∧ ∃ s t : State, s.Sound ∧ step s = .next t :=
  ⟨⟨up, rfl⟩, up, up, up_sound, rfl⟩

/-! ### Ill-formed operands -/

/-- A command entry whose token is shorter than the entry says. -/
def badCmd : Cmd := { cmd 0 0 0 with tokenLen := 1 }

def badImage : CkptImage := { commit := [], counterfoil := [], blocks := [(zeros, [])] }

def badFrame : Frame := { hdr := 0, payload := [1] }

/-- A run that mismatches twice at one instruction. -/
def twice : RunEnv := { RunEnv.none with mism := [(3, 1), (3, 2)] }

def badPeer : FaultEv := { (default : FaultEv) with peer := 4096 }

theorem test_ill_formed_commands : ∀ i ∈ ([.charterBegin badCmd, .charterChunk badCmd none, .charterEnd badCmd,
    .charterDiscard badCmd, .activate badCmd, .run badCmd, .pause badCmd, .planeSwitch badCmd, .checkpointTake badCmd,
    .restore badCmd default, .resume badCmd, .release badCmd, .abort badCmd, .jobStatus badCmd, .dmaChain badCmd default,
    .assayLoad badCmd, .regWrite badCmd, .keyEnrol badCmd, .fuseMapLoad badCmd, .fwWrite badCmd, .decommission badCmd,
    .svnCommit badCmd, .certInstall badCmd, .report badCmd, .regRead badCmd, .secIdentityWrite badCmd, .mgmtCfgWrite badCmd,
    .apertureMapWrite badCmd, .commandArbitrate (.ring 0 0x0E badCmd default default),
    .commandArbitrate (.ring 0 0x0E (cmd 0 0 0) default default),
    .mctpMessage (wMctp false (.command 0x0E badCmd default default)),
    .mctpMessage (wMctp false (.command 0x0E { cmd 0 0 0 with src := .ring 0 } default default))] : List Instr),
    i.wf = false := by decide +kernel

theorem test_ill_formed_images : (Instr.restore (cmd 0 0 0) badImage).wf = false ∧
    (Instr.commitRecordRead [default]).wf = false ∧ (Instr.commitRecordRead [badImage, default]).wf = false := by decide +kernel

theorem test_ill_formed_accesses : ∀ i ∈ ([.regDirectWrite .bar0 4 0, .channelHalt 0 0 .ok 0, .dmaStart badCmd,
    .dmaResume badCmd, .dmaStop (.write badCmd), .ringEnable (cmd 0 0 0), .ringDisable (cmd 0 0x8000_0000_0000_0000 0),
    .curveCommit badCmd, .engineReset badCmd, .bursarReset badCmd, .apertureRead 0 0 (meets []),
    .apertureRead 0xFFFF_FFFF 2 (meets []), .apertureWrite 0 [], .memReadRequest (.vault 0) (wRead 0 0 []),
    .memReadRequest (.vault 0) (wRead 64 64 [(0, .uncorrectable none)]),
    .memReadRequest (.vault 0) (wRead 64 64 [(2, .corrected 0)]), .memWriteRequest (.vault 0) (wWrite 0 [] none),
    .memWriteRequest (.vault 0) (wWrite 1 (List.replicate 64 0) none), .memWriteRequest (.vault 0) (wWrite 0 [1] none),
    .memWriteRequest (.vault 0) (wWrite 64 (List.replicate 64 0) (some default)), .narrowWrite (.vault 0) (wWrite 0 [] none) none,
    .narrowWrite (.vault 0) (wWrite 0 (List.replicate 64 0) none) none, .narrowWrite (.vault 0) (wWrite 63 [1, 2] none) none,
    .narrowWrite (.vault 0) (wWrite 0 [1] (some default)) none, .vaultAccumulate 0 0 0 (some [1]) [],
    .fwd 0 0 [(0, twice)], .tileTake 0 0 [(0, twice)]] : List Instr),
    i.wf = false := by decide +kernel

theorem test_ill_formed_frames : ∀ i ∈ ([.linkUnit 0 0 badFrame true 0 0, .tillData 0 0 { wBlock with data := [] },
    .tillData 0 0 { wBlock with path := .envis 4096 0 }, .objData { wObj 0 zeros 0 with peer := 4096 },
    .objData (wObj 0 [1] 0), .clearData { wBand true [] 0 with peer := 4096 }, .clearData (wBand true [1] 0),
    .clearData (wBand false [] 0), .requestFetch { wReq 0 0 with peer := 4096 }, .requestRead { wReq 0 0 with peer := 4096 },
    .requestRefuse { wReq 0 0 with peer := 4096 }, .requestCommit { wReq 0 0 with peer := 4096 },
    .commitAck { wReq 0 0 with peer := 4096 }, .reportReq 4096 0, .admitReport 4096 [] [], .kemCt 4096 [],
    .keyConfirm 4096 [], .rekey 4096, .keepalive 4096, .leave 4096, .peerLostTimeout 4096, .faultEvent badPeer,
    .replayMark 0 .ok 0, .ideKem (wDoe 3 1599), .getReport (wDoe 1 31), .getCerts (wDoe 1 32), .chunk 0 2 0 [1], .widthAgreement 0 5 1 true, .widthAgreement 0 1 5 true,
    .tileClose 0 [⟨3, 0, 0, 0⟩] clean [] 0 0, .tileClose 0 [⟨0, 8192, 0, 0⟩] clean [] 0 0,
    .tileClose 0 [⟨0, 0, 64, 0⟩] clean [] 0 0, .msgCtrlAck (.mirror 4096 0), .msgCtrlAck (.slip 4096 0),
    .msgCtrlResend (.band 4096 0) 0] :
    List Instr), i.wf = false := by decide +kernel

theorem test_ill_formed_readings : ∀ i ∈ ([.stepBoundary { readings with power := 1 }, .budgetTick { readings with power := 1 },
    .portTrainingDone 0 true 0 { readings with power := 1 }, .powerApplied { wEnv with farModule := [] },
    .moduleReset { wEnv with widthWest := [] }, .halfReset false { wEnv with widthEast := [] },
    .refClockPresent false { wEnv with widthWest := List.replicate 48 5 }, .perstNDeassert { wEnv with farModule := [] },
    .done 0 { wEnv with widthEast := List.replicate 48 7 }, .resetNDeassert { wEnv with farModule := [] },
    .bursarUp true { wEnv with farModule := [] }, .thermalCooldown { wEnv with farModule := [] }] : List Instr),
    i.wf = false := by decide +kernel

/-- And operands that are well formed pass. -/
theorem test_well_formed : ∀ i ∈ ([.run (cmd 0 0 0), .regDirectWrite .bar0 8 0, .apertureRead 0xFFFF_FFFF 1 (meets []),
    .memReadRequest (.vault 0) (wRead 64 64 [(1, .uncorrectable none)]), .narrowWrite (.vault 0) (wWrite 63 [1] none) none,
    .memWriteRequest (.vault 0) (wWrite 64 (List.replicate 64 0) none), .clearData (wBand true [] 0), .leave 4095,
    .powerApplied wEnv, .budgetTick readings, .tillData 0 0 wBlock, .linkUnit 0 0 (wFrame 0 0) true 0 0,
    .commandArbitrate (.ring 63 0x0E { cmd 0 0 0 with src := .ring 63 } default default),
    .ideKem (wDoe 3 1600), .getReport (wDoe 1 32), .getCerts (wDoe 2 0)] : List Instr), i.wf = true := by decide +kernel

/-! ### The worked examples of the spec -/

/-- E4M3, E5M2 and the block-scaled E2M1 of R100. -/
def dE4M3 : Denom := { kind := 2, expBits := 4, manBits := 3, bias := 7, block := 0, specials := 1, ieee := false, stoch := false }
def dE5M2 (ieee : Bool) : Denom :=
  { kind := 2, expBits := 5, manBits := 2, bias := 15, block := 0, specials := 2, ieee := ieee, stoch := false }
def dZb4 : Denom := { kind := 1, expBits := 2, manBits := 1, bias := 1, block := 16, specials := 0, ieee := false, stoch := false }

/-- 04, conversions bit by bit: the table of single elements. -/
theorem test_conversions :
    (dBf16 true).convert none (f32 0x3F80_8000) = (0x3F80, .plain) ∧ (dBf16 true).convert none (f32 0x3F81_8000) = (0x3F82, .plain) ∧
    (dBf16 true).convert (some 0x7FFF) (f32 0x3F80_8000) = (0x3F80, .plain) ∧
    (dBf16 true).convert (some 0x8000) (f32 0x3F80_8000) = (0x3F81, .plain) ∧
    dE4M3.convert none (f32 0x43FA_0000) = (0x7E, .ovf) ∧ (dE5M2 false).convert none (f32 0x4770_0000) = (0x7B, .ovf) ∧
    (dE5M2 true).convert none (f32 0x4770_0000) = (0x7C, .ovf) ∧ dE4M3.convert none (f32 0x3A80_0000) = (0, .flush) ∧
    dI8.convert none (f32 0xC2FF_0000) = (0x81, .ovf) := by decide +kernel

/-- 04, the same example's block: 10.0, −3.0, 0.7 and 2.9 into ZB4. -/
theorem test_block : dZb4.convertBlock (List.replicate 16 none)
    ([f32 0x4120_0000, f32 0xC040_0000, f32 0x3F33_3333, f32 0x4039_999A] ++ List.replicate 12 (.fin false 0 0)) =
    (0x80, [6, 0xB, 0, 3] ++ List.replicate 12 0, [.plain, .plain, .flush] ++ List.replicate 13 .plain) := by decide +kernel

/-- 01: the controller of far channels F26 and F27 is island 0x302D; 18: the offset of its PWR_ISL. -/
theorem test_island : islandId (islCtl (.far 26)) = 0x302D ∧ islandId (islCtl (.far 27)) = 0x302D ∧
    0x21_0000 + (islCtl (.far 26)).val * 8 = 0x21_05E8 := by decide +kernel

/-- The check value of CRC-32C in its standard: that of the nine digits. -/
theorem test_crc32c : crc32c [0x31, 0x32, 0x33, 0x34, 0x35, 0x36, 0x37, 0x38, 0x39] = 0xE306_9283 := by decide +kernel

/-- No row of the table has bits: no word spells a command. -/
theorem test_no_word : decodeTableWord 64 5 = none ∧ up.withFetchWord 64 5 = up := ⟨rfl, rfl⟩

end Sys2Proof.Tests
end

section
/-! PROOFS. Rings, doorbells, the command arbiter and the link to the host (12 R340 to R353; 15 R455). -/

namespace Sys2Proof.Machine

/-! ### What frames on their way out of the module leave as it is -/

/-- The parts of a state that frames to peers and credits of tills do not reach: the job, the memories and the host. -/
def State.offLink (s : State) : JobSt × Vector CtlSt 32 × Vector CtlSt 48 × HostSt := (s.job, s.vaults, s.fars, s.host)

theorem State.modPort_offLink (s : State) (p : PortId) (f : PortSt → PortSt) : (s.modPort p f).offLink = s.offLink := rfl

theorem State.emit_offLink (s : State) (x : Emission) : (s.emit x).offLink = s.offLink := rfl

theorem State.modT_offLink (s : State) (e : EngineId) (t : Nat) (f : TillSt → TillSt) :
    (s.modT e t f).offLink = s.offLink := rfl

theorem State.emitUnit_offLink (s : State) (p : PortId) (n : W16) (nak : Bool) (f : Frame) :
    (s.emitUnit p n nak f).offLink = s.offLink := rfl

theorem State.idleSlot_offLink (s : State) (p : PortId) : (s.idleSlot p).offLink = s.offLink := by
  unfold State.idleSlot
  dsimp only
  split
  · exact s.emitUnit_offLink ..
  · rfl

theorem State.pageSent_offLink (s : State) (f : Frame) : (s.pageSent f).offLink = s.offLink := by
  unfold State.pageSent
  split <;> rfl

theorem State.leaves_offLink (s : State) (f : Frame) : (s.leaves f).offLink = s.offLink := by
  unfold State.leaves
  split
  · rfl
  · rw [State.idleSlot_offLink]; rfl

theorem State.drain_offLink (p : PortId) : ∀ (n : Nat) (s : State), (s.drain p n).offLink = s.offLink
  | 0, _ => rfl
  | n + 1, s => by
    unfold State.drain
    dsimp only
    split
    · split
      · rfl
      · split
        · exact s.idleSlot_offLink p
        · rw [State.drain_offLink p n, State.leaves_offLink, State.pageSent_offLink, State.modPort_offLink,
            State.emitUnit_offLink]
    · rfl

theorem State.pushPort_offLink (s : State) (p : PortId) (fs : List Frame) : (s.pushPort p fs).offLink = s.offLink := by
  unfold State.pushPort State.drainPort
  rw [State.drain_offLink, State.modPort_offLink]

theorem State.sendFrames_offLink (s : State) (i : Nat) (fs : List Frame) : (s.sendFrames i fs).offLink = s.offLink := by
  unfold State.sendFrames State.sendOn
  split
  · rfl
  · split
    · rfl
    · split
      · rw [State.pushPort_offLink]; rfl
      · rfl

theorem State.sendCredit_offLink (s : State) (i : Nat) (plane : Bool) (n bytes : Nat) :
    (s.sendCredit i plane n bytes).offLink = s.offLink := by
  unfold State.sendCredit State.sendCtrl
  split
  · rfl
  · exact s.sendFrames_offLink ..

theorem State.grant_offLink (s : State) (e : EngineId) (t : Nat) : (s.grant e t).offLink = s.offLink := by
  unfold State.grant
  split
  · rfl
  · dsimp only
    split
    · rfl
    · split
      · rw [State.emit_offLink, State.modT_offLink]
      · rw [State.sendCredit_offLink, State.modT_offLink]
      · exact s.modT_offLink ..

theorem grants_offLink : ∀ (l : List TillEnd) (s : State),
    (l.foldl (fun s c => s.grant (Fin.ofNat 128 c.engine) c.till) s).offLink = s.offLink
  | [], _ => rfl
  | c :: l, s => by rw [List.foldl_cons, grants_offLink l, State.grant_offLink]

/-- The credits that an enabled ring gives back to its IN ends reach neither the job, the memories nor the host. -/
theorem State.regrant_offLink (s : State) (r : RingId) : (s.regrant r).offLink = s.offLink := by
  unfold State.regrant
  split
  · rfl
  · exact grants_offLink _ s

/-! ### Rings -/

theorem State.modRing_ring_same (s : State) (r : RingId) (f : RingSt → RingSt) :
    (s.modRing r f).host.rings[r.val] = f s.host.rings[r.val] := by simp

theorem State.modRing_ring_ne (s : State) {r k : RingId} (f : RingSt → RingSt) (h : k ≠ r) :
    (s.modRing r f).host.rings[k.val] = s.host.rings[k.val] := by
  simp only [State.modRing_host]
  exact Vector.getElem_set_ne _ _ fun e => h (Fin.ext e.symm)

theorem State.modRing_self (s : State) (r : RingId) (f : RingSt → RingSt) (h : f s.host.rings[r.val] = s.host.rings[r.val]) :
    s.modRing r f = s := by
  unfold State.modRing
  rw [h, Vector.set_getElem_self]

/-- Two states of a ring that differ in its completion slots alone: those reserved and those posted. -/
def SameQueue (x y : RingSt) : Prop := y = { x with taken := y.taken, cPos := y.cPos, phase := y.phase }

theorem SameQueue.refl (x : RingSt) : SameQueue x x := rfl

theorem SameQueue.trans {x y z : RingSt} (h : SameQueue x y) (k : SameQueue y z) : SameQueue x z := by
  unfold SameQueue at *
  rw [k, h]

theorem SameQueue.enabled {x y : RingSt} (h : SameQueue x y) : y.enabled = x.enabled := by rw [h]; rfl

theorem SameQueue.head {x y : RingSt} (h : SameQueue x y) : y.head = x.head := by rw [h]

/-- Of the host, nothing differs but the completion slots of the ring that a command came by. -/
structure SlotsOf (src : CmdSrc) (s t : State) : Prop where
  host : t.host = { s.host with rings := t.host.rings }
  queue : ∀ k : RingId, SameQueue s.host.rings[k.val] t.host.rings[k.val]
  others : ∀ k : RingId, src ≠ .ring k → t.host.rings[k.val] = s.host.rings[k.val]

theorem SlotsOf.of_host_eq {src : CmdSrc} {s t : State} (h : t.host = s.host) : SlotsOf src s t :=
  ⟨by rw [h], fun k => by rw [h]; exact SameQueue.refl _, fun k _ => by rw [h]⟩

theorem SlotsOf.trans {src : CmdSrc} {s t u : State} (h : SlotsOf src s t) (k : SlotsOf src t u) : SlotsOf src s u :=
  ⟨by rw [k.host, h.host], fun i => (h.queue i).trans (k.queue i), fun i hi => (k.others i hi).trans (h.others i hi)⟩

/-- A path without a ring leaves the host as it is. -/
theorem SlotsOf.host_eq {src : CmdSrc} {s t : State} (h : SlotsOf src s t) (hs : ∀ k, src ≠ .ring k) : t.host = s.host := by
  have e : t.host.rings = s.host.rings := Vector.ext fun i hi => h.others ⟨i, hi⟩ (hs _)
  rw [h.host, e]

theorem State.modRing_slotsOf (s : State) (r : RingId) (f : RingSt → RingSt)
    (hf : SameQueue s.host.rings[r.val] (f s.host.rings[r.val])) : SlotsOf (.ring r) s (s.modRing r f) where
  host := rfl
  queue k := by
    by_cases h : k = r
    · subst h; rw [State.modRing_ring_same]; exact hf
    · rw [State.modRing_ring_ne s f h]; exact SameQueue.refl _
  others k h := s.modRing_ring_ne f fun e => h (by rw [e])

theorem State.reserve_slotsOf (s : State) (src : CmdSrc) : SlotsOf src s (s.reserve src) := by
  cases src with
  | ring r => exact s.modRing_slotsOf r (fun x => { x with taken := x.taken + 1 }) rfl
  | mgmt _ => exact .of_host_eq rfl
  | smbus => exact .of_host_eq rfl

theorem State.ringComplete_slotsOf (s : State) (r : RingId) (gen : Nat) (st : Status) (tag : W16) (opc : Byte) (res : W64) :
    SlotsOf (.ring r) s (s.ringComplete r gen st tag opc res) := by
  have hadv (t : State) (x : Emission) : SlotsOf (.ring r) t ((t.emit x).modRing r RingSt.advance) :=
    (SlotsOf.of_host_eq (State.emit_host t x)).trans (State.modRing_slotsOf _ r _ rfl)
  have hfree : SlotsOf (.ring r) s
      (if s.host.rings[r.val].gen = gen then s.modRing r fun y => { y with taken := y.taken - 1 } else s) := by
    split
    · exact s.modRing_slotsOf r (fun y => { y with taken := y.taken - 1 }) rfl
    · exact .of_host_eq rfl
  unfold State.ringComplete
  dsimp only
  generalize (if s.host.rings[r.val].gen = gen then s.modRing r fun y => { y with taken := y.taken - 1 } else s) = u at hfree ⊢
  refine hfree.trans ?_
  split
  · split
    · exact (hadv _ _).trans (.of_host_eq (State.emit_host ..))
    · exact hadv _ _
  · exact .of_host_eq rfl

theorem State.complete_slotsOf (s : State) (p : PendCmd) (st : Status) (res : W64) : SlotsOf p.src s (s.complete p st res) := by
  unfold State.complete
  dsimp only
  refine SlotsOf.trans (t := if 0x01 ≤ p.opc.toNat && p.opc.toNat ≤ 0x0E
    then s.modJob fun j => { j with lastStatus := st.code } else s) (.of_host_eq (by split <;> rfl)) ?_
  cases p.src with
  | ring r => exact State.ringComplete_slotsOf ..
  | mgmt _ => exact .of_host_eq rfl
  | smbus => exact .of_host_eq rfl

/-! ### Commands on a path -/

/-- An entry whose path is open completes in every state where its ring is as its reservation left it. -/
theorem completed_of_ring (s t : State) (opc : Byte) (c : Cmd) (st : Status) (res : W64) (h : pathOpen s c.src = true)
    (ht : ∀ r, c.src = .ring r → t.host.rings[r.val] = (s.reserve c.src).host.rings[r.val]) :
    Completed (t.complete (s.pendOf opc c) st res) c opc st res := by
  obtain ⟨a, p, hm⟩ := complete_out t (s.pendOf opc c) st res fun r hr => by
    have hr' : c.src = .ring r := hr
    obtain ⟨he, hg⟩ := ring_reserve s c.src r
    rw [ht r hr', he, hg]
    refine ⟨by rw [hr'] at h; exact h, ?_⟩
    simp [State.pendOf, hr']
  exact ⟨a, p, hm⟩

/-- A command that takes no token and changes nothing itself: it completes, and leaves all but LAST_STATUS, the security block
and its ring's completion slots. -/
theorem freeCommand_answers (s : State) (opc : Byte) (c : Cmd) (body : State → Status × W64 × State) (st : Status) (res : W64)
    (hb : s.noBursar = false) (hp : pathOpen s c.src = true) (ho : body (s.reserve c.src) = (st, res, s.reserve c.src)) :
    Completed (s.freeCommand opc c body) c opc st res ∧ SameUnits s (s.freeCommand opc c body) ∧
      (s.freeCommand opc c body).job =
        (if 1 ≤ opc.toNat ∧ opc.toNat ≤ 14 then { s.job with lastStatus := st.code } else s.job) ∧
      SlotsOf c.src s (s.freeCommand opc c body) := by
  obtain ⟨hc, hu, hj⟩ := free_done hb hp rfl ho rfl
  have hr : SameUnits s (s.reserve c.src) := by constructor <;> simp
  rw [State.reserve_job] at hj
  refine ⟨hc, hr.trans hu, hj, (s.reserve_slotsOf c.src).trans ?_⟩
  unfold State.freeCommand
  rw [if_neg (by rw [hb]; exact Bool.false_ne_true), ho]
  dsimp only
  refine SlotsOf.trans (t := if c.tokenLen = 0 then s.reserve c.src else (s.reserve c.src).dbAppend dbCommand (tokenRole c)
    (srcCode c.src) st opc 0 (cmdDigest c opc)) (.of_host_eq ?_) (State.complete_slotsOf _ (s.pendOf opc c) st res)
  split
  · rfl
  · exact State.dbAppend_host ..

theorem jobStatus_answers (s : State) (c : Cmd) (hb : s.noBursar = false) (hp : pathOpen s c.src = true)
    (ha : argsOk c 0 0 0 = true) :
    Completed (jobStatus c s) c 0x0E .ok s.jobWord ∧ SameUnits s (jobStatus c s) ∧
      (jobStatus c s).job = { s.job with lastStatus := Status.ok.code } ∧ SlotsOf c.src s (jobStatus c s) := by
  refine freeCommand_answers s 0x0E c _ .ok s.jobWord hb hp ?_
  rw [if_pos ha]
  simp [State.jobWord]

/-- A reserved OPC is refused (R349). -/
theorem commandByOpc_reserved (opc : Byte) (c : Cmd) (x : Slip) (img : CkptImage) (s : State)
    (h : opc.toNat = 0 ∨ (0x0E < opc.toNat ∧ opc.toNat < 0x20) ∨ 0x2A < opc.toNat) :
    commandByOpc opc c x img s = s.freeCommand opc c fun s => (.stateConflict, 0, s) := by
  unfold commandByOpc
  split
  any_goals (exfalso; omega)
  rfl

/-! ### HST_RING_CFG -/

/-- The offset of HST_RING_CFG of a ring (R366). -/
def ringCfgOff (r : RingId) : Nat := 0x60_0000 + 0x1_0000 + r.val * 0x40

theorem wregAt_ringCfg : ∀ r : RingId, wregAt (ringCfgOff r) = some (.ringCfg r) := by
  decide +kernel

theorem regGone_ringCfg (s : State) (r : RingId) : s.regGone (ringCfgOff r) = false := by
  have := r.isLt
  unfold State.regGone ringCfgOff
  repeat rw [if_neg (by omega)]

/-- The installer's access to HST_RING_CFG writes it. -/
theorem regAccess_ringCfg (s : State) (r : RingId) (v : W64) (x : Slip) :
    s.regAccess (ringCfgOff r) 1 v x = { cmdDone .ok (s.writeRing r v) with target := put (ringCfgOff r) 0 } := by
  unfold State.regAccess
  dsimp only
  rw [if_neg (by rw [regGone_ringCfg]; unfold ringCfgOff; simp; omega), wregAt_ringCfg]
  rfl

/-- A REG_WRITE of HST_RING_CFG: its slot and token are taken, the ring is written, the day book has its entry, it completes. -/
theorem regWriteAt_ringCfg {s : State} {c : Cmd} {r : RingId} (h : RegTaken s c 1 (ringCfgOff r)) :
    regWriteAt c (regOff c) s = (((s.taken 1 c).writeRing r c.arg1).dbAppend dbCommand 1 (srcCode c.src) .ok 0x22
      (put (ringCfgOff r) 0) (cmdDigest c 0x22)).complete (s.pendOf 0x22 c) .ok 0 := by
  unfold regWriteAt
  rw [command_taken _ _ _ _ _ _ h.taken, h.names]
  dsimp only
  rw [regAccess_ringCfg]
  rfl

theorem cmdRing_ringCfg {s : State} {c : Cmd} {r : RingId} (h : RegTaken s c 1 (ringCfgOff r))
    {on : Bool} (hv : bitAt c.arg1 63 = on) : cmdRing c on = true := by
  unfold cmdRing cmdReg
  rw [h.names, wregAt_ringCfg]
  simp [hv]

/-- Beside its ring, a write of HST_RING_CFG leaves the job, the memories and the host as they are. -/
theorem State.writeRing_offLink (s : State) (r : RingId) (v : W64) :
    (s.writeRing r v).offLink = (s.modRing r fun x => x.write v).offLink := by
  unfold State.writeRing
  dsimp only
  split
  · exact State.regrant_offLink ..
  · rfl

theorem State.writeRing_host (s : State) (r : RingId) (v : W64) :
    (s.writeRing r v).host = (s.modRing r fun x => x.write v).host :=
  congrArg (fun p => p.2.2.2) (s.writeRing_offLink r v)

/-- A ring that is enabled grants no credit when it is written. -/
theorem State.writeRing_of_enabled (s : State) (r : RingId) (v : W64) (h : s.host.rings[r.val].enabled = true) :
    s.writeRing r v = s.modRing r fun x => x.write v := by
  unfold State.writeRing
  dsimp only
  rw [h]
  exact if_neg (by simp)

/-- What a REG_WRITE of HST_RING_CFG of a ring has done: the ring is written and the command has completed. -/
structure RingWritten (s : State) (c : Cmd) (r : RingId) (t : State) : Prop where
  units : SameUnits ((s.taken 1 c).writeRing r c.arg1) t
  job : t.job = s.job
  vaults : t.vaults = s.vaults
  fars : t.fars = s.fars
  ring : SameQueue ((s.reserve c.src).host.rings[r.val].write c.arg1) t.host.rings[r.val]
  ringElse : c.src ≠ .ring r → t.host.rings[r.val] = s.host.rings[r.val].write c.arg1
  others : ∀ k : RingId, k ≠ r → c.src ≠ .ring k → t.host.rings[k.val] = s.host.rings[k.val]
  completed : c.src ≠ .ring r → Completed t c 0x22 .ok 0

theorem regWriteAt_ringWritten {s : State} {c : Cmd} {r : RingId}
    (h : RegTaken s c 1 (ringCfgOff r)) : RingWritten s c r (regWriteAt c (regOff c) s) := by
  rw [regWriteAt_ringCfg h]
  have hoff := (s.taken 1 c).writeRing_offLink r c.arg1
  have hrings := (s.taken 1 c).writeRing_host r c.arg1
  generalize hu : (s.taken 1 c).writeRing r c.arg1 = u at hoff hrings
  simp only [State.offLink, Prod.mk.injEq] at hoff
  obtain ⟨hjob, hvaults, hfars, -⟩ := hoff
  have hring : u.host.rings[r.val] = (s.reserve c.src).host.rings[r.val].write c.arg1 := by
    rw [hrings, State.modRing_ring_same]; rfl
  have hother : ∀ k : RingId, k ≠ r → u.host.rings[k.val] = (s.reserve c.src).host.rings[k.val] := fun k hk => by
    rw [hrings, State.modRing_ring_ne _ _ hk]; rfl
  generalize hd : u.dbAppend dbCommand 1 (srcCode c.src) .ok 0x22 _ _ = d
  have hdu : SameUnits u d := hd ▸ dbAppend_units ..
  have hdh : d.host = u.host := hd ▸ State.dbAppend_host ..
  have hunits := hdu.trans (complete_units d (s.pendOf 0x22 c) .ok 0)
  have hslots : SlotsOf c.src u (d.complete (s.pendOf 0x22 c) .ok 0) :=
    (SlotsOf.of_host_eq hdh).trans (d.complete_slotsOf (s.pendOf 0x22 c) .ok 0)
  have hres := s.reserve_slotsOf c.src
  exact {
    units := hu ▸ hunits
    job := by
      rw [complete_job_eq, if_neg (by simp [State.pendOf]), ← hd, State.dbAppend_job, hjob]
      exact State.reserve_job ..
    vaults := by rw [hunits.vaults, hvaults]; exact State.reserve_vaults ..
    fars := by rw [hunits.fars, hfars]; exact State.reserve_fars ..
    ring := hring ▸ hslots.queue r
    ringElse := fun hs => by rw [hslots.others r hs, hring, hres.others r hs]
    others := fun k hk hs => by rw [hslots.others k hs, hother k hk, hres.others k hs]
    completed := fun hs => completed_of_ring s d 0x22 c .ok 0 h.path fun q hq => by
      rw [hdh, hother q fun e => hs (by rw [hq, e])] }

theorem fld_ringCfgMask (v : W64) : fld (v &&& ringCfgMask) 3 0 = fld v 3 0 ∧ fld (v &&& ringCfgMask) 9 8 = fld v 9 8 := by
  have hf (lo n : Nat) (hm : ringCfgMask.extractLsb' lo n = BitVec.allOnes n) :
      ((v &&& ringCfgMask).toNat >>> lo) % 2 ^ n = (v.toNat >>> lo) % 2 ^ n := by
    rw [← BitVec.extractLsb'_toNat, ← BitVec.extractLsb'_toNat, BitVec.extractLsb'_and, hm, BitVec.and_allOnes]
  exact ⟨hf 0 4 (by decide), hf 8 2 (by decide)⟩

/-- A disabled ring is enabled at position zero by a value that the three conditions allow, and takes no other (R347). -/
theorem RingSt.write_enables (x : RingSt) (v : W64) (he : x.enabled = false) (hv : bitAt v 63 = true) :
    if 4 ≤ fld v 3 0 ∧ fld v 3 0 ≤ 12 ∧ fld v 9 8 ≤ 2 ∧ fld x.sq 11 0 = 0 ∧ fld x.cq 11 0 = 0
    then (x.write v).enabled = true ∧ (x.write v).head = 0 ∧ (x.write v).tail = 0 ∧ (x.write v).cHead = 0 ∧
      (x.write v).cPos = 0 ∧ (x.write v).phase = true ∧ (x.write v).badCfg = false ∧ (x.write v).badDb = false ∧
      fld (x.write v).cfg 3 0 = fld v 3 0 ∧ fld (x.write v).cfg 9 8 = fld v 9 8
    else (x.write v).enabled = false ∧ (x.write v).badCfg = true := by
  obtain ⟨hsize, hkind⟩ := fld_ringCfgMask v
  have hen : bitAt (v &&& ringCfgMask) 63 = true := by
    unfold bitAt at hv ⊢
    rw [BitVec.getLsbD_and, hv]; rfl
  have hok : x.cfgOk (v &&& ringCfgMask) = true ↔
      4 ≤ fld v 3 0 ∧ fld v 3 0 ≤ 12 ∧ fld v 9 8 ≤ 2 ∧ fld x.sq 11 0 = 0 ∧ fld x.cq 11 0 = 0 := by
    unfold RingSt.cfgOk
    rw [hsize, hkind]
    simp [and_assoc]
  unfold RingSt.write
  dsimp only
  rw [he, if_neg Bool.false_ne_true, if_pos hen]
  by_cases h : x.cfgOk (v &&& ringCfgMask) = true
  · rw [if_pos h, if_pos (hok.mp h)]
    exact ⟨hen, rfl, rfl, rfl, rfl, rfl, rfl, rfl, hsize, hkind⟩
  · rw [if_neg h, if_neg fun hv => h (hok.mpr hv)]
    exact ⟨bitAt_setBit_clear _ 63 (by omega), rfl⟩

/-- A write with ENABLE clear disables an enabled ring, and clears nothing else. -/
theorem RingSt.write_disables (x : RingSt) (v : W64) (he : x.enabled = true) (hv : bitAt v 63 = false) :
    x.write v = { x with cfg := setBit x.cfg 63 false } := by
  have hoff : bitAt (v &&& ringCfgMask) 63 = false := by
    unfold bitAt at hv ⊢
    rw [BitVec.getLsbD_and, hv]; rfl
  unfold RingSt.write
  dsimp only
  rw [if_pos he, hoff]
  rfl

theorem ringEnable_written (r : RingId) (s : State) (c : Cmd)
    (h : RegTaken s c 1 (ringCfgOff r)) (hv : bitAt c.arg1 63 = true)
    (hoff : s.host.rings[r.val].enabled = false) :
    ∃ t, exec (.ringEnable c) s = .next t ∧ RingWritten s c r t ∧ c.src ≠ .ring r := by
  refine ⟨regWriteAt c (regOff c) s, ?_, regWriteAt_ringWritten h, fun hs => ?_⟩
  · show regWriteIf (cmdRing c true) c s = _
    rw [cmdRing_ringCfg h hv]
    rfl
  · have hp := h.path
    rw [hs] at hp
    exact Bool.false_ne_true (hoff.symm.trans hp)

theorem ringDisable_written (r : RingId) (s : State) (c : Cmd)
    (h : RegTaken s c 1 (ringCfgOff r)) (hv : bitAt c.arg1 63 = false)
    (hon : s.host.rings[r.val].enabled = true) :
    ∃ t, exec (.ringDisable c) s = .next t ∧ RingWritten s c r t ∧ SameUnits s t ∧
      t.host.rings[r.val].enabled = false ∧ t.host.rings[r.val].head = s.host.rings[r.val].head := by
  have w := regWriteAt_ringWritten h
  have hq := (s.reserve_slotsOf c.src).queue r
  have hres : (s.reserve c.src).host.rings[r.val].enabled = true := hq.enabled.trans hon
  have hring := w.ring
  rw [RingSt.write_disables _ _ hres hv] at hring
  refine ⟨regWriteAt c (regOff c) s, ?_, w, ?_, ?_, ?_⟩
  · show regWriteIf (cmdRing c false) c s = _
    rw [cmdRing_ringCfg h hv]
    rfl
  · have hu := w.units
    rw [(s.taken 1 c).writeRing_of_enabled r c.arg1 hres] at hu
    have hs : SameUnits s ((s.taken 1 c).modRing r fun x => x.write c.arg1) := by constructor <;> simp [State.taken]
    exact hs.trans hu
  · exact hring.enabled.trans (bitAt_setBit_clear _ 63 (by omega))
  · exact hring.head.trans hq.head

/-! ### Doorbells -/

theorem doorbellRing_eq {off : BitVec 18} {r : RingId} (h : off.toNat / 4096 = r.val) : doorbellRing off = r := Fin.ext h

/-- A doorbell of an enabled ring, while none is refused (R348, R359). -/
theorem doorbell_rings (s : State) (off : BitVec 18) (r : RingId) (k : W32) (h : off.toNat / 4096 = r.val)
    (hi : s.ideRefused = false) :
    (off.toNat % 4096 = 0 → s.doorbell off k = s.modRing r fun x => x.submit k.toNat) ∧
    (off.toNat % 4096 = 0x800 → s.doorbell off k = s.modRing r fun x => x.giveBack k.toNat) := by
  unfold State.doorbell
  rw [hi, if_neg Bool.false_ne_true, doorbellRing_eq h]
  exact ⟨fun h0 => by rw [h0]; rfl, fun h8 => by rw [h8]; rfl⟩

/-- A doorbell is ignored on a disabled ring, while IDE is required and not active, and at an offset that holds none. -/
theorem doorbell_ignored (s : State) (off : BitVec 18) (r : RingId) (k : W32) (h : off.toNat / 4096 = r.val)
    (hn : s.host.rings[r.val].enabled = false ∨ (bitAt s.host.cfg 0 = true ∧ s.host.ideActive = false) ∨
      (off.toNat % 4096 ≠ 0 ∧ off.toNat % 4096 ≠ 0x800)) : s.doorbell off k = s := by
  unfold State.doorbell
  rw [doorbellRing_eq h]
  split
  · rfl
  · rename_i hi
    refine s.modRing_self r _ ?_
    obtain hoff | ⟨hreq, hact⟩ | ⟨h0, h8⟩ := hn
    · split
      · exact if_pos hoff
      · exact if_pos hoff
      · rfl
    · exact absurd (by simp [State.ideRefused, hreq, hact]) hi
    · split
      · exact absurd ‹_› h0
      · exact absurd ‹_› h8
      · rfl

theorem RingSt.submit_of_enabled (x : RingSt) (n : Nat) (h : x.enabled = true) :
    x.submit n = if n < x.size ∧ ringDist x.size x.tail x.head ≤ ringDist x.size n x.head
      then { x with tail := n } else { x with badDb := true } := by
  unfold RingSt.submit
  dsimp only
  rw [h, if_neg (by simp)]

theorem RingSt.giveBack_of_enabled (x : RingSt) (n : Nat) (h : x.enabled = true) :
    x.giveBack n = if n < x.size ∧ ringDist x.size n x.cHead ≤ x.unreturned
      then { x with cHead := n } else { x with badDb := true } := by
  unfold RingSt.giveBack
  dsimp only
  rw [h, if_neg (by simp)]

/-! ### The arbiter (R353) -/

theorem entryDue_enabled {s : State} {r : RingId} {k : Nat} (h : s.entryDue r k = true) : s.host.rings[r.val].enabled = true := by
  simp only [State.entryDue, RingSt.ready, Bool.and_eq_true] at h
  obtain ⟨⟨⟨hon, -⟩, -⟩, -⟩ := h
  exact hon

/-- The ring whose turn it is has an entry to be taken. -/
theorem arbNext_entryDue {s : State} {r : RingId} (h : s.arbNext = some r.castSucc) : s.entryDue r 0 = true := by
  have hp := List.find?_some h
  rw [if_pos (by simp)] at hp
  have e : Fin.ofNat 64 r.castSucc.val = r := Fin.ext (Nat.mod_eq_of_lt r.isLt)
  rwa [e] at hp

/-- The state in which the entry at the head of a ring is evaluated: it has been read, and the turn is with its ring. -/
def State.popped (s : State) (r : RingId) : State := (s.modRing r RingSt.pop).modHost fun h => { h with arb := r.val }

theorem arbitrate_ring {s : State} {r : RingId} {opc : Byte} (c : Cmd) (x : Slip) (img : CkptImage) (hb : s.noBursar = false)
    (hn : s.arbNext = some r.castSucc) (hw : s.mustWait opc = false) :
    exec (.commandArbitrate (.ring r opc c x img)) s = .next (commandByOpc opc { c with src := .ring r } x img (s.popped r)) := by
  show Host.Outcome.next (commandArbitrate _ s) = _
  unfold commandArbitrate
  rw [if_neg (by rw [hb]; exact Bool.false_ne_true)]
  dsimp only
  rw [if_neg (by rw [hw]; exact fun h => h.elim (· hn) Bool.false_ne_true)]
  rfl

theorem arbitrate_ring_waits {s : State} {r : RingId} {opc : Byte} (c : Cmd) (x : Slip) (img : CkptImage)
    (h : s.noBursar = true ∨ s.arbNext ≠ some r.castSucc ∨ s.mustWait opc = true) :
    exec (.commandArbitrate (.ring r opc c x img)) s = .next s := by
  show Host.Outcome.next (commandArbitrate _ s) = _
  unfold commandArbitrate
  split
  · rfl
  · rename_i hb
    exact congrArg _ (if_pos (h.resolve_left hb))

/-- An entry has been taken from a ring: the head has moved past it, the turn is with the ring, and no unit has changed. -/
structure EntryTaken (s : State) (r : RingId) (t : State) : Prop where
  units : SameUnits s t
  head : t.host.rings[r.val].head = (s.host.rings[r.val].head + 1) % s.host.rings[r.val].size
  turn : t.host.arb = r.val

theorem popped_entryTaken {s t : State} {r : RingId} (hu : SameUnits (s.popped r) t) (hs : SlotsOf (.ring r) (s.popped r) t) :
    EntryTaken s r t where
  units := SameUnits.trans (by constructor <;> rfl) hu
  head := by
    rw [(hs.queue r).head]
    show (s.modRing r RingSt.pop).host.rings[r.val].head = _
    rw [State.modRing_ring_same]
    rfl
  turn := by rw [hs.host]; rfl

theorem popped_enabled {s : State} {r : RingId} (h : s.arbNext = some r.castSucc) : pathOpen (s.popped r) (.ring r) = true := by
  show (s.modRing r RingSt.pop).host.rings[r.val].enabled = true
  rw [State.modRing_ring_same]
  exact entryDue_enabled (arbNext_entryDue h)

/-- JOB_STATUS from the ring whose turn it is. -/
theorem arbitrate_ring_jobStatus {s : State} {r : RingId} (c : Cmd) (x : Slip) (img : CkptImage) (hb : s.noBursar = false)
    (hn : s.arbNext = some r.castSucc) (ha : argsOk c 0 0 0 = true) :
    ∃ t, exec (.commandArbitrate (.ring r 0x0E c x img)) s = .next t ∧
      Completed t { c with src := .ring r } 0x0E .ok s.jobWord ∧ EntryTaken s r t ∧
      t.job = { s.job with lastStatus := Status.ok.code } := by
  obtain ⟨hc, hu, hj, hs⟩ := jobStatus_answers (s.popped r) { c with src := .ring r } hb (popped_enabled hn) ha
  exact ⟨_, arbitrate_ring c x img hb hn rfl, hc, popped_entryTaken hu hs, hj⟩

/-- An entry with a reserved OPC from the ring whose turn it is. -/
theorem arbitrate_ring_reserved {s : State} {r : RingId} {opc : Byte} (c : Cmd) (x : Slip) (img : CkptImage)
    (hb : s.noBursar = false) (hn : s.arbNext = some r.castSucc)
    (ho : opc.toNat = 0 ∨ (0x0E < opc.toNat ∧ opc.toNat < 0x20) ∨ 0x2A < opc.toNat) :
    ∃ t, exec (.commandArbitrate (.ring r opc c x img)) s = .next t ∧
      Completed t { c with src := .ring r } opc .stateConflict 0 ∧ EntryTaken s r t ∧ t.job = s.job := by
  have hw : s.mustWait opc = false := by
    have hne : opc ≠ 0x02 := by rintro rfl; simp at ho
    exact Bool.and_eq_false_imp.mpr fun h => absurd (eq_of_beq h) hne
  obtain ⟨hc, hu, hj, hs⟩ := freeCommand_answers (s.popped r) opc { c with src := .ring r } (fun s => (.stateConflict, 0, s))
    .stateConflict 0 hb (popped_enabled hn) rfl
  rw [if_neg (by omega)] at hj
  refine ⟨_, arbitrate_ring c x img hb hn hw, ?_⟩
  rw [commandByOpc_reserved _ _ _ _ _ ho]
  exact ⟨hc, popped_entryTaken hu hs, hj⟩

/-- The source of a command that came in a message of the path of R455. -/
def mctpSrc (m : MctpMsg) : CmdSrc := if m.smbus then .smbus else .mgmt m.port

theorem mctpSrc_ne_ring (m : MctpMsg) (k : RingId) : mctpSrc m ≠ .ring k := by
  unfold mctpSrc
  split <;> exact fun h => nomatch h

theorem pathOpen_mctpSrc (m : MctpMsg) (s : State) : pathOpen s (mctpSrc m) = true := by
  unfold mctpSrc
  split <;> rfl

/-- The state in which a message of the path of R455 is evaluated: the others still wait, and the turn is with the path. -/
def State.poppedPath (s : State) (rest : List MctpMsg) : State := s.modHost fun h => { h with arb := 64, path := rest }

theorem arbitrate_path {s : State} {m : MctpMsg} {rest : List MctpMsg} {opc : Byte} {c : Cmd} {x : Slip} {img : CkptImage}
    (hp : s.host.path = m :: rest) (hm : m.body = .command opc c x img) (hb : s.noBursar = false) (hn : s.arbNext = some 64)
    (hw : s.mustWait opc = false) :
    exec (.commandArbitrate .path) s = .next (commandByOpc opc { c with src := mctpSrc m } x img (s.poppedPath rest)) := by
  have htake : (s.poppedPath rest).mctpTake m = commandByOpc opc { c with src := mctpSrc m } x img (s.poppedPath rest) := by
    unfold State.mctpTake
    rw [hm]
    rfl
  show Host.Outcome.next (commandArbitrate _ s) = _
  unfold commandArbitrate
  rw [if_neg (by rw [hb]; exact Bool.false_ne_true)]
  dsimp only
  rw [hp]
  dsimp only
  rw [hm, if_neg (by rw [hn]; exact fun h => h.elim (· rfl) (by simp [hw])), ← htake]
  rfl

/-- JOB_STATUS from the path of R455, the 65th ring. -/
theorem arbitrate_path_jobStatus {s : State} {m : MctpMsg} {rest : List MctpMsg} {c : Cmd} {x : Slip} {img : CkptImage}
    (hp : s.host.path = m :: rest) (hm : m.body = .command 0x0E c x img) (hb : s.noBursar = false) (hn : s.arbNext = some 64)
    (ha : argsOk c 0 0 0 = true) :
    ∃ t, exec (.commandArbitrate .path) s = .next t ∧
      Completed t { c with src := mctpSrc m } 0x0E .ok s.jobWord ∧ SameUnits s t ∧
      t.job = { s.job with lastStatus := Status.ok.code } ∧ t.host = { s.host with arb := 64, path := rest } := by
  obtain ⟨hc, hu, hj, hs⟩ := jobStatus_answers (s.poppedPath rest) { c with src := mctpSrc m } hb (pathOpen_mctpSrc m _) ha
  exact ⟨_, arbitrate_path hp hm hb hn rfl, hc, SameUnits.trans (by constructor <;> rfl) hu, hj,
    hs.host_eq (mctpSrc_ne_ring m)⟩

theorem arbitrate_path_waits {s : State} (h : s.noBursar = true ∨ s.host.path = [] ∨ s.arbNext ≠ some 64) :
    exec (.commandArbitrate .path) s = .next s := by
  show Host.Outcome.next (commandArbitrate _ s) = _
  unfold commandArbitrate
  split
  · rfl
  · rename_i hb
    dsimp only
    split
    · rfl
    · rename_i hp
      have hn := (h.resolve_left hb).resolve_left (by rw [hp]; exact List.cons_ne_nil _ _)
      exact congrArg _ (if_pos (.inl hn))

/-! ### The link to the host (R340 to R342) -/

theorem pcieUp_degraded (s : State) (rate : BitVec 4) (width : BitVec 5) (flit : Bool) :
    (s.pcieUp rate width flit).host.degraded = true ↔ rate.toNat < 6 ∨ width.toNat < 16 ∨ flit = false := by
  cases flit with
  | false => simp [State.pcieUp]
  | true => simp [State.pcieUp]

/-! ### Host rings, doorbells, arbiter and link together -/

/-- Settles O50: a write of HST_RING_CFG by what it makes of its ring, the doorbells by the two bounds of R348, the arbiter by
the entry whose turn it is. -/
theorem ringsTakeCommands : Obligations.RingsTakeCommands := by
  unfold Obligations.RingsTakeCommands
  intro r s
  refine ⟨?enable, ?disable, ?doorbell, ?ignored, ?link, ?ring, ?path, arbitrate_path_waits⟩
  case enable =>
    intro c v h hc hv hoff
    subst hc
    obtain ⟨t, hx, w, hs⟩ := ringEnable_written r s c h hv hoff
    refine ⟨t, hx, w.completed hs, w.job, w.vaults, w.fars, w.others, ?_⟩
    rw [w.ringElse hs]
    exact RingSt.write_enables _ _ hoff hv
  case disable =>
    intro c h hv hon
    obtain ⟨t, hx, w, hu, hdis, hhead⟩ := ringDisable_written r s c h hv hon
    exact ⟨t, hx, hu, w.job, hdis, hhead, w.completed, w.others⟩
  case doorbell =>
    intro off k h hi hon
    obtain ⟨hsub, hgive⟩ := doorbell_rings s off r k h hi
    refine ⟨fun h0 => ⟨_, congrArg Host.Outcome.next (hsub h0), rfl, fun j hj => s.modRing_ring_ne _ hj, ?_⟩,
      fun h8 => ⟨_, congrArg Host.Outcome.next (hgive h8), rfl, fun j hj => s.modRing_ring_ne _ hj, ?_⟩⟩
    · rw [State.modRing_ring_same, RingSt.submit_of_enabled _ _ hon]
      split <;> rfl
    · rw [State.modRing_ring_same, RingSt.giveBack_of_enabled _ _ hon]
      split <;> rfl
  case ignored =>
    intro off k h hn
    exact ⟨congrArg Host.Outcome.next (doorbell_ignored s off r k h hn),
      congrArg Host.Outcome.next (doorbell_ignored s off r k h hn)⟩
  case link =>
    intro rate width flit
    refine ⟨fun hp ho hr => ⟨s.pcieUp rate width flit, congrArg _ (if_neg ?_), rfl, rfl, pcieUp_degraded ..⟩,
      fun h => congrArg _ (if_pos h)⟩
    rw [hp, hr]
    simp [ho]
  case ring =>
    intro opc c x img
    refine ⟨fun hb hn => ⟨fun ha => ?_, fun ho => ?_⟩, fun h => arbitrate_ring_waits c x img ?_⟩
    · obtain ⟨t, hx, hc, ht, hj⟩ := arbitrate_ring_jobStatus c x img hb hn ha
      exact ⟨t, hx, hc, ht.units, hj, ht.head, ht.turn⟩
    · obtain ⟨t, hx, hc, ht, hj⟩ := arbitrate_ring_reserved c x img hb hn ho
      exact ⟨t, hx, hc, ht.units, hj, ht.head, ht.turn⟩
    · simpa [State.mustWait] using h
  case path => exact fun _ _ _ _ _ => arbitrate_path_jobStatus

end Sys2Proof.Machine
end

section
/-! PROOFS. What records, and reads and writes of the memories, leave of the mailbox, of GLB_ERR_SUMMARY, of the span and of the
engines (09 R273, R274; 13 R402, R406). -/

namespace Sys2Proof.Machine

/-! ### Records -/

/-- The mailbox has got entries and GLB_ERR_SUMMARY bits; none has gone (R402, R406). -/
structure Logged (x y : IntSt) : Prop where
  mbox : x.mbox <+: y.mbox
  err : ∀ i, bitAt x.errSummary i = true → bitAt y.errSummary i = true

theorem Logged.refl (x : IntSt) : Logged x x := ⟨List.prefix_refl _, fun _ h => h⟩

theorem Logged.trans {x y z : IntSt} (h : Logged x y) (k : Logged y z) : Logged x z :=
  ⟨h.mbox.trans k.mbox, fun i hi => k.err i (h.err i hi)⟩

/-- An entry of the mailbox keeps its place. -/
theorem Logged.getElem? {x y : IntSt} (h : Logged x y) {k : Nat} {m : MboxEntry} (hm : x.mbox[k]? = some m) :
    y.mbox[k]? = some m := by
  obtain ⟨r, hr⟩ := h.mbox
  rw [← hr, List.getElem?_append_left (List.getElem?_eq_some_iff.1 hm).1, hm]

theorem bitAt_setBit {n : Nat} (w : BitVec n) (i k : Nat) (b : Bool) (hk : k < n) :
    bitAt (setBit w i b) k = if k = i then b else bitAt w k := by
  have hp : (BitVec.ofNat n (2 ^ i)).getLsbD k = decide (k = i) := by
    rw [BitVec.getLsbD_ofNat, Nat.testBit_two_pow]
    simp [hk, eq_comm]
  cases b <;> by_cases h : k = i <;> simp_all [bitAt, setBit]

theorem State.setErr_set (s : State) (i : Nat) (hi : i < 13) : bitAt (s.setErr i).int.errSummary i = true := by
  unfold State.setErr
  split
  · assumption
  · exact (bitAt_setBit _ _ _ _ hi).trans (if_pos rfl)

theorem State.setErr_logged (s : State) (i : Nat) : Logged s.int (s.setErr i).int := by
  unfold State.setErr
  split
  · exact Logged.refl _
  · refine ⟨List.prefix_refl _, fun k hk => ?_⟩
    have hlt : k < 13 := BitVec.lt_of_getLsbD hk
    refine (bitAt_setBit _ _ _ _ hlt).trans ?_
    split
    · rfl
    · exact hk

/-- The entry that a record makes (R402). -/
def State.mboxEntry (s : State) (i : IslandIdx) (cls : Byte) (st : Status) (step : StepNo) (mb : W16) (r : Rec4) : MboxEntry where
  seqNo := wrapAdd s.int.mboxSeq 1
  boot := s.sec.boot
  step := step
  mb := mb
  island := islandId i
  cls := cls
  status := st.code
  iseq := s.glb.seqs[i.val]
  jobId := s.activeJobId
  record := r

theorem State.postAt_mbox (s : State) (i : IslandIdx) (cls : Byte) (st : Status) (step : StepNo) (mb : W16) (r : Rec4)
    (h : s.int.mbox.length < 4096) : (s.postAt i cls st step mb r).int.mbox = s.int.mbox ++ [s.mboxEntry i cls st step mb r] := by
  unfold State.postAt
  exact congrArg (fun t : State => t.int.mbox) (if_pos h)

theorem State.postAt_last (s : State) (i : IslandIdx) (cls : Byte) (st : Status) (step : StepNo) (mb : W16) (r : Rec4)
    (h : s.int.mbox.length < 4096) :
    (s.postAt i cls st step mb r).int.mbox[s.int.mbox.length]? = some (s.mboxEntry i cls st step mb r) := by
  rw [State.postAt_mbox _ _ _ _ _ _ _ h, List.getElem?_concat_length]

theorem State.postAt_logged (s : State) (i : IslandIdx) (cls : Byte) (st : Status) (step : StepNo) (mb : W16) (r : Rec4) :
    Logged s.int (s.postAt i cls st step mb r).int := by
  unfold State.postAt
  dsimp only
  split
  · exact ⟨List.prefix_append _ _, fun _ h => h⟩
  · refine Logged.trans ?_ (State.setErr_logged _ _)
    exact ⟨List.prefix_refl _, fun _ h => h⟩

/-! ### Writes to the memories -/

theorem State.modChan_chan (s : State) (e g : EngineId) (c k : ChanId) (f : ChanSt → ChanSt) :
    (s.modChan e c f).chan g k = if g = e ∧ k = c then f (s.chan g k) else s.chan g k := by
  unfold State.chan State.modChan
  by_cases hg : g = e
  · subst hg
    rw [State.modEng_self]
    by_cases hk : k = c
    · subst hk
      simp
    · rw [if_neg fun h => hk h.2]
      exact Vector.getElem_set_ne c.isLt k.isLt fun h => hk (Fin.ext h.symm)
  · rw [if_neg fun h => hg h.1, State.modEng_other _ _ _ _ _ fun h => hg (Fin.ext h.symm)]

/-- What a write to a vault or far channel leaves: of the engines, all but the progress and the failures of their channels
(R273, R274). -/
structure Stored (s t : State) : Prop where
  log : Logged s.int t.int
  span : t.span = s.span
  eng : ∀ g : EngineId, t.eng[g.val] = { s.eng[g.val] with dma := t.eng[g.val].dma }
  slip : ∀ (g : EngineId) (c : ChanId), (t.chan g c).slip = (s.chan g c).slip

theorem Stored.refl (s : State) : Stored s s := ⟨Logged.refl _, rfl, fun _ => rfl, fun _ _ => rfl⟩

section
variable {s t : State} (h : Stored s t)
include h

/-- A change that reaches neither the records, the span nor the engines. -/
theorem Stored.keeps {u : State} (hi : u.int = t.int) (hs : u.span = t.span) (he : u.eng = t.eng) : Stored s u :=
  ⟨hi ▸ h.log, hs.trans h.span, fun g => by rw [he]; exact h.eng g,
    fun g c => (congrArg (fun v : Vector Engine 128 => (v[g.val].dma[c.val]).slip) he).trans (h.slip g c)⟩

theorem Stored.emit {x : Emission} : Stored s (t.emit x) := h.keeps rfl rfl rfl

theorem Stored.modCtl {c : CtlId} {f : CtlSt → CtlSt} : Stored s (t.modCtl c f) := by
  cases c <;> exact h.keeps rfl rfl rfl

theorem Stored.modCache {c : CacheId} {f : CacheSt → CacheSt} : Stored s (t.modCache c f) := h.keeps rfl rfl rfl

theorem Stored.modChan {e : EngineId} {c : ChanId} {f : ChanSt → ChanSt} (hf : ∀ x, (f x).slip = x.slip) :
    Stored s (t.modChan e c f) := by
  refine ⟨h.log, h.span, fun g => ?_, fun g k => ?_⟩
  · have hg := h.eng g
    by_cases hge : e = g
    · subst hge
      simp only [State.modChan, State.modEng_self]
      rw [hg]
    · rw [State.modChan, State.modEng_other _ _ _ _ _ fun hv => hge (Fin.ext hv)]
      exact hg
  · rw [State.modChan_chan, ← h.slip g k]
    split
    · rw [hf]
    · rfl

theorem Stored.setErr {i : Nat} : Stored s (t.setErr i) :=
  ⟨h.log.trans (t.setErr_logged i), by simpa using h.span, fun g => by simpa using h.eng g,
    fun g c => by simpa [State.chan] using h.slip g c⟩

theorem Stored.postAt {i : IslandIdx} {cls : Byte} {st : Status} {step : StepNo} {mb : W16} {r : Rec4} :
    Stored s (t.postAt i cls st step mb r) :=
  ⟨h.log.trans (t.postAt_logged ..), by simpa using h.span, fun g => by simpa using h.eng g,
    fun g c => by simpa [State.chan] using h.slip g c⟩

theorem Stored.foldl {α : Type} {f : State → α → State} {l : List α} (hf : ∀ u a, Stored s u → Stored s (f u a)) :
    Stored s (l.foldl f t) := by
  induction l generalizing t with
  | nil => exact h
  | cons a l ih => exact ih (hf t a h)

omit h in
theorem Stored.ite {c : Prop} [Decidable c] {u v : State} (hu : Stored s u) (hv : Stored s v) :
    Stored s (if c then u else v) := by
  split
  · exact hu
  · exact hv

omit h in
theorem Stored.ite_snd {α : Type} {c : Prop} [Decidable c] {x y : α × State} (hx : Stored s x.2) (hy : Stored s y.2) :
    Stored s (if c then x else y).2 := by
  split
  · exact hx
  · exact hy

theorem Stored.answer {c : CtlId} {st : Status} {a : Nat} {who : Requester} : Stored s (t.answer c st a who) := by
  unfold State.answer
  split
  · split
    · exact h.modChan fun x => by split <;> rfl
    · split
      · exact h
      · exact h.modChan fun x => by split <;> rfl
  · exact h.emit

theorem Stored.answerAll {c : CtlId} {st : Status} {a : Nat} {l : List Requester} : Stored s (t.answerAll c st a l) :=
  h.foldl fun _ _ hu => hu.answer

theorem Stored.overwrite {c : CtlId} {a : Nat} {bs : List Byte} : Stored s (t.overwrite c a bs) := h.modCtl.answerAll

theorem Stored.putPage {c : CtlId} {p : Nat} {data : List Byte} {x : Sideband} : Stored s (t.putPage c p data x) := by
  unfold State.putPage
  split <;> exact h.overwrite.modCtl

theorem Stored.putPart {c : CtlId} {a : Nat} {data : List Byte} : Stored s (t.putPart c a data) := by
  unfold State.putPart
  dsimp only
  split
  · exact h.overwrite.modCtl
  · exact h.putPage

theorem Stored.correct {c : CtlId} {d : Fin 8} {cw : Nat} {b : ReadBy} : Stored s (t.correct c d cw b) := by
  unfold State.correct
  dsimp only
  split
  · exact h.modCtl.postAt
  · exact h.modCtl

theorem Stored.countUe {c : CtlId} {cw : Nat} {d : Option (Fin 8)} {scrub : Bool} : Stored s (t.countUe c cw d scrub) := h.modCtl

theorem Stored.recordUe {c : CtlId} {d : Option (Fin 8)} {cw : Nat} {b : ReadBy} : Stored s (t.recordUe c d cw b) :=
  h.modCtl.postAt.setErr

theorem Stored.sift {c : CtlId} {a len : Nat} {fs : List (Nat × CwFault)} {b : ReadBy} : Stored s (t.sift c a len fs b).2 := by
  refine h.foldl fun u f hu => ?_
  split
  · exact hu.correct.ite hu
  · exact hu

theorem Stored.reportBad {c : CtlId} {l : List BadCw} {b : ReadBy} : Stored s (t.reportBad c l b).2 := by
  unfold State.reportBad
  split
  · exact h
  · exact (h.foldl fun _ _ hu => hu.countUe).recordUe

theorem Stored.putCw {c : CtlId} {cw : Nat} {bs : List Byte} : Stored s (t.putCw c cw bs) := by
  unfold State.putCw
  split
  · exact h.modCtl
  · exact h.putPart

theorem Stored.readCw {c : CtlId} {cw : Nat} {fault : Option CwFault} {b : ReadBy} : Stored s (t.readCw c cw fault b).2 := by
  unfold State.readCw
  split
  · exact h.sift
  · split
    · dsimp only
      exact h.modCache
    · exact h.sift

theorem Stored.retireFails {c : CtlId} {m : MergeEnt} : Stored s (t.retireFails c m) := h.modCtl.answerAll

theorem Stored.retire {c : CtlId} {m : MergeEnt} {fault : Option CwFault} : Stored s (t.retire c m fault) := by
  unfold State.retire
  dsimp only
  split
  · exact h.modCtl.readCw.modCtl.putCw.answerAll
  · exact h.modCtl.readCw.reportBad.retireFails

theorem Stored.mergeIn {c : CtlId} {cw off : Nat} {data : List Byte} {who : List Requester} {fault : Option CwFault}
    {old : List (Nat × Sideband)} : Stored s (t.mergeIn c cw off data who fault old) := by
  unfold State.mergeIn
  dsimp only
  split
  · exact h.answerAll
  · split
    · split
      · exact h.modCtl.putCw.answerAll
      · exact h.modCtl
    · refine Stored.modCtl ?_
      split
      · split
        · exact h.retire
        · exact h
      · exact h

theorem Stored.narrow {c : CtlId} {a : Nat} {data : List Byte} {who : List Requester} {fault : Option CwFault} :
    Stored s (t.narrow c a data who fault) := by
  unfold State.narrow
  split
  · exact h.putPart.answerAll
  · exact h.mergeIn.modCtl

theorem Stored.writePage {c : CtlId} {p : Nat} {data : List Byte} {x : Sideband} {who : List Requester} {evict : Option CwFault} :
    Stored s (t.writePage c p data x who evict) := by
  unfold State.writePage
  split
  · exact h.answerAll
  · exact h.putPage.mergeIn

theorem Stored.writeRange {c : CtlId} {a : Nat} {data : List Byte} {who : List Requester} {evict : Option CwFault} {n : Nat} :
    Stored s (t.writeRange c a data who evict n) := by
  induction n generalizing t a data with
  | zero => exact h
  | succ n ih =>
    unfold State.writeRange
    split
    · exact h
    · exact ih (h.writePage.ite (h.putPart.ite h.narrow))

theorem Stored.writeBytes {c : CtlId} {a : Nat} {data : List Byte} {who : List Requester} {evict : Option CwFault} :
    Stored s (t.writeBytes c a data who evict) := by
  unfold State.writeBytes
  split
  · exact h.answerAll
  · exact h.writeRange

theorem Stored.cacheFill {f : FarId} {line : Nat} : Stored s (t.cacheFill f line) := by
  unfold State.cacheFill
  dsimp only
  split
  · exact h.modCache
  · exact (h.keeps rfl rfl rfl : Stored s { t with free := t.free + 1 }).modCache

theorem Stored.cacheRefetch {f : FarId} {line : Nat} {b : ReadBy} : Stored s (t.cacheRefetch f line b) := h.modCache.postAt

theorem Stored.cacheLine {f : FarId} {a len line : Nat} {noAlloc badLine : Bool} {fs : List (Nat × CwFault)} {b : ReadBy} :
    Stored s (t.cacheLine f a len line noAlloc badLine fs b).2 := by
  have hr : Stored s (if t.resident f line then t.cacheRefetch f line b else t) := h.cacheRefetch.ite h
  unfold State.cacheLine
  split
  · dsimp only
    exact h.modCache
  · cases noAlloc
    · exact Stored.ite_snd hr.modCache.sift hr.modCache.sift.cacheFill
    · exact hr.modCache.sift

theorem Stored.cacheRead {f : FarId} {a len : Nat} {noAlloc : Bool} {m : ReadMet} {b : ReadBy} :
    Stored s (t.cacheRead f a len noAlloc m b).2 := by
  refine List.foldlRecOn _ _ (motive := fun r : List BadCw × List (Nat × CwFault) × State => Stored s r.2.2) ?_ ?_
  · dsimp only
    exact h.modCache
  · exact fun r hr i _ => hr.cacheLine

theorem Stored.readVia {c : CtlId} {a len : Nat} {noAlloc : Bool} {m : ReadMet} {b : ReadBy} :
    Stored s (t.readVia c a len noAlloc m b).2 := by
  unfold State.readVia
  split
  · exact h.sift.reportBad
  · exact h.cacheRead.reportBad

theorem Stored.pageIn {c : CtlId} {p : Nat} {b : ReadBy} : Stored s (t.pageIn c p b).2 := by
  unfold State.pageIn
  split
  · exact h
  · exact h.readVia

end

end Sys2Proof.Machine
end

section
/-! PROOFS. What marks, failures at the engines, frames to peers and stops leave of the mailbox, of GLB_ERR_SUMMARY, of the
span and of the engines' parity counts (09 R280; 13 R370, R388, R396, R402). -/

namespace Sys2Proof.Machine

/-! ### Marks -/

/-- The state in which the step in flight has been marked, for so many times by now (R388). -/
def State.marked (s : State) (i : IslandIdx) (st : Status) (marks : Nat) : State :=
  (((s.modInt fun x => { x with
      replay := some { step := s.curStep, cause := st.code, island := islandId i, marks := marks, stopped := true, fresh := true }
      replayStep := s.curStep
      replayAttempt := BitVec.ofNat 4 (min marks 15) }).post i clsReplay st noMb
    (replayRec st.code (if s.replayLimit < marks then 3 else 0) marks (islandId i) s.curStep)).emit
      (.mark s.curStep st.code (islandId i))).modAllEng Engine.stop

theorem State.mark_cases (s : State) (i : IslandIdx) (st : Status) : s.mark i st = s ∨ ∃ n, s.mark i st = s.marked i st n := by
  unfold State.mark
  dsimp only
  split
  · split
    · exact .inl rfl
    · split
      · exact .inr ⟨1, rfl⟩
      · split
        · exact .inl rfl
        · exact .inr ⟨_, rfl⟩
  · exact .inl rfl

/-- The first mark of a step in flight. -/
theorem State.mark_first {s : State} (i : IslandIdx) (st : Status) (hr : s.job.state = .running) (ho : s.job.stepOn = true)
    (hh : s.int.holding = false) (hn : s.int.replay = none) : s.mark i st = s.marked i st 1 := by
  unfold State.mark
  rw [if_pos ⟨hr, ho⟩, hn]
  dsimp only
  rw [hh]
  rfl

/-! ### What goes on beyond the memories -/

/-- Records may have been made. What a transfer given up, or a step that stops, leaves: the records made before, the span, and
the count of broken transfers at each engine (12 R364; 13 R370, R402). -/
structure Reported (s t : State) : Prop where
  log : Logged s.int t.int
  span : t.span = s.span
  broken : ∀ g : EngineId, t.eng[g.val].int.parBroken = s.eng[g.val].int.parBroken

theorem Reported.refl (s : State) : Reported s s := ⟨Logged.refl _, rfl, fun _ => rfl⟩

section
variable {s t : State} (h : Reported s t)
include h

theorem Reported.stored {u : State} (k : Stored t u) : Reported s u :=
  ⟨h.log.trans k.log, k.span.trans h.span, fun g => by rw [k.eng g]; exact h.broken g⟩

theorem Reported.keeps {u : State} (hi : u.int = t.int) (hs : u.span = t.span) (he : u.eng = t.eng) : Reported s u :=
  h.stored ((Stored.refl t).keeps hi hs he)

omit h in
theorem Reported.ite {c : Prop} [Decidable c] {u v : State} (hu : Reported s u) (hv : Reported s v) :
    Reported s (if c then u else v) := by
  split
  · exact hu
  · exact hv

theorem Reported.foldl {α : Type} {f : State → α → State} {l : List α} (hf : ∀ u a, Reported s u → Reported s (f u a)) :
    Reported s (l.foldl f t) := by
  induction l generalizing t with
  | nil => exact h
  | cons a l ih => exact ih (hf t a h)

/-! Updates of one part. -/

theorem Reported.emit {x : Emission} : Reported s (t.emit x) := h.keeps rfl rfl rfl

theorem Reported.modHost {f : HostSt → HostSt} : Reported s (t.modHost f) := h.keeps rfl rfl rfl

theorem Reported.modJob {f : JobSt → JobSt} : Reported s (t.modJob f) := h.keeps rfl rfl rfl

theorem Reported.modCkpt {f : CkptSt → CkptSt} : Reported s (t.modCkpt f) := h.keeps rfl rfl rfl

theorem Reported.modSec {f : SecSt → SecSt} : Reported s (t.modSec f) := h.keeps rfl rfl rfl

theorem Reported.modUpd {f : UpdSt → UpdSt} : Reported s (t.modUpd f) := h.keeps rfl rfl rfl

theorem Reported.modClr {u : Fin 2} {f : ClrSt → ClrSt} : Reported s (t.modClr u f) := h.keeps rfl rfl rfl

theorem Reported.modPeer {i : Nat} {f : PeerSt → PeerSt} : Reported s (t.modPeer i f) := h.keeps rfl rfl rfl

theorem Reported.modPort {p : PortId} {f : PortSt → PortSt} : Reported s (t.modPort p f) := h.keeps rfl rfl rfl

theorem Reported.draw : Reported s t.draw.2 := h.keeps rfl rfl rfl

theorem Reported.setEnv {env : EnvSt} : Reported s { t with env := env } := h.keeps rfl rfl rfl

theorem Reported.modCtl {c : CtlId} {f : CtlSt → CtlSt} : Reported s (t.modCtl c f) := h.stored (Stored.refl t).modCtl

theorem Reported.modInt {f : IntSt → IntSt} (hm : (f t.int).mbox = t.int.mbox := by rfl)
    (he : (f t.int).errSummary = t.int.errSummary := by rfl) : Reported s (t.modInt f) :=
  ⟨h.log.trans ⟨hm ▸ List.prefix_refl _, fun _ hi => (he ▸ hi : bitAt (f t.int).errSummary _ = true)⟩, h.span, h.broken⟩

theorem Reported.modEng {e : EngineId} {f : Engine → Engine}
    (hf : ∀ x, (f x).int.parBroken = x.int.parBroken := by intro; rfl) : Reported s (t.modEng e f) := by
  refine ⟨h.log, h.span, fun g => ?_⟩
  by_cases hg : g = e
  · subst hg
    rw [State.modEng_self, hf, h.broken]
  · rw [State.modEng_other _ _ _ _ _ fun hv => hg (Fin.ext hv.symm), h.broken]

theorem Reported.modAllEng {f : Engine → Engine}
    (hf : ∀ x, (f x).int.parBroken = x.int.parBroken := by intro; rfl) : Reported s (t.modAllEng f) := by
  refine ⟨h.log, h.span, fun g => ?_⟩
  rw [State.modAllEng_eng, Vector.getElem_map, hf, h.broken]

theorem Reported.modArr {e : EngineId} {f : EngArr → EngArr} : Reported s (t.modArr e f) := h.modEng

theorem Reported.modVec {e : EngineId} {f : EngVec → EngVec} : Reported s (t.modVec e f) := h.modEng

theorem Reported.modSeq {e : EngineId} {f : SeqSt → SeqSt} : Reported s (t.modSeq e f) := h.modEng

theorem Reported.modLed {e : EngineId} {f : EngLed → EngLed} : Reported s (t.modLed e f) := h.modEng

theorem Reported.modEngInt {e : EngineId} {f : EngInt → EngInt} (hf : ∀ x, (f x).parBroken = x.parBroken := by intro; rfl) :
    Reported s (t.modEngInt e f) := h.modEng fun _ => hf _

theorem Reported.modTill {e : EngineId} {i : TillId} {f : TillSt → TillSt} : Reported s (t.modTill e i f) := h.modEng

theorem Reported.modT {e : EngineId} {i : Nat} {f : TillSt → TillSt} : Reported s (t.modT e i f) := h.modTill

theorem Reported.modChan {e : EngineId} {c : ChanId} {f : ChanSt → ChanSt} : Reported s (t.modChan e c f) := h.modEng

theorem Reported.setErr {i : Nat} : Reported s (t.setErr i) := h.stored (Stored.refl t).setErr

theorem Reported.post {i : IslandIdx} {cls : Byte} {st : Status} {mb : W16} {r : Rec4} : Reported s (t.post i cls st mb r) :=
  h.stored (Stored.refl t).postAt

/-! Marks and failures of engines. -/

theorem Reported.settle : Reported s t.settle := h.modInt

theorem Reported.marked {i : IslandIdx} {st : Status} {n : Nat} : Reported s (t.marked i st n) := h.modInt.post.emit.modAllEng

theorem Reported.mark {i : IslandIdx} {st : Status} : Reported s (t.mark i st) := by
  obtain hm | ⟨n, hm⟩ := t.mark_cases i st
  · rwa [hm]
  · rw [hm]
    exact h.marked

theorem Reported.sramUe {e : EngineId} {ws : List (Fin 4 × Nat)} {mb : W16} {ch : Nat} : Reported s (t.sramUe e ws mb ch) := by
  unfold State.sramUe
  split
  · exact h
  · exact h.modEng.modEng.post.setErr

theorem Reported.faultLog {e : EngineId} {r : Rec4} : Reported s (t.faultLog e r) := h.modEngInt

theorem Reported.freeSlot {e : EngineId} {p : Plan} : Reported s (t.freeSlot e p) := by
  unfold State.freeSlot
  exact h.draw.draw.modEng

theorem Reported.tileUe {e : EngineId} {ps : Pass} {k : TileKey} {p : Plan} {n : Nat} {ws : List (Fin 4 × Nat)} :
    Reported s (t.tileUe e ps k p n ws) :=
  Reported.mark (h.faultLog.sramUe.freeSlot.ite h.faultLog.sramUe)

theorem Reported.modPass {e : EngineId} {f : Pass → Pass} : Reported s (t.modPass e f) := h.modSeq

theorem Reported.endTile {e : EngineId} {arr : ArrId} {k : TileKey} {rest : List TileKey} :
    Reported s (t.endTile e arr k rest) := by
  unfold State.endTile
  exact h.modPass.modArr

theorem Reported.tileGaveUp {e : EngineId} : Reported s (t.tileGaveUp e) := by
  unfold State.tileGaveUp
  split
  · exact h
  · split
    · exact h
    · split
      · exact h
      · exact h.endTile.tileUe

theorem Reported.runUe {c : RunCtx} {prog : Nat} {ws : List (Fin 4 × Nat)} : Reported s (t.runUe c prog ws) :=
  h.modVec.faultLog.sramUe.mark

theorem Reported.rowUe {e : EngineId} {layer : Nat} {mb : W16} {prog rows : Nat} {ws : List (Fin 4 × Nat)} :
    Reported s (t.rowUe e layer mb prog rows ws) := h.modVec.faultLog.sramUe.mark

theorem Reported.rowGaveUp {e : EngineId} : Reported s (t.rowGaveUp e) := by
  unfold State.rowGaveUp
  split
  · exact h.modSeq.mark
  · exact h

theorem Reported.addGaveUp {e : EngineId} {c : CtlId} : Reported s (t.addGaveUp e c) := by
  unfold State.addGaveUp
  split
  · exact h
  · exact h.modArr.emit.settle.mark

/-! Frames to peers. -/

theorem Reported.idleSlot {p : PortId} : Reported s (t.idleSlot p) := by
  unfold State.idleSlot
  exact Reported.ite h.modPort.emit h

theorem Reported.pageSent {f : Frame} : Reported s (t.pageSent f) := by
  unfold State.pageSent
  dsimp only
  split
  · exact h
  · exact h.setEnv.modLed

theorem Reported.leaves {f : Frame} : Reported s (t.leaves f) := by
  unfold State.leaves
  dsimp only
  split
  · exact h
  · exact h.setEnv.modPort.idleSlot

theorem Reported.drain {p : PortId} {n : Nat} : Reported s (t.drain p n) := by
  induction n generalizing t with
  | zero => exact h
  | succ n ih =>
    unfold State.drain
    dsimp only
    split
    · split
      · exact h
      · split
        · exact h.idleSlot
        · exact ih h.modPort.emit.modPort.pageSent.leaves
    · exact h

theorem Reported.sendFrames {i : Nat} {fs : List Frame} : Reported s (t.sendFrames i fs) := by
  unfold State.sendFrames State.sendOn
  split
  · exact h
  · split
    · exact h
    · split
      · exact h.modPeer.modPort.drain
      · exact h

theorem Reported.sendCtrl {i typ vc : Nat} {payload : List Byte} : Reported s (t.sendCtrl i typ vc payload) := by
  unfold State.sendCtrl
  split
  · exact h
  · exact h.sendFrames

theorem Reported.blockFor {i typ : Nat} {vc : Fin 8} {low : Nat} {zero : Bool} {data : List Byte} {x : Sideband} {st : Status} :
    Reported s (t.blockFor i typ vc low zero data x st).2 := by
  unfold State.blockFor
  dsimp only
  split
  · exact h
  · split
    · exact h
    · split
      · exact h
      · exact h.modPeer

theorem Reported.pageGaveUp {e : EngineId} {q : ReqFrame} {page : Nat} : Reported s (t.pageGaveUp e q page) := by
  unfold State.pageGaveUp
  split
  · exact h
  · exact h.draw.blockFor.sendFrames

theorem Reported.grant {e : EngineId} {i : Nat} : Reported s (t.grant e i) := by
  unfold State.grant
  dsimp only
  split
  · exact h
  · split
    · exact h
    · split
      · exact h.modT.emit
      · exact h.modT.sendCtrl
      · exact h.modT

theorem Reported.askResend {e : EngineId} {i : TillId} {c : TillEnd} {n : W32} {block : Nat} :
    Reported s (t.askResend e i c n block) := by
  unfold State.askResend
  split
  · exact h.modT.emit
  · exact h.modT.sendCtrl
  · exact h.modT.emit

theorem Reported.askBad {e : EngineId} {i : Nat} : Reported s (t.askBad e i) := by
  unfold State.askBad
  split
  · exact h
  · exact Reported.ite h (h.foldl fun _ _ hu => hu.askResend)

/-! Channels and the ledger's pages. -/

theorem Reported.chanTake {e : EngineId} {c : ChanId} {x : Slip} : Reported s (t.chanTake e c x) := by
  unfold State.chanTake
  exact h.draw.modChan

theorem Reported.chanWrite {e : EngineId} {c : ChanId} {k : CtlId} {page : Nat} {data : List Byte} {x : Sideband} :
    Reported s (t.chanWrite e c k page data x) :=
  Reported.ite (h.chanTake.stored (Stored.refl _).writePage).modChan h.chanTake.modChan.mark

theorem Reported.writeState {e : EngineId} {x : ShardEnt} {page : Nat} {v : StepNo} {data : List Byte} :
    Reported s (t.writeState e x page v data) := by
  unfold State.writeState
  exact Reported.ite h.modHost.emit h.chanWrite

theorem Reported.readMap {e : EngineId} {x : LedgerEntry} {ch : Nat} : Reported s (t.readMap e x ch).2 := by
  have hr : Reported s (x.mapPages.foldl (fun (a : Bool × State) q =>
      match a.2.pageIn (a.2.poolLoc e q).1 (a.2.poolLoc e q).2 (a.2.byEng e ch noMb) with
      | (.ok _, s) => (a.1, s)
      | (.error _, s) => (false, s)) (true, t)).2 := by
    refine List.foldlRecOn _ _ (motive := fun r : Bool × State => Reported s r.2) h fun r hr q _ => ?_
    have hp : Reported s (r.2.pageIn (r.2.poolLoc e q).1 (r.2.poolLoc e q).2 (r.2.byEng e ch noMb)).2 :=
      hr.stored (Stored.refl _).pageIn
    split <;> rename_i he <;> rwa [he] at hp
  unfold State.readMap
  dsimp only
  split
  · exact hr
  · exact hr.mark

theorem Reported.dropShare {e : EngineId} {q : Nat} : Reported s (t.dropShare e q) :=
  Reported.ite (h.modLed.stored (Stored.refl _).writeBytes) h.modLed.mark

theorem Reported.freeEntry {e : EngineId} {i : Nat} : Reported s (t.freeEntry e i) :=
  Reported.ite h (h.readMap.foldl fun _ _ hu => hu.dropShare).modLed

theorem Reported.putPlace {p : Place} {data : List Byte} {who : List Requester} : Reported s (t.putPlace p data who) := by
  unfold State.putPlace
  split
  · exact h.modEng
  · exact h.stored (Stored.refl _).writeBytes
  · exact h.emit
  · exact h

theorem Reported.writeBack {e : EngineId} {c : ChanId} {st : Status} {n : Nat} : Reported s (t.writeBack e c st n) := by
  unfold State.writeBack
  dsimp only
  split
  · exact h
  · exact h.putPlace.putPlace

theorem Reported.complete {p : PendCmd} {st : Status} {res : W64} : Reported s (t.complete p st res) :=
  h.keeps (by simp) (by simp) (by simp)

theorem Reported.chainDone {e : EngineId} {c : ChanId} {st : Status} : Reported s (t.chainDone e c st) := by
  unfold State.chainDone
  split
  · exact h
  · exact h.modChan.complete

theorem Reported.haltDue {e : EngineId} {c : ChanId} : Reported s (t.haltDue e c) := by
  unfold State.haltDue
  dsimp only
  split
  · exact h
  · exact Reported.ite h h.writeBack.modChan.chainDone

theorem Reported.drainFail {st : Status} {counts : Bool} : Reported s (t.drainFail st counts) := by
  unfold State.drainFail
  split
  · exact h
  · dsimp only
    exact h.modAllEng.modCkpt

theorem Reported.channelHalt {e : EngineId} {c : ChanId} {st : Status} {n : Nat} : Reported s (channelHalt e c st n t) :=
  Reported.ite h (Reported.ite (Reported.ite h.settle.modChan.mark.drainFail h.settle.modChan.mark)
    (Reported.ite h.modChan.haltDue h))

/-! The job. -/

theorem Reported.busyDone {st : Status} : Reported s (t.busyDone st) := h.keeps (by simp) (by simp) (by simp)

theorem Reported.toEmpty : Reported s t.toEmpty := by
  have hz : Reported s t.clearStaging := h.foldl fun _ _ hu => hu.stored (Stored.refl _).modCtl.answerAll
  unfold State.toEmpty
  exact hz.modSec.modSec.modJob

theorem Reported.charterGaveUp : Reported s t.charterGaveUp := by
  unfold State.charterGaveUp
  refine Reported.ite h ?_
  split
  · exact h.busyDone.toEmpty
  · exact h.modJob.busyDone
  · exact h

theorem Reported.gaveUp {who : GivenUp} : Reported s (t.gaveUp who) := by
  cases who with
  | hostRegister => exact h.modHost.emit
  | hostAperture off => exact h.modHost.modHost.emit
  | bursarLoad => exact h.emit
  | bursarFetch => exact h.emit
  | dma e c => exact h.channelHalt
  | tile e => exact h.tileGaveUp
  | vector e => exact h.runUe
  | rowPass e => exact h.rowUe
  | accumulate e c => exact h.addGaveUp
  | tillReload e => exact h.rowGaveUp
  | tillSend e => exact h.rowGaveUp
  | peerFetch e q page => exact h.pageGaveUp
  | charterStore => exact h.charterGaveUp
  | cache f line => exact h.keeps rfl rfl rfl
  | readModifyWrite c cw =>
    unfold State.gaveUp
    dsimp only
    split
    · exact h.stored (Stored.refl _).retireFails
    · exact h

/-! Stopping a step (R388, R396). -/

theorem Reported.drainNext {e : EngineId} : Reported s (t.drainNext e) := by
  unfold State.drainNext
  dsimp only
  split
  · split
    · exact h
    · exact h.chanTake.ite h
  · exact h

theorem Reported.drainOn : Reported s t.drainOn := h.foldl fun _ _ hu => hu.drainNext

theorem Reported.held : Reported s t.held :=
  Reported.setErr (Reported.drainOn (Reported.modInt (Reported.modJob (h.keeps (by simp) (by simp) (by simp))) rfl rfl))

theorem Reported.freeYoung {e : EngineId} : Reported s (t.freeYoung e) := by
  refine h.foldl fun u x hu => ?_
  exact Reported.ite hu.freeEntry hu.freeEntry.modLed

theorem Reported.undoState {e : EngineId} : Reported s (t.undoState e) := by
  unfold State.undoState
  refine Reported.modLed (h.foldl fun u x hu => ?_)
  split
  · exact hu.writeState
  · exact hu

theorem Reported.restoreEng {e : EngineId} : Reported s (t.restoreEng e) := by
  unfold State.restoreEng
  exact Reported.modLed (Reported.modEng (Reported.undoState (Reported.freeYoung (h.foldl fun _ _ hu => hu.modT.askBad.grant))))

theorem Reported.restoreStep : Reported s t.restoreStep := by
  unfold State.restoreStep
  exact Reported.modUpd (Reported.modClr (Reported.modClr (h.foldl fun _ _ hu => hu.restoreEng)))

theorem Reported.hold : Reported s t.hold := by
  have hs : Reported s (t.modAllEng Engine.stop) := h.modAllEng
  have hh : Reported s ((t.modAllEng Engine.stop).modInt fun x => { x with replay := none, holding := true }) := hs.modInt
  unfold State.hold State.holdOn
  exact Reported.ite (Reported.ite hh.restoreStep.held hh) (Reported.ite hs.held h)

end

end Sys2Proof.Machine
end

section
/-! PROOFS. The span's lane modules (12 R361 to R365). -/

namespace Sys2Proof.Machine

/-! ### Routes -/

/-- The route that the lane modules in service give row k / 2 for column parity k % 2 (R364). -/
def SpanSt.routeAt (x : SpanSt) (k : Fin 16) : Option (Fin 16) := x.route (Fin.ofNat 8 (k.val / 2)) (k.val % 2 == 1)

/-- One route brought up to date. -/
def State.setRoute (s : State) (k : Fin 16) : State :=
  let l := s.span.routeAt k
  if l = s.span.routes[k.val] then s
  else ({ s with span := { s.span with routes := s.span.routes.set k.val l } }).emit
    (.spanRoute (k.val / 2) (k.val % 2 == 1) (l.map Fin.val))

theorem State.reroute_eq (s : State) : s.reroute = (List.finRange 16).foldl State.setRoute s := by
  have hk (k : Fin 16) : (⟨k.val / 2, by omega⟩ : Fin 8) = Fin.ofNat 8 (k.val / 2) :=
    Fin.ext (Nat.mod_eq_of_lt (by omega)).symm
  unfold State.reroute State.setRoute SpanSt.routeAt
  simp only [hk]

/-- Other routes, and what has left with them. -/
def State.withRoutes (s : State) (r : Vector (Option (Fin 16)) 16) (o : List Emission) : State :=
  { s with span := { s.span with routes := r }, out := o }

theorem State.setRoute_eq (s : State) (k : Fin 16) :
    ∃ o, s.setRoute k = s.withRoutes (s.span.routes.set k.val (s.span.routeAt k)) o := by
  unfold State.setRoute
  dsimp only
  split
  · rename_i h
    exact ⟨s.out, by rw [h, Vector.set_getElem_self]; rfl⟩
  · exact ⟨_, rfl⟩

theorem foldl_setRoute (l : List (Fin 16)) (s : State) : ∃ r o, l.foldl State.setRoute s = s.withRoutes r o ∧
    ∀ k : Fin 16, r[k.val] = if k ∈ l then s.span.routeAt k else s.span.routes[k.val] := by
  induction l generalizing s with
  | nil => exact ⟨s.span.routes, s.out, rfl, fun k => by simp⟩
  | cons a l ih =>
    obtain ⟨o, ho⟩ := s.setRoute_eq a
    obtain ⟨r, p, hp, hr⟩ := ih (s.setRoute a)
    rw [ho] at hp hr
    refine ⟨r, p, by rw [List.foldl_cons, ho, hp]; rfl, fun k => (hr k).trans ?_⟩
    by_cases hk : k ∈ l
    · rw [if_pos hk, if_pos (List.mem_cons_of_mem _ hk)]
      rfl
    · rw [if_neg hk]
      by_cases ha : k = a
      · subst ha
        rw [if_pos List.mem_cons_self]
        exact Vector.getElem_set_self _
      · rw [if_neg fun h => (List.mem_cons.1 h).elim ha hk]
        exact Vector.getElem_set_ne a.isLt k.isLt fun h => ha (Fin.ext h.symm)

/-- The routes follow the lane modules, and nothing else does (R364). -/
theorem State.reroute_follows (s : State) :
    ∃ r o, s.reroute = s.withRoutes r o ∧ ∀ k : Fin 16, r[k.val] = s.span.routeAt k := by
  obtain ⟨r, o, h, hr⟩ := foldl_setRoute (List.finRange 16) s
  exact ⟨r, o, by rw [State.reroute_eq, h], fun k => by rw [hr k, if_pos (List.mem_finRange k)]⟩

/-- One lane module has changed, and the routes with it. -/
structure LaneMoved (s t : State) (lm : Fin 16) (x : LaneSt) : Prop where
  only : t = { s with span := t.span, out := t.out }
  lane : t.span.lanes[lm.val] = x
  others : ∀ k : Fin 16, k ≠ lm → t.span.lanes[k.val] = s.span.lanes[k.val]
  routes : ∀ k : Fin 16, t.span.routes[k.val] = t.span.route (Fin.ofNat 8 (k.val / 2)) (k.val % 2 == 1)

theorem State.modLane_reroute_moved (s : State) (lm : Fin 16) (f : LaneSt → LaneSt) :
    LaneMoved s (s.modLane lm f).reroute lm (f s.span.lanes[lm.val]) := by
  obtain ⟨r, o, h, hr⟩ := (s.modLane lm f).reroute_follows
  rw [h]
  refine ⟨rfl, ?_, fun k hk => ?_, hr⟩
  · exact Vector.getElem_set_self _
  · exact Vector.getElem_set_ne lm.isLt k.isLt fun h => hk (Fin.ext h.symm)

/-! ### Flits (R361) -/

theorem LaneSt.flitOk_eq_false (x : LaneSt) (code : BitVec 4) : x.flitOk code = false ↔
    code.getLsbD 3 ≠ (code.getLsbD 0 ^^ code.getLsbD 1 ^^ code.getLsbD 2) ∨ code.setWidth 3 ≠ x.agreed := by
  have hp : ∀ a b c d : Bool, ([a, b, c, d].foldl Bool.xor false == false) = decide (d = (a ^^ b ^^ c)) := by decide
  have hx : x.flitOk code = (decide (code.getLsbD 3 = (code.getLsbD 0 ^^ code.getLsbD 1 ^^ code.getLsbD 2)) &&
      code.setWidth 3 == x.agreed) := by
    rw [← hp]
    rfl
  rw [hx, Bool.and_eq_false_iff, decide_eq_false_iff_not, beq_eq_false_iff_ne]

theorem flit_taken {s : State} {lm : Fin 16} (east : Bool) {code : BitVec 4}
    (h : (s.span.lanes[lm.val]).state ≠ 3 ∨ (code.getLsbD 3 = (code.getLsbD 0 ^^ code.getLsbD 1 ^^ code.getLsbD 2) ∧
      code.setWidth 3 = (s.span.lanes[lm.val]).agreed)) : exec (.flitDiscard lm east code) s = .next s := by
  refine congrArg _ (if_neg fun ⟨h3, hf⟩ => ?_)
  obtain ⟨hp, hw⟩ := h.resolve_left fun hn => hn h3
  exact ((LaneSt.flitOk_eq_false _ _).1 hf).elim (· hp) (· hw)

/-- The counts of a flit that is discarded and replayed, and of the agreement that starts. -/
def SpanSt.discarded (x : SpanSt) : SpanSt :=
  { x with discards := satAdd x.discards 1, replayed := wrapAdd x.replayed 1, agreements := satAdd x.agreements 1 }

theorem flit_discarded {s : State} {lm : Fin 16} (east : Bool) {code : BitVec 4} (h : (s.span.lanes[lm.val]).state = 3)
    (hc : (code.getLsbD 3 ≠ (code.getLsbD 0 ^^ code.getLsbD 1 ^^ code.getLsbD 2)) ∨
      code.setWidth 3 ≠ (s.span.lanes[lm.val]).agreed) :
    exec (.flitDiscard lm east code) s =
      .next (({ s with span := s.span.discarded }).modLane lm fun x => { x with state := 2 }).reroute :=
  (congrArg Host.Outcome.next (if_pos ⟨h, (LaneSt.flitOk_eq_false _ _).2 hc⟩)).trans
    (congrArg (fun u : State => Host.Outcome.next u.reroute) rfl)

theorem flitDiscard_moves {s : State} {lm : Fin 16} (east : Bool) {code : BitVec 4} (h : (s.span.lanes[lm.val]).state = 3)
    (hc : (code.getLsbD 3 ≠ (code.getLsbD 0 ^^ code.getLsbD 1 ^^ code.getLsbD 2)) ∨
      code.setWidth 3 ≠ (s.span.lanes[lm.val]).agreed) :
    ∃ t, exec (.flitDiscard lm east code) s = .next t ∧ t = { s with span := t.span, out := t.out } ∧
      t.span.lanes[lm.val] = { s.span.lanes[lm.val] with state := 2 } ∧
      t.span.discards = satAdd s.span.discards 1 ∧ t.span.replayed = wrapAdd s.span.replayed 1 ∧
      t.span.agreements = satAdd s.span.agreements 1 ∧
      (∀ k : Fin 16, k ≠ lm → t.span.lanes[k.val] = s.span.lanes[k.val]) ∧
      ∀ k : Fin 16, t.span.routes[k.val] = t.span.route (Fin.ofNat 8 (k.val / 2)) (k.val % 2 == 1) := by
  obtain ⟨r, o, hr, hk⟩ := (({ s with span := s.span.discarded }).modLane lm fun x => { x with state := 2 }).reroute_follows
  refine ⟨_, flit_discarded east h hc, ?_⟩
  rw [hr]
  exact ⟨rfl, Vector.getElem_set_self _, rfl, rfl, rfl,
    fun k hne => Vector.getElem_set_ne lm.isLt k.isLt fun hv => hne (Fin.ext hv.symm), hk⟩

/-! ### Agreements (R362, R363) -/

theorem widthMin_toNat (a b : BitVec 3) : (widthMin a b).toNat = Nat.min a.toNat b.toNat := by
  unfold widthMin
  split
  · exact (Nat.min_eq_left ‹_›).symm
  · exact (Nat.min_eq_right (by omega)).symm

theorem LaneSt.offer_toNat (x : LaneSt) (w : BitVec 3) :
    (x.offer w).toNat = if x.locked = true then Nat.min 2 w.toNat else w.toNat := by
  unfold LaneSt.offer
  split
  · exact widthMin_toNat 2 w
  · rfl

theorem laneRound_locked (x : LaneSt) (w y : BitVec 3) (ok : Bool) : (laneRound x w y ok).locked = x.locked := by
  unfold laneRound
  dsimp only
  split <;> rfl

/-- The lesser of the widths that two sides offer. -/
def LaneSt.lesser (x : LaneSt) (w y : BitVec 3) : Nat := Nat.min (x.offer w).toNat (x.offer y).toNat

theorem laneRound_agrees {x : LaneSt} {w y : BitVec 3} {ok : Bool}
    (h : ok = true ∧ 1 ≤ x.lesser w y ∧ w.toNat ≤ 4 ∧ y.toNat ≤ 4) :
    (laneRound x w y ok).state = 3 ∧ (laneRound x w y ok).agreed.toNat = x.lesser w y ∧
      (laneRound x w y ok).west = (laneRound x w y ok).agreed ∧ (laneRound x w y ok).east = (laneRound x w y ok).agreed ∧
      (laneRound x w y ok).attempts = 0 := by
  unfold laneRound
  dsimp only
  rw [if_pos (by rwa [widthMin_toNat])]
  exact ⟨rfl, widthMin_toNat _ _, rfl, rfl, rfl⟩

theorem laneRound_fails {x : LaneSt} {w y : BitVec 3} {ok : Bool} (ha : x.attempts < 3)
    (h : ¬(ok = true ∧ 1 ≤ x.lesser w y ∧ w.toNat ≤ 4 ∧ y.toNat ≤ 4)) :
    (laneRound x w y ok).state = 2 ∧ (laneRound x w y ok).attempts = x.attempts + 1 := by
  unfold laneRound
  dsimp only
  rw [if_neg (by rwa [widthMin_toNat])]
  exact ⟨rfl, Nat.min_eq_right ha⟩

theorem widthAgreement_round {s : State} {lm : Fin 16} (w y : BitVec 3) (ok : Bool)
    (h : (s.span.lanes[lm.val]).state = 1 ∨ (s.span.lanes[lm.val]).state = 2) (ha : (s.span.lanes[lm.val]).attempts < 3) :
    ∃ t, exec (.widthAgreement lm w y ok) s = .next t ∧ LaneMoved s t lm (laneRound s.span.lanes[lm.val] w y ok) :=
  ⟨_, congrArg Host.Outcome.next (if_pos ⟨h, ha⟩), s.modLane_reroute_moved lm fun x => laneRound x w y ok⟩

theorem widthAgreement_waits {s : State} {lm : Fin 16} (w y : BitVec 3) (ok : Bool)
    (h : ((s.span.lanes[lm.val]).state ≠ 1 ∧ (s.span.lanes[lm.val]).state ≠ 2) ∨ 3 ≤ (s.span.lanes[lm.val]).attempts) :
    exec (.widthAgreement lm w y ok) s = .next s := by
  refine congrArg Host.Outcome.next (if_neg fun ⟨hs, ha⟩ => ?_)
  obtain ⟨h1, h2⟩ := h.resolve_right (Nat.not_le.2 ha)
  exact hs.elim h1 h2

/-! ### The lock at code 2 (R363, R364) -/

theorem State.widthEvent_mbox {s : State} (lm : Fin 16) (h : s.int.mbox.length < 4096) :
    ∃ m, (s.widthEvent lm).int.mbox = s.int.mbox ++ [m] ∧ m.status = Status.widthMismatch.code :=
  ⟨_, s.postAt_mbox _ _ _ _ _ _ h, rfl⟩

theorem State.widthEvent_job (s : State) (lm : Fin 16) : (s.widthEvent lm).job = s.job := State.post_job ..

/-- A lane module that has left service. -/
def LaneSt.out (x : LaneSt) : LaneSt := { x with state := 0, agreed := 0, west := 0, east := 0 }

/-- The state in which lane module lm has left service, with its event, before the last one out holds the job. -/
def State.laneOut (s : State) (lm : Fin 16) : State := (s.modLane lm LaneSt.out).reroute.widthEvent lm

theorem laneLock_false_eq (lm : Fin 16) (s : State) : laneLock lm false s =
    if (s.laneOut lm).spanOut then ((s.laneOut lm).widthEvent lm).hold else s.laneOut lm := by
  unfold laneLock
  rw [if_neg Bool.false_ne_true]
  rfl

theorem State.spanOut_iff (s : State) : s.spanOut = true ↔ ∀ k : Fin 16, (s.span.lanes[k.val]).state = 0 := by
  unfold State.spanOut
  rw [List.all_eq_true]
  constructor
  · intro h k
    exact eq_of_beq (h _ (Vector.mem_toList_iff.2 (Vector.getElem_mem k.isLt)))
  · intro h x hx
    obtain ⟨i, hi, rfl⟩ := Vector.mem_iff_getElem.1 (Vector.mem_toList_iff.1 hx)
    exact beq_iff_eq.2 (h ⟨i, hi⟩)

theorem State.drainOn_job (s : State) : s.drainOn.job = s.job := by
  refine foldl_keep (·.job) _ _ _ fun u e => ?_
  unfold State.drainNext
  split
  · split
    · rfl
    · dsimp only
      split <;> rfl
  · rfl

theorem State.held_job (s : State) : s.held.job.state = .held := by
  unfold State.held
  simp only [State.setErr_job, State.drainOn_job]
  rfl

/-- HOLD of a job with no step in flight. -/
theorem State.hold_between {s : State} (h : s.job.state = .active ∨ (s.job.state = .running ∧ s.job.stepOn = false)) :
    s.hold.job.state = .held := by
  unfold State.hold
  rw [if_neg, if_pos]
  · exact State.held_job _
  · exact h.symm.imp_left And.left
  · rintro ⟨hr, ho⟩
    obtain ha | ⟨-, hf⟩ := h
    · rw [ha] at hr
      exact JState.noConfusion hr
    · rw [hf] at ho
      exact Bool.noConfusion ho

/-- HOLD of a running job: it is held, or the engines stand until all that they had issued is answered. -/
theorem State.hold_running {s : State} (h : s.job.state = .running) :
    s.hold.job.state = .held ∨ (s.hold.int.holding = true ∧ s.hold.job = s.job) := by
  by_cases ho : s.job.stepOn = true
  · unfold State.hold State.holdOn
    rw [if_pos ⟨h, ho⟩]
    split
    · exact .inl (State.held_job _)
    · exact .inr ⟨rfl, rfl⟩
  · exact .inl (State.hold_between (.inr ⟨h, Bool.eq_false_iff.2 ho⟩))

theorem laneLock_due {s : State} {lm : Fin 16} (ok : Bool) (h : (s.span.lanes[lm.val]).state = 2)
    (ha : (s.span.lanes[lm.val]).attempts = 3) : exec (.laneLock lm ok) s = .next (laneLock lm ok s) :=
  congrArg Host.Outcome.next (if_pos ⟨h, ha⟩)

theorem laneLock_waits {s : State} {lm : Fin 16} (ok : Bool)
    (h : (s.span.lanes[lm.val]).state ≠ 2 ∨ (s.span.lanes[lm.val]).attempts ≠ 3) : exec (.laneLock lm ok) s = .next s :=
  congrArg Host.Outcome.next (if_neg fun ⟨hs, ha⟩ => h.elim (· hs) (· ha))

/-- A lane module locked at code 2. -/
def LaneSt.atTwo (x : LaneSt) : LaneSt := { x with state := 3, locked := true, attempts := 0, agreed := 2, west := 2, east := 2 }

theorem laneLock_true_eq (lm : Fin 16) (s : State) :
    laneLock lm true s = (s.modLane lm LaneSt.atTwo).reroute.widthEvent lm := by
  unfold laneLock
  rw [if_pos rfl]
  rfl

/-- The event of a lane module: its record, and nothing else but the routes and the lane module. -/
theorem State.widthEvent_moved {s u : State} {lm : Fin 16} {x : LaneSt} (h : LaneMoved s u lm x) :
    ((u.widthEvent lm).span.lanes[lm.val] = x ∧
      (∀ k : Fin 16, k ≠ lm → (u.widthEvent lm).span.lanes[k.val] = s.span.lanes[k.val])) ∧
    (u.widthEvent lm).job = s.job ∧ (u.widthEvent lm).eng = s.eng ∧ (u.widthEvent lm).vaults = s.vaults ∧
    (u.widthEvent lm).fars = s.fars ∧
    (s.int.mbox.length < 4096 → ∃ m, (u.widthEvent lm).int.mbox = s.int.mbox ++ [m] ∧ m.status = Status.widthMismatch.code) := by
  have hi : u.int = s.int := by rw [h.only]
  have hsp : (u.widthEvent lm).span = u.span := State.post_span ..
  rw [hsp]
  refine ⟨⟨h.lane, h.others⟩, ?_, ?_, ?_, ?_, fun hl => ?_⟩
  · rw [State.widthEvent_job, h.only]
  · exact (State.post_eng ..).trans (by rw [h.only])
  · exact (State.post_vaults ..).trans (by rw [h.only])
  · exact (State.post_fars ..).trans (by rw [h.only])
  · have he := u.widthEvent_mbox lm (by rw [hi]; exact hl)
    rwa [hi] at he

theorem State.laneOut_moved (s : State) (lm : Fin 16) :
    (((s.laneOut lm).span.lanes[lm.val]).state = 0 ∧
      (∀ k : Fin 16, k ≠ lm → (s.laneOut lm).span.lanes[k.val] = s.span.lanes[k.val])) ∧
    (s.laneOut lm).job = s.job ∧ (s.laneOut lm).eng = s.eng ∧
    (s.int.mbox.length < 4096 → ∃ m, (s.laneOut lm).int.mbox = s.int.mbox ++ [m] ∧ m.status = Status.widthMismatch.code) := by
  unfold State.laneOut
  obtain ⟨⟨hl, ho⟩, hj, he, -, -, hb⟩ := State.widthEvent_moved (s.modLane_reroute_moved lm LaneSt.out)
  refine ⟨⟨?_, ho⟩, hj, he, hb⟩
  rw [hl]
  rfl

theorem State.laneOut_spanOut_iff (s : State) (lm : Fin 16) :
    (s.laneOut lm).spanOut = true ↔ ∀ k : Fin 16, k ≠ lm → (s.span.lanes[k.val]).state = 0 := by
  obtain ⟨⟨hl, ho⟩, -⟩ := s.laneOut_moved lm
  rw [State.spanOut_iff]
  refine ⟨fun h k hk => ?_, fun h k => ?_⟩
  · rw [← ho k hk]
    exact h k
  · by_cases hk : k = lm
    · subst hk
      exact hl
    · exact (congrArg LaneSt.state (ho k hk)).trans (h k hk)

theorem laneLock_false_some {s : State} {lm : Fin 16} (h : ∃ k : Fin 16, k ≠ lm ∧ (s.span.lanes[k.val]).state ≠ 0) :
    laneLock lm false s = s.laneOut lm := by
  obtain ⟨k, hk, hne⟩ := h
  rw [laneLock_false_eq]
  exact if_neg fun hs => hne ((s.laneOut_spanOut_iff lm).1 hs k hk)

theorem laneLock_false_last {s : State} {lm : Fin 16} (h : ∀ k : Fin 16, k ≠ lm → (s.span.lanes[k.val]).state = 0) :
    laneLock lm false s = ((s.laneOut lm).widthEvent lm).hold := by
  rw [laneLock_false_eq]
  exact if_pos ((s.laneOut_spanOut_iff lm).2 h)

/-- A HOLD after the event changes neither the lane modules nor the entries of the mailbox. -/
theorem laneLock_false_reported (lm : Fin 16) (s : State) : Reported (s.laneOut lm) (laneLock lm false s) := by
  have hh : Reported (s.laneOut lm) ((s.laneOut lm).widthEvent lm).hold := (Reported.refl _).post.hold
  rw [laneLock_false_eq]
  exact Reported.ite hh (Reported.refl _)

theorem State.laneOut_event_job (s : State) (lm : Fin 16) : ((s.laneOut lm).widthEvent lm).job = s.job := by
  obtain ⟨-, hj, -⟩ := s.laneOut_moved lm
  rw [State.widthEvent_job, hj]

end Sys2Proof.Machine
end

section
/-! PROOFS. Word parity at crossings, the error mailbox and the management ports (13 R369, R370, R402, R403; 17 R505). -/

namespace Sys2Proof.Machine

/-! ### Resends (R369) -/

/-- What a resend counts: at an engine, at an exchange island, or in the four counts of the module. -/
theorem State.parityCount_engine (s : State) (e : EngineId) :
    s.parityCount (islEngine e) = s.modEngInt e fun x => { x with parResends := wrapAdd x.parResends 1 } := dif_pos e.isLt

theorem State.parityCount_xch {s : State} {i : IslandIdx} {k : Fin 16} (h : i.val = 128 + k.val) :
    s.parityCount i = s.modXch k fun x => (wrapAdd x.1 1, x.2) := by
  have hk : (⟨i.val - 128, by omega⟩ : Fin 16) = k := Fin.ext (by simp [h])
  unfold State.parityCount
  rw [dif_neg (by omega), dif_pos (by omega), hk]

theorem State.parityCount_module {s : State} {i : IslandIdx} (h : 144 ≤ i.val) :
    s.parityCount i = s.modInt fun x =>
      if i.val < 208 then { x with parMem := satAdd x.parMem 1 }
      else if i.val < 256 then { x with parPort := satAdd x.parPort 1 }
      else if i.val < 258 then { x with parSpan := satAdd x.parSpan 1 }
      else { x with parOther := satAdd x.parOther 1 } := by
  unfold State.parityCount
  rw [dif_neg (by omega), dif_neg (by omega)]
  split
  · rfl
  · split
    · rfl
    · split <;> rfl

theorem State.parityCount_only (s : State) (i : IslandIdx) :
    s.parityCount i = { s with int := (s.parityCount i).int, eng := (s.parityCount i).eng } := by
  unfold State.parityCount
  split
  · rfl
  · split
    · rfl
    · split
      · rfl
      · split
        · rfl
        · split <;> rfl

theorem State.parityCount_eng {s : State} {i : IslandIdx} (h : 128 ≤ i.val) : (s.parityCount i).eng = s.eng := by
  by_cases hx : i.val < 144
  · rw [State.parityCount_xch (k := ⟨i.val - 128, by omega⟩) (by simp; omega)]
    rfl
  · rw [State.parityCount_module (by omega)]
    rfl

theorem State.parityCount_out (s : State) (i : IslandIdx) : (s.parityCount i).out = s.out := by
  rw [s.parityCount_only i]

theorem State.emit_only {s u : State} (x : Emission) (h : u = { s with int := u.int, eng := u.eng }) :
    u.emit x = { s with out := (u.emit x).out, int := (u.emit x).int, eng := (u.emit x).eng } := by
  rw [h]
  rfl

theorem parityError_resends {x : Crossing} {got : List (W32 × Bool)} (buf : List (List W32)) {s : State}
    (h : got.all parityOk = false) :
    exec (.parityError x got buf) s = .next ((s.parityCount x.recv).emit (.paritySend x.recv.val x.send.val buf)) :=
  congrArg Host.Outcome.next (if_neg (by rw [h]; exact Bool.false_ne_true))

/-! ### The mailbox -/

/-- The oldest entry of the mailbox on one management port (R403, R404). -/
def State.errFrame (s : State) (m : MboxEntry) (p : Bool) : Emission :=
  .ether p (BitVec.ofNat 16 (fld s.int.errCfg 15 0)) s.int.errDst (s.framePayload m)

theorem foldl_errFrame (m : MboxEntry) (l : List Bool) (s : State) :
    l.foldl (fun s p => s.emit (s.errFrame m p)) s = { s with out := (l.map (s.errFrame m)).reverse ++ s.out } := by
  induction l generalizing s with
  | nil => rfl
  | cons p l ih =>
    rw [List.foldl_cons, ih, List.map_cons, List.reverse_cons, List.append_assoc]
    rfl

theorem errorFrameSend_sends {s : State} {m : MboxEntry} {r : List MboxEntry} (hm : s.int.mbox = m :: r) (hp : s.errPorts ≠ []) :
    exec .errorFrameSend s = .next { s with
      int := { s.int with mbox := r, sent := BitVec.ofNat 32 m.seqNo.toNat }
      out := (s.errPorts.map (s.errFrame m)).reverse ++ s.out } := by
  obtain ⟨p, ps, hps⟩ := List.exists_cons_of_ne_nil hp
  have hf := foldl_errFrame m (p :: ps) s
  show execErrorFrameSend s = _
  unfold execErrorFrameSend
  rw [hm, hps]
  exact congrArg (fun u : State => Host.Outcome.next (u.modInt fun x =>
    { x with mbox := r, sent := BitVec.ofNat 32 m.seqNo.toNat })) hf

theorem errorFrameSend_waits {s : State} (h : s.int.mbox = [] ∨ s.errPorts = []) : exec .errorFrameSend s = .next s := by
  show execErrorFrameSend s = _
  unfold execErrorFrameSend
  split
  · rename_i hm hp
    rw [hm, hp] at h
    simp at h
  · rfl

/-- Word k of an OVERFLOW record: four counts by class. -/
def ovfWord (v : Vector W16 16) (k : Nat) : W64 :=
  (List.range 4).foldl (fun a i => a ||| put (v.toList.getD (4 * k + i) 0).toNat (16 * i)) 0

/-- A count below 2 ^ 16 placed at lane i of a word, read at bit j of lane k. -/
theorem getLsbD_put_lane (x : W16) (i k j : Nat) (hk : k < 4) (hj : j < 16) :
    (put x.toNat (16 * i)).getLsbD (16 * k + j) = (decide (i = k) && x.getLsbD j) := by
  rw [getLsbD_put, BitVec.testBit_toNat]
  obtain h | h | h := Nat.lt_trichotomy i k
  · rw [BitVec.getLsbD_of_ge x _ (by omega)]
    simp [Nat.ne_of_lt h]
  · subst h
    simp [show 16 * i + j < 64 by omega]
  · simp [show ¬16 * i ≤ 16 * k + j by omega, Nat.ne_of_gt h]

theorem ovfWord_lane (v : Vector W16 16) (k : Fin 16) :
    (ovfWord v (k.val / 4) >>> (16 * (k.val % 4))).setWidth 16 = v[k.val] := by
  have hk : v[k.val] = v.toList.getD (4 * (k.val / 4) + k.val % 4) 0 := by
    rw [Nat.div_add_mod]
    simp
  have h4 : k.val % 4 < 4 := Nat.mod_lt _ (by omega)
  rw [hk]
  refine BitVec.eq_of_getLsbD_eq fun j hj => ?_
  rw [BitVec.getLsbD_setWidth, BitVec.getLsbD_ushiftRight]
  simp only [ovfWord, List.range_succ, List.range_zero, List.nil_append, List.cons_append, List.foldl_cons, List.foldl_nil,
    BitVec.getLsbD_or, getLsbD_put_lane _ _ _ _ h4 hj]
  generalize k.val % 4 = c at h4 ⊢
  match c, h4 with
  | 0, _ => simp [hj]
  | 1, _ => simp [hj]
  | 2, _ => simp [hj]
  | 3, _ => simp [hj]

theorem mailboxOverflow_waits {s : State} (h : 4096 ≤ s.int.mbox.length ∨ ∀ i : Nat, ∀ h : i < 16, s.int.ovfByClass[i] = 0) :
    exec .mailboxOverflowFrame s = .next s := by
  refine congrArg Host.Outcome.next (if_neg fun ⟨hl, ha⟩ => ?_)
  obtain hm | hz := h
  · exact absurd hl (Nat.not_lt.2 hm)
  · obtain ⟨x, hx, hne⟩ := List.any_eq_true.1 ha
    obtain ⟨i, hi, rfl⟩ := Vector.mem_iff_getElem.1 (Vector.mem_toList_iff.1 hx)
    simp [hz i hi] at hne

/-- The record of an OVERFLOW entry: the counts by class, four to a word. -/
def ovfRec (v : Vector W16 16) : Rec4 := { w0 := ovfWord v 0, w1 := ovfWord v 1, w2 := ovfWord v 2, w3 := ovfWord v 3 }

theorem mailboxOverflow_enters {s : State} (hl : s.int.mbox.length < 4096) (h : ∃ i : Nat, ∃ h : i < 16, s.int.ovfByClass[i] ≠ 0) :
    exec .mailboxOverflowFrame s = .next ((s.post islBursar clsOverflow .ok noMb (ovfRec s.int.ovfByClass)).modInt fun x =>
      { x with ovfByClass := Vector.replicate 16 0 }) := by
  refine congrArg Host.Outcome.next (if_pos ⟨hl, ?_⟩)
  obtain ⟨i, hi, hne⟩ := h
  exact List.any_eq_true.2 ⟨_, Vector.mem_toList_iff.2 (Vector.getElem_mem hi), bne_iff_ne.2 hne⟩

theorem ovfRec_lane (v : Vector W16 16) (k : Fin 16) :
    ((([(ovfRec v).w0, (ovfRec v).w1, (ovfRec v).w2, (ovfRec v).w3] : List W64).getD (k.val / 4) 0) >>>
      (16 * (k.val % 4))).setWidth 16 = v[k.val] := by
  have hw : ([(ovfRec v).w0, (ovfRec v).w1, (ovfRec v).w2, (ovfRec v).w3] : List W64).getD (k.val / 4) 0 =
      ovfWord v (k.val / 4) := by
    have h4 : k.val / 4 < 4 := by omega
    generalize k.val / 4 = c at h4 ⊢
    match c, h4 with
    | 0, _ => rfl
    | 1, _ => rfl
    | 2, _ => rfl
    | 3, _ => rfl
  rw [hw, ovfWord_lane]

/-! ### Management ports (R505, R512) -/

theorem mgmtLink_changes (s : State) (p up fec : Bool) :
    exec (.mgmtLinkChange p up fec) s = .next (s.modGlb fun g =>
      { g with mgmtLink := setBit (setBit g.mgmtLink (if p then 8 else 0) up) ((if p then 8 else 0) + 1) (up && fec) }) := rfl

/-- The bits of link and FEC at a place of GLB_MGMT_LINK, and every other bit. -/
theorem bitAt_linkBits (w : BitVec 10) (k j : Nat) (up fec : Bool) (hj : j < 10) :
    bitAt (setBit (setBit w k up) (k + 1) fec) j = if j = k + 1 then fec else if j = k then up else bitAt w j := by
  rw [bitAt_setBit _ _ _ _ hj, bitAt_setBit _ _ _ _ hj]

end Sys2Proof.Machine
end

section
/-! PROOFS. Transfers given up at a crossing (09 R280; 13 R370). -/

namespace Sys2Proof.Machine

/-! ### What the count and the record of a broken transfer leave -/

/-- Records, counts and channels apart, the two states hold the same. -/
structure Counted (s t : State) : Prop where
  rest : t = { s with out := t.out, glb := { s.glb with seqs := t.glb.seqs }, int := t.int, eng := t.eng }
  eng : ∀ g : EngineId, t.eng[g.val] = { s.eng[g.val] with int := t.eng[g.val].int, dma := t.eng[g.val].dma }

section
variable {s t : State} (h : Counted s t)
include h

theorem Counted.trans {u : State} (k : Counted t u) : Counted s u := by
  refine ⟨?_, fun g => ?_⟩
  · have hk := k.rest
    rw [h.rest] at hk
    exact hk
  · have hk := k.eng g
    rw [h.eng g] at hk
    exact hk

theorem Counted.job : t.job = s.job := by rw [h.rest]

theorem Counted.stores : t.vaults = s.vaults ∧ t.fars = s.fars := by
  rw [h.rest]
  exact ⟨rfl, rfl⟩

theorem Counted.engOk (e : Nat) : t.engOk e = s.engOk e := by
  rw [h.rest]
  rfl

theorem Counted.ctl (c : CtlId) : t.ctl c = s.ctl c := by
  rw [h.rest]
  rfl

theorem Counted.layer (l : Nat) : t.layer l = s.layer l := by
  rw [h.rest]
  rfl

theorem Counted.owes (e : EngineId) (ch : ChanId) (p : Place) : t.owes e ch p = s.owes e ch p := by
  rw [h.rest]
  rfl

theorem Counted.charterCopies : t.charterCopies = s.charterCopies := by
  rw [h.rest]
  rfl

theorem Counted.firstBand (e : EngineId) (c : CtlId) : t.firstBand e c = s.firstBand e c := by
  unfold State.firstBand
  rw [h.eng e, h.rest]
  rfl

theorem Counted.nextClose (e : EngineId) (ps : Pass) : t.nextClose e ps = s.nextClose e ps := by
  unfold State.nextClose
  rw [h.eng e]

/-! The stage-store ranges that are pinned. -/

theorem Counted.till (e : EngineId) (i : Nat) : t.till e i = s.till e i := by
  unfold State.till
  rw [h.eng e]

theorem Counted.reloc (e : EngineId) (f : Option FloatEntry) (a : Nat) : t.reloc e f a = s.reloc e f a := by
  unfold State.reloc State.tillCfg
  rw [h.eng e, h.rest]
  rfl

theorem Counted.gradSrc (e : EngineId) (f : Option FloatEntry) (l : Nat) (d : LayerDesc) (top : Nat) :
    t.gradSrc e f l d top = s.gradSrc e f l d top := by
  have hb : t.gradBase e f l d top = s.gradBase e f l d top := by
    rw [h.rest]
    rfl
  unfold State.gradSrc
  rw [hb]
  exact congrArg _ (h.reloc e f _)

theorem Counted.plan (e : EngineId) (ps : Pass) (d : LayerDesc) (k : TileKey) : t.plan e ps d k = s.plan e ps d k := by
  unfold State.plan
  simp only [h.reloc, h.gradSrc]
  rw [h.eng e, h.rest]
  rfl

theorem Counted.tilePins (e : EngineId) : t.tilePins e = s.tilePins e := by
  unfold State.tilePins
  simp only [h.reloc, h.gradSrc, h.plan, h.layer]
  rw [h.eng e, h.rest]
  rfl

theorem Counted.sourcePins (e : EngineId) : t.sourcePins e = s.sourcePins e := by
  unfold State.sourcePins State.table
  simp only [h.till]
  rw [h.eng e, h.rest]
  rfl

theorem Counted.placePinned (p : Place) (n : Nat) : t.placePinned p n = s.placePinned p n := by
  unfold State.placePinned State.pinned
  simp only [h.sourcePins, h.tilePins]

end

theorem State.modEng_counted (s : State) (e : EngineId) (f : Engine → Engine)
    (hf : ∀ x, f x = { x with int := (f x).int, dma := (f x).dma }) : Counted s (s.modEng e f) := by
  refine ⟨rfl, fun g => ?_⟩
  by_cases hg : g = e
  · subst hg
    rw [State.modEng_self]
    exact hf _
  · rw [State.modEng_other _ _ _ _ _ fun hv => hg (Fin.ext hv.symm)]

theorem State.parityBroken_counted (s : State) (i : IslandIdx) : Counted s (s.parityBroken i) := by
  unfold State.parityBroken
  split
  · exact s.modEng_counted _ _ fun _ => rfl
  · split
    · exact ⟨rfl, fun _ => rfl⟩
    · exact ⟨rfl, fun _ => rfl⟩

theorem State.post_counted (s : State) (i : IslandIdx) (cls : Byte) (st : Status) (mb : W16) (r : Rec4) :
    Counted s (s.post i cls st mb r) := by
  unfold State.post State.postAt State.setErr
  dsimp only
  split
  · exact ⟨rfl, fun _ => rfl⟩
  · split <;> exact ⟨rfl, fun _ => rfl⟩

theorem State.setErr_counted (s : State) (i : Nat) : Counted s (s.setErr i) := by
  unfold State.setErr
  split <;> exact ⟨rfl, fun _ => rfl⟩

/-- A transfer given up, before its requester takes its path: counted, with its record (R370). -/
def State.broken (s : State) (x : Crossing) : State :=
  ((s.settle.parityBroken x.recv).post x.recv clsParity .uncorrectable noMb
    (rec0 (put (islandId x.recv).toNat 48 ||| put (islandId x.send).toNat 32))).setErr errParity

theorem State.broken_counted (s : State) (x : Crossing) : Counted s (s.broken x) :=
  (((⟨rfl, fun _ => rfl⟩ : Counted s s.settle).trans (State.parityBroken_counted _ _)).trans (State.post_counted ..)).trans
    (State.setErr_counted _ _)

theorem exec_parityGiveUp (x : Crossing) (who : GivenUp) (s : State) :
    exec (.parityGiveUp x who) s = .next ((s.broken x).gaveUp who) := rfl

theorem State.modEngInt_chan (s : State) (e g : EngineId) (f : EngInt → EngInt) (c : ChanId) :
    (s.modEngInt e f).chan g c = s.chan g c := by
  unfold State.chan State.modEngInt
  by_cases hg : g = e
  · subst hg
    rw [State.modEng_self]
  · rw [State.modEng_other _ _ _ _ _ fun hv => hg (Fin.ext hv.symm)]

theorem State.parityBroken_chan (s : State) (i : IslandIdx) (e : EngineId) (c : ChanId) :
    (s.parityBroken i).chan e c = s.chan e c := by
  unfold State.parityBroken
  split
  · exact State.modEngInt_chan ..
  · split <;> rfl

theorem State.broken_chan (s : State) (x : Crossing) (e : EngineId) (c : ChanId) : (s.broken x).chan e c = s.chan e c := by
  refine Eq.trans ?_ ((s.settle).parityBroken_chan x.recv e c)
  simp [State.chan, State.broken]

theorem State.parityBroken_engine (s : State) (e : EngineId) :
    s.parityBroken (islEngine e) = s.modEngInt e fun x => { x with parBroken := satAdd x.parBroken 1 } := dif_pos e.isLt

theorem State.broken_parBroken (s : State) (x : Crossing) (e : EngineId) (h : x.recv = islEngine e) :
    ((s.broken x).eng[e.val]).int.parBroken = satAdd (s.eng[e.val]).int.parBroken 1 := by
  unfold State.broken
  rw [h, State.parityBroken_engine]
  simp [State.settle]

theorem State.parityBroken_mbox (s : State) (i : IslandIdx) : (s.parityBroken i).int.mbox = s.int.mbox := by
  unfold State.parityBroken
  split
  · rfl
  · split <;> rfl

theorem State.broken_mbox (s : State) (x : Crossing) (h : s.int.mbox.length < 4096) :
    ∃ m, (s.broken x).int.mbox[s.int.mbox.length]? = some m ∧ m.cls = 5 ∧
      m.record.w0 = put (islandId x.recv).toNat 48 ||| put (islandId x.send).toNat 32 := by
  have hm : (s.settle.parityBroken x.recv).int.mbox = s.int.mbox := State.parityBroken_mbox _ _
  have hl := State.postAt_last (s.settle.parityBroken x.recv) x.recv clsParity .uncorrectable
    (s.settle.parityBroken x.recv).recStep noMb
    (rec0 (put (islandId x.recv).toNat 48 ||| put (islandId x.send).toNat 32)) (by rw [hm]; exact h)
  rw [hm] at hl
  exact ⟨_, (State.setErr_logged _ _).getElem? hl, rfl, rfl⟩

/-! ### Marks -/

/-- What decides how a mark is taken: the job, a HOLD under way and the replay (R391, R392). -/
def State.stepView (s : State) : JobSt × Bool × Option ReplaySt := (s.job, s.int.holding, s.int.replay)

theorem State.setErr_stepView (s : State) (i : Nat) : (s.setErr i).stepView = s.stepView := by
  unfold State.setErr
  split <;> rfl

theorem State.post_stepView (s : State) (i : IslandIdx) (cls : Byte) (st : Status) (mb : W16) (r : Rec4) :
    (s.post i cls st mb r).stepView = s.stepView := by
  unfold State.post State.postAt
  dsimp only
  split
  · rfl
  · exact State.setErr_stepView _ _

theorem State.parityBroken_stepView (s : State) (i : IslandIdx) : (s.parityBroken i).stepView = s.stepView := by
  unfold State.parityBroken
  split
  · rfl
  · split <;> rfl

theorem State.settle_stepView {s : State} (h : s.int.replay = none) : s.settle.stepView = s.stepView := by
  unfold State.stepView State.settle
  simp [h]

theorem State.broken_stepView {s : State} (x : Crossing) (h : s.int.replay = none) : (s.broken x).stepView = s.stepView := by
  unfold State.broken
  rw [State.setErr_stepView, State.post_stepView, State.parityBroken_stepView, State.settle_stepView h]

/-- A step runs, and no HOLD and no replay is under way. -/
structure StepFree (s : State) : Prop where
  running : s.job.state = .running
  stepOn : s.job.stepOn = true
  holding : s.int.holding = false
  replay : s.int.replay = none

theorem StepFree.of_stepView {s t : State} (h : StepFree s) (hv : t.stepView = s.stepView) : StepFree t := by
  unfold State.stepView at hv
  simp only [Prod.mk.injEq] at hv
  obtain ⟨hj, hh, hr⟩ := hv
  exact ⟨hj ▸ h.running, hj ▸ h.stepOn, hh ▸ h.holding, hr ▸ h.replay⟩

/-- The replay that the first mark of a step at an engine begins. -/
def State.firstReplay (s : State) (e : EngineId) (st : Status) : ReplaySt :=
  { step := s.curStep, cause := st.code, island := islandId (islEngine e), marks := 1, stopped := true, fresh := true }

theorem State.mark_replay {s t : State} (h : StepFree s) (hv : t.stepView = s.stepView) (e : EngineId) (st : Status) :
    (t.mark (islEngine e) st).int.replay = some (s.firstReplay e st) := by
  obtain ⟨hr, ho, hh, hn⟩ := h.of_stepView hv
  have hj : t.job = s.job := congrArg (·.1) hv
  have hc : t.curStep = s.curStep := by
    unfold State.curStep
    rw [hj]
  have hm := congrArg (·.2.2) (State.post_stepView (t.modInt fun x => { x with
    replay := some (t.firstReplay e st)
    replayStep := t.curStep
    replayAttempt := BitVec.ofNat 4 (min 1 15) }) (islEngine e) clsReplay st noMb
    (replayRec st.code (if t.replayLimit < 1 then 3 else 0) 1 (islandId (islEngine e)) t.curStep))
  rw [State.mark_first _ _ hr ho hh hn]
  unfold State.firstReplay at hm ⊢
  rw [← hc]
  exact hm

/-- A mark leaves an engine as it was, or stops it (R388). -/
theorem State.mark_eng (s : State) (i : IslandIdx) (st : Status) (e : EngineId) :
    (s.mark i st).eng[e.val] = s.eng[e.val] ∨ (s.mark i st).eng[e.val] = s.eng[e.val].stop := by
  obtain h | ⟨n, h⟩ := s.mark_cases i st
  · exact .inl (by rw [h])
  · right
    rw [h]
    simp [State.marked]

end Sys2Proof.Machine
end

section
/-! PROOFS. The path of each requester (09 R280; 10 R300; 13 R370). -/

namespace Sys2Proof.Machine

/-! ### What the paths leave of the job and the memories -/

/-- The job and the memories. -/
def State.stores (s : State) : JobSt × Vector CtlSt 32 × Vector CtlSt 48 := (s.job, s.vaults, s.fars)

theorem stores_of_offLink {s t : State} (h : t.offLink = s.offLink) : t.stores = s.stores :=
  congrArg (fun x => (x.1, x.2.1, x.2.2.1)) h

theorem State.mark_stores (s : State) (i : IslandIdx) (st : Status) : (s.mark i st).stores = s.stores := by
  simp [State.stores]

theorem State.tileGaveUp_stores (s : State) (e : EngineId) : (s.tileGaveUp e).stores = s.stores := by
  unfold State.tileGaveUp
  split
  · rfl
  · split
    · rfl
    · split
      · rfl
      · refine (State.mark_stores ..).trans ?_
        split <;> rfl

theorem State.rowGaveUp_stores (s : State) (e : EngineId) : (s.rowGaveUp e).stores = s.stores := by
  unfold State.rowGaveUp
  split
  · exact State.mark_stores ..
  · rfl

theorem State.addGaveUp_stores (s : State) (e : EngineId) (c : CtlId) : (s.addGaveUp e c).stores = s.stores := by
  unfold State.addGaveUp
  split
  · rfl
  · exact State.mark_stores ..

theorem State.blockFor_stores (s : State) (i typ : Nat) (vc : Fin 8) (low : Nat) (zero : Bool) (data : List Byte) (x : Sideband)
    (st : Status) : (s.blockFor i typ vc low zero data x st).2.stores = s.stores := by
  unfold State.blockFor
  dsimp only
  split
  · rfl
  · split
    · rfl
    · split <;> rfl

theorem State.pageGaveUp_stores (s : State) (e : EngineId) (q : ReqFrame) (page : Nat) :
    (s.pageGaveUp e q page).stores = s.stores := by
  unfold State.pageGaveUp
  split
  · rfl
  · exact (stores_of_offLink (State.sendFrames_offLink ..)).trans (State.blockFor_stores ..)

/-- Only a slip, a merge entry and the running command can be ended by a transfer given up. -/
theorem State.gaveUp_stores (s : State) {who : GivenUp} (hd : ∀ e ch, who ≠ .dma e ch)
    (hm : ∀ ctl cw, who ≠ .readModifyWrite ctl cw) (hc : who ≠ .charterStore) : (s.gaveUp who).stores = s.stores := by
  cases who with
  | hostRegister => rfl
  | hostAperture off => rfl
  | bursarLoad => rfl
  | bursarFetch => rfl
  | dma e ch => exact absurd rfl (hd e ch)
  | tile e => exact s.tileGaveUp_stores e
  | vector e => exact State.mark_stores ..
  | rowPass e => exact State.mark_stores ..
  | accumulate e ctl => exact s.addGaveUp_stores e ctl
  | tillReload e => exact s.rowGaveUp_stores e
  | tillSend e => exact s.rowGaveUp_stores e
  | peerFetch e q page => exact s.pageGaveUp_stores e q page
  | charterStore => exact absurd rfl hc
  | cache f line => rfl
  | readModifyWrite ctl cw => exact absurd rfl (hm ctl cw)

/-! ### The host -/

theorem aerLog_abort (s : State) : bitAt (s.aerLog .abort).host.aer 15 = true := by
  exact (bitAt_setBit _ _ _ _ (by decide)).trans (if_pos rfl)

/-! ### The steps marked -/

/-- A transfer given up to a requester of engine e that marks the step: one whose tile, run, row or add can be named. -/
def State.MarksFor (s : State) (who : GivenUp) (e : EngineId) : Prop :=
  who = .vector e ∨ who = .rowPass e ∨ (∃ ch, who = .dma e ch ∧ ch.val < 5 ∧ s.engOk e.val = true) ∨
    (∃ ctl b, who = .accumulate e ctl ∧ s.firstBand e ctl = some b) ∨
    ((who = .tillReload e ∨ who = .tillSend e) ∧ (s.eng[e.val]).seq.running = true) ∨
    (∃ ps k arr d, who = .tile e ∧ (s.eng[e.val]).seq.pass = some ps ∧ s.nextClose e ps = some (k, arr) ∧ s.layer k.layer = some d)

section
variable {s u : State} (h : StepFree s) (hv : u.stepView = s.stepView) {e : EngineId}
include h hv

theorem channelHalt_replay {ch : ChanId} {st : Status} {n : Nat} (hc : ch.val < 5) (ho : u.engOk e.val = true) :
    (channelHalt e ch st n u).int.replay = some (s.firstReplay e st) := by
  have hs : (u.settle.modChan e ch fun c => { c.failed st with haltOffset := BitVec.ofNat 28 n }).stepView = u.settle.stepView :=
    rfl
  have h5 : ch ≠ 5 := by
    rintro rfl
    exact absurd hc (by decide)
  unfold channelHalt
  rw [if_neg (by simp [ho]), if_pos (Nat.lt_succ_of_lt hc)]
  dsimp only
  rw [if_neg (by simp [h5]), State.mark_replay h ((hs.trans (State.settle_stepView (h.of_stepView hv).replay)).trans hv)]

theorem tileGaveUp_replay {ps : Pass} {k : TileKey} {arr : ArrId} {d : LayerDesc} (hp : (u.eng[e.val]).seq.pass = some ps)
    (hn : u.nextClose e ps = some (k, arr)) (hd : u.layer k.layer = some d) :
    (u.tileGaveUp e).int.replay = some (s.firstReplay e .uncorrectable) := by
  unfold State.tileGaveUp
  rw [hp]
  dsimp only
  rw [hn]
  dsimp only
  rw [hd]
  refine State.mark_replay h (Eq.trans ?_ hv) e _
  split <;> rfl

theorem rowGaveUp_replay (hr : (u.eng[e.val]).seq.running = true) :
    (u.rowGaveUp e).int.replay = some (s.firstReplay e .uncorrectable) := by
  unfold State.rowGaveUp
  rw [if_pos hr]
  exact State.mark_replay h (t := u.rowStop e .uncorrectable) hv e _

theorem accumFail_replay {ctl : CtlId} {st : Status} : (u.accumFail e ctl st).int.replay = some (s.firstReplay e st) := by
  have he : (u.emit (.memAnswer ctl st [] [])).stepView = u.stepView := rfl
  have hn : (u.emit (.memAnswer ctl st [] [])).int.replay = none := (h.of_stepView hv).replay
  unfold State.accumFail
  rw [State.mark_replay h ((State.settle_stepView hn).trans (he.trans hv))]

theorem addGaveUp_replay {ctl : CtlId} {b : HomeBand} (hb : u.firstBand e ctl = some b) :
    (u.addGaveUp e ctl).int.replay = some (s.firstReplay e .uncorrectable) := by
  have ha : (u.modArr e fun x => { x with homeFlight := x.homeFlight.erase b }).stepView = u.stepView := rfl
  unfold State.addGaveUp
  rw [hb]
  exact accumFail_replay h (ha.trans hv)

theorem runUe_replay {c : RunCtx} {prog : Nat} (hc : c.e = e) :
    (u.runUe c prog []).int.replay = some (s.firstReplay e .uncorrectable) := by
  subst hc
  unfold State.runUe
  dsimp only [State.sramUe]
  rw [State.mark_replay h (by exact hv)]

theorem rowUe_replay {layer : Nat} {mb : W16} {prog rows : Nat} :
    (u.rowUe e layer mb prog rows []).int.replay = some (s.firstReplay e .uncorrectable) := by
  unfold State.rowUe
  dsimp only [State.sramUe]
  rw [State.mark_replay h (by exact hv)]

end

theorem State.gaveUp_replay {s : State} (x : Crossing) {who : GivenUp} {e : EngineId} (hw : s.MarksFor who e) (h : StepFree s) :
    ((s.broken x).gaveUp who).int.replay = some (s.firstReplay e .uncorrectable) := by
  have hv : (s.broken x).stepView = s.stepView := State.broken_stepView x h.replay
  have hc := s.broken_counted x
  obtain rfl | rfl | ⟨ch, rfl, h5, ho⟩ | ⟨ctl, b, rfl, hb⟩ | ⟨hw, hr⟩ | ⟨ps, k, arr, d, rfl, hp, hn, hd⟩ := hw
  · exact runUe_replay h hv rfl
  · exact rowUe_replay h hv
  · exact channelHalt_replay h hv h5 ((hc.engOk _).trans ho)
  · exact addGaveUp_replay h hv ((hc.firstBand e ctl).trans hb)
  · have hr' : ((s.broken x).eng[e.val]).seq.running = true := by
      rw [hc.eng e]
      exact hr
    obtain rfl | rfl := hw
    · exact rowGaveUp_replay h hv hr'
    · exact rowGaveUp_replay h hv hr'
  · refine tileGaveUp_replay h hv ?_ ((hc.nextClose e ps).trans hn) ((hc.layer _).trans hd)
    rw [hc.eng e]
    exact hp

/-! ### Rows and runs -/

theorem State.rowGaveUp_seq {s : State} {e : EngineId} (h : (s.eng[e.val]).seq.running = true) :
    ((s.rowGaveUp e).eng[e.val]).seq.lastStatus = Status.uncorrectable.code ∧ ((s.rowGaveUp e).eng[e.val]).seq.failed = true := by
  unfold State.rowGaveUp
  rw [if_pos h]
  have hs : ((s.rowStop e .uncorrectable).eng[e.val]).seq = { (s.eng[e.val]).seq with
      lastStatus := Status.uncorrectable.code, failed := true, wait := 0, pass := none } := by
    simp [State.rowStop]
  obtain hm | hm := (s.rowStop e .uncorrectable).mark_eng (islEngine e) .uncorrectable e
  · unfold State.rowMark
    rw [hm, hs]
    exact ⟨rfl, rfl⟩
  · unfold State.rowMark
    rw [hm]
    unfold Engine.stop
    rw [hs]
    exact ⟨rfl, rfl⟩

theorem State.runUe_inactive (s : State) (c : RunCtx) (prog : Nat) :
    ((s.runUe c prog []).eng[c.e.val]).vec.run.active = false := by
  unfold State.runUe
  dsimp only [State.sramUe]
  obtain hm | hm := State.mark_eng _ (islEngine c.e) .uncorrectable c.e
  · rw [hm]
    simp [State.faultLog]
  · rw [hm]
    rfl

/-! ### The charter store -/

theorem State.complete_jobState (s : State) (p : PendCmd) (st : Status) (res : W64) :
    (s.complete p st res).job.state = s.job.state := by
  unfold State.complete
  dsimp only
  split <;> split <;> simp

theorem State.busyDone_jobState (s : State) (st : Status) : (s.busyDone st).job.state = s.job.state := by
  unfold State.busyDone
  split
  · rfl
  · rw [State.complete_jobState, State.dbAppend_job]
    rfl

theorem State.charterGaveUp_verifying {s : State} (hc : s.charterCopies.length < 2) (h : s.job.state = .verifying) :
    s.charterGaveUp.job.state = .empty := by
  unfold State.charterGaveUp
  rw [if_neg (Nat.not_le.2 hc), h]
  rfl

theorem State.charterGaveUp_activating {s : State} (hc : s.charterCopies.length < 2) (h : s.job.state = .activating) :
    s.charterGaveUp.job.state = .verified := by
  unfold State.charterGaveUp
  rw [if_neg (Nat.not_le.2 hc), h]
  exact State.busyDone_jobState _ _

/-! ### Lines of the base cache and merge entries -/

theorem State.cacheDrop_lines (s : State) (f : FarId) (line : Nat) :
    ∀ l ∈ ((s.cacheDrop f line).caches[(sliceOf f).val]).lines, ¬(l.far = f.val ∧ l.line = line) := by
  intro l hl
  unfold State.cacheDrop at hl
  rw [State.modCache_caches, Vector.getElem_set_self] at hl
  have hne := (List.mem_filter.1 hl).2
  rintro ⟨hf, hn⟩
  simp [hf, hn] at hne

theorem State.answerAll_ctl (s : State) (c d : CtlId) (st : Status) (a : Nat) (l : List Requester) :
    (s.answerAll c st a l).ctl d = s.ctl d := by
  cases d <;> simp [State.ctl]

theorem foldl_setSide_merge (l : List (Nat × Sideband)) (c : CtlSt) :
    (l.foldl (fun c y => c.setSide y.1 y.2) c).merge = c.merge := by
  induction l generalizing c with
  | nil => rfl
  | cons y l ih => exact ih _

theorem State.retireFails_merge (s : State) (c : CtlId) (m : MergeEnt) :
    ((s.retireFails c m).ctl c).merge = (s.ctl c).merge.filter fun x => x.cw != m.cw := by
  unfold State.retireFails
  rw [State.answerAll_ctl, State.modCtl_ctl_self, foldl_setSide_merge]

theorem State.gaveUp_merge (s : State) (c : CtlId) (cw : Nat) :
    ∀ m ∈ ((s.gaveUp (.readModifyWrite c cw)).ctl c).merge, m.cw ≠ cw := by
  intro m hm
  unfold State.gaveUp at hm
  dsimp only at hm
  split at hm
  · rename_i x hx
    rw [State.retireFails_merge] at hm
    have hcw : x.cw = cw := eq_of_beq (List.find?_some (p := fun m : MergeEnt => m.cw == cw) hx)
    exact hcw ▸ bne_iff_ne.1 (List.mem_filter.1 hm).2
  · rename_i hx
    exact fun h => List.find?_eq_none.1 hx m hm (beq_iff_eq.2 h)

/-! ### Slips (R288, R300) -/

theorem State.chainDone_slip (s : State) (e : EngineId) (ch : ChanId) (st : Status) :
    ∃ c, (s.chainDone e ch st).chan e ch = { s.chan e ch with chain := c } := by
  unfold State.chainDone
  split
  · exact ⟨_, rfl⟩
  · refine ⟨none, ?_⟩
    unfold State.chan
    rw [State.complete_eng]
    exact (State.modChan_chan ..).trans (if_pos ⟨rfl, rfl⟩)

theorem State.putPlace_slip (s : State) (p : Place) (data : List Byte) (who : List Requester) (e : EngineId) (ch : ChanId) :
    ((s.putPlace p data who).chan e ch).slip = (s.chan e ch).slip := by
  unfold State.putPlace
  split
  · rename_i f a
    unfold State.chan State.putStore
    by_cases hf : e = f
    · subst hf
      rw [State.modEng_self]
      rfl
    · rw [State.modEng_other _ _ _ _ _ fun hv => hf (Fin.ext hv.symm)]
  · exact (Stored.refl s).writeBytes.slip e ch
  · rfl
  · rfl

theorem State.writeBack_slip (s : State) (e : EngineId) (ch : ChanId) (st : Status) (n : Nat) :
    ((s.writeBack e ch st n).chan e ch).slip = (s.chan e ch).slip := by
  unfold State.writeBack
  dsimp only
  split
  · rfl
  · rw [State.putPlace_slip, State.putPlace_slip]

/-- The writes of a slip are answered and its words can be written back (R292, R300). -/
structure State.SlipSettled (s : State) (e : EngineId) (ch : ChanId) (z : Slip) : Prop where
  dst : s.owes e ch (placeOf e z.w2) = false
  sum : s.owes e ch (placeOf e z.w4) = false
  blks : (s.chan e ch).openBlks = 0
  pin : s.placePinned (placeOf e (s.chan e ch).cur) 64 = false

/-- A halting channel with nothing open halts with its status and keeps its slip. -/
theorem State.haltDue_halts {s : State} {e : EngineId} {ch : ChanId} {z : Slip} {st : Status} {n : Nat}
    (hh : (s.chan e ch).halting = some (st, n)) (hz : (s.chan e ch).slip = some z) (h : s.SlipSettled e ch z) :
    ((s.haltDue e ch).chan e ch).state = .halted ∧ ((s.haltDue e ch).chan e ch).haltStatus = st.code ∧
      ((s.haltDue e ch).chan e ch).slip = some z := by
  unfold State.haltDue
  dsimp only
  rw [hh, hz]
  dsimp only
  rw [if_neg (by simp [h.dst, h.sum, h.blks, h.pin])]
  obtain ⟨c, hc⟩ := State.chainDone_slip ((s.writeBack e ch st (s.chan e ch).progress.toNat).modChan e ch fun c =>
    { c with state := .halted, lastStatus := st.code, haltStatus := st.code, haltOffset := BitVec.ofNat 28 n
             halts := satAdd c.halts 1, halting := none }) e ch st
  rw [hc, State.modChan_chan, if_pos ⟨rfl, rfl⟩]
  exact ⟨rfl, rfl, (s.writeBack_slip e ch st _).trans hz⟩

/-- A halting channel with blocks open waits. -/
theorem State.haltDue_waits {s : State} {e : EngineId} {ch : ChanId} (h : (s.chan e ch).openBlks ≠ 0) : s.haltDue e ch = s := by
  unfold State.haltDue
  dsimp only
  split
  · rfl
  · rw [if_pos (.inl h)]

/-- A failure of a slip that runs on a channel of a chain, at what has been answered of it. -/
theorem channelHalt_chain {s : State} {e : EngineId} {ch : ChanId} (st : Status) (h6 : 6 ≤ ch.val) (ho : s.engOk e.val = true)
    (hb : (s.chan e ch).busy = true) (hs : (s.chan e ch).slip.isSome = true) :
    channelHalt e ch st (s.chan e ch).progress.toNat s =
      (s.modChan e ch fun c => c.fails st (s.chan e ch).progress.toNat).haltDue e ch := by
  unfold channelHalt
  rw [if_neg (by simp [ho]), if_neg (Nat.not_lt.2 h6), if_pos ⟨hb, hs⟩, Nat.max_self]
  rfl

theorem State.gaveUp_slip {s : State} (x : Crossing) {e : EngineId} {ch : ChanId} {z : Slip} (h6 : 6 ≤ ch.val)
    (ho : s.engOk e.val = true) (hb : (s.chan e ch).busy = true) (hz : (s.chan e ch).slip = some z)
    (hh : (s.chan e ch).halting = none) :
    (s.SlipSettled e ch z →
      (((s.broken x).gaveUp (.dma e ch)).chan e ch).state = .halted ∧
      (((s.broken x).gaveUp (.dma e ch)).chan e ch).haltStatus = Status.uncorrectable.code ∧
      (((s.broken x).gaveUp (.dma e ch)).chan e ch).slip = some z) ∧
    ((s.chan e ch).openBlks ≠ 0 → ((s.broken x).gaveUp (.dma e ch)).chan e ch =
      { s.chan e ch with halting := some (.uncorrectable, (s.chan e ch).progress.toNat) }) := by
  have hc := s.broken_chan x e ch
  have hg : (s.broken x).gaveUp (.dma e ch) = _ := channelHalt_chain .uncorrectable h6
    (((s.broken_counted x).engOk _).trans ho) (by rw [hc]; exact hb) (by rw [hc, hz]; rfl)
  have hk := (s.broken_counted x).trans ((s.broken x).modEng_counted e
    (fun y => { y with dma := y.dma.set ch.val (y.dma[ch.val].fails .uncorrectable (s.chan e ch).progress.toNat) }) fun _ => rfl)
  have hf : ((s.broken x).modChan e ch fun c => c.fails .uncorrectable (s.chan e ch).progress.toNat).chan e ch =
      { s.chan e ch with halting := some (.uncorrectable, (s.chan e ch).progress.toNat) } := by
    rw [State.modChan_chan, if_pos ⟨rfl, rfl⟩, hc]
    unfold ChanSt.fails
    rw [hh]
  rw [hc] at hg
  rw [hg]
  refine ⟨fun h => ?_, fun h => ?_⟩
  · refine State.haltDue_halts (by rw [hf]) (by rw [hf]; exact hz) ⟨?_, ?_, ?_, ?_⟩
    · exact (hk.owes ..).trans h.dst
    · exact (hk.owes ..).trans h.sum
    · rw [hf]
      exact h.blks
    · rw [hf]
      exact (hk.placePinned ..).trans h.pin
  · rw [State.haltDue_waits (by rw [hf]; exact h), hf]

end Sys2Proof.Machine
end

section
/-! PROOFS. O49: the span, word parity and the mailbox (12 R361 to R365; 13 R369, R370, R403). -/

namespace Sys2Proof.Machine

/-- Settles O49, row by row: a lane module that moves takes only the routes with it, a HOLD keeps the mailbox and the span, and a
transfer given up is counted and recorded before its requester takes its path. -/
theorem spanParityAndMailbox : Obligations.SpanParityAndMailbox := by
  unfold Obligations.SpanParityAndMailbox
  intro s
  refine ⟨?flit, ?width, ?lock, ?parity, ?giveUp, ?frame, errorFrameSend_waits, ?overflow, mailboxOverflow_waits, ?link⟩
  case flit => exact fun lm east code => ⟨flitDiscard_moves east, flit_taken east⟩
  case width =>
    intro lm w y ok
    dsimp only
    refine ⟨fun h ha => ?_, widthAgreement_waits w y ok⟩
    obtain ⟨t, hx, hm⟩ := widthAgreement_round w y ok h ha
    refine ⟨t, hx, hm.only, hm.others, hm.routes, ?_⟩
    rw [hm.lane]
    refine ⟨laneRound_locked .., ?_⟩
    simp only [← LaneSt.offer_toNat]
    split
    · exact laneRound_agrees ‹_›
    · exact laneRound_fails ha ‹_›
  case lock =>
    intro lm
    refine ⟨fun h ha => ⟨⟨_, laneLock_due true h ha, ?_⟩, ⟨_, laneLock_due false h ha, ?_⟩⟩, fun h ok => laneLock_waits ok h⟩
    · obtain ⟨⟨hl, ho⟩, hj, he, hv, hf, hb⟩ := State.widthEvent_moved (s.modLane_reroute_moved lm LaneSt.atTwo)
      rw [laneLock_true_eq, hl]
      exact ⟨rfl, rfl, rfl, rfl, ho, hj, he, hv, hf, hb⟩
    · obtain ⟨⟨hl, ho⟩, hj, he, hb⟩ := s.laneOut_moved lm
      have hr := laneLock_false_reported lm s
      rw [hr.span]
      refine ⟨hl, ho, fun hm => ?_, fun hk => ?_, fun hk ha => ?_, fun hk hr => ?_⟩
      · obtain ⟨m, hm, hst⟩ := hb hm
        exact ⟨m, hr.log.getElem? (by rw [hm, List.getElem?_concat_length]), hst⟩
      · rw [laneLock_false_some hk]
        exact ⟨hj, he⟩
      · rw [laneLock_false_last hk]
        exact State.hold_between (by rwa [State.laneOut_event_job])
      · rw [laneLock_false_last hk]
        have hh := State.hold_running (s := (s.laneOut lm).widthEvent lm) (by rwa [State.laneOut_event_job])
        rwa [State.laneOut_event_job] at hh
  case parity =>
    intro x got buf
    refine ⟨fun h => congrArg Host.Outcome.next (if_pos h), fun h => ⟨_, parityError_resends buf h, ?_⟩⟩
    have hpc := s.parityCount_only x.recv
    refine ⟨congrArg (List.cons _) (s.parityCount_out x.recv), State.emit_only _ hpc, fun e he => ?_, State.parityCount_eng,
      fun k hk => ?_, fun h1 h2 => ?_, fun h1 h2 => ?_, fun h1 h2 => ?_, fun h1 => ?_⟩
    · rw [State.emit_int, State.emit_eng, he, State.parityCount_engine]
      exact ⟨rfl, by simp⟩
    · rw [State.emit_int, State.parityCount_xch hk]
      exact Vector.getElem_set_self _
    · rw [State.emit_int, State.parityCount_module h1]
      exact if_pos h2
    · rw [State.emit_int, State.parityCount_module (by omega)]
      exact (if_neg (by omega)).trans (if_pos h2)
    · rw [State.emit_int, State.parityCount_module (by omega)]
      exact (if_neg (by omega)).trans ((if_neg (by omega)).trans (if_pos h2))
    · rw [State.emit_int, State.parityCount_module (by omega)]
      exact (if_neg (by omega)).trans ((if_neg (by omega)).trans (if_neg (by omega)))
  case giveUp =>
    intro x who
    have hc := s.broken_counted x
    have hr : Reported (s.broken x) ((s.broken x).gaveUp who) := (Reported.refl _).gaveUp
    refine ⟨_, exec_parityGiveUp x who s, hr.log.err _ (State.setErr_set _ _ (by decide)),
      fun e he => (hr.broken e).trans (s.broken_parBroken x e he), fun hl => ?mbox, fun hd hm hn => ?stores, ?register, ?aperture,
      ?load, ?fetch, ?slip, fun e hw hj ho hh hn => State.gaveUp_replay x hw ⟨hj, ho, hh, hn⟩, fun e hw hj => ?row, ?run, ?copies,
      ?verifying, ?activating, ?cache, ?merge⟩
    case mbox =>
      obtain ⟨m, hm, hcls, hw⟩ := s.broken_mbox x hl
      exact ⟨m, hr.log.getElem? hm, hcls, hw⟩
    case stores =>
      have hs := (s.broken x).gaveUp_stores hd hm hn
      exact ⟨(congrArg (·.1) hs).trans hc.job, (congrArg (·.2.1) hs).trans hc.stores.1, (congrArg (·.2.2) hs).trans hc.stores.2⟩
    case register =>
      rintro rfl
      exact ⟨rfl, aerLog_abort _⟩
    case aperture =>
      rintro off rfl
      exact ⟨rfl, aerLog_abort _, rfl, rfl⟩
    case load =>
      rintro rfl
      rfl
    case fetch =>
      rintro rfl
      rfl
    case slip =>
      rintro e ch z rfl h6 ho hb hz hh
      obtain ⟨hs, hw⟩ := State.gaveUp_slip x h6 ho hb hz hh
      exact ⟨fun h2 h4 hk hp => hs ⟨h2, h4, hk, hp⟩, hw⟩
    case row =>
      have hrow := State.rowGaveUp_seq (s := s.broken x) (e := e) (by rw [hc.eng e]; exact hj)
      obtain rfl | rfl := hw
      · exact hrow
      · exact hrow
    case run =>
      rintro e rfl
      exact State.runUe_inactive (s.broken x) ((s.broken x).runCtx e) _
    case copies =>
      rintro rfl h2
      exact (congrArg State.job (if_pos (hc.charterCopies ▸ h2))).trans hc.job
    case verifying =>
      rintro rfl h2 hj
      exact State.charterGaveUp_verifying (by rw [hc.charterCopies]; exact h2) (by rw [hc.job]; exact hj)
    case activating =>
      rintro rfl h2 hj
      exact State.charterGaveUp_activating (by rw [hc.charterCopies]; exact h2) (by rw [hc.job]; exact hj)
    case cache =>
      rintro f line rfl
      exact State.cacheDrop_lines (s.broken x) f line
    case merge =>
      rintro ctl cw rfl -
      exact State.gaveUp_merge (s.broken x) ctl cw
  case frame =>
    intro m r hm hp
    refine ⟨_, errorFrameSend_sends hm hp, rfl, rfl, fun p hpp => ?_⟩
    exact List.mem_append_left _ (List.mem_reverse.2 (List.mem_map_of_mem hpp))
  case overflow =>
    intro hl h
    refine ⟨_, _, mailboxOverflow_enters hl h, s.postAt_mbox _ _ _ _ _ _ hl, rfl, rfl, rfl, State.post_job .., State.post_eng ..,
      ovfRec_lane s.int.ovfByClass⟩
  case link =>
    intro p up fec
    have hp : (if p = true then 9 else 1) = (if p = true then 8 else 0) + 1 := by cases p <;> rfl
    have h8 : (if p = true then 8 else 0) ≤ 8 := by cases p <;> decide
    rw [hp]
    refine ⟨_, mgmtLink_changes s p up fec, rfl, (bitAt_linkBits _ _ _ _ _ (by omega)).trans ?_,
      (bitAt_linkBits _ _ _ _ _ (by omega)).trans (if_pos rfl), fun k hk h0 h1 => (bitAt_linkBits _ _ _ _ _ hk).trans ?_⟩
    · rw [if_neg (by omega), if_pos rfl]
    · rw [if_neg h1, if_neg h0]

end Sys2Proof.Machine
end

section
/-! PROOFS. The treasurer's flags, its budget tick and its curve tables (16 R470 to R483). -/

namespace Sys2Proof.Machine

/-! ### ALERT_N (R472) -/

@[simp] theorem State.alert_job (s : State) : s.alert.job = s.job := rfl
@[simp] theorem State.alert_pwr (s : State) : s.alert.pwr = s.pwr := rfl
@[simp] theorem State.alert_vaults (s : State) : s.alert.vaults = s.vaults := rfl
@[simp] theorem State.alert_fars (s : State) : s.alert.fars = s.fars := rfl
@[simp] theorem State.alert_eng (s : State) : s.alert.eng = s.eng := rfl

/-- The input's level and the throttle each hold ALERT_N while the module has power. -/
theorem State.alert_alertN {s : State} (h : s.pwr.inputLow = true ∨ s.pwr.inputHigh = true ∨ s.pwr.throttle = true)
    (hp : s.glb.hold ≠ .off) : s.alert.glb.alertN = true := by
  have hoff : (s.glb.hold != .off) = true := by simpa using hp
  unfold State.alert
  simp only [State.modGlb_glb, hoff, Bool.and_true]
  rcases h with h | h | h <;> simp [h]

theorem State.throttleOn_alertN {s : State} (hp : s.glb.hold ≠ .off) : s.throttleOn.glb.alertN = true :=
  State.alert_alertN (.inr (.inr rfl)) hp

/-! ### Reading, throttle and level (R474, R475) -/

/-- A reading leaves the treasurer but what PWR_VIN, PWR_POWER and PWR_TEMP show and the load of the envelopes. -/
theorem PwrSt.sense_only (p : PwrSt) (r : Readings) :
    p.sense r = { p with
      volts := r.volts, power := (p.sense r).power, load := (p.sense r).load
      tempIsland := (p.sense r).tempIsland, temp := (p.sense r).temp } := by
  unfold PwrSt.sense
  dsimp only
  split <;> rfl

theorem PwrSt.throttleEnd_only (p : PwrSt) (w : Nat) :
    p.throttleEnd w = { p with throttle := (p.throttleEnd w).throttle, throttleWhole := (p.throttleEnd w).throttleWhole } := by
  unfold PwrSt.throttleEnd
  split
  · split <;> rfl
  · rfl

theorem PwrSt.budgetLoop_only (p : PwrSt) (w : Nat) :
    p.budgetLoop w = { p with overTicks := (p.budgetLoop w).overTicks, level := (p.budgetLoop w).level } := by
  unfold PwrSt.budgetLoop
  dsimp only
  split <;> rfl

theorem PwrSt.budgetLoop_overTicks (p : PwrSt) (w : Nat) :
    (p.budgetLoop w).overTicks = if p.budgetW < w then p.overTicks + 1 else 0 := by
  unfold PwrSt.budgetLoop
  dsimp only
  split <;> rfl

theorem PwrSt.budgetLoop_level (p : PwrSt) (w : Nat) :
    (p.budgetLoop w).level =
      if p.budgetW < w then if p.level < Config.engineCurvePoints - 1 then p.level + 1 else p.level
      else if w + p.hyst < p.budgetW then p.level - 1 else p.level := by
  unfold PwrSt.budgetLoop
  dsimp only
  split
  · rfl
  · by_cases hw : w + p.hyst < p.budgetW
    · simp only [hw, decide_true, Bool.true_and, decide_eq_true_eq, if_true]
      split <;> omega
    · simp [hw]

/-- The throttle lasts but through a whole tick within the budget. -/
theorem PwrSt.throttleEnd_throttle (p : PwrSt) (w : Nat) :
    (p.throttleEnd w).throttle = (p.throttle && !(p.throttleWhole && decide (w ≤ p.budgetW))) := by
  unfold PwrSt.throttleEnd
  split
  next ht =>
    split
    next hw => simp [hw]
    next hw => simp [ht, hw]
  next ht => simp [ht]

theorem PwrSt.throttleEnd_whole {p : PwrSt} (w : Nat) (ht : p.throttle = true) (hw : p.throttleWhole = false) :
    p.throttleEnd w = { p with throttleWhole := true } := by
  simp [PwrSt.throttleEnd, ht, hw]

/-- The treasurer as a tick's reading leaves it: throttle, over-budget count and level. -/
def PwrSt.ticked (p : PwrSt) (r : Readings) : PwrSt := ((p.sense r).throttleEnd r.power).budgetLoop r.power

theorem PwrSt.ticked_only (p : PwrSt) (r : Readings) :
    p.ticked r = { p with
      volts := r.volts, power := (p.ticked r).power, load := (p.ticked r).load
      tempIsland := (p.ticked r).tempIsland, temp := (p.ticked r).temp
      throttle := (p.ticked r).throttle, throttleWhole := (p.ticked r).throttleWhole
      overTicks := (p.ticked r).overTicks, level := (p.ticked r).level } := by
  unfold PwrSt.ticked
  rw [PwrSt.budgetLoop_only, PwrSt.throttleEnd_only, PwrSt.sense_only]

theorem PwrSt.ticked_overTicks (p : PwrSt) (r : Readings) :
    (p.ticked r).overTicks = if p.budgetW < r.power then p.overTicks + 1 else 0 := by
  unfold PwrSt.ticked
  rw [PwrSt.budgetLoop_overTicks, PwrSt.throttleEnd_only, PwrSt.sense_only]
  rfl

theorem PwrSt.ticked_level (p : PwrSt) (r : Readings) :
    (p.ticked r).level =
      if p.budgetW < r.power then if p.level < Config.engineCurvePoints - 1 then p.level + 1 else p.level
      else if r.power + p.hyst < p.budgetW then p.level - 1 else p.level := by
  unfold PwrSt.ticked
  rw [PwrSt.budgetLoop_level, PwrSt.throttleEnd_only, PwrSt.sense_only]
  rfl

theorem PwrSt.ticked_throttle (p : PwrSt) (r : Readings) :
    (p.ticked r).throttle = (p.throttle && !(p.throttleWhole && decide (r.power ≤ p.budgetW))) := by
  unfold PwrSt.ticked
  rw [PwrSt.budgetLoop_only]
  dsimp only
  rw [PwrSt.throttleEnd_throttle, PwrSt.sense_only]
  rfl

theorem PwrSt.ticked_whole {p : PwrSt} (r : Readings) (ht : p.throttle = true) (hw : p.throttleWhole = false) :
    (p.ticked r).throttleWhole = true := by
  have ht' : (p.sense r).throttle = true := by rw [PwrSt.sense_only]; exact ht
  have hw' : (p.sense r).throttleWhole = false := by rw [PwrSt.sense_only]; exact hw
  unfold PwrSt.ticked
  rw [PwrSt.budgetLoop_only, PwrSt.throttleEnd_whole _ ht' hw']

/-! ### Ramps after the throttle (R87, R474) -/

/-- An array that ramps, or that will at its next row. -/
def ArraySt.RampsNext (x : ArraySt) : Prop := x.ramping = true ∨ x.idle = true

theorem EngArr.rampAgain_same (x : EngArr) (i : ArrId) (src : Nat) : ((x.rampAgain i src).arr i).RampsNext := by
  unfold EngArr.rampAgain
  split
  · cases i <;> exact .inl rfl
  · cases i <;> exact .inr rfl

theorem EngArr.rampAgain_a_of_b (x : EngArr) (src : Nat) : (x.rampAgain .b src).arr .a = x.arr .a := by
  unfold EngArr.rampAgain
  split <;> rfl

/-- Both arrays of an engine at the release of the throttle. -/
def Engine.rampsAgain (x : Engine) (src : Nat) : Engine := { x with arr := (x.arr.rampAgain .a src).rampAgain .b src }

theorem Engine.rampsAgain_arr (x : Engine) (src : Nat) (k : ArrId) : ((x.rampsAgain src).arr.arr k).RampsNext := by
  unfold Engine.rampsAgain
  cases k with
  | a =>
    dsimp only
    rw [EngArr.rampAgain_a_of_b]
    exact EngArr.rampAgain_same ..
  | b => exact EngArr.rampAgain_same ..

theorem State.rampsAgain_kept {s : State} {was : Bool} (h : was = false ∨ s.pwr.throttle = true) : s.rampsAgain was = s := by
  unfold State.rampsAgain
  exact if_neg (by rcases h with h | h <;> simp [h])

theorem State.rampsAgain_released {s : State} (h : s.pwr.throttle = false) :
    s.rampsAgain true = s.modAllEng fun e => e.rampsAgain s.rampNow := by
  unfold State.rampsAgain
  exact if_pos (by simp [h])

/-- The ramps touch no more than the engines. -/
theorem State.rampsAgain_only (s : State) (was : Bool) : s.rampsAgain was = { s with eng := (s.rampsAgain was).eng } := by
  unfold State.rampsAgain
  dsimp only
  split <;> rfl

/-! ### Heat (R478) -/

theorem IslSt.heatStep_hot {x : IslSt} {t cap : Int} {last : Nat} (ht : cap ≤ t) (hl : x.heat < last) :
    (x.heatStep t cap last).1.heat = x.heat + 1 := by
  simp [IslSt.heatStep, ht, hl]

theorem PwrSt.heatTick_only (p : PwrSt) (r : Readings) :
    p.heatTick r = { p with
      isl := (p.heatTick r).isl, thermalSteps := (p.heatTick r).thermalSteps, thermalCap := (p.heatTick r).thermalCap } := by
  unfold PwrSt.heatTick thermalCapOf
  dsimp only

theorem PwrSt.heatTick_isl (p : PwrSt) (r : Readings) (i : IslandIdx) :
    (p.heatTick r).isl[i.val] = ((p.isl[i.val]).heatStep ((tempOf r i).getD (-128)) p.tjCap (lastPoint i)).1 := by
  simp [PwrSt.heatTick, thermalCapOf]

/-- THERMAL_CAP shows while heat holds any island below its top. -/
theorem thermalCapOf_heat {p : PwrSt} (i : IslandIdx) (h : 0 < (p.isl[i.val]).heat) : (thermalCapOf p).thermalCap = true := by
  refine List.any_eq_true.2 ⟨p.isl[i.val], ?_, decide_eq_true h⟩
  exact Vector.mem_toList_iff.2 (Vector.getElem_mem _)

/-- An island at its cap goes one point lower by heat. -/
theorem PwrSt.heatTick_hot {p : PwrSt} {r : Readings} {i : IslandIdx} {x : Int} (hx : tempOf r i = some x)
    (hc : p.tjCap ≤ x) (hl : (p.isl[i.val]).heat < lastPoint i) :
    ((p.heatTick r).isl[i.val]).heat = (p.isl[i.val]).heat + 1 ∧ (p.heatTick r).thermalCap = true := by
  have hh : ((p.heatTick r).isl[i.val]).heat = (p.isl[i.val]).heat + 1 := by
    rw [PwrSt.heatTick_isl, hx]
    exact IslSt.heatStep_hot hc hl
  exact ⟨hh, thermalCapOf_heat i (hh ▸ Nat.succ_pos _)⟩

/-! ### Points (R475, R480) -/

theorem PwrSt.setPoints_only (p : PwrSt) : p.setPoints = { p with isl := p.setPoints.isl } := rfl

theorem PwrSt.setPoints_isl (p : PwrSt) (i : IslandIdx) : p.setPoints.isl[i.val] = p.setIsl i p.isl[i.val] := by
  simp [PwrSt.setPoints]

theorem PwrSt.setPoints_level (p : PwrSt) : p.setPoints.level = p.level := by rw [PwrSt.setPoints_only]

theorem PwrSt.setPoints_curves (p : PwrSt) : p.setPoints.curves = p.curves := by rw [PwrSt.setPoints_only]

theorem PwrSt.setPoints_thermalCap (p : PwrSt) : p.setPoints.thermalCap = p.thermalCap := by rw [PwrSt.setPoints_only]

theorem PwrSt.setPoints_heat (p : PwrSt) (i : IslandIdx) : (p.setPoints.isl[i.val]).heat = (p.isl[i.val]).heat := by
  rw [PwrSt.setPoints_isl]
  rfl

theorem islKind_engine {i : IslandIdx} (h : i.val < 128) : islKind i = 0 := if_pos h

theorem lastPoint_engine {i : IslandIdx} (h : i.val < 128) : lastPoint i = Config.engineCurvePoints - 1 := by
  unfold lastPoint
  rw [islKind_engine h]
  rfl

/-- An engine's clock by its level, its clock probation and its heat. -/
theorem PwrSt.setPoints_freq (p : PwrSt) (e : EngineId) :
    (p.setPoints.isl[e.val]).freq = BitVec.ofNat 16 (2500 - 100 *
      Nat.min (p.setPoints.level + (p.setPoints.isl[e.val]).probF + (p.setPoints.isl[e.val]).heat)
        (Config.engineCurvePoints - 1)) := by
  have hi : p.setPoints.isl[e.val] = _ := p.setPoints_isl (e.castLE (by decide))
  have h : (e.castLE (by decide) : IslandIdx).val < 128 := e.isLt
  rw [hi, p.setPoints_level]
  unfold PwrSt.setIsl pointMHz PwrSt.islPoint
  simp only [islKind_engine h, lastPoint_engine h, if_true, Nat.min_assoc, Nat.min_self]

/-! ### Tables at a tick (R483) -/

/-- Of the job, the memories, the engines and the treasurer, no more differs than the tables held and the count of their
fallbacks. -/
structure TablesOnly (s t : State) : Prop where
  job : t.job = s.job
  vaults : t.vaults = s.vaults
  fars : t.fars = s.fars
  eng : t.eng = s.eng
  pwr : t.pwr = { s.pwr with curves := t.pwr.curves, envelope := t.pwr.envelope }

theorem TablesOnly.trans {s t u : State} (h : TablesOnly s t) (k : TablesOnly t u) : TablesOnly s u :=
  ⟨k.job.trans h.job, k.vaults.trans h.vaults, k.fars.trans h.fars, k.eng.trans h.eng, by rw [k.pwr, h.pwr]⟩

theorem State.envelopeEvent_tablesOnly (s : State) (kind id : Nat) : TablesOnly s (s.envelopeEvent kind id) := by
  unfold State.envelopeEvent
  constructor <;> simp

theorem foldl_envelopeEvent_tablesOnly : ∀ (l : List HeldCurve) (s : State),
    TablesOnly s (l.foldl (fun s c => s.envelopeEvent c.kind.toNat c.curve.id) s)
  | [], _ => ⟨rfl, rfl, rfl, rfl, rfl⟩
  | _ :: l, s => (s.envelopeEvent_tablesOnly _ _).trans (foldl_envelopeEvent_tablesOnly l _)

theorem State.envelopeTick_tablesOnly (s : State) (r : Readings) : TablesOnly s (s.envelopeTick r) := by
  refine TablesOnly.trans ?_ (foldl_envelopeEvent_tablesOnly ..)
  exact ⟨rfl, rfl, rfl, rfl, rfl⟩

/-! ### The budget tick -/

/-- What a budget tick has done: the treasurer has gone through its reading, heat, tables and points, in this order, and the
engines may have been released from the throttle. -/
structure BudgetTicked (s : State) (r : Readings) (t : State) : Prop where
  job : t.job = s.job
  vaults : t.vaults = s.vaults
  fars : t.fars = s.fars
  eng : t.eng = ((s.modPwr fun p => p.ticked r).rampsAgain s.pwr.throttle).eng
  pwr : ∃ p : PwrSt, t.pwr = p.setPoints ∧
    p = { (s.pwr.ticked r).heatTick r with curves := p.curves, envelope := p.envelope }

theorem exec_budgetTick (s : State) (r : Readings) :
    exec (.budgetTick r) s = .next ((((((s.modPwr fun p => p.ticked r).rampsAgain s.pwr.throttle).modPwr
      fun p => p.heatTick r).envelopeTick r).modPwr PwrSt.setPoints).alert) := by
  show execBudgetTick r s = _
  simp only [execBudgetTick, PwrSt.ticked]

theorem budgetTick_ticked (s : State) (r : Readings) : ∃ t, exec (.budgetTick r) s = .next t ∧ BudgetTicked s r t := by
  have hr := (s.modPwr fun p => p.ticked r).rampsAgain_only s.pwr.throttle
  refine ⟨_, exec_budgetTick s r, ?_⟩
  generalize hu : (s.modPwr fun p => p.ticked r).rampsAgain s.pwr.throttle = u at hr
  have hc := (u.modPwr fun p => p.heatTick r).envelopeTick_tablesOnly r
  generalize (u.modPwr fun p => p.heatTick r).envelopeTick r = v at hc
  exact {
    job := by rw [State.alert_job, State.modPwr_job, hc.job, State.modPwr_job, hr, State.modPwr_job]
    vaults := by rw [State.alert_vaults, State.modPwr_vaults, hc.vaults, State.modPwr_vaults, hr, State.modPwr_vaults]
    fars := by rw [State.alert_fars, State.modPwr_fars, hc.fars, State.modPwr_fars, hr, State.modPwr_fars]
    eng := by simp [hc.eng, hu]
    pwr := by
      have hp : u.pwr = s.pwr.ticked r := by rw [hr, State.modPwr_pwr]
      exact ⟨v.pwr, by simp, hp ▸ hc.pwr⟩ }

section
variable {s t : State} {r : Readings} (h : BudgetTicked s r t)
include h

/-- Beside the islands, the tables and what shows of them, the treasurer is as the reading left it. -/
theorem BudgetTicked.pwr_only : t.pwr = { s.pwr.ticked r with
    isl := t.pwr.isl, thermalSteps := t.pwr.thermalSteps, thermalCap := t.pwr.thermalCap
    curves := t.pwr.curves, envelope := t.pwr.envelope } := by
  obtain ⟨p, hp, hq⟩ := h.pwr
  rw [hp, PwrSt.setPoints_only, hq, PwrSt.heatTick_only]

theorem BudgetTicked.throttle : t.pwr.throttle = (s.pwr.ticked r).throttle := by rw [h.pwr_only]

theorem BudgetTicked.throttleWhole : t.pwr.throttleWhole = (s.pwr.ticked r).throttleWhole := by rw [h.pwr_only]

theorem BudgetTicked.level : t.pwr.level = (s.pwr.ticked r).level := by rw [h.pwr_only]

theorem BudgetTicked.overTicks : t.pwr.overTicks = (s.pwr.ticked r).overTicks := by rw [h.pwr_only]

/-- While the throttle is not released, the engines stay. -/
theorem BudgetTicked.eng_kept (hk : s.pwr.throttle = false ∨ t.pwr.throttle = true) : t.eng = s.eng := by
  rw [h.throttle] at hk
  rw [h.eng, State.rampsAgain_kept hk]
  rfl

/-- The release of the throttle sends every array through its ramp. -/
theorem BudgetTicked.eng_released (hs : s.pwr.throttle = true) (ht : t.pwr.throttle = false) (e : EngineId) :
    ∃ src, t.eng[e.val] = (s.eng[e.val]).rampsAgain src := by
  rw [h.throttle] at ht
  simp only [h.eng, hs, State.rampsAgain_released (s := s.modPwr fun p => p.ticked r) ht, State.modAllEng_eng,
    Vector.getElem_map]
  exact ⟨_, rfl⟩

theorem BudgetTicked.heat_hot {i : IslandIdx} {x : Int} (hx : tempOf r i = some x) (hc : (fld s.pwr.thermal 7 0 : Nat) ≤ x)
    (hl : (s.pwr.isl[i.val]).heat < lastPoint i) :
    (t.pwr.isl[i.val]).heat = (s.pwr.isl[i.val]).heat + 1 ∧ t.pwr.thermalCap = true := by
  obtain ⟨p, hp, hq⟩ := h.pwr
  have hcap : (s.pwr.ticked r).tjCap = (fld s.pwr.thermal 7 0 : Nat) := by rw [PwrSt.ticked_only]; rfl
  have hisl : (s.pwr.ticked r).isl = s.pwr.isl := by rw [PwrSt.ticked_only]
  have hh := PwrSt.heatTick_hot (p := s.pwr.ticked r) hx (hcap ▸ hc) (by simpa only [hisl] using hl)
  have hi : p.isl = ((s.pwr.ticked r).heatTick r).isl := by rw [hq]
  have ht : p.thermalCap = ((s.pwr.ticked r).heatTick r).thermalCap := by rw [hq]
  simp only [hisl, ← hi, ← ht] at hh
  rw [hp]
  exact ⟨(p.setPoints_heat i).trans hh.1, p.setPoints_thermalCap.trans hh.2⟩

theorem BudgetTicked.freq (e : EngineId) : (t.pwr.isl[e.val]).freq = BitVec.ofNat 16 (2500 - 100 *
    Nat.min (t.pwr.level + (t.pwr.isl[e.val]).probF + (t.pwr.isl[e.val]).heat) (Config.engineCurvePoints - 1)) := by
  obtain ⟨p, hp, -⟩ := h.pwr
  simp only [hp]
  exact p.setPoints_freq e

end

end Sys2Proof.Machine
end

section
/-! PROOFS. Commits of PWR_CURVE_DATA (16 R482). -/

namespace Sys2Proof.Machine

/-! ### The tables held -/

/-- The table in the staging window, as a commit stores it: it waits for the boundary while a step runs. -/
def State.stagedCurve (s : State) (kind target : Byte) : HeldCurve where
  kind := kind
  target := target
  curve := parseCurve s.pwr.window 0
  waiting := !(s.job.state != .running)
  inside := true
  ticks := 0

theorem State.stagedCurve_waiting (s : State) (kind target : Byte) :
    (s.stagedCurve kind target).waiting = true ↔ s.job.state = .running := by
  simp [State.stagedCurve]

/-- The tables held of other kinds or targets, those that a commit counts. -/
def State.otherCurves (s : State) (kind target : Byte) : List HeldCurve :=
  (newestCurves s.pwr.curves).filter fun h => !(h.kind == kind && h.target == target)

theorem State.commitCurve_refused {s : State} {kind target : Byte}
    (h : installerOk s.pwr.window kind.toNat target.toNat = false) :
    s.commitCurve kind target = (.badCharter, s) := by
  unfold State.commitCurve
  exact if_pos h

theorem State.commitCurve_full {s : State} {kind target : Byte} (h : installerOk s.pwr.window kind.toNat target.toNat = true)
    (hn : 32 ≤ (s.otherCurves kind target).length) : s.commitCurve kind target = (.stateConflict, s) := by
  unfold State.commitCurve
  dsimp only
  rw [if_neg (by simp [h])]
  exact if_pos hn

/-- What storing a table has done: it stands first, the tables of other kinds and targets stay, and the job, the memories, the
host and the engines are as they were. -/
structure CurveStored (s : State) (kind target : Byte) (t : State) : Prop where
  offLink : t.offLink = s.offLink
  eng : t.eng = s.eng
  newest : t.pwr.curves.head? = some (s.stagedCurve kind target)
  others : ∀ x ∈ s.pwr.curves, x.kind ≠ kind ∨ x.target ≠ target → x ∈ t.pwr.curves

theorem State.commitCurve_stores {s : State} {kind target : Byte} (h : installerOk s.pwr.window kind.toNat target.toNat = true)
    (hn : (s.otherCurves kind target).length < 32) :
    ∃ t, s.commitCurve kind target = (.ok, t) ∧ CurveStored s kind target t := by
  unfold State.otherCurves at hn
  unfold State.commitCurve
  dsimp only
  rw [if_neg (by simp [h]), if_neg (Nat.not_le.2 hn)]
  refine ⟨_, rfl, ?_⟩
  refine ⟨?offLink, ?eng, ?newest, fun x hx hne => ?others⟩
  case offLink => split <;> simp [State.offLink]
  case eng => split <;> simp
  case newest =>
    rw [State.measure_pwr]
    split
    · rw [State.modPwr_pwr, PwrSt.setPoints_curves]
      rfl
    · rfl
  case others =>
    have hm (now : Bool) :
        x ∈ s.pwr.curves.filter fun c => !((c.kind == kind && c.target == target) && (now || c.waiting)) := by
      refine List.mem_filter.2 ⟨hx, ?_⟩
      rcases hne with hne | hne <;> simp [hne]
    rw [State.measure_pwr]
    split
    · rw [State.modPwr_pwr, PwrSt.setPoints_curves]
      exact List.mem_cons_of_mem _ (hm _)
    · exact List.mem_cons_of_mem _ (hm _)

/-! ### PWR_CURVE_CTRL -/

/-- A table refused leaves its status in PWR_CURVE_CTRL.STATUS. -/
theorem fld_curveStatus (v : Byte) (n : Nat) (hn : n < 2 ^ 56) : fld (put v.toNat 56 ||| put n 0) 63 56 = v.toNat := by
  refine (fld_eq _ 63 56 v.toNat fun i hi => ?_).trans (Nat.mod_eq_of_lt v.isLt)
  have hlow : n.testBit (56 + i) = false :=
    Nat.testBit_lt_two_pow (Nat.lt_of_lt_of_le hn (Nat.pow_le_pow_right (by decide) (by omega)))
  have h64 : 56 + i < 64 := by omega
  simp only [BitVec.getLsbD_or, getLsbD_put, Nat.sub_zero, hlow]
  simp [h64]

/-- The word that a write of PWR_CURVE_CTRL stores: its fields without reserved bits. -/
def curveWord (v : W64) : W64 := v &&& 0xFF00_0000_0001_FFFF

/-- The installer's access to PWR_CURVE_CTRL with COMMIT set commits the staging window. -/
theorem regAccess_curveCommit {s : State} (v : W64) (x : Slip) (hv : bitAt v 16 = true) :
    s.regAccess 0x20_0040 1 v x =
      (let r := curveCommit (BitVec.ofNat 8 (fld v 7 0)) (BitVec.ofNat 8 (fld v 15 8)) (curveWord v) s
       { cmdDone r.1 r.2 with target := put 0x20_0040 0 }) := by
  have hg : s.regGone 0x20_0040 = false := rfl
  have hw : wregAt 0x20_0040 = some .curveCtrl := rfl
  unfold State.regAccess
  dsimp only
  rw [if_neg (by simp [hg]), hw]
  dsimp only
  rw [if_neg (by decide), if_neg (by simp [wregLocks])]
  exact congrArg (fun o : CmdOut => { o with target := put 0x20_0040 0 }) (if_pos hv)

theorem State.taken_pwr (s : State) (role : Byte) (c : Cmd) : (s.taken role c).pwr = s.pwr := by simp [State.taken]

theorem State.taken_job (s : State) (role : Byte) (c : Cmd) : (s.taken role c).job = s.job := by simp [State.taken]

section
variable {s : State} {c : Cmd} {k u : Byte} (h : RegTaken s c 1 0x20_0040) (hv : bitAt c.arg1 16 = true)
  (hk : k = BitVec.ofNat 8 (fld c.arg1 7 0)) (hu : u = BitVec.ofNat 8 (fld c.arg1 15 8))
include h hv hk hu

/-- The installer's write with COMMIT set completes with the status of the commit and leaves what the commit has done. -/
theorem curveCommit_written {v : State} {st : Status} (hc : curveCommit k u (curveWord c.arg1) (s.taken 1 c) = (st, v))
    (hl : v.offLink = (s.taken 1 c).offLink) (he : v.eng = (s.taken 1 c).eng) :
    ∃ t, exec (.curveCommit c) s = .next t ∧ Completed t c 0x22 st 0 ∧ t.pwr = v.pwr ∧ t.job = s.job ∧ t.eng = s.eng ∧
      t.vaults = s.vaults ∧ t.fars = s.fars := by
  have hreg : (cmdReg c == some .curveCtrl && bitAt c.arg1 16) = true := by
    rw [hv, Bool.and_true, cmdReg, h.names]
    rfl
  have ho := regAccess_curveCommit (s := s.taken 1 c) c.arg1 (slipOfBytes c.payload) hv
  rw [← hk, ← hu, hc, ← h.names] at ho
  simp only [State.offLink, Prod.mk.injEq, State.taken, State.takeToken_job, State.takeToken_vaults, State.takeToken_fars,
    State.takeToken_host, State.reserve_job, State.reserve_vaults, State.reserve_fars] at hl
  obtain ⟨hvjob, hvaults, hfars, hhost⟩ := hl
  have heng : v.eng = s.eng := by simpa [State.taken] using he
  obtain ⟨hdone, hunits, hjob, -⟩ :=
    command_done h.taken h.path (f := regWriteAt c (regOff c) s) rfl ho rfl rfl rfl (congrArg HostSt.rings hhost)
  exact ⟨_, congrArg Host.Outcome.next (if_pos hreg), hdone, hunits.pwr, hjob.trans hvjob, hunits.eng.trans heng,
    hunits.vaults.trans hvaults, hunits.fars.trans hfars⟩

/-- A table that fails its checks is not stored; STATUS says so. -/
theorem curveCommit_refuses (hi : installerOk s.pwr.window k.toNat u.toNat = false) :
    ∃ t, exec (.curveCommit c) s = .next t ∧ Completed t c 0x22 .ok 0 ∧
      t.pwr = { s.pwr with curveCtrl := t.pwr.curveCtrl } ∧ fld t.pwr.curveCtrl 63 56 = Status.badCharter.code.toNat ∧
      t.job = s.job ∧ t.eng = s.eng ∧ t.vaults = s.vaults ∧ t.fars = s.fars := by
  have hc : curveCommit k u (curveWord c.arg1) (s.taken 1 c) = (.ok, (s.taken 1 c).modPwr fun p => { p with
      curveCtrl := put Status.badCharter.code.toNat 56 ||| put (fld (curveWord c.arg1) 55 0) 0 }) := by
    unfold curveCommit
    rw [State.commitCurve_refused (by rw [State.taken_pwr]; exact hi)]
  obtain ⟨t, hx, hdone, hp, hrest⟩ := curveCommit_written h hv hk hu hc (by simp [State.offLink]) (by simp)
  rw [State.modPwr_pwr, State.taken_pwr] at hp
  refine ⟨t, hx, hdone, by rw [hp], ?_, hrest⟩
  rw [hp]
  exact fld_curveStatus _ _ (Nat.mod_lt _ (by decide))

/-- While 32 other tables are held, none is stored. -/
theorem curveCommit_conflicts (hi : installerOk s.pwr.window k.toNat u.toNat = true) (hn : 32 ≤ (s.otherCurves k u).length) :
    ∃ t, exec (.curveCommit c) s = .next t ∧ Completed t c 0x22 .stateConflict 0 ∧ t.pwr = s.pwr ∧ t.job = s.job ∧
      t.eng = s.eng ∧ t.vaults = s.vaults ∧ t.fars = s.fars := by
  have hc : curveCommit k u (curveWord c.arg1) (s.taken 1 c) = (.stateConflict, s.taken 1 c) := by
    unfold curveCommit
    rw [State.commitCurve_full (by rw [State.taken_pwr]; exact hi) (by rw [State.otherCurves, State.taken_pwr]; exact hn)]
  obtain ⟨t, hx, hdone, hp, hrest⟩ := curveCommit_written h hv hk hu hc rfl rfl
  exact ⟨t, hx, hdone, hp.trans (State.taken_pwr ..), hrest⟩

/-- A table that passes its checks is stored. -/
theorem curveCommit_stores (hi : installerOk s.pwr.window k.toNat u.toNat = true) (hn : (s.otherCurves k u).length < 32) :
    ∃ t, exec (.curveCommit c) s = .next t ∧ Completed t c 0x22 .ok 0 ∧ t.pwr.curveCtrl = curveWord c.arg1 ∧
      t.pwr.curves.head? = some (s.stagedCurve k u) ∧
      (∀ x ∈ s.pwr.curves, x.kind ≠ k ∨ x.target ≠ u → x ∈ t.pwr.curves) ∧ t.job = s.job ∧
      t.eng = s.eng ∧ t.vaults = s.vaults ∧ t.fars = s.fars := by
  obtain ⟨v, hst, hs⟩ := State.commitCurve_stores (s := s.taken 1 c) (by rw [State.taken_pwr]; exact hi)
    (by rw [State.otherCurves, State.taken_pwr]; exact hn)
  have hc : curveCommit k u (curveWord c.arg1) (s.taken 1 c) =
      (.ok, v.modPwr fun p => { p with curveCtrl := curveWord c.arg1 }) := by
    unfold curveCommit
    rw [hst]
  obtain ⟨t, hx, hdone, hp, hrest⟩ := curveCommit_written h hv hk hu hc hs.offLink hs.eng
  have hstaged : (s.taken 1 c).stagedCurve k u = s.stagedCurve k u := by
    unfold State.stagedCurve
    rw [State.taken_pwr, State.taken_job]
  have hcurves : t.pwr.curves = v.pwr.curves := by rw [hp, State.modPwr_pwr]
  refine ⟨t, hx, hdone, by rw [hp, State.modPwr_pwr], ?_, fun x hx => ?_, hrest⟩
  · rw [hcurves, hs.newest, hstaged]
  · rw [hcurves]
    exact hs.others x (by rwa [State.taken_pwr])

end

/-- No other entry is a commit. -/
theorem curveCommit_ignores {c : Cmd} (s : State) (h : cmdReg c ≠ some .curveCtrl ∨ bitAt c.arg1 16 = false) :
    exec (.curveCommit c) s = .next s :=
  congrArg Host.Outcome.next (if_neg (by rcases h with h | h <;> simp [h]))

end Sys2Proof.Machine
end

section
/-! PROOFS. O53: the treasurer (16 R470 to R483). -/

namespace Sys2Proof.Machine

/-- Settles O53, row by row: the flags and the throttle hold ALERT_N; a budget tick goes through reading, heat, tables and points,
each of which leaves what the others have set; a commit stores, refuses or conflicts by its checks and the tables held. -/
theorem treasurerKeepsTheBudget : Obligations.TreasurerKeepsTheBudget := by
  unfold Obligations.TreasurerKeepsTheBudget
  intro s
  refine ⟨⟨_, rfl, rfl, rfl, ?low⟩, ⟨_, rfl, rfl, rfl, ?high⟩, ⟨_, rfl, rfl, rfl⟩, ⟨_, rfl, rfl, rfl, State.throttleOn_alertN⟩,
    fun h => ⟨_, congrArg Host.Outcome.next (if_pos h), rfl, rfl⟩,
    fun h => congrArg Host.Outcome.next (if_neg (Nat.not_le.2 h)), ?tick, ?commit, fun _ => curveCommit_ignores s, ⟨_, rfl, rfl⟩⟩
  case low => exact fun hp => State.alert_alertN (.inl rfl) hp
  case high => exact fun hp => State.alert_alertN (.inr (.inl rfl)) hp
  case tick =>
    intro r
    obtain ⟨t, hx, h⟩ := budgetTick_ticked s r
    have hlevel := h.level.trans (PwrSt.ticked_level ..)
    have hover := h.overTicks.trans (PwrSt.ticked_overTicks ..)
    have hthrottle := h.throttle.trans (PwrSt.ticked_throttle ..)
    refine ⟨t, hx, h.job, h.vaults, h.fars, h.eng_kept, fun hs ht e => ?ramps, ?volts, ?budget, fun hw => ⟨?count, ?lower⟩,
      fun hw => ?within, fun hw => ?raise, fun hw hh => ?stay, fun hs hf hw => ?release, fun hs hf => ⟨?lasts, ?whole⟩,
      fun i x => h.heat_hot, h.freq⟩
    case ramps =>
      obtain ⟨src, he⟩ := h.eng_released hs ht e
      rw [he]
      exact ⟨rfl, Engine.rampsAgain_arr _ src⟩
    case volts => rw [h.pwr_only, PwrSt.ticked_only]
    case budget => rw [h.pwr_only, PwrSt.ticked_only]
    case count => rw [hover, if_pos hw]
    case lower => rw [hlevel, if_pos hw]
    case within => rw [hover, if_neg (Nat.not_lt.2 hw)]
    case raise => exact hlevel.trans ((if_neg (by omega)).trans (if_pos hw))
    case stay => exact hlevel.trans ((if_neg (Nat.not_lt.2 hw)).trans (if_neg (Nat.not_lt.2 hh)))
    case release => simp [hthrottle, hf, hw]
    case lasts => simp [hthrottle, hs, hf]
    case whole => exact h.throttleWhole.trans (PwrSt.ticked_whole r hs hf)
  case commit =>
    intro c k u h hv hk hu
    refine ⟨curveCommit_refuses h hv hk hu, curveCommit_conflicts h hv hk hu, fun hi hn => ?_⟩
    obtain ⟨t, hx, hdone, hctrl, hhead, hothers, hrest⟩ := curveCommit_stores h hv hk hu hi hn
    exact ⟨t, _, hx, hdone, hctrl, hhead, hothers, rfl, rfl, rfl, s.stagedCurve_waiting k u, hrest⟩

end Sys2Proof.Machine
end
